-- ==== Sys2Proof/Word.lean ====
section
/-! DEFINITION. The machine's plain word types (R1: little-endian, bit 0 least significant). -/

namespace Sys2Proof

/-- A scalar register, a control register, a generic address (R150, R9). -/
abbrev Word := BitVec 64

/-- One byte of memory. -/
abbrev Byte := BitVec 8

/-- One row of a tile register, or one row of an accumulator: 256 bytes (R150, R285). -/
abbrev Row := BitVec 2048

end Sys2Proof
end

