-- ==== Sys2Proof/Config.lean ====
section
/-! DEFINITION. What one implementation fixes, and the free values: every value the spec leaves open is an
opaque constant here, applied to the plain counter `free` of State (log entries 2 to 9). -/

namespace Sys2Proof.Config

/-- Extra delay, beyond the unloaded figures of R36, R23 and R398, that contention adds (R36: not bounded). -/
opaque delay : Nat → Nat

/-- The value a slot reads from the destination of an uncovered counted request (R44: undefined). -/
opaque undefinedRow : Nat → Row

/-- Which entry of a full translation cache is replaced (R23 gives no policy). -/
opaque victim : Nat → Nat

/-- Words taken from the core's exposed accesses by promoted requesters in one cycle (R39 rule 1, R292). -/
opaque promoted : Nat → Nat

/-- Draws that the spec leaves to chance: intermediates of R362, order of free-order sums (R322 MODE 0). -/
opaque draw : Nat → Nat

/-- Whether a training of a lane or a stack fails (R354, R78): no rule states the outcome. -/
opaque trainFails : Nat → Bool

/-- Whether the far end answers with the device id R357 expects, as found at training. -/
opaque farEnd : Nat → BitVec 16

/-- The outcome of the signature and key checks of the national standards the spec cites (R390, R391). -/
opaque signatureOk : List Byte → Bool

/-- SM3 digest of a byte string (R390, R393; GB/T 32905, outside the spec). -/
opaque sm3 : List Byte → BitVec 256

/-- SM2 signature over a digest under the device key (R393). -/
opaque sm2Sign : BitVec 256 → BitVec 512

/-- SM2 decryption of a key ciphertext under the device's private key (R375): `none` when it fails. -/
opaque sm2Open : List Byte → Option (BitVec 256)

/-- Whether the private key derived from the start-up state matches a public key (R391 step 3). -/
opaque keyMatches : BitVec 512 → Bool

/-- The first 160 bits of the SM3 key derivation of a byte string (R375; GB/T 32918.4, outside the spec). -/
opaque sm3Kdf : List Byte → BitVec 160

/-- SM4-GCM over one tag group (R374): traffic key and salt, group counter, additional data and clear bytes give the
ciphertext and the tag. -/
opaque sm4Seal : BitVec 160 → BitVec 64 → List Byte → List Byte → List Byte × BitVec 128

/-- The inverse of `sm4Seal`: the clear bytes, or `none` when the tag does not check. -/
opaque sm4Open : BitVec 160 → BitVec 64 → List Byte → List Byte → BitVec 128 → Option (List Byte)

/-- The clear bytes of a group before its check, as skid mode passes them on (R374). -/
opaque sm4Plain : BitVec 160 → BitVec 64 → List Byte → List Byte

/-- The fabric manager's own key for job 0, which slot 0 holds after boot (R376). -/
opaque managerKey : BitVec 256

/-- The root devices of a job, installed by the fabric manager with its key (R371): the spec gives no format. -/
opaque rootDevices : Nat → List Nat

/-- Which device and collective context a rank of a job's group is (R321, R372): the spec gives no map. -/
opaque rankAt : Nat → Nat → Nat → BitVec 16 × Nat

/-- Whether a member elsewhere is seen to hold a descriptor that disagrees (R321): no packet of R360 carries COUNT or
NRANK, and no rule says how a member learns of a disagreement that its own packets do not show. -/
opaque disagrees : Nat → Bool

/-- A byte that a control core reads at a physical address outside the device's map, or a choice of its pace (R384, R391): no rule
gives it. -/
opaque outerByte : Nat → Nat → BitVec 8

/-- The value of a control core's counter (R384). -/
opaque outerWord : Nat → BitVec 64

/-- Where a control core begins: the boot ROM, or the firmware (R391). -/
opaque hartEntry : Nat → BitVec 64

/-- Whether a store-conditional that may succeed fails (R384). -/
opaque scFails : Nat → Bool

/-- The result and the flags of a floating-point operation of the control cores (R384; IEEE 754, outside the spec): operation,
dynamic rounding mode, operands. -/
opaque ieee : Nat → Nat → BitVec 64 → BitVec 64 → BitVec 64 → BitVec 64 × BitVec 5

/-- Power and temperature readings of one dredge period (R394: measured, not stated). -/
opaque reading : Nat → Nat

end Sys2Proof.Config
end

