-- ==== Sys2Proof/Syntax.lean ====
section
/-! DEFINITION. The instruction set as one inductive: a constructor for every row of the opcode table. A slot
operation carries the fields of its encoding (R209 to R218); an event, a packet or a command carries what it acts on. -/

namespace Sys2Proof

/-- NEG and GRD of a slot (R209): the slot is performed when p[grd] xor neg = 1. -/
structure Guard where
  neg : Bool
  grd : BitVec 3
  deriving DecidableEq, Repr, Inhabited

/-- The common fields of an M slot (R209, R245); `m1` says which memory slot presents it (R202, R13). -/
structure MHdr where
  m1 : Bool
  g : Guard
  hold : Bool
  deriving DecidableEq, Repr, Inhabited

/-- The common fields of a V slot (R209, R266); `beats` holds BEATS - 1. -/
structure VHdr where
  g : Guard
  hold : Bool
  beats : BitVec 6
  deriving DecidableEq, Repr, Inhabited

/-- The common fields of an X slot (R209); `beats` holds BEATS - 1. -/
structure XHdr where
  g : Guard
  hold : Bool
  beats : BitVec 8
  deriving DecidableEq, Repr, Inhabited

/-- A 64-byte flit (R350), byte j at bits 8j. -/
abbrev Flit := BitVec 512

/-- A fabric packet (R358): the header words H0 to H3 field by field, and the data bytes. -/
structure Packet where
  dst : BitVec 16
  src : BitVec 16
  job : BitVec 16
  kind : BitVec 8
  tp : Bool
  dn : Bool
  nm : Bool
  hops : BitVec 4
  esc : Bool
  int : BitVec 16
  len : BitVec 13
  tag : BitVec 24
  sub : BitVec 8
  addr : BitVec 52
  aux : BitVec 52
  data : List Byte
  deriving DecidableEq, Repr, Inhabited

/-- Every instruction, event, packet and command of the opcode table, in the table's order. -/
inductive Instr where
  -- the S slots
  | nop (g : Guard) (x : BitVec 22)
  | add (g : Guard) (rd : BitVec 5) (ra : BitVec 5) (rb : BitVec 5)
  | sub (g : Guard) (rd : BitVec 5) (ra : BitVec 5) (rb : BitVec 5)
  | addi (g : Guard) (rd : BitVec 5) (ra : BitVec 5) (imm : BitVec 12)
  | mul (g : Guard) (rd : BitVec 5) (ra : BitVec 5) (rb : BitVec 5)
  | mulhI (g : Guard) (rd : BitVec 5) (ra : BitVec 5) (rb : BitVec 5)
  | mulhN (g : Guard) (rd : BitVec 5) (ra : BitVec 5) (rb : BitVec 5)
  | and (g : Guard) (rd : BitVec 5) (ra : BitVec 5) (rb : BitVec 5)
  | or (g : Guard) (rd : BitVec 5) (ra : BitVec 5) (rb : BitVec 5)
  | xor (g : Guard) (rd : BitVec 5) (ra : BitVec 5) (rb : BitVec 5)
  | andn (g : Guard) (rd : BitVec 5) (ra : BitVec 5) (rb : BitVec 5)
  | andi (g : Guard) (rd : BitVec 5) (ra : BitVec 5) (imm : BitVec 12)
  | ori (g : Guard) (rd : BitVec 5) (ra : BitVec 5) (imm : BitVec 12)
  | xori (g : Guard) (rd : BitVec 5) (ra : BitVec 5) (imm : BitVec 12)
  | shl (g : Guard) (rd : BitVec 5) (ra : BitVec 5) (rb : BitVec 5)
  | shr (g : Guard) (rd : BitVec 5) (ra : BitVec 5) (rb : BitVec 5)
  | sar (g : Guard) (rd : BitVec 5) (ra : BitVec 5) (rb : BitVec 5)
  | ror (g : Guard) (rd : BitVec 5) (ra : BitVec 5) (rb : BitVec 5)
  | shli (g : Guard) (rd : BitVec 5) (ra : BitVec 5) (c : BitVec 6)
  | shri (g : Guard) (rd : BitVec 5) (ra : BitVec 5) (c : BitVec 6)
  | sari (g : Guard) (rd : BitVec 5) (ra : BitVec 5) (c : BitVec 6)
  | rori (g : Guard) (rd : BitVec 5) (ra : BitVec 5) (c : BitVec 6)
  | bfxN (g : Guard) (rd : BitVec 5) (ra : BitVec 5) (pos : BitVec 6) (len : BitVec 6)
  | bfxI (g : Guard) (rd : BitVec 5) (ra : BitVec 5) (pos : BitVec 6) (len : BitVec 6)
  | bfi (g : Guard) (rd : BitVec 5) (ra : BitVec 5) (pos : BitVec 6) (len : BitVec 6)
  | clz (g : Guard) (rd : BitVec 5) (ra : BitVec 5)
  | ctz (g : Guard) (rd : BitVec 5) (ra : BitVec 5)
  | popc (g : Guard) (rd : BitVec 5) (ra : BitVec 5)
  | minI (g : Guard) (rd : BitVec 5) (ra : BitVec 5) (rb : BitVec 5)
  | minN (g : Guard) (rd : BitVec 5) (ra : BitVec 5) (rb : BitVec 5)
  | maxI (g : Guard) (rd : BitVec 5) (ra : BitVec 5) (rb : BitVec 5)
  | maxN (g : Guard) (rd : BitVec 5) (ra : BitVec 5) (rb : BitVec 5)
  | sel (g : Guard) (rd : BitVec 5) (ra : BitVec 5) (rb : BitVec 5) (pn : Bool) (ps : BitVec 3)
  | movi (g : Guard) (rd : BitVec 5) (imm : BitVec 17)
  | movhi (g : Guard) (rd : BitVec 5) (imm : BitVec 17)
  | cmp (g : Guard) (pd : BitVec 3) (cond : BitVec 4) (ra : BitVec 5) (rb : BitVec 5) (cm : BitVec 2)
  | cmpi (g : Guard) (pd : BitVec 3) (cond : BitVec 4) (ra : BitVec 5) (cm : BitVec 2) (imm : BitVec 8)
  | plog (g : Guard) (pd : BitVec 3) (pa : BitVec 3) (pb : BitVec 3) (lut : BitVec 4)
  | pmovWr (g : Guard) (reg : BitVec 5) (mask : BitVec 8)
  | pmovRd (g : Guard) (reg : BitVec 5)
  | br (g : Guard) (tgt : BitVec 6)
  | brx (g : Guard)
  | jmp (g : Guard) (ra : BitVec 5)
  | call (g : Guard) (rd : BitVec 5) (ra : BitVec 5)
  | ret (g : Guard) (ra : BitVec 5)
  | loopReg (g : Guard) (ra : BitVec 5) (start : BitVec 6) (exit : BitVec 6)
  | loopImm (g : Guard) (cnt : BitVec 9) (start : BitVec 6) (exit : BitVec 6)
  | endl (g : Guard)
  | brk (g : Guard) (tgt : BitVec 6)
  | endT (g : Guard)
  | trap (g : Guard) (code : BitVec 16)
  -- the M slots
  | mnop (h : MHdr) (x : BitVec 37)
  | ldb (h : MHdr) (rd : BitVec 5) (ra : BitVec 5) (ord : BitVec 3) (scope : BitVec 3) (mode : BitVec 2) (off : BitVec 10) (disp : BitVec 9)
  | ldh (h : MHdr) (rd : BitVec 5) (ra : BitVec 5) (ord : BitVec 3) (scope : BitVec 3) (mode : BitVec 2) (off : BitVec 10) (disp : BitVec 9)
  | ldw (h : MHdr) (rd : BitVec 5) (ra : BitVec 5) (ord : BitVec 3) (scope : BitVec 3) (mode : BitVec 2) (off : BitVec 10) (disp : BitVec 9)
  | ld (h : MHdr) (rd : BitVec 5) (ra : BitVec 5) (ord : BitVec 3) (scope : BitVec 3) (mode : BitVec 2) (off : BitVec 10) (disp : BitVec 9)
  | ldbs (h : MHdr) (rd : BitVec 5) (ra : BitVec 5) (ord : BitVec 3) (scope : BitVec 3) (mode : BitVec 2) (off : BitVec 10) (disp : BitVec 9)
  | ldhs (h : MHdr) (rd : BitVec 5) (ra : BitVec 5) (ord : BitVec 3) (scope : BitVec 3) (mode : BitVec 2) (off : BitVec 10) (disp : BitVec 9)
  | ldws (h : MHdr) (rd : BitVec 5) (ra : BitVec 5) (ord : BitVec 3) (scope : BitVec 3) (mode : BitVec 2) (off : BitVec 10) (disp : BitVec 9)
  | stb (h : MHdr) (rs : BitVec 5) (ra : BitVec 5) (ord : BitVec 3) (scope : BitVec 3) (disp : BitVec 9)
  | sth (h : MHdr) (rs : BitVec 5) (ra : BitVec 5) (ord : BitVec 3) (scope : BitVec 3) (disp : BitVec 9)
  | stw (h : MHdr) (rs : BitVec 5) (ra : BitVec 5) (ord : BitVec 3) (scope : BitVec 3) (disp : BitVec 9)
  | st (h : MHdr) (rs : BitVec 5) (ra : BitVec 5) (ord : BitVec 3) (scope : BitVec 3) (disp : BitVec 9)
  | ldrow (h : MHdr) (t : BitVec 4) (e : BitVec 6) (nm : BitVec 6) (ra : BitVec 5) (rstr : BitVec 5) (mode : BitVec 2) (off : BitVec 9)
  | strow (h : MHdr) (t : BitVec 4) (e : BitVec 6) (nm : BitVec 6) (ra : BitVec 5) (rstr : BitVec 5)
  | atom (h : MHdr) (rd : BitVec 5) (ra : BitVec 5) (rb : BitVec 5) (rc : BitVec 5) (aop : BitVec 4) (w : Bool) (rv : Bool) (ord : BitVec 3) (scope : BitVec 3)
  | fence (h : MHdr) (ord : BitVec 3) (scope : BitVec 3)
  | probe (h : MHdr) (pd : BitVec 3) (rdp : BitVec 4) (ra : BitVec 5) (wayf : Bool) (way : BitVec 3) (mb : Bool) (tgt : BitVec 6) (barf : Bool) (rb : BitVec 5)
  | fill (h : MHdr) (rd : BitVec 5) (ra : BitVec 5) (wayf : Bool) (way : BitVec 3) (barf : Bool) (rb : BitVec 5)
  | evict (h : MHdr) (wb : Bool) (ra : BitVec 5) (rd : BitVec 5)
  | wback (h : MHdr) (ra : BitVec 5) (rd : BitVec 5)
  | cvta (h : MHdr) (rd : BitVec 5) (ra : BitVec 5) (dir : BitVec 2)
  | aptest (h : MHdr) (pd : BitVec 3) (ra : BitVec 5) (sp : Bool)
  | wait (h : MHdr) (l : BitVec 4) (s : BitVec 4) (c : BitVec 4) (t : BitVec 4)
  | mon (h : MHdr) (ent : BitVec 3) (ra : BitVec 5) (rb : BitVec 5) (cmp : BitVec 3) (w : Bool) (rt : BitVec 5)
  | mwait (h : MHdr) (mask : BitVec 8) (rd : BitVec 5)
  -- the V slots
  | vnop (h : VHdr) (x : BitVec 30)
  | vadd (h : VHdr) (dt : BitVec 4) (row : BitVec 6) (ta : BitVec 4) (tb : BitVec 4) (br : BitVec 6) (bfix : Bool)
  | vsub (h : VHdr) (dt : BitVec 4) (row : BitVec 6) (ta : BitVec 4) (tb : BitVec 4) (br : BitVec 6) (bfix : Bool)
  | vmul (h : VHdr) (dt : BitVec 4) (row : BitVec 6) (ta : BitVec 4) (tb : BitVec 4) (br : BitVec 6) (bfix : Bool)
  | vfma (h : VHdr) (dt : BitVec 4) (row : BitVec 6) (ta : BitVec 4) (tb : BitVec 4) (br : BitVec 6) (bfix : Bool)
  | vmin (h : VHdr) (dt : BitVec 4) (row : BitVec 6) (ta : BitVec 4) (tb : BitVec 4) (br : BitVec 6) (bfix : Bool)
  | vmax (h : VHdr) (dt : BitVec 4) (row : BitVec 6) (ta : BitVec 4) (tb : BitVec 4) (br : BitVec 6) (bfix : Bool)
  | vabs (h : VHdr) (dt : BitVec 4) (row : BitVec 6) (ta : BitVec 4)
  | vneg (h : VHdr) (dt : BitVec 4) (row : BitVec 6) (ta : BitVec 4)
  | vcmp (h : VHdr) (dt : BitVec 4) (row : BitVec 6) (ta : BitVec 4) (tb : BitVec 4) (br : BitVec 6) (bfix : Bool) (ty : BitVec 3)
  | vsel (h : VHdr) (dt : BitVec 4) (row : BitVec 6) (ta : BitVec 4) (tb : BitVec 4) (br : BitVec 6) (bfix : Bool) (ty : BitVec 3)
  | vexp2 (h : VHdr) (dt : BitVec 4) (row : BitVec 6) (ta : BitVec 4)
  | vlog2 (h : VHdr) (dt : BitVec 4) (row : BitVec 6) (ta : BitVec 4)
  | vrcp (h : VHdr) (dt : BitVec 4) (row : BitVec 6) (ta : BitVec 4)
  | vrsqrt (h : VHdr) (dt : BitVec 4) (row : BitVec 6) (ta : BitVec 4)
  | vscale (h : VHdr) (dt : BitVec 4) (row : BitVec 6) (ta : BitVec 4) (tb : BitVec 4) (br : BitVec 6) (bfix : Bool) (imm : Bool)
  | viadd (h : VHdr) (dt : BitVec 4) (row : BitVec 6) (ta : BitVec 4) (tb : BitVec 4) (br : BitVec 6) (bfix : Bool) (ty : BitVec 3) (sat : Bool)
  | visub (h : VHdr) (dt : BitVec 4) (row : BitVec 6) (ta : BitVec 4) (tb : BitVec 4) (br : BitVec 6) (bfix : Bool) (ty : BitVec 3) (sat : Bool)
  | vimul (h : VHdr) (dt : BitVec 4) (row : BitVec 6) (ta : BitVec 4) (tb : BitVec 4) (br : BitVec 6) (bfix : Bool) (ty : BitVec 3) (sat : Bool)
  | vimin (h : VHdr) (dt : BitVec 4) (row : BitVec 6) (ta : BitVec 4) (tb : BitVec 4) (br : BitVec 6) (bfix : Bool) (ty : BitVec 3)
  | vimax (h : VHdr) (dt : BitVec 4) (row : BitVec 6) (ta : BitVec 4) (tb : BitVec 4) (br : BitVec 6) (bfix : Bool) (ty : BitVec 3)
  | vand (h : VHdr) (dt : BitVec 4) (row : BitVec 6) (ta : BitVec 4) (tb : BitVec 4) (br : BitVec 6) (bfix : Bool)
  | vor (h : VHdr) (dt : BitVec 4) (row : BitVec 6) (ta : BitVec 4) (tb : BitVec 4) (br : BitVec 6) (bfix : Bool)
  | vxor (h : VHdr) (dt : BitVec 4) (row : BitVec 6) (ta : BitVec 4) (tb : BitVec 4) (br : BitVec 6) (bfix : Bool)
  | vshl (h : VHdr) (dt : BitVec 4) (row : BitVec 6) (ta : BitVec 4) (tb : BitVec 4) (br : BitVec 6) (bfix : Bool) (ty : BitVec 3) (imm : Bool)
  | vshr (h : VHdr) (dt : BitVec 4) (row : BitVec 6) (ta : BitVec 4) (tb : BitVec 4) (br : BitVec 6) (bfix : Bool) (ty : BitVec 3) (imm : Bool)
  | vsar (h : VHdr) (dt : BitVec 4) (row : BitVec 6) (ta : BitVec 4) (tb : BitVec 4) (br : BitVec 6) (bfix : Bool) (ty : BitVec 3) (imm : Bool)
  | vcvt (h : VHdr) (dt : BitVec 4) (dr : BitVec 6) (ta : BitVec 4) (ar : BitVec 6) (se : BitVec 4) (de : BitVec 4)
  | vpackd (h : VHdr) (dt : BitVec 4) (dr : BitVec 6) (ta : BitVec 4) (ar : BitVec 6) (mr : BitVec 6) (w : Bool)
  | vunpkd (h : VHdr) (dt : BitVec 4) (dr : BitVec 6) (ta : BitVec 4) (ar : BitVec 6) (mr : BitVec 6) (w : Bool)
  | vpackm (h : VHdr) (dt : BitVec 4) (dr : BitVec 6) (ta : BitVec 4) (ar : BitVec 6) (sr : BitVec 6) (mf : BitVec 4)
  | vunpkm (h : VHdr) (dt : BitVec 4) (dr : BitVec 6) (ta : BitVec 4) (ar : BitVec 6) (sr : BitVec 6) (mf : BitVec 4)
  | vrsum (h : VHdr) (dt : BitVec 4) (dr : BitVec 6) (ta : BitVec 4) (ar : BitVec 6) (doff : BitVec 7) (acc : Bool)
  | vrmax (h : VHdr) (dt : BitVec 4) (dr : BitVec 6) (ta : BitVec 4) (ar : BitVec 6) (doff : BitVec 7) (acc : Bool)
  | vrmin (h : VHdr) (dt : BitVec 4) (dr : BitVec 6) (ta : BitVec 4) (ar : BitVec 6) (doff : BitVec 7) (acc : Bool)
  | vshuf (h : VHdr) (dt : BitVec 4) (row : BitVec 6) (ta : BitVec 4) (tb : BitVec 4) (br : BitVec 6) (bfix : Bool) (ty : BitVec 3)
  | vtrans (h : VHdr) (dt : BitVec 4) (dq : BitVec 2) (ta : BitVec 4) (aq : BitVec 2) (w : BitVec 2)
  | vmov (h : VHdr) (dt : BitVec 4) (dr : BitVec 6) (ta : BitVec 4) (ar : BitVec 6)
  | vzrd (h : VHdr) (dt : BitVec 4) (dr : BitVec 6) (z : BitVec 2) (zr : BitVec 6)
  | vzwr (h : VHdr) (z : BitVec 2) (zr : BitVec 6) (ta : BitVec 4) (ar : BitVec 6)
  | vbcast (h : VHdr) (dt : BitVec 4) (dr : BitVec 6) (rs : BitVec 5) (w : BitVec 2)
  -- the X slots
  | xnop (h : XHdr) (x : BitVec 22)
  | mma (h : XHdr) (rpe : Bool) (cnt : BitVec 12) (inca : BitVec 5) (incb : BitVec 5) (z : BitVec 2) (ra : BitVec 5) (rsa : BitVec 5) (rb : BitVec 5) (rsb : BitVec 5)
  | mmaTb (h : XHdr) (rpe : Bool) (cnt : BitVec 12) (inca : BitVec 5) (incb : BitVec 5) (z : BitVec 2) (ra : BitVec 5) (rsa : BitVec 5) (rbs : BitVec 5) (pos : BitVec 3) (rel : Bool)
  | zzero (h : XHdr) (z : BitVec 2)
  | zscale (h : XHdr) (z : BitVec 2) (t : BitVec 4) (row : BitVec 6) (ax : Bool)
  | zout (h : XHdr) (z : BitVec 2) (dt : BitVec 4) (row : BitVec 6) (zr : BitVec 6) (df : BitVec 4)
  -- the C slots
  | cnop (g : Guard) (x : BitVec 38)
  | copy (g : Guard) (ch : BitVec 2) (ra : BitVec 5)
  | close (g : Guard)
  | binit (g : Guard) (ra : BitVec 5) (rn : BitVec 5) (rs : BitVec 5)
  | barrive (g : Guard) (ra : BitVec 5) (rs : BitVec 5) (exp : Bool) (scope : BitVec 3)
  | bwait (g : Guard) (test : Bool) (pd : BitVec 3) (ra : BitVec 5) (rph : BitVec 5) (scope : BitVec 3)
  | waitl (g : Guard) (test : Bool) (pd : BitVec 3) (ctxk : BitVec 3) (rc : BitVec 5) (rn : BitVec 5) (scope : BitVec 3)
  | gjoin (g : Guard) (rg : BitVec 5)
  | gleave (g : Guard) (rg : BitVec 5)
  | gbar (g : Guard) (rg : BitVec 5) (mode : BitVec 2) (pd : BitVec 3)
  | setfmt (g : Guard) (msk : BitVec 5) (img : BitVec 20)
  | crr (g : Guard) (rd : BitVec 5) (cr : BitVec 12)
  | crw (g : Guard) (rs : BitVec 5) (cr : BitVec 12)
  | dcal (g : Guard) (rd : BitVec 5)
  | dleft (g : Guard) (rd : BitVec 5) (pd : BitVec 3)
  | tlbi (g : Guard) (form : BitVec 2) (rs : BitVec 5) (ra : BitVec 5)
  | tlbiSync (g : Guard)
  | tret (g : Guard)
  | amark (g : Guard) (k : BitVec 2) (ra : BitVec 5) (rl : BitVec 5)
  -- the Q slots
  | qnop (g : Guard) (x : BitVec 38)
  | enqt (g : Guard) (ra : BitVec 5)
  | eboard (g : Guard) (rd : BitVec 5) (rw : BitVec 5) (any : Bool) (t : BitVec 4) (e : BitVec 6) (ord : BitVec 2) (atr : Bool) (off : BitVec 10)
  | ealight (g : Guard) (rw : BitVec 5) (dep : Bool) (ra : BitVec 5) (ord : BitVec 2)
  | ecap (g : Guard) (rd : BitVec 5) (rw : BitVec 5) (ra : BitVec 5) (f : BitVec 3) (cop : BitVec 3) (ord : BitVec 2) (atr : Bool) (off : BitVec 10)
  | erow (g : Guard) (t : BitVec 4) (e : BitVec 6) (rw : BitVec 5) (ord : BitVec 2) (atr : Bool) (off : BitVec 10)
  | ewhen (g : Guard) (rd : BitVec 5) (rw : BitVec 5)
  | tboard (g : Guard) (rl : BitVec 5) (rf : BitVec 5) (re : BitVec 5) (rs : BitVec 5) (d : BitVec 2)
  | twait (g : Guard) (rd : BitVec 5) (n : BitVec 4)
  | tleave (g : Guard)
  | tstat (g : Guard) (rd : BitVec 5)
  | tspeed (g : Guard) (spd : BitVec 3)
  | fst (g : Guard) (rdst : BitVec 5) (rsrc : BitVec 5) (rlen : BitVec 5) (rctr : BitVec 5) (ctr : Bool)
  | fld (g : Guard) (rdst : BitVec 5) (rsrc : BitVec 5) (rlen : BitVec 5) (rctr : BitVec 5) (ctr : Bool)
  | fatom (g : Guard) (rd : BitVec 5) (ra : BitVec 5) (rb : BitVec 5) (aop : BitVec 4) (w : Bool) (rv : Bool) (ord : BitVec 2) (atr : Bool) (off : BitVec 10)
  | vatom (g : Guard) (ra : BitVec 5) (t : BitVec 4) (e : BitVec 6) (h : Bool) (ft : Bool)
  | coll (g : Guard) (rd : BitVec 5) (ra : BitVec 5)
  -- the control cores (R385)
  | qenq (rs2 : BitVec 5) (rs1 : BitVec 5) (rd : BitVec 5)
  | qfence
  -- events, packets and commands
  | controlRegisterWrite (pa len : Nat) (data : Word)
  | pageTableWalkComplete (walk : Nat)
  | migratingRewalk (walk : Nat)
  | tlbiCommandComplete
  | timedLanding (core : Nat)
  | requestDataArrival (core req part : Nat)
  | memoryWritePerformed (core req part : Nat)
  | watchTimeout (core ent : Nat)
  | freezeRelease (core : Nat)
  | freezeLimit (core : Nat)
  | stalledBundleIssue (core : Nat)
  | scrubRead (core : Nat)
  | fillComplete (core n : Nat)
  | writebackComplete (core n : Nat)
  | makeliveComplete
  | dropHoldDone
  | dropDrainDone
  | dropRebuildDone
  | pcerrInterval
  | eddySlotPass (stage : Nat)
  | tapOperationPerformed (core : Nat)
  | eboardAnyTimeout (core : Nat)
  | teardownComplete
  | reclaimComplete
  | lapBegin
  | weirTileSend
  | tideTilePass (core tile : Nat)
  | tideTileLand (core : Nat)
  | tideRegistration (core : Nat)
  | boardingTimeout (core : Nat)
  | taskRecordArrival (die entry : Nat)
  | spillReload (die : Nat)
  | taskConditionMet (die entry : Nat)
  | schedulerPick (die : Nat)
  | priorityAging (die entry : Nat)
  | threadStart (core : Nat)
  | preemptionTaken (core : Nat)
  | saveLandingTimeout (core : Nat)
  | saveComplete (core : Nat)
  | restoreComplete (core : Nat)
  | killTaken (core : Nat)
  | endComplete (core : Nat)
  | segmentExpansionComplete (core : Nat)
  | copyRecordProcess (ctx : Nat)
  | copyRecordComplete (ctx : Nat)
  | barrierUpdate (pa : Nat) (arrive : Bool) (sectors : Word) (who : Nat)
  | groupPhaseComplete (job gid : Nat)
  | trapEntry (core : Nat)
  | drainLead
  | windowOpen
  | windowClose
  | railRecalDone (die : Nat)
  | auditReplayStart
  | auditCompare
  | linkRetryTimeout (port : Nat)
  | laneErrorInterval (port : Nat)
  | laneTrainPass (port lane : Nat)
  | linkTrainingDone (port : Nat)
  | packetRoute (id : Nat)
  | escapeTimeout (id : Nat)
  | combineWindowEnd (line : Nat) (ft : Bool)
  | retryBackoff (tag : Nat)
  | e2eTimeout (tag : Nat)
  | tagReuseReady
  | replyCacheExpiry (src tag : Nat)
  | keyCommandComplete
  | deviceResetBoot
  | quoteComplete
  | resultWrite (core : Nat)
  | matrixBeat (core : Nat)
  | tlbiTakesEffect (id : Nat)
  | quokorStore (hart pa len : Nat) (data : Word)
  -- commands, link-control flits, packets and inputs: performed by the step that receives them
  | tlbicmdPage (asid : BitVec 16)
  | tlbicmdSpace (asid : BitVec 16)
  | tlbicmdAll
  | makelive (arg : BitVec 24) (comp : Bool)
  | makedead (arg : BitVec 24)
  | setscheme (arg : BitVec 24) (il : BitVec 3)
  | drop (arg : BitVec 24)
  | rehash
  | teardown (job : BitVec 16)
  | reclaim (slot : BitVec 16)
  | tideCtlWrite (val : Word)
  | schedCtlWrite (die : Nat) (val : Word)
  | schedPreempt (die core : Nat)
  | schedKill (die core : Nat)
  | fqResume (frame : Nat)
  | fqKill (frame : Nat)
  | fqRestart (ctx : Nat)
  | fqAbandon (ctx : Nat)
  | portCfgWrite (port : Nat) (val : Word)
  | bwCtlWrite (val : Word)
  | install (slot : BitVec 6) (job epoch : BitVec 16)
  | zero (slot : BitVec 6)
  | zerojob (job : BitVec 16)
  | featAcceptWrite (val : Word)
  | quote (pa : Nat)
  | pccCfgWrite (core : Nat) (val : Word)
  | nakReceive (port ack : Nat)
  | idle (port : Nat)
  | credit (port : Nat) (returns : List Nat)
  | mapnak (port : Nat) (mask : BitVec 8) (ack : Nat)
  | mapadd (port : Nat) (mask : BitVec 8) (seq : Nat)
  | xack (port n : Nat)
  | xseq (port n : Nat)
  | wr (p : Packet)
  | rdreq (p : Packet)
  | atomPacket (p : Packet)
  | ctradd (p : Packet)
  | vatomPacket (p : Packet)
  | barArvArrive (p : Packet)
  | barArvJoin (p : Packet)
  | barArvLeave (p : Packet)
  | collp (p : Packet)
  | barrel (p : Packet)
  | ack (p : Packet)
  | rdrsp (p : Packet)
  | atomrsp (p : Packet)
  | retry (p : Packet)
  | err (p : Packet)
  | mgtmsgWrite (p : Packet)
  | mgtmsgHealth (p : Packet)
  | mgtmsgKey (p : Packet)
  | flitReceive (port : Nat) (flit : Flit)
  | laneLossOfLock (port lane : Nat)
  | uncorrectableCodeword (port lane : Nat)
  | railError (die rail : Nat)
  | temperatureEvent (temp power : Nat)
  | recoveryUpload (image firmware : List (BitVec 8)) (resets : Bool)
  deriving DecidableEq, Repr, Inhabited

end Sys2Proof
end

