-- ==== Sys2Proof/WellFormed.lean ====
section
/-! DEFINITION. Which field values an encoding may hold (R210 to R212, R228, R246, R302 and each entry): a slot
that breaks one of these raises the illegal-slot trap whatever its guard. Checks that need the machine's state (a
privileged thread, FMT, a beat limit) are made when the slot is performed. -/

namespace Sys2Proof

/-- SCOPE values every entry refuses: 4, 6 and 7 (R246, R311). -/
def scopeOk (scope : BitVec 3) : Bool := scope != 4 && scope != 6 && scope != 7

/-- A nonzero SCOPE needs an ORD (R246). -/
def ordScopeOk (ord scope : BitVec 3) : Bool := scopeOk scope && (ord != 0 || scope == 0)

/-- ORD of a load (R246). -/
def loadOrdOk (ord : BitVec 3) : Bool := ord == 0 || ord == 1 || ord == 4

/-- ORD of a store (R246). -/
def storeOrdOk (ord : BitVec 3) : Bool := ord == 0 || ord == 2 || ord == 4

/-- MODE and AT of a scalar load (R251). -/
def loadModeOk (mode : BitVec 2) (off : BitVec 10) : Bool :=
  if mode == 1 then off != 0 else if mode == 2 then decide (off.toNat < 32) else off == 0

/-- MODE and AT of an LDROW (R253). -/
def rowModeOk (mode : BitVec 2) (off : BitVec 9) : Bool :=
  if mode == 0 then off == 0 else if mode == 1 then off != 0 else if mode == 2 then decide (off.toNat < 32) else false

/-- ATR and AT of a variable-latency entry (R303). -/
def atrOk (atr : Bool) (off : BitVec 10) : Bool := !atr || decide (off.toNat < 32)

/-- The rows of an LDROW or STROW stay within the tile (R253). -/
def rowsOk (e nm : BitVec 6) : Bool := decide (e.toNat + nm.toNat + 1 ≤ 64)

/-- pos + len does not exceed 64 (R233), with len = LENM1 + 1. -/
def bitFieldOk (pos len : BitVec 6) : Bool := decide (pos.toNat + len.toNat + 1 ≤ 64)

/-- The repeat prefix (R210, R212): its fields are zero without RPE; with it a count, and no hold. -/
def repeatOk (hold rpe : Bool) (cnt : BitVec 12) (inca incb : BitVec 5) : Bool :=
  if rpe then cnt != 0 && !hold else cnt == 0 && inca == 0 && incb == 0

/-- The control-register numbers R325 assigns. -/
def crAssigned (cr : BitVec 12) : Bool :=
  let n := cr.toNat
  decide (n < 4) || decide (0x10 ≤ n ∧ n ≤ 0x15) || decide (0x20 ≤ n ∧ n ≤ 0x24) || decide (0x28 ≤ n ∧ n ≤ 0x2A)
    || n == 0x2C || n == 0x2D || n == 0x30 || decide (0x40 ≤ n ∧ n ≤ 0x47)

/-- IMG and MSK of SETFMT (R324): fields not selected are zero, selected codes and RM are assigned. -/
def setfmtOk (msk : BitVec 5) (img : BitVec 20) : Bool :=
  let n := img.toNat
  let code (sel : Bool) (v : Nat) : Bool := if sel then decide (v < 12) else v == 0
  code (msk.getLsbD 0) (n % 16) && code (msk.getLsbD 1) (n / 16 % 16) && code (msk.getLsbD 2) (n / 256 % 16)
    && n / 4096 % 16 == 0
    && (if msk.getLsbD 3 then decide (n / 65536 % 8 ≤ 4) else n / 65536 % 8 == 0)
    && (msk.getLsbD 4 || n / 524288 == 0)

/-- Every field of the instruction holds a value its encoding admits. Events, packets and commands have no
encoding and no check. -/
def WellFormed : Instr → Bool
  | .bfxN _ _ _ pos len | .bfxI _ _ _ pos len | .bfi _ _ _ pos len => bitFieldOk pos len
  | .cmp _ _ cond _ _ cm => decide (cond.toNat ≤ 11) && cm != 3
  | .cmpi _ _ cond _ cm _ => decide (cond.toNat ≤ 11) && cm != 3
  | .ldb _ _ _ o sc m a _ | .ldh _ _ _ o sc m a _ | .ldw _ _ _ o sc m a _ | .ld _ _ _ o sc m a _
  | .ldbs _ _ _ o sc m a _ | .ldhs _ _ _ o sc m a _ | .ldws _ _ _ o sc m a _ =>
      loadOrdOk o && ordScopeOk o sc && loadModeOk m a
  | .stb _ _ _ o sc _ | .sth _ _ _ o sc _ | .stw _ _ _ o sc _ | .st _ _ _ o sc _ => storeOrdOk o && ordScopeOk o sc
  | .ldrow _ _ e nm _ _ m a => rowsOk e nm && rowModeOk m a
  | .strow _ _ e nm _ _ => rowsOk e nm
  | .atom _ rd _ _ rc aop _ rv o sc =>
      decide (aop.toNat ≤ 9) && (rv || rd == 0) && (aop == 2 || rc == 0) && decide (o.toNat ≤ 4) && ordScopeOk o sc
  | .fence h o sc => !h.hold && o != 0 && decide (o.toNat ≤ 4) && scopeOk sc
  | .probe h _ _ _ wayf way mb tgt barf rb =>
      !h.hold && (wayf || way == 0) && (mb || tgt == 0) && (barf || rb == 0)
  | .fill h _ _ wayf way barf rb => !h.hold && (wayf || way == 0) && (barf || rb == 0)
  | .evict h _ _ _ => !h.hold
  | .wback h _ _ => !h.hold
  | .wait h _ _ _ _ => !h.hold
  | .mon h _ _ rb cmp _ _ => !h.hold && cmp != 7 && (cmp != 0 || rb == 0)
  | .mwait h _ _ => !h.hold
  | .vsel _ _ _ _ _ _ _ ty | .vshuf _ _ _ _ _ _ _ ty => decide (ty.toNat ≤ 3)
  | .vshl _ _ _ _ tb _ bf ty imm | .vshr _ _ _ _ tb _ bf ty imm | .vsar _ _ _ _ tb _ bf ty imm =>
      decide (ty.toNat ≤ 3) && (!imm || (tb == 0 && !bf))
  | .vscale _ _ _ _ tb _ bf imm => !imm || (tb == 0 && !bf)
  | .vcvt _ _ _ _ _ se de =>
      !(decide (5 ≤ se.toNat ∧ se.toNat ≤ 7)) && !(decide (5 ≤ de.toNat ∧ de.toNat ≤ 7))
  | .vpackm _ _ _ _ _ _ mf | .vunpkm _ _ _ _ _ _ mf => decide (7 ≤ mf.toNat ∧ mf.toNat ≤ 11)
  | .vtrans _ _ dq _ aq w =>
      if w == 2 then dq == 0 && aq == 0 else if w == 1 then decide (dq.toNat ≤ 1 ∧ aq.toNat ≤ 1) else w == 0
  | .mma h rpe cnt inca incb _ _ _ _ _ => repeatOk h.hold rpe cnt inca incb
  | .mmaTb h rpe cnt inca incb _ _ _ _ pos rel => repeatOk h.hold rpe cnt inca incb && (!rel || pos == 0)
  | .zout _ _ _ _ _ df => decide (df.toNat ≤ 4)
  | .barrive _ _ rs ex sc => (ex || rs == 0) && scopeOk sc
  | .bwait _ test pd _ _ sc => (test || pd == 0) && scopeOk sc
  | .waitl _ test pd ctxk rc _ sc => (test || pd == 0) && (ctxk == 7 || rc == 0) && scopeOk sc
  | .gbar _ _ mode pd => mode != 3 && (mode == 2 || pd == 0)
  | .setfmt _ msk img => setfmtOk msk img
  | .crr _ _ cr => crAssigned cr
  | .crw _ _ cr => crAssigned cr
  | .tlbi _ form rs ra => form != 0 && (form == 1 || ra == 0) && (form != 3 || rs == 0)
  | .amark _ k ra rl => k != 3 && (k != 2 || (ra == 0 && rl == 0))
  | .eboard _ _ rw any _ _ _ atr off => (!any || rw == 0) && atrOk atr off
  | .ealight _ _ dep ra _ => dep || ra == 0
  | .ecap _ _ _ ra _ cop _ atr off =>
      cop != 7 && (cop != 0 || ra == 0) && (cop != 5 || !ra.getLsbD 0) && atrOk atr off
  | .erow _ _ _ _ _ atr off => atrOk atr off
  | .twait _ _ n => decide (1 ≤ n.toNat ∧ n.toNat ≤ 8)
  | .tspeed _ spd => decide (spd.toNat ≤ 4)
  | .fst _ _ _ _ rctr ctr | .fld _ _ _ _ rctr ctr => ctr || rctr == 0
  | .fatom _ rd _ rb aop _ rv _ atr off =>
      decide (aop.toNat ≤ 9) && (rv || (rd == 0 && !atr && off == 0)) && (aop != 2 || !rb.getLsbD 0) && atrOk atr off
  | _ => true

end Sys2Proof
end

