-- ==== Sys2Proof/Decode.lean ====
section
/-! DEFINITION. Decoding (R202, R209 to R218): from the word of a slot, and from the bytes of a bundle, to an
instruction or a named rejection; then the encoder, written from the same layouts. -/

namespace Sys2Proof

/-- Bits [lo + n - 1 : lo] of a word. -/
def bv (n lo w : Nat) : BitVec n := BitVec.ofNat n (w / 2 ^ lo)

/-- Bit lo of a word. -/
def bt (lo w : Nat) : Bool := w / 2 ^ lo % 2 == 1

/-- Bits [hi : lo] as a number. -/
def fld (hi lo w : Nat) : Nat := w / 2 ^ lo % 2 ^ (hi + 1 - lo)

/-- Why a slot's word is no instruction: each raises the illegal-slot trap (R212). -/
inductive Reject where
  | unassignedOp   -- an OP value the map leaves unassigned
  | nonzeroField   -- a bit that the entry requires to be zero
  | fieldValue     -- a field value the entry does not admit
  | s1Only         -- an opcode marked S1 in the S0 slot
  deriving DecidableEq, Repr

/-- The slot kinds of R202, in header bit order. -/
inductive Kind where
  | s0 | s1 | m0 | m1 | v | x | c | q
  deriving DecidableEq, Repr

/-- Take an instruction whose zero fields are zero. -/
def zeros (ok : Bool) (i : Instr) : Except Reject Instr := if ok then .ok i else .error .nonzeroField

/-- NEG and GRD at their place (R209). -/
def guardAt (lo w : Nat) : Guard := ⟨bt (lo + 3) w, bv 3 lo w⟩

/-- The S0 and S1 map (R213). -/
def parseS (w : Nat) : Except Reject Instr :=
  let g := guardAt 28 w
  match fld 27 22 w with
  | 0 | 63 => .ok (.nop g (bv 22 0 w))
  | 1 => zeros (fld 6 0 w == 0) (.add g (bv 5 17 w) (bv 5 12 w) (bv 5 7 w))
  | 2 => zeros (fld 6 0 w == 0) (.sub g (bv 5 17 w) (bv 5 12 w) (bv 5 7 w))
  | 3 => .ok (.addi g (bv 5 17 w) (bv 5 12 w) (bv 12 0 w))
  | 4 => zeros (fld 6 0 w == 0) (.mul g (bv 5 17 w) (bv 5 12 w) (bv 5 7 w))
  | 5 => zeros (fld 6 0 w == 0) (.mulhI g (bv 5 17 w) (bv 5 12 w) (bv 5 7 w))
  | 6 => zeros (fld 6 0 w == 0) (.mulhN g (bv 5 17 w) (bv 5 12 w) (bv 5 7 w))
  | 7 => zeros (fld 6 0 w == 0) (.and g (bv 5 17 w) (bv 5 12 w) (bv 5 7 w))
  | 8 => zeros (fld 6 0 w == 0) (.or g (bv 5 17 w) (bv 5 12 w) (bv 5 7 w))
  | 9 => zeros (fld 6 0 w == 0) (.xor g (bv 5 17 w) (bv 5 12 w) (bv 5 7 w))
  | 10 => zeros (fld 6 0 w == 0) (.andn g (bv 5 17 w) (bv 5 12 w) (bv 5 7 w))
  | 11 => .ok (.andi g (bv 5 17 w) (bv 5 12 w) (bv 12 0 w))
  | 12 => .ok (.ori g (bv 5 17 w) (bv 5 12 w) (bv 12 0 w))
  | 13 => .ok (.xori g (bv 5 17 w) (bv 5 12 w) (bv 12 0 w))
  | 14 => zeros (fld 6 0 w == 0) (.shl g (bv 5 17 w) (bv 5 12 w) (bv 5 7 w))
  | 15 => zeros (fld 6 0 w == 0) (.shr g (bv 5 17 w) (bv 5 12 w) (bv 5 7 w))
  | 16 => zeros (fld 6 0 w == 0) (.sar g (bv 5 17 w) (bv 5 12 w) (bv 5 7 w))
  | 17 => zeros (fld 6 0 w == 0) (.ror g (bv 5 17 w) (bv 5 12 w) (bv 5 7 w))
  | 18 => zeros (fld 11 6 w == 0) (.shli g (bv 5 17 w) (bv 5 12 w) (bv 6 0 w))
  | 19 => zeros (fld 11 6 w == 0) (.shri g (bv 5 17 w) (bv 5 12 w) (bv 6 0 w))
  | 20 => zeros (fld 11 6 w == 0) (.sari g (bv 5 17 w) (bv 5 12 w) (bv 6 0 w))
  | 21 => zeros (fld 11 6 w == 0) (.rori g (bv 5 17 w) (bv 5 12 w) (bv 6 0 w))
  | 22 => .ok (.bfxN g (bv 5 17 w) (bv 5 12 w) (bv 6 6 w) (bv 6 0 w))
  | 23 => .ok (.bfxI g (bv 5 17 w) (bv 5 12 w) (bv 6 6 w) (bv 6 0 w))
  | 24 => .ok (.bfi g (bv 5 17 w) (bv 5 12 w) (bv 6 6 w) (bv 6 0 w))
  | 25 => zeros (fld 11 0 w == 0) (.clz g (bv 5 17 w) (bv 5 12 w))
  | 26 => zeros (fld 11 0 w == 0) (.ctz g (bv 5 17 w) (bv 5 12 w))
  | 27 => zeros (fld 11 0 w == 0) (.popc g (bv 5 17 w) (bv 5 12 w))
  | 28 => zeros (fld 6 0 w == 0) (.minI g (bv 5 17 w) (bv 5 12 w) (bv 5 7 w))
  | 29 => zeros (fld 6 0 w == 0) (.minN g (bv 5 17 w) (bv 5 12 w) (bv 5 7 w))
  | 30 => zeros (fld 6 0 w == 0) (.maxI g (bv 5 17 w) (bv 5 12 w) (bv 5 7 w))
  | 31 => zeros (fld 6 0 w == 0) (.maxN g (bv 5 17 w) (bv 5 12 w) (bv 5 7 w))
  | 32 => zeros (fld 2 0 w == 0) (.sel g (bv 5 17 w) (bv 5 12 w) (bv 5 7 w) (bt 6 w) (bv 3 3 w))
  | 33 => .ok (.movi g (bv 5 17 w) (bv 17 0 w))
  | 34 => .ok (.movhi g (bv 5 17 w) (bv 17 0 w))
  | 35 => zeros (fld 2 0 w == 0) (.cmp g (bv 3 19 w) (bv 4 15 w) (bv 5 10 w) (bv 5 5 w) (bv 2 3 w))
  | 36 => .ok (.cmpi g (bv 3 19 w) (bv 4 15 w) (bv 5 10 w) (bv 2 8 w) (bv 8 0 w))
  | 37 => zeros (fld 8 0 w == 0) (.plog g (bv 3 19 w) (bv 3 16 w) (bv 3 13 w) (bv 4 9 w))
  | 38 => if bt 21 w then zeros (fld 15 0 w == 0) (.pmovRd g (bv 5 16 w)) else zeros (fld 7 0 w == 0) (.pmovWr g (bv 5 16 w) (bv 8 8 w))
  | 48 => zeros (fld 21 6 w == 0) (.br g (bv 6 0 w))
  | 49 => zeros (fld 21 0 w == 0) (.brx g)
  | 50 => zeros (fld 11 0 w == 0 && fld 21 17 w == 0) (.jmp g (bv 5 12 w))
  | 51 => zeros (fld 11 0 w == 0) (.call g (bv 5 17 w) (bv 5 12 w))
  | 52 => zeros (fld 11 0 w == 0 && fld 21 17 w == 0) (.ret g (bv 5 12 w))
  | 53 => if bt 21 w then .ok (.loopImm g (bv 9 12 w) (bv 6 6 w) (bv 6 0 w)) else zeros (fld 15 12 w == 0) (.loopReg g (bv 5 16 w) (bv 6 6 w) (bv 6 0 w))
  | 54 => zeros (fld 21 0 w == 0) (.endl g)
  | 55 => zeros (fld 21 6 w == 0) (.brk g (bv 6 0 w))
  | 56 => zeros (fld 21 0 w == 0) (.endT g)
  | 57 => zeros (fld 21 16 w == 0) (.trap g (bv 16 0 w))
  | _ => .error .unassignedOp

/-- The M0 and M1 map (R214). -/
def parseM (m1 : Bool) (w : Nat) : Except Reject Instr :=
  let h : MHdr := ⟨m1, guardAt 44 w, bt 43 w⟩
  match fld 42 37 w with
  | 0 | 63 => .ok (.mnop h (bv 37 0 w))
  | 1 => .ok (.ldb h (bv 5 32 w) (bv 5 27 w) (bv 3 24 w) (bv 3 21 w) (bv 2 19 w) (bv 10 9 w) (bv 9 0 w))
  | 2 => .ok (.ldh h (bv 5 32 w) (bv 5 27 w) (bv 3 24 w) (bv 3 21 w) (bv 2 19 w) (bv 10 9 w) (bv 9 0 w))
  | 3 => .ok (.ldw h (bv 5 32 w) (bv 5 27 w) (bv 3 24 w) (bv 3 21 w) (bv 2 19 w) (bv 10 9 w) (bv 9 0 w))
  | 4 => .ok (.ld h (bv 5 32 w) (bv 5 27 w) (bv 3 24 w) (bv 3 21 w) (bv 2 19 w) (bv 10 9 w) (bv 9 0 w))
  | 5 => .ok (.ldbs h (bv 5 32 w) (bv 5 27 w) (bv 3 24 w) (bv 3 21 w) (bv 2 19 w) (bv 10 9 w) (bv 9 0 w))
  | 6 => .ok (.ldhs h (bv 5 32 w) (bv 5 27 w) (bv 3 24 w) (bv 3 21 w) (bv 2 19 w) (bv 10 9 w) (bv 9 0 w))
  | 7 => .ok (.ldws h (bv 5 32 w) (bv 5 27 w) (bv 3 24 w) (bv 3 21 w) (bv 2 19 w) (bv 10 9 w) (bv 9 0 w))
  | 8 => zeros (fld 20 9 w == 0) (.stb h (bv 5 32 w) (bv 5 27 w) (bv 3 24 w) (bv 3 21 w) (bv 9 0 w))
  | 9 => zeros (fld 20 9 w == 0) (.sth h (bv 5 32 w) (bv 5 27 w) (bv 3 24 w) (bv 3 21 w) (bv 9 0 w))
  | 10 => zeros (fld 20 9 w == 0) (.stw h (bv 5 32 w) (bv 5 27 w) (bv 3 24 w) (bv 3 21 w) (bv 9 0 w))
  | 11 => zeros (fld 20 9 w == 0) (.st h (bv 5 32 w) (bv 5 27 w) (bv 3 24 w) (bv 3 21 w) (bv 9 0 w))
  | 12 => .ok (.ldrow h (bv 4 33 w) (bv 6 27 w) (bv 6 21 w) (bv 5 16 w) (bv 5 11 w) (bv 2 9 w) (bv 9 0 w))
  | 13 => zeros (fld 10 0 w == 0) (.strow h (bv 4 33 w) (bv 6 27 w) (bv 6 21 w) (bv 5 16 w) (bv 5 11 w))
  | 16 => zeros (fld 4 0 w == 0) (.atom h (bv 5 32 w) (bv 5 27 w) (bv 5 22 w) (bv 5 17 w) (bv 4 13 w) (bt 12 w) (bt 11 w) (bv 3 8 w) (bv 3 5 w))
  | 17 => zeros (fld 30 0 w == 0) (.fence h (bv 3 34 w) (bv 3 31 w))
  | 20 => zeros (fld 7 0 w == 0) (.probe h (bv 3 34 w) (bv 4 30 w) (bv 5 25 w) (bt 24 w) (bv 3 21 w) (bt 20 w) (bv 6 14 w) (bt 13 w) (bv 5 8 w))
  | 21 => zeros (fld 16 0 w == 0) (.fill h (bv 5 32 w) (bv 5 27 w) (bt 26 w) (bv 3 23 w) (bt 22 w) (bv 5 17 w))
  | 22 => zeros (fld 25 0 w == 0) (.evict h (bt 36 w) (bv 5 31 w) (bv 5 26 w))
  | 23 => zeros (fld 26 0 w == 0) (.wback h (bv 5 32 w) (bv 5 27 w))
  | 24 => zeros (fld 24 0 w == 0) (.cvta h (bv 5 32 w) (bv 5 27 w) (bv 2 25 w))
  | 25 => zeros (fld 27 0 w == 0) (.aptest h (bv 3 34 w) (bv 5 29 w) (bt 28 w))
  | 28 => zeros (fld 20 0 w == 0) (.wait h (bv 4 33 w) (bv 4 29 w) (bv 4 25 w) (bv 4 21 w))
  | 29 => zeros (fld 14 0 w == 0) (.mon h (bv 3 34 w) (bv 5 29 w) (bv 5 24 w) (bv 3 21 w) (bt 20 w) (bv 5 15 w))
  | 30 => zeros (fld 23 0 w == 0) (.mwait h (bv 8 29 w) (bv 5 24 w))
  | _ => .error .unassignedOp

/-- The V map (R215). -/
def parseV (w : Nat) : Except Reject Instr :=
  let h : VHdr := ⟨guardAt 44 w, bt 43 w, bv 6 30 w⟩
  match fld 42 36 w with
  | 0 | 127 => .ok (.vnop h (bv 30 0 w))
  | 1 => zeros (fld 4 0 w == 0) (.vadd h (bv 4 26 w) (bv 6 20 w) (bv 4 16 w) (bv 4 12 w) (bv 6 6 w) (bt 5 w))
  | 2 => zeros (fld 4 0 w == 0) (.vsub h (bv 4 26 w) (bv 6 20 w) (bv 4 16 w) (bv 4 12 w) (bv 6 6 w) (bt 5 w))
  | 3 => zeros (fld 4 0 w == 0) (.vmul h (bv 4 26 w) (bv 6 20 w) (bv 4 16 w) (bv 4 12 w) (bv 6 6 w) (bt 5 w))
  | 4 => zeros (fld 4 0 w == 0) (.vfma h (bv 4 26 w) (bv 6 20 w) (bv 4 16 w) (bv 4 12 w) (bv 6 6 w) (bt 5 w))
  | 5 => zeros (fld 4 0 w == 0) (.vmin h (bv 4 26 w) (bv 6 20 w) (bv 4 16 w) (bv 4 12 w) (bv 6 6 w) (bt 5 w))
  | 6 => zeros (fld 4 0 w == 0) (.vmax h (bv 4 26 w) (bv 6 20 w) (bv 4 16 w) (bv 4 12 w) (bv 6 6 w) (bt 5 w))
  | 7 => zeros (fld 15 0 w == 0) (.vabs h (bv 4 26 w) (bv 6 20 w) (bv 4 16 w))
  | 8 => zeros (fld 15 0 w == 0) (.vneg h (bv 4 26 w) (bv 6 20 w) (bv 4 16 w))
  | 9 => zeros (fld 1 0 w == 0) (.vcmp h (bv 4 26 w) (bv 6 20 w) (bv 4 16 w) (bv 4 12 w) (bv 6 6 w) (bt 5 w) (bv 3 2 w))
  | 10 => zeros (fld 1 0 w == 0) (.vsel h (bv 4 26 w) (bv 6 20 w) (bv 4 16 w) (bv 4 12 w) (bv 6 6 w) (bt 5 w) (bv 3 2 w))
  | 11 => zeros (fld 15 0 w == 0) (.vexp2 h (bv 4 26 w) (bv 6 20 w) (bv 4 16 w))
  | 12 => zeros (fld 15 0 w == 0) (.vlog2 h (bv 4 26 w) (bv 6 20 w) (bv 4 16 w))
  | 13 => zeros (fld 15 0 w == 0) (.vrcp h (bv 4 26 w) (bv 6 20 w) (bv 4 16 w))
  | 14 => zeros (fld 15 0 w == 0) (.vrsqrt h (bv 4 26 w) (bv 6 20 w) (bv 4 16 w))
  | 15 => zeros (fld 4 1 w == 0) (.vscale h (bv 4 26 w) (bv 6 20 w) (bv 4 16 w) (bv 4 12 w) (bv 6 6 w) (bt 5 w) (bt 0 w))
  | 16 => zeros (fld 0 0 w == 0) (.viadd h (bv 4 26 w) (bv 6 20 w) (bv 4 16 w) (bv 4 12 w) (bv 6 6 w) (bt 5 w) (bv 3 2 w) (bt 1 w))
  | 17 => zeros (fld 0 0 w == 0) (.visub h (bv 4 26 w) (bv 6 20 w) (bv 4 16 w) (bv 4 12 w) (bv 6 6 w) (bt 5 w) (bv 3 2 w) (bt 1 w))
  | 18 => zeros (fld 0 0 w == 0) (.vimul h (bv 4 26 w) (bv 6 20 w) (bv 4 16 w) (bv 4 12 w) (bv 6 6 w) (bt 5 w) (bv 3 2 w) (bt 1 w))
  | 19 => zeros (fld 1 0 w == 0) (.vimin h (bv 4 26 w) (bv 6 20 w) (bv 4 16 w) (bv 4 12 w) (bv 6 6 w) (bt 5 w) (bv 3 2 w))
  | 20 => zeros (fld 1 0 w == 0) (.vimax h (bv 4 26 w) (bv 6 20 w) (bv 4 16 w) (bv 4 12 w) (bv 6 6 w) (bt 5 w) (bv 3 2 w))
  | 21 => zeros (fld 4 0 w == 0) (.vand h (bv 4 26 w) (bv 6 20 w) (bv 4 16 w) (bv 4 12 w) (bv 6 6 w) (bt 5 w))
  | 22 => zeros (fld 4 0 w == 0) (.vor h (bv 4 26 w) (bv 6 20 w) (bv 4 16 w) (bv 4 12 w) (bv 6 6 w) (bt 5 w))
  | 23 => zeros (fld 4 0 w == 0) (.vxor h (bv 4 26 w) (bv 6 20 w) (bv 4 16 w) (bv 4 12 w) (bv 6 6 w) (bt 5 w))
  | 24 => zeros (fld 1 1 w == 0) (.vshl h (bv 4 26 w) (bv 6 20 w) (bv 4 16 w) (bv 4 12 w) (bv 6 6 w) (bt 5 w) (bv 3 2 w) (bt 0 w))
  | 25 => zeros (fld 1 1 w == 0) (.vshr h (bv 4 26 w) (bv 6 20 w) (bv 4 16 w) (bv 4 12 w) (bv 6 6 w) (bt 5 w) (bv 3 2 w) (bt 0 w))
  | 26 => zeros (fld 1 1 w == 0) (.vsar h (bv 4 26 w) (bv 6 20 w) (bv 4 16 w) (bv 4 12 w) (bv 6 6 w) (bt 5 w) (bv 3 2 w) (bt 0 w))
  | 32 => zeros (fld 1 0 w == 0) (.vcvt h (bv 4 26 w) (bv 6 20 w) (bv 4 16 w) (bv 6 10 w) (bv 4 6 w) (bv 4 2 w))
  | 33 => zeros (fld 2 0 w == 0) (.vpackd h (bv 4 26 w) (bv 6 20 w) (bv 4 16 w) (bv 6 10 w) (bv 6 4 w) (bt 3 w))
  | 34 => zeros (fld 2 0 w == 0) (.vunpkd h (bv 4 26 w) (bv 6 20 w) (bv 4 16 w) (bv 6 10 w) (bv 6 4 w) (bt 3 w))
  | 35 => .ok (.vpackm h (bv 4 26 w) (bv 6 20 w) (bv 4 16 w) (bv 6 10 w) (bv 6 4 w) (bv 4 0 w))
  | 36 => .ok (.vunpkm h (bv 4 26 w) (bv 6 20 w) (bv 4 16 w) (bv 6 10 w) (bv 6 4 w) (bv 4 0 w))
  | 40 => zeros (fld 1 0 w == 0) (.vrsum h (bv 4 26 w) (bv 6 20 w) (bv 4 16 w) (bv 6 10 w) (bv 7 3 w) (bt 2 w))
  | 41 => zeros (fld 1 0 w == 0) (.vrmax h (bv 4 26 w) (bv 6 20 w) (bv 4 16 w) (bv 6 10 w) (bv 7 3 w) (bt 2 w))
  | 42 => zeros (fld 1 0 w == 0) (.vrmin h (bv 4 26 w) (bv 6 20 w) (bv 4 16 w) (bv 6 10 w) (bv 7 3 w) (bt 2 w))
  | 48 => zeros (fld 1 0 w == 0) (.vshuf h (bv 4 26 w) (bv 6 20 w) (bv 4 16 w) (bv 4 12 w) (bv 6 6 w) (bt 5 w) (bv 3 2 w))
  | 49 => zeros (fld 15 0 w == 0) (.vtrans h (bv 4 26 w) (bv 2 24 w) (bv 4 20 w) (bv 2 18 w) (bv 2 16 w))
  | 50 => zeros (fld 9 0 w == 0) (.vmov h (bv 4 26 w) (bv 6 20 w) (bv 4 16 w) (bv 6 10 w))
  | 51 => zeros (fld 11 0 w == 0) (.vzrd h (bv 4 26 w) (bv 6 20 w) (bv 2 18 w) (bv 6 12 w))
  | 52 => zeros (fld 11 0 w == 0) (.vzwr h (bv 2 28 w) (bv 6 22 w) (bv 4 18 w) (bv 6 12 w))
  | 53 => zeros (fld 12 0 w == 0) (.vbcast h (bv 4 26 w) (bv 6 20 w) (bv 5 15 w) (bv 2 13 w))
  | _ => .error .unassignedOp

/-- The X map (R216). -/
def parseX (w : Nat) : Except Reject Instr :=
  let h : XHdr := ⟨guardAt 60 w, bt 59 w, bv 8 45 w⟩
  match fld 58 53 w with
  | 0 | 63 => zeros (fld 44 22 w == 0) (.xnop h (bv 22 0 w))
  | 1 => .ok (.mma h (bt 44 w) (bv 12 32 w) (bv 5 27 w) (bv 5 22 w) (bv 2 20 w) (bv 5 15 w) (bv 5 10 w) (bv 5 5 w) (bv 5 0 w))
  | 2 => zeros (fld 0 0 w == 0) (.mmaTb h (bt 44 w) (bv 12 32 w) (bv 5 27 w) (bv 5 22 w) (bv 2 20 w) (bv 5 15 w) (bv 5 10 w) (bv 5 5 w) (bv 3 2 w) (bt 1 w))
  | 3 => zeros (fld 19 0 w == 0 && fld 44 22 w == 0) (.zzero h (bv 2 20 w))
  | 4 => zeros (fld 8 0 w == 0 && fld 44 22 w == 0) (.zscale h (bv 2 20 w) (bv 4 16 w) (bv 6 10 w) (bt 9 w))
  | 5 => zeros (fld 44 22 w == 0) (.zout h (bv 2 20 w) (bv 4 16 w) (bv 6 10 w) (bv 6 4 w) (bv 4 0 w))
  | _ => .error .unassignedOp

/-- The C map (R217). -/
def parseC (w : Nat) : Except Reject Instr :=
  let g := guardAt 44 w
  match fld 43 38 w with
  | 0 | 63 => .ok (.cnop g (bv 38 0 w))
  | 1 => zeros (fld 30 0 w == 0) (.copy g (bv 2 36 w) (bv 5 31 w))
  | 2 => zeros (fld 37 0 w == 0) (.close g)
  | 3 => zeros (fld 22 0 w == 0) (.binit g (bv 5 33 w) (bv 5 28 w) (bv 5 23 w))
  | 4 => zeros (fld 23 0 w == 0) (.barrive g (bv 5 33 w) (bv 5 28 w) (bt 27 w) (bv 3 24 w))
  | 5 => zeros (fld 20 0 w == 0) (.bwait g (bt 37 w) (bv 3 34 w) (bv 5 29 w) (bv 5 24 w) (bv 3 21 w))
  | 6 => zeros (fld 17 0 w == 0) (.waitl g (bt 37 w) (bv 3 34 w) (bv 3 31 w) (bv 5 26 w) (bv 5 21 w) (bv 3 18 w))
  | 8 => zeros (fld 32 0 w == 0) (.gjoin g (bv 5 33 w))
  | 9 => zeros (fld 32 0 w == 0) (.gleave g (bv 5 33 w))
  | 10 => zeros (fld 27 0 w == 0) (.gbar g (bv 5 33 w) (bv 2 31 w) (bv 3 28 w))
  | 12 => zeros (fld 32 20 w == 0) (.setfmt g (bv 5 33 w) (bv 20 0 w))
  | 13 => zeros (fld 20 0 w == 0) (.crr g (bv 5 33 w) (bv 12 21 w))
  | 14 => zeros (fld 20 0 w == 0) (.crw g (bv 5 33 w) (bv 12 21 w))
  | 16 => zeros (fld 32 0 w == 0) (.dcal g (bv 5 33 w))
  | 17 => zeros (fld 29 0 w == 0) (.dleft g (bv 5 33 w) (bv 3 30 w))
  | 20 => zeros (fld 25 0 w == 0) (.tlbi g (bv 2 36 w) (bv 5 31 w) (bv 5 26 w))
  | 21 => zeros (fld 37 0 w == 0) (.tlbiSync g)
  | 24 => zeros (fld 37 0 w == 0) (.tret g)
  | 25 => zeros (fld 25 0 w == 0) (.amark g (bv 2 36 w) (bv 5 31 w) (bv 5 26 w))
  | _ => .error .unassignedOp

/-- The Q map (R218). -/
def parseQ (w : Nat) : Except Reject Instr :=
  let g := guardAt 44 w
  match fld 43 38 w with
  | 0 | 63 => .ok (.qnop g (bv 38 0 w))
  | 1 => zeros (fld 32 0 w == 0) (.enqt g (bv 5 33 w))
  | 4 => zeros (fld 14 11 w == 0) (.eboard g (bv 5 33 w) (bv 5 28 w) (bt 27 w) (bv 4 23 w) (bv 6 17 w) (bv 2 15 w) (bt 10 w) (bv 10 0 w))
  | 5 => zeros (fld 24 0 w == 0) (.ealight g (bv 5 33 w) (bt 32 w) (bv 5 27 w) (bv 2 25 w))
  | 6 => zeros (fld 14 11 w == 0) (.ecap g (bv 5 33 w) (bv 5 28 w) (bv 5 23 w) (bv 3 20 w) (bv 3 17 w) (bv 2 15 w) (bt 10 w) (bv 10 0 w))
  | 7 => zeros (fld 20 11 w == 0) (.erow g (bv 4 34 w) (bv 6 28 w) (bv 5 23 w) (bv 2 21 w) (bt 10 w) (bv 10 0 w))
  | 8 => zeros (fld 27 0 w == 0) (.ewhen g (bv 5 33 w) (bv 5 28 w))
  | 12 => zeros (fld 15 0 w == 0) (.tboard g (bv 5 33 w) (bv 5 28 w) (bv 5 23 w) (bv 5 18 w) (bv 2 16 w))
  | 13 => zeros (fld 28 0 w == 0) (.twait g (bv 5 33 w) (bv 4 29 w))
  | 14 => zeros (fld 37 0 w == 0) (.tleave g)
  | 15 => zeros (fld 32 0 w == 0) (.tstat g (bv 5 33 w))
  | 16 => zeros (fld 34 0 w == 0) (.tspeed g (bv 3 35 w))
  | 20 => zeros (fld 16 0 w == 0) (.fst g (bv 5 33 w) (bv 5 28 w) (bv 5 23 w) (bv 5 18 w) (bt 17 w))
  | 21 => zeros (fld 16 0 w == 0) (.fld g (bv 5 33 w) (bv 5 28 w) (bv 5 23 w) (bv 5 18 w) (bt 17 w))
  | 22 => zeros (fld 14 11 w == 0) (.fatom g (bv 5 33 w) (bv 5 28 w) (bv 5 23 w) (bv 4 19 w) (bt 18 w) (bt 17 w) (bv 2 15 w) (bt 10 w) (bv 10 0 w))
  | 23 => zeros (fld 20 0 w == 0) (.vatom g (bv 5 33 w) (bv 4 29 w) (bv 6 23 w) (bt 22 w) (bt 21 w))
  | 24 => zeros (fld 27 0 w == 0) (.coll g (bv 5 33 w) (bv 5 28 w))
  | _ => .error .unassignedOp

/-- The opcodes marked S1 in R213: OP 0x30 to 0x39. -/
def s1Only : Instr → Bool
  | .br .. | .brx .. | .jmp .. | .call .. | .ret .. | .loopReg .. | .loopImm .. | .endl .. | .brk .. | .endT ..
  | .trap .. => true
  | _ => false

/-- An instruction whose fields its encoding admits. -/
def admitted (i : Instr) : Except Reject Instr := if WellFormed i then .ok i else .error .fieldValue

/-- X entries without a repeat prefix have bits [43:22] zero and RPE zero (R210, R299). -/
def decodeX (w : Nat) : Except Reject Instr :=
  match parseX w with
  | .ok i => admitted i
  | .error e => .error e

/-- An S slot's word, in S1 or in S0. -/
def decodeS (isS1 : Bool) (w : Nat) : Except Reject Instr :=
  match parseS w with
  | .ok i => if s1Only i && !isS1 then .error .s1Only else admitted i
  | .error e => .error e

/-- The word of a slot of each kind. -/
def decodeSlot (k : Kind) (w : Nat) : Except Reject Instr :=
  match k with
  | .s0 => decodeS false w
  | .s1 => decodeS true w
  | .m0 => (parseM false w).bind admitted
  | .m1 => (parseM true w).bind admitted
  | .v => (parseV w).bind admitted
  | .x => decodeX w
  | .c => (parseC w).bind admitted
  | .q => (parseQ w).bind admitted

/-- The two instructions of the control cores' extension (R385): any other word is not one of them. -/
def decodeQuokor (w : Nat) : Option Instr :=
  if w % 2 ^ 7 = 0x0B ∧ fld 14 12 w = 0 ∧ fld 31 25 w = 0 then
    some (.qenq (bv 5 20 w) (bv 5 15 w) (bv 5 7 w))
  else if w = 0x100B then some .qfence
  else none

/-- Slot widths in bytes, in header bit order (R202). -/
def slotBytes : List (Kind × Nat) :=
  [(.s0, 4), (.s1, 4), (.m0, 6), (.m1, 6), (.v, 6), (.x, 8), (.c, 6), (.q, 6)]

/-- Little-endian value of bytes (R1). -/
def leNat : List Byte → Nat
  | [] => 0
  | b :: r => b.toNat + 256 * leNat r

/-- The n low bytes of a value, little-endian (R1). -/
def leBytes : Nat → Nat → List Byte
  | 0, _ => []
  | n + 1, v => BitVec.ofNat 8 v :: leBytes n (v / 256)

/-- A bundle as its present slots: kind and word, in header bit order (R202). -/
abbrev Bundle := List (Kind × Nat)

/-- The size of a bundle with header h, z(h) of R203. -/
def bundleSize (h : Nat) : Nat :=
  1 + ((slotBytes.zipIdx.filter (fun p => bt p.2 h)).map (fun p => p.1.2)).sum

/-- The slots of a bundle from the bytes after its header. -/
def bundleSlots (h : Nat) : List (Kind × Nat) → Nat → List Byte → Bundle
  | [], _, _ => []
  | (k, n) :: r, i, bs =>
    if bt i h then (k, leNat (bs.take n)) :: bundleSlots h r (i + 1) (bs.drop n)
    else bundleSlots h r (i + 1) bs

/-- One bundle at the head of a byte list, with the rest of the list: `none` when the bytes end inside it. -/
def decodeBundle (bs : List Byte) : Option (Bundle × List Byte) :=
  match bs with
  | [] => none
  | hb :: rest =>
    let z := bundleSize hb.toNat
    if bs.length < z then none
    else some (bundleSlots hb.toNat slotBytes 0 rest, bs.drop z)

/-- What the decoder reads from an instruction of 32 bits: a word of the control cores' extension, or the word of
an S1 slot. The table gives no other row bits. -/
def decodeTableWord (nbits w : Nat) : Option Instr :=
  if nbits = 32 then
    let v := leNat (leBytes 4 w)
    match decodeQuokor v with
    | some i => some i
    | none => (decodeSlot .s1 v).toOption
  else none

/-- Fields side by side, the first at bit 0: width and value of each. -/
def pk : List (Nat × Nat) → Nat
  | [] => 0
  | (n, v) :: r => v + 2 ^ n * pk r

/-- The kind of slot that presents an instruction; `none` for the control cores' words and for events. -/
def slotKind : Instr → Option Kind
  | .nop .. => some .s1
  | .add .. => some .s1
  | .sub .. => some .s1
  | .addi .. => some .s1
  | .mul .. => some .s1
  | .mulhI .. => some .s1
  | .mulhN .. => some .s1
  | .and .. => some .s1
  | .or .. => some .s1
  | .xor .. => some .s1
  | .andn .. => some .s1
  | .andi .. => some .s1
  | .ori .. => some .s1
  | .xori .. => some .s1
  | .shl .. => some .s1
  | .shr .. => some .s1
  | .sar .. => some .s1
  | .ror .. => some .s1
  | .shli .. => some .s1
  | .shri .. => some .s1
  | .sari .. => some .s1
  | .rori .. => some .s1
  | .bfxN .. => some .s1
  | .bfxI .. => some .s1
  | .bfi .. => some .s1
  | .clz .. => some .s1
  | .ctz .. => some .s1
  | .popc .. => some .s1
  | .minI .. => some .s1
  | .minN .. => some .s1
  | .maxI .. => some .s1
  | .maxN .. => some .s1
  | .sel .. => some .s1
  | .movi .. => some .s1
  | .movhi .. => some .s1
  | .cmp .. => some .s1
  | .cmpi .. => some .s1
  | .plog .. => some .s1
  | .pmovWr .. => some .s1
  | .pmovRd .. => some .s1
  | .br .. => some .s1
  | .brx .. => some .s1
  | .jmp .. => some .s1
  | .call .. => some .s1
  | .ret .. => some .s1
  | .loopReg .. => some .s1
  | .loopImm .. => some .s1
  | .endl .. => some .s1
  | .brk .. => some .s1
  | .endT .. => some .s1
  | .trap .. => some .s1
  | .mnop h .. => some (if h.m1 then .m1 else .m0)
  | .ldb h .. => some (if h.m1 then .m1 else .m0)
  | .ldh h .. => some (if h.m1 then .m1 else .m0)
  | .ldw h .. => some (if h.m1 then .m1 else .m0)
  | .ld h .. => some (if h.m1 then .m1 else .m0)
  | .ldbs h .. => some (if h.m1 then .m1 else .m0)
  | .ldhs h .. => some (if h.m1 then .m1 else .m0)
  | .ldws h .. => some (if h.m1 then .m1 else .m0)
  | .stb h .. => some (if h.m1 then .m1 else .m0)
  | .sth h .. => some (if h.m1 then .m1 else .m0)
  | .stw h .. => some (if h.m1 then .m1 else .m0)
  | .st h .. => some (if h.m1 then .m1 else .m0)
  | .ldrow h .. => some (if h.m1 then .m1 else .m0)
  | .strow h .. => some (if h.m1 then .m1 else .m0)
  | .atom h .. => some (if h.m1 then .m1 else .m0)
  | .fence h .. => some (if h.m1 then .m1 else .m0)
  | .probe h .. => some (if h.m1 then .m1 else .m0)
  | .fill h .. => some (if h.m1 then .m1 else .m0)
  | .evict h .. => some (if h.m1 then .m1 else .m0)
  | .wback h .. => some (if h.m1 then .m1 else .m0)
  | .cvta h .. => some (if h.m1 then .m1 else .m0)
  | .aptest h .. => some (if h.m1 then .m1 else .m0)
  | .wait h .. => some (if h.m1 then .m1 else .m0)
  | .mon h .. => some (if h.m1 then .m1 else .m0)
  | .mwait h .. => some (if h.m1 then .m1 else .m0)
  | .vnop .. => some .v
  | .vadd .. => some .v
  | .vsub .. => some .v
  | .vmul .. => some .v
  | .vfma .. => some .v
  | .vmin .. => some .v
  | .vmax .. => some .v
  | .vabs .. => some .v
  | .vneg .. => some .v
  | .vcmp .. => some .v
  | .vsel .. => some .v
  | .vexp2 .. => some .v
  | .vlog2 .. => some .v
  | .vrcp .. => some .v
  | .vrsqrt .. => some .v
  | .vscale .. => some .v
  | .viadd .. => some .v
  | .visub .. => some .v
  | .vimul .. => some .v
  | .vimin .. => some .v
  | .vimax .. => some .v
  | .vand .. => some .v
  | .vor .. => some .v
  | .vxor .. => some .v
  | .vshl .. => some .v
  | .vshr .. => some .v
  | .vsar .. => some .v
  | .vcvt .. => some .v
  | .vpackd .. => some .v
  | .vunpkd .. => some .v
  | .vpackm .. => some .v
  | .vunpkm .. => some .v
  | .vrsum .. => some .v
  | .vrmax .. => some .v
  | .vrmin .. => some .v
  | .vshuf .. => some .v
  | .vtrans .. => some .v
  | .vmov .. => some .v
  | .vzrd .. => some .v
  | .vzwr .. => some .v
  | .vbcast .. => some .v
  | .xnop .. => some .x
  | .mma .. => some .x
  | .mmaTb .. => some .x
  | .zzero .. => some .x
  | .zscale .. => some .x
  | .zout .. => some .x
  | .cnop .. => some .c
  | .copy .. => some .c
  | .close .. => some .c
  | .binit .. => some .c
  | .barrive .. => some .c
  | .bwait .. => some .c
  | .waitl .. => some .c
  | .gjoin .. => some .c
  | .gleave .. => some .c
  | .gbar .. => some .c
  | .setfmt .. => some .c
  | .crr .. => some .c
  | .crw .. => some .c
  | .dcal .. => some .c
  | .dleft .. => some .c
  | .tlbi .. => some .c
  | .tlbiSync .. => some .c
  | .tret .. => some .c
  | .amark .. => some .c
  | .qnop .. => some .q
  | .enqt .. => some .q
  | .eboard .. => some .q
  | .ealight .. => some .q
  | .ecap .. => some .q
  | .erow .. => some .q
  | .ewhen .. => some .q
  | .tboard .. => some .q
  | .twait .. => some .q
  | .tleave .. => some .q
  | .tstat .. => some .q
  | .tspeed .. => some .q
  | .fst .. => some .q
  | .fld .. => some .q
  | .fatom .. => some .q
  | .vatom .. => some .q
  | .coll .. => some .q
  | _ => none

/-- The word of an instruction, from the same layouts; 0 for an event. -/
def encode : Instr → Nat
  | .nop g x =>
      pk [(22, x.toNat), (6, 0), (3, g.grd.toNat), (1, g.neg.toNat)]
  | .add g rd ra rb =>
      pk [(7, 0), (5, rb.toNat), (5, ra.toNat), (5, rd.toNat), (6, 1), (3, g.grd.toNat), (1, g.neg.toNat)]
  | .sub g rd ra rb =>
      pk [(7, 0), (5, rb.toNat), (5, ra.toNat), (5, rd.toNat), (6, 2), (3, g.grd.toNat), (1, g.neg.toNat)]
  | .addi g rd ra imm =>
      pk [(12, imm.toNat), (5, ra.toNat), (5, rd.toNat), (6, 3), (3, g.grd.toNat), (1, g.neg.toNat)]
  | .mul g rd ra rb =>
      pk [(7, 0), (5, rb.toNat), (5, ra.toNat), (5, rd.toNat), (6, 4), (3, g.grd.toNat), (1, g.neg.toNat)]
  | .mulhI g rd ra rb =>
      pk [(7, 0), (5, rb.toNat), (5, ra.toNat), (5, rd.toNat), (6, 5), (3, g.grd.toNat), (1, g.neg.toNat)]
  | .mulhN g rd ra rb =>
      pk [(7, 0), (5, rb.toNat), (5, ra.toNat), (5, rd.toNat), (6, 6), (3, g.grd.toNat), (1, g.neg.toNat)]
  | .and g rd ra rb =>
      pk [(7, 0), (5, rb.toNat), (5, ra.toNat), (5, rd.toNat), (6, 7), (3, g.grd.toNat), (1, g.neg.toNat)]
  | .or g rd ra rb =>
      pk [(7, 0), (5, rb.toNat), (5, ra.toNat), (5, rd.toNat), (6, 8), (3, g.grd.toNat), (1, g.neg.toNat)]
  | .xor g rd ra rb =>
      pk [(7, 0), (5, rb.toNat), (5, ra.toNat), (5, rd.toNat), (6, 9), (3, g.grd.toNat), (1, g.neg.toNat)]
  | .andn g rd ra rb =>
      pk [(7, 0), (5, rb.toNat), (5, ra.toNat), (5, rd.toNat), (6, 10), (3, g.grd.toNat), (1, g.neg.toNat)]
  | .andi g rd ra imm =>
      pk [(12, imm.toNat), (5, ra.toNat), (5, rd.toNat), (6, 11), (3, g.grd.toNat), (1, g.neg.toNat)]
  | .ori g rd ra imm =>
      pk [(12, imm.toNat), (5, ra.toNat), (5, rd.toNat), (6, 12), (3, g.grd.toNat), (1, g.neg.toNat)]
  | .xori g rd ra imm =>
      pk [(12, imm.toNat), (5, ra.toNat), (5, rd.toNat), (6, 13), (3, g.grd.toNat), (1, g.neg.toNat)]
  | .shl g rd ra rb =>
      pk [(7, 0), (5, rb.toNat), (5, ra.toNat), (5, rd.toNat), (6, 14), (3, g.grd.toNat), (1, g.neg.toNat)]
  | .shr g rd ra rb =>
      pk [(7, 0), (5, rb.toNat), (5, ra.toNat), (5, rd.toNat), (6, 15), (3, g.grd.toNat), (1, g.neg.toNat)]
  | .sar g rd ra rb =>
      pk [(7, 0), (5, rb.toNat), (5, ra.toNat), (5, rd.toNat), (6, 16), (3, g.grd.toNat), (1, g.neg.toNat)]
  | .ror g rd ra rb =>
      pk [(7, 0), (5, rb.toNat), (5, ra.toNat), (5, rd.toNat), (6, 17), (3, g.grd.toNat), (1, g.neg.toNat)]
  | .shli g rd ra c =>
      pk [(6, c.toNat), (6, 0), (5, ra.toNat), (5, rd.toNat), (6, 18), (3, g.grd.toNat), (1, g.neg.toNat)]
  | .shri g rd ra c =>
      pk [(6, c.toNat), (6, 0), (5, ra.toNat), (5, rd.toNat), (6, 19), (3, g.grd.toNat), (1, g.neg.toNat)]
  | .sari g rd ra c =>
      pk [(6, c.toNat), (6, 0), (5, ra.toNat), (5, rd.toNat), (6, 20), (3, g.grd.toNat), (1, g.neg.toNat)]
  | .rori g rd ra c =>
      pk [(6, c.toNat), (6, 0), (5, ra.toNat), (5, rd.toNat), (6, 21), (3, g.grd.toNat), (1, g.neg.toNat)]
  | .bfxN g rd ra pos len =>
      pk [(6, len.toNat), (6, pos.toNat), (5, ra.toNat), (5, rd.toNat), (6, 22), (3, g.grd.toNat), (1, g.neg.toNat)]
  | .bfxI g rd ra pos len =>
      pk [(6, len.toNat), (6, pos.toNat), (5, ra.toNat), (5, rd.toNat), (6, 23), (3, g.grd.toNat), (1, g.neg.toNat)]
  | .bfi g rd ra pos len =>
      pk [(6, len.toNat), (6, pos.toNat), (5, ra.toNat), (5, rd.toNat), (6, 24), (3, g.grd.toNat), (1, g.neg.toNat)]
  | .clz g rd ra =>
      pk [(12, 0), (5, ra.toNat), (5, rd.toNat), (6, 25), (3, g.grd.toNat), (1, g.neg.toNat)]
  | .ctz g rd ra =>
      pk [(12, 0), (5, ra.toNat), (5, rd.toNat), (6, 26), (3, g.grd.toNat), (1, g.neg.toNat)]
  | .popc g rd ra =>
      pk [(12, 0), (5, ra.toNat), (5, rd.toNat), (6, 27), (3, g.grd.toNat), (1, g.neg.toNat)]
  | .minI g rd ra rb =>
      pk [(7, 0), (5, rb.toNat), (5, ra.toNat), (5, rd.toNat), (6, 28), (3, g.grd.toNat), (1, g.neg.toNat)]
  | .minN g rd ra rb =>
      pk [(7, 0), (5, rb.toNat), (5, ra.toNat), (5, rd.toNat), (6, 29), (3, g.grd.toNat), (1, g.neg.toNat)]
  | .maxI g rd ra rb =>
      pk [(7, 0), (5, rb.toNat), (5, ra.toNat), (5, rd.toNat), (6, 30), (3, g.grd.toNat), (1, g.neg.toNat)]
  | .maxN g rd ra rb =>
      pk [(7, 0), (5, rb.toNat), (5, ra.toNat), (5, rd.toNat), (6, 31), (3, g.grd.toNat), (1, g.neg.toNat)]
  | .sel g rd ra rb pn ps =>
      pk [(3, 0), (3, ps.toNat), (1, pn.toNat), (5, rb.toNat), (5, ra.toNat), (5, rd.toNat), (6, 32), (3, g.grd.toNat), (1, g.neg.toNat)]
  | .movi g rd imm =>
      pk [(17, imm.toNat), (5, rd.toNat), (6, 33), (3, g.grd.toNat), (1, g.neg.toNat)]
  | .movhi g rd imm =>
      pk [(17, imm.toNat), (5, rd.toNat), (6, 34), (3, g.grd.toNat), (1, g.neg.toNat)]
  | .cmp g pd cond ra rb cm =>
      pk [(3, 0), (2, cm.toNat), (5, rb.toNat), (5, ra.toNat), (4, cond.toNat), (3, pd.toNat), (6, 35), (3, g.grd.toNat), (1, g.neg.toNat)]
  | .cmpi g pd cond ra cm imm =>
      pk [(8, imm.toNat), (2, cm.toNat), (5, ra.toNat), (4, cond.toNat), (3, pd.toNat), (6, 36), (3, g.grd.toNat), (1, g.neg.toNat)]
  | .plog g pd pa pb lut =>
      pk [(9, 0), (4, lut.toNat), (3, pb.toNat), (3, pa.toNat), (3, pd.toNat), (6, 37), (3, g.grd.toNat), (1, g.neg.toNat)]
  | .pmovWr g reg mask =>
      pk [(8, 0), (8, mask.toNat), (5, reg.toNat), (1, 0), (6, 38), (3, g.grd.toNat), (1, g.neg.toNat)]
  | .pmovRd g reg =>
      pk [(16, 0), (5, reg.toNat), (1, 1), (6, 38), (3, g.grd.toNat), (1, g.neg.toNat)]
  | .br g tgt =>
      pk [(6, tgt.toNat), (16, 0), (6, 48), (3, g.grd.toNat), (1, g.neg.toNat)]
  | .brx g =>
      pk [(22, 0), (6, 49), (3, g.grd.toNat), (1, g.neg.toNat)]
  | .jmp g ra =>
      pk [(12, 0), (5, ra.toNat), (5, 0), (6, 50), (3, g.grd.toNat), (1, g.neg.toNat)]
  | .call g rd ra =>
      pk [(12, 0), (5, ra.toNat), (5, rd.toNat), (6, 51), (3, g.grd.toNat), (1, g.neg.toNat)]
  | .ret g ra =>
      pk [(12, 0), (5, ra.toNat), (5, 0), (6, 52), (3, g.grd.toNat), (1, g.neg.toNat)]
  | .loopReg g ra start exit =>
      pk [(6, exit.toNat), (6, start.toNat), (4, 0), (5, ra.toNat), (1, 0), (6, 53), (3, g.grd.toNat), (1, g.neg.toNat)]
  | .loopImm g cnt start exit =>
      pk [(6, exit.toNat), (6, start.toNat), (9, cnt.toNat), (1, 1), (6, 53), (3, g.grd.toNat), (1, g.neg.toNat)]
  | .endl g =>
      pk [(22, 0), (6, 54), (3, g.grd.toNat), (1, g.neg.toNat)]
  | .brk g tgt =>
      pk [(6, tgt.toNat), (16, 0), (6, 55), (3, g.grd.toNat), (1, g.neg.toNat)]
  | .endT g =>
      pk [(22, 0), (6, 56), (3, g.grd.toNat), (1, g.neg.toNat)]
  | .trap g code =>
      pk [(16, code.toNat), (6, 0), (6, 57), (3, g.grd.toNat), (1, g.neg.toNat)]
  | .mnop h x =>
      pk [(37, x.toNat), (6, 0), (1, h.hold.toNat), (3, h.g.grd.toNat), (1, h.g.neg.toNat)]
  | .ldb h rd ra ord scope mode off disp =>
      pk [(9, disp.toNat), (10, off.toNat), (2, mode.toNat), (3, scope.toNat), (3, ord.toNat), (5, ra.toNat), (5, rd.toNat), (6, 1), (1, h.hold.toNat), (3, h.g.grd.toNat), (1, h.g.neg.toNat)]
  | .ldh h rd ra ord scope mode off disp =>
      pk [(9, disp.toNat), (10, off.toNat), (2, mode.toNat), (3, scope.toNat), (3, ord.toNat), (5, ra.toNat), (5, rd.toNat), (6, 2), (1, h.hold.toNat), (3, h.g.grd.toNat), (1, h.g.neg.toNat)]
  | .ldw h rd ra ord scope mode off disp =>
      pk [(9, disp.toNat), (10, off.toNat), (2, mode.toNat), (3, scope.toNat), (3, ord.toNat), (5, ra.toNat), (5, rd.toNat), (6, 3), (1, h.hold.toNat), (3, h.g.grd.toNat), (1, h.g.neg.toNat)]
  | .ld h rd ra ord scope mode off disp =>
      pk [(9, disp.toNat), (10, off.toNat), (2, mode.toNat), (3, scope.toNat), (3, ord.toNat), (5, ra.toNat), (5, rd.toNat), (6, 4), (1, h.hold.toNat), (3, h.g.grd.toNat), (1, h.g.neg.toNat)]
  | .ldbs h rd ra ord scope mode off disp =>
      pk [(9, disp.toNat), (10, off.toNat), (2, mode.toNat), (3, scope.toNat), (3, ord.toNat), (5, ra.toNat), (5, rd.toNat), (6, 5), (1, h.hold.toNat), (3, h.g.grd.toNat), (1, h.g.neg.toNat)]
  | .ldhs h rd ra ord scope mode off disp =>
      pk [(9, disp.toNat), (10, off.toNat), (2, mode.toNat), (3, scope.toNat), (3, ord.toNat), (5, ra.toNat), (5, rd.toNat), (6, 6), (1, h.hold.toNat), (3, h.g.grd.toNat), (1, h.g.neg.toNat)]
  | .ldws h rd ra ord scope mode off disp =>
      pk [(9, disp.toNat), (10, off.toNat), (2, mode.toNat), (3, scope.toNat), (3, ord.toNat), (5, ra.toNat), (5, rd.toNat), (6, 7), (1, h.hold.toNat), (3, h.g.grd.toNat), (1, h.g.neg.toNat)]
  | .stb h rs ra ord scope disp =>
      pk [(9, disp.toNat), (12, 0), (3, scope.toNat), (3, ord.toNat), (5, ra.toNat), (5, rs.toNat), (6, 8), (1, h.hold.toNat), (3, h.g.grd.toNat), (1, h.g.neg.toNat)]
  | .sth h rs ra ord scope disp =>
      pk [(9, disp.toNat), (12, 0), (3, scope.toNat), (3, ord.toNat), (5, ra.toNat), (5, rs.toNat), (6, 9), (1, h.hold.toNat), (3, h.g.grd.toNat), (1, h.g.neg.toNat)]
  | .stw h rs ra ord scope disp =>
      pk [(9, disp.toNat), (12, 0), (3, scope.toNat), (3, ord.toNat), (5, ra.toNat), (5, rs.toNat), (6, 10), (1, h.hold.toNat), (3, h.g.grd.toNat), (1, h.g.neg.toNat)]
  | .st h rs ra ord scope disp =>
      pk [(9, disp.toNat), (12, 0), (3, scope.toNat), (3, ord.toNat), (5, ra.toNat), (5, rs.toNat), (6, 11), (1, h.hold.toNat), (3, h.g.grd.toNat), (1, h.g.neg.toNat)]
  | .ldrow h t e nm ra rstr mode off =>
      pk [(9, off.toNat), (2, mode.toNat), (5, rstr.toNat), (5, ra.toNat), (6, nm.toNat), (6, e.toNat), (4, t.toNat), (6, 12), (1, h.hold.toNat), (3, h.g.grd.toNat), (1, h.g.neg.toNat)]
  | .strow h t e nm ra rstr =>
      pk [(11, 0), (5, rstr.toNat), (5, ra.toNat), (6, nm.toNat), (6, e.toNat), (4, t.toNat), (6, 13), (1, h.hold.toNat), (3, h.g.grd.toNat), (1, h.g.neg.toNat)]
  | .atom h rd ra rb rc aop w rv ord scope =>
      pk [(5, 0), (3, scope.toNat), (3, ord.toNat), (1, rv.toNat), (1, w.toNat), (4, aop.toNat), (5, rc.toNat), (5, rb.toNat), (5, ra.toNat), (5, rd.toNat), (6, 16), (1, h.hold.toNat), (3, h.g.grd.toNat), (1, h.g.neg.toNat)]
  | .fence h ord scope =>
      pk [(31, 0), (3, scope.toNat), (3, ord.toNat), (6, 17), (1, h.hold.toNat), (3, h.g.grd.toNat), (1, h.g.neg.toNat)]
  | .probe h pd rdp ra wayf way mb tgt barf rb =>
      pk [(8, 0), (5, rb.toNat), (1, barf.toNat), (6, tgt.toNat), (1, mb.toNat), (3, way.toNat), (1, wayf.toNat), (5, ra.toNat), (4, rdp.toNat), (3, pd.toNat), (6, 20), (1, h.hold.toNat), (3, h.g.grd.toNat), (1, h.g.neg.toNat)]
  | .fill h rd ra wayf way barf rb =>
      pk [(17, 0), (5, rb.toNat), (1, barf.toNat), (3, way.toNat), (1, wayf.toNat), (5, ra.toNat), (5, rd.toNat), (6, 21), (1, h.hold.toNat), (3, h.g.grd.toNat), (1, h.g.neg.toNat)]
  | .evict h wb ra rd =>
      pk [(26, 0), (5, rd.toNat), (5, ra.toNat), (1, wb.toNat), (6, 22), (1, h.hold.toNat), (3, h.g.grd.toNat), (1, h.g.neg.toNat)]
  | .wback h ra rd =>
      pk [(27, 0), (5, rd.toNat), (5, ra.toNat), (6, 23), (1, h.hold.toNat), (3, h.g.grd.toNat), (1, h.g.neg.toNat)]
  | .cvta h rd ra dir =>
      pk [(25, 0), (2, dir.toNat), (5, ra.toNat), (5, rd.toNat), (6, 24), (1, h.hold.toNat), (3, h.g.grd.toNat), (1, h.g.neg.toNat)]
  | .aptest h pd ra sp =>
      pk [(28, 0), (1, sp.toNat), (5, ra.toNat), (3, pd.toNat), (6, 25), (1, h.hold.toNat), (3, h.g.grd.toNat), (1, h.g.neg.toNat)]
  | .wait h l s c t =>
      pk [(21, 0), (4, t.toNat), (4, c.toNat), (4, s.toNat), (4, l.toNat), (6, 28), (1, h.hold.toNat), (3, h.g.grd.toNat), (1, h.g.neg.toNat)]
  | .mon h ent ra rb cmp w rt =>
      pk [(15, 0), (5, rt.toNat), (1, w.toNat), (3, cmp.toNat), (5, rb.toNat), (5, ra.toNat), (3, ent.toNat), (6, 29), (1, h.hold.toNat), (3, h.g.grd.toNat), (1, h.g.neg.toNat)]
  | .mwait h mask rd =>
      pk [(24, 0), (5, rd.toNat), (8, mask.toNat), (6, 30), (1, h.hold.toNat), (3, h.g.grd.toNat), (1, h.g.neg.toNat)]
  | .vnop h x =>
      pk [(30, x.toNat), (6, h.beats.toNat), (7, 0), (1, h.hold.toNat), (3, h.g.grd.toNat), (1, h.g.neg.toNat)]
  | .vadd h dt row ta tb br bfix =>
      pk [(5, 0), (1, bfix.toNat), (6, br.toNat), (4, tb.toNat), (4, ta.toNat), (6, row.toNat), (4, dt.toNat), (6, h.beats.toNat), (7, 1), (1, h.hold.toNat), (3, h.g.grd.toNat), (1, h.g.neg.toNat)]
  | .vsub h dt row ta tb br bfix =>
      pk [(5, 0), (1, bfix.toNat), (6, br.toNat), (4, tb.toNat), (4, ta.toNat), (6, row.toNat), (4, dt.toNat), (6, h.beats.toNat), (7, 2), (1, h.hold.toNat), (3, h.g.grd.toNat), (1, h.g.neg.toNat)]
  | .vmul h dt row ta tb br bfix =>
      pk [(5, 0), (1, bfix.toNat), (6, br.toNat), (4, tb.toNat), (4, ta.toNat), (6, row.toNat), (4, dt.toNat), (6, h.beats.toNat), (7, 3), (1, h.hold.toNat), (3, h.g.grd.toNat), (1, h.g.neg.toNat)]
  | .vfma h dt row ta tb br bfix =>
      pk [(5, 0), (1, bfix.toNat), (6, br.toNat), (4, tb.toNat), (4, ta.toNat), (6, row.toNat), (4, dt.toNat), (6, h.beats.toNat), (7, 4), (1, h.hold.toNat), (3, h.g.grd.toNat), (1, h.g.neg.toNat)]
  | .vmin h dt row ta tb br bfix =>
      pk [(5, 0), (1, bfix.toNat), (6, br.toNat), (4, tb.toNat), (4, ta.toNat), (6, row.toNat), (4, dt.toNat), (6, h.beats.toNat), (7, 5), (1, h.hold.toNat), (3, h.g.grd.toNat), (1, h.g.neg.toNat)]
  | .vmax h dt row ta tb br bfix =>
      pk [(5, 0), (1, bfix.toNat), (6, br.toNat), (4, tb.toNat), (4, ta.toNat), (6, row.toNat), (4, dt.toNat), (6, h.beats.toNat), (7, 6), (1, h.hold.toNat), (3, h.g.grd.toNat), (1, h.g.neg.toNat)]
  | .vabs h dt row ta =>
      pk [(16, 0), (4, ta.toNat), (6, row.toNat), (4, dt.toNat), (6, h.beats.toNat), (7, 7), (1, h.hold.toNat), (3, h.g.grd.toNat), (1, h.g.neg.toNat)]
  | .vneg h dt row ta =>
      pk [(16, 0), (4, ta.toNat), (6, row.toNat), (4, dt.toNat), (6, h.beats.toNat), (7, 8), (1, h.hold.toNat), (3, h.g.grd.toNat), (1, h.g.neg.toNat)]
  | .vcmp h dt row ta tb br bfix ty =>
      pk [(2, 0), (3, ty.toNat), (1, bfix.toNat), (6, br.toNat), (4, tb.toNat), (4, ta.toNat), (6, row.toNat), (4, dt.toNat), (6, h.beats.toNat), (7, 9), (1, h.hold.toNat), (3, h.g.grd.toNat), (1, h.g.neg.toNat)]
  | .vsel h dt row ta tb br bfix ty =>
      pk [(2, 0), (3, ty.toNat), (1, bfix.toNat), (6, br.toNat), (4, tb.toNat), (4, ta.toNat), (6, row.toNat), (4, dt.toNat), (6, h.beats.toNat), (7, 10), (1, h.hold.toNat), (3, h.g.grd.toNat), (1, h.g.neg.toNat)]
  | .vexp2 h dt row ta =>
      pk [(16, 0), (4, ta.toNat), (6, row.toNat), (4, dt.toNat), (6, h.beats.toNat), (7, 11), (1, h.hold.toNat), (3, h.g.grd.toNat), (1, h.g.neg.toNat)]
  | .vlog2 h dt row ta =>
      pk [(16, 0), (4, ta.toNat), (6, row.toNat), (4, dt.toNat), (6, h.beats.toNat), (7, 12), (1, h.hold.toNat), (3, h.g.grd.toNat), (1, h.g.neg.toNat)]
  | .vrcp h dt row ta =>
      pk [(16, 0), (4, ta.toNat), (6, row.toNat), (4, dt.toNat), (6, h.beats.toNat), (7, 13), (1, h.hold.toNat), (3, h.g.grd.toNat), (1, h.g.neg.toNat)]
  | .vrsqrt h dt row ta =>
      pk [(16, 0), (4, ta.toNat), (6, row.toNat), (4, dt.toNat), (6, h.beats.toNat), (7, 14), (1, h.hold.toNat), (3, h.g.grd.toNat), (1, h.g.neg.toNat)]
  | .vscale h dt row ta tb br bfix imm =>
      pk [(1, imm.toNat), (4, 0), (1, bfix.toNat), (6, br.toNat), (4, tb.toNat), (4, ta.toNat), (6, row.toNat), (4, dt.toNat), (6, h.beats.toNat), (7, 15), (1, h.hold.toNat), (3, h.g.grd.toNat), (1, h.g.neg.toNat)]
  | .viadd h dt row ta tb br bfix ty sat =>
      pk [(1, 0), (1, sat.toNat), (3, ty.toNat), (1, bfix.toNat), (6, br.toNat), (4, tb.toNat), (4, ta.toNat), (6, row.toNat), (4, dt.toNat), (6, h.beats.toNat), (7, 16), (1, h.hold.toNat), (3, h.g.grd.toNat), (1, h.g.neg.toNat)]
  | .visub h dt row ta tb br bfix ty sat =>
      pk [(1, 0), (1, sat.toNat), (3, ty.toNat), (1, bfix.toNat), (6, br.toNat), (4, tb.toNat), (4, ta.toNat), (6, row.toNat), (4, dt.toNat), (6, h.beats.toNat), (7, 17), (1, h.hold.toNat), (3, h.g.grd.toNat), (1, h.g.neg.toNat)]
  | .vimul h dt row ta tb br bfix ty sat =>
      pk [(1, 0), (1, sat.toNat), (3, ty.toNat), (1, bfix.toNat), (6, br.toNat), (4, tb.toNat), (4, ta.toNat), (6, row.toNat), (4, dt.toNat), (6, h.beats.toNat), (7, 18), (1, h.hold.toNat), (3, h.g.grd.toNat), (1, h.g.neg.toNat)]
  | .vimin h dt row ta tb br bfix ty =>
      pk [(2, 0), (3, ty.toNat), (1, bfix.toNat), (6, br.toNat), (4, tb.toNat), (4, ta.toNat), (6, row.toNat), (4, dt.toNat), (6, h.beats.toNat), (7, 19), (1, h.hold.toNat), (3, h.g.grd.toNat), (1, h.g.neg.toNat)]
  | .vimax h dt row ta tb br bfix ty =>
      pk [(2, 0), (3, ty.toNat), (1, bfix.toNat), (6, br.toNat), (4, tb.toNat), (4, ta.toNat), (6, row.toNat), (4, dt.toNat), (6, h.beats.toNat), (7, 20), (1, h.hold.toNat), (3, h.g.grd.toNat), (1, h.g.neg.toNat)]
  | .vand h dt row ta tb br bfix =>
      pk [(5, 0), (1, bfix.toNat), (6, br.toNat), (4, tb.toNat), (4, ta.toNat), (6, row.toNat), (4, dt.toNat), (6, h.beats.toNat), (7, 21), (1, h.hold.toNat), (3, h.g.grd.toNat), (1, h.g.neg.toNat)]
  | .vor h dt row ta tb br bfix =>
      pk [(5, 0), (1, bfix.toNat), (6, br.toNat), (4, tb.toNat), (4, ta.toNat), (6, row.toNat), (4, dt.toNat), (6, h.beats.toNat), (7, 22), (1, h.hold.toNat), (3, h.g.grd.toNat), (1, h.g.neg.toNat)]
  | .vxor h dt row ta tb br bfix =>
      pk [(5, 0), (1, bfix.toNat), (6, br.toNat), (4, tb.toNat), (4, ta.toNat), (6, row.toNat), (4, dt.toNat), (6, h.beats.toNat), (7, 23), (1, h.hold.toNat), (3, h.g.grd.toNat), (1, h.g.neg.toNat)]
  | .vshl h dt row ta tb br bfix ty imm =>
      pk [(1, imm.toNat), (1, 0), (3, ty.toNat), (1, bfix.toNat), (6, br.toNat), (4, tb.toNat), (4, ta.toNat), (6, row.toNat), (4, dt.toNat), (6, h.beats.toNat), (7, 24), (1, h.hold.toNat), (3, h.g.grd.toNat), (1, h.g.neg.toNat)]
  | .vshr h dt row ta tb br bfix ty imm =>
      pk [(1, imm.toNat), (1, 0), (3, ty.toNat), (1, bfix.toNat), (6, br.toNat), (4, tb.toNat), (4, ta.toNat), (6, row.toNat), (4, dt.toNat), (6, h.beats.toNat), (7, 25), (1, h.hold.toNat), (3, h.g.grd.toNat), (1, h.g.neg.toNat)]
  | .vsar h dt row ta tb br bfix ty imm =>
      pk [(1, imm.toNat), (1, 0), (3, ty.toNat), (1, bfix.toNat), (6, br.toNat), (4, tb.toNat), (4, ta.toNat), (6, row.toNat), (4, dt.toNat), (6, h.beats.toNat), (7, 26), (1, h.hold.toNat), (3, h.g.grd.toNat), (1, h.g.neg.toNat)]
  | .vcvt h dt dr ta ar se de =>
      pk [(2, 0), (4, de.toNat), (4, se.toNat), (6, ar.toNat), (4, ta.toNat), (6, dr.toNat), (4, dt.toNat), (6, h.beats.toNat), (7, 32), (1, h.hold.toNat), (3, h.g.grd.toNat), (1, h.g.neg.toNat)]
  | .vpackd h dt dr ta ar mr w =>
      pk [(3, 0), (1, w.toNat), (6, mr.toNat), (6, ar.toNat), (4, ta.toNat), (6, dr.toNat), (4, dt.toNat), (6, h.beats.toNat), (7, 33), (1, h.hold.toNat), (3, h.g.grd.toNat), (1, h.g.neg.toNat)]
  | .vunpkd h dt dr ta ar mr w =>
      pk [(3, 0), (1, w.toNat), (6, mr.toNat), (6, ar.toNat), (4, ta.toNat), (6, dr.toNat), (4, dt.toNat), (6, h.beats.toNat), (7, 34), (1, h.hold.toNat), (3, h.g.grd.toNat), (1, h.g.neg.toNat)]
  | .vpackm h dt dr ta ar sr mf =>
      pk [(4, mf.toNat), (6, sr.toNat), (6, ar.toNat), (4, ta.toNat), (6, dr.toNat), (4, dt.toNat), (6, h.beats.toNat), (7, 35), (1, h.hold.toNat), (3, h.g.grd.toNat), (1, h.g.neg.toNat)]
  | .vunpkm h dt dr ta ar sr mf =>
      pk [(4, mf.toNat), (6, sr.toNat), (6, ar.toNat), (4, ta.toNat), (6, dr.toNat), (4, dt.toNat), (6, h.beats.toNat), (7, 36), (1, h.hold.toNat), (3, h.g.grd.toNat), (1, h.g.neg.toNat)]
  | .vrsum h dt dr ta ar doff acc =>
      pk [(2, 0), (1, acc.toNat), (7, doff.toNat), (6, ar.toNat), (4, ta.toNat), (6, dr.toNat), (4, dt.toNat), (6, h.beats.toNat), (7, 40), (1, h.hold.toNat), (3, h.g.grd.toNat), (1, h.g.neg.toNat)]
  | .vrmax h dt dr ta ar doff acc =>
      pk [(2, 0), (1, acc.toNat), (7, doff.toNat), (6, ar.toNat), (4, ta.toNat), (6, dr.toNat), (4, dt.toNat), (6, h.beats.toNat), (7, 41), (1, h.hold.toNat), (3, h.g.grd.toNat), (1, h.g.neg.toNat)]
  | .vrmin h dt dr ta ar doff acc =>
      pk [(2, 0), (1, acc.toNat), (7, doff.toNat), (6, ar.toNat), (4, ta.toNat), (6, dr.toNat), (4, dt.toNat), (6, h.beats.toNat), (7, 42), (1, h.hold.toNat), (3, h.g.grd.toNat), (1, h.g.neg.toNat)]
  | .vshuf h dt row ta tb br bfix ty =>
      pk [(2, 0), (3, ty.toNat), (1, bfix.toNat), (6, br.toNat), (4, tb.toNat), (4, ta.toNat), (6, row.toNat), (4, dt.toNat), (6, h.beats.toNat), (7, 48), (1, h.hold.toNat), (3, h.g.grd.toNat), (1, h.g.neg.toNat)]
  | .vtrans h dt dq ta aq w =>
      pk [(16, 0), (2, w.toNat), (2, aq.toNat), (4, ta.toNat), (2, dq.toNat), (4, dt.toNat), (6, h.beats.toNat), (7, 49), (1, h.hold.toNat), (3, h.g.grd.toNat), (1, h.g.neg.toNat)]
  | .vmov h dt dr ta ar =>
      pk [(10, 0), (6, ar.toNat), (4, ta.toNat), (6, dr.toNat), (4, dt.toNat), (6, h.beats.toNat), (7, 50), (1, h.hold.toNat), (3, h.g.grd.toNat), (1, h.g.neg.toNat)]
  | .vzrd h dt dr z zr =>
      pk [(12, 0), (6, zr.toNat), (2, z.toNat), (6, dr.toNat), (4, dt.toNat), (6, h.beats.toNat), (7, 51), (1, h.hold.toNat), (3, h.g.grd.toNat), (1, h.g.neg.toNat)]
  | .vzwr h z zr ta ar =>
      pk [(12, 0), (6, ar.toNat), (4, ta.toNat), (6, zr.toNat), (2, z.toNat), (6, h.beats.toNat), (7, 52), (1, h.hold.toNat), (3, h.g.grd.toNat), (1, h.g.neg.toNat)]
  | .vbcast h dt dr rs w =>
      pk [(13, 0), (2, w.toNat), (5, rs.toNat), (6, dr.toNat), (4, dt.toNat), (6, h.beats.toNat), (7, 53), (1, h.hold.toNat), (3, h.g.grd.toNat), (1, h.g.neg.toNat)]
  | .xnop h x =>
      pk [(22, x.toNat), (23, 0), (8, h.beats.toNat), (6, 0), (1, h.hold.toNat), (3, h.g.grd.toNat), (1, h.g.neg.toNat)]
  | .mma h rpe cnt inca incb z ra rsa rb rsb =>
      pk [(5, rsb.toNat), (5, rb.toNat), (5, rsa.toNat), (5, ra.toNat), (2, z.toNat), (5, incb.toNat), (5, inca.toNat), (12, cnt.toNat), (1, rpe.toNat), (8, h.beats.toNat), (6, 1), (1, h.hold.toNat), (3, h.g.grd.toNat), (1, h.g.neg.toNat)]
  | .mmaTb h rpe cnt inca incb z ra rsa rbs pos rel =>
      pk [(1, 0), (1, rel.toNat), (3, pos.toNat), (5, rbs.toNat), (5, rsa.toNat), (5, ra.toNat), (2, z.toNat), (5, incb.toNat), (5, inca.toNat), (12, cnt.toNat), (1, rpe.toNat), (8, h.beats.toNat), (6, 2), (1, h.hold.toNat), (3, h.g.grd.toNat), (1, h.g.neg.toNat)]
  | .zzero h z =>
      pk [(20, 0), (2, z.toNat), (23, 0), (8, h.beats.toNat), (6, 3), (1, h.hold.toNat), (3, h.g.grd.toNat), (1, h.g.neg.toNat)]
  | .zscale h z t row ax =>
      pk [(9, 0), (1, ax.toNat), (6, row.toNat), (4, t.toNat), (2, z.toNat), (23, 0), (8, h.beats.toNat), (6, 4), (1, h.hold.toNat), (3, h.g.grd.toNat), (1, h.g.neg.toNat)]
  | .zout h z dt row zr df =>
      pk [(4, df.toNat), (6, zr.toNat), (6, row.toNat), (4, dt.toNat), (2, z.toNat), (23, 0), (8, h.beats.toNat), (6, 5), (1, h.hold.toNat), (3, h.g.grd.toNat), (1, h.g.neg.toNat)]
  | .cnop g x =>
      pk [(38, x.toNat), (6, 0), (3, g.grd.toNat), (1, g.neg.toNat)]
  | .copy g ch ra =>
      pk [(31, 0), (5, ra.toNat), (2, ch.toNat), (6, 1), (3, g.grd.toNat), (1, g.neg.toNat)]
  | .close g =>
      pk [(38, 0), (6, 2), (3, g.grd.toNat), (1, g.neg.toNat)]
  | .binit g ra rn rs =>
      pk [(23, 0), (5, rs.toNat), (5, rn.toNat), (5, ra.toNat), (6, 3), (3, g.grd.toNat), (1, g.neg.toNat)]
  | .barrive g ra rs exp scope =>
      pk [(24, 0), (3, scope.toNat), (1, exp.toNat), (5, rs.toNat), (5, ra.toNat), (6, 4), (3, g.grd.toNat), (1, g.neg.toNat)]
  | .bwait g test pd ra rph scope =>
      pk [(21, 0), (3, scope.toNat), (5, rph.toNat), (5, ra.toNat), (3, pd.toNat), (1, test.toNat), (6, 5), (3, g.grd.toNat), (1, g.neg.toNat)]
  | .waitl g test pd ctxk rc rn scope =>
      pk [(18, 0), (3, scope.toNat), (5, rn.toNat), (5, rc.toNat), (3, ctxk.toNat), (3, pd.toNat), (1, test.toNat), (6, 6), (3, g.grd.toNat), (1, g.neg.toNat)]
  | .gjoin g rg =>
      pk [(33, 0), (5, rg.toNat), (6, 8), (3, g.grd.toNat), (1, g.neg.toNat)]
  | .gleave g rg =>
      pk [(33, 0), (5, rg.toNat), (6, 9), (3, g.grd.toNat), (1, g.neg.toNat)]
  | .gbar g rg mode pd =>
      pk [(28, 0), (3, pd.toNat), (2, mode.toNat), (5, rg.toNat), (6, 10), (3, g.grd.toNat), (1, g.neg.toNat)]
  | .setfmt g msk img =>
      pk [(20, img.toNat), (13, 0), (5, msk.toNat), (6, 12), (3, g.grd.toNat), (1, g.neg.toNat)]
  | .crr g rd cr =>
      pk [(21, 0), (12, cr.toNat), (5, rd.toNat), (6, 13), (3, g.grd.toNat), (1, g.neg.toNat)]
  | .crw g rs cr =>
      pk [(21, 0), (12, cr.toNat), (5, rs.toNat), (6, 14), (3, g.grd.toNat), (1, g.neg.toNat)]
  | .dcal g rd =>
      pk [(33, 0), (5, rd.toNat), (6, 16), (3, g.grd.toNat), (1, g.neg.toNat)]
  | .dleft g rd pd =>
      pk [(30, 0), (3, pd.toNat), (5, rd.toNat), (6, 17), (3, g.grd.toNat), (1, g.neg.toNat)]
  | .tlbi g form rs ra =>
      pk [(26, 0), (5, ra.toNat), (5, rs.toNat), (2, form.toNat), (6, 20), (3, g.grd.toNat), (1, g.neg.toNat)]
  | .tlbiSync g =>
      pk [(38, 0), (6, 21), (3, g.grd.toNat), (1, g.neg.toNat)]
  | .tret g =>
      pk [(38, 0), (6, 24), (3, g.grd.toNat), (1, g.neg.toNat)]
  | .amark g k ra rl =>
      pk [(26, 0), (5, rl.toNat), (5, ra.toNat), (2, k.toNat), (6, 25), (3, g.grd.toNat), (1, g.neg.toNat)]
  | .qnop g x =>
      pk [(38, x.toNat), (6, 0), (3, g.grd.toNat), (1, g.neg.toNat)]
  | .enqt g ra =>
      pk [(33, 0), (5, ra.toNat), (6, 1), (3, g.grd.toNat), (1, g.neg.toNat)]
  | .eboard g rd rw any t e ord atr off =>
      pk [(10, off.toNat), (1, atr.toNat), (4, 0), (2, ord.toNat), (6, e.toNat), (4, t.toNat), (1, any.toNat), (5, rw.toNat), (5, rd.toNat), (6, 4), (3, g.grd.toNat), (1, g.neg.toNat)]
  | .ealight g rw dep ra ord =>
      pk [(25, 0), (2, ord.toNat), (5, ra.toNat), (1, dep.toNat), (5, rw.toNat), (6, 5), (3, g.grd.toNat), (1, g.neg.toNat)]
  | .ecap g rd rw ra f cop ord atr off =>
      pk [(10, off.toNat), (1, atr.toNat), (4, 0), (2, ord.toNat), (3, cop.toNat), (3, f.toNat), (5, ra.toNat), (5, rw.toNat), (5, rd.toNat), (6, 6), (3, g.grd.toNat), (1, g.neg.toNat)]
  | .erow g t e rw ord atr off =>
      pk [(10, off.toNat), (1, atr.toNat), (10, 0), (2, ord.toNat), (5, rw.toNat), (6, e.toNat), (4, t.toNat), (6, 7), (3, g.grd.toNat), (1, g.neg.toNat)]
  | .ewhen g rd rw =>
      pk [(28, 0), (5, rw.toNat), (5, rd.toNat), (6, 8), (3, g.grd.toNat), (1, g.neg.toNat)]
  | .tboard g rl rf re rs d =>
      pk [(16, 0), (2, d.toNat), (5, rs.toNat), (5, re.toNat), (5, rf.toNat), (5, rl.toNat), (6, 12), (3, g.grd.toNat), (1, g.neg.toNat)]
  | .twait g rd n =>
      pk [(29, 0), (4, n.toNat), (5, rd.toNat), (6, 13), (3, g.grd.toNat), (1, g.neg.toNat)]
  | .tleave g =>
      pk [(38, 0), (6, 14), (3, g.grd.toNat), (1, g.neg.toNat)]
  | .tstat g rd =>
      pk [(33, 0), (5, rd.toNat), (6, 15), (3, g.grd.toNat), (1, g.neg.toNat)]
  | .tspeed g spd =>
      pk [(35, 0), (3, spd.toNat), (6, 16), (3, g.grd.toNat), (1, g.neg.toNat)]
  | .fst g rdst rsrc rlen rctr ctr =>
      pk [(17, 0), (1, ctr.toNat), (5, rctr.toNat), (5, rlen.toNat), (5, rsrc.toNat), (5, rdst.toNat), (6, 20), (3, g.grd.toNat), (1, g.neg.toNat)]
  | .fld g rdst rsrc rlen rctr ctr =>
      pk [(17, 0), (1, ctr.toNat), (5, rctr.toNat), (5, rlen.toNat), (5, rsrc.toNat), (5, rdst.toNat), (6, 21), (3, g.grd.toNat), (1, g.neg.toNat)]
  | .fatom g rd ra rb aop w rv ord atr off =>
      pk [(10, off.toNat), (1, atr.toNat), (4, 0), (2, ord.toNat), (1, rv.toNat), (1, w.toNat), (4, aop.toNat), (5, rb.toNat), (5, ra.toNat), (5, rd.toNat), (6, 22), (3, g.grd.toNat), (1, g.neg.toNat)]
  | .vatom g ra t e h ft =>
      pk [(21, 0), (1, ft.toNat), (1, h.toNat), (6, e.toNat), (4, t.toNat), (5, ra.toNat), (6, 23), (3, g.grd.toNat), (1, g.neg.toNat)]
  | .coll g rd ra =>
      pk [(28, 0), (5, ra.toNat), (5, rd.toNat), (6, 24), (3, g.grd.toNat), (1, g.neg.toNat)]
  | .qenq rs2 rs1 rd => pk [(7, 0x0B), (5, rd.toNat), (3, 0), (5, rs1.toNat), (5, rs2.toNat), (7, 0)]
  | .qfence => 0x100B
  | _ => 0

end Sys2Proof
end

