-- ==== Sys2Proof/Machine/State.lean ====
section
/-! DEFINITION. The machine's state: every piece of state the spec gives one Tolard package, as plain data. -/

namespace Sys2Proof.Machine

/-- Data by key: keys strictly rising, a key that holds the default value is not listed. -/
abbrev Map (α : Type) := List (Nat × α)

/-- An exact value of an arithmetic format (R181, R190): sign, magnitude `m * 2 ^ e`. -/
inductive FVal where
  | nan
  | inf (neg : Bool)
  | fin (neg : Bool) (m : Nat) (e : Int)
  deriving DecidableEq, Repr, Inhabited

/-- What a fault entry names (R334): class, cause, REQ, addresses, QW6 and QW7. -/
structure FaultRec where
  cls : Nat
  cause : Nat
  req : Nat := 0
  ctx : Nat := 0xFFFF
  ga : Word := 0
  pa : Word := 0
  qw6 : Word := 0
  qw7 : Word := 0
  cycle : Nat := 0    -- the ring cycle of the fault (QW1)
  scnt : Nat := 0     -- SCNT and COARSE of a memory-model exception (R147), for which R334 has no word
  coarse : Bool := false
  beat : Option (Nat × Nat × Nat × Nat) := none   -- operand, row, pass and k-step of a matrix operand read (R295)
  deriving DecidableEq, Repr, Inhabited

/-- Where a result is written: a scalar, a predicate, a tile row `64 t + r`, an accumulator row `64 z + r`. -/
inductive Dest where
  | sreg (r : Nat)
  | preg (p : Nat)
  | trow (k : Nat)
  | arow (k : Nat)
  | none
  deriving DecidableEq, Repr, Inhabited

/-- A result in flight (R166, R174): written at the start of domain cycle `due`, the bits of `mask` only. -/
structure Result where
  dest : Dest
  due : Nat
  val : Row
  mask : Row
  flags : BitVec 5
  vx : Nat           -- 0 a slot, 1 the V engine, 2 the X engine
  deriving DecidableEq, Repr, Inhabited

/-- A control-register write in its shadow (R195, R196, R290, R325). -/
structure CtlWrite where
  reg : Nat
  val : Word
  due : Nat
  deriving DecidableEq, Repr, Inhabited

/-- An expanded segment (R165, R203, R204): the control line's fields and the bundles, or the cause for which its
entry traps (R205), or the fault its fetch met (R27, R51). -/
structure Segment where
  addr : Word
  bad : Option Nat
  fetch : Option FaultRec
  count : Nat
  null : Bool
  hint : Bool
  fall : Word
  taken : Word
  bundles : List Bundle
  deriving DecidableEq, Repr, Inhabited

/-- The job-wide registers (R12, R18, R89, R326, R335, R388), as one core or one job-table entry holds them. -/
structure JobRegs where
  apl : Word
  apc : Word
  ttbase : Word
  asid : Word
  devtab : Word
  eddyBase : Word
  eddyCount : Word
  eddyJob : Word
  rwinBase : Word
  rwinSize : Word
  priv : Word
  trapvec : Word
  jobid : Word
  deriving DecidableEq, Repr, Inhabited

/-- What stops a bundle from issuing in its cycle: a precise fault (R171, R335), a freeze with the code of R397
(R40), or a stall (R261, R305). A fault carries whether its bundle has had its effect (R244, R205). -/
inductive Attn where
  | fault (f : FaultRec)
  | after (f : FaultRec) (idx : Nat)
  | freeze (code : Nat)
  | expand (target : Word)                                -- R165: a segment is to be expanded first
  | walk (cache ctx : Nat) (va : Word) (regs : JobRegs)   -- R25: a table walk is to complete first
  | pending (kind req : Nat)   -- a recorded fault: 0 a request's, 1 Tide, 2 overrun, 3 abandoned landing, 4 matrix
  | response (pa n : Nat) (f : FaultRec)   -- an error response to an exposed read of n bytes (R51)
  | stall
  deriving DecidableEq, Repr, Inhabited

/-- An entry of an acquire set (R140, R143): kind 0 THR, 1 ENG, 2 BAR, 3 GRP. -/
structure AEntry where
  kind : Nat
  id : Nat
  count : Nat
  wide : Bool
  deriving DecidableEq, Repr, Inhabited

/-- A granule's race-detection tag (R141). -/
structure Tag where
  wk : Nat
  rel : Bool
  syn : Bool
  wid : Nat          -- TID of a thread writer, barrier PA[33:4] of an engine with barrier
  wn : Nat           -- SCNT, or timeline number
  phase : Nat
  ectx : Nat
  rid : Nat
  shr : Bool
  rn : Nat
  wcore : Nat := 0    -- core, scope, JOBID, frame and cycle of a synchronising writer, which R128 needs (log entry 1)
  wscope : Nat := 0
  wjob : Nat := 0
  wframe : Nat := 0
  wat : Nat := 0
  wfences : List (Nat × Nat) := []   -- the writer's release fences: scope and SCNT of the latest at each (R128)
  deriving DecidableEq, Repr, Inhabited

/-- A slice's release record (R144). -/
structure RelRecord where
  granule : Nat
  aset : List AEntry
  coarse : Bool
  stamp : Nat
  deriving DecidableEq, Repr, Inhabited

/-- Who issued an access or an engine operation, with the state latched at issue (R133, R146, R389). -/
structure Issuer where
  core : Nat
  frame : Nat
  job : Nat
  regs : JobRegs
  priv : Bool
  handler : Bool
  replay : Bool       -- a task that the auditor replays (R345)
  tid : Nat
  scnt : Nat
  startcnt : Nat
  aset : List AEntry
  coarse : Bool
  pos : Nat           -- earlier requests of the thread happen before every transfer
  deriving DecidableEq, Repr, Inhabited

/-- What a request does at its home. -/
inductive ReqKind where
  | load (w : Nat) (signed : Bool)
  | store (w : Nat)
  | row (n : Nat)                       -- LDROW of n rows
  | srow (n : Nat)                      -- STROW of n rows
  | atom (aop w : Nat) (ret : Bool) (x y : Word)
  | binit (lo hi : Word)
  | barrive (sectors : Word)
  | tap                                 -- a tap operation with a result
  | alight                              -- EALIGHT
  | fatom
  | enqt (die entry : Nat)              -- a release on its way (R136), then the record leaves
  | garrive (gid : Nat)                 -- the release of a GBAR arrival (R137)
  | gleave (gid : Nat)                  -- the release of a GLEAVE (R137)
  | amark (a : Word) (n : Nat)          -- an input range that is to be copied (R344)
  | fence                               -- a FENCE whose bundle holds an earlier access (R255)
  deriving DecidableEq, Repr, Inhabited

/-- One single-copy atomic part of a request (R122): where it goes, and how far it has come. -/
structure Part where
  ga : Word
  pa : Nat
  len : Nat
  at_ : Nat           -- wall cycle at which it leaves for its home (R253)
  unchk : Bool
  data : Row
  sent : Bool         -- the data to store is known
  done : Bool         -- performed at the home
  here : Bool         -- data at the core, or write acknowledged
  row : Nat           -- the row of the request it belongs to
  off : Nat           -- its first byte within that row, or within the value
  refused : Nat       -- consecutive cycles in which its home's slice has refused it (R39)
  put : Bool          -- its bytes are in the destination row (R253)
  deriving DecidableEq, Repr, Inhabited

/-- A variable-latency request of the thread (R41, R44, R172, R251 to R254): class 1 L, 2 S, 3 T. -/
structure Req where
  id : Nat
  kind : ReqKind
  cls : Nat
  dest : Dest
  due : Option Nat    -- domain cycle of a timed landing
  fixed : Bool        -- fixed mode (R251): holds no landing slot
  timed : Bool
  ord : Nat
  scope : Nat
  pos : Nat           -- order of issue
  issued : Nat        -- domain cycle of issue
  parts : List Part
  fault : Option FaultRec
  landed : Bool
  deriving DecidableEq, Repr, Inhabited

/-- A watch-table entry (R262): state 0 FREE, 1 ARMED, 2 FIRED_CMP, 3 FIRED_TMO. -/
structure Watch where
  addr : Nat
  val : Word
  left : Nat
  state : Nat
  cmp : Nat
  w : Bool
  recycled : Bool
  deriving DecidableEq, Repr, Inhabited

/-- The V engine's current operation (R267, R268): the next beat and what it latched at issue. -/
structure VOp where
  i : Instr
  k : Nat
  b : Nat
  issue : Nat
  fmt : Word
  scal : Word
  rows : List Row
  go : Bool           -- a beat after the first is due now
  deriving DecidableEq, Repr, Inhabited

/-- A translation-cache entry (R23): one page, with the leaf that gave it. -/
structure TlbEnt where
  asid : Nat
  va : Nat            -- first virtual address of the page
  log : Nat           -- log2 of the page size
  pa : Nat
  dev : Nat           -- device index; 0 is this device
  devId : BitVec 16
  leaf : Word
  last : Word         -- the last entry its walk read: the leaf, or the device-table entry (R26)
  deriving DecidableEq, Repr, Inhabited

/-- The X engine's current operation (R291): the next beat and what it latched at issue. -/
structure XOp where
  i : Instr
  j : Nat
  b : Nat
  np : Nat
  issue : Nat
  fmt : Word
  nbv : Word
  xmask : Word
  xscl : Word
  z : Nat
  a0 : Word
  sa : Word
  b0 : Word
  sb : Word
  inca : Word
  incb : Word
  kstep : Nat         -- XPROG.KSTEP
  ks : List (List FVal × List FVal)   -- the k-steps read since the last group end
  pos : Nat           -- of its reads in program order
  ready : Nat         -- wall cycle by which the beat's operands of other slices are in the engine; 0 until they are asked for (R292)
  tried : Bool        -- the beat has been attempted already (R298)
  upto : Nat          -- beat that a re-run must reach before a bundle issues (R295, R296)
  got : List TlbEnt   -- the translations that the beat in process has found so far (R287)
  fault : Option FaultRec   -- the fault of the beat just attempted
  deriving DecidableEq, Repr, Inhabited

/-- The Tide subscription (R112 to R120): state 0 IDLE, 1 ARMED, 2 BOARDING, 3 WAITLAP, 4 DONE. -/
structure TideSub where
  state : Nat
  layer : Nat
  first : Nat
  last : Nat
  stride : Nat
  rate : Nat
  next : Nat
  missl : Bool
  misst : Bool
  absent : Bool
  tl : Nat
  reg : Nat           -- 0 not registered, 1 registered, else 2 + the cycle from which it counts (R115)
  seenLap : Option Nat
  beatAt : Nat        -- the cycle at which a tile of the layer last passed while BOARDING
  seen : Option (Nat × Bool)             -- ring tile whose first beat passed and was not taken; buffer full then
  buf : List (Nat × Nat × List Row)      -- resident tiles: layer, index, payload rows
  taking : List (Nat × Nat × Nat)        -- taken, not landed: ring tile, landing cycle, 1 from the restore list
  restore : List (Nat × Nat)
  heads : List Nat    -- listed layers whose head has passed since the resume (R120)
  kept : Nat          -- the recorded state, taken when the restore list is empty
  pending : List FaultRec
  deriving DecidableEq, Repr, Inhabited

/-- A copy-batch record (R172): for each context used, the value its timeline is to reach. -/
abbrev Batch := List (Nat × Nat)

/-- Membership of one group (R313): phase of the latest arrival, whether it has still to depart, and whether the GBAR
that waits now made it (model's own, log entry 1). -/
structure Membership where
  gid : Nat
  arrival : Nat
  pending : Bool
  here : Bool
  deriving DecidableEq, Repr, Inhabited

/-- How far a thread is in its life (R161), and what keeps it from issuing. -/
inductive Phase where
  | running
  | stalled                             -- R261: a bundle waits, the domain runs
  | frozen (code : Nat) (count : Nat)   -- R40, R397
  | ending
  | endFrozen (code count : Nat)       -- R40, R162, R292: a landing or an operand that END waits for is late
  | saving (forFault : Bool) (at_ : Nat) -- R173 step 2, begun at wall cycle `at_`
  | writing (forFault : Bool)           -- R173 step 4
  | restoring
  deriving DecidableEq, Repr, Inhabited

/-- Whether a save waits for what it awaits (R173 step 2). -/
def Phase.saves : Phase → Bool
  | .saving _ _ => true
  | _ => false

/-- Scalar, predicate, tile and accumulator registers (R150). -/
structure RegFile where
  s : Vector Word 32
  p : BitVec 8
  tiles : Map Row
  accs : Map Row
  deriving DecidableEq, Repr, Inhabited

/-- For how many consecutive cycles an engine's piece has been refused at the slices, and the sub-banks that it wants, each
numbered with its slice (R39). -/
structure BankWait where
  refused : Nat
  wants : List Nat
  deriving DecidableEq, Repr, Inhabited

/-- A running expansion (R165): its target, the cycle of its next step (0 before its control line is requested), the cycle
in which the control line arrived, and the lines that have arrived. -/
structure Expansion where
  target : Word
  due : Nat
  ctlAt : Nat
  bytes : List Byte
  bank : BankWait := ⟨0, []⟩
  deriving DecidableEq, Repr, Inhabited

/-- The sequencer: PC, loop buffer, loop stack, hold state (R150, R165, R170). -/
structure Seqr where
  seg : Word
  idx : Nat
  buf : Segment
  next : Option Segment
  expanding : Option Expansion
  moved : Bool                          -- a slot of the bundle has named the next bundle (R239)
  point : Bool                          -- and is a pre-emption point (R173)
  fenced : Bool                         -- a FENCE has issued since the current segment was entered (R207)
  loops : List (Nat × Nat)
  holdM0 : Option Instr
  holdM1 : Option Instr
  holdV : Option Instr
  holdX : Option Instr
  pwrite : List (Nat × Nat)             -- cycle after which each predicate was last written (R168)
  deriving DecidableEq, Repr, Inhabited

/-- The exposed pipeline (R166, R169, R174, R195). -/
structure Pipe where
  dc : Nat                              -- cycles of the core's clock domain
  inflight : List Result
  reads : List (Nat × Nat)              -- tile rows a V operation or STROW has still to read, and when (R253, R269)
  writes : List (Dest × Nat)            -- rows a V operation or ZOUT is to write, and when (R268)
  zguard : List (Nat × Nat)             -- accumulators of VZRD and VZWR, and the cycle from which X may name them (R269)
  counts : List (Nat × Nat)             -- V operations and ZOUT: results counted, cycle of the last write (R268)
  ctl : List CtlWrite
  vop : Option VOp
  vEnd : Nat
  xop : Option XOp
  xEnd : Nat
  banks : Nat                           -- cycles still owed to sub-bank conflicts, or to a start's clearing (R40, R164)
  used : List Nat                       -- sub-banks taken by this bundle's exposed accesses
  deriving DecidableEq, Repr, Inhabited

/-- FMT, FFLAGS, NBV, XMASK, XSCL as in force (R194 to R197, R290). -/
structure CtlRegs where
  fmt : Word
  fflags : BitVec 5
  nbv : Word
  xmask : Word
  xscl : Word
  deriving DecidableEq, Repr, Inhabited

/-- Detector state (R140, R143): `pend` are the synchronising reads since the previous acquire fence that it may still acquire,
`fences` the latest release fence at each scope (R128). -/
structure Detector where
  tid : Nat
  scnt : Nat
  startcnt : Nat
  aset : List AEntry
  coarse : Bool
  bypass : Bool
  pend : List (Tag × Nat × Bool)         -- tag read, granule, and whether a relaxed atomic read it
  fences : List (Nat × Nat)              -- scope, and SCNT after the fence
  deriving DecidableEq, Repr, Inhabited

/-- A thread (R150), as a core runs it or as its save frame holds it. -/
structure Thread where
  frame : Nat                           -- die * 4096 + save-frame index
  job : Nat
  record : List Word
  anm : Bool
  handler : Bool
  trapped : Option FaultRec             -- a handler's fault in progress: the entry it serves
  regs : JobRegs
  chans : List Nat
  fab : Option Nat
  prio : Nat
  phase : Phase
  r : RegFile
  q : Seqr
  x : Pipe
  c : CtlRegs
  reqs : List Req
  nextReq : Nat
  uncov : List (Dest × Nat × Nat)       -- destinations of counted requests no WAIT has covered: class, request (R44)
  watch : List Watch
  det : Detector
  openB : Batch
  closedB : List Batch
  tlqf : Option Nat
  tide : TideSub
  groups : List Membership
  tlbis : List Nat                      -- TLBIs issued and not yet in effect
  tlbiOps : List Nat                    -- TLBIs whose covered operations TLBI.SYNC waits for
  attn : Option Attn
  preempt : Bool
  kill : Bool
  overruns : List (Nat × Nat)           -- pending dredge overruns (R341): context and physical address
  timeouts : List Nat                   -- landings abandoned by a save: the domain cycle each fault is due
  spurious : Bool
  posFault : Option FaultRec            -- the fault a save in progress serves
  tret : Bool                           -- a handler ends by TRET (R336)
  taps : Nat                            -- tap operations queued
  auditIn : List (Word × Nat)
  auditOut : List (Word × Nat)
  auditNone : Bool
  sampled : Bool
  replay : Bool
  killBy : Option Nat                   -- the cycle by which a killed thread has ended (R178)
  near : Option Nat                     -- the home core of its PLKIND 3 record (R157)
  homes : List (Nat × Nat)              -- the cores it has run on, each with the cycle it came there, latest first (R128)
  deriving DecidableEq, Repr, Inhabited

/-- A tap operation in a core's queue (R91): kind 0 ECAP, 1 EROW, 2 EBOARD, 3 EALIGHT. -/
structure TapOp where
  kind : Nat
  req : Nat
  slot : Nat
  any : Bool
  w : Word
  base : Nat
  count : Nat
  job : Nat
  variant : Nat
  field : Nat
  a : Word
  b : Word
  payload : BitVec 512
  deposit : Option (Word × Nat × Bool)
  ord : Nat
  eligible : Nat
  frame : Nat         -- the frame of the thread that queued it
  deriving DecidableEq, Repr, Inhabited

/-- A slot of the probe cache (R55): state 0 INVALID, 1 FILLING, 2 VALID, 3 DIRTY, 4 ERR. -/
structure PSlot where
  state : Nat
  va : Word
  asid : Nat
  ro : Bool
  no : Nat
  pa : Nat
  dev : Nat
  cause : Nat
  errPa : Nat
  page : Nat          -- log2 of the page it was filled through
  leaf : Option Word  -- the leaf it was filled through
  drop_ : Bool        -- a TLBI removed its translation: FILLING, or DIRTY and waiting for room in the queue (R57, R60)
  regs : JobRegs      -- the owning job's translation registers and privilege (R62)
  priv : Bool
  deriving DecidableEq, Repr, Inhabited

/-- A queued fill or write-back (R57). -/
structure POp where
  no : Nat
  fill : Bool
  slot : Nat
  va : Word
  asid : Nat
  bar : Option Nat
  barGa : Word        -- the barrier's generic address
  barStale : Bool     -- its translation has been discarded (R27)
  phase : Nat
  issuer : Issuer
  data : List Byte
  regs : JobRegs      -- whose translations it uses (R62)
  priv : Bool
  place : Option (Nat × Option (BitVec 16))   -- where it goes, once translated; the device if another
  leaf : Option Word  -- the leaf that gave it, until its hints have been counted (R68)
  bank : BankWait
  issued : Option Nat -- the cycle its transfer was issued
  done : Bool
  deriving DecidableEq, Repr, Inhabited

/-- The probe cache of one core (R53 to R62). -/
structure Probe where
  cfg : Word
  cfgerr : Bool
  slots : Map PSlot
  plru : Map (BitVec 7)
  queue : List POp
  owing : List POp                      -- complete fills whose barrier is to be translated anew and counted (R27, R58)
  no : Nat
  tl : Nat
  halted : Option FaultRec
  deriving DecidableEq, Repr, Inhabited

/-- A slice's code registers and scrubber (R49). -/
structure Slice where
  ecccfg : Word
  uecnt : Nat
  cecnt : Nat
  second : Bool
  failed : Option Nat
  counts : Map Nat
  scrub : Nat
  trackers : List (Nat × Nat)           -- watch trackers in arming order: core, entry (R264)
  records : List RelRecord
  takenAt : Nat                         -- a cycle, and the sub-banks that promoted requesters take in it (R39, R40)
  taken : List Nat
  deriving DecidableEq, Repr, Inhabited

/-- A chain given to a copy channel, with its issuer (R307). -/
structure Chain where
  head : Word
  issuer : Issuer
  deriving DecidableEq, Repr, Inhabited

/-- An operation of a fabric channel (R318, R320): kind 0 FST, 1 FLD, 2 VATOM. -/
structure FabOp where
  no : Nat
  kind : Nat
  dst : Word
  src : Word
  len : Nat
  ctr : Option Word
  data : Row
  ft : Bool
  off : Nat
  waiting : List Nat  -- tags of packets without an answer
  ctrSent : Bool
  landed : List (Word × List Byte)      -- bytes that have arrived and wait to be written (R84, R381)
  unseen : Bool                         -- a VATOM whose leaf could not be checked at issue (R320)
  issuer : Issuer
  deriving DecidableEq, Repr, Inhabited

/-- An engine context (R142): its timeline, its queue, the record it works on, and whether it is halted. -/
structure Engine where
  tl : Nat
  last : Nat
  held : Option Nat                     -- the frame whose thread reserved it (R158)
  chains : List Chain
  given : Nat                           -- chains queued and chains finished since device reset (R172)
  finished : Nat
  cur : Word
  words : List Word
  pages : List TlbEnt                   -- the translations of the record in process (R31)
  serial : Nat                          -- stamp of the record in process
  piece : Nat                           -- the pieces of its box that have moved (R307)
  counted : Bool                        -- its sectors and its arrival are on their way to BAR (R307)
  busy : Bool                           -- a record is in process
  begun : Bool                          -- its transfers run; its completion is due
  hbmAt : Option Nat                    -- cycle its HBM transfer was issued
  ops : List FabOp
  halted : Option FaultRec
  giveUp : Bool                         -- an ABANDON that a dredge window holds (R84, R337)
  bank : BankWait
  deriving DecidableEq, Repr, Inhabited

/-- An entry of a cluster's walk cache: the pointer a level-1 or level-2 read gave (R23). -/
structure WalkEnt where
  asid : Nat
  level : Nat
  va : Nat
  next : Nat
  deriving DecidableEq, Repr, Inhabited

/-- A walk in progress (R20, R29): for which cache of which core. -/
structure Walk where
  cache : Nat         -- 0 fetch, 1 memory pipe, 2 matrix, 3 copy, 4 fabric
  core : Nat
  ctx : Nat
  va : Word
  regs : JobRegs
  began : Nat
  stale : Bool
  deriving DecidableEq, Repr, Inhabited

/-- A failed walk kept for the access that asked for it; never cached (R24). -/
structure WalkFail where
  cache : Nat
  core : Nat
  va : Word
  f : FaultRec
  deriving DecidableEq, Repr, Inhabited

/-- What the detector hands a child (R143): the parent's ASET and counts after the ENQT. -/
structure Parent where
  aset : List AEntry
  coarse : Bool
  tid : Nat
  scnt : Nat
  deriving DecidableEq, Repr, Inhabited

/-- An entry of a die's task store (R154, R155): state 0 in transit, 1 SPILLED, 2 WAITING, 3 READY, 4 STARTING. -/
structure Entry where
  id : Nat
  state : Nat
  record : List Word                    -- its eight words (R152), and the address it was read at
  resume : Option Nat                   -- the frame of a resume entry
  job : Nat
  prio : Nat
  age : Nat
  readyAt : Nat
  near : Option Nat                     -- the home core of a PLKIND 3 record
  badr : Nat
  parent : Option Parent
  core : Nat
  replay : Option (Nat × Nat)           -- an auditor's replay: the original core and TID
  slot : Nat                            -- its slot of the spill region while it is SPILLED (R155)
  deriving DecidableEq, Repr, Inhabited

/-- One compute die: scheduler, fault queue, rails (R154 to R160, R333, R342). -/
structure Die where
  run : Bool
  entries : List Entry
  spill : Word
  save : Word
  usedFrames : List Nat
  fqBase : Word
  fqHead : Nat
  fqTail : Nat
  fqDrop : Nat
  fqHeld : List (List Word)
  recal : Option Nat                    -- the rail being recalibrated
  returning : Option Nat                -- the rail of an aborted recalibration, not yet back in service (R342)
  failedRails : List Nat
  deriving DecidableEq, Repr, Inhabited

/-- A saved thread, and the fault entry it is held for (R335, R337). -/
structure Saved where
  thread : Thread
  held : Bool
  entry : Option Nat                    -- its resume entry, once stored
  handling : Bool                       -- its handler runs
  savedAt : Nat                         -- the cycle in which the save was complete (R157)
  deriving DecidableEq, Repr, Inhabited

/-- A member of a group (R137, R145): first phase, whether it has arrived at the current one, its release numbers
for its two most recent arrivals. -/
structure Member where
  frame : Nat
  tid : Nat
  first : Nat
  arrived : Bool
  wide : Bool
  arrivals : List (Nat × Nat)
  jobid : Nat                           -- its thread's copy of JOBID (R388)
  deriving DecidableEq, Repr, Inhabited

/-- A group's state in the package (R163, R313, R371). -/
structure Group where
  phase : Nat
  members : List Member
  wide : Bool
  wideDone : List (Nat × Bool)
  gone : List Member                    -- threads that have left
  sentTo : Option Nat                   -- the phase whose end is on its way
  deriving DecidableEq, Repr, Inhabited

/-- The router's local entry of a group whose job spans packages (R371): the number of its phase here, whether the package is
registered, whether its arrival at the phase has been sent, whether a BARARV awaits its answer, and those to be sent next. -/
structure LocalEntry where
  phase : Nat
  here : Bool
  sent : Bool
  busy : Bool
  queue : List (Nat × Nat)              -- SUB and phase
  deriving DecidableEq, Repr, Inhabited

/-- A root's entry for a group (R371): registered packages, those that have arrived, joins and leaves to come, the number that
each package gives the present phase (under its id, or 65536 + its id for one that joins: its first phase), and the packages at
their first phase. -/
structure RootEntry where
  phase : Nat
  packages : List Nat
  arrived : List Nat
  joining : List Nat
  leaving : List Nat
  nums : Map Nat
  fresh : List Nat
  deriving DecidableEq, Repr, Inhabited

/-- An operation of a collective context (R321, R322, R372): its descriptor, how far it has come, its own vector, the
residual of MODE 2, what is left to write, and the packets without an answer. -/
structure CollOp where
  no : Nat
  desc : List Word
  addr : Word         -- of the descriptor
  issuer : Issuer
  stage : Nat
  own : List Byte
  resid : List Byte
  out : List (Word × List Byte)
  waiting : Nat
  seq : Nat           -- the context's earlier operations of the same group
  relay : Option Nat  -- the forward-pending entry that its relayed COLLPs hold (R366)
  deriving DecidableEq, Repr, Inhabited

/-- A partial vector, or an announcement without elements, that has reached a context (R360). -/
structure CollIn where
  rank : Nat
  src : BitVec 16
  sub : BitVec 8
  gid : Nat
  first : Nat
  data : List Byte
  deriving DecidableEq, Repr, Inhabited

/-- A collective context (R321, R372). -/
structure Coll where
  tl : Nat
  last : Nat
  ops : List CollOp
  inbox : List CollIn
  halted : Option FaultRec
  past : List (Nat × Nat × List Word)   -- operations issued: JOBID * 65536 + group, the count of its group, descriptor
  deriving DecidableEq, Repr, Inhabited

/-- The HBM stacks and their controllers (R63 to R84). -/
structure Hbm where
  live : Vector Word 12
  gen : Nat
  busy : Bool
  err : Nat
  ovf : Bool
  ilmiss : Nat
  lost : Nat
  maskStack : Word
  maskCh : Word
  maskPc : Word
  pcerrcfg : Word
  frames : Map (Bool × Bool)            -- LIVE, COMP of a frame
  schemes : Map Nat
  codes : Map Nat                       -- 128-byte blocks whose stored code is not the one their contents have (R75)
  weakBursts : List Nat                 -- bursts whose next read is corrected
  badBursts : List Nat                  -- bursts uncorrectable under the stack's code (physical address / 32)
  corrected : Map Nat                   -- corrected bursts of each pseudo-channel in this interval
  reported : List Nat                   -- pseudo-channels reported for their count in it (R78)
  unlogged : List (Nat × Bool)          -- bursts that the device's own writes met: byte offset, whether corrected (R78)
  posted : List (Nat × List Byte)       -- the device's own writes that a dredge window holds, in order (R84)
  making : Option (Nat × Bool)
  drop : Option (Nat × Nat)             -- DROP or REHASH in progress: G (0x3FF), step
  toRestore : List Nat                  -- the frames that its step 5 restores (R79)
  dropMasks : Option (Word × Word × Word)
  intervalAt : Nat
  deriving DecidableEq, Repr, Inhabited

/-- A slot of the Eddy ring (R87): state 0 EMPTY, 1 BOARDED, 2 LOST. Its revolution follows from the ring cycle. -/
structure ESlot where
  payload : BitVec 512
  job : BitVec 16
  state : Nat
  deriving DecidableEq, Repr, Inhabited

/-- The Eddy ring (R85 to R105). `flips` are bits of a slot's 651 that differ from what was encoded. -/
structure Eddy where
  slots : Map ESlot
  flips : Map (List Nat)
  cecnt : Nat
  uecnt : Nat
  cmd : Option (Nat × Nat × Nat)        -- operation, argument, cycle accepted
  err : Nat
  ovf : Bool
  seen : Map Nat                        -- state of each slot at its last origin pass, EMPTY not listed
  deriving DecidableEq, Repr, Inhabited

/-- A weight tile on the Tide ring (R106, R107). -/
structure RingTile where
  id : Nat
  at_ : Nat
  sb : BitVec 128
  payload : List Row
  deriving DecidableEq, Repr, Inhabited

/-- The weir (R108 to R115, R121). -/
structure Weir where
  ctl : Word
  lpbase : Word
  nlayer : Word
  set : Nat
  lap : Nat
  layerix : Nat
  dir : Bool
  srccnt : Nat
  lperr : Nat
  ovr : Bool
  errstop : Bool
  run : Bool
  sent : Nat          -- laps since EN was set
  base : Word         -- LPBASE and NLAYER as the lap copied them
  n : Nat
  desc : List Word    -- the descriptor being sent, and the range entry being sent
  range : Nat         -- range entry, tile within the range, tile within the layer
  inRange : Nat
  tile : Nat
  nextAt : Nat
  ring : List RingTile
  nextId : Nat
  deriving DecidableEq, Repr, Inhabited

/-- A flit that a port has accepted and not yet passed on in order (R374, R382): its content in clear once its tag group
has been checked, and whether skid mode has passed it on already. -/
structure RxFlit where
  no : Nat
  flit : Flit
  clear : Option (List Byte)
  early : Bool
  deriving DecidableEq, Repr, Inhabited

/-- One fabric port: its registers, both directions of its link, and its lanes (R350 to R357, R373, R374). Flits are
numbered without wrapping; a flit's SEQ is its number modulo 4,096. -/
structure Port where
  cfg : Word
  lcfg : Word
  spill : Word
  mode : Nat
  rxMask : BitVec 8
  txMask : BitVec 8
  resent : Nat
  tagfail : Nat
  nakrx : Nat
  uncw : Nat
  drops : Nat
  laneErr : Map Nat                     -- uncorrectable codewords of each lane in this interval
  peer : Nat
  txNext : Nat                          -- number of the next new flit
  txCount : Nat                         -- k of R351
  retry : List (Nat × Option Flit)      -- unacknowledged flits; none where the spill region holds it (R373)
  ackAt : Nat                           -- cycle of the last advance of the acknowledgement
  addAt : Option (Nat × BitVec 8)       -- a transmit map that takes effect at a flit number
  rxNext : Nat                          -- number of the next flit to be accepted
  rxHold : List RxFlit
  rxStopped : Bool
  rxPos : Nat                           -- number of the flit that comes in next, told by counting wraps (R373)
  rxLost : Bool                         -- a broken flit has come in since that number was last certain
  rxAdd : Option (Nat × BitVec 8)       -- a receive map that takes effect at a flit number
  rxCount : Nat                         -- k of R351 for the receive map
  rxFresh : Bool                        -- no flit has come under the map of a lane drop yet
  rxLanes : List Nat                    -- the lane of each byte of the flit received last
  xacked : Nat                          -- flits accepted when XACK was last sent
  used : List Nat                       -- flits sent on each channel and not yet credited (R356)
  held : List Nat                       -- flits of each channel in the receive buffer
  owed : List Nat                       -- credits of each channel not yet returned
  ctl : List (Nat × List Byte)          -- link-control flits to be sent when the window has room
  groupFails : Nat
  building : Map (List Flit)            -- the packet being received on each channel, in clear
  resendOwed : Bool                     -- a resend waits for the close of a dredge window (R84)
  wireOut : List (List Nat × Flit)      -- flits sent: the lane of each byte, and the flit
  shed : List Nat                       -- lanes dropped, to be retrained
  adapt : Option (Nat × Nat)            -- a lane, and how far its training is: 0 awaits the far end's window, 1 leaves the map, 2 runs
  lastAdapt : Nat
  training : Bool
  deriving DecidableEq, Repr, Inhabited

/-- A packet held in the router (R362, R363): where it came from and what it holds there, its class (0 REQ, 1 FWD, 2 RSP,
3 MGT), and the port it is queued for. -/
structure Held where
  pkt : Packet
  inPort : Nat        -- 44 for a packet of this device
  inVc : Nat
  flits : Nat
  cls : Nat
  since : Nat
  port : Option Nat
  deriving DecidableEq, Repr, Inhabited

/-- Who waits for the answer of a fabric request. -/
inductive Waiter where
  | fatom (core req tid : Nat)
  | op (ctx no : Nat) (dst : Word)
  | ctr (ctx no : Nat)
  | group
  | barrel (key : Nat)
  | coll (ctx : Nat) (fwd : Bool) (va : Word)   -- a COLLP, or a WR to the generic address
  | collRead (ctx : Nat)
  deriving DecidableEq, Repr, Inhabited

/-- A request whose copy the fabric interface keeps (R367). -/
structure Outst where
  pkt : Packet
  waiter : Waiter
  replays : Nat
  retries : Nat
  at_ : Nat
  waits : Bool        -- a RETRY has been received and the request is to be sent again (R366)
  deriving DecidableEq, Repr, Inhabited

/-- A combining window at the home router (R370). -/
structure Combine where
  line : Nat
  ft : Bool
  parts : List Packet
  deriving DecidableEq, Repr, Inhabited

/-- An installed key (R374 to R376): the group counters of each port, to be sent next and to be received next. -/
structure Key where
  job : BitVec 16
  epoch : BitVec 16
  key : BitVec 256
  txCtr : Map Nat
  rxCtr : Map Nat
  deriving DecidableEq, Repr, Inhabited

/-- The router die (R347 to R377). -/
structure Router where
  ports : Map Port
  table : Map Word                      -- route, group and boardwalk tables by router-block offset
  bwctl : Word
  e2e : Word
  packets : Map Held
  nextId : Nat
  nextTag : Nat
  tagUse : Map Nat
  outst : Map Outst
  waiting : List (Packet × Waiter)
  replies : Map (Packet × Nat)          -- reply cache: key SRC * 2^24 + TAG, response, expiry time
  inWork : List Nat                     -- (SRC, TAG) keys applied, response not yet sent
  fwd : Map Nat                         -- forward-pending entries: answers still to come (R366)
  combine : List Combine
  keys : Map Key
  keyBlob : Word
  keyBusy : Option (Nat × Nat × Nat × Nat)
  keyErr : Nat
  keyOvf : Bool
  installing : Option Nat
  roots : Map RootEntry
  locals : Map LocalEntry               -- local group entries, by JOBID and group (R371)
  rootList : Map (List Nat)             -- the root devices of each job (R371)
  health : List (BitVec 16 × List Byte) -- health reports received: sender and report (R360)
  deriving DecidableEq, Repr, Inhabited

/-- A hart's load that is not yet performed (R384): destination, in the floating-point file or not, address, bytes, signed. -/
structure HartLoad where
  rd : Nat
  fp : Bool
  pa : Nat
  len : Nat
  signed : Bool
  deriving DecidableEq, Repr, Inhabited

/-- One Quokor hart (R384 to R387): RV64 registers, mode 3 machine, 1 supervisor, 0 user, and its trap registers. -/
structure Hart where
  x : Vector Word 32
  pc : Word
  mode : Nat
  mstatus : Word
  mtvec : Word
  mepc : Word
  mcause : Word
  mtval : Word
  medeleg : Word
  stvec : Word
  sepc : Word
  scause : Word
  stval : Word
  word : BitVec 32                      -- the instruction word the hart executes next
  stores : List (Nat × Nat × Word)      -- stores not yet performed: address, bytes, data
  waits : Bool                          -- its instruction waits, and is presented again in the next cycle (R386, R387)
  f : Vector Word 32                    -- floating-point registers
  csrs : Map Word                       -- fcsr (3) and the control and status registers without a field of their own
  loads : List HartLoad                 -- loads not yet performed
  resv : Option (Nat × Nat × Nat)       -- the reservation of an LR: address, bytes, value read
  up : Bool                             -- it runs (R391)
  deriving DecidableEq, Repr, Inhabited

/-- A sampled task (R344 to R346). -/
structure Sample where
  record : List Word
  core : Nat
  tid : Nat
  frame : Nat
  job : Nat
  inputs : List (Word × Nat × List Byte)
  outputs : List (Word × Nat)
  bad : Bool
  ended : Bool
  sig : Option Word
  scratch : Map (BitVec 8)
  abandoned : Bool                      -- its replay is (R345): it ends when what it has issued has
  deriving DecidableEq, Repr, Inhabited

/-- The auditor (R343 to R346). -/
structure Auditor where
  ctl : Word
  buf : Word
  seed : Word
  shift : Word        -- the shift register that AUD_SEED starts (R344)
  sampled : Nat
  passed : Nat
  skipped : Nat
  mismatch : Nat
  pending : List Sample
  replaying : Option Sample
  replayCore : Nat
  replayDone : Bool                     -- the replay's thread has ended
  deriving DecidableEq, Repr, Inhabited

/-- The platform block, identity and boot (R390 to R394): boot 0 reset, 1 running, 2 recovery, 3 clocks stopped. -/
structure Platform where
  boot : Nat
  image : List Byte                     -- the signed configuration record in the boot flash
  firmware : List Byte
  devid : BitVec 16
  yield_ : BitVec 2048
  offer : Word
  accept : Word
  digest : BitVec 256
  firmDigest : BitVec 256
  pubkey : BitVec 512
  quoteBusy : Option (Nat × List Byte)
  quoteOvf : Bool
  power : Nat
  temp : Nat
  therm : Bool
  capped : Bool
  clk : Nat
  cap : Word
  clear : Nat                           -- windows for which power and temperature have stayed clear
  stop : Bool                           -- 105 degrees reached: the clocks stop at the next window
  deriving DecidableEq, Repr, Inhabited

/-- Invalidation through control-register space (R32, R33). -/
structure TlbiQueue where
  va : Word
  cmds : List (Nat × Nat × Word)        -- form, ASID, address
  ovf : Bool
  deriving DecidableEq, Repr, Inhabited

/-- A TLBI that has not taken effect, or whose operations have not retired (R28 to R30). -/
structure Tlbi where
  id : Nat
  form : Nat
  asid : Nat
  va : Word
  frame : Option Nat
  effective : Bool
  waits : List (Nat × Nat)              -- operations to retire: (core, request) by frame, or (2^20 + context, number)
  deriving DecidableEq, Repr, Inhabited

/-- The dredge calendar's registers (R339). -/
structure Dredge where
  ovrf : Bool
  windows : Nat
  overruns : Nat
  drained : Bool                        -- inside a drain lead or a window
  deriving DecidableEq, Repr, Inhabited

/-- One core: its thread, and what belongs to the core and not to the thread (R149). -/
structure Core where
  thread : Option Thread
  taps : List TapOp
  probe : Probe
  slice : Slice
  trapFrame : Option Nat                -- the frame of the thread whose handler runs here (R329)
  deriving DecidableEq, Repr, Inhabited

/-- What is left to do at this instant: an event, or a part of a core's cycle, or a hart's next word. -/
inductive Todo where
  | ev (i : Instr)
  | begin_ (core : Nat)
  | issue (core : Nat)
  | fin (core : Nat)
  | quokor (hart : Nat)
  | hart (hart : Nat)
  | hartLoad (hart : Nat)
  deriving DecidableEq, Repr

/-- An event due at a wall cycle. -/
structure Due where
  at_ : Nat
  ev : Instr
  deriving DecidableEq, Repr

/-- The package. `free`, `todo`, `agenda`, `cur`, `hart`, `timer` and `stamp` are the model's own fields (log entry 1). -/
structure State where
  now : Nat                             -- EDDY_RCNT.RCNT, the ring cycle (R86, R104)
  timer : Nat                           -- the router's fabric timer, in 1/60 of a 2.1 GHz cycle (R367, R394)
  free : Nat                            -- counter the free values of Config are applied to
  stamp : Nat                           -- counter that orders entries by age
  cur : Nat                             -- the core whose bundle is being performed
  hart : Nat                            -- the hart whose instruction is being performed
  todo : List Todo
  agenda : List Due
  mem : List Host.Cell                  -- SRAM and HBM by physical address (R16)
  sramErr : Map (BitVec 288)            -- bits of a stored 36-byte word that differ from what was encoded (R46)
  tags : Map Tag
  tagErr : List Nat                     -- granules whose tag read is uncorrectable (R50)
  barArr : Map Nat                      -- barrier address: phases, as bits, a thread's arrive counted into (R143)
  cores : Map Core
  engines : Map Engine
  colls : Map Coll
  ctxJobs : Map Nat                     -- the JOBID of the latest operation issued to an engine context (R126)
  tlbs : Map (List TlbEnt)              -- core * 8 + cache, or 2^16 + cluster
  walkCache : Map (List WalkEnt)
  walks : Map Walk
  walkFails : List WalkFail
  tlbis : List Tlbi
  tlbiq : TlbiQueue
  dies : Vector Die 4
  jobs : Map (Bool × JobRegs)           -- the job table: V and the registers (R388)
  finals : Map Nat                      -- job * 2^15 + TID: final count (R140)
  liveTids : List Nat                   -- job * 2^15 + TID of live and saved threads
  saved : Map Saved
  groups : Map Group
  hbm : Hbm
  eddy : Eddy
  weir : Weir
  router : Router
  harts : Vector Hart 16
  auditor : Auditor
  plat : Platform
  dredge : Dredge
  deriving DecidableEq, Repr

/-- Why a step stops: each names a condition in which the spec says the machine does nothing more. -/
inductive Fault where
  /-- Raised by `step` after a die has reached 105 degrees and a window has opened (R394: the device stops every
  clock and holds until reset). Safe: nothing is claimed of what follows. -/
  | clocksStopped
  deriving DecidableEq, Repr

/-- Why the model has no meaning for what the machine would do next. -/
inductive Refusal where
  /-- Raised by an arm of `exec` that has no meaning yet. Safe. -/
  | notModelled (mnemonic : String)
  deriving DecidableEq, Repr

/-- The job-wide registers at reset (R12, R18, R89, R326, R335; log entry 10 for those without a value). -/
def JobRegs.reset : JobRegs :=
  { apl := 0x0080000000000001, apc := 0x0081000000000001, ttbase := 0, asid := 0, devtab := 0, eddyBase := 0,
    eddyCount := 0, eddyJob := 0, rwinBase := 0, rwinSize := 0, priv := 0, trapvec := 0, jobid := 0 }

/-- A slice after reset (R49). -/
def Slice.reset : Slice :=
  { ecccfg := 0x1001, uecnt := 0, cecnt := 0, second := false, failed := none, counts := [], scrub := 0,
    trackers := [], records := [], takenAt := 0, taken := [] }

/-- A probe cache after reset (R53, R55). -/
def Probe.reset : Probe :=
  { cfg := 0, cfgerr := false, slots := [], plru := [], queue := [], owing := [], no := 0, tl := 0, halted := none }

/-- A core after reset: no thread. -/
def Core.reset : Core :=
  { thread := none, taps := [], probe := Probe.reset, slice := Slice.reset, trapFrame := none }

/-- An engine context after reset (R160, R142). -/
def Engine.reset : Engine :=
  { tl := 0, last := 0, held := none, chains := [], given := 0, finished := 0, cur := 0, words := [], pages := [], serial := 0, busy := false,
    piece := 0, counted := false, begun := false, hbmAt := none,
    ops := [], halted := none, giveUp := false, bank := ⟨0, []⟩ }

/-- A die after reset (R160, R333). -/
def Die.reset : Die :=
  { run := false, entries := [], spill := 0, save := 0, usedFrames := [], fqBase := 10, fqHead := 0, fqTail := 0,
    fqDrop := 0, fqHeld := [], recal := none, returning := none, failedRails := [] }

/-- The HBM block after reset (R69, R70; NLIVE and PC_LIVE come from the record at boot, log entry 10). -/
def Hbm.reset : Hbm :=
  { live := Vector.replicate 12 0, gen := 0, busy := false, err := 0, ovf := false, ilmiss := 0, lost := 0,
    maskStack := 0, maskCh := 0, maskPc := 0, pcerrcfg := 0x400A, frames := [], schemes := [], codes := [],
    weakBursts := [], badBursts := [], corrected := [], reported := [], unlogged := [], posted := [], making := none, drop := none, toRestore := [], dropMasks := none, intervalAt := 0 }

/-- The Eddy ring after reset (R86, R104). -/
def Eddy.reset : Eddy :=
  { slots := [], flips := [], cecnt := 0, uecnt := 0, cmd := none, err := 0, ovf := false, seen := [] }

/-- The weir after reset (R111). -/
def Weir.reset : Weir :=
  { ctl := 0, lpbase := 0, nlayer := 0, set := 0, lap := 0, layerix := 0, dir := false, srccnt := 0,
    lperr := 0, ovr := false, errstop := false, run := false, sent := 0, base := 0, n := 0, desc := [],
    range := 0, inRange := 0, tile := 0, nextAt := 0, ring := [], nextId := 0 }

/-- A port after reset (R357). -/
def Port.reset : Port :=
  { cfg := 0xFF, lcfg := 16, spill := 0, mode := 0, rxMask := 0, txMask := 0, resent := 0, tagfail := 0, nakrx := 0,
    uncw := 0, drops := 0, laneErr := [], peer := 0, txNext := 0, txCount := 0, retry := [], ackAt := 0, addAt := none,
    rxNext := 0, rxHold := [], rxStopped := false, rxPos := 0, rxLost := false, rxAdd := none, rxCount := 0, rxFresh := false,
    rxLanes := [], xacked := 0, used := List.replicate 6 0,
    held := List.replicate 6 0, owed := List.replicate 6 0, ctl := [], groupFails := 0,
    building := [], resendOwed := false, wireOut := [], shed := [], adapt := none, lastAdapt := 0, training := false }

/-- The router after reset (R357, R364, R369, R375, R376). -/
def Router.reset : Router :=
  { ports := [], table := [], bwctl := 0, e2e := 0x303200064, packets := [], nextId := 0, nextTag := 0, tagUse := [],
    outst := [], waiting := [], replies := [], inWork := [], fwd := [], combine := [], keys := [], keyBlob := 0,
    keyBusy := none, keyErr := 0, keyOvf := false, installing := none, roots := [], locals := [], rootList := [], health := [] }

/-- A hart after reset: machine mode at address 0 (log entry 11). -/
def Hart.reset : Hart :=
  { x := Vector.replicate 32 0, pc := 0, mode := 3, mstatus := 0, mtvec := 0, mepc := 0, mcause := 0, mtval := 0,
    medeleg := 0, stvec := 0, sepc := 0, scause := 0, stval := 0, word := 0, stores := [], waits := false, f := Vector.replicate 32 0,
    csrs := [], loads := [], resv := none, up := false }

/-- The auditor after reset (R343). -/
def Auditor.reset : Auditor :=
  { ctl := 0x101400, buf := 0, seed := 1, shift := 1, sampled := 0, passed := 0, skipped := 0, mismatch := 0, pending := [],
    replaying := none, replayCore := 0, replayDone := false }

/-- The platform after reset (R392 to R394). The boot flash is empty until the board gives it a record. -/
def Platform.reset : Platform :=
  { boot := 0, image := [], firmware := [], devid := 0, yield_ := 0, offer := 0, accept := 0, digest := 0,
    firmDigest := 0, pubkey := 0, quoteBusy := none, quoteOvf := false, power := 0, temp := 0, therm := false,
    capped := false, clk := 2100, cap := 4400, clear := 0, stop := false }

/-- The package right after device reset: every field at the value the spec states for reset, or the value log
entries 1, 10 and 11 name; the one thing to do is the boot ROM's run (R391). -/
def State.reset : State :=
  { now := 0, timer := 0, free := 0, stamp := 0, cur := 0, hart := 0, todo := [.ev .deviceResetBoot], agenda := [],
    mem := [], sramErr := [], tags := [], tagErr := [], barArr := [], cores := [], engines := [], colls := [], ctxJobs := [], tlbs := [],
    walkCache := [], walks := [], walkFails := [], tlbis := [], tlbiq := ⟨0, [], false⟩,
    dies := Vector.replicate 4 Die.reset, jobs := [], finals := [], liveTids := [], saved := [], groups := [],
    hbm := Hbm.reset, eddy := Eddy.reset, weir := Weir.reset, router := Router.reset,
    harts := Vector.replicate 16 Hart.reset, auditor := Auditor.reset, plat := Platform.reset,
    dredge := ⟨true, 0, 0, false⟩ }

end Sys2Proof.Machine
end

