-- ==== Sys2Proof/Machine/Maps.lean ====
section
/-! DEFINITION. Data by key, byte lists and memory cells: the small operations every other file is written over. -/

namespace Sys2Proof.Machine

/-- The value listed for a key. -/
def mget {α : Type} (k : Nat) : Map α → Option α
  | [] => none
  | (k', v) :: r => if k' = k then some v else mget k r

/-- The value of a key, or a default. -/
def mgetD {α : Type} (d : α) (k : Nat) (m : Map α) : α := (mget k m).getD d

/-- List a value for a key, keeping the keys rising. -/
def mput {α : Type} (k : Nat) (v : α) : Map α → Map α
  | [] => [(k, v)]
  | (k', v') :: r =>
    if k < k' then (k, v) :: (k', v') :: r
    else if k = k' then (k, v) :: r
    else (k', v') :: mput k v r

/-- Remove a key. -/
def mdel {α : Type} (k : Nat) : Map α → Map α
  | [] => []
  | (k', v') :: r => if k' = k then r else (k', v') :: mdel k r

/-- Set a key, listing nothing for the default. -/
def mset {α : Type} [DecidableEq α] (d : α) (k : Nat) (v : α) (m : Map α) : Map α :=
  if v = d then mdel k m else mput k v m

/-- Change the value of a key. -/
def mmod {α : Type} (d : α) (k : Nat) (f : α → α) (m : Map α) : Map α := mput k (f (mgetD d k m)) m

/-- Bits [lo + n - 1 : lo] of a value, as a number. -/
def bits (lo n v : Nat) : Nat := v / 2 ^ lo % 2 ^ n

/-- Field [hi : lo] of a register. -/
def wf (hi lo : Nat) (w : Word) : Nat := bits lo (hi + 1 - lo) w.toNat

/-- The register with field [hi : lo] set. -/
def wset (hi lo : Nat) (w : Word) (v : Nat) : Word :=
  let m := (2 ^ (hi + 1 - lo) - 1) * 2 ^ lo
  (w &&& ~~~(BitVec.ofNat 64 m)) ||| (BitVec.ofNat 64 (v * 2 ^ lo) &&& BitVec.ofNat 64 m)

/-- A Bool as a bit. -/
def b2n (b : Bool) : Nat := if b then 1 else 0

/-- A saturating counter of n bits. -/
def satInc (n v : Nat) : Nat := if v + 1 < 2 ^ n then v + 1 else 2 ^ n - 1

/-- The byte an unlisted address reads as: zero (log entry 12). -/
def emptyByte : Byte := 0

/-- One byte of memory. -/
def memByte (mem : List Host.Cell) (a : Nat) : Byte := mgetD emptyByte a mem

/-- Write one byte, keeping the canonical form. -/
def memPut (mem : List Host.Cell) (a : Nat) (b : Byte) : List Host.Cell := mset emptyByte a b mem

/-- n bytes from address a. -/
def memBytes (mem : List Host.Cell) (a : Nat) : Nat → List Byte
  | 0 => []
  | n + 1 => memByte mem a :: memBytes mem (a + 1) n

/-- Write bytes from address a upwards. -/
def memWrite (mem : List Host.Cell) (a : Nat) : List Byte → List Host.Cell
  | [] => mem
  | b :: r => memWrite (memPut mem a b) (a + 1) r

/-- The little-endian value of n bytes at a (R1). -/
def memNat (mem : List Host.Cell) (a n : Nat) : Nat := leNat (memBytes mem a n)

/-- Zero every byte of [lo, hi). -/
def memClear (mem : List Host.Cell) (lo hi : Nat) : List Host.Cell :=
  mem.filter (fun c => c.1 < lo || hi ≤ c.1)

/-- The canonical form: addresses strictly rising, no entry equal to what an unlisted address reads as. -/
def Memory.wf : List Host.Cell → Bool
  | [] => true
  | [c] => c.2 != emptyByte
  | c :: d :: r => c.2 != emptyByte && decide (c.1 < d.1) && Memory.wf (d :: r)

/-- The bytes of a row (R179: byte j at bits 8j). -/
def rowBytes (r : Row) : List Byte := leBytes 256 r.toNat

/-- A row from bytes. -/
def bytesRow (bs : List Byte) : Row := BitVec.ofNat 2048 (leNat bs)

/-- Element j of width w bits of a row (R179). -/
def elem (w j : Nat) (r : Row) : Nat := bits (w * j) w r.toNat

/-- A row from elements of width w bits, the first at bit 0. -/
def packElems (w : Nat) (es : List Nat) : Nat := es.foldr (fun e acc => e % 2 ^ w + 2 ^ w * acc) 0

/-- The bits [8a, 8b) of a row. -/
def byteMask (a b : Nat) : Row := BitVec.ofNat 2048 (2 ^ (8 * b) - 2 ^ (8 * a))

/-- Every bit of a row. -/
def fullMask : Row := BitVec.allOnes 2048

/-- The bits of `m` from `v`, the others from `old`. -/
def blend (old v m : Row) : Row := (old &&& ~~~m) ||| (v &&& m)

/-- The first element that satisfies a test, and where. -/
def findAt {α : Type} (p : α → Bool) : List α → Option (Nat × α)
  | [] => none
  | a :: r => if p a then some (0, a) else (findAt p r).map (fun x => (x.1 + 1, x.2))

/-- Replace the elements that satisfy a test. -/
def modWhere {α : Type} (p : α → Bool) (f : α → α) (l : List α) : List α := l.map (fun a => if p a then f a else a)

/-- CRC-32C over bytes (R107): reflected, initial value and final XOR all ones. -/
def crc32cByte (c : Nat) (b : Byte) : Nat :=
  (List.range 8).foldl (fun c _ => if c % 2 = 1 then (c / 2) ^^^ 0x82F63B78 else c / 2) (c ^^^ b.toNat)

/-- CRC-32C (R107). -/
def crc32c (bs : List Byte) : Nat := (bs.foldl crc32cByte 0xFFFFFFFF) ^^^ 0xFFFFFFFF

/-- CRC-64 of R346: not reflected, initial value 0, no final XOR. -/
def crc64 (bs : List Byte) : Word :=
  bs.foldl (fun c b =>
    (List.range 8).foldl (fun c _ => if c.getLsbD 63 then (c <<< 1) ^^^ 0x42F0E1EBA9EA3693 else c <<< 1)
      (c ^^^ (BitVec.ofNat 64 (b.toNat * 2 ^ 56)))) (0 : Word)

/-- One step of the Galois shift register of R344. -/
def galois (v : Word) : Word := if v.getLsbD 0 then (v >>> 1) ^^^ 0xD800000000000000 else v >>> 1

/-- Floor of the base-2 logarithm, 0 for 0, by structural recursion on fuel. -/
def log2Aux : Nat → Nat → Nat
  | 0, _ => 0
  | f + 1, n => if n < 2 then 0 else log2Aux f (n / 2) + 1

/-- floor(log2 n), 0 for n below 2. -/
def flog2 (n : Nat) : Nat := Nat.log2 n

/-- Integer square root by Newton's rule from above. -/
def isqrtAux : Nat → Nat → Nat → Nat
  | 0, x, _ => x
  | f + 1, x, n => let y := (x + n / x) / 2; if y < x then isqrtAux f y n else x

/-- floor(sqrt n). -/
def isqrt (n : Nat) : Nat := if n = 0 then 0 else isqrtAux (n.log2 + 2) (2 ^ (n.log2 / 2 + 1)) n

end Sys2Proof.Machine
end

