-- ==== Sys2Proof/Machine/Number.lean ====
section
/-! DEFINITION. Number formats and arithmetic (R179 to R201): exact values, decoding, rounding, block formats. -/

namespace Sys2Proof.Machine

/-- The scalar floating-point formats of R181. -/
inductive Fmt where
  | fp32 | bf16 | fp16 | e4m3 | e5m2 | e3m2 | e2m3 | e2m1
  deriving DecidableEq, Repr

/-- Exponent bits, mantissa bits, bias (R181). -/
def fmtShape : Fmt → Nat × Nat × Nat
  | .fp32 => (8, 23, 127)
  | .bf16 => (8, 7, 127)
  | .fp16 => (5, 10, 15)
  | .e4m3 => (4, 3, 7)
  | .e5m2 => (5, 2, 15)
  | .e3m2 => (3, 2, 3)
  | .e2m3 => (2, 3, 1)
  | .e2m1 => (2, 1, 1)

/-- Whether the format has infinities (R181). -/
def fmtInf : Fmt → Bool
  | .fp32 | .bf16 | .fp16 | .e5m2 => true
  | _ => false

/-- Element width in bits. -/
def fmtWidth (f : Fmt) : Nat := 1 + (fmtShape f).1 + (fmtShape f).2.1

/-- The magnitude bits of the largest finite value (R181). -/
def fmtMax (f : Fmt) : Nat :=
  let (eb, mb, _) := fmtShape f
  match f with
  | .e4m3 => 0x7E
  | .e3m2 | .e2m3 | .e2m1 => 2 ^ (eb + mb) - 1
  | _ => (2 ^ eb - 1) * 2 ^ mb - 1

/-- The canonical NaN (R183); 0 for a format without NaN. -/
def fmtNan : Fmt → Nat
  | .fp32 => 0x7FC00000
  | .bf16 => 0x7FC0
  | .fp16 => 0x7E00
  | .e5m2 => 0x7E
  | .e4m3 => 0x7F
  | _ => 0

/-- The flags of FFLAGS (R196): NV, DZ, OF, UF, NX from bit 4 down. -/
def flNV : BitVec 5 := 16
def flDZ : BitVec 5 := 8
def flOF : BitVec 5 := 4
def flUF : BitVec 5 := 2
def flNX : BitVec 5 := 1

/-- decode(fmt, bits): the exact value or special of an element (R181, R193). -/
def decodeF (f : Fmt) (b : Nat) : FVal :=
  let (eb, mb, bias) := fmtShape f
  let s := bits (eb + mb) 1 b == 1
  let e := bits mb eb b
  let m := bits 0 mb b
  if fmtInf f && e == 2 ^ eb - 1 then (if m == 0 then .inf s else .nan)
  else if f == .e4m3 && e == 15 && m == 7 then .nan
  else if e == 0 then .fin s m (1 - (bias : Int) - mb)
  else .fin s (2 ^ mb + m) ((e : Int) - bias - mb)

/-- Rounding modes (R194): 0 RNE, 1 RTZ, 2 RDN, 3 RUP, 4 RNA; whether a remainder rounds the magnitude up. -/
def roundsUp (rm : Nat) (neg : Bool) (odd : Bool) (cmpHalf : Ordering) (exact : Bool) : Bool :=
  if exact then false
  else match rm with
    | 1 => false
    | 2 => neg
    | 3 => !neg
    | 4 => cmpHalf != .lt
    | _ => cmpHalf == .gt || (cmpHalf == .eq && odd)

/-- m * 2^e rounded to an integer under rm (R188, R191): the integer, and whether it is exact. -/
def roundInt (neg : Bool) (m : Nat) (e : Int) (rm : Nat) : Nat × Bool :=
  if 0 ≤ e then (m * 2 ^ e.toNat, true)
  else
    let d := 2 ^ (-e).toNat
    let q := m / d
    let r := m % d
    let exact := r == 0
    (if roundsUp rm neg (q % 2 == 1) (compare (2 * r) d) exact then q + 1 else q, exact)

/-- floor_log2 of m * 2^e, m not 0 (R188). -/
def floorLog2 (m : Nat) (e : Int) : Int := (m.log2 : Int) + e

/-- round_to(fmt, v, rm, sat) with its flags (R190, R192): the element's bits. -/
def roundTo (f : Fmt) (v : FVal) (rm : Nat) (sat : Bool) : Nat × BitVec 5 :=
  let (eb, mb, bias) := fmtShape f
  let sgn (s : Bool) : Nat := if s then 2 ^ (eb + mb) else 0
  let infBits := (2 ^ eb - 1) * 2 ^ mb
  match v with
  | .nan => (fmtNan f, if fmtNan f == 0 then flNV else 0)
  | .inf s =>
    if fmtInf f then (sgn s + infBits, 0)
    else if sat then (sgn s + fmtMax f, flNX)
    else (fmtNan f, flNV)
  | .fin s m e =>
    if m == 0 then (sgn s, 0)
    else
      let emin : Int := 1 - (bias : Int)
      let l := floorLog2 m e
      let q : Int := (if l < emin then emin else l) - mb
      let (r, exact) := roundInt s m (e - q) rm
      let comb : Nat := if r < 2 ^ mb then r else (q + mb + bias).toNat * 2 ^ mb + (r - 2 ^ mb)
      if fmtMax f < comb then
        if sat then (sgn s + fmtMax f, flOF ||| flNX)
        else if fmtInf f then
          (if rm == 1 || (rm == 2 && !s) || (rm == 3 && s) then (sgn s + fmtMax f, flOF ||| flNX)
           else (sgn s + infBits, flOF ||| flNX))
        else (fmtNan f, flOF ||| flNX ||| flNV)
      else (sgn s + comb, (if exact then 0 else flNX) ||| (if !exact && decide (l < emin) then flUF else 0))

/-- round_acc (R190): FP32, RNE, no saturation; the matrix engine's flags are NV and OF only (R192). -/
def roundAcc (v : FVal) : Nat × BitVec 5 :=
  let (b, fl) := roundTo .fp32 v 0 false
  (b, fl &&& flOF)

/-- Sign of a value. -/
def fneg : FVal → Bool
  | .nan => false
  | .inf s => s
  | .fin s _ _ => s

/-- Whether a value is a NaN. -/
def fnan : FVal → Bool
  | .nan => true
  | _ => false

/-- Whether a value is a zero. -/
def fzero : FVal → Bool
  | .fin _ 0 _ => true
  | _ => false

/-- Negation of the sign. -/
def fminus : FVal → FVal
  | .nan => .nan
  | .inf s => .inf (!s)
  | .fin s m e => .fin (!s) m e

/-- Exact product with its specials (R200, R271): 0 times an infinity is NaN and an invalid operation. -/
def fmul (a b : FVal) : FVal × Bool :=
  match a, b with
  | .nan, _ => (.nan, false)
  | _, .nan => (.nan, false)
  | .inf s, .inf t => (.inf (s != t), false)
  | .inf s, .fin t m _ => if m == 0 then (.nan, true) else (.inf (s != t), false)
  | .fin s m _, .inf t => if m == 0 then (.nan, true) else (.inf (s != t), false)
  | .fin s m e, .fin t n g => (.fin (s != t) (m * n) (e + g), false)

/-- A finite value as a signed multiple of 2^e0. -/
def scaled (e0 : Int) : FVal → Int
  | .fin s m e => let k := (m : Int) * 2 ^ (e - e0).toNat; if s then -k else k
  | _ => 0

/-- The exponent of a finite nonzero value. -/
def fexp : FVal → Option Int
  | .fin _ m e => if m == 0 then none else some e
  | _ => none

/-- The least exponent among values. -/
def minExp (vs : List FVal) : Int := (vs.filterMap fexp).foldl min (((vs.filterMap fexp).head?).getD 0)

/-- The exact sum of terms with its specials (R182, R200): NaN operands carry; +Inf with -Inf is invalid. A zero
sum is -0 when every term is -0, or under RDN; +0 otherwise. -/
def fsum (rm : Nat) (vs : List FVal) : FVal × Bool :=
  let pos := vs.any (· == .inf false)
  let neg := vs.any (· == .inf true)
  if vs.any fnan then (.nan, pos && neg)
  else if pos && neg then (.nan, true)
  else if pos then (.inf false, false)
  else if neg then (.inf true, false)
  else
    let e0 := minExp vs
    let t := (vs.map (scaled e0)).sum
    if t = 0 then
      (.fin (rm == 2 || (!vs.isEmpty && vs.all (fun v => fneg v && fzero v))) 0 0, false)
    else (.fin (decide (t < 0)) t.natAbs e0, false)

/-- Order of two values that are not NaN, with -0 and +0 equal. -/
def fcmp (a b : FVal) : Ordering :=
  match a, b with
  | .inf s, .inf t => if s == t then .eq else if s then .lt else .gt
  | .inf s, _ => if s then .lt else .gt
  | _, .inf t => if t then .gt else .lt
  | a, b => let e0 := minExp [a, b]; compare (scaled e0 a) (scaled e0 b)

/-- to_int(v, t, rm) with its flags (R191): width w, signed or not. -/
def toInt (v : FVal) (w : Nat) (signed : Bool) (rm : Nat) : Nat × BitVec 5 :=
  let lo : Int := if signed then -(2 ^ (w - 1) : Int) else 0
  let hi : Int := if signed then 2 ^ (w - 1) - 1 else 2 ^ w - 1
  let out (x : Int) : Nat := (x % (2 ^ w : Int)).toNat
  match v with
  | .nan => (0, flNV)
  | .inf s => (out (if s then lo else hi), flNV)
  | .fin s m e =>
    let (q, exact) := roundInt s m e rm
    let x : Int := if s then -(q : Int) else q
    if x < lo then (out lo, flNV) else if hi < x then (out hi, flNV)
    else (out x, if exact then 0 else flNX)

/-- The exact value of an integer. -/
def ofInt (x : Int) : FVal := .fin (decide (x < 0)) x.natAbs 0

/-- A w-bit element read as a signed or an unsigned integer (R180). -/
def asInt (w : Nat) (signed : Bool) (b : Nat) : Int :=
  if signed && decide (2 ^ (w - 1) ≤ b) then (b : Int) - 2 ^ w else b

/-- wrap(v, w) (R180). -/
def wrapI (w : Nat) (v : Int) : Nat := (v % (2 ^ w : Int)).toNat

/-- sat_i and sat_n (R180), as w bits. -/
def satI (w : Nat) (signed : Bool) (v : Int) : Nat :=
  let lo : Int := if signed then -(2 ^ (w - 1) : Int) else 0
  let hi : Int := if signed then 2 ^ (w - 1) - 1 else 2 ^ w - 1
  wrapI w (if v < lo then lo else if hi < v then hi else v)

/-- e8m0(v) times a value (R185, R193): 0xFF is NaN. -/
def scaleE8 (sc : Nat) (v : FVal) : FVal :=
  if sc == 255 then .nan
  else match v with
    | .fin s m e => .fin s m (e + sc - 127)
    | v => v

/-- The value of a DEB element (R186): width 8 or 4, offsets byte, shared scale E. -/
def debValue (w el off sc : Nat) : FVal :=
  if sc == 255 then .nan
  else
    let (q, mbits) := if w == 8 then (5, 6) else (1, 2)
    let sel := bits (w - 1) 1 el
    let o := if sel == 1 then off / 16 % 16 else off % 16
    .fin (bits (w - 2) 1 el == 1) (bits 0 mbits el) ((sc : Int) - 127 - o - q)

/-- ±(2 - 2^-23) * 2^127, which replaces an infinity in packing (R188). -/
def maxFp32 (s : Bool) : FVal := .fin s (2 ^ 24 - 1) 104

/-- Packing's treatment of infinities (R188). -/
def finite (v : FVal) : FVal :=
  match v with
  | .inf s => maxFp32 s
  | v => v

/-- |v| of a finite value, as a value. -/
def fabs (v : FVal) : FVal :=
  match v with
  | .fin _ m e => .fin false m e
  | .inf _ => .inf false
  | .nan => .nan

/-- The greatest of magnitudes. -/
def amax (vs : List FVal) : FVal :=
  vs.foldl (fun a v => if fcmp a (fabs v) == .lt then fabs v else a) (.fin false 0 0)

/-- floor_log2 of a positive finite value, or none for zero. -/
def flogOf : FVal → Option Int
  | .fin _ m e => if m == 0 then none else some (floorLog2 m e)
  | _ => none

/-- Clamp to a range. -/
def clampI (lo hi x : Int) : Int := if x < lo then lo else if hi < x then hi else x

/-- The result of packing one DEB superblock (R188): elements, offset bytes, E, flags (R280). -/
def debPack (xs : List FVal) (w rm : Nat) (sat : Bool) : List Nat × List Nat × Nat × BitVec 5 :=
  let q : Int := if w == 8 then 5 else 1
  let d : Int := if w == 8 then 4 else 2
  let mm := if w == 8 then 63 else 3
  if xs.any fnan || (!sat && xs.any (fun v => v == .inf true || v == .inf false)) then
    (xs.map (fun _ => 0), List.replicate 8 0, 255, flNV)
  else
    let ys := xs.map finite
    let e : Int := match flogOf (amax ys) with
      | none => 0
      | some l => clampI 0 254 (l + 127)
    let blocks := (List.range 8).map (fun b =>
      let blk := (ys.drop (32 * b)).take 32
      let o0 : Int := match flogOf (amax blk) with
        | none => 0
        | some l => clampI 0 15 (e - 127 - l)
      let o1 : Int := min (o0 + d) 15
      let one (v : FVal) : Nat × Bool :=
        match v with
        | .fin s m g =>
          let (m1, x1) := roundInt s m (g + q + o1 + 127 - e) rm
          let sb := if s then 2 ^ (w - 2) else 0
          if m1 ≤ mm then (2 ^ (w - 1) + sb + m1, x1)
          else
            let (m0, x0) := roundInt s m (g + q + o0 + 127 - e) rm
            (sb + min m0 mm, x0 && decide (m0 ≤ mm))
        | _ => (0, true)
      ((blk.map one), (o0 + 16 * o1).toNat))
    let els := (blocks.map (·.1)).flatten
    (els.map (·.1), blocks.map (·.2), e.toNat, if els.all (·.2) then 0 else flNX)

/-- emax(ef) of R188. -/
def mxEmax : Fmt → Int
  | .e4m3 => 8
  | .e5m2 => 15
  | .e2m3 => 2
  | .e3m2 => 4
  | _ => 2

/-- The result of packing one MX block (R188): elements, scale, flags (R280). -/
def mxPack (xs : List FVal) (ef : Fmt) (rm : Nat) (sat : Bool) : List Nat × Nat × BitVec 5 :=
  if xs.any fnan || (!sat && xs.any (fun v => v == .inf true || v == .inf false)) then
    (xs.map (fun _ => 0), 255, flNV)
  else
    let ys := xs.map finite
    let sc : Int := match flogOf (amax ys) with
      | none => 0
      | some l => clampI 0 254 (l - mxEmax ef + 127)
    let els := ys.map (fun v => match v with
      | .fin s m e => roundTo ef (.fin s m (e + 127 - sc)) rm true
      | v => roundTo ef v rm true)
    (els.map (·.1), sc.toNat, if els.all (fun x => x.2 &&& flNX == 0) then 0 else flNX)

/-- The MX element format of a format code (R189). -/
def mxFmt (code : Nat) : Fmt :=
  match code with
  | 7 => .e4m3
  | 8 => .e5m2
  | 9 => .e2m3
  | 10 => .e3m2
  | _ => .e2m1

/-- The scalar format of a code 0 to 4 (R189). -/
def codeFmt (code : Nat) : Fmt :=
  match code with
  | 0 => .fp32
  | 1 => .bf16
  | 2 => .fp16
  | 3 => .e4m3
  | _ => .e5m2

/-- Bits of working precision of the special functions (R276: correctly rounded; log entry 13). -/
def fxBits : Nat := 320

/-- ln 2 in fixed point: the sum of 1 / (k 2^k). -/
def fxLn2 : Nat := ((List.range 330).map (fun k => 2 ^ fxBits / ((k + 1) * 2 ^ (k + 1)))).sum

/-- e^t for 0 ≤ t < 1 in fixed point, by its series. -/
def fxExp (t : Nat) : Nat :=
  ((List.range 80).foldl (fun (acc : Nat × Nat) k =>
    let term := acc.2 * t / 2 ^ fxBits / (k + 1); (acc.1 + term, term)) (2 ^ fxBits, 2 ^ fxBits)).1

/-- 2 atanh(n/d) in fixed point for n/d at most 1/3, by its series. -/
def fxAtanh2 (n d : Nat) : Nat :=
  let r := n * 2 ^ fxBits / d
  let r2 := r * r / 2 ^ fxBits
  let p := (List.range 110).foldl (fun (acc : Nat × Nat) k =>
    (acc.1 + acc.2 / (2 * k + 1), acc.2 * r2 / 2 ^ fxBits)) (0, r)
  2 * p.1

/-- An irrational value known in fixed point: a half unit of the last place is added, so it is never taken for an
exact one. -/
def fxVal (neg : Bool) (v : Nat) (e : Int) : FVal := .fin neg (2 * v + 1) (e - fxBits - 1)

/-- 2^x (R276). A magnitude beyond 2^12 overflows or vanishes in every format. -/
def fexp2 (x : FVal) : FVal :=
  match x with
  | .nan => .nan
  | .inf s => if s then .fin false 0 0 else .inf false
  | .fin s m e =>
    if m == 0 then .fin false 1 0
    else if decide (12 < floorLog2 m e) then (if s then .fin false 1 (-4096) else .fin false 1 4096)
    else
      let (ip, exact) := roundInt false m e 1
      let n : Int := if s then -(ip : Int) else ip
      if exact then .fin false 1 n
      else
        -- the fraction in (0, 1), and the integer below
        let fr := (m % 2 ^ (-e).toNat) * 2 ^ fxBits / 2 ^ (-e).toNat
        let (n, fr) := if s then (n - 1, 2 ^ fxBits - fr) else (n, fr)
        if decide (fr = 0) then fxVal false (2 ^ fxBits) n
        else if decide (fr = 2 ^ fxBits) then .fin false (2 ^ (2 * fxBits) - 1) (n + 1 - 2 * fxBits)
        else fxVal false (fxExp (fr * fxLn2 / 2 ^ fxBits)) n

/-- log2 x (R276), with whether the operation is invalid and whether it divides by zero. -/
def flog2V (x : FVal) : FVal × BitVec 5 :=
  match x with
  | .nan => (.nan, 0)
  | .inf s => if s then (.nan, flNV) else (.inf false, 0)
  | .fin s m e =>
    if m == 0 then (.inf true, flDZ)
    else if s then (.nan, flNV)
    else
      let n := floorLog2 m e
      let p := 2 ^ m.log2
      if m == p then (.fin (decide (n < 0)) n.natAbs 0, 0)
      else
        let lg := (fxAtanh2 (m - p) (m + p)) * 2 ^ fxBits / fxLn2
        let t : Int := n * 2 ^ fxBits + lg
        (fxVal (decide (t < 0)) (if t < 0 then t.natAbs - 1 else t.natAbs) 0, 0)

/-- 1/x (R276). -/
def frcp (x : FVal) : FVal × BitVec 5 :=
  match x with
  | .nan => (.nan, 0)
  | .inf s => (.fin s 0 0, 0)
  | .fin s m e =>
    if m == 0 then (.inf s, flDZ)
    else
      let k := m.log2 + fxBits
      let q := 2 ^ k / m
      if q * m == 2 ^ k then (.fin s q (-e - k), 0) else (.fin s (2 * q + 1) (-e - k - 1), 0)

/-- 1/√x (R276). -/
def frsqrt (x : FVal) : FVal × BitVec 5 :=
  match x with
  | .nan => (.nan, 0)
  | .inf s => if s then (.nan, flNV) else (.fin false 0 0, 0)
  | .fin s m e =>
    if m == 0 then (.inf s, flDZ)
    else if s then (.nan, flNV)
    else
      let (m, e) := if e % 2 = 0 then (m, e) else (2 * m, e - 1)
      let k := m.log2 / 2 + fxBits
      let q := isqrt (2 ^ (2 * k) / m)
      if q * q * m == 2 ^ (2 * k) then (.fin false q (-(e / 2) - k), 0)
      else (.fin false (2 * q + 1) (-(e / 2) - k - 1), 0)

end Sys2Proof.Machine
end

