-- ==== Sys2Proof/Machine/Ops.lean ====
section
/-! DEFINITION. The shared operations over the state: accessors, time, geometry, the fault queues, results in
flight, and the one operation that takes an exception, with the return from it beside it. -/

namespace Sys2Proof.Machine

/-- What one slot does: a next state, or what keeps its bundle from issuing. -/
abbrev Slot := Except Attn State

/-- The outcome type of exec and step. -/
abbrev Out := Host.Outcome State Fault Refusal

/-! Cores and threads -/

/-- Core c. -/
def coreOf (s : State) (c : Nat) : Core := mgetD Core.reset c s.cores

/-- The state with core c replaced. -/
def setCore (s : State) (c : Nat) (k : Core) : State := { s with cores := mput c k s.cores }

/-- The thread core c runs. -/
def threadOf (s : State) (c : Nat) : Option Thread := (coreOf s c).thread

/-- The state with core c's thread replaced. -/
def setThread (s : State) (c : Nat) (t : Thread) : State := setCore s c { coreOf s c with thread := some t }

/-- Change core c's thread, if it runs one. -/
def modThread (s : State) (c : Nat) (f : Thread → Thread) : State :=
  match threadOf s c with
  | none => s
  | some t => setThread s c (f t)

/-- Change core c. -/
def modCore (s : State) (c : Nat) (f : Core → Core) : State := setCore s c (f (coreOf s c))

/-- Die d. -/
def dieOf (s : State) (d : Nat) : Die := if h : d < 4 then s.dies[d] else Die.reset

/-- Change die d. -/
def modDie (s : State) (d : Nat) (f : Die → Die) : State :=
  if h : d < 4 then { s with dies := s.dies.set d (f s.dies[d]) } else s

/-- Engine context e (R142). -/
def engineOf (s : State) (e : Nat) : Engine := mgetD Engine.reset e s.engines

/-- Change engine context e. -/
def modEngine (s : State) (e : Nat) (f : Engine → Engine) : State :=
  { s with engines := mput e (f (engineOf s e)) s.engines }

/-- A free value's index, and the state with the counter advanced (log entry 2). -/
def takeFree (s : State) : Nat × State := (s.free, { s with free := s.free + 1 })

/-- A fresh age stamp. -/
def takeStamp (s : State) : Nat × State := (s.stamp, { s with stamp := s.stamp + 1 })

/-! Time -/

/-- An event due d cycles from now; at once, in this instant, when d is 0. -/
def schedule (s : State) (d : Nat) (e : Instr) : State :=
  if d = 0 then { s with todo := s.todo ++ [.ev e] } else { s with agenda := s.agenda ++ [⟨s.now + d, e⟩] }

/-- Events to be performed next, before what is left of this instant. -/
def pushEvs (s : State) (es : List Instr) : State := { s with todo := es.map Todo.ev ++ s.todo }

/-- Drop every event that satisfies a test from the agenda. -/
def cancel (s : State) (p : Instr → Bool) : State := { s with agenda := s.agenda.filter (fun d => !p d.ev) }

/-- Whether an event brings a part of one of core c's requests to its home. -/
def isReqEvent (c : Nat) : Instr → Bool
  | .requestDataArrival k _ _ => k == c
  | .memoryWritePerformed k _ _ => k == c
  | _ => false

/-- The context mark of a walk whose requester is gone: its failure is nobody's (R24). -/
def walkNobody : Nat := 0xFFFC

/-- Core c's thread leaves it: what is still on its way for its requests comes to no other thread, and what its walks find
to fail is kept for none (R24, R30). -/
def quietCore (s : State) (c : Nat) : State :=
  let s := cancel s (isReqEvent c)
  { s with
    todo := s.todo.filter (fun x => match x with
      | .ev i => !isReqEvent c i
      | _ => true),
    walks := s.walks.map (fun w => (w.1, if w.2.core = c ∧ w.2.cache < 3 then { w.2 with ctx := walkNobody } else w.2)),
    walkFails := s.walkFails.filter (fun w => w.core ≠ c || 3 ≤ w.cache) }

/-! Geometry (R16, R35, R36, R85, R398) -/

/-- Core id fields (R3): die, row, column. -/
def coreDie (c : Nat) : Nat := c / 512 % 4
def coreRow (c : Nat) : Nat := c / 16 % 32
def coreCol (c : Nat) : Nat := c % 16

/-- A core id that names a core of the yield map (R17, R85). -/
def coreLive (s : State) (c : Nat) : Bool := decide (c < 2048) && decide (coreRow c < 20) && s.plat.yield_.getLsbD c

/-- Cluster row and column (R35). -/
def clusterRow (c : Nat) : Nat := coreRow c / 4
def clusterCol (c : Nat) : Nat := coreCol c / 4

/-- The package-wide number of a core's cluster. -/
def clusterId (c : Nat) : Nat := coreDie c * 20 + clusterRow c * 4 + clusterCol c

/-- The core at position k of core c's cluster (R11). -/
def clusterCore (c k : Nat) : Nat :=
  coreDie c * 512 + (coreRow c - coreRow c % 4 + k / 4 % 4) * 16 + (coreCol c - coreCol c % 4 + k % 4)

/-- A core's own position in its cluster (R11). -/
def clusterPos (c : Nat) : Nat := coreRow c % 4 * 4 + coreCol c % 4

/-- Distance of two numbers. -/
def dist (a b : Nat) : Nat := a - b + (b - a)

/-- Stop distance of two cores of one die (R35). -/
def stopDist (a b : Nat) : Nat := dist (clusterRow a) (clusterRow b) + dist (clusterCol a) (clusterCol b)

/-- Distance from a core's cluster to its die's rail stop, cr = 2 and cc = 0 (R35). -/
def railDist (c : Nat) : Nat := dist (clusterRow c) 2 + clusterCol c

/-- Unloaded latency of a load from core t's slice issued by core c (R36). -/
def latency (c t : Nat) : Nat :=
  if c = t then 5
  else if coreDie c = coreDie t then (if clusterId c = clusterId t then 14 else 14 + 4 * stopDist c t)
  else 86 + 4 * (railDist c + railDist t)

/-- Ring position p of a core (R85). -/
def ringPos (c : Nat) : Nat :=
  320 * coreDie c + (if coreRow c % 2 = 0 then 16 * coreRow c + coreCol c else 16 * coreRow c + 15 - coreCol c)

/-- The core at a ring position. -/
def ringCore (p : Nat) : Nat :=
  let n := p % 320
  let r := n / 16
  p / 320 * 512 + r * 16 + (if r % 2 = 0 then n % 16 else 15 - n % 16)

/-! The physical map (R16, R17) -/

/-- What a physical address names. -/
inductive Target where
  | sram (core off : Nat)
  | hbm (h : Nat)
  | ctl (off : Nat)
  | absent
  deriving DecidableEq, Repr

/-- Base of the HBM range. -/
def hbmBase : Nat := 0x10000000000

/-- Base of control-register space. -/
def ctlBase : Nat := 0xF000000000000

/-- Set bits of a word. -/
def ones (w : Word) : Nat := ((List.range 64).filter (fun i => w.getLsbD i)).length

/-- NLIVE: the length of the live list (R64). -/
def nlive (s : State) : Nat := (s.hbm.live.toList.map ones).sum

/-- The live capacity in bytes (R64). -/
def hbmCap (s : State) : Nat := nlive s * 805306368

/-- The target of a physical address. -/
def targetOf (s : State) (pa : Nat) : Target :=
  if pa < 0x400000000 then
    (if coreLive s (pa / 0x800000) then .sram (pa / 0x800000) (pa % 0x800000) else .absent)
  else if hbmBase ≤ pa ∧ pa < hbmBase + hbmCap s then .hbm (pa - hbmBase)
  else if ctlBase ≤ pa ∧ pa < ctlBase + 0x100000000 then .ctl (pa - ctlBase)
  else .absent

/-- Whether an address lies in the SRAM range, whatever core it names (R22: the target class). -/
def inSram (pa : Nat) : Bool := decide (pa < 0x400000000)

/-- Whether an address lies in the HBM range. -/
def inHbm (pa : Nat) : Bool := decide (hbmBase ≤ pa ∧ pa < 0x20000000000)

/-- Whether an address lies in control-register space. -/
def inCtl (pa : Nat) : Bool := decide (ctlBase ≤ pa ∧ pa < ctlBase + 0x100000000)

/-- Frame of an HBM offset: LIVE and COMP (R70). -/
def frameOf (s : State) (h : Nat) : Bool × Bool := mgetD (false, false) (h / 65536) s.hbm.frames

/-- Change core c's slice. -/
def modSlice (s : State) (c : Nat) (f : Slice → Slice) : State := modCore s c (fun k => { k with slice := f k.slice })

/-! What a performed write of SRAM sets off: watches (R263) and probe slots (R55) -/

/-- Whether a watched value fires an entry (R262), at its width. -/
def watchFires (w : Watch) (m : Nat) : Bool :=
  let n := if w.w then 64 else 32
  let v := w.val.toNat % 2 ^ n
  match w.cmp with
  | 0 | 2 => m != v
  | 1 => m == v
  | 3 => decide (v ≤ m)
  | 4 => decide (m < v)
  | 5 => decide (asInt' n v ≤ asInt' n m)
  | _ => decide (asInt' n m < asInt' n v)
where
  /-- Signed reading of n bits. -/
  asInt' (n x : Nat) : Int := if 2 ^ (n - 1) ≤ x then (x : Int) - 2 ^ n else x

/-- Bytes a watch observes. -/
def watchLen (w : Watch) : Nat := if w.w then 8 else 4

/-- A slice's tracker is free again (R264). -/
def dropTracker (s : State) (core ent addr : Nat) : State :=
  modSlice s (addr / 0x800000) (fun x => { x with trackers := x.trackers.filter (· ≠ (core, ent)) })

/-- Evaluate the watches on bytes [pa, pa + n) after a write (R263): an entry that fires needs its tracker no more. -/
def evalWatches (s : State) (pa n : Nat) : State :=
  s.cores.foldl (fun s (ck : Nat × Core) =>
    match ck.2.thread with
    | none => s
    | some t =>
      let fires (w : Watch) : Bool := w.state == 1 && decide (w.addr < pa + n ∧ pa < w.addr + watchLen w)
        && watchFires w (memNat s.mem w.addr (watchLen w))
      if t.watch.any fires then
        t.watch.zipIdx.foldl (fun s w => if fires w.1 then
            modThread (dropTracker s ck.1 w.2 w.1.addr) ck.1 (fun t => { t with
              watch := t.watch.modify w.2 (fun w => { w with state := 2 }) })
          else s) s
      else s) s

/-- Slots of a core's probe region that the bytes [off, off + n) of its slice touch become DIRTY (R55). -/
def dirtySlots (s : State) (core off n : Nat) : State :=
  let p := (coreOf s core).probe
  let base := wf 22 14 p.cfg * 16384
  if p.slots.isEmpty || p.slots.all (fun js => js.2.state != 2 || js.2.ro
      || decide (off + n ≤ base + 2048 * js.1 ∨ base + 2048 * (js.1 + 1) ≤ off)) then s
  else modCore s core (fun k => { k with probe := { k.probe with slots := k.probe.slots.map (fun js =>
    if js.2.state == 2 && !js.2.ro && decide (base + 2048 * js.1 < off + n ∧ off < base + 2048 * (js.1 + 1)) then
      (js.1, { js.2 with state := 3 }) else js) } })

/-- What a write of SRAM bytes [pa, pa + n) sets off, whoever makes it: watches and probe slots (R55, R263). -/
def sramEffects (s : State) (pa n : Nat) : State := dirtySlots (evalWatches s pa n) (pa / 0x800000) (pa % 0x800000) n

/-- HBM bursts [lo, hi) written whole: their codes are good again (R46, R75, R77). -/
def freshBursts (h : Hbm) (lo hi : Nat) : Hbm :=
  { h with codes := h.codes.filter (fun c => decide (4 * c.1 < lo ∨ hi ≤ 4 * c.1)),
           badBursts := h.badBursts.filter (fun b => decide (b < lo ∨ hi ≤ b)),
           weakBursts := h.weakBursts.filter (fun b => decide (b < lo ∨ hi ≤ b)) }

/-! Recoding (R74, R75) -/

/-- The forms of a 128-byte block of a compressible frame, with their codes (R75). -/
inductive Form where
  | raw | packed | zero
  deriving DecidableEq, Repr

/-- BF16 element i of a block. -/
def bf16At (bs : List Byte) (i : Nat) : Nat := leNat ((bs.drop (2 * i)).take 2)

/-- E0: the least nonzero exponent of a block, 0 if there is none (R74). -/
def blockE0 (bs : List Byte) : Nat :=
  let es := ((List.range 64).map (fun i => bits 7 8 (bf16At bs i))).filter (· ≠ 0)
  match es with
  | [] => 0
  | e :: r => r.foldl min e

/-- The form a block is stored in (R74). -/
def blockForm (bs : List Byte) : Form :=
  let e0 := blockE0 bs
  if bs.all (· == 0) then .zero
  else if (List.range 64).all (fun i => let e := bits 7 8 (bf16At bs i); e == 0 || decide (e0 ≤ e ∧ e ≤ e0 + 6)) then
    .packed
  else .raw

/-- The code of a form (R75). -/
def formCode : Form → Nat
  | .raw => 0
  | .packed => 1
  | .zero => 2

/-- The 11 packed bits of an element: sign, delta, mantissa (R74). -/
def packElem (e0 v : Nat) : Nat :=
  let e := bits 7 8 v
  bits 15 1 v * 1024 + (if e = 0 then 7 else e - e0) * 128 + v % 128

/-- The element back from its 11 bits (R74). -/
def unpackElem (e0 p : Nat) : Nat :=
  let d := bits 7 3 p
  bits 10 1 p * 32768 + (if d = 7 then 0 else e0 + d) * 128 + p % 128

/-- The stored bytes of a block (R74). -/
def storeBlock (bs : List Byte) : List Byte :=
  match blockForm bs with
  | .zero => []
  | .raw => bs
  | .packed =>
    let e0 := blockE0 bs
    leBytes 96 (e0 + 2 ^ 16 * packElems 11 ((List.range 64).map (fun i => packElem e0 (bf16At bs i))))

/-- The block read back from its stored bytes (R74, R75). -/
def loadBlock (f : Form) (st : List Byte) : List Byte :=
  match f with
  | .zero => List.replicate 128 0
  | .raw => st
  | .packed =>
    let v := leNat st
    let e0 := v % 256
    leBytes 128 (packElems 16 ((List.range 64).map (fun i => unpackElem e0 (bits (16 + 11 * i) 11 v))))

/-- Bursts that a read or a write of a block takes, by its code (R75): four, three, or the code alone. -/
def codeBursts (code : Nat) : Nat :=
  match code with
  | 0 => 4
  | 1 => 3
  | _ => 1

/-- Whether a dredge window is open (R339). -/
def inWindow (s : State) : Bool := decide (s.now % 65536 < 2048)

/-- The stored code of block u (R75): the one its contents have, where no other is listed. -/
def blockCode (s : State) (u : Nat) : Nat :=
  (mget u s.hbm.codes).getD (formCode (blockForm (memBytes s.mem (hbmBase + 128 * u) 128)))

/-- The bursts that a read of unit u takes: of a 128-byte block those of its form (R75), else the one burst. -/
def unitBursts (s : State) (size u : Nat) : List Nat :=
  if size = 128 then (List.range (codeBursts (blockCode s u))).map (4 * u + ·) else [u]

/-- Why a unit cannot be read, as an HBM offset (R75, R77): the first uncorrectable burst that the read takes, or the
block whose code is 0b11. -/
def unitBad (s : State) (size u : Nat) : Option Nat :=
  match (unitBursts s size u).find? (fun b => s.hbm.badBursts.contains b) with
  | some b => some (32 * b)
  | none => if size = 128 && mget u s.hbm.codes == some 3 then some (128 * u) else none

/-- The merge read of a write that covers only part of a unit of HBM (R76 to R78): whether the write is dropped, and the bursts
corrected or not to be read, which are counted and reported at the next cycle. -/
def mergeRead (s : State) (size u : Nat) : Bool × State :=
  let bursts := unitBursts s size u
  let bad := bursts.filter (fun b => s.hbm.badBursts.contains b)
  let weak := bursts.filter (fun b => s.hbm.weakBursts.contains b && !bad.contains b)
  ((unitBad s size u).isSome,
   { s with hbm := { s.hbm with
      weakBursts := s.hbm.weakBursts.filter (fun b => !weak.contains b),
      unlogged := s.hbm.unlogged ++ weak.map (fun b => (32 * b, true)) ++ (bad.take 1).map (fun b => (32 * b, false)) } })

/-- A write by the device itself of whole 32-byte units, performed at its home: save frames, trap records, fault-queue
entries, spilled records and retry flits (R155, R175, R334, R335, R373). A whole unit is encoded anew (R46, R48, R77); a frame
that is not live, or an address without a target, takes nothing (R17, R71); an entry that covers only part of a block the
controller cannot decode is dropped with that block (R77; no second entry tells of it: log entry 74). -/
def storeNow (s : State) (pa : Nat) (bs : List Byte) : State :=
  match targetOf s pa with
  | .sram _ _ =>
    let out (w : Nat) : Bool := decide (w < pa / 32 ∨ (pa + bs.length + 31) / 32 ≤ w)
    sramEffects { s with mem := memWrite s.mem pa bs, sramErr := s.sramErr.filter (fun e => out e.1) } pa bs.length
  | .hbm h =>
    let (live, comp) := frameOf s h
    if !live then s
    else
      let (dropped, s) := if comp && bs.length < 128 then mergeRead s 128 (h / 128) else (false, s)
      if dropped then s
      else
        let k := if comp then 128 else 32
        { s with mem := memWrite s.mem pa bs,
                 hbm := freshBursts s.hbm (h / k * (k / 32)) ((h + bs.length + k - 1) / k * (k / 32)) }
  | _ => s

/-- Such a write when it is made: one to HBM in a dredge window is held, with those before it, and served at the close
(R84). -/
def storeUnits (s : State) (pa : Nat) (bs : List Byte) : State :=
  if inHbm pa && inWindow s then { s with hbm := { s.hbm with posted := s.hbm.posted ++ [(pa, bs)] } } else storeNow s pa bs

/-- The writes that a window has held, in their order (R84). -/
def storePosted (s : State) : State :=
  s.hbm.posted.foldl (fun s w => storeNow s w.1 w.2) { s with hbm := { s.hbm with posted := [] } }

/-! Saturating logs: the die fault queues (R333, R334, R395) -/

/-- The ring of die d holds 2^SIZELOG entries (R333). -/
def fqSize (d : Die) : Nat := let l := wf 4 0 d.fqBase; if l < 10 || 20 < l then 2 ^ 10 else 2 ^ l

/-- Whether the ring has space for one more entry (R334). -/
def fqRoom (d : Die) : Bool := decide ((d.fqHead + 2 ^ 32 - d.fqTail) % 2 ^ 32 < fqSize d)

/-- The bytes of eight words. -/
def wordBytes (ws : List Word) : List Byte := (ws.map (fun w => leBytes 8 w.toNat)).flatten

/-- Write one entry into the ring of die d and advance HEAD (R334). -/
def fqWrite (s : State) (d : Nat) (ws : List Word) : State :=
  let die := dieOf s d
  let slot := die.fqHead % fqSize die
  modDie (storeUnits s (wf 51 16 die.fqBase * 2 ^ 16 + 64 * slot) (wordBytes ws)) d (fun die => { die with fqHead := (die.fqHead + 1) % 2 ^ 32 })

/-- Log an event entry: dropped and counted when the ring is full (R334). -/
def fqEvent (s : State) (d : Nat) (ws : List Word) : State :=
  if fqRoom (dieOf s d) then fqWrite s d ws
  else modDie s d (fun die => { die with fqDrop := satInc 32 die.fqDrop })

/-- Log a fault entry: it waits while the ring is full (R334). -/
def fqFault (s : State) (d : Nat) (ws : List Word) : State :=
  if fqRoom (dieOf s d) && (dieOf s d).fqHeld.isEmpty then fqWrite s d ws
  else modDie s d (fun die => { die with fqHeld := die.fqHeld ++ [ws] })

/-- Write waiting fault entries while there is space, after TAIL has moved (R334). -/
def fqFlush : Nat → State → Nat → State
  | 0, s, _ => s
  | n + 1, s, d =>
    match (dieOf s d).fqHeld with
    | [] => s
    | ws :: r =>
      if fqRoom (dieOf s d) then fqFlush n (fqWrite (modDie s d (fun x => { x with fqHeld := r })) d ws) d else s

/-- QW0 of an entry (R334). -/
def entryQW0 (cls cause : Nat) (prec hold : Bool) (req core ctx : Nat) : Word :=
  BitVec.ofNat 64 (cls * 2 ^ 56 + cause * 2 ^ 48 + b2n prec * 2 ^ 47 + b2n hold * 2 ^ 46 + req * 2 ^ 32
    + core % 2048 * 2 ^ 16 + ctx % 2 ^ 16)

/-- The entry of an event (R334, R395): class, cause, requester, core, context, QW2, QW3, QW6, QW7. -/
def eventWords (s : State) (cls cause req core ctx : Nat) (ga pa qw6 qw7 : Word) : List Word :=
  [entryQW0 cls cause false false req core ctx, BitVec.ofNat 64 s.now, ga, pa, 0, 0, qw6, qw7]

/-- Log an event of class `cls` on die d (R332, R395); its requester is `other` where no row of REQ names it (R334). -/
def logEvent (s : State) (d cls cause : Nat) (core : Nat := 0) (ga : Word := 0) (pa : Word := 0) (qw6 : Word := 0)
    (qw7 : Word := 0) (req : Nat := 12) (ctx : Nat := 0xFFFF) : State :=
  fqEvent s d (eventWords s cls cause req core ctx ga pa qw6 qw7)

/-- The entry of a thread's fault (R334). -/
def faultWords (core : Nat) (t : Thread) (f : FaultRec) (prec hold : Bool) : List Word :=
  [entryQW0 f.cls f.cause prec hold f.req core f.ctx, BitVec.ofNat 64 f.cycle, f.ga, f.pa, t.q.seg,
    BitVec.ofNat 64 (wf 15 0 t.regs.asid * 2 ^ 48 + t.det.tid % 2 ^ 15 * 2 ^ 32
      + (if hold then t.frame % 4096 else 2 ^ 24 - 1) * 2 ^ 8 + t.q.idx % 128), f.qw6, f.qw7]

/-- The entry of a context's or device's fault, with no thread (R334). -/
def ctxWords (s : State) (core asid tid : Nat) (f : FaultRec) (hold : Bool) : List Word :=
  [entryQW0 f.cls f.cause false hold f.req core f.ctx, BitVec.ofNat 64 s.now, f.ga, f.pa, 0,
    BitVec.ofNat 64 (asid * 2 ^ 48 + tid % 2 ^ 15 * 2 ^ 32 + (2 ^ 24 - 1) * 2 ^ 8), f.qw6, f.qw7]

/-! Save frames (R175, R176, R335) -/

/-- The physical address of a save frame, named by die * 4096 + index (R160). -/
def framePa (s : State) (f : Nat) : Nat := (wf 51 19 (dieOf s (f / 4096)).save + f % 4096) * 2 ^ 19

/-- Cycles that n cycles of save-frame traffic take from now on: traffic to HBM stands still in a dredge window
(R84, R175). -/
def frameTime (s : State) (f n : Nat) : Nat :=
  if inHbm (framePa s f) then
    let p := s.now % 65536
    let done := max p 2048 - 2048 + (n - 1)
    done / 63488 * 65536 + 2048 + done % 63488 + 1 - p
  else n

/-! Registers -/

/-- The request that a destination still awaits a WAIT for, if any (R44). -/
def uncovered (t : Thread) (d : Dest) : Option Nat := (t.uncov.find? (fun u => u.1 == d)).map (fun u => u.2.2)

/-- What a slot reads from an uncovered destination: undefined, a free value (R44, log entry 3). -/
def undefinedRead (t : Thread) (req : Nat) : Row := Config.undefinedRow (t.x.dc * 2 ^ 32 + req)

/-- s[n] as a slot of the current cycle reads it. -/
def sreg (t : Thread) (n : BitVec 5) : Word :=
  match uncovered t (.sreg n.toNat) with
  | some q => (undefinedRead t q).setWidth 64
  | none => t.r.s[n.toNat]

/-- p[n]; p0 reads 1 (R150). -/
def pred (t : Thread) (n : BitVec 3) : Bool := n == 0 || t.r.p.getLsbD n.toNat

/-- Row r of tile register k. -/
def trow (t : Thread) (k r : Nat) : Row :=
  match uncovered t (.trow (64 * k + r)) with
  | some q => undefinedRead t q
  | none => mgetD 0 (64 * k + r) t.r.tiles

/-- Row m of accumulator z (R285). -/
def arow (t : Thread) (z m : Nat) : Row := mgetD 0 (64 * z + m) t.r.accs

/-- Whether a slot is performed: p[GRD] xor NEG (R167, R209). -/
def guardTrue (t : Thread) (g : Guard) : Bool := pred t g.grd != g.neg

/-- A write of one destination, the bits of `m` only. -/
def writeDest (t : Thread) (d : Dest) (v m : Row) : Thread :=
  match d with
  | .none => t
  | .sreg n =>
    if h : n < 32 then { t with r := { t.r with s := t.r.s.set n (BitVec.ofNat 64 v.toNat) } } else t
  | .preg n =>
    if n = 0 then t
    else
      let b : BitVec 8 := BitVec.ofNat 8 (2 ^ n)
      { t with r := { t.r with p := if v.getLsbD 0 then t.r.p ||| b else t.r.p &&& ~~~b },
               q := { t.q with pwrite := mput n t.x.dc t.q.pwrite } }
  | .trow k => { t with r := { t.r with tiles := mset 0 k (blend (mgetD 0 k t.r.tiles) v m) t.r.tiles } }
  | .arow k => { t with r := { t.r with accs := mset 0 k (blend (mgetD 0 k t.r.accs) v m) t.r.accs } }

/-! Faults named by several chapters -/

/-- The schedule fault (R171). -/
def schedFault (cause : Nat) : Attn := .fault { cls := 0x01, cause := cause }

/-- The illegal-slot trap (R212), with the slot kind by header bit (R202). -/
def illegalSlot (kind : Nat) : Attn := .fault { cls := 0x02, cause := 0, qw6 := BitVec.ofNat 64 kind }

/-- The bad-segment trap (R205). -/
def badSegment (cause : Nat) (target : Word) : FaultRec := { cls := 0x03, cause := cause, qw6 := target }

/-- The misaligned-target trap (R206). -/
def misaligned (cause : Nat) (target : Word) : FaultRec := { cls := 0x04, cause := cause, qw6 := target }

/-- The loop-stack fault (R242). -/
def loopFault (cause depth : Nat) : Attn := .fault { cls := 0x05, cause := cause, qw6 := BitVec.ofNat 64 depth }

/-- The software trap (R244). -/
def softTrap (code : Nat) : FaultRec := { cls := 0x06, cause := 0, qw6 := BitVec.ofNat 64 code }

/-- A translation fault (R26): cause, requester, generic address, walk level, last entry. -/
def xlatFault (cause req : Nat) (ga : Word) (level : Nat) (entry : Word) (ctx : Nat := 0xFFFF) : FaultRec :=
  { cls := 0x07, cause := cause, req := req, ctx := ctx, ga := ga, qw6 := BitVec.ofNat 64 level, qw7 := entry }

/-- A data-error fault (R51, R52). -/
def dataFault (cause req : Nat) (ga : Word) (pa : Nat) (ctx : Nat := 0xFFFF) : FaultRec :=
  { cls := 0x08, cause := cause, req := req, ctx := ctx, ga := ga, pa := BitVec.ofNat 64 pa,
    qw6 := BitVec.ofNat 64 cause }

/-- A landing-timeout fault (R397). -/
def timeoutFault (code : Nat) : FaultRec := { cls := 0x0A, cause := 0, qw6 := BitVec.ofNat 64 code }

/-- The Eddy fault (R98). -/
def eddyFault (cause slot : Nat) : FaultRec := { cls := 0x0B, cause := cause, qw6 := BitVec.ofNat 64 slot }

/-- The Tide fault (R118). The layer and the tile share QW6 and the lap is QW7 (DESIGN CHOICE, log entry 98). -/
def tideFault (cause layer tile lap : Nat) : FaultRec :=
  { cls := 0x0C, cause := cause, qw6 := BitVec.ofNat 64 (layer + tile * 2 ^ 16), qw7 := BitVec.ofNat 64 lap }

/-- The synchronisation fault (R314). -/
def syncFault (cause : Nat) (obj : Word) : FaultRec := { cls := 0x0D, cause := cause, qw6 := obj }

/-- The channel fault (R323). -/
def chanFault (cause req ctx : Nat) (rec addr : Word) : FaultRec :=
  { cls := 0x0E, cause := cause, req := req, ctx := ctx, ga := addr, qw6 := rec }

/-- The task fault (R153). -/
def taskFault (cause : Nat) (rec : Word) : FaultRec := { cls := 0x0F, cause := cause, ga := rec, qw6 := rec }

/-! Taking an exception, and the return from it (R161, R335, R336) -/

/-- The auditor's replay is abandoned (R345), once: what it has issued runs on, where its accesses go. -/
def dropReplay (s : State) : State :=
  let a := s.auditor
  match a.replaying with
  | some x =>
    if x.abandoned then s
    else { s with auditor := { a with replaying := some { x with abandoned := true }, skipped := satInc 16 a.skipped } }
  | none => s

/-- A fault of the auditor's replay abandons the replay (R345): the replay's thread ends, at once or when it is back on a core. -/
def abandonReplay (s : State) (c : Nat) : State :=
  modThread (dropReplay s) c (fun t =>
    match t.replay, t.phase with
    | false, _ => t
    | true, .saving .. => t
    | true, .restoring => t
    | true, _ => { t with phase := .ending, kill := false })

/-- A handler's own fault is a machine check of cause DOUBLE (R336): the handler is killed, and ends as a killed thread does
(R161, R162). The fault is noted, for the entry that is written when it has ended. -/
def doubleFault (s : State) (c : Nat) (t : Thread) (f : FaultRec) : State :=
  setThread s c { t with kill := true, killBy := some (s.now + 65536), phase := .ending,
                         posFault := some (t.posFault.getD { f with cycle := s.now }) }

/-- The machine check of cause DOUBLE (R336): it names both faults, and the position of the thread the handler served. -/
def doubleRec (s : State) (h : Thread) (f : FaultRec) : FaultRec :=
  let both (x : FaultRec) : Word := BitVec.ofNat 64 (x.cls * 2 ^ 8 + x.cause)
  { cls := 0x11, cause := 2, qw6 := both (h.trapped.getD { cls := 0, cause := 0 }), qw7 := both f, cycle := s.now }

/-- Take an exception on core c: the one shared operation (R335 step 1). The thread issues no further bundle; its
saved position is the bundle at its PC, or bundle `idx` where the bundle has had its effect; the save of R173
runs, and TRAP_ENTRY follows when it is complete. -/
def takeException (s : State) (c : Nat) (f : FaultRec) (idx : Option Nat) : State :=
  match threadOf s c with
  | none => s
  | some t =>
    let t := match idx with
      | some i => { t with q := { t.q with idx := i } }
      | none => t
    let s := { s with walkFails := s.walkFails.filter (fun w => w.core ≠ c || 3 ≤ w.cache) }
    if t.handler then doubleFault s c t f
    else if t.replay then abandonReplay s c
    else setThread s c { t with phase := .saving true s.now, posFault := some { f with cycle := s.now },
                                attn := some (match idx with | some i => .after f i | none => .fault f) }

/-- Begin expanding a segment into the idle half of the loop buffer (R165), which loses what it held: in this instant its
control line is requested. -/
def startExpansion (s : State) (c : Nat) (target : Word) : State :=
  match threadOf s c with
  | none => s
  | some t =>
    schedule (setThread s c { t with q := { t.q with expanding := some { target := target, due := 0, ctlAt := 0, bytes := [] }, next := none } }) 0
      (.segmentExpansionComplete c)

/-- Context mark of a walk that serves an expansion. -/
def walkFetch : Nat := 0xFFFD

/-- Whether R164's conditions on a die's scheduler hold: it runs, and at most one entry is READY. -/
def launchQuiet (s : State) (d : Nat) : Bool :=
  (dieOf s d).run && decide (((dieOf s d).entries.filter (fun e => e.state == 3)).length ≤ 1)

/-- What contention adds to a step of a launch: a share of the 140 cycles that R164's bound leaves for it, while its conditions
hold (log entry 4). -/
def launchDelay (s : State) (d n : Nat) : Nat := if launchQuiet s d then Config.delay n % 24 else Config.delay n

/-- Begin a table walk for a cache of core c (R20, R23): 24 cycles when the cluster TLB holds the translation, else
40 cycles for each of three reads, and what contention adds. -/
def startWalk (s : State) (c cache ctx : Nat) (va : Word) (regs : JobRegs) : State :=
  if s.walks.any (fun w => w.2.core == c && w.2.cache == cache && w.2.va == va && w.2.ctx == ctx) then s
  else
    let (n, s) := takeFree s
    let (k, s) := takeStamp s
    let s := { s with walks := mput k ⟨cache, c, ctx, va, regs, s.now, false⟩ s.walks }
    let hit := (mgetD [] (65536 + clusterId c) s.tlbs).any (fun e =>
      e.asid == wf 15 0 regs.asid && va.toNat % 2 ^ 56 / 2 ^ e.log * 2 ^ e.log == e.va)
    schedule s ((if hit then 24 else 120) + (if hit && ctx = walkFetch then launchDelay s (coreDie c) n else Config.delay n))
      (.pageTableWalkComplete k)

/-- Class of a matrix operand format: 1, 2 or 4 k-steps per beat; 0 for a code that is none (R189). -/
def fmtClass (code : Nat) : Nat :=
  match code with
  | 1 | 2 => 1
  | 3 | 4 | 5 | 7 | 8 | 9 | 10 => 2
  | 6 | 11 => 4
  | _ => 0

/-- FMT.AF as latched (R194), and the k-steps of a beat (R289). -/
def XOp.af (x : XOp) : Nat := wf 3 0 x.fmt
def XOp.kpb (x : XOp) : Nat := fmtClass x.af

/-- The operation taken back to the point XPROG records; its re-run is to reach beat `upto`, and walks afresh (R30, R295,
R296). -/
def XOp.rewind (x : XOp) (upto : Nat) : XOp :=
  { x with j := x.j / x.b * x.b + x.kstep / max 1 x.kpb, ks := [], got := [], ready := 0, tried := false, fault := none, upto := upto }

/-- Whether a request is refused by the race detector and awaits its retry (R147). -/
def raced (q : Req) : Bool :=
  match q.fault with
  | some f => f.cls == 0x09
  | none => false

/-- The request after its fault has been raised: forgotten, or, refused by the detector, to be performed anew on
return (R147): until then it stands as landed without a fault. -/
def raiseReq (t : Thread) (q : Req) : Thread :=
  if raced q then
    { t with reqs := t.reqs.map (fun r => if r.id = q.id then
        { r with fault := none, landed := true,
                 parts := r.parts.map (fun p => { p with done := false, here := false }) } else r) }
  else { t with reqs := t.reqs.filter (fun r => r.id ≠ q.id) }

/-- Take up a recorded fault: the fault to raise, and the thread once it has been raised (R117, R147, R295, R341). -/
def takePending (t : Thread) (kind req : Nat) : Option FaultRec × Thread :=
  match kind with
  | 0 =>
    match t.reqs.find? (fun q => q.id == req) with
    | some q => (q.fault, raiseReq t q)
    | none => (none, t)
  | 1 => (t.tide.pending.head?, { t with tide := { t.tide with pending := t.tide.pending.drop 1 } })
  | 2 =>
    match t.overruns with
    | [] => (none, t)
    | (ctx, pa) :: _ =>
      (some { cls := 0x10, cause := 0, pa := BitVec.ofNat 64 pa,
              qw6 := BitVec.ofNat 64 (if t.overruns.length = 1 then ctx else t.overruns.length), qw7 := BitVec.ofNat 64 pa }, { t with overruns := [] })
  | 3 => (some (timeoutFault 1), { t with timeouts := t.timeouts.filter (fun d => decide (t.x.dc < d)) })
  | _ =>
    match t.x.xop with
    | some x =>
      -- R295: on return the beats from the point that XPROG records are run again
      (x.fault, { t with x := { t.x with xop := some (x.rewind (max x.upto (x.j + 1))) } })
    | none => (none, t)

/-- What keeps a bundle from issuing, applied to the state in which the bundle was to issue. -/
def attend (s : State) (c : Nat) (a : Attn) : State :=
  let freeze (s : State) (code : Nat) : State :=
    modThread s c (fun t => { t with
      attn := some a,
      phase := match t.phase with
        | .frozen k n => if k = code then .frozen k n else .frozen code n
        | _ => .frozen code 0 })
  let noted (s : State) : State := modThread s c (fun t => { t with attn := some a })
  match a with
  | .fault f => takeException s c f none
  | .after f i => takeException s c f (some i)
  | .freeze code => freeze s code
  | .response _ _ f => takeException s c f none
  | .stall => modThread s c (fun t => { t with attn := some a, phase := .stalled })
  | .pending 5 j =>
    -- R55: a lookup of a slot in ERR takes its fault, and the slot becomes INVALID
    let p := (coreOf s c).probe
    match mget j p.slots with
    | none => s
    | some x =>
      noted (takeException (modCore s c (fun k => { k with probe := { p with slots := mdel j p.slots } })) c
        (dataFault x.cause 0 x.va x.errPa) none)
  | .pending kind req =>
    match threadOf s c with
    | none => s
    | some t =>
      match takePending t kind req with
      | (some f, t) => noted (takeException (setThread s c t) c f none)
      | (none, t) => setThread s c t
  | .walk cache ctx va regs => freeze (startWalk s c cache ctx va regs) 4
  | .expand target =>
    let running := match (threadOf s c).bind (fun t => t.q.expanding) with
      | some e => e.target == target
      | none => false
    freeze (if running then s else startExpansion s c target) 3

/-- A slot of the current core's bundle, performed when its guard is true (R167). -/
def runSlot (g : Guard) (s : State) (f : Thread → Slot) : Out :=
  match threadOf s s.cur with
  | none => .next s
  | some t =>
    if guardTrue t g then
      match f t with
      | .ok s' => .next s'
      | .error a => .next (attend s s.cur a)
    else .next s

/-- A slot whose checks are made whatever its guard (R169, R212, R267). -/
def runAlways (s : State) (f : Thread → Slot) : Out :=
  match threadOf s s.cur with
  | none => .next s
  | some t =>
    match f t with
    | .ok s' => .next s'
    | .error a => .next (attend s s.cur a)

/-! Results in flight (R43, R166, R171, R174) -/

/-- Results in flight (R171 cause INFLIGHT): each slot's result, and what each V operation and ZOUT counts as until
its last write (R268, R300), fixed-mode loads among them; a write to p0 is none (R248). -/
def inFlight (t : Thread) : Nat :=
  (t.x.inflight.filter (fun r => r.vx == 0 && r.dest != .preg 0)).length
    + ((t.x.counts.filter (fun c => decide (t.x.dc < c.2))).map (·.1)).sum
    + (t.reqs.filter (fun q => q.fixed && !q.landed)).length

/-- The destinations of a request's landing: an LDROW writes each of its rows, an STROW none (R253). -/
def reqDests (q : Req) : List Dest :=
  match q.kind, q.dest with
  | .row n, .trow k => (List.range n).map (fun i => .trow (k + i))
  | .srow _, _ => []
  | _, d => [d]

/-- Whether another write is due in a destination in one cycle; writes to p0 never collide (R43, R227). -/
def collides (t : Thread) (d : Dest) (due : Nat) : Bool :=
  d != .preg 0 && d != .none &&
  (t.x.inflight.any (fun r => r.dest == d && r.due == due) || t.x.writes.contains (d, due) ||
   t.reqs.any (fun q => !q.landed && q.due == some due && (reqDests q).contains d))

/-- Whether a write due at a cycle falls in a tile row that a V operation or STROW reads then or later (R253, R269). -/
def tileRead (t : Thread) (d : Dest) (due : Nat) : Bool :=
  match d with
  | .trow k => t.x.reads.any (fun r => r.1 == k && decide (due ≤ r.2))
  | _ => false

/-- The checks on one write due at a cycle: COLLIDE, then TILEREAD (R43, R269). -/
def checkWrite (t : Thread) (d : Dest) (due : Nat) : Except Attn Unit :=
  if collides t d due then .error (schedFault 5)
  else if tileRead t d due then .error (schedFault 2)
  else .ok ()

/-- A result of the current bundle with latency l: its write is checked, and INFLIGHT (R43, R171). -/
def addResult (t : Thread) (d : Dest) (v : Row) (l : Nat) (flags : BitVec 5 := 0) : Except Attn Thread :=
  match checkWrite t d (t.x.dc + l) with
  | .error a => .error a
  | .ok _ =>
    if d ≠ .preg 0 ∧ 64 ≤ inFlight t then .error (schedFault 6)
    else .ok { t with x := { t.x with inflight := t.x.inflight ++ [⟨d, t.x.dc + l, v, fullMask, flags, 0⟩] } }

/-- A scalar result. -/
def addScalar (t : Thread) (rd : BitVec 5) (v : Word) (l : Nat) : Except Attn Thread :=
  addResult t (.sreg rd.toNat) (BitVec.ofNat 2048 v.toNat) l

/-- A predicate result. -/
def addPred (t : Thread) (pd : BitVec 3) (v : Bool) (l : Nat) : Except Attn Thread :=
  addResult t (.preg pd.toNat) (BitVec.ofNat 2048 (b2n v)) l

/-- A slot that writes one scalar. -/
def putScalar (s : State) (t : Thread) (rd : BitVec 5) (v : Word) (l : Nat) : Slot :=
  (addScalar t rd v l).map (setThread s s.cur)

/-- A slot that writes one predicate. -/
def putPred (s : State) (t : Thread) (pd : BitVec 3) (v : Bool) (l : Nat) : Slot :=
  (addPred t pd v l).map (setThread s s.cur)

/-! Issuers and privilege -/

/-- A thread is privileged when PRIV.P = 1, or when it is a handler thread (R302, R335). -/
def privileged (t : Thread) : Bool := t.handler || wf 0 0 t.regs.priv == 1

/-- The state an engine operation latches at issue (R133, R146). -/
def issuerOf (c : Nat) (t : Thread) : Issuer :=
  { core := c, frame := t.frame, job := t.job, regs := t.regs, priv := privileged t, handler := t.handler, replay := t.replay,
    tid := t.det.tid, scnt := t.det.scnt, startcnt := t.det.startcnt, aset := t.det.aset, coarse := t.det.coarse,
    pos := t.nextReq }

/-- Every release increments SCNT before it is performed (R140). -/
def release (t : Thread) : Thread := { t with det := { t.det with scnt := (t.det.scnt + 1) % 2 ^ 32 } }

/-- Counted requests of a class that are not complete (R172): 1 L, 2 S, 3 T. -/
def outstanding (t : Thread) (cls : Nat) : Nat :=
  (t.reqs.filter (fun q => q.cls == cls && !q.timed && !q.fixed && !q.landed)).length

/-- Landing slots held (R41). -/
def landingHeld (t : Thread) : Nat := (t.reqs.filter (fun q => q.timed && !q.landed)).length

end Sys2Proof.Machine
end

