-- ==== Sys2Proof/Machine/Memory.lean ====
section
/-! DEFINITION. Physical memory: the map of R16 and R17, the symbol code of the slices (R46 to R49), HBM placement,
frames, recoding and errors (R63 to R78), and the plain reads and writes every requester uses. -/

namespace Sys2Proof.Machine

/-! The symbol code (R46, R47) -/

/-- Multiplication by α = 0x02 in GF(2^8) with x^8 + x^4 + x^3 + x^2 + 1 (R46). -/
def gfDouble (a : Nat) : Nat := if a < 128 then 2 * a else (2 * a - 256) ^^^ 0x1D

/-- Multiplication by α^k. -/
def gfShift : Nat → Nat → Nat
  | 0, a => a
  | k + 1, a => gfShift k (gfDouble a)

/-- A syndrome of a codeword of 18 symbols: the sum of symbol p times α^(i p), i 0 or 1. -/
def syndrome (i : Nat) (c : List Nat) : Nat :=
  (c.zip (List.range 18)).foldl (fun a (x : Nat × Nat) => a ^^^ gfShift (i * x.2) x.1) 0

/-- The two check symbols that make 16 data symbols a codeword (R46): positions 0 and 1, from S0 = S1 = 0. -/
def checkSymbols (data : List Nat) : Nat × Nat :=
  let s0 := syndrome 0 (0 :: 0 :: data)
  let s1 := syndrome 1 (0 :: 0 :: data)
  -- c0 + c1 = s0 and c0 + 2 c1 = s1, so 3 c1 = s0 + s1; the inverse of 3 is α^230
  let c1 := gfShift 230 (s0 ^^^ s1)
  (s0 ^^^ c1, c1)

/-- The outcome of decoding one codeword (R47): the symbols, the position corrected, or uncorrectable. -/
def decodeCode (failed : Option Nat) (c : List Nat) : Option (List Nat × Option Nat) :=
  match failed with
  | none =>
    let s0 := syndrome 0 c
    let s1 := syndrome 1 c
    if s0 == 0 && s1 == 0 then some (c, none)
    else if s0 == 0 then none
    else match (List.range 18).find? (fun k => gfShift k s0 == s1) with
      | some k => some (c.mapIdx (fun i x => if i = k then x ^^^ s0 else x), some k)
      | none => none
  | some f =>
    let z := c.mapIdx (fun i x => if i = f then 0 else x)
    let s0 := syndrome 0 z
    if syndrome 1 z ^^^ gfShift f s0 == 0 then some (z.mapIdx (fun i x => if i = f then s0 else x), none) else none

/-- The difference between a stored word and what was encoded, as the 18 symbols of codeword j. -/
def errSymbols (e : BitVec 288) (j : Nat) : List Nat := (List.range 18).map (fun p => bits (8 * (2 * p + j)) 8 e.toNat)

/-- Decoding one 32-byte word (R47): the data bytes' differences, none when a codeword is uncorrectable; the positions
corrected; the codewords that are uncorrectable. The code is linear, so the difference is decoded alone. -/
def readWord (failed : Option Nat) (e : BitVec 288) : Option (List Byte) × List Nat × Nat :=
  let a := decodeCode failed (errSymbols e 0)
  let b := decodeCode failed (errSymbols e 1)
  let fixed (x : Option (List Nat × Option Nat)) : List Nat := (x.bind (·.2)).toList
  let data := match a, b with
    | some (x, _), some (y, _) =>
      some ((List.range 32).map (fun i => BitVec.ofNat 8 (((if i % 2 = 0 then x else y)[i / 2 + 2]?).getD 0)))
    | _, _ => none
  (data, fixed a ++ fixed b, b2n a.isNone + b2n b.isNone)

/-- An SRAM event of a slice (R50, R395). -/
def sramEvent (s : State) (c cause word bank : Nat) : State :=
  logEvent s (coreDie c) 0x20 cause c 0 0 (BitVec.ofNat 64 word) (BitVec.ofNat 64 bank)

/-- A bank whose count has reached the threshold is marked failed; with another bank failed, SECOND is set (R49). -/
def bankLimit (s : State) (c word k : Nat) : State :=
  let sl := (coreOf s c).slice
  let thresh := wf 15 8 sl.ecccfg
  if thresh = 0 ∨ mgetD 0 k sl.counts < thresh then s
  else match sl.failed with
    | none => sramEvent (modSlice s c (fun x => { x with failed := some k })) c 3 word k
    | some j =>
      if j = k || sl.second then s else sramEvent (modSlice s c (fun x => { x with second := true })) c 4 word k

/-- A corrected symbol in bank position k of a word (R47, R49): counted, logged, and held against the threshold. -/
def correctedAt (s : State) (c word k : Nat) : State :=
  let n := mgetD 0 k (coreOf s c).slice.counts + 1
  bankLimit (sramEvent (modSlice s c (fun x => { x with cecnt := satInc 16 x.cecnt, counts := mput k n x.counts })) c 1 word k)
    c word k

/-- An uncorrectable word (R47): its n bad codewords are counted, and the event logged. -/
def uncorrectedAt (s : State) (c word n : Nat) : State :=
  sramEvent (modSlice s c (fun x => { x with uecnt := min 0xFFFF (x.uecnt + n) })) c 2 word 0xFF

/-- Read of the 32-byte word number w of SRAM (R47): its contents, none when it is uncorrectable; every codeword's
correction is logged and counted, the other codeword's too when one is uncorrectable. -/
def readSramWord (s : State) (w : Nat) : Option (List Byte) × State :=
  match mget w s.sramErr with
  | none => (some (memBytes s.mem (32 * w) 32), s)
  | some e =>
    let c := w / 262144
    let (d, ks, n) := readWord (coreOf s c).slice.failed e
    let s := ks.foldl (fun s k => correctedAt s c (w % 262144) k) s
    match d with
    | some d => (some (List.zipWith (· ^^^ ·) (memBytes s.mem (32 * w) 32) d), s)
    | none => (none, uncorrectedAt s c (w % 262144) n)

/-- Read of the 32-byte words [w, w + n) of SRAM (R47): their contents, the first bad word, and the log. -/
def sramWords : Nat → State → Nat → List Byte × Option Nat × State
  | 0, s, _ => ([], none, s)
  | n + 1, s, w =>
    let (bs, s) := readSramWord s w
    let (rest, bad, s) := sramWords n s (w + 1)
    match bs with
    | some bs => (bs ++ rest, bad, s)
    | none => (List.replicate 32 0 ++ rest, some w, s)

/-! HBM placement (R64 to R67) -/

/-- The live list: global numbers in ascending order (R64). -/
def liveList (s : State) : List Nat :=
  (List.range 768).filter (fun g => ((s.hbm.live.toList[g / 64]?).getD 0).getLsbD (g % 64))

/-- The hash value of a key under the current masks (R66). -/
def hashOf (ms mc mp : Word) (k : Nat) : Nat :=
  let on (m : Word) (i : Nat) : Bool := k / 2 ^ i % 2 == 1 && m.getLsbD (32 + i)
  let fold (m : Word) (n : Nat) : Nat :=
    (List.range 32).foldl (fun a i => if on m i then a ^^^ 2 ^ (i % n) else a) 0
  fold ms 4 * 64 + fold mc 5 * 2 + fold mp 1

/-- The pick of index v under H within a count m (R66). -/
def pick (v h m : Nat) : Nat := if v ^^^ h < m then v ^^^ h else v

/-- Pseudo-channel and offset of an HBM offset (R67). -/
def placeHbm (s : State) (h : Nat) : Nat × Nat :=
  let hash := hashOf s.hbm.maskStack s.hbm.maskCh s.hbm.maskPc
  let ll := liveList s
  let n := ll.length
  let r := h / (n * 65536)
  let x := h % (n * 65536)
  let il := mgetD 0 r s.hbm.schemes
  let at_ (j : Nat) : Nat := (ll[j]?).getD 0
  if il ≤ 5 then
    let b := 2 ^ (8 + il)
    let sx := x / b
    let q := sx / n
    (at_ (pick (sx % n) (hash (r * (65536 / b) + q)) n), r * 65536 + q * b + x % b)
  else
    let f := pick (x / 65536) (hash r) n
    if il = 7 then (at_ f, r * 65536 + x % 65536)
    else
      let k := at_ f / 64
      let own := ll.filter (fun g => g / 64 == k)
      let m := own.length
      let a := (ll.filter (fun g => decide (g / 64 < k))).length
      let xs := (f - a) * 65536 + x % 65536
      let sx := xs / 256
      let q := sx / m
      let j := pick (sx % m) (hash (r * 256 + q) % 64) m
      ((own[j]?).getD 0, r * 65536 + q * 256 + x % 256)

/-! Reading and writing physical memory -/

/-- What a read gives: the bytes, and the error response with its cause (R52) and lowest failing address. -/
structure Got where
  bytes : List Byte
  err : Option (Nat × Nat)
  deriving DecidableEq, Repr

/-- Report a pseudo-channel failing (R78, R395). -/
def pcFail (s : State) (g reason : Nat) : State := logEvent s 0 0x22 0 0 0 0 (BitVec.ofNat 64 g) (BitVec.ofNat 64 reason)

/-- A corrected burst, counted against its pseudo-channel, which is reported once in an interval (R78). -/
def burstCorrected (s : State) (h : Nat) : State :=
  let g := (placeHbm s h).1
  let n := mgetD 0 g s.hbm.corrected + 1
  let thresh := wf 15 8 s.hbm.pcerrcfg
  let s := { s with hbm := { s.hbm with corrected := mput g n s.hbm.corrected } }
  if thresh ≠ 0 ∧ thresh ≤ n ∧ !s.hbm.reported.contains g then
    pcFail { s with hbm := { s.hbm with reported := s.hbm.reported ++ [g] } } g 1
  else s

/-- What reading a unit does at its controller (R78): each burst corrected is counted, an uncorrectable one reported. -/
def unitRead (s : State) (size u : Nat) : State :=
  let bursts := unitBursts s size u
  let weak := bursts.filter (fun b => s.hbm.weakBursts.contains b && !s.hbm.badBursts.contains b)
  let s := weak.foldl (fun s b => burstCorrected
    { s with hbm := { s.hbm with weakBursts := s.hbm.weakBursts.filter (· ≠ b) } } (32 * b)) s
  match bursts.find? (fun b => s.hbm.badBursts.contains b) with
  | some b => pcFail s (placeHbm s (32 * b)).1 2
  | none => s

/-- What the merge reads of the device's own writes met is counted and reported (R78). -/
def reportMerges (s : State) : State :=
  s.hbm.unlogged.foldl (fun s x => if x.2 then burstCorrected s x.1 else pcFail s (placeHbm s x.1).1 2)
    { s with hbm := { s.hbm with unlogged := [] } }

/-- Reads of HBM units [u, u + n) of `size` bytes: contents, offset of the first bad unit, state. -/
def hbmUnits (size : Nat) : Nat → State → Nat → List Byte × Option Nat × State
  | 0, s, _ => ([], none, s)
  | n + 1, s, u =>
    let bad := (unitBad s size u).isSome
    let bs := if bad then List.replicate size 0 else memBytes s.mem (hbmBase + u * size) size
    let (rest, bad', s) := hbmUnits size n (unitRead s size u) (u + 1)
    (bs ++ rest, if bad then some (u * size) else bad', s)

/-- Read of n bytes at HBM offset h, frame by frame: each frame has its own COMP (R70, R75). -/
def hbmRead : Nat → State → Nat → Nat → List Byte × Option Nat × State
  | 0, s, _, _ => ([], none, s)
  | f + 1, s, h, n =>
    let k := min n (65536 - h % 65536)
    let size := if (frameOf s h).2 then 128 else 32
    let lo := h / size
    let (bs, bad, s) := hbmUnits size ((h + k + size - 1) / size - lo) s lo
    let mine := (bs.drop (h - size * lo)).take k
    if k = n then (mine, bad, s)
    else
      let (rest, bad', s) := hbmRead f s (h + k) (n - k)
      (mine ++ rest, bad.orElse (fun _ => bad'), s)

/-- The first 64 KiB frame of [pa, pa + n) that has no target or is not live, with the cause of the error response (R17,
R52, R71), at the lowest address of the access that lies in it. -/
def spanError (s : State) (pa n : Nat) : Option (Nat × Nat) :=
  (List.range ((pa + n - 1) / 65536 - pa / 65536 + 1)).findSome? (fun i =>
    let q := max pa ((pa / 65536 + i) * 65536)
    match targetOf s q with
    | .sram _ _ => none
    | .hbm h => if (frameOf s h).1 then none else some (3, q)
    | _ => some (2, q))

/-- Who an access is made for: the die and core it is logged under, die 0 for a requester on the router die, and the
REQ and engine context of its NOTARGET entry (R334, R395). -/
structure Who where
  die : Nat
  core : Nat
  req : Nat := 12
  ctx : Nat := 0xFFFF
  deriving DecidableEq, Repr

/-- Log an access to a physical address with no target (R17, R395). -/
def logNoTarget (s : State) (w : Who) (pa : Nat) (ga : Word) : State :=
  logEvent s w.die 0x21 0 w.core ga (BitVec.ofNat 64 pa) 0 0 w.req w.ctx

/-- An error response for a whole access, with the event that a missing target logs (R17, R51). -/
def spanLog (s : State) (w : Who) (e : Nat × Nat) (ga : Word) : State :=
  if e.1 = 2 then logNoTarget s w e.2 ga else s

/-- Read n bytes at a physical address in SRAM or HBM (R17, R47, R51, R71, R77). Control registers are read by R396. -/
def readPa (s : State) (w : Who) (pa n : Nat) (ga : Word := 0) : Got × State :=
  match spanError s pa n with
  | some e => (⟨List.replicate n 0, some e⟩, spanLog s w e ga)
  | none =>
    if inSram pa then
      let lo := pa / 32
      let (bs, bad, s) := sramWords ((pa + n + 31) / 32 - lo) s lo
      (⟨(bs.drop (pa - 32 * lo)).take n, bad.map (fun b => (1, max pa (32 * b)))⟩, s)
    else
      let (bs, bad, s) := hbmRead (n / 65536 + 2) s (pa - hbmBase) n
      (⟨bs, bad.map (fun b => (1, max pa (hbmBase + b)))⟩, s)

/-- Write the part of `bs` that falls in each 32-byte word of SRAM (R47, R48): a partial write reads and merges; a part
that meets an uncorrectable word is dropped; each part written has its effects. The first refused word. -/
def sramPut : Nat → State → Nat → List Byte → Option Nat × State
  | 0, s, _, _ => (none, s)
  | f + 1, s, pa, bs =>
    if bs.isEmpty then (none, s)
    else
      let w := pa / 32
      let now := bs.take (32 - pa % 32)
      let put (s : State) (m : List Host.Cell) : State :=
        sramEffects { s with mem := memWrite m pa now, sramErr := mdel w s.sramErr } pa now.length
      let (bad, s) :=
        if mget w s.sramErr = none ∨ now.length = 32 then (false, put s s.mem)
        else match readSramWord s w with
          | (some old, s) => (false, put s (memWrite s.mem (32 * w) old))
          | (none, s) => (true, s)
      let (bad', s) := sramPut f s (pa + now.length) (bs.drop (32 - pa % 32))
      (if bad then some w else bad', s)

/-- Write the part of `bs` that falls in each unit of HBM at offset h (R76, R77): a partial write reads and merges, and
its part in a unit that cannot be read is dropped. The address of the first bad burst. -/
def hbmPut : Nat → State → Nat → List Byte → Option Nat × State
  | 0, s, _, _ => (none, s)
  | f + 1, s, h, bs =>
    if bs.isEmpty then (none, s)
    else
      let size := if (frameOf s h).2 then 128 else 32
      let u := h / size
      let now := bs.take (size - h % size)
      let part := now.length ≠ size
      let bad := if part then unitBad s size u else none
      let s := if part then unitRead s size u else s
      let s := match bad with
        | some _ => s
        | none => { s with mem := memWrite s.mem (hbmBase + h) now, hbm := freshBursts s.hbm (u * size / 32) ((u + 1) * size / 32) }
      let (bad', s) := hbmPut f s (h + now.length) (bs.drop (size - h % size))
      (bad.orElse (fun _ => bad'), s)

/-- A write applied at its home in SRAM or HBM, with what it sets off (R17, R48, R71, R77): the error response, if any. -/
def performWrite (s : State) (w : Who) (pa : Nat) (bs : List Byte) (ga : Word := 0) : Option (Nat × Nat) × State :=
  match spanError s pa bs.length with
  | some e => (some e, spanLog s w e ga)
  | none =>
    if inSram pa then
      let (bad, s) := sramPut (bs.length + 1) s pa bs
      (bad.map (fun b => (1, max pa (32 * b))), s)
    else
      let (bad, s) := hbmPut (bs.length + 1) s (pa - hbmBase) bs
      (bad.map (fun b => (1, hbmBase + b)), s)

end Sys2Proof.Machine
end

