-- ==== Sys2Proof/Machine/Detector.lean ====
section
/-! DEFINITION. The race detector (R140 to R148): tags, acquire sets, release records, and the check of an access. -/

namespace Sys2Proof.Machine

/-- The tag after a device reset or a TAGLOSS: no writer, no reader (R141). -/
def Tag.empty : Tag := ⟨0, false, false, 0, 0, 0, 0, 0x7FFF, false, 0, 0, 0, 0, 0, 0, []⟩

/-- The 128 bits of a tag (R141). -/
def tagBits (t : Tag) : Nat :=
  let wid := if t.wk = 1 then b2n t.rel * 2 ^ 29 + b2n t.syn * 2 ^ 28 + t.wid % 2 ^ 15
             else if t.wk = 3 then t.wid % 2 ^ 30 else 0
  let wn := if t.wk = 1 then t.wn % 2 ^ 32
            else if t.wk = 0 then 0 else t.wn % 2 ^ 28 * 16 + (if t.wk = 3 then t.phase % 16 else 0)
  t.wk * 2 ^ 126 + wid * 2 ^ 96 + wn * 2 ^ 64 + (if t.wk = 1 then 0 else t.ectx % 2 ^ 16) * 2 ^ 48
    + t.rid % 2 ^ 15 * 2 ^ 33 + b2n t.shr * 2 ^ 32 + t.rn % 2 ^ 32

/-- The tag of granule g, a physical address div 64; an uncorrectable tag is reset and logged (R50). -/
def tagOf (s : State) (g : Nat) : Tag × State :=
  if s.tagErr.contains g then
    let s := { s with tagErr := s.tagErr.filter (· ≠ g), tags := mdel g s.tags }
    (Tag.empty, sramEvent s (g / 131072) 5 (2 * (g % 131072)) 0xFF)
  else (mgetD Tag.empty g s.tags, s)

/-- The state with a granule's tag set: the tag is written whole, so its code is good again (R50). -/
def setTag (s : State) (g : Nat) (t : Tag) : State :=
  { s with tags := mset Tag.empty g t s.tags, tagErr := s.tagErr.filter (· ≠ g) }

/-- a is later than b on n bits (R145). -/
def later (n a b : Nat) : Bool :=
  let d := (a + 2 ^ n - b % 2 ^ n) % 2 ^ n
  decide (1 ≤ d ∧ d ≤ 2 ^ (n - 1))

/-- Phase p is later than q (R143), on 4 bits; phase q has ended when the current phase is later (R156). -/
def laterPhase (p q : Nat) : Bool := let d := (p + 16 - q % 16) % 16; decide (1 ≤ d ∧ d ≤ 8)

/-- Whether an incoming count of a kind is later than the held one (R143). A group's phase is a plain count. -/
def laterCount (kind a b : Nat) : Bool :=
  match kind with
  | 0 => later 32 a b
  | 1 => later 28 a b
  | 2 => laterPhase a b
  | _ => decide (b < a)

/-- An acquire set with its COARSE bit. -/
abbrev Acq := List AEntry × Bool

/-- Merge an entry (R143). -/
def mergeEntry (q : Acq) (e : AEntry) : Acq :=
  if q.1.any (fun x => x.kind == e.kind && x.id == e.id) then
    (q.1.map (fun x => if x.kind == e.kind && x.id == e.id && laterCount e.kind e.count x.count then e else x), q.2)
  else if q.1.length < 8 then (q.1 ++ [e], q.2)
  else (q.1, true)

/-- Merge a set into a set. -/
def mergeSet (q : Acq) (r : Acq) : Acq := let m := r.1.foldl mergeEntry q; (m.1, m.2 || r.2)

/-- The detector's view of who accesses: a thread, or an operation's issuer with its latched state. -/
structure View where
  job : Nat
  tid : Nat
  scnt : Nat
  startcnt : Nat
  aset : List AEntry
  coarse : Bool
  core : Nat
  jobid : Nat
  frame : Nat
  homes : List (Nat × Nat)
  fences : List (Nat × Nat)
  deriving DecidableEq, Repr

/-- A thread's view. -/
def viewOf (core : Nat) (t : Thread) : View :=
  ⟨t.job, t.det.tid, t.det.scnt, t.det.startcnt, t.det.aset, t.det.coarse, core, t.regs.jobid.toNat, t.frame, t.homes,
    t.det.fences⟩

/-- An issuer's latched view (R146). -/
def issuerView (i : Issuer) : View :=
  ⟨i.job, i.tid, i.scnt, i.startcnt, i.aset, i.coarse, i.core, i.regs.jobid.toNat, i.frame, [], []⟩

/-- Whether a scope named on core c includes core d (R126): 0 core, 1 cluster, 2 die, 3 package, 5 job. -/
def scopeIncludes (scope c d : Nat) (sameJob : Bool) : Bool :=
  match scope with
  | 0 => c == d
  | 1 => clusterId c == clusterId d
  | 2 => coreDie c == coreDie d
  | 5 => sameJob
  | _ => true

/-- An operation of a job is issued to an engine context: the context lies in that job's instance (R126). DESIGN CHOICE (log
entry 85): it stays there until an operation of another job is issued to it. -/
def noteCtxJob (s : State) (ctx : Nat) (r : JobRegs) : State := { s with ctxJobs := mput ctx (wf 15 0 r.jobid) s.ctxJobs }

/-- A group's key in the package's table. -/
def groupKey (job gid : Nat) : Nat := job * 65536 + gid

/-- A group's entry. -/
def groupOf (s : State) (job gid : Nat) : Group := mgetD ⟨0, [], false, [], [], none⟩ (groupKey job gid) s.groups

/-- The number of a member's first arrival at phase k or later, 0 without one (R145). -/
def Member.numberAt (m : Member) (k : Nat) : Nat :=
  match (m.arrivals.filter (fun x => decide (k ≤ x.1))) with
  | [] => 0
  | x :: r => (r.foldl (fun b y => if y.1 < b.1 then y else b) x).2

/-- The arrival number of TID a for phase k of a group (R145): 0 without an arrival at k or later; a leave is an arrival at
every later phase (R137), up to the first phase of a new membership. -/
def arrivalNo (g : Group) (a k : Nat) : Nat :=
  match g.members.find? (fun m => m.tid == a && decide (m.first ≤ k)) with
  | some m => m.numberAt k
  | none =>
    match g.gone.find? (fun m => m.tid == a) with
    | none => 0
    | some m =>
      if m.arrivals.all (fun x => decide (x.1 < k)) then ((m.arrivals.getLast?).map (·.2)).getD 0 else m.numberAt k

/-- Whether TID a was a member of a group at phase k. -/
def memberAt (g : Group) (a k : Nat) : Bool := (g.members ++ g.gone).any (fun m => m.tid == a && decide (m.first ≤ k))

/-- Whether a thread record (A, w) is covered (R145). -/
def coveredThread (s : State) (v : View) (a w : Nat) (rel : Bool) : Bool :=
  (a == v.tid && !later 32 v.startcnt w) || v.coarse ||
  v.aset.any (fun e =>
    (e.kind == 0 && e.id == a && (later 32 e.count w || (rel && e.count == w))) ||
    (e.kind == 3 && (later 32 (arrivalNo (groupOf s v.job e.id) a e.count) w
      || (e.wide && !memberAt (groupOf s v.job e.id) a e.count))))

/-- Whether an engine record is covered (R145). -/
def coveredEngine (v : View) (t : Tag) : Bool :=
  v.coarse || v.aset.any (fun e =>
    (e.kind == 1 && e.id == t.ectx && (e.count % 2 ^ 28 == t.wn % 2 ^ 28 || later 28 e.count t.wn)) ||
    (e.kind == 3 && e.wide) ||
    (t.wk == 3 && e.kind == 2 && e.id == t.wid &&
      (let d := (t.phase + 16 - e.count % 16) % 16; !decide (1 ≤ d ∧ d ≤ 3))))

/-- Whether the recorded writer is covered. -/
def writerCovered (s : State) (v : View) (t : Tag) : Bool :=
  match t.wk with
  | 0 => true
  | 1 => coveredThread s v t.wid t.wn t.rel
  | _ => coveredEngine v t

/-- Whether the recorded reader is covered. -/
def readerCovered (s : State) (v : View) (t : Tag) : Bool := t.rid == 0x7FFF || coveredThread s v t.rid t.rn false

/-- The kinds of checked access (R146). -/
inductive Touch where
  | load | store | syncLoad | syncStore (rel : Bool) (scope : Nat) | engineRead
  | engineWrite (ectx n : Nat) (bar : Option (Nat × Nat))
  deriving DecidableEq, Repr

/-- The cause with which a check fails (R147), if it does. -/
def checkTag (s : State) (v : View) (k : Touch) (t : Tag) : Option Nat :=
  let syncOk := t.wk == 1 && t.syn
  match k with
  | .load | .engineRead => if writerCovered s v t then none else some 1
  | .syncLoad => if syncOk || writerCovered s v t then none else some 1
  | .store | .engineWrite .. =>
    if !writerCovered s v t then some 2 else if !readerCovered s v t then some 3 else none
  | .syncStore .. =>
    if !(syncOk || writerCovered s v t) then some 2 else if !readerCovered s v t then some 3 else none

/-- The tag after an access at cycle `now` (R146). -/
def touchTag (now : Nat) (v : View) (k : Touch) (t : Tag) : Tag :=
  match k with
  | .load => { t with shr := t.shr || (t.rid != 0x7FFF && t.rid != v.tid), rid := v.tid, rn := v.scnt }
  | .syncLoad | .engineRead => t
  | .store => { Tag.empty with wk := 1, wid := v.tid, wn := v.scnt }
  | .syncStore rel scope =>
    { Tag.empty with wk := 1, syn := true, rel := rel, wid := v.tid, wn := v.scnt, wcore := v.core, wscope := scope,
                     wjob := v.jobid, wframe := v.frame, wat := now, wfences := v.fences }
  | .engineWrite ectx n none => { Tag.empty with wk := 2, ectx := ectx, wn := n % 2 ^ 28 }
  | .engineWrite ectx n (some (b, p)) =>
    { Tag.empty with wk := 3, ectx := ectx, wn := n % 2 ^ 28, wid := b / 16 % 2 ^ 30, phase := p }

/-- The memory-model exception of an access to [pa, ..) at generic address ga whose granule g fails (R147): cause,
requester, the addresses at which the access meets that granule, SCNT, COARSE, the whole tag. -/
def raceFault (v : View) (cause req : Nat) (ga : Word) (pa g : Nat) (t : Tag) (ctx : Nat := 0xFFFF) : FaultRec :=
  { cls := 0x09, cause := cause, req := req, ctx := ctx, ga := ga + BitVec.ofNat 64 (64 * g - pa),
    pa := BitVec.ofNat 64 (max pa (64 * g)), qw6 := BitVec.ofNat 64 (tagBits t), qw7 := BitVec.ofNat 64 (tagBits t / 2 ^ 64),
    scnt := v.scnt, coarse := v.coarse }

/-- Granules that the bytes [pa, pa + n) touch. -/
def granules (pa n : Nat) : List Nat := (List.range ((pa + n + 63) / 64 - pa / 64)).map (fun i => pa / 64 + i)

/-- Check every granule of an access to SRAM: the first that fails, with its cause and tag. -/
def checkGranules (v : View) (k : Touch) : List Nat → State → Option (Nat × Nat × Tag) × State
  | [], s => (none, s)
  | g :: r, s =>
    let (t, s) := tagOf s g
    match checkTag s v k t with
    | some c => (some (g, c, t), s)
    | none => checkGranules v k r s

/-- Update the tag of every granule of an access. -/
def touchGranules (s : State) (v : View) (k : Touch) (gs : List Nat) : State :=
  gs.foldl (fun s g => let (t, s) := tagOf s g; setTag s g (touchTag s.now v k t)) s

/-- Clear the tags of the granules of a write that the detector does not follow (R146: Quokor, handlers). -/
def clearTags (s : State) (pa n : Nat) : State := (granules pa n).foldl (fun s g => setTag s g Tag.empty) s

/-! Release records and acquires (R143, R144) -/

/-- The release record of a granule. -/
def recordFor (s : State) (g : Nat) : Option RelRecord :=
  (coreOf s (g / 131072)).slice.records.find? (fun r => r.granule == g)

/-- Store a release record: 256 sets of four ways, least recently written replaced (R144). -/
def storeRecord (s : State) (g : Nat) (aset : List AEntry) (coarse : Bool) : State :=
  let (k, s) := takeStamp s
  modSlice s (g / 131072) (fun sl =>
    let others := sl.records.filter (fun r => r.granule ≠ g)
    let set := others.filter (fun r => r.granule % 256 == g % 256)
    let others := if set.length < 4 then others
      else match set.foldl (fun (b : Option RelRecord) r => match b with
          | none => some r
          | some x => if r.stamp < x.stamp then some r else some x) none with
        | some x => others.filter (fun r => r.granule ≠ x.granule)
        | none => others
    { sl with records := others ++ [⟨g, aset, coarse, k⟩] })

/-- Where a thread was at a cycle, from the cores it has run on; before its start, the first of them (R126, R128). -/
def homeAt (homes : List (Nat × Nat)) (d at_ : Nat) : Nat :=
  match homes.find? (fun h => decide (h.1 ≤ at_)) with
  | some h => h.2
  | none => ((homes.getLast?).map (·.2)).getD d

/-- Where the thread of a frame is now: the core it runs on, or ran on last when it is saved; `d` when it has ended. -/
def homeNow (s : State) (frame tid d : Nat) : Nat :=
  let own (t : Thread) : Bool := t.frame == frame && t.det.tid == tid
  match s.cores.find? (fun k => (k.2.thread.map own).getD false) with
  | some k => k.1
  | none =>
    match mget frame s.saved with
    | some sv => if own sv.thread then homeAt sv.thread.homes d s.now else d
    | none => d

/-- Whether a release at scope `rscope` with tag t and an acquire at `scope` by v include each other (R128): the release's
scope judged when the write was performed, with the acquirer where it was then, the acquire's now, with the releaser where it
is now. -/
def syncs (s : State) (v : View) (scope rscope : Nat) (t : Tag) : Bool :=
  scopeIncludes rscope t.wcore (homeAt v.homes v.core t.wat) (t.wjob == v.jobid)
    && scopeIncludes scope v.core (homeNow s t.wframe t.wid t.wcore) (t.wjob == v.jobid)

/-- The counts of the writer of tag t with which an acquire at `scope` by v synchronises (R128): that of its write, at the
write's scope; else that of a release fence before it, at the fence's. -/
def syncCounts (s : State) (v : View) (scope : Nat) (t : Tag) : List Nat :=
  if syncs s v scope t.wscope t then [t.wn]
  else (t.wfences.filter (fun f => syncs s v scope f.1 t)).map (·.2)

/-- The acquire set after an acquire at `scope` by v that reads a write with tag t in granule g (R143). -/
def acquireFrom (s : State) (v : View) (scope : Nat) (q : Acq) (t : Tag) (g : Nat) : Acq :=
  if t.wk = 1 then
    if t.rel then
      let ns := syncCounts s v scope t
      if ns.isEmpty then q
      else
      let q := ns.foldl (fun q n => mergeEntry q ⟨0, t.wid, n, false⟩) q
      match recordFor s g with
      | some r => mergeSet q (r.aset, r.coarse)
      | none => (q.1, true)
    else (q.1, true)
  else if t.wk = 2 && t.ectx < 0x4000 && t.ectx % 8 == 4 then mergeEntry q ⟨1, t.ectx, t.wn, false⟩
  else q

/-- Any acquire at job scope merges fabric ingress (R143). -/
def acquireScope (q : Acq) (scope : Nat) : Acq := if scope = 5 then mergeEntry q ⟨1, 0x4800, 0, false⟩ else q

/-- A thread with its acquire set replaced. -/
def withAcq (t : Thread) (q : Acq) : Thread := { t with det := { t.det with aset := q.1, coarse := q.2 } }

/-- The acquire set of a thread. -/
def acqOf (t : Thread) : Acq := (t.det.aset, t.det.coarse)

/-- Whether the detector follows a thread's accesses (R146, R336, R345). -/
def tracked (t : Thread) : Bool := !t.handler && !t.replay

/-- The checks and tag updates of one thread access to SRAM bytes [pa, pa + n): the failed check, or the state with
the tags updated and the one-shot bypass consumed (R146, R147, R335). -/
def threadTouch (s : State) (core : Nat) (t : Thread) (k : Touch) (pa n : Nat) (ga : Word) (req : Nat) :
    Except FaultRec State :=
  if t.handler then
    .ok (match k with
      | .store | .syncStore .. => clearTags s pa n
      | _ => s)
  else if t.replay then .ok s
  else
    let gs := granules pa n
    if t.det.bypass then
      .ok (touchGranules (modThread s core (fun t => { t with det := { t.det with bypass := false } })) (viewOf core t) k gs)
    else
      match checkGranules (viewOf core t) k gs s with
      | (some (g, c, tg), _) => .error (raceFault (viewOf core t) c req ga pa g tg)
      | (none, s) => .ok (touchGranules s (viewOf core t) k gs)

/-- The checks and tag updates of an engine operation's access (R146): none for a replay's (R345). -/
def engineTouch (s : State) (i : Issuer) (k : Touch) (pa n : Nat) (ga : Word) (req ctx : Nat) :
    Except FaultRec State :=
  if i.replay then .ok s
  else if i.handler then
    .ok (match k with
      | .engineWrite .. => clearTags s pa n
      | _ => s)
  else
    let gs := granules pa n
    match checkGranules (issuerView i) k gs s with
    | (some (g, c, tg), _) => .error (raceFault (issuerView i) c req ga pa g tg ctx)
    | (none, s) => .ok (touchGranules s (issuerView i) k gs)

end Sys2Proof.Machine
end

