-- ==== Sys2Proof/Machine/Translate.lean ====
section
/-! DEFINITION. Generic addresses (R9 to R15), page-table walks (R18 to R21), the checks of an access (R22) and the
translation caches (R23, R24). -/

namespace Sys2Proof.Machine

/-- Who asks for a translation (R22). -/
inductive Rq where
  | mem | fetch | matrix | copy | fill | fabric | coll
  deriving DecidableEq, Repr

/-- The cache that serves a requester (R23). -/
def Rq.cache : Rq → Nat
  | .fetch => 0
  | .mem => 1
  | .matrix => 2
  | .copy | .fill => 3
  | .fabric | .coll => 4

/-- What an access does, for the checks of R22. -/
inductive Acc where
  | read | write | atomic | fetch
  deriving DecidableEq, Repr

/-- Where an address leads: a physical address of this device or of another, and the leaf it came through, none for
an aperture or a SLOTBOUND offset, with the last entry that the walk to it read. -/
structure Place where
  pa : Nat
  dev : Option (BitVec 16)
  leaf : Option Word
  last : Word
  deriving DecidableEq, Repr, Inhabited

/-- The place of an aperture or SLOTBOUND access: it has no leaf (R22). -/
def Place.direct (pa : Nat) : Place := ⟨pa, none, none, 0⟩

/-- Whether the race detector leaves the access alone (R22, R146). -/
def Place.unchk (p : Place) : Bool :=
  match p.leaf with
  | some l => l.getLsbD 7
  | none => false

/-- The LOCAL window's base (R12). -/
def aplBase (r : JobRegs) : Word := wset 55 55 (wset 54 23 0 (wf 54 23 r.apl)) 1

/-- The CLUSTER window's base (R12). -/
def apcBase (r : JobRegs) : Word := wset 55 55 (wset 54 27 0 (wf 54 27 r.apc)) 1

/-- Whether an address lies in the enabled LOCAL window. -/
def inLocal (r : JobRegs) (va : Word) : Bool := r.apl.getLsbD 0 && va.getLsbD 55 && wf 54 23 va == wf 54 23 r.apl

/-- Whether an address lies in the enabled CLUSTER window. -/
def inCluster (r : JobRegs) (va : Word) : Bool := r.apc.getLsbD 0 && va.getLsbD 55 && wf 54 27 va == wf 54 27 r.apc

/-- The physical address of a CLUSTER offset for a home core (R11). -/
def clusterPa (home off : Nat) : Nat := clusterCore home (off / 0x800000 % 16) * 0x800000 + off % 0x800000

/-- The physical address behind an aperture address (R10, R11). -/
def aperturePa (r : JobRegs) (home : Nat) (va : Word) : Option Nat :=
  if inLocal r va then some (home * 0x800000 + wf 22 0 va)
  else if inCluster r va then some (clusterPa home (wf 26 0 va))
  else none

/-! The walk (R20) -/

/-- Why a walk fails: a cause of R26 with the level and the last entry read, or an error response on a table read. -/
inductive WalkErr where
  | cause (c level : Nat) (entry : Word)
  | data (c pa level : Nat)
  deriving DecidableEq, Repr

/-- What a walk's reads give: an error of `none` while a dredge window holds a read of HBM (R84, R340). -/
abbrev Walked (α : Type) := Except (Option WalkErr) α × State

/-- Who a walk of core c's reads for, in a NOTARGET entry: no row of REQ names the walker (R334). -/
def whoWalk (c : Nat) : Who := { die := coreDie c, core := c }

/-- Read one table entry: tables lie in this device's SRAM or HBM (R20). `prev` is the last entry
read before it. -/
def readEntry (s : State) (core pa n level : Nat) (prev : Word) : Walked Word :=
  if inHbm pa && inWindow s then (.error none, s)
  else if inSram pa || inHbm pa then
    let (g, s) := readPa s (whoWalk core) pa n
    match g.err with
    | some (c, a) => (.error (some (.data c a level)), s)
    | none => (.ok (BitVec.ofNat 64 (leNat g.bytes)), s)
  else (.error (some (.cause 5 level prev)), s)

/-- A pointer entry whose reserved bits are zero (R19). -/
def isPointer (e : Word) : Bool := wf 2 1 e == 0 && wf 63 52 e == 0 && wf 11 3 e == 0

/-- log2 of the page a leaf of a kind names (R19). -/
def leafLog (e : Word) : Nat :=
  match wf 2 1 e with
  | 1 => 16
  | 2 => 21
  | _ => 30

/-- Steps 5 to 8 of R20 on a leaf read at `level`. -/
def finishLeaf (s : State) (core : Nat) (r : JobRegs) (va : Word) (level : Nat) (e : Word) :
    Walked TlbEnt :=
  let log := leafLog e
  if e.getLsbD 63 || wf 49 14 e % 2 ^ (log - 16) ≠ 0 then (.error (some (.cause 5 level e)), s)
  else
    let devx := wf 61 50 e
    let base := va.toNat % 2 ^ 56 / 2 ^ log * 2 ^ log
    let ent (d : BitVec 16) (last : Word) : TlbEnt := ⟨wf 15 0 r.asid, base, log, wf 49 14 e * 65536, devx, d, e, last⟩
    if devx = 0 then
      if e.getLsbD 62 then (.error (some (.cause 0xA level e)), s) else (.ok (ent 0 e), s)
    else
      match readEntry s core (wf 51 14 r.devtab * 16384 + 4 * devx) 4 level e with
      | (.error x, s) => (.error x, s)
      | (.ok d, s) =>
        if !d.getLsbD 31 then (.error (some (.cause 8 level d)), s)
        else if e.getLsbD 62 then (.error (some (.cause 0xA level d)), s)
        else (.ok (ent (d.setWidth 16) d), s)

/-- Step 4 of R20: the level-3 read through a pointer. -/
def walk3 (s : State) (core : Nat) (r : JobRegs) (va : Word) (next : Nat) (p : Word) :
    Walked TlbEnt :=
  if next % 32 ≠ 0 then (.error (some (.cause 5 2 p)), s)
  else
    match readEntry s core (next * 4096 + wf 29 16 va * 8) 8 3 p with
    | (.error x, s) => (.error x, s)
    | (.ok e, s) =>
      if !e.getLsbD 0 then (.error (some (.cause 4 3 e)), s)
      else if wf 2 1 e == 0 || wf 2 1 e == 3 then (.error (some (.cause 5 3 e)), s)
      else finishLeaf s core r va 3 e

/-- Step 3 of R20: the level-2 read. The second result is the pointer it gave, for the walk cache. -/
def walk2 (s : State) (core : Nat) (r : JobRegs) (va : Word) (next : Nat) (p : Word) :
    Walked (TlbEnt × Option Nat) :=
  match readEntry s core (next * 4096 + wf 38 30 va * 8) 8 2 p with
  | (.error x, s) => (.error x, s)
  | (.ok e, s) =>
    if !e.getLsbD 0 then (.error (some (.cause 4 2 e)), s)
    else if wf 2 1 e == 3 then
      match finishLeaf s core r va 2 e with
      | (.ok t, s) => (.ok (t, none), s)
      | (.error x, s) => (.error x, s)
    else if !isPointer e then (.error (some (.cause 5 2 e)), s)
    else
      match walk3 s core r va (wf 51 12 e) e with
      | (.ok t, s) => (.ok (t, some (wf 51 12 e)), s)
      | (.error x, s) => (.error x, s)

/-- The walk cache of a core's cluster: the pointer of a level for an address (R23). -/
def cachedPointer (s : State) (core level : Nat) (asid : Nat) (va : Word) : Option Nat :=
  let tag := if level = 1 then wf 54 39 va else wf 54 30 va
  ((mgetD [] (clusterId core) s.walkCache).find? (fun e => e.asid == asid && e.level == level && e.va == tag)).map (·.next)

/-- Put an entry into a bounded list: a full one loses the entry the free value names (R23 gives no policy). -/
def cachePut {α : Type} (cap k : Nat) (l : List α) (a : α) : List α :=
  if l.length < cap then l ++ [a] else l.eraseIdx (Config.victim k % cap) ++ [a]

/-- Remember a pointer in the walk cache. -/
def rememberPointer (s : State) (core level asid : Nat) (va : Word) (next : Nat) : State :=
  let (k, s) := takeFree s
  let tag := if level = 1 then wf 54 39 va else wf 54 30 va
  let l := (mgetD [] (clusterId core) s.walkCache).filter (fun e => !(e.asid == asid && e.level == level && e.va == tag))
  { s with walkCache := mput (clusterId core) (cachePut 256 k l ⟨asid, level, tag, next⟩) s.walkCache }

/-- A whole walk for core `core` (R20, R23): the translation, or why it fails. -/
def walkTables (s : State) (core : Nat) (r : JobRegs) (va : Word) : Walked TlbEnt :=
  let asid := wf 15 0 r.asid
  if !r.ttbase.getLsbD 0 then (.error (some (.cause 4 0 0)), s)
  else
    match cachedPointer s core 2 asid va with
    | some next => walk3 s core r va next 0
    | none =>
      let second (s : State) (next : Nat) (first : Option Word) : Walked TlbEnt :=
        match walk2 s core r va next (first.getD 0) with
        | (.error x, s) => (.error x, s)
        | (.ok (t, p), s) =>
          let s := if first.isSome then rememberPointer s core 1 asid va next else s
          let s := match p with
            | some q => rememberPointer s core 2 asid va q
            | none => s
          (.ok t, s)
      match cachedPointer s core 1 asid va with
      | some next => second s next none
      | none =>
        match readEntry s core (wf 51 19 r.ttbase * 2 ^ 19 + wf 54 39 va * 8) 8 1 0 with
        | (.error x, s) => (.error x, s)
        | (.ok e, s) =>
          if !e.getLsbD 0 then (.error (some (.cause 4 1 e)), s)
          else if !isPointer e then (.error (some (.cause 5 1 e)), s)
          else second s (wf 51 12 e) (some e)

/-! The translation caches (R23) -/

/-- Entries of a core's cache, of its cluster's TLB. -/
def cacheKey (core cache : Nat) : Nat := core * 8 + cache
def clusterKey (core : Nat) : Nat := 65536 + clusterId core

/-- Sizes of the caches (R23). -/
def cacheSize : Nat → Nat
  | 0 => 16
  | 3 => 128
  | _ => 64

/-- Whether an entry covers an address. -/
def TlbEnt.covers (e : TlbEnt) (asid : Nat) (va : Word) : Bool :=
  e.asid == asid && va.toNat % 2 ^ 56 / 2 ^ e.log * 2 ^ e.log == e.va

/-- The translation a cache holds. -/
def tlbFind (s : State) (key asid : Nat) (va : Word) : Option TlbEnt :=
  (mgetD [] key s.tlbs).find? (fun e => e.covers asid va)

/-- Install a translation in a core's cache and in its cluster's TLB. -/
def tlbInstall (s : State) (core cache : Nat) (e : TlbEnt) : State :=
  let put (s : State) (key cap : Nat) : State :=
    let (k, s) := takeFree s
    { s with tlbs := mput key (cachePut cap k ((mgetD [] key s.tlbs).filter (· ≠ e)) e) s.tlbs }
  put (put s (clusterKey core) 2048) (cacheKey core cache) (cacheSize cache)

/-- The place an entry gives an address. -/
def TlbEnt.place (e : TlbEnt) (va : Word) : Place :=
  ⟨e.pa + va.toNat % 2 ^ e.log, if e.dev = 0 then none else some e.devId, some e.leaf, e.last⟩

/-! The checks of R22 -/

/-- The walk level that a leaf was read at. -/
def leafLevel (l : Word) : Nat := if wf 2 1 l == 3 then 2 else 3

/-- Permission, then class, then liveness (R22): the cause that fails. A control-register frame is reached by no requester
but a privileged memory slot of this device; an HBM page's LIVE counts on whatever device its frame lies. -/
def checkPlace (rq : Rq) (acc : Acc) (priv : Bool) (p : Place) : Option Nat :=
  let perm : Bool :=
    match p.leaf with
    | none => acc != .fetch
    | some l =>
      (match acc with
        | .read => l.getLsbD 3
        | .write => l.getLsbD 4
        | .atomic => l.getLsbD 3 && l.getLsbD 4
        | .fetch => l.getLsbD 5) && (!l.getLsbD 6 || priv)
  let cls : Bool :=
    if p.dev.isSome then !inCtl p.pa &&
      (match rq with
        | .copy | .fill | .fabric | .coll => true
        | _ => false)
    else if inCtl p.pa then rq == .mem && priv && (match p.leaf with | some l => l.getLsbD 6 | none => false)
    else if inHbm p.pa then
      (match rq with
        | .mem | .matrix => false
        | _ => true)
    else true
  if !perm then some 6
  else if !cls then some 7
  else match p.leaf with
    | some l => if (acc == .write || acc == .atomic) && inHbm p.pa && !l.getLsbD 8 then some 9 else none
    | none => none

/-- The fault of a failed check (R26). DESIGN CHOICE (log entry 75): where the translation came from a cache and no walk was
made, the level and the last entry are those of the walk that gave the cached entry. -/
def placeFault (cause req : Nat) (va : Word) (p : Place) (ctx : Nat) : FaultRec :=
  match p.leaf with
  | some l => xlatFault cause req va (leafLevel l) p.last ctx
  | none => xlatFault cause req va 0 0 ctx

/-- The fault of a failed walk (R20, R26). DESIGN CHOICE (log entry 76): QW6 of a walk's data error holds the cause
code of R52 in [7:0] (R332) and the walk level of R20 in [15:8]. -/
def walkFault (e : WalkErr) (req : Nat) (va : Word) (ctx : Nat) : FaultRec :=
  match e with
  | .cause c level entry => xlatFault c req va level entry ctx
  | .data c pa level => { dataFault c req va pa ctx with qw6 := BitVec.ofNat 64 (c + 256 * level) }

/-- The outcome of resolving a generic address. -/
inductive Found where
  | at_ (p : Place)
  | bad (f : FaultRec)
  | miss
  deriving DecidableEq, Repr

/-- Resolve a generic address through a core's cache, apertures taken for `home` (R9 to R11, R14), and check it. -/
def resolve (s : State) (rq : Rq) (core home req ctx : Nat) (r : JobRegs) (priv : Bool) (acc : Acc) (va : Word) :
    Found :=
  if wf 63 56 va ≠ 0 then .bad (xlatFault 1 req va 0 0 ctx)
  else
    let checked (p : Place) : Found :=
      match checkPlace rq acc priv p with
      | some c => .bad (placeFault c req va p ctx)
      | none => .at_ p
    if va.getLsbD 55 then
      match aperturePa r home va with
      | some pa => checked (.direct pa)
      | none => .bad (xlatFault 2 req va 0 0 ctx)
    else if !r.ttbase.getLsbD 0 then .bad (xlatFault 4 req va 0 0 ctx)   -- R18: TEN = 0, whatever a cache holds
    else
      match tlbFind s (cacheKey core rq.cache) (wf 15 0 r.asid) va with
      | some e => checked (e.place va)
      | none => .miss

/-- Resolve without a cache, walking at once: collective contexts and the Quokor cores, which have no cache of their
own (R23). A miss stands for a walk that waits for a dredge window's close (R84). -/
def resolveNow (s : State) (rq : Rq) (home req ctx : Nat) (r : JobRegs) (priv : Bool) (acc : Acc) (va : Word) :
    Found × State :=
  match resolve s rq home home req ctx r priv acc va with
  | .miss =>
    match walkTables s home r va with
    | (.error none, s) => (.miss, s)
    | (.error (some e), s) => (.bad (walkFault e req va ctx), s)
    | (.ok e, s) =>
      let p := e.place va
      match checkPlace rq acc priv p with
      | some c => (.bad (placeFault c req va p ctx), s)
      | none => (.at_ p, s)
  | x => (x, s)

/-- A read through a leaf with LIVE = 0 of an HBM page, of whatever device: answered at the requester with zeros and
NONLIVE (R71). -/
def deadLeaf (p : Place) : Bool :=
  inHbm p.pa && (match p.leaf with
    | some l => !l.getLsbD 8
    | none => false)

/-- A request whose IL or COMP hint differs from the store is counted (R68, R69). -/
def noteHint (s : State) (p : Place) : State :=
  match targetOf s p.pa, p.leaf with
  | .hbm h, some l =>
    if p.dev.isNone && (wf 12 10 l != mgetD 0 (h / (nlive s * 65536)) s.hbm.schemes || l.getLsbD 9 != (frameOf s h).2) then
      { s with hbm := { s.hbm with ilmiss := satInc 32 s.hbm.ilmiss } }
    else s
  | _, _ => s

/-- Read n bytes of this device at a place. -/
def readPlace (s : State) (w : Who) (p : Place) (n : Nat) (va : Word) : Got × State :=
  if deadLeaf p then (⟨List.replicate n 0, some (3, p.pa)⟩, s) else readPa (noteHint s p) w p.pa n va

/-- What a thread's slot gets for a generic address: a place, a precise fault, or a freeze for a walk (R25, R27). -/
def threadPlace (s : State) (t : Thread) (rq : Rq) (req : Nat) (acc : Acc) (va : Word) : Except Attn Place :=
  match resolve s rq s.cur s.cur req 0xFFFF t.regs (privileged t) acc va with
  | .at_ p => .ok p
  | .bad f => .error (.fault f)
  | .miss => .error (.walk rq.cache 0xFFFF va t.regs)

/-- The address operand of a memory slot under the thread's naming mode (R13, R14). -/
def slotPlace (s : State) (t : Thread) (m1 : Bool) (acc : Acc) (a : Word) : Except Attn Place :=
  if t.anm then
    let lim := if m1 then 0x8000000 else 0x800000
    if lim ≤ a.toNat then .error (.fault (xlatFault 3 0 a 0 0))
    else .ok (.direct (if m1 then clusterPa s.cur a.toNat else s.cur * 0x800000 + a.toNat))
  else threadPlace s t .mem 0 acc a

/-- A place that must be SRAM of this device, or CLASS (R22, R153, R256, R263, R310). -/
def sramOnly (p : Place) (va : Word) : Except Attn Place :=
  if p.dev.isNone && inSram p.pa then .ok p else .error (.fault (placeFault 7 0 va p 0xFFFF))

/-! CVTA and APTEST (R15, R260) -/

/-- The slice and offset that a generic address reaches, for membership: none when it reaches no slice; a miss asks
for a walk whose failure counts as non-membership. DESIGN CHOICE (log entry 77): a translation that would fault is one that
the walk refuses; the leaf's R, W and PRIV belong to an access, and CVTA and APTEST make none (R15, R260). -/
def memberPlace (s : State) (t : Thread) (a : Word) : Except Attn (Option Nat) :=
  if wf 63 56 a ≠ 0 then .ok none
  else if a.getLsbD 55 then .ok (aperturePa t.regs s.cur a)
  else if !t.regs.ttbase.getLsbD 0 then .ok none
  else
    match tlbFind s (cacheKey s.cur 1) (wf 15 0 t.regs.asid) a with
    | some e => .ok (if e.dev = 0 && inSram (e.place a).pa then some (e.place a).pa else none)
    | none =>
      if s.walkFails.any (fun w => w.core == s.cur && w.cache == 1 && w.va == a) then .ok none
      else .error (.walk 1 0xFFFE a t.regs)

/-- The slice offset of a LOCAL member (R15). -/
def localOffset (s : State) (t : Thread) (a : Word) : Except Attn (Option Nat) :=
  (memberPlace s t a).map (fun r => match r with
    | some pa => if pa / 0x800000 = s.cur then some (pa % 0x800000) else none
    | none => none)

/-- The CLUSTER offset of a CLUSTER member (R15). -/
def clusterOffset (s : State) (t : Thread) (a : Word) : Except Attn (Option Nat) :=
  (memberPlace s t a).map (fun r => match r with
    | some pa =>
      if coreRow (pa / 0x800000) < 20 ∧ clusterId (pa / 0x800000) = clusterId s.cur then
        some (clusterPos (pa / 0x800000) * 0x800000 + pa % 0x800000)
      else none
    | none => none)

end Sys2Proof.Machine
end

