-- ==== Sys2Proof/Machine/Operands.lean ====
section
/-! DEFINITION. Operand forms: immediates (R231, R235, R251), arrival offsets (R41, R251, R303), the address of a
memory slot (R245), branch targets (R206) and row ranges. -/

namespace Sys2Proof.Machine

/-- A signed immediate extended to 64 bits. -/
def imm {n : Nat} (v : BitVec n) : Word := v.signExtend 64

/-- The address of a scalar access: the register plus DISP units of w bytes, low bits ignored (R245, R251). -/
def scalarAddr (t : Thread) (ra : BitVec 5) (disp : BitVec 9) (w : Nat) : Word :=
  (sreg t ra + imm disp * BitVec.ofNat 64 w) &&& ~~~(BitVec.ofNat 64 (w - 1))

/-- The address of row k of an LDROW or STROW (R253). -/
def rowAddr (t : Thread) (ra rstr : BitVec 5) (k : Nat) : Word :=
  (sreg t ra + BitVec.ofNat 64 k * sreg t rstr) &&& ~~~(31#64)

/-- How a variable-latency result lands: its offset, 0 for a counted request, and whether the mode is fixed. -/
structure Landing where
  off : Nat
  fixed : Bool
  deriving DecidableEq, Repr

/-- An offset taken from a register: bits [63:10] nonzero raise OFFSET; 0 makes the request counted (R41). -/
def regOffset (t : Thread) (r : BitVec 5) : Except Attn Landing :=
  let v := (sreg t r).toNat
  if 1024 ≤ v then .error (schedFault 4) else .ok ⟨v, false⟩

/-- MODE and AT of a scalar load (R251). -/
def loadLanding (t : Thread) (mode : BitVec 2) (at_ : BitVec 10) : Except Attn Landing :=
  match mode.toNat with
  | 0 => .ok ⟨0, false⟩
  | 1 => .ok ⟨at_.toNat, false⟩
  | 2 => regOffset t (at_.setWidth 5)
  | _ => .ok ⟨5, true⟩

/-- MODE and AT of an LDROW (R253). -/
def rowLanding (t : Thread) (mode : BitVec 2) (at_ : BitVec 9) : Except Attn Landing :=
  match mode.toNat with
  | 1 => .ok ⟨at_.toNat, false⟩
  | 2 => regOffset t (at_.setWidth 5)
  | _ => .ok ⟨0, false⟩

/-- ATR and AT of a Q-slot request (R303). -/
def queueLanding (t : Thread) (atr : Bool) (at_ : BitVec 10) : Except Attn Landing :=
  if atr then regOffset t (at_.setWidth 5) else .ok ⟨at_.toNat, false⟩

/-- A bundle index as a branch target: below the current COUNT, or the misaligned-target trap INDEX (R206). -/
def checkIndex (t : Thread) (i : BitVec 6) : Except Attn Unit :=
  if i.toNat < t.q.buf.count then .ok ()
  else .error (.fault (misaligned 2 (BitVec.ofNat 64 i.toNat)))

/-- The scalar value of w bytes, zero- or sign-extended (R251). -/
def extend (w : Nat) (signed : Bool) (v : Nat) : Word :=
  let v := v % 2 ^ (8 * w)
  if signed && decide (2 ^ (8 * w - 1) ≤ v) then BitVec.ofNat 64 v - BitVec.ofNat 64 (2 ^ (8 * w)) else BitVec.ofNat 64 v

/-- A scalar as a row's low bits. -/
def rowOf (w : Word) : Row := w.setWidth 2048

end Sys2Proof.Machine
end

