-- ==== Sys2Proof/Machine/Flags.lean ====
section
/-! DEFINITION. Flag and predicate computations: the conditions of R236 and R275, the merge of R236, FFLAGS (R196). -/

namespace Sys2Proof.Machine

/-- The outcome of a COND of R236 on two registers. -/
def condHolds (cond : Nat) (x y : Word) : Bool :=
  match cond with
  | 0x0 => x == y
  | 0x1 => x != y
  | 0x2 => x.slt y
  | 0x3 => !x.slt y
  | 0x4 => x.ult y
  | 0x5 => !x.ult y
  | 0x6 => x.sle y
  | 0x7 => !x.sle y
  | 0x8 => x.ule y
  | 0x9 => !x.ule y
  | 0xA => x &&& y != 0
  | _ => x &&& y == 0

/-- The conditions marked `.n`, for which CMPI takes IMM8 as unsigned (R236). -/
def condUnsigned (cond : Nat) : Bool := cond == 4 || cond == 5 || cond == 8 || cond == 9

/-- How a comparison reaches its predicate (R236). -/
def condMerge (cm : BitVec 2) (old new : Bool) : Bool :=
  match cm.toNat with
  | 0 => new
  | 1 => old && new
  | _ => old || new

/-- Flags ORed into FFLAGS (R196). -/
def orFlags (t : Thread) (f : BitVec 5) : Thread := { t with c := { t.c with fflags := t.c.fflags ||| f } }

/-- A W1C write of FFLAGS (R196). -/
def clearFlags (t : Thread) (v : Word) : Thread := { t with c := { t.c with fflags := t.c.fflags &&& ~~~(v.setWidth 5) } }

/-- The conditions of VCMP (R275) on decoded elements. -/
def vcond (ty : Nat) (x y : FVal) : Bool :=
  let un := fnan x || fnan y
  match ty with
  | 0 => !un && fcmp x y == .eq
  | 1 => un || fcmp x y != .eq
  | 2 => !un && fcmp x y == .lt
  | 3 => !un && fcmp x y != .gt
  | 4 => !un && fcmp x y == .gt
  | 5 => !un && fcmp x y != .lt
  | 6 => un
  | _ => !un

end Sys2Proof.Machine
end

