-- ==== Sys2Proof/Machine/Ctl.lean ====
section
/-! DEFINITION. Control-register space read (R4, R16, R396): which offsets are assigned, and the value each register
returns. Writes are performed by CONTROL_REGISTER_WRITE. -/

namespace Sys2Proof.Machine

/-! Job-wide registers (R12, R18, R89, R326, R335, R388) -/

/-- Word k of a job entry, in the order of R388 from offset 0x08. -/
def jobWord (r : JobRegs) (k : Nat) : Word :=
  match k with
  | 0 => r.apl
  | 1 => r.apc
  | 2 => r.ttbase
  | 3 => r.asid
  | 4 => r.devtab
  | 5 => r.eddyBase
  | 6 => r.eddyCount
  | 7 => r.eddyJob
  | 8 => r.rwinBase
  | 9 => r.rwinSize
  | 10 => r.priv
  | 11 => r.trapvec
  | 12 => r.jobid
  | _ => 0

/-- The register image with reserved bits zero and hard-wired bits in place (R5). -/
def jobImage (k : Nat) (v : Word) : Word :=
  match k with
  | 0 => (v &&& 0x007FFFFFFF800001) ||| 0x0080000000000000
  | 1 => (v &&& 0x007FFFFFF8000001) ||| 0x0080000000000000
  | 2 => v &&& 0x000FFFFFFFF80001
  | 3 => v &&& 0xFFFF
  | 4 => v &&& 0x000FFFFFFFFFC000
  | 5 => v &&& 0xFFF
  | 6 => v &&& 0xFFF
  | 7 => v &&& 0xFFFF
  | 8 => v &&& 0x00FFFFFFFFFF0000
  | 9 => v &&& 0x000000FFFFFF0000
  | 10 => v &&& 1
  | 11 => v &&& 0x00FFFFFFFFFFFFC1
  | _ => v &&& 0xFFFF

/-- The registers with word k written. -/
def setJobWord (r : JobRegs) (k : Nat) (v : Word) : JobRegs :=
  let v := jobImage k v
  match k with
  | 0 => { r with apl := v }
  | 1 => { r with apc := v }
  | 2 => { r with ttbase := v }
  | 3 => { r with asid := v }
  | 4 => { r with devtab := v }
  | 5 => { r with eddyBase := v }
  | 6 => { r with eddyCount := v }
  | 7 => { r with eddyJob := v }
  | 8 => { r with rwinBase := v }
  | 9 => { r with rwinSize := v }
  | 10 => { r with priv := v }
  | 11 => { r with trapvec := v }
  | 12 => { r with jobid := v }
  | _ => r

/-- An entry of the job table: V and the registers (R388). -/
def jobEntry (s : State) (j : Nat) : Bool × JobRegs := mgetD (false, JobRegs.reset) j s.jobs

/-- The fills and write-backs that are queued or in flight (R53, R57). -/
def probeQueued (p : Probe) : Nat :=
  (p.queue.filter (fun o => !o.done)).length + (p.slots.filter (fun x => x.2.state == 3 && x.2.drop_)).length

/-! Timelines (R142, R160, R53) -/

/-- The counter of an engine context: a channel's, the probe fill engine's, a collective context's. -/
def timelineOf (s : State) (ctx : Nat) : Nat :=
  if ctx < 0x4000 then
    (if ctx % 8 = 5 then (coreOf s (ctx / 8)).probe.tl else if ctx % 8 < 5 then (engineOf s ctx).tl else 0)
  else if ctx < 0x4100 then ((mget (ctx - 0x4000) s.colls).map (·.tl)).getD 0
  else 0

/-- A 64-bit register of fields, each given as its low bit and value. -/
def fieldsWord (fs : List (Nat × Nat)) : Word := BitVec.ofNat 64 ((fs.map (fun f => f.2 * 2 ^ f.1)).sum)

/-- The port p of the router. -/
def portOf (s : State) (p : Nat) : Port := mgetD Port.reset p s.router.ports

/-- Set bits of a lane mask. -/
def laneCount (m : BitVec 8) : Nat := ((List.range 8).filter (fun i => m.getLsbD i)).length

/-- Whether a packet routes as a boardwalk packet: ESC, or a response or management kind (R363). -/
def boardwalks (p : Packet) : Bool := p.esc || decide (0x10 ≤ p.kind.toNat)

/-- BW_CTL.CNTk (R364): packets held in this router whose routing uses the table of parity k. -/
def bwCount (s : State) (tp : Bool) : Nat :=
  (s.router.packets.filter (fun h => boardwalks h.2.pkt && h.2.pkt.tp == tp)).length

/-! The registers, block by block -/

/-- Core c's block (R49, R53, R160). -/
def coreReg (s : State) (c o : Nat) : Option Word :=
  let k := coreOf s c
  match o with
  | 0x200 => some k.probe.cfg
  | 0x208 => some (fieldsWord [(8, min 32 (probeQueued k.probe)), (0, b2n k.probe.cfgerr)])
  | 0x210 => some (BitVec.ofNat 64 k.probe.tl)
  | 0x218 => some (BitVec.ofNat 64 k.probe.no)
  | 0x300 => some k.slice.ecccfg
  | 0x308 => some (fieldsWord [(32, k.slice.uecnt), (16, k.slice.cecnt), (9, b2n k.slice.second),
      (8, b2n k.slice.failed.isSome), (0, k.slice.failed.getD 0)])
  | 0x400 => some (BitVec.ofNat 64 (timelineOf s (8 * c)))
  | 0x408 => some (BitVec.ofNat 64 (timelineOf s (8 * c + 1)))
  | 0x410 => some (BitVec.ofNat 64 (timelineOf s (8 * c + 2)))
  | 0x418 => some (BitVec.ofNat 64 (timelineOf s (8 * c + 3)))
  | 0x420 => some (BitVec.ofNat 64 (timelineOf s (8 * c + 4)))
  | _ => none

/-- The invalidation registers (R32). -/
def tlbiReg (s : State) (o : Nat) : Option Word :=
  match o with
  | 0x1000 => some s.tlbiq.va
  | 0x1008 => some 0
  | 0x1010 => some (fieldsWord [(1, b2n s.tlbiq.ovf), (0, b2n (!s.tlbiq.cmds.isEmpty))])
  | _ => none

/-- The HBM block (R69). -/
def hbmReg (s : State) (o : Nat) : Option Word :=
  let h := s.hbm
  match o with
  | 0x000 => some (fieldsWord [(32, h.gen), (0, nlive s)])
  | 0x008 => some 0
  | 0x010 => some (fieldsWord [(4, h.err), (1, b2n h.ovf), (0, b2n h.busy)])
  | 0x018 => some (fieldsWord [(32, h.ilmiss), (0, h.lost)])
  | 0x020 => some h.maskStack
  | 0x028 => some h.maskCh
  | 0x030 => some h.maskPc
  | 0x038 => some h.pcerrcfg
  | _ => if 0x040 ≤ o ∧ o < 0x0A0 then h.live.toList[(o - 0x040) / 8]? else none

/-- Slots of the ring in a state at their last origin pass (R104). -/
def eddySeen (s : State) (st : Nat) : Nat := (s.eddy.seen.filter (fun x => x.2 == st)).length

/-- The package ring block (R104). -/
def eddyReg (s : State) (o : Nat) : Option Word :=
  match o with
  | 0x000 => some (BitVec.ofNat 64 s.now)
  | 0x008 => some 0
  | 0x010 => some (fieldsWord [(4, s.eddy.err), (1, b2n s.eddy.ovf), (0, b2n s.eddy.cmd.isSome)])
  | 0x018 => some (fieldsWord [(32, s.eddy.cecnt), (0, s.eddy.uecnt)])
  | 0x020 => some (fieldsWord [(16, eddySeen s 2), (0, eddySeen s 1)])
  | _ => none

/-- Whether a subscription counts towards CAP in this cycle (R115). -/
def registered (s : State) (d : TideSub) : Bool := d.reg == 1 || decide (2 ≤ d.reg ∧ d.reg - 2 ≤ s.now)

/-- CAP (R115): the largest rate declared by a registered subscription for the layer being sent. -/
def tideCap (s : State) : Nat :=
  match s.weir.desc with
  | [] => 0
  | d :: _ =>
    let rates := s.cores.filterMap (fun k => k.2.thread.bind (fun t =>
      if registered s t.tide ∧ t.tide.layer = wf 15 0 d ∧ 1 ≤ t.tide.state ∧ t.tide.state ≤ 3 then some t.tide.rate else none))
    rates.foldl max 0

/-- EFF (R115): the larger of SET and CAP. -/
def tideEff (s : State) : Nat := max (min s.weir.set 4) (tideCap s)

/-- The Tide block (R111). -/
def tideReg (s : State) (o : Nat) : Option Word :=
  let w := s.weir
  match o with
  | 0x000 => some w.ctl
  | 0x008 => some w.lpbase
  | 0x010 => some w.nlayer
  | 0x018 => some (fieldsWord [(8, tideEff s), (4, tideCap s), (0, w.set)])
  | 0x020 => some (fieldsWord [(32, w.lap), (16, w.layerix), (0, b2n w.dir)])
  | 0x028 => some (fieldsWord [(32, w.srccnt), (8, w.lperr), (2, b2n w.ovr), (1, b2n w.errstop), (0, b2n w.run)])
  | _ => none

/-- Threads running on die d. -/
def runningOn (s : State) (d : Nat) : Nat :=
  (s.cores.filter (fun k => coreDie k.1 == d && k.2.thread.isSome)).length

/-- The scheduler and fault-queue block of die d (R160, R333, R337). -/
def schedReg (s : State) (d o : Nat) : Option Word :=
  let die := dieOf s d
  match o with
  | 0x000 => some (BitVec.ofNat 64 (b2n die.run))
  | 0x008 => some (fieldsWord [(40, (die.entries.filter (fun e => e.state == 1)).length),
      (20, (die.entries.filter (fun e => decide (2 ≤ e.state))).length), (9, runningOn s d)])
  | 0x010 => some die.spill
  | 0x018 => some die.save
  | 0x020 => some 0
  | 0x040 => some die.fqBase
  | 0x048 => some (BitVec.ofNat 64 die.fqHead)
  | 0x050 => some (BitVec.ofNat 64 die.fqTail)
  | 0x058 => some (fieldsWord [(32, die.fqDrop), (0, min 4095 die.fqHeld.length)])
  | 0x060 => some 0
  | _ => none

/-- The auditor's registers (R343). -/
def auditReg (s : State) (o : Nat) : Option Word :=
  let a := s.auditor
  match o with
  | 0x00 => some a.ctl
  | 0x08 => some a.buf
  | 0x10 => some a.seed
  | 0x18 => some (fieldsWord [(48, a.sampled), (32, a.passed), (16, a.skipped), (0, a.mismatch)])
  | _ => none

/-- The dredge calendar's registers (R339). -/
def dredgeReg (s : State) (o : Nat) : Option Word :=
  match o with
  | 0x00 => some (fieldsWord [(32, 512), (16, 2048), (0, 16)])
  | 0x08 => some (BitVec.ofNat 64 (b2n s.dredge.ovrf))
  | 0x10 => some (fieldsWord [(32, s.dredge.windows), (0, s.dredge.overruns)])
  | _ => none

/-- A port's registers (R357). -/
def portReg (s : State) (p o : Nat) : Option Word :=
  let q := portOf s p
  match o with
  | 0x00 => some q.cfg
  | 0x08 => some (fieldsWord [(32, q.resent), (14, q.mode), (8, laneCount q.rxMask), (0, q.rxMask.toNat)])
  | 0x10 => some (fieldsWord [(48, q.tagfail), (32, q.nakrx), (16, q.uncw), (0, q.drops)])
  | 0x18 => some q.lcfg
  | 0x20 => some (if p < 35 then 0 else q.spill)
  | _ => none

/-- Whether an offset of the router block lies in a route table (R361). -/
def inRouteTable (o : Nat) : Bool :=
  decide (0x10000 ≤ o ∧ o < 0x18440) || decide (0x30000 ≤ o ∧ o < 0x30800) ||
  decide (0x100000 ≤ o ∧ o < 0x184400) || decide (0x200000 ≤ o ∧ o < 0x284400)

/-- The router block (R357, R361, R364, R369, R375). -/
def routerReg (s : State) (o : Nat) : Option Word :=
  let r := s.router
  if o < 44 * 0x100 then portReg s (o / 0x100) (o % 0x100)
  else if inRouteTable o then some (mgetD 0 o r.table)
  else match o with
  | 0x8000 => some (wset 47 32 (wset 31 16 r.bwctl (bwCount s false)) (bwCount s true))
  | 0x8008 => some r.e2e
  | 0x8010 => some 0
  | 0x8018 => some r.keyBlob
  | 0x8020 => some (fieldsWord [(4, r.keyErr), (1, b2n r.keyOvf), (0, b2n r.keyBusy.isSome)])
  | 0x8028 => some (fieldsWord (r.keys.map (fun k => (k.1, 1))))
  | _ => none

/-- The job table (R388): entry j, offset o. Reserved words read zero. -/
def jobReg (s : State) (j o : Nat) : Option Word :=
  if o = 0 then some (BitVec.ofNat 64 (b2n (jobEntry s j).1))
  else some (jobWord (jobEntry s j).2 (o / 8 - 1))

/-- The platform block (R392 to R394). -/
def platReg (s : State) (o : Nat) : Option Word :=
  let p := s.plat
  match o with
  | 0x00 => some p.offer
  | 0x08 => some p.accept
  | 0x10 => some 0
  | 0x18 => some (fieldsWord [(1, b2n p.quoteOvf), (0, b2n p.quoteBusy.isSome)])
  | 0x20 => some (fieldsWord [(32, p.power), (24, p.temp), (17, b2n p.therm), (16, b2n p.capped), (0, p.clk)])
  | 0x28 => some p.cap
  | _ => none

/-- The register at an 8-byte aligned offset of control-register space; none where no register is assigned. -/
def ctlReg (s : State) (o : Nat) : Option Word :=
  if o < 0x2000 then tlbiReg s o
  else match o / 0x1000000 with
  | 0x02 => hbmReg s (o % 0x1000000)
  | 0x03 => eddyReg s (o % 0x1000000)
  | 0x04 => tideReg s (o % 0x1000000)
  | 0x05 => if o % 0x1000000 < 0x40000 then schedReg s (o % 0x1000000 / 0x10000) (o % 0x10000) else none
  | 0x06 => auditReg s (o % 0x1000000)
  | 0x07 => dredgeReg s (o % 0x1000000)
  | 0x08 => routerReg s (o % 0x1000000)
  | 0x09 => if o % 0x1000000 < 0x10000 then jobReg s (o % 0x1000000 / 256) (o % 256) else none
  | 0x0A => platReg s (o % 0x1000000)
  | n =>
    if 0x10 ≤ n ∧ n < 0x18 then
      let c := (o - 0x10000000) / 0x10000
      if coreLive s c then coreReg s c (o % 0x10000) else none
    else none

/-- The 8-byte offsets of control-register space that the bytes [pa, pa + n) cover. -/
def ctlUnits (pa n : Nat) : List Nat := (List.range ((pa % 8 + n + 7) / 8)).map (fun i => pa - ctlBase - pa % 8 + 8 * i)

/-- The first byte of an access to control-register space that has no register (R17). -/
def ctlHole (s : State) (pa n : Nat) : Option Nat :=
  ((ctlUnits pa n).find? (fun o => (ctlReg s o).isNone)).map (fun o => max pa (ctlBase + o))

/-- A load of n bytes from control-register space (R396): the covered bytes of the registers; one unassigned offset makes
the error response, which covers the whole access (R17, R51). -/
def ctlRead (s : State) (w : Who) (pa n : Nat) (ga : Word) : Got × State :=
  match ctlHole s pa n with
  | some a => (⟨List.replicate n 0, some (2, a)⟩, logNoTarget s w a ga)
  | none =>
    let all := (ctlUnits pa n).flatMap (fun o => leBytes 8 ((ctlReg s o).getD 0).toNat)
    (⟨(all.drop (pa % 8)).take n, none⟩, s)

/-- The writes of control registers that storing bytes from pa on makes: one for each 8-byte unit (R396). -/
def ctlWrites (pa : Nat) (bs : List Byte) : List Instr :=
  if bs.length ≤ 8 - pa % 8 then [.controlRegisterWrite pa bs.length (BitVec.ofNat 64 (leNat bs))]
  else (List.range ((bs.length + 7) / 8)).map (fun i =>
    let part := (bs.drop (8 * i)).take 8
    .controlRegisterWrite (pa + 8 * i) part.length (BitVec.ofNat 64 (leNat part)))

/-- A read at any physical address of this device (R16, R17). -/
def readAny (s : State) (w : Who) (pa n : Nat) (ga : Word := 0) : Got × State :=
  if inCtl pa then ctlRead s w pa n ga else readPa s w pa n ga

/-- The unloaded latency of core c's access to control-register space (R36). -/
def ctlLatency (c pa : Nat) : Nat :=
  let o := pa - ctlBase
  let n := o / 0x1000000
  if 0x10 ≤ n ∧ n < 0x18 then
    let t := (o - 0x10000000) / 0x10000
    if t = c then 14 else latency c t
  else 86 + 4 * railDist c

end Sys2Proof.Machine
end

