-- ==== Sys2Proof/Machine/MatrixGeom.lean ====
section
/-! DEFINITION. Where a matrix operation's operands lie (R179, R185 to R189, R287 to R289, R297, R298), and which bytes an
operation in progress has still to read (R294). -/

namespace Sys2Proof.Machine

/-- Element width of a matrix format code (R189). -/
def fmtBits (code : Nat) : Nat :=
  match code with
  | 0 => 32
  | 1 | 2 => 16
  | 9 | 10 => 6
  | 6 | 11 => 4
  | _ => 8

/-- DEB formats (R186). -/
def isDeb (code : Nat) : Bool := code == 5 || code == 6

/-- MX formats (R184). -/
def isMx (code : Nat) : Bool := decide (7 ≤ code ∧ code ≤ 11)

/-- FMT.BF as latched (R194). -/
def XOp.bf (x : XOp) : Nat := wf 7 4 x.fmt

/-- k-steps of one pass (R289). -/
def XOp.K (x : XOp) : Nat := x.b * x.kpb

/-- XMASK.ROWS and COLS (R290). -/
def XOp.rows (x : XOp) : Nat := wf 6 0 x.xmask
def XOp.cols (x : XOp) : Nat := wf 14 8 x.xmask

/-- Whether B comes from the Tide buffer (R298). -/
def XOp.tb (x : XOp) : Bool :=
  match x.i with
  | .mmaTb .. => true
  | _ => false

/-- Whether the operation multiplies: MMA or MMA.TB (R290, R294). -/
def XOp.mma (x : XOp) : Bool :=
  match x.i with
  | .mma .. => true
  | .mmaTb .. => true
  | _ => false

/-- The pass in progress (R299). -/
def XOp.pass (x : XOp) : Nat := x.j / x.b

/-- Start of A row m in pass p, and of B row n (R287, R297). -/
def XOp.aRow (x : XOp) (p m : Nat) : Word :=
  (x.a0 + BitVec.ofNat 64 p * x.inca + BitVec.ofNat 64 m * x.sa) &&& ~~~(15#64)
def XOp.bRow (x : XOp) (p n : Nat) : Word :=
  (x.b0 + BitVec.ofNat 64 p * x.incb + BitVec.ofNat 64 n * x.sb) &&& ~~~(15#64)

/-- Start of A row m's scale plane, and of B row n's (R288, R298). -/
def XOp.aPlane (x : XOp) (p m : Nat) : Word := x.aRow p m + BitVec.ofNat 64 (16 * wf 31 16 x.xscl)
def XOp.bPlane (x : XOp) (p n : Nat) : Word :=
  if x.tb then (x.b0 + BitVec.ofNat 64 (16 * wf 15 0 x.xscl * n) + BitVec.ofNat 64 p * x.incb) &&& ~~~(15#64)
  else x.bRow p n + BitVec.ofNat 64 (16 * wf 15 0 x.xscl)

/-- Bytes [lo, hi) of a row that hold elements k0 to k1 - 1. -/
def elemBytes (code k0 k1 : Nat) : Nat × Nat := (k0 * fmtBits code / 8, (k1 * fmtBits code + 7) / 8)

/-- Bytes [lo, hi) of a scale plane that elements k0 to k1 - 1 use (R288); none for the 16-bit and plain formats. -/
def planeBytes (code k0 k1 : Nat) : Option (Nat × Nat) :=
  if isMx code then some (k0 / 32, (k1 + 31) / 32)
  else if isDeb code then some (16 * (k0 / 256), 16 * ((k1 + 255) / 256))
  else none

/-- One range of operand bytes: address the range is counted from, first and last byte. -/
structure XRange where
  va : Word
  lo : Nat
  hi : Nat
  what : Nat          -- 0 A, 1 B, 2 A scale, 3 B scale
  row : Nat
  deriving DecidableEq, Repr

/-- The ranges that k-steps k0 to k1 - 1 of pass p read (R289). -/
def XOp.ranges (x : XOp) (p k0 k1 : Nat) : List XRange :=
  let a := (List.range x.rows).flatMap (fun m =>
    let (lo, hi) := elemBytes x.af k0 k1
    XRange.mk (x.aRow p m) lo hi 0 m :: (match planeBytes x.af k0 k1 with
      | some (lo, hi) => [XRange.mk (x.aPlane p m) lo hi 2 m]
      | none => []))
  let b := (List.range x.cols).flatMap (fun n =>
    let (lo, hi) := elemBytes x.bf k0 k1
    (if x.tb then [] else [XRange.mk (x.bRow p n) lo hi 1 n]) ++ (match planeBytes x.bf k0 k1 with
      | some (lo, hi) => [XRange.mk (x.bPlane p n) lo hi 3 n]
      | none => []))
  a ++ b

/-- Every range the operation has still to read, from XPROG on (R294). -/
def XOp.unread (x : XOp) : List XRange :=
  if !x.mma then []
  else (List.range (x.np - x.pass)).flatMap (fun i =>
    x.ranges (x.pass + i) (if i = 0 then x.kstep else 0) x.K)

/-- Where a matrix operand read would go now: through the matrix TLB, or, where that holds no translation, through the
tables as the walk of the read will find them (R25, R287); none where it would fault. -/
def operandPlace (s : State) (c : Nat) (t : Thread) (va : Word) : Option Place :=
  match resolve s .matrix c c 2 0xFFFF t.regs (privileged t) .read va with
  | .at_ p => some p
  | .bad _ => none
  | .miss =>
    -- outside a window, so that none holds the reads
    match (walkTables { s with now := 2048 } c t.regs va).1 with
    | .ok e => if (checkPlace .matrix .read (privileged t) (e.place va)).isNone then some (e.place va) else none
    | .error _ => none

/-- Whether bytes [pa, pa + n) overlap bytes that the thread's matrix operation has still to read (R294). -/
def xOverlaps (s : State) (c : Nat) (t : Thread) (pa n : Nat) : Bool :=
  match t.x.xop with
  | none => false
  | some x => x.unread.any (fun r => (operandPlace s c t r.va).any (fun p =>
      decide (p.pa + r.lo < pa + n ∧ pa < p.pa + r.hi)))

end Sys2Proof.Machine
end

