-- ==== Sys2Proof/Machine/Replay.lean ====
section
/-! DEFINITION. Where an auditor's replay reads and writes (R345): snapshots of the input ranges, scratch space for the
output ranges, the replay core's own slice. -/

namespace Sys2Proof.Machine

/-- Where an access of the replay goes. -/
inductive ReplayPlace where
  | own                                  -- the replay core's own slice, as any access
  | input (bs : List Byte)               -- served from the snapshot
  | output (at_ : Nat)                   -- scratch space, keyed by generic address
  | forbidden
  deriving DecidableEq, Repr

/-- Whether [a, a + n) lies in the range of m bytes at b. -/
def inRange (a n b m : Nat) : Bool := decide (b ≤ a ∧ a + n ≤ b + m)

/-- Classify an access of n bytes (R345): an offset of the slice (SLOTBOUND), or a generic address. -/
def replayPlace (s : State) (core : Nat) (r : JobRegs) (anm write : Bool) (pa : Nat) (ga : Word) (n : Nat) :
    ReplayPlace :=
  match s.auditor.replaying with
  | none => .own
  | some x =>
    if anm then (if pa / 0x800000 = core then .own else .forbidden)
    else if inLocal r ga then .own
    else if x.outputs.any (fun o => inRange ga.toNat n o.1.toNat o.2) then .output ga.toNat
    else match x.inputs.find? (fun i => inRange ga.toNat n i.1.toNat i.2.1) with
      | some i => if write then .forbidden else .input ((i.2.2.drop (ga.toNat - i.1.toNat)).take n)
      | none => .forbidden

/-- Bytes of the scratch space; what nothing has written is a free value. -/
def scratchRead (s : State) (a n : Nat) : List Byte :=
  match s.auditor.replaying with
  | none => []
  | some x => (List.range n).map (fun i => match mget (a + i) x.scratch with
      | some b => b
      | none => (Config.undefinedRow (a + i)).setWidth 8)

/-- Write bytes of the scratch space. -/
def scratchWrite (s : State) (a : Nat) (bs : List Byte) : State :=
  match s.auditor.replaying with
  | none => s
  | some x =>
    { s with auditor := { s.auditor with replaying := some { x with
        scratch := bs.zipIdx.foldl (fun m (b : Byte × Nat) => mput (a + b.2) b.1 m) x.scratch } } }

/-- Read n bytes for the replay: `none` where the access is one of this machine's memory. -/
def replayRead (s : State) (core : Nat) (r : JobRegs) (anm : Bool) (pa : Nat) (ga : Word) (n : Nat) :
    Option (Except FaultRec (List Byte)) :=
  match replayPlace s core r anm false pa ga n with
  | .own => none
  | .input bs => some (.ok bs)
  | .output a => some (.ok (scratchRead s a n))
  | .forbidden => some (.error (dataFault 2 11 ga pa))

/-- Write bytes for the replay. -/
def replayWrite (s : State) (core : Nat) (r : JobRegs) (anm : Bool) (pa : Nat) (ga : Word) (bs : List Byte) :
    Option (Except FaultRec State) :=
  match replayPlace s core r anm true pa ga bs.length with
  | .own => none
  | .output a => some (.ok (scratchWrite s a bs))
  | _ => some (.error (dataFault 2 11 ga pa))

end Sys2Proof.Machine
end

