-- ==== Sys2Proof/Machine/Requests.lean ====
section
/-! DEFINITION. Variable-latency requests (R36, R37, R41 to R45, R51, R172, R252): issue, order at the home, arrival of
data, landing, and the fault of a request at its landing point. -/

namespace Sys2Proof.Machine

/-! Order (R37, R124, R127, R252, R294) -/

/-- The home that serves a physical address: a slice, or control-register space. -/
def homeOf (pa : Nat) : Nat := if inSram pa then pa / 0x800000 else 0x100000

/-- Whether an order attribute acquires (R127, R246): `.acq`, `.ar`, `.sc`. -/
def acquires (ord : Nat) : Bool := ord == 1 || ord == 3 || ord == 4

/-- Whether an order attribute releases: `.rel`, `.ar`, `.sc`. -/
def releases (ord : Nat) : Bool := ord == 2 || ord == 3 || ord == 4

/-- Whether every part of a request has been performed. -/
def performed (q : Req) : Bool := q.parts.all (·.done)

/-- Whether every memory operation of the thread before a position has been performed, matrix operand reads
included (R127, R133). -/
def earlierDone (t : Thread) (pos : Nat) : Bool :=
  t.reqs.all (fun q => decide (pos ≤ q.pos) || performed q) &&
  (match t.x.xop with
    | some x => decide (pos ≤ x.pos) || !x.mma
    | none => true)

/-- Whether a request's home event is a write (MEMORY_WRITE_PERFORMED) or a read (REQUEST_DATA_ARRIVAL). -/
def reqWrites : ReqKind → Bool
  | .store _ => true
  | .srow _ => true
  | .alight => true
  | .binit .. => true
  | .barrive _ => true
  | .atom _ _ ret _ _ => !ret
  | _ => false

/-- Whether a part waits in the memory pipe and has not left for its home: a release that is not ready (R127, R252), data
that is not known yet, or bytes that the matrix engine has still to read (R294). -/
def inPipe (s : State) (c : Nat) (t : Thread) (q : Req) (p : Part) : Bool :=
  (releases q.ord && !earlierDone t q.pos) ||
  (reqWrites q.kind && (!p.sent || (match t.x.xop with
    | some x => decide (x.pos < q.pos) && xOverlaps s c t p.pa p.len
    | none => false)))

/-- Whether part x of a request that comes first in program order is served before part p: where their bytes overlap (R124,
R252), and at another core's slice in the order in which the two have left for it (R37). Accesses to the own slice that do
not overlap keep their exact latency (R36). -/
def servedFirst (s : State) (c : Nat) (t : Thread) (r : Req) (x p : Part) : Bool :=
  !x.done && decide (0 < x.len) &&
  (decide (x.pa < p.pa + p.len ∧ p.pa < x.pa + x.len) ||
   (homeOf x.pa == homeOf p.pa && homeOf p.pa != c && decide (x.at_ ≤ p.at_) && !inPipe s c t r x))

/-- Whether a part of a request has to wait at its home (R37, R124, R252, R255, R294). -/
def heldBack (s : State) (c : Nat) (t : Thread) (q : Req) (k : Nat) (p : Part) : Bool :=
  t.reqs.any (fun r => decide (r.pos < q.pos) && !performed r &&
    (acquires r.ord || q.kind == .fence || r.kind == .fence || r.parts.any (fun x => servedFirst s c t r x p))) ||
  (q.parts.take k).any (fun x => servedFirst s c t q x p) ||
  inPipe s c t q p

/-- Whether the matrix engine has an operation in progress that came before a request (R294). -/
def xBefore (t : Thread) (q : Req) : Bool := t.x.xop.any (fun x => x.mma && decide (x.pos < q.pos))

/-- The numbers of the requests that wait for operand reads of the matrix engine (R294): releases, and writes to bytes that it
has still to read; and what waits behind one of them. -/
def xWaiters (s : State) (c : Nat) (t : Thread) : List Nat :=
  t.reqs.foldl (fun held q =>
    let direct := xBefore t q && (releases q.ord || (reqWrites q.kind && q.parts.any (fun p => !p.done && xOverlaps s c t p.pa p.len)))
    let behind := t.reqs.any (fun r => held.contains r.id && decide (r.pos < q.pos) &&
      (acquires r.ord || q.kind == .fence || r.kind == .fence || releases q.ord ||
        r.parts.any (fun x => q.parts.any (fun p => servedFirst s c t r x p))))
    if !performed q && (direct || behind) then q.id :: held else held) []

/-- Whether a FENCE has to freeze the core for earlier operations that satisfy a test (R255, R294). -/
def fenceAwaits (s : State) (c : Nat) (t : Thread) (earlier : Req → Bool) : Bool :=
  let l := t.reqs.filter (fun q => earlier q && !performed q)
  !l.isEmpty && (let w := if t.x.xop.isNone then [] else xWaiters s c t
                 l.any (fun q => !w.contains q.id))

/-! Issue -/

/-- Unloaded latency of core c's access to a physical address (R36). -/
def accessLatency (c pa : Nat) : Nat := if inCtl pa then ctlLatency c pa else latency c (pa / 0x800000)

/-- Latency with what contention adds; the own slice is exact (R36). -/
def loadedLatency (s : State) (c pa : Nat) : Nat × State :=
  if inSram pa && pa / 0x800000 == c then (5, s)
  else let (n, s) := takeFree s; (accessLatency c pa + Config.delay n, s)

/-- The event that brings part k of a request to its home. -/
def partEvent (c : Nat) (q : Req) (k : Nat) : Instr :=
  if reqWrites q.kind then .memoryWritePerformed c q.id k else .requestDataArrival c q.id k

/-- A request whose parts leave from now on, four rows a cycle (R253). -/
def timeParts (now : Nat) (q : Req) : Req := { q with parts := q.parts.map (fun p => { p with at_ := now + p.row / 4 }) }

/-- Schedule every part of a request that has not been performed (R253: four rows a cycle). -/
def launchParts (s : State) (c : Nat) (q : Req) : State :=
  (q.parts.zipIdx).foldl (fun s (pk : Part × Nat) =>
    if pk.1.done || pk.1.len = 0 then s
    else let (l, s) := loadedLatency s c pk.1.pa
         schedule s (l + pk.1.row / 4) (partEvent c q pk.2)) s

/-- The rows that a counted request may write, each with the earliest cycle in which its data can be written (R92, R253, log
entry 78). -/
def countedRows (t : Thread) (c : Nat) (kind : ReqKind) (dest : Dest) (parts : List Part) : List (Nat × Nat) :=
  match kind, dest with
  | .row _, .trow k => parts.map (fun p => (k + p.row, t.x.dc + p.row / 4 + accessLatency c p.pa))
  | .tap, .trow k => [(k, t.x.dc + 7)]
  | _, _ => []

/-- The checks on the landings of a request (R43, R253, R269): each write of a timed or fixed one at its cycle; each row of a
counted one against what is still to be read. -/
def checkLandings (t : Thread) (c : Nat) (q : Req) : Except Attn Unit :=
  match q.due with
  | some d => (reqDests q).foldl (fun (r : Except Attn Unit) x => r.bind (fun _ => checkWrite t x d)) (.ok ())
  | none =>
    if (countedRows t c q.kind q.dest q.parts).any (fun r => tileRead t (.trow r.1) r.2) then .error (schedFault 2) else .ok ()

/-- Issue a request (R41, R43, R44, R172): the checks, the counter or landing slot, and the parts on their way. -/
def issueReq (s : State) (t : Thread) (kind : ReqKind) (cls : Nat) (dest : Dest) (l : Landing) (ord scope : Nat)
    (parts : List Part) : Slot :=
  let counted := l.off == 0
  let q : Req :=
    { id := t.nextReq, kind := kind, cls := cls, dest := dest, due := if counted then none else some (t.x.dc + l.off),
      fixed := l.fixed, timed := !counted && !l.fixed, ord := ord, scope := scope, pos := t.nextReq,
      issued := t.x.dc, parts := parts, fault := none, landed := false }
  if counted && decide (63 ≤ outstanding t cls) then .error (.freeze 5)
  else if q.timed && decide (16 ≤ landingHeld t) then .error (schedFault 3)
  else if q.fixed && decide (64 ≤ inFlight t) then .error (schedFault 6)
  else
    match checkLandings t s.cur q with
    | .error a => .error a
    | .ok _ =>
      let cover := if counted then
          ((reqDests q).filter (fun d => d != .none && d != .preg 0)).map (fun d => (d, cls, q.id)) else []
      let fresh := t.uncov.filter (fun u => !cover.any (fun v => v.1 == u.1))
      let q := timeParts s.now q
      let t := { t with reqs := t.reqs ++ [q], nextReq := t.nextReq + 1, uncov := fresh ++ cover }
      .ok (launchParts (setThread s s.cur t) s.cur q)

/-- One part of an access. -/
def partAt (ga : Word) (p : Place) (len : Nat) (data : Row := 0) (sent : Bool := true) (row off : Nat := 0) : Part :=
  { ga := ga, pa := p.pa, len := len, at_ := 0, unchk := p.unchk, data := data, sent := sent, done := false,
    here := false, row := row, off := off, refused := 0, put := false }

/-! Arrival and landing -/

/-- Change request `id` of core c's thread. -/
def modReq (s : State) (c id : Nat) (f : Req → Req) : State :=
  modThread s c (fun t => { t with reqs := t.reqs.map (fun q => if q.id = id then f q else q) })

/-- Request `id` of core c's thread. -/
def reqOf (s : State) (c id : Nat) : Option Req := (threadOf s c).bind (fun t => t.reqs.find? (fun q => q.id == id))

/-- Change part k of request `id`. -/
def modPart (s : State) (c id k : Nat) (f : Part → Part) : State :=
  modReq s c id (fun q => { q with parts := q.parts.modify k f })

/-- Bytes of the parts of row r put together. -/
def rowData (q : Req) (r : Nat) : Row :=
  (q.parts.filter (fun p => p.row == r)).foldl (fun (a : Row) (p : Part) => a ||| BitVec.shiftLeft p.data (8 * p.off)) 0

/-- The scalar a completed request writes (R251, R254, R93): extended for loads. -/
def reqScalar (q : Req) : Word :=
  match q.kind with
  | .load w sg => extend w sg ((q.parts.head?).elim 0 (fun p => p.data.toNat))
  | .atom _ w _ _ _ => extend w false ((q.parts.head?).elim 0 (fun p => p.data.toNat))
  | _ => BitVec.ofNat 64 ((q.parts.head?).elim 0 (fun p => p.data.toNat))

/-- Whether a request's fault leaves its destination as it was: refused by the detector (R147), or a slot not owned
(R98). -/
def noWrite (q : Req) : Bool :=
  match q.fault with
  | some f => f.cls == 0x09 || f.cls == 0x0B
  | none => false

/-- Whether a row of a request has been written already (R253). -/
def rowPut (q : Req) (r : Nat) : Bool := q.parts.any (fun p => p.row == r && p.put)

/-- Write a request's destination (R42, R44, R253): nothing for an access that was not performed, and no row twice. -/
def landReq (t : Thread) (q : Req) : Thread :=
  if noWrite q then t
  else
    match q.kind, q.dest with
    | .row n, .trow k => ((List.range n).filter (fun r => !rowPut q r)).foldl (fun t r =>
        writeDest t (.trow (k + r)) (rowData q r) fullMask) t
    | _, .sreg r => writeDest t (.sreg r) (rowOf (reqScalar q)) fullMask
    | _, .trow k => writeDest t (.trow k) ((q.parts.head?).elim 0 (·.data)) fullMask
    | _, _ => t

/-- Whether every byte of a request is at the core, or written. -/
def arrived (q : Req) : Bool := if reqWrites q.kind then performed q else q.parts.all (·.here)

/-- A counted request whose data is complete is counted down (R44, R172); a row of an LDROW is written as it
arrives (R253). A request without a fault to raise is then forgotten. -/
def settleReq (s : State) (c id : Nat) : State :=
  match reqOf s c id with
  | none => s
  | some q =>
    if q.due.isSome || !arrived q || q.landed then s
    else
      let s := modThread s c (fun t => landReq t q)
      if q.fault.isSome then modReq s c id (fun q => { q with landed := true })
      else modThread s c (fun t => { t with reqs := t.reqs.filter (fun q => q.id ≠ id) })

/-- A counted LDROW writes each row when its data arrives (R253). -/
def settleRow (s : State) (c id r : Nat) : State :=
  match reqOf s c id with
  | none => s
  | some q =>
    match q.kind, q.dest, q.due with
    | .row _, .trow k, none =>
      if !raced q && !rowPut q r && (q.parts.filter (fun p => p.row == r)).all (·.here) then
        modReq (modThread s c (fun t => writeDest t (.trow (k + r)) (rowData q r) fullMask)) c id
          (fun q => { q with parts := q.parts.map (fun p => if p.row = r then { p with put := true } else p) })
      else s
    | _, _, _ => s

/-- Record a fault of a request: of several, the one with the lowest failing address (R51). -/
def faultReq (s : State) (c id : Nat) (f : FaultRec) : State :=
  modReq s c id (fun q => match q.fault with
    | none => { q with fault := some f }
    | some g => if f.pa.toNat < g.pa.toNat then { q with fault := some f } else q)

/-- The access is not performed (R147): the request completes without effect and its fault waits for the landing
point. It holds no later release tap operation until its exception is raised (DESIGN CHOICE, log entry 93). -/
def refuseReq (s : State) (c id : Nat) (f : FaultRec) : State :=
  settleReq (modReq s c id (fun q =>
    { q with fault := some f, parts := q.parts.map (fun p => { p with done := true, here := true }) })) c id

/-- Part k is performed and its data, if any, is at the core. -/
def finishPart (s : State) (c id k : Nat) (data : Row) : State :=
  match reqOf s c id with
  | none => s
  | some q =>
    let s := modPart s c id k (fun p => { p with data := if reqWrites q.kind then p.data else data, done := true,
                                                 here := true })
    let s := settleRow s c id ((q.parts[k]?).elim 0 (·.row))
    settleReq s c id

/-- Try the part again in the next cycle. -/
def retryPart (s : State) (c : Nat) (q : Req) (k : Nat) : State := schedule s 1 (partEvent c q k)

/-- Give a tap or fabric request its data, d cycles from now (R92, R319). -/
def deliverReq (s : State) (c id : Nat) (data : Row) (d : Nat) (f : Option FaultRec := none) : State :=
  let s := modReq s c id (fun q =>
    { q with fault := f, parts := q.parts.map (fun p => { p with data := data, done := true, sent := true }) })
  schedule s d (.requestDataArrival c id 0)

/-! Landing points (R45, R51, R147, R261) -/

/-- Counted requests that have completed with a fault, in classes that a bound covers. -/
def landingFault (t : Thread) (bounded : Nat → Bool) : Option Req :=
  t.reqs.find? (fun q => q.due.isNone && q.landed && q.fault.isSome && bounded q.cls)

/-- A timed or fixed request that has landed at the current cycle with a fault. -/
def dueFault (t : Thread) : Option Req := t.reqs.find? (fun q => q.due.isSome && q.landed && q.fault.isSome)

/-- Land every timed or fixed request due at the current cycle whose data is at the core (R42). -/
def landDue (t : Thread) : Thread :=
  let due := t.reqs.filter (fun q => !q.landed && arrived q && (match q.due with
    | some d => decide (d ≤ t.x.dc)
    | none => false))
  due.foldl (fun t q =>
    let t := landReq t q
    if q.fault.isSome then { t with reqs := t.reqs.map (fun r => if r.id = q.id then { r with landed := true } else r) }
    else { t with reqs := t.reqs.filter (fun r => r.id ≠ q.id) }) t

/-- Whether a landing due at the current cycle lacks its data (R42, R251). -/
def landingLate (t : Thread) : Bool :=
  t.reqs.any (fun q => !q.landed && !arrived q && (match q.due with
    | some d => decide (d ≤ t.x.dc)
    | none => false))

/-- Put every part that has still to be performed on its way again: after a retry or a restore (R147, R176). -/
def relaunch (s : State) (c : Nat) : State :=
  match threadOf s c with
  | none => s
  | some t =>
    let again (q : Req) : Req := timeParts s.now (if q.landed && q.fault.isNone then { q with landed := false } else q)
    let t := { t with reqs := t.reqs.map again }
    t.reqs.foldl (fun s q =>
      match q.kind with
      | .tap => s
      -- a FATOM that the detector refused leaves for its target anew (R147)
      | .fatom =>
        if q.landed || performed q then s
        else schedule (modReq s c q.id (fun q => { q with parts := q.parts.map (fun p => { p with sent := false }) }))
          (60 + 2 * railDist c) (.requestDataArrival c q.id 0)
      | _ => if q.landed then s else launchParts s c q) (setThread s c t)

/-- A WAIT that bounds a class covers the class's completed requests: their destinations are defined (R44). -/
def coverUncov (t : Thread) (bounded : Nat → Bool) : Thread :=
  { t with uncov := t.uncov.filter (fun u => !(bounded u.2.1) || t.reqs.any (fun q => q.id == u.2.2 && !q.landed)) }

/-! Performing at the home -/

/-- The requester of core c, for the log (R395). -/
def whoCore (c : Nat) : Who := { die := coreDie c, core := c, req := 0 }

/-- What an acquire that reads the granule of pa merges (R143), at the core's thread. -/
def acquireAt (s : State) (c : Nat) (pa : Nat) (unchk : Bool) (scope : Nat) : State :=
  modThread s c (fun t =>
    if !tracked t then t
    else
      let q := acqOf t
      let q := if unchk || !inSram pa then q
        else acquireFrom s (viewOf c t) scope q (tagOf s (pa / 64)).1 (pa / 64)
      withAcq t (acquireScope q scope))

/-- Remember a synchronising read for a later acquire fence (R128, R143); R143 counts those of relaxed atomics, so of the others
one of a tag is enough. -/
def pendRead (s : State) (c pa : Nat) (unchk relaxed : Bool) : State :=
  modThread s c (fun t => if unchk || !tracked t || !inSram pa then t else
    let x := ((tagOf s (pa / 64)).1, pa / 64, relaxed)
    if !relaxed && t.det.pend.contains x then t else { t with det := { t.det with pend := t.det.pend ++ [x] } })

/-- A release at core c's thread: SCNT is incremented before it is performed (R140). -/
def releaseAt (s : State) (c : Nat) : State := modThread s c release

/-- Store the release record of a granule with the writer's acquire set (R144). -/
def recordAt (s : State) (c pa : Nat) (unchk : Bool) : State :=
  match threadOf s c with
  | none => s
  | some t => if unchk || !inSram pa || !tracked t then s else storeRecord s (pa / 64) t.det.aset t.det.coarse

/-- The checks and tag updates of a part of a thread's access; control registers and UNCHK pages have none (R146). -/
def touchAt (s : State) (c : Nat) (k : Touch) (p : Part) : Except FaultRec State :=
  match threadOf s c with
  | none => .ok s
  | some t => if p.unchk || !inSram p.pa then .ok s else threadTouch s c t k p.pa p.len p.ga 0

/-- The error response of an access as a fault (R51, R52). -/
def responseFault (p : Part) (e : Nat × Nat) : FaultRec :=
  dataFault e.1 0 (p.ga + BitVec.ofNat 64 (e.2 - p.pa)) e.2

/-- The new value of an atomic (R254), at a width of w bytes. -/
def atomNew (aop w : Nat) (old x y : Word) : Word :=
  let n := 8 * w
  let cut (v : Word) : Nat := v.toNat % 2 ^ n
  let o := cut old
  let a := cut x
  let r : Nat :=
    match aop with
    | 0 => (o + a) % 2 ^ n
    | 1 => a
    | 2 => if o = a then cut y else o
    | 3 => o &&& a
    | 4 => o ||| a
    | 5 => o ^^^ a
    | 6 => if asInt n true o ≤ asInt n true a then o else a
    | 7 => min o a
    | 8 => if asInt n true a ≤ asInt n true o then o else a
    | _ => max o a
  BitVec.ofNat 64 r

end Sys2Proof.Machine
end

