-- ==== Sys2Proof/Machine/Control.lean ====
section
/-! DEFINITION. The transfers of the S1 slot: branches, calls, loops, END and TRAP (R239 to R244), and entry to a
segment (R165, R203 to R206). -/

namespace Sys2Proof.Machine

/-- The sequencer with the next bundle named (R239). -/
def goTo (t : Thread) (idx : Nat) : Thread := { t with q := { t.q with idx := idx, moved := true } }

/-- A transfer whose bundle is a pre-emption point (R173). -/
def atPoint (t : Thread) : Thread := { t with q := { t.q with point := true } }

/-- The form of a segment address (R9, R206): bits [63:56] raise ADDRFORM, bits [5:0] raise ALIGN. -/
def checkTarget (a : Word) : Except Attn Unit :=
  if wf 63 56 a ≠ 0 then .error (.fault (xlatFault 1 1 a 0 0))
  else if wf 5 0 a ≠ 0 then .error (.fault (misaligned 1 a))
  else .ok ()

/-- The successor that a control line's hint names (R203); 0 for none. -/
def hinted (g : Segment) : Word := if g.hint then g.taken else g.fall

/-- Enter the segment at `target` at bundle j (R165, R205, R240): its expansion must be in the idle half; its entry
checks trap at the transferring bundle. The segment left stays expanded in the half that is now idle, until the prefetch of
the hinted successor, where that is another segment, takes its place (log entry 38); not where it is the target itself, which
its entry has fetched anew (R240), or where a FENCE has issued meanwhile (R207). No segment is entered at address 0
(R204): NOSUCC, the cause of a successor of 0, is DESIGN CHOICE (log entry 79). -/
def enterSegment (s : State) (c : Nat) (t : Thread) (target : Word) (j : Nat) : Slot :=
  if target = 0 then .error (.fault (badSegment 3 0))
  else match t.q.next with
  | none => .error (.expand target)
  | some g =>
    if g.addr ≠ target then .error (.expand target)
    else match g.fetch with
      | some f => .error (.fault f)
      | none =>
        match g.bad with
        | some cause => .error (.fault (badSegment cause target))
        | none =>
          if g.count < j then .error (.fault (misaligned 2 (target + BitVec.ofNat 64 j)))
          else
            let left := if t.q.buf.count = 0 ∨ t.q.fenced ∨ t.q.buf.addr = target then none else some t.q.buf
            let t := atPoint { t with q := { t.q with seg := target, idx := j, buf := g, next := left,
                                                      expanding := none, moved := true, fenced := false } }
            let s := setThread s c t
            .ok (if hinted g = 0 || left.any (fun x => x.addr == hinted g) then s else startExpansion s c (hinted g))

/-- BR (R239, R240). -/
def execBr (g : Guard) (tgt : BitVec 6) (s : State) : Out :=
  runSlot g s (fun t => (checkIndex t tgt).map (fun _ => setThread s s.cur (goTo t tgt.toNat)))

/-- BRX (R239, R240): a TAKEN of 0 raises NOSUCC. -/
def execBrx (g : Guard) (s : State) : Out :=
  runSlot g s (fun t =>
    if t.q.buf.taken = 0 then .error (.fault (badSegment 3 0)) else enterSegment s s.cur t t.q.buf.taken 0)

/-- JMP (R239, R240). -/
def execJmp (g : Guard) (ra : BitVec 5) (s : State) : Out :=
  runSlot g s (fun t =>
    let a := sreg t ra
    (checkTarget a).bind (fun _ => enterSegment s s.cur t a 0))

/-- CALL (R239, R240): the link is the segment address plus the index of the following bundle; latency 1. -/
def execCall (g : Guard) (rd ra : BitVec 5) (s : State) : Out :=
  runSlot g s (fun t =>
    let a := sreg t ra
    let link := t.q.seg + BitVec.ofNat 64 (t.q.idx + 1)
    (checkTarget a).bind (fun _ => (addScalar t rd link 1).bind (fun t => enterSegment s s.cur t a 0)))

/-- RET (R239, R240). -/
def execRet (g : Guard) (ra : BitVec 5) (s : State) : Out :=
  runSlot g s (fun t =>
    let a := sreg t ra
    if wf 63 56 a ≠ 0 then .error (.fault (xlatFault 1 1 a 0 0))
    else enterSegment s s.cur t (a &&& ~~~(63#64)) (wf 5 0 a))

/-- LOOP (R241): the two indexes are checked whatever the count, and before the stack (DESIGN CHOICE, log entry 103). -/
def openLoop (s : State) (t : Thread) (n : Nat) (start exit : BitVec 6) : Slot :=
  (checkIndex t start).bind (fun _ => (checkIndex t exit).bind (fun _ =>
    if n = 0 then .ok (setThread s s.cur (goTo t exit.toNat))
    else if 6 ≤ t.q.loops.length then .error (loopFault 1 t.q.loops.length)
    else
      let t := goTo t start.toNat
      .ok (setThread s s.cur { t with q := { t.q with loops := (start.toNat, n) :: t.q.loops } })))

/-- LOOP with the count in a register (R241). -/
def execLoopReg (g : Guard) (ra : BitVec 5) (start exit : BitVec 6) (s : State) : Out :=
  runSlot g s (fun t => openLoop s t (sreg t ra).toNat start exit)

/-- LOOP with an immediate count (R241). -/
def execLoopImm (g : Guard) (cnt : BitVec 9) (start exit : BitVec 6) (s : State) : Out :=
  runSlot g s (fun t => openLoop s t cnt.toNat start exit)

/-- ENDL (R241): the taken back edge is a pre-emption point (R173). -/
def execEndl (g : Guard) (s : State) : Out :=
  runSlot g s (fun t =>
    match t.q.loops with
    | [] => .error (loopFault 2 0)
    | (start, n) :: rest =>
      if n = 1 then
        let t := goTo t (t.q.idx + 1)
        .ok (setThread s s.cur { t with q := { t.q with loops := rest } })
      else if t.q.buf.count ≤ start then .error (.fault (misaligned 2 (BitVec.ofNat 64 start)))
      else
        let t := atPoint (goTo t start)
        .ok (setThread s s.cur { t with q := { t.q with loops := (start, n - 1) :: rest } }))

/-- BREAK (R241): an empty stack is found before a bad index (DESIGN CHOICE, log entry 103). -/
def execBrk (g : Guard) (tgt : BitVec 6) (s : State) : Out :=
  runSlot g s (fun t =>
    match t.q.loops with
    | [] => .error (loopFault 2 0)
    | _ :: rest =>
      (checkIndex t tgt).map (fun _ =>
        let t := goTo t tgt.toNat
        setThread s s.cur { t with q := { t.q with loops := rest } }))

/-- END (R243): the thread issues no further bundle. It is the landing point of the completed counted requests (R51),
whose faults are raised here. -/
def execEndT (g : Guard) (s : State) : Out :=
  runSlot g s (fun t =>
    match landingFault t (fun _ => true) with
    | some q => .error (.pending 0 q.id)
    | none => .ok (setThread s s.cur { t with phase := .ending, q := { t.q with moved := true } }))

/-- TRAP (R244): the other slots take effect; the saved position is the following bundle. -/
def execTrap (g : Guard) (code : BitVec 16) (s : State) : Out :=
  runSlot g s (fun t => .error (.after (softTrap code.toNat) (t.q.idx + 1)))

end Sys2Proof.Machine
end

