-- ==== Sys2Proof/Machine/Slices.lean ====
section
/-! DEFINITION. Sub-bank arbitration (R35, R39, R40): which requester takes a sub-bank of a slice in a cycle. The requests of
threads are arbitrated part by part, those of the copy channels, the probe fill engine and the prefetch engine piece by piece
(log entry 7). -/

namespace Sys2Proof.Machine

/-- The sub-banks of core c's slice that other requesters have taken in this cycle (R39). -/
def takenBanks (s : State) (c : Nat) : List Nat :=
  if (coreOf s c).slice.takenAt = s.now then (coreOf s c).slice.taken else []

/-- The sub-banks that n bytes of a slice take (R35). -/
def subBanks (pa n : Nat) : List Nat := ((List.range (min 32 ((pa + n + 31) / 32 - pa / 32))).map (fun i => (pa / 32 + i) % 32))

/-- The sub-banks that the exposed accesses of a slice's own core take in this cycle; none while its domain stands. -/
def exposedBanks (s : State) (h : Nat) : List Nat :=
  match threadOf s h with
  | none => []
  | some t =>
    match t.phase with
    | .running | .stalled | .ending => (t.x.used.filter (fun u => u / 32 == t.x.dc)).map (· % 32)
    | _ => []

/-- Whether the own core of a slice has still to say what it takes in this cycle. -/
def coreToCome (s : State) (h : Nat) : Bool :=
  s.todo.any (fun x => match x with
    | .begin_ c | .issue c | .fin c => c == h
    | .ev (.matrixBeat c) => c == h
    | _ => false)

/-- The request and part that an event brings to its home. -/
def eventPart (s : State) : Todo → Option Part
  | .ev (.requestDataArrival c q k) => (reqOf s c q).bind (fun q => q.parts[k]?)
  | .ev (.memoryWritePerformed c q k) => (reqOf s c q).bind (fun q => q.parts[k]?)
  | _ => none

/-- The sub-banks of n bytes, each numbered with its slice; none outside SRAM. -/
def spanBanks (x : Nat × Nat) : List Nat :=
  if inSram x.1 && decide (0 < x.2) then (subBanks x.1 x.2).map (fun b => homeOf x.1 * 32 + b) else []

/-- What an engine's event has been refused: the engine context, a fill or write-back, or an expansion. -/
def eventWait (s : State) : Instr → BankWait
  | .copyRecordProcess ctx | .copyRecordComplete ctx => (engineOf s ctx).bank
  | .fillComplete c n => (((coreOf s c).probe.queue.find? (fun o => o.no == n)).map (·.bank)).getD ⟨0, []⟩
  | .writebackComplete c n => (((coreOf s c).probe.queue.find? (fun o => o.no == n)).map (·.bank)).getD ⟨0, []⟩
  | .segmentExpansionComplete c => (((threadOf s c).bind (·.q.expanding)).map (·.bank)).getD ⟨0, []⟩
  | _ => ⟨0, []⟩

/-- Who has still to be served in this cycle on one of these sub-banks of a slice: for how long it has been refused. -/
def toCome (s : State) (h : Nat) (banks : List Nat) : List Nat :=
  s.todo.filterMap (fun x => match eventPart s x, x with
    | some p, _ =>
      if inSram p.pa && homeOf p.pa == h && !p.done && (subBanks p.pa p.len).any (fun b => banks.contains b) then some p.refused
      else none
    | none, .ev i =>
      let w := eventWait s i
      if banks.any (fun b => w.wants.contains (h * 32 + b)) then some w.refused else none
    | none, _ => none)

/-- What a cycle holds for a requester outside a slice's exposed pipes (R39). -/
inductive Turn where
  | now | later | refused
  deriving DecidableEq, Repr

/-- R39: refused for 16 consecutive cycles, it comes first; else after the slice's own core, and after who has waited
longer. -/
def turn (s : State) (h : Nat) (banks : List Nat) (refused : Nat) : Turn :=
  let taken := takenBanks s h
  if 16 ≤ refused then (if banks.any (fun b => taken.contains b) then .refused else .now)
  else if coreToCome s h || (toCome s h banks).any (fun r => decide (refused < r)) then .later
  else if banks.any (fun b => taken.contains b || (exposedBanks s h).contains b) then .refused
  else .now

/-- The scrubber's turn at a sub-bank (R39): only when no other requester wants it. -/
def scrubTurn (s : State) (h bank : Nat) : Turn :=
  if coreToCome s h || !(toCome s h [bank]).isEmpty then .later
  else if (takenBanks s h).contains bank || (exposedBanks s h).contains bank then .refused
  else .now

/-- A requester takes sub-banks of a slice in this cycle. -/
def takeTurn (s : State) (h : Nat) (banks : List Nat) : State :=
  modCore s h (fun k => { k with slice := { k.slice with takenAt := s.now, taken := takenBanks s h ++ banks } })

/-- The slice and the sub-banks for which part p of a request of core c has to take its turn: another core's, or its own for
an Eddy deposit (R39). -/
def contends (c : Nat) (q : Req) (p : Part) : Option (Nat × List Nat) :=
  if inSram p.pa && decide (0 < p.len) && (homeOf p.pa != c || q.kind == .alight) then
    some (homeOf p.pa, subBanks p.pa p.len)
  else none

/-- Part k of a request takes its turn at its home's sub-banks (R39), and is then performed. -/
def served (s : State) (c : Nat) (q : Req) (k : Nat) (p : Part) (perform : State → State) : State :=
  match contends c q p with
  | none => perform s
  | some (h, banks) =>
    match turn s h banks p.refused with
    | .now => perform (takeTurn s h banks)
    | .later => { s with todo := s.todo ++ [.ev (partEvent c q k)] }
    | .refused => retryPart (modPart s c q.id k (fun p => { p with refused := p.refused + 1 })) c q k

/-! Engines -/

/-- The turn of an engine's piece at every slice whose bytes it reads or writes. -/
def turnAll (s : State) (spans : List (Nat × Nat)) (refused : Nat) : Turn :=
  let ts := (spans.filter (fun x => !(spanBanks x).isEmpty)).map (fun x => turn s (homeOf x.1) (subBanks x.1 x.2) refused)
  if ts.contains .refused then .refused else if ts.contains .later then .later else .now

/-- It takes those sub-banks. -/
def takeTurns (s : State) (spans : List (Nat × Nat)) : State :=
  (spans.filter (fun x => !(spanBanks x).isEmpty)).foldl (fun s x => takeTurn s (homeOf x.1) (subBanks x.1 x.2)) s

/-- An engine's event `ev` whose piece touches these bytes: performed when its turn comes, else looked at again later in the
cycle or in the next (R39). `note` keeps how long it has been refused. -/
def engineServed (s : State) (spans : List (Nat × Nat)) (ev : Instr) (note : State → BankWait → State) (perform : State → State) :
    State :=
  let w := eventWait s ev
  match turnAll s spans w.refused with
  | .now => perform (takeTurns (note s ⟨0, []⟩) spans)
  | .later => { note s ⟨w.refused, spans.flatMap spanBanks⟩ with todo := s.todo ++ [.ev ev] }
  | .refused => schedule (note s ⟨w.refused + 1, spans.flatMap spanBanks⟩) 1 ev

end Sys2Proof.Machine
end

