-- ==== Sys2Proof/Machine/Fetch.lean ====
section
/-! DEFINITION. Segments in memory and their expansion (R165, R202 to R205, R207). -/

namespace Sys2Proof.Machine

/-- The parse of R203 over the remaining bundles: line, offset, the body lines. None when the parse fails. -/
def parseBody : Nat → Nat → Nat → Nat → List Byte → Option (List Bundle)
  | 0, _, line, lines, _ => if line = lines then some [] else none
  | n + 1, o, line, lines, body =>
    let (o, line) := if o = 64 then (0, line + 1) else (o, line)
    if lines < line then none
    else
      let at_ (line o : Nat) : List Byte := (body.drop (64 * (line - 1) + o)).take (64 - o)
      let h := (((at_ line o).head?).elim 0 (·.toNat))
      let (o, line) := if 64 < o + bundleSize h then (0, line + 1) else (o, line)
      if lines < line then none
      else match decodeBundle (at_ line o) with
        | none => none
        | some (b, _) =>
          let h := (((at_ line o).head?).elim 0 (·.toNat))
          (parseBody n (o + bundleSize h) line lines body).map (b :: ·)

/-- A segment that could not be used: the cause of its entry trap, or the fault of its fetch. -/
def Segment.broken (a : Word) (bad : Option Nat) (fetch : Option FaultRec) : Segment :=
  ⟨a, bad, fetch, 0, false, false, 0, 0, []⟩

/-- The segment whose control line and body lines these bytes are (R203 to R205). -/
def parseSegment (a : Word) (bs : List Byte) : Segment :=
  let head := bs.take 64
  let byte (i : Nat) : Nat := ((head[i]?).elim 0 (·.toNat))
  let word (i : Nat) : Word := BitVec.ofNat 64 (leNat ((head.drop i).take 8))
  let count := byte 1
  let lines := byte 2
  let target (w : Word) : Bool := wf 63 56 w == 0 && wf 5 0 w == 0
  if byte 0 ≠ 0xB5 then .broken a (some 1) none
  else if count = 0 ∨ 64 < count ∨ lines = 0 ∨ 63 < lines ∨ 4 ≤ byte 3 then .broken a (some 2) none
  else if !((head.drop 4).take 4).all (· == 0) || !(head.drop 24).all (· == 0) || !target (word 8)
      || !target (word 16) then .broken a (some 2) none
  else match parseBody count 0 1 lines (bs.drop 64) with
    | none => .broken a (some 2) none
    | some bundles =>
      ⟨a, none, none, count, byte 3 % 2 == 1, byte 3 / 2 == 1, word 8, word 16, bundles⟩

/-- What reading one 64-byte line for the loop buffer gives. -/
inductive Line where
  | bytes (bs : List Byte)
  | bad (f : FaultRec)
  | miss
  | held
  deriving DecidableEq, Repr

/-- The requester of a fetch of core c, for the log (R334, R395). -/
def whoFetch (c : Nat) : Who := { die := coreDie c, core := c, req := 1 }

/-- Read one line through the fetch TLB (R22, R51, R165); a dredge window holds a read of HBM (R84, R340). -/
def readLine (s : State) (c : Nat) (t : Thread) (va : Word) : Line × State :=
  match resolve s .fetch c c 1 0xFFFF t.regs (privileged t) .fetch va with
  | .bad f => (.bad f, s)
  | .miss => (.miss, s)
  | .at_ p =>
    if inHbm p.pa && inWindow s then (.held, s)
    else match readPlace s (whoFetch c) p 64 va with
      | (⟨bs, none⟩, s) => (.bytes bs, s)
      | (⟨_, some (e, pa)⟩, s) => (.bad (dataFault e 1 va pa), s)

/-- The lines that a segment's expansion fetches, its control line among them (R165, R203): a control line that R205 refuses
by its first bytes has no body lines, and one bad otherwise is judged after them (DESIGN CHOICE, log entry 104). -/
def segmentLines (ctl : List Byte) : Nat :=
  let byte (i : Nat) : Nat := ((ctl[i]?).elim 0 (·.toNat))
  if byte 0 = 0xB5 ∧ byte 2 ≤ 63 then 1 + byte 2 else 1

/-- Core c's expansion in its next state. -/
def setExpansion (s : State) (c : Nat) (e : Option Expansion) : State :=
  modThread s c (fun t => { t with q := { t.q with expanding := e } })

/-- The segment is expanded in the idle half (R165). -/
def expanded (s : State) (c : Nat) (g : Segment) : State :=
  modThread s c (fun t => { t with q := { t.q with expanding := none, next := some g } })

/-- An expansion's next step comes d cycles from now. -/
def expandAfter (s : State) (c : Nat) (e : Expansion) (d : Nat) : State :=
  schedule (setExpansion s c (some { e with due := s.now + d })) d (.segmentExpansionComplete c)

/-- What contention adds to a line of an expansion: under R164's conditions, for an entry segment in SRAM, at most what the
launch bound leaves. -/
def lineDelay (s : State) (c : Nat) (t : Thread) (pa n : Nat) : Nat :=
  if t.x.dc = 0 then (if inSram pa then launchDelay s (coreDie c) n else Config.delay n) else Config.delay n

/-- Request the expansion's next line at cycle `at_` (R165): it arrives L of R36 later, from SRAM, and what contention, or
the HBM's access time, adds. A fetch-TLB miss makes it wait for a walk (R25). The lines are requested one a cycle: one that
comes after its time has been refused as long. -/
def requestLine (s : State) (c : Nat) (t : Thread) (e : Expansion) (at_ : Nat) : State :=
  let va := e.target + BitVec.ofNat 64 e.bytes.length
  match resolve s .fetch c c 1 0xFFFF t.regs (privileged t) .fetch va with
  | .bad f => expanded s c (.broken e.target none (some f))
  | .miss => startWalk (setExpansion s c (some { e with due := 0 })) c 0 walkFetch va t.regs
  | .at_ p =>
    let (n, s) := takeFree s
    let l := if inSram p.pa then latency c (p.pa / 0x800000) else 0
    let due := at_ + l + lineDelay s c t p.pa n
    expandAfter s c { e with bank := ⟨s.now - due, []⟩ } (due - s.now)

/-- What follows a line's arrival (R165): line j is requested j cycles after the control line's; 4 cycles after the last
the expansion is complete. -/
def nextLine (s : State) (c : Nat) (t : Thread) (e : Expansion) : State :=
  if segmentLines e.bytes ≤ e.bytes.length / 64 then expandAfter s c e 4
  else requestLine s c t e (e.ctlAt + e.bytes.length / 64)

/-- The bytes of physical memory that a line is read from. -/
def lineSpan (s : State) (c : Nat) (t : Thread) (va : Word) : List (Nat × Nat) :=
  match resolve s .fetch c c 1 0xFFFF t.regs (privileged t) .fetch va with
  | .at_ p => [(p.pa, 64)]
  | _ => []

/-- The line of an expansion that is due arrives (R165, R207): it is read when the slice serves it (R39); a window's hold
delays it. -/
def arriveLine (s : State) (c : Nat) (t : Thread) (e : Expansion) : State :=
  let va := e.target + BitVec.ofNat 64 e.bytes.length
  let note (s : State) (w : BankWait) : State :=
    setExpansion s c (some { e with bank := w, due := if e.bank.refused < w.refused then s.now + 1 else e.due })
  engineServed s (lineSpan s c t va) (.segmentExpansionComplete c) note (fun s =>
    match readLine s c t va with
    | (.bytes bs, s) => nextLine s c t { e with ctlAt := if e.bytes.isEmpty then s.now else e.ctlAt, bytes := e.bytes ++ bs }
    | (.bad f, s) => expanded s c (.broken e.target none (some f))
    | (.miss, s) => requestLine s c t e s.now
    | (.held, s) => expandAfter s c { e with bank := ⟨0, []⟩ } 1)

/-- SEGMENT_EXPANSION_COMPLETE (R165): the step of the expansion that is due now, if it has not been given up for another
target: its next line is requested, arrives, or all have arrived and the segment is complete. -/
def execSegmentExpansionComplete (core : Nat) (s : State) : Out :=
  match threadOf s core with
  | none => .next s
  | some t =>
    match t.q.expanding with
    | none => .next s
    | some e =>
      .next (if e.due = 0 then requestLine s core t e s.now
        else if e.due ≠ s.now then s
        else if e.bytes ≠ [] ∧ segmentLines e.bytes ≤ e.bytes.length / 64 then expanded s core (parseSegment e.target e.bytes)
        else arriveLine s core t e)

/-- An expansion that waited for a walk requests its line again (R25); a walk that failed is the fetch's fault (R27). -/
def expansionWalked (s : State) (c : Nat) (fault : Option FaultRec) : State :=
  match (threadOf s c).bind (fun t => t.q.expanding) with
  | some e =>
    if e.due ≠ 0 then s
    else match fault with
      | some f => expanded s c (.broken e.target none (some f))
      | none => schedule s 0 (.segmentExpansionComplete c)
  | none => s

/-- The successor that execution falls through to needs an entry (R205): what the bundle after COUNT - 1 meets. The
trap's saved position is index COUNT of the segment being left. -/
def fallThrough (s : State) (c : Nat) (t : Thread) : Slot :=
  if t.q.buf.fall = 0 then .error (.fault (badSegment 3 0)) else enterSegment s c t t.q.buf.fall 0

end Sys2Proof.Machine
end

