-- ==== Sys2Proof/Machine/Groups.lean ====
section
/-! DEFINITION. Groups and their barriers (R137, R143, R163, R313, R371): membership, arrival, completion of a phase,
departure. -/

namespace Sys2Proof.Machine

/-- A packet with every field zero. -/
def blankPacket : Packet :=
  { dst := 0, src := 0, job := 0, kind := 0, tp := false, dn := false, nm := false, hops := 0, esc := false, int := 0,
    len := 0, tag := 0, sub := 0, addr := 0, aux := 0, data := [] }

/-- Hand a packet to this device's fabric interface: it is sent when a tag is free (R367). -/
def queuePacket (s : State) (p : Packet) (w : Waiter) : State :=
  schedule { s with router := { s.router with waiting := s.router.waiting ++ [({ p with src := s.plat.devid }, w)] } } 1
    .tagReuseReady

/-- The root devices of the groups of a JOBID (R371). -/
def rootsOf (s : State) (jobid : Nat) : List Nat := mgetD [] jobid s.router.rootList

/-- The JOBID of a job-table entry. -/
def jobidOf (s : State) (job : Nat) : Nat := (jobEntry s job).2.jobid.toNat % 65536

/-- A group's root device, if the job spans packages (R371). -/
def groupRoot (s : State) (jobid gid : Nat) : Option Nat :=
  let l := rootsOf s jobid
  if l.isEmpty then none else l[gid % l.length]?

/-- The state with a group's entry changed. -/
def modGroup (s : State) (job gid : Nat) (f : Group → Group) : State :=
  { s with groups := mput (groupKey job gid) (f (groupOf s job gid)) s.groups }

/-! What the router knows of a group (R371, R389): it is one group for all threads of a JOBID -/

/-- The router's local entry of a group. -/
def localOf (s : State) (jobid gid : Nat) : LocalEntry := mgetD ⟨0, false, false, false, []⟩ (groupKey jobid gid) s.router.locals

/-- The state with a local entry changed. -/
def modLocal (s : State) (jobid gid : Nat) (f : LocalEntry → LocalEntry) : State :=
  { s with router := { s.router with locals := mput (groupKey jobid gid) (f (localOf s jobid gid)) s.router.locals } }

/-- The JOBID under which a group's members act: their copies (R388); that of the oldest member, should they differ (log
entry 49). -/
def groupJobid (g : Group) : Option Nat := (g.members.head?).map (·.jobid)

/-- The job-table entries that have members of a group under a JOBID (R389). -/
def entriesOf (s : State) (jobid gid : Nat) : List Nat :=
  (s.groups.filter (fun kv => kv.1 % 65536 == gid && groupJobid kv.2 == some jobid)).map (fun kv => kv.1 / 65536)

/-- A BARARV packet to a group's root (R360, R371): 0 arrive, 1 join, 2 leave. -/
def bararv (root jobid gid sub phase : Nat) : Packet :=
  { blankPacket with
    dst := BitVec.ofNat 16 root, job := BitVec.ofNat 16 jobid, kind := 6, sub := BitVec.ofNat 8 sub,
    aux := BitVec.ofNat 52 (gid + 65536 * (phase % 16)) }

/-- Send a BARARV at the local phase: those of one group go out one by one, each when the one before has been answered (log
entry 49). -/
def sendBararv (s : State) (jobid gid sub : Nat) : State :=
  match groupRoot s jobid gid with
  | none => s
  | some root =>
    let l := localOf s jobid gid
    if l.busy then modLocal s jobid gid (fun l => { l with queue := l.queue ++ [(sub, l.phase)] })
    else queuePacket (modLocal s jobid gid (fun l => { l with busy := true })) (bararv root jobid gid sub l.phase) .group

/-- A BARARV has been answered: the next of its group goes out. -/
def bararvAnswered (s : State) (p : Packet) : State :=
  let jobid := p.job.toNat
  let gid := p.aux.toNat % 65536
  match (localOf s jobid gid).queue, groupRoot s jobid gid with
  | (sub, k) :: r, some root => queuePacket (modLocal s jobid gid (fun l => { l with queue := r })) (bararv root jobid gid sub k) .group
  | _, _ => modLocal s jobid gid (fun l => { l with busy := false, queue := [] })

/-- Whether a member has arrived at phase k. -/
def arrivedAt (k : Nat) (m : Member) : Bool := m.arrivals.any (fun a => decide (k ≤ a.1))

/-- Whether every local member at the current phase has arrived (R313). -/
def phaseReady (g : Group) : Bool :=
  !g.members.isEmpty && (g.members.filter (fun m => decide (m.first ≤ g.phase))).all (arrivedAt g.phase)

/-- The root hears that every local member, of every entry of the JOBID, has arrived (R371, R389). -/
def checkPackage (s : State) (jobid gid : Nat) : State :=
  let l := localOf s jobid gid
  if l.here && !l.sent && (entriesOf s jobid gid).all (fun j => phaseReady (groupOf s j gid)) then
    sendBararv (modLocal s jobid gid (fun l => { l with sent := true })) jobid gid 0
  else s

/-- After an arrival or a leave: the phase completes, or the root hears of it (R313, R371). -/
def checkGroup (s : State) (job gid : Nat) : State :=
  let g := groupOf s job gid
  let jobid := (groupJobid g).getD 0
  if (groupRoot s jobid gid).isSome then checkPackage s jobid gid
  else if !phaseReady g || g.sentTo == some g.phase then s
  else
    let s := modGroup s job gid (fun g => { g with sentTo := some g.phase })
    let (n, s) := takeFree s
    schedule s (1 + Config.delay n) (.groupPhaseComplete job gid)

/-- The current phase of a group ends here (R313): WIDE is recorded for its departures (R143). -/
def endPhase (s : State) (job gid : Nat) : State :=
  modGroup s job gid (fun g =>
    -- a leave is an arrival at every later phase (R137)
    let wide := g.members.any (fun m => m.wide && (m.arrivals.getLast?).any (fun a => a.1 == g.phase)) || g.gone.any (·.wide)
    { g with phase := g.phase + 1, sentTo := none, wideDone := ((g.phase, wide) :: g.wideDone).take 4 })

/-- The phase of a group within the package ends; the next may be complete already. -/
def completePhase (s : State) (job gid : Nat) : State := checkGroup (endPhase s job gid) job gid

/-- The phase of a group that spans packages ends here, for the members of every entry of the JOBID (R371, R389). -/
def packagePhase (s : State) (jobid gid : Nat) : State :=
  let s := modLocal s jobid gid (fun l => { l with phase := l.phase + 1, sent := false })
  checkPackage ((entriesOf s jobid gid).foldl (fun s j => endPhase s j gid) s) jobid gid

/-- GROUP_PHASE_COMPLETE (R313). -/
def execGroupPhaseComplete (job gid : Nat) (s : State) : Out := .next (completePhase s job gid)

/-- Record an arrival at the group (R145): its phase and release number. -/
def arriveGroup (s : State) (job gid tid phase scnt : Nat) (wide : Bool) : State :=
  let s := modGroup s job gid (fun g => { g with members := g.members.map (fun m =>
    if m.tid = tid then { m with wide := wide, arrivals := (m.arrivals ++ [(phase, scnt)]).drop (m.arrivals.length - 1) }
    else m) })
  checkGroup s job gid

/-- A member leaves (R137): its leave counts as its arrival at every later phase. A membership that the thread has begun
since stands behind the one that ends, and stays. With its last member the package leaves the group (R371). -/
def leaveGroup (s : State) (job gid tid scnt : Nat) (wide : Bool) : State :=
  let g := groupOf s job gid
  let jobid := (groupJobid g).getD 0
  let mine := (g.members.find? (fun m => m.tid == tid)).toList
  let rest := g.members.eraseP (fun m => m.tid == tid)
  let gone := mine.map (fun m => { m with
    wide := wide, arrivals := (m.arrivals ++ [(g.phase, scnt)]).drop (m.arrivals.length - 1) })
  let s := modGroup s job gid (fun g => { g with members := rest, gone := gone ++ g.gone.filter (fun m => m.tid != tid) })
  if (localOf s jobid gid).here && (entriesOf s jobid gid).isEmpty then
    modLocal (sendBararv s jobid gid 2) jobid gid (fun l => { l with here := false })
  else if rest.isEmpty then checkPackage s jobid gid
  else checkGroup s job gid

/-- Groups of a job that have members (R313, R371). -/
def groupsHeld (s : State) (job : Nat) : Nat :=
  (s.groups.filter (fun kv => kv.1 / 65536 == job && !kv.2.members.isEmpty)).length

/-- Whether the device has no router entry left for one more group of a job that spans packages (R371): a local entry, and a
root entry where it is the group's root. -/
def routerFull (s : State) (jobid gid : Nat) : Bool :=
  match groupRoot s jobid gid with
  | none => false
  | some root =>
    decide (4096 ≤ (s.router.locals.filter (fun kv => kv.2.here)).length) ||
      (root == s.plat.devid.toNat && (mget (groupKey jobid gid) s.router.roots).isNone && decide (4096 ≤ s.router.roots.length))

/-- A package's first local member registers it at the root (R371): its number for the phase it takes part in first is the
next. -/
def registerPackage (s : State) (jobid gid : Nat) : State :=
  if (groupRoot s jobid gid).isNone || (localOf s jobid gid).here then s
  else sendBararv (modLocal s jobid gid (fun l => { l with phase := l.phase + 1, here := true, sent := false })) jobid gid 1

/-- A thread's membership of a group. -/
def membership (t : Thread) (gid : Nat) : Option Membership := t.groups.find? (fun m => m.gid == gid)

/-- Change a thread's membership. -/
def modMembership (t : Thread) (gid : Nat) (f : Membership → Membership) : Thread :=
  { t with groups := modWhere (fun m => m.gid == gid) f t.groups }

/-- Departure from a completed phase (R143, R313): an acquire at job scope. -/
def departGroup (s : State) (t : Thread) (m : Membership) : Thread :=
  let t := modMembership t m.gid (fun m => { m with pending := false, here := false })
  if !tracked t then t
  else
    let wide := (groupOf s t.job m.gid).wideDone.any (fun x => x.1 == m.arrival && x.2)
    withAcq t (acquireScope ([⟨3, m.gid, m.arrival, wide⟩], false) 5)

/-- Whether the phase of the thread's latest arrival has completed. -/
def phaseOver (s : State) (t : Thread) (m : Membership) : Bool := decide (m.arrival < (groupOf s t.job m.gid).phase)

/-- The phase at which a thread arrives next (R313): the group's, or the first it is a member at. -/
def nextArrival (s : State) (t : Thread) (gid : Nat) : Nat :=
  let g := groupOf s t.job gid
  match g.members.reverse.find? (fun m => m.tid == t.det.tid) with
  | some m => max g.phase m.first
  | none => g.phase

/-- A request without bytes: a release on its way to be performed (R127). -/
def marker : Part :=
  { ga := 0, pa := 0, len := 0, at_ := 0, unchk := true, data := 0, sent := true, done := false, here := false, row := 0,
    off := 0, refused := 0, put := false }

/-- Issue a release that is performed once every earlier operation of the thread has been (R127). -/
def issueMarker (s : State) (t : Thread) (k : ReqKind) (scope : Nat) : Slot :=
  (issueReq s t k 0 .none ⟨0, false⟩ 3 scope [marker]).map
    (fun s => schedule s 1 (.requestDataArrival s.cur t.nextReq 0))

/-- Arrive at the thread's current phase (R313): the arrival counts when its release is performed. -/
def beginArrival (s : State) (t : Thread) (gid : Nat) (waits : Bool) : Slot :=
  let k := nextArrival s t gid
  issueMarker s (modMembership t gid (fun m => { m with arrival := k, pending := true, here := waits })) (.garrive gid) 5

/-- A GBAR that stalls has made its arrival (R313): the previous one departs first. -/
def gbarArrives (s : State) (c : Nat) (i : Instr) : State :=
  match i, threadOf s c with
  | .gbar g rg mode _, some t =>
    let gid := wf 15 0 (sreg t rg)
    match membership t gid with
    | some m =>
      if mode ≠ 0 || !guardTrue t g || m.here || (m.pending && !phaseOver s t m) then s
      else
        let t := if m.pending then departGroup s t m else t
        match beginArrival { s with cur := c } t gid true with
        | .ok s' => s'
        | .error _ => s
    | none => s
  | _, _ => s

/-- The synchronisation fault of a group instruction (R314). -/
def groupFault (cause gid : Nat) : Attn := .fault (syncFault cause (BitVec.ofNat 64 gid))

/-- GJOIN (R313, R371): a member from the group's next phase. -/
def execGjoin (g : Guard) (rg : BitVec 5) (s : State) : Out :=
  runSlot g s (fun t =>
    let gid := wf 15 0 (sreg t rg)
    let gr := groupOf s t.job gid
    let jobid := wf 15 0 t.regs.jobid
    let here := (localOf s jobid gid).here
    if (membership t gid).isSome then .error (groupFault 5 gid)
    else if 8 ≤ t.groups.length then .error (groupFault 6 gid)
    else if gr.members.isEmpty &&
        (decide (4096 ≤ groupsHeld s t.job) || (!here && routerFull s jobid gid)) then .error (groupFault 7 gid)
    else
      let first := gr.phase + 1
      let s := modGroup s t.job gid (fun g =>
        -- without members the phase is over; but not where another entry of the JOBID has some (R389)
        { g with phase := if g.members.isEmpty && !here then first else g.phase,
                 sentTo := if g.members.isEmpty then none else g.sentTo,
                 members := g.members ++ [⟨t.frame, t.det.tid, first, false, false, [], jobid⟩] })
      let s := registerPackage s jobid gid
      .ok (setThread s s.cur { t with groups := t.groups ++ [⟨gid, 0, false, false⟩] }))

/-- GLEAVE (R313): a release at job scope that ends the membership. -/
def execGleave (g : Guard) (rg : BitVec 5) (s : State) : Out :=
  runSlot g s (fun t =>
    let gid := wf 15 0 (sreg t rg)
    match membership t gid with
    | none => .error (groupFault 4 gid)
    | some _ => issueMarker s { t with groups := t.groups.filter (fun m => m.gid != gid) } (.gleave gid) 5)

/-- GBAR (R313): arrive and wait; arrive; or test the latest arrival's phase. -/
def execGbar (g : Guard) (rg : BitVec 5) (mode : BitVec 2) (pd : BitVec 3) (s : State) : Out :=
  runSlot g s (fun t =>
    let gid := wf 15 0 (sreg t rg)
    match membership t gid with
    | none => .error (groupFault 4 gid)
    | some m =>
      let ended := phaseOver s t m
      match mode.toNat with
      | 0 => if m.here && ended then .ok (setThread s s.cur (departGroup s t m)) else .error .stall
      | 1 =>
        if m.pending && !ended then .error .stall
        else beginArrival s (if m.pending then departGroup s t m else t) gid false
      | _ =>
        if !m.pending then putPred s t pd true 2
        else if ended then putPred s (departGroup s t m) pd true 2
        else putPred s t pd false 2)

/-- An arrival's release is performed (R137, R140): SCNT is incremented and the arrival is recorded. -/
def performArrival (s : State) (c gid : Nat) : State :=
  let s := releaseAt s c
  match threadOf s c with
  | none => s
  | some t =>
    match membership t gid with
    | none => s
    | some m => arriveGroup s t.job gid t.det.tid m.arrival t.det.scnt (!t.det.aset.isEmpty || t.det.coarse)

/-- A leave's release is performed. -/
def performLeave (s : State) (c gid : Nat) : State :=
  let s := releaseAt s c
  match threadOf s c with
  | none => s
  | some t => leaveGroup s t.job gid t.det.tid t.det.scnt (!t.det.aset.isEmpty || t.det.coarse)

end Sys2Proof.Machine
end

