-- ==== Sys2Proof/Machine/CoreCycle.lean ====
section
/-! DEFINITION. A core's cycle (R2, R40, R161, R165 to R174, R261): the domain's advance, freezes and stalls, the issue of
a bundle, the nullifier, held repeats, pre-emption points, and the events that belong to them. -/

namespace Sys2Proof.Machine

/-! Control registers in their shadow (R195, R196, R290, R325) -/

/-- ROWS or COLS as stored (R290): 0 or above 64 stores 64. -/
def maskCount (n : Nat) : Nat := if n = 0 ∨ 64 < n then 64 else n

/-- FMT with the fields that MSK selects taken from IMG (R324). -/
def setFields (fmt : Word) (msk : Nat) (img : Word) : Word :=
  let m : Word := BitVec.ofNat 64 (msk % 2 * 0xF + msk / 2 % 2 * 0xF0 + msk / 4 % 2 * 0xF00 + msk / 8 % 2 * 0x70000
    + msk / 16 % 2 * 0x80000)
  (fmt &&& ~~~m) ||| (img &&& m)

/-- The place of a job-wide control register in the job entry (R325, R388). -/
def crJobWord (cr : Nat) : Option Nat :=
  match cr with
  | 0x03 => some 10
  | 0x20 => some 0
  | 0x21 => some 1
  | 0x22 => some 2
  | 0x23 => some 3
  | 0x24 => some 4
  | 0x28 => some 5
  | 0x29 => some 6
  | 0x2A => some 7
  | 0x2C => some 8
  | 0x2D => some 9
  | 0x30 => some 11
  | _ => none

/-- A control-register write that takes effect: the register's value as stored. -/
def applyCtl (s : State) (t : Thread) (w : CtlWrite) : Thread :=
  match w.reg with
  | 0x10 =>
    let v := w.val &&& 0xF0FFF
    { t with c := { t.c with fmt := if 4 < wf 18 16 v then wset 18 16 v 0 else v } }
  | 0x11 => clearFlags t w.val
  | 0x12 => { t with c := { t.c with nbv := if s.plat.accept.getLsbD 0 then w.val &&& 1 else 0 } }
  | 0x13 =>
    { t with c := { t.c with xmask := wset 14 8 (wset 6 0 (w.val &&& 0x17F7F) (maskCount (wf 6 0 w.val)))
                                               (maskCount (wf 14 8 w.val)) } }
  | 0x14 => { t with c := { t.c with xscl := w.val &&& 0xFFFFFFFF } }
  | r =>
    -- SETFMT, as 0x1000 plus its MSK
    if 0x1000 ≤ r then { t with c := { t.c with fmt := setFields t.c.fmt (r - 0x1000) w.val } }
    else match crJobWord r with
    | some k => { t with regs := setJobWord t.regs k w.val }
    | none => t

/-- Every control-register write due by the current cycle, in issue order. -/
def applyCtls (s : State) (t : Thread) : Thread :=
  let due := t.x.ctl.filter (fun w => decide (w.due ≤ t.x.dc))
  due.foldl (applyCtl s) { t with x := { t.x with ctl := t.x.ctl.filter (fun w => decide (t.x.dc < w.due)) } }

/-! The events of the domain's cycle -/

/-- RESULT_WRITE (R166, R196): every exposed result due is written, and its flags are ORed into FFLAGS. -/
def execResultWrite (core : Nat) (s : State) : Out :=
  .next (modThread s core (fun t =>
    let due := t.x.inflight.filter (fun r => decide (r.due ≤ t.x.dc))
    due.foldl (fun t r => orFlags (writeDest t r.dest r.val r.mask) r.flags)
      { t with x := { t.x with inflight := t.x.inflight.filter (fun r => decide (t.x.dc < r.due)) } }))

/-- The accumulator results in flight are written, with their flags, a clear of FFLAGS due by then first (R196, R293). -/
def landAcc (t : Thread) : Thread :=
  let acc (r : Result) : Bool := r.vx == 2 && (match r.dest with
    | .arow _ => true
    | _ => false)
  if !t.x.inflight.any acc then t
  else
    let clears (w : CtlWrite) : Bool := w.reg == 0x11 && decide (w.due ≤ t.x.dc + 1)
    let u := (t.x.ctl.filter clears).foldl (fun t w => clearFlags t w.val) t
    let u := (t.x.inflight.filter acc).foldl (fun t r => orFlags (writeDest t r.dest r.val r.mask) r.flags) u
    { u with x := { u.x with inflight := t.x.inflight.filter (fun r => !acc r), ctl := t.x.ctl.filter (fun w => !clears w) } }

/-- TIMED_LANDING (R42): the data of every timed or fixed request due is written. -/
def execTimedLanding (core : Nat) (s : State) : Out := .next (modThread s core landDue)

/-- WATCH_TIMEOUT (R263): an armed entry whose LEFT has reached zero is FIRED_TMO. -/
def execWatchTimeout (core ent : Nat) (s : State) : Out :=
  match (threadOf s core).bind (fun t => t.watch[ent]?) with
  | some w =>
    .next (if w.state == 1 && w.left == 0 then
      modThread (dropTracker s core ent w.addr) core (fun t => { t with
        watch := t.watch.modify ent (fun w => { w with state := 3 }) })
      else s)
  | none => .next s

/-- What is done once the landings of a cycle are in: the V engine's beat, the bundle, the end of the cycle. -/
def cycleRest (t : Thread) (c : Nat) : List Todo :=
  (match t.x.vop with
    | some v => if 0 < v.k then [.ev v.i] else []
    | none => []) ++
  (match t.phase with
    | .stalled => [.ev (.stalledBundleIssue c)]
    | .ending => [.ev (.endComplete c)]
    | _ => [.issue c]) ++ [.fin c]

/-- The V engine's next beat is due (R267): it is performed by its own instruction. -/
def vDue (t : Thread) : Thread :=
  match t.x.vop with
  | some v => if 0 < v.k then { t with x := { t.x with vop := some { v with go := true } } } else t
  | none => t

/-- The domain advances by one cycle (R2, R166): results and landings of the cycle, then its bundle. -/
def advanceDomain (s : State) (c : Nat) (t : Thread) : State :=
  let t := applyCtls s { t with x := { t.x with dc := t.x.dc + 1 } }
  let down := t.watch.map (fun w => if w.state == 1 && decide (0 < w.left) then { w with left := w.left - 1 } else w)
  let out := (t.watch.zip down).zipIdx.filterMap (fun (x : (Watch × Watch) × Nat) =>
    if x.1.1.state == 1 && x.1.1.left == 1 then some (Todo.ev (.watchTimeout c x.2)) else none)
  let t := { t with watch := down }
  let results := if t.x.inflight.any (fun r => decide (r.due ≤ t.x.dc)) then [Todo.ev (.resultWrite c)] else []
  if landingLate t then
    let t := { t with phase := match t.phase with
      | .ending => .endFrozen 1 0
      | _ => .frozen 1 0 }
    { setThread s c t with todo := results ++ out ++ s.todo }
  else
    let land := if t.reqs.any (fun q => !q.landed && q.due.any (fun d => decide (d ≤ t.x.dc))) then [Todo.ev (.timedLanding c)] else []
    let t := vDue t
    { setThread s c t with todo := results ++ out ++ land ++ cycleRest t c ++ s.todo }

/-- Whether the matrix engine's beats are behind the domain: an operand is late (R292), or beats are run again after a fault
or a save (R295, R296). -/
def xBehind (t : Thread) : Bool := t.x.xop.any (fun x => decide (x.j < x.upto) && x.fault.isNone)

/-- FREEZE_RELEASE (R40): when the awaited event has come, the landings of the cycle are written and its bundle is
presented again; a matrix engine that is behind goes on beat by beat (R292, R295). -/
def execFreezeRelease (core : Nat) (s : State) : Out :=
  match threadOf s core with
  | none => .next s
  | some t =>
    let s := { s with cur := core }
    let beat : List Todo := if xBehind t then [.ev (.matrixBeat core)] else []
    let stay := { s with todo := beat ++ .fin core :: s.todo }
    let landed (t : Thread) : State := { setThread s core t with todo := .ev (.timedLanding core) :: cycleRest t core ++ s.todo }
    match t.phase with
    | .frozen 1 _ => .next (if landingLate t then stay else landed (vDue t))
    | .endFrozen 1 _ => .next (if landingLate t then stay else landed (vDue { t with phase := .ending }))
    | .endFrozen _ _ => .next (if xBehind t then stay else setThread s core { t with phase := .ending })
    | .frozen 7 _ => .next (if xBehind t then stay else { s with todo := .issue core :: .fin core :: s.todo })
    | .frozen _ _ => .next { s with todo := beat ++ .issue core :: .fin core :: s.todo }
    | _ => .next s

/-- A thread without its first late landing (R45). -/
def abandonLate (t : Thread) : Thread :=
  match t.reqs.find? (fun q => !q.landed && !arrived q && (match q.due with
    | some d => decide (d ≤ t.x.dc)
    | none => false)) with
  | some q => { t with reqs := t.reqs.filter (fun r => r.id ≠ q.id) }
  | none => t

/-- FREEZE_LIMIT (R40, R45, R397): a freeze of 65,536 cycles raises the landing-timeout fault; a landing that is late
is abandoned. -/
def execFreezeLimit (core : Nat) (s : State) : Out :=
  match threadOf s core with
  | none => .next s
  | some t =>
    match t.phase with
    | .frozen code _ =>
      -- the cycle's other landings and the engines' beats of it are not lost
      let t := if code = 1 then vDue (landDue (abandonLate t)) else t
      let v : List Todo := match code, t.x.vop with
        | 1, some v => if 0 < v.k then [.ev v.i] else []
        | _, _ => []
      let s := attend (setThread s core { t with phase := .running }) core (.fault (timeoutFault code))
      .next { s with cur := core, todo := v ++ .fin core :: s.todo }
    | .endFrozen code _ =>
      let t := if code = 1 then abandonLate t
        else if t.kill || t.replay then { t with x := { t.x with xop := none } } else t
      let s := setThread s core { t with phase := .ending }
      .next (if t.kill || t.replay then s else attend s core (.fault (timeoutFault code)))
    | _ => .next s

/-- STALLED_BUNDLE_ISSUE (R261): in each stall cycle the bundle is presented again. -/
def execStalledBundleIssue (core : Nat) (s : State) : Out :=
  match threadOf s core with
  | none => .next s
  | some t =>
    match t.phase with
    | .stalled => .next { s with cur := core, todo := .issue core :: s.todo }
    | _ => .next s

/-- SAVE_LANDING_TIMEOUT (R45, R173): landings still absent 65,536 cycles after step 2 began are abandoned, each with
a fault recorded for the bundle due at its cycle. -/
def execSaveLandingTimeout (core : Nat) (s : State) : Out :=
  .next (modThread s core (fun t =>
    let gone (q : Req) : Bool := q.due.isSome && !arrived q
    { t with reqs := t.reqs.filter (fun q => !gone q),
             timeouts := t.timeouts ++ (t.reqs.filter gone).filterMap (·.due) }))

/-- Whether a landing in tile row k is due and has not been written. -/
def rowLate (t : Thread) (k : Nat) : Bool :=
  t.reqs.any (fun q => !q.landed && (reqDests q).contains (.trow k) && (match q.due with
    | some d => decide (d ≤ t.x.dc)
    | none => false))

/-- STROW reads its rows four a cycle (R253), each as R166 leaves it at its cycle. -/
def readRows (t : Thread) : Thread :=
  { t with reqs := t.reqs.map (fun q =>
    match q.kind, q.dest with
    | .srow _, .trow k =>
      { q with parts := q.parts.map (fun p =>
          if !p.sent && decide (q.issued + p.row / 4 ≤ t.x.dc) && !rowLate t (k + p.row) then
            { p with data := BitVec.ofNat 2048 ((mgetD 0 (k + p.row) t.r.tiles).toNat / 2 ^ (8 * p.off)), sent := true }
          else p) }
    | _, _ => q) }

/-- Whether rows of an STROW are still to be read. -/
def rowsDue (t : Thread) : Bool :=
  t.reqs.any (fun q => match q.kind with
    | .srow _ => q.parts.any (fun p => !p.sent)
    | _ => false)

/-- The beats of V and of ZOUT that the current cycle holds, on a copy of the machine. -/
def beatsAhead (ex : Instr → State → Out) (c : Nat) (s : State) : State :=
  let run (i : Instr) (s : State) : State := match ex i { s with cur := c } with
    | .next s => s
    | _ => s
  let s := modThread s c vDue
  match threadOf s c with
  | none => s
  | some t =>
    let s := match t.x.vop with
      | some v => if 0 < v.k then run v.i s else s
      | none => s
    if t.x.xop.any (fun x => !x.mma) then run (.matrixBeat c) s else s

/-- Whether V is to read a row whose landing is late: what V writes is not known yet. -/
def vUnknown (t : Thread) : Bool := t.x.vop.isSome && t.x.reads.any (fun r => rowLate t r.1)

/-- The next n cycles of core c's domain, without its bundles, on a copy of the machine. -/
def domainAhead (ex : Instr → State → Out) (c : Nat) : Nat → State → State
  | 0, s => s
  | n + 1, s =>
    match threadOf s c with
    | none => s
    | some t =>
      if vUnknown t || !rowsDue t then s
      else match execResultWrite c (setThread s c { t with x := { t.x with dc := t.x.dc + 1 } }) with
        | .next s => domainAhead ex c n (modThread (beatsAhead ex c (modThread s c landDue)) c readRows)
        | _ => s

/-- While the domain is stopped by what may itself wait for an STROW, or the thread is being saved, the STROW's remaining rows
are read as they will stand at their cycles (log entry 28). -/
def rowsAhead (ex : Instr → State → Out) (s : State) (c : Nat) (t : Thread) : Thread :=
  if !rowsDue t then t
  else
    let s := setThread s c t
    -- the domain stopped in the middle of a cycle: its other landings and its beats come first
    let s := match t.phase with
      | .frozen 1 _ | .endFrozen 1 _ =>
        let s := modThread s c landDue
        if (threadOf s c).any vUnknown then s else beatsAhead ex c s
      | _ => s
    match threadOf (domainAhead ex c 16 (modThread s c readRows)) c with
    | none => t
    | some u =>
      { t with reqs := t.reqs.map (fun q => match q.kind with
          | .srow _ => (u.reqs.find? (fun r => r.id == q.id)).getD q
          | _ => q) }

/-- The requests that a save does not wait for (R173, R296): writes that R294 holds, which the frame keeps; and what can be
performed only after the save, for it comes after an access that is to be performed anew (R147) or after operand reads of a
matrix operation that has met a fault (log entry 93). -/
def heldOver (s : State) (c : Nat) (t : Thread) : List Nat :=
  let stopped := t.x.xop.any (fun x => x.mma && x.fault.isSome)
  let later := t.reqs.foldl (fun held q =>
    let behind := t.reqs.any (fun r => !performed r && (r.landed || held.contains r.id) && decide (r.pos < q.pos) &&
      (acquires r.ord || q.kind == .fence || r.kind == .fence || releases q.ord ||
        r.parts.any (fun x => q.parts.any (fun p => servedFirst s c t r x p))))
    if !performed q && ((stopped && xBefore t q && releases q.ord) || behind) then q.id :: held else held) []
  later ++ (t.reqs.filter (fun q => xBefore t q && reqWrites q.kind && q.cls == 2 &&
    q.parts.any (fun p => !p.done && xOverlaps s c t p.pa p.len))).map (·.id)

/-- Whether the waits of step 2 of R173 are over: landings have their data, queued tap operations are performed, the
counters are zero. -/
def saveReady (s : State) (c : Nat) (t : Thread) : Bool :=
  t.taps == 0 && (coreOf s c).taps.all (fun o => o.frame != t.frame) &&
  (t.reqs.all (fun q => q.landed || arrived q) ||
    (let held := heldOver s c t
     t.reqs.all (fun q => q.landed || arrived q || held.contains q.id)))

/-- The results of the V engine's next n beats (R173 step 3), each computed with the registers as they will stand at its own
cycle (R166): the beats are run on a copy of the machine in which only core c's domain goes on. -/
def vAhead (ex : Instr → State → Out) (c : Nat) : Nat → State → List Result
  | 0, _ => []
  | n + 1, s =>
    match threadOf s c with
    | none => []
    | some t =>
      match t.x.vop with
      | none => []
      | some v =>
        let t := { t with x := { t.x with dc := t.x.dc + 1 } }
        match execResultWrite c (setThread s c t) with
        | .next s =>
          let s := modThread s c (fun t => vDue (landDue t))
          let had := ((threadOf s c).map (·.x.inflight)).getD []
          match ex v.i { s with cur := c } with
          | .next s =>
            (((threadOf s c).map (·.x.inflight)).getD []).filter (fun r => !had.contains r) ++ vAhead ex c n s
          | _ => []
        | _ => []

/-- The engines at step 3 of a save (R173): V's current operation is complete, its results in flight; the accumulator
results of X that fall due before the frame is written are written (R293); X is back at the point XPROG records, with the
beats that its re-run is to reach (R296). -/
def stopEngines (ex : Instr → State → Out) (s : State) (c : Nat) (t : Thread) : Thread :=
  let v := vAhead ex c 64 s
  let t := landAcc t
  { t with x := { t.x with inflight := t.x.inflight ++ v, vop := none,
                           xop := t.x.xop.map (fun x => if x.mma then x.rewind (max x.j x.upto) else x) } }

/-- Whether something that a save waits for is held back by operand reads that X has still to make: a release issued after
the operation (R103, R127, R294). -/
def xAwaited (s : State) (c : Nat) (t : Thread) : Bool :=
  t.x.xop.any (fun x => x.mma && x.fault.isNone &&
    (t.reqs.any (fun q => !performed q && releases q.ord && decide (x.pos < q.pos)) ||
     (coreOf s c).taps.any (fun o => o.frame == t.frame && releases o.ord && decide (x.pos < o.req))))

/-- A saving thread's cycle (R173): steps 2 to 4. A save discards the matrix operation's translations (R296). -/
def saveCycle (ex : Instr → State → Out) (s : State) (c : Nat) (t : Thread) (forFault : Bool) (began : Nat) : State :=
  let t := rowsAhead ex s c t
  let s := setThread s c t
  if saveReady s c t then
    let t := { stopEngines ex s c t with phase := .writing forFault }
    let s := if t.x.xop.isSome then { s with tlbs := mdel (cacheKey c 2) s.tlbs } else s
    schedule (setThread s c t) (frameTime s t.frame 1400) (.saveComplete c)
  else
    let s := if xAwaited s c t then pushEvs s [.matrixBeat c] else s
    if began + 65536 ≤ s.now ∧ t.reqs.any (fun q => q.due.isSome && !arrived q) then pushEvs s [.saveLandingTimeout c]
    else s

/-- A killed thread at the bound of R178: what has not completed by then is given up, and the thread ends. -/
def endByForce (s : State) (c : Nat) (t : Thread) : State :=
  let s := modCore s c (fun k => { k with taps := k.taps.filter (fun o => o.frame ≠ t.frame) })
  pushEvs (setThread s c { t with
    phase := .ending, killBy := none, reqs := [], taps := 0,
    x := { t.x with vop := none, xop := none, vEnd := 0, xEnd := 0 } }) [.endComplete c]

/-- The start of a core's cycle. -/
def beginCycle (ex : Instr → State → Out) (s : State) (c : Nat) : State :=
  let s := { s with cur := c }
  match threadOf s c with
  | none => s
  | some t =>
    if t.killBy.any (fun d => decide (d ≤ s.now)) then endByForce s c t
    else if 0 < t.x.banks then setThread s c { t with x := { t.x with banks := t.x.banks - 1 } }   -- R40
    else match t.phase with
    | .running | .stalled => advanceDomain s c t
    | .ending =>
      match t.reqs.find? (fun q => q.landed && q.fault.isSome) with
      | some q => if t.kill || t.replay then
          setThread s c { t with reqs := t.reqs.filter (fun r => r.id ≠ q.id) }
        else attend s c (.pending 0 q.id)
      | none =>
        if t.x.xop.any (fun x => x.fault.isSome) then
          (if t.kill || t.replay then setThread s c { t with x := { t.x with xop := none } }
           else advanceDomain s c t)   -- precise at the END bundle of the next cycle (R295)
        else if xBehind t then setThread s c { t with phase := .endFrozen 7 0 }   -- R292
        else advanceDomain s c t
    | .endFrozen code n =>
      if 65536 ≤ n + 1 then pushEvs s [.freezeLimit c]
      else pushEvs (setThread s c { t with phase := .endFrozen code (n + 1) }) [.freezeRelease c]
    | .frozen code n =>
      if t.kill then pushEvs s [.killTaken c]
      else if 65536 ≤ n + 1 then pushEvs s [.freezeLimit c]
      else pushEvs (setThread s c { t with phase := .frozen code (n + 1) }) [.freezeRelease c]
    | .saving f b => saveCycle ex s c t f b
    | _ => s

/-! The nullifier and the bundle to issue (R168, R205) -/

/-- NEG and GRD of a slot's word (R209), which the nullifier reads without decoding the slot. -/
def slotGuard (kw : Kind × Nat) : Guard :=
  match kw.1 with
  | .s0 | .s1 => ⟨bt 31 kw.2, bv 3 28 kw.2⟩
  | .x => ⟨bt 63 kw.2, bv 3 60 kw.2⟩
  | _ => ⟨bt 47 kw.2, bv 3 44 kw.2⟩

/-- Whether the nullifier drops a bundle (R168, R208). -/
def nullified (t : Thread) (b : Bundle) : Bool :=
  t.q.buf.null && !b.isEmpty &&
  b.all (fun kw => !guardTrue t (slotGuard kw) && (match mget (slotGuard kw).grd.toNat t.q.pwrite with
    | none => true
    | some at_ => decide (at_ + 3 ≤ t.x.dc)))

/-- A freeze for an expansion ends where the segment is entered before a bundle: what that bundle's FENCE discards is none that
the bundle has asked for (R207). -/
def thawed (s : State) (c : Nat) : State :=
  modThread s c (fun t => match t.phase with
    | .frozen 3 _ => { t with phase := .running }
    | _ => t)

/-- The bundle that issues now: the fall-through to FALL is made and bundles are dropped, in no time. What keeps it from
issuing comes with the position reached. -/
def nextBundle : Nat → State → Nat → Except (Attn × State) (State × Bundle)
  | 0, s, _ => .ok (s, [])
  | n + 1, s, c =>
    match threadOf s c with
    | none => .ok (s, [])
    | some t =>
      if t.q.buf.addr ≠ t.q.seg || t.q.buf.count = 0 then
        -- a start, a resume or a new position: the segment is entered at its bundle (R153, R176, R335)
        match (checkTarget t.q.seg).bind (fun _ => enterSegment s c t t.q.seg t.q.idx) with
        | .error a => .error (a, s)
        | .ok s => nextBundle n (thawed s c) c
      else if t.q.buf.count ≤ t.q.idx then
        match fallThrough s c t with
        | .error a => .error (a, s)
        | .ok s => nextBundle n (thawed s c) c
      else
        let b := (t.q.buf.bundles[t.q.idx]?).getD []
        if nullified t b then nextBundle n (setThread s c { t with q := { t.q with idx := t.q.idx + 1 } }) c
        else .ok (s, b)

/-! The slots of a bundle (R123, R170, R212, R257) -/

/-- A slot kind's header bit (R202). -/
def kindBit : Kind → Nat
  | .s0 => 0
  | .s1 => 1
  | .m0 => 2
  | .m1 => 3
  | .v => 4
  | .x => 5
  | .c => 6
  | .q => 7

/-- The instructions of the present slots, or the illegal-slot trap (R212). -/
def decodeSlots : Bundle → Except Attn (List (Kind × Instr))
  | [] => .ok []
  | kw :: r =>
    match decodeSlot kw.1 kw.2 with
    | .error _ => .error (illegalSlot (kindBit kw.1))
    | .ok i => (decodeSlots r).map ((kw.1, i) :: ·)

/-- Whether an instruction is a PROBE with MB = 1, an MWAIT. -/
def branchingProbe : Instr → Bool
  | .probe _ _ _ _ _ _ mb _ _ _ => mb
  | _ => false
def isMwait : Instr → Bool
  | .mwait .. => true
  | _ => false

/-- Combinations of slots that raise the illegal-slot trap (R257, R265). -/
def badPairing (l : List (Kind × Instr)) : Option Kind :=
  let probes := l.filter (fun x => branchingProbe x.2)
  if 2 ≤ probes.length then some .m1
  else if !probes.isEmpty && l.any (fun x => s1Only x.2) then (probes.head?).map (·.1)
  else if 2 ≤ (l.filter (fun x => isMwait x.2)).length then some .m1
  else none

/-- Instructions that abandon an auditor's replay (R345). -/
def replayStops : Instr → Bool
  | .ecap .. | .erow .. | .eboard .. | .ealight .. | .ewhen .. => true
  | .tboard .. | .twait .. | .tleave _ | .tstat .. | .tspeed .. | .mmaTb .. => true
  | .enqt .. | .fst .. | .fld .. | .fatom .. | .vatom .. | .coll .. | .mon .. => true
  | .probe .. | .fill .. | .evict .. | .wback .. => true
  | _ => false

/-- The hold bit of an instruction. -/
def holdBit (i : Instr) : Bool :=
  match i with
  | .mnop h _ => h.hold
  | .ldb h .. | .ldh h .. | .ldw h .. | .ld h .. | .ldbs h .. | .ldhs h .. | .ldws h .. => h.hold
  | .stb h .. | .sth h .. | .stw h .. | .st h .. | .ldrow h .. | .strow h .. | .atom h .. => h.hold
  | .cvta h .. | .aptest h .. => h.hold
  | .vnop h _ => h.hold
  | .vadd h .. | .vsub h .. | .vmul h .. | .vfma h .. | .vmin h .. | .vmax h .. | .vabs h .. | .vneg h .. => h.hold
  | .vcmp h .. | .vsel h .. | .vexp2 h .. | .vlog2 h .. | .vrcp h .. | .vrsqrt h .. | .vscale h .. => h.hold
  | .viadd h .. | .visub h .. | .vimul h .. | .vimin h .. | .vimax h .. | .vand h .. | .vor h .. | .vxor h .. => h.hold
  | .vshl h .. | .vshr h .. | .vsar h .. | .vcvt h .. | .vpackd h .. | .vunpkd h .. | .vpackm h .. => h.hold
  | .vunpkm h .. | .vrsum h .. | .vrmax h .. | .vrmin h .. | .vshuf h .. | .vtrans h .. | .vmov h .. => h.hold
  | .vzrd h .. | .vzwr h .. | .vbcast h .. => h.hold
  | .xnop h _ => h.hold
  | .mma h .. | .mmaTb h .. | .zzero h .. | .zscale h .. | .zout h .. => h.hold
  | _ => false

/-- The held slots that repeat in a bundle that omits their kind (R170). -/
def repeats (t : Thread) (l : List (Kind × Instr)) : List (Kind × Instr) :=
  let omits (k : Kind) : Bool := !l.any (fun x => x.1 == k)
  let one (k : Kind) (h : Option Instr) (free : Bool) : List (Kind × Instr) :=
    match h with
    | some i => if omits k && free then [(k, i)] else []
    | none => []
  one .m0 t.q.holdM0 true ++ one .m1 t.q.holdM1 true ++ one .v t.q.holdV (decide (t.x.vEnd ≤ t.x.dc)) ++
    one .x t.q.holdX (decide (t.x.xEnd ≤ t.x.dc))

/-- The holds after a bundle (R170): a presented kind ends its hold, or is held itself. -/
def newHolds (t : Thread) (l : List (Kind × Instr)) : Thread :=
  let upd (k : Kind) (old : Option Instr) : Option Instr :=
    match l.find? (fun x => x.1 == k) with
    | some (_, i) => if holdBit i then some i else none
    | none => old
  { t with q := { t.q with holdM0 := upd .m0 t.q.holdM0, holdM1 := upd .m1 t.q.holdM1, holdV := upd .v t.q.holdV,
                           holdX := upd .x t.q.holdX } }

/-- The place of a slot in the order of performance: what may stall the bundle first, then the slots in the order of
R123, transfers last (R239). -/
def slotRank (x : Kind × Instr) : Nat :=
  match x.2 with
  | .wait .. | .mwait .. | .bwait .. | .waitl .. | .tlbiSync .. | .twait .. | .tleave .. => 0
  | .gbar _ _ mode _ => if mode = 0 then 0 else 7   -- an arrival releases its bundle's accesses (R123, R137)
  | i =>
    match x.1 with
    | .s0 => 1
    | .s1 => if s1Only i then 9 else 2
    | .m0 => 3
    | .m1 => 4
    | .v => 5
    | .x => 6
    | .c => 7
    | .q => 8

/-- The instructions in the order of performance. -/
def inOrder (l : List (Kind × Instr)) : List Instr :=
  (List.range 10).flatMap (fun k => (l.filter (fun x => slotRank x == k)).map (·.2))

/-- Perform slots one after another; what stops the bundle, if anything does, with the slot that met it. -/
def runSlots (ex : Instr → State → Out) (c : Nat) : List Instr → State → Except Out (State × Option (Attn × Instr))
  | [], s => .ok (s, none)
  | i :: r, s =>
    match ex i s with
    | .next s' =>
      match threadOf s' c with
      | none => .ok (s', none)
      | some t =>
        match t.attn with
        | some a => .ok (s', some (a, i))
        | none => runSlots ex c r s'
    | o => .error o

/-- A GBAR.arv that stalls does so before anything of its bundle: it is tried first (R305, R313). -/
def stalledArrival (ex : Instr → State → Out) (c : Nat) (s : State) (l : List Instr) : List Instr :=
  l.filter (fun i => match i with
    | .gbar _ _ mode _ => mode = 1 && (match runSlots ex c [i] s with
      | .ok (_, some (.stall, _)) => true
      | _ => false)
    | _ => false)

/-- A stall that is a pre-emption point (R173, R305). -/
def stallPoint : Instr → Bool
  | .wait .. | .mwait .. | .twait .. => true
  | _ => false

/-- A fault that the next pre-emption point raises (R51, R117, R341). -/
def pointFault (t : Thread) : Option Attn :=
  match landingFault t (fun _ => true) with
  | some q => some (.pending 0 q.id)
  | none =>
    if !t.tide.pending.isEmpty then some (.pending 1 0)
    else if !t.overruns.isEmpty then some (.pending 2 0)
    else none

/-- Whether a pre-emption request is taken at a point (R119, R336). -/
def preemptible (t : Thread) : Bool := t.preempt && !t.handler && t.tide.state != 2

/-- Whether a table walk of core c runs for a cache, and, where it is the fetch TLB's, for a prefetch (R25). -/
def walking (s : State) (c cache : Nat) : Bool :=
  s.walks.any (fun w => w.2.core == c && w.2.cache == cache && w.2.ctx != walkNobody && (cache != 0 || w.2.ctx == walkFetch))

/-- What is due at the bundle that is to issue: a fault (R45, R51, R295); the freeze of a matrix operand that is late, or of
its walk (R25, R292); a FENCE of the bundle before that awaits that bundle's own access (R255); a prefetch's walk (R25). -/
def dueAttn (s : State) (c : Nat) (t : Thread) : Option Attn :=
  match t.x.xop.bind (·.fault) with
  | some _ => some (.pending 4 0)
  | none =>
    match dueFault t with
    | some q => some (.pending 0 q.id)
    | none =>
      if t.timeouts.any (fun d => decide (d ≤ t.x.dc)) then some (.pending 3 0)
      else if xBehind t then some (.freeze (if walking s c 2 then 4 else 7))
      else if t.reqs.any (fun f => f.kind == .fence && !performed f && fenceAwaits s c t (fun q => decide (q.pos < f.pos))) then
        some (.freeze 6)
      else if walking s c 0 then some (.freeze 4)
      else none

/-- The end of an issue in which every slot took effect: the next bundle, the holds, and a pre-emption at a point. -/
def closeBundle (before after : State) (c : Nat) (l : List (Kind × Instr)) : State :=
  match threadOf after c with
  | none => after
  | some t =>
    let next := if t.q.moved then t.q.idx else t.q.idx + 1
    let t := newHolds t l
    let t := { t with
      spurious := false
      -- R173: bundle COUNT - 1 falls through, an ENDL that pops its loop included
      q := { t.q with idx := next, point := t.q.point || decide (t.q.buf.count ≤ next) },
      phase := match t.phase with
        | .frozen _ _ => .running
        | .stalled => .running
        | p => p }
    let s := setThread { after with walkFails := after.walkFails.filter (fun w => w.core ≠ c || w.cache ≠ 1) } c t
    if t.q.point then
      match pointFault t with
      | some a => attend before c a
      | none => if preemptible t then pushEvs s [.preemptionTaken c] else s
    else s

/-- What an error response does beside the fault it gives the requester: the read that met it logs its events (R17, R47). -/
def respond (s : State) (c : Nat) (a : Attn) : State :=
  match a with
  | .response pa n f => (readPa s (whoCore c) pa n f.ga).2
  | _ => s

/-- The issue of core c's next bundle. -/
def issueBundle (ex : Instr → State → Out) (s : State) (c : Nat) : Out :=
  let s := { s with cur := c }
  match threadOf s c with
  | none => .next s
  | some t =>
    let live := match t.phase with
      | .running | .stalled | .frozen _ _ => true
      | _ => false
    if !live then .next s
    else if t.kill then .next (pushEvs s [.killTaken c])
    else if t.replay && s.auditor.replaying.all (·.abandoned) then .next (abandonReplay s c)
    else
      let t := { t with attn := none, q := { t.q with moved := false, point := false } }
      let s := setThread s c t
      match dueAttn s c t with
      | some a => .next (attend s c a)
      | none =>
        match nextBundle 300 s c with
        | .error (a, s) => .next (attend s c a)
        | .ok (s, b) =>
          match decodeSlots b with
          | .error a => .next (attend s c a)
          | .ok l =>
            match badPairing l with
            | some k => .next (attend s c (illegalSlot (kindBit k)))
            | none =>
              if t.replay && (b.zip l).any (fun x => replayStops x.2.2 && guardTrue t (slotGuard x.1)) then
                .next (abandonReplay s c)
              else
              let s := modThread s c (fun t => { t with q := { t.q with moved := false, point := false } })
              let held := match threadOf s c with
                | some t => repeats t l
                | none => []
              let is := inOrder (l ++ held)
              match runSlots ex c (stalledArrival ex c s is ++ is) s with
              | .error o => o
              | .ok (s', none) => .next (closeBundle s s' c l)
              | .ok (s', some (.after _ _, _)) => .next (modThread s' c (fun t => newHolds t l))
              | .ok (_, some (.stall, i)) =>
                let s1 := attend (gbarArrives s c i) c .stall
                match threadOf s1 c with
                | none => .next s1
                | some t =>
                  if !stallPoint i then .next s1
                  else match pointFault t with
                    | some a => .next (attend s c a)
                    | none => .next (if preemptible t then pushEvs s1 [.preemptionTaken c] else s1)
              | .ok (_, some (a, _)) => .next (attend (respond s c a) c a)

/-! The end of a cycle (R40, R253, R291) -/

/-- Whether another core's matrix engine is at work: the cycle of its reads in this slice is not specified (R292). -/
def matrixElsewhere (s : State) (c : Nat) : Bool :=
  s.cores.any (fun k => k.1 != c && (match k.2.thread with
    | some t => t.x.xop.isSome
    | none => false))

/-- The words of exposed accesses that must wait in a cycle (R39, R40), given the sub-bank of each: of those that need one
sub-bank all but one, and all where the sub-bank is one of `before` or a promoted requester has taken it. How many the reads of
another core's matrix engine take is a free value (log entry 7). -/
def waitingWords (s : State) (c : Nat) (before banks : List Nat) : Nat × State :=
  let free_ := banks.dedup.filter (fun b => !before.contains b && !(takenBanks s c).contains b)
  let n := banks.length - free_.length
  if free_.isEmpty || !matrixElsewhere s c then (n, s)
  else
    let (k, s) := takeFree s
    (n + min (Config.promoted k) free_.length, s)

/-- The matrix engine owes the beat of the current cycle (R292, R295). -/
def owedBeat (t : Thread) : Thread :=
  { t with x := { t.x with xop := t.x.xop.map (fun x => { x with upto := max x.upto (min (t.x.dc + 1 - x.issue) (x.np * x.b)) }) } }

/-- The end of a domain cycle: STROW reads, sub-bank conflicts (R39, R40), the matrix engine's beat. -/
def finishDomain (s : State) (c : Nat) (t : Thread) : State :=
  let t := readRows t
  let now := (t.x.used.filter (fun u => u / 32 == t.x.dc)).map (· % 32)
  let used := t.x.used.filter (fun u => decide (t.x.dc ≤ u / 32))
  let (n, s) := waitingWords s c [] now
  let x := { t.x with used := used, banks := t.x.banks + n,
                      reads := t.x.reads.filter (fun r => decide (t.x.dc < r.2)),
                      writes := t.x.writes.filter (fun r => decide (t.x.dc < r.2)),
                      zguard := t.x.zguard.filter (fun r => decide (t.x.dc < r.2)),
                      counts := t.x.counts.filter (fun r => decide (t.x.dc < r.2)) }
  let t := { t with x := x }
  if xBehind t then
    -- a save for another fault while beats are behind: the re-run is to make up for this cycle's beat too
    setThread s c (if t.posFault.isSome && t.attn != some (.pending 4 0) then owedBeat t else t)
  else
    let s := setThread s c t
    if x.xop.any (fun x => decide (x.issue + x.j ≤ t.x.dc)) then pushEvs s [.matrixBeat c] else s

/-- The end of a core's cycle: of a domain cycle, that in which a save begins included (R173 step 1, R176); while the domain
stands, an STROW reads the rows that what is awaited may need (log entry 28). -/
def finishCycle (ex : Instr → State → Out) (s : State) (c : Nat) : State :=
  match threadOf s c with
  | none => s
  | some t =>
    match t.phase with
    | .running | .stalled | .ending => finishDomain s c t
    | .saving _ at_ => if at_ = s.now then finishDomain s c t else s
    | .frozen _ _ | .endFrozen _ _ => setThread s c (rowsAhead ex s c t)
    | _ => s

/-- PREEMPTION_TAKEN (R173): the thread issues no further bundle and its save begins. -/
def execPreemptionTaken (core : Nat) (s : State) : Out :=
  .next (modThread s core (fun t =>
    if t.handler then t else { t with preempt := false, phase := .saving false s.now, posFault := none }))

/-- KILL_TAKEN (R161): at a bundle boundary the thread is ENDING, and no slot of a later bundle takes effect. The kill
stays noted: what its requests still meet is not raised. Within 65,536 cycles the thread ends (R178). -/
def execKillTaken (core : Nat) (s : State) : Out :=
  .next (modThread s core (fun t => { t with phase := .ending, preempt := false, killBy := some (s.now + 65536) }))

end Sys2Proof.Machine
end

