-- ==== Sys2Proof/Machine/MemInstr.lean ====
section
/-! DEFINITION. The M slots: loads, stores, tile rows, ATOM, FENCE, address conversion, WAIT, MON and MWAIT (R245 to
R255, R260 to R265). -/

namespace Sys2Proof.Machine

/-- MNOP (R250). -/
def execMnop (_h : MHdr) (_x : BitVec 37) (s : State) : Out := .next s

/-! What an access of the current bundle meets (R40, R253, R269, R294) -/

/-- Sub-banks of the own slice that an exposed access of n bytes takes, k cycles from now (R35, R40). -/
def takeBanks (c : Nat) (t : Thread) (pa n k : Nat) : Thread :=
  if inSram pa && pa / 0x800000 == c then
    { t with x := { t.x with used := t.x.used ++
        (List.range ((pa + n + 31) / 32 - pa / 32)).map (fun i => (t.x.dc + k) * 32 + (pa / 32 + i) % 32) } }
  else t

/-- A request issued in this same cycle that would land in a row at or before a cycle (R253, R269). -/
def landsBefore (c : Nat) (t : Thread) (k due : Nat) : Bool :=
  t.reqs.any (fun q => q.issued == t.x.dc && !q.landed && (reqDests q).contains (.trow k) && (match q.due with
    | some d => decide (d ≤ due)
    | none => (countedRows t c q.kind q.dest q.parts).any (fun r => r.1 == k && decide (r.2 ≤ due))))

/-- Stores and deposits held because the matrix engine has still to read their bytes (R294): those issued after its operation. -/
def heldStores (s : State) (c : Nat) (t : Thread) : List Part :=
  (t.reqs.filter (fun q => q.cls == 2 && xBefore t q)).flatMap (fun q => q.parts.filter (fun p =>
    !p.done && decide (0 < p.len) && xOverlaps s c t p.pa p.len))

/-- A load that overlaps a held store stalls its bundle (R294). -/
def checkHeld (s : State) (c : Nat) (t : Thread) (ps : List Part) : Except Attn Unit :=
  if t.x.xop.isNone then .ok ()
  else if (heldStores s c t).any (fun h => ps.any (fun p => decide (p.pa < h.pa + h.len ∧ h.pa < p.pa + p.len))) then
    .error .stall
  else .ok ()

/-! Scalar loads and stores (R251, R252) -/

/-- A load of w bytes (R251). -/
def loadSlot (s : State) (h : MHdr) (rd ra : BitVec 5) (ord scope : BitVec 3) (mode : BitVec 2) (off : BitVec 10)
    (disp : BitVec 9) (w : Nat) (signed : Bool) : Thread → Slot := fun t =>
  let a := scalarAddr t ra disp w
  (slotPlace s t h.m1 .read a).bind (fun p =>
    let part := partAt a p w
    (checkHeld s s.cur t [part]).bind (fun _ =>
      (loadLanding t mode off).bind (fun l =>
        issueReq s (takeBanks s.cur t p.pa w 0) (.load w signed) 1 (.sreg rd.toNat) l ord.toNat scope.toNat [part])))

/-- The data of a store: the register's value at issue, also where an unlanded load is to write it (R252). -/
def storeData (t : Thread) (rs : BitVec 5) : Word :=
  if t.reqs.any (fun q => !q.landed && q.dest == .sreg rs.toNat) then t.r.s[rs.toNat] else sreg t rs

/-- A store of w bytes (R251): the data is latched at issue; a ninth held store stalls (R294). -/
def storeSlot (s : State) (h : MHdr) (rs ra : BitVec 5) (ord scope : BitVec 3) (disp : BitVec 9) (w : Nat) :
    Thread → Slot := fun t =>
  let a := scalarAddr t ra disp w
  (slotPlace s t h.m1 .write a).bind (fun p =>
    let d : Row := BitVec.ofNat 2048 ((storeData t rs).toNat % 2 ^ (8 * w))
    let part := partAt a p w d
    if xOverlaps s s.cur t p.pa w && decide (8 ≤ (heldStores s s.cur t).length) then .error .stall
    else issueReq s (takeBanks s.cur t p.pa w 0) (.store w) 2 .none ⟨0, false⟩ ord.toNat scope.toNat [part])

/-- LDB (R251): 1 byte. -/
def execLdb (h : MHdr) (rd ra : BitVec 5) (ord scope : BitVec 3) (mode : BitVec 2) (off : BitVec 10) (disp : BitVec 9)
    (s : State) : Out :=
  runSlot h.g s (loadSlot s h rd ra ord scope mode off disp 1 false)

/-- LDH (R251): 2 bytes. -/
def execLdh (h : MHdr) (rd ra : BitVec 5) (ord scope : BitVec 3) (mode : BitVec 2) (off : BitVec 10) (disp : BitVec 9)
    (s : State) : Out :=
  runSlot h.g s (loadSlot s h rd ra ord scope mode off disp 2 false)

/-- LDW (R251): 4 bytes. -/
def execLdw (h : MHdr) (rd ra : BitVec 5) (ord scope : BitVec 3) (mode : BitVec 2) (off : BitVec 10) (disp : BitVec 9)
    (s : State) : Out :=
  runSlot h.g s (loadSlot s h rd ra ord scope mode off disp 4 false)

/-- LD (R251): 8 bytes. -/
def execLd (h : MHdr) (rd ra : BitVec 5) (ord scope : BitVec 3) (mode : BitVec 2) (off : BitVec 10) (disp : BitVec 9)
    (s : State) : Out :=
  runSlot h.g s (loadSlot s h rd ra ord scope mode off disp 8 false)

/-- LDBS (R251): 1 byte, sign-extended. -/
def execLdbs (h : MHdr) (rd ra : BitVec 5) (ord scope : BitVec 3) (mode : BitVec 2) (off : BitVec 10) (disp : BitVec 9)
    (s : State) : Out :=
  runSlot h.g s (loadSlot s h rd ra ord scope mode off disp 1 true)

/-- LDHS (R251): 2 bytes, sign-extended. -/
def execLdhs (h : MHdr) (rd ra : BitVec 5) (ord scope : BitVec 3) (mode : BitVec 2) (off : BitVec 10) (disp : BitVec 9)
    (s : State) : Out :=
  runSlot h.g s (loadSlot s h rd ra ord scope mode off disp 2 true)

/-- LDWS (R251): 4 bytes, sign-extended. -/
def execLdws (h : MHdr) (rd ra : BitVec 5) (ord scope : BitVec 3) (mode : BitVec 2) (off : BitVec 10) (disp : BitVec 9)
    (s : State) : Out :=
  runSlot h.g s (loadSlot s h rd ra ord scope mode off disp 4 true)

/-- STB (R251): 1 byte. -/
def execStb (h : MHdr) (rs ra : BitVec 5) (ord scope : BitVec 3) (disp : BitVec 9) (s : State) : Out :=
  runSlot h.g s (storeSlot s h rs ra ord scope disp 1)

/-- STH (R251): 2 bytes. -/
def execSth (h : MHdr) (rs ra : BitVec 5) (ord scope : BitVec 3) (disp : BitVec 9) (s : State) : Out :=
  runSlot h.g s (storeSlot s h rs ra ord scope disp 2)

/-- STW (R251): 4 bytes. -/
def execStw (h : MHdr) (rs ra : BitVec 5) (ord scope : BitVec 3) (disp : BitVec 9) (s : State) : Out :=
  runSlot h.g s (storeSlot s h rs ra ord scope disp 4)

/-- ST (R251): 8 bytes. -/
def execSt (h : MHdr) (rs ra : BitVec 5) (ord scope : BitVec 3) (disp : BitVec 9) (s : State) : Out :=
  runSlot h.g s (storeSlot s h rs ra ord scope disp 8)

/-! Tile rows (R253) -/

/-- The parts of one row: it is split where it crosses a 64 KiB boundary, and each part is translated and checked
(log entry 16). -/
def rowParts (s : State) (t : Thread) (m1 : Bool) (acc : Acc) (a : Word) (k : Nat) (sent : Bool) :
    Except Attn (List Part) :=
  let n := min 256 (65536 - a.toNat % 65536)
  (slotPlace s t m1 acc a).bind (fun p =>
    let first := partAt a p n 0 sent k 0
    if n = 256 then .ok [first]
    else
      let b := a + BitVec.ofNat 64 n
      (slotPlace s t m1 acc b).map (fun p2 => [first, partAt b p2 (256 - n) 0 sent k n]))

/-- The parts of rows 0 to n - 1, all checked at issue (R253). -/
def allRows (s : State) (t : Thread) (m1 : Bool) (acc : Acc) (ra rstr : BitVec 5) (sent : Bool) (n : Nat) :
    Except Attn (List Part) :=
  (List.range n).foldl (fun (r : Except Attn (List Part)) k =>
    r.bind (fun ps => (rowParts s t m1 acc (rowAddr t ra rstr k) k sent).map (ps ++ ·))) (.ok [])

/-- The sub-banks of every row, four rows a cycle (R40, R253). -/
def takeRowBanks (c : Nat) (t : Thread) (ps : List Part) : Thread :=
  ps.foldl (fun t p => takeBanks c t p.pa p.len (p.row / 4)) t

/-- LDROW (R253). -/
def execLdrow (h : MHdr) (tl : BitVec 4) (e nm : BitVec 6) (ra rstr : BitVec 5) (mode : BitVec 2) (off : BitVec 9)
    (s : State) : Out :=
  runSlot h.g s (fun t =>
    let n := nm.toNat + 1
    (allRows s t h.m1 .read ra rstr true n).bind (fun ps =>
      (checkHeld s s.cur t ps).bind (fun _ =>
        (rowLanding t mode off).bind (fun l =>
          issueReq s (takeRowBanks s.cur t ps) (.row n) 3 (.trow (64 * tl.toNat + e.toNat)) l 0 0 ps))))

/-- STROW (R253): its rows are read four a cycle, and a write that would reach one of them by then raises
TILEREAD. -/
def execStrow (h : MHdr) (tl : BitVec 4) (e nm : BitVec 6) (ra rstr : BitVec 5) (s : State) : Out :=
  runSlot h.g s (fun t =>
    let n := nm.toNat + 1
    let k0 := 64 * tl.toNat + e.toNat
    let reads := (List.range n).map (fun k => (k0 + k, t.x.dc + k / 4))
    (allRows s t h.m1 .write ra rstr false n).bind (fun ps =>
      if ps.any (fun p => xOverlaps s s.cur t p.pa p.len) then .error .stall
      else if reads.any (fun r => landsBefore s.cur t r.1 r.2) then .error (schedFault 2)
      else
        let t := takeRowBanks s.cur { t with x := { t.x with reads := t.x.reads ++ reads } } ps
        issueReq s t (.srow n) 3 (.trow k0) ⟨0, false⟩ 0 0 ps))

/-! ATOM and FENCE (R254, R255) -/

/-- ATOM (R254): SRAM of this device, readable and writable. -/
def execAtom (h : MHdr) (rd ra rb rc : BitVec 5) (aop : BitVec 4) (w rv : Bool) (ord scope : BitVec 3) (s : State) :
    Out :=
  runSlot h.g s (fun t =>
    let n := if w then 8 else 4
    let a := sreg t ra &&& ~~~(BitVec.ofNat 64 (n - 1))
    (slotPlace s t h.m1 .atomic a).bind (fun p => (sramOnly p a).bind (fun p =>
      let part := partAt a p n
      if xOverlaps s s.cur t p.pa n then .error .stall
      else (checkHeld s s.cur t [part]).bind (fun _ =>
        issueReq s (takeBanks s.cur t p.pa n 0) (.atom aop.toNat n rv (sreg t rb) (sreg t rc)) (if rv then 1 else 2)
          (if rv then .sreg rd.toNat else .none) ⟨0, false⟩ ord.toNat scope.toNat [part]))))

/-- An acquire fence at a scope: what the synchronising reads since the previous one would have merged at it (R128, R143). -/
def acquireFence (s : State) (c : Nat) (t : Thread) (scope : Nat) : Thread :=
  if !tracked t then t
  else
    let q := if 8 < (t.det.pend.filter (·.2.2)).length then ((acqOf t).1, true)
      else t.det.pend.foldl (fun q p => acquireFrom s (viewOf c t) scope q p.1 p.2.1) (acqOf t)
    let t := withAcq t (acquireScope q scope)
    { t with det := { t.det with pend := [] } }

/-- A release fence at a scope (R128, R140): a later synchronising write is a release at this scope too. -/
def releaseFence (t : Thread) (scope : Nat) : Thread :=
  let t := release t
  { t with det := { t.det with fences := mput scope t.det.scnt t.det.fences } }

/-- What a FENCE does once everything before it has been performed (R128, R140, R143, R255). -/
def fenced (s : State) (c : Nat) (t : Thread) (ord scope : Nat) : Thread :=
  let t := if releases ord then releaseFence t scope else t
  if acquires ord then acquireFence s c t scope else t

/-- A FENCE discards the expansion held in the idle half (R207), but not one that its own bundle has asked for; and the
current segment will not be kept there when it is left. -/
def discardExpansion (t : Thread) : Thread :=
  let t := { t with q := { t.q with fenced := true } }
  match t.phase with
  | .frozen 3 _ => t
  | _ => { t with q := { t.q with next := none, expanding := none } }

/-- FENCE (R255): the core freezes until every earlier memory operation has been performed, but for matrix operand reads, which
the freeze would stop, and for what waits for these: a release waits for them in the memory pipe (R294). An expansion held in
the idle half is discarded (R207). An access of the same bundle's M0 slot, which precedes an M1 FENCE, has only just issued.
Where anything is still to be performed the FENCE takes a place among the thread's requests behind it (DEDUCED, log entry
17). -/
def execFence (h : MHdr) (ord scope : BitVec 3) (s : State) : Out :=
  runSlot h.g s (fun t =>
    if fenceAwaits s s.cur t (fun q => q.issued != t.x.dc) then .error (.freeze 6)
    else
      let t := discardExpansion t
      if t.reqs.any (fun q => !performed q) || (releases ord.toNat && !earlierDone t t.nextReq) then
        (issueReq s t .fence 0 .none ⟨0, false⟩ ord.toNat scope.toNat [marker]).map
          (fun s => schedule s 1 (.requestDataArrival s.cur t.nextReq 0))
      else .ok (setThread s s.cur (fenced s s.cur t ord.toNat scope.toNat)))

/-! Address conversion and test (R15, R260) -/

/-- CVTA (R15, R260): result at latency 2. -/
def execCvta (h : MHdr) (rd ra : BitVec 5) (dir : BitVec 2) (s : State) : Out :=
  runSlot h.g s (fun t =>
    let o := sreg t ra
    let no : Word := BitVec.allOnes 64
    let off (r : Option Nat) : Word := match r with
      | some n => BitVec.ofNat 64 n
      | none => no
    match dir.toNat with
    | 0 => putScalar s t rd (if o.toNat < 0x800000 then aplBase t.regs + o else no) 2
    | 1 => putScalar s t rd (if o.toNat < 0x8000000 then apcBase t.regs + o else no) 2
    | 2 => (localOffset s t o).bind (fun r => putScalar s t rd (off r) 2)
    | _ => (clusterOffset s t o).bind (fun r => putScalar s t rd (off r) 2))

/-- APTEST (R15, R260): result at latency 2. -/
def execAptest (h : MHdr) (pd : BitVec 3) (ra : BitVec 5) (sp : Bool) (s : State) : Out :=
  runSlot h.g s (fun t =>
    ((if sp then clusterOffset else localOffset) s t (sreg t ra)).bind (fun r => putPred s t pd r.isSome 2))

/-! WAIT (R172, R261) -/

/-- Whether every timeline of a batch record has reached its value (R172). A copy channel's value is that of its last
chain's end, which the count of finished chains marks (log entry 21). -/
def batchDone (s : State) (b : Batch) : Bool :=
  b.all (fun x => decide (x.2 ≤ if x.1 % 8 < 4 then (engineOf s x.1).finished else timelineOf s x.1))

/-- The C count: incomplete closed batches, and the open one if it is non-empty and incomplete (R172). -/
def copyCount (s : State) (t : Thread) : Nat :=
  (t.closedB.filter (fun b => !batchDone s b)).length + (if !t.openB.isEmpty && !batchDone s t.openB then 1 else 0)

/-- The immediate that a WAIT gives a request class. -/
def waitBound (l st tl : BitVec 4) (cls : Nat) : Nat :=
  match cls with
  | 1 => l.toNat
  | 2 => st.toNat
  | 3 => tl.toNat
  | _ => 15

/-- Whether a WAIT gives a class a bound: an immediate below 15. -/
def bounds (l st tl : BitVec 4) (cls : Nat) : Bool := decide (waitBound l st tl cls < 15)

/-- WAIT (R261): the bundle issues when every counter is at or below its immediate; it is the landing point of the
completed requests of the bounded classes. -/
def execWait (h : MHdr) (l st cp tl : BitVec 4) (s : State) : Out :=
  runSlot h.g s (fun t =>
    let within (cls : Nat) : Bool := let b := waitBound l st tl cls; b == 15 || decide (outstanding t cls ≤ b)
    if !(within 1 && within 2 && within 3 && (cp == 15 || decide (copyCount s t ≤ cp.toNat))) then .error .stall
    else match landingFault t (bounds l st tl) with
      | some q => .error (.pending 0 q.id)
      | none => .ok (setThread s s.cur (coverUncov t (bounds l st tl))))

/-! MON and MWAIT (R262 to R265) -/

/-- Take a tracker at the watched slice; a full slice gives up the one armed longest ago (R264). -/
def armTracker (s : State) (core ent addr : Nat) : State :=
  let sl := (coreOf s (addr / 0x800000)).slice
  let trackers := sl.trackers.filter (· ≠ (core, ent))
  match trackers with
  | old :: rest =>
    if trackers.length < 32 then
      modSlice s (addr / 0x800000) (fun x => { x with trackers := trackers ++ [(core, ent)] })
    else
      let s := modSlice s (addr / 0x800000) (fun x => { x with trackers := rest ++ [(core, ent)] })
      modThread s old.1 (fun t => { t with watch := t.watch.modify old.2 (fun w =>
        if w.state = 1 then { w with state := 0, recycled := true } else w) })
  | [] => modSlice s (addr / 0x800000) (fun x => { x with trackers := [(core, ent)] })

/-- MON (R262, R263): the condition is evaluated once at arming, except under CHG, on what a read of the location gives; an
error response to that read is the data-error fault of a load, precise at the MON (R51, log entry 80). -/
def execMon (h : MHdr) (ent : BitVec 3) (ra rb : BitVec 5) (cmp : BitVec 3) (w : Bool) (rt : BitVec 5) (s : State) : Out :=
  runSlot h.g s (fun t =>
    let n := if w then 8 else 4
    let a := sreg t ra &&& ~~~(BitVec.ofNat 64 (n - 1))
    (slotPlace s t h.m1 .read a).bind (fun p => (sramOnly p a).bind (fun p =>
      let (g, s) := readPa s (whoCore s.cur) p.pa n a
      match g.err with
      | some (e, pa) => .error (.response p.pa n (dataFault e 0 (a + BitVec.ofNat 64 (pa - p.pa)) pa))
      | none =>
      let t := (threadOf s s.cur).getD t
      let m := leNat g.bytes
      let old := (t.watch[ent.toNat]?).getD ⟨0, 0, 0, 0, 0, false, false⟩
      let e : Watch := { addr := p.pa, val := if cmp = 0 then BitVec.ofNat 64 m else sreg t rb,
                         left := wf 31 0 (sreg t rt), state := 1, cmp := cmp.toNat, w := w, recycled := old.recycled }
      let e := if cmp ≠ 0 && watchFires e m then { e with state := 2 } else e
      let s := if old.state = 1 then dropTracker s s.cur ent.toNat old.addr else s
      let s := setThread s s.cur { t with watch := t.watch.set ent.toNat e }
      .ok (if e.state = 1 then armTracker s s.cur ent.toNat p.pa else s))))

/-- MWAIT (R265): the bundle issues on a fired or recycled entry, on a spurious wake, or when nothing is armed. -/
def execMwait (h : MHdr) (mask : BitVec 8) (rd : BitVec 5) (s : State) : Out :=
  runSlot h.g s (fun t =>
    let es := t.watch.zipIdx.filter (fun x => mask.getLsbD x.2)
    let has (p : Watch → Bool) : Bool := es.any (fun x => p x.1)
    let fired := has (fun w => decide (2 ≤ w.state))
    let recycled := has (fun w => w.recycled)
    let armed := has (fun w => w.state == 1)
    if !(fired || recycled || (!armed && !fired) || t.spurious) then .error .stall
    else
      let mapOf (p : Watch → Bool) : Nat := ((es.filter (fun x => p x.1)).map (fun x => 2 ^ x.2)).sum
      let v := mapOf (fun w => w.state == 2) + mapOf (fun w => w.state == 3) * 2 ^ 8
        + mapOf (fun w => w.recycled) * 2 ^ 16 + b2n t.spurious * 2 ^ 24
      let t := { t with spurious := false, watch := t.watch.mapIdx (fun i w =>
        { w with state := if mask.getLsbD i && w.state != 1 then 0 else w.state, recycled := false }) }
      putScalar s t rd (BitVec.ofNat 64 v) 1)

end Sys2Proof.Machine
end

