-- ==== Sys2Proof/Machine/Vector.lean ====
section
/-! DEFINITION. The V slots: the vector engine's operations, one row a beat (R266 to R286). -/

namespace Sys2Proof.Machine

/-! Plans: what an operation reads and writes, and its limits, known at issue -/

/-- One write of a beat: its destination, the cycles after issue, the bits of `mask` of the value, its flags. -/
structure VWrite where
  dest : Dest
  off : Nat
  val : Row
  mask : Row := fullMask
  flags : BitVec 5 := 0
  deriving DecidableEq, Repr

/-- What a V operation does, as far as its issue needs it (R267 to R270): results counted in flight, whether FMT.VF
is read, whether FMT admits it, whether it is within its limits, the tile rows it reads and the rows it writes with
the cycles after issue, and the accumulator it moves with the cycles for which an X slot may not name it. -/
structure VPlan where
  count : Nat
  vf : Bool := false
  legal : Bool := true
  ok : Bool := true
  reads : List (Nat × Nat) := []
  writes : List (Dest × Nat) := []
  acc : Option (Nat × Nat) := none
  deriving DecidableEq, Repr

/-- BEATS of a V slot (R209). -/
def vbeats (h : VHdr) : Nat := h.beats.toNat + 1

/-- FMT.VF, FMT.RM, FMT.SAT (R194). -/
def fmtVF (fmt : Word) : Nat := wf 11 8 fmt
def fmtRM (fmt : Word) : Nat := wf 18 16 fmt
def fmtSAT (fmt : Word) : Bool := fmt.getLsbD 19

/-- Element width in bits of the VF formats, and the elements of a row (R267). -/
def vfBits (fmt : Word) : Nat := if fmtVF fmt = 0 then 32 else 16
def vfN (fmt : Word) : Nat := 2048 / vfBits fmt

/-- The accumulator that the X engine's current operation names (R269). -/
def xNames (t : Thread) : Option Nat :=
  match t.x.xop with
  | some x =>
    match x.i with
    | .xnop .. => none
    | _ => if t.x.dc < t.x.xEnd then some x.z else none
  | none => none

/-- The checks of a V operation's issue, and what it then holds (R43, R169, R171, R268, R269). -/
def issueV (c : Nat) (t : Thread) (h : VHdr) (i : Instr) (p : VPlan) (scal : Word) : Except Attn Thread :=
  let dc := t.x.dc
  if dc < t.x.vEnd then .error (schedFault 1)
  else if p.vf && decide (2 < fmtVF t.c.fmt) then .error (illegalSlot 4)
  else if !p.legal then .error (illegalSlot 4)
  else if !p.ok then .error (schedFault 8)
  else if !guardTrue t h.g then .ok { t with x := { t.x with vEnd := dc + vbeats h } }
  else if p.acc.isSome && xNames t == p.acc.map (·.1) then .error (schedFault 2)
  else if p.writes.any (fun w => collides t w.1 (dc + w.2)) then .error (schedFault 5)
  else if p.writes.any (fun w => tileRead t w.1 (dc + w.2)) then .error (schedFault 2)
  else if p.reads.any (fun r => landsBefore c t r.1 (dc + r.2)) then .error (schedFault 2)
  else if 64 < inFlight t + p.count then .error (schedFault 6)
  else
    let last := p.writes.foldl (fun m w => max m (dc + w.2)) dc
    .ok { t with x := { t.x with
      vEnd := dc + vbeats h,
      reads := t.x.reads ++ p.reads.map (fun r => (r.1, dc + r.2)),
      writes := t.x.writes ++ p.writes.map (fun w => (w.1, dc + w.2)),
      counts := t.x.counts ++ [(p.count, last)],
      zguard := t.x.zguard ++ (match p.acc with
        | some (z, k) => [(z, dc + k)]
        | none => []),
      vop := some { i := i, k := 0, b := vbeats h, issue := dc, fmt := t.c.fmt, scal := scal, rows := [], go := false } } }

/-- One beat: what it writes, when, and the rows it keeps for later beats. -/
abbrev Beat := Thread → VOp → List VWrite × List Row

/-- Perform the current operation's next beat (R268): its results enter the pipeline. -/
def beatV (t : Thread) (f : Beat) : Thread :=
  match t.x.vop with
  | none => t
  | some v =>
    let (ws, rows) := f t v
    { t with x := { t.x with
      inflight := t.x.inflight ++ ws.map (fun w => ⟨w.dest, v.issue + w.off, w.val, w.mask, w.flags, 1⟩),
      vop := if v.k + 1 < v.b then some { v with k := v.k + 1, rows := rows, go := false } else none } }

/-- Whether this is a later beat of the operation in progress, and not the issue of a slot (R267). -/
def laterBeat (t : Thread) (i : Instr) : Bool :=
  match t.x.vop with
  | some v => v.go && v.i == i
  | none => false

/-- A V slot: its issue with the first beat, or a later beat of it. -/
def runV (s : State) (i : Instr) (h : VHdr) (plan : Thread → VPlan) (f : Beat) (scal : Thread → Word := fun _ => 0) :
    Out :=
  match threadOf s s.cur with
  | none => .next s
  | some t =>
    if laterBeat t i then .next (setThread s s.cur (beatV t f))
    else match issueV s.cur t h i (plan t) (scal t) with
      | .error a => .next (attend s s.cur a)
      | .ok t' => .next (setThread s s.cur (if guardTrue t h.g then beatV t' f else t'))

/-! Operand rows -/

/-- Operand B of a VR slot (R266). -/
structure BOp where
  tb : BitVec 4
  br : BitVec 6
  fix : Bool
  deriving DecidableEq, Repr

/-- Row read by beat k as operand B (R267). -/
def BOp.row (b : BOp) (k : Nat) : Nat := 64 * b.tb.toNat + b.br.toNat + (if b.fix then 0 else k)

/-- The plan of a VR operation (R267, R268). -/
def planVR (h : VHdr) (dt : BitVec 4) (row : BitVec 6) (ta : BitVec 4) (bo : Option BOp) (lat : Nat) (vf readsD : Bool) :
    VPlan :=
  let ks := List.range (vbeats h)
  { count := min (vbeats h) (lat + 1), vf := vf,
    ok := decide (row.toNat + vbeats h ≤ 64) && (match bo with
      | some b => b.fix || decide (b.br.toNat + vbeats h ≤ 64)
      | none => true),
    reads := ks.map (fun k => (64 * ta.toNat + row.toNat + k, k)) ++ (match bo with
        | some b => ks.map (fun k => (b.row k, k))
        | none => []) ++
      (if readsD then ks.map (fun k => (64 * dt.toNat + row.toNat + k, k)) else []),
    writes := ks.map (fun k => (.trow (64 * dt.toNat + row.toNat + k), k + lat)) }

/-- Row n of the flat array of tile rows. -/
def flatRow (t : Thread) (n : Nat) : Row := trow t (n / 64) (n % 64)

/-- A row made element by element, with the flags of all. -/
def mapRow (w : Nat) (f : Nat → Nat × BitVec 5) : Row × BitVec 5 :=
  let rs := (List.range (2048 / w)).map f
  (BitVec.ofNat 2048 (packElems w (rs.map (·.1))), rs.foldl (fun a r => a ||| r.2) 0)

/-- A beat of a VR operation from a function of the A, B and D rows. -/
def beatVR (dt : BitVec 4) (row : BitVec 6) (ta : BitVec 4) (bo : Option BOp) (lat : Nat)
    (f : VOp → Row → Row → Row → Row × BitVec 5) : Beat := fun t v =>
  let d := 64 * dt.toNat + row.toNat + v.k
  let b := match bo with
    | some b => flatRow t (b.row v.k)
    | none => 0
  let r := f v (flatRow t (64 * ta.toNat + row.toNat + v.k)) b (flatRow t d)
  ([{ dest := .trow d, off := v.k + lat, val := r.1, flags := r.2 }], [])

/-! Element functions -/

/-- Element j of a row in FMT.VF, decoded. -/
def vElem (fmt : Word) (j : Nat) (r : Row) : FVal := decodeF (codeFmt (fmtVF fmt)) (elem (vfBits fmt) j r)

/-- round_to(VF, v, FMT.RM, 0), with an invalid operation's flag added (R271). -/
def vRound (fmt : Word) (x : FVal × BitVec 5) : Nat × BitVec 5 :=
  let r := roundTo (codeFmt (fmtVF fmt)) x.1 (fmtRM fmt) false
  (r.1, r.2 ||| x.2)

/-- A NaN made from operands none of which is NaN is invalid (R192). -/
def invalid (ops : List FVal) (x : FVal × Bool) : FVal × BitVec 5 :=
  if ops.any fnan then (.nan, 0) else (x.1, if x.2 then flNV else 0)

/-- x + y. -/
def vAdd (rm : Nat) (x y : FVal) : FVal × BitVec 5 := invalid [x, y] (fsum rm [x, y])

/-- x times y. -/
def vMul (x y : FVal) : FVal × BitVec 5 := invalid [x, y] (fmul x y)

/-- z + x times y, with one rounding (R271). -/
def vFma (rm : Nat) (x y z : FVal) : FVal × BitVec 5 :=
  let p := fmul x y
  if p.2 then invalid [x, y, z] (.nan, true) else invalid [x, y, z] (fsum rm [z, p.1])

/-- Total order of R272: -0 below +0. -/
def totalLt (x y : FVal) : Bool :=
  fcmp x y == .lt || (fzero x && fzero y && fneg x && !fneg y)

/-- VMIN and VMAX of two elements' bits (R272). -/
def minMaxBits (fmt : Word) (mx : Bool) (a b : Nat) : Nat :=
  let f := codeFmt (fmtVF fmt)
  let x := decodeF f a
  let y := decodeF f b
  if fnan x && fnan y then fmtNan f
  else if fnan x then b
  else if fnan y then a
  else if mx then (if totalLt x y then b else a) else (if totalLt y x then b else a)

/-- Width in bits and signedness of an integer TY (R277). -/
def tyBits (ty : BitVec 3) : Nat := 8 * 2 ^ (ty.toNat % 4)
def tySigned (ty : BitVec 3) : Bool := decide (ty.toNat < 4)

/-- An integer entry's element function over exact values (R277). -/
def mapInt (ty : BitVec 3) (f : Int → Int → Nat) (a b : Row) : Row × BitVec 5 :=
  mapRow (tyBits ty) (fun j =>
    (f (asInt (tyBits ty) (tySigned ty) (elem (tyBits ty) j a)) (asInt (tyBits ty) (tySigned ty) (elem (tyBits ty) j b)), 0))

/-- wrap, or sat_i and sat_n by TY (R180, R277). -/
def fitInt (ty : BitVec 3) (sat : Bool) (v : Int) : Nat :=
  if sat then satI (tyBits ty) (tySigned ty) v else wrapI (tyBits ty) v

/-- A shift by an element or an immediate count (R277). -/
def mapShift (ty : BitVec 3) (imm : Bool) (br : BitVec 6) (f : Nat → Nat → Nat) (a b : Row) : Row × BitVec 5 :=
  let w := tyBits ty
  mapRow w (fun j => (f (elem w j a) (if imm then br.toNat else elem w j b), 0))

/-- The shifts of w bits (R277): a count of w or more leaves nothing, or copies of the sign. -/
def shlBits (w x c : Nat) : Nat := if w ≤ c then 0 else x * 2 ^ c % 2 ^ w
def shrBits (w x c : Nat) : Nat := if w ≤ c then 0 else x / 2 ^ c
def sarBits (w x c : Nat) : Nat := wrapI w (asInt w true x / 2 ^ (min c w))

/-- Operand B unless the immediate stands in its place. -/
def bOr (imm : Bool) (tb : BitVec 4) (br : BitVec 6) (bfix : Bool) : Option BOp :=
  if imm then none else some ⟨tb, br, bfix⟩

/-! The entries -/

/-- VNOP (R286): the engine is busy for b beats. -/
def execVnop (h : VHdr) (_x : BitVec 30) (s : State) : Out :=
  runAlways s (fun t =>
    if t.x.dc < t.x.vEnd then .error (schedFault 1)
    else .ok (setThread s s.cur { t with x := { t.x with vEnd := t.x.dc + vbeats h } }))

/-- VADD (R271). -/
def execVadd (h : VHdr) (dt : BitVec 4) (row : BitVec 6) (ta : BitVec 4) (tb : BitVec 4) (br : BitVec 6) (bfix : Bool) (s : State) : Out :=
  runV s (.vadd h dt row ta tb br bfix) h (fun _t => planVR h dt row ta (some ⟨tb, br, bfix⟩) 4 true false)
    (beatVR dt row ta (some ⟨tb, br, bfix⟩) 4 (fun v a b _d =>
      mapRow (vfBits v.fmt) (fun j => vRound v.fmt (vAdd (fmtRM v.fmt) (vElem v.fmt j a) (vElem v.fmt j b)))))

/-- VSUB (R271). -/
def execVsub (h : VHdr) (dt : BitVec 4) (row : BitVec 6) (ta : BitVec 4) (tb : BitVec 4) (br : BitVec 6) (bfix : Bool) (s : State) : Out :=
  runV s (.vsub h dt row ta tb br bfix) h (fun _t => planVR h dt row ta (some ⟨tb, br, bfix⟩) 4 true false)
    (beatVR dt row ta (some ⟨tb, br, bfix⟩) 4 (fun v a b _d =>
      mapRow (vfBits v.fmt) (fun j => vRound v.fmt (vAdd (fmtRM v.fmt) (vElem v.fmt j a) (fminus (vElem v.fmt j b))))))

/-- VMUL (R271). -/
def execVmul (h : VHdr) (dt : BitVec 4) (row : BitVec 6) (ta : BitVec 4) (tb : BitVec 4) (br : BitVec 6) (bfix : Bool) (s : State) : Out :=
  runV s (.vmul h dt row ta tb br bfix) h (fun _t => planVR h dt row ta (some ⟨tb, br, bfix⟩) 4 true false)
    (beatVR dt row ta (some ⟨tb, br, bfix⟩) 4 (fun v a b _d =>
      mapRow (vfBits v.fmt) (fun j => vRound v.fmt (vMul (vElem v.fmt j a) (vElem v.fmt j b)))))

/-- VFMA (R271): the destination row is read at the beat. -/
def execVfma (h : VHdr) (dt : BitVec 4) (row : BitVec 6) (ta : BitVec 4) (tb : BitVec 4) (br : BitVec 6) (bfix : Bool) (s : State) : Out :=
  runV s (.vfma h dt row ta tb br bfix) h (fun _t => planVR h dt row ta (some ⟨tb, br, bfix⟩) 4 true true)
    (beatVR dt row ta (some ⟨tb, br, bfix⟩) 4 (fun v a b d =>
      mapRow (vfBits v.fmt) (fun j =>
        vRound v.fmt (vFma (fmtRM v.fmt) (vElem v.fmt j a) (vElem v.fmt j b) (vElem v.fmt j d)))))

/-- VMIN (R272). -/
def execVmin (h : VHdr) (dt : BitVec 4) (row : BitVec 6) (ta : BitVec 4) (tb : BitVec 4) (br : BitVec 6) (bfix : Bool) (s : State) : Out :=
  runV s (.vmin h dt row ta tb br bfix) h (fun _t => planVR h dt row ta (some ⟨tb, br, bfix⟩) 4 true false)
    (beatVR dt row ta (some ⟨tb, br, bfix⟩) 4 (fun v a b _d =>
      mapRow (vfBits v.fmt) (fun j => (minMaxBits v.fmt false (elem (vfBits v.fmt) j a) (elem (vfBits v.fmt) j b), 0))))

/-- VMAX (R272). -/
def execVmax (h : VHdr) (dt : BitVec 4) (row : BitVec 6) (ta : BitVec 4) (tb : BitVec 4) (br : BitVec 6) (bfix : Bool) (s : State) : Out :=
  runV s (.vmax h dt row ta tb br bfix) h (fun _t => planVR h dt row ta (some ⟨tb, br, bfix⟩) 4 true false)
    (beatVR dt row ta (some ⟨tb, br, bfix⟩) 4 (fun v a b _d =>
      mapRow (vfBits v.fmt) (fun j => (minMaxBits v.fmt true (elem (vfBits v.fmt) j a) (elem (vfBits v.fmt) j b), 0))))

/-- VABS (R273): the sign bit is cleared. -/
def execVabs (h : VHdr) (dt : BitVec 4) (row : BitVec 6) (ta : BitVec 4) (s : State) : Out :=
  runV s (.vabs h dt row ta) h (fun _t => planVR h dt row ta none 2 true false)
    (beatVR dt row ta none 2 (fun v a _b _d =>
      mapRow (vfBits v.fmt) (fun j => (elem (vfBits v.fmt) j a % 2 ^ (vfBits v.fmt - 1), 0))))

/-- VNEG (R273): the sign bit is inverted. -/
def execVneg (h : VHdr) (dt : BitVec 4) (row : BitVec 6) (ta : BitVec 4) (s : State) : Out :=
  runV s (.vneg h dt row ta) h (fun _t => planVR h dt row ta none 2 true false)
    (beatVR dt row ta none 2 (fun v a _b _d =>
      mapRow (vfBits v.fmt) (fun j => ((elem (vfBits v.fmt) j a + 2 ^ (vfBits v.fmt - 1)) % 2 ^ vfBits v.fmt, 0))))

/-- VCMP (R275): all ones where the condition holds. -/
def execVcmp (h : VHdr) (dt : BitVec 4) (row : BitVec 6) (ta : BitVec 4) (tb : BitVec 4) (br : BitVec 6) (bfix : Bool) (ty : BitVec 3) (s : State) : Out :=
  runV s (.vcmp h dt row ta tb br bfix ty) h (fun _t => planVR h dt row ta (some ⟨tb, br, bfix⟩) 4 true false)
    (beatVR dt row ta (some ⟨tb, br, bfix⟩) 4 (fun v a b _d =>
      mapRow (vfBits v.fmt) (fun j =>
        (if vcond ty.toNat (vElem v.fmt j a) (vElem v.fmt j b) then 2 ^ vfBits v.fmt - 1 else 0, 0))))

/-- VSEL (R278): the mask is the destination row as beat k reads it. -/
def execVsel (h : VHdr) (dt : BitVec 4) (row : BitVec 6) (ta : BitVec 4) (tb : BitVec 4) (br : BitVec 6) (bfix : Bool) (ty : BitVec 3) (s : State) : Out :=
  runV s (.vsel h dt row ta tb br bfix ty) h (fun _t => planVR h dt row ta (some ⟨tb, br, bfix⟩) 2 false true)
    (beatVR dt row ta (some ⟨tb, br, bfix⟩) 2 (fun _v a b d =>
      mapRow (tyBits ty) (fun j =>
        (if 2 ^ (tyBits ty - 1) ≤ elem (tyBits ty) j d then elem (tyBits ty) j a else elem (tyBits ty) j b, 0))))

/-- VEXP2 (R276). -/
def execVexp2 (h : VHdr) (dt : BitVec 4) (row : BitVec 6) (ta : BitVec 4) (s : State) : Out :=
  runV s (.vexp2 h dt row ta) h (fun _t => planVR h dt row ta none 8 true false)
    (beatVR dt row ta none 8 (fun v a _b _d =>
      mapRow (vfBits v.fmt) (fun j => vRound v.fmt (fexp2 (vElem v.fmt j a), 0))))

/-- VLOG2 (R276). -/
def execVlog2 (h : VHdr) (dt : BitVec 4) (row : BitVec 6) (ta : BitVec 4) (s : State) : Out :=
  runV s (.vlog2 h dt row ta) h (fun _t => planVR h dt row ta none 8 true false)
    (beatVR dt row ta none 8 (fun v a _b _d =>
      mapRow (vfBits v.fmt) (fun j => vRound v.fmt (flog2V (vElem v.fmt j a)))))

/-- VRCP (R276). -/
def execVrcp (h : VHdr) (dt : BitVec 4) (row : BitVec 6) (ta : BitVec 4) (s : State) : Out :=
  runV s (.vrcp h dt row ta) h (fun _t => planVR h dt row ta none 8 true false)
    (beatVR dt row ta none 8 (fun v a _b _d =>
      mapRow (vfBits v.fmt) (fun j => vRound v.fmt (frcp (vElem v.fmt j a)))))

/-- VRSQRT (R276). -/
def execVrsqrt (h : VHdr) (dt : BitVec 4) (row : BitVec 6) (ta : BitVec 4) (s : State) : Out :=
  runV s (.vrsqrt h dt row ta) h (fun _t => planVR h dt row ta none 8 true false)
    (beatVR dt row ta none 8 (fun v a _b _d =>
      mapRow (vfBits v.fmt) (fun j => vRound v.fmt (frsqrt (vElem v.fmt j a)))))

/-- a times 2^m; a zero, an infinity or a NaN is its own (R274). -/
def scaleBy (x : FVal) (m : Int) : FVal :=
  match x with
  | .fin s n e => .fin s n (e + m)
  | x => x

/-- m of VSCALE (R274). -/
def scaleM (fmt : Word) (imm : Bool) (br : BitVec 6) (j : Nat) (b : Row) : Int :=
  if imm then br.toInt else asInt (vfBits fmt) true (elem (vfBits fmt) j b)

/-- VSCALE (R274). -/
def execVscale (h : VHdr) (dt : BitVec 4) (row : BitVec 6) (ta : BitVec 4) (tb : BitVec 4) (br : BitVec 6) (bfix : Bool) (imm : Bool) (s : State) : Out :=
  runV s (.vscale h dt row ta tb br bfix imm) h (fun _t => planVR h dt row ta (bOr imm tb br bfix) 4 true false)
    (beatVR dt row ta (bOr imm tb br bfix) 4 (fun v a b _d =>
      mapRow (vfBits v.fmt) (fun j =>
        vRound v.fmt (scaleBy (vElem v.fmt j a) (clampI (-5000) 5000 (scaleM v.fmt imm br j b)), 0))))

/-- VIADD (R277). -/
def execViadd (h : VHdr) (dt : BitVec 4) (row : BitVec 6) (ta : BitVec 4) (tb : BitVec 4) (br : BitVec 6) (bfix : Bool) (ty : BitVec 3) (sat : Bool) (s : State) : Out :=
  runV s (.viadd h dt row ta tb br bfix ty sat) h (fun _t => planVR h dt row ta (some ⟨tb, br, bfix⟩) 2 false false)
    (beatVR dt row ta (some ⟨tb, br, bfix⟩) 2 (fun _v a b _d => mapInt ty (fun x y => fitInt ty sat (x + y)) a b))

/-- VISUB (R277). -/
def execVisub (h : VHdr) (dt : BitVec 4) (row : BitVec 6) (ta : BitVec 4) (tb : BitVec 4) (br : BitVec 6) (bfix : Bool) (ty : BitVec 3) (sat : Bool) (s : State) : Out :=
  runV s (.visub h dt row ta tb br bfix ty sat) h (fun _t => planVR h dt row ta (some ⟨tb, br, bfix⟩) 2 false false)
    (beatVR dt row ta (some ⟨tb, br, bfix⟩) 2 (fun _v a b _d => mapInt ty (fun x y => fitInt ty sat (x - y)) a b))

/-- VIMUL (R277). -/
def execVimul (h : VHdr) (dt : BitVec 4) (row : BitVec 6) (ta : BitVec 4) (tb : BitVec 4) (br : BitVec 6) (bfix : Bool) (ty : BitVec 3) (sat : Bool) (s : State) : Out :=
  runV s (.vimul h dt row ta tb br bfix ty sat) h (fun _t => planVR h dt row ta (some ⟨tb, br, bfix⟩) 4 false false)
    (beatVR dt row ta (some ⟨tb, br, bfix⟩) 4 (fun _v a b _d => mapInt ty (fun x y => fitInt ty sat (x * y)) a b))

/-- VIMIN (R277). -/
def execVimin (h : VHdr) (dt : BitVec 4) (row : BitVec 6) (ta : BitVec 4) (tb : BitVec 4) (br : BitVec 6) (bfix : Bool) (ty : BitVec 3) (s : State) : Out :=
  runV s (.vimin h dt row ta tb br bfix ty) h (fun _t => planVR h dt row ta (some ⟨tb, br, bfix⟩) 2 false false)
    (beatVR dt row ta (some ⟨tb, br, bfix⟩) 2 (fun _v a b _d => mapInt ty (fun x y => fitInt ty false (min x y)) a b))

/-- VIMAX (R277). -/
def execVimax (h : VHdr) (dt : BitVec 4) (row : BitVec 6) (ta : BitVec 4) (tb : BitVec 4) (br : BitVec 6) (bfix : Bool) (ty : BitVec 3) (s : State) : Out :=
  runV s (.vimax h dt row ta tb br bfix ty) h (fun _t => planVR h dt row ta (some ⟨tb, br, bfix⟩) 2 false false)
    (beatVR dt row ta (some ⟨tb, br, bfix⟩) 2 (fun _v a b _d => mapInt ty (fun x y => fitInt ty false (max x y)) a b))

/-- VAND (R277). -/
def execVand (h : VHdr) (dt : BitVec 4) (row : BitVec 6) (ta : BitVec 4) (tb : BitVec 4) (br : BitVec 6) (bfix : Bool) (s : State) : Out :=
  runV s (.vand h dt row ta tb br bfix) h (fun _t => planVR h dt row ta (some ⟨tb, br, bfix⟩) 2 false false)
    (beatVR dt row ta (some ⟨tb, br, bfix⟩) 2 (fun _v a b _d => (a &&& b, 0)))

/-- VOR (R277). -/
def execVor (h : VHdr) (dt : BitVec 4) (row : BitVec 6) (ta : BitVec 4) (tb : BitVec 4) (br : BitVec 6) (bfix : Bool) (s : State) : Out :=
  runV s (.vor h dt row ta tb br bfix) h (fun _t => planVR h dt row ta (some ⟨tb, br, bfix⟩) 2 false false)
    (beatVR dt row ta (some ⟨tb, br, bfix⟩) 2 (fun _v a b _d => (a ||| b, 0)))

/-- VXOR (R277). -/
def execVxor (h : VHdr) (dt : BitVec 4) (row : BitVec 6) (ta : BitVec 4) (tb : BitVec 4) (br : BitVec 6) (bfix : Bool) (s : State) : Out :=
  runV s (.vxor h dt row ta tb br bfix) h (fun _t => planVR h dt row ta (some ⟨tb, br, bfix⟩) 2 false false)
    (beatVR dt row ta (some ⟨tb, br, bfix⟩) 2 (fun _v a b _d => (a ^^^ b, 0)))

/-- VSHL (R277). -/
def execVshl (h : VHdr) (dt : BitVec 4) (row : BitVec 6) (ta : BitVec 4) (tb : BitVec 4) (br : BitVec 6) (bfix : Bool) (ty : BitVec 3) (imm : Bool) (s : State) : Out :=
  runV s (.vshl h dt row ta tb br bfix ty imm) h (fun _t => planVR h dt row ta (bOr imm tb br bfix) 2 false false)
    (beatVR dt row ta (bOr imm tb br bfix) 2 (fun _v a b _d => mapShift ty imm br (shlBits (tyBits ty)) a b))

/-- VSHR (R277). -/
def execVshr (h : VHdr) (dt : BitVec 4) (row : BitVec 6) (ta : BitVec 4) (tb : BitVec 4) (br : BitVec 6) (bfix : Bool) (ty : BitVec 3) (imm : Bool) (s : State) : Out :=
  runV s (.vshr h dt row ta tb br bfix ty imm) h (fun _t => planVR h dt row ta (bOr imm tb br bfix) 2 false false)
    (beatVR dt row ta (bOr imm tb br bfix) 2 (fun _v a b _d => mapShift ty imm br (shrBits (tyBits ty)) a b))

/-- VSAR (R277). -/
def execVsar (h : VHdr) (dt : BitVec 4) (row : BitVec 6) (ta : BitVec 4) (tb : BitVec 4) (br : BitVec 6) (bfix : Bool) (ty : BitVec 3) (imm : Bool) (s : State) : Out :=
  runV s (.vsar h dt row ta tb br bfix ty imm) h (fun _t => planVR h dt row ta (bOr imm tb br bfix) 2 false false)
    (beatVR dt row ta (bOr imm tb br bfix) 2 (fun _v a b _d => mapShift ty imm br (sarBits (tyBits ty)) a b))

/-! Conversions (R279) -/

/-- Width in bytes of a VCVT element code (R279). -/
def cvtBytes (code : Nat) : Nat :=
  match code with
  | 0 => 4
  | 1 | 2 => 2
  | 3 | 4 => 1
  | c => 2 ^ (c % 4)

/-- One VCVT element (R279). -/
def cvtElem (fmt : Word) (se de x : Nat) : Nat × BitVec 5 :=
  let sint : Bool := decide (8 ≤ se)
  let dint : Bool := decide (8 ≤ de)
  let sw := 8 * cvtBytes se
  let dw := 8 * cvtBytes de
  let sv := asInt sw (decide (se < 12)) x
  match sint, dint with
  | false, false => roundTo (codeFmt de) (decodeF (codeFmt se) x) (fmtRM fmt) (fmtSAT fmt)
  | false, true => toInt (decodeF (codeFmt se) x) dw (decide (de < 12)) (fmtRM fmt)
  | true, false => roundTo (codeFmt de) (ofInt sv) (fmtRM fmt) (fmtSAT fmt)
  | true, true => (if fmtSAT fmt then satI dw (decide (de < 12)) sv else wrapI dw sv, 0)

/-- Elements of one VCVT beat. -/
def cvtQ (se de : BitVec 4) : Nat := 256 / max (cvtBytes se.toNat) (cvtBytes de.toNat)

/-- The plan of a VCVT (R279). -/
def planCvt (h : VHdr) (dt : BitVec 4) (dr : BitVec 6) (ta : BitVec 4) (ar : BitVec 6) (se de : BitVec 4) : VPlan :=
  let q := cvtQ se de
  let at_ (w k : Nat) : Nat := k * q * w / 256
  let sw := cvtBytes se.toNat
  let dw := cvtBytes de.toNat
  let ks := List.range (vbeats h)
  { count := min (vbeats h) 5,
    ok := decide (ar.toNat + at_ sw (vbeats h - 1) < 64 ∧ dr.toNat + at_ dw (vbeats h - 1) < 64),
    reads := ks.map (fun k => (64 * ta.toNat + ar.toNat + at_ sw k, k)),
    writes := ks.map (fun k => (.trow (64 * dt.toNat + dr.toNat + at_ dw k), k + 4)) }

/-- VCVT (R279). -/
def execVcvt (h : VHdr) (dt : BitVec 4) (dr : BitVec 6) (ta : BitVec 4) (ar : BitVec 6) (se de : BitVec 4) (s : State) :
    Out :=
  runV s (.vcvt h dt dr ta ar se de) h (fun _t => planCvt h dt dr ta ar se de) (fun t v =>
    let q := cvtQ se de
    let sw := cvtBytes se.toNat
    let dw := cvtBytes de.toNat
    let src := flatRow t (64 * ta.toNat + ar.toNat + v.k * q * sw / 256)
    let es := (List.range q).map (fun m => cvtElem v.fmt se.toNat de.toNat (elem (8 * sw) (v.k * q % (256 / sw) + m) src))
    let lo := v.k * q * dw % 256
    ([{ dest := .trow (64 * dt.toNat + dr.toNat + v.k * q * dw / 256), off := v.k + 4,
        val := BitVec.ofNat 2048 (packElems (8 * dw) (es.map (·.1)) * 2 ^ (8 * lo)),
        mask := byteMask lo (lo + q * dw), flags := es.foldl (fun a e => a ||| e.2) 0 }], []))

/-! Block formats (R280) -/

/-- Bytes of a VF element. -/
def vfBytes (fmt : Word) : Nat := vfBits fmt / 8

/-- Rows that hold n packed bytes per plain row's worth of 256 / sw elements: the packed rows of b beats (R280). -/
def debRows (w4 : Bool) (units : Nat) : Nat := if w4 then (units + 1) / 2 else units
def mxPerRow (mf : BitVec 4) : Nat :=
  match mf.toNat with
  | 7 | 8 => 256
  | 11 => 512
  | _ => 320
def mxRows (mf : BitVec 4) (fmt : Word) (b : Nat) : Nat := (b * vfN fmt + mxPerRow mf - 1) / mxPerRow mf

/-- Where superblock n lies (R280): row and first byte. -/
def debPlace (w4 : Bool) (n : Nat) : Nat × Nat := if w4 then (n / 2, 128 * (n % 2)) else (n, 0)

/-- The limits of a block-format entry (R280): packed and metadata rows below row 64. -/
def packOk (base rows plain b : Nat) : Bool := decide (base + rows ≤ 64 ∧ plain + b ≤ 64)

/-- The plan of VPACKD and VUNPKD (R280, log entry 19). -/
def planDeb (h : VHdr) (dt : BitVec 4) (dr : BitVec 6) (ta : BitVec 4) (ar mr : BitVec 6) (w4 pack : Bool) (fmt : Word) :
    VPlan :=
  let sw := vfBytes fmt
  let u := vbeats h / sw
  let rows := debRows w4 u
  let base := if pack then dr.toNat else ar.toNat
  let plain := if pack then ar.toNat else dr.toNat
  let ks := List.range (vbeats h)
  let due (k : Nat) : Nat := k / sw * sw + sw - 1 + 4
  let elRow (k : Nat) : Nat := base + (debPlace w4 (k / sw)).1
  { count := 2, vf := true,
    legal := !decide (base ≤ mr.toNat ∧ mr.toNat < base + rows),
    ok := vbeats h % sw == 0 && decide (u ≤ 16) && packOk base rows plain (vbeats h),
    reads := if pack then ks.map (fun k => (64 * ta.toNat + plain + k, k))
      else ks.map (fun k => (64 * ta.toNat + elRow k, k)) ++ ks.map (fun k => (64 * ta.toNat + mr.toNat, k)),
    writes := if pack then
        (ks.filter (fun k => k % sw == sw - 1)).flatMap (fun k =>
          [(.trow (64 * dt.toNat + elRow k), due k), (.trow (64 * dt.toNat + mr.toNat), due k)])
      else ks.map (fun k => (.trow (64 * dt.toNat + plain + k), due k)) }

/-- A beat of VPACKD: the plain row is kept; at a unit's last beat the superblock is packed. -/
def beatPackd (dt : BitVec 4) (dr : BitVec 6) (ta : BitVec 4) (ar mr : BitVec 6) (w4 : Bool) : Beat := fun t v =>
  let sw := vfBytes v.fmt
  let rows := v.rows ++ [flatRow t (64 * ta.toNat + ar.toNat + v.k)]
  if v.k % sw + 1 < sw then ([], rows)
  else
    let xs := rows.flatMap (fun r => (List.range (vfN v.fmt)).map (fun j => vElem v.fmt j r))
    let (els, offs, e, fl) := debPack xs (if w4 then 4 else 8) (fmtRM v.fmt) (fmtSAT v.fmt)
    let n := v.k / sw
    let (r, lo) := debPlace w4 n
    let w := if w4 then 4 else 8
    ([{ dest := .trow (64 * dt.toNat + dr.toNat + r), off := v.k + 4,
        val := BitVec.ofNat 2048 (packElems w els * 2 ^ (8 * lo)),
        mask := byteMask lo (lo + 32 * w), flags := fl },
      { dest := .trow (64 * dt.toNat + mr.toNat), off := v.k + 4,
        val := BitVec.ofNat 2048 (packElems 8 (offs ++ [e]) * 2 ^ (128 * n)),
        mask := byteMask (16 * n) (16 * n + 16) }], [])

/-- VPACKD (R280). -/
def execVpackd (h : VHdr) (dt : BitVec 4) (dr : BitVec 6) (ta : BitVec 4) (ar mr : BitVec 6) (w : Bool) (s : State) :
    Out :=
  runV s (.vpackd h dt dr ta ar mr w) h (fun t => planDeb h dt dr ta ar mr w true t.c.fmt) (beatPackd dt dr ta ar mr w)

/-- A beat of VUNPKD: plain row k, from the elements and the metadata of its superblock. -/
def beatUnpkd (dt : BitVec 4) (dr : BitVec 6) (ta : BitVec 4) (ar mr : BitVec 6) (w4 : Bool) : Beat := fun t v =>
  let sw := vfBytes v.fmt
  let n := v.k / sw
  let (r, lo) := debPlace w4 n
  let els := flatRow t (64 * ta.toNat + ar.toNat + r)
  let m := flatRow t (64 * ta.toNat + mr.toNat)
  let w := if w4 then 4 else 8
  let first := v.k % sw * vfN v.fmt
  let row := mapRow (vfBits v.fmt) (fun j =>
    let i := first + j
    roundTo (codeFmt (fmtVF v.fmt))
      (debValue w (elem w (8 * lo / w + i) els) (elem 8 (16 * n + i / 32) m) (elem 8 (16 * n + 8) m))
      (fmtRM v.fmt) (fmtSAT v.fmt))
  ([{ dest := .trow (64 * dt.toNat + dr.toNat + v.k), off := n * sw + sw - 1 + 4, val := row.1, flags := row.2 }], [])

/-- VUNPKD (R280). -/
def execVunpkd (h : VHdr) (dt : BitVec 4) (dr : BitVec 6) (ta : BitVec 4) (ar mr : BitVec 6) (w : Bool) (s : State) :
    Out :=
  runV s (.vunpkd h dt dr ta ar mr w) h (fun t => planDeb h dt dr ta ar mr w false t.c.fmt) (beatUnpkd dt dr ta ar mr w)

/-- First packed row and the packed rows that beat k's elements lie in (R280). -/
def mxBeatRows (mf : BitVec 4) (fmt : Word) (k : Nat) : List Nat :=
  let c := mxPerRow mf
  let a := k * vfN fmt / c
  let z := ((k + 1) * vfN fmt - 1) / c
  (List.range (z + 1 - a)).map (a + ·)

/-- The plan of VPACKM and VUNPKM (R280). -/
def planMx (h : VHdr) (dt : BitVec 4) (dr : BitVec 6) (ta : BitVec 4) (ar sr : BitVec 6) (mf : BitVec 4) (pack : Bool)
    (fmt : Word) : VPlan :=
  let rows := mxRows mf fmt (vbeats h)
  let base := if pack then dr.toNat else ar.toNat
  let plain := if pack then ar.toNat else dr.toNat
  let ks := List.range (vbeats h)
  { count := 2, vf := true,
    legal := !decide (base ≤ sr.toNat ∧ sr.toNat < base + rows),
    ok := packOk base rows plain (vbeats h),
    reads := if pack then ks.map (fun k => (64 * ta.toNat + plain + k, k))
      else ks.flatMap (fun k => (64 * ta.toNat + sr.toNat, k) ::
        (mxBeatRows mf fmt k).map (fun r => (64 * ta.toNat + base + r, k))),
    writes := if pack then ks.flatMap (fun k => (.trow (64 * dt.toNat + sr.toNat), k + 4) ::
        (mxBeatRows mf fmt k).map (fun r => (.trow (64 * dt.toNat + base + r), k + 4)))
      else ks.map (fun k => (.trow (64 * dt.toNat + plain + k), k + 4)) }

/-- A beat of VPACKM: the blocks of plain row k. -/
def beatPackm (dt : BitVec 4) (dr : BitVec 6) (ta : BitVec 4) (ar sr : BitVec 6) (mf : BitVec 4) : Beat := fun t v =>
  let n := vfN v.fmt
  let src := flatRow t (64 * ta.toNat + ar.toNat + v.k)
  let ef := mxFmt mf.toNat
  let w := fmtBits mf.toNat
  let c := mxPerRow mf
  let units := (List.range (n / 32)).map (fun u =>
    mxPack ((List.range 32).map (fun j => vElem v.fmt (32 * u + j) src)) ef (fmtRM v.fmt) (fmtSAT v.fmt))
  let first := v.k * n / 32
  let blocks := units.zipIdx.map (fun (x : (List Nat × Nat × BitVec 5) × Nat) =>
    let m := (first + x.2) * 32
    let lo := m % c * w / 8
    ({ dest := .trow (64 * dt.toNat + dr.toNat + m / c), off := v.k + 4,
       val := BitVec.ofNat 2048 (packElems w x.1.1 * 2 ^ (8 * lo)),
       mask := byteMask lo (lo + 4 * w), flags := x.1.2.2 } : VWrite))
  (blocks ++ [{ dest := .trow (64 * dt.toNat + sr.toNat), off := v.k + 4,
                val := BitVec.ofNat 2048 (packElems 8 (units.map (fun u => u.2.1)) * 2 ^ (8 * first)),
                mask := byteMask first (first + n / 32) }], [])

/-- VPACKM (R280). -/
def execVpackm (h : VHdr) (dt : BitVec 4) (dr : BitVec 6) (ta : BitVec 4) (ar sr : BitVec 6) (mf : BitVec 4) (s : State) :
    Out :=
  runV s (.vpackm h dt dr ta ar sr mf) h (fun t => planMx h dt dr ta ar sr mf true t.c.fmt) (beatPackm dt dr ta ar sr mf)

/-- A beat of VUNPKM: plain row k. -/
def beatUnpkm (dt : BitVec 4) (dr : BitVec 6) (ta : BitVec 4) (ar sr : BitVec 6) (mf : BitVec 4) : Beat := fun t v =>
  let n := vfN v.fmt
  let w := fmtBits mf.toNat
  let c := mxPerRow mf
  let sc := flatRow t (64 * ta.toNat + sr.toNat)
  let row := mapRow (vfBits v.fmt) (fun j =>
    let m := v.k * n + j
    let src := flatRow t (64 * ta.toNat + ar.toNat + m / c)
    roundTo (codeFmt (fmtVF v.fmt)) (scaleE8 (elem 8 (m / 32) sc) (decodeF (mxFmt mf.toNat) (elem w (m % c) src)))
      (fmtRM v.fmt) (fmtSAT v.fmt))
  ([{ dest := .trow (64 * dt.toNat + dr.toNat + v.k), off := v.k + 4, val := row.1, flags := row.2 }], [])

/-- VUNPKM (R280). -/
def execVunpkm (h : VHdr) (dt : BitVec 4) (dr : BitVec 6) (ta : BitVec 4) (ar sr : BitVec 6) (mf : BitVec 4) (s : State) :
    Out :=
  runV s (.vunpkm h dt dr ta ar sr mf) h (fun t => planMx h dt dr ta ar sr mf false t.c.fmt) (beatUnpkm dt dr ta ar sr mf)

/-! Reductions (R281) -/

/-- The plan of a reduction (R281). -/
def planRed (h : VHdr) (dt : BitVec 4) (dr : BitVec 6) (ta : BitVec 4) (ar : BitVec 6) (doff : BitVec 7) (acc : Bool)
    (fmt : Word) : VPlan :=
  let ks := List.range (vbeats h)
  let d := 64 * dt.toNat + dr.toNat
  { count := min (vbeats h) 7, vf := true,
    ok := decide (ar.toNat + vbeats h ≤ 64 ∧ doff.toNat + vbeats h ≤ vfN fmt),
    reads := ks.map (fun k => (64 * ta.toNat + ar.toNat + k, k)) ++ (if acc then ks.map (fun k => (d, k)) else []),
    writes := ks.map (fun k => (.trow d, k + 6)) }

/-- A beat of a reduction: all elements of row AR + k, with the destination element when ACC = 1, to one element. -/
def beatRed (dt : BitVec 4) (dr : BitVec 6) (ta : BitVec 4) (ar : BitVec 6) (doff : BitVec 7) (acc : Bool)
    (f : Word → List Nat → Nat × BitVec 5) : Beat := fun t v =>
  let d := 64 * dt.toNat + dr.toNat
  let w := vfBits v.fmt
  let src := flatRow t (64 * ta.toNat + ar.toNat + v.k)
  let j := doff.toNat + v.k
  let terms := (if acc then [elem w j (flatRow t d)] else []) ++ (List.range (vfN v.fmt)).map (fun i => elem w i src)
  let r := f v.fmt terms
  ([{ dest := .trow d, off := v.k + 6, val := BitVec.ofNat 2048 (r.1 * 2 ^ (w * j)),
      mask := byteMask (w * j / 8) (w * j / 8 + w / 8), flags := r.2 }], [])

/-- The rounded exact sum (R281): specials by R200, the sign of a zero by R182. -/
def redSum (fmt : Word) (xs : List Nat) : Nat × BitVec 5 :=
  let r := fsum (fmtRM fmt) (xs.map (decodeF (codeFmt (fmtVF fmt))))
  vRound fmt (r.1, if r.2 then flNV else 0)

/-- R272 across all terms. -/
def redMinMax (mx : Bool) (fmt : Word) (xs : List Nat) : Nat × BitVec 5 :=
  match xs with
  | [] => (0, 0)
  | x :: r =>
    let y := r.foldl (minMaxBits fmt mx) x
    (if fnan (decodeF (codeFmt (fmtVF fmt)) y) then fmtNan (codeFmt (fmtVF fmt)) else y, 0)

/-- VRSUM (R281). -/
def execVrsum (h : VHdr) (dt : BitVec 4) (dr : BitVec 6) (ta : BitVec 4) (ar : BitVec 6) (doff : BitVec 7) (acc : Bool)
    (s : State) : Out :=
  runV s (.vrsum h dt dr ta ar doff acc) h (fun t => planRed h dt dr ta ar doff acc t.c.fmt)
    (beatRed dt dr ta ar doff acc redSum)

/-- VRMAX (R281). -/
def execVrmax (h : VHdr) (dt : BitVec 4) (dr : BitVec 6) (ta : BitVec 4) (ar : BitVec 6) (doff : BitVec 7) (acc : Bool)
    (s : State) : Out :=
  runV s (.vrmax h dt dr ta ar doff acc) h (fun t => planRed h dt dr ta ar doff acc t.c.fmt)
    (beatRed dt dr ta ar doff acc (redMinMax true))

/-- VRMIN (R281). -/
def execVrmin (h : VHdr) (dt : BitVec 4) (dr : BitVec 6) (ta : BitVec 4) (ar : BitVec 6) (doff : BitVec 7) (acc : Bool)
    (s : State) : Out :=
  runV s (.vrmin h dt dr ta ar doff acc) h (fun t => planRed h dt dr ta ar doff acc t.c.fmt)
    (beatRed dt dr ta ar doff acc (redMinMax false))

/-! Rearrangement and moves (R282 to R285) -/

/-- VSHUF (R282): an index of ne or more gives zero. -/
def execVshuf (h : VHdr) (dt : BitVec 4) (row : BitVec 6) (ta : BitVec 4) (tb : BitVec 4) (br : BitVec 6) (bfix : Bool) (ty : BitVec 3) (s : State) : Out :=
  runV s (.vshuf h dt row ta tb br bfix ty) h (fun _t => planVR h dt row ta (some ⟨tb, br, bfix⟩) 2 false false)
    (beatVR dt row ta (some ⟨tb, br, bfix⟩) 2 (fun _v a b _d =>
      let w := tyBits ty
      mapRow w (fun j => (let k := elem 8 j b; if k < 2048 / w then elem w k a else 0, 0))))

/-- The plan of a VTRANS (R283). -/
def planTrans (h : VHdr) (dt ta : BitVec 4) : VPlan :=
  { count := 64, ok := vbeats h == 64,
    reads := (List.range 64).map (fun c => (64 * ta.toNat + c, c)),
    writes := (List.range 64).map (fun r => (.trow (64 * dt.toNat + r), 66)) }

/-- VTRANS (R283): the rows are read one a beat, and all 64 are written at i + 66. -/
def execVtrans (h : VHdr) (dt : BitVec 4) (dq : BitVec 2) (ta : BitVec 4) (aq w : BitVec 2) (s : State) : Out :=
  runV s (.vtrans h dt dq ta aq w) h (fun _t => planTrans h dt ta) (fun t v =>
    let rows := v.rows ++ [flatRow t (64 * ta.toNat + v.k)]
    if v.k < 63 then ([], rows)
    else
      let wb := 8 * 2 ^ w.toNat
      let lo := 64 * dq.toNat * wb / 8
      ((List.range 64).map (fun r =>
        { dest := .trow (64 * dt.toNat + r), off := 66,
          val := BitVec.ofNat 2048 (packElems wb (rows.map (fun row => elem wb (64 * aq.toNat + r) row)) * 2 ^ (8 * lo)),
          mask := byteMask lo (lo + 8 * wb) }), []))

/-- The plan of an entry that moves rows of a tile (R284, R285). -/
def planMove (h : VHdr) (dt : BitVec 4) (dr : BitVec 6) (src : Option (Nat × Nat)) : VPlan :=
  let ks := List.range (vbeats h)
  { count := min (vbeats h) 3,
    ok := decide (dr.toNat + vbeats h ≤ 64) && (match src with
      | some (_, r) => decide (r + vbeats h ≤ 64)
      | none => true),
    reads := match src with
      | some (k, r) => ks.map (fun j => (64 * k + r + j, j))
      | none => [],
    writes := ks.map (fun k => (.trow (64 * dt.toNat + dr.toNat + k), k + 2)) }

/-- VMOV (R284). -/
def execVmov (h : VHdr) (dt : BitVec 4) (dr : BitVec 6) (ta : BitVec 4) (ar : BitVec 6) (s : State) : Out :=
  runV s (.vmov h dt dr ta ar) h (fun _t => planMove h dt dr (some (ta.toNat, ar.toNat))) (fun t v =>
    ([{ dest := .trow (64 * dt.toNat + dr.toNat + v.k), off := v.k + 2,
        val := flatRow t (64 * ta.toNat + ar.toNat + v.k) }], []))

/-- VBCAST (R284): the scalar is latched at issue. -/
def execVbcast (h : VHdr) (dt : BitVec 4) (dr : BitVec 6) (rs : BitVec 5) (w : BitVec 2) (s : State) : Out :=
  runV s (.vbcast h dt dr rs w) h (fun _t => planMove h dt dr none) (fun _t v =>
    ([{ dest := .trow (64 * dt.toNat + dr.toNat + v.k), off := v.k + 2,
        val := (mapRow (8 * 2 ^ w.toNat) (fun _ => (v.scal.toNat % 2 ^ (8 * 2 ^ w.toNat), 0))).1 }], []))
    (fun t => sreg t rs)

/-- VZRD (R285). -/
def execVzrd (h : VHdr) (dt : BitVec 4) (dr : BitVec 6) (z : BitVec 2) (zr : BitVec 6) (s : State) : Out :=
  runV s (.vzrd h dt dr z zr) h (fun _t =>
      { planMove h dt dr none with
        ok := decide (dr.toNat + vbeats h ≤ 64 ∧ zr.toNat + vbeats h ≤ 64), acc := some (z.toNat, max (vbeats h - 1) 1) }) (fun t v =>
    ([{ dest := .trow (64 * dt.toNat + dr.toNat + v.k), off := v.k + 2, val := arow t z.toNat (zr.toNat + v.k) }], []))

/-- VZWR (R285). -/
def execVzwr (h : VHdr) (z : BitVec 2) (zr : BitVec 6) (ta : BitVec 4) (ar : BitVec 6) (s : State) : Out :=
  runV s (.vzwr h z zr ta ar) h (fun _t =>
      { count := min (vbeats h) 3, ok := decide (ar.toNat + vbeats h ≤ 64 ∧ zr.toNat + vbeats h ≤ 64),
        reads := (List.range (vbeats h)).map (fun k => (64 * ta.toNat + ar.toNat + k, k)),
        writes := (List.range (vbeats h)).map (fun k => (.arow (64 * z.toNat + zr.toNat + k), k + 2)),
        acc := some (z.toNat, vbeats h + 1) }) (fun t v =>
    ([{ dest := .arow (64 * z.toNat + zr.toNat + v.k), off := v.k + 2,
        val := flatRow t (64 * ta.toNat + ar.toNat + v.k) }], []))

end Sys2Proof.Machine
end

