-- ==== Sys2Proof/Machine/Matrix.lean ====
section
/-! DEFINITION. The X slots and the matrix engine's beats (R198 to R200, R287 to R301). -/

namespace Sys2Proof.Machine

/-- BEATS of an X slot (R209). -/
def xbeats (h : XHdr) : Nat := h.beats.toNat + 1

/-- The checks of an X slot's issue and its busy span (R169, R189, R297, R300): BUSY and the illegal-slot trap whatever its
guard; BEATS, a fault of its own operation, only when that is true (R167, log entry 45). -/
def xBusy (t : Thread) (g : Guard) (legal ok : Bool) (n : Nat) : Except Attn Thread :=
  if t.x.dc < t.x.xEnd then .error (schedFault 1)
  else if !legal then .error (illegalSlot 5)
  else if guardTrue t g && !ok then .error (schedFault 8)
  else .ok { t with x := { t.x with xEnd := t.x.dc + n } }

/-- An X slot may not name an accumulator that a VZRD or VZWR still uses (R269). -/
def zFree (t : Thread) (z : BitVec 2) : Except Attn Unit :=
  if t.x.zguard.any (fun g => g.1 == z.toNat && decide (t.x.dc < g.2)) then .error (schedFault 2) else .ok ()

/-- Whether FMT names a matrix pair of one class (R189). -/
def matrixPair (fmt : Word) : Bool :=
  fmtClass (wf 3 0 fmt) != 0 && fmtClass (wf 3 0 fmt) == fmtClass (wf 7 4 fmt)

/-- The operation registered at issue: what R291 latches. -/
def xopOf (t : Thread) (i : Instr) (h : XHdr) (np : Nat) (z : BitVec 2) (a0 sa b0 sb inca incb : Word) : XOp :=
  { i := i, j := 0, b := xbeats h, np := np, issue := t.x.dc, fmt := t.c.fmt, nbv := t.c.nbv, xmask := t.c.xmask,
    xscl := t.c.xscl, z := z.toNat, a0 := a0, sa := sa, b0 := b0, sb := sb, inca := inca, incb := incb, kstep := 0,
    ks := [], pos := t.nextReq, ready := 0, tried := false, upto := 0, got := [], fault := none }

/-- XNOP (R301). -/
def execXnop (h : XHdr) (_x : BitVec 22) (s : State) : Out :=
  runAlways s (fun t => (xBusy t h.g true true (xbeats h)).map (setThread s s.cur))

/-- The passes of an MMA (R210, R297). -/
def passes (rpe : Bool) (cnt : BitVec 12) : Nat := if rpe then cnt.toNat else 1

/-- An increment register's value, zero without the repeat prefix (R297). -/
def incOf (t : Thread) (rpe : Bool) (r : BitVec 5) : Word := if rpe then sreg t r else 0

/-- MMA (R297). -/
def execMma (h : XHdr) (rpe : Bool) (cnt : BitVec 12) (inca incb : BitVec 5) (z : BitVec 2) (ra rsa rb rsb : BitVec 5)
    (s : State) : Out :=
  runAlways s (fun t =>
    (xBusy t h.g (matrixPair t.c.fmt) true (passes rpe cnt * xbeats h)).bind (fun t =>
      if !guardTrue t h.g then .ok (setThread s s.cur t)
      else (zFree t z).map (fun _ =>
        let x := xopOf t (.mma h rpe cnt inca incb z ra rsa rb rsb) h (passes rpe cnt) z (sreg t ra) (sreg t rsa)
          (sreg t rb) (sreg t rsb) (incOf t rpe inca) (incOf t rpe incb)
        setThread s s.cur { t with nextReq := t.nextReq + 1, x := { t.x with xop := some x } })))

/-- MMA.TB (R298): a pending Tide fault is raised when the position is not resident (R117). -/
def execMmaTb (h : XHdr) (rpe : Bool) (cnt : BitVec 12) (inca incb : BitVec 5) (z : BitVec 2) (ra rsa rbs : BitVec 5)
    (pos : BitVec 3) (rel : Bool) (s : State) : Out :=
  runAlways s (fun t =>
    (xBusy t h.g (matrixPair t.c.fmt) (decide (xbeats h ≤ 64)) (passes rpe cnt * xbeats h)).bind (fun t =>
      if !guardTrue t h.g then .ok (setThread s s.cur t)
      else if !t.tide.pending.isEmpty && decide (t.tide.buf.length ≤ pos.toNat) then .error (.pending 1 0)
      else (zFree t z).map (fun _ =>
        let x := xopOf t (.mmaTb h rpe cnt inca incb z ra rsa rbs pos rel) h (passes rpe cnt) z (sreg t ra) (sreg t rsa)
          (sreg t rbs) 0 (incOf t rpe inca) (incOf t rpe incb)
        setThread s s.cur { t with nextReq := t.nextReq + 1, x := { t.x with xop := some x } })))

/-- Results of the X engine that fall due l cycles from now; they do not count in flight (R293). -/
def xResults (t : Thread) (l : Nat) (rs : List (Dest × Row × Row × BitVec 5)) : Thread :=
  { t with x := { t.x with inflight := t.x.inflight ++ rs.map (fun r => ⟨r.1, t.x.dc + l, r.2.1, r.2.2.1, r.2.2.2, 2⟩) } }

/-- ZZERO (R300). -/
def execZzero (h : XHdr) (z : BitVec 2) (s : State) : Out :=
  runAlways s (fun t =>
    (xBusy t h.g true (xbeats h == 1) (xbeats h)).bind (fun t =>
      if !guardTrue t h.g then .ok (setThread s s.cur t)
      else (zFree t z).map (fun _ =>
        setThread s s.cur (xResults t 1 ((List.range 64).map (fun m => (.arow (64 * z.toNat + m), 0, fullMask, 0)))))))

/-- ZSCALE's element: round_acc of the product; NV for 0 times an infinity, OF for an overflow (R300). -/
def zscaleElem (a y : Nat) : Nat × BitVec 5 :=
  let p := fmul (decodeF .fp32 a) (decodeF .fp32 y)
  let r := roundAcc p.1
  (r.1, r.2 ||| (if p.2 then flNV else 0))

/-- ZSCALE (R300). -/
def execZscale (h : XHdr) (z : BitVec 2) (tl : BitVec 4) (row : BitVec 6) (ax : Bool) (s : State) : Out :=
  runAlways s (fun t =>
    (xBusy t h.g true (xbeats h == 1) (xbeats h)).bind (fun t =>
      if !guardTrue t h.g then .ok (setThread s s.cur t)
      else (zFree t z).bind (fun _ =>
        let k := 64 * tl.toNat + row.toNat
        if landsBefore s.cur t k t.x.dc then .error (schedFault 2)
        else
          let y := flatRow t k
          let rs := (List.range 64).map (fun m =>
            let old := arow t z.toNat m
            let r := mapRow 32 (fun n => zscaleElem (elem 32 n old) (elem 32 (if ax then n else m) y))
            (Dest.arow (64 * z.toNat + m), r.1, fullMask, r.2))
          let t := xResults t 1 rs
          .ok (setThread s s.cur { t with x := { t.x with reads := t.x.reads ++ [(k, t.x.dc)] } }))))

/-- ZOUT (R300): its tile writes are checked at issue; its beats read the accumulator one row a cycle. -/
def execZout (h : XHdr) (z : BitVec 2) (dt : BitVec 4) (row zr : BitVec 6) (df : BitVec 4) (s : State) : Out :=
  runAlways s (fun t =>
    let b := xbeats h
    (xBusy t h.g true (decide (b ≤ 64 ∧ row.toNat + b ≤ 64 ∧ zr.toNat + b ≤ 64)) b).bind (fun t =>
      if !guardTrue t h.g then .ok (setThread s s.cur t)
      else (zFree t z).bind (fun _ =>
        let ws : List (Dest × Nat) :=
          (List.range b).map (fun k => (.trow (64 * dt.toNat + row.toNat + k), t.x.dc + k + 4))
        if ws.any (fun w => collides t w.1 w.2) then .error (schedFault 5)
        else if ws.any (fun w => tileRead t w.1 w.2) then .error (schedFault 2)
        else if 64 < inFlight t + min b 5 then .error (schedFault 6)
        else
          let x := xopOf t (.zout h z dt row zr df) h 1 z 0 0 0 0 0 0
          .ok (setThread s s.cur { t with x := { t.x with
            writes := t.x.writes ++ ws, counts := t.x.counts ++ [(min b 5, t.x.dc + b + 3)], xop := some x } }))))

/-! The beats of MMA and MMA.TB (R291 to R299) -/

/-- An operand range with the place its row's start leads to. -/
abbrev XPlace := XRange × Place

/-- What the operand reads of a beat meet: they wait, a fault, or the values read with the places read from. -/
inductive XRead where
  | late (s : State)
  | stop (f : FaultRec) (s : State)
  | got (rs : List (XRange × Nat)) (ps : List XPlace) (s : State)

/-- The state as the beat in process translates in it: what it has found so far stands before the matrix TLB, which may
hold fewer pages than one beat reads (R23, R287). -/
def withGot (s : State) (c : Nat) (got : List TlbEnt) : State :=
  { s with tlbs := mput (cacheKey c 2) (got ++ mgetD [] (cacheKey c 2) s.tlbs) s.tlbs }

/-- A fault with the operand, the row, the pass and the k-step of the read that met it (R295, log entry 48). -/
def atBeat (x : XOp) (r : XRange) (f : FaultRec) : FaultRec :=
  { f with beat := some (r.what, r.row, x.pass, x.j % x.b * x.kpb) }

/-- The place of each range, with the translations found; a fault; or a walk to wait for (R25, R287, R295). -/
def placeRanges (s : State) (c : Nat) (t : Thread) (x : XOp) :
    List XRange → List TlbEnt → List TlbEnt × Except (Option FaultRec × State) (List XPlace)
  | [], got => (got, .ok [])
  | r :: rest, got =>
    match resolve (withGot s c got) .matrix c c 2 0xFFFF t.regs (privileged t) .read r.va with
    | .bad f => (got, .error (some (atBeat x r f), s))
    | .miss =>
      match s.walkFails.find? (fun w => w.core == c && w.cache == 2 && w.va == r.va) with
      | some w => (got, .error (some (atBeat x r w.f), s))
      | none => (got, .error (none, startWalk s c 2 0xFFFF r.va t.regs))
    | .at_ p =>
      let found := if p.leaf.isNone then none
        else tlbFind (withGot s c got) (cacheKey c 2) (wf 15 0 t.regs.asid) r.va
      let got := got ++ found.toList.filter (fun e => !got.contains e)
      match placeRanges s c t x rest got with
      | (got, .error e) => (got, .error e)
      | (got, .ok ps) => (got, .ok ((r, p) :: ps))

/-- The bytes of one range (R51); a replay's come from where R345 says. -/
def readRange (s : State) (c : Nat) (r : XRange) (p : Place) : Except FaultRec (List Byte) × State :=
  let va := r.va + BitVec.ofNat 64 r.lo
  let alt := match threadOf s c with
    | some t => if t.replay then replayRead s c t.regs false (p.pa + r.lo) va (r.hi - r.lo) else none
    | none => none
  match alt with
  | some x => (x, s)
  | none =>
    let (g, s) := readPa s { die := coreDie c, core := c, req := 2 } (p.pa + r.lo) (r.hi - r.lo) va
    match g.err with
    | some (e, a) => (.error (dataFault e 2 (r.va + BitVec.ofNat 64 (a - p.pa)) a), s)
    | none => (.ok g.bytes, s)

/-- The bytes of the ranges, as numbers, or the first error response (R51). -/
def readRanges (c : Nat) (x : XOp) : List XPlace → State → Except FaultRec (List (XRange × Nat)) × State
  | [], s => (.ok [], s)
  | (r, p) :: rest, s =>
    match readRange s c r p with
    | (.error f, s) => (.error (atBeat x r f), s)
    | (.ok bs, s) =>
      match readRanges c x rest s with
      | (.ok l, s) => (.ok ((r, leNat bs) :: l), s)
      | (.error f, s) => (.error f, s)

/-- The race detector's check of every read (R294). -/
def touchRanges (c : Nat) (x : XOp) : List XPlace → State → Except FaultRec State
  | [], s => .ok s
  | (r, p) :: rest, s =>
    match threadOf s c with
    | none => .ok s
    | some t =>
      if p.unchk then touchRanges c x rest s
      else match threadTouch s c t .load (p.pa + r.lo) (r.hi - r.lo) (r.va + BitVec.ofNat 64 r.lo) 2 with
        | .error f => .error (atBeat x r f)
        | .ok s => touchRanges c x rest s

/-- Whether a read has to wait for an earlier access of the thread (R294). -/
def readWaits (t : Thread) (x : XOp) (ps : List XPlace) : Bool :=
  t.reqs.any (fun q => decide (q.pos < x.pos) && !performed q && (acquires q.ord ||
    (q.parts.any (fun y => !y.done && ps.any (fun rp =>
      decide (y.pa < rp.2.pa + rp.1.hi ∧ rp.2.pa + rp.1.lo < y.pa + y.len))) &&
     (match q.kind with
      | .load .. => false
      | .row _ => false
      | _ => true))))

/-- Change the operation that core c's engine has in progress. -/
def modX (s : State) (c : Nat) (f : XOp → XOp) : State :=
  modThread s c (fun t => { t with x := { t.x with xop := t.x.xop.map f } })

/-- By when the beat's operands of other slices are in the engine (R292): their reads issue at a cycle of the engine's
choosing, a free value, no earlier than 16 beats before and no earlier than the operation. -/
def askRemote (s : State) (c : Nat) (x : XOp) (ps : List XPlace) : Nat × State :=
  let remote := ps.filter (fun rp => rp.2.pa / 0x800000 != c)
  if x.ready ≠ 0 then (x.ready, s)
  else if remote.isEmpty then (1, s)
  else
    let (n, s) := takeFree s
    let (m, s) := takeFree s
    let far := remote.foldl (fun m rp => max m (latency c (rp.2.pa / 0x800000))) 0
    (max 1 (s.now + far + Config.delay n - min (Config.draw m % 17) x.j), s)

/-- All operand reads of beat j (R289, R292, R294). -/
def readBeat (s : State) (c : Nat) (t : Thread) (x : XOp) : XRead :=
  let k0 := x.j % x.b * x.kpb
  match placeRanges s c t x (x.ranges x.pass k0 (k0 + x.kpb)) x.got with
  | (_, .error (some f, s)) => .stop f s
  | (got, .error (none, s)) => .late (modX s c (fun x => { x with got := got }))
  | (got, .ok ps) =>
    let (ready, s) := askRemote s c x ps
    let s := modX s c (fun x => { x with got := got, ready := ready })
    if s.now < ready || readWaits t x ps then .late s
    else
      match readRanges c x ps s with
      | (.error f, s) => .stop f s
      | (.ok rs, s) =>
        match touchRanges c x ps s with
        | .error f => .stop f s
        | .ok s => .got rs ps s

/-- Element k of an operand row, from the bytes read for it and for its scale plane (R179, R185, R186, R288). -/
def operandElem (code k lo v plo pv : Nat) : FVal :=
  let w := fmtBits code
  let el := bits (w * k - 8 * lo) w v
  if isMx code then scaleE8 (bits (8 * (k / 32 - plo)) 8 pv) (decodeF (mxFmt code) el)
  else if isDeb code then
    let m := 16 * (k / 256) - plo
    debValue w el (bits (8 * (m + k / 32 % 8)) 8 pv) (bits (8 * (m + 8)) 8 pv)
  else decodeF (codeFmt code) el

/-- What was read for an operand row: first byte and value. -/
def gotFor (rs : List (XRange × Nat)) (what row : Nat) : Nat × Nat :=
  match rs.find? (fun r => r.1.what == what && r.1.row == row) with
  | some r => (r.1.lo, r.2)
  | none => (0, 0)

/-- Bytes 128 n to 128 n + 127 of a weight tile (R298). -/
def tileRowBits (rows : List Row) (n : Nat) : Nat := bits (1024 * (n % 2)) 1024 ((rows[n / 2]?).getD 0).toNat

/-- The k-steps of beat j: for each, the column of A values and the row of B values (R297). -/
def beatSteps (x : XOp) (rs : List (XRange × Nat)) (tile : List Row) : List (List FVal × List FVal) :=
  let k0 := x.j % x.b * x.kpb
  (List.range x.kpb).map (fun i =>
    let k := k0 + i
    ((List.range x.rows).map (fun m =>
      let (lo, v) := gotFor rs 0 m
      let (plo, pv) := gotFor rs 2 m
      operandElem x.af k lo v plo pv),
     (List.range x.cols).map (fun n =>
      let (lo, v) := if x.tb then (0, tileRowBits tile n) else gotFor rs 1 n
      let (plo, pv) := gotFor rs 3 n
      operandElem x.bf k lo v plo pv)))

/-- One rounding of a sum into an FP32 position (R198, R200): the bits, with NV and OF. -/
def accSum (terms : List FVal) (inv : Bool) : Nat × BitVec 5 :=
  let r := fsum 0 terms
  let q := roundAcc r.1
  (q.1, q.2 ||| (if r.2 || inv then flNV else 0))

/-- A position after a group of products (R198), or after each product in turn (R199). -/
def accumulate (nbv : Bool) (z : Nat) (ps : List (FVal × Bool)) : Nat × BitVec 5 :=
  if nbv then
    ps.foldl (fun (a : Nat × BitVec 5) p =>
      let q := roundAcc p.1
      let r := accSum [decodeF .fp32 a.1, decodeF .fp32 q.1] p.2
      (r.1, a.2 ||| q.2 ||| r.2)) (z, 0)
  else accSum (decodeF .fp32 z :: ps.map (·.1)) (ps.any (·.2))

/-- The rows of the accumulator after the k-steps `ks` (R293, R297): masked positions keep their contents, or are
cleared with the operation's first result when ZEROM = 1. -/
def accRows (t : Thread) (x : XOp) (ks : List (List FVal × List FVal)) (clear : Bool) :
    List (Dest × Row × Row × BitVec 5) :=
  (List.range 64).filterMap (fun m =>
    if m < x.rows then
      let old := arow t x.z m
      let es := (List.range x.cols).map (fun n =>
        accumulate (x.nbv.getLsbD 0) (elem 32 n old)
          (ks.map (fun k => fmul ((k.1[m]?).getD .nan) ((k.2[n]?).getD .nan))))
      some (.arow (64 * x.z + m), BitVec.ofNat 2048 (packElems 32 (es.map (·.1))),
        if clear then fullMask else byteMask 0 (4 * x.cols), es.foldl (fun a e => a ||| e.2) 0)
    else if clear then some (.arow (64 * x.z + m), 0, fullMask, 0)
    else none)

/-- Results of a beat: in the pipeline for the next cycle, or at once in a beat run late in a frozen cycle, or while a save
awaits it (R292, R293, R295, R296). -/
def xWrite (t : Thread) (x : XOp) (rs : List (Dest × Row × Row × BitVec 5)) : Thread :=
  if t.x.dc = x.issue + x.j then xResults t 1 rs
  else rs.foldl (fun t r => orFlags (writeDest t r.1 r.2.1 r.2.2.1) r.2.2.2) t

/-- The words of its own slice that a beat reads (R35, R292). -/
def xWords (c : Nat) (ps : List XPlace) : List Nat :=
  (ps.flatMap (fun p =>
    if p.2.pa / 0x800000 == c then
      (List.range ((p.2.pa + p.1.hi + 31) / 32 - (p.2.pa + p.1.lo) / 32)).map (fun i => (p.2.pa + p.1.lo) / 32 + i)
    else [])).dedup

/-- A beat's own-slice reads take their sub-banks after M0 and M1 (R39, R292), and the domain waits for each word that must wait
(R40). -/
def takeXBanks (s : State) (c : Nat) (t : Thread) (ps : List XPlace) : State × Thread :=
  let banks := (xWords c ps).map (· % 32)
  let (n, s) := waitingWords s c (exposedBanks s c) banks
  (s, { t with x := { t.x with banks := t.x.banks + n, used := t.x.used ++ banks.dedup.map (fun b => t.x.dc * 32 + b) } })

/-- The operation after a beat whose k-steps are in (R198, R199): the accumulator is written at group ends, or at
every beat under NBV = 1; the head of the Tide buffer is released after a pass (R298). -/
def closeBeat (t : Thread) (x : XOp) (steps : List (List FVal × List FVal)) : Thread :=
  let k1 := x.j % x.b * x.kpb + x.kpb
  let ks := x.ks ++ steps
  let last := x.j % x.b + 1 == x.b
  let nb := x.nbv.getLsbD 0
  let write := nb || k1 % 32 == 0 || last
  let clear := write && x.xmask.getLsbD 16 && x.pass == 0 && x.kstep == 0
  let t := if write then xWrite t x (accRows t x ks clear) else t
  let freed := last && (match x.i with
    | .mmaTb _ _ _ _ _ _ _ _ _ _ rel => rel
    | _ => false)
  let t := if freed then { t with tide := { t.tide with buf := t.tide.buf.drop 1 } } else t
  let x := { x with j := x.j + 1, ks := if write then [] else ks, ready := 0, tried := false, got := [],
                    kstep := if last then 0 else if write then k1 else x.kstep }
  { t with x := { t.x with xop := if x.j < x.np * x.b then some x else none } }

/-- The tile an MMA.TB reads in a beat (R298): its rows; `none` while it has not landed, or when no tile can come, which is
judged as the pass's first beat is first attempted. -/
def tbTile (t : Thread) (x : XOp) : Except Bool (List Row) :=
  match x.i with
  | .mmaTb _ _ _ _ _ _ _ _ _ pos _ =>
    match t.tide.buf[pos.toNat]? with
    | some b => .ok b.2.2
    | none => .error (!x.tried && x.j % x.b == 0 && (t.tide.state == 0 || t.tide.state == 4))
  | _ => .ok []

/-- A beat of ZOUT (R300): accumulator row ZR + k is converted for tile row ROW + k. -/
def zoutBeat (t : Thread) (x : XOp) (z dt row zr df : Nat) : Thread :=
  let old := arow t z (zr + x.j)
  let w := fmtWidth (codeFmt df)
  let es := (List.range 64).map (fun j =>
    roundTo (codeFmt df) (decodeF .fp32 (elem 32 j old)) (fmtRM x.fmt) (fmtSAT x.fmt))
  let r : Result := ⟨.trow (64 * dt + row + x.j), x.issue + x.j + 4, BitVec.ofNat 2048 (packElems w (es.map (·.1))),
    byteMask 0 (8 * w), es.foldl (fun a e => a ||| e.2) 0, 2⟩
  let x := { x with j := x.j + 1 }
  { t with x := { t.x with inflight := t.x.inflight ++ [r], xop := if x.j < x.b then some x else none } }

/-- MATRIX_BEAT (R291 to R300): the next beat of core c's operation. A beat that lacks an operand freezes the core from
the next cycle on; a fault stops the engine before the beat. -/
def execMatrixBeat (core : Nat) (s : State) : Out :=
  match threadOf s core with
  | none => .next s
  | some t =>
    match t.x.xop with
    | none => .next s
    | some x =>
      if x.fault.isSome then .next s
      else match x.i with
      | .zout _ z dt row zr df => .next (setThread s core (zoutBeat t x z.toNat dt.toNat row.toNat zr.toNat df.toNat))
      | _ =>
        let stop (s : State) (f : FaultRec) : State :=
          modX s core (fun x => { x with upto := max x.upto (x.j + 1), fault := some f })
        let late (s : State) : State := modX s core (fun x => { x with upto := max x.upto (x.j + 1), tried := true })
        match tbTile t x with
        | .error true => .next (stop s (atBeat x ⟨0, 0, 0, 1, 0⟩ { cls := 1, cause := 7 }))
        | .error false => .next (late s)
        | .ok tile =>
          match readBeat s core t x with
          | .late s => .next (late s)
          | .stop f s => .next (stop s f)
          | .got rs ps s =>
            match threadOf s core with
            | none => .next s
            | some t =>
              -- beats that a save awaits run while the domain stands: what the beat before has left in flight is written
              let t := if t.x.dc < x.issue + x.j then landAcc t else t
              let (s, t) := if t.x.dc = x.issue + x.j then takeXBanks s core t ps else (s, t)
              .next (setThread s core (closeBeat t x (beatSteps x rs tile)))

end Sys2Proof.Machine
end

