-- ==== Sys2Proof/Machine/Probe.lean ====
section
/-! DEFINITION. The probe cache (R53 to R62): tags, the pseudo-LRU tree, the queue of fills and write-backs, and what an
invalidation does to the slots. -/

namespace Sys2Proof.Machine

/-- The engine context of a core's probe fill engine (R142). -/
def probeCtx (c : Nat) : Nat := 8 * c + 5

/-- A slot after reset (R55). -/
def PSlot.invalid : PSlot :=
  { state := 0, va := 0, asid := 0, ro := false, no := 0, pa := 0, dev := 0, cause := 0, errPa := 0, page := 0, leaf := none, drop_ := false,
    regs := JobRegs.reset, priv := true }

/-- Slot j. -/
def slotOf (s : State) (c j : Nat) : PSlot := mgetD PSlot.invalid j (coreOf s c).probe.slots

/-- Change core c's probe cache. -/
def modProbe (s : State) (c : Nat) (f : Probe → Probe) : State := modCore s c (fun k => { k with probe := f k.probe })

/-- Set slot j. -/
def setSlot (s : State) (c j : Nat) (x : PSlot) : State :=
  modProbe s c (fun p => { p with slots := mset PSlot.invalid j x p.slots })

/-- First byte of slot j, as a physical address (R53). -/
def slotPa (s : State) (c j : Nat) : Nat := c * 0x800000 + wf 22 14 (coreOf s c).probe.cfg * 16384 + 2048 * j

/-- The set of a block (R54). -/
def probeSet (cfg va : Word) : Nat := (wf 18 11 va ^^^ wf 26 19 va ^^^ wf 34 27 va) % 2 ^ wf 7 4 cfg

/-- The slot whose tag is a block's (R54); a slot that a TLBI has removed and that waits for its write-back matches none (R60). -/
def slotFor (s : State) (c asid : Nat) (va : Word) : Option Nat :=
  let p := (coreOf s c).probe
  let set := probeSet p.cfg va
  ((List.range 8).map (fun w => 8 * set + w)).find? (fun j =>
    let x := slotOf s c j
    x.state != 0 && x.va == va && x.asid == asid && !(x.state == 3 && x.drop_))

/-! The 7-bit tree (R56): node 0 is the root, a node's bit names the half that is the victim's (log entry 23) -/

/-- The tree after a hit on or a fill of way w: every node on the path points away. -/
def plruTouch (t : BitVec 7) (w : Nat) : BitVec 7 :=
  let put (t : BitVec 7) (n : Nat) (b : Nat) : BitVec 7 :=
    if b = 1 then t &&& ~~~(BitVec.ofNat 7 (2 ^ n)) else t ||| BitVec.ofNat 7 (2 ^ n)
  let a := w / 4 % 2
  let b := w / 2 % 2
  put (put (put t 0 a) (1 + a) b) (3 + 2 * a + b) (w % 2)

/-- The victim way among those that may be one. -/
def plruVictim (t : BitVec 7) (ok : Nat → Bool) : Option Nat :=
  let any (lo n : Nat) : Bool := (List.range n).any (fun i => ok (lo + i))
  if !any 0 8 then none
  else
    let side (node lo n : Nat) : Nat :=
      let want := b2n (t.getLsbD node)
      if any (lo + want * n) n then want else 1 - want
    let a := side 0 0 4
    let b := side (1 + a) (4 * a) 2
    let c := side (3 + 2 * a + b) (4 * a + 2 * b) 1
    some (4 * a + 2 * b + c)

/-- Update the tree of slot j's set. -/
def touchPlru (s : State) (c j : Nat) : State :=
  modProbe s c (fun p => { p with plru := mmod 0 (j / 8) (fun t => plruTouch t (j % 8)) p.plru })

/-! The queue (R57) -/

/-- The event that an operation's next piece of work is. -/
def probeEvent (c : Nat) (o : POp) : Instr := if o.fill then .fillComplete c o.no else .writebackComplete c o.no

/-- Look at an operation after a delay that the spec leaves open. -/
def startProbe (s : State) (c : Nat) (o : POp) : State :=
  let (n, s) := takeFree s
  schedule s (1 + Config.delay n) (probeEvent c o)

/-- Queue an operation: it takes the next number. -/
def queueProbe (s : State) (c : Nat) (o : POp) : State :=
  let o := { o with no := (coreOf s c).probe.no + 1 }
  let s := if o.issuer.frame < 2 ^ 32 then noteCtxJob s (probeCtx c) o.issuer.regs else s
  startProbe (modProbe s c (fun p => { p with no := o.no, queue := p.queue ++ [o] })) c o

/-- A fill of a slot, not yet numbered: it goes through the issuing job's translations. -/
def newFill (slot : Nat) (va : Word) (asid : Nat) (bar : Option (Word × Nat)) (phase : Nat) (i : Issuer) : POp :=
  { no := 0, fill := true, slot := slot, va := va, asid := asid, bar := bar.map (·.2), barGa := (bar.map (·.1)).getD 0,
    phase := phase, issuer := i, data := [],
    barStale := false, regs := i.regs, priv := i.priv, place := none, leaf := none, bank := ⟨0, []⟩, issued := none, done := false }

/-- A write-back of a slot's block, not yet numbered: it goes through the translations of the job that filled the slot
(R62). -/
def newWriteBack (slot : Nat) (x : PSlot) (i : Issuer) : POp :=
  { newFill slot x.va x.asid none 0 i with fill := false, regs := x.regs, priv := x.priv }

/-- The issuer of an operation that no thread issued. -/
def deviceIssuer (core : Nat) : Issuer :=
  { core := core, frame := 2 ^ 32, job := 0, regs := JobRegs.reset, priv := true, handler := false, replay := false, tid := 0, scnt := 0,
    startcnt := 0, aset := [], coarse := false, pos := 0 }

/-- The device a slot's dev field names: 0 this device, else one more than the device id. -/
def slotDev (d : Nat) : Option (BitVec 16) := if d = 0 then none else some (BitVec.ofNat 16 (d - 1))

/-! Invalidation (R60) -/

/-- Whether a TLBI of a form removes a slot's translation. -/
def slotHit (form asid : Nat) (va : Word) (x : PSlot) : Bool :=
  x.state != 0 &&
  (match form with
    | 1 => x.asid == asid && x.page != 0 && va.toNat % 2 ^ 56 / 2 ^ x.page == x.va.toNat / 2 ^ x.page
    | 2 => x.asid == asid
    | _ => true)

/-- What TLBI.SYNC waits for: an operation of a core's queue, or a slot that waits for room in it. -/
def opWait (c n : Nat) : Nat × Nat := (2 ^ 21 + probeCtx c, n)
def slotWait (c j : Nat) : Nat × Nat := (2 ^ 23 + c, j)

/-- A dropped DIRTY slot's write-back is queued (R57, R60), to the frame that the slot was filled from, and the slot is INVALID:
what waited for the slot waits for the operation. -/
def queueDropped (s : State) (c j : Nat) : State :=
  let x := slotOf s c j
  let s := setSlot (queueProbe s c { newWriteBack j x (deviceIssuer c) with place := some (x.pa, slotDev x.dev), leaf := x.leaf }) c j
    PSlot.invalid
  let n := (coreOf s c).probe.no
  { s with tlbis := s.tlbis.map (fun b => { b with waits := b.waits.map (fun w => if w = slotWait c j then opWait c n else w) }) }

/-- The queue has room (R57): the write-backs of dropped slots are queued, the lowest slot first. -/
def fillRoom : Nat → State → Nat → State
  | 0, s, _ => s
  | n + 1, s, c =>
    let p := (coreOf s c).probe
    if 32 ≤ (p.queue.filter (fun o => !o.done)).length then s
    else match p.slots.find? (fun x => x.2.state == 3 && x.2.drop_) with
      | some x => fillRoom n (queueDropped s c x.1) c
      | none => s

/-- What a TLBI does to one slot (R60): what TLBI.SYNC is to wait for, if anything. -/
def dropSlot (s : State) (c j : Nat) : Option (Nat × Nat) × State :=
  let x := slotOf s c j
  match x.state with
  | 1 => (some (opWait c x.no), setSlot s c j { x with drop_ := true })
  | 3 => (some (slotWait c j), setSlot s c j { x with drop_ := true })
  | _ => (none, setSlot s c j PSlot.invalid)

/-- What a TLBI does to every slot of every core, with the operations to wait for (R30, R60). -/
def probeTlbi (s : State) (form asid : Nat) (va : Word) : List (Nat × Nat) × State :=
  let hits := s.cores.flatMap (fun ck =>
    (ck.2.probe.slots.filter (fun x => slotHit form asid va x.2)).map (fun x => (ck.1, x.1)))
  hits.foldl (fun (r : List (Nat × Nat) × State) cj =>
    let (w, s) := dropSlot r.2 cj.1 cj.2
    (r.1 ++ w.toList, s)) ([], s)

/-- What the slots dropped now have to write back goes into the queues, as far as these have room. -/
def fillRooms (s : State) : State := (s.cores.map (·.1)).foldl (fun s c => fillRoom 32 s c) s

end Sys2Proof.Machine
end

