-- ==== Sys2Proof/Machine/Walks.lean ====
section
/-! DEFINITION. Page-table walks that finish (R20, R24, R25, R27, R29) and invalidation: TLBI, TLBI.SYNC and the queue of
control-register space (R28 to R33, R328). -/

namespace Sys2Proof.Machine

/-! Walks -/

/-- The REQ code of a cache's requester (R334): copy channel u, fill, fabric by the engine context. -/
def walkReq (cache ctx : Nat) : Nat :=
  match cache with
  | 0 => 1
  | 2 => 2
  | 3 => if ctx % 8 = 5 then 7 else 3 + ctx % 8
  | 4 => 8
  | _ => 0

/-- A walk's fault kept for the access that asked for it. -/
def keepFail (s : State) (w : Walk) (f : FaultRec) : State :=
  { s with walkFails := s.walkFails ++ [⟨w.cache, w.core, w.va, f⟩] }

/-- What a failed walk leads to (R25, R27): the precise fault of the bundle that waits, the fault of an expansion, a
matrix or engine access that finds the failure, or, for MIGRATING from an engine context, another walk after 1,024
cycles. -/
def walkFailed (s : State) (k : Nat) (w : Walk) (e : WalkErr) : State :=
  let f := walkFault e (walkReq w.cache w.ctx) w.va (if w.ctx < 0x8000 then w.ctx else 0xFFFF)
  if w.ctx = walkNobody then s
  else if w.ctx = walkFetch then expansionWalked s w.core (some f)
  else if w.ctx = 0xFFFE ∨ w.cache = 2 then keepFail s w f
  else if w.ctx = 0xFFFF then
    let waits := match (threadOf s w.core).bind (·.attn) with
      | some (.walk c _ va _) => c == w.cache && va == w.va
      | _ => false
    if waits then attend s w.core (.fault f) else s
  else if f.cls = 7 ∧ f.cause = 0xA then
    schedule { s with walks := mput k { w with stale := false } s.walks } 1024 (.migratingRewalk k)
  else keepFail s w f

/-- PAGE_TABLE_WALK_COMPLETE (R20, R23, R29): a walk that began before a TLBI took effect is started again; otherwise
the translation that the cluster TLB holds, or that the tables give, is installed, or the walk's failure reported. -/
def execPageTableWalkComplete (walk : Nat) (s : State) : Out :=
  match mget walk s.walks with
  | none => .next s
  | some w =>
    let s := { s with walks := mdel walk s.walks }
    let held := if w.regs.ttbase.getLsbD 0 then tlbFind s (clusterKey w.core) (wf 15 0 w.regs.asid) w.va else none
    if w.stale then .next (startWalk s w.core w.cache w.ctx w.va w.regs)
    else match (match held with
        | some e => (Except.ok e, s)
        | none => walkTables s w.core w.regs w.va) with
      | (.ok e, s) =>
        let s := tlbInstall s w.core w.cache e
        .next (if w.ctx = walkFetch then expansionWalked s w.core none else s)
      | (.error none, s) =>   -- a read of HBM waits for the dredge window to close (R84, R340)
        .next (schedule { s with walks := mput walk w s.walks } (2048 - s.now % 65536) (.pageTableWalkComplete walk))
      | (.error (some e), s) => .next (walkFailed s walk w e)

/-- MIGRATING_REWALK (R27): a paused engine context walks again. -/
def execMigratingRewalk (walk : Nat) (s : State) : Out :=
  match mget walk s.walks with
  | none => .next s
  | some w => .next (startWalk { s with walks := mdel walk s.walks } w.core w.cache w.ctx w.va w.regs)

/-! Invalidation (R28 to R31) -/

/-- Whether a TLBI of a form removes a translation: 1 page, 2 space, 3 all. -/
def tlbiHits (form asid : Nat) (va : Word) (e : TlbEnt) : Bool :=
  match form with
  | 1 => e.covers asid va
  | 2 => e.asid == asid
  | _ => true

/-- Remove the matching entries from every translation cache, and mark every walk in progress (R28, R29). -/
def invalidate (s : State) (form asid : Nat) (va : Word) : State :=
  { s with
    tlbs := s.tlbs.map (fun kv => (kv.1, kv.2.filter (fun e => !tlbiHits form asid va e))),
    walkCache := s.walkCache.map (fun kv => (kv.1, kv.2.filter (fun e => !(form == 3 || e.asid == asid)))),
    walks := s.walks.map (fun kv => (kv.1, { kv.2 with stale := true })),
    cores := s.cores.map (fun ck => (ck.1, { ck.2 with thread := ck.2.thread.map (fun t =>
      { t with x := { t.x with xop := t.x.xop.map (fun x => { x with got := x.got.filter (fun e => !tlbiHits form asid va e) }) } }) })) }

/-- Whether a part of a request of a thread with this ASID may have gone through a removed entry (log entry 18). -/
def partHit (form asid : Nat) (va : Word) (tasid : Nat) (p : Part) : Bool :=
  !p.done && !p.ga.getLsbD 55 &&
  (match form with
    | 1 => tasid == asid && p.ga.toNat / 2 ^ 30 == va.toNat / 2 ^ 30
    | 2 => tasid == asid
    | _ => true)

/-- The requests of a thread that a TLBI covers, by frame and number. -/
def coveredReqs (form asid : Nat) (va : Word) (t : Thread) : List (Nat × Nat) :=
  (t.reqs.filter (fun q => q.parts.any (partHit form asid va (wf 15 0 t.regs.asid)))).map (fun q => (t.frame, q.id))

/-- Whether a job's translations include what a TLBI of a form removes. -/
def asidHit (form asid : Nat) (r : JobRegs) : Bool := form == 3 || wf 15 0 r.asid == asid

/-- The operations in progress that translated through a removed entry (R30): requests of running threads, stores that a
saved context holds (R296), and the records, operations, fills, write-backs and collectives of engine contexts; a fill whose
barrier was translated at issue among them (R256). -/
def tlbiCovers (s : State) (form asid : Nat) (va : Word) : List (Nat × Nat) :=
  let reqs := s.cores.flatMap (fun ck => (ck.2.thread.map (coveredReqs form asid va)).getD [])
  let saved := s.saved.flatMap (fun sv => coveredReqs form asid va sv.2.thread)
  let engs := s.engines.flatMap (fun ke =>
    if ke.2.pages.any (tlbiHits form asid va) then
      if ke.2.busy then [(2 ^ 20 + ke.1, ke.2.serial)] else (ke.2.ops.take 1).map (fun o => (2 ^ 20 + ke.1, o.no))
    else [])
  let probes := s.cores.flatMap (fun ck =>
    (ck.2.probe.queue.filter (fun o => !o.done && (o.place.isSome || (o.bar.isSome && !o.barStale)) &&
        (form == 3 || o.asid == asid))).map
      (fun o => opWait ck.1 o.no))
  let colls := s.colls.flatMap (fun kc =>
    (kc.2.ops.take 1).filterMap (fun o =>
      if 0 < o.waiting && asidHit form asid o.issuer.regs then some (2 ^ 22 + kc.1, o.no) else none))
  reqs ++ saved ++ engs ++ probes ++ colls

/-- A TLBI of a thread has taken effect: it no longer counts among the thread's eight (R328), running or saved. -/
def tlbiTaken (s : State) (frame id : Nat) : State :=
  let drop (t : Thread) : Thread := { t with tlbis := t.tlbis.filter (· ≠ id) }
  { s with cores := s.cores.map (fun ck => (ck.1, { ck.2 with thread := ck.2.thread.map (fun t => if t.frame = frame then drop t else t) })),
           saved := s.saved.map (fun sv => (sv.1, if sv.1 = frame then { sv.2 with thread := drop sv.2.thread } else sv.2)) }

/-- The running thread that holds a save frame. -/
def threadByFrame (s : State) (f : Nat) : Option (Nat × Thread) :=
  s.cores.findSome? (fun ck => match ck.2.thread with
    | some t => if t.frame = f then some (ck.1, t) else none
    | none => none)

/-- Whether an operation that a TLBI covers has retired: it has finished, or its context has halted (R30). -/
def retired (s : State) (w : Nat × Nat) : Bool :=
  let gone (t : Thread) : Bool := t.reqs.all (fun q => q.id != w.2 || performed q)
  if w.1 < 2 ^ 20 then
    ((threadByFrame s w.1).map (fun ct => gone ct.2)).getD true && ((mget w.1 s.saved).map (fun sv => gone sv.thread)).getD true
  else if 2 ^ 23 ≤ w.1 then
    let x := slotOf s (w.1 - 2 ^ 23) w.2
    !(x.state == 3 && x.drop_)
  else if 2 ^ 22 ≤ w.1 then
    match mget (w.1 - 2 ^ 22) s.colls with
    | some k => k.halted.isSome || k.ops.all (fun o => o.no != w.2 || o.waiting == 0)
    | none => true
  else if 2 ^ 21 ≤ w.1 then
    let p := (coreOf s ((w.1 - 2 ^ 21) / 8)).probe
    p.queue.all (fun o => o.no != w.2 || o.done || (p.halted.isSome && o.issued.isNone))
  else
    let e := engineOf s (w.1 - 2 ^ 20)
    e.halted.isSome || (!(e.busy && e.serial == w.2) && e.ops.all (fun o => o.no != w.2))

/-- Begin a TLBI: it takes effect once the earlier stores it releases are performed (R28). -/
def startTlbi (s : State) (form asid : Nat) (va : Word) (frame : Option Nat) (waits : List (Nat × Nat)) :
    Nat × State :=
  let (k, s) := takeStamp s
  let (n, s) := takeFree s
  (k, schedule { s with tlbis := s.tlbis ++ [⟨k, form, asid, va, frame, false, waits⟩] } (1 + Config.delay n)
    (.tlbiTakesEffect k))

/-- TLBI_TAKES_EFFECT (R28 to R30): the entries are removed everywhere, and what TLBI.SYNC waits for is collected. -/
def execTlbiTakesEffect (id : Nat) (s : State) : Out :=
  match s.tlbis.find? (fun b => b.id == id) with
  | none => .next s
  | some b =>
    if b.waits.any (fun w => !retired s w) then .next (schedule s 1 (.tlbiTakesEffect id))
    else
      let waits := tlbiCovers s b.form b.asid b.va
      let (slots, s) := probeTlbi (invalidate s b.form b.asid b.va) b.form b.asid b.va
      let waits := waits ++ slots
      let s := fillRooms { s with tlbis := modWhere (fun x => x.id == id) (fun x => { x with effective := true, waits := waits }) s.tlbis }
      .next (match b.frame with
        | some f => tlbiTaken s f id
        | none => s)

/-- Whether a TLBI has taken effect and every operation it covers has retired (R30). -/
def tlbiDone (s : State) (id : Nat) : Bool :=
  match s.tlbis.find? (fun b => b.id == id) with
  | none => true
  | some b => b.effective && b.waits.all (retired s)

/-- TLBI (R328): privileged; a ninth that has not taken effect freezes the core. -/
def execTlbi (g : Guard) (form : BitVec 2) (rs ra : BitVec 5) (s : State) : Out :=
  runAlways s (fun t =>
    if !privileged t then .error (illegalSlot 6)
    else if !guardTrue t g then .ok s
    else if 8 ≤ t.tlbis.length then .error (.freeze 5)
    else
      let waits := (t.reqs.filter (fun q => !performed q)).map (fun q => (t.frame, q.id))
      let va : Word := if form = 1 then sreg t ra else 0
      let asid := if form = 3 then 0 else wf 15 0 (sreg t rs)
      let (k, s) := startTlbi s form.toNat asid va (some t.frame) waits
      let t := release t
      .ok (setThread s s.cur { t with tlbis := t.tlbis ++ [k], tlbiOps := t.tlbiOps ++ [k] }))

/-- TLBI.SYNC (R30, R328): stalls until every TLBI the thread issued is complete. -/
def execTlbiSync (g : Guard) (s : State) : Out :=
  runAlways s (fun t =>
    if !privileged t then .error (illegalSlot 6)
    else if !guardTrue t g then .ok s
    else if t.tlbiOps.any (fun k => !tlbiDone s k) then .error .stall
    else .ok (setThread { s with tlbis := s.tlbis.filter (fun b => !t.tlbiOps.contains b.id) } s.cur
      { t with tlbiOps := [] }))

/-! The queue of control-register space (R32, R33) -/

/-- The queue's head is performed: a TLBI without a thread. -/
def startQueued (s : State) : State :=
  match s.tlbiq.cmds with
  | [] => s
  | (form, asid, va) :: _ => schedule (startTlbi s form asid va none []).2 1 .tlbiCommandComplete

/-- A write of TLBICMD with a form: queued, or dropped with OVF when eight are pending (R33). -/
def queueTlbi (s : State) (form asid : Nat) : State :=
  if 8 ≤ s.tlbiq.cmds.length then { s with tlbiq := { s.tlbiq with ovf := true } }
  else
    let first := s.tlbiq.cmds.isEmpty
    let s := { s with tlbiq := { s.tlbiq with cmds := s.tlbiq.cmds ++ [(form, asid, s.tlbiq.va)] } }
    if first then startQueued s else s

/-- TLBICMD with OP 0b01 (R32, R33): the page form, at TLBIVA. -/
def execTlbicmdPage (asid : BitVec 16) (s : State) : Out := .next (queueTlbi s 1 asid.toNat)

/-- TLBICMD with OP 0b10: the space form. -/
def execTlbicmdSpace (asid : BitVec 16) (s : State) : Out := .next (queueTlbi s 2 asid.toNat)

/-- TLBICMD with OP 0b11: the all form. -/
def execTlbicmdAll (s : State) : Out := .next (queueTlbi s 3 0)

/-- TLBI_COMMAND_COMPLETE (R33): the queue's head has completed under R30; the next begins. -/
def execTlbiCommandComplete (s : State) : Out :=
  let own := s.tlbis.filter (fun b => b.frame.isNone)
  if own.any (fun b => !tlbiDone s b.id) then .next (schedule s 1 .tlbiCommandComplete)
  else
    .next (startQueued { s with tlbis := s.tlbis.filter (fun b => b.frame.isSome),
                                tlbiq := { s.tlbiq with cmds := s.tlbiq.cmds.drop 1 } })

end Sys2Proof.Machine
end

