-- ==== Sys2Proof/Machine/Barriers.lean ====
section
/-! DEFINITION. Transaction barriers (R135, R156, R310, R311), the halting of an engine context (R27, R51, R323), and the
C slots that act on barriers. -/

namespace Sys2Proof.Machine

/-! Contexts -/

/-- The core that holds an engine context; collective contexts log on die 0 (R142, R395). -/
def ctxCore (ctx : Nat) : Nat := if ctx < 0x4000 then ctx / 8 else 0

/-- The REQ code of a context (R334). -/
def ctxReq (ctx : Nat) : Nat :=
  if 0x4000 ≤ ctx then 9
  else match ctx % 8 with
    | 4 => 8
    | 5 => 7
    | u => 3 + u

/-- Who a context's accesses are logged under. -/
def whoCtx (ctx : Nat) : Who := ⟨coreDie (ctxCore ctx), ctxCore ctx, ctxReq ctx, ctx⟩

/-- Whether R142 assigns an engine context id. -/
def ctxAssigned (ctx : Nat) : Bool :=
  (decide (ctx < 0x4000) && decide (ctx % 8 ≤ 5) && decide (coreRow (ctx / 8) < 20)) ||
  decide (0x4000 ≤ ctx ∧ ctx < 0x4100) || ctx == 0x4800 || ctx == 0x4801

/-- Whether a context is halted. -/
def ctxHalted (s : State) (ctx : Nat) : Option FaultRec :=
  if 0x4000 ≤ ctx then (mget (ctx - 0x4000) s.colls).bind (·.halted)
  else if ctx % 8 = 5 then (coreOf s (ctx / 8)).probe.halted
  else (engineOf s ctx).halted

/-- The probe fill engine without the translations it holds (R27): places of the operations it has not issued, barriers of
all. -/
def dropPlaces (p : Probe) : Probe :=
  { p with queue := p.queue.map (fun o => if o.issued.isNone then { o with place := none, barStale := true } else { o with barStale := true }) }

/-- A context halts on a fault (R27, R51): its entry is written with HOLD = 1, and it discards its translations. -/
def haltContext (s : State) (ctx : Nat) (i : Issuer) (f : FaultRec) : State :=
  if (ctxHalted s ctx).isSome then s
  else if i.replay then
    -- R345: a replay ends without a fault, and its operations with it
    modEngine (abandonReplay s s.auditor.replayCore) ctx (fun e =>
      { e with tl := max e.tl e.last, chains := [], ops := [], busy := false, begun := false, words := [], pages := [],
               piece := 0, counted := false, finished := e.given })
  else
    let f := { f with ctx := ctx, req := ctxReq ctx }
    let s := fqFault s (if 0x4000 ≤ ctx then 0 else coreDie (ctxCore ctx))
      (ctxWords s (ctxCore ctx) (wf 15 0 i.regs.asid) i.tid f true)
    if 0x4000 ≤ ctx then
      { s with colls := match mget (ctx - 0x4000) s.colls with
          | some x => mput (ctx - 0x4000) { x with halted := some f } s.colls
          | none => s.colls }
    else if ctx % 8 = 5 then
      modCore s (ctx / 8) (fun k => { k with probe := { dropPlaces k.probe with halted := some f } })
    else modEngine s ctx (fun e => { e with halted := some f, pages := [], begun := false })

/-! The barrier word (R310) -/

/-- PHASE, ARR, SEC and RELOAD of a barrier word. -/
structure Bar where
  phase : Nat
  arr : Nat
  sec : Nat
  reload : Nat
  deriving DecidableEq, Repr

/-- The fields of the 128 bits. -/
def barOf (v : Nat) : Bar := ⟨bits 0 4 v, bits 4 28 v, bits 32 32 v, bits 64 28 v⟩

/-- The 128 bits with the fields in place; reserved bits are kept. -/
def barBits (old : Nat) (b : Bar) : Nat :=
  b.phase % 16 + b.arr % 2 ^ 28 * 16 + b.sec % 2 ^ 32 * 2 ^ 32 + b.reload % 2 ^ 28 * 2 ^ 64 + old / 2 ^ 92 * 2 ^ 92

/-- An update of a arrivals and c sectors: `none` for an over-arrival (R310). -/
def barUpdate (b : Bar) (a : Bool) (c : Int) : Option Bar :=
  if a && b.arr == 0 then none
  else
    let arr := b.arr - b2n a
    let sec := (((b.sec : Int) - c) % (2 ^ 32 : Int)).toNat
    if arr = 0 ∧ sec = 0 then some { b with phase := (b.phase + 1) % 16, arr := b.reload, sec := 0 }
    else some { b with arr := arr, sec := sec }

/-- The updates of n sectors, one after the other (R307, R310): with no arrival pending, the phase ends at the one that
brings SEC to 0. -/
def barSectors (b : Bar) (n : Nat) : Bar :=
  if b.arr = 0 ∧ 1 ≤ b.sec ∧ b.sec ≤ n then
    { b with phase := (b.phase + 1) % 16, arr := b.reload, sec := (2 ^ 32 * n - (n - b.sec)) % 2 ^ 32 }
  else { b with sec := (2 ^ 32 * n + b.sec - n) % 2 ^ 32 }

/-- Whether phase p has ended (R156, R310). -/
def barEnded (b : Bar) (p : Nat) : Bool := laterPhase b.phase p

/-- What a barrier access at its home gives. -/
inductive BarRes where
  | ok
  | overArrival
  | error (e : Nat × Nat)
  deriving DecidableEq, Repr

/-- Read a barrier word at its home. -/
def readBar (s : State) (w : Who) (pa : Nat) (ga : Word := 0) : Except (Nat × Nat) Nat × State :=
  let (g, s) := readPa s w pa 16 ga
  match g.err with
  | some e => (.error e, s)
  | none => (.ok (leNat g.bytes), s)

/-- Note that a thread's arrive counted into phase p, or that phase p begins anew (R143). -/
def noteArrive (s : State) (pa p : Nat) (thread : Bool) : State :=
  let old := mgetD 0 pa s.barArr
  let bit := 2 ^ (p % 16)
  let cleared := old - (if old / bit % 2 = 1 then bit else 0)
  { s with barArr := mset 0 pa (if thread then cleared + bit else cleared) s.barArr }

/-- A new value of a barrier word reaches its home (R310): a thread's arrive is noted under the phase it counted into,
and a phase that begins anew starts without one. -/
def putBar (s : State) (w : Who) (pa : Nat) (ga : Word) (v : Nat) (b : Bar) (arrive : Bool) : State :=
  let (_, s) := performWrite s w pa (leBytes 16 (barBits v b)) ga
  let s := if arrive then noteArrive s pa (barOf v).phase true else s
  if b.phase = (barOf v).phase then s else noteArrive s pa b.phase false

/-- Apply an update at the home (R310). -/
def applyBar (s : State) (w : Who) (pa : Nat) (ga : Word) (a : Bool) (c : Int) (thread : Bool) : BarRes × State :=
  match readBar s w pa ga with
  | (.error e, s) => (.error e, s)
  | (.ok v, s) =>
    match barUpdate (barOf v) a c with
    | none => (.overArrival, s)
    | some b => (.ok, putBar s w pa ga v b (a && thread))

/-- Apply the sectors of an engine's write at the home, one by one (R307, R310). -/
def applySectors (s : State) (w : Who) (pa : Nat) (ga : Word) (n : Nat) : BarRes × State :=
  match readBar s w pa ga with
  | (.error e, s) => (.error e, s)
  | (.ok v, s) => (.ok, putBar s w pa ga v (barSectors (barOf v) n) false)

/-- The sectors that an engine has written, or its arrival, reach a barrier (R135, R310): an over-arrival or an error
response halts the context, whose record lies at `cur`. A replay's update goes where its accesses go (R345). -/
def engineBar (s : State) (ctx : Nat) (i : Issuer) (cur : Word) (pa : Nat) (ga : Word) (arrive : Bool) (n : Nat) : State :=
  let late := chanFault 7 (ctxReq ctx) ctx cur ga
  match if i.replay then replayRead s (ctxCore ctx) i.regs false pa ga 16 else none with
  | some (.error f) => haltContext s ctx i f
  | some (.ok bs) =>
    let v := leNat bs
    match if arrive then barUpdate (barOf v) true 0 else some (barSectors (barOf v) n) with
    | none => haltContext s ctx i late
    | some b =>
      match replayWrite s (ctxCore ctx) i.regs false pa ga (leBytes 16 (barBits v b)) with
      | some (.ok s) => s
      | some (.error f) => haltContext s ctx i f
      | none => s
  | none =>
    match if arrive then applyBar s (whoCtx ctx) pa ga true 0 false else applySectors s (whoCtx ctx) pa ga n with
    | (.ok, s) => s
    | (.overArrival, s) => haltContext s ctx i late
    | (.error x, s) => haltContext s ctx i (dataFault x.1 (ctxReq ctx) ga x.2 ctx)

/-- The generic address of the barrier that a copy record in process names. -/
def recordBar (s : State) (ctx : Nat) : Word := ((engineOf s ctx).words[7]?).getD 0 &&& 0x00FFFFFFFFFFFFF0

/-- BARRIER_UPDATE (R135, R307, R310): the sectors that a copy channel's record has written, or its arrival, reach the
record's barrier; the record is still in process. -/
def execBarrierUpdate (pa : Nat) (arrive : Bool) (sectors : Word) (who : Nat) (s : State) : Out :=
  let e := engineOf s who
  let i : Issuer := match e.chains.head? with
    | some c => c.issuer
    | none => deviceIssuer (ctxCore who)
  .next (if e.halted.isSome then s else engineBar s who i e.cur pa (recordBar s who) arrive sectors.toNat)

/-! BINIT, BARRIVE, BWAIT (R311) -/

/-- The barrier a slot names: SRAM of this device, bits [3:0] ignored. -/
def barPlace (s : State) (t : Thread) (acc : Acc) (ra : BitVec 5) : Except Attn (Word × Place) :=
  let a := sreg t ra &&& ~~~(15#64)
  (threadPlace s t .mem 0 acc a).bind (fun p => (sramOnly p a).map (fun p => (a, p)))

/-- BINIT (R311). -/
def execBinit (g : Guard) (ra rn rs : BitVec 5) (s : State) : Out :=
  runSlot g s (fun t =>
    (barPlace s t .write ra).bind (fun (ap : Word × Place) =>
      let n := (sreg t rn).toNat
      let sec := (sreg t rs).toInt
      if n = 0 || decide (2 ^ 28 ≤ n) || decide (sec < -2147483648) || decide (2147483647 < sec) then
        .error (.fault (syncFault 1 ap.1))
      else
        let lo : Word := BitVec.ofNat 64 (n * 16 + (sec % (2 ^ 32 : Int)).toNat * 2 ^ 32)
        issueReq s t (.binit lo (BitVec.ofNat 64 n)) 2 .none ⟨0, false⟩ 0 0 [partAt ap.1 ap.2 16]))

/-- BARRIVE (R311): a release at its scope, counted in class S. -/
def execBarrive (g : Guard) (ra rs : BitVec 5) (exp : Bool) (scope : BitVec 3) (s : State) : Out :=
  runSlot g s (fun t =>
    (barPlace s t .atomic ra).bind (fun (ap : Word × Place) =>
      issueReq s t (.barrive (if exp then sreg t rs else 0)) 2 .none ⟨0, false⟩ 2 scope.toNat [partAt ap.1 ap.2 16]))

/-- A barrier phase's end is acquired at a scope that includes its home (R135, R143). -/
def acquireBar (s : State) (c : Nat) (t : Thread) (pa p scope : Nat) : Thread :=
  if !tracked t || !scopeIncludes scope c (pa / 0x800000) true then t
  else
    let q := mergeEntry (acqOf t) ⟨2, pa / 16 % 2 ^ 30, p, false⟩
    let q := (q.1, q.2 || mgetD 0 pa s.barArr / 2 ^ p % 2 == 1)
    withAcq t (acquireScope q scope)

/-- The barrier word as its thread sees it: an earlier BINIT of the thread that has not been performed stands in it
already (R124); an arrive ends no phase before it is performed. -/
def ownBar (t : Thread) (pa v : Nat) : Nat :=
  t.reqs.foldl (fun v q => match q.kind with
    | .binit lo hi =>
      if q.parts.any (fun p => !p.done && p.pa == pa) then barBits 0 (barOf (lo.toNat + hi.toNat * 2 ^ 64)) else v
    | _ => v) v

/-- BWAIT's read of the barrier word (R311): a replay's goes where its accesses go (R345). -/
def barWord (s : State) (t : Thread) (ga : Word) (pa : Nat) : Except Attn Nat :=
  match if t.replay then replayRead s s.cur t.regs false pa ga 16 else none with
  | some (.ok bs) => .ok (leNat bs)
  | some (.error f) => .error (.fault f)
  | none =>
    match (readBar s (whoCore s.cur) pa ga).1 with
    | .error e => .error (.response pa 16 (dataFault e.1 0 ga e.2))
    | .ok v => .ok v

/-- BWAIT and BWAIT.test (R311). -/
def execBwait (g : Guard) (test : Bool) (pd : BitVec 3) (ra rph : BitVec 5) (scope : BitVec 3) (s : State) : Out :=
  runSlot g s (fun t =>
    (barPlace s t .read ra).bind (fun (ap : Word × Place) =>
      let pa := ap.2.pa
      let p := wf 3 0 (sreg t rph)
      (barWord s t ap.1 pa).bind (fun v =>
        let s := (readBar s (whoCore s.cur) pa ap.1).2
        let done := barEnded (barOf (ownBar t pa v)) p
        if test then putPred s (if done then acquireBar s s.cur t pa p scope.toNat else t) pd done 2
        else if done then .ok (setThread s s.cur (acquireBar s s.cur t pa p scope.toNat))
        else .error .stall)))

end Sys2Proof.Machine
end

