-- ==== Sys2Proof/Machine/Engines.lean ====
section
/-! DEFINITION. Engine contexts at work (R27, R31, R133, R142, R294, R318 to R320, R381): translation for a context, the
pieces of one-sided transfers, and the completion of operations on a timeline. -/

namespace Sys2Proof.Machine

/-- The thread that issued an operation, while it runs. -/
def issuerThread (s : State) (i : Issuer) : Option (Nat × Thread) :=
  match threadByFrame s i.frame with
  | some (c, t) => if t.det.tid = i.tid ∧ t.det.startcnt = i.startcnt then some (c, t) else none
  | none => none

/-- The thread that issued an operation, running or saved, with the core it runs on or last issued from. -/
def issuerNow (s : State) (i : Issuer) : Option (Nat × Thread) :=
  match issuerThread s i with
  | some ct => some ct
  | none =>
    match mget i.frame s.saved with
    | some sv =>
      if sv.thread.det.tid = i.tid ∧ sv.thread.det.startcnt = i.startcnt then some (i.core, sv.thread) else none
    | none => none

/-- Every earlier memory operation of the issuing thread happens before every transfer (R133), the stores that its saved
context holds among them. -/
def issuerReady (s : State) (i : Issuer) : Bool :=
  match issuerNow s i with
  | some (_, t) => earlierDone t i.pos
  | none => true

/-- A transfer that writes bytes which the issuing thread's earlier matrix operation has still to read waits (R294). -/
def issuerHeld (s : State) (i : Issuer) (pa n : Nat) : Bool :=
  match issuerNow s i with
  | some (c, t) => (t.x.xop.any (fun x => decide (x.pos < i.pos))) && xOverlaps s c t pa n
  | none => false

/-- What a context gets for a generic address: a place, a walk to wait for, or a halt. -/
inductive EPlace where
  | ok (p : Place)
  | wait (s : State)
  | stop (s : State)

/-- Resolve an address for a context (R14, R25, R27): apertures are those of the core that holds it. -/
def ctxPlace (s : State) (ctx : Nat) (i : Issuer) (rq : Rq) (acc : Acc) (va : Word) : EPlace :=
  let c := ctxCore ctx
  match resolve s rq c c (ctxReq ctx) ctx i.regs i.priv acc va with
  | .at_ p => .ok p
  | .bad f => .stop (haltContext s ctx i f)
  | .miss =>
    let mine (w : WalkFail) : Bool := w.core == c && w.cache == rq.cache && w.va == va && w.f.ctx == ctx
    match s.walkFails.find? mine with
    | some w => .stop (haltContext { s with walkFails := s.walkFails.filter (fun x => !mine x) } ctx i w.f)
    | none => .wait (startWalk s c rq.cache ctx va i.regs)

/-- Go on with a context in the next cycle, unless it is to be looked at already. -/
def again (s : State) (ctx : Nat) : State :=
  if s.agenda.any (fun e => e.ev == .copyRecordProcess ctx) then s else schedule s 1 (.copyRecordProcess ctx)

/-- An event that sets the context going again after a walk or an answer. -/
def wake (s : State) (ctx : Nat) : State := again s ctx

/-- The device a place lies on, as packets name it. -/
def placeDev (s : State) (p : Place) : BitVec 16 := p.dev.getD s.plat.devid

/-- Change operation `no` of a context. -/
def modOp (s : State) (ctx no : Nat) (f : FabOp → FabOp) : State :=
  modEngine s ctx (fun e => { e with ops := modWhere (fun o => o.no == no) f e.ops })

/-! The translations of an operation (R31, R318): each page at its own first access -/

/-- The cache that serves a copy or fabric channel. -/
def ctxRq (ctx : Nat) : Rq := if ctx % 8 = 4 then .fabric else .copy

/-- The place of an address through the translations the operation holds (R14, R22). -/
def heldPlace (ctx : Nat) (e : Engine) (i : Issuer) (acc : Acc) (va : Word) : Except FaultRec (Option Place) :=
  let c := ctxCore ctx
  let check (p : Place) : Except FaultRec (Option Place) :=
    match checkPlace (ctxRq ctx) acc i.priv p with
    | some k => .error (placeFault k (ctxReq ctx) va p ctx)
    | none => .ok (some p)
  if wf 63 56 va ≠ 0 then .error (xlatFault 1 (ctxReq ctx) va 0 0 ctx)
  else if va.getLsbD 55 then
    match aperturePa i.regs c va with
    | some pa => check (.direct pa)
    | none => .error (xlatFault 2 (ctxReq ctx) va 0 0 ctx)
  else match e.pages.find? (fun t => t.covers (wf 15 0 i.regs.asid) va) with
    | some t => check (t.place va)
    | none => .ok none

/-- Resolve an address for the operation in process: through a translation it holds, or through the context's cache,
whose entry it then holds until it ends. -/
def opPlace (s : State) (ctx : Nat) (i : Issuer) (acc : Acc) (va : Word) : EPlace × State :=
  match heldPlace ctx (engineOf s ctx) i acc va with
  | .error f => (.stop (haltContext s ctx i f), s)
  | .ok (some p) => (.ok p, s)
  | .ok none =>
    match ctxPlace s ctx i (ctxRq ctx) acc va with
    | .ok p =>
      match tlbFind s (cacheKey (ctxCore ctx) (ctxRq ctx).cache) (wf 15 0 i.regs.asid) va with
      | some t => (.ok p, modEngine s ctx (fun e => { e with pages := e.pages ++ [t] }))
      | none => (.ok p, s)
    | x => (x, s)

/-- Bytes at consecutive generic addresses of one page: their place, the first address, how many. -/
abbrev Span := Place × Word × Nat

/-- The places of n bytes, at most 65,536, page by page (R31, R318); else what the operation has met. -/
def opSpans (s : State) (ctx : Nat) (i : Issuer) (acc : Acc) (va : Word) (n : Nat) : Except State (List Span × State) :=
  let k := 65536 - va.toNat % 65536
  match opPlace s ctx i acc va with
  | (.stop s, _) => .error s
  | (.wait s, _) => .error (again s ctx)
  | (.ok p, s) =>
    if n ≤ k then .ok ([(p, va, n)], s)
    else
      let vb := va + BitVec.ofNat 64 k
      match opPlace s ctx i acc vb with
      | (.stop s, _) => .error s
      | (.wait s, _) => .error (again s ctx)
      | (.ok q, s) => .ok ([(p, va, k), (q, vb, n - k)], s)

/-- The bytes of a packet (R360, R381): its one ADDR names the first, so it ends where the bytes do not run on in physical
memory (log entry 52). -/
def packetLen (l : List Span) : Nat :=
  match l with
  | [(p, _, k), (q, _, n)] => if p.dev == q.dev && p.pa + k == q.pa then k + n else k
  | (_, _, k) :: _ => k
  | [] => 0

/-- The first n bytes of spans. -/
def takeSpans : Nat → List Span → List Span
  | _, [] => []
  | n, (p, va, k) :: r => if n ≤ k then [(p, va, n)] else (p, va, k) :: takeSpans (n - k) r

/-- The bytes of this device's memory that spans name. -/
def hereSpans (l : List Span) : List (Nat × Nat) :=
  l.filterMap (fun x => if x.1.dev.isNone then some (x.1.pa, x.2.2) else none)

/-- An engine's step takes its turn at the slices it touches (R39). -/
def ctxServed (s : State) (ctx : Nat) (ev : Instr) (spans : List (Nat × Nat)) (k : State → State) : State :=
  engineServed s spans ev (fun s w => modEngine s ctx (fun e => { e with bank := w })) k

/-- The engine-write kind of an operation of a context (R146). -/
def writeKind (ctx no : Nat) (bar : Option (Nat × Nat)) : Touch := .engineWrite ctx no bar

/-- Read bytes of this device for a context: the detector's check, then the bytes (R51, R146). -/
def ctxRead (s : State) (ctx : Nat) (i : Issuer) (p : Place) (va : Word) (n : Nat) : Except FaultRec (List Byte) × State :=
  match if i.replay then replayRead s (ctxCore ctx) i.regs false p.pa va n else none with
  | some x => (x, s)
  | none =>
    let checked := if p.unchk || !inSram p.pa then .ok s else engineTouch s i .engineRead p.pa n va (ctxReq ctx) ctx
    match checked with
    | .error f => (.error f, s)
    | .ok s =>
      let (g, s) := readPlace s (whoCtx ctx) p n va
      match g.err with
      | some (e, a) => (.error (dataFault e (ctxReq ctx) va a ctx), s)
      | none => (.ok g.bytes, s)

/-- Write bytes of this device for a context. -/
def ctxWrite (s : State) (ctx : Nat) (i : Issuer) (k : Touch) (p : Place) (va : Word) (bs : List Byte) :
    Except FaultRec Unit × State :=
  match if i.replay then replayWrite s (ctxCore ctx) i.regs false p.pa va bs else none with
  | some (.ok s) => (.ok (), s)
  | some (.error f) => (.error f, s)
  | none =>
    let checked := if p.unchk || !inSram p.pa || bs.isEmpty then .ok s
      else engineTouch s i k p.pa bs.length va (ctxReq ctx) ctx
    match checked with
    | .error f => (.error f, s)
    | .ok s =>
      match performWrite (noteHint s p) (whoCtx ctx) p.pa bs va with
      | (some (e, a), s) => (.error (dataFault e (ctxReq ctx) va a ctx), s)
      | (none, s) => (.ok (), s)

/-- A request packet of an issuer's job. -/
def jobPacket (i : Issuer) (dst : BitVec 16) (kind sub pa aux : Nat) (data : List Byte) : Packet :=
  { blankPacket with dst := dst, job := i.regs.jobid.setWidth 16, kind := BitVec.ofNat 8 kind, sub := BitVec.ofNat 8 sub,
                     addr := BitVec.ofNat 52 pa, aux := BitVec.ofNat 52 aux, len := BitVec.ofNat 13 data.length,
                     data := data }

/-- Read spans of this device, in order. -/
def readSpans (ctx : Nat) (i : Issuer) : List Span → State → Except FaultRec (List Byte) × State
  | [], s => (.ok [], s)
  | (p, va, n) :: r, s =>
    match ctxRead s ctx i p va n with
    | (.error f, s) => (.error f, s)
    | (.ok bs, s) =>
      match readSpans ctx i r s with
      | (.error f, s) => (.error f, s)
      | (.ok l, s) => (.ok (bs ++ l), s)

/-- Write spans of this device, in order. -/
def writeSpans (ctx : Nat) (i : Issuer) (k : Touch) : List Span → List Byte → State → Except FaultRec Unit × State
  | [], _, s => (.ok (), s)
  | (p, va, n) :: r, bs, s =>
    match ctxWrite s ctx i k p va (bs.take n) with
    | (.error f, s) => (.error f, s)
    | (.ok _, s) => writeSpans ctx i k r (bs.drop n) s

/-- Whether HBM holds a channel's piece back: a copy channel stops issuing at the drain lead, a fabric channel's requests
are held while the window is open (R84, R340). -/
def hbmHeld (s : State) (ctx : Nat) (p : Place) : Bool :=
  p.dev.isNone && inHbm p.pa && (if ctx % 8 = 4 then inWindow s else s.dredge.drained)

/-- The bytes that a request of operation `no` brought have arrived (R381): they are written when their place allows. -/
def landPiece (s : State) (ctx no : Nat) (dst : Word) (bs : List Byte) : State :=
  wake (modOp s ctx no (fun o => { o with landed := o.landed ++ [(dst, bs)] })) ctx

/-- Write bytes that have arrived, here or on another device (R381): in a dredge window HBM holds them (R84). -/
def storeLanded (s : State) (ctx : Nat) (o : FabOp) (dst : Word) (bs : List Byte) : State :=
  let took (s : State) (waits : Bool) : State :=
    again (modOp s ctx o.no (fun o => { o with landed := o.landed.drop 1,
                                               waiting := if waits then o.waiting else o.waiting.erase dst.toNat })) ctx
  match opSpans s ctx o.issuer .write dst bs.length with
  | .error s => s
  | .ok (l, s) =>
    match l.find? (fun x => x.1.dev.isSome) with
    | some (p, _, _) => took (queuePacket s (jobPacket o.issuer (placeDev s p) 1 0 p.pa 0 bs) (.op ctx o.no dst)) true
    | none =>
      if l.any (fun x => hbmHeld s ctx x.1) then again s ctx
      else ctxServed s ctx (.copyRecordProcess ctx) (hereSpans l) (fun s =>
        match writeSpans ctx o.issuer (writeKind ctx o.no none) l bs s with
        | (.error f, s) => haltContext s ctx o.issuer f
        | (.ok _, s) => took s false)

/-- The side of a one-sided operation that must lie on this device (R318): the first page that does not. -/
def sideBroken (o : FabOp) (src dst : List Span) : Option Span :=
  (if o.kind = 0 then src else if o.kind = 1 then dst else []).find? (fun x => x.1.dev.isSome)

/-- Whether an operation's piece goes by a read request (R381): an FLD, or a copy from another device. -/
def byRequest (o : FabOp) (src : List Span) : Bool := o.kind == 1 || src.any (fun x => x.1.dev.isSome)

/-- A read request for a piece (R381), or a piece's bytes, read here and sent. -/
def movePieceOut (s : State) (ctx : Nat) (o : FabOp) (n : Nat) (src dst : List Span) : State :=
  let to_ := o.dst + BitVec.ofNat 64 o.off
  let sent (s : State) : State :=
    again (modOp s ctx o.no (fun o => { o with off := o.off + n, waiting := to_.toNat :: o.waiting })) ctx
  let first (l : List Span) : Place := (l.head?.map (·.1)).getD default
  if byRequest o src then
    sent (queuePacket (noteHint s (first src)) (jobPacket o.issuer (placeDev s (first src)) 2 0 (first src).pa n [])
      (.op ctx o.no to_))
  else ctxServed s ctx (.copyRecordProcess ctx) (hereSpans src) (fun s =>
    match readSpans ctx o.issuer src s with
    | (.error f, s) => haltContext s ctx o.issuer f
    | (.ok bs, s) =>
      if o.kind = 0 || (first dst).dev.isSome then
        sent (queuePacket (noteHint s (first dst)) (jobPacket o.issuer (placeDev s (first dst)) 1 0 (first dst).pa 0 bs)
          (.op ctx o.no to_))
      else match writeSpans ctx o.issuer (writeKind ctx o.no none) dst bs s with
        | (.error f, s) => haltContext s ctx o.issuer f
        | (.ok _, s) => again (modOp s ctx o.no (fun o => { o with off := o.off + n })) ctx)

/-- Send the next piece of an operation (R318, R381): piece i carries bytes 4,096 i onwards, and is cut only where its packet has
to end. A replay that would reach another device, or leave by the fabric, is abandoned (R345). -/
def sendPiece (s : State) (ctx : Nat) (o : FabOp) : State :=
  let m := min (o.len - o.off) (4096 - o.off % 4096)
  match opSpans s ctx o.issuer .read (o.src + BitVec.ofNat 64 o.off) m with
  | .error s => s
  | .ok (src, s) =>
    match opSpans s ctx o.issuer .write (o.dst + BitVec.ofNat 64 o.off) m with
    | .error s => s
    | .ok (dst, s) =>
      let n := packetLen (if byRequest o src then src else dst)
      let src := takeSpans n src
      let dst := takeSpans n dst
      let far (l : List Span) : Bool := l.any (fun x => x.1.dev.isSome)
      match sideBroken o src dst with
      | some (p, va, _) => haltContext s ctx o.issuer (placeFault 7 (ctxReq ctx) va p ctx)
      | none =>
        if o.issuer.replay && (far src || far dst || o.kind != 3) then
          haltContext s ctx o.issuer (dataFault 2 (ctxReq ctx) (o.dst + BitVec.ofNat 64 o.off) ((dst.head?.map (·.1.pa)).getD 0) ctx)
        else if (src ++ dst).any (fun x => hbmHeld s ctx x.1) then again s ctx
        else if (hereSpans dst).any (fun x => issuerHeld s o.issuer x.1 x.2) then again s ctx
        else movePieceOut s ctx o n src dst

/-- The counter's place (R318): SRAM of the device of the destination's first page for FST, of this device for FLD. -/
def ctrPlace (s : State) (ctx : Nat) (o : FabOp) (a : Word) : EPlace × State :=
  let onDev (p : Place) (dev : Option (BitVec 16)) (s : State) : EPlace × State :=
    if p.dev == dev && inSram p.pa then (.ok p, s)
    else (.stop (haltContext s ctx o.issuer (placeFault 7 (ctxReq ctx) a p ctx)), s)
  match opPlace s ctx o.issuer .atomic (a &&& ~~~(7#64)) with
  | (.ok p, s) =>
    if o.kind = 0 then
      match opPlace s ctx o.issuer .write o.dst with
      | (.ok pd, s) => onDev p pd.dev s
      | x => x
    else onDev p none s
  | x => x

/-- The counter takes its add (R318, R381): as CTRADD at the destination, or as a write of this channel for FLD. -/
def addCounter (s : State) (ctx : Nat) (o : FabOp) (a : Word) : State :=
  match ctrPlace s ctx o a with
  | (.stop s, _) => s
  | (.wait s, _) => again s ctx
  | (.ok p, s) =>
    if o.kind = 0 then
      modOp (queuePacket s (jobPacket o.issuer (placeDev s p) 4 0 p.pa 0 []) (.ctr ctx o.no)) ctx o.no
        (fun o => { o with ctrSent := true })
    else ctxServed s ctx (.copyRecordProcess ctx) [(p.pa, 8)] (fun s =>
      match ctxRead s ctx { o.issuer with handler := true } p a 8 with
      | (.error f, s) => haltContext s ctx o.issuer f
      | (.ok bs, s) =>
        match ctxWrite s ctx o.issuer (writeKind ctx o.no none) p a (leBytes 8 (leNat bs + 1)) with
        | (.error f, s) => haltContext s ctx o.issuer f
        | (.ok _, s) => again (modOp s ctx o.no (fun o => { o with ctrSent := true, ctr := none })) ctx)

/-- The head operation has completed: the timeline advances (R134). -/
def finishOp (s : State) (ctx : Nat) : State :=
  again (modEngine s ctx (fun e => { e with ops := e.ops.drop 1, tl := e.tl + 1, pages := [] })) ctx

/-- Whether a line's leaf lets it take VATOMs (R320). -/
def Place.rwin (p : Place) : Bool :=
  match p.leaf with
  | some l => l.getLsbD 13
  | none => false

/-- VATOM's one packet (R320, R360): translated by its channel (R25, R27). A leaf that no walk could reach at issue is
checked here. -/
def sendVatom (s : State) (ctx : Nat) (o : FabOp) : State :=
  match opPlace s ctx o.issuer .atomic o.dst with
  | (.stop s, _) => s
  | (.wait s, _) => again s ctx
  | (.ok p, s) =>
    if o.unseen && !p.rwin then haltContext s ctx o.issuer (placeFault 7 (ctxReq ctx) o.dst p ctx)
    else
      let data := (rowBytes o.data).take 128
      let s := noteHint s p
      modOp (queuePacket s (jobPacket o.issuer (placeDev s p) 5 (b2n o.ft) p.pa 0 data) (.op ctx o.no o.dst)) ctx o.no
        (fun o => { o with off := o.len, waiting := [o.dst.toNat] })

/-- One piece of work of a fabric channel's head operation. -/
def fabricStep (s : State) (ctx : Nat) : State :=
  let e := engineOf s ctx
  match e.halted, e.ops with
  | some _, _ => s
  | none, [] => s
  | none, o :: _ =>
    if !issuerReady s o.issuer then again s ctx
    else if o.kind = 2 then
      if o.off < o.len then sendVatom s ctx o else if o.waiting.isEmpty then finishOp s ctx else s
    else
      let start : EPlace × State := match o.ctr with
        | some a => if o.off = 0 && o.waiting.isEmpty && !o.ctrSent then ctrPlace s ctx o a else (.ok default, s)
        | none => (.ok default, s)
      match start with
      | (.stop s, _) => s
      | (.wait s, _) => again s ctx
      | (.ok _, s) =>
        match o.landed with
        | (dst, bs) :: _ => storeLanded s ctx o dst bs
        | [] =>
          if o.off < o.len then sendPiece s ctx o
          else if !o.waiting.isEmpty then s
          else match o.ctr with
            | some a => if o.ctrSent then s else addCounter s ctx o a
            | none => finishOp s ctx

/-- A counter add has been answered (R381). -/
def counterDone (s : State) (ctx no : Nat) : State := again (modOp s ctx no (fun o => { o with ctr := none })) ctx

/-! The fabric slots (R309, R318 to R320) -/

/-- Put a context's value into the open batch (R172). -/
def joinBatch (t : Thread) (ctx v : Nat) : Thread := { t with openB := mput ctx v t.openB }

/-- Whether a job may use the fabric (R323, R389). -/
def fabricJob (t : Thread) : Bool := wf 15 0 t.regs.jobid != 0 || wf 0 0 t.regs.priv == 1

/-- A precise channel fault (R323). -/
def chanStop (cause : Nat) (rec : Word) : Attn := .fault (chanFault cause 0 0xFFFF rec 0)

/-- Queue an operation on the thread's fabric channel (R318, R320). -/
def queueFab (s : State) (t : Thread) (kind : Nat) (dst src : Word) (len : Nat) (ctr : Option Word) (data : Row)
    (ft unseen : Bool) : Slot :=
  match t.fab with
  | none => .error (chanStop 2 0)
  | some ctx =>
    if !fabricJob t then .error (chanStop 2 0)
    else if 2 ^ 24 < len then .error (chanStop 3 0)
    else if 16 ≤ (engineOf s ctx).ops.length then .error (.freeze 5)
    else
      let t := release t
      let no := (engineOf s ctx).last + 1
      let o : FabOp := { no := no, kind := kind, dst := dst, src := src, len := len, ctr := ctr, data := data, ft := ft,
                         off := 0, waiting := [], ctrSent := false, landed := [], unseen := unseen,
                         issuer := issuerOf s.cur t }
      let s := noteCtxJob (modEngine s ctx (fun e => { e with last := no, ops := e.ops ++ [o] })) ctx t.regs
      let t := joinBatch { t with tlqf := some no } ctx no
      .ok (again (setThread s s.cur t) ctx)

/-- FST (R318). -/
def execFst (g : Guard) (rdst rsrc rlen rctr : BitVec 5) (ctr : Bool) (s : State) : Out :=
  runSlot g s (fun t => queueFab s t 0 (sreg t rdst) (sreg t rsrc) (sreg t rlen).toNat
    (if ctr then some (sreg t rctr) else none) 0 false false)

/-- FLD (R318). -/
def execFld (g : Guard) (rdst rsrc rlen rctr : BitVec 5) (ctr : Bool) (s : State) : Out :=
  runSlot g s (fun t => queueFab s t 1 (sreg t rdst) (sreg t rsrc) (sreg t rlen).toNat
    (if ctr then some (sreg t rctr) else none) 0 false false)

/-- The order code of a fabric or tap slot as the order attribute of a memory slot (R316, R319): the same codes. -/
def slotOrd (o : BitVec 2) : Nat := o.toNat

/-- FATOM (R319): the packet's fields travel in the request's part. -/
def execFatom (g : Guard) (rd ra rb : BitVec 5) (aop : BitVec 4) (w rv : Bool) (ord : BitVec 2) (atr : Bool)
    (off : BitVec 10) (s : State) : Out :=
  runSlot g s (fun t =>
    if !fabricJob t then .error (chanStop 2 0)
    else
      let n := if w then 8 else 4
      let a := sreg t ra &&& ~~~(BitVec.ofNat 64 (n - 1))
      (threadPlace s t .fabric 8 .atomic a).bind (fun p =>
        if !inSram p.pa then .error (.fault (placeFault 7 8 a p 0xFFFF))
        else (queueLanding t atr off).bind (fun l =>
          let y : Word := if aop = 2 then sreg t (rb ||| 1) else 0
          let sub := aop.toNat + 16 * b2n w + 32 * b2n rv + 64 * ord.toNat
          let data : Row := BitVec.ofNat 2048 ((sreg t rb).toNat + y.toNat * 2 ^ 64 + sub * 2 ^ 128
            + (placeDev s p).toNat * 2 ^ 136)
          let part := { partAt a p 0 data with sent := false }
          (issueReq s t .fatom (if rv then 1 else 2) (if rv then .sreg rd.toNat else .none)
            (if rv then l else ⟨0, false⟩) (slotOrd ord) 5 [part]).map (fun s =>
              schedule s (60 + 2 * railDist s.cur) (.requestDataArrival s.cur t.nextReq 0)))))

/-- The place of an address as the translations stand now, `none` where no walk reaches a leaf (R20). VATOM's check of RWIN
at issue waits for nothing, for the translation itself is the channel's (R25, R27, R320; log entry 84). -/
def leafNow (s : State) (t : Thread) (va : Word) : Option Place :=
  if wf 63 56 va ≠ 0 then none
  else if va.getLsbD 55 then (aperturePa t.regs s.cur va).map Place.direct
  else if !t.regs.ttbase.getLsbD 0 then none
  else match tlbFind s (cacheKey s.cur 4) (wf 15 0 t.regs.asid) va with
    | some e => some (e.place va)
    | none => match (walkTables s s.cur t.regs va).1 with
      | .ok e => some (e.place va)
      | .error _ => none

/-- VATOM (R320): the row is read, and the window and the leaf are checked, at issue. -/
def execVatom (g : Guard) (ra : BitVec 5) (tl : BitVec 4) (e : BitVec 6) (h ft : Bool) (s : State) : Out :=
  runSlot g s (fun t =>
    let a := sreg t ra &&& ~~~(127#64)
    if t.fab.isNone || !fabricJob t then .error (chanStop 2 0)
    else
      let base := wf 55 16 t.regs.rwinBase
      let inWin := decide (base * 65536 ≤ a.toNat ∧ a.toNat < (base + wf 39 16 t.regs.rwinSize) * 65536)
      let leaf := leafNow s t a
      let bad := match leaf with
        | some p => !p.rwin
        | none => false
      if !inWin || bad then .error (.fault (placeFault 7 8 a (leaf.getD default) 0xFFFF))
      else
        let row := trow t tl.toNat e.toNat
        queueFab s t 2 a 0 128 none (if h then row >>> 1024 else row) ft leaf.isNone)

/-- QNOP (R331). -/
def execQnop (_g : Guard) (_x : BitVec 38) (s : State) : Out := .next s

end Sys2Proof.Machine
end

