-- ==== Sys2Proof/Machine/Coll.lean ====
section
/-! DEFINITION. Collective contexts at work (R321, R322, R372): the exchange of partial vectors, the sums and their modes,
the compression of MODE 2, the write of the result. How ranks map to devices, that partials go straight to the rank that
combines them, and how a member learns of a disagreement, is the model's own (log entry 40). -/

namespace Sys2Proof.Machine

/-! The descriptor (R321) -/

/-- A descriptor's fields. -/
structure CollDesc where
  nrank : Nat
  rank : Nat
  group : Nat
  ctx : Nat
  mode : Nat
  red : Nat
  dt : Nat
  kind : Nat
  src : Word
  dst : Word
  count : Nat
  root : Nat
  resid : Word
  ctra : Word
  deriving DecidableEq, Repr

/-- The fields of eight words. -/
def collDesc (ws : List Word) : CollDesc :=
  let w (i : Nat) : Word := (ws[i]?).getD 0
  { nrank := wf 63 48 (w 0), rank := wf 47 32 (w 0), group := wf 31 16 (w 0), ctx := wf 15 8 (w 0), mode := wf 7 6 (w 0),
    red := wf 5 4 (w 0), dt := wf 3 3 (w 0), kind := wf 2 0 (w 0), src := w 1, dst := w 2, count := wf 31 0 (w 3),
    root := wf 15 0 (w 4), resid := w 5, ctra := w 6 }

/-- Whether a descriptor is well-formed (R321): else the channel fault FORMAT. -/
def collOk (ws : List Word) : Bool :=
  let w (i : Nat) : Word := (ws[i]?).getD 0
  let d := collDesc ws
  decide (1 ≤ d.nrank) && decide (d.rank < d.nrank) && decide (d.root < d.nrank) && decide (d.mode < 3) &&
  decide (d.red < 3) && decide (d.kind < 4) && decide (1 ≤ d.count) && wf 63 32 (w 3) == 0 && wf 63 16 (w 4) == 0 &&
  w 7 == 0 && (d.mode != 2 || (d.red == 0 && (d.kind == 0 || d.kind == 3))) && (d.mode == 2 || d.resid == 0)

/-- SUB of a COLLP (R360). -/
def collSub (d : CollDesc) : BitVec 8 := BitVec.ofNat 8 (d.kind + 8 * d.dt + 16 * d.red + 64 * d.mode)

/-- Bytes of an element. -/
def collSize (d : CollDesc) : Nat := if d.dt = 1 then 2 else 4

/-- Elements of a rank's source vector (R322). -/
def collLen (d : CollDesc) : Nat := if d.kind = 3 then d.nrank * d.count else d.count

/-- The device and context of a rank. -/
def rankOf (o : CollOp) (r : Nat) : BitVec 16 × Nat :=
  Config.rankAt (wf 15 0 o.issuer.regs.jobid) (collDesc o.desc).group r

/-- The Ecmen group of a rank's device (R348). -/
def rankGroup (o : CollOp) (r : Nat) : Nat := (rankOf o r).1.toNat / 2048

/-- The lowest rank of a rank's Ecmen group (R322). -/
def leaderOf (o : CollOp) (r : Nat) : Nat :=
  ((List.range (collDesc o.desc).nrank).find? (fun q => rankGroup o q == rankGroup o r)).getD r

/-- The leaders of all groups, in ascending group number. -/
def leaders (o : CollOp) : List Nat :=
  ((List.range 32).filterMap (fun g => (List.range (collDesc o.desc).nrank).find? (fun q => rankGroup o q == g)))

/-- The elements of its own vector that rank a sends to rank b first: start and number. -/
def firstSeg (o : CollOp) (a b : Nat) : Option (Nat × Nat) :=
  let d := collDesc o.desc
  if a = b then none
  else match d.kind with
    | 0 => if b = (if d.mode = 2 then leaderOf o a else d.root) then some (0, d.count) else none
    | 1 => some (0, d.count)
    | 2 => if a = d.root then some (0, d.count) else none
    | _ =>
      if d.mode = 2 then (if b = leaderOf o a then some (0, d.nrank * d.count) else none)
      else some (b * d.count, d.count)

/-- The elements that rank b is to receive from the compressed partials (MODE 2). -/
def lastSeg (d : CollDesc) (b : Nat) : Option (Nat × Nat) :=
  if d.kind = 3 then some (b * d.count, d.count) else if b = d.root then some (0, d.count) else none

/-- A range of elements in parts of at most k: start and number of each. -/
def cutRange (k : Nat) (seg : Nat × Nat) : List (Nat × Nat) :=
  (List.range ((seg.2 + k - 1) / k)).map (fun i => (seg.1 + i * k, min k (seg.2 - i * k)))

/-! Elements and sums (R200, R272, R322) -/

/-- Elements of n bytes as numbers. -/
def elemsOf (n : Nat) (bs : List Byte) : List Nat :=
  (List.range (bs.length / n)).map (fun i => leNat ((bs.drop (n * i)).take n))

/-- Numbers as elements of n bytes. -/
def bytesOf (n : Nat) (es : List Nat) : List Byte := es.flatMap (leBytes n)

/-- FP32 addition with RNE. -/
def addFp32 (a b : Nat) : Nat := (roundTo .fp32 (fsum 0 [decodeF .fp32 a, decodeF .fp32 b]).1 0 false).1

/-- An input element as FP32 bits: BF16 is decoded exactly. -/
def toFp32 (d : CollDesc) (e : Nat) : Nat := if d.dt = 1 then e * 65536 else e

/-- A sum as a destination element: a BF16 destination is rounded once. -/
def ofFp32 (d : CollDesc) (e : Nat) : Nat := if d.dt = 1 then (roundTo .bf16 (decodeF .fp32 e) 0 false).1 else e

/-- A sum in the order that the free value names (MODE 0). -/
def anySum (seed : Nat) : Nat → List Nat → Nat
  | 0, l => (l[0]?).getD 0
  | n + 1, l =>
    match l with
    | [] => 0
    | [x] => x
    | l =>
      let i := Config.draw (seed + 2 * n) % l.length
      let r := l.eraseIdx i
      let j := Config.draw (seed + 2 * n + 1) % r.length
      anySum seed n (addFp32 ((l[i]?).getD 0) ((r[j]?).getD 0) :: r.eraseIdx j)

/-- One level of the canonical tree (MODE 1). -/
def treeLevel : List Nat → List Nat
  | a :: b :: r => addFp32 a b :: treeLevel r
  | l => l

/-- The canonical tree's sum: its depth is at most 16. -/
def treeSum : Nat → List Nat → Nat
  | 0, l => (l[0]?).getD 0
  | n + 1, l => if l.length ≤ 1 then (l[0]?).getD 0 else treeSum n (treeLevel l)

/-- Reduce one element over the ranks, in rank order. -/
def reduceElem (d : CollDesc) (seed : Nat) (xs : List Nat) : Nat :=
  let vf : Word := if d.dt = 1 then 0x100 else 0
  match d.red with
  | 0 =>
    let ys := xs.map (toFp32 d)
    ofFp32 d (if d.mode = 1 then treeSum 17 ys else anySum seed ys.length ys)
  | k =>
    match xs with
    | [] => 0
    | x :: r => r.foldl (minMaxBits vf (k == 1)) x

/-- Element i of every vector. -/
def column (i : Nat) (vs : List (List Nat)) : List Nat := vs.map (fun v => (v[i]?).getD 0)

/-- Reduce vectors of n elements. -/
def reduceVecs (d : CollDesc) (k n : Nat) (vs : List (List Nat)) : List Nat :=
  (List.range n).map (fun i => reduceElem d (2 ^ 40 * (k + 1) + 2 ^ 18 * i) (column i vs))

/-! Compression (R186 to R188, R322) -/

/-- Values of FP32 bits filled up to whole superblocks. -/
def superblocks (es : List Nat) : List (List Nat) :=
  (List.range ((es.length + 255) / 256)).map (fun i =>
    let b := (es.drop (256 * i)).take 256
    b ++ List.replicate (256 - b.length) 0)

/-- A superblock as DEB4: 128 element bytes, then 16 metadata bytes (R187). -/
def debBytes (es : List Nat) : List Byte :=
  let p := debPack (es.map (decodeF .fp32)) 4 0 true
  leBytes 128 (packElems 4 p.1) ++ p.2.1.map (BitVec.ofNat 8) ++ [BitVec.ofNat 8 p.2.2.1] ++ List.replicate 7 0

/-- The 256 FP32 values of a DEB4 superblock. -/
def debValues (bs : List Byte) : List Nat :=
  let v := leNat (bs.take 128)
  let at_ (i : Nat) : Nat := ((bs[i]?).getD 0).toNat
  (List.range 256).map (fun i => (roundTo .fp32 (debValue 4 (bits (4 * i) 4 v) (at_ (128 + i / 32)) (at_ 136)) 0 false).1)

/-! Access to memory -/

/-- The state with a collective context replaced. -/
def setColl (s : State) (ctx : Nat) (k : Coll) : State := { s with colls := mput (ctx - 0x4000) k s.colls }

/-- A collective context. -/
def collOf (s : State) (ctx : Nat) : Coll := ((mget (ctx - 0x4000) s.colls)).getD ⟨0, 0, [], [], none, []⟩

/-- Change the operation at the head of a context. -/
def modCollOp (s : State) (ctx : Nat) (f : CollOp → CollOp) : State :=
  let k := collOf s ctx
  setColl s ctx { k with ops := match k.ops with
    | [] => []
    | o :: r => f o :: r }

/-- Look at the context again d cycles from now, unless it is to be looked at already. -/
def collAgain (s : State) (ctx d : Nat) : State :=
  if s.agenda.any (fun e => e.ev == .copyRecordProcess ctx) then s else schedule s d (.copyRecordProcess ctx)

/-- Resolve an address for a collective context: apertures are those of the issuing core (R14); a page in migration is
walked again after 1,024 cycles (R27). -/
def collPlace (s : State) (ctx : Nat) (o : CollOp) (acc : Acc) (va : Word) : EPlace × State :=
  match resolveNow s .coll o.issuer.core 9 ctx o.issuer.regs o.issuer.priv acc va with
  | (.at_ p, s) => (.ok p, s)
  | (.miss, s) => (.wait s, s)
  | (.bad f, s) =>
    if f.cls = 7 ∧ f.cause = 0xA then (.wait (collAgain s ctx 1024), s) else (.stop (haltContext s ctx o.issuer f), s)

/-- Bytes of the next piece: within a 64 KiB page, at most 4,096. -/
def collPiece (va : Word) (rem : Nat) : Nat := min rem (min 4096 (65536 - va.toNat % 65536))

/-- Read the next piece of n bytes at va, of which `have_` are there: the state, and the bytes if they are at hand. -/
def collFetch (s : State) (ctx : Nat) (o : CollOp) (va : Word) (n have_ : Nat) : State × Option (List Byte) :=
  let a := va + BitVec.ofNat 64 have_
  let k := collPiece a (n - have_)
  if 0 < o.waiting then (s, none)
  else match collPlace s ctx o .read a with
    | (.stop s, _) => (s, none)
    | (.wait s, _) => (s, none)
    | (.ok p, s) =>
      if p.dev.isSome then
        (modCollOp (queuePacket s (jobPacket o.issuer (placeDev s p) 2 0 p.pa k []) (.collRead ctx)) ctx
          (fun o => { o with waiting := 1 }), none)
      else if inHbm p.pa && inWindow s then (s, none)
      else match ctxRead s ctx o.issuer p a k with
        | (.error f, s) => (haltContext s ctx o.issuer f, none)
        | (.ok bs, s) => (s, some bs)

/-- Write the first piece of what is left to write. -/
def collStore (s : State) (ctx : Nat) (o : CollOp) (va : Word) (bs : List Byte) (rest : List (Word × List Byte)) : State :=
  let k := collPiece va bs.length
  let now := bs.take k
  let left := if k < bs.length then (va + BitVec.ofNat 64 k, bs.drop k) :: rest else rest
  match collPlace s ctx o .write va with
  | (.stop s, _) => s
  | (.wait s, _) => s
  | (.ok p, s) =>
    if p.dev.isSome then
      modCollOp (queuePacket s (jobPacket o.issuer (placeDev s p) 1 0 p.pa 0 now) (.coll ctx false va)) ctx
        (fun o => { o with out := left, waiting := o.waiting + 1 })
    else if inHbm p.pa && inWindow s then s
    else match ctxWrite s ctx o.issuer (writeKind ctx o.no none) p va now with
      | (.error f, s) => haltContext s ctx o.issuer f
      | (.ok _, s) => modCollOp s ctx (fun o => { o with out := left })

/-- Send a COLLP to a rank (R360). -/
def sendCollp (s : State) (ctx : Nat) (o : CollOp) (b first : Nat) (data : List Byte) (fwd : Bool) : State :=
  let d := collDesc o.desc
  let tgt := rankOf o b
  let aux := tgt.2 % 256 + 256 * d.group + 2 ^ 24 * d.rank
  let p := jobPacket o.issuer tgt.1 7 (collSub d).toNat first aux data
  modCollOp (queuePacket s p (.coll ctx fwd 0)) ctx (fun o => { o with waiting := o.waiting + 1 })

/-! The exchange -/

/-- The first n entries of the inbox from a rank. -/
def inboxOf (k : Coll) (r : Nat) (n : Nat) : List CollIn := (k.inbox.filter (fun x => x.rank == r)).take n

/-- Take entries out of the inbox. -/
def takeOut (s : State) (ctx : Nat) (es : List CollIn) : State :=
  let k := collOf s ctx
  setColl s ctx { k with inbox := es.foldl (fun l e => l.erase e) k.inbox }

/-- Elements a packet holds. -/
def collPer (d : CollDesc) : Nat := 4096 / collSize d

/-- Send the elements of the own vector to every rank that combines or keeps them (R372). -/
def collSend (s : State) (ctx : Nat) (o : CollOp) : State :=
  let d := collDesc o.desc
  (List.range d.nrank).foldl (fun s b =>
    match firstSeg o d.rank b with
    | none => s
    | some seg => (cutRange (collPer d) seg).foldl (fun s x =>
        sendCollp s ctx o b x.1 ((o.own.drop (x.1 * collSize d)).take (x.2 * collSize d)) false) s) s

/-- The entries that a rank's elements for this context come in, once all are there. -/
def collPieces (k : Coll) (r n : Nat) : Option (List CollIn) :=
  let es := inboxOf k r n
  if es.length = n then some es else none

/-- Put pieces in the order of their elements. -/
def pieceBytes (es : List CollIn) : List Byte :=
  (es.mergeSort (fun a b => decide (a.first ≤ b.first))).flatMap (·.data)

/-- The vectors that reach this rank first, by sender, its own among them; none while one is missing. -/
def gatherFirst (k : Coll) (o : CollOp) : Option (List (Nat × List Nat) × List CollIn) :=
  let d := collDesc o.desc
  (List.range d.nrank).foldr (fun r acc =>
    match acc with
    | none => none
    | some (vs, used) =>
      if r = d.rank then
        let mine : List Byte := if d.kind = 3 && d.mode ≠ 2 then (o.own.drop (r * d.count * collSize d)).take (d.count * collSize d)
          else o.own
        some ((r, elemsOf (collSize d) mine) :: vs, used)
      else match firstSeg o r d.rank with
        | none => some (vs, used)
        | some seg =>
          match collPieces k r (cutRange (collPer d) seg).length with
          | none => none
          | some es => some ((r, elemsOf (collSize d) (pieceBytes es)) :: vs, es ++ used)) (some ([], []))

/-- The result of the modes without compression: what this rank writes (R322). -/
def collResult (d : CollDesc) (k : Nat) (vs : List (Nat × List Nat)) : List (Word × List Byte) :=
  let vecs := vs.map (·.2)
  let here (es : List Nat) : List (Word × List Byte) := [(d.dst, bytesOf (collSize d) es)]
  match d.kind with
  | 0 => if d.rank = d.root then here (reduceVecs d k d.count vecs) else []
  | 1 => here vecs.flatten
  | 2 => here (((vs.find? (fun v => v.1 == d.root)).map (·.2)).getD [])
  | _ => here (reduceVecs d k d.count vecs)

/-- A leader's packets to one target: DEB4 superblocks across groups, the values themselves within its group (R372). -/
def sendPartial (s : State) (ctx : Nat) (o : CollOp) (qs : List (List Byte)) (b : Nat) : State :=
  let d := collDesc o.desc
  match if b = d.rank then none else lastSeg d b with
  | none => s
  | some seg =>
    if rankGroup o b = rankGroup o d.rank then
      let vals := qs.flatMap debValues
      (cutRange 1024 seg).foldl (fun s x => sendCollp s ctx o b x.1 (bytesOf 4 ((vals.drop x.1).take x.2)) true) s
    else
      let lo := seg.1 / 256
      let n := (seg.1 + seg.2 + 255) / 256 - lo
      (cutRange 28 (lo, n)).foldl (fun s x => sendCollp s ctx o b (256 * x.1) ((qs.drop x.1).take x.2).flatten true) s

/-- The values of the segment that a leader's packets bring; none while one is missing. -/
def gatherLast (k : Coll) (o : CollOp) (r : Nat) (seg : Nat × Nat) : Option (List Nat × List CollIn) :=
  let d := collDesc o.desc
  if r = d.rank then some (((elemsOf 4 o.own).drop seg.1).take seg.2, [])
  else if rankGroup o r = rankGroup o d.rank then
    (collPieces k r (cutRange 1024 seg).length).map (fun es => (elemsOf 4 (pieceBytes es), es))
  else
    let lo := seg.1 / 256
    let n := (seg.1 + seg.2 + 255) / 256 - lo
    (collPieces k r (cutRange 28 (lo, n)).length).map (fun es =>
      let bs := pieceBytes es
      let vals := (List.range n).flatMap (fun i => debValues ((bs.drop (144 * i)).take 144))
      ((vals.drop (seg.1 - 256 * lo)).take seg.2, es))

/-- Every leader's values for the segment, in ascending group number. -/
def gatherLeaders (k : Coll) (o : CollOp) (seg : Nat × Nat) : List Nat → Option (List (List Nat) × List CollIn)
  | [] => some ([], [])
  | r :: rest =>
    match gatherLast k o r seg, gatherLeaders k o seg rest with
    | some (v, es), some (vs, used) => some (v :: vs, es ++ used)
    | _, _ => none

/-- Whether an entry is one that a rank sends under this descriptor: SUB and GROUP are its own, and the elements are a
piece of those that the rank owes (R321, R360). -/
def entryFits (d : CollDesc) (ps : List (Nat × Nat)) (x : CollIn) : Bool :=
  x.sub == collSub d && x.gid == d.group && ps.any (fun p => p.1 == x.first && p.2 * collSize d == x.data.length)

/-- Descriptors of one collective that disagree (R321), as the packets of the first exchange show it: an entry that does
not fit, or a rank beyond NRANK. -/
def collMismatch (k : Coll) (o : CollOp) : Bool :=
  let d := collDesc o.desc
  (List.range d.nrank).any (fun r =>
    match firstSeg o r d.rank with
    | none => false
    | some seg =>
      let ps := cutRange (collPer d) seg
      (inboxOf k r ps.length).any (fun x => !entryFits d ps x)) ||
  k.inbox.any (fun x => x.gid == d.group && decide (d.nrank ≤ x.rank))

/-- The collective that an operation is part of: its job's group and how many of the group's its context has had before. -/
def collOfGroup (o : CollOp) : Nat × Nat := (groupKey (wf 15 0 o.issuer.regs.jobid) (collDesc o.desc).group, o.seq)

/-- The fields in which the descriptors of one collective agree (R321). -/
def collShape (d : CollDesc) : List Nat := [d.kind, d.dt, d.red, d.mode, d.count, d.nrank, d.group]

/-- Whether another context of this device has been given a descriptor of the same collective that disagrees (R321). -/
def collDisagrees (s : State) (ctx : Nat) (o : CollOp) : Bool :=
  s.colls.any (fun kc => 0x4000 + kc.1 != ctx && kc.2.past.any (fun x =>
    (x.1, x.2.1) == collOfGroup o && collShape (collDesc x.2.2) != collShape (collDesc o.desc)))

/-- Whether the operation x at work on context c is part of the collective of o, as o's device tells: it has the same place in
the same group, or has sent o a partial vector of another group (R321). -/
def collPeer (s : State) (k : Coll) (o : CollOp) (c : Nat) (x : CollOp) : Bool :=
  collOfGroup x == collOfGroup o ||
  k.inbox.any (fun e => e.gid == (collDesc x.desc).group && e.gid != (collDesc o.desc).group && rankOf o e.rank == (s.plat.devid, c))

/-- Whether some rank lies on another device. -/
def collAbroad (s : State) (o : CollOp) : Bool :=
  (List.range (collDesc o.desc).nrank).any (fun r => (rankOf o r).1 != s.plat.devid)

/-- MISMATCH (R321): every context of this device at work on the collective halts. -/
def collHalt (s : State) (k : Coll) (o : CollOp) : State :=
  s.colls.foldl (fun s kc =>
    match kc.2.ops with
    | x :: _ =>
      if collPeer s k o kc.1 x then
        haltContext s (0x4000 + kc.1) x.issuer (chanFault 8 9 (0x4000 + kc.1) x.addr 0)
      else s
    | [] => s) s

/-- The sum of a group's partials, the residual and the quantised superblocks (R322). -/
def compress (o : CollOp) : List (List Byte) × List Nat :=
  let p := elemsOf 4 o.own
  let e := List.zipWith addFp32 p (elemsOf 4 o.resid)
  let qs := (superblocks e).map debBytes
  let back := qs.flatMap debValues
  let minus (a b : Nat) : Nat := (roundTo .fp32 (fsum 0 [decodeF .fp32 a, fminus (decodeF .fp32 b)]).1 0 false).1
  (qs, List.zipWith minus e back)

/-- The local arrival counter's place (R318, R321): SRAM of this device, or CLASS. -/
def collCtrPlace (s : State) (ctx : Nat) (o : CollOp) (a : Word) : EPlace × State :=
  match collPlace s ctx o .atomic a with
  | (.ok p, s) =>
    if p.dev.isSome || !inSram p.pa then (.stop (haltContext s ctx o.issuer (placeFault 7 9 a p ctx)), s) else (.ok p, s)
  | x => x

/-- The local arrival counter takes its add (R318, R321). -/
def collCounter (s : State) (ctx : Nat) (o : CollOp) (a : Word) : State × Bool :=
  let a := a &&& ~~~(7#64)
  match collCtrPlace s ctx o a with
  | (.stop s, _) => (s, false)
  | (.wait s, _) => (s, false)
  | (.ok p, s) =>
    match ctxRead s ctx { o.issuer with handler := true } p a 8 with
      | (.error f, s) => (haltContext s ctx o.issuer f, false)
      | (.ok bs, s) =>
        match ctxWrite s ctx o.issuer (writeKind ctx o.no none) p a (leBytes 8 (leNat bs + 1)) with
        | (.error f, s) => (haltContext s ctx o.issuer f, false)
        | (.ok _, s) => (s, true)

/-- A leader's operation takes an entry of the forward-pending buffer, if one is free (R366). -/
def takeRelay (s : State) (ctx : Nat) : Option State :=
  if 16 ≤ s.router.fwd.length then none
  else
    let (k, s) := takeStamp s
    let s := { s with router := { s.router with fwd := mput k 1 s.router.fwd } }
    some (modCollOp s ctx (fun o => { o with relay := some k }))

/-- The partials have gone out: the entry stands until each has been answered (R366); `before` is what awaited an answer before. -/
def holdRelay (s : State) (ctx before : Nat) : State :=
  match (collOf s ctx).ops.head? with
  | some o =>
    match o.relay with
    | some k =>
      let n := o.waiting - before
      { s with router := { s.router with fwd := if n = 0 then mdel k s.router.fwd else mput k n s.router.fwd } }
    | none => s
  | none => s

/-- Go to a stage. -/
def toStage (s : State) (ctx n : Nat) : State := modCollOp s ctx (fun o => { o with stage := n })

/-- The head operation has completed (R134). -/
def collFinish (s : State) (ctx : Nat) : State :=
  let k := collOf s ctx
  setColl s ctx { k with tl := k.tl + 1, ops := k.ops.drop 1 }

/-- The work of one stage: 0 the own vector, 1 sends, 2 the first vectors, 3 the residual, 4 compression, 5 the
residual's write, 6 the compressed partials, 7 the result's write, 8 the counter. -/
def collStage (s : State) (ctx : Nat) (o : CollOp) : State :=
  let d := collDesc o.desc
  let k := collOf s ctx
  match o.stage with
  | 0 =>
    let n := if d.kind = 2 && d.rank ≠ d.root then 0 else collLen d * collSize d
    -- the counter is checked before any byte moves (R318)
    let start : EPlace × State := if d.ctra = 0 || !o.own.isEmpty then (.ok default, s) else collCtrPlace s ctx o (d.ctra &&& ~~~(7#64))
    match start with
    | (.stop s, _) => s
    | (.wait s, _) => s
    | (.ok _, s) =>
    if n ≤ o.own.length then toStage s ctx 1
    else match collFetch s ctx o d.src n o.own.length with
      | (s, none) => s
      | (s, some bs) => modCollOp s ctx (fun o => { o with own := o.own ++ bs })
  | 1 => toStage (collSend s ctx o) ctx 2
  | 2 =>
    let (n, s) := takeFree s
    if collMismatch k o || collDisagrees s ctx o || (collAbroad s o && Config.disagrees n) then collHalt s k o
    else match gatherFirst k o with
      | none => s
      | some (vs, used) =>
        let s := takeOut s ctx used
        if d.mode ≠ 2 then modCollOp s ctx (fun o => { o with stage := 7, out := collResult d n vs })
        else if leaderOf o d.rank = d.rank then
          let p := reduceVecs { d with dt := 0, mode := 0 } n (collLen d) (vs.map (fun v => v.2.map (toFp32 d)))
          modCollOp s ctx (fun o => { o with stage := 3, own := bytesOf 4 p })
        else toStage s ctx 6
  | 3 =>
    if 4 * collLen d ≤ o.resid.length then toStage s ctx 4
    else match collFetch s ctx o d.resid (4 * collLen d) o.resid.length with
      | (s, none) => s
      | (s, some bs) => modCollOp s ctx (fun o => { o with resid := o.resid ++ bs })
  | 4 =>
    match if o.relay.isSome then some s else takeRelay s ctx with
    | none => s
    | some s =>
    let q := compress o
    let s := (List.range d.nrank).foldl (fun s b => sendPartial s ctx o q.1 b) s
    let s := holdRelay s ctx o.waiting
    modCollOp s ctx (fun o => { o with stage := 5, own := bytesOf 4 (q.1.flatMap debValues), out := [(d.resid, bytesOf 4 q.2)] })
  | 5 =>
    match o.out with
    | [] => toStage s ctx 6
    | (a, bs) :: r => if bs.isEmpty then modCollOp s ctx (fun o => { o with out := r }) else collStore s ctx o a bs r
  | 6 =>
    match lastSeg d d.rank with
    | none => toStage s ctx 7
    | some seg =>
      match gatherLeaders k o seg (leaders o) with
      | none => s
      | some (vs, used) =>
        let sum (xs : List Nat) : Nat := match xs with
          | [] => 0
          | x :: r => r.foldl addFp32 x
        let es := (List.range d.count).map (fun i => ofFp32 d (sum (column i vs)))
        modCollOp (takeOut s ctx used) ctx (fun o => { o with stage := 7, out := [(d.dst, bytesOf (collSize d) es)] })
  | 7 =>
    match o.out with
    | [] => if o.waiting = 0 then toStage s ctx 8 else s
    | (a, bs) :: r => if bs.isEmpty then modCollOp s ctx (fun o => { o with out := r }) else collStore s ctx o a bs r
  | _ =>
    if d.ctra = 0 then collFinish s ctx
    else match collCounter s ctx o d.ctra with
      | (s, true) => collFinish s ctx
      | (s, false) => s

/-- One piece of work of a collective context's head operation; the context is looked at every cycle while it has one. -/
def collStep (s : State) (ctx : Nat) : State :=
  let k := collOf s ctx
  match k.halted, k.ops with
  | none, o :: _ => collAgain (if issuerReady s o.issuer then collStage s ctx o else s) ctx 1
  | _, _ => s

end Sys2Proof.Machine
end

