-- ==== Sys2Proof/Machine/Copy.lean ====
section
/-! DEFINITION. Copy channels (R306 to R309, R312, R31, R34, R84, R341): the walk of a chain, record by record, and the C
slots COPY, CLOSE and WAITL. -/

namespace Sys2Proof.Machine

/-! Transfer records (R306) -/

/-- A transfer record's fields. -/
structure CopyRec where
  next : Word
  tagx : Bool
  barf : Bool
  tli : Bool
  own : Bool
  src : Word
  dst : Word
  e0 : Nat
  es : List Nat         -- E1 to E3, an extent beyond the dimensions as 1
  ss : List Word
  ds : List Word
  bar : Word
  ok : Bool             -- no zero field is nonzero
  deriving DecidableEq, Repr

/-- A signed 32-bit half of a word, extended. -/
def half (w : Word) (k : Nat) : Word := ((w >>> (32 * k)).setWidth 32).signExtend 64

/-- The record in eight words. -/
def copyRec (ws : List Word) : CopyRec :=
  let w (i : Nat) : Word := (ws[i]?).getD 0
  let dims := wf 3 2 (w 0) + 1
  let e (k : Nat) : Nat := wf (16 * k + 15) (16 * k) (w 3)
  { next := w 0 &&& 0x00FFFFFFFFFFFFC0, tagx := (w 0).getLsbD 5, barf := (w 0).getLsbD 4, tli := (w 0).getLsbD 1,
    own := (w 0).getLsbD 0, src := w 1, dst := w 2, e0 := e 0,
    es := [1, 2, 3].map (fun k => if k < dims then e k else 1),
    ss := [half (w 4) 0, half (w 4) 1, half (w 5) 0], ds := [half (w 5) 1, half (w 6) 0, half (w 6) 1],
    bar := w 7 &&& 0x00FFFFFFFFFFFFF0,
    ok := wf 63 56 (w 0) == 0 && wf 63 56 (w 7) == 0 && wf 3 0 (w 7) == 0 &&
      [1, 2, 3].all (fun k => decide (k < dims) || e k == 0) }

/-- Bytes of the box (R306). -/
def boxBytes (r : CopyRec) : Nat := r.e0 * r.es.foldl (· * ·) 1

/-- A row of the box: source, destination, bytes. -/
structure Run where
  src : Word
  dst : Word
  len : Nat
  deriving DecidableEq, Repr

/-- The rows of the box (R306). -/
def boxRuns (r : CopyRec) : List Run :=
  let e (k : Nat) : Nat := (r.es[k]?).getD 1
  let ss (k : Nat) : Word := (r.ss[k]?).getD 0
  let ds (k : Nat) : Word := (r.ds[k]?).getD 0
  let n (i : Nat) : Word := BitVec.ofNat 64 i
  if r.e0 = 0 then []
  else (List.range (e 2)).flatMap (fun i3 => (List.range (e 1)).flatMap (fun i2 => (List.range (e 0)).map (fun i1 =>
    ⟨r.src + n i1 * ss 0 + n i2 * ss 1 + n i3 * ss 2, r.dst + n i1 * ds 0 + n i2 * ds 1 + n i3 * ds 2, r.e0⟩)))

/-- A row cut where either side crosses a 64 KiB page: at most two cuts, for rows are below 64 KiB. -/
def cutRun (r : Run) : List Run :=
  let cut (r : Run) : List Run :=
    let k := min (65536 - r.src.toNat % 65536) (65536 - r.dst.toNat % 65536)
    if r.len ≤ k then [r]
    else [⟨r.src, r.dst, k⟩, ⟨r.src + BitVec.ofNat 64 k, r.dst + BitVec.ofNat 64 k, r.len - k⟩]
  (cut r).flatMap cut

/-- The pieces of the box, each within one page on either side. -/
def boxPieces (r : CopyRec) : List Run := (boxRuns r).flatMap cutRun

/-- A place the record in process holds a translation of (R31). -/
def placeHeld (s : State) (ctx : Nat) (i : Issuer) (acc : Acc) (va : Word) : Place :=
  match heldPlace ctx (engineOf s ctx) i acc va with
  | .ok (some p) => p
  | _ => default

/-! The walk of a chain (R307) -/

/-- Read the record at `cur`: SRAM or HBM of this device, else CLASS; then its checks (R307). -/
def readRecord (s : State) (ctx : Nat) (i : Issuer) (cur : Word) : State :=
  match opPlace s ctx i .read cur with
  | (.stop s, _) => s
  | (.wait s, _) => again s ctx
  | (.ok p, s) =>
    if p.dev.isSome then haltContext s ctx i (placeFault 7 (ctxReq ctx) cur p ctx)
    else if inHbm p.pa && s.dredge.drained then again s ctx
    else ctxServed s ctx (.copyRecordProcess ctx) [(p.pa, 64)] (fun s =>
      match ctxRead s ctx i p cur 64 with
      | (.error f, s) => haltContext s ctx i f
      | (.ok bs, s) =>
        let ws := (List.range 8).map (fun k => BitVec.ofNat 64 (leNat ((bs.drop (8 * k)).take 8)))
        let r := copyRec ws
        let stop (c : Nat) : State := haltContext s ctx i (chanFault c (ctxReq ctx) ctx cur cur)
        if !r.own then stop 5
        else if !r.ok then stop 4
        else if r.tagx && !i.priv then stop 6
        else again (modEngine s ctx (fun e => { e with words := ws })) ctx)

/-- One piece that goes through the fabric, as an operation of its own under the record's number. -/
def farOp (i : Issuer) (n : Nat) (x : Run) : FabOp :=
  { no := n, kind := 3, dst := x.dst, src := x.src, len := x.len, ctr := none, data := 0, ft := false, off := 0, waiting := [],
    ctrSent := false, landed := [], unseen := false, issuer := i }

/-- The piece in process has moved: on to the next. -/
def pieceMoved (s : State) (ctx : Nat) : State :=
  again (modEngine s ctx (fun e => { e with piece := e.piece + 1, begun := false, hbmAt := none, ops := [] })) ctx

/-- A step of a piece that goes through the fabric. -/
def farStep (s : State) (ctx : Nat) (o : FabOp) : State :=
  match o.landed with
  | (dst, bs) :: _ => storeLanded s ctx o dst bs
  | [] =>
    if o.off < o.len then sendPiece s ctx o
    else if !o.waiting.isEmpty then s
    else pieceMoved s ctx

/-- Move the granule tags with the data (R34, R146): the write checks nothing, the source's tags are copied; nothing is where
either page is UNCHK. -/
def copyTags (s : State) (ps pd : Place) (n : Nat) : State :=
  if inSram ps.pa && inSram pd.pa && !ps.unchk && !pd.unchk then
    (granules pd.pa n).zipIdx.foldl (fun s gk =>
      let (t, s) := tagOf s (ps.pa / 64 + gk.2)
      setTag s gk.1 t) s
  else s

/-- The barrier that a record's transfers are tagged with, and its phase (R146), read as any word is (R47). -/
def pieceBar (s : State) (ctx : Nat) (i : Issuer) (r : CopyRec) : Except FaultRec (Option (Nat × Nat)) × State :=
  if !r.barf then (.ok none, s)
  else
    let pa := (placeHeld s ctx i .atomic r.bar).pa
    match readBar s (whoCtx ctx) pa r.bar with
    | (.ok v, s) => (.ok (some (pa, bits 0 4 v)), s)
    | (.error e, s) => (.error (dataFault e.1 (ctxReq ctx) r.bar e.2 ctx), s)

/-- Move a piece of this device (R307, R146): with TAGX neither side is checked, and the tags move with the data. -/
def movePiece (s : State) (ctx : Nat) (i : Issuer) (r : CopyRec) (x : Run) (ps pd : Place) : State :=
  let j := { i with handler := i.handler || r.tagx }
  match pieceBar s ctx i r with
  | (.error f, s) => haltContext s ctx i f
  | (.ok bar, s) =>
    match ctxRead s ctx j ps x.src x.len with
    | (.error f, s) => haltContext s ctx i f
    | (.ok bs, s) =>
      match ctxWrite s ctx j (writeKind ctx ((engineOf s ctx).tl + 1) bar) pd x.dst bs with
      | (.error f, s) => haltContext s ctx i f
      | (.ok _, s) => pieceMoved (if r.tagx && !i.replay then copyTags s ps pd x.len else s) ctx

/-- A step of the record's piece x (R31, R84, R294, R307): its pages are translated when it comes to them; it is issued, and
moves when its time has come, what concerns HBM not while a dredge window is open. -/
def copyPiece (s : State) (ctx : Nat) (i : Issuer) (r : CopyRec) (x : Run) : State :=
  match opPlace s ctx i .read x.src with
  | (.stop s, _) => s
  | (.wait s, _) => again s ctx
  | (.ok ps, s) =>
    match opPlace s ctx i .write x.dst with
    | (.stop s, _) => s
    | (.wait s, _) => again s ctx
    | (.ok pd, s) =>
      let e := engineOf s ctx
      let hbm := inHbm ps.pa || inHbm pd.pa
      if ps.dev.isSome || pd.dev.isSome then
        again (modEngine s ctx (fun e => { e with ops := [farOp i (e.tl + 1) x] })) ctx
      else if e.begun then (if hbm && inWindow s then again s ctx
        else ctxServed s ctx (.copyRecordProcess ctx) [(ps.pa, x.len), (pd.pa, x.len)] (fun s => movePiece s ctx i r x ps pd))
      else if hbmHeld s ctx ps || hbmHeld s ctx pd || issuerHeld s i pd.pa x.len then again s ctx
      else
        let (n, s) := takeFree s
        let s := modEngine s ctx (fun e => { e with begun := true, hbmAt := if hbm then some s.now else none })
        schedule s (1 + Config.delay n) (.copyRecordProcess ctx)

/-- A step of the record in process (R307): its barrier is translated, then its pieces move one after the other; when all
have moved its completion is due. -/
def recordStep (s : State) (ctx : Nat) (i : Issuer) (r : CopyRec) : State :=
  let bar : EPlace × State := if r.barf then opPlace s ctx i .atomic r.bar else (.ok (.direct 0), s)
  match bar with
  | (.stop s, _) => s
  | (.wait s, _) => again s ctx
  | (.ok b, s) =>
    if !(b.dev.isNone && inSram b.pa) then haltContext s ctx i (placeFault 7 (ctxReq ctx) r.bar b ctx)
    else match (engineOf s ctx).ops, (boxPieces r)[(engineOf s ctx).piece]? with
      | o :: _, _ => farStep s ctx o
      | [], some x => copyPiece s ctx i r x
      | [], none =>
        if (engineOf s ctx).begun then s
        else
          let (n, s) := takeFree s
          schedule (modEngine s ctx (fun e => { e with begun := true })) (1 + Config.delay n) (.copyRecordComplete ctx)

/-- A copy channel takes up its next record: its number, its address, nothing of it read yet. -/
def takeRecord (s : State) (ctx : Nat) (c : Chain) : State :=
  if (engineOf s ctx).busy then s
  else
    let (k, s) := takeStamp s
    modEngine s ctx (fun e => { e with busy := true, serial := k, words := [], pages := [], piece := 0, counted := false,
                                       cur := if e.cur = 0 then c.head else e.cur })

/-- COPY_RECORD_PROCESS (R307, R309): the next piece of work of a copy channel's chain, of a fabric
channel or of a collective context. -/
def execCopyRecordProcess (ctx : Nat) (s : State) : Out :=
  .next (
    if 0x4000 ≤ ctx then collStep s ctx
    else if ctx % 8 = 4 then fabricStep s ctx
    else match (engineOf s ctx).halted, (engineOf s ctx).chains with
      | none, c :: _ =>
        if !issuerReady s c.issuer then again s ctx
        else
          let s := takeRecord s ctx c
          let e := engineOf s ctx
          if e.words.isEmpty then readRecord s ctx c.issuer e.cur else recordStep s ctx c.issuer (copyRec e.words)
      | _, _ => s)

/-- Clear the record's OWN bit (R307): neither checked nor tagged; a replay's write goes where its accesses go (R345). -/
def clearOwn (s : State) (ctx : Nat) (i : Issuer) (cur : Word) (w0 : Word) : Except FaultRec Unit × State :=
  let p := placeHeld s ctx i .read cur
  let bs : List Byte := [(w0 &&& 0xFE).setWidth 8]
  match if i.replay then replayWrite s (ctxCore ctx) i.regs false p.pa cur bs else none with
  | some (.ok s) => (.ok (), s)
  | some (.error f) => (.error f, s)
  | none =>
    match performWrite (noteHint s p) (whoCtx ctx) p.pa bs cur with
    | (some (e, a), s) => (.error (dataFault e (ctxReq ctx) cur a ctx), s)
    | (none, s) => (.ok (), s)

/-- The record has completed (R307): the timeline, and the next record or the next chain. -/
def nextRecord (s : State) (ctx : Nat) (r : CopyRec) : State :=
  let done := r.tli || r.next == 0
  let s := modEngine s ctx (fun e => { e with
    tl := if done then e.tl + 1 else e.tl, busy := false, begun := false, words := [], pages := [], hbmAt := none,
    piece := 0, counted := false,
    cur := r.next, chains := if r.next = 0 then e.chains.drop 1 else e.chains,
    finished := if r.next = 0 then e.finished + 1 else e.finished })
  again s ctx

/-- The barrier updates of a record, and then its completion again (R135, R307). -/
def countRecord (s : State) (ctx : Nat) (r : CopyRec) (bpa : Nat) : State :=
  let sectors := (boxBytes r + 31) / 32
  pushEvs (modEngine s ctx (fun e => { e with counted := true }))
    ((if sectors = 0 then [] else [Instr.barrierUpdate bpa false (BitVec.ofNat 64 sectors) ctx]) ++
      [Instr.barrierUpdate bpa true 0 ctx, .copyRecordComplete ctx])

/-- COPY_RECORD_COMPLETE (R135, R307, R310): every byte of the box has moved; the sectors and the arrival are counted, then
OWN is cleared and the timeline advances. A record in HBM is held from
the drain lead to a window's close (R84, R340). -/
def execCopyRecordComplete (ctx : Nat) (s : State) : Out :=
  let e := engineOf s ctx
  match e.halted, e.chains with
  | none, c :: _ =>
    let r := copyRec e.words
    let own := placeHeld s ctx c.issuer .read e.cur
    .next (
      if !e.begun || e.words.isEmpty || decide (e.piece < (boxPieces r).length) then s
      else if r.barf && !e.counted then countRecord s ctx r (placeHeld s ctx c.issuer .atomic r.bar).pa
      else if hbmHeld s ctx own then schedule s 1 (.copyRecordComplete ctx)
      else ctxServed s ctx (.copyRecordComplete ctx) [(own.pa, 1)] (fun s =>
        match clearOwn s ctx c.issuer e.cur ((e.words[0]?).getD 0) with
        | (.error f, s) => haltContext s ctx c.issuer f
        | (.ok _, s) => nextRecord s ctx r))
  | _, _ => .next s

/-! COPY, CLOSE, WAITL -/

/-- CNOP (R331). -/
def execCnop (_g : Guard) (_x : BitVec 38) (s : State) : Out := .next s

/-- COPY (R307). -/
def execCopy (g : Guard) (ch : BitVec 2) (ra : BitVec 5) (s : State) : Out :=
  runSlot g s (fun t =>
    match t.chans[ch.toNat]? with
    | none => .error (chanStop 1 0)
    | some ctx =>
      if 16 ≤ (engineOf s ctx).chains.length then .error (.freeze 5)
      else
        let t := release t
        let s := noteCtxJob (modEngine s ctx (fun e =>
          { e with chains := e.chains ++ [⟨sreg t ra &&& ~~~(63#64), issuerOf s.cur t⟩], given := e.given + 1 })) ctx t.regs
        .ok (again (setThread s s.cur (joinBatch t ctx (engineOf s ctx).given)) ctx))

/-- CLOSE (R172, R308). -/
def execClose (g : Guard) (s : State) : Out :=
  runSlot g s (fun t =>
    if t.openB.isEmpty then .ok s
    else
      let open_ := t.closedB.filter (fun b => !batchDone s b)
      if 15 ≤ open_.length && !batchDone s t.openB then .error (.freeze 5)
      else .ok (setThread s s.cur { t with closedB := open_ ++ [t.openB], openB := [] }))

/-- The context a WAITL names, `none` for the Tide subscription (R312). -/
def waitlCtx (c : Nat) (t : Thread) (ctxk : BitVec 3) (rc : BitVec 5) : Except Attn (Option Nat) :=
  match ctxk.toNat with
  | 4 => match t.fab with
    | some x => .ok (some x)
    | none => .error (chanStop 2 0)
  | 5 => .ok (some (c * 8 + 5))
  | 6 => .ok none
  | 7 =>
    let x := wf 15 0 (sreg t rc)
    if ctxAssigned x then .ok (some x) else .error (.fault (syncFault 3 (BitVec.ofNat 64 x)))
  | k => match t.chans[k]? with
    | some x => .ok (some x)
    | none => .error (chanStop 1 0)

/-- Whether an engine context lies in a job's instance (R126): a collective context through its current operation, and any
context that has none through the latest issued to it (log entry 85); the auditor through the task it samples or replays;
ingress through the memory of every job. -/
def ctxInJob (s : State) (ctx : Nat) (jobid : Nat) : Bool :=
  if ctx = 0x4800 then true
  else if ctx = 0x4801 then
    (s.auditor.pending ++ s.auditor.replaying.toList).any (fun x => jobidOf s x.job == jobid)
  else match (collOf s ctx).ops.head?, decide (0x4000 ≤ ctx) with
    | some o, true => wf 15 0 o.issuer.regs.jobid == jobid
    | _, _ => mget ctx s.ctxJobs == some jobid

/-- Whether a scope includes a context's home (R126, R134), for a thread of core c: the home core of a core's context; the
package for collective contexts and the auditor; at job scope a context of the same job. -/
def scopeHasCtx (s : State) (t : Thread) (scope c ctx : Nat) : Bool :=
  if scope = 5 then ctxInJob s ctx (wf 15 0 t.regs.jobid)
  else if 0x4000 ≤ ctx then scope == 3 && ctx != 0x4800
  else scopeIncludes scope c (ctx / 8) true

/-- A timeline is acquired (R134, R143). -/
def acquireTl (s : State) (c : Nat) (t : Thread) (ctx n scope : Nat) : Thread :=
  if !tracked t || !scopeHasCtx s t scope c ctx then t
  else withAcq t (acquireScope (mergeEntry (acqOf t) ⟨1, ctx, n, false⟩) scope)

/-- WAITL and WAITL.test (R312). -/
def execWaitl (g : Guard) (test : Bool) (pd ctxk : BitVec 3) (rc rn : BitVec 5) (scope : BitVec 3) (s : State) : Out :=
  runSlot g s (fun t =>
    (waitlCtx s.cur t ctxk rc).bind (fun x =>
      let n := (sreg t rn).toNat
      let done := match x with
        | some ctx => decide (n ≤ timelineOf s ctx)
        | none => decide (n ≤ t.tide.tl)
      let t' := match x with
        | some ctx => if done then acquireTl s s.cur t ctx n scope.toNat else t
        | none => t
      if test then putPred s t' pd done 2
      else if done then .ok (setThread s s.cur t') else .error .stall))

end Sys2Proof.Machine
end

