-- ==== Sys2Proof/Machine/ProbeOps.lean ====
section
/-! DEFINITION. The probe-cache instructions (R256 to R259) and the completion of fills and write-backs (R57 to R61). -/

namespace Sys2Proof.Machine

/-- The block a slot's register names (R54). -/
def probeBlock (t : Thread) (ra : BitVec 5) : Except Attn Word :=
  let a := sreg t ra
  let va := a &&& ~~~(0x7FF#64)
  if wf 63 56 a ≠ 0 then .error (.fault (xlatFault 1 0 a 0 0))
  else if a.getLsbD 55 then .error (.fault (xlatFault 7 0 a 0 0))
  else .ok va

/-- What a lookup gives (R54, R55, R257). -/
inductive Look where
  | hit (j : Nat)
  | filling (j : Nat)
  | err (j : Nat)
  | miss
  deriving DecidableEq, Repr

/-- The lookup of a block: nothing matches while the cache is disabled (R56). -/
def probeLook (s : State) (c : Nat) (t : Thread) (va : Word) : Look :=
  if !(coreOf s c).probe.cfg.getLsbD 0 then .miss
  else match slotFor s c (wf 15 0 t.regs.asid) va with
    | none => .miss
    | some j =>
      match (slotOf s c j).state with
      | 1 => .filling j
      | 4 => .err j
      | _ => .hit j

/-- The tags of a slot's granules when its fill is queued (R59). -/
def tagFill (s : State) (c j n : Nat) (bar : Option (Word × Nat)) (phase : Nat) : State :=
  let t : Tag := match bar with
    | none => { Tag.empty with wk := 2, ectx := probeCtx c, wn := n % 2 ^ 28 }
    | some b => { Tag.empty with wk := 3, ectx := probeCtx c, wn := n % 2 ^ 28, wid := b.2 / 16 % 2 ^ 30, phase := phase }
  (granules (slotPa s c j) 2048).foldl (fun s g => setTag s g t) s

/-- The phase of the barrier that a fill names (R59), read as the thread's access reads it (R47, R51). -/
def barPhase (s : State) (c : Nat) (bar : Option (Word × Nat)) : Except Attn (Nat × State) :=
  match bar with
  | none => .ok (0, s)
  | some b =>
    match readBar s (whoCore c) b.2 b.1 with
    | (.ok v, s) => .ok (bits 0 4 v, s)
    | (.error e, _) => .error (.response b.2 16 (dataFault e.1 0 b.1 e.2))

/-- A miss (R56 to R59, R133): the victim's write-back, if it is DIRTY, and the fill are queued, and the miss is a release.
No slot when there is no victim; a freeze when the queue has no room. -/
def probeMiss (s : State) (c : Nat) (t : Thread) (va : Word) (way : Option Nat) (bar : Option (Word × Nat)) :
    Except Attn (State × Thread × Option (Nat × Nat)) :=
  let p := (coreOf s c).probe
  let set := probeSet p.cfg va
  let free (w : Nat) : Bool := (slotOf s c (8 * set + w)).state != 1 && !(slotOf s c (8 * set + w)).drop_
  let victim := if !p.cfg.getLsbD 0 then none
    else match way with
      | some w => if free w then some w else none
      | none => plruVictim (mgetD 0 set p.plru) free
  match victim with
  | none => .ok (s, t, none)
  | some w =>
    let j := 8 * set + w
    let x := slotOf s c j
    let dirty := x.state == 3
    if 32 < probeQueued p + 1 + b2n dirty then .error (.freeze 5)
    else
      let t := release t
      let i := issuerOf c t
      (barPhase s c bar).bind (fun (phase, s) =>
      let s := if dirty then queueProbe s c (newWriteBack j x i) else s
      let s := queueProbe s c (newFill j va (wf 15 0 t.regs.asid) bar phase i)
      let n := (coreOf s c).probe.no
      let s := setSlot s c j { PSlot.invalid with state := 1, va := va, asid := wf 15 0 t.regs.asid, no := n,
                                                  regs := i.regs, priv := i.priv }
      .ok (tagFill (touchPlru s c j) c j n bar phase, t, some (j, n)))

/-- The barrier a PROBE or FILL names (R256): its generic address and its place. -/
def fillBar (s : State) (t : Thread) (barf : Bool) (rb : BitVec 5) : Except Attn (Option (Word × Nat)) :=
  if barf then (barPlace s t .atomic rb).map (fun x => some (x.1, x.2.pa)) else .ok none

/-- A PROBE hit orders the thread after the slot's fill (R59, R143). -/
def acquireFill (s : State) (c : Nat) (t : Thread) (j : Nat) : Thread :=
  if !tracked t then t else withAcq t (mergeEntry (acqOf t) ⟨1, probeCtx c, (slotOf s c j).no, false⟩)

/-- PROBE (R256, R257). -/
def execProbe (h : MHdr) (pd : BitVec 3) (rdp : BitVec 4) (ra : BitVec 5) (wayf : Bool) (way : BitVec 3) (mb : Bool)
    (tgt : BitVec 6) (barf : Bool) (rb : BitVec 5) (s : State) : Out :=
  runSlot h.g s (fun t =>
    (if mb then checkIndex t tgt else .ok ()).bind (fun _ =>
      (probeBlock t ra).bind (fun va =>
        (fillBar s t barf rb).bind (fun bar =>
          let c := s.cur
          let lo : BitVec 5 := BitVec.ofNat 5 (2 * rdp.toNat)
          let put (s : State) (t : Thread) (ok : Bool) (x y : Word) : Slot :=
            (addPred t pd ok 2).bind (fun t => (addScalar t lo x 2).bind (fun t => (addScalar t (lo ||| 1) y 2).map (fun t =>
              setThread s c (if mb && !ok then goTo t tgt.toNat else t))))
          let n (j : Nat) : Word := BitVec.ofNat 64 (slotOf s c j).no
          match probeLook s c t va with
          | .err j => .error (.pending 5 j)
          | .hit j => put (touchPlru s c j) (acquireFill s c t j) true (BitVec.ofNat 64 j) (n j)
          | .filling j => put s t false (BitVec.ofNat 64 j) (n j)
          | .miss =>
            (probeMiss s c t va (if wayf then some way.toNat else none) bar).bind (fun r =>
              match r.2.2 with
              | some (j, no) => put r.1 r.2.1 false (BitVec.ofNat 64 j) (BitVec.ofNat 64 no)
              | none => put r.1 r.2.1 false (BitVec.allOnes 64) 0)))))

/-- FILL (R258). -/
def execFill (h : MHdr) (rd ra : BitVec 5) (wayf : Bool) (way : BitVec 3) (barf : Bool) (rb : BitVec 5) (s : State) : Out :=
  runSlot h.g s (fun t =>
    (probeBlock t ra).bind (fun va =>
      (fillBar s t barf rb).bind (fun bar =>
        let c := s.cur
        let n (j : Nat) : Word := BitVec.ofNat 64 (slotOf s c j).no
        match probeLook s c t va with
        | .err j => .error (.pending 5 j)
        | .hit j => putScalar (touchPlru s c j) t rd (n j) 1
        | .filling j => putScalar s t rd (n j) 1
        | .miss =>
          (probeMiss s c t va (if wayf then some way.toNat else none) bar).bind (fun r =>
            putScalar r.1 r.2.1 rd (match r.2.2 with
              | some (_, no) => BitVec.ofNat 64 no
              | none => 0) 1))))

/-- What EVICT and WBACK do to a block's slot (R259): the state it ends in, and whether its data is written back.
DESIGN CHOICE (log entry 81): the slot leaves DIRTY when its write-back is queued. -/
def releaseSlot (s : State) (rd ra : BitVec 5) (wb : Bool) (next : Nat → Option Nat) : Thread → Slot := fun t =>
  (probeBlock t ra).bind (fun va =>
    let c := s.cur
    match slotFor s c (wf 15 0 t.regs.asid) va with
    | none => putScalar s t rd 0 1
    | some j =>
      let x := slotOf s c j
      match next x.state with
      | none => putScalar s t rd 0 1
      | some st =>
        let write := wb && x.state == 3
        if write && decide (32 ≤ probeQueued (coreOf s c).probe) then .error (.freeze 5)
        else
          let t := release t
          let s := if write then queueProbe s c (newWriteBack j x (issuerOf c t)) else s
          let no := if write then (coreOf s c).probe.no else 0
          let s := setSlot s c j (if st = 0 then PSlot.invalid else { x with state := st })
          putScalar s t rd (BitVec.ofNat 64 no) 1)

/-- EVICT (R259): with write-back, VALID and DIRTY slots; with discard, ERR slots too. -/
def execEvict (h : MHdr) (wb : Bool) (ra rd : BitVec 5) (s : State) : Out :=
  runSlot h.g s (releaseSlot s rd ra wb (fun st =>
    if st = 2 ∨ st = 3 ∨ (st = 4 ∧ !wb) then some 0 else none))

/-- WBACK (R259): a DIRTY slot is written back and becomes VALID. -/
def execWback (h : MHdr) (ra rd : BitVec 5) (s : State) : Out :=
  runSlot h.g s (releaseSlot s rd ra true (fun st => if st = 2 ∨ st = 3 then some 2 else none))

/-! Fills and write-backs at work (R57 to R61) -/

/-- Change operation n of a core's queue. -/
def modPOp (s : State) (c n : Nat) (f : POp → POp) : State :=
  modProbe s c (fun p => { p with queue := modWhere (fun o => o.no == n) f p.queue })

/-- Take the completed operations off the front of the queue: the timeline stands at the last of them (R57). -/
def advanceProbe (p : Probe) : Probe :=
  let r := p.queue.dropWhile (·.done)
  { p with queue := r, tl := ((p.queue.takeWhile (·.done)).getLast?.map (·.no)).getD p.tl }

/-- A completed fill counts its sectors and its arrival at its barrier (R58). -/
def countFill (s : State) (c : Nat) (o : POp) (pa : Nat) : State :=
  engineBar (engineBar s (probeCtx c) o.issuer o.va pa o.barGa false 64) (probeCtx c) o.issuer o.va pa o.barGa true 0

/-- Look at an operation again in the next cycle. -/
def probeAgain (s : State) (c : Nat) (o : POp) : State := schedule s 1 (probeEvent c o)

/-- A completed fill whose barrier's translation a halt has discarded (R27): translated anew, and counted. -/
def countOwing (s : State) (c : Nat) (o : POp) : State :=
  match ctxPlace s (probeCtx c) { o.issuer with regs := o.regs, priv := o.priv } .fill .atomic o.barGa with
  | .stop s => s
  | .wait s => probeAgain s c o
  | .ok p =>
    if !(p.dev.isNone && inSram p.pa) then
      haltContext s (probeCtx c) { o.issuer with regs := o.regs, priv := o.priv } (placeFault 7 7 o.barGa p (probeCtx c))
    else countFill (modProbe s c (fun q => { q with owing := q.owing.filter (fun x => x.no != o.no) })) c o p.pa

/-- An operation has completed (R57, R58): the timeline advances over what is complete, a fill with a barrier is counted there,
and what waits for room in the queue takes it (R60). -/
def popProbe (s : State) (c : Nat) (o : POp) : State :=
  let s := fillRoom 32 (modProbe (modPOp s c o.no (fun o => { o with done := true })) c advanceProbe) c
  match o.fill, o.bar with
  | true, some b =>
    if o.barStale then probeAgain (modProbe s c (fun q => { q with owing := q.owing ++ [o] })) c o else countFill s c o b
  | _, _ => s

/-- A fill ends (R55, R60): with its bytes, VALID; with an error response, ERR; INVALID where a TLBI took its
translation away meanwhile. -/
def finishFill (s : State) (c : Nat) (o : POp) (r : Except (Nat × Nat) (List Byte)) : State :=
  let x := slotOf s c o.slot
  let s := match r with
    | .ok bs => (performWrite s (whoCtx (probeCtx c)) (slotPa s c o.slot) bs o.va).2
    | .error _ => s
  let y : PSlot := if x.drop_ then PSlot.invalid else match r with
    | .ok _ => { x with state := 2 }
    | .error e => { x with state := 4, cause := e.1, errPa := e.2 }
  popProbe (setSlot s c o.slot y) c o

/-- Whether an operation is one that the drain lead or the dredge window holds (R61): it goes to HBM of this device. -/
def heldHbm (s : State) (o : POp) : Bool :=
  s.dredge.drained && (match o.place with
    | some (pa, none) => inHbm pa
    | _ => false)

/-- Whether it is an operation's turn (R57, R61): what was queued before it is complete, or is held at HBM and concerns
another block, and another slot or one that it has read already. -/
def probeTurn (s : State) (c : Nat) (o : POp) : Bool :=
  (coreOf s c).probe.queue.all (fun q => decide (o.no ≤ q.no) || q.done ||
    (heldHbm s q && (q.slot != o.slot || (!q.fill && !q.data.isEmpty)) && (q.va != o.va || q.asid != o.asid)))

/-- The probe fill engine halts on an operation's transfer (R27, R51, R57): it is issued anew after RESTART. -/
def haltProbe (s : State) (c : Nat) (o : POp) (f : FaultRec) : State :=
  haltContext (modPOp s c o.no (fun o => { o with issued := none })) (probeCtx c) { o.issuer with regs := o.regs, priv := o.priv } f

/-- A request packet of an operation to another device. -/
def probePacket (s : State) (c : Nat) (o : POp) (d : BitVec 16) (pa : Nat) (bs : List Byte) : State :=
  let i := { o.issuer with regs := o.regs, priv := o.priv }
  queuePacket s (if o.fill then jobPacket i d 2 0 pa 2048 [] else jobPacket i d 1 0 pa 0 bs) (.op (probeCtx c) o.no o.va)

/-- An operation's step that touches slices waits for its turn there (R39). -/
def probeServed (s : State) (c : Nat) (o : POp) (spans : List (Nat × Nat)) (k : State → State) : State :=
  engineServed s spans (probeEvent c o) (fun s w => modPOp s c o.no (fun o => { o with bank := w })) k

/-- A write-back reads its slot, once (R57). DESIGN CHOICE (log entry 83): a write-back whose read of the slot, or whose write at
the target, is answered with an error halts the engine with that data error. -/
def readSlot (s : State) (c : Nat) (o : POp) : State :=
  probeServed s c o [(slotPa s c o.slot, 2048)] (fun s =>
    let (g, s) := readPa s (whoCtx (probeCtx c)) (slotPa s c o.slot) 2048 o.va
    match g.err with
    | some (e, a) => haltProbe s c o (dataFault e 7 o.va a (probeCtx c))
    | none => probeAgain (modPOp s c o.no (fun o => { o with data := g.bytes })) c o)

/-- The operation's transfer is issued to where its translation leads (R57, R60, R61, R68, R84): a write-back has read its
slot before. -/
def issueProbe (s : State) (c : Nat) (o : POp) (pa : Nat) (dev : Option (BitVec 16)) : State :=
  if !o.fill && o.data.isEmpty then readSlot s c o
  else if dev.isNone && inHbm pa && s.dredge.drained then probeAgain s c o
  else
    let s := noteHint s ⟨pa, dev, o.leaf, 0⟩
    let s := modPOp s c o.no (fun o => { o with issued := some s.now, leaf := none })
    match dev with
    | some d => probePacket s c o d pa o.data
    | none => startProbe s c o

/-- The translation that a fill goes through, kept in its slot (R60). -/
def noteFill (s : State) (c : Nat) (o : POp) (p : Place) : State :=
  let x := slotOf s c o.slot
  let ro := match p.leaf with
    | some l => !l.getLsbD 4
    | none => false
  setSlot s c o.slot { x with ro := ro, pa := p.pa, dev := (p.dev.map (fun d => d.toNat + 1)).getD 0,
                              page := (p.leaf.map leafLog).getD 0, leaf := p.leaf }

/-- An operation translates through the copy TLB, a write-back through the owning job's translations (R57, R62), and is
issued. -/
def translateProbe (s : State) (c : Nat) (o : POp) : State :=
  match ctxPlace s (probeCtx c) { o.issuer with regs := o.regs, priv := o.priv } .fill (if o.fill then .read else .write) o.va with
  | .stop s => s
  | .wait s => probeAgain s c o
  | .ok pl =>
    let s := if o.fill then noteFill s c o pl else s
    if o.fill && deadLeaf pl then finishFill s c o (.error (3, pl.pa))
    else issueProbe (modPOp s c o.no (fun o => { o with place := some (pl.pa, pl.dev), leaf := pl.leaf })) c { o with leaf := pl.leaf }
      pl.pa pl.dev

/-- An operation on this device that has been issued is performed (R39, R57); what goes to HBM waits for a window to close. The
write of a write-back neither checks nor tags (R146 has no row for it: log entry 92). -/
def performProbe (s : State) (c : Nat) (o : POp) (pa : Nat) : State :=
  if inHbm pa && inWindow s then probeAgain s c o
  else probeServed s c o ((pa, 2048) :: (if o.fill then [(slotPa s c o.slot, 2048)] else [])) (fun s =>
    if o.fill then
      let (g, s) := readPa s (whoCtx (probeCtx c)) pa 2048 o.va
      finishFill s c o (match g.err with
        | some e => .error e
        | none => .ok g.bytes)
    else match performWrite s (whoCtx (probeCtx c)) pa o.data o.va with
      | (some (e, a), s) => haltProbe s c o (dataFault e 7 o.va a (probeCtx c))
      | (none, s) => popProbe s c o)

/-- One piece of work of operation n (R57 to R61): a halted engine begins nothing. -/
def probeStep (s : State) (c n : Nat) (fill : Bool) : State :=
  let p := (coreOf s c).probe
  match p.queue.find? (fun o => o.no == n && o.fill == fill && !o.done) with
  | none =>
    match p.owing.find? (fun o => o.no == n) with
    | some o => if p.halted.isSome then s else countOwing s c o
    | none => s
  | some o =>
    match o.issued, o.place with
    | some _, some (pa, none) => performProbe s c o pa
    | some _, some (_, some _) =>
      -- the bytes of a fill have come from another device
      if o.fill && !o.data.isEmpty then probeServed s c o [(slotPa s c o.slot, 2048)] (fun s => finishFill s c o (.ok o.data)) else s
    | some _, none => s
    | none, place =>
      if p.halted.isSome then s
      else if !probeTurn s c o || !issuerReady s o.issuer then probeAgain s c o
      else match place with
        | some (pa, dev) => issueProbe s c o pa dev
        | none => translateProbe s c o

/-- FILL_COMPLETE (R55, R57, R58, R60, R61). -/
def execFillComplete (core n : Nat) (s : State) : Out := .next (probeStep s core n true)

/-- WRITEBACK_COMPLETE (R57, R60, R61). -/
def execWritebackComplete (core n : Nat) (s : State) : Out := .next (probeStep s core n false)

/-- The answer of another device to an operation's packet. -/
def probeAnswer (s : State) (ctx no : Nat) (r : Except (Nat × Nat) (List Byte)) : State :=
  let c := ctx / 8
  match (coreOf s c).probe.queue.find? (fun o => o.no == no && !o.done) with
  | none => s
  | some o =>
    if o.fill then match r with
      | .ok bs => schedule (modPOp s c no (fun o => { o with data := bs })) 0 (probeEvent c o)
      | .error _ => finishFill s c o r
    else match r with
      | .ok _ => popProbe s c o
      | .error (e, a) => haltProbe s c o (dataFault e 7 o.va a ctx)

/-- Set the probe fill engine going again at its logged operation (RESTART, R27, R337). -/
def restartProbe (s : State) (c : Nat) : State :=
  let s := modProbe s c (fun p => { p with halted := none })
  let p := (coreOf s c).probe
  (p.owing ++ p.queue.filter (fun o => o.issued.isNone && !o.done)).foldl (fun s o => probeAgain s c o) s

end Sys2Proof.Machine
end

