-- ==== Sys2Proof/Machine/SysOps.lean ====
section
/-! DEFINITION. Format and control registers, the calendar, and the auditor's ranges (R195, R309, R324 to R327, R330). -/

namespace Sys2Proof.Machine

/-- Put a control-register write into its shadow. -/
def putCtl (s : State) (t : Thread) (reg : Nat) (v : Word) (l : Nat) : State :=
  setThread s s.cur { t with x := { t.x with ctl := t.x.ctl ++ [⟨reg, v, t.x.dc + l⟩] } }

/-- SETFMT (R324): the selected fields, under the shadow of R195. -/
def execSetfmt (g : Guard) (msk : BitVec 5) (img : BitVec 20) (s : State) : Out :=
  runSlot g s (fun t => .ok (putCtl s t (0x1000 + msk.toNat) (img.setWidth 64) 4))

/-- XPROG (R290). -/
def xprog (t : Thread) : Word :=
  match t.x.xop with
  | some x => if x.mma then fieldsWord [(44, 1), (32, x.pass), (0, x.kstep)] else 0
  | none => 0

/-- The core id and TID a thread reads: those of the original for an auditor's replay (R345). -/
def shownIds (s : State) (t : Thread) : Nat × Nat :=
  match t.replay, s.auditor.replaying with
  | true, some x => (x.core, x.tid)
  | _, _ => (s.cur, t.det.tid)

/-- The value CRR returns (R309, R325). -/
def crValue (s : State) (t : Thread) (cr : Nat) : Word :=
  let tl (c : Option Nat) : Word := match c with
    | some x => BitVec.ofNat 64 (timelineOf s x)
    | none => 0
  match cr with
  | 0x00 => BitVec.ofNat 64 (shownIds s t).1
  | 0x01 => BitVec.ofNat 64 (shownIds s t).2
  | 0x02 => BitVec.ofNat 64 s.now
  | 0x10 => t.c.fmt
  | 0x11 => t.c.fflags.setWidth 64
  | 0x12 => t.c.nbv
  | 0x13 => t.c.xmask
  | 0x14 => t.c.xscl
  | 0x15 => xprog t
  | 0x40 => tl t.chans[0]?
  | 0x41 => tl t.chans[1]?
  | 0x42 => tl t.chans[2]?
  | 0x43 => tl t.chans[3]?
  | 0x44 => tl t.fab
  | 0x45 => match t.fab, t.tlqf with
    | some _, some n => BitVec.ofNat 64 n
    | f, _ => tl f
  | 0x46 => tl (some (probeCtx s.cur))
  | 0x47 => BitVec.ofNat 64 t.tide.tl
  | n => match crJobWord n with
    | some k => jobWord t.regs k
    | none => 0

/-- CRR (R325): latency 1. -/
def execCrr (g : Guard) (rd : BitVec 5) (cr : BitVec 12) (s : State) : Out :=
  runSlot g s (fun t => putScalar s t rd (crValue s t cr.toNat) 1)

/-- CRW (R325): a job-wide register needs a privileged thread, whatever the guard; read-only registers ignore the
write. FFLAGS is cleared a cycle later (R196), every other register is written four cycles later (R195). -/
def execCrw (g : Guard) (rs : BitVec 5) (cr : BitVec 12) (s : State) : Out :=
  runAlways s (fun t =>
    let n := cr.toNat
    if (crJobWord n).isSome && !privileged t then .error (illegalSlot 6)
    else if !guardTrue t g then .ok s
    else if n = 0x11 then .ok (putCtl s t n (sreg t rs) 1)
    else if decide (0x10 ≤ n ∧ n ≤ 0x14) || ((crJobWord n).isSome && n != 3) then .ok (putCtl s t n (sreg t rs) 4)
    else .ok s)

/-! The dredge calendar (R327, R339) -/

/-- The first window start later than a ring cycle. -/
def nextWindow (g : Nat) : Nat := (g / 65536 + 1) * 65536

/-- DCAL (R327): latency 2. -/
def execDcal (g : Guard) (rd : BitVec 5) (s : State) : Out :=
  runSlot g s (fun t => putScalar s t rd (BitVec.ofNat 64 (nextWindow s.now)) 2)

/-- DLEFT (R327): latency 2. -/
def execDleft (g : Guard) (rd : BitVec 5) (pd : BitVec 3) (s : State) : Out :=
  runSlot g s (fun t => (addScalar t rd (BitVec.ofNat 64 (nextWindow s.now - s.now)) 2).bind (fun t =>
    putPred s t pd (inWindow s) 2))

/-! The auditor's ranges (R330, R344) -/

/-- AMARK (R330): a range of 1 to 2^32 bytes joins a list of eight, or the task is unauditable. An input range of a
sampled task is copied once every earlier operation of the thread has been performed (R344). -/
def execAmark (g : Guard) (k : BitVec 2) (ra rl : BitVec 5) (s : State) : Out :=
  runSlot g s (fun t =>
    let a := sreg t ra
    let n := (sreg t rl).toNat
    let list := if k = 0 then t.auditIn else t.auditOut
    if k = 2 || n = 0 || decide (2 ^ 32 < n) || decide (8 ≤ list.length) then
      .ok (setThread s s.cur { t with auditNone := true })
    else if k = 1 then .ok (setThread s s.cur { t with auditOut := t.auditOut ++ [(a, n)] })
    else
      let t := { t with auditIn := t.auditIn ++ [(a, n)] }
      if t.sampled then issueMarker s t (.amark a n) 5 else .ok (setThread s s.cur t))

end Sys2Proof.Machine
end

