-- ==== Sys2Proof/Machine/MemEvents.lean ====
section
/-! DEFINITION. Requests at their home (R36, R37, R47, R51, R122 to R132, R136, R137, R146, R147, R251 to R255, R294, R310,
R311, R319, R344): the arrival of data and the performing of writes. -/

namespace Sys2Proof.Machine

/-- Whether an access is synchronising (R127): it carries an order, or is an atomic. -/
def synchronises (q : Req) : Bool :=
  match q.kind with
  | .atom .. | .fatom => true
  | _ => decide (q.ord ≠ 0)

/-- What an acquire of this access merges, and what a later acquire fence of a wider scope may (a package-scope acquire has
merged all), taken from the state before the access's own tag update (R143, R144). -/
def acquireDet (s : State) (c : Nat) (q : Req) (p : Part) : Option Detector :=
  let s := if acquires q.ord then acquireAt s c p.pa p.unchk q.scope else s
  let s := if synchronises q && !(acquires q.ord && q.scope = 3) then
      pendRead s c p.pa p.unchk (q.ord = 0) else s
  (threadOf s c).map (·.det)

/-- The thread with the merged acquire set and pending reads. -/
def withDet (s : State) (c : Nat) (d : Option Detector) : State :=
  match d with
  | none => s
  | some d => modThread s c (fun t => { t with det := { t.det with aset := d.aset, coarse := d.coarse, pend := d.pend } })

/-- Bytes of a part as data. -/
def partBytes (p : Part) : List Byte := leBytes p.len p.data.toNat

/-- A replay that accesses what it may not is abandoned (R345). -/
def giveUp (s : State) (c : Nat) : State := abandonReplay s c

/-- Read a part's bytes: `none` when the replay is abandoned. -/
def readPart (s : State) (c : Nat) (t : Thread) (p : Part) : Option (Got × State) :=
  match if t.replay then replayRead s c t.regs t.anm p.pa p.ga p.len else none with
  | some (.ok bs) => some (⟨bs, none⟩, s)
  | some (.error _) => none
  | none => some (readAny s (whoCore c) p.pa p.len p.ga)

/-- Write a part's bytes. -/
def writePart (s : State) (c : Nat) (t : Thread) (p : Part) (bs : List Byte) : Option (Option (Nat × Nat) × State) :=
  match if t.replay then replayWrite s c t.regs t.anm p.pa p.ga bs else none with
  | some (.ok s) => some (none, s)
  | some (.error _) => none
  | none => some (performWrite s (whoCore c) p.pa bs p.ga)

/-- Why the target of a part answers with an error that covers the whole access (R17, R51). -/
def targetError (s : State) (p : Part) : Bool :=
  if inCtl p.pa then (ctlHole s p.pa p.len).isSome else (spanError s p.pa p.len).isSome

/-- Whether the error response of another part of its row covers a part (R17, R51): one response, and its event, answers for
the whole row, and of two parts without a target the first gives it. -/
def rowRefused (s : State) (q : Req) (p : Part) : Bool :=
  q.parts.any (fun x => x.row == p.row && x.off != p.off && targetError s x && (decide (x.off < p.off) || !targetError s p))

/-- The bytes of a row with those that an earlier row of the same LDROW has read already (R253: the same bytes give the same
value). -/
def sameBytes (q : Req) (p : Part) (bs : List Byte) : List Byte :=
  match q.kind with
  | .row _ => bs.zipIdx.map (fun b =>
      match q.parts.find? (fun x => x.done && decide (x.pa ≤ p.pa + b.2 ∧ p.pa + b.2 < x.pa + x.len)) with
      | some x => BitVec.ofNat 8 (x.data.toNat / 2 ^ (8 * (p.pa + b.2 - x.pa)))
      | none => b.1)
  | _ => bs

/-- A load or a row is read (R146, R251, R253). What the access acquires is merged before its check (R143, R318, log
27); an `.sc` load is a release too (R140, R252). -/
def performLoad (s : State) (c : Nat) (t : Thread) (q : Req) (k : Nat) (p : Part) : State :=
  let d := acquireDet s c q p
  let s := if releases q.ord then releaseAt s c else s
  match touchAt (withDet s c d) c (if q.ord = 0 then .load else .syncLoad) p with
  | .error f => refuseReq s c q.id f
  | .ok s =>
    if !t.replay && rowRefused s q p then finishPart s c q.id k 0
    else match readPart s c t p with
    | none => finishPart (giveUp s c) c q.id k 0
    | some (g, s) =>
      let s := match g.err with
        | some e => faultReq s c q.id (responseFault p e)
        | none => s
      finishPart s c q.id k (bytesRow (sameBytes q p g.bytes))

/-- An atomic is performed as one access (R130, R254): its merge comes before its check and before its release record
(R143, R144, log 27). -/
def performAtom (s : State) (c : Nat) (t : Thread) (q : Req) (k : Nat) (p : Part) (aop w : Nat) (x y : Word) : State :=
  let d := acquireDet s c q p
  let rel := releases q.ord
  let m := withDet s c d
  match touchAt (if rel then releaseAt m c else m) c (.syncStore rel q.scope) p with
  | .error f => refuseReq s c q.id f
  | .ok s =>
    match readPart s c t p with
    | none => finishPart (giveUp s c) c q.id k 0
    | some (g, s) =>
      match g.err with
      | some e => finishPart (faultReq s c q.id (responseFault p e)) c q.id k 0
      | none =>
        let old := BitVec.ofNat 64 (leNat g.bytes)
        match writePart s c t p (leBytes w (atomNew aop w old x y).toNat) with
        | none => finishPart (giveUp s c) c q.id k 0
        | some (e, s) =>
          let s := match e with
            | some e => faultReq s c q.id (responseFault p e)
            | none => if rel then recordAt s c p.pa p.unchk else s
          finishPart s c q.id k (rowOf old)

/-- A store, a row or a deposit is written (R146, R251, R253); a write of control-register space reaches the register
(R396). -/
def performStore (s : State) (c : Nat) (t : Thread) (q : Req) (k : Nat) (p : Part) : State :=
  -- the order of an EALIGHT is that of its tap operation (R96, R101)
  let plain := q.ord = 0 ∨ q.kind = .alight
  let rel := releases q.ord && q.kind != .alight
  let touch : Touch := if plain then .store else .syncStore rel q.scope
  -- an `.sc` store is an acquire too: at job scope it merges ingress (R143, R252)
  let s := if acquires q.ord && q.kind != .alight then
      modThread s c (fun t => if tracked t then withAcq t (acquireScope (acqOf t) q.scope) else t) else s
  match touchAt (if rel then releaseAt s c else s) c touch p with
  | .error f => refuseReq s c q.id f
  | .ok s =>
    if !t.replay && rowRefused s q p then finishPart s c q.id k 0
    else if inCtl p.pa && !t.replay then
      match ctlHole s p.pa p.len with
      | some a => finishPart (faultReq (logNoTarget s (whoCore c) a p.ga) c q.id (responseFault p (2, a))) c q.id k 0
      | none => finishPart (pushEvs s (ctlWrites p.pa (partBytes p))) c q.id k 0
    else match writePart s c t p (partBytes p) with
      | none => finishPart (giveUp s c) c q.id k 0
      | some (e, s) =>
        let s := match e with
          | some e => faultReq s c q.id (responseFault p e)
          | none => if rel then recordAt s c p.pa p.unchk else s
        finishPart s c q.id k 0

/-- BINIT writes the barrier word (R311): neither checked nor tagged. -/
def performBinit (s : State) (c : Nat) (t : Thread) (q : Req) (k : Nat) (p : Part) (lo hi : Word) : State :=
  match writePart s c t p (leBytes 8 lo.toNat ++ leBytes 8 hi.toNat) with
  | none => finishPart (giveUp s c) c q.id k 0
  | some (e, s) =>
    let s := if t.replay then s else { s with barArr := mset 0 p.pa 0 s.barArr }
    let s := match e with
      | some e => faultReq s c q.id (responseFault p e)
      | none => s
    finishPart s c q.id k 0

/-- A replay's BARRIVE (R345): the word is where its accesses go. -/
def replayBarrive (s : State) (c : Nat) (t : Thread) (p : Part) (sectors : Word) : Option (BarRes × State) :=
  match replayRead s c t.regs t.anm p.pa p.ga 16 with
  | some (.ok bs) =>
    match barUpdate (barOf (leNat bs)) true (-(sectors.toNat : Int)) with
    | none => some (.overArrival, s)
    | some b => (writePart s c t p (leBytes 16 (barBits (leNat bs) b))).map (fun r => (.ok, r.2))
  | some (.error _) => none
  | none => some (applyBar s (whoCore c) p.pa p.ga true (-(sectors.toNat : Int)) false)

/-- BARRIVE is applied (R310, R311): a release, then the arrival with the sectors it adds. -/
def performBarrive (s : State) (c : Nat) (t : Thread) (q : Req) (k : Nat) (p : Part) (sectors : Word) : State :=
  let s := releaseAt s c
  match if t.replay then replayBarrive s c t p sectors
      else some (applyBar s (whoCore c) p.pa p.ga true (-(sectors.toNat : Int)) true) with
  | none => finishPart (giveUp s c) c q.id k 0
  | some (.ok, s) => finishPart s c q.id k 0
  | some (.overArrival, s) => finishPart (faultReq s c q.id (syncFault 2 p.ga)) c q.id k 0
  | some (.error e, s) => finishPart (faultReq s c q.id (responseFault p e)) c q.id k 0

/-! Releases on their way -/

/-- The release of an ENQT is performed (R136, R143): the record leaves with what the child is handed. -/
def performEnqt (s : State) (c die entry : Nat) : State :=
  let s := releaseAt s c
  match threadOf s c with
  | none => s
  | some t =>
    let par : Parent := ⟨t.det.aset, t.det.coarse, t.det.tid, t.det.scnt⟩
    let hand (l : List Entry) : List Entry := modWhere (fun e => e.id == entry) (fun e => { e with parent := some par }) l
    let s := modDie s die (fun d => { d with entries := hand d.entries })
    let (n, s) := takeFree s
    schedule s (42 + launchDelay s die n) (.taskRecordArrival die entry)

/-- Who the auditor's accesses are logged under (R334). -/
def whoAudit : Who := ⟨0, 0, 11, 0x4801⟩

/-- Read a range of generic addresses for the auditor, page by page: `.error true` while a dredge window holds a read of
HBM (R84), `.error false` where the range cannot be read. -/
def readRangeNow (c : Nat) (r : JobRegs) : Nat → Word → Nat → State → Except Bool (List Byte) × State
  | 0, _, _, s => (.ok [], s)
  | f + 1, a, n, s =>
    if n = 0 then (.ok [], s)
    else
      let k := min n (65536 - a.toNat % 65536)
      match resolveNow s .copy c 11 0x4801 r true .read a with
      | (.bad _, s) => (.error false, s)
      | (.miss, s) => (.error true, s)
      | (.at_ p, s) =>
        if p.dev.isSome then (.error false, s)
        else if inHbm p.pa && inWindow s then (.error true, s)
        else
          let (g, s) := readPlace s whoAudit p k a
          if g.err.isSome then (.error false, s)
          else match readRangeNow c r f (a + BitVec.ofNat 64 k) (n - k) s with
            | (.ok bs, s) => (.ok (g.bytes ++ bs), s)
            | x => x

/-- Bytes of every snapshot held. -/
def snapBytes (s : State) : Nat :=
  ((s.auditor.pending ++ s.auditor.replaying.toList).map (fun x => (x.inputs.map (fun i => i.2.1)).sum)).sum

/-- An input range of a sampled task is copied into the snapshot buffer (R344), after the snapshots already there (log
entry 24): `none` while a dredge window holds a read or the write of it. -/
def snapshot (s : State) (c : Nat) (a : Word) (n : Nat) : Option State :=
  match threadOf s c with
  | none => some s
  | some t =>
    let used := snapBytes s
    let base := wf 51 20 s.auditor.buf * 2 ^ 20
    let size := wf 63 52 s.auditor.buf * 2 ^ 20
    let (r, s) := readRangeNow c t.regs 65538 a n s
    let upd (f : Sample → Sample) (s : State) : State :=
      let mine (x : Sample) : Bool := x.frame == t.frame && x.tid == t.det.tid && !x.ended
      { s with auditor := { s.auditor with pending := modWhere mine f s.auditor.pending } }
    match r with
    | .error true => none
    | .error false => some (upd (fun x => { x with bad := true }) (releaseAt s c))
    | .ok bs =>
      if inHbm (base + used) && inWindow s then none
      else if size < used + n then some (upd (fun x => { x with bad := true }) (releaseAt s c))
      else some (upd (fun x => { x with inputs := x.inputs ++ [(a, n, bs)] })
        (performWrite (releaseAt s c) whoAudit (base + used) bs).2)

/-- A FATOM leaves for its target (R319, R360): its fields travel in the part's data. -/
def sendFatom (s : State) (c : Nat) (t : Thread) (q : Req) (p : Part) : State :=
  let s := if releases q.ord then releaseAt s c else s
  let d := p.data.toNat
  let pk := jobPacket (issuerOf c t) (BitVec.ofNat 16 (bits 136 16 d)) 3 (bits 128 8 d) p.pa 0 (leBytes 16 (d % 2 ^ 128))
  modPart (queuePacket s pk (.fatom c q.id t.det.tid)) c q.id 0 (fun p => { p with sent := true })

/-! The events -/

/-- REQUEST_DATA_ARRIVAL: part `part` of a request is read at its home, or, already performed, its data is at the
core. -/
def execRequestDataArrival (core req part : Nat) (s : State) : Out :=
  match reqOf s core req, threadOf s core with
  | some q, some t =>
    match q.parts[part]? with
    | none => .next s
    | some p =>
      if p.done then
        .next (settleReq (settleRow (modPart s core req part (fun p => { p with here := true })) core req p.row) core req)
      else if p.sent && q.kind == .fatom then .next s
      else if heldBack s core t q part p then .next (retryPart s core q part)
      else match q.kind with
        | .load .. | .row _ => .next (served s core q part p (fun s => performLoad s core t q part p))
        | .atom aop w _ x y => .next (served s core q part p (fun s => performAtom s core t q part p aop w x y))
        | .fatom => .next (sendFatom s core t q p)
        | .enqt die entry => .next (finishPart (performEnqt s core die entry) core req part 0)
        | .garrive gid => .next (finishPart (performArrival s core gid) core req part 0)
        | .gleave gid => .next (finishPart (performLeave s core gid) core req part 0)
        | .amark a n => .next (match snapshot s core a n with
          | some s => finishPart s core req part 0
          | none => retryPart s core q part)
        | .fence => .next (finishPart (modThread s core (fun t => fenced s core t q.ord q.scope)) core req part 0)
        | _ => .next s
  | _, _ => .next s

/-- MEMORY_WRITE_PERFORMED: part `part` of a request is written at its home. -/
def execMemoryWritePerformed (core req part : Nat) (s : State) : Out :=
  match reqOf s core req, threadOf s core with
  | some q, some t =>
    match q.parts[part]? with
    | none => .next s
    | some p =>
      if p.done then .next (settleReq s core req)
      else if heldBack s core t q part p then .next (retryPart s core q part)
      else match q.kind with
        | .store _ | .srow _ | .alight => .next (served s core q part p (fun s => performStore s core t q part p))
        | .atom aop w _ x y => .next (served s core q part p (fun s => performAtom s core t q part p aop w x y))
        | .binit lo hi => .next (served s core q part p (fun s => performBinit s core t q part p lo hi))
        | .barrive n => .next (served s core q part p (fun s => performBarrive s core t q part p n))
        | _ => .next s
  | _, _ => .next s

end Sys2Proof.Machine
end

