-- ==== Sys2Proof/Machine/Threads.lean ====
section
/-! DEFINITION. The state of a thread at its start (R151), and of the parts of it that a start, a handler and a placed
instruction share. -/

namespace Sys2Proof.Machine

/-- No segment expanded. -/
def Segment.none_ : Segment := ⟨0, none, none, 0, false, false, 0, 0, []⟩

/-- The sequencer about to enter a segment at bundle j. -/
def Seqr.start (seg : Word) (j : Nat) : Seqr :=
  { seg := seg, idx := j, buf := Segment.none_, next := none, expanding := none, moved := false, point := false, fenced := false,
    loops := [], holdM0 := none, holdM1 := none, holdV := none, holdX := none, pwrite := [] }

/-- An empty pipeline. -/
def Pipe.empty : Pipe :=
  { dc := 0, inflight := [], reads := [], writes := [], zguard := [], counts := [], ctl := [], vop := none, vEnd := 0,
    xop := none, xEnd := 0, banks := 0, used := [] }

/-- FMT, FFLAGS, NBV, XMASK and XSCL at their reset values (R194, R196, R197, R290). -/
def CtlRegs.reset : CtlRegs := { fmt := 0x11, fflags := 0, nbv := 0, xmask := 0x4040, xscl := 0 }

/-- An idle subscription (R112). -/
def TideSub.idle : TideSub :=
  { state := 0, layer := 0, first := 0, last := 0, stride := 0, rate := 0, next := 0, missl := false, misst := false,
    absent := false, tl := 0, reg := 0, seenLap := none, beatAt := 0, seen := none, buf := [], taking := [], restore := [],
    heads := [], kept := 0, pending := [] }

/-- A free watch entry (R262). -/
def Watch.free : Watch := ⟨0, 0, 0, 0, 0, false, false⟩

/-- A thread that starts (R140, R151): frame, job, record, registers, core, TID and count. -/
def Thread.start (frame job : Nat) (record : List Word) (regs : JobRegs) (core tid scnt : Nat) (chans : List Nat)
    (fab : Option Nat) (prio : Nat) : Thread :=
  let w (i : Nat) : Word := (record[i]?).getD 0
  let s0 : Vector Word 32 := Vector.replicate 32 0
  { frame := frame, job := job, record := record, anm := (w 0).getLsbD 59, handler := false, trapped := none,
    regs := regs, chans := chans, fab := fab, prio := prio, phase := .running,
    r := { s := ((((s0.set 1 (w 1)).set 2 (w 2)).set 3 (w 3)).set 4 (BitVec.ofNat 64 core)).set 5 (BitVec.ofNat 64 tid),
           p := 0, tiles := [], accs := [] },
    q := Seqr.start (w 0 &&& 0x00FFFFFFFFFFFFC0) 0, x := Pipe.empty, c := CtlRegs.reset, reqs := [], nextReq := 0,
    uncov := [], watch := List.replicate 8 Watch.free,
    det := { tid := tid, scnt := scnt, startcnt := scnt, aset := [], coarse := false, bypass := false, pend := [], fences := [] },
    openB := [], closedB := [], tlqf := none, tide := TideSub.idle, groups := [], tlbis := [], tlbiOps := [],
    attn := none, preempt := false, kill := false, overruns := [], timeouts := [], spurious := false, posFault := none,
    tret := false, taps := 0, auditIn := [], auditOut := [], auditNone := false, sampled := false, replay := false,
    killBy := none, near := none, homes := [] }

/-- A segment of one bundle with one slot. -/
def oneSlot (a : Word) (k : Kind) (w : Nat) : Segment := ⟨a, none, none, 1, false, false, 0, 0, [[(k, w)]]⟩

/-- Place one instruction's word where the next step runs it (log entry 20): a word of the control cores' extension as
hart 0's next word, any other as the one bundle of an expanded segment that core 0's thread is about to issue. A core 0
without a thread gets one. -/
def placeWord (s : State) (nbits w : Nat) : State :=
  let v := w % 2 ^ nbits
  match decodeQuokor v with
  | some _ =>
    { s with harts := s.harts.set 0 { s.harts[0] with word := BitVec.ofNat 32 v }, todo := .quokor 0 :: s.todo }
  | none =>
    let t := match threadOf s 0 with
      | some t => t
      | none => Thread.start 0 0 [] JobRegs.reset 0 0 1 [] none 0
    let t := { t with phase := .running, attn := none,
                      q := { t.q with seg := 64, idx := 0, buf := oneSlot 64 .s1 v, next := none, expanding := none } }
    { setThread s 0 t with todo := .issue 0 :: s.todo }

end Sys2Proof.Machine
end

