-- ==== Sys2Proof/Machine/Sched.lean ====
section
/-! DEFINITION. Tasks and the per-die schedulers (R136, R140, R151 to R164, R178, R315, R344): records and their checks,
entries, conditions, the pick, the start and the end of a thread. -/

namespace Sys2Proof.Machine

/-! Records (R152, R153, R154) -/

/-- Word i of a record. -/
def recWord (ws : List Word) (i : Nat) : Word := (ws[i]?).getD 0

/-- PLKIND, PRIO, NCOPY, NEEDF of a record. -/
def recKind (ws : List Word) : Nat := wf 61 60 (recWord ws 0)
def recPrio (ws : List Word) : Nat := wf 63 62 (recWord ws 0)
def recCopy (ws : List Word) : Nat := wf 2 0 (recWord ws 0)
def recFab (ws : List Word) : Bool := (recWord ws 0).getLsbD 3

/-- Cores of a die that the yield map enables, by rising id. -/
def dieCores (s : State) (d : Nat) : List Nat := ((List.range 320).map (fun k => d * 512 + k)).filter (coreLive s)

/-- The cores of a record's placement on die d, by rising id (R152). -/
def recCores (s : State) (d : Nat) (ws : List Word) : List Nat :=
  let p := recWord ws 4
  let k := recKind ws
  if k = 0 ∨ k = 3 then dieCores s d
  else
    let row := wf 20 18 p
    let base := d * 512 + row * 4 * 16 + wf 17 16 p * 4
    if 5 ≤ row then []
    else ((List.range 16).filter (fun i => k == 2 || p.getLsbD i)).map (fun i => base + i / 4 * 16 + i % 4)
      |>.filter (coreLive s)

/-- The die a record goes to, but for PLKIND 3 (R154). -/
def recDie (ws : List Word) : Nat := if recKind ws = 0 then wf 57 56 (recWord ws 0) else wf 22 21 (recWord ws 4)

/-- The checks of R153 that need no translation: reserved fields, NCOPY, the placement, the contexts named. -/
def recordOk (s : State) (ws : List Word) : Bool :=
  let p := recWord ws 4
  let k := recKind ws
  let place : Bool := match k with
    | 0 => p == 0
    | 3 => true
    | _ => wf 63 23 p == 0
  let cond (en : Bool) (w : Word) : Bool := !en || ctxAssigned (wf 63 48 w)
  place && wf 63 61 (recWord ws 7) == 0 && wf 3 0 (recWord ws 7) == 0 && decide (recCopy ws ≤ 4) &&
    (k == 3 || !(recCores s (recDie ws) ws).isEmpty) && cond ((recWord ws 0).getLsbD 5) (recWord ws 5) &&
    cond ((recWord ws 0).getLsbD 4) (recWord ws 6)

/-- Whether the barrier condition applies, and its address. -/
def recBar (ws : List Word) : Option Word :=
  if (recWord ws 7).getLsbD 60 then some (recWord ws 7 &&& 0x00FFFFFFFFFFFFF0) else none

/-! Entries (R155, R156) -/

/-- Entries of a die's store, records spilled. -/
def storeCount (d : Die) : Nat := (d.entries.filter (fun e => decide (2 ≤ e.state))).length

/-- Whether neither the store nor the spill region has room for another record (R155), those on their way counted: they take what
the store has left, and then the region. -/
def schedFull (d : Die) : Bool :=
  let inStore := storeCount d
  let onWay := (d.entries.filter (fun e => e.state == 0)).length
  let spilled := (d.entries.filter (fun e => e.state == 1)).length
  decide (4096 ≤ inStore + onWay ∧ wf 63 52 d.spill * 1024 ≤ spilled + (inStore + onWay - max inStore 4096))

/-- Change entry `id` of die d. -/
def modEntry (s : State) (d id : Nat) (f : Entry → Entry) : State :=
  modDie s d (fun x => { x with entries := modWhere (fun e => e.id == id) f x.entries })

/-- Remove entry `id` of die d. -/
def dropEntry (s : State) (d id : Nat) : State :=
  modDie s d (fun x => { x with entries := x.entries.filter (fun e => e.id != id) })

/-- Entry `id` of die d. -/
def entryOf (s : State) (d id : Nat) : Option Entry := (dieOf s d).entries.find? (fun e => e.id == id)

/-- Put a new entry into a die's list: in transit, or, for a resume entry, held back until it is made READY. -/
def newEntry (s : State) (d : Nat) (state : Nat) (ws : List Word) (resume : Option Nat) (job prio core : Nat)
    (near : Option Nat) (badr : Nat) (replay : Option (Nat × Nat)) : Nat × State :=
  let (k, s) := takeStamp s
  let e : Entry := { id := k, state := state, record := ws, resume := resume, job := job, prio := prio, age := k,
                     readyAt := 0, near := near, badr := badr, parent := none, core := core, replay := replay, slot := 0 }
  (k, modDie s d (fun x => { x with entries := x.entries ++ [e] }))

/-- Who a scheduler's accesses are logged under (R395). -/
def whoSched (d : Nat) : Who := { die := d, core := d * 512 }

/-- Whether an entry's condition on a barrier holds (R156): the word is read as any other is (R47). -/
def barCond (s : State) (d : Nat) (e : Entry) : Bool × State :=
  match readBar s (whoSched d) e.badr with
  | (.ok v, s) => (barEnded (barOf v) (wf 59 56 (recWord e.record 7)), s)
  | (.error _, s) => (false, s)

/-- Whether every enabled condition of an entry holds (R156). -/
def condsMet (s : State) (d : Nat) (e : Entry) : Bool :=
  let w := recWord e.record
  let tl (en : Bool) (x : Word) : Bool := !en || decide (wf 47 0 x ≤ timelineOf s (wf 63 48 x))
  tl ((w 0).getLsbD 5) (w 5) && tl ((w 0).getLsbD 4) (w 6) &&
    (!(w 7).getLsbD 60 || (barCond s d e).1)

/-- When an entry's age begins (R157): as it becomes READY; of a resume entry, at the save, though the
entry be held (DESIGN CHOICE, log entry 101). -/
def ageFrom (s : State) (e : Entry) : Nat :=
  match e.resume.bind (fun f => mget f s.saved) with
  | some sv => sv.savedAt
  | none => s.now

/-- The entry is READY from now on (R155, R157). -/
def makeReady (s : State) (d id : Nat) : State :=
  schedule (modEntry s d id (fun e => { e with state := 3, readyAt := ageFrom s e })) 65536 (.priorityAging d id)

/-- The entry is in the store: READY, or WAITING while a condition is unmet. -/
def storeEntry (s : State) (d : Nat) (e : Entry) : State :=
  if condsMet s d e then makeReady s d e.id else modEntry s d e.id (fun e => { e with state := 2 })

/-- Where slot n of a die's spill region lies (R155, log entry 25). -/
def spillPa (d : Die) (n : Nat) : Nat := wf 51 16 d.spill * 2 ^ 16 + 64 * n

/-- The lowest slot of the spill region that no spilled record holds. -/
def freeSpill (d : Die) : Nat :=
  let used := (d.entries.filter (fun e => e.state == 1)).map (·.slot)
  ((List.range (used.length + 1)).find? (fun n => !used.contains n)).getD 0

/-- TASK_RECORD_ARRIVAL (R155): stored, or written to the spill region when the store is full (log entry 25). -/
def execTaskRecordArrival (die entry : Nat) (s : State) : Out :=
  match entryOf s die entry with
  | none => .next s
  | some e =>
    let d := dieOf s die
    if 4096 ≤ storeCount d then
      let n := freeSpill d
      .next (storeUnits (modEntry s die entry (fun e => { e with state := 1, slot := n })) (spillPa d n) (wordBytes (e.record.take 8)))
    else .next (storeEntry s die e)

/-- The oldest of a list of entries. -/
def oldest : List Entry → Option Entry
  | [] => none
  | e :: r => match oldest r with
    | none => some e
    | some x => if x.age < e.age then some x else some e

/-- A spilled record as its memory holds it; where that answers with an error, as it was spilled (log entry 25). -/
def reloaded (s : State) (die : Nat) (e : Entry) : Entry × State :=
  let (g, s) := readPa s (whoSched die) (spillPa (dieOf s die) e.slot) 64
  if g.err.isSome then (e, s)
  else ({ e with record := (List.range 8).map (fun k => BitVec.ofNat 64 (leNat ((g.bytes.drop (8 * k)).take 8))) ++ e.record.drop 8 }, s)

/-- SPILL_RELOAD (R155): while the store holds fewer than 3,840 entries, the oldest spilled record is reloaded; from HBM not
while a dredge window is open (R84). -/
def execSpillReload (die : Nat) (s : State) : Out :=
  if 3840 ≤ storeCount (dieOf s die) then .next s
  else match oldest ((dieOf s die).entries.filter (fun e => e.state == 1)) with
    | none => .next s
    | some e =>
      if inHbm (spillPa (dieOf s die) e.slot) && inWindow s then .next s
      else
        let (e, s) := reloaded s die e
        .next (storeEntry (modEntry s die e.id (fun _ => e)) die e)

/-- TASK_CONDITION_MET (R155, R156): a WAITING record whose conditions all hold is READY. The read that met its barrier counts and
logs what it corrects (R47). -/
def execTaskConditionMet (die entry : Nat) (s : State) : Out :=
  match entryOf s die entry with
  | none => .next s
  | some e =>
    .next (if e.state = 2 ∧ e.resume.isNone ∧ condsMet s die e then
      makeReady (if (recWord e.record 7).getLsbD 60 then (barCond s die e).2 else s) die entry
    else s)

/-- PRIORITY_AGING (R157): one more for each 65,536 cycles in READY, to at most 3. -/
def execPriorityAging (die entry : Nat) (s : State) : Out :=
  match entryOf s die entry with
  | none => .next s
  | some e =>
    .next (if e.state = 3 then
      schedule (modEntry s die entry (fun e => { e with prio := min 3 (e.prio + 1) })) 65536 (.priorityAging die entry)
    else s)

/-! The pick (R157, R158, R159) -/

/-- Marks a context whose thread has ended while its operations still run (R158). -/
def endedMark : Nat := 2 ^ 40

/-- Every operation queued on a context has completed. -/
def drained (e : Engine) : Bool := e.chains.isEmpty && e.ops.isEmpty && !e.busy

/-- Whether a context is unreserved (R158). -/
def unreserved (s : State) (ctx : Nat) : Bool :=
  let e := engineOf s ctx
  e.held.isNone || (e.held == some endedMark && drained e)

/-- Unreserved copy contexts of a core, by rising id. -/
def freeChans (s : State) (c : Nat) : List Nat := ((List.range 4).map (fun u => 8 * c + u)).filter (unreserved s)

/-- Whether a core is free (R158). -/
def coreFree (s : State) (c : Nat) : Bool :=
  (threadOf s c).isNone && (coreOf s c).trapFrame.isNone &&
  !(dieOf s (coreDie c)).entries.any (fun e => e.state == 4 && e.core == c)

/-- The lowest TID of a job that no live or saved thread holds (R140). -/
def freeTid (s : State) (job : Nat) : Option Nat :=
  (List.range 32767).find? (fun t => !s.liveTids.contains (job * 2 ^ 15 + t))

/-- The lowest free save frame of a die (R158, R160). -/
def freeFrame (d : Die) : Option Nat := (List.range (wf 63 52 d.save)).find? (fun i => !d.usedFrames.contains i)

/-- Whether a free core can start an entry (R158); a resumed thread holds its resources already. -/
def eligible (s : State) (d : Nat) (e : Entry) (c : Nat) : Bool :=
  coreFree s c &&
  (e.resume.isSome ||
    (decide (recCopy e.record ≤ (freeChans s c).length) && (!recFab e.record || unreserved s (8 * c + 4)) &&
      (freeTid s e.job).isSome && (freeFrame (dieOf s d)).isSome))

/-- The cores an entry may start on: those of its placement; a replay's, any of the die (R345). -/
def entryCores (s : State) (d : Nat) (e : Entry) : List Nat :=
  if e.replay.isSome then dieCores s d else recCores s d e.record

/-- The core an entry starts on, if one is free (R157). -/
def chooseCore (s : State) (d : Nat) (e : Entry) : Option Nat :=
  let l := (entryCores s d e).filter (eligible s d e)
  let first : List Nat := (if e.resume.isSome then [e.core] else []) ++
    (match e.near with
    | some h => h :: (List.range 16).map (clusterCore h)
    | none => [])
  match first.find? (fun c => l.contains c) with
  | some c => some c
  | none => l.head?

/-- Whether one entry is picked before another (R157). -/
def before (a b : Entry) : Bool :=
  decide (b.prio < a.prio) || (a.prio == b.prio && (decide (a.readyAt < b.readyAt) ||
    (a.readyAt == b.readyAt && decide (a.age < b.age))))

/-- The READY entry to start, with its core. -/
def bestEntry (s : State) (d : Nat) : Option (Entry × Nat) :=
  ((dieOf s d).entries.filter (fun e => e.state == 3)).foldl (fun (b : Option (Entry × Nat)) e =>
    match b with
    | some x => if before e x.1 then (match chooseCore s d e with
        | some c => some (e, c)
        | none => b) else b
    | none => (chooseCore s d e).map (fun c => (e, c))) none

/-- The task fault of a record picked for a job whose entry is not valid (R388); a replay is abandoned without one
(R345). -/
def discardRecord (s : State) (d : Nat) (e : Entry) : State :=
  let a := s.auditor
  let s := dropEntry s d e.id
  if e.replay.isSome then { s with auditor := { a with replaying := none, skipped := satInc 16 a.skipped } }
  else fqFault s d (ctxWords s 0 (wf 15 0 (jobEntry s e.job).2.asid) 0 (taskFault 2 (recWord e.record 8)) false)

/-- Begin a resume: the saved thread comes back to a core (R176). -/
def beginRestore (s : State) (c f : Nat) : State :=
  match mget f s.saved with
  | none => s
  | some sv =>
    let s := setThread { s with saved := mdel f s.saved } c { sv.thread with phase := .restoring }
    schedule s (frameTime s f 1400) (.restoreComplete c)

/-- Take a new thread's resources and begin its start (R158, R164): the frame, the TID, the channels. Its priority is the
record's PRIO, to which aging adds nothing (DESIGN CHOICE, log entry 101). -/
def beginStart (s : State) (d : Nat) (e : Entry) (c : Nat) : State :=
  match freeTid s e.job, freeFrame (dieOf s d) with
  | some tid, some i =>
    let f := d * 4096 + i
    let chans := (freeChans s c).take (recCopy e.record)
    let fab := if recFab e.record then some (8 * c + 4) else none
    let scnt := (mgetD 0 (e.job * 2 ^ 15 + tid) s.finals + 1) % 2 ^ 32
    let s := modEntry s d e.id (fun e => { e with state := 4, core := c })
    let s := modDie s d (fun x => { x with usedFrames := x.usedFrames ++ [i] })
    let s := { s with liveTids := s.liveTids ++ [e.job * 2 ^ 15 + tid] }
    let s := (chans ++ fab.toList).foldl (fun s x => modEngine s x (fun g => { g with held := some f })) s
    let t := Thread.start f e.job e.record (jobEntry s e.job).2 c tid scnt chans fab (recPrio e.record)
    let s := setThread s c { t with phase := .restoring, near := e.near }
    let (n, s) := takeFree s
    schedule s (42 + launchDelay s d n) (.threadStart c)
  | _, _ => s

/-- Whether the schedulers hold: a pseudo-channel drop or a rehash is in its steps 1 to 4 (R79). -/
def holding (s : State) : Bool := s.hbm.drop.any (fun d => decide (d.2 < 5))

/-- Step 5 of a drop that holds is to restore the thread of a frame (R79). -/
def noteRestore (s : State) (f : Nat) : State :=
  if holding s then { s with hbm := { s.hbm with toRestore := f :: s.hbm.toRestore } } else s

/-- SCHEDULER_PICK (R157): at most one entry. -/
def execSchedulerPick (die : Nat) (s : State) : Out :=
  if !(dieOf s die).run || holding s then .next s
  else match bestEntry s die with
    | none => .next s
    | some (e, c) =>
      match e.resume with
      | some f => .next (beginRestore (modEntry s die e.id (fun e => { e with state := 4, core := c })) c f)
      | none => .next (if (jobEntry s e.job).1 then beginStart s die e c else discardRecord s die e)

/-! The start (R140, R143, R151, R344) -/

/-- The auditor's draw at a task start (R344): whether the task is sampled. AUD_SEED is RW and reads as written (R4, R343);
what is stepped is the register that a write of it loads (log entry 58). -/
def auditDraw (s : State) (skip : Bool) : Bool × State :=
  let a := s.auditor
  let v := galois a.shift
  let k := min 20 (wf 12 8 a.ctl)
  let hit := a.ctl.getLsbD 0 && !skip && v.toNat % 2 ^ k == 0
  let full := decide (max 1 (wf 23 16 a.ctl) ≤ a.pending.length)
  let skipped := if hit && full then satInc 16 a.skipped else a.skipped
  (hit && !full, { s with auditor := { a with shift := v, skipped := skipped } })

/-- Log a sampled task (R344). -/
def addSample (s : State) (c : Nat) (t : Thread) : State :=
  let x : Sample := { record := t.record, core := c, tid := t.det.tid, frame := t.frame, job := t.job, inputs := [],
                      outputs := [], bad := false, ended := false, sig := none, scratch := [], abandoned := false }
  { s with auditor := { s.auditor with sampled := satInc 16 s.auditor.sampled, pending := s.auditor.pending ++ [x] } }

/-- What the child of an ENQT acquires (R143). -/
def inherit (t : Thread) (p : Option Parent) : Thread :=
  match p with
  | none => t
  | some p => withAcq t (mergeEntry (p.aset, p.coarse) ⟨0, p.tid, p.scnt, false⟩)

/-- A task start acquires the conditions that its record waits on, at package scope (R135, R136, R143). -/
def acquireConds (s : State) (c : Nat) (t : Thread) (e : Entry) : Thread :=
  let w := recWord e.record
  let tl (en : Bool) (x : Word) (t : Thread) : Thread := if en then acquireTl s c t (wf 63 48 x) (wf 47 0 x) 3 else t
  let t := tl ((w 0).getLsbD 4) (w 6) (tl ((w 0).getLsbD 5) (w 5) t)
  if (w 7).getLsbD 60 then acquireBar s c t e.badr (wf 59 56 (w 7)) 3 else t

/-- The starting state of a task (R151), with the job registers as they are now (R388): the entry segment is fetched while
the registers are cleared, and the first bundle is due 342 cycles on (R164), when the entry is freed (R155). -/
def startTask (s : State) (c : Nat) (t : Thread) (e : Entry) : State :=
  let s := schedule s 342 (.threadStart c)
  let n := Thread.start t.frame t.job t.record (jobEntry s t.job).2 c t.det.tid t.det.scnt t.chans t.fab t.prio
  let n := { n with x := { n.x with banks := 342 }, near := t.near, homes := [(s.now, c)] }
  let n := acquireConds s c (inherit n e.parent) e
  let (hit, s) := auditDraw s e.replay.isSome
  match e.replay with
  | some (core0, tid0) =>
    let r := { n.r with s := (n.r.s.set 4 (BitVec.ofNat 64 core0)).set 5 (BitVec.ofNat 64 tid0) }
    let s := { s with auditor := { s.auditor with replayCore := c } }
    startExpansion (setThread s c { n with r := r, replay := true }) c n.q.seg
  | none =>
    let s := if hit then addSample s c n else s
    startExpansion (setThread s c { n with sampled := hit }) c n.q.seg

/-- THREAD_START (R151, R155, R164): a picked task's, or a trap handler's (R335), start message reaches its core; and again
when the task's first bundle is due, which frees its entry. -/
def execThreadStart (core : Nat) (s : State) : Out :=
  let d := coreDie core
  let entry := (dieOf s d).entries.find? (fun e => e.state == 4 && e.core == core && e.resume.isNone)
  match entry, threadOf s core with
  | some e, some t => .next (if t.phase = .restoring then startTask s core t e else dropEntry s d e.id)
  | some e, none => .next (dropEntry s d e.id)
  | none, some t =>
    if t.handler then
      let (_, s) := auditDraw s true
      .next (startExpansion (setThread s core { t with phase := .running, x := { t.x with banks := 342 } }) core t.q.seg)
    else .next s
  | none, none => .next s

/-! The end (R136, R140, R158, R162) -/

/-- The reservations of an ended thread last until its operations have completed (R158). -/
def freeReservations (s : State) (t : Thread) : State :=
  (t.chans ++ t.fab.toList).foldl (fun s x => modEngine s x (fun e => { e with held := some endedMark })) s

/-- END leaves every group as GLEAVE would, each a release (R162). -/
def leaveAll (s : State) (t : Thread) : State × Nat :=
  t.groups.foldl (fun (r : State × Nat) m =>
    let n := (r.2 + 1) % 2 ^ 32
    (leaveGroup r.1 t.job m.gid t.det.tid n (!t.det.aset.isEmpty || t.det.coarse), n)) (s, t.det.scnt)

/-- What an ended or killed thread gives back: groups, the final count, the TID, the frame, the reservations. -/
def retire (s : State) (t : Thread) : State :=
  let (s, n) := leaveAll s t
  let key := t.job * 2 ^ 15 + t.det.tid
  let s := { s with finals := mput key ((n + 1) % 2 ^ 32) s.finals, liveTids := s.liveTids.filter (· ≠ key) }
  let s := modDie s (t.frame / 4096) (fun d => { d with usedFrames := d.usedFrames.filter (· ≠ t.frame % 4096) })
  freeReservations s t

/-- The auditor hears of a sampled task's end: its lists, and whether it can be audited (R344). -/
def sampleEnded (s : State) (t : Thread) : State :=
  if !t.sampled then s
  else
    let bad := t.auditNone || t.auditIn.isEmpty || t.auditOut.isEmpty
    let mine (x : Sample) : Bool := x.frame == t.frame && x.tid == t.det.tid && !x.ended
    let done (x : Sample) : Sample := { x with ended := true, outputs := t.auditOut, bad := x.bad || bad }
    { s with auditor := { s.auditor with pending := modWhere mine done s.auditor.pending } }

/-- Drop every watch tracker of a thread (R264). -/
def dropTrackers (s : State) (c : Nat) (t : Thread) : State :=
  t.watch.zipIdx.foldl (fun s w => if w.1.state = 1 then dropTracker s c w.2 w.1.addr else s) s

/-! ENQT (R136, R153, R155, R315) -/

/-- Translate an address through the memory-pipe TLB for a record: permission to read, any target (R152, R154). -/
def recordPlace (s : State) (t : Thread) (va : Word) : Except Attn Place :=
  match resolve s .copy s.cur s.cur 0 0xFFFF t.regs (privileged t) .read va with
  | .bad f => .error (.fault f)
  | .at_ p => .ok p
  | .miss =>
    match tlbFind s (cacheKey s.cur 1) (wf 15 0 t.regs.asid) va with
    | none => .error (.walk 1 0xFFFF va t.regs)
    | some e =>
      match checkPlace .copy .read (privileged t) (e.place va) with
      | some c => .error (.fault (placeFault c 0 va (e.place va) 0xFFFF))
      | none => .ok (e.place va)

/-- Bytes at pa with data put over those from b on. -/
def putOver (pa : Nat) (bs : List Byte) (b : Nat) (data : List Byte) : List Byte :=
  bs.zipIdx.map (fun x => if b ≤ pa + x.2 then (data[pa + x.2 - b]?).getD x.1 else x.1)

/-- Bytes at pa as they will stand when one of the thread's writes, still on its way, has been performed. -/
def overlayReq (pa : Nat) (bs : List Byte) (q : Req) : List Byte :=
  q.parts.foldl (fun bs p =>
    let there : List Byte := (bs.drop (p.pa - pa)).take p.len
    let whole := decide (pa ≤ p.pa ∧ p.pa + p.len ≤ pa + bs.length)
    if p.done then bs
    else match q.kind with
      | .store _ | .srow _ => putOver pa bs p.pa (partBytes p)
      | .binit lo hi => putOver pa bs p.pa (leBytes 8 lo.toNat ++ leBytes 8 hi.toNat)
      | .atom aop w _ x y =>
        if whole then putOver pa bs p.pa (leBytes w (atomNew aop w (BitVec.ofNat 64 (leNat there)) x y).toNat) else bs
      | .barrive n =>
        if whole then
          match barUpdate (barOf (leNat there)) true (-(n.toNat : Int)) with
          | some b => putOver pa bs p.pa (leBytes 16 (barBits (leNat there) b))
          | none => bs
        else bs
      | _ => bs) bs

/-- Bytes at pa as the thread sees them (R123, R124): its earlier writes stand in them, those of the same bundle's M and C
slots included. -/
def ownView (t : Thread) (pa : Nat) (bs : List Byte) : List Byte := t.reqs.foldl (overlayReq pa) bs

/-- Read a 64-byte record or descriptor at issue (R315, R321): SRAM of this device, checked as a load (R294). The core
freezes while an earlier deposit of the thread to these bytes, whose data is still on the ring, has not been performed. -/
def readBlock (s : State) (t : Thread) (a : Word) (n : Nat) : Except Attn (List Word × State) :=
  (threadPlace s t .mem 0 .read a).bind (fun p => (sramOnly p a).bind (fun p => (checkHeld s s.cur t [partAt a p n]).bind (fun _ =>
    if t.reqs.any (fun q => q.kind == .alight && q.parts.any (fun x =>
        !x.done && decide (0 < x.len ∧ x.pa < p.pa + n ∧ p.pa < x.pa + x.len)))
      then .error (.freeze 0)
    else
      let touched := if p.unchk then .ok s else threadTouch s s.cur t .load p.pa n a 0
      match touched with
      | .error f => .error (.fault f)
      | .ok s =>
        let (g, s) := readPa s (whoCore s.cur) p.pa n a
        match g.err with
        | some (e, pa) => .error (.response p.pa n (dataFault e 0 (a + BitVec.ofNat 64 (pa - p.pa)) pa))
        | none =>
          let bs := ownView t p.pa g.bytes
          .ok ((List.range (n / 8)).map (fun k => BitVec.ofNat 64 (leNat ((bs.drop (8 * k)).take 8))), s))))

/-- Where a PLKIND 3 record goes from core c: its die, and its home core (R154, R157). -/
def nearPlace (c : Nat) (p : Place) : Nat × Option Nat :=
  if p.dev.isNone && inSram p.pa then (coreDie (p.pa / 0x800000), some (p.pa / 0x800000)) else (coreDie c, none)

/-- ENQT (R315): the record is read and checked at issue; it leaves once the release is performed. A PLKIND 3 record in the
slice of a disabled core is refused with BADREC (DESIGN CHOICE, log entry 102). -/
def execEnqt (g : Guard) (ra : BitVec 5) (s : State) : Out :=
  runSlot g s (fun t =>
    let a := sreg t ra &&& ~~~(63#64)
    (readBlock s t a 64).bind (fun r =>
      let ws := r.1
      let s := r.2
      let t := (threadOf s s.cur).getD t
      let refuse : Attn := .fault (taskFault 1 a)
      if !recordOk s ws then .error refuse
      else
        let near : Except Attn (Nat × Option Nat) :=
          if recKind ws = 3 then (recordPlace s t (recWord ws 4)).map (nearPlace s.cur) else .ok (recDie ws, none)
        let bar : Except Attn Nat := match recBar ws with
          | none => .ok 0
          | some b => (recordPlace s t b).bind (fun p =>
              if p.dev.isNone && inSram p.pa && coreLive s (p.pa / 0x800000) then .ok p.pa else .error refuse)
        near.bind (fun dn => bar.bind (fun badr =>
          if (recCores s dn.1 ws).isEmpty || (match dn.2 with
              | some h => !coreLive s h
              | none => false) then .error refuse
          else if schedFull (dieOf s dn.1) then .error (.freeze 5)
          else
            let (k, s) := newEntry s dn.1 0 (ws ++ [a]) none t.job (recPrio ws) 0 dn.2 badr none
            issueMarker s t (.enqt dn.1 k) 5))))

end Sys2Proof.Machine
end

