-- ==== Sys2Proof/Machine/Frame.lean ====
section
/-! DEFINITION. The save frame (R174 to R176, R262, R335): the parts of a context in the order in which R175 lists them,
what a save writes and what a restore reads back. The layout inside a part is the model's where the spec gives none (log
entry 14); what a restore takes from `State.saved` instead is named in log entry 15. -/

namespace Sys2Proof.Machine

/-! The parts (R175) -/

/-- Offsets of the parts in a frame, by the sizes of R175; the scalar registers lie at its start. -/
def frameCtl : Nat := 256
def frameTiles : Nat := 512
def frameAccs : Nat := 262656
def frameLandings : Nat := 328192
def frameWatch : Nat := 332544
def frameDet : Nat := 332800
def frameSnap : Nat := 332928
def frameRest : Nat := 350336

/-- The offset of the trap record (R335). -/
def trapRecord : Nat := 0x7FF00

/-- Exactly n bytes: zeros follow what is shorter. -/
def fitBytes (n : Nat) (bs : List Byte) : List Byte := bs.take n ++ List.replicate (n - bs.length) 0

/-- Word i of a list of bytes. -/
def byteWord (bs : List Byte) (i : Nat) : Word := BitVec.ofNat 64 (leNat ((bs.drop (8 * i)).take 8))

/-- The bytes of a list of numbers, eight each. -/
def numBytes (ns : List Nat) : List Byte := wordBytes (ns.map (BitVec.ofNat 64))

/-! What a save writes -/

/-- A destination as a number: its kind in bits [63:32], its index below. -/
def destCode : Dest → Nat
  | .none => 0
  | .sreg r => 2 ^ 32 + r
  | .preg p => 2 * 2 ^ 32 + p
  | .trow k => 3 * 2 ^ 32 + k
  | .arow k => 4 * 2 ^ 32 + k

/-- An entry of 272 bytes (R174, R175): data, destination, cycles from the cycle after the save. -/
def frameEntry (v : Row) (d : Dest) (left : Nat) : List Byte := rowBytes v ++ numBytes [destCode d, left]

/-- Predicates, PC, loop stack, FMT, NBV and the control registers (R175). -/
def ctlPart (t : Thread) : List Byte :=
  fitBytes 256 (numBytes ([t.r.p.toNat, t.q.seg.toNat, t.q.idx, t.c.fmt.toNat, t.c.fflags.toNat, t.c.nbv.toNat, t.c.xmask.toNat,
    t.c.xscl.toNat, t.q.loops.length] ++ t.q.loops.flatMap (fun l => [l.1, l.2])))

/-- The landing slots with their remaining cycles (R45, R175); of a timed LDROW its first row. -/
def landingPart (t : Thread) : List Byte :=
  fitBytes 4352 ((t.reqs.filter (fun q => q.timed && !q.landed)).flatMap (fun q =>
    let data : Row := match q.kind with
      | .row _ => rowData q 0
      | _ => (q.parts.head?).elim 0 (·.data)
    frameEntry data q.dest (q.due.getD 0 - t.x.dc - 1)))

/-- A watch-table entry in 32 bytes (R262). -/
def watchBytes (w : Watch) : List Byte :=
  numBytes [w.addr, w.val.toNat, w.left] ++ leBytes 1 w.state ++ leBytes 1 (w.cmp + 8 * b2n w.w) ++ List.replicate 6 0

/-- The detector state (R140) in 128 bytes: TID, STARTCNT, SCNT, COARSE and the bypass, then the eight entries of ASET. -/
def detPart (d : Detector) : List Byte :=
  let entry (e : AEntry) : List Byte := leBytes 5 e.id ++ leBytes 6 e.count ++ leBytes 1 (e.kind + 4 * b2n e.wide + 8)
  fitBytes 128 (leBytes 4 d.tid ++ leBytes 4 d.startcnt ++ leBytes 4 d.scnt ++ leBytes 4 (b2n d.coarse + 2 * b2n d.bypass) ++
    d.aset.flatMap entry)

/-- The fixed-mode loads whose results are still in flight (R174, R248). -/
def fixedLoads (t : Thread) : List Req := t.reqs.filter (fun q => q.fixed && !q.landed)

/-- The snapshot buffer (R174): every result in flight, fixed-mode loads' last. -/
def snapPart (t : Thread) : List Byte :=
  fitBytes 17408 (t.x.inflight.flatMap (fun r => frameEntry r.val r.dest (r.due - t.x.dc - 1)) ++
    (fixedLoads t).flatMap (fun q => frameEntry ((q.parts.head?).elim 0 (·.data)) q.dest (q.due.getD 0 - t.x.dc - 1)))

/-- The parts of requests that R294 holds (R296). -/
def heldParts (s : State) (c : Nat) (t : Thread) : List Part := (heldStores s c t).take 8

/-- The held stores and deposits in 392 bytes (R296): how many, each one's address and width, and then their data, of which what
does not fit stands in State.saved (log entry 15). -/
def heldBytes (ps : List Part) : List Byte :=
  leBytes 8 ps.length ++ fitBytes 64 (ps.flatMap (fun p => leBytes 7 p.pa ++ leBytes 1 p.len)) ++
    fitBytes 320 (ps.flatMap (fun p => leBytes p.len p.data.toNat))

/-- The subscription as a save records it (R119, R120), in 80 bytes. -/
def tideBytes (d : TideSub) : List Byte :=
  fitBytes 80 (leBytes 1 d.kept ++ leBytes 1 (b2n d.missl + 2 * b2n d.misst + 4 * b2n d.absent) ++ leBytes 2 d.layer ++
    leBytes 4 d.first ++ leBytes 4 d.last ++ leBytes 4 d.stride ++ leBytes 4 d.next ++ leBytes 8 d.tl ++ leBytes 1 d.rate ++
    leBytes 1 d.restore.length ++ leBytes 2 0 ++ d.restore.flatMap (fun x => leBytes 2 x.1 ++ leBytes 4 x.2))

/-- A batch record (R172): the value of each of the thread's contexts, in order, in six bytes; all ones for none. -/
def batchBytes (ctxs : List Nat) (b : Batch) : List Byte :=
  (List.range 5).flatMap (fun k => leBytes 6 ((((ctxs[k]?).bind (fun x => mget x b))).getD (2 ^ 48 - 1)))

/-- The contexts a thread holds, the fabric channel fifth. -/
def threadCtxs (t : Thread) : List Nat := t.chans ++ List.replicate (4 - t.chans.length) 0xFFFF ++ [t.fab.getD 0xFFFF]

/-- Offsets in the last part: the Tide subscription, counters and reservations, the batch records, the held stores. -/
def restTide : Nat := 48
def restCounts : Nat := 128
def restBatches : Nat := 152
def restHeld : Nat := 632

/-- Hold state, busy counts and progress of V and X, Tide subscription, counters, priority, reservations, batches and held
stores (R175, R296). -/
def restPart (s : State) (c : Nat) (t : Thread) : List Byte :=
  let hold (h : Option Instr) : Nat := match h with
    | some i => encode i
    | none => 0
  fitBytes 1024 (numBytes [hold t.q.holdM0, hold t.q.holdM1, hold t.q.holdV, hold t.q.holdX] ++
    leBytes 4 (t.x.vEnd - t.x.dc - 1) ++ leBytes 4 (t.x.xEnd - t.x.dc - 1) ++ leBytes 4 (t.x.xop.elim 0 (·.kstep)) ++
    leBytes 4 (t.x.xop.elim 0 (·.upto)) ++ tideBytes t.tide ++
    fitBytes 24 (leBytes 1 (outstanding t 1) ++ leBytes 1 (outstanding t 2) ++ leBytes 1 (outstanding t 3) ++ leBytes 1 t.prio ++
      leBytes 1 t.chans.length ++ leBytes 1 (b2n t.fab.isSome) ++ leBytes 1 (min 15 t.closedB.length) ++ leBytes 1 0 ++
      (threadCtxs t).flatMap (leBytes 2)) ++
    fitBytes 480 (batchBytes (threadCtxs t) t.openB ++ (t.closedB.take 15).flatMap (batchBytes (threadCtxs t))) ++
    heldBytes (heldParts s c t))

/-- n rows of a register array, from row k on, written at an address. -/
def storeRows : Nat → State → Nat → Nat → Map Row → State
  | 0, s, _, _, _ => s
  | n + 1, s, pa, k, m => storeRows n (storeUnits s pa (rowBytes (mgetD 0 k m))) (pa + 256) (k + 1) m

/-- The context of core c's thread written to its frame (R173 step 4, R175). -/
def saveFrame (s : State) (c : Nat) (t : Thread) : State :=
  let b := framePa s t.frame
  let s0 := s
  let s := storeUnits s b (wordBytes t.r.s.toList)
  let s := storeUnits s (b + frameCtl) (ctlPart t)
  let s := storeRows 1024 s (b + frameTiles) 0 t.r.tiles
  let s := storeRows 256 s (b + frameAccs) 0 t.r.accs
  let s := storeUnits s (b + frameLandings) (landingPart t)
  let s := storeUnits s (b + frameWatch) (fitBytes 256 (t.watch.flatMap watchBytes))
  let s := storeUnits s (b + frameDet) (detPart t.det)
  let s := storeUnits s (b + frameSnap) (snapPart t)
  storeUnits s (b + frameRest) (restPart s0 c t)

/-! What a restore reads back (R176) -/

/-- A part of a frame as memory holds it; none where the read is answered with an error (log entry 15). -/
def framePart (s : State) (c f off n : Nat) : Option (List Byte) × State :=
  let (g, s) := readPa s (whoCore c) (framePa s f + off) n
  (if g.err.isSome then none else some g.bytes, s)

/-- n rows of a register array, from row k on, read from an address over what `m` holds. -/
def loadRows : Nat → State → Nat → Nat → Nat → Map Row → Map Row × State
  | 0, s, _, _, _, m => (m, s)
  | n + 1, s, c, pa, k, m =>
    let (g, s) := readPa s (whoCore c) pa 256
    loadRows n s c (pa + 256) (k + 1) (if g.err.isSome then m else mset 0 k (bytesRow g.bytes) m)

/-- The scalar registers from their part. -/
def takeScalars (t : Thread) (bs : List Byte) : Thread :=
  { t with r := { t.r with s := Vector.ofFn (fun i => byteWord bs i.val) } }

/-- Predicates, PC, loop stack, FMT, NBV and the control registers from their part. -/
def takeCtl (t : Thread) (bs : List Byte) : Thread :=
  let w (i : Nat) : Word := byteWord bs i
  let loops := (List.range (min 6 (w 8).toNat)).map (fun i => ((w (9 + 2 * i)).toNat, (w (10 + 2 * i)).toNat))
  { t with r := { t.r with p := (w 0).setWidth 8 }, q := { t.q with seg := w 1, idx := (w 2).toNat, loops := loops },
           c := { fmt := w 3, fflags := (w 4).setWidth 5, nbv := w 5, xmask := w 6, xscl := w 7 } }

/-- A watch-table entry from its 32 bytes (R262); whether it was recycled is not among them. -/
def takeWatch (old : Watch) (bs : List Byte) : Watch :=
  let c := leNat ((bs.drop 25).take 1)
  { old with addr := (byteWord bs 0).toNat, val := byteWord bs 1, left := (byteWord bs 2).toNat,
             state := leNat ((bs.drop 24).take 1) % 4, cmp := c % 8, w := c / 8 % 2 == 1 }

/-- The detector state from its part. -/
def takeDet (d : Detector) (bs : List Byte) : Detector :=
  let n (o k : Nat) : Nat := leNat ((bs.drop o).take k)
  let aset := (List.range 8).filterMap (fun i =>
    let f := n (27 + 12 * i) 1
    if f / 8 % 2 = 1 then some ⟨f % 4, n (16 + 12 * i) 5, n (21 + 12 * i) 6, f / 4 % 2 == 1⟩ else none)
  { d with tid := n 0 4, startcnt := n 4 4, scnt := n 8 4, coarse := n 12 4 % 2 == 1, bypass := n 12 4 / 2 % 2 == 1, aset := aset }

/-- A destination from its number. -/
def destFrom (n : Nat) : Dest :=
  let k := n % 2 ^ 32
  match n / 2 ^ 32 with
  | 1 => .sreg k
  | 2 => .preg k
  | 3 => .trow k
  | 4 => .arow k
  | _ => .none

/-- Entry k of a part of 272-byte entries: data, destination, cycles left. -/
def entryFrom (bs : List Byte) (k : Nat) : Row × Dest × Nat :=
  let e := (bs.drop (272 * k)).take 272
  (bytesRow (e.take 256), destFrom (byteWord e 32).toNat, (byteWord e 33).toNat)

/-- The landing slots from their part (R45, R176): a landing due at cycle c + 1 + k of the save is due at resume cycle k. -/
def takeLandings (t : Thread) (bs : List Byte) : Thread :=
  let ids := (t.reqs.filter (fun q => q.timed && !q.landed)).map (·.id)
  { t with reqs := t.reqs.map (fun q =>
      if q.timed && !q.landed then
        let e := entryFrom bs (ids.idxOf q.id)
        { q with dest := e.2.1, due := q.due.map (fun _ => t.x.dc + 1 + e.2.2),
                 parts := (match q.kind, q.parts with
                   | .row _, ps => ps
                   | _, p :: ps => { p with data := e.1 } :: ps
                   | _, [] => []) }
      else q) }

/-- The snapshot buffer from its part (R174, R176). -/
def takeSnap (t : Thread) (bs : List Byte) : Thread :=
  let base := t.x.inflight.length
  let ids := (fixedLoads t).map (·.id)
  { t with
    reqs := t.reqs.map (fun q =>
      if q.fixed && !q.landed && decide (base + ids.idxOf q.id < 64) then
        let e := entryFrom bs (base + ids.idxOf q.id)
        { q with dest := e.2.1, due := q.due.map (fun _ => t.x.dc + 1 + e.2.2),
                 parts := match q.parts with
                   | p :: ps => { p with data := e.1 } :: ps
                   | [] => [] }
      else q)
    x := { t.x with inflight := t.x.inflight.zipIdx.map (fun r =>
      if r.2 < 64 then
        let e := entryFrom bs r.2
        { r.1 with val := e.1, dest := e.2.1, due := t.x.dc + 1 + e.2.2 }
      else r.1) } }

/-- The subscription from its 80 bytes (R119, R120). -/
def takeTide (d : TideSub) (bs : List Byte) : TideSub :=
  let n (o k : Nat) : Nat := leNat ((bs.drop o).take k)
  { d with kept := n 0 1, missl := n 1 1 % 2 == 1, misst := n 1 1 / 2 % 2 == 1, absent := n 1 1 / 4 % 2 == 1, layer := n 2 2,
           first := n 4 4, last := n 8 4, stride := n 12 4, next := n 16 4, tl := n 20 8, rate := n 28 1,
           restore := (List.range (min 8 (n 29 1))).map (fun i => (n (32 + 6 * i) 2, n (34 + 6 * i) 4)) }

/-- Batch record k from its 30 bytes. -/
def takeBatch (ctxs : List Nat) (bs : List Byte) (k : Nat) : Batch :=
  ctxs.zipIdx.foldl (fun b x =>
    let v := leNat ((bs.drop (30 * k + 6 * x.2)).take 6)
    if v = 2 ^ 48 - 1 ∨ x.1 = 0xFFFF then b else mput x.1 v b) []

/-- The held stores that a frame lists, with the data that has its place there: address, bytes, data. -/
def heldListed (bs : List Byte) : List (Nat × Nat × Nat) :=
  ((List.range (min 8 (leNat (bs.take 8)))).foldl (fun (r : List (Nat × Nat × Nat) × Nat) k =>
    let pa := leNat ((bs.drop (8 + 8 * k)).take 7)
    let n := leNat ((bs.drop (15 + 8 * k)).take 1)
    (if r.2 + n ≤ 320 then r.1 ++ [(pa, n, leNat ((bs.drop (72 + r.2)).take n))] else r.1, r.2 + n)) ([], 0)).1

/-- The requests with the data that a frame lists for them, in order. -/
def takeHeld : List Req → List (Nat × Nat × Nat) → List Req
  | [], _ => []
  | q :: rs, es =>
    let (ps, es) := q.parts.foldl (fun (r : List Part × List (Nat × Nat × Nat)) p =>
      match r.2 with
      | e :: l =>
        if q.cls = 2 ∧ !p.done ∧ e.1 = p.pa ∧ e.2.1 = p.len then (r.1 ++ [{ p with data := BitVec.ofNat 2048 e.2.2 }], l)
        else (r.1 ++ [p], r.2)
      | [] => (r.1 ++ [p], [])) ([], es)
    { q with parts := ps } :: takeHeld rs es

/-- Hold state, busy counts and progress, the Tide subscription, priority, reservations, batch records and held stores from
their part. -/
def takeRest (t : Thread) (bs : List Byte) : Thread :=
  let n (o k : Nat) : Nat := leNat ((bs.drop o).take k)
  let hold (k : Kind) (i : Nat) (old : Option Instr) : Option Instr :=
    if n (8 * i) 8 = 0 then none
    else match decodeSlot k (n (8 * i) 8) with
      | .ok x => some x
      | .error _ => old
  let chans := (List.range (min 4 (n (restCounts + 4) 1))).map (fun i => n (restCounts + 8 + 2 * i) 2)
  let fab := if n (restCounts + 5) 1 = 0 then none else some (n (restCounts + 16) 2)
  let t := { t with prio := n (restCounts + 3) 1, chans := chans, fab := fab }
  let batch := takeBatch (threadCtxs t) (bs.drop restBatches)
  { t with
    tide := takeTide t.tide (bs.drop restTide)
    openB := batch 0
    closedB := (List.range (n (restCounts + 6) 1)).map (fun i => batch (i + 1))
    reqs := takeHeld t.reqs (heldListed (bs.drop restHeld))
    q := { t.q with holdM0 := hold .m0 0 t.q.holdM0, holdM1 := hold .m1 1 t.q.holdM1,
                    holdV := hold .v 2 t.q.holdV, holdX := hold .x 3 t.q.holdX }
    x := { t.x with vEnd := t.x.dc + 1 + n 32 4, xEnd := t.x.dc + 1 + n 36 4,
                    xop := t.x.xop.map (fun x => { x with kstep := n 40 4, upto := n 44 4 }) } }

/-- The context reloaded from its frame (R176). -/
def loadFrame (s : State) (c : Nat) (t : Thread) : Thread × State :=
  let b := framePa s t.frame
  let from_ (g : Option (List Byte)) (f : Thread → List Byte → Thread) (t : Thread) : Thread :=
    match g with
    | some bs => f t bs
    | none => t
  let (regs, s) := framePart s c t.frame 0 256
  let (ctl, s) := framePart s c t.frame frameCtl 256
  let (tiles, s) := loadRows 1024 s c (b + frameTiles) 0 t.r.tiles
  let (accs, s) := loadRows 256 s c (b + frameAccs) 0 t.r.accs
  let (landings, s) := framePart s c t.frame frameLandings 4352
  let (watch, s) := framePart s c t.frame frameWatch 256
  let (det, s) := framePart s c t.frame frameDet 128
  let (snap, s) := framePart s c t.frame frameSnap 17408
  let (rest, s) := framePart s c t.frame frameRest 1024
  let t := from_ regs takeScalars (from_ ctl takeCtl t)
  let t := from_ watch (fun t bs => { t with watch := t.watch.zipIdx.map (fun w => takeWatch w.1 ((bs.drop (32 * w.2)).take 32)) }) t
  let t := from_ det (fun t bs => { t with det := takeDet t.det bs }) t
  let t := from_ landings takeLandings (from_ snap takeSnap (from_ rest takeRest t))
  ({ t with r := { t.r with tiles := tiles, accs := accs } }, s)

end Sys2Proof.Machine
end

