-- ==== Sys2Proof/Machine/Trap.lean ====
section
/-! DEFINITION. Saves, trap entry, the return from a trap, restores and ends (R45, R119, R120, R138, R161, R162, R173 to
R176, R265, R329, R335 to R337), with the requests that pre-empt, kill and resume (R160, R337). -/

namespace Sys2Proof.Machine

/-! The Tide subscription through a save (R119, R120) -/

/-- Fields of a tile's sideband (R107). -/
def sbField (sb : BitVec 128) (hi lo : Nat) : Nat := bits lo (hi + 1 - lo) sb.toNat

/-- The indexes of the tiles of its own layer that a subscription has taken and not consumed: those resident, and those
whose landing is still to come. A listed tile on its way stands in the restore list still. -/
def ownTiles (ring : List RingTile) (d : TideSub) : List Nat :=
  (d.buf.filter (fun b => b.1 == d.layer)).map (·.2.1) ++
  (d.taking.filter (fun y => y.2.2 == 0)).filterMap (fun y => (ring.find? (fun x => x.id == y.1)).map (fun x => sbField x.sb 63 40))

/-- What the save records: NEXT back to the lowest resident index, the state, the restore list. Until the resume the
subscription takes no tile. -/
def saveTide (ring : List RingTile) (d : TideSub) : TideSub :=
  let mine := ownTiles ring d
  let others := (d.buf.filter (fun b => b.1 != d.layer)).map (fun b => (b.1, b.2.1))
  let kept := if d.restore.isEmpty then (if d.state = 4 ∧ !mine.isEmpty then 3 else d.state) else d.kept
  { d with next := mine.foldl min d.next, kept := kept, state := 0,
           restore := (others ++ d.restore).take 8, buf := [], taking := [], seen := none, reg := 0 }

/-- Whether a subscription in a state counts at the weir. -/
def tideLive (st : Nat) : Bool := decide (1 ≤ st ∧ st ≤ 3)

/-- The subscription registered again on resume, in the recorded state with an empty buffer. It counts towards CAP 64 cycles
after the resume, as after a TBOARD (DESIGN CHOICE, log entry 96). -/
def resumeTide (now : Nat) (d : TideSub) : TideSub :=
  let d := { d with buf := [], taking := [], seen := none }
  if d.kept = 0 ∧ d.restore.isEmpty then { d with state := 0 }
  else
    { d with state := if d.restore.isEmpty then d.kept else 3, seenLap := none, beatAt := now, heads := [],
             reg := if tideLive d.kept || !d.restore.isEmpty then 2 + (now + 64) else 0 }

/-! Saves (R173 to R175) -/

/-- SAVE_COMPLETE (R138, R161, R173): a release at job scope; the context is in its frame and the core is free; the resume
entry is READY, or held back where a fault is served; it is stored whatever the store holds (DESIGN CHOICE, log entry 100). A recorded matrix fault stays noted: on return its beats are run before
the bundle (R295). -/
def execSaveComplete (core : Nat) (s : State) : Out :=
  match threadOf s core with
  | none => .next s
  | some t =>
    match t.phase with
    | .writing forFault =>
      let d := coreDie core
      let t := release { t with phase := .restoring, tide := saveTide s.weir.ring t.tide, attn := t.attn.filter (fun a => a == .pending 4 0) }
      let s := dropTrackers (saveFrame s core t) core t
      let (k, s) := newEntry s d 2 t.record (some t.frame) t.job t.prio core t.near 0 none
      let s := modCore (quietCore s core) core (fun c => { c with thread := none, trapFrame := if forFault then some t.frame else none })
      let s := { s with saved := mput t.frame ⟨t, false, some k, false, s.now⟩ s.saved }
      .next (if forFault then pushEvs s [.trapEntry core] else makeReady (noteRestore s t.frame) d k)
    | _ => .next s

/-! Trap entry (R335) -/

/-- Write the entry to the ring and to the trap record, and clear the control word (R335 step 2; log entry 26). -/
def writeTrapRecord (s : State) (core : Nat) (t : Thread) (f : FaultRec) : State :=
  let ws := faultWords core t f true true
  fqFault (storeUnits s (framePa s t.frame + trapRecord) (fitBytes 96 (wordBytes ws))) (coreDie core) ws

/-- The handler thread of a trap (R335 step 3). Its Tide subscription is one of its own, idle (DESIGN CHOICE, log entry 97). -/
def handlerThread (s : State) (core : Nat) (t : Thread) (f : FaultRec) (prec : Bool) : Thread :=
  let w0 := entryQW0 f.cls f.cause prec true f.req core f.ctx
  let h := Thread.start t.frame t.job [t.regs.trapvec &&& 0x00FFFFFFFFFFFFC0, BitVec.ofNat 64 (framePa s t.frame), w0, 0]
    t.regs core 0x7FFF 0 t.chans t.fab t.prio
  { h with handler := true, trapped := some f, phase := .restoring }

/-- TRAP_ENTRY (R335): the entry is written, and the handler starts on the same core when TRAPVEC.EN = 1; else the
thread stays SAVED and HELD. -/
def execTrapEntry (core : Nat) (s : State) : Out :=
  match (coreOf s core).trapFrame.bind (fun f => mget f s.saved) with
  | none => .next s
  | some sv =>
    let t := sv.thread
    match t.posFault with
    | none => .next s
    | some f =>
      let s := writeTrapRecord s core t f
      if t.regs.trapvec.getLsbD 0 then
        let s := { s with saved := mput t.frame { sv with handling := true } s.saved }
        let s := setThread s core (handlerThread s core t f true)
        let (n, s) := takeFree s
        .next (schedule s (8 + Config.delay n) (.threadStart core))
      else
        let s := { s with saved := mput t.frame { sv with held := true } s.saved }
        .next (modCore s core (fun c => { c with trapFrame := none }))

/-! The return (R329, R336) and the restore (R176) -/

/-- TRET (R329): privileged; with no trap in progress, the illegal-slot trap. It waits as END does (R162, R336). -/
def execTret (g : Guard) (s : State) : Out :=
  runAlways s (fun t =>
    if !privileged t then .error (illegalSlot 6)
    else if !guardTrue t g then .ok s
    else if !t.handler then .error (illegalSlot 6)
    else match landingFault t (fun _ => true) with
      | some q => .error (.pending 0 q.id)
      | none => .ok (setThread s s.cur { t with phase := .ending, tret := true, q := { t.q with moved := true } }))

/-- The trap record's control word, honoured at a resume (R147, R335): BYPASS and REPOS; nothing where it cannot be read. -/
def honourRecord (s : State) (c : Nat) (t : Thread) : Thread × State :=
  if t.posFault.isNone then (t, s)
  else match framePart s c t.frame (trapRecord + 0x40) 24 with
    | (none, s) => (t, s)
    | (some bs, s) =>
      let t := if (byteWord bs 0).getLsbD 0 then { t with det := { t.det with bypass := true } } else t
      (if (byteWord bs 0).getLsbD 1 then
        { t with q := { t.q with seg := byteWord bs 1, idx := wf 6 0 (byteWord bs 2) } }
      else t, s)

/-- Armed entries are armed again at their homes and evaluated at once, for CHG as well (R265). -/
def rearm (s : State) (c : Nat) (t : Thread) : State :=
  t.watch.zipIdx.foldl (fun s w =>
    if w.1.state ≠ 1 then s
    else
      let (g, s) := readPa s (whoCore c) w.1.addr (watchLen w.1)
      if g.err.isNone && watchFires w.1 (leNat g.bytes) then
        modThread s c (fun t => { t with watch := t.watch.modify w.2 (fun x => { x with state := 2 }) })
      else armTracker s c w.2 w.1.addr) s

/-- RESTORE_COMPLETE (R138, R176): an acquire at job scope; the frame is reloaded and the thread's next bundle is due at
resume cycle 0, or, where the save served a matrix operand's fault, once the beats up to it have been run (R295). -/
def execRestoreComplete (core : Nat) (s : State) : Out :=
  match threadOf s core with
  | none => .next s
  | some t =>
    match t.phase with
    | .restoring =>
      let (t, s) := loadFrame s core t
      let (t, s) := honourRecord s core t
      let t := if tracked t then withAcq t (acquireScope (acqOf t) 5) else t
      let t := { t with phase := (match t.attn with
                          | some _ => .frozen 7 0
                          | none => .running),
                        posFault := none, attn := none, spurious := true, homes := (s.now, core) :: t.homes,
                        q := { t.q with buf := Segment.none_, next := none, expanding := none, pwrite := [] },
                        tide := resumeTide s.now t.tide }
      let s := modDie s (coreDie core) (fun d => { d with entries := d.entries.filter (fun e => e.resume != some t.frame) })
      let s := modCore s core (fun c => { c with trapFrame := none })
      let s := rearm (setThread s core t) core t
      .next (startExpansion (relaunch s core) core t.q.seg)
    | _ => .next s

/-! Ends (R117, R161, R162, R336, R341, R345) -/

/-- A handler has ended (R336): by TRET its thread is restored, or stays SAVED while a drop holds (R79); otherwise the
fault passes to the operating system, as a machine check where the handler was killed for a fault of its own. -/
def handlerEnded (s : State) (core : Nat) (h : Thread) : State :=
  match mget h.frame s.saved with
  | none => s
  | some sv =>
    let s := modCore (quietCore s core) core (fun c => { c with thread := none, trapFrame := none })
    if h.tret && !h.kill then
      let t := { sv.thread with preempt := h.preempt }
      let s := { s with saved := mput h.frame { sv with thread := t, handling := false } s.saved }
      if holding s then
        match sv.entry with
        | some k => makeReady (noteRestore s h.frame) (coreDie core) k
        | none => s
      else beginRestore s core h.frame
    else
      let s := fqFault s (coreDie core) (match h.kill, h.posFault with
        | true, some f => faultWords core sv.thread (doubleRec s h f) false true
        | _, _ => faultWords core sv.thread (h.trapped.getD { cls := 0, cause := 0 }) true true)
      { s with saved := mput h.frame { sv with held := true, handling := false } s.saved }

/-- Faults pending at END are logged and not raised (R117, R162, R173, R341). -/
def logPending (s : State) (c : Nat) (t : Thread) : State :=
  let s := t.tide.pending.foldl (fun s f => fqFault s (coreDie c) (faultWords c t { f with cycle := s.now } false false)) s
  let s := t.timeouts.foldl (fun s _ =>
    fqFault s (coreDie c) (faultWords c t { timeoutFault 1 with cycle := s.now } false false)) s
  match takePending t 2 0 with
  | (some f, _) => fqFault s (coreDie c) (faultWords c t { f with cycle := s.now } false false)
  | (none, _) => s

/-- Everything that END waits for is complete (R162), and nothing of it met a fault. -/
def endDone (s : State) (c : Nat) (t : Thread) : Bool :=
  t.reqs.all (fun q => q.landed && q.fault.isNone) && t.taps == 0 && t.x.vop.isNone && t.x.xop.isNone &&
  decide (t.x.vEnd ≤ t.x.dc) && decide (t.x.xEnd ≤ t.x.dc) &&
  (coreOf s c).taps.all (fun o => o.frame != t.frame)

/-- END_COMPLETE (R161, R162): the core is free. A matrix operand's fault is precise at the END bundle (R295). -/
def execEndComplete (core : Nat) (s : State) : Out :=
  match threadOf s core with
  | none => .next s
  | some t =>
    if t.phase ≠ .ending then .next s
    else if t.x.xop.any (fun x => x.fault.isSome) && !(t.kill || t.replay) then .next (attend s core (.pending 4 0))
    else if !endDone s core t then .next s
    else
      let s := dropTrackers (logPending (sampleEnded s t) core t) core t
      if t.handler then .next (handlerEnded s core t)
      else
      let s := modCore (quietCore (retire s t) core) core (fun c => { c with thread := none })
      if !t.replay then .next s
      else
        let s := if t.kill then dropReplay s else s
        .next { s with auditor := { s.auditor with replayCore := core, replayDone := true } }

/-! Requests from control-register space (R160, R173, R337) -/

/-- SCHED_PREEMPT with OP 0b01 (R173): requested of the thread on a core of this die. A handler's core keeps the request
until it ends (R336). -/
def execSchedPreempt (die core : Nat) (s : State) : Out :=
  .next (if coreDie core = die ∧ core < 2048 then modThread s core (fun t => { t with preempt := true }) else s)

/-- SCHED_PREEMPT with OP 0b10 (R161). -/
def execSchedKill (die core : Nat) (s : State) : Out :=
  .next (if coreDie core = die ∧ core < 2048 then modThread s core (fun t => { t with kill := true }) else s)

/-- FQ_ACT RESUME (R337): a HELD thread's resume entry is READY. -/
def execFqResume (frame : Nat) (s : State) : Out :=
  match mget frame s.saved with
  | none => .next s
  | some sv =>
    match sv.held, sv.entry with
    | true, some k => .next (makeReady { s with saved := mput frame { sv with held := false } s.saved } (frame / 4096) k)
    | _, _ => .next s

/-- FQ_ACT KILL (R337): the frame and the TID of a HELD thread are freed. -/
def execFqKill (frame : Nat) (s : State) : Out :=
  match mget frame s.saved with
  | none => .next s
  | some sv =>
    if !sv.held then .next s
    else
      let s := retire (sampleEnded { s with saved := mdel frame s.saved } sv.thread) sv.thread
      .next (match sv.entry with
        | some k => dropEntry s (frame / 4096) k
        | none => s)

/-- FQ_ACT RESTART (R27, R337): a halted copy, fill or fabric context goes on at its logged record or operation. -/
def execFqRestart (ctx : Nat) (s : State) : Out :=
  if (ctxHalted s ctx).isNone || decide (0x4000 ≤ ctx) then .next s
  else if ctx % 8 = 5 then .next (restartProbe s (ctx / 8))
  else
    let redo (o : FabOp) : FabOp := { o with off := 0, waiting := [], ctrSent := false, landed := [] }
    .next (again (modEngine s ctx (fun e => { e with halted := none, begun := false, words := [], pages := [], piece := 0,
                                                     counted := false, hbmAt := none, giveUp := false,
                                                     ops := if ctx % 8 = 4 then e.ops.map redo else [] })) ctx)

/-- The operations that the rest of a chain holds (R309, R337): records are read, not moved, and OWN is unchanged; none
while a dredge window holds a read of one (R84). -/
def countChain (c : Nat) (i : Issuer) : Nat → Word → State → Option Nat × State
  | 0, _, s => (some 1, s)
  | n + 1, cur, s =>
    match readRangeNow c i.regs 2 cur 64 s with
    | (.error true, s) => (none, s)
    | (.error false, s) => (some 1, s)
    | (.ok bs, s) =>
      let r := copyRec ((List.range 8).map (byteWord bs))
      if !r.own || !r.ok || r.next = 0 then (some 1, s)
      else match countChain c i n r.next s with
        | (some k, s) => (some (k + (if r.tli then 1 else 0)), s)
        | (none, s) => (none, s)

/-- The number a copy channel's last queued operation would have taken: `tl` and what each chain still holds. -/
def countChains (c : Nat) : List (Issuer × Word) → Nat → State → Option Nat × State
  | [], tl, s => (some tl, s)
  | (i, head) :: r, tl, s =>
    match countChain c i 65536 head s with
    | (some k, s) => countChains c r (tl + k) s
    | (none, s) => (none, s)

/-- The chains of a copy channel not yet walked to their end, with the record each goes on at. -/
def chainHeads (e : Engine) : List (Issuer × Word) :=
  e.chains.zipIdx.map (fun x => (x.1.issuer, if x.2 = 0 && e.cur ≠ 0 then e.cur else x.1.head))

/-- An engine context without work, its timeline at tl (R337). -/
def emptied (e : Engine) (tl : Nat) : Engine :=
  { e with tl := tl, halted := none, chains := [], finished := e.given, cur := 0, words := [], pages := [], piece := 0,
           counted := false, busy := false, begun := false, hbmAt := none, ops := [], giveUp := false }

/-- The work of a halted context is discarded and its timeline advanced; while a dredge window holds the reading of a chain,
that waits for the close (R84, R337). -/
def abandonCtx (s : State) (ctx : Nat) : State :=
  if (ctxHalted s ctx).isNone then s
  else if 0x4000 ≤ ctx then
    let relays := ((mget (ctx - 0x4000) s.colls).elim [] (·.ops)).filterMap (·.relay)
    { s with router := { s.router with fwd := s.router.fwd.filter (fun x => !relays.contains x.1) },
             colls := match mget (ctx - 0x4000) s.colls with
        | some x => mput (ctx - 0x4000) { x with halted := none, ops := [], tl := x.last } s.colls
        | none => s.colls }
  else if ctx % 8 = 5 then modProbe s (ctx / 8) (fun p => { p with halted := none, queue := [], tl := p.no })
  else if ctx % 8 = 4 then modEngine s ctx (fun e => emptied e e.last)
  else
    let e := engineOf s ctx
    match countChains (ctxCore ctx) (chainHeads e) e.tl s with
    | (some tl, s) => modEngine s ctx (fun e => emptied e tl)
    | (none, s) => modEngine s ctx (fun e => { e with giveUp := true })

/-- FQ_ACT ABANDON (R337). -/
def execFqAbandon (ctx : Nat) (s : State) : Out := .next (abandonCtx s ctx)

end Sys2Proof.Machine
end

