-- ==== Sys2Proof/Machine/Eddy.lean ====
section
/-! DEFINITION. The Eddy ring (R85 to R105, R316): slots and their check code, the passing of a stage, tap operations, the
operating system's commands, and the tap slots. -/

namespace Sys2Proof.Machine

/-! Slots (R86 to R88) -/

/-- A slot after reset (R86). -/
def ESlot.empty : ESlot := ⟨0, 0, 0⟩

/-- Slot k. -/
def eslot (s : State) (k : Nat) : ESlot := mgetD ESlot.empty k s.eddy.slots

/-- The state with slot k re-encoded as given (R88). -/
def setEslot (s : State) (k : Nat) (x : ESlot) : State :=
  { s with eddy := { s.eddy with slots := mset ESlot.empty k x s.eddy.slots, flips := mdel k s.eddy.flips } }

/-- The slot at a stage in the present ring cycle (R86). -/
def slotAt (s : State) (stage : Nat) : Nat := (stage + 2560 - s.now % 2560) % 2560

/-- The revolution of slot k (R86). -/
def revOf (s : State) (k : Nat) : Nat := (k + s.now) / 2560 % 2 ^ 32

/-- Sideband bits [63:0] (R87). -/
def sideband (s : State) (k : Nat) : Nat :=
  let x := eslot s k
  revOf s k * 2 ^ 32 + x.job.toNat * 2 ^ 16 + x.state * 2 ^ 12 + k

/-- The code positions of the protected bits: from 3 upwards, not powers of two (R88). -/
def codePositions : List Nat := (List.range 600).filter (fun n => decide (3 ≤ n) && decide (2 ^ flog2 n ≠ n)) |>.take 576

/-- The position of bit i of a slot's 587: protected bits 0 to 575, CHK[0..9] at 2^j, CHK[10] at 0. -/
def codePosition (i : Nat) : Nat :=
  if i < 576 then (codePositions[i]?).getD 0 else if i < 586 then 2 ^ (i - 576) else 0

/-- The outcome of the check of R88: none, a bit corrected, or uncorrectable. -/
inductive RingCheck where
  | clean
  | fix (bit : Nat)
  | lost
  deriving DecidableEq, Repr

/-- The check of a slot whose stored bits differ from what was encoded in `flips`. -/
def ringCheck (flips : List Nat) : RingCheck :=
  let syn := flips.foldl (fun a i => a ^^^ codePosition i) 0
  if flips.length % 2 = 0 then (if syn = 0 then .clean else .lost)
  else if syn = 0 then .fix 586
  else if 2 ^ flog2 syn = syn then (if syn ≤ 512 then .fix (576 + flog2 syn) else .lost)
  else match codePositions.findIdx? (· == syn) with
    | some i => .fix i
    | none => .lost

/-- Flip bit i of a slot's contents: payload bits, then JOB and STATE of the sideband; REV, SLOT and CHK are given by
the ring itself. -/
def flipSlot (x : ESlot) (i : Nat) : ESlot :=
  if i < 512 then { x with payload := x.payload ^^^ BitVec.ofNat 512 (2 ^ i) }
  else if 512 + 16 ≤ i ∧ i < 512 + 32 then { x with job := x.job ^^^ BitVec.ofNat 16 (2 ^ (i - 528)) }
  else if i = 524 ∨ i = 525 then { x with state := x.state ^^^ 2 ^ (i - 524) }
  else x

/-- A tap stage checks its slot (R88). -/
def checkSlot (s : State) (k stage : Nat) : State :=
  match mget k s.eddy.flips with
  | none => s
  | some fl =>
    match ringCheck fl with
    | .clean => setEslot s k (fl.foldl flipSlot (eslot s k))
    | .fix b =>
      let x := (b :: fl).foldl flipSlot (eslot s k)
      let s := setEslot s k x
      { s with eddy := { s.eddy with cecnt := satInc 32 s.eddy.cecnt } }
    | .lost =>
      let s := setEslot s k ⟨0, 0, 2⟩
      let s := { s with eddy := { s.eddy with uecnt := satInc 16 s.eddy.uecnt } }
      logEvent s (stage / 640) 0x25 0 0 0 0 (BitVec.ofNat 64 k)

/-! The passing of a stage -/

/-- What the origin does to its slot before any operation there (R104, R105). EDDY_OCC counts the state that TEARDOWN or
RECLAIM leaves, before the operation of the origin's own core (log entry 90). -/
def originPass (s : State) (k : Nat) : State :=
  let x := eslot s k
  let s := match s.eddy.cmd with
    | some (1, job, _) => if x.state = 1 ∧ x.job.toNat = job then setEslot s k ESlot.empty else s
    | some (2, slot, _) => if slot = k then pushEvs (setEslot s k ESlot.empty) [.reclaimComplete] else s
    | _ => s
  { s with eddy := { s.eddy with seen := mset 0 k (eslot s k).state s.eddy.seen } }

/-- EDDY_SLOT_PASS (R85, R86, R88, R99, R104, R105): the slot at a tap stage is checked, the origin acts on it, and the
core's tap performs its operation. -/
def execEddySlotPass (stage : Nat) (s : State) : Out :=
  let k := slotAt s stage
  let c := ringCore (stage / 2)
  let s := if stage % 2 = 0 then checkSlot s k stage else s
  let taps := stage % 2 = 0 && coreLive s c && !(coreOf s c).taps.isEmpty
  let s := if taps then pushEvs s [.tapOperationPerformed c] else s
  .next (if stage = 0 then originPass s k else s)

/-- TEARDOWN_COMPLETE (R105). -/
def execTeardownComplete (s : State) : Out := .next { s with eddy := { s.eddy with cmd := none } }

/-- RECLAIM_COMPLETE (R105). -/
def execReclaimComplete (s : State) : Out := .next { s with eddy := { s.eddy with cmd := none } }

/-- A refused command of EDDY_CMD (R105): 1 BADOP, 2 BADARG; a busy ring ignores it and sets OVF. -/
def eddyRefuse (s : State) (err : Nat) : State :=
  { s with eddy := if s.eddy.cmd.isSome then { s.eddy with ovf := true } else { s.eddy with err := err } }

/-- EDDY_CMD TEARDOWN (R105). -/
def execTeardown (job : BitVec 16) (s : State) : Out :=
  if s.eddy.cmd.isSome then .next (eddyRefuse s 0)
  else if job = 0 then .next (eddyRefuse s 2)
  else .next (schedule { s with eddy := { s.eddy with cmd := some (1, job.toNat, s.now), err := 0 } } 2560 .teardownComplete)

/-- EDDY_CMD RECLAIM (R105): the slot id must name a LOST slot. -/
def execReclaim (slot : BitVec 16) (s : State) : Out :=
  if s.eddy.cmd.isSome then .next (eddyRefuse s 0)
  else if 2560 ≤ slot.toNat ∨ (eslot s slot.toNat).state ≠ 2 then .next (eddyRefuse s 2)
  else .next { s with eddy := { s.eddy with cmd := some (2, slot.toNat, s.now), err := 0 } }

/-! Tap operations performed (R91 to R101) -/

/-- What a tap operation gives its request. -/
inductive TapResult where
  | data (d : Row)
  | fault (f : FaultRec)
  | wait

/-- Whether a slot may be the one an operation acts on. -/
def tapMatches (o : TapOp) (x : ESlot) (k : Nat) : Bool :=
  if o.any then x.state == 0 && decide ((k + 2560 - o.base) % 2560 < o.count) else k == o.slot

/-- Whether what a release tap operation comes after has been performed (R101). DESIGN CHOICE (log entry 93): a save awaits the
tap operations (R103), so what the save itself leaves unperformed holds none of them: an access that the race detector has
refused, a matrix operation that has met a fault. -/
def tapCleared (t : Thread) (pos : Nat) : Bool :=
  t.reqs.all (fun q => decide (pos ≤ q.pos) || performed q || q.landed) &&
  (match t.x.xop with
    | some x => decide (pos ≤ x.pos) || !x.mma || (x.fault.isSome && t.phase.saves)
    | none => true)

/-- Order of a tap operation after the thread's earlier operations (R91, R101). Its request's number is its place in the
order of issue. -/
def tapReady (t : Thread) (o : TapOp) : Bool :=
  t.reqs.all (fun r => decide (o.req ≤ r.pos) || performed r || r.landed || !acquires r.ord) &&
  (!releases o.ord || tapCleared t o.req)

/-- The new value of an ECAP field (R93). -/
def ecapNew (variant : Nat) (old a b : Word) : Word :=
  match variant with
  | 0 => old
  | 1 => old + a
  | 2 => if old.slt a then a else old
  | 3 => if old.ult a then a else old
  | 4 => a
  | 5 => if old = a then b else old
  | _ => old ||| a

/-- The operation on its slot (R93 to R96, R98). -/
def tapEffect (s : State) (o : TapOp) (k : Nat) : TapResult × State :=
  let x := eslot s k
  let owned := x.state = 1 ∧ x.job.toNat = o.job
  if o.kind = 2 then
    if x.state = 0 then
      (.data (BitVec.ofNat 2048 (if o.any then (k + 2560 - o.base) % 2560 else o.w.toNat)),
        setEslot s k ⟨o.payload, BitVec.ofNat 16 o.job, 1⟩)
    else (.data (rowOf (BitVec.allOnes 64)), s)
  else if x.state = 2 then (.fault (dataFault 1 0 0 0), s)
  else if !owned then (.fault (eddyFault 3 k), s)
  else match o.kind with
    | 0 =>
      let old := BitVec.ofNat 64 (bits (64 * o.field) 64 x.payload.toNat)
      let new := ecapNew o.variant old o.a o.b
      let m : BitVec 512 := BitVec.ofNat 512 ((2 ^ 64 - 1) * 2 ^ (64 * o.field))
      let y := (x.payload &&& ~~~m) ||| BitVec.ofNat 512 (new.toNat * 2 ^ (64 * o.field))
      (.data (rowOf old), setEslot s k { x with payload := y })
    | 1 => (.data (BitVec.ofNat 2048 (x.payload.toNat + sideband s k * 2 ^ 512)), s)
    | _ => (.data (x.payload.setWidth 2048), setEslot s k ESlot.empty)

/-- The head operation leaves the queue; the next can be performed from the following ring cycle (R91), from which the
2,560 cycles of an any-mode EBOARD are counted (R95, log entry 89). -/
def popTap (s : State) (c : Nat) : State :=
  let rest : List TapOp :=
    match (coreOf s c).taps.drop 1 with
    | [] => []
    | o :: r => { o with eligible := max o.eligible (s.now + 1) } :: r
  let s := modCore s c (fun k => { k with taps := rest })
  modThread s c (fun t => { t with taps := t.taps - 1 })

/-- What the operation's order does to the detector (R140, R143). -/
def tapOrder (s : State) (c ord : Nat) : State :=
  let s := if releases ord then releaseAt s c else s
  if acquires ord then modThread s c (fun t => if tracked t then { t with det := { t.det with coarse := true } } else t)
  else s

/-- A request that has come to its end with its parts, or with a fault. -/
def tapDone (s : State) (c req : Nat) (f : Option FaultRec) : State :=
  let all (q : Req) : List Part := q.parts.map (fun p => { p with done := true, here := true })
  settleReq (modReq s c req (fun q => { q with fault := f, parts := all q })) c req

/-- The result reaches the request (R92, R98): four cycles later for a result, at once for EALIGHT. -/
def tapDeliver (s : State) (c : Nat) (o : TapOp) (r : TapResult) : State :=
  match r, o.kind with
  | .wait, _ => s
  | .fault f, 3 => tapDone s c o.req (some f)
  | .fault f, _ => deliverReq s c o.req 0 4 (some f)
  | .data d, 3 =>
    if o.deposit.isSome then modPart s c o.req 0 (fun p => { p with data := d, sent := true })
    else tapDone s c o.req none
  | .data d, _ => deliverReq s c o.req d 4

/-- The head operation has still to wait for earlier operations of the thread: it is not eligible before the next cycle
(R91, R101, log entry 89). -/
def tapWaits (s : State) (c : Nat) : State :=
  modCore s c (fun k => { k with taps := match k.taps with
    | [] => []
    | o :: r => { o with eligible := s.now + 1 } :: r })

/-- TAP_OPERATION_PERFORMED (R91 to R101): the operation at the head of a core's tap, if the slot at the tap is its; one
whose landing was abandoned is performed without a result (R45). The 2,560th slot that any-mode EBOARD has tried in vain is
its last (R95). -/
def execTapOperationPerformed (core : Nat) (s : State) : Out :=
  match (coreOf s core).taps, threadOf s core with
  | o :: _, some t =>
    let k := slotAt s (2 * ringPos core)
    if s.now < o.eligible then .next s
    else if !tapReady t o then .next (tapWaits s core)
    else if tapMatches o (eslot s k) k then
      let (r, s) := tapEffect s o k
      .next (tapDeliver (tapOrder (popTap s core) core o.ord) core o r)
    else .next (if o.any ∧ o.eligible + 2559 ≤ s.now then pushEvs s [.eboardAnyTimeout core] else s)
  | _, _ => .next s

/-- EBOARD_ANY_TIMEOUT (R95): no slot of the window was EMPTY in a whole revolution. -/
def execEboardAnyTimeout (core : Nat) (s : State) : Out :=
  match (coreOf s core).taps with
  | o :: _ =>
    .next (if o.any then deliverReq (tapOrder (popTap s core) core o.ord) core o.req (rowOf (BitVec.allOnes 64)) 4 else s)
  | [] => .next s

/-! The tap slots (R90, R97, R98, R303, R316) -/

/-- BASE and COUNT of the job's window (R89). -/
def eddyBase (t : Thread) : Nat := let b := wf 11 0 t.regs.eddyBase; if 2560 ≤ b then b - 2560 else b
def eddyCount (t : Thread) : Nat := min 2560 (wf 11 0 t.regs.eddyCount)

/-- NOJOB and WINDOW (R98), and the slot that window index w names (R90). -/
def eddyWindow (t : Thread) (w : Word) : Except Attn Nat :=
  let k := (eddyBase t + w.toNat) % 2560
  if wf 15 0 t.regs.eddyJob = 0 then .error (.fault (eddyFault 1 k))
  else if eddyCount t ≤ w.toNat then .error (.fault (eddyFault 2 k))
  else .ok k

/-- A tap operation with nothing filled in. -/
def tapOf (s : State) (t : Thread) (kind slot : Nat) (w : Word) (ord : BitVec 2) : TapOp :=
  { kind := kind, req := t.nextReq, slot := slot, any := false, w := w, base := eddyBase t, count := eddyCount t,
    job := wf 15 0 t.regs.eddyJob, variant := 0, field := 0, a := 0, b := 0, payload := 0, deposit := none,
    ord := ord.toNat, eligible := s.now + 3, frame := t.frame }

/-- Queue a tap operation with its request (R91, R92). -/
def queueTap (s : State) (t : Thread) (o : TapOp) (k : ReqKind) (cls : Nat) (dest : Dest) (l : Landing) (p : Part) : Slot :=
  if 8 ≤ (coreOf s s.cur).taps.length then .error (.freeze 5)
  else
    (issueReq s { t with taps := t.taps + 1 } k cls dest l o.ord 3 [p]).map (fun s =>
      modCore s s.cur (fun c => { c with taps := c.taps ++ [o] }))

/-- A tap operation's part: no memory of its own. -/
def tapPart : Part := { marker with sent := false }

/-- ECAP (R93, R316). -/
def execEcap (g : Guard) (rd rw ra : BitVec 5) (f cop : BitVec 3) (ord : BitVec 2) (atr : Bool) (off : BitVec 10)
    (s : State) : Out :=
  runSlot g s (fun t =>
    (eddyWindow t (sreg t rw)).bind (fun k => (queueLanding t atr off).bind (fun l =>
      let o := { tapOf s t 0 k (sreg t rw) ord with variant := cop.toNat, field := f.toNat, a := sreg t ra,
                                                     b := if cop = 5 then sreg t (ra ||| 1) else 0 }
      queueTap s t o .tap 1 (.sreg rd.toNat) l tapPart)))

/-- EROW (R94, R316). -/
def execErow (g : Guard) (tl : BitVec 4) (e : BitVec 6) (rw : BitVec 5) (ord : BitVec 2) (atr : Bool) (off : BitVec 10)
    (s : State) : Out :=
  runSlot g s (fun t =>
    (eddyWindow t (sreg t rw)).bind (fun k => (queueLanding t atr off).bind (fun l =>
      queueTap s t (tapOf s t 1 k (sreg t rw) ord) .tap 1 (.trow (64 * tl.toNat + e.toNat)) l tapPart)))

/-- EBOARD (R95, R316): the initial payload is read at issue. -/
def execEboard (g : Guard) (rd rw : BitVec 5) (any : Bool) (tl : BitVec 4) (e : BitVec 6) (ord : BitVec 2) (atr : Bool)
    (off : BitVec 10) (s : State) : Out :=
  runSlot g s (fun t =>
    let w : Word := if any then 0 else sreg t rw
    (eddyWindow t w).bind (fun k => (queueLanding t atr off).bind (fun l =>
      let o := { tapOf s t 2 k w ord with any := any, payload := (trow t tl.toNat e.toNat).setWidth 512 }
      queueTap s t o .tap 1 (.sreg rd.toNat) l tapPart)))

/-- EALIGHT (R96, R316): the deposit address is translated at issue as a store's. -/
def execEalight (g : Guard) (rw : BitVec 5) (dep : Bool) (ra : BitVec 5) (ord : BitVec 2) (s : State) : Out :=
  runSlot g s (fun t =>
    (eddyWindow t (sreg t rw)).bind (fun k =>
      let a := sreg t ra &&& ~~~(63#64)
      let o := tapOf s t 3 k (sreg t rw) ord
      if !dep then queueTap s t o .alight 2 .none ⟨0, false⟩ tapPart
      else (threadPlace s t .mem 0 .write a).bind (fun p => (sramOnly p a).bind (fun p =>
        if xOverlaps s s.cur t p.pa 64 && decide (8 ≤ (heldStores s s.cur t).length) then .error .stall
        else queueTap s t { o with deposit := some (a, p.pa, p.unchk) } .alight 2 .none ⟨0, false⟩ (partAt a p 64 0 false)))))

/-- EWHEN (R97): latency 2. -/
def execEwhen (g : Guard) (rd rw : BitVec 5) (s : State) : Out :=
  runSlot g s (fun t =>
    (eddyWindow t (sreg t rw)).bind (fun k =>
      let d := 3 + (2 * ringPos s.cur + 2 * 2560 - k - (s.now + 3) % 2560) % 2560
      putScalar s t rd (BitVec.ofNat 64 d) 2))

end Sys2Proof.Machine
end

