-- ==== Sys2Proof/Machine/Tide.lean ====
section
/-! DEFINITION. The Tide ring and the weir (R106 to R121, R317): the lap program, the sending of tiles, the ports and their
subscriptions, and the Tide slots. -/

namespace Sys2Proof.Machine

/-! The weir (R108 to R111, R115, R121) -/

/-- Change the weir. -/
def modWeir (s : State) (f : Weir → Weir) : State := { s with weir := f s.weir }

/-- The weir stops (R109): ERRSTOP, LPERR, EN := 0; tiles already sent are delivered. -/
def weirStop (s : State) (cause : Nat) : State :=
  modWeir s (fun w => { w with ctl := w.ctl &&& 0xC, errstop := true, lperr := cause, run := false })

/-- Whether NLAYER lets a lap begin (R109, R111). -/
def layersOk (w : Weir) : Bool := decide (1 ≤ w.nlayer.toNat ∧ w.nlayer.toNat ≤ 65536)

/-- The direction of the next lap (R111): true for ebb. -/
def nextDir (w : Weir) : Bool :=
  match wf 3 2 w.ctl with
  | 0 => false
  | 1 => true
  | 2 => w.sent % 2 == 1
  | _ => w.sent % 2 == 0

/-- LAP_BEGIN (R109 to R111): the pending values are copied, LAP is incremented. -/
def execLapBegin (s : State) : Out :=
  let w := s.weir
  if !w.ctl.getLsbD 0 || w.run then .next s
  else if !layersOk w then .next (weirStop s 5)
  else
    let d := nextDir w
    let s := modWeir s (fun w => { w with
      run := true, dir := d, base := w.lpbase, n := w.nlayer.toNat, lap := (w.lap + 1) % 2 ^ 32, sent := w.sent + 1,
      layerix := if d then w.nlayer.toNat - 1 else 0, desc := [], range := 0, inRange := 0, tile := 0 })
    .next (if s.weir.nextAt ≤ s.now then pushEvs s [.weirTileSend] else s)

/-- TIDE_CTL_WRITE (R109, R111). -/
def execTideCtlWrite (val : Word) (s : State) : Out :=
  let was := s.weir.ctl.getLsbD 0
  let s := modWeir s (fun w => { w with ctl := val &&& 0xD })
  if !val.getLsbD 0 then .next (modWeir s (fun w => { w with run := false }))
  else if was then .next s
  else if !layersOk s.weir then .next (weirStop s 5)
  else
    let free := s.weir.ring.foldl (fun m x => max m (x.at_ + 2)) s.now
    .next (schedule (modWeir s (fun w => { w with sent := 0, nextAt := free })) (free - s.now) .lapBegin)

/-- Who the weir's reads are logged under (R334). -/
def whoWeir : Who := { die := 0, core := 0, req := 10 }

/-- Two words at a physical address, as the weir reads an entry of its program. -/
def weirEntry (s : State) (pa : Nat) : Option (List Word) × State :=
  let (r, s) := readAny s whoWeir pa 16
  match r.err with
  | some _ => (none, s)
  | none => (some [BitVec.ofNat 64 (leNat (r.bytes.take 8)), BitVec.ofNat 64 (leNat (r.bytes.drop 8))], s)

/-- The limits of a descriptor, in byte order (R108, R109, R111). -/
def descCause (d : List Word) : Option Nat :=
  let a := (d[0]?).getD 0
  let b := (d[1]?).getD 0
  if wf 31 16 a = 0 ∨ 4095 < wf 31 16 a then some 1
  else if wf 63 32 a = 0 ∨ 2 ^ 24 < wf 63 32 a then some 2
  else if wf 63 52 b ≠ 0 ∨ wf 3 0 b ≠ 0 then some 3
  else none

/-- The limits of a range entry that begins at tile `tile` of a layer of `n`, in byte order. -/
def rangeCause (r : List Word) (tile n : Nat) : Option Nat :=
  let pa := ((r[0]?).getD 0).toNat
  let len := wf 31 0 ((r[1]?).getD 0)
  if pa % 256 ≠ 0 ∨ pa < hbmBase ∨ 0x20000000000 < pa + max 1 (8192 * len) then some 3
  else if len = 0 ∨ n < tile + len then some 2
  else if wf 63 32 ((r[1]?).getD 0) ≠ 0 then some 3
  else none

/-- Whether a read may be issued (R79, R84, R121): not from the drain lead to the close, nor while a drop rebuilds. -/
def weirMayRead (s : State) : Bool :=
  !s.dredge.drained && (match s.hbm.drop with
    | some (_, step) => step == 1 || step == 5
    | none => true)

/-- Whether the weir stands at a tile of a checked range. -/
def weirReady (w : Weir) : Bool :=
  match w.desc with
  | _ :: _ :: _ :: r :: _ => decide (w.inRange < wf 31 0 r)
  | _ => false

/-- Take the weir to its next tile: descriptors and range entries are read and checked as it reaches them, and at the end
of the lap the next one begins (R109). -/
def weirPrepare : Nat → State → State
  | 0, s => s
  | f + 1, s =>
    let w := s.weir
    if weirReady w then s
    else match w.desc with
    | [] =>
      match weirEntry s (w.base.toNat + 16 * w.layerix) with
      | (none, s) => weirStop s 4
      | (some d, s) =>
        match descCause d with
        | some c => weirStop s c
        | none => weirPrepare f (modWeir s (fun w => { w with desc := d ++ [0, 0], range := 0, inRange := 0, tile := 0 }))
    | a :: b :: _ =>
      if w.range < wf 31 16 a then
        match weirEntry s (b.toNat + 16 * w.range) with
        | (none, s) => weirStop s 4
        | (some e, s) =>
          match rangeCause e w.tile (wf 63 32 a) with
          | some c => weirStop s c
          | none => weirPrepare f (modWeir s (fun w => { w with desc := a :: b :: e, range := w.range + 1, inRange := 0 }))
      else if w.tile < wf 63 32 a then weirStop s 2
      else if w.layerix = (if w.dir then 0 else w.n - 1) then
        pushEvs (modWeir s (fun w => { w with run := false })) [.lapBegin]
      else
        weirPrepare f (modWeir s (fun w => { w with desc := [], layerix := if w.dir then w.layerix - 1 else w.layerix + 1 }))
    | _ => s

/-- The payload of a tile, row by row: a part that cannot be read is zeros (R107). -/
def tileRows : Nat → State → Nat → List Row × Bool × State
  | 0, s, _ => ([], false, s)
  | n + 1, s, pa =>
    let (r, s) := readAny s whoWeir pa 256
    let (rs, bad, s) := tileRows n s (pa + 256)
    (bytesRow r.bytes :: rs, r.err.isSome || bad, s)

/-- The bytes that the CRC of a tile covers (R107). -/
def crcBytes (payload : List Row) (sb : Nat) : List Byte := (payload.map rowBytes).flatten ++ leBytes 12 sb

/-- The sideband of a tile (R107). -/
def tideSideband (w : Weir) (layer last err : Nat) (payload : List Row) : BitVec 128 :=
  let lo := w.lap * 2 ^ 64 + w.tile % 2 ^ 24 * 2 ^ 40 + layer * 2 ^ 24 + err * 4 + last * 2 + b2n w.dir
  BitVec.ofNat 128 (crc32c (crcBytes payload lo) * 2 ^ 96 + lo)

/-- The next tile leaves the weir (R107, R115). -/
def weirSend (s : State) : State :=
  match s.weir.desc with
  | a :: _ :: p :: _ =>
    let (rows, bad, s) := tileRows 32 s (p.toNat + 8192 * s.weir.inRange)
    let eff := tideEff s
    modWeir s (fun w =>
      let last := b2n (decide (w.tile + 1 = wf 63 32 a))
      let x : RingTile := ⟨w.nextId, s.now, tideSideband w (wf 15 0 a) last (b2n bad) rows, rows⟩
      { w with ring := w.ring.filter (fun y => decide (s.now < y.at_ + 1340)) ++ [x], nextId := w.nextId + 1,
               srccnt := if bad then satInc 32 w.srccnt else w.srccnt, tile := w.tile + 1, inRange := w.inRange + 1,
               nextAt := s.now + 2 * 2 ^ eff })
  | _ => s

/-- WEIR_TILE_SEND (R109, R115, R121): at its spacing, the next tile is reached and sent; its bytes are those of the moment
it is sent (R110). -/
def execWeirTileSend (s : State) : Out :=
  if !s.weir.run || decide (s.now < s.weir.nextAt) || !weirMayRead s then .next s
  else
    let s := weirPrepare 4 s
    .next (if s.weir.run && weirReady s.weir && decide (tideEff s < 4) then weirSend s else s)

/-- Whether WEIR_TILE_SEND has something to do. -/
def weirDue (s : State) : Bool :=
  s.weir.run && decide (s.weir.nextAt ≤ s.now) && weirMayRead s && (!weirReady s.weir || decide (tideEff s < 4))

/-! The ports (R106, R112 to R117, R120) -/

/-- Change the subscription of a core's thread. -/
def modTide (s : State) (c : Nat) (f : TideSub → TideSub) : State := modThread s c (fun t => { t with tide := f t.tide })

/-- The delay from the weir to a core's port (R106). -/
def tideDelay (c : Nat) : Nat := 24 + ringPos c + 8 * coreDie c

/-- Whether a tile's CRC checks. -/
def crcGood (x : RingTile) : Bool := crc32c (crcBytes x.payload (x.sb.toNat % 2 ^ 96)) == sbField x.sb 127 96

/-- The subscription in a new state: the reference lap of ABSENT starts anew (R113). -/
def enterState (d : TideSub) (st : Nat) : TideSub := { d with state := st, seenLap := none }

/-- A missed tile: WAITLAP, MISST (R113). -/
def missTile (d : TideSub) : TideSub := { enterState d 3 with misst := true }

/-- Whether an index is filtered in (R112). -/
def filtered (d : TideSub) (k : Nat) : Bool := decide (d.first ≤ k ∧ k ≤ d.last) && (k - d.first) % max 1 d.stride == 0

/-- The reference of ABSENT, and whether a tile's lap exceeds it by 2 or more (R113, R120). -/
def lapSeen (d : TideSub) (lap : Nat) : TideSub × Bool :=
  match d.seenLap with
  | none => ({ d with seenLap := some lap }, false)
  | some l => let g := (lap + 2 ^ 32 - l) % 2 ^ 32; (d, decide (2 ≤ g ∧ g < 2 ^ 31))

/-- ABSENT of an ARMED or WAITLAP subscription (R113). -/
def noteLap (d : TideSub) (lap : Nat) : TideSub :=
  if d.state = 1 ∨ d.state = 3 then
    let (d, far) := lapSeen d lap
    { d with absent := d.absent || far }
  else d

/-- The restore list is empty: the subscription goes on in its recorded state (R120). -/
def restoreDone (now : Nat) (d : TideSub) : TideSub := { enterState d d.kept with beatAt := now, heads := [] }

/-- Whether the buffer has no free position. -/
def tideFull (d : TideSub) : Bool := decide (8 ≤ d.buf.length + d.taking.length)

/-- The first beat of a tile at the port (R113, R114, R116, R120): taken on its sideband as received, or remembered for
its second beat. -/
def firstBeat (now : Nat) (d : TideSub) (x : RingTile) : TideSub :=
  let layer := sbField x.sb 39 24
  let k := sbField x.sb 63 40
  let lap := sbField x.sb 95 64
  let aside : TideSub := { d with seen := some (x.id, tideFull d) }
  match d.restore with
  | (l, i) :: _ =>
    if l = layer ∧ i = k ∧ (d.heads.contains layer ∨ k = 0) ∧ d.taking.isEmpty ∧ !tideFull d then
      let d := (lapSeen d lap).1
      { d with heads := layer :: d.heads, taking := d.taking ++ [(x.id, now + 2, 1)] }
    else aside
  | [] =>
    if !(decide (1 ≤ d.state ∧ d.state ≤ 3)) then { d with seen := none }
    else if layer = d.layer ∧ filtered d k ∧ k = d.next ∧ !tideFull d ∧ (k = 0 ∨ d.state = 2) then
      let d := noteLap d lap
      let d := if d.state = 2 then d else enterState d 2
      let d := { d with beatAt := now, next := k + d.stride, taking := d.taking ++ [(x.id, now + 2, 0)] }
      if x.sb.getLsbD 1 then enterState d 4 else d
    else aside

/-- The second beat of a good tile that was not taken (R113, R116, R120). -/
def secondBeat (now : Nat) (d : TideSub) (x : RingTile) (full : Bool) : TideSub :=
  let layer := sbField x.sb 39 24
  let k := sbField x.sb 63 40
  let lap := sbField x.sb 95 64
  match d.restore with
  | (l, _) :: _ =>
    let (d, far) := lapSeen d lap
    let d := if k = 0 ∧ !d.heads.contains layer then { d with heads := layer :: d.heads } else d
    if far && !d.heads.contains l then restoreDone now { d with restore := [], absent := true } else d
  | [] =>
    if !(decide (1 ≤ d.state ∧ d.state ≤ 3)) then d
    else
      let d := noteLap d lap
      if d.state = 2 ∧ (layer ≠ d.layer ∨ k = 0) then (if d.last < d.next then enterState d 4 else missTile d)
      else if layer ≠ d.layer then d
      else if d.state ≠ 2 ∧ k ≠ 0 then (if d.state = 1 then { enterState d 3 with missl := true } else d)
      else
        let d := { (if d.state = 2 then d else enterState d 2) with beatAt := now }
        if filtered d k ∧ k = d.next ∧ full then missTile d
        else if filtered d k ∧ d.next ≤ k then missTile d
        else if x.sb.getLsbD 1 then (if d.next ≤ min d.last k then missTile d else enterState d 4)
        else d

/-- TIDE_TILE_PASS (R113, R114, R116): the first or the second beat of a tile is at a core's port. -/
def execTideTilePass (core tile : Nat) (s : State) : Out :=
  match s.weir.ring.find? (fun x => x.id == tile) with
  | none => .next s
  | some x =>
    let at_ := x.at_ + tideDelay core
    if s.now = at_ then .next (modTide s core (fun d => firstBeat s.now d x))
    else .next (modTide s core (fun d =>
      match d.seen with
      | some (i, full) =>
        if i = tile then
          (let d := { d with seen := none }
           if crcGood x then secondBeat (s.now - 1) d x full else d)
        else d
      | none => d))

/-- A taken tile that fails its check (R117, R118, R120). -/
def landFails (d : TideSub) (x : RingTile) (listed : Bool) (cause : Nat) : TideSub :=
  let f : FaultRec :=
    { cls := 0x0C, cause := cause, qw6 := BitVec.ofNat 64 (sbField x.sb 39 24 + sbField x.sb 63 40 * 2 ^ 16),
      qw7 := BitVec.ofNat 64 (sbField x.sb 95 64) }
  let d := { d with pending := d.pending ++ [f] }
  if listed then d
  else if sbField x.sb 39 24 = d.layer then { enterState d 3 with next := sbField x.sb 63 40 }
  else d

/-- A landing (R114, R117, R120). -/
def landTile (now : Nat) (d : TideSub) (x : RingTile) (listed : Bool) : TideSub :=
  let d := { d with taking := d.taking.filter (fun y => y.1 ≠ x.id) }
  if !crcGood x then landFails d x listed 1
  else if x.sb.getLsbD 2 then landFails d x listed 2
  else
    let d := { d with buf := d.buf ++ [(sbField x.sb 39 24, sbField x.sb 63 40, x.payload)], tl := d.tl + 1 }
    if !listed then d
    else match d.restore with
      | _ :: r =>
        let d := { d with restore := r }
        if r.isEmpty then restoreDone now d else d
      | [] => d

/-- TIDE_TILE_LAND (R114, R117): two cycles after its first beat a taken tile is checked and becomes resident. -/
def execTideTileLand (core : Nat) (s : State) : Out :=
  match threadOf s core with
  | none => .next s
  | some t =>
    .next ((t.tide.taking.filter (fun y => decide (y.2.1 ≤ s.now))).foldl (fun s y =>
      match s.weir.ring.find? (fun x => x.id == y.1) with
      | some x => modTide s core (fun d => landTile s.now d x (y.2.2 == 1))
      | none => s) s)

/-- TIDE_REGISTRATION (R112, R115): the subscription counts towards CAP from now on. -/
def execTideRegistration (core : Nat) (s : State) : Out :=
  .next (modTide s core (fun d => if 2 ≤ d.reg ∧ d.reg - 2 ≤ s.now then { d with reg := 1 } else d))

/-- Cycles before cycle n in which the weir is not paused by the calendar (R121). -/
def unpaused (n : Nat) : Nat := n / 65536 * 62976 + (min (n % 65536) 65024 - 2048)

/-- BOARDING_TIMEOUT (R113, R121): 65,536 cycles without a tile of the layer at the port, pauses not counted. -/
def boardingLate (s : State) (d : TideSub) : Bool :=
  d.state == 2 && d.restore.isEmpty && decide (unpaused d.beatAt + 65536 ≤ unpaused s.now)
def execBoardingTimeout (core : Nat) (s : State) : Out :=
  .next (modTide s core (fun d => if boardingLate s d then missTile d else d))

/-- What the Tide ports have to do in this cycle, in the order of R114: landings, second beats, first beats. -/
def tideEvents (s : State) : List Instr :=
  let subs := s.cores.filterMap (fun k => k.2.thread.bind (fun t => if t.phase = .restoring then none else some (k.1, t.tide)))
  -- a landing that fails in this cycle brings the subscription to WAITLAP first
  let watch (d : TideSub) : Bool := decide (1 ≤ d.state ∧ d.state ≤ 3) || !d.restore.isEmpty || d.seen.isSome ||
    d.taking.any (fun y => decide (y.2.1 ≤ s.now))
  let at_ (c i : Nat) : List Instr :=
    (s.weir.ring.filter (fun x => x.at_ + tideDelay c + i == s.now)).map (fun x => .tideTilePass c x.id)
  (subs.filter (fun x => x.2.taking.any (fun y => decide (y.2.1 ≤ s.now)))).map (fun x => .tideTileLand x.1) ++
  (subs.filter (fun x => watch x.2)).flatMap (fun x => at_ x.1 1) ++
  (subs.filter (fun x => watch x.2)).flatMap (fun x => at_ x.1 0) ++
  (subs.filter (fun x => boardingLate s x.2)).map (fun x => .boardingTimeout x.1) ++
  (subs.filter (fun x => decide (2 ≤ x.2.reg ∧ x.2.reg - 2 ≤ s.now))).map (fun x => .tideRegistration x.1)

/-! The Tide slots (R112 to R114, R117, R118, R317) -/

/-- A pending Tide fault is raised before the slot's own effect (R117). -/
def tideSlot (g : Guard) (s : State) (f : Thread → Slot) : Out :=
  runSlot g s (fun t => if !t.tide.pending.isEmpty then .error (.pending 1 0) else f t)

/-- The status word (R114). -/
def tideStatus (d : TideSub) : Word :=
  fieldsWord [(40, d.next % 2 ^ 24), (24, d.layer), (20, d.buf.length), (10, b2n d.absent), (9, b2n d.misst),
    (8, b2n d.missl), (0, d.state)]

/-- Return the status word and clear the sticky flags (R113). -/
def takeStatus (s : State) (t : Thread) (rd : BitVec 5) : Slot :=
  putScalar s { t with tide := { t.tide with absent := false, misst := false, missl := false } } rd (tideStatus t.tide) 1

/-- TBOARD (R112, R118). What the log holds for BUSY and ARG is log entry 99 (DESIGN CHOICE). -/
def execTboard (g : Guard) (rl rf re rs : BitVec 5) (d : BitVec 2) (s : State) : Out :=
  tideSlot g s (fun t =>
    let l := (sreg t rl).toNat
    let f := (sreg t rf).toNat
    let e := (sreg t re).toNat
    let st := (sreg t rs).toNat
    if 1 ≤ t.tide.state ∧ t.tide.state ≤ 3 then
      .error (.fault (tideFault 3 t.tide.layer t.tide.next s.weir.lap))
    else if 65535 < l ∨ e < f ∨ 2 ^ 24 ≤ e ∨ st = 0 ∨ 4096 < st then
      .error (.fault (tideFault 4 (l % 65536) (f % 2 ^ 24) s.weir.lap))
    else .ok (setThread s s.cur { t with tide := { t.tide with
      state := 1, layer := l, first := f, last := e, stride := st, rate := d.toNat, next := f, seenLap := none,
      seen := none, reg := 2 + (s.now + 64) } }))

/-- TWAIT (R114, R305): latency 1 after its bundle issues. -/
def execTwait (g : Guard) (rd : BitVec 5) (n : BitVec 4) (s : State) : Out :=
  tideSlot g s (fun t =>
    if n.toNat ≤ t.tide.buf.length ∨ t.tide.state = 0 ∨ t.tide.state = 4 ∨ t.tide.absent then takeStatus s t rd
    else .error .stall)

/-- A subscription that has been left (R113). -/
def TideSub.left (d : TideSub) : TideSub :=
  { d with state := 0, buf := [], taking := [], restore := [], seen := none, seenLap := none, reg := 0, kept := 0 }

/-- TLEAVE (R113, R305): it stalls while an MMA.TB is busy. A handler's ends the subscription of the thread it serves, which
its frame holds (R118). -/
def execTleave (g : Guard) (s : State) : Out :=
  tideSlot g s (fun t =>
    let busy := match t.x.xop with
      | some x => (match x.i with
        | .mmaTb .. => true
        | _ => false)
      | none => false
    if busy then .error .stall
    else
      let leave (sv : Saved) : Saved := { sv with thread := { sv.thread with tide := sv.thread.tide.left } }
      let s := if t.handler then
          (match mget t.frame s.saved with
          | some sv =>
            let sv := leave sv
            storeUnits { s with saved := mput t.frame sv s.saved } (framePa s t.frame + frameRest + restTide)
              (tideBytes sv.thread.tide)
          | none => s) else s
      .ok (setThread s s.cur { t with tide := t.tide.left }))

/-- TSTAT (R114). -/
def execTstat (g : Guard) (rd : BitVec 5) (s : State) : Out := tideSlot g s (fun t => takeStatus s t rd)

/-- TSPEED (R115, R317): privileged, whatever its guard. -/
def execTspeed (g : Guard) (spd : BitVec 3) (s : State) : Out :=
  runAlways s (fun t =>
    if !privileged t then .error (illegalSlot 7)
    else if !guardTrue t g then .ok s
    else .ok (modWeir s (fun w => { w with set := spd.toNat })))

end Sys2Proof.Machine
end

