-- ==== Sys2Proof/Machine/Quokor.lean ====
section
/-! DEFINITION. The control cores' task and fence extension (R384 to R387): QENQ, QFENCE, the illegal-instruction
exception, and the performing of a store. Trap registers follow the RISC-V specifications that R384 cites (log entry 11). -/

namespace Sys2Proof.Machine

/-- The hart whose instruction is performed. -/
def hartNow (s : State) : Hart := (s.harts.toList[s.hart]?).getD Hart.reset

/-- Change hart h. -/
def modHart (s : State) (h : Nat) (f : Hart → Hart) : State :=
  if p : h < 16 then { s with harts := s.harts.set h (f s.harts[h]) } else s

/-- mstatus after a trap taken into a mode: the interrupt enable moves to its saved bit, and the mode to its field. -/
def trapStatus (k : Hart) (machine : Bool) : Word :=
  if machine then wset 12 11 (wset 7 7 (wset 3 3 k.mstatus 0) (wf 3 3 k.mstatus)) k.mode
  else wset 8 8 (wset 5 5 (wset 1 1 k.mstatus 0) (wf 1 1 k.mstatus)) (k.mode % 2)

/-- Taking the illegal-instruction exception (R385): to supervisor mode when delegated from a lower mode, else to machine
mode. -/
def hartIllegal (k : Hart) : Hart :=
  let tval : Word := k.word.setWidth 64
  if k.medeleg.getLsbD 2 ∧ k.mode < 3 then
    { k with sepc := k.pc, scause := 2, stval := tval, mstatus := trapStatus k false, mode := 1, pc := k.stvec &&& ~~~(3#64),
             waits := false }
  else
    { k with mepc := k.pc, mcause := 2, mtval := tval, mstatus := trapStatus k true, mode := 3, pc := k.mtvec &&& ~~~(3#64),
             waits := false }

/-- The instruction completes: its result, and the next address. -/
def hartDone (k : Hart) (rd : Nat) (v : Word) : Hart :=
  let x := if h : rd < 32 ∧ rd ≠ 0 then k.x.set rd v h.1 else k.x
  { k with x := x, pc := k.pc + 4, waits := false }

/-- Translate PLACE through a job entry's tables, with no cache and no aperture (R23, R386): `none` while a window, or a drop, holds
the reading of an entry in HBM (R82, R84); else the place, or none where the walk fails. -/
def jobPlace (s : State) (r : JobRegs) (va : Word) : Option (Option Place) × State :=
  if wf 63 55 va ≠ 0 then (some none, s)
  else
    let kept := s.walkCache
    -- a drop holds what a window holds: the walk is tried as in one
    let held (e : Except (Option WalkErr) TlbEnt) : Bool := match e with
      | .error none => true
      | _ => false
    if holding s && held (walkTables { s with walkCache := [], now := 0 } 0 r va).1 then (none, s)
    else
      let (e, s) := walkTables { s with walkCache := [] } 0 r va
      let s := { s with walkCache := kept }
      match e with
      | .error none => (none, s)
      | .error _ => (some none, s)
      | .ok e => (some (some (e.place va)), s)

/-- Who a control core's accesses are logged under (R395). -/
def whoQuokor : Who := { die := 0, core := 0 }

/-- The die whose store holds the fewest entries (R154). -/
def emptiestDie (s : State) : Nat :=
  (List.range 4).foldl (fun b d => if storeCount (dieOf s d) < storeCount (dieOf s b) then d else b) 0

/-- Where a PLKIND 3 record of a Quokor core goes (R154). -/
def hartNear (s : State) (p : Place) : Nat × Option Nat :=
  if p.dev.isNone && inSram p.pa then (coreDie (p.pa / 0x800000), some (p.pa / 0x800000)) else (emptiestDie s, none)

/-- Where a record of QENQ goes (R154, R386): `none` while its translation is held; none of a place where it fails. -/
def qenqNear (s : State) (j : Nat) (ws : List Word) : Option (Option (Nat × Option Nat)) × State :=
  if recKind ws = 3 then
    match jobPlace s (jobEntry s j).2 (recWord ws 4) with
    | (some p, s) => (some (p.map (hartNear s)), s)
    | (none, s) => (none, s)
  else (some (some (recDie ws, none)), s)

/-- The physical address of a record's barrier (R152): none where it is refused (R153). -/
def qenqBar (s : State) (ws : List Word) : Option Nat :=
  match recBar ws with
  | none => some 0
  | some b => if inSram b.toNat && coreLive s (b.toNat / 0x800000) then some b.toNat else none

/-- The effect of QENQ once the hart's stores are performed: the status (R386). What R153 refuses is refused whether or not the
walk for PLACE fails; `none` while that walk is held. -/
def qenqStatus (s : State) (j a : Nat) : Option (Nat × State) :=
  if !(jobEntry s j).1 then some (2, s)
  else if !(inSram a || inHbm a) then some (1, s)
  else
    let (g, s) := readAny s whoQuokor a 64
    if g.err.isSome then some (1, s)
    else
      let ws := (List.range 8).map (fun k => BitVec.ofNat 64 (leNat ((g.bytes.drop (8 * k)).take 8)))
      match qenqNear s j ws with
      | (none, _) => none
      | (some near, s) =>
        match qenqBar s ws with
        | none => some (1, s)
        | some badr =>
          if !recordOk s ws then some (1, s)
          else match near with
          | none => some (3, s)
          | some (d, core) =>
            let home := match core with
              | some h => coreLive s h
              | none => true
            if (recCores s d ws).isEmpty || !home then some (1, s)
            else if schedFull (dieOf s d) then some (4, s)
            else
              let (k, s) := newEntry s d 0 (ws ++ [BitVec.ofNat 64 a]) none j (recPrio ws) 0 core badr none
              let (n, s) := takeFree s
              some (0, schedule s (42 + launchDelay s d n) (.taskRecordArrival d k))

/-- The hart's instruction is presented again in the next cycle. -/
def hartWaits (s : State) : State := modHart s s.hart (fun k => { k with waits := true })

/-- The hart's instruction, in the modes that may run it, once its earlier stores are performed (R385 to R387). -/
def hartRun (s : State) (hold : Bool) (f : State → State) : Out :=
  let k := hartNow s
  if k.mode = 0 then .next (modHart s s.hart hartIllegal)
  else if !k.stores.isEmpty || hold then .next (hartWaits s)
  else .next (f s)

/-- QENQ (R386): a register it names may be the destination of a load under way; the read of a record in HBM waits for a window's close and for step 5 of a drop (R82, R84). -/
def execQenq (rs2 rs1 rd : BitVec 5) (s : State) : Out :=
  let k := hartNow s
  let j := (k.x[rs2.toNat]).toNat % 256
  let a := (k.x[rs1.toNat] &&& ~~~(63#64)).toNat
  let named := k.loads.any (fun x => !x.fp && [rs2.toNat, rs1.toNat, rd.toNat].contains x.rd)
  hartRun s (named || (inHbm a && (inWindow s || holding s))) (fun s =>
    match qenqStatus s j a with
    | some r => modHart r.2 s.hart (fun k => hartDone k rd.toNat (BitVec.ofNat 64 r.1))
    | none => hartWaits s)

/-- QFENCE (R387): it waits for the hart's loads as for its stores. -/
def execQfence (s : State) : Out :=
  hartRun s (!(hartNow s).loads.isEmpty) (fun s => modHart s s.hart (fun k => hartDone k 0 0))

/-- QUOKOR_STORE (R34, R79, R84, R146, R384): a hart's store is performed; one to HBM waits for a window's close and for a
drop to end. One to a control register covers the aligned unit that holds its address (R396). -/
def execQuokorStore (hart pa len : Nat) (data : Word) (s : State) : Out :=
  if inHbm pa && (inWindow s || holding s) then .next (schedule s 1 (.quokorStore hart pa len data))
  else
    let drop1 (l : List (Nat × Nat × Word)) : List (Nat × Nat × Word) := l.erase (pa, len, data)
    let s := modHart s hart (fun k => { k with stores := drop1 k.stores })
    if inCtl pa then .next (pushEvs s [.controlRegisterWrite (pa - pa % len) len data])
    else .next (clearTags (performWrite s whoQuokor pa (leBytes len data.toNat)).2 pa len)

end Sys2Proof.Machine
end

