-- ==== Sys2Proof/Machine/Rv64.lean ====
section
/-! DEFINITION. The instruction words of the control cores beside QENQ and QFENCE (R384): RV64GC with machine, supervisor and
user modes and Sv48, as the RISC-V specifications that R384 cites define them (PRESUMED, log entry 94). What R384 adds stands
here: the physical map, uncached accesses, and the order of accesses. -/

namespace Sys2Proof.Machine

/-! Words -/

/-- v on n bits, sign-extended. -/
def sx (n v : Nat) : Word := (BitVec.ofNat n v).signExtend 64

/-- The immediates of the formats I, S, B, U and J. -/
def immI (w : Nat) : Word := sx 12 (bits 20 12 w)
def immS (w : Nat) : Word := sx 12 (bits 7 5 w + 2 ^ 5 * bits 25 7 w)
def immB (w : Nat) : Word := sx 13 (2 * bits 8 4 w + 2 ^ 5 * bits 25 6 w + 2 ^ 11 * bits 7 1 w + 2 ^ 12 * bits 31 1 w)
def immU (w : Nat) : Word := sx 32 (2 ^ 12 * bits 12 20 w)
def immJ (w : Nat) : Word := sx 21 (2 * bits 21 10 w + 2 ^ 11 * bits 20 1 w + 2 ^ 12 * bits 12 8 w + 2 ^ 20 * bits 31 1 w)

/-- Bytes that a word takes: two where it is compressed. -/
def wordLen (w : Nat) : Nat := if w % 4 = 3 then 4 else 2

/-! Compressed words, each as the word it stands for -/

/-- Words of the formats R, I, S, B and J. -/
def encR (f7 rs2 rs1 f3 rd op : Nat) : Nat := op + 2 ^ 7 * rd + 2 ^ 12 * f3 + 2 ^ 15 * rs1 + 2 ^ 20 * rs2 + 2 ^ 25 * f7
def encI (imm rs1 f3 rd op : Nat) : Nat := op + 2 ^ 7 * rd + 2 ^ 12 * f3 + 2 ^ 15 * rs1 + 2 ^ 20 * (imm % 4096)
def encS (imm rs2 rs1 f3 op : Nat) : Nat := encR (bits 5 7 imm) rs2 rs1 f3 (bits 0 5 imm) op
def encB (imm rs1 f3 : Nat) : Nat := encR (bits 5 6 imm + 64 * bits 12 1 imm) 0 rs1 f3 (bits 11 1 imm + 2 * bits 1 4 imm) 0x63
def encJ (imm rd : Nat) : Nat :=
  0x6F + 2 ^ 7 * rd + 2 ^ 12 * bits 12 8 imm + 2 ^ 20 * bits 11 1 imm + 2 ^ 21 * bits 1 10 imm + 2 ^ 31 * bits 20 1 imm

/-- v of n bits sign-extended to m bits. -/
def widen (n m v : Nat) : Nat := if bits (n - 1) 1 v = 1 then v + 2 ^ m - 2 ^ n else v

/-- Quadrant 0. -/
def expand0 (w : Nat) : Option Nat :=
  let a := 8 + bits 7 3 w
  let b := 8 + bits 2 3 w
  let o4 := 8 * bits 10 3 w + 4 * bits 6 1 w + 64 * bits 5 1 w
  let o8 := 8 * bits 10 3 w + 64 * bits 5 2 w
  let sp := 16 * bits 11 2 w + 64 * bits 7 4 w + 4 * bits 6 1 w + 8 * bits 5 1 w
  match bits 13 3 w with
  | 0 => if sp = 0 then none else some (encI sp 2 0 b 0x13)
  | 1 => some (encI o8 a 3 b 0x07)
  | 2 => some (encI o4 a 2 b 0x03)
  | 3 => some (encI o8 a 3 b 0x03)
  | 5 => some (encS o8 b a 3 0x27)
  | 6 => some (encS o4 b a 2 0x23)
  | 7 => some (encS o8 b a 3 0x23)
  | _ => none

/-- Quadrant 1. -/
def expand1 (w : Nat) : Option Nat :=
  let rd := bits 7 5 w
  let a := 8 + bits 7 3 w
  let b := 8 + bits 2 3 w
  let i := bits 2 5 w + 32 * bits 12 1 w
  let imm := widen 6 12 i
  let sp := 16 * bits 6 1 w + 32 * bits 2 1 w + 64 * bits 5 1 w + 128 * bits 3 2 w + 512 * bits 12 1 w
  let j := 2 * bits 3 3 w + 16 * bits 11 1 w + 32 * bits 2 1 w + 64 * bits 7 1 w + 128 * bits 6 1 w + 256 * bits 9 2 w +
    1024 * bits 8 1 w + 2048 * bits 12 1 w
  let br := 2 * bits 3 2 w + 8 * bits 10 2 w + 32 * bits 2 1 w + 64 * bits 5 2 w + 256 * bits 12 1 w
  match bits 13 3 w with
  | 0 => some (encI imm rd 0 rd 0x13)
  | 1 => if rd = 0 then none else some (encI imm rd 0 rd 0x1B)
  | 2 => some (encI imm 0 0 rd 0x13)
  | 3 =>
    if rd = 2 then (if sp = 0 then none else some (encI (widen 10 12 sp) 2 0 2 0x13))
    else if i = 0 then none else some (0x37 + 2 ^ 7 * rd + 2 ^ 12 * widen 6 20 i)
  | 4 =>
    match bits 10 2 w, bits 12 1 w, bits 5 2 w with
    | 0, _, _ => some (encI i a 5 a 0x13)
    | 1, _, _ => some (encI (1024 + i) a 5 a 0x13)
    | 2, _, _ => some (encI imm a 7 a 0x13)
    | _, 0, 0 => some (encR 32 b a 0 a 0x33)
    | _, 0, 1 => some (encR 0 b a 4 a 0x33)
    | _, 0, 2 => some (encR 0 b a 6 a 0x33)
    | _, 0, _ => some (encR 0 b a 7 a 0x33)
    | _, _, 0 => some (encR 32 b a 0 a 0x3B)
    | _, _, 1 => some (encR 0 b a 0 a 0x3B)
    | _, _, _ => none
  | 5 => some (encJ (widen 12 21 j) 0)
  | 6 => some (encB (widen 9 13 br) a 0)
  | _ => some (encB (widen 9 13 br) a 1)

/-- Quadrant 2. -/
def expand2 (w : Nat) : Option Nat :=
  let rd := bits 7 5 w
  let b := bits 2 5 w
  let o8 := 8 * bits 5 2 w + 32 * bits 12 1 w + 64 * bits 2 3 w
  let o4 := 4 * bits 4 3 w + 32 * bits 12 1 w + 64 * bits 2 2 w
  let s8 := 8 * bits 10 3 w + 64 * bits 7 3 w
  let s4 := 4 * bits 9 4 w + 64 * bits 7 2 w
  match bits 13 3 w with
  | 0 => some (encI (bits 2 5 w + 32 * bits 12 1 w) rd 1 rd 0x13)
  | 1 => some (encI o8 2 3 rd 0x07)
  | 2 => if rd = 0 then none else some (encI o4 2 2 rd 0x03)
  | 3 => if rd = 0 then none else some (encI o8 2 3 rd 0x03)
  | 4 =>
    if bits 12 1 w = 0 then
      (if b ≠ 0 then some (encR 0 b 0 0 rd 0x33) else if rd = 0 then none else some (encI 0 rd 0 0 0x67))
    else if b ≠ 0 then some (encR 0 b rd 0 rd 0x33)
    else if rd = 0 then some 0x00100073 else some (encI 0 rd 0 1 0x67)
  | 5 => some (encS s8 b 2 3 0x27)
  | 6 => some (encS s4 b 2 2 0x23)
  | _ => some (encS s8 b 2 3 0x23)

/-- The 32-bit word that a word stands for; `none` for a reserved compressed word. -/
def expandWord (w : Nat) : Option Nat :=
  match w % 4 with
  | 0 => expand0 w
  | 1 => expand1 w
  | 2 => expand2 w
  | _ => some w

/-! Arithmetic -/

/-- Integer operations by funct3; `alt` is the second form: subtract, arithmetic shift. -/
def rvAlu (f3 : Nat) (alt : Bool) (a b : Word) : Word :=
  let sh := b.toNat % 64
  match f3 with
  | 0 => if alt then a - b else a + b
  | 1 => a <<< sh
  | 2 => if a.toInt < b.toInt then 1 else 0
  | 3 => if a.toNat < b.toNat then 1 else 0
  | 4 => a ^^^ b
  | 5 => if alt then a.sshiftRight sh else a >>> sh
  | 6 => a ||| b
  | _ => a &&& b

/-- The same on 32 bits, sign-extended. -/
def rvAluW (f3 : Nat) (alt : Bool) (a b : Word) : Word :=
  let x : BitVec 32 := a.setWidth 32
  let sh := b.toNat % 32
  (match f3 with
    | 0 => if alt then x - b.setWidth 32 else x + b.setWidth 32
    | 1 => x <<< sh
    | _ => if alt then x.sshiftRight sh else x >>> sh).signExtend 64

/-- Quotient and remainder of n-bit numbers: by zero all ones and the dividend, the overflow wraps. -/
def rvDiv (n : Nat) (signed rem : Bool) (a b : Nat) : Word :=
  let x := asInt n signed a
  let y := asInt n signed b
  let r : Int := if y = 0 then (if rem then x else -1) else if rem then x.tmod y else x.tdiv y
  (BitVec.ofInt n r).signExtend 64

/-- The multiply group by funct3. -/
def rvMul (f3 : Nat) (a b : Word) : Word :=
  let hi (p : Int) : Word := BitVec.ofInt 64 (p / 2 ^ 64)
  match f3 with
  | 0 => a * b
  | 1 => hi (a.toInt * b.toInt)
  | 2 => hi (a.toInt * b.toNat)
  | 3 => hi (a.toNat * b.toNat : Nat)
  | 4 => rvDiv 64 true false a.toNat b.toNat
  | 5 => rvDiv 64 false false a.toNat b.toNat
  | 6 => rvDiv 64 true true a.toNat b.toNat
  | _ => rvDiv 64 false true a.toNat b.toNat

/-- The multiply group on 32 bits, sign-extended. -/
def rvMulW (f3 : Nat) (a b : Word) : Word :=
  let x := a.toNat % 2 ^ 32
  let y := b.toNat % 2 ^ 32
  match f3 with
  | 0 => sx 32 (x * y % 2 ^ 32)
  | 4 => rvDiv 32 true false x y
  | 5 => rvDiv 32 false false x y
  | 6 => rvDiv 32 true true x y
  | _ => rvDiv 32 false true x y

/-- Whether a branch is taken, by funct3. -/
def rvTaken (f3 : Nat) (a b : Word) : Bool :=
  match f3 with
  | 0 => a == b
  | 1 => a != b
  | 4 => decide (a.toInt < b.toInt)
  | 5 => decide (b.toInt ≤ a.toInt)
  | 6 => decide (a.toNat < b.toNat)
  | _ => decide (b.toNat ≤ a.toNat)

/-! Registers -/

/-- Integer register n. -/
def Hart.xAt (k : Hart) (n : Nat) : Word := (k.x[n]?).getD 0

/-- Integer register n written; x0 discards it. -/
def Hart.setX (k : Hart) (n : Nat) (v : Word) : Hart :=
  if h : n < 32 ∧ n ≠ 0 then { k with x := k.x.set n v h.1 } else k

/-- Floating-point register n. -/
def Hart.fAt (k : Hart) (n : Nat) : Word := (k.f[n]?).getD 0

/-- mstatus.FS is Dirty once floating-point state is written. -/
def Hart.dirty (k : Hart) : Hart := { k with mstatus := wset 14 13 k.mstatus 3 }

/-- Floating-point register n written. -/
def Hart.setF (k : Hart) (n : Nat) (v : Word) : Hart :=
  if h : n < 32 then { k with f := k.f.set n v h }.dirty else k

/-- A register of the map. -/
def Hart.csr (k : Hart) (n : Nat) : Word := mgetD 0 n k.csrs

/-- A register of the map written. -/
def Hart.setCsr (k : Hart) (n : Nat) (v : Word) : Hart := { k with csrs := mset 0 n v k.csrs }

/-- A word with the given bits set. -/
def bitMask (l : List Nat) : Word := BitVec.ofNat 64 (l.map (2 ^ ·)).sum

/-- The writable fields of mstatus, and those of them that sstatus shows. -/
def mstatusMask : Word := bitMask [1, 3, 5, 7, 8, 11, 12, 13, 14, 17, 18, 19, 20, 21, 22]
def sstatusMask : Word := bitMask [1, 5, 8, 13, 14, 18, 19]

/-- SD, and the fixed XLEN fields. -/
def statusFixed (k : Hart) (machine : Bool) : Word :=
  (if wf 14 13 k.mstatus = 3 then bitMask [63] else 0) ||| bitMask (if machine then [33, 35] else [33])

/-- misa: RV64 with A, C, D, F, I, M, S and U. -/
def misaValue : Word := bitMask [63, 0, 2, 3, 5, 8, 12, 18, 20]

/-- Registers that are held as written, with their writable bits. -/
def plainCsr : Nat → Option Word
  | 0x106 | 0x306 => some 0xFFFFFFFF
  | 0x10A | 0x30A => some 1
  | 0x140 | 0x340 => some (BitVec.allOnes 64)
  | 0x303 => some 0x222
  | 0x304 => some 0xAAA
  | 0x320 => some 0xFFFFFFFD
  | 0x344 => some 0x222
  | _ => none

/-- Counters, whose values no rule gives. -/
def counterCsr (n : Nat) : Bool :=
  decide (0xC00 ≤ n ∧ n < 0xC20) || decide (0xB00 ≤ n ∧ n < 0xB20 ∧ n ≠ 0xB01) || decide (0x323 ≤ n ∧ n < 0x340)

/-- Registers that read as zero: identification, physical memory protection without entries. -/
def zeroCsr (n : Nat) : Bool := decide (0xF11 ≤ n ∧ n ≤ 0xF13) || n == 0xF15 || decide (0x3A0 ≤ n ∧ n < 0x3F0)

/-- The value of a register of hart h; `none` where there is none. `free` is the value of a counter. -/
def csrRead (k : Hart) (h n : Nat) (free : Word) : Option Word :=
  if (plainCsr n).isSome then some (k.csr n)
  else if counterCsr n then some free
  else if zeroCsr n then some 0
  else match n with
  | 0x001 => some (k.csr 3 &&& 0x1F)
  | 0x002 => some (k.csr 3 >>> 5 &&& 7)
  | 0x003 => some (k.csr 3)
  | 0x100 => some ((k.mstatus &&& sstatusMask) ||| statusFixed k false)
  | 0x104 => some (k.csr 0x304 &&& k.csr 0x303)
  | 0x105 => some k.stvec
  | 0x141 => some k.sepc
  | 0x142 => some k.scause
  | 0x143 => some k.stval
  | 0x144 => some (k.csr 0x344 &&& k.csr 0x303)
  | 0x180 => some (k.csr 0x180)
  | 0x300 => some (k.mstatus ||| statusFixed k true)
  | 0x301 => some misaValue
  | 0x302 => some k.medeleg
  | 0x305 => some k.mtvec
  | 0x341 => some k.mepc
  | 0x342 => some k.mcause
  | 0x343 => some k.mtval
  | 0xF14 => some (BitVec.ofNat 64 h)
  | _ => none

/-- mstatus with the masked bits written; MPP keeps a legal mode. -/
def putStatus (k : Hart) (v m : Word) : Hart :=
  let x := (k.mstatus &&& ~~~m) ||| (v &&& m)
  { k with mstatus := if wf 12 11 x = 2 then wset 12 11 x (wf 12 11 k.mstatus) else x }

/-- A register written. -/
def csrWrite (k : Hart) (n : Nat) (v : Word) : Hart :=
  let under (old m : Word) : Word := (old &&& ~~~m) ||| (v &&& m)
  match plainCsr n with
  | some m => k.setCsr n (v &&& m)
  | none =>
    match n with
    | 0x001 => (k.setCsr 3 (under (k.csr 3) 0x1F)).dirty
    | 0x002 => (k.setCsr 3 ((k.csr 3 &&& 0x1F) ||| ((v &&& 7) <<< 5))).dirty
    | 0x003 => (k.setCsr 3 (v &&& 0xFF)).dirty
    | 0x100 => putStatus k v sstatusMask
    | 0x104 => k.setCsr 0x304 (under (k.csr 0x304) (k.csr 0x303))
    | 0x105 => { k with stvec := v &&& ~~~(2#64) }
    | 0x141 => { k with sepc := v &&& ~~~(1#64) }
    | 0x142 => { k with scause := v }
    | 0x143 => { k with stval := v }
    | 0x144 => k.setCsr 0x344 (under (k.csr 0x344) (k.csr 0x303 &&& 2))
    | 0x180 => if wf 63 60 v = 0 || wf 63 60 v = 8 + 1 then k.setCsr 0x180 v else k
    | 0x300 => putStatus k v mstatusMask
    | 0x302 => { k with medeleg := v &&& 0xB3FF }
    | 0x305 => { k with mtvec := v &&& ~~~(2#64) }
    | 0x341 => { k with mepc := v &&& ~~~(1#64) }
    | 0x342 => { k with mcause := v }
    | 0x343 => { k with mtval := v }
    | _ => k

/-- Whether a register may be read in the present mode, and, where `wr`, written. -/
def csrAllowed (k : Hart) (n : Nat) (wr : Bool) : Bool :=
  decide (bits 8 2 n ≤ k.mode) && !(wr && bits 10 2 n == 3) &&
  !(n == 0x180 && k.mode == 1 && k.mstatus.getLsbD 20) && !(decide (1 ≤ n ∧ n ≤ 3) && wf 14 13 k.mstatus == 0) &&
  !(bits 8 4 n == 0xC && ((decide (k.mode < 3) && !(k.csr 0x306).getLsbD (n % 32)) || (k.mode == 0 && !(k.csr 0x106).getLsbD (n % 32))))

/-! Traps -/

/-- An exception is taken: to supervisor mode when delegated from a lower mode, else to machine mode. -/
def hartTrap (k : Hart) (cause : Nat) (tval : Word) : Hart :=
  let c : Word := BitVec.ofNat 64 cause
  if k.medeleg.getLsbD cause ∧ k.mode < 3 then
    { k with sepc := k.pc, scause := c, stval := tval, mstatus := trapStatus k false, mode := 1, pc := k.stvec &&& ~~~(3#64),
             waits := false }
  else
    { k with mepc := k.pc, mcause := c, mtval := tval, mstatus := trapStatus k true, mode := 3, pc := k.mtvec &&& ~~~(3#64),
             waits := false }

/-- mstatus after a return to a mode: the interrupt enable from its saved bit, the saved mode user. -/
def returnStatus (k : Hart) (machine : Bool) (mode : Nat) : Word :=
  let m := if machine then wset 12 11 (wset 7 7 (wset 3 3 k.mstatus (wf 7 7 k.mstatus)) 1) 0
    else wset 8 8 (wset 5 5 (wset 1 1 k.mstatus (wf 5 5 k.mstatus)) 1) 0
  if mode = 3 then m else wset 17 17 m 0

/-- MRET and SRET. -/
def hartReturn (k : Hart) (machine : Bool) : Hart :=
  let mode := if machine then wf 12 11 k.mstatus else wf 8 8 k.mstatus
  { k with mstatus := returnStatus k machine mode, mode := mode, pc := if machine then k.mepc else k.sepc }

/-! Accesses -/

/-- What an access comes to: a value, an exception, or a wait for HBM (R82, R84). -/
inductive HGot (α : Type) where
  | ok (a : α)
  | trap (cause : Nat) (tval : Word)
  | hold
  deriving DecidableEq, Repr

/-- The kinds of access: fetch, load, store; their access faults and page faults. -/
def accessFault (acc : Nat) : Nat := if acc = 0 then 1 else if acc = 1 then 5 else 7
def pageFault (acc : Nat) : Nat := if acc = 0 then 12 else if acc = 1 then 13 else 15

/-- Whether a physical address names a target of the device physical map (R384); what lies above is no part of the device, and
its contents are free values. -/
def deviceSide (pa : Nat) : Bool := decide (pa < 2 ^ 52)

/-- n bytes read now at a physical address (R17, R82, R84). -/
def hartRead (s : State) (acc pa n : Nat) (va : Word) : HGot (List Byte) × State :=
  if !deviceSide pa then
    let (k, s) := takeFree s
    (.ok ((List.range n).map (fun i => Config.outerByte k (pa + i))), s)
  else if inHbm pa && (inWindow s || holding s) then (.hold, s)
  else
    let (g, s) := readAny s whoQuokor pa n
    (if g.err.isSome then .trap (accessFault acc) va else .ok g.bytes, s)

/-- Whether an entry is malformed: not valid, writable without being readable, a reserved bit set. -/
def pteBad (p : Nat) : Bool := bits 0 1 p == 0 || bits 1 2 p == 2 || bits 54 10 p != 0

/-- Whether a leaf allows an access in a mode; A, and D for a store, are to be set. -/
def pteAllows (k : Hart) (mode acc p : Nat) : Bool :=
  let on (i : Nat) : Bool := bits i 1 p == 1
  (match acc with
    | 0 => on 3
    | 1 => on 1 || (k.mstatus.getLsbD 19 && on 3)
    | _ => on 2) &&
  (if mode = 0 then on 4 else !on 4 || (acc != 0 && k.mstatus.getLsbD 18)) && on 6 && (acc != 2 || on 7)

/-- The walk of Sv48 from a table of level n - 1. -/
def walkSv (k : Hart) (mode acc : Nat) (va : Word) : Nat → Nat → State → HGot Nat × State
  | 0, _, s => (.trap (pageFault acc) va, s)
  | n + 1, base, s =>
    match hartRead s acc (base + 8 * bits (12 + 9 * n) 9 va.toNat) 8 va with
    | (.trap c v, s) => (.trap c v, s)
    | (.hold, s) => (.hold, s)
    | (.ok bs, s) =>
      let p := leNat bs
      let next := 4096 * bits 10 44 p
      let size := 2 ^ (12 + 9 * n)
      if pteBad p then (.trap (pageFault acc) va, s)
      else if bits 1 3 p = 0 then walkSv k mode acc va n next s
      else if pteAllows k mode acc p && next % size == 0 then (.ok (next + va.toNat % size), s)
      else (.trap (pageFault acc) va, s)

/-- The physical address of an access. -/
def hartPlace (s : State) (k : Hart) (acc : Nat) (va : Word) : HGot Nat × State :=
  let mode := if acc ≠ 0 ∧ k.mode = 3 ∧ k.mstatus.getLsbD 17 then wf 12 11 k.mstatus else k.mode
  let satp := k.csr 0x180
  if mode = 3 || wf 63 60 satp = 0 then (.ok va.toNat, s)
  else if sx 48 (va.toNat % 2 ^ 48) ≠ va then (.trap (pageFault acc) va, s)
  else walkSv k mode acc va 4 (4096 * wf 43 0 satp) s

/-- Two parcels of an instruction word; no word is fetched from control-register space. -/
def hartParcel (s : State) (k : Hart) (pc : Word) : HGot Nat × State :=
  match hartPlace s k 0 pc with
  | (.trap c v, s) => (.trap c v, s)
  | (.hold, s) => (.hold, s)
  | (.ok pa, s) =>
    if deviceSide pa && inCtl pa then (.trap 1 pc, s)
    else match hartRead s 0 pa 2 pc with
      | (.ok bs, s) => (.ok (leNat bs), s)
      | (.trap c v, s) => (.trap c v, s)
      | (.hold, s) => (.hold, s)

/-- The word at the hart's pc. -/
def hartFetch (s : State) (k : Hart) : HGot Nat × State :=
  match hartParcel s k k.pc with
  | (.ok a, s) =>
    if a % 4 ≠ 3 then (.ok a, s)
    else match hartParcel s k (k.pc + 2) with
      | (.ok b, s) => (.ok (a + 2 ^ 16 * b), s)
      | x => x
  | x => x

/-- Whether an access of the hart to one of these bytes is still to be performed: the next waits for it (R384). -/
def overlapping (k : Hart) (pa n : Nat) : Bool :=
  k.stores.any (fun x => decide (x.1 < pa + n ∧ pa < x.1 + x.2.1)) || k.loads.any (fun x => decide (x.pa < pa + n ∧ pa < x.pa + x.len))

/-- Whether a register that a word names may still be the destination of a load. -/
def awaited (k : Hart) (w : Nat) : Bool :=
  k.loads.any (fun x => [bits 7 5 w, bits 15 5 w, bits 20 5 w, bits 27 5 w].contains x.rd && (x.fp || x.rd != 0))

/-- The value that n bytes give a register. -/
def loadValue (len : Nat) (signed fp : Bool) (bs : List Byte) : Word :=
  let v := leNat bs
  if fp then (if len = 4 then BitVec.ofNat 64 (v + (2 ^ 64 - 2 ^ 32)) else BitVec.ofNat 64 v)
  else if signed then sx (8 * len) v else BitVec.ofNat 64 v

/-- A register of either file written by a load. -/
def Hart.land (k : Hart) (x : HartLoad) (bs : List Byte) : Hart :=
  let v := loadValue x.len x.signed x.fp bs
  if x.fp then k.setF x.rd v else k.setX x.rd v

/-! Instructions -/

/-- What an instruction comes to. -/
inductive HRes where
  | next (k : Hart)
  | trap (cause : Nat) (tval : Word)
  | hold
  deriving DecidableEq, Repr

/-- The address that an access of len bytes reaches: misaligned accesses raise their exception. -/
def hartAddr (s : State) (k : Hart) (acc len : Nat) (va : Word) : HGot Nat × State :=
  if va.toNat % len ≠ 0 then (.trap (if acc = 1 then 4 else 6) va, s)
  else match hartPlace s k acc va with
    | (.ok pa, s) => (if overlapping k pa len then .hold else .ok pa, s)
    | x => x

/-- Whether a target answers an access at all (R17). -/
def answers (s : State) (pa n : Nat) : Bool :=
  if inCtl pa then (ctlHole s pa n).isNone else (spanError s pa n).isNone

/-- A load (R384): issued, to be performed at a time of its own; one outside the device, or without a target, at once. -/
def hartLoad (s : State) (k : Hart) (len : Nat) (signed fp : Bool) (rd : Nat) (va : Word) : HRes × State :=
  match hartAddr s k 1 len va with
  | (.trap c v, s) => (.trap c v, s)
  | (.hold, s) => (.hold, s)
  | (.ok pa, s) =>
    let x : HartLoad := ⟨rd, fp, pa, len, signed⟩
    if deviceSide pa && answers s pa len then (.next { k with loads := k.loads ++ [x] }, s)
    else match hartRead s 1 pa len va with
      | (.ok bs, s) => (.next (k.land x bs), s)
      | (.trap c v, s) => (.trap c v, s)
      | (.hold, s) => (.hold, s)

/-- A store (R384): issued, to be performed at a time of its own. -/
def hartStore (s : State) (h : Nat) (k : Hart) (len : Nat) (va v : Word) : HRes × State :=
  match hartAddr s k 2 len va with
  | (.trap c t, s) => (.trap c t, s)
  | (.hold, s) => (.hold, s)
  | (.ok pa, s) =>
    if !deviceSide pa then (.next k, s)
    else
      let d : Word := BitVec.ofNat 64 (v.toNat % 2 ^ (8 * len))
      let (n, s) := takeFree s
      (.next { k with stores := k.stores ++ [(pa, len, d)] }, schedule s (1 + Config.delay n) (.quokorStore h pa len d))

/-- The operation of R254 that an AMO's funct5 names. -/
def amoCode : Nat → Option Nat
  | 0x00 => some 0
  | 0x01 => some 1
  | 0x04 => some 5
  | 0x08 => some 4
  | 0x0C => some 3
  | 0x10 => some 6
  | 0x14 => some 8
  | 0x18 => some 7
  | 0x1C => some 9
  | _ => none

/-- LR, SC and the AMOs, performed at once; a release after every earlier access of the hart. SC may fail by a free value. Control
registers take none of them. -/
def hartAtomic (s : State) (k : Hart) (w : Nat) : HRes × State :=
  let len := if bits 12 3 w = 2 then 4 else 8
  let f5 := bits 27 5 w
  let acc := if f5 = 2 then 1 else 2
  let rd := bits 7 5 w
  let va := k.xAt (bits 15 5 w)
  let b := k.xAt (bits 20 5 w)
  let give (k : Hart) (v : Nat) : Hart := k.setX rd (sx (8 * len) v)
  if bits 25 1 w = 1 && !(k.stores.isEmpty && k.loads.isEmpty) then (.hold, s)
  else match hartAddr s k acc len va with
    | (.trap c v, s) => (.trap c v, s)
    | (.hold, s) => (.hold, s)
    | (.ok pa, s) =>
      if deviceSide pa && inCtl pa then (.trap (accessFault acc) va, s)
      else match hartRead s acc pa len va with
        | (.trap c v, s) => (.trap c v, s)
        | (.hold, s) => (.hold, s)
        | (.ok bs, s) =>
          let old := leNat bs
          let put (s : State) (v : Nat) : State :=
            if deviceSide pa then clearTags (performWrite s whoQuokor pa (leBytes len v)).2 pa len else s
          match f5, amoCode f5 with
          | 0x02, _ => (.next { give k old with resv := some (pa, len, old) }, s)
          | 0x03, _ =>
            let (n, s) := takeFree s
            if k.resv == some (pa, len, old) && !Config.scFails n then
              (.next { k.setX rd 0 with resv := none }, put s (b.toNat % 2 ^ (8 * len)))
            else (.next { k.setX rd 1 with resv := none }, s)
          | _, some aop =>
            (.next (give k old), put s (atomNew aop len (BitVec.ofNat 64 old) b 0).toNat)
          | _, none => (.trap 2 (k.word.setWidth 64), s)

/-- Zicsr. -/
def hartCsr (s : State) (h : Nat) (k : Hart) (w : Nat) : HRes × State :=
  let n := bits 20 12 w
  let f := bits 12 2 w
  let src := bits 15 5 w
  let wr := f = 1 || src ≠ 0
  let (q, s) := takeFree s
  match csrRead k h n (Config.outerWord q) with
  | some old =>
    if !csrAllowed k n wr then (.trap 2 (k.word.setWidth 64), s)
    else
      let a : Word := if bits 14 1 w = 1 then BitVec.ofNat 64 src else k.xAt src
      let v := if f = 1 then a else if f = 2 then old ||| a else old &&& ~~~a
      (.next ((if wr then csrWrite k n v else k).setX (bits 7 5 w) old), s)
  | none => (.trap 2 (k.word.setWidth 64), s)

/-- ECALL, EBREAK, the returns, WFI, which may end at once, and SFENCE.VMA, where no translation is held. -/
def hartSystem (k : Hart) (w : Nat) : HRes :=
  let illegal : HRes := .trap 2 (k.word.setWidth 64)
  let bit (i : Nat) : Bool := k.mstatus.getLsbD i
  if w = 0x00000073 then .trap (8 + k.mode) 0
  else if w = 0x00100073 then .trap 3 k.pc
  else if w = 0x30200073 then (if k.mode = 3 then .next (hartReturn k true) else illegal)
  else if w = 0x10200073 then (if k.mode = 0 || (k.mode = 1 && bit 22) then illegal else .next (hartReturn k false))
  else if w = 0x10500073 then (if k.mode = 0 || (k.mode = 1 && bit 21) then illegal else .next k)
  else if bits 25 7 w = 9 && bits 7 5 w = 0 then (if k.mode = 0 || (k.mode = 1 && bit 20) then illegal else .next k)
  else illegal

/-- Whether a floating-point word of format `fmt` is one of the F and D extensions, and whether its result is an integer. -/
def fpForm (w : Nat) : Option Bool :=
  let rm := bits 12 3 w
  let rs2 := bits 20 5 w
  let fmt := bits 25 2 w
  if 2 ≤ fmt then none
  else match bits 27 5 w with
    | 0x00 | 0x01 | 0x02 | 0x03 => some false
    | 0x04 => if rm < 3 then some false else none
    | 0x05 => if rm < 2 then some false else none
    | 0x08 => if rs2 + fmt = 1 then some false else none
    | 0x0B => if rs2 = 0 then some false else none
    | 0x14 => if rm < 3 then some true else none
    | 0x18 => if rs2 < 4 then some true else none
    | 0x1A => if rs2 < 4 then some false else none
    | 0x1C => if rs2 = 0 ∧ rm < 2 then some true else none
    | 0x1E => if rs2 = 0 ∧ rm = 0 then some false else none
    | _ => none

/-- Whether the rounding mode of a word that has one is legal. -/
def roundingOk (k : Hart) (w : Nat) : Bool :=
  match bits 12 3 w with
  | 5 | 6 => false
  | 7 => decide (wf 7 5 (k.csr 3) < 5)
  | _ => true

/-- A single within a register, boxed. -/
def boxed (v : Nat) : Word := BitVec.ofNat 64 (v % 2 ^ 32 + (2 ^ 64 - 2 ^ 32))

/-- The single in a register: the canonical quiet one where it is not boxed. -/
def unboxed (v : Word) : Nat := if v.toNat / 2 ^ 32 = 2 ^ 32 - 1 then v.toNat % 2 ^ 32 else 0x7FC00000

/-- Sign injection on n bits. -/
def signInject (rm n a b : Nat) : Nat :=
  let sb := bits (n - 1) 1 b
  let sg := match rm with
    | 0 => sb
    | 1 => 1 - sb
    | _ => (bits (n - 1) 1 a + sb) % 2
  a % 2 ^ (n - 1) + 2 ^ (n - 1) * sg

/-- OP-FP: moves and sign injection as they are; the result and the flags of the rest are those of IEEE 754, an uninterpreted
function here (log entry 94). -/
def hartFp (k : Hart) (w : Nat) : HRes :=
  let rd := bits 7 5 w
  let fa := k.fAt (bits 15 5 w)
  let fb := k.fAt (bits 20 5 w)
  let double := bits 25 2 w == 1
  let f5 := bits 27 5 w
  let rm := bits 12 3 w
  match fpForm w with
  | none => .trap 2 (k.word.setWidth 64)
  | some toInt =>
    if f5 = 0x04 then
      .next (k.setF rd (if double then BitVec.ofNat 64 (signInject rm 64 fa.toNat fb.toNat)
        else boxed (signInject rm 32 (unboxed fa) (unboxed fb))))
    else if f5 = 0x1C ∧ rm = 0 then .next (k.setX rd (if double then fa else sx 32 (fa.toNat % 2 ^ 32)))
    else if f5 = 0x1E then
      .next (k.setF rd (let v := k.xAt (bits 15 5 w); if double then v else boxed v.toNat))
    else if ([0x00, 0x01, 0x02, 0x03, 0x08, 0x0B, 0x18, 0x1A].contains f5) && !roundingOk k w then .trap 2 (k.word.setWidth 64)
    else
      let a := if f5 = 0x1A then k.xAt (bits 15 5 w) else fa
      let r := Config.ieee (bits 12 20 w) (wf 7 5 (k.csr 3)) a fb 0
      let k := (k.setCsr 3 (k.csr 3 ||| r.2.setWidth 64)).dirty
      .next (if toInt then k.setX rd r.1 else k.setF rd (if double then r.1 else boxed r.1.toNat))

/-- The fused multiply-adds. -/
def hartFma (k : Hart) (w : Nat) : HRes :=
  if 2 ≤ bits 25 2 w || !roundingOk k w then .trap 2 (k.word.setWidth 64)
  else
    let r := Config.ieee (bits 0 7 w + 2 ^ 20 * (1 + bits 25 2 w) + 2 ^ 24 * bits 12 3 w) (wf 7 5 (k.csr 3)) (k.fAt (bits 15 5 w))
      (k.fAt (bits 20 5 w)) (k.fAt (bits 27 5 w))
    let k := (k.setCsr 3 (k.csr 3 ||| r.2.setWidth 64)).dirty
    .next (k.setF (bits 7 5 w) (if bits 25 2 w = 1 then r.1 else boxed r.1.toNat))

/-- An integer operation with an immediate. -/
def hartOpImm (k : Hart) (w : Nat) : Option Word :=
  let a := k.xAt (bits 15 5 w)
  let f3 := bits 12 3 w
  let top := bits 26 6 w
  match f3 with
  | 1 => if top = 0 then some (rvAlu 1 false a (immI w)) else none
  | 5 => if top = 0 || top = 16 then some (rvAlu 5 (top == 16) a (immI w)) else none
  | _ => some (rvAlu f3 false a (immI w))

/-- The same on 32 bits. -/
def hartOpImmW (k : Hart) (w : Nat) : Option Word :=
  let a := k.xAt (bits 15 5 w)
  let f7 := bits 25 7 w
  match bits 12 3 w with
  | 0 => some (rvAluW 0 false a (immI w))
  | 1 => if f7 = 0 then some (rvAluW 1 false a (immI w)) else none
  | 5 => if f7 = 0 || f7 = 32 then some (rvAluW 5 (f7 == 32) a (immI w)) else none
  | _ => none

/-- An integer operation on two registers. -/
def hartOp (k : Hart) (w : Nat) : Option Word :=
  let a := k.xAt (bits 15 5 w)
  let b := k.xAt (bits 20 5 w)
  let f3 := bits 12 3 w
  match bits 25 7 w with
  | 0 => some (rvAlu f3 false a b)
  | 1 => some (rvMul f3 a b)
  | 32 => if f3 = 0 || f3 = 5 then some (rvAlu f3 true a b) else none
  | _ => none

/-- The same on 32 bits. -/
def hartOpW (k : Hart) (w : Nat) : Option Word :=
  let a := k.xAt (bits 15 5 w)
  let b := k.xAt (bits 20 5 w)
  let f3 := bits 12 3 w
  match bits 25 7 w with
  | 0 => if f3 = 0 || f3 = 1 || f3 = 5 then some (rvAluW f3 false a b) else none
  | 1 => if f3 = 0 || 4 ≤ f3 then some (rvMulW f3 a b) else none
  | 32 => if f3 = 0 || f3 = 5 then some (rvAluW f3 true a b) else none
  | _ => none

/-- An instruction of 32 bits on hart h: `w` is the word, `k` the hart with its pc at the next instruction, but for exceptions. -/
def rvExec (s : State) (h : Nat) (k0 : Hart) (w : Nat) : HRes × State :=
  let len := BitVec.ofNat 64 (wordLen k0.word.toNat)
  let k := { k0 with pc := k0.pc + len }
  let rd := bits 7 5 w
  let f3 := bits 12 3 w
  let a := k.xAt (bits 15 5 w)
  let b := k.xAt (bits 20 5 w)
  let illegal : HRes := .trap 2 (k.word.setWidth 64)
  let give (v : Option Word) : HRes := match v with
    | some v => .next (k.setX rd v)
    | none => illegal
  let fpOn := wf 14 13 k.mstatus != 0
  match w % 128 with
  | 0x37 => (.next (k.setX rd (immU w)), s)
  | 0x17 => (.next (k.setX rd (k0.pc + immU w)), s)
  | 0x6F => (.next { k.setX rd k.pc with pc := k0.pc + immJ w }, s)
  | 0x67 => (if f3 = 0 then .next { k.setX rd k.pc with pc := (a + immI w) &&& ~~~(1#64) } else illegal, s)
  | 0x63 =>
    (if f3 = 2 || f3 = 3 then illegal else .next (if rvTaken f3 a b then { k with pc := k0.pc + immB w } else k), s)
  | 0x03 => if f3 = 7 then (illegal, s) else hartLoad s k (2 ^ (f3 % 4)) (decide (f3 < 4)) false rd (a + immI w)
  | 0x23 => if 4 ≤ f3 then (illegal, s) else hartStore s h k (2 ^ f3) (a + immS w) b
  | 0x13 => (give (hartOpImm k w), s)
  | 0x1B => (give (hartOpImmW k w), s)
  | 0x33 => (give (hartOp k w), s)
  | 0x3B => (give (hartOpW k w), s)
  -- FENCE orders nothing here (R384), and FENCE.I finds no instruction cache
  | 0x0F => (if f3 < 2 then .next k else illegal, s)
  | 0x73 => if f3 % 4 ≠ 0 then hartCsr s h k w
    else (match hartSystem { k0 with word := k0.word } w with
      | .next x => if x.pc = k0.pc then .next { x with pc := if w = 0x30200073 || w = 0x10200073 then x.pc else k.pc } else .next x
      | x => x, s)
  | 0x2F =>
    if (f3 = 2 || f3 = 3) && (bits 27 5 w != 2 || bits 20 5 w == 0) && ((amoCode (bits 27 5 w)).isSome || bits 27 5 w == 2 || bits 27 5 w == 3)
    then hartAtomic s k w else (illegal, s)
  | 0x07 => if fpOn && (f3 = 2 || f3 = 3) then hartLoad s k (2 ^ f3) false true rd (a + immI w) else (illegal, s)
  | 0x27 =>
    if fpOn && (f3 = 2 || f3 = 3) then hartStore s h k (2 ^ f3) (a + immS w) (k.fAt (bits 20 5 w)) else (illegal, s)
  | 0x43 | 0x47 | 0x4B | 0x4F => (if fpOn then hartFma k w else illegal, s)
  | 0x53 => (if fpOn then hartFp k w else illegal, s)
  | _ => (illegal, s)

/-- Perform hart h's word, which is not one of the extension's (R384, R385): it waits while a register it names is the destination
of a load under way. -/
def hartStep (s : State) (h : Nat) (k : Hart) : State :=
  let w := k.word.toNat
  match expandWord w with
  | none => modHart s h hartIllegal
  | some v =>
    if awaited k v then modHart s h (fun k => { k with waits := true })
    else match rvExec s h k v with
      | (.next k', s) => modHart s h (fun _ => { k' with waits := false })
      | (.trap c t, s) => modHart s h (fun k => hartTrap k c t)
      | (.hold, s) => modHart s h (fun k => { k with waits := true })

/-- Fetch hart h's next word; `none` where an exception is taken instead, or HBM is held. -/
def hartNext (s : State) (h : Nat) (k : Hart) : State × Bool :=
  match hartFetch s k with
  | (.ok w, s) => (modHart s h (fun k => { k with word := BitVec.ofNat 32 w }), true)
  | (.trap c t, s) => (modHart s h (fun k => hartTrap k c t), false)
  | (.hold, s) => (s, false)

/-- One of hart h's loads under way, which a free value names, is performed (R384); one that meets an error response gives a free
value (log entry 94). -/
def hartPerform (s : State) (h : Nat) (k : Hart) : State :=
  let (n, s) := takeFree s
  let i := Config.outerByte n h |>.toNat
  match k.loads[i % k.loads.length]? with
  | none => s
  | some x =>
    if inHbm x.pa && (inWindow s || holding s) then s
    else
      let (g, s) := readAny s whoQuokor x.pa x.len
      let bs := if g.err.isSome then (List.range x.len).map (Config.outerByte n) else g.bytes
      modHart s h (fun k => { k.land x bs with loads := k.loads.erase x })

/-- What the harts do in a cycle, at a pace that is a free value: a word that waited is presented again; a load is performed; a
hart that runs goes on. From the boot on hart 0 runs, and firmware brings up the others (R391). -/
def hartCycle (s : State) : List Todo × State :=
  if s.plat.boot ≠ 1 ∧ s.plat.boot ≠ 2 then
    (((List.range 16).zip s.harts.toList).filterMap (fun x => if x.2.waits then some (Todo.quokor x.1) else none), s)
  else
    let (n, s) := takeFree s
    let pace (h i : Nat) : Bool := (Config.outerByte n h).getLsbD i
    let s := { s with harts := Vector.ofFn (fun h : Fin 16 =>
      let k := s.harts[h]
      if s.plat.boot = 1 && pace h.val 0 then { k with up := true } else k) }
    (((List.range 16).zip s.harts.toList).flatMap (fun x =>
      (if !x.2.loads.isEmpty && pace x.1 1 then [Todo.hartLoad x.1] else []) ++
      (if x.2.waits then [Todo.quokor x.1] else if x.2.up && pace x.1 2 then [Todo.hart x.1] else [])), s)

end Sys2Proof.Machine
end

