-- ==== Sys2Proof/Machine/HbmCmd.lean ====
section
/-! DEFINITION. HBM commands (R69 to R71), pseudo-channel drop and rehash (R79 to R82), the error interval (R78), and the
scrubber of the slices (R49). -/

namespace Sys2Proof.Machine

/-- Change the HBM block. -/
def modHbm (s : State) (f : Hbm → Hbm) : State := { s with hbm := f s.hbm }

/-- A command written to HBM_CMD (R70): ignored, with OVF, while BUSY = 1; refused with a code; or performed. -/
def hbmCmd (s : State) (refused : Option Nat) (f : State → State) : Out :=
  if s.hbm.busy then .next (modHbm s (fun h => { h with ovf := true }))
  else match refused with
    | some e => .next (modHbm s (fun h => { h with err := e }))
    | none => .next (f (modHbm s (fun h => { h with err := 0 })))

/-- Whether frame f is live. -/
def frameLive (s : State) (f : Nat) : Bool := (mgetD (false, false) f s.hbm.frames).1

/-- MAKELIVE (R70): the zero-fill takes at most 2,048 cycles outside dredge windows; COMP is stored as 0 unless the
feature is accepted (R392). -/
def execMakelive (arg : BitVec 24) (comp : Bool) (s : State) : Out :=
  let f := arg.toNat
  let no := if nlive s * 12288 ≤ f then some 2 else if frameLive s f then some 3 else none
  hbmCmd s no (fun s =>
    let (n, s) := takeFree s
    schedule (modHbm s (fun h => { h with busy := true, making := some (f, comp && s.plat.accept.getLsbD 4) })) (1 + Config.delay n % 2048) .makeliveComplete)

/-- MAKELIVE_COMPLETE (R70): the frame reads as zeros and is live. A zero-fill that a dredge window interrupts is complete at
the window's close (log entry 88). -/
def execMakeliveComplete (s : State) : Out :=
  match s.hbm.making with
  | none => .next s
  | some (f, comp) =>
    if inWindow s then .next (schedule s 1 .makeliveComplete)
    else
      let out (b : Nat) : Bool := decide (b < 2048 * f ∨ 2048 * (f + 1) ≤ b)
      let s := { s with mem := memClear s.mem (hbmBase + 65536 * f) (hbmBase + 65536 * (f + 1)) }
      .next (modHbm s (fun h => { h with
        busy := false, making := none, frames := mput f (true, comp) h.frames, badBursts := h.badBursts.filter out,
        weakBursts := h.weakBursts.filter out, codes := h.codes.filter (fun c => out (4 * c.1)) }))

/-- MAKEDEAD (R70). -/
def execMakedead (arg : BitVec 24) (s : State) : Out :=
  let f := arg.toNat
  let no := if nlive s * 12288 ≤ f then some 2 else if frameLive s f then none else some 3
  hbmCmd s no (fun s => modHbm s (fun h => { h with frames := mput f (false, (mgetD (false, false) f h.frames).2) h.frames }))

/-- SETSCHEME (R70). -/
def execSetscheme (arg : BitVec 24) (il : BitVec 3) (s : State) : Out :=
  let r := arg.toNat
  let n := nlive s
  let live := s.hbm.frames.any (fun f => f.2.1 && f.1 / max 1 n == r)
  let no := if 12288 ≤ r then some 2 else if live then some 3 else none
  hbmCmd s no (fun s => modHbm s (fun h => { h with schemes := mset 0 r il.toNat h.schemes }))

/-! Drop and rehash (R79) -/

/-- Ask every running thread for its pre-emption; a handler is left alone (R79 step 1). -/
def holdThreads (s : State) : State :=
  { s with cores := s.cores.map (fun k => (k.1, { k.2 with thread := k.2.thread.map (fun t =>
      if t.handler then t else { t with preempt := true }) })) }

/-- The hold begins; cores are looked at again every cycle. -/
def beginHold (s : State) (g : Nat) : State :=
  schedule (holdThreads (modHbm s (fun h => { h with busy := true, drop := some (g, 1), toRestore := [] }))) 1 .dropHoldDone

/-- DROP (R70, R79). -/
def execDrop (arg : BitVec 24) (s : State) : Out :=
  let g := arg.toNat
  let high := s.hbm.frames.any (fun f => f.2.1 && decide ((nlive s - 1) * 12288 ≤ f.1))
  let no := if !(liveList s).contains g ∨ nlive s = 1 then some 2 else if high then some 4 else none
  hbmCmd s no (fun s => beginHold s g)

/-- REHASH (R70, R79). -/
def execRehash (s : State) : Out := hbmCmd s none (fun s => beginHold s 0x3FF)

/-- The drop's step, with the pseudo-channel it takes. -/
def dropAt (s : State) (step : Nat) : Option Nat :=
  match s.hbm.drop with
  | some (g, k) => if k = step then some g else none
  | none => none

/-- DROP_HOLD_DONE (R79): when no core runs a thread the drain begins; until then every thread is asked again. -/
def execDropHoldDone (s : State) : Out :=
  match dropAt s 1 with
  | none => .next s
  | some g =>
    if s.cores.all (fun k => k.2.thread.isNone) then
      .next (schedule (modHbm s (fun h => { h with drop := some (g, 2) })) 1 .dropDrainDone)
    else .next (schedule (holdThreads s) 1 .dropHoldDone)

/-- Whether every engine timeline has reached its last queued operation (R79 step 2). -/
def allDrained (s : State) : Bool :=
  s.engines.all (fun e => drained e.2 && decide (e.2.last ≤ e.2.tl)) &&
  s.colls.all (fun c => c.2.ops.isEmpty) && s.cores.all (fun k => k.2.probe.queue.isEmpty && k.2.probe.owing.isEmpty)

/-- DROP_DRAIN_DONE (R79, R82): the rebuild begins, with the masks as they stand. Its length is a free value: the spec
gives the bytes it moves, not a cycle count. -/
def execDropDrainDone (s : State) : Out :=
  match dropAt s 2 with
  | none => .next s
  | some g =>
    if allDrained s then
      let (n, s) := takeFree s
      let h := s.hbm
      .next (schedule { s with hbm := { h with drop := some (g, 3), dropMasks := some (h.maskStack, h.maskCh, h.maskPc) } }
        (1 + Config.delay n) .dropRebuildDone)
    else .next (schedule s 1 .dropDrainDone)

/-- The units of live frames in which the rebuild finds something to correct, to encode anew, or not to be decoded: bytes of
a unit and its number (R75, R78, R80). -/
def marredUnits (s : State) : List (Nat × Nat) :=
  let coded : List Nat := s.hbm.codes.map (fun c => 4 * c.1)
  let unit (b : Nat) : Option (Nat × Nat) := match frameOf s (32 * b) with
    | (true, true) => some (128, b / 4)
    | (true, false) => some (32, b)
    | _ => none
  ((s.hbm.weakBursts ++ s.hbm.badBursts ++ coded).filterMap unit).dedup

/-- The bursts of a unit that the rebuild cannot read (R80): every burst of an undecodable block, or the bad burst alone. -/
def lostBursts (s : State) (x : Nat × Nat) : List Nat :=
  if (unitBad s x.1 x.2).isNone then []
  else if x.1 = 128 then (List.range 4).map (fun i => 4 * x.2 + i)
  else [x.2]

/-- A lost burst: zeros, LOSTCNT, an HBMLOST entry (R80, R395). -/
def loseBurst (s : State) (b : Nat) : State :=
  let a := hbmBase + 32 * b
  let s := modHbm { s with mem := memClear s.mem a (a + 32) } (fun h => { h with
    lost := satInc 16 h.lost, badBursts := h.badBursts.filter (· ≠ b), codes := mdel (b / 4) h.codes })
  logEvent s 0 0x24 0 0 0 (BitVec.ofNat 64 a)

/-- The rebuild reads every live frame under the old layout and writes it under the new one (R78 to R80): what its reads
correct or cannot read is counted and reported, lost bursts are zeros, and every burst written is encoded anew. -/
def rebuild (s : State) : State :=
  let units := marredUnits s
  let lost := units.flatMap (lostBursts s)
  let s := lost.foldl loseBurst (units.foldl (fun s x => unitRead s x.1 x.2) s)
  modHbm s (fun h => units.foldl (fun h x => freshBursts h (x.2 * x.1 / 32) ((x.2 + 1) * x.1 / 32)) h)

/-- A pending mask put in force. -/
def commitMask (now captured : Word) : Word := wset 63 32 now (wf 31 0 captured)

/-- Schemes of the new regions: each takes that of the old region that holds its first byte (R79). -/
def newSchemes (old : Map Nat) (n n' : Nat) : Map Nat :=
  (List.range 12288).filterMap (fun r =>
    let v := mgetD 0 (r * n' / max 1 n) old
    if v = 0 then none else some (r, v))

/-- Clear pseudo-channel g of the live bits. -/
def clearLive (live : Vector Word 12) (g : Nat) : Vector Word 12 :=
  if h : g / 64 < 12 then live.set (g / 64) (live[g / 64] &&& ~~~(BitVec.ofNat 64 (2 ^ (g % 64)))) else live

/-- Step 5 of a drop is over: every context that its hold had saved runs again (R79). -/
def allRestored (s : State) : Bool :=
  s.hbm.toRestore.all (fun f => (mget f s.saved).isNone &&
    s.cores.all (fun k => k.2.thread.all (fun t => t.frame != f || t.phase != .restoring)))

/-- Step 6 of a drop (R79, R395): BUSY is cleared and PCDROP is logged. -/
def reportDrop (s : State) (g : Nat) : State :=
  logEvent (modHbm s (fun h => { h with busy := false, drop := none, toRestore := [] })) 0 0x23 0 0 0 0 (BitVec.ofNat 64 g)
    (BitVec.ofNat 64 s.hbm.gen)

/-- DROP_REBUILD_DONE (R79 to R82): the layout is committed, and the schedulers restore the saved contexts; once these run
again, the drop is reported. -/
def execDropRebuildDone (s : State) : Out :=
  match s.hbm.drop with
  | some (g, 5) => .next (if allRestored s then reportDrop s g else schedule s 1 .dropRebuildDone)
  | some (g, 3) =>
    if s.dredge.drained then .next (schedule s 1 .dropRebuildDone)
    else
      let s := rebuild s
      let n := nlive s
      let h := s.hbm
      let m := h.dropMasks.getD (h.maskStack, h.maskCh, h.maskPc)
      let n' := if g = 0x3FF then n else n - 1
      let h := { h with
        live := if g = 0x3FF then h.live else clearLive h.live g, schemes := if n' = n then h.schemes else newSchemes h.schemes n n',
        maskStack := commitMask h.maskStack m.1, maskCh := commitMask h.maskCh m.2.1, maskPc := commitMask h.maskPc m.2.2,
        gen := (h.gen + 1) % 65536, drop := some (g, 5), dropMasks := none }
      .next (schedule { s with hbm := h } 1 .dropRebuildDone)
  | _ => .next s

/-- PCERR_INTERVAL (R78): the corrected-burst counts are cleared. -/
def execPcerrInterval (s : State) : Out :=
  .next (modHbm s (fun h => { h with corrected := [], reported := [], intervalAt := s.now / 65536 }))

/-! The scrubber (R49) -/

/-- The scrubber reads the next word of core c's slice (R49): a symbol corrected in a bank that is not failed is written
back; at the start of a pass the counts are cleared. -/
def scrubWord (s : State) (c : Nat) : State :=
  let sl := (coreOf s c).slice
  let s := if sl.scrub = 0 then modSlice s c (fun x => { x with counts := [] }) else s
  let w := c * 262144 + sl.scrub
  let fixed := match mget w s.sramErr with
    | some v => !(readWord sl.failed v).2.1.isEmpty
    | none => false
  let (bs, s) := readSramWord s w
  let s := match bs with
    | some bs => if fixed then { s with mem := memWrite s.mem (32 * w) bs, sramErr := mdel w s.sramErr } else s
    | none => s
  modSlice s c (fun x => { x with scrub := (x.scrub + 1) % 262144 })

/-- SCRUB_READ (R39, R49): in the first cycle in which no other requester wants its sub-bank. -/
def execScrubRead (core : Nat) (s : State) : Out :=
  let sl := (coreOf s core).slice
  if !sl.ecccfg.getLsbD 0 then .next s
  else match scrubTurn s core (sl.scrub % 32) with
    | .later => .next { s with todo := s.todo ++ [.ev (.scrubRead core)] }
    | .refused => .next (schedule s 1 (.scrubRead core))
    | .now => .next (scrubWord s core)

end Sys2Proof.Machine
end

