-- ==== Sys2Proof/Machine/Links.lean ====
section
/-! DEFINITION. The link layer of a fabric port (R349 to R357, R373, R374, R382): flits, retry, lane shedding, credits,
causeway numbering and spill, tag groups. -/

namespace Sys2Proof.Machine

/-- Change port p. -/
def modPort (s : State) (p : Nat) (f : Port → Port) : State :=
  { s with router := { s.router with ports := mput p (f (portOf s p)) s.router.ports } }

/-- Change the router. -/
def modRouter (s : State) (f : Router → Router) : State := { s with router := f s.router }

/-- Log a link or port event (R377); the places of the fields in QW6 and QW7 are the model's (log entry 41). -/
def linkEvent (s : State) (cls cause qw6 qw7 : Nat) : State :=
  logEvent s 0 cls cause 0 0 0 (BitVec.ofNat 64 qw6) (BitVec.ofNat 64 qw7)

/-- Whether a port acts as a causeway (R357). -/
def causeway (q : Port) : Bool := wf 9 8 q.cfg == 2

/-! Modes, capacity and credits (R355, R356) -/

/-- The mode that a count of live lanes gives. -/
def modeOf (n : Nat) : Nat := if 5 ≤ n then 2 else if 3 ≤ n then 1 else 0

/-- Channels carried in a mode. -/
def carried (mode : Nat) : List Nat :=
  match mode with
  | 2 => [0, 1, 2, 3, 4, 5]
  | 1 => [1, 3, 4, 5]
  | _ => []

/-- Reserve of each carried channel. -/
def reserve : Nat := 192

/-- Capacity of a receive buffer behind a lane map. -/
def capacity (m : BitVec 8) : Nat := 256 * laneCount m

/-- Flits that a channel's reserve and the shared pool still take, as the sender counts them. -/
def creditsFor (q : Port) (vc : Nat) : Nat :=
  let at_ (v : Nat) : Nat := (q.used[v]?).getD 0
  let spent := ((List.range 6).map (fun v => at_ v - reserve)).sum
  let pool := capacity q.txMask - reserve * (carried (modeOf (laneCount q.txMask))).length
  (reserve - at_ vc) + (pool - spent)

/-- Add to entry i of a list of counts. -/
def bump (l : List Nat) (i n : Nat) : List Nat := l.modify i (· + n)

/-- Take from entry i of a list of counts. -/
def drain (l : List Nat) (i n : Nat) : List Nat := l.modify i (· - n)

/-! Flits (R350) -/

/-- The link word. -/
def linkWord (seq ack vc ft : Nat) (tag nak ackv : Bool) : Nat :=
  seq % 4096 + ack % 4096 * 2 ^ 12 + vc * 2 ^ 24 + ft * 2 ^ 27 + b2n tag * 2 ^ 29 + b2n nak * 2 ^ 30 + b2n ackv * 2 ^ 31

/-- Content filled up to 56 bytes. -/
def fill56 (c : List Byte) : List Byte := (c ++ List.replicate (56 - c.length) 0).take 56

/-- A flit of a link word and 56 bytes of content, with its CRC. -/
def mkFlit (lw : Nat) (content : List Byte) : Flit :=
  let l := leBytes 4 lw
  let c := fill56 content
  BitVec.ofNat 512 (leNat (l ++ leBytes 4 (crc32c (l ++ c)) ++ c))

/-- The bytes of a flit. -/
def flitBytes (f : Flit) : List Byte := leBytes 64 f.toNat

/-- Link word, content and the outcome of the CRC of a flit. -/
def flitWord (f : Flit) : Nat := f.toNat % 2 ^ 32
def flitContent (f : Flit) : List Byte := (flitBytes f).drop 8
def flitOk (f : Flit) : Bool := crc32c ((flitBytes f).take 4 ++ flitContent f) == bits 32 32 f.toNat

/-- Fields of a flit's link word. -/
def flitSeq (f : Flit) : Nat := bits 0 12 (flitWord f)
def flitAck (f : Flit) : Nat := bits 12 12 (flitWord f)
def flitVc (f : Flit) : Nat := bits 24 3 (flitWord f)
def flitFt (f : Flit) : Nat := bits 27 2 (flitWord f)
def flitTag (f : Flit) : Bool := bits 29 1 (flitWord f) == 1
def flitNak (f : Flit) : Bool := bits 30 1 (flitWord f) == 1
def flitAckv (f : Flit) : Bool := bits 31 1 (flitWord f) == 1

/-- Whether a flit begins a packet. -/
def flitHead (f : Flit) : Bool := flitFt f == 0 || flitFt f == 3

/-- Flits accepted whose groups, and every earlier group, have been checked. -/
def acceptedCount (q : Port) : Nat := q.rxNext - q.rxHold.length

/-- ACK: the last flit in order that is accepted and checked (R350, R382). -/
def ackField (q : Port) : Nat := (acceptedCount q + 4095) % 4096

/-! Sending (R351, R352, R373) -/

/-- Flits that may be unacknowledged (R352, R373). -/
def linkWindow (q : Port) : Nat :=
  if !causeway q then 2047 else if q.spill.getLsbD 0 then 8388608 else 8192

/-- Room for n more flits: none before a resend that is owed (R352); a flit that must be spilled waits while HBM requests are
held (R373, R84). -/
def linkRoom (s : State) (q : Port) (n : Nat) : Bool :=
  !q.resendOwed && decide (q.retry.length + n ≤ linkWindow q) && !(causeway q && decide (8192 < q.retry.length + n) && inWindow s)

/-- Where flit number n of a port lies in its spill region. -/
def retryPa (q : Port) (n : Nat) : Nat := wf 51 29 q.spill * 2 ^ 29 + 64 * (n % 8388608)

/-- The lane of each byte of the k-th flit under a lane map (R351). -/
def flitLanes (mask : BitVec 8) (k : Nat) : List Nat :=
  let lanes := (List.range 8).filter (fun l => mask.getLsbD l)
  (List.range 64).map (fun j => (lanes[(64 * k + j) % max 1 lanes.length]?).getD 0)

/-- Put a flit on the wire, its bytes on the lanes of the current map (R351). -/
def wire (q : Port) (f : Flit) : Port :=
  { q with wireOut := q.wireOut ++ [(flitLanes q.txMask q.txCount, f)], txCount := q.txCount + 1 }

/-- A flit comes in on the lanes of the receive map (R351). After a lane drop the first intact flit is the first that was sent
under the new map; what comes broken before it was sent under the old one (R353). -/
def unwire (q : Port) (ok : Bool) : Port :=
  if q.rxFresh && !ok then { q with rxLanes := [] }
  else { q with rxLanes := flitLanes q.rxMask q.rxCount, rxCount := q.rxCount + 1, rxFresh := false }

/-- The number nearest to `ref` that is n modulo m: how an end extends a number by counting wraps (R373). -/
def nearest (m ref n : Nat) : Nat :=
  let d := (n + m - ref % m) % m
  if 2 * d < m then ref + d else ref + d - m

/-- The number of the intact flit that comes in (R350, R373). -/
def flitNo (q : Port) (f : Flit) : Nat := nearest 4096 q.rxPos (flitSeq f)

/-- A flit has come in: the number of the next. A broken one took a number too, if no resend began with it. -/
def countIn (q : Port) (f : Flit) : Port :=
  if flitOk f then { q with rxPos := flitNo q f + 1 } else { q with rxPos := q.rxPos + 1, rxLost := true }

/-- Send one new flit: number, retry buffer, wire. -/
def putRaw (s : State) (p vc ft : Nat) (tag nak : Bool) (content : List Byte) : State :=
  let q := portOf s p
  let q := match q.addAt with
    | some (n, m) => if n = q.txNext then { q with txMask := m, txCount := 0, addAt := none } else q
    | none => q
  let f := mkFlit (linkWord q.txNext (ackField q) vc ft tag nak (!causeway q)) content
  let far := causeway q && decide (8192 ≤ q.retry.length)
  let s := if far then storeUnits s (retryPa q q.txNext) (flitBytes f) else s
  let kept : Option Flit := if far then none else some f
  let stamp := if q.retry.isEmpty then s.now else q.ackAt
  modPort s p (fun _ => wire { q with retry := q.retry ++ [(q.txNext, kept)], txNext := q.txNext + 1, ackAt := stamp } f)

/-- Content of XSEQ: the number of the next flit (R350). -/
def xseqContent (n : Nat) : List Byte := 0x05 :: leBytes 4 n

/-- Send one new flit, and XSEQ after each 2,048 on a causeway (R373). -/
def putFlit (s : State) (p vc ft : Nat) (tag nak : Bool) (content : List Byte) : State :=
  let s := putRaw s p vc ft tag nak content
  let q := portOf s p
  if causeway q && q.txNext % 2048 == 0 then putRaw s p 6 3 false false (xseqContent (q.txNext + 1)) else s

/-- Send a link-control flit of a type with its further bytes, or keep it until the window has room; type 0x100 is IDLE,
and 0x104 XACK, with NAK. -/
def sendCtl (s : State) (p typ : Nat) (bs : List Byte) : State :=
  if linkRoom s (portOf s p) 1 then putFlit s p 6 3 false (decide (0x100 ≤ typ)) (BitVec.ofNat 8 typ :: bs)
  else modPort s p (fun q => { q with ctl := q.ctl ++ [(typ, bs)] })

/-- Take the receiver back to its in-order point: every flit of an unchecked group is discarded (R382). -/
def rewindRx (q : Port) : Port :=
  let lost (vc : Nat) : Nat := (q.rxHold.filter (fun e => flitVc e.flit == vc)).length
  let early (vc : Nat) : Nat := ((q.rxHold.reverse.takeWhile (fun e => flitVc e.flit != vc || !(flitFt e.flit == 2 || flitFt e.flit == 3)
      || flitTag e.flit)).filter (fun e => e.early && flitVc e.flit == vc && !flitTag e.flit)).length
  { q with
    rxNext := acceptedCount q, rxHold := [], rxStopped := true,
    held := q.held.zipIdx.map (fun h => h.1 - lost h.2),
    building := q.building.map (fun b => (b.1, b.2.take (b.2.length - early b.1))) }

/-- Send what was kept, as far as the window has room. -/
def flushCtl : Nat → State → Nat → State
  | 0, s, _ => s
  | n + 1, s, p =>
    match (portOf s p).ctl with
    | [] => s
    | (typ, bs) :: r =>
      -- a NAK or MAPNAK that was kept discards what is unchecked when it goes out (R382)
      let back (q : Port) : Port := if typ = 0x02 || decide (0x100 ≤ typ) then rewindRx q else q
      if linkRoom s (portOf s p) 1 then flushCtl n (sendCtl (modPort s p (fun q => { back q with ctl := r })) p typ bs) p else s

/-- Acknowledge on the reverse direction: an IDLE's link word, or XACK on a causeway (R352, R373). -/
def sendAck (s : State) (p : Nat) (nak : Bool) : State :=
  let q := portOf s p
  if causeway q then
    sendCtl (modPort s p (fun q => { q with xacked := acceptedCount q })) p (if nak then 0x104 else 0x04)
      (leBytes 4 (acceptedCount q + 2 ^ 32 - 1))
  else sendCtl s p (if nak then 0x100 else 0x00) []

/-- The flits of a retry buffer, those of the spill region read back (R373); what cannot be read goes out as it came. -/
def retryFlits (q : Port) : List (Nat × Option Flit) → State → List Flit × State
  | [], s => ([], s)
  | (_, some f) :: r, s => let (fs, s) := retryFlits q r s; (f :: fs, s)
  | (n, none) :: r, s =>
    let (g, s) := readPa s { die := 0, core := 0 } (retryPa q n) 64
    let (fs, s) := retryFlits q r s
    (BitVec.ofNat 512 (leNat g.bytes) :: fs, s)

/-- Resend every unacknowledged flit in order, XSEQ first on a causeway (R352, R373); while a dredge window holds the reading
of a spilled flit, it is owed, and tried again in every cycle (R84). -/
def resend (s : State) (p : Nat) : State :=
  let q := portOf s p
  if q.retry.any (fun e => e.2.isNone) && inWindow s then modPort s p (fun q => { q with resendOwed := true })
  else
    let lead : List Flit := match q.retry with
      | [] => []
      | e :: _ => if causeway q then [mkFlit (linkWord (e.1 + 4095) (ackField q) 6 3 false false false) (xseqContent e.1)] else []
    let n := q.retry.length
    let (fs, s) := retryFlits q q.retry s
    modPort s p (fun q => { ((lead ++ fs).foldl wire q) with
      resent := min (q.resent + n) (2 ^ 32 - 1), ackAt := s.now, resendOwed := false })

/-- The far end has accepted every flit before number n (R352). -/
def ackedTo (s : State) (p n : Nat) : State :=
  let q := portOf s p
  let left := q.retry.filter (fun e => decide (n ≤ e.1))
  if left.length = q.retry.length then s
  else
    let s := modPort s p (fun q => { q with retry := left, ackAt := s.now })
    flushCtl (q.ctl.length + 1) s p

/-- The ACK of a link word: it names a flit of the retry buffer, or nothing new. -/
def ackedSeq (s : State) (p ack : Nat) : State :=
  match (portOf s p).retry.find? (fun e => e.1 % 4096 == ack) with
  | some e => ackedTo s p (e.1 + 1)
  | none => s

/-- A NAK or MAPNAK has been received. -/
def countNak (s : State) (p : Nat) : State := modPort s p (fun q => { q with nakrx := satInc 16 q.nakrx })

/-- NAK_RECEIVE (R352): resend from ACK + 1. -/
def execNakReceive (port ack : Nat) (s : State) : Out := .next (resend (countNak (ackedSeq s port ack) port) port)

/-- LINK_RETRY_TIMEOUT (R352): no ACK advance for 16,384 cycles; or a resend that a dredge window held (R84). -/
def execLinkRetryTimeout (port : Nat) (s : State) : Out :=
  let q := portOf s port
  if q.mode = 0 then .next s
  else if q.resendOwed then
    let s := resend s port
    .next (if (portOf s port).resendOwed then s else flushCtl (q.ctl.length + 1) s port)
  else if q.retry.isEmpty || decide (s.now < q.ackAt + 16384) then .next s
  else .next (resend s port)

/-! Packets and flits (R358) -/

/-- The four header words. -/
def packetHeader (p : Packet) : List Byte :=
  leBytes 8 (p.dst.toNat + p.src.toNat * 2 ^ 16 + p.job.toNat * 2 ^ 32 + p.kind.toNat * 2 ^ 48 + b2n p.tp * 2 ^ 56
      + b2n p.dn * 2 ^ 57 + b2n p.nm * 2 ^ 58 + p.hops.toNat * 2 ^ 59 + b2n p.esc * 2 ^ 63) ++
    leBytes 8 (p.int.toNat + p.len.toNat * 2 ^ 16 + p.tag.toNat * 2 ^ 32 + p.sub.toNat * 2 ^ 56) ++
    leBytes 8 p.addr.toNat ++ leBytes 8 p.aux.toNat

/-- A packet from the bytes of its flits in order. -/
def packetOf (bs : List Byte) : Packet :=
  let w (i : Nat) : Nat := leNat ((bs.drop (8 * i)).take 8)
  let len := bits 16 13 (w 1)
  { dst := BitVec.ofNat 16 (w 0), src := BitVec.ofNat 16 (w 0 / 2 ^ 16), job := BitVec.ofNat 16 (w 0 / 2 ^ 32),
    kind := BitVec.ofNat 8 (w 0 / 2 ^ 48), tp := bits 56 1 (w 0) == 1, dn := bits 57 1 (w 0) == 1, nm := bits 58 1 (w 0) == 1,
    hops := BitVec.ofNat 4 (bits 59 4 (w 0)), esc := bits 63 1 (w 0) == 1, int := BitVec.ofNat 16 (w 1),
    len := BitVec.ofNat 13 len, tag := BitVec.ofNat 24 (w 1 / 2 ^ 32), sub := BitVec.ofNat 8 (w 1 / 2 ^ 56),
    addr := BitVec.ofNat 52 (w 2), aux := BitVec.ofNat 52 (w 3), data := (bs.drop 32).take len }

/-- Data flits of a packet (R358). -/
def dataFlits (p : Packet) : Nat := if 24 < p.len.toNat then (p.len.toNat - 24 + 55) / 56 + 1 else 1

/-- Flits of a packet with its tag flits: groups of up to five (R374). -/
def packetFlits (p : Packet) : Nat := dataFlits p + (dataFlits p + 4) / 5

/-- The contents of a packet's data flits. -/
def packetContents (p : Packet) : List (List Byte) :=
  let bs := packetHeader p ++ p.data
  (List.range (dataFlits p)).map (fun i => fill56 ((bs.drop (56 * i)).take 56))

/-- FT of data flit i of n (R350). -/
def flitType (i n : Nat) : Nat := if n = 1 then 3 else if i = 0 then 0 else if i + 1 = n then 2 else 1

/-! Keys (R374, R375) -/

/-- The slot whose installed job is `job`. -/
def keySlot (s : State) (job : BitVec 16) : Option (Nat × Key) := s.router.keys.find? (fun k => k.2.job == job)

/-- Traffic key and salt of a direction (R375): SM3-KDF over K, "ECMEN", the ids and EPOCH, each number with its high byte first
(log entry 95). -/
def trafficKey (k : Key) (sender receiver : Nat) : BitVec 160 :=
  let be (n v : Nat) : List Byte := (leBytes n v).reverse
  Config.sm3Kdf (be 32 k.key.toNat ++ [0x45, 0x43, 0x4D, 0x45, 0x4E] ++ be 2 sender ++ be 2 receiver ++ be 2 k.epoch.toNat)

/-- Bytes of a content that are clear: the header of a head flit. -/
def clearLen (head : Bool) : Nat := if head then 32 else 0

/-- Cut a byte list by lengths. -/
def cutBytes : List Nat → List Byte → List (List Byte)
  | [], _ => []
  | n :: r, bs => bs.take n :: cutBytes r (bs.drop n)

/-- Numbers of the next k flits of a port: XSEQ takes one after each 2,048 on a causeway. -/
def flitNos (cw : Bool) : Nat → Nat → List Nat
  | 0, _ => []
  | k + 1, n => n :: flitNos cw k (if cw && (n + 1) % 2048 == 0 then n + 2 else n + 1)

/-- A data flit before its encryption: content, whether it begins a packet, FT. -/
structure ClearFlit where
  content : List Byte
  head : Bool
  ft : Nat
  deriving DecidableEq, Repr

/-- The data flits of a packet. -/
def clearFlits (p : Packet) : List ClearFlit :=
  let cs := packetContents p
  cs.zipIdx.map (fun c => ⟨c.1, c.2 == 0, flitType c.2 cs.length⟩)

/-- Send one tag group: the flits with their ciphertext, then the tag flit (R374, R382). -/
def sendGroup (s : State) (p vc : Nat) (job : BitVec 16) (cs : List ClearFlit) : State :=
  match keySlot s job with
  | none => s
  | some (slot, k) =>
    let q := portOf s p
    let ctr := mgetD 0 p k.txCtr
    let nos := flitNos (causeway q) cs.length q.txNext
    let aad := cs.zipIdx.flatMap (fun c =>
      leBytes 4 (linkWord ((nos[c.2]?).getD 0) (ackField q) vc c.1.ft false false (!causeway q)) ++
        c.1.content.take (clearLen c.1.head))
    let plain := cs.map (fun c => c.content.drop (clearLen c.head))
    let sealed := Config.sm4Seal (trafficKey k s.plat.devid.toNat q.peer) (BitVec.ofNat 64 ctr) aad plain.flatten
    let enc := cutBytes (plain.map (·.length)) sealed.1
    let s := (cs.zip enc).foldl (fun s x =>
      putFlit s p vc x.1.ft false false (x.1.content.take (clearLen x.1.head) ++ x.2)) s
    let s := putFlit s p vc 3 true false (leBytes 16 sealed.2.toNat ++ leBytes 8 ctr)
    modRouter s (fun r => { r with keys := mmod k slot (fun k => { k with txCtr := mput p (ctr + 1) k.txCtr }) r.keys })

/-- Send packets of one job on a channel: groups of up to five flits, across the packets (R356, R374). -/
def sendPackets (s : State) (p vc : Nat) (job : BitVec 16) (pkts : List Packet) : State :=
  let cs := pkts.flatMap clearFlits
  let n := (cs.length + 4) / 5
  let s := (List.range n).foldl (fun s g => sendGroup s p vc job ((cs.drop (5 * g)).take 5)) s
  modPort s p (fun q => { q with used := bump q.used vc (cs.length + n) })

/-! Lanes and modes -/

/-- Packets that wait for a port are routed again (R355). -/
def reroute (s : State) (p : Nat) (adaptive : Bool) : State :=
  let goes (h : Held) : Bool := h.port == some p && (!adaptive || (decide (h.cls < 2) && !h.pkt.esc))
  modRouter s (fun r => { r with packets := r.packets.map (fun h => (h.1, if goes h.2 then { h.2 with port := none } else h.2)) })

/-- The link goes DOWN (R355): what was unacknowledged or half received is lost to it. -/
def linkDown (s : State) (p : Nat) : State :=
  let q := portOf s p
  let s := linkEvent s 0x29 1 p q.peer
  let s := modPort s p (fun q => { q with
    mode := 0, rxMask := 0, txMask := 0, retry := [], addAt := none, rxHold := [], rxAdd := none, rxStopped := false, ctl := [],
    resendOwed := false,
    building := [], shed := [], adapt := none, groupFails := 0, used := List.replicate 6 0, held := List.replicate 6 0,
    owed := List.replicate 6 0 })
  reroute s p false

/-- The mode follows from the live lanes of the two directions (R355). -/
def updateMode (s : State) (p : Nat) : State :=
  let q := portOf s p
  let m := min (modeOf (laneCount q.rxMask)) (modeOf (laneCount q.txMask))
  if m = q.mode then s
  else if m = 0 then linkDown s p
  else
    let s := modPort s p (fun q => { q with mode := m })
    if m = 1 then reroute s p true else s

/-- Return the credits owed, unless the buffer holds more than its capacity (R355, R356). -/
def returnCredits (s : State) (p : Nat) : State :=
  let q := portOf s p
  if q.mode = 0 || q.owed.all (· == 0) || decide (capacity q.rxMask ≤ q.held.sum) then s
  else sendCtl (modPort s p (fun q => { q with owed := List.replicate 6 0 })) p 0x01 (q.owed.flatMap (leBytes 2))

/-- Flits leave the receive buffer of a port. -/
def freeFlits (s : State) (p vc n : Nat) : State :=
  if 44 ≤ p then s
  else returnCredits (modPort s p (fun q => { q with held := drain q.held vc n, owed := bump q.owed vc n })) p

/-- A flit is discarded (R352): NAK with the last flit accepted, once, and again for a flit the far end sends anew. -/
def discardFlit (s : State) (p : Nat) (again_ : Bool) : State :=
  let was := (portOf s p).rxStopped
  let s := modPort s p rewindRx
  if was && !again_ then s else sendAck s p true

/-- The receiver drops a lane (R353). -/
def dropLane (s : State) (p lane : Nat) : State :=
  let q := portOf s p
  if q.mode = 0 || !q.rxMask.getLsbD lane then s
  else
    let off (m : BitVec 8) : BitVec 8 := m &&& ~~~(BitVec.ofNat 8 (2 ^ lane))
    let m := off q.rxMask
    -- a lane that a pending MAPADD was to bring back stays out and is trained anew (R354)
    let back := match q.rxAdd with
      | some a => (List.range 8).filter (fun l => a.2.getLsbD l && !q.rxMask.getLsbD l)
      | none => []
    let s := modPort s p (fun q => { rewindRx q with
      rxMask := m, rxAdd := none, rxCount := 0, rxFresh := true, adapt := q.adapt.filter (fun a => a.2 ≠ 1),
      drops := satInc 16 q.drops, shed := q.shed.filter (fun l => l ≠ lane && !back.contains l) ++ back ++ [lane] })
    let s := linkEvent s 0x28 1 (p + 256 * lane) m.toNat
    let s := if causeway q then sendAck s p false else s
    let s := sendCtl s p 0x02 [m]
    updateMode s p

/-- LANE_LOSS_OF_LOCK (R353). -/
def execLaneLossOfLock (port lane : Nat) (s : State) : Out := .next (dropLane s port lane)

/-- UNCORRECTABLE_CODEWORD (R349, R353, R357). -/
def execUncorrectableCodeword (port lane : Nat) (s : State) : Out :=
  let q := portOf s port
  let n := mgetD 0 lane q.laneErr + 1
  let s := modPort s port (fun q => { q with uncw := satInc 16 q.uncw, laneErr := mput lane n q.laneErr })
  .next (if wf 7 0 q.lcfg ≠ 0 ∧ wf 7 0 q.lcfg ≤ n then dropLane s port lane else s)

/-- LANE_ERROR_INTERVAL (R353): the counts of the interval are cleared. -/
def execLaneErrorInterval (port : Nat) (s : State) : Out := .next (modPort s port (fun q => { q with laneErr := [] }))

/-- The receiver changes its lane map by MAPADD, from the first flit that cannot have been sent yet (R354; log entry 42). -/
def changeMap (s : State) (p : Nat) (m : BitVec 8) : State :=
  let n := (portOf s p).rxNext + 2048
  sendCtl (modPort s p (fun q => { q with rxAdd := some (n, m) })) p 0x03 (m :: leBytes 2 (n % 4096))

/-- The lane map as it will be once a MAPADD sent has taken effect. -/
def comingMap (q : Port) : BitVec 8 := (q.rxAdd.map (·.2)).getD q.rxMask

/-- The lane that a port works on next (R354): one that is shed, else, with more than five live, each live lane in turn. -/
def nextLane (q : Port) : Option Nat :=
  match q.shed with
  | lane :: _ => some lane
  | [] =>
    let lanes := (List.range 8).filter (fun l => q.rxMask.getLsbD l)
    if lanes.length ≤ 5 || q.rxAdd.isSome then none
    else (lanes.find? (fun l => decide (q.lastAdapt < l))).orElse (fun _ => lanes.head?)

/-- The training of a lane that is out of the map runs, for at most 1,800 cycles (R354). -/
def trainLane (s : State) (p lane : Nat) : State :=
  let (n, s) := takeFree s
  schedule (modPort s p (fun q => { q with adapt := some (lane, 2) })) (1 + Config.delay n % 1800) (.laneTrainPass p lane)

/-- The lane work begins: a shed lane is trained; a live one leaves the map by MAPADD first (R354). -/
def beginLane (s : State) (p : Nat) : State :=
  let q := portOf s p
  match nextLane q with
  | none => modPort s p (fun q => { q with adapt := none })
  | some lane =>
    if q.shed.contains lane then trainLane s p lane
    else changeMap (modPort s p (fun q => { q with adapt := some (lane, 1), lastAdapt := lane })) p
      (q.rxMask &&& ~~~(BitVec.ofNat 8 (2 ^ lane)))

/-- A MAPADD that was sent acts from the flit that comes in next on, that flit's first copy (R351, R354): a lane that leaves the map is adapted from now on. -/
def turnMap (s : State) (p : Nat) : State :=
  let q := portOf s p
  match q.rxAdd with
  | none => s
  | some (n, m) =>
    if q.rxPos < n then s
    else
      let s := modPort s p (fun q => { q with rxMask := m, rxAdd := none, rxCount := 0, rxFresh := false })
      updateMode (match q.adapt with
        | some (lane, 1) => trainLane s p lane
        | _ => s) p

/-- LANE_TRAIN_PASS (R354): a lane whose turn was awaited is worked on; a retrained or adapted lane is added back. -/
def execLaneTrainPass (port lane : Nat) (s : State) : Out :=
  let q := portOf s port
  if q.mode = 0 then .next s
  else if q.adapt = some (lane, 0) then .next (beginLane s port)
  else if q.adapt ≠ some (lane, 2) then .next s
  -- another change of map is still to act
  else if q.rxAdd.isSome then .next (schedule s 1 (.laneTrainPass port lane))
  else
    let s := modPort s port (fun q => { q with adapt := none })
    let (n, s) := takeFree s
    if Config.trainFails n then .next (modPort s port (fun q => { q with shed := q.shed.filter (· ≠ lane) ++ [lane] }))
    else
      let m := comingMap q ||| BitVec.ofNat 8 (2 ^ lane)
      .next (linkEvent (changeMap (modPort s port (fun q => { q with shed := q.shed.filter (· ≠ lane) })) port m)
        0x28 2 (port + 256 * lane) m.toNat)

/-- The lane work of a port in a dredge window of the end with the lower device id (R354). At the other end that window is
not seen: its turn comes at a time that is a free value (log entry 42). -/
def laneWindow (s : State) (p : Nat) : State :=
  let q := portOf s p
  if q.mode = 0 || q.adapt.isSome then s
  else if s.plat.devid.toNat < q.peer then beginLane s p
  else match nextLane q with
    | none => s
    | some lane =>
      let (n, s) := takeFree s
      schedule (modPort s p (fun q => { q with adapt := some (lane, 0) })) (1 + Config.delay n) (.laneTrainPass p lane)

/-! Training (R357) -/

/-- PORT_CFG_WRITE (R357, R392): the link goes DOWN and is trained again. -/
def execPortCfgWrite (port : Nat) (val : Word) (s : State) : Out :=
  let v := val &&& 0xFFFF0000000007FF
  let v := if s.plat.accept.getLsbD 1 then v else v &&& ~~~(0x400#64)
  let s := if (portOf s port).mode = 0 then s else linkDown s port
  let s := cancel s (fun e => e == .linkTrainingDone port)
  let role := wf 9 8 v
  let on := role == 1 || role == 2
  let s := modPort s port (fun q => { q with cfg := v, training := on })
  if on then let (n, s) := takeFree s; .next (schedule s (1 + Config.delay n) (.linkTrainingDone port)) else .next s

/-- LINK_TRAINING_DONE (R357, R377): the lanes that pass come up, unless another device than PEER answers. -/
def execLinkTrainingDone (port : Nat) (s : State) : Out :=
  let q := portOf s port
  if !q.training then .next s
  else
    let (n, s) := takeFree s
    let pass (k : Nat) : BitVec 8 :=
      BitVec.ofNat 8 (((List.range 8).filter (fun l => q.cfg.getLsbD l && !Config.trainFails (64 * n + 8 * k + l))).map (2 ^ ·)).sum
    let far := (Config.farEnd n).toNat
    let m := min (modeOf (laneCount (pass 0))) (modeOf (laneCount (pass 1)))
    let s := modPort s port (fun q => { q with training := false })
    if far ≠ wf 63 48 q.cfg || m = 0 then .next s
    else
      let s := modPort s port (fun q => { Port.reset with
        cfg := q.cfg, lcfg := q.lcfg, spill := q.spill, resent := q.resent, tagfail := q.tagfail, nakrx := q.nakrx, uncw := q.uncw,
        drops := q.drops, wireOut := q.wireOut, mode := m, rxMask := pass 0, txMask := pass 1, peer := far, ackAt := s.now })
      .next (linkEvent s 0x29 2 port far)

/-! Link control (R350) -/

/-- IDLE: its link word is all it carries. -/
def execIdle (_port : Nat) (s : State) : Out := .next s

/-- CREDIT (R356). -/
def execCredit (port : Nat) (returns : List Nat) (s : State) : Out :=
  .next (modPort s port (fun q => { q with used := q.used.zipIdx.map (fun u => u.1 - (returns[u.2]?).getD 0) }))

/-- MAPNAK (R353): the mask is adopted, and every unacknowledged flit resent under it. -/
def execMapnak (port : Nat) (mask : BitVec 8) (ack : Nat) (s : State) : Out :=
  let q := portOf s port
  let s := if causeway q then s else ackedSeq s port ack
  let s := modPort (countNak s port) port (fun q => { q with txMask := mask, txCount := 0, addAt := none })
  let s := updateMode s port
  .next (if (portOf s port).mode = 0 then s else resend s port)

/-- MAPADD (R350, R354): the mask takes effect at the flit with the given SEQ. -/
def execMapadd (port : Nat) (mask : BitVec 8) (seq : Nat) (s : State) : Out :=
  .next (modPort s port (fun q => { q with addAt := some (q.txNext + (seq + 4096 - q.txNext % 4096) % 4096, mask) }))

/-- XACK (R373): every flit up to number n is acknowledged. -/
def execXack (port n : Nat) (s : State) : Out :=
  match (portOf s port).retry.find? (fun e => e.1 % 2 ^ 32 == n) with
  | some e => .next (ackedTo s port (e.1 + 1))
  | none => .next s

/-- XSEQ (R373): the number of the next flit, in 32 bits. -/
def execXseq (port n : Nat) (s : State) : Out :=
  .next (modPort s port (fun q => { q with rxPos := nearest (2 ^ 32) q.rxPos n, rxLost := false }))

/-- A link-control flit in its order. -/
def controlFlit (s : State) (p : Nat) (f : Flit) : Out :=
  let c := flitContent f
  let w (i n : Nat) : Nat := leNat ((c.drop i).take n)
  match w 0 1 with
  | 0x01 => execCredit p ((List.range 6).map (fun v => w (1 + 2 * v) 2)) s
  | 0x02 => execMapnak p (BitVec.ofNat 8 (w 1 1)) (flitAck f) s
  | 0x03 => execMapadd p (BitVec.ofNat 8 (w 1 1)) (w 2 2) s
  | 0x04 =>
    match execXack p (w 1 4) s with
    | .next s => if flitNak f then .next (resend (countNak s p) p) else .next s
    | o => o
  | 0x05 => execXseq p (w 1 4) s
  | _ => execIdle p s

/-! Receiving (R352, R374, R382) -/

/-- The packet being received on a channel takes a flit's content; a whole packet goes to the router. -/
def passOn (s : State) (p : Nat) (f : Flit) (content : List Byte) : State :=
  let q := portOf s p
  let vc := flitVc f
  let parts := (if flitHead f then [] else mgetD [] vc q.building) ++ [BitVec.ofNat 512 (leNat content)]
  if flitFt f = 2 || flitFt f = 3 then
    let bs := parts.flatMap (fun x => (leBytes 64 x.toNat).take 56)
    let pkt := packetOf bs
    -- HOPS counts the links taken: 0 on the first (R358, R382)
    let pkt := { pkt with hops := BitVec.ofNat 4 (min 15 (pkt.hops.toNat + 1)) }
    let h : Held := { pkt := pkt, inPort := p, inVc := vc, flits := parts.length, cls := [0, 0, 1, 1, 2, 3].getD vc 3,
                      since := s.now, port := none }
    let id := s.router.nextId
    let s := modPort s p (fun q => { q with building := mdel vc q.building })
    pushEvs (modRouter s (fun r => { r with packets := mput id h r.packets, nextId := id + 1 })) [.packetRoute id]
  else modPort s p (fun q => { q with building := mput vc parts q.building })

/-- The data flits held of a channel, each with the head content of its packet: of a head flit its own, else of the packet
before, which may have been passed on. -/
def heads (q : Port) (vc : Nat) : List (RxFlit × List Byte) :=
  let first := ((mgetD [] vc q.building)[0]?).elim [] (fun f => (leBytes 64 f.toNat).take 56)
  ((q.rxHold.filter (fun e => flitVc e.flit == vc && !flitTag e.flit)).foldl (fun (a : List (RxFlit × List Byte) × List Byte) e =>
    let h := if flitHead e.flit then flitContent e.flit else a.2
    (a.1 ++ [(e, h)], h)) ([], first)).1

/-- The group that a tag flit on a channel closes (R374): of the flits that none has closed, those of the job of the last. -/
def groupOn (q : Port) (vc : Nat) : List RxFlit :=
  let open_ := (heads q vc).filter (fun x => x.1.clear.isNone)
  match open_.getLast? with
  | none => []
  | some x => (open_.filter (fun y => (packetOf y.2).job == (packetOf x.2).job)).map (·.1)

/-- The head content of the packet that a group ends in. -/
def headOf (q : Port) (vc : Nat) (group : List RxFlit) : List Byte :=
  (((heads q vc).filter (fun x => group.any (fun e => e.no == x.1.no))).getLast?).elim [] (·.2)

/-- The head content of the packet that the next flit of a channel belongs to. -/
def headFor (q : Port) (f : Flit) : List Byte :=
  if flitHead f then flitContent f
  else match (heads q (flitVc f)).getLast? with
    | some x => x.2
    | none => ((mgetD [] (flitVc f) q.building)[0]?).elim [] (fun x => (leBytes 64 x.toNat).take 56)

/-- Whether the waiter of a response is a privileged context (R374). -/
def waiterPriv (s : State) (w : Waiter) : Bool :=
  match w with
  | .op ctx _ _ | .ctr ctx _ => (engineOf s ctx).ops.any (fun o => o.issuer.priv)
  | .coll ctx _ _ | .collRead ctx => ((mget (ctx - 0x4000) s.colls).map (fun k => k.ops.any (fun o => o.issuer.priv))).getD false
  | .fatom c _ _ => (threadOf s c).any privileged
  | _ => false

/-- Whether skid mode passes a flit on before its group is checked (R374). -/
def skids (s : State) (q : Port) (f : Flit) : Bool :=
  let vc := flitVc f
  let pkt := packetOf (headFor q f)
  q.cfg.getLsbD 10 && !flitTag f && (vc == 5 || (vc == 4 && pkt.dst == s.plat.devid &&
    ((mget pkt.tag.toNat s.router.outst).any (fun o => waiterPriv s o.waiter)))) &&
  q.rxHold.all (fun e => flitVc e.flit != vc || e.early)

/-- Pass on, in order, what is accepted and checked. -/
def drainRx : Nat → State → Nat → State
  | 0, s, _ => s
  | n + 1, s, p =>
    match (portOf s p).rxHold with
    | [] => s
    | e :: r =>
      match e.clear with
      | none => s
      | some c =>
        let s := modPort s p (fun q => { q with rxHold := r })
        let s :=
          if flitVc e.flit = 6 then (match controlFlit s p e.flit with
            | .next s => s
            | _ => s)
          else if flitTag e.flit then sendAck (freeFlits s p (flitVc e.flit) 1) p false
          else if e.early then s
          else passOn s p e.flit c
        drainRx n s p

/-- Check the group that a tag flit closes (R374): the flits with their clear contents, or none where the tag fails. A
group of a job without a key cannot be checked; its packets are discarded at the router (R375). -/
def openGroup (s : State) (p : Nat) (group : List RxFlit) (tagFlit : Flit) : Option (List (List Byte)) :=
  let q := portOf s p
  let vc := flitVc tagFlit
  let raw := group.map (fun e => flitContent e.flit)
  match keySlot s (packetOf (headOf q vc group)).job with
  | none => some raw
  | some (_, k) =>
    let c := flitContent tagFlit
    let head (e : RxFlit) : Nat := clearLen (flitHead e.flit)
    let aad := group.flatMap (fun e => (flitBytes e.flit).take 4 ++ (flitContent e.flit).take (head e))
    let enc := group.map (fun e => (flitContent e.flit).drop (head e))
    (Config.sm4Open (trafficKey k q.peer s.plat.devid.toNat) (BitVec.ofNat 64 (leNat ((c.drop 16).take 8))) aad enc.flatten
      (BitVec.ofNat 128 (leNat (c.take 16)))).map (fun plain =>
        (group.zip (cutBytes (enc.map (·.length)) plain)).map (fun x => fill56 ((flitContent x.1.flit).take (head x.1) ++ x.2)))

/-- The counter that the receiver expects next of a job's groups (R374). -/
def noteCounter (s : State) (p : Nat) (job : BitVec 16) (tagFlit : Flit) : State :=
  match keySlot s job with
  | none => s
  | some (slot, k) =>
    let ctr := leNat (((flitContent tagFlit).drop 16).take 8)
    modRouter s (fun r => { r with keys := mmod k slot (fun k => { k with rxCtr := mput p (ctr + 1) k.rxCtr }) r.keys })

/-- A group has failed its check (R374): discarded, counted, NAK; four times running takes the link DOWN. -/
def failGroup (s : State) (p : Nat) (group : List RxFlit) (tagFlit : Flit) : State :=
  let q := portOf s p
  let job := (packetOf (headOf q (flitVc tagFlit) group)).job.toNat
  let range := (group.head?).elim 0 (fun e => flitSeq e.flit) + 2 ^ 16 * flitSeq tagFlit
  let s := linkEvent s 0x2A 1 (p + 2 ^ 16 * job) range
  let s := if group.any (·.early) then linkEvent s 0x2A 2 (p + 2 ^ 16 * job) range else s
  let s := modPort s p (fun q => { q with tagfail := satInc 16 q.tagfail, groupFails := q.groupFails + 1 })
  if 4 ≤ q.groupFails + 1 then linkDown s p else discardFlit s p true

/-- A tag flit has been accepted: its group is checked. -/
def closeGroup (s : State) (p : Nat) (f : Flit) : State :=
  let q := portOf s p
  let vc := flitVc f
  let group := groupOn q vc
  match openGroup s p group f with
  | none => failGroup s p group f
  | some clears =>
    let s := noteCounter s p (packetOf (headOf q vc group)).job f
    let nos := group.map (·.no)
    let clearOf (e : RxFlit) : Option (List Byte) := ((nos.zip clears).find? (fun x => x.1 == e.no)).map (·.2)
    let s := modPort s p (fun q => { q with
      groupFails := 0,
      rxHold := q.rxHold.map (fun e =>
        if flitVc e.flit = vc && flitTag e.flit && e.clear.isNone then { e with clear := some [] }
        else if e.clear.isNone then { e with clear := clearOf e } else e) })
    drainRx ((portOf s p).rxHold.length + 1) s p

/-- The clear content of a flit that skid mode passes on: decrypted, not checked. -/
def skidContent (s : State) (p : Nat) (f : Flit) : List Byte :=
  let q := portOf s p
  let c := flitContent f
  match keySlot s (packetOf (headFor q f)).job with
  | none => c
  | some (_, k) =>
    let n := clearLen (flitHead f)
    fill56 (c.take n ++ Config.sm4Plain (trafficKey k q.peer s.plat.devid.toNat) (BitVec.ofNat 64 (mgetD 0 p k.rxCtr)) (c.drop n))

/-- A flit in its turn is accepted. -/
def acceptFlit (s : State) (p : Nat) (f : Flit) : State :=
  let q := portOf s p
  let ctl := flitVc f = 6
  let early := !ctl && skids s q f
  let s := modPort s p (fun q => { q with
    rxNext := q.rxNext + 1, rxStopped := false,
    held := if ctl then q.held else bump q.held (flitVc f) 1,
    rxHold := q.rxHold ++ [⟨q.rxNext, f, if ctl then some [] else none, early⟩] })
  let s := if flitAckv f && !causeway q then ackedSeq s p (flitAck f) else s
  let s := if flitNak f && flitAckv f && !causeway q then (match execNakReceive p (flitAck f) s with
    | .next s => s
    | _ => s) else s
  let s := if early then passOn s p f (skidContent s p f) else s
  let s := if flitTag f then closeGroup s p f else drainRx ((portOf s p).rxHold.length + 1) s p
  let q := portOf s p
  if causeway q && q.mode ≠ 0 && decide (q.xacked + 1024 ≤ acceptedCount q) then sendAck s p false else s

/-- FLIT_RECEIVE (R349, R350, R352, R374, R382): accepted when its CRC passes and its SEQ is the next; else discarded. -/
def execFlitReceive (port : Nat) (flit : Flit) (s : State) : Out :=
  let down := (portOf s port).mode = 0
  let s := if down then s else modPort (turnMap s port) port (fun q => unwire q (flitOk flit))
  let q := portOf s port
  let no := flitNo q flit
  let s := if down then s else modPort s port (fun q => countIn q flit)
  if q.mode = 0 then .next s
  else if !flitOk flit then .next (discardFlit s port false)
  -- on a causeway more flits are under way than SEQ tells apart: after a broken one XSEQ names the number anew
  else if no = q.rxNext && !(causeway q && q.rxLost) then .next (acceptFlit s port flit)
  else if causeway q && flitVc flit == 6 && (flitContent flit).head? == some 0x05 then
    -- the XSEQ that leads a resend stands outside the sequence (log entry 43)
    execXseq port (leNat (((flitContent flit).drop 1).take 4)) s
  else .next (discardFlit s port (decide (no < q.rxNext)))

end Sys2Proof.Machine
end

