-- ==== Sys2Proof/Machine/Fabric.lean ====
section
/-! DEFINITION. Routing and end-to-end delivery (R358 to R371, R375, R381, R383): the choice of a port, requests at their
target and their answers, tags, replay, the reply cache, combining, and the barrier counters. -/

namespace Sys2Proof.Machine

/-! Packets in the router -/

/-- Class of a packet of this device (R359): 0 REQ, 1 FWD, 2 RSP, 3 MGT. -/
def packetClass (p : Packet) (fwd : Bool) : Nat :=
  if 0x20 ≤ p.kind.toNat then 3 else if 0x10 ≤ p.kind.toNat then 2 else if p.kind = 8 || fwd then 1 else 0

/-- The channel on which a held packet goes on (R359, R363). -/
def heldVc (h : Held) : Nat :=
  match h.cls with
  | 0 => if h.pkt.esc then 1 else 0
  | 1 => if h.pkt.esc then 3 else 2
  | 2 => 4
  | _ => 5

/-- Whether a KIND is one of R359. -/
def kindOk (k : Nat) : Bool := decide (1 ≤ k ∧ k ≤ 8) || decide (0x10 ≤ k ∧ k ≤ 0x14) || k == 0x20

/-- BW_CTL.CUR (R364). -/
def bwCur (s : State) : Bool := s.router.bwctl.getLsbD 0

/-- Look at a held packet again in the next cycle, once. -/
def routeAgain (s : State) (id : Nat) : State :=
  if s.agenda.any (fun e => e.ev == .packetRoute id) then s else schedule s 1 (.packetRoute id)

/-- A packet of this device enters the router: with its routing fields as at the source. -/
def injectPacket (s : State) (p : Packet) (cls : Nat) : State :=
  let p := { p with src := s.plat.devid, tp := decide (2 ≤ cls) && bwCur s, dn := false, nm := false, hops := 0, esc := false,
                    int := 0 }
  let id := s.router.nextId
  let s := modRouter s (fun r => { r with
    nextId := id + 1, packets := mput id ⟨p, 44, 0, 0, cls, s.now, none⟩ r.packets })
  routeAgain s id

/-- The answer to a request (R360): requester as DST, request's tag. -/
def answer (req : Packet) (kind sub : Nat) (data : List Byte) : Packet :=
  { blankPacket with dst := req.src, job := req.job, kind := BitVec.ofNat 8 kind, sub := BitVec.ofNat 8 sub, tag := req.tag,
                     len := BitVec.ofNat 13 data.length, data := data }

/-- Answer a request. -/
def respondTo (s : State) (req : Packet) (kind sub : Nat) (data : List Byte := []) : State :=
  injectPacket s (answer req kind sub data) 2

/-- A packet leaves the router, and its flits the receive buffer. -/
def dropHeld (s : State) (id : Nat) (h : Held) : State :=
  freeFlits (modRouter s (fun r => { r with packets := mdel id r.packets })) h.inPort h.inVc h.flits

/-- A packet is discarded with a LINKERR event (R359, R363, R377). -/
def linkErr (s : State) (id : Nat) (h : Held) (reason : Nat) : State :=
  linkEvent (dropHeld s id h) 0x2C 0 (h.inPort + 256 * h.pkt.kind.toNat) reason

/-! The tables (R361) -/

/-- Byte o of the router block's tables. -/
def tableByte (s : State) (o : Nat) : Nat := bits (8 * (o % 8)) 8 (mgetD 0 (o / 8 * 8) s.router.table).toNat

/-- n bytes of the tables. -/
def tableNat (s : State) (o n : Nat) : Nat := ((List.range n).map (fun i => tableByte s (o + i) * 2 ^ (8 * i))).sum

/-- Minimal ports to a member of the own group. -/
def localPorts (s : State) (m : Nat) : List Nat :=
  if 1058 ≤ m then [] else ((List.range 4).map (fun i => tableByte s (0x10000 + 32 * m + i))).filter (fun p => decide (p < 44))

/-- Minimal hop count to a member of the own group. -/
def localHops (s : State) (m : Nat) : Nat := tableByte s (0x10000 + 32 * m + 4)

/-- Intermediate members of an entry. -/
def localInts (s : State) (m : Nat) : List Nat :=
  if 1058 ≤ m then []
  else ((List.range 11).map (fun i => tableNat s (0x10000 + 32 * m + 8 + 2 * i) 2)).filter (fun i => decide (i < 1058))

/-- Valid gateways to a group: member and causeway port. -/
def gateways (s : State) (g : Nat) : List (Nat × Nat) :=
  ((List.range 8).map (fun i => tableNat s (0x30000 + 64 * g + 4 * i) 4)).filterMap (fun v =>
    if bits 31 1 v = 1 then some (bits 0 11 v, bits 16 6 v) else none)

/-- Group and member of a device id (R348). -/
def devGroup (d : Nat) : Nat := d / 2048
def devMember (d : Nat) : Nat := d % 2048

/-- Ports towards a device, each with the remaining hops through it; a causeway hop is followed by at most two (R348). -/
def towards (s : State) (d : Nat) : List (Nat × Nat) :=
  let me := s.plat.devid.toNat
  if devGroup d = devGroup me then (localPorts s (devMember d)).map (fun p => (p, localHops s (devMember d)))
  else (gateways s (devGroup d)).flatMap (fun g =>
    if g.1 = devMember me then [(g.2, 3)] else (localPorts s g.1).map (fun p => (p, localHops s g.1 + 3)))

/-- Up and down masks towards a device under a parity (R361). -/
def treeMasks (s : State) (tp : Bool) (d : Nat) : Nat × Nat :=
  if 1058 ≤ devMember d then (0, 0)
  else
    let o := 0x100000 + 0x100000 * b2n tp + 16 * (devGroup d * 1058 + devMember d)
    (tableNat s o 8 % 2 ^ 44, tableNat s (o + 8) 8 % 2 ^ 44)

/-- Whether the table of a parity is valid (R364). -/
def treeValid (s : State) (tp : Bool) : Bool := s.router.bwctl.getLsbD (1 + b2n tp)

/-! The choice of a port (R362, R363) -/

/-- Flits queued for a port on adaptive channels, a packet itself left out. -/
def queuedFor (s : State) (p id : Nat) : Nat :=
  ((s.router.packets.filter (fun h => h.1 != id && h.2.port == some p && decide (h.2.cls < 2) && !h.2.pkt.esc)).map
    (fun h => packetFlits h.2.pkt)).sum

/-- The score of a port (R362). -/
def portScore (s : State) (id p hops : Nat) : Nat :=
  let q := portOf s p
  let e := decide (wf 7 0 q.lcfg < 2 * (q.laneErr.map (·.2)).sum)
  queuedFor s p id * hops + 64 * (8 - laneCount q.rxMask) + 256 * b2n e

/-- The candidate with the least score, the lowest port on a tie. -/
def bestPort (s : State) (id : Nat) (c : List (Nat × Nat)) : Option (Nat × Nat) :=
  c.foldl (fun b x =>
    let v := portScore s id x.1 x.2
    match b with
    | none => some (x.1, v)
    | some y => if v < y.2 || (v == y.2 && decide (x.1 < y.1)) then some (x.1, v) else b) none

/-- Whether a port takes a packet now (R356): the credits and the window cover all of it. -/
def portTakes (s : State) (vc : Nat) (pkt : Packet) (p : Nat) : Bool :=
  let q := portOf s p
  let n := packetFlits pkt
  (carried (min q.mode (modeOf (laneCount q.txMask)))).contains vc && decide (n ≤ creditsFor q vc) && linkRoom s q n && q.ctl.isEmpty

/-- The candidates with the fewest remaining hops. -/
def minimal (c : List (Nat × Nat)) : List (Nat × Nat) :=
  let least := c.foldl (fun m x => min m x.2) 64
  c.filter (fun x => x.2 == least)

/-- Adaptive candidates of a packet (R362): ports in FULL mode. -/
def candidates (s : State) (h : Held) (d : Nat) : List (Nat × Nat) :=
  let c := (towards s d).filter (fun x => (portOf s x.1).mode == 2)
  if h.inPort = 44 then c else minimal c

/-- At the source (R362): a route through an intermediate drawn at random, with its candidates. -/
def detour (s : State) (k d : Nat) : Option (Nat × List (Nat × Nat)) :=
  let me := s.plat.devid.toNat
  let g := devGroup me
  let via (m extra : Nat) : Option (Nat × List (Nat × Nat)) :=
    if m = devMember me then none
    else some (g * 2048 + m, ((towards s (g * 2048 + m)).filter (fun x => (portOf s x.1).mode == 2)).map (fun x => (x.1, x.2 + extra)))
  if devGroup d = g then
    let l := localInts s (devMember d)
    if l.isEmpty then none else via ((l[Config.draw k % l.length]?).getD 0) 2
  else
    let others := (List.range 32).filter (fun x => x != g && x != devGroup d && !(gateways s x).isEmpty)
    if others.isEmpty then none
    else
      let gs := gateways s ((others[Config.draw k % others.length]?).getD 0)
      via ((gs[Config.draw (k + 1) % gs.length]?).getD (0, 0)).1 5

/-- The adaptive step (R362): the packet, with NM and INT where it takes a detour, and the port it prefers. -/
def adaptivePort (s : State) (id : Nat) (h : Held) : (Held × Option Nat × List (Nat × Nat)) × State :=
  let d := if h.pkt.nm then h.pkt.int.toNat else h.pkt.dst.toNat
  let c := candidates s h d
  let best := bestPort s id c
  if h.inPort = 44 && !h.pkt.nm && best.any (fun b => decide (2048 < b.2)) then
    let (k, s) := takeFree s
    match detour s k d with
    | none => ((h, best.map (·.1), c), s)
    | some (i, c') =>
      match bestPort s id c', best with
      | some a, some b =>
        if a.2 < b.2 then (({ h with pkt := { h.pkt with nm := true, int := BitVec.ofNat 16 i } }, some a.1, c'), s)
        else ((h, some b.1, c), s)
      | _, _ => ((h, best.map (·.1), c), s)
  else ((h, best.map (·.1), c), s)

/-- Boardwalk ports of a packet (R363), and whether each is a down port. -/
def treePorts (s : State) (h : Held) : List (Nat × Bool) :=
  let (up, down) := treeMasks s h.pkt.tp h.pkt.dst.toNat
  (List.range 44).filterMap (fun p =>
    if bits p 1 down = 1 then some (p, true) else if bits p 1 up = 1 && !h.pkt.dn then some (p, false) else none)

/-- Whether a packet queued for a port may go out of it now, and whether that is a down port. -/
def goesBy (s : State) (h : Held) (p : Nat) : Option Bool :=
  if h.port != some p then none
  else if 2 ≤ h.cls || h.pkt.esc then
    if treeValid s h.pkt.tp then ((treePorts s h).find? (fun x => x.1 == p)).map (·.2) else none
  else if h.pkt.hops.toNat < 10 &&
      (candidates s h (if h.pkt.nm then h.pkt.int.toNat else h.pkt.dst.toNat)).any (fun x => x.1 == p) then some false
  else none

/-- The packets of the same job and channel queued for a port that its credits and window cover behind n flits: they share tag
groups with the one that goes out (R374). -/
def gather (s : State) (p vc : Nat) (job : BitVec 16) : List (Nat × Held) → Nat → List (Nat × Held)
  | [], _ => []
  | (id, h) :: r, n =>
    let m := n + packetFlits h.pkt
    match if h.pkt.job == job && heldVc h == vc then goesBy s h p else none with
    | some down =>
      if decide (m ≤ creditsFor (portOf s p) vc) && linkRoom s (portOf s p) m then
        (id, { h with pkt := { h.pkt with dn := h.pkt.dn || down } }) :: gather s p vc job r m
      else []
    | none => gather s p vc job r n

/-- The packet goes out of a port (R356, R358, R363), and with it those that are queued behind it (R374). -/
def emit (s : State) (id : Nat) (h : Held) (p : Nat) (down : Bool) : State :=
  let h := { h with pkt := { h.pkt with dn := h.pkt.dn || down } }
  let vc := heldVc h
  let all := (id, h) :: gather s p vc h.pkt.job (s.router.packets.filter (fun x => x.1 != id)) (packetFlits h.pkt)
  let s := sendPackets s p vc h.pkt.job (all.map (·.2.pkt))
  all.foldl (fun s x => dropHeld s x.1 x.2) s

/-- Keep the packet queued for a port. -/
def queueOn (s : State) (id : Nat) (h : Held) (p : Option Nat) : State :=
  routeAgain (modRouter s (fun r => { r with packets := mput id { h with port := p } r.packets })) id

/-- ESCAPE_TIMEOUT (R363): the packet moves to the boardwalk under the current parity. -/
def execEscapeTimeout (id : Nat) (s : State) : Out :=
  match mget id s.router.packets with
  | none => .next s
  | some h =>
    let h : Held := { h with port := none, pkt := { h.pkt with esc := true, tp := bwCur s } }
    .next (routeAgain (modRouter s (fun r => { r with packets := mput id h r.packets })) id)

/-- Send a packet on its class's adaptive channel, queue it, or let it escape (R362, R363). -/
def routeAdaptive (s : State) (id : Nat) (h : Held) : State :=
  let ((h, best, c), s) := adaptivePort s id h
  let able := c.filter (fun x => portTakes s (heldVc h) h.pkt x.1)
  match bestPort s id able with
  | some b => emit s id h b.1 false
  | none =>
    let s := queueOn s id h best
    if h.since + 256 ≤ s.now then pushEvs s [.escapeTimeout id] else s

/-- Send a packet along the boardwalk (R363, R364). -/
def routeTree (s : State) (id : Nat) (h : Held) : State :=
  if !treeValid s h.pkt.tp then linkErr s id h 3
  else
    let legal := (treePorts s h).filter (fun x => (portOf s x.1).mode != 0)
    if legal.isEmpty then linkErr s id h 2
    else
      let able := legal.filter (fun x => portTakes s (heldVc h) h.pkt x.1)
      match bestPort s id (able.map (fun x => (x.1, 1))) with
      | some b => emit s id h b.1 ((able.find? (fun x => x.1 == b.1)).any (·.2))
      | none => queueOn s id h ((bestPort s id (legal.map (fun x => (x.1, 1)))).map (·.1))

/-! Requests of this device (R366, R367) -/

/-- Sixtieths of a 2.1 GHz cycle in a microsecond, and in 4 ms. -/
def usec : Nat := 126000
def fourMs : Nat := 504000000

/-- The end-to-end timeout for a destination (R367, R369), in units of the fabric timer. -/
def e2eLimit (s : State) (dst : Nat) : Nat :=
  let n := wf 33 32 s.router.e2e
  let t := if devGroup dst = devGroup s.plat.devid.toNat then wf 15 0 s.router.e2e else wf 31 16 s.router.e2e
  (if 4000 < t * (n + 1) then 4000 / (n + 1) else t) * usec

/-- Whether a COLLP travels on the FWD class (R372). -/
def waiterFwd : Waiter → Bool
  | .coll _ f _ => f
  | _ => false

/-- TAG_REUSE_READY (R367): the first waiting request takes the next tag, unless that was used within 4 ms or its request is
still without a response. -/
def execTagReuseReady (s : State) : Out :=
  let r := s.router
  match r.waiting with
  | [] => .next s
  | (p, w) :: rest =>
    let tag := r.nextTag
    if (mget tag r.tagUse).any (fun u => decide (s.timer < u + fourMs)) || (mget tag r.outst).isSome then
      .next (if s.agenda.any (fun e => e.ev == .tagReuseReady) then s else schedule s 1 .tagReuseReady)
    else
      let p := { p with tag := BitVec.ofNat 24 tag }
      let s := modRouter s (fun r => { r with
        waiting := rest, nextTag := (tag + 1) % 2 ^ 24, tagUse := mput tag s.timer r.tagUse,
        outst := mput tag ⟨p, w, 0, 0, s.timer, false⟩ r.outst })
      .next (injectPacket s p (packetClass p (waiterFwd w)))

/-- Change a request that awaits its answer. -/
def modOutst (s : State) (tag : Nat) (f : Outst → Outst) : State :=
  match mget tag s.router.outst with
  | none => s
  | some o => modRouter s (fun r => { r with outst := mput tag (f o) r.outst })

/-- The request that an answer is for; an ERR of a router on the way comes from another device than the target (R375). -/
def outstOf (s : State) (p : Packet) : Option Outst :=
  (mget p.tag.toNat s.router.outst).filter (fun o => o.pkt.dst == p.src || p.kind == 0x14)

/-- The request is answered: its copy is forgotten. -/
def forget (s : State) (p : Packet) : State := modRouter s (fun r => { r with outst := mdel p.tag.toNat r.outst })

/-- One of a forward-pending entry's packets has been answered (R366). -/
def fwdAnswered (s : State) (key : Nat) : State :=
  let left (l : Map Nat) : Map Nat := match mget key l with
    | some n => if n ≤ 1 then mdel key l else mput key (n - 1) l
    | none => l
  modRouter s (fun r => { r with fwd := left r.fwd })

/-- A packet of a collective operation has been answered; a relayed one leaves its forward-pending entry (R366). -/
def collAnswered (s : State) (ctx : Nat) (fwd : Bool) : State :=
  let s := match fwd, ((collOf s ctx).ops.head?).bind (·.relay) with
    | true, some key => fwdAnswered s key
    | _, _ => s
  modCollOp s ctx (fun o => { o with waiting := o.waiting - 1 })

/-- The generic address that a collective operation reads next (R321): of its source, or of its residual. -/
def collReadAt (o : CollOp) : Word :=
  let d := collDesc o.desc
  if o.stage = 0 then d.src + BitVec.ofNat 64 o.own.length else d.resid + BitVec.ofNat 64 o.resid.length

/-- A FATOM's answer, or error, reaches its core (R319, R367). -/
def fatomAnswer (s : State) (c req tid : Nat) (v : Row) (f : Option FaultRec) : State :=
  match threadOf s c, reqOf s c req with
  | some t, some q =>
    if t.det.tid ≠ tid then s
    else
      let s := if f.isNone && acquires q.ord then modThread s c (fun t =>
          if tracked t then withAcq t (acquireScope (acqOf t) 5) else t) else s
      let f := f.map (fun f => { f with ga := (q.parts.head?).elim 0 (·.ga), pa := (q.parts.head?).elim 0 (fun p => BitVec.ofNat 64 p.pa) })
      deliverReq s c req v (1 + 2 * railDist c) f
  | _, _ => s

/-- An operation's piece has been performed at its target (R134, R381). -/
def pieceDone (s : State) (ctx no : Nat) (dst : Word) : State :=
  if ctx % 8 = 5 then probeAnswer s ctx no (.ok [])
  else wake (modOp s ctx no (fun o => { o with waiting := o.waiting.erase dst.toNat })) ctx

/-- The issuer of the operation that a waiter belongs to. -/
def waiterIssuer (s : State) (ctx : Nat) : Issuer :=
  if 0x4000 ≤ ctx then (((collOf s ctx).ops.head?).map (·.issuer)).getD (deviceIssuer 0)
  else (((engineOf s ctx).ops.head?).map (·.issuer)).getD (deviceIssuer (ctxCore ctx))

/-- A request fails: the data-error cause of R52, or none where its target is unreachable (R51, R323, R367). -/
def requestFails (s : State) (o : Outst) (cause : Option Nat) : State :=
  let pa := o.pkt.addr.toNat
  let code := cause.getD 4
  let rec_ (ctx : Nat) : Word :=
    if 0x4000 ≤ ctx then ((collOf s ctx).ops.head?).elim 0 (·.addr) else if ctx % 8 < 4 then (engineOf s ctx).cur else 0
  let stop (ctx : Nat) (va : Word) : State := match cause with
    | some c => haltContext s ctx (waiterIssuer s ctx) (dataFault c (ctxReq ctx) va pa ctx)
    | none => haltContext s ctx (waiterIssuer s ctx) (chanFault 9 (ctxReq ctx) ctx (rec_ ctx) va)
  match o.waiter with
  | .fatom c req tid => fatomAnswer s c req tid 0 (some (dataFault code 8 0 pa))
  | .op ctx no dst => if ctx % 8 = 5 && ctx < 0x4000 then probeAnswer s ctx no (.error (code, pa)) else stop ctx dst
  | .ctr ctx no => stop ctx ((((engineOf s ctx).ops.find? (fun x => x.no == no)).bind (·.ctr)).getD 0)
  | .coll ctx fwd va =>
    let s := collAnswered s ctx fwd
    match cause with
    | some c => haltContext s ctx (waiterIssuer s ctx) (dataFault c (ctxReq ctx) va pa ctx)
    | none => haltContext s ctx (waiterIssuer s ctx) (chanFault 9 (ctxReq ctx) ctx (rec_ ctx) va)
  | .collRead ctx => stop ctx (((collOf s ctx).ops.head?).elim 0 collReadAt)
  | .group => bararvAnswered s o.pkt
  | .barrel key => fwdAnswered s key

/-- The target of a request is unreachable (R367, R377). -/
def unreachable (s : State) (tag : Nat) : State :=
  match mget tag s.router.outst with
  | none => s
  | some o => requestFails (linkEvent (forget s o.pkt) 0x2F 0 o.pkt.dst.toNat tag) o none

/-- E2E_TIMEOUT (R367, R369): replayed on a fresh route, or, after the last replay, unreachable. -/
def execE2eTimeout (tag : Nat) (s : State) : Out :=
  match mget tag s.router.outst with
  | none => .next s
  | some o =>
    if o.waits || decide (s.timer < o.at_ + e2eLimit s o.pkt.dst.toNat) then .next s
    else if o.replays < wf 33 32 s.router.e2e then
      let s := modOutst s tag (fun o => { o with replays := o.replays + 1, at_ := s.timer })
      let s := linkEvent s 0x2E 0 o.pkt.dst.toNat (tag + 2 ^ 32 * (o.replays + 1))
      .next (injectPacket s o.pkt (packetClass o.pkt (waiterFwd o.waiter)))
    else .next (unreachable s tag)

/-- RETRY_BACKOFF (R366): the same request is sent again. -/
def execRetryBackoff (tag : Nat) (s : State) : Out :=
  match mget tag s.router.outst with
  | none => .next s
  | some o =>
    if !o.waits then .next s
    else
      let s := modOutst s tag (fun o => { o with waits := false, at_ := s.timer })
      .next (injectPacket s o.pkt (packetClass o.pkt (waiterFwd o.waiter)))

/-! Answers (R360) -/

/-- ACK (R381): the write, arrival or partial has been performed. -/
def execAck (p : Packet) (s : State) : Out :=
  match outstOf s p with
  | none => .next s
  | some o =>
    let s := forget s p
    .next (match o.waiter with
      | .op ctx no dst => pieceDone s ctx no dst
      | .coll ctx fwd _ => collAnswered s ctx fwd
      | .barrel key => fwdAnswered s key
      | .group => bararvAnswered s o.pkt
      | _ => s)

/-- RDRSP (R381): the bytes read. -/
def execRdrsp (p : Packet) (s : State) : Out :=
  match outstOf s p with
  | none => .next s
  | some o =>
    let s := forget s p
    .next (match o.waiter with
      | .op ctx no dst => if ctx % 8 = 5 then probeAnswer s ctx no (.ok p.data) else landPiece s ctx no dst p.data
      | .collRead ctx => modCollOp s ctx (fun o =>
          if o.stage = 0 then { o with own := o.own ++ p.data, waiting := 0 }
          else { o with resid := o.resid ++ p.data, waiting := 0 })
      | _ => s)

/-- ATOMRSP (R319, R320, R381): the old value, or completion. -/
def execAtomrsp (p : Packet) (s : State) : Out :=
  match outstOf s p with
  | none => .next s
  | some o =>
    let s := forget s p
    .next (match o.waiter with
      | .ctr ctx no => counterDone s ctx no
      | .fatom c req tid => fatomAnswer s c req tid (BitVec.ofNat 2048 (leNat p.data)) none
      | .op ctx no dst => pieceDone s ctx no dst
      | _ => s)

/-- RETRY (R366): the request is sent again after 512 * 2^min(n, 5) cycles. -/
def execRetry (p : Packet) (s : State) : Out :=
  match outstOf s p with
  | none => .next s
  | some o =>
    if o.waits then .next s
    else
      let s := modOutst s p.tag.toNat (fun o => { o with retries := o.retries + 1, waits := true })
      .next (schedule s (512 * 2 ^ min o.retries 5) (.retryBackoff p.tag.toNat))

/-- ERR (R51, R360): an error response. -/
def execErr (p : Packet) (s : State) : Out :=
  match outstOf s p with
  | none => .next s
  | some o => .next (requestFails (forget s p) o (some p.sub.toNat))

/-! Requests at their target (R360, R366, R368, R370, R371, R381) -/

/-- Who accesses arriving from the fabric are logged under (R142, R395). -/
def whoFabric : Who := { die := 0, core := 0, ctx := 0x4800 }

/-- The requester of an arriving access, for the log (R395): the context or the core of this device whose packet it is; ingress
for packets of other devices. -/
def whoArrive (s : State) (p : Packet) : Who :=
  let w : Option Waiter := if p.src == s.plat.devid then (outstOf s p).map (·.waiter) else none
  match w with
  | some (.op ctx _ _) | some (.ctr ctx _) | some (.coll ctx _ _) | some (.collRead ctx) => whoCtx ctx
  | some (.fatom c _ _) => { whoCore c with req := 8 }
  | _ => whoFabric

/-- Tag the granules of an ingress write (R146): ECTX 0x4800, number 0. A packet names no page, so whether the page of a
write from another device is UNCHK is not known here (log entry 91). -/
def ingressTags (s : State) (pa n : Nat) : State :=
  if inSram pa then touchGranules s (issuerView (deviceIssuer 0)) (.engineWrite 0x4800 0 none) (granules pa n) else s

/-- This device's own request that an arriving packet brings: who waits for its answer. -/
def ownWaiter (s : State) (p : Packet) : Option Waiter :=
  if p.src == s.plat.devid then (outstOf s p).map (·.waiter) else none

/-- The own operation that an arriving packet belongs to: its context, the operation, the address written. -/
def ownOp (s : State) (p : Packet) : Option (Nat × FabOp × Word) :=
  let op (ctx no : Nat) (va : FabOp → Word) : Option (Nat × FabOp × Word) :=
    if 0x4000 ≤ ctx then none
    else ((engineOf s ctx).ops.find? (fun o => o.no == no)).map (fun o => (ctx, o, va o))
  match ownWaiter s p with
  | some (.op ctx no dst) => op ctx no (fun _ => dst)
  | some (.ctr ctx no) => op ctx no (fun o => o.ctr.getD 0)
  | _ => none

/-- Whether an own operation reaches an address through an UNCHK page (R22). -/
def opUnchk (s : State) (x : Nat × FabOp × Word) : Bool :=
  match heldPlace x.1 (engineOf s x.1) x.2.1.issuer .write x.2.2 with
  | .ok (some p) => p.unchk
  | _ => false

/-- What a write that arrives does to the tags (R146, R318): it is ingress; a transfer that a handler of this device issued
clears them (R336), and one through an UNCHK page leaves them. -/
def arrivalTags (s : State) (p : Packet) (pa n : Nat) : State :=
  match ownOp s p with
  | some x =>
    if opUnchk s x then s
    else if x.2.1.issuer.handler then (if inSram pa then clearTags s pa n else s)
    else ingressTags s pa n
  | none => ingressTags s pa n

/-- Why a request for this device's memory cannot be served now: held during a window, or RETRY with a reason. -/
inductive Hold where
  | no | window | retry (reason : Nat)
  deriving DecidableEq, Repr

/-- An incoming request to HBM is answered retry-later while a drop drains or rebuilds, and every request to it is held in a
dredge window (R79, R84). -/
def holdOf (s : State) (src : BitVec 16) (pa : Nat) : Hold :=
  if !inHbm pa then .no
  else if src != s.plat.devid && s.hbm.drop.any (fun d => decide (2 ≤ d.2 ∧ d.2 < 5)) then .retry 2
  else if inWindow s then .window
  else .no

/-- WR (R360, R381): the bytes are performed at their homes, then ACK. -/
def execWr (p : Packet) (s : State) : Out :=
  match performWrite s (whoArrive s p) p.addr.toNat p.data with
  | (some (e, _), s) => .next (respondTo s p 0x14 e)
  | (none, s) => .next (respondTo (arrivalTags s p p.addr.toNat p.data.length) p 0x10 0)

/-- RDREQ (R360). -/
def execRdreq (p : Packet) (s : State) : Out :=
  let (g, s) := readPa s (whoArrive s p) p.addr.toNat (p.aux.toNat % 8192)
  match g.err with
  | some (e, _) => .next (respondTo s p 0x14 e)
  | none => .next (respondTo s p 0x11 0 g.bytes)

/-- The reply cache's key (R368). -/
def replyKey (p : Packet) : Nat := p.src.toNat * 2 ^ 24 + p.tag.toNat

/-- Store a response for 4 ms of fabric-timer time and send it (R368). -/
def reply (s : State) (req rsp : Packet) : State :=
  injectPacket (modRouter s (fun r => { r with
    replies := mput (replyKey req) (rsp, s.timer + fourMs) r.replies, inWork := r.inWork.filter (· ≠ replyKey req) })) rsp 2

/-- A tagged request (R368): answered from the cache, left to the one in work, refused while the cache is full, or
applied. -/
def tagged (s : State) (p : Packet) (f : State → State) : Out :=
  match mget (replyKey p) s.router.replies with
  | some (rsp, _) => .next (injectPacket s rsp 2)
  | none =>
    if s.router.inWork.contains (replyKey p) then .next s
    else if 65536 ≤ s.router.replies.length + s.router.inWork.length then .next (respondTo s p 0x13 3)
    else .next (f s)

/-- REPLY_CACHE_EXPIRY (R368). -/
def execReplyCacheExpiry (src tag : Nat) (s : State) : Out :=
  .next (modRouter s (fun r => { r with replies := mdel (src * 2 ^ 24 + tag) r.replies }))

/-- One read-modify-write at its home: the old value, or the error's cause. -/
def fabricAtomic (s : State) (who : Who) (pa w : Nat) (f : Word → Word) : Except Nat Word × State :=
  let (g, s) := readPa s who pa w
  match g.err with
  | some (e, _) => (.error e, s)
  | none =>
    let old : Word := BitVec.ofNat 64 (leNat g.bytes)
    match performWrite s who pa (leBytes w (f old).toNat) with
    | (some (e, _), s) => (.error e, s)
    | (none, s) => (.ok old, s)

/-- The request of an own thread that an arriving FATOM performs: core, request, and its part at its width. -/
def ownFatom (s : State) (p : Packet) (w : Nat) : Option (Nat × Req × Part) :=
  match ownWaiter s p with
  | some (.fatom c req tid) =>
    match threadOf s c, reqOf s c req with
    | some t, some q => if t.det.tid = tid then (q.parts.head?).map (fun x => (c, q, { x with len := w })) else none
    | _, _ => none
  | _ => none

/-- The checks and the tags of an atomic that arrives: for this device's own thread a synchronising atomic, with what it
acquires (R143, R144, R146); else ingress. A failed check is the thread's fault. -/
def atomTouch (s : State) (own : Option (Nat × Req × Part)) (pa w : Nat) : Except FaultRec State :=
  match own with
  | some (c, q, x) => touchAt (withDet s c (acquireDet s c q x)) c (.syncStore (releases q.ord) q.scope) x
  | none => .ok (ingressTags s pa w)

/-- ATOM (R254, R319, R360, R368). An own thread's that the detector refuses is not performed (R147). -/
def execAtomPacket (p : Packet) (s : State) : Out :=
  tagged s p (fun s =>
    let sub := p.sub.toNat
    let w := if bits 4 1 sub = 1 then 8 else 4
    let x : Word := BitVec.ofNat 64 (leNat (p.data.take 8))
    let y : Word := BitVec.ofNat 64 (leNat ((p.data.drop 8).take 8))
    let own := ownFatom s p w
    match atomTouch s own p.addr.toNat w, own with
    | .error f, some (c, q, _) => refuseReq (forget s p) c q.id f
    | .error _, none => s
    | .ok s, _ =>
      match fabricAtomic s (whoArrive s p) p.addr.toNat w (fun old => atomNew (bits 0 4 sub) w old x y) with
      | (.error e, s) => reply s p (answer p 0x14 e [])
      | (.ok old, s) =>
        let s := match own with
          | some (c, q, x) => if releases q.ord then recordAt s c x.pa x.unchk else s
          | none => s
        reply s p (answer p 0x12 0 (if bits 5 1 sub = 1 then leBytes 8 old.toNat else [])))

/-- CTRADD (R318, R381): an add of 1, a release at job scope. -/
def execCtradd (p : Packet) (s : State) : Out :=
  tagged s p (fun s =>
    match fabricAtomic s (whoArrive s p) p.addr.toNat 8 (· + 1) with
    | (.error e, s) => reply s p (answer p 0x14 e [])
    | (.ok _, s) => reply (arrivalTags s p p.addr.toNat 8) p (answer p 0x12 0 []))

/-- VATOM (R370, R383): held for up to 64 cycles from the first arrival for its line and element type. -/
def execVatomPacket (p : Packet) (s : State) : Out :=
  tagged s p (fun s =>
    let line := p.addr.toNat / 128 * 128
    let ft := p.sub.getLsbD 0
    let s := modRouter s (fun r => { r with inWork := replyKey p :: r.inWork })
    let mine (c : Combine) : Bool := c.line == line && c.ft == ft
    let join (c : Combine) : Combine := { c with parts := c.parts ++ [p] }
    if s.router.combine.any mine then modRouter s (fun r => { r with combine := modWhere mine join r.combine })
    else schedule (modRouter s (fun r => { r with combine := r.combine ++ [⟨line, ft, [p]⟩] })) 64 (.combineWindowEnd line ft))

/-- An element of a line after the components' sum is added (R320, R370). -/
def vatomElem (ft : Bool) (old : Nat) (xs : List Nat) : Nat :=
  let f : Fmt := if ft then .bf16 else .fp32
  let wide (x : Nat) : Nat := if ft then x * 65536 else x
  let v : FVal := match xs with
    | [] => .fin false 0 0
    | [x] => decodeF f x
    | x :: r => decodeF .fp32 ((r.map wide).foldl addFp32 (wide x))
  (roundTo f (fsum 0 [decodeF f old, v]).1 0 false).1

/-- The components of a window that are performed (R146, R147, R336): this device's own are writes of their fabric channel,
checked against their issuer; one that the detector refuses halts its context and is not performed. -/
def admitted (line : Nat) : List Packet → State → List Packet × State
  | [], s => ([], s)
  | p :: r, s =>
    let touched : Except FaultRec State := match ownOp s p with
      | none => .ok (ingressTags s line 128)
      | some x =>
        if opUnchk s x || !inSram line then .ok s
        else engineTouch s x.2.1.issuer (writeKind x.1 x.2.1.no none) line 128 x.2.2 (ctxReq x.1) x.1
    match touched, ownOp s p with
    | .error f, some x => admitted line r (haltContext (forget s p) x.1 x.2.1.issuer f)
    | .error _, none => admitted line r s
    | .ok s, _ => let (ps, s) := admitted line r s; (p :: ps, s)

/-- COMBINE_WINDOW_END (R320, R370): the sum is applied to the line once, in the name of the first component; each is answered. -/
def execCombineWindowEnd (line : Nat) (ft : Bool) (s : State) : Out :=
  match s.router.combine.find? (fun c => c.line == line && c.ft == ft) with
  | none => .next s
  | some c =>
    if inHbm line && inWindow s then .next (schedule s 1 (.combineWindowEnd line ft))
    else
      let s := modRouter s (fun r => { r with combine := r.combine.filter (fun x => !(x.line == line && x.ft == ft)) })
      let n := if ft then 2 else 4
      let (ps, s) := admitted line c.parts s
      match ps.head?.map (whoArrive s) with
      | none => .next s
      | some who =>
      let (g, s) := readPa s who line 128
      let parts := ps.map (fun p => elemsOf n p.data)
      let new := (elemsOf n g.bytes).zipIdx.map (fun e => vatomElem ft e.1 (column e.2 parts))
      let (err, s) := match g.err with
        | some e => (some e.1, s)
        | none => match performWrite s who line (bytesOf n new) with
          | (some (e, _), s) => (some e, s)
          | (none, s) => (none, s)
      .next (ps.foldl (fun s p => reply s p (match err with
        | some e => answer p 0x14 e []
        | none => answer p 0x12 0 [])) s)

/-! Barrier counters (R366, R371) -/

/-- The root's key of a group. -/
def rootKey (p : Packet) : Nat := p.job.toNat * 65536 + p.aux.toNat % 65536

/-- The phase that a barrier packet names (R360). -/
def barrierPhase (p : Packet) : Nat := p.aux.toNat / 65536 % 16

/-- The root's entry of a group. -/
def rootOf (s : State) (key : Nat) : RootEntry := mgetD ⟨0, [], [], [], [], [], []⟩ key s.router.roots

/-- Put an entry at the root. -/
def setRoot (s : State) (key : Nat) (e : RootEntry) : State :=
  modRouter s (fun r => { r with roots := if e.packages.isEmpty && e.joining.isEmpty then mdel key r.roots else mput key e r.roots })

/-- Whether every registered package has arrived, or has left (R137, R371). -/
def rootDone (e : RootEntry) : Bool := !e.packages.isEmpty && e.packages.all (fun d => e.arrived.contains d || e.leaving.contains d)

/-- The number that a package gives the group's present phase (log entry 49). -/
def phaseOf (e : RootEntry) (d : Nat) : Nat := mgetD 0 d e.nums

/-- Whether an arrival that names phase k is a package's arrival at the phase it is at, or at the first it joins at: a replay of
an earlier one is not (R367, R371). -/
def arrivesAt (e : RootEntry) (d k : Nat) : Bool :=
  (e.packages.contains d && phaseOf e d == k) || (e.joining.contains d && phaseOf e (65536 + d) == k)

/-- The entry at the next phase (R371): leaves and joins take effect. -/
def nextPhase (e : RootEntry) : RootEntry :=
  let stay := e.packages.filter (fun d => !e.leaving.contains d)
  let come := e.joining.filter (fun d => !stay.contains d)
  { phase := (e.phase + 1) % 16, packages := stay ++ come, arrived := e.arrived.filter (fun d => come.contains d), joining := [],
    leaving := [], fresh := come,
    nums := come.foldl (fun m d => mput d (phaseOf e (65536 + d)) m)
      (stay.foldl (fun m d => mput d ((phaseOf e d + 1) % 16) m) []) }

/-- BARREL of the phase that ends goes to every registered package through the forward-pending buffer (R366, R371). -/
def multicast (s : State) (p : Packet) (e : RootEntry) : State :=
  let (k, s) := takeStamp s
  let s := modRouter s (fun r => { r with fwd := mput k e.packages.length r.fwd })
  e.packages.foldl (fun s d => queuePacket s { blankPacket with
    dst := BitVec.ofNat 16 d, job := p.job, kind := 8,
    aux := BitVec.ofNat 52 (p.aux.toNat % 65536 + 65536 * phaseOf e d) } (.barrel k)) s

/-- Answer an arrival or a leave. It may end the phase, and with it the next, where all that are left joined and have arrived
already; RETRY 1 where the forward-pending buffer is full (R366, R371). -/
def rootStep (s : State) (p : Packet) (e : RootEntry) : Out :=
  let key := rootKey p
  let e' := nextPhase e
  let both := rootDone e'
  if !rootDone e then .next (respondTo (setRoot s key e) p 0x10 0)
  else if 16 < s.router.fwd.length + 1 + b2n both then .next (respondTo s p 0x13 1)
  else
    let s := multicast s p e
    let s := if both then multicast s p e' else s
    .next (respondTo (setRoot s key (if both then nextPhase e' else e')) p 0x10 0)

/-- BARARV arrive (R371). -/
def execBarArvArrive (p : Packet) (s : State) : Out :=
  let e := rootOf s (rootKey p)
  let d := p.src.toNat
  if !arrivesAt e d (barrierPhase p) then .next (respondTo s p 0x10 0)
  else rootStep s p { e with arrived := if e.arrived.contains d then e.arrived else e.arrived ++ [d] }

/-- BARARV join (R371): at the group's next phase; at once for a group without packages. -/
def execBarArvJoin (p : Packet) (s : State) : Out :=
  let e := rootOf s (rootKey p)
  let d := p.src.toNat
  let k := barrierPhase p
  let e := if e.packages.isEmpty then { e with packages := [d], phase := k, nums := [(d, k)], fresh := [d] }
    else if e.joining.contains d || (e.packages.contains d && !e.leaving.contains d) then e
    else { e with joining := e.joining ++ [d], nums := mput (65536 + d) k e.nums }
  .next (respondTo (setRoot s (rootKey p) e) p 0x10 0)

/-- Whether a leave that names phase k ends a package's present registration: BARREL of the phase before may be on its way. -/
def leavesAt (e : RootEntry) (d k : Nat) : Bool :=
  e.packages.contains d && (phaseOf e d == k || (phaseOf e d == (k + 1) % 16 && !e.fresh.contains d))

/-- BARARV leave (R371): at the group's next phase; it counts as the package's arrival at the present one. -/
def execBarArvLeave (p : Packet) (s : State) : Out :=
  let e := rootOf s (rootKey p)
  let d := p.src.toNat
  if e.joining.contains d then
    .next (respondTo (setRoot s (rootKey p) { e with joining := e.joining.filter (· ≠ d) }) p 0x10 0)
  else if !leavesAt e d (barrierPhase p) then .next (respondTo s p 0x10 0)
  else rootStep s p { e with leaving := if e.leaving.contains d then e.leaving else e.leaving ++ [d] }

/-- BARREL (R313, R371): the phase it names ends for the members here, of every entry that holds the JOBID; a replay of one that
has ended does nothing more. -/
def execBarrel (p : Packet) (s : State) : Out :=
  let gid := p.aux.toNat % 65536
  let jobid := p.job.toNat
  let l := localOf s jobid gid
  .next (respondTo (if l.here && l.phase % 16 == barrierPhase p then packagePhase s jobid gid else s) p 0x10 0)

/-- Whether a partial vector that reaches a context is the last that its rank, a leader, needs before it relays (R366, R372). -/
def relays (k : Coll) (x : CollIn) : Bool :=
  match k.ops with
  | o :: _ =>
    let d := collDesc o.desc
    d.mode == 2 && leaderOf o d.rank == d.rank && decide (o.stage ≤ 2) && o.relay.isNone && (gatherFirst k o).isNone &&
      (gatherFirst { k with inbox := k.inbox ++ [x] } o).isSome
  | [] => false

/-- COLLP (R360, R366, R372): a partial vector reaches its context. One that is to be relayed takes a forward-pending entry, or is
answered RETRY 1. -/
def execCollp (p : Packet) (s : State) : Out :=
  let a := p.aux.toNat
  let ctx := 0x4000 + bits 0 8 a
  let k := collOf s ctx
  let x : CollIn := { rank := bits 24 16 a, src := p.src, sub := p.sub, gid := bits 8 16 a, first := p.addr.toNat, data := p.data }
  if relays k x then
    match takeRelay s ctx with
    | none => .next (respondTo s p 0x13 1)
    | some s => let k := collOf s ctx; .next (respondTo (setColl s ctx { k with inbox := k.inbox ++ [x] }) p 0x10 0)
  else .next (respondTo (setColl s ctx { k with inbox := k.inbox ++ [x] }) p 0x10 0)

/-! Registers of the router block (R357, R361, R364, R369, R375) -/

/-- BW_CTL_WRITE (R364, R377): a V bit is not cleared while packets use its table or it is the current one. -/
def execBwCtlWrite (val : Word) (s : State) : Out :=
  let cur := bwCur s
  let keep (k : Bool) : Bool := treeValid s k && (bwCount s k != 0 || k == cur)
  let v (k : Bool) : Bool := val.getLsbD (1 + b2n k) || keep k
  let new : Word := fieldsWord [(2, b2n (v true)), (1, b2n (v false)), (0, b2n (val.getLsbD 0))]
  let s := modRouter s (fun r => { r with bwctl := new })
  .next (if val.getLsbD 0 = cur then s else linkEvent s 0x2D 0 (b2n cur) (b2n (val.getLsbD 0)))

/-- A key command written to KEY_CMD (R375): ignored, with OVF, while BUSY = 1; refused with a code; or begun. -/
def keyCommand (s : State) (refused : Option Nat) (op slot job epoch : Nat) : Out :=
  if s.router.keyBusy.isSome then .next (modRouter s (fun r => { r with keyOvf := true }))
  else match refused with
    | some e => .next (modRouter s (fun r => { r with keyErr := e }))
    | none =>
      let (n, s) := takeFree s
      .next (schedule (modRouter s (fun r => { r with
        keyErr := 0, keyBusy := some (op, slot, job, epoch), installing := if op = 1 then some job else none }))
        (1 + Config.delay n) .keyCommandComplete)

/-- INSTALL (R375). -/
def execInstall (slot : BitVec 6) (job epoch : BitVec 16) (s : State) : Out :=
  let other := (mget slot.toNat s.router.keys).any (fun k => k.job != job)
  keyCommand s (if other then some 3 else none) 1 slot.toNat job.toNat epoch.toNat

/-- ZERO (R376). -/
def execZero (slot : BitVec 6) (s : State) : Out := keyCommand s none 2 slot.toNat 0 0

/-- ZEROJOB (R376). -/
def execZerojob (job : BitVec 16) (s : State) : Out :=
  keyCommand s (if (keySlot s job).isSome then none else some 4) 3 0 job.toNat 0

/-- Whether a tag group of a job is being checked on some port (R376). -/
def groupOpen (s : State) (job : BitVec 16) : Bool :=
  s.router.ports.any (fun q => q.2.rxHold.any (fun e => e.clear.isNone && flitHead e.flit && !flitTag e.flit
    && (packetOf (flitContent e.flit)).job == job) ||
    q.2.building.any (fun b => (packetOf ((b.2.head?).elim [] (fun f => (leBytes 64 f.toNat).take 56))).job == job))

/-- The key command is over: BUSY clears. -/
def keyDone (s : State) (err : Nat) : State :=
  modRouter s (fun r => { r with keyBusy := none, installing := none, keyErr := err })

/-- KEY_COMMAND_COMPLETE (R371, R375, R376). -/
def execKeyCommandComplete (s : State) : Out :=
  match s.router.keyBusy with
  | none => .next s
  | some (op, slot, job, epoch) =>
    let blob := wf 51 4 s.router.keyBlob * 16
    let victims := s.router.keys.filter (fun k => if op = 2 then k.1 == slot else k.2.job.toNat == job)
    if op = 1 then
      if inHbm blob && inWindow s then .next (schedule s 1 .keyCommandComplete)
      else
        let (g, s) := readPa s whoFabric blob 129
        match if g.err.isSome then none else Config.sm2Open g.bytes with
        | none => .next (keyDone s 2)
        | some k =>
          let s := modRouter s (fun r => { r with
            keys := mput slot ⟨BitVec.ofNat 16 job, BitVec.ofNat 16 epoch, k, [], []⟩ r.keys,
            rootList := mset [] job ((Config.rootDevices job).take 64) r.rootList })
          .next (keyDone s 0)
    else if victims.any (fun k => groupOpen s k.2.job) then .next (schedule s 1 .keyCommandComplete)
    else .next (keyDone (victims.foldl (fun s k => modRouter s (fun r => { r with keys := mdel k.1 r.keys })) s) 0)

/-- A write of a register of the router block (R357, R361, R364, R369, R375): `m` are the bits written, each at its
value in `v`; a command register takes the bits not written as zeros (R396). Every byte and bit of a route table is held and
reads as written, those that R361 calls zero or does not name included (log entry 86). -/
def routerWrite (s : State) (o : Nat) (v m : Word) : Out :=
  let merge (old : Word) : Word := (old &&& ~~~m) ||| (v &&& m)
  if o < 44 * 0x100 then
    let p := o / 0x100
    let q := portOf s p
    match o % 0x100 with
    | 0x00 => execPortCfgWrite p (merge q.cfg) s
    | 0x18 => .next (modPort s p (fun q => { q with lcfg := merge q.lcfg &&& 0xFF }))
    | 0x20 =>
      if p < 35 then .next s
      else
        let x := merge q.spill &&& 0x000FFFFFE0000001
        .next (modPort s p (fun q => { q with spill := if s.plat.accept.getLsbD 2 then x else x &&& ~~~(1#64) }))
    | _ => .next s
  else if inRouteTable o then .next (modRouter s (fun r => { r with table := mset 0 o (merge (mgetD 0 o r.table)) r.table }))
  else match o with
  | 0x8000 => execBwCtlWrite (merge s.router.bwctl) s
  | 0x8008 => .next (modRouter s (fun r => { r with e2e := merge r.e2e &&& 0x00000003FFFFFFFF }))
  | 0x8010 =>
    let c := v &&& m
    match wf 63 61 c with
    | 1 => execInstall (BitVec.ofNat 6 (wf 37 32 c)) (BitVec.ofNat 16 (wf 31 16 c)) (BitVec.ofNat 16 (wf 15 0 c)) s
    | 2 => execZero (BitVec.ofNat 6 (wf 37 32 c)) s
    | 3 => execZerojob (BitVec.ofNat 16 (wf 31 16 c)) s
    | _ => keyCommand s (some 1) 0 0 0 0
  | 0x8018 => .next (modRouter s (fun r => { r with keyBlob := merge r.keyBlob &&& 0x000FFFFFFFFFFFF0 }))
  | 0x8020 => .next (if (v &&& m).getLsbD 1 then modRouter s (fun r => { r with keyOvf := false }) else s)
  | _ => .next s

/-! Management packets (R360) -/

/-- Write the words of a table or register write, from offset o. -/
def writeWords : List Byte → Nat → State → Out
  | [], _, s => .next s
  | b :: r, o, s =>
    let k := o % 8
    match routerWrite s (o - k) (BitVec.ofNat 64 (b.toNat * 2 ^ (8 * k))) (BitVec.ofNat 64 (0xFF * 2 ^ (8 * k))) with
    | .next s => writeWords r (o + 1) s
    | x => x

/-- The writes that an MGTMSG brings to the registers: an aligned word where the data holds all of it, else single bytes
(log entry 87). -/
def writeBlock : Nat → List Byte → Nat → State → Out
  | 0, _, _, s => .next s
  | n + 1, bs, o, s =>
    if bs.isEmpty then .next s
    else if o % 8 = 0 ∧ 8 ≤ bs.length then
      match routerWrite s o (BitVec.ofNat 64 (leNat (bs.take 8))) (BitVec.allOnes 64) with
      | .next s => writeBlock n (bs.drop 8) (o + 8) s
      | x => x
    else match writeWords (bs.take 1) o s with
      | .next s => writeBlock n (bs.drop 1) (o + 1) s
      | x => x

/-- MGTMSG 0x01 (R360, R361): a table or register write in the router block. -/
def execMgtmsgWrite (p : Packet) (s : State) : Out := writeBlock (p.data.length + 1) p.data p.addr.toNat s

/-- MGTMSG 0x02 (R360): a health report. -/
def execMgtmsgHealth (p : Packet) (s : State) : Out := .next (modRouter s (fun r => { r with health := r.health ++ [(p.src, p.data)] }))

/-- MGTMSG 0x03 (R360, R375): a key ciphertext is written to memory. -/
def execMgtmsgKey (p : Packet) (s : State) : Out :=
  .next (ingressTags (performWrite s whoFabric p.addr.toNat p.data).2 p.addr.toNat p.data.length)

/-! A packet at this router (R359, R362 to R364, R375) -/

/-- The meaning of a packet that has reached its destination. -/
def arrive (p : Packet) (s : State) : Out :=
  match p.kind.toNat with
  | 0x01 => execWr p s
  | 0x02 => execRdreq p s
  | 0x03 => execAtomPacket p s
  | 0x04 => execCtradd p s
  | 0x05 => execVatomPacket p s
  | 0x06 =>
    match p.sub.toNat % 4 with
    | 0 => execBarArvArrive p s
    | 1 => execBarArvJoin p s
    | 2 => execBarArvLeave p s
    | _ => .next s
  | 0x07 => execCollp p s
  | 0x08 => execBarrel p s
  | 0x10 => execAck p s
  | 0x11 => execRdrsp p s
  | 0x12 => execAtomrsp p s
  | 0x13 => execRetry p s
  | 0x14 => execErr p s
  | 0x20 =>
    match p.sub.toNat with
    | 1 => execMgtmsgWrite p s
    | 2 => execMgtmsgHealth p s
    | 3 => execMgtmsgKey p s
    | _ => .next s
  | _ => .next s

/-- Deliver a packet, once what holds it is over (R79, R84, R375). -/
def deliver (s : State) (id : Nat) (h : Held) : Out :=
  let p := h.pkt
  let data := decide (1 ≤ p.kind.toNat ∧ p.kind.toNat ≤ 5)
  let changing := decide (h.cls < 2) && h.inPort != 44 && s.router.installing == some p.job.toNat
  -- a replay is answered from the reply cache before anything else (R368)
  let known := decide (3 ≤ p.kind.toNat ∧ p.kind.toNat ≤ 5) &&
    ((mget (replyKey p) s.router.replies).isSome || s.router.inWork.contains (replyKey p))
  if known then arrive p (dropHeld s id h)
  else if changing then .next (respondTo (dropHeld s id h) p 0x13 4)
  else match if data then holdOf s p.src p.addr.toNat else .no with
    | .window => .next (routeAgain s id)
    | .retry n => .next (respondTo (dropHeld s id h) p 0x13 n)
    | .no => arrive p (dropHeld s id h)

/-- A packet of a job without an installed key (R375, R377): discarded and logged; a request is answered ERR NOKEY as
job 0. -/
def noKey (s : State) (id : Nat) (h : Held) : State :=
  let s := linkEvent (dropHeld s id h) 0x2B 0 h.inPort h.pkt.job.toNat
  if 2 ≤ h.cls then s else injectPacket s { answer h.pkt 0x14 5 [] with job := 0 } 2

/-- Whether no table holds a route to a destination (R367). -/
def routeless (s : State) (h : Held) : Bool :=
  (towards s h.pkt.dst.toNat).isEmpty &&
  (!treeValid s (bwCur s) || (treePorts s { h with pkt := { h.pkt with tp := bwCur s, dn := false } }).isEmpty)

/-- PACKET_ROUTE (R355, R356, R359, R362 to R364, R366, R375, R389). -/
def execPacketRoute (id : Nat) (s : State) : Out :=
  match mget id s.router.packets with
  | none => .next s
  | some h =>
    let here := h.pkt.dst == s.plat.devid
    if !kindOk h.pkt.kind.toNat then .next (linkErr s id h 1)
    else if !(h.inPort == 44 && here && decide (2 ≤ h.cls)) && (keySlot s h.pkt.job).isNone &&
        !(here && decide (h.cls < 2) && s.router.installing == some h.pkt.job.toNat) then .next (noKey s id h)
    else if here then deliver s id h
    else
      let h := if h.pkt.nm && h.pkt.int == s.plat.devid then { h with pkt := { h.pkt with nm := false } } else h
      if h.inPort = 44 && decide (h.cls < 2) && !h.pkt.esc && routeless s h then
        .next (unreachable (dropHeld s id h) h.pkt.tag.toNat)
      else if 2 ≤ h.cls || h.pkt.esc then .next (routeTree s id h)
      else if 10 ≤ h.pkt.hops.toNat then
        execEscapeTimeout id (modRouter s (fun r => { r with packets := mput id h r.packets }))
      else .next (routeAdaptive s id h)

/-! COLL (R321) -/

/-- Give a checked descriptor to its context: the number it takes on the context's timeline, and the state. -/
def giveColl (s : State) (t : Thread) (a : Word) (ws : List Word) : Nat × State :=
  let ctx := 0x4000 + (collDesc ws).ctx
  let k := collOf s ctx
  let key := groupKey (wf 15 0 t.regs.jobid) (collDesc ws).group
  let seq := (k.past.filter (fun x => x.1 == key)).length
  let o : CollOp := { no := k.last + 1, desc := ws, addr := a, issuer := issuerOf s.cur t, stage := 0, own := [], resid := [],
                      out := [], waiting := 0, seq := seq, relay := none }
  (k.last + 1, collAgain (setColl (noteCtxJob s ctx t.regs) ctx
    { k with last := k.last + 1, ops := k.ops ++ [o], past := k.past ++ [(key, seq, ws)] }) ctx 1)

/-- COLL (R314, R321, R323, R389): the descriptor is read and checked at issue. -/
def execColl (g : Guard) (rd ra : BitVec 5) (s : State) : Out :=
  runSlot g s (fun t =>
    if !fabricJob t then .error (chanStop 2 0)
    else
      let a := sreg t ra &&& ~~~(63#64)
      (readBlock s t a 64).bind (fun r =>
        let ws := r.1
        let s := r.2
        let t := (threadOf s s.cur).getD t
        let gid := (collDesc ws).group
        if !collOk ws then .error (chanStop 4 a)
        else if (membership t gid).isNone then .error (groupFault 4 gid)
        else
          let t := release t
          let (n, s) := giveColl s t a ws
          putScalar s t rd (BitVec.ofNat 64 n) 2))

end Sys2Proof.Machine
end

