-- ==== Sys2Proof/Machine/Audit.lean ====
section
/-! DEFINITION. The auditor's replays (R344 to R346): signatures, the start of a replay, the comparison. -/

namespace Sys2Proof.Machine

/-- Change the auditor. -/
def modAudit (s : State) (f : Auditor → Auditor) : State := { s with auditor := f s.auditor }

/-- A sample is dropped as unauditable (R343, R344). -/
def skipSample (s : State) (x : Sample) : State :=
  modAudit s (fun a => { a with skipped := satInc 16 a.skipped, pending := a.pending.erase x })

/-- The bytes of output ranges of a core's task, in list order (R346): `.error true` while a dredge window holds a read. -/
def outputBytes (c : Nat) (r : JobRegs) : List (Word × Nat) → State → Except Bool (List Byte) × State
  | [], s => (.ok [], s)
  | o :: l, s =>
    match readRangeNow c r 65538 o.1 o.2 s with
    | (.ok bs, s) => (match outputBytes c r l s with
      | (.ok rest, s) => (.ok (bs ++ rest), s)
      | x => x)
    | x => x

/-- Whether the channels that an ended thread of a core held have finished (R158, R344). -/
def reservationsOver (s : State) (c : Nat) : Bool :=
  (List.range 5).all (fun u => let e := engineOf s (8 * c + u); e.held != some endedMark || drained e)

/-- A die other than a core's that has a free core (R345). -/
def replayDie (s : State) (core : Nat) : Option Nat :=
  (List.range 4).find? (fun d => d != coreDie core && (dieCores s d).any (coreFree s))

/-- The logged record as a replay runs it: priority 0, another die, no conditions (R345; log entry 44). -/
def replayRecord (d : Nat) (ws : List Word) : List Word :=
  let w (i : Nat) : Word := (ws[i]?).getD 0
  let w0 := wset 57 56 (wset 63 60 (wset 5 4 (w 0) 0) 0) d
  [w0, w 1, w 2, w 3, 0, w 5, w 6, wset 60 60 (w 7) 0] ++ ws.drop 8

/-- AUDIT_REPLAY_START (R344, R345): the oldest sample whose task has ended is signed, and its replay enqueued. -/
def execAuditReplayStart (s : State) : Out :=
  if s.auditor.replaying.isSome || inWindow s then .next s
  else match s.auditor.pending.find? (fun x => x.ended && reservationsOver s x.core) with
    | none => .next s
    | some x =>
      if x.bad then .next (skipSample s x)
      else match replayDie s x.core with
      | none => .next s
      | some d =>
        match outputBytes x.core (jobEntry s x.job).2 x.outputs s with
        | (.error false, s) => .next (skipSample s x)
        | (.error true, s) => .next s
        | (.ok bs, s) =>
          let x' := { x with sig := some (crc64 bs) }
          let s := modAudit s (fun a => { a with pending := a.pending.erase x, replaying := some x', replayDone := false })
          let (k, s) := newEntry s d 2 (replayRecord d x.record) none x.job 0 0 none 0 (some (x.core, x.tid))
          .next (makeReady s d k)

/-- Whether the replay is over (R344 to R346): its thread has ended, and its channel reservations have been freed. -/
def replayOver (s : State) : Bool :=
  s.auditor.replaying.isSome && s.auditor.replayDone && reservationsOver s s.auditor.replayCore

/-- AUDIT_COMPARE (R346): the replay's signature matches, or a machine check of cause AUDIT is logged; an abandoned replay has
none (R345). -/
def execAuditCompare (s : State) : Out :=
  match s.auditor.replaying with
  | none => .next s
  | some x =>
    let sig := crc64 (x.outputs.flatMap (fun o => scratchRead s o.1.toNat o.2))
    let s := modAudit s (fun a => { a with replaying := none })
    if x.abandoned then .next s
    else if x.sig = some sig then .next (modAudit s (fun a => { a with passed := satInc 16 a.passed }))
    else
      let f : FaultRec := { cls := 0x11, cause := 1, req := 11, ctx := 0x4801, ga := (x.record[8]?).getD 0, pa := x.sig.getD 0,
                            qw6 := BitVec.ofNat 64 s.auditor.replayCore, qw7 := sig }
      .next (fqFault (modAudit s (fun a => { a with mismatch := satInc 16 a.mismatch })) (coreDie x.core)
        (ctxWords s x.core (wf 15 0 (jobEntry s x.job).2.asid) x.tid f false))

end Sys2Proof.Machine
end

