-- ==== Sys2Proof/Machine/Dredge.lean ====
section
/-! DEFINITION. The dredge calendar (R83, R84, R339 to R342), the readings and the clock steps (R394), the rails of the die
links (R342). -/

namespace Sys2Proof.Machine

/-- Change the calendar's registers. -/
def modDredge (s : State) (f : Dredge → Dredge) : State := { s with dredge := f s.dredge }

/-- Change the platform block. -/
def modPlat (s : State) (f : Platform → Platform) : State := { s with plat := f s.plat }

/-- DRAIN_LEAD (R84, R121, R339): copies, fills and the weir stop issuing HBM requests. -/
def execDrainLead (s : State) : Out := .next (modDredge s (fun d => { d with drained := true }))

/-- WINDOW_CLOSE (R84, R339): they resume, the device's own writes that the window held are served, and an ABANDON that waits is made; what else waits for the window's end is looked
at every cycle. -/
def execWindowClose (s : State) : Out :=
  let s := storePosted (modDredge s (fun d => { d with drained := false }))
  .next (((s.engines.filter (fun e => e.2.giveUp)).map (·.1)).foldl abandonCtx s)

/-! Overruns (R121, R341) -/

/-- The entry of an overrun that no thread takes (R341). -/
def overrunEntry (s : State) (i : Issuer) (ctx pa : Nat) : List Word :=
  let f : FaultRec := { cls := 0x10, cause := 0, req := ctxReq ctx, ctx := ctx, pa := BitVec.ofNat 64 pa, qw6 := BitVec.ofNat 64 ctx,
                        qw7 := BitVec.ofNat 64 pa }
  ctxWords s (ctxCore ctx) (wf 15 0 i.regs.asid) i.tid f false

/-- One overrun (R341): counted; pending in the issuing thread, running or saved, or logged. -/
def overrun (s : State) (i : Issuer) (ctx pa : Nat) : State :=
  let s := modDredge s (fun d => { d with overruns := satInc 32 d.overruns })
  let add (t : Thread) : Thread := { t with overruns := t.overruns ++ [(ctx, pa)] }
  let log : State := fqFault s (coreDie (ctxCore ctx)) (overrunEntry s i ctx pa)
  if !s.dredge.ovrf then log
  else match issuerThread s i with
    | some (c, t) => setThread s c (add t)
    | none =>
      match mget i.frame s.saved with
      | some sv =>
        if sv.thread.det.tid = i.tid ∧ sv.thread.det.startcnt = i.startcnt then
          { s with saved := mput i.frame { sv with thread := add sv.thread } s.saved }
        else log
      | none => log

/-- The place in HBM that the piece in process of a copy record is moved from or to. -/
def copyHbm (s : State) (ctx : Nat) (i : Issuer) : Nat :=
  let e := engineOf s ctx
  let at_ := match (boxPieces (copyRec e.words))[e.piece]? with
    | some x => [placeHeld s ctx i .read x.src, placeHeld s ctx i .write x.dst]
    | none => []
  match at_.find? (fun p => p.dev.isNone && inHbm p.pa) with
  | some p => p.pa
  | none => 0

/-- The copy transfers that are overruns: issued, to or from HBM, not complete (R341). -/
def copyOverruns (s : State) : List (Issuer × Nat × Nat) :=
  s.engines.filterMap (fun e =>
    if e.2.begun && e.2.hbmAt.isSome && e.2.halted.isNone then
      (e.2.chains.head?).map (fun c => (c.issuer, e.1, copyHbm s e.1 c.issuer))
    else none)

/-- The probe transfers that are overruns (R61, R341): issued, to or from HBM, not complete. -/
def probeOverruns (s : State) : List (Issuer × Nat × Nat) :=
  s.cores.flatMap (fun k => k.2.probe.queue.filterMap (fun o =>
    match o.place with
    | some (pa, none) => if o.issued.isSome && !o.done && inHbm pa then some (o.issuer, 8 * k.1 + 5, pa) else none
    | _ => none))

/-- The weir's overrun (R121, R341): OVR and an entry, where the last read it issued before the drain lead took longer
than the lead, which is a free value (log 29). The tile is sent after the close. -/
def weirOverrun (s : State) : State :=
  match s.weir.desc with
  | _ :: _ :: p :: r :: _ =>
    let (k, s) := takeFree s
    if s.weir.run && decide (s.weir.inRange < wf 31 0 r) && decide (512 < Config.delay k) then
      let s := modDredge s (fun d => { d with overruns := satInc 32 d.overruns })
      logEvent (modWeir s (fun w => { w with ovr := true })) 0 0x26 0 0 0 (BitVec.ofNat 64 (wf 51 0 p + 8192 * s.weir.inRange)) 0 0 10
    else s
  | _ => s

/-- MWAIT wakes spuriously (R265, R340). -/
def wakeWaiting (s : State) : State :=
  { s with cores := s.cores.map (fun k => (k.1, { k.2 with thread := k.2.thread.map (fun t =>
      match t.phase with
      | .stalled => { t with spurious := true }
      | _ => t) })) }

/-! Readings and the clock (R394) -/

/-- A reading of power and temperature: at 105 degrees the clocks are to stop at the next window's opening. -/
def setReading (p : Platform) (temp power : Nat) : Platform :=
  { p with temp := temp % 256, power := power % 65536, stop := p.stop || decide (105 ≤ temp) }

/-- TEMPERATURE_EVENT (R394). -/
def execTemperatureEvent (temp power : Nat) (s : State) : Out := .next (modPlat s (fun p => setReading p temp power))

/-- The next step down, and the next step up. -/
def clockDown (c : Nat) : Nat := if c = 2100 then 1800 else if c = 1800 then 1500 else 1200
def clockUp (c : Nat) : Nat := if c = 1200 then 1500 else if c = 1500 then 1800 else 2100

/-- The clock at a window's opening (R394): down while a limit is passed, up one step after 64 clear windows. -/
def clockStep (p : Platform) : Platform :=
  let hot := decide (95 ≤ p.temp)
  let high := decide (min 4400 (wf 15 0 p.cap) < p.power)
  if hot || high then { p with clk := clockDown p.clk, therm := hot, capped := high, clear := 0 }
  else if p.clk = 2100 then { p with therm := false, capped := false, clear := 0 }
  else if 64 ≤ p.clear + 1 then
    let c := clockUp p.clk
    { p with clk := c, clear := 0, therm := p.therm && c != 2100, capped := p.capped && c != 2100 }
  else { p with clear := p.clear + 1 }

/-- The reading of the period that begins, a free value (log entry 9). -/
def newReading (s : State) : State :=
  let (k, s) := takeFree s
  let r := Config.reading k
  modPlat s (fun p => setReading p (r / 65536 % 256) (r % 65536))

/-! Rails (R342) -/

/-- Window n recalibrates rail n mod 5 of every link without a failed rail. -/
def railWindow (s : State) (d : Nat) : State :=
  if !(dieOf s d).failedRails.isEmpty then s
  else
    let (k, s) := takeFree s
    let s := modDie s d (fun x => { x with recal := some (s.now / 65536 % 5) })
    schedule s (1 + Config.delay k % 1800) (.railRecalDone d)

/-- RAIL_RECAL_DONE (R342): the rail is in service again. -/
def execRailRecalDone (die : Nat) (s : State) : Out :=
  .next (modDie s die (fun x => { x with recal := none, returning := none }))

/-- Whether an event is the end of a die's recalibration. -/
def isRecal (d : Nat) : Instr → Bool
  | .railRecalDone n => n == d
  | _ => false

/-- A rail event (R395). -/
def railEvent (s : State) (d cause rail : Nat) : State := logEvent s d 0x27 cause 0 0 0 (BitVec.ofNat 64 rail)

/-- RAIL_ERROR (R342): an error on another rail aborts the recalibration, whose rail returns within 64 cycles; outside
recalibration the rail is marked failed. A rail that is not in service meets no error. -/
def execRailError (die rail : Nat) (s : State) : Out :=
  let x := dieOf s die
  match x.recal with
  | some r =>
    if r = rail then .next s
    else
      let (k, s) := takeFree s
      let s := modDie (cancel s (isRecal die)) die (fun x => { x with recal := none, returning := some r })
      .next (schedule (railEvent s die 1 r) (1 + Config.delay k % 64) (.railRecalDone die))
  | none =>
    if x.failedRails.contains rail || x.returning == some rail then .next s
    else .next (railEvent (modDie s die (fun x => { x with failedRails := x.failedRails ++ [rail] })) die 2 rail)

/-! The window -/

/-- Retraining in a window (R78 reason 3, R83): whether a live pseudo-channel fails it is a free value. -/
def retrainStacks (s : State) : State :=
  let (k, s) := takeFree s
  let l := liveList s
  if !Config.trainFails k then s
  else match l[Config.draw k % max 1 l.length]? with
    | some g => pcFail s g 3
    | none => s

/-- The corrected-burst interval ends with a window (R78). -/
def intervalEnds (s : State) : Bool := s.now / 65536 % 2 ^ wf 3 0 s.hbm.pcerrcfg == 0

/-- What a window does when it opens. -/
def openWindow (s : State) : State :=
  let s := modDredge s (fun d => { d with windows := (d.windows + 1) % 2 ^ 32, drained := true })
  let s := (copyOverruns s ++ probeOverruns s).foldl (fun s x => overrun s x.1 x.2.1 x.2.2) s
  let s := wakeWaiting (weirOverrun s)
  let s := newReading (modPlat s clockStep)
  let s := (List.range 4).foldl railWindow s
  let s := (s.router.ports.map (·.1)).foldl laneWindow (retrainStacks s)
  let s := schedule (schedule s 2048 .windowClose) 65024 .drainLead
  let s := schedule s 65536 .windowOpen
  if intervalEnds s then pushEvs s [.pcerrInterval] else s

/-- WINDOW_OPEN (R83, R339 to R342, R394): at 105 degrees every clock stops instead. -/
def execWindowOpen (s : State) : Out :=
  .next (if s.plat.stop then modPlat s (fun p => { p with boot := 3 }) else openWindow s)

end Sys2Proof.Machine
end

