-- ==== Sys2Proof/Machine/Boot.lean ====
section
/-! DEFINITION. The signed configuration record, boot and recovery, feature negotiation, quotes (R390 to R393), and the
register writes that have a row of their own (R53, R160). -/

namespace Sys2Proof.Machine

/-! The record (R390) -/

/-- n bytes of a record from offset o. -/
def recordBytes (r : List Byte) (o n : Nat) : List Byte := (r.drop o).take n

/-- The little-endian value of n bytes of a record from offset o. -/
def recordNat (r : List Byte) (o n : Nat) : Nat := leNat (recordBytes r o n)

/-- The yield map of a record. -/
def recordYield (r : List Byte) : BitVec 2048 := BitVec.ofNat 2048 (recordNat r 0x020 256)

/-- Enabled cores of a yield map. -/
def enabledCores (y : BitVec 2048) : List Nat := (List.range 2048).filter (fun c => y.getLsbD c)

/-- The PC_LIVE words of a record. -/
def recordLive (r : List Byte) : Vector Word 12 := Vector.ofFn (fun i => BitVec.ofNat 64 (recordNat r (0x120 + 8 * i.val) 8))

/-- The checks of R391 step 3. -/
def recordChecks (r firmware : List Byte) : Bool :=
  let zero (o n : Nat) : Bool := recordNat r o n == 0
  let y := recordYield r
  r.length == 2624 && Config.signatureOk r && zero 0x00A 6 && zero 0x018 8 && zero 0x9E0 32 &&
  recordNat r 0x004 4 == 1 && recordNat r 0x9C0 32 == (Config.sm3 firmware).toNat &&
  (enabledCores y).all (fun c => decide (coreRow c < 20)) && !(enabledCores y).isEmpty &&
  decide (1 ≤ ((recordLive r).toList.map ones).sum) && Config.keyMatches (BitVec.ofNat 512 (recordNat r 0x980 64))

/-- The bank that a record marks failed in a slice (R49, R390). -/
def recordBank (r : List Byte) (c : Nat) : Option Nat :=
  let b := recordNat r (0x180 + c) 1
  if b < 18 then some b else none

/-- The record applied (R391 steps 4 and 5). Slot 0 holds the fabric manager's key (R376). -/
def applyRecord (s : State) (r firmware : List Byte) : State :=
  let y := recordYield r
  let manager : Key := { job := 0, epoch := 0, key := Config.managerKey, txCtr := [], rxCtr := [] }
  let s := modPlat s (fun p => { p with
    boot := 1, yield_ := y, devid := BitVec.ofNat 16 (recordNat r 0x008 2), offer := BitVec.ofNat 64 (recordNat r 0x010 8 % 32),
    pubkey := BitVec.ofNat 512 (recordNat r 0x980 64), digest := Config.sm3 r, firmDigest := Config.sm3 firmware })
  let s := modHbm s (fun h => { h with live := recordLive r })
  let s := modRouter s (fun x => { x with keys := [(0, manager)] })
  (enabledCores y).foldl (fun s c =>
    match recordBank r c with
    | some b => modSlice s c (fun x => { x with failed := some b })
    | none => s) s

/-- The reset state with what outlives a reset: the boot flash, and the counters of the model. -/
def afterReset (s : State) : State :=
  let p := { Platform.reset with image := s.plat.image, firmware := s.plat.firmware }
  { State.reset with todo := [], free := s.free, stamp := s.stamp, plat := p }

/-- DEVICE_RESET_BOOT (R391): everything is at reset; the record is checked and applied, or the device is in recovery.
Window 0 opens at ring cycle 0 (R339). Quokor core 0 runs: the firmware, or the ROM in recovery. -/
def execDeviceResetBoot (s : State) : Out :=
  let s := afterReset s
  let r := s.plat.image
  let start (s : State) (n : Nat) : State := modHart s 0 (fun k => { k with up := true, pc := Config.hartEntry n })
  .next (if recordChecks r s.plat.firmware then pushEvs (start (applyRecord s r s.plat.firmware) 1) [.windowOpen]
    else start (modPlat s (fun p => { p with boot := 2 })) 0)

/-- RECOVERY_UPLOAD (R391, R394): in recovery the management port takes a record, a firmware image (an empty list leaves
the old) and a reset; with the clocks stopped, a reset alone. -/
def execRecoveryUpload (image firmware : List (BitVec 8)) (resets : Bool) (s : State) : Out :=
  let pick (new old : List Byte) : List Byte := if new.isEmpty then old else new
  if s.plat.boot = 2 then
    let s := modPlat s (fun p => { p with image := pick image p.image, firmware := pick firmware p.firmware })
    if resets then execDeviceResetBoot s else .next s
  else if s.plat.boot = 3 ∧ resets then execDeviceResetBoot s
  else .next s

/-! Features (R392) -/

/-- FEAT_ACCEPT_WRITE (R392). -/
def execFeatAcceptWrite (val : Word) (s : State) : Out :=
  .next (if s.plat.accept.getLsbD 63 then s
    else modPlat s (fun p => { p with accept := (val &&& p.offer &&& 0x1F) ||| (val &&& 0x8000000000000000) }))

/-- SCHED_CTL_WRITE (R160, R392): RUN = 1 is ignored while LOCK = 0. -/
def execSchedCtlWrite (die : Nat) (val : Word) (s : State) : Out :=
  .next (if val.getLsbD 0 && !s.plat.accept.getLsbD 63 then s else modDie s die (fun d => { d with run := val.getLsbD 0 }))

/-! Quotes (R393) -/

/-- The quote unit as a requester. -/
def whoQuote : Who := { die := 0, core := 0 }

/-- QUOTE (R393): the nonce is read as the command is accepted; while one is being formed another sets OVF. -/
def execQuote (pa : Nat) (s : State) : Out :=
  if s.plat.quoteBusy.isSome then .next (modPlat s (fun p => { p with quoteOvf := true }))
  else
    let (g, s) := readPa s whoQuote (pa + 64) 32
    let (k, s) := takeFree s
    .next (schedule (modPlat s (fun p => { p with quoteBusy := some (pa, g.bytes) })) (1 + Config.delay k) .quoteComplete)

/-- The first 128 bytes of a quote. -/
def quoteHead (p : Platform) (nonce : List Byte) : List Byte :=
  leBytes 32 p.firmDigest.toNat ++ leBytes 32 p.digest.toNat ++ nonce ++ leBytes 2 p.devid.toNat ++ leBytes 6 0 ++
    leBytes 8 p.accept.toNat ++ leBytes 16 0

/-- QUOTE_COMPLETE (R393): the buffer is filled and BUSY clears. -/
def execQuoteComplete (s : State) : Out :=
  match s.plat.quoteBusy with
  | none => .next s
  | some (pa, nonce) =>
    let h := quoteHead s.plat nonce
    let bs := h ++ leBytes 64 (Config.sm2Sign (Config.sm3 h)).toNat ++ leBytes 64 0
    let s := clearTags (performWrite s whoQuote pa bs).2 pa bs.length
    .next (modPlat s (fun p => { p with quoteBusy := none }))

/-! The probe cache's configuration (R53) -/

/-- PCC_CFG_WRITE (R53). A write that is accepted clears the pseudo-LRU trees with the tags (log entry 82). -/
def execPccCfgWrite (core : Nat) (val : Word) (s : State) : Out :=
  let v := val &&& 0x7FC0F1
  let bad := 8 < wf 7 4 v || wf 22 14 v % 2 ^ wf 7 4 v != 0
  let k := coreOf s core
  .next (modCore s core (fun k' => { k' with probe :=
    if bad || k.thread.isSome || (probeQueued k.probe != 0) then { k.probe with cfgerr := true }
    else { k.probe with cfg := v, slots := [], plru := [] } }))

end Sys2Proof.Machine
end

