-- ==== Sys2Proof/Machine/CtlWrite.lean ====
section
/-! DEFINITION. Writes of control-register space (R4, R5, R396), block by block. In each, `v` holds the covered bytes in
place, zero elsewhere, and `m` is the mask of the covered bits. -/

namespace Sys2Proof.Machine

/-- A register of RW fields with the covered bytes written, its reserved bits zero (R4, R5, R396). -/
def merged (old v m img : Word) : Word := ((old &&& ~~~m) ||| v) &&& img

/-- The invalidation registers (R32, R33). -/
def tlbiWrite (s : State) (o : Nat) (v m : Word) : Out :=
  match o with
  | 0x1000 => .next { s with tlbiq := { s.tlbiq with va := merged s.tlbiq.va v m 0x00FFFFFFFFFF0000 } }
  | 0x1008 =>
    let a : BitVec 16 := BitVec.ofNat 16 (wf 47 32 v)
    (match wf 1 0 v with
      | 0 => .next s
      | 1 => execTlbicmdPage a s
      | 2 => execTlbicmdSpace a s
      | _ => execTlbicmdAll s)
  | 0x1010 => .next (if v.getLsbD 1 then { s with tlbiq := { s.tlbiq with ovf := false } } else s)
  | _ => .next s

/-- HBM_CMD (R69, R70). -/
def hbmCommand (s : State) (v : Word) : Out :=
  let arg : BitVec 24 := BitVec.ofNat 24 (wf 39 16 v)
  match wf 3 0 v with
  | 1 => execMakelive arg (v.getLsbD 8) s
  | 2 => execMakedead arg s
  | 3 => execSetscheme arg (BitVec.ofNat 3 (wf 11 9 v)) s
  | 4 => execDrop arg s
  | 5 => execRehash s
  | _ => hbmCmd s (some 1) id

/-- The HBM block (R69). -/
def hbmWrite (s : State) (o : Nat) (v m : Word) : Out :=
  let mask (old : Word) : Word := (old &&& 0xFFFFFFFF00000000) ||| merged old v m 0xFFFFFFFF
  match o with
  | 0x008 => hbmCommand s v
  | 0x010 => .next (if v.getLsbD 1 then modHbm s (fun h => { h with ovf := false }) else s)
  | 0x020 => .next (modHbm s (fun h => { h with maskStack := mask h.maskStack }))
  | 0x028 => .next (modHbm s (fun h => { h with maskCh := mask h.maskCh }))
  | 0x030 => .next (modHbm s (fun h => { h with maskPc := mask h.maskPc }))
  | 0x038 => .next (modHbm s (fun h => { h with pcerrcfg := merged h.pcerrcfg v m 0xFF0F }))
  | _ => .next s

/-- The package ring block (R104, R105). -/
def eddyWrite (s : State) (o : Nat) (v : Word) : Out :=
  match o with
  | 0x008 =>
    let a : BitVec 16 := BitVec.ofNat 16 (wf 31 16 v)
    (match wf 3 0 v with
      | 1 => execTeardown a s
      | 2 => execReclaim a s
      | _ => .next (eddyRefuse s 1))
  | 0x010 => .next (if v.getLsbD 1 then { s with eddy := { s.eddy with ovf := false } } else s)
  | _ => .next s

/-- The Tide block (R111). -/
def tideWrite (s : State) (o : Nat) (v m : Word) : Out :=
  match o with
  | 0x000 => execTideCtlWrite (merged s.weir.ctl v m 0xD) s
  | 0x008 => .next (modWeir s (fun w => { w with lpbase := merged w.lpbase v m 0x000FFFFFFFFFFFF0 }))
  | 0x010 => .next (modWeir s (fun w => { w with nlayer := merged w.nlayer v m 0x1FFFF }))
  | 0x018 => .next (modWeir s (fun w => { w with set := (merged (BitVec.ofNat 64 w.set) v m 7).toNat }))
  | 0x028 =>
    .next (modWeir s (fun w => { w with ovr := w.ovr && !v.getLsbD 2, errstop := w.errstop && !v.getLsbD 1 }))
  | _ => .next s

/-- FQ_ACT (R337): frames are those of the die's pool; contexts are named by their package-wide id. -/
def fqAct (s : State) (d : Nat) (v : Word) : Out :=
  let n := wf 23 0 v
  match wf 63 61 v with
  | 1 => if n < 4096 then execFqResume (4096 * d + n) s else .next s
  | 2 => if n < 4096 then execFqKill (4096 * d + n) s else .next s
  | 3 => execFqRestart n s
  | 4 => .next (abandonCtx s n)
  | _ => .next s

/-- The scheduler and fault-queue block of die d (R160, R333, R334, R337). -/
def schedWrite (s : State) (d o : Nat) (v m : Word) : Out :=
  match o with
  | 0x000 => execSchedCtlWrite d (merged (BitVec.ofNat 64 (b2n (dieOf s d).run)) v m 1) s
  | 0x010 => .next (modDie s d (fun x => { x with spill := merged x.spill v m 0xFFFFFFFFFFFF0000 }))
  | 0x018 => .next (modDie s d (fun x => { x with save := merged x.save v m 0xFFFFFFFFFFF80000 }))
  | 0x020 =>
    (match wf 15 14 v with
      | 1 => execSchedPreempt d (wf 10 0 v) s
      | 2 => execSchedKill d (wf 10 0 v) s
      | _ => .next s)
  | 0x040 =>
    let s := modDie s d (fun x => { x with fqBase := merged x.fqBase v m 0x000FFFFFFFFF001F })
    .next (fqFlush 4096 s d)
  | 0x050 =>
    let s := modDie s d (fun x => { x with fqTail := (merged (BitVec.ofNat 64 x.fqTail) v m 0xFFFFFFFF).toNat })
    .next (fqFlush 4096 s d)
  | 0x060 => fqAct s d v
  | _ => .next s

/-- The auditor's registers (R343, R392). -/
def auditWrite (s : State) (o : Nat) (v m : Word) : Out :=
  let a := s.auditor
  match o with
  | 0x00 =>
    let x := merged a.ctl v m 0xFF1F01
    .next { s with auditor := { a with ctl := if s.plat.accept.getLsbD 3 then x else x &&& ~~~(1#64) } }
  | 0x08 => .next { s with auditor := { a with buf := merged a.buf v m 0xFFFFFFFFFFF00000 } }
  | 0x10 =>
    let x := merged a.seed v m (BitVec.allOnes 64)
    let x := if x = 0 then 1 else x
    .next { s with auditor := { a with seed := x, shift := x } }
  | _ => .next s

/-- The dredge calendar's registers (R339). -/
def dredgeWrite (s : State) (o : Nat) (v m : Word) : Out :=
  match o with
  | 0x08 => .next (modDredge s (fun d => { d with ovrf := (merged (BitVec.ofNat 64 (b2n d.ovrf)) v m 1) == 1 }))
  | _ => .next s

/-- The job table (R388): entry j. -/
def jobWrite (s : State) (j o : Nat) (v m : Word) : Out :=
  let e := jobEntry s j
  if o = 0 then .next { s with jobs := mput j ((merged (BitVec.ofNat 64 (b2n e.1)) v m 1) == 1, e.2) s.jobs }
  else
    let k := o / 8 - 1
    if 12 < k then .next s
    else .next { s with jobs := mput j (e.1, setJobWord e.2 k (merged (jobWord e.2 k) v m (BitVec.allOnes 64))) s.jobs }

/-- The platform block (R392 to R394). -/
def platWrite (s : State) (o : Nat) (v m : Word) : Out :=
  match o with
  | 0x08 => execFeatAcceptWrite (merged s.plat.accept v m (BitVec.allOnes 64)) s
  | 0x10 => execQuote (wf 51 6 v * 64) s
  | 0x18 => .next (if v.getLsbD 1 then modPlat s (fun p => { p with quoteOvf := false }) else s)
  | 0x28 => .next (modPlat s (fun p => { p with cap := merged p.cap v m 0xFFFF }))
  | _ => .next s

/-- SLC_ECCCFG written: banks whose counts have reached the new threshold are marked (R49). -/
def ecccfgWrite (s : State) (c : Nat) (v m : Word) : State :=
  let s := modSlice s c (fun x => { x with ecccfg := merged x.ecccfg v m 0xFF01 })
  (List.range 18).foldl (fun s k => bankLimit s c 0 k) s

/-- Core c's block (R49, R53). -/
def coreWrite (s : State) (c o : Nat) (v m : Word) : Out :=
  match o with
  | 0x200 => execPccCfgWrite c (merged (coreOf s c).probe.cfg v m (BitVec.allOnes 64)) s
  | 0x208 =>
    .next (modCore s c (fun k => { k with probe := { k.probe with cfgerr := k.probe.cfgerr && !v.getLsbD 0 } }))
  | 0x300 => .next (ecccfgWrite s c v m)
  | 0x308 => .next (modSlice s c (fun x => { x with second := x.second && !v.getLsbD 9 }))
  | _ => .next s

/-- The write of an assigned register (R4). -/
def ctlWrite (s : State) (o : Nat) (v m : Word) : Out :=
  let b := o % 0x1000000
  if o < 0x2000 then tlbiWrite s o v m
  else match o / 0x1000000 with
  | 0x02 => hbmWrite s b v m
  | 0x03 => eddyWrite s b v
  | 0x04 => tideWrite s b v m
  | 0x05 => schedWrite s (b / 0x10000) (b % 0x10000) v m
  | 0x06 => auditWrite s b v m
  | 0x07 => dredgeWrite s b v m
  | 0x08 => routerWrite s b v m
  | 0x09 => jobWrite s (b / 256) (b % 256) v m
  | 0x0A => platWrite s b v m
  | _ => coreWrite s ((o - 0x10000000) / 0x10000) (o % 0x10000) v m

/-- CONTROL_REGISTER_WRITE (R4, R5, R17, R396): the covered bytes of one register; the action it has is performed once. -/
def execControlRegisterWrite (pa len : Nat) (data : Word) (s : State) : Out :=
  let k := pa % 8
  let o := pa - ctlBase - k
  match ctlReg s o with
  | none => .next (logNoTarget s { die := 0, core := 0 } pa 0)
  | some _ =>
    let m : Word := BitVec.ofNat 64 ((2 ^ (8 * len) - 1) * 2 ^ (8 * k))
    ctlWrite s o ((data <<< (8 * k)) &&& m) m

end Sys2Proof.Machine
end

