-- ==== Sys2Proof/Machine/Cycle.lean ====
section
/-! DEFINITION. Time: what becomes due when the ring cycle advances, and the performing of one thing that is to be done
at this instant. The instruction semantics is a parameter here; Step supplies exec. -/

namespace Sys2Proof.Machine

/-- One cycle in sixtieths of a 2.1 GHz cycle at a clock step (R367, R394). -/
def timerStep (clk : Nat) : Nat := 60 * 2100 / max 1 clk

/-! What the calendar of the ring cycle and the state of the units bring about in a cycle -/

/-- The schedulers (R155 to R157): records whose conditions hold; every 8 cycles the reload of a spilled record, and a pick. -/
def schedEvents (s : State) : List Instr :=
  (List.range 4).flatMap (fun d =>
    let x := dieOf s d
    let met := (x.entries.filter (fun e => e.state == 2 && e.resume.isNone && condsMet s d e)).map (fun e =>
      Instr.taskConditionMet d e.id)
    let spilled := x.entries.any (fun e => e.state == 1) && decide (storeCount x < 3840)
    met ++ (if spilled && s.now % 8 == 0 then [.spillReload d] else []) ++ (if s.now % 8 = 0 then [.schedulerPick d] else []))

/-- The tap stages at which something may happen (R86, R88, R91): the origin, cores with queued operations, and slots
whose stored bits have changed. -/
def eddyStages (s : State) : List Nat :=
  let taps := (s.cores.filter (fun k => !k.2.taps.isEmpty)).map (fun k => 2 * ringPos k.1)
  let flipped := (s.eddy.flips.map (fun k => (k.1 + s.now) % 2560)).filter (fun n => n % 2 == 0)
  (0 :: taps ++ flipped).dedup

/-- The scrubbers (R49): one word every 64 cycles in every slice of a live core. -/
def scrubEvents (s : State) : List Instr :=
  if s.now % 64 = 0 then
    ((List.range 2048).filter (fun c => coreLive s c && (coreOf s c).slice.ecccfg.getLsbD 0)).map Instr.scrubRead
  else []

/-- The ports and the fabric interface (R352, R353, R367, R368). -/
def fabricEvents (s : State) : List Instr :=
  let r := s.router
  let ports := r.ports
  (if s.now % 2 ^ 20 = 0 then ports.map (fun p => Instr.laneErrorInterval p.1) else []) ++
  (ports.filter (fun p => p.2.resendOwed || (!p.2.retry.isEmpty && decide (p.2.ackAt + 16384 ≤ s.now)))).map (fun p =>
    Instr.linkRetryTimeout p.1) ++
  (r.outst.filter (fun o => !o.2.waits && decide (o.2.at_ + e2eLimit s o.2.pkt.dst.toNat ≤ s.timer))).map (fun o =>
    Instr.e2eTimeout o.1) ++
  (r.replies.filter (fun x => decide (x.2.2 ≤ s.timer))).map (fun x => Instr.replyCacheExpiry (x.1 / 2 ^ 24) (x.1 % 2 ^ 24))

/-- The auditor (R345, R346): a replay is over, or one may start. -/
def auditEvents (s : State) : List Instr :=
  if replayOver s then [.auditCompare]
  else if s.auditor.replaying.isNone && s.auditor.pending.any (fun x => x.ended) then [.auditReplayStart] else []

/-- The events of a cycle that no earlier event has set a time for. -/
def periodic (s : State) : List Instr :=
  (eddyStages s).map Instr.eddySlotPass ++ tideEvents s ++ (if weirDue s then [.weirTileSend] else []) ++ schedEvents s ++
    scrubEvents s ++ fabricEvents s ++ auditEvents s

/-- The next ring cycle (R86): its due events, its recurring events, and every core's cycle. -/
def advance (s : State) : State :=
  let s := reportMerges { s with now := s.now + 1, timer := s.timer + timerStep s.plat.clk }
  let due := (s.agenda.filter (fun d => decide (d.at_ ≤ s.now))).map (·.ev)
  let s := { s with agenda := s.agenda.filter (fun d => decide (s.now < d.at_)) }
  let cores := s.cores.filterMap (fun ck => if ck.2.thread.isSome then some (Todo.begin_ ck.1) else none)
  let evs := (due ++ periodic s).map Todo.ev
  let (harts, s) := hartCycle s
  { s with todo := evs ++ harts ++ cores }

/-- The hart whose next word is to be performed, and the word's instruction (R384, R385): QENQ, QFENCE, or RV64GC's. -/
def quokorNext (ex : Instr → State → Out) (s : State) (h : Nat) : Out :=
  match s.harts.toList[h]? with
  | none => .next s
  | some k =>
    match decodeQuokor k.word.toNat with
    | some i => ex i { s with hart := h }
    | none =>
      -- R385: custom-0 words of neither form are illegal
      if k.word.toNat % 128 = 0x0B then .next (modHart { s with hart := h } h hartIllegal) else .next (hartStep s h k)

/-- A running hart's next instruction: its word is fetched and performed. -/
def hartGo (ex : Instr → State → Out) (s : State) (h : Nat) : Out :=
  match s.harts.toList[h]? with
  | none => .next s
  | some k =>
    match hartNext s h k with
    | (s, true) => quokorNext ex s h
    | (s, false) => .next s

/-- Whether the first thing to be done is the management port's, which keeps answering, or a reset (R394). -/
def managementNext (s : State) : Bool :=
  match s.todo with
  | .ev (.recoveryUpload _ _ _) :: _ => true
  | .ev .deviceResetBoot :: _ => true
  | _ => false

/-- One thing done: the first of what is left at this instant, or, when nothing is left, the next ring cycle. With the
clocks stopped only the management port answers (R394). -/
def perform (ex : Instr → State → Out) (s : State) : Out :=
  if s.plat.boot = 3 && !managementNext s then .fault .clocksStopped
  else match s.todo with
  | [] => .next (advance s)
  | .ev i :: r => ex i { s with todo := r }
  | .begin_ c :: r => .next (beginCycle ex { s with todo := r } c)
  | .issue c :: r => issueBundle ex { s with todo := r } c
  | .fin c :: r => .next (finishCycle ex { s with todo := r } c)
  | .quokor h :: r => quokorNext ex { s with todo := r } h
  | .hart h :: r => hartGo ex { s with todo := r } h
  | .hartLoad h :: r =>
    let s := { s with todo := r }
    .next (match s.harts.toList[h]? with
      | some k => hartPerform s h k
      | none => s)

end Sys2Proof.Machine
end

