-- ==== Sys2Proof/Machine/Scalar.lean ====
section
/-! DEFINITION. The S slots without the transfers: integer arithmetic, logic, shifts, bit fields, counting, select,
constants, comparisons, predicates (R226 to R238). -/

namespace Sys2Proof.Machine

/-- NOP (R229): writes nothing and raises nothing. -/
def execNop (_g : Guard) (_x : BitVec 22) (s : State) : Out := .next s

/-! Integer arithmetic and logic (R230, R231) -/

/-- ADD (R230). -/
def execAdd (g : Guard) (rd ra rb : BitVec 5) (s : State) : Out :=
  runSlot g s (fun t => putScalar s t rd (sreg t ra + sreg t rb) 1)

/-- SUB (R230). -/
def execSub (g : Guard) (rd ra rb : BitVec 5) (s : State) : Out :=
  runSlot g s (fun t => putScalar s t rd (sreg t ra - sreg t rb) 1)

/-- ADDI (R231). -/
def execAddi (g : Guard) (rd ra : BitVec 5) (i : BitVec 12) (s : State) : Out :=
  runSlot g s (fun t => putScalar s t rd (sreg t ra + imm i) 1)

/-- MUL (R230): the low 64 bits; latency 3. -/
def execMul (g : Guard) (rd ra rb : BitVec 5) (s : State) : Out :=
  runSlot g s (fun t => putScalar s t rd (sreg t ra * sreg t rb) 3)

/-- The high 64 bits of the signed product (R230). -/
def mulHigh (x y : Word) : Word := BitVec.ofInt 64 (x.toInt * y.toInt / 2 ^ 64)

/-- The high 64 bits of the unsigned product (R230). -/
def mulHighU (x y : Word) : Word := BitVec.ofNat 64 (x.toNat * y.toNat / 2 ^ 64)

/-- MULH.i (R230): latency 3. -/
def execMulhI (g : Guard) (rd ra rb : BitVec 5) (s : State) : Out :=
  runSlot g s (fun t => putScalar s t rd (mulHigh (sreg t ra) (sreg t rb)) 3)

/-- MULH.n (R230): latency 3. -/
def execMulhN (g : Guard) (rd ra rb : BitVec 5) (s : State) : Out :=
  runSlot g s (fun t => putScalar s t rd (mulHighU (sreg t ra) (sreg t rb)) 3)

/-- AND (R230). -/
def execAnd (g : Guard) (rd ra rb : BitVec 5) (s : State) : Out :=
  runSlot g s (fun t => putScalar s t rd (sreg t ra &&& sreg t rb) 1)

/-- OR (R230). -/
def execOr (g : Guard) (rd ra rb : BitVec 5) (s : State) : Out :=
  runSlot g s (fun t => putScalar s t rd (sreg t ra ||| sreg t rb) 1)

/-- XOR (R230). -/
def execXor (g : Guard) (rd ra rb : BitVec 5) (s : State) : Out :=
  runSlot g s (fun t => putScalar s t rd (sreg t ra ^^^ sreg t rb) 1)

/-- ANDN (R230): x and not y. -/
def execAndn (g : Guard) (rd ra rb : BitVec 5) (s : State) : Out :=
  runSlot g s (fun t => putScalar s t rd (sreg t ra &&& ~~~(sreg t rb)) 1)

/-- ANDI (R231). -/
def execAndi (g : Guard) (rd ra : BitVec 5) (i : BitVec 12) (s : State) : Out :=
  runSlot g s (fun t => putScalar s t rd (sreg t ra &&& imm i) 1)

/-- ORI (R231). -/
def execOri (g : Guard) (rd ra : BitVec 5) (i : BitVec 12) (s : State) : Out :=
  runSlot g s (fun t => putScalar s t rd (sreg t ra ||| imm i) 1)

/-- XORI (R231). -/
def execXori (g : Guard) (rd ra : BitVec 5) (i : BitVec 12) (s : State) : Out :=
  runSlot g s (fun t => putScalar s t rd (sreg t ra ^^^ imm i) 1)

/-! Shifts and rotates (R232): a count of 0 returns x in every form -/

/-- The count of a register form: bits [5:0]. -/
def shiftCount (t : Thread) (rb : BitVec 5) : Nat := wf 5 0 (sreg t rb)

/-- SHL (R232). -/
def execShl (g : Guard) (rd ra rb : BitVec 5) (s : State) : Out :=
  runSlot g s (fun t => putScalar s t rd (sreg t ra <<< shiftCount t rb) 1)

/-- SHR (R232). -/
def execShr (g : Guard) (rd ra rb : BitVec 5) (s : State) : Out :=
  runSlot g s (fun t => putScalar s t rd (sreg t ra >>> shiftCount t rb) 1)

/-- SAR (R232). -/
def execSar (g : Guard) (rd ra rb : BitVec 5) (s : State) : Out :=
  runSlot g s (fun t => putScalar s t rd (BitVec.sshiftRight (sreg t ra) (shiftCount t rb)) 1)

/-- ROR (R232). -/
def execRor (g : Guard) (rd ra rb : BitVec 5) (s : State) : Out :=
  runSlot g s (fun t => putScalar s t rd (BitVec.rotateRight (sreg t ra) (shiftCount t rb)) 1)

/-- SHLI (R232). -/
def execShli (g : Guard) (rd ra : BitVec 5) (c : BitVec 6) (s : State) : Out :=
  runSlot g s (fun t => putScalar s t rd (sreg t ra <<< c.toNat) 1)

/-- SHRI (R232). -/
def execShri (g : Guard) (rd ra : BitVec 5) (c : BitVec 6) (s : State) : Out :=
  runSlot g s (fun t => putScalar s t rd (sreg t ra >>> c.toNat) 1)

/-- SARI (R232). -/
def execSari (g : Guard) (rd ra : BitVec 5) (c : BitVec 6) (s : State) : Out :=
  runSlot g s (fun t => putScalar s t rd (BitVec.sshiftRight (sreg t ra) (c.toNat)) 1)

/-- RORI (R232). -/
def execRori (g : Guard) (rd ra : BitVec 5) (c : BitVec 6) (s : State) : Out :=
  runSlot g s (fun t => putScalar s t rd (BitVec.rotateRight (sreg t ra) (c.toNat)) 1)

/-! Bit fields (R233) -/

/-- The field of `len` bits at `pos`, len = LENM1 + 1. -/
def bitField (v : Word) (pos len : BitVec 6) : Nat := bits pos.toNat (len.toNat + 1) v.toNat

/-- The field sign-extended. -/
def bitFieldI (v : Word) (pos len : BitVec 6) : Word := BitVec.ofInt 64 (asInt (len.toNat + 1) true (bitField v pos len))

/-- d with the field replaced by the low bits of v. -/
def bitInsert (d v : Word) (pos len : BitVec 6) : Word :=
  let m := BitVec.ofNat 64 ((2 ^ (len.toNat + 1) - 1) * 2 ^ pos.toNat)
  (d &&& ~~~m) ||| BitVec.ofNat 64 (v.toNat % 2 ^ (len.toNat + 1) * 2 ^ pos.toNat)

/-- BFX.n (R233). -/
def execBfxN (g : Guard) (rd ra : BitVec 5) (pos len : BitVec 6) (s : State) : Out :=
  runSlot g s (fun t => putScalar s t rd (BitVec.ofNat 64 (bitField (sreg t ra) pos len)) 1)

/-- BFX.i (R233). -/
def execBfxI (g : Guard) (rd ra : BitVec 5) (pos len : BitVec 6) (s : State) : Out :=
  runSlot g s (fun t => putScalar s t rd (bitFieldI (sreg t ra) pos len) 1)

/-- BFI (R233): s[rd] is read at issue as well. -/
def execBfi (g : Guard) (rd ra : BitVec 5) (pos len : BitVec 6) (s : State) : Out :=
  runSlot g s (fun t => putScalar s t rd (bitInsert (sreg t rd) (sreg t ra) pos len) 1)

/-! Counting (R234) -/

/-- Zero bits above the most significant 1; 64 for 0. -/
def clz (v : Word) : Nat := if v = 0 then 64 else 63 - v.toNat.log2

/-- Zero bits below the least significant 1; 64 for 0. -/
def ctz (v : Word) : Nat := ((List.range 64).find? (fun i => v.getLsbD i)).getD 64

/-- CLZ (R234). -/
def execClz (g : Guard) (rd ra : BitVec 5) (s : State) : Out :=
  runSlot g s (fun t => putScalar s t rd (BitVec.ofNat 64 (clz (sreg t ra))) 1)

/-- CTZ (R234). -/
def execCtz (g : Guard) (rd ra : BitVec 5) (s : State) : Out :=
  runSlot g s (fun t => putScalar s t rd (BitVec.ofNat 64 (ctz (sreg t ra))) 1)

/-- POPC (R234). -/
def execPopc (g : Guard) (rd ra : BitVec 5) (s : State) : Out :=
  runSlot g s (fun t => putScalar s t rd (BitVec.ofNat 64 (ones (sreg t ra))) 1)

/-! Minimum and maximum (R230) -/

/-- MIN.i (R230). -/
def execMinI (g : Guard) (rd ra rb : BitVec 5) (s : State) : Out :=
  runSlot g s (fun t => putScalar s t rd (if (sreg t ra).slt (sreg t rb) then sreg t ra else sreg t rb) 1)

/-- MIN.n (R230). -/
def execMinN (g : Guard) (rd ra rb : BitVec 5) (s : State) : Out :=
  runSlot g s (fun t => putScalar s t rd (if (sreg t ra).ult (sreg t rb) then sreg t ra else sreg t rb) 1)

/-- MAX.i (R230). -/
def execMaxI (g : Guard) (rd ra rb : BitVec 5) (s : State) : Out :=
  runSlot g s (fun t => putScalar s t rd (if (sreg t rb).slt (sreg t ra) then sreg t ra else sreg t rb) 1)

/-- MAX.n (R230). -/
def execMaxN (g : Guard) (rd ra rb : BitVec 5) (s : State) : Out :=
  runSlot g s (fun t => putScalar s t rd (if (sreg t rb).ult (sreg t ra) then sreg t ra else sreg t rb) 1)

/-! Select and constants (R235) -/

/-- SEL (R235): independent of the slot's guard. -/
def execSel (g : Guard) (rd ra rb : BitVec 5) (pn : Bool) (ps : BitVec 3) (s : State) : Out :=
  runSlot g s (fun t => putScalar s t rd (if pred t ps != pn then sreg t ra else sreg t rb) 1)

/-- MOVI (R235). -/
def execMovi (g : Guard) (rd : BitVec 5) (i : BitVec 17) (s : State) : Out :=
  runSlot g s (fun t => putScalar s t rd (imm i) 1)

/-- MOVHI (R235): s[rd] is read at issue. -/
def execMovhi (g : Guard) (rd : BitVec 5) (i : BitVec 17) (s : State) : Out :=
  runSlot g s (fun t => putScalar s t rd ((sreg t rd <<< 17) + i.setWidth 64) 1)

/-! Comparisons and predicates (R236 to R238) -/

/-- The second operand of CMPI (R236). -/
def cmpImm (cond : BitVec 4) (i : BitVec 8) : Word := if condUnsigned cond.toNat then i.setWidth 64 else imm i

/-- CMP (R236). -/
def execCmp (g : Guard) (pd : BitVec 3) (cond : BitVec 4) (ra rb : BitVec 5) (cm : BitVec 2) (s : State) : Out :=
  runSlot g s (fun t => putPred s t pd (condMerge cm (pred t pd) (condHolds cond.toNat (sreg t ra) (sreg t rb))) 1)

/-- CMPI (R236). -/
def execCmpi (g : Guard) (pd : BitVec 3) (cond : BitVec 4) (ra : BitVec 5) (cm : BitVec 2) (i : BitVec 8)
    (s : State) : Out :=
  runSlot g s (fun t => putPred s t pd (condMerge cm (pred t pd) (condHolds cond.toNat (sreg t ra) (cmpImm cond i))) 1)

/-- PLOG (R237): p[pd] := LUT[2 p[pa] + p[pb]]. -/
def execPlog (g : Guard) (pd pa pb : BitVec 3) (lut : BitVec 4) (s : State) : Out :=
  runSlot g s (fun t => putPred s t pd (lut.getLsbD (2 * b2n (pred t pa) + b2n (pred t pb))) 1)

/-- PMOV.wr (R238): each predicate of MASK but p0 is a result of its own (R227, log entry 22). -/
def execPmovWr (g : Guard) (reg : BitVec 5) (mask : BitVec 8) (s : State) : Out :=
  runSlot g s (fun t =>
    let v := sreg t reg
    let go := (List.range 7).foldl (fun (r : Except Attn Thread) i =>
      r.bind (fun t => if mask.getLsbD (i + 1) then addPred t (BitVec.ofNat 3 (i + 1)) (v.getLsbD (i + 1)) 1 else .ok t))
      (.ok t)
    go.map (setThread s s.cur))

/-- PMOV.rd (R238): bit 0 is always 1. -/
def execPmovRd (g : Guard) (reg : BitVec 5) (s : State) : Out :=
  runSlot g s (fun t => putScalar s t reg ((t.r.p ||| 1).setWidth 64) 1)

end Sys2Proof.Machine
end

