-- ==== Sys2Proof/Machine/Dispatch.lean ====
section
/-! DEFINITION. One arm per instruction: its meaning, or its rejection by name. -/

namespace Sys2Proof.Machine

/-- What an instruction, event, packet or command does. -/
def exec (i : Instr) (s : State) : Host.Outcome State Fault Refusal :=
  match i with
  | .nop g x => Sys2Proof.Machine.execNop g x s
  | .add g rd ra rb => Sys2Proof.Machine.execAdd g rd ra rb s
  | .sub g rd ra rb => Sys2Proof.Machine.execSub g rd ra rb s
  | .addi g rd ra imm => Sys2Proof.Machine.execAddi g rd ra imm s
  | .mul g rd ra rb => Sys2Proof.Machine.execMul g rd ra rb s
  | .mulhI g rd ra rb => Sys2Proof.Machine.execMulhI g rd ra rb s
  | .mulhN g rd ra rb => Sys2Proof.Machine.execMulhN g rd ra rb s
  | .and g rd ra rb => Sys2Proof.Machine.execAnd g rd ra rb s
  | .or g rd ra rb => Sys2Proof.Machine.execOr g rd ra rb s
  | .xor g rd ra rb => Sys2Proof.Machine.execXor g rd ra rb s
  | .andn g rd ra rb => Sys2Proof.Machine.execAndn g rd ra rb s
  | .andi g rd ra imm => Sys2Proof.Machine.execAndi g rd ra imm s
  | .ori g rd ra imm => Sys2Proof.Machine.execOri g rd ra imm s
  | .xori g rd ra imm => Sys2Proof.Machine.execXori g rd ra imm s
  | .shl g rd ra rb => Sys2Proof.Machine.execShl g rd ra rb s
  | .shr g rd ra rb => Sys2Proof.Machine.execShr g rd ra rb s
  | .sar g rd ra rb => Sys2Proof.Machine.execSar g rd ra rb s
  | .ror g rd ra rb => Sys2Proof.Machine.execRor g rd ra rb s
  | .shli g rd ra c => Sys2Proof.Machine.execShli g rd ra c s
  | .shri g rd ra c => Sys2Proof.Machine.execShri g rd ra c s
  | .sari g rd ra c => Sys2Proof.Machine.execSari g rd ra c s
  | .rori g rd ra c => Sys2Proof.Machine.execRori g rd ra c s
  | .bfxN g rd ra pos len => Sys2Proof.Machine.execBfxN g rd ra pos len s
  | .bfxI g rd ra pos len => Sys2Proof.Machine.execBfxI g rd ra pos len s
  | .bfi g rd ra pos len => Sys2Proof.Machine.execBfi g rd ra pos len s
  | .clz g rd ra => Sys2Proof.Machine.execClz g rd ra s
  | .ctz g rd ra => Sys2Proof.Machine.execCtz g rd ra s
  | .popc g rd ra => Sys2Proof.Machine.execPopc g rd ra s
  | .minI g rd ra rb => Sys2Proof.Machine.execMinI g rd ra rb s
  | .minN g rd ra rb => Sys2Proof.Machine.execMinN g rd ra rb s
  | .maxI g rd ra rb => Sys2Proof.Machine.execMaxI g rd ra rb s
  | .maxN g rd ra rb => Sys2Proof.Machine.execMaxN g rd ra rb s
  | .sel g rd ra rb pn ps => Sys2Proof.Machine.execSel g rd ra rb pn ps s
  | .movi g rd imm => Sys2Proof.Machine.execMovi g rd imm s
  | .movhi g rd imm => Sys2Proof.Machine.execMovhi g rd imm s
  | .cmp g pd cond ra rb cm => Sys2Proof.Machine.execCmp g pd cond ra rb cm s
  | .cmpi g pd cond ra cm imm => Sys2Proof.Machine.execCmpi g pd cond ra cm imm s
  | .plog g pd pa pb lut => Sys2Proof.Machine.execPlog g pd pa pb lut s
  | .pmovWr g reg mask => Sys2Proof.Machine.execPmovWr g reg mask s
  | .pmovRd g reg => Sys2Proof.Machine.execPmovRd g reg s
  | .br g tgt => Sys2Proof.Machine.execBr g tgt s
  | .brx g => Sys2Proof.Machine.execBrx g s
  | .jmp g ra => Sys2Proof.Machine.execJmp g ra s
  | .call g rd ra => Sys2Proof.Machine.execCall g rd ra s
  | .ret g ra => Sys2Proof.Machine.execRet g ra s
  | .loopReg g ra start exit => Sys2Proof.Machine.execLoopReg g ra start exit s
  | .loopImm g cnt start exit => Sys2Proof.Machine.execLoopImm g cnt start exit s
  | .endl g => Sys2Proof.Machine.execEndl g s
  | .brk g tgt => Sys2Proof.Machine.execBrk g tgt s
  | .endT g => Sys2Proof.Machine.execEndT g s
  | .trap g code => Sys2Proof.Machine.execTrap g code s
  | .mnop h x => Sys2Proof.Machine.execMnop h x s
  | .ldb h rd ra ord scope mode off disp => Sys2Proof.Machine.execLdb h rd ra ord scope mode off disp s
  | .ldh h rd ra ord scope mode off disp => Sys2Proof.Machine.execLdh h rd ra ord scope mode off disp s
  | .ldw h rd ra ord scope mode off disp => Sys2Proof.Machine.execLdw h rd ra ord scope mode off disp s
  | .ld h rd ra ord scope mode off disp => Sys2Proof.Machine.execLd h rd ra ord scope mode off disp s
  | .ldbs h rd ra ord scope mode off disp => Sys2Proof.Machine.execLdbs h rd ra ord scope mode off disp s
  | .ldhs h rd ra ord scope mode off disp => Sys2Proof.Machine.execLdhs h rd ra ord scope mode off disp s
  | .ldws h rd ra ord scope mode off disp => Sys2Proof.Machine.execLdws h rd ra ord scope mode off disp s
  | .stb h rs ra ord scope disp => Sys2Proof.Machine.execStb h rs ra ord scope disp s
  | .sth h rs ra ord scope disp => Sys2Proof.Machine.execSth h rs ra ord scope disp s
  | .stw h rs ra ord scope disp => Sys2Proof.Machine.execStw h rs ra ord scope disp s
  | .st h rs ra ord scope disp => Sys2Proof.Machine.execSt h rs ra ord scope disp s
  | .ldrow h t e nm ra rstr mode off => Sys2Proof.Machine.execLdrow h t e nm ra rstr mode off s
  | .strow h t e nm ra rstr => Sys2Proof.Machine.execStrow h t e nm ra rstr s
  | .atom h rd ra rb rc aop w rv ord scope => Sys2Proof.Machine.execAtom h rd ra rb rc aop w rv ord scope s
  | .fence h ord scope => Sys2Proof.Machine.execFence h ord scope s
  | .probe h pd rdp ra wayf way mb tgt barf rb => Sys2Proof.Machine.execProbe h pd rdp ra wayf way mb tgt barf rb s
  | .fill h rd ra wayf way barf rb => Sys2Proof.Machine.execFill h rd ra wayf way barf rb s
  | .evict h wb ra rd => Sys2Proof.Machine.execEvict h wb ra rd s
  | .wback h ra rd => Sys2Proof.Machine.execWback h ra rd s
  | .cvta h rd ra dir => Sys2Proof.Machine.execCvta h rd ra dir s
  | .aptest h pd ra sp => Sys2Proof.Machine.execAptest h pd ra sp s
  | .wait h l sc c t => Sys2Proof.Machine.execWait h l sc c t s
  | .mon h ent ra rb cmp w rt => Sys2Proof.Machine.execMon h ent ra rb cmp w rt s
  | .mwait h mask rd => Sys2Proof.Machine.execMwait h mask rd s
  | .vnop h x => Sys2Proof.Machine.execVnop h x s
  | .vadd h dt row ta tb br bfix => Sys2Proof.Machine.execVadd h dt row ta tb br bfix s
  | .vsub h dt row ta tb br bfix => Sys2Proof.Machine.execVsub h dt row ta tb br bfix s
  | .vmul h dt row ta tb br bfix => Sys2Proof.Machine.execVmul h dt row ta tb br bfix s
  | .vfma h dt row ta tb br bfix => Sys2Proof.Machine.execVfma h dt row ta tb br bfix s
  | .vmin h dt row ta tb br bfix => Sys2Proof.Machine.execVmin h dt row ta tb br bfix s
  | .vmax h dt row ta tb br bfix => Sys2Proof.Machine.execVmax h dt row ta tb br bfix s
  | .vabs h dt row ta => Sys2Proof.Machine.execVabs h dt row ta s
  | .vneg h dt row ta => Sys2Proof.Machine.execVneg h dt row ta s
  | .vcmp h dt row ta tb br bfix ty => Sys2Proof.Machine.execVcmp h dt row ta tb br bfix ty s
  | .vsel h dt row ta tb br bfix ty => Sys2Proof.Machine.execVsel h dt row ta tb br bfix ty s
  | .vexp2 h dt row ta => Sys2Proof.Machine.execVexp2 h dt row ta s
  | .vlog2 h dt row ta => Sys2Proof.Machine.execVlog2 h dt row ta s
  | .vrcp h dt row ta => Sys2Proof.Machine.execVrcp h dt row ta s
  | .vrsqrt h dt row ta => Sys2Proof.Machine.execVrsqrt h dt row ta s
  | .vscale h dt row ta tb br bfix imm => Sys2Proof.Machine.execVscale h dt row ta tb br bfix imm s
  | .viadd h dt row ta tb br bfix ty sat => Sys2Proof.Machine.execViadd h dt row ta tb br bfix ty sat s
  | .visub h dt row ta tb br bfix ty sat => Sys2Proof.Machine.execVisub h dt row ta tb br bfix ty sat s
  | .vimul h dt row ta tb br bfix ty sat => Sys2Proof.Machine.execVimul h dt row ta tb br bfix ty sat s
  | .vimin h dt row ta tb br bfix ty => Sys2Proof.Machine.execVimin h dt row ta tb br bfix ty s
  | .vimax h dt row ta tb br bfix ty => Sys2Proof.Machine.execVimax h dt row ta tb br bfix ty s
  | .vand h dt row ta tb br bfix => Sys2Proof.Machine.execVand h dt row ta tb br bfix s
  | .vor h dt row ta tb br bfix => Sys2Proof.Machine.execVor h dt row ta tb br bfix s
  | .vxor h dt row ta tb br bfix => Sys2Proof.Machine.execVxor h dt row ta tb br bfix s
  | .vshl h dt row ta tb br bfix ty imm => Sys2Proof.Machine.execVshl h dt row ta tb br bfix ty imm s
  | .vshr h dt row ta tb br bfix ty imm => Sys2Proof.Machine.execVshr h dt row ta tb br bfix ty imm s
  | .vsar h dt row ta tb br bfix ty imm => Sys2Proof.Machine.execVsar h dt row ta tb br bfix ty imm s
  | .vcvt h dt dr ta ar se de => Sys2Proof.Machine.execVcvt h dt dr ta ar se de s
  | .vpackd h dt dr ta ar mr w => Sys2Proof.Machine.execVpackd h dt dr ta ar mr w s
  | .vunpkd h dt dr ta ar mr w => Sys2Proof.Machine.execVunpkd h dt dr ta ar mr w s
  | .vpackm h dt dr ta ar sr mf => Sys2Proof.Machine.execVpackm h dt dr ta ar sr mf s
  | .vunpkm h dt dr ta ar sr mf => Sys2Proof.Machine.execVunpkm h dt dr ta ar sr mf s
  | .vrsum h dt dr ta ar doff acc => Sys2Proof.Machine.execVrsum h dt dr ta ar doff acc s
  | .vrmax h dt dr ta ar doff acc => Sys2Proof.Machine.execVrmax h dt dr ta ar doff acc s
  | .vrmin h dt dr ta ar doff acc => Sys2Proof.Machine.execVrmin h dt dr ta ar doff acc s
  | .vshuf h dt row ta tb br bfix ty => Sys2Proof.Machine.execVshuf h dt row ta tb br bfix ty s
  | .vtrans h dt dq ta aq w => Sys2Proof.Machine.execVtrans h dt dq ta aq w s
  | .vmov h dt dr ta ar => Sys2Proof.Machine.execVmov h dt dr ta ar s
  | .vzrd h dt dr z zr => Sys2Proof.Machine.execVzrd h dt dr z zr s
  | .vzwr h z zr ta ar => Sys2Proof.Machine.execVzwr h z zr ta ar s
  | .vbcast h dt dr rs w => Sys2Proof.Machine.execVbcast h dt dr rs w s
  | .xnop h x => Sys2Proof.Machine.execXnop h x s
  | .mma h rpe cnt inca incb z ra rsa rb rsb => Sys2Proof.Machine.execMma h rpe cnt inca incb z ra rsa rb rsb s
  | .mmaTb h rpe cnt inca incb z ra rsa rbs pos rel => Sys2Proof.Machine.execMmaTb h rpe cnt inca incb z ra rsa rbs pos rel s
  | .zzero h z => Sys2Proof.Machine.execZzero h z s
  | .zscale h z t row ax => Sys2Proof.Machine.execZscale h z t row ax s
  | .zout h z dt row zr df => Sys2Proof.Machine.execZout h z dt row zr df s
  | .cnop g x => Sys2Proof.Machine.execCnop g x s
  | .copy g ch ra => Sys2Proof.Machine.execCopy g ch ra s
  | .close g => Sys2Proof.Machine.execClose g s
  | .binit g ra rn rs => Sys2Proof.Machine.execBinit g ra rn rs s
  | .barrive g ra rs exp scope => Sys2Proof.Machine.execBarrive g ra rs exp scope s
  | .bwait g test pd ra rph scope => Sys2Proof.Machine.execBwait g test pd ra rph scope s
  | .waitl g test pd ctxk rc rn scope => Sys2Proof.Machine.execWaitl g test pd ctxk rc rn scope s
  | .gjoin g rg => Sys2Proof.Machine.execGjoin g rg s
  | .gleave g rg => Sys2Proof.Machine.execGleave g rg s
  | .gbar g rg mode pd => Sys2Proof.Machine.execGbar g rg mode pd s
  | .setfmt g msk img => Sys2Proof.Machine.execSetfmt g msk img s
  | .crr g rd cr => Sys2Proof.Machine.execCrr g rd cr s
  | .crw g rs cr => Sys2Proof.Machine.execCrw g rs cr s
  | .dcal g rd => Sys2Proof.Machine.execDcal g rd s
  | .dleft g rd pd => Sys2Proof.Machine.execDleft g rd pd s
  | .tlbi g form rs ra => Sys2Proof.Machine.execTlbi g form rs ra s
  | .tlbiSync g => Sys2Proof.Machine.execTlbiSync g s
  | .tret g => Sys2Proof.Machine.execTret g s
  | .amark g k ra rl => Sys2Proof.Machine.execAmark g k ra rl s
  | .qnop g x => Sys2Proof.Machine.execQnop g x s
  | .enqt g ra => Sys2Proof.Machine.execEnqt g ra s
  | .eboard g rd rw any t e ord atr off => Sys2Proof.Machine.execEboard g rd rw any t e ord atr off s
  | .ealight g rw dep ra ord => Sys2Proof.Machine.execEalight g rw dep ra ord s
  | .ecap g rd rw ra f cop ord atr off => Sys2Proof.Machine.execEcap g rd rw ra f cop ord atr off s
  | .erow g t e rw ord atr off => Sys2Proof.Machine.execErow g t e rw ord atr off s
  | .ewhen g rd rw => Sys2Proof.Machine.execEwhen g rd rw s
  | .tboard g rl rf re rs d => Sys2Proof.Machine.execTboard g rl rf re rs d s
  | .twait g rd n => Sys2Proof.Machine.execTwait g rd n s
  | .tleave g => Sys2Proof.Machine.execTleave g s
  | .tstat g rd => Sys2Proof.Machine.execTstat g rd s
  | .tspeed g spd => Sys2Proof.Machine.execTspeed g spd s
  | .fst g rdst rsrc rlen rctr ctr => Sys2Proof.Machine.execFst g rdst rsrc rlen rctr ctr s
  | .fld g rdst rsrc rlen rctr ctr => Sys2Proof.Machine.execFld g rdst rsrc rlen rctr ctr s
  | .fatom g rd ra rb aop w rv ord atr off => Sys2Proof.Machine.execFatom g rd ra rb aop w rv ord atr off s
  | .vatom g ra t e h ft => Sys2Proof.Machine.execVatom g ra t e h ft s
  | .coll g rd ra => Sys2Proof.Machine.execColl g rd ra s
  | .qenq rs2 rs1 rd => Sys2Proof.Machine.execQenq rs2 rs1 rd s
  | .qfence => Sys2Proof.Machine.execQfence s
  | .controlRegisterWrite pa len data => Sys2Proof.Machine.execControlRegisterWrite pa len data s
  | .pageTableWalkComplete walk => Sys2Proof.Machine.execPageTableWalkComplete walk s
  | .migratingRewalk walk => Sys2Proof.Machine.execMigratingRewalk walk s
  | .tlbiCommandComplete => Sys2Proof.Machine.execTlbiCommandComplete s
  | .timedLanding core => Sys2Proof.Machine.execTimedLanding core s
  | .requestDataArrival core req part => Sys2Proof.Machine.execRequestDataArrival core req part s
  | .memoryWritePerformed core req part => Sys2Proof.Machine.execMemoryWritePerformed core req part s
  | .watchTimeout core ent => Sys2Proof.Machine.execWatchTimeout core ent s
  | .freezeRelease core => Sys2Proof.Machine.execFreezeRelease core s
  | .freezeLimit core => Sys2Proof.Machine.execFreezeLimit core s
  | .stalledBundleIssue core => Sys2Proof.Machine.execStalledBundleIssue core s
  | .scrubRead core => Sys2Proof.Machine.execScrubRead core s
  | .fillComplete core n => Sys2Proof.Machine.execFillComplete core n s
  | .writebackComplete core n => Sys2Proof.Machine.execWritebackComplete core n s
  | .makeliveComplete => Sys2Proof.Machine.execMakeliveComplete s
  | .dropHoldDone => Sys2Proof.Machine.execDropHoldDone s
  | .dropDrainDone => Sys2Proof.Machine.execDropDrainDone s
  | .dropRebuildDone => Sys2Proof.Machine.execDropRebuildDone s
  | .pcerrInterval => Sys2Proof.Machine.execPcerrInterval s
  | .eddySlotPass stage => Sys2Proof.Machine.execEddySlotPass stage s
  | .tapOperationPerformed core => Sys2Proof.Machine.execTapOperationPerformed core s
  | .eboardAnyTimeout core => Sys2Proof.Machine.execEboardAnyTimeout core s
  | .teardownComplete => Sys2Proof.Machine.execTeardownComplete s
  | .reclaimComplete => Sys2Proof.Machine.execReclaimComplete s
  | .lapBegin => Sys2Proof.Machine.execLapBegin s
  | .weirTileSend => Sys2Proof.Machine.execWeirTileSend s
  | .tideTilePass core tile => Sys2Proof.Machine.execTideTilePass core tile s
  | .tideTileLand core => Sys2Proof.Machine.execTideTileLand core s
  | .tideRegistration core => Sys2Proof.Machine.execTideRegistration core s
  | .boardingTimeout core => Sys2Proof.Machine.execBoardingTimeout core s
  | .taskRecordArrival die entry => Sys2Proof.Machine.execTaskRecordArrival die entry s
  | .spillReload die => Sys2Proof.Machine.execSpillReload die s
  | .taskConditionMet die entry => Sys2Proof.Machine.execTaskConditionMet die entry s
  | .schedulerPick die => Sys2Proof.Machine.execSchedulerPick die s
  | .priorityAging die entry => Sys2Proof.Machine.execPriorityAging die entry s
  | .threadStart core => Sys2Proof.Machine.execThreadStart core s
  | .preemptionTaken core => Sys2Proof.Machine.execPreemptionTaken core s
  | .saveLandingTimeout core => Sys2Proof.Machine.execSaveLandingTimeout core s
  | .saveComplete core => Sys2Proof.Machine.execSaveComplete core s
  | .restoreComplete core => Sys2Proof.Machine.execRestoreComplete core s
  | .killTaken core => Sys2Proof.Machine.execKillTaken core s
  | .endComplete core => Sys2Proof.Machine.execEndComplete core s
  | .segmentExpansionComplete core => Sys2Proof.Machine.execSegmentExpansionComplete core s
  | .copyRecordProcess ctx => Sys2Proof.Machine.execCopyRecordProcess ctx s
  | .copyRecordComplete ctx => Sys2Proof.Machine.execCopyRecordComplete ctx s
  | .barrierUpdate pa arrive sectors who => Sys2Proof.Machine.execBarrierUpdate pa arrive sectors who s
  | .groupPhaseComplete job gid => Sys2Proof.Machine.execGroupPhaseComplete job gid s
  | .trapEntry core => Sys2Proof.Machine.execTrapEntry core s
  | .drainLead => Sys2Proof.Machine.execDrainLead s
  | .windowOpen => Sys2Proof.Machine.execWindowOpen s
  | .windowClose => Sys2Proof.Machine.execWindowClose s
  | .railRecalDone die => Sys2Proof.Machine.execRailRecalDone die s
  | .auditReplayStart => Sys2Proof.Machine.execAuditReplayStart s
  | .auditCompare => Sys2Proof.Machine.execAuditCompare s
  | .linkRetryTimeout port => Sys2Proof.Machine.execLinkRetryTimeout port s
  | .laneErrorInterval port => Sys2Proof.Machine.execLaneErrorInterval port s
  | .laneTrainPass port lane => Sys2Proof.Machine.execLaneTrainPass port lane s
  | .linkTrainingDone port => Sys2Proof.Machine.execLinkTrainingDone port s
  | .packetRoute id => Sys2Proof.Machine.execPacketRoute id s
  | .escapeTimeout id => Sys2Proof.Machine.execEscapeTimeout id s
  | .combineWindowEnd line ft => Sys2Proof.Machine.execCombineWindowEnd line ft s
  | .retryBackoff tag => Sys2Proof.Machine.execRetryBackoff tag s
  | .e2eTimeout tag => Sys2Proof.Machine.execE2eTimeout tag s
  | .tagReuseReady => Sys2Proof.Machine.execTagReuseReady s
  | .replyCacheExpiry src tag => Sys2Proof.Machine.execReplyCacheExpiry src tag s
  | .keyCommandComplete => Sys2Proof.Machine.execKeyCommandComplete s
  | .deviceResetBoot => Sys2Proof.Machine.execDeviceResetBoot s
  | .quoteComplete => Sys2Proof.Machine.execQuoteComplete s
  | .resultWrite core => Sys2Proof.Machine.execResultWrite core s
  | .matrixBeat core => Sys2Proof.Machine.execMatrixBeat core s
  | .tlbiTakesEffect id => Sys2Proof.Machine.execTlbiTakesEffect id s
  | .quokorStore hart pa len data => Sys2Proof.Machine.execQuokorStore hart pa len data s
  | .tlbicmdPage asid => Sys2Proof.Machine.execTlbicmdPage asid s
  | .tlbicmdSpace asid => Sys2Proof.Machine.execTlbicmdSpace asid s
  | .tlbicmdAll => Sys2Proof.Machine.execTlbicmdAll s
  | .makelive arg comp => Sys2Proof.Machine.execMakelive arg comp s
  | .makedead arg => Sys2Proof.Machine.execMakedead arg s
  | .setscheme arg il => Sys2Proof.Machine.execSetscheme arg il s
  | .drop arg => Sys2Proof.Machine.execDrop arg s
  | .rehash => Sys2Proof.Machine.execRehash s
  | .teardown job => Sys2Proof.Machine.execTeardown job s
  | .reclaim slot => Sys2Proof.Machine.execReclaim slot s
  | .tideCtlWrite val => Sys2Proof.Machine.execTideCtlWrite val s
  | .schedCtlWrite die val => Sys2Proof.Machine.execSchedCtlWrite die val s
  | .schedPreempt die core => Sys2Proof.Machine.execSchedPreempt die core s
  | .schedKill die core => Sys2Proof.Machine.execSchedKill die core s
  | .fqResume frame => Sys2Proof.Machine.execFqResume frame s
  | .fqKill frame => Sys2Proof.Machine.execFqKill frame s
  | .fqRestart ctx => Sys2Proof.Machine.execFqRestart ctx s
  | .fqAbandon ctx => Sys2Proof.Machine.execFqAbandon ctx s
  | .portCfgWrite port val => Sys2Proof.Machine.execPortCfgWrite port val s
  | .bwCtlWrite val => Sys2Proof.Machine.execBwCtlWrite val s
  | .install slot job epoch => Sys2Proof.Machine.execInstall slot job epoch s
  | .zero slot => Sys2Proof.Machine.execZero slot s
  | .zerojob job => Sys2Proof.Machine.execZerojob job s
  | .featAcceptWrite val => Sys2Proof.Machine.execFeatAcceptWrite val s
  | .quote pa => Sys2Proof.Machine.execQuote pa s
  | .pccCfgWrite core val => Sys2Proof.Machine.execPccCfgWrite core val s
  | .nakReceive port ack => Sys2Proof.Machine.execNakReceive port ack s
  | .idle port => Sys2Proof.Machine.execIdle port s
  | .credit port returns => Sys2Proof.Machine.execCredit port returns s
  | .mapnak port mask ack => Sys2Proof.Machine.execMapnak port mask ack s
  | .mapadd port mask seq => Sys2Proof.Machine.execMapadd port mask seq s
  | .xack port n => Sys2Proof.Machine.execXack port n s
  | .xseq port n => Sys2Proof.Machine.execXseq port n s
  | .wr p => Sys2Proof.Machine.execWr p s
  | .rdreq p => Sys2Proof.Machine.execRdreq p s
  | .atomPacket p => Sys2Proof.Machine.execAtomPacket p s
  | .ctradd p => Sys2Proof.Machine.execCtradd p s
  | .vatomPacket p => Sys2Proof.Machine.execVatomPacket p s
  | .barArvArrive p => Sys2Proof.Machine.execBarArvArrive p s
  | .barArvJoin p => Sys2Proof.Machine.execBarArvJoin p s
  | .barArvLeave p => Sys2Proof.Machine.execBarArvLeave p s
  | .collp p => Sys2Proof.Machine.execCollp p s
  | .barrel p => Sys2Proof.Machine.execBarrel p s
  | .ack p => Sys2Proof.Machine.execAck p s
  | .rdrsp p => Sys2Proof.Machine.execRdrsp p s
  | .atomrsp p => Sys2Proof.Machine.execAtomrsp p s
  | .retry p => Sys2Proof.Machine.execRetry p s
  | .err p => Sys2Proof.Machine.execErr p s
  | .mgtmsgWrite p => Sys2Proof.Machine.execMgtmsgWrite p s
  | .mgtmsgHealth p => Sys2Proof.Machine.execMgtmsgHealth p s
  | .mgtmsgKey p => Sys2Proof.Machine.execMgtmsgKey p s
  | .flitReceive port flit => Sys2Proof.Machine.execFlitReceive port flit s
  | .laneLossOfLock port lane => Sys2Proof.Machine.execLaneLossOfLock port lane s
  | .uncorrectableCodeword port lane => Sys2Proof.Machine.execUncorrectableCodeword port lane s
  | .railError die rail => Sys2Proof.Machine.execRailError die rail s
  | .temperatureEvent temp power => Sys2Proof.Machine.execTemperatureEvent temp power s
  | .recoveryUpload image firmware resets => Sys2Proof.Machine.execRecoveryUpload image firmware resets s

end Sys2Proof.Machine
end

