-- ==== Sys2Proof/Machine/Step.lean ====
section
/-! DEFINITION. One step: the first thing to be done at this instant, or the next ring cycle; and the placing of one
instruction where the next step runs it. -/

namespace Sys2Proof.Machine

/-- One step of the package. -/
def step (s : State) : Host.Outcome State Fault Refusal := perform exec s

/-- The state with one instruction's word placed where the next step runs it (log entry 20). -/
def State.withFetchWord (s : State) (nbits w : Nat) : State := placeWord s nbits w

end Sys2Proof.Machine
end

