-- ==== Sys2Proof/Safety.lean ====
section
/-! DEFINITION. What a safe run is, and the terms in which claims about the machine are stated. -/

namespace Sys2Proof.Machine

/-- The state n steps after s, unless a step stops. -/
def runFor : Nat → State → Option State
  | 0, s => some s
  | n + 1, s =>
    match step s with
    | .next s' => runFor n s'
    | _ => none

/-- A run of n steps from s in which no step is a fault or a refusal. -/
def SafeFor (n : Nat) (s : State) : Prop := (runFor n s).isSome = true

/-! Slots -/

/-- The current core runs thread t, and guard g lets a slot of its bundle be performed (R167). -/
def Performs (s : State) (t : Thread) (g : Guard) : Prop := threadOf s s.cur = some t ∧ guardTrue t g = true

/-- A result of latency l can be put in flight to d: no other write is due there in that cycle, no row is read then or
later by V or STROW, and fewer than 64 results are in flight, or d is p0 (R43, R171, R248, R269). -/
def Fits (t : Thread) (d : Dest) (l : Nat) : Prop :=
  collides t d (t.x.dc + l) = false ∧ tileRead t d (t.x.dc + l) = false ∧ (d ≠ .preg 0 → inFlight t < 64)

/-- The thread with one more result in flight, due l cycles from now (R166). -/
def withResult (t : Thread) (d : Dest) (l : Nat) (v : Row) : Thread :=
  { t with x := { t.x with inflight := t.x.inflight ++ [⟨d, t.x.dc + l, v, fullMask, 0, 0⟩] } }

/-- The state in which the current core's thread has one more result in flight, and nothing else has changed. -/
def withScalar (s : State) (t : Thread) (rd : BitVec 5) (l : Nat) (v : Word) : State :=
  setThread s s.cur (withResult t (.sreg rd.toNat) l (BitVec.ofNat 2048 v.toNat))

/-- The same for a predicate. -/
def withPred (s : State) (t : Thread) (pd : BitVec 3) (l : Nat) (v : Bool) : State :=
  setThread s s.cur (withResult t (.preg pd.toNat) l (BitVec.ofNat 2048 (b2n v)))

/-- The guard of a slot that does nothing at all when its guard is false (R167): every slot but those of V and X, which keep their
engines busy (R169), and those that check their privilege whatever their guard (R302). -/
def guardOf : Instr → Option Guard
  | .nop g .. | .add g .. | .sub g .. | .addi g .. | .mul g .. | .mulhI g .. | .mulhN g .. | .and g .. | .or g .. => some g
  | .xor g .. | .andn g .. | .andi g .. | .ori g .. | .xori g .. | .shl g .. | .shr g .. | .sar g .. | .ror g .. => some g
  | .shli g .. | .shri g .. | .sari g .. | .rori g .. | .bfxN g .. | .bfxI g .. | .bfi g .. | .clz g .. | .ctz g .. => some g
  | .popc g .. | .minI g .. | .minN g .. | .maxI g .. | .maxN g .. | .sel g .. | .movi g .. | .movhi g .. => some g
  | .cmp g .. | .cmpi g .. | .plog g .. | .pmovWr g .. | .pmovRd g .. | .br g .. | .brx g | .jmp g .. | .call g .. => some g
  | .ret g .. | .loopReg g .. | .loopImm g .. | .endl g | .brk g .. | .endT g | .trap g .. | .cnop g .. | .copy g .. => some g
  | .close g | .binit g .. | .barrive g .. | .bwait g .. | .waitl g .. | .gjoin g .. | .gleave g .. | .gbar g .. => some g
  | .setfmt g .. | .crr g .. | .dcal g .. | .dleft g .. | .amark g .. | .qnop g .. | .enqt g .. | .eboard g .. => some g
  | .ealight g .. | .ecap g .. | .erow g .. | .ewhen g .. | .tboard g .. | .twait g .. | .tleave g | .tstat g .. => some g
  | .fst g .. | .fld g .. | .fatom g .. | .vatom g .. | .coll g .. => some g
  | .mnop h .. | .ldb h .. | .ldh h .. | .ldw h .. | .ld h .. | .ldbs h .. | .ldhs h .. | .ldws h .. | .stb h .. => some h.g
  | .sth h .. | .stw h .. | .st h .. | .ldrow h .. | .strow h .. | .atom h .. | .fence h .. | .probe h .. => some h.g
  | .fill h .. | .evict h .. | .wback h .. | .cvta h .. | .aptest h .. | .wait h .. | .mon h .. | .mwait h .. => some h.g
  | _ => none

/-- The guard of a slot for privileged threads alone, which checks that first (R302). -/
def privilegedGuardOf : Instr → Option Guard
  | .tlbi g .. | .tlbiSync g | .tret g | .tspeed g .. => some g
  | _ => none

/-- The header of a V slot. -/
def vHeader : Instr → Option VHdr
  | .vnop h .. | .vadd h .. | .vsub h .. | .vmul h .. | .vfma h .. | .vmin h .. | .vmax h .. | .vabs h .. => some h
  | .vneg h .. | .vcmp h .. | .vsel h .. | .vexp2 h .. | .vlog2 h .. | .vrcp h .. | .vrsqrt h .. | .vscale h .. => some h
  | .viadd h .. | .visub h .. | .vimul h .. | .vimin h .. | .vimax h .. | .vand h .. | .vor h .. | .vxor h .. => some h
  | .vshl h .. | .vshr h .. | .vsar h .. | .vcvt h .. | .vpackd h .. | .vunpkd h .. | .vpackm h .. | .vunpkm h .. => some h
  | .vrsum h .. | .vrmax h .. | .vrmin h .. | .vshuf h .. | .vtrans h .. | .vmov h .. | .vzrd h .. | .vzwr h .. => some h
  | .vbcast h .. => some h
  | _ => none

/-- The header of an X slot. -/
def xHeader : Instr → Option XHdr
  | .xnop h .. | .mma h .. | .mmaTb h .. | .zzero h .. | .zscale h .. | .zout h .. => some h
  | _ => none

/-- A transfer of the sequencer: the next bundle of the segment is bundle i (R239). -/
def movedTo (t : Thread) (i : Nat) : Thread := { t with q := { t.q with idx := i, moved := true } }

/-- What the bytes of memory are, one by one. -/
def SameMemory (s s' : State) : Prop := ∀ a, memByte s'.mem a = memByte s.mem a

/-- Everything of a thread but its requests, results and coverage is as it was. -/
def SameRegisters (t t' : Thread) : Prop :=
  t'.r = t.r ∧ t'.c = t.c ∧ t'.q = t.q ∧ t'.regs = t.regs ∧ t'.watch = t.watch

/-! Requests -/

/-- Issuing a request changes nothing of the machine's but this (R172, R251): the request joins the thread's, its
registers, control registers, results and phase, memory and every other core stay as they were. -/
def Issued (s s' : State) (t : Thread) (q : Req) : Prop :=
  ∃ t', threadOf s' s.cur = some t' ∧ t'.reqs = t.reqs ++ [q] ∧ t'.nextReq = t.nextReq + 1 ∧ SameRegisters t t' ∧
    t'.x.inflight = t.x.inflight ∧ t'.x.dc = t.x.dc ∧ t'.phase = t.phase ∧ t'.attn = t.attn ∧ t'.tide = t.tide ∧
    s'.mem = s.mem ∧ (∀ c, c ≠ s.cur → coreOf s' c = coreOf s c) ∧ s'.now = s.now ∧ s'.todo = s.todo ∧
    s'.dies = s.dies ∧ s'.router = s.router ∧ s'.eddy = s.eddy

/-- The address of a scalar access of w bytes: the register plus DISP units, low bits dropped (R245, R251). -/
def accessAddress (t : Thread) (ra : BitVec 5) (disp : BitVec 9) (w : Nat) : Word :=
  BitVec.ofNat 64 ((sreg t ra + BitVec.ofInt 64 (disp.toInt * w)).toNat / w * w)

/-- A landing can be taken (R41, R43, R172, R248): below 63 counted requests of the class, a landing slot, for a fixed-mode load
below 64 results in flight, no write due in the destination in its cycle. -/
def Lands (t : Thread) (l : Landing) (cls : Nat) (ds : List Dest) : Prop :=
  (l.off = 0 → outstanding t cls < 63) ∧ (l.off ≠ 0 → l.fixed = false → landingHeld t < 16) ∧ (l.fixed = true → inFlight t < 64) ∧
  (l.off ≠ 0 → ∀ d ∈ ds, collides t d (t.x.dc + l.off) = false ∧ tileRead t d (t.x.dc + l.off) = false)

/-- A request of the thread that only it bears the number of. -/
def OnlyReq (t : Thread) (q : Req) : Prop := q ∈ t.reqs ∧ ∀ r ∈ t.reqs, r.id = q.id → r = q

/-- A part that lies within one 32-byte word of SRAM that holds what was encoded (R35, R47). -/
def SoundWord (s : State) (p : Part) : Prop :=
  inSram p.pa = true ∧ targetOf s p.pa = .sram (p.pa / 0x800000) (p.pa % 0x800000) ∧ p.pa % 32 + p.len ≤ 32 ∧ 0 < p.len ∧
  mget (p.pa / 32) s.sramErr = none

/-- Part p of a request of core c need take no turn at its home's sub-banks, or it is its turn (R39). -/
def HasTurn (s : State) (c : Nat) (q : Req) (p : Part) : Prop :=
  ∀ h b, contends c q p = some (h, b) → turn s h b p.refused = .now

/-- The state in which a part whose turn it is is performed: its sub-banks are taken for this cycle (R39). -/
def atTurn (s : State) (c : Nat) (q : Req) (p : Part) : State :=
  match contends c q p with
  | none => s
  | some (h, b) => takeTurn s h b

/-! Engines -/

/-- Nothing of the thread's pipeline stands in an operation's way: no result, request, read or write is outstanding and
both engines are free (R169, R171, R269). -/
def Quiet (t : Thread) : Prop :=
  t.x.inflight = [] ∧ t.x.reads = [] ∧ t.x.writes = [] ∧ t.x.zguard = [] ∧ t.x.counts = [] ∧ t.x.vop = none ∧
  t.x.xop = none ∧ t.reqs = [] ∧ t.uncov = [] ∧ t.x.vEnd ≤ t.x.dc ∧ t.x.xEnd ≤ t.x.dc

/-- Registers, control registers and sequencer are as they were (results are written later, R166). -/
def KeepsRegisters (t t' : Thread) : Prop := t'.r = t.r ∧ t'.c = t.c ∧ t'.q = t.q ∧ t'.reqs = t.reqs ∧ t'.phase = t.phase

/-- The V operation i begins (R267, R268): the engine is busy for its beats; its first beat puts the results of `out` in
flight; the operation goes on when it has more beats; nothing else changes. -/
def StartsV (i : Instr) (h : VHdr) (s : State) (t : Thread) (out : List Result → Prop) : Prop :=
  ∃ t', exec i s = .next (setThread s s.cur t') ∧ out t'.x.inflight ∧ t'.x.vEnd = t.x.dc + (h.beats.toNat + 1) ∧
    (h.beats = 0 → t'.x.vop = none) ∧
    (h.beats ≠ 0 → ∃ v, t'.x.vop = some v ∧ v.i = i ∧ v.k = 1 ∧ v.b = h.beats.toNat + 1 ∧ v.issue = t.x.dc ∧ v.fmt = t.c.fmt) ∧
    KeepsRegisters t t'

/-- One whole row is in flight to tile row k, due l cycles from now, and satisfies P. -/
def OneRow (t : Thread) (k l : Nat) (P : Row → Prop) (rs : List Result) : Prop :=
  ∃ r, rs = [r] ∧ r.dest = .trow k ∧ r.due = t.x.dc + l ∧ r.mask = fullMask ∧ P r.val

/-- Every element of width w of a row is what f gives. -/
def Elements (w : Nat) (f : Nat → Nat) (r : Row) : Prop := ∀ j, j < 2048 / w → elem w j r = f j

/-- Row n of the tile registers, counted through all of them (R150). -/
def tileRow (t : Thread) (n : Nat) : Row := mgetD 0 n t.r.tiles

end Sys2Proof.Machine
end

