-- ==== Sys2Proof/Certificates/Slice0/Obligations.lean ====
section
/-! DEFINITION. The statements for the provers, one proposition each (OBLIGATIONS.json says what each claims). -/

open Sys2Proof Sys2Proof.Machine

/-- For every core whose thread performs the slot and whose destination can take a result, ADD, SUB, MUL, MULH.i, MULH.n,
AND, OR, XOR, ANDN, MIN and MAX complete: one result is in flight to s[rd], due after 1 or 3 cycles, with the value
R230 gives, and nothing else has changed. ADDI, ANDI, ORI and XORI do the same with the immediate taken as a signed
value of 12 bits extended to 64. (R230, R226, R231) -/
def Obligations.ScalarArithmetic : Prop :=
  (∀ (g : Guard) (rd ra rb : BitVec 5) (s : State) (t : Thread),
    Performs s t g → Fits t (.sreg rd.toNat) 1 → Fits t (.sreg rd.toNat) 3 →
    exec (.add g rd ra rb) s = .next (withScalar s t rd 1 (BitVec.ofNat 64 ((sreg t ra).toNat + (sreg t rb).toNat))) ∧
    exec (.sub g rd ra rb) s = .next (withScalar s t rd 1 (BitVec.ofInt 64 ((sreg t ra).toInt - (sreg t rb).toInt))) ∧
    exec (.mul g rd ra rb) s = .next (withScalar s t rd 3 (BitVec.ofNat 64 ((sreg t ra).toNat * (sreg t rb).toNat))) ∧
    (∃ v : Word, exec (.mulhI g rd ra rb) s = .next (withScalar s t rd 3 v) ∧ v = BitVec.ofInt 64 (Int.fdiv ((sreg t ra).toInt * (sreg t rb).toInt) (2 ^ 64))) ∧
    (∃ v : Word, exec (.mulhN g rd ra rb) s = .next (withScalar s t rd 3 v) ∧ v.toNat = (sreg t ra).toNat * (sreg t rb).toNat / 2 ^ 64) ∧
    (∃ v : Word, exec (.and g rd ra rb) s = .next (withScalar s t rd 1 v) ∧ ∀ i, v.getLsbD i = ((sreg t ra).getLsbD i && (sreg t rb).getLsbD i)) ∧
    (∃ v : Word, exec (.or g rd ra rb) s = .next (withScalar s t rd 1 v) ∧ ∀ i, v.getLsbD i = ((sreg t ra).getLsbD i || (sreg t rb).getLsbD i)) ∧
    (∃ v : Word, exec (.xor g rd ra rb) s = .next (withScalar s t rd 1 v) ∧ ∀ i, v.getLsbD i = ((sreg t ra).getLsbD i ^^ (sreg t rb).getLsbD i)) ∧
    (∃ v : Word, exec (.andn g rd ra rb) s = .next (withScalar s t rd 1 v) ∧ ∀ i, i < 64 → v.getLsbD i = ((sreg t ra).getLsbD i && !(sreg t rb).getLsbD i)) ∧
    (∃ v : Word, exec (.minI g rd ra rb) s = .next (withScalar s t rd 1 v) ∧ v.toInt = min (sreg t ra).toInt (sreg t rb).toInt) ∧
    (∃ v : Word, exec (.minN g rd ra rb) s = .next (withScalar s t rd 1 v) ∧ v.toNat = min (sreg t ra).toNat (sreg t rb).toNat) ∧
    (∃ v : Word, exec (.maxI g rd ra rb) s = .next (withScalar s t rd 1 v) ∧ v.toInt = max (sreg t ra).toInt (sreg t rb).toInt) ∧
    (∃ v : Word, exec (.maxN g rd ra rb) s = .next (withScalar s t rd 1 v) ∧ v.toNat = max (sreg t ra).toNat (sreg t rb).toNat)) ∧
  (∀ (g : Guard) (rd ra : BitVec 5) (i : BitVec 12) (s : State) (t : Thread),
    Performs s t g → Fits t (.sreg rd.toNat) 1 →
    exec (.addi g rd ra i) s = .next (withScalar s t rd 1 (BitVec.ofInt 64 ((sreg t ra).toInt + i.toInt))) ∧
    (∃ v : Word, exec (.andi g rd ra i) s = .next (withScalar s t rd 1 v) ∧ ∀ k, k < 64 → v.getLsbD k = ((sreg t ra).getLsbD k && (if k < 12 then i.getLsbD k else i.getLsbD 11))) ∧
    (∃ v : Word, exec (.ori g rd ra i) s = .next (withScalar s t rd 1 v) ∧ ∀ k, k < 64 → v.getLsbD k = ((sreg t ra).getLsbD k || (if k < 12 then i.getLsbD k else i.getLsbD 11))) ∧
    (∃ v : Word, exec (.xori g rd ra i) s = .next (withScalar s t rd 1 v) ∧ ∀ k, k < 64 → v.getLsbD k = ((sreg t ra).getLsbD k ^^ (if k < 12 then i.getLsbD k else i.getLsbD 11))))

/-- SHL, SHR, SAR and ROR with a count from s[rb] bits 5 to 0, and their immediate forms, complete with the values of
R232; a count of 0 returns x. With pos + len at most 64, BFX.n, BFX.i and BFI complete with the field zero-extended,
sign-extended, or inserted; a slot whose pos + len exceeds 64 is refused by the decoder. (R232, R233) -/
def Obligations.ShiftsAndBitFields : Prop :=
  (∀ (g : Guard) (rd ra rb : BitVec 5) (c : BitVec 6) (s : State) (t : Thread),
    Performs s t g → Fits t (.sreg rd.toNat) 1 →
    (∃ v : Word, exec (.shl g rd ra rb) s = .next (withScalar s t rd 1 v) ∧ v.toNat = (sreg t ra).toNat * 2 ^ ((sreg t rb).toNat % 64) % 2 ^ 64) ∧
    (∃ v : Word, exec (.shr g rd ra rb) s = .next (withScalar s t rd 1 v) ∧ v.toNat = (sreg t ra).toNat / 2 ^ ((sreg t rb).toNat % 64)) ∧
    (∃ v : Word, exec (.sar g rd ra rb) s = .next (withScalar s t rd 1 v) ∧ v = BitVec.ofInt 64 (Int.fdiv (sreg t ra).toInt (2 ^ ((sreg t rb).toNat % 64)))) ∧
    (∃ v : Word, exec (.ror g rd ra rb) s = .next (withScalar s t rd 1 v) ∧ v = BitVec.ofNat 64 ((sreg t ra).toNat / 2 ^ ((sreg t rb).toNat % 64) + (sreg t ra).toNat * 2 ^ (64 - ((sreg t rb).toNat % 64)))) ∧
    (∃ v : Word, exec (.shli g rd ra c) s = .next (withScalar s t rd 1 v) ∧ v.toNat = (sreg t ra).toNat * 2 ^ c.toNat % 2 ^ 64) ∧
    (∃ v : Word, exec (.shri g rd ra c) s = .next (withScalar s t rd 1 v) ∧ v.toNat = (sreg t ra).toNat / 2 ^ c.toNat) ∧
    (∃ v : Word, exec (.sari g rd ra c) s = .next (withScalar s t rd 1 v) ∧ v = BitVec.ofInt 64 (Int.fdiv (sreg t ra).toInt (2 ^ c.toNat))) ∧
    (∃ v : Word, exec (.rori g rd ra c) s = .next (withScalar s t rd 1 v) ∧ v = BitVec.ofNat 64 ((sreg t ra).toNat / 2 ^ c.toNat + (sreg t ra).toNat * 2 ^ (64 - c.toNat)))) ∧
  (∀ (g : Guard) (rd ra : BitVec 5) (pos len : BitVec 6) (s : State) (t : Thread),
    Performs s t g → Fits t (.sreg rd.toNat) 1 →
    (pos.toNat + (len.toNat + 1) ≤ 64 →
      let v := (sreg t ra).toNat / 2 ^ pos.toNat % 2 ^ (len.toNat + 1)
      exec (.bfxN g rd ra pos len) s = .next (withScalar s t rd 1 (BitVec.ofNat 64 v)) ∧
      exec (.bfxI g rd ra pos len) s = .next (withScalar s t rd 1
        (BitVec.ofInt 64 (if v.testBit len.toNat then (v : Int) - 2 ^ (len.toNat + 1) else v))) ∧
      (∃ w : Word, exec (.bfi g rd ra pos len) s = .next (withScalar s t rd 1 w) ∧
        ∀ k, k < 64 → w.getLsbD k =
          (if pos.toNat ≤ k ∧ k < pos.toNat + (len.toNat + 1) then (sreg t ra).getLsbD (k - pos.toNat)
           else (sreg t rd).getLsbD k))) ∧
    (64 < pos.toNat + (len.toNat + 1) →
      decodeSlot .s1 (encode (.bfxN g rd ra pos len)) = .error .fieldValue ∧
      decodeSlot .s1 (encode (.bfxI g rd ra pos len)) = .error .fieldValue ∧
      decodeSlot .s1 (encode (.bfi g rd ra pos len)) = .error .fieldValue))

/-- CLZ, CTZ, POPC, SEL, MOVI and MOVHI complete: one result in flight to s[rd] after 1 cycle with the value R234 and R235
give, nothing else changed. (R234, R235) -/
def Obligations.CountingSelectConstants : Prop :=
  ∀ (g : Guard) (rd ra rb : BitVec 5) (pn : Bool) (ps : BitVec 3) (i : BitVec 17) (s : State) (t : Thread),
  Performs s t g → Fits t (.sreg rd.toNat) 1 →
  (∃ v : Word, exec (.clz g rd ra) s = .next (withScalar s t rd 1 v) ∧ (sreg t ra = 0 → v = 64) ∧ (sreg t ra ≠ 0 → v.toNat < 64 ∧ 2 ^ (63 - v.toNat) ≤ (sreg t ra).toNat ∧ (sreg t ra).toNat < 2 ^ (64 - v.toNat))) ∧
  (∃ v : Word, exec (.ctz g rd ra) s = .next (withScalar s t rd 1 v) ∧ (sreg t ra = 0 → v = 64) ∧ (sreg t ra ≠ 0 → v.toNat < 64 ∧ (sreg t ra).getLsbD v.toNat = true ∧ ∀ k, k < v.toNat → (sreg t ra).getLsbD k = false)) ∧
  (∃ v : Word, exec (.popc g rd ra) s = .next (withScalar s t rd 1 v) ∧ v.toNat = ((List.range 64).filter (fun k => (sreg t ra).getLsbD k)).length) ∧
  exec (.sel g rd ra rb pn ps) s = .next (withScalar s t rd 1 (if (pred t ps ^^ pn) = true then sreg t ra else sreg t rb)) ∧
  exec (.movi g rd i) s = .next (withScalar s t rd 1 (BitVec.ofInt 64 i.toInt)) ∧
  exec (.movhi g rd i) s = .next (withScalar s t rd 1 (BitVec.ofNat 64 ((sreg t rd).toNat * 2 ^ 17 + i.toNat)))

/-- CMP and CMPI put the outcome of their condition, merged by CM, in flight to p[pd]; PLOG its table entry; PMOV.rd the
predicates as bits 0 to 7 of s[reg], with bit 0 set. PMOV.wr completes when each predicate of MASK but p0 can take a
result: the results put in flight are those predicates, in rising order, with the bits of s[reg]; MASK bit 0 is
ignored. That PMOV.wr puts one result in flight for each such predicate is the model's choice (log entry 22). (R236,
R237, R238) -/
def Obligations.ComparisonsAndPredicates : Prop :=
  (∀ (g : Guard) (pd pa pb : BitVec 3) (cond lut : BitVec 4) (ra rb reg : BitVec 5) (cm : BitVec 2) (i : BitVec 8) (s : State)
      (t : Thread),
    Performs s t g → cond.toNat ≤ 11 → cm ≠ 3 → Fits t (.preg pd.toNat) 1 → Fits t (.sreg reg.toNat) 1 →
    let test (x y : Word) : Bool :=
      match cond.toNat with
      | 0 => decide (x = y)
      | 1 => decide (x ≠ y)
      | 2 => decide (x.toInt < y.toInt)
      | 3 => decide (y.toInt ≤ x.toInt)
      | 4 => decide (x.toNat < y.toNat)
      | 5 => decide (y.toNat ≤ x.toNat)
      | 6 => decide (x.toInt ≤ y.toInt)
      | 7 => decide (y.toInt < x.toInt)
      | 8 => decide (x.toNat ≤ y.toNat)
      | 9 => decide (y.toNat < x.toNat)
      | 10 => decide (x &&& y ≠ 0)
      | _ => decide (x &&& y = 0)
    let merge (new : Bool) : Bool := if cm = 0 then new else if cm = 1 then pred t pd && new else pred t pd || new
    let small : Word := if cond = 4 ∨ cond = 5 ∨ cond = 8 ∨ cond = 9 then BitVec.ofNat 64 i.toNat else BitVec.ofInt 64 i.toInt
    exec (.cmp g pd cond ra rb cm) s = .next (withPred s t pd 1 (merge (test (sreg t ra) (sreg t rb)))) ∧
    exec (.cmpi g pd cond ra cm i) s = .next (withPred s t pd 1 (merge (test (sreg t ra) small))) ∧
    exec (.plog g pd pa pb lut) s = .next (withPred s t pd 1 (lut.getLsbD ((if pred t pa then 2 else 0) + (if pred t pb then 1 else 0)))) ∧
    (∃ v : Word, exec (.pmovRd g reg) s = .next (withScalar s t reg 1 v) ∧ ∀ k, k < 64 → v.getLsbD k = (decide (k < 8) && pred t (BitVec.ofNat 3 k)))) ∧
  (∀ (g : Guard) (reg : BitVec 5) (mask : BitVec 8) (s : State) (t : Thread),
    Performs s t g → inFlight t + 7 ≤ 64 →
    (∀ k, 1 ≤ k → k ≤ 7 → collides t (.preg k) (t.x.dc + 1) = false) →
    let out : List Result := ((List.range 8).filter (fun k => decide (0 < k) && mask.getLsbD k)).map (fun k =>
      ⟨.preg k, t.x.dc + 1, BitVec.ofNat 2048 (b2n ((sreg t reg).getLsbD k)), fullMask, 0, 0⟩)
    exec (.pmovWr g reg mask) s = .next (setThread s s.cur { t with x := { t.x with inflight := t.x.inflight ++ out } }))

/-- A false guard leaves the whole state as it was in every slot of S, M, C and Q: in TLBI, TLBI.SYNC, TRET, TSPEED and a
CRW of a job-wide register, which check the thread's privilege first, in a privileged thread. A V slot with a false
guard, no later beat of the operation in progress, and an X slot under a matrix pair of formats only keep their engine
busy for their beats, or raise the checks that are made whatever the guard. Guard p0 is always true, its negation
never. (R167) -/
def Obligations.GuardFalse : Prop :=
  (∀ (i : Instr) (g : Guard) (s : State) (t : Thread),
    guardOf i = some g → threadOf s s.cur = some t → guardTrue t g = false → exec i s = .next s) ∧
  (∀ (i : Instr) (g : Guard) (s : State) (t : Thread),
    privilegedGuardOf i = some g → threadOf s s.cur = some t → privileged t = true → guardTrue t g = false → exec i s = .next s) ∧
  (∀ (g : Guard) (rs : BitVec 5) (cr : BitVec 12) (s : State) (t : Thread),
    threadOf s s.cur = some t → guardTrue t g = false → (crJobWord cr.toNat = none ∨ privileged t = true) →
    exec (.crw g rs cr) s = .next s) ∧
  (∀ (i : Instr) (h : VHdr) (s : State) (t : Thread),
    vHeader i = some h → threadOf s s.cur = some t → guardTrue t h.g = false → laterBeat t i = false →
    (t.x.dc < t.x.vEnd → exec i s = .next (attend s s.cur (schedFault 1))) ∧
    (t.x.vEnd ≤ t.x.dc →
      exec i s = .next (setThread s s.cur { t with x := { t.x with vEnd := t.x.dc + (h.beats.toNat + 1) } }) ∨
      exec i s = .next (attend s s.cur (illegalSlot 4)) ∨ exec i s = .next (attend s s.cur (schedFault 8)))) ∧
  (∀ (i : Instr) (h : XHdr) (s : State) (t : Thread),
    xHeader i = some h → threadOf s s.cur = some t → guardTrue t h.g = false → matrixPair t.c.fmt = true →
    let passes : Nat := match i with
      | .mma _ rpe cnt .. | .mmaTb _ rpe cnt .. => if rpe then cnt.toNat else 1
      | _ => 1
    exec i s = .next (if t.x.dc < t.x.xEnd then attend s s.cur (schedFault 1)
      else setThread s s.cur { t with x := { t.x with xEnd := t.x.dc + passes * (h.beats.toNat + 1) } })) ∧
  (∀ (t : Thread), guardTrue t ⟨false, 0⟩ = true ∧ guardTrue t ⟨true, 0⟩ = false)

/-- ADD whose result would meet another write of s[rd] in its cycle takes the schedule fault COLLIDE; with 64 results in
flight it takes INFLIGHT; in a thread that is no handler and no replay, the thread begins its save with the bundle
index unchanged, its registers, results and requests as they were, and memory as it was. (R43, R171, R335) -/
def Obligations.ScheduleFaultPrecise : Prop :=
  ∀ (g : Guard) (rd ra rb : BitVec 5) (s : State) (t : Thread) (cause : Nat),
  Performs s t g → t.handler = false → t.replay = false →
  (cause = 5 ∧ collides t (.sreg rd.toNat) (t.x.dc + 1) = true ∨
   cause = 6 ∧ collides t (.sreg rd.toNat) (t.x.dc + 1) = false ∧ 64 ≤ inFlight t) →
  ∃ s' t', exec (.add g rd ra rb) s = .next s' ∧ threadOf s' s.cur = some t' ∧
    t'.phase = .saving true s.now ∧ t'.posFault = some { cls := 1, cause := cause, cycle := s.now } ∧
    t'.q = t.q ∧ t'.r = t.r ∧ t'.x = t.x ∧ t'.reqs = t.reqs ∧ SameMemory s s' ∧ s'.todo = s.todo ∧ s'.agenda = s.agenda

/-- Whatever its operands, a slot of ADD to PMOV.rd in a thread that is no handler leaves every register, predicate,
control register, loop stack and memory byte, every other core and every die as it was: it can only put results in
flight or begin a save. (R166, R226) -/
def Obligations.ScalarFrame : Prop :=
  ∀ (i : Instr) (s s' : State) (t : Thread),
  (slotKind i = some .s1 ∧ s1Only i = false) → threadOf s s.cur = some t → t.handler = false → exec i s = .next s' →
  SameMemory s s' ∧ s'.dies = s.dies ∧ s'.todo = s.todo ∧ s'.agenda = s.agenda ∧ s'.now = s.now ∧
  (∀ c, c ≠ s.cur → coreOf s' c = coreOf s c) ∧
  ∃ t', threadOf s' s.cur = some t' ∧ SameRegisters t t' ∧ t'.reqs = t.reqs

/-- When one result to a scalar register is in flight on a core and due, RESULT_WRITE writes it to that register and to
nothing else, and it is no longer in flight; a result due later stays in flight and writes nothing. (R166) -/
def Obligations.ResultWritten : Prop :=
  ∀ (c : Nat) (s : State) (t : Thread) (r : Fin 32) (v : Word) (due : Nat),
  threadOf s c = some t → t.x.inflight = [⟨.sreg r.val, due, BitVec.ofNat 2048 v.toNat, fullMask, 0, 0⟩] →
  ∃ s' t', exec (.resultWrite c) s = .next s' ∧ s' = setThread s c t' ∧
    (due ≤ t.x.dc → t'.r.s[r] = v ∧ (∀ k : Fin 32, k ≠ r → t'.r.s[k] = t.r.s[k]) ∧ t'.x.inflight = []) ∧
    (t.x.dc < due → t' = t) ∧ t'.r.p = t.r.p ∧ t'.r.tiles = t.r.tiles ∧ t'.r.accs = t.r.accs ∧ t'.c = t.c ∧ t'.q = t.q

/-- In a thread that performs the slot: BR to an index below COUNT goes there; LOOP with count 0 goes to EXIT, and else
pushes its start and count and goes to START; ENDL counts the top entry down and goes to its start, or pops it at the
last iteration and goes on; BREAK pops and goes to TGT. Nothing else changes but that ENDL back edges are pre-emption
points. (R239, R241) -/
def Obligations.Transfers : Prop :=
  ∀ (g : Guard) (ra : BitVec 5) (cnt : BitVec 9) (start exit tgt : BitVec 6) (s : State) (t : Thread) (st n : Nat)
    (rest : List (Nat × Nat)),
  Performs s t g → start.toNat < t.q.buf.count → exit.toNat < t.q.buf.count → tgt.toNat < t.q.buf.count →
  let loop (n : Nat) : State :=
    if n = 0 then setThread s s.cur (movedTo t exit.toNat)
    else setThread s s.cur { t with q := { t.q with idx := start.toNat, moved := true, loops := (start.toNat, n) :: t.q.loops } }
  exec (.br g tgt) s = .next (setThread s s.cur (movedTo t tgt.toNat)) ∧
  (t.q.loops.length < 6 → exec (.loopReg g ra start exit) s = .next (loop (sreg t ra).toNat) ∧
    exec (.loopImm g cnt start exit) s = .next (loop cnt.toNat)) ∧
  (t.q.loops = (st, n) :: rest →
    exec (.brk g tgt) s = .next (setThread s s.cur
      { t with q := { t.q with idx := tgt.toNat, moved := true, loops := rest } }) ∧
    (n = 1 → exec (.endl g) s = .next (setThread s s.cur
      { t with q := { t.q with idx := t.q.idx + 1, moved := true, loops := rest } })) ∧
    (1 < n → st < t.q.buf.count → exec (.endl g) s = .next (setThread s s.cur
      { t with q := { t.q with idx := st, moved := true, point := true, loops := (st, n - 1) :: rest } })))

/-- BR, BREAK, or LOOP with its count in a register or immediate, naming an index at or above COUNT takes the
misaligned-target trap INDEX; LOOP on a stack of six with a nonzero count takes OVERFLOW; ENDL and BREAK on an empty
stack take EMPTY: the thread, no handler and no replay, begins its save at the same bundle with its loop stack as it
was. Which of two applying faults is taken, INDEX before OVERFLOW and EMPTY before INDEX, is the model's choice (log
entry 103). (R206, R241, R242) -/
def Obligations.TransferTraps : Prop :=
  ∀ (g : Guard) (ra : BitVec 5) (cnt : BitVec 9) (start exit tgt : BitVec 6) (s : State) (t : Thread),
  Performs s t g → t.handler = false → t.replay = false →
  let traps (i : Instr) (cls cause qw6 : Nat) : Prop :=
    ∃ s' t', exec i s = .next s' ∧ threadOf s' s.cur = some t' ∧ t'.phase = .saving true s.now ∧
      t'.posFault = some { cls := cls, cause := cause, qw6 := BitVec.ofNat 64 qw6, cycle := s.now } ∧
      t'.q = t.q ∧ t'.r = t.r ∧ SameMemory s s'
  (t.q.buf.count ≤ tgt.toNat → traps (.br g tgt) 4 2 tgt.toNat ∧
    (t.q.loops ≠ [] → traps (.brk g tgt) 4 2 tgt.toNat)) ∧
  (t.q.buf.count ≤ start.toNat → traps (.loopImm g cnt start exit) 4 2 start.toNat ∧
    traps (.loopReg g ra start exit) 4 2 start.toNat) ∧
  (start.toNat < t.q.buf.count → t.q.buf.count ≤ exit.toNat → traps (.loopImm g cnt start exit) 4 2 exit.toNat ∧
    traps (.loopReg g ra start exit) 4 2 exit.toNat) ∧
  (start.toNat < t.q.buf.count → exit.toNat < t.q.buf.count → t.q.loops.length = 6 →
    (cnt ≠ 0 → traps (.loopImm g cnt start exit) 5 1 6) ∧ (sreg t ra ≠ 0 → traps (.loopReg g ra start exit) 5 1 6)) ∧
  (t.q.loops = [] → traps (.endl g) 5 2 0 ∧ traps (.brk g tgt) 5 2 0)

/-- With the target segment expanded in the idle half and sound, BRX enters the segment of TAKEN, JMP and CALL the one at
s[ra], RET bundle s[ra] bits 5 to 0 of its segment; CALL puts the link, the segment address plus the next index, in
flight to s[rd]; the entry is a pre-emption point and the loop stack is as it was. The segment left stays in the half
that is now idle (the model's choice: log entry 38), but not where a FENCE has issued since it was entered or where it
is the target itself; or, where the successor that the hint names is not there, its expansion into that half begins.
(R239, R240, R207) -/
def Obligations.SegmentTransfers : Prop :=
  ∀ (g : Guard) (rd ra : BitVec 5) (s : State) (t : Thread) (n : Segment),
  Performs s t g → t.q.next = some n → n.addr ≠ 0 → n.fetch = none → n.bad = none → Fits t (.sreg rd.toNat) 1 →
  let hint : Word := if n.hint then n.taken else n.fall
  let kept : Option Segment := if t.q.buf.count = 0 ∨ t.q.fenced ∨ t.q.buf.addr = n.addr then none else some t.q.buf
  let enters (i : Instr) (u : Thread) (j : Nat) : Prop :=
    ∃ s' t', exec i s = .next s' ∧ threadOf s' s.cur = some t' ∧ t'.q.seg = n.addr ∧ t'.q.idx = j ∧ t'.q.buf = n ∧
      t'.q.moved = true ∧ t'.q.point = true ∧ t'.q.loops = t.q.loops ∧ t'.q.fenced = false ∧ t'.r = t.r ∧ t'.c = t.c ∧ t'.reqs = t.reqs ∧
      t'.x = u.x ∧ t'.phase = t.phase ∧ s'.mem = s.mem ∧ (∀ c, c ≠ s.cur → coreOf s' c = coreOf s c) ∧
      (if hint = 0 ∨ kept.any (fun x => x.addr == hint) = true then t'.q.next = kept ∧ t'.q.expanding = none ∧ s'.agenda = s.agenda
       else t'.q.next = none ∧ t'.q.expanding = some { target := hint, due := 0, ctlAt := 0, bytes := [] } ∧
        s'.agenda = s.agenda ++ [⟨s.now, .segmentExpansionComplete s.cur⟩])
  (n.addr = t.q.buf.taken → enters (.brx g) t 0) ∧
  (n.addr = sreg t ra → (sreg t ra).toNat < 2 ^ 56 → (sreg t ra).toNat % 64 = 0 →
    enters (.jmp g ra) t 0 ∧
    enters (.call g rd ra) (withResult t (.sreg rd.toNat) 1
      (BitVec.ofNat 2048 (t.q.seg + BitVec.ofNat 64 (t.q.idx + 1)).toNat)) 0) ∧
  ((sreg t ra).toNat < 2 ^ 56 → n.addr.toNat = (sreg t ra).toNat / 64 * 64 → (sreg t ra).toNat % 64 ≤ n.count →
    enters (.ret g ra) t ((sreg t ra).toNat % 64))

/-- END whose guard is true lets the thread issue no further bundle: it is ending, and nothing else of it changes. TRAP
takes the software trap with its CODE at the following bundle: the save begins with the fault class 6, QW6 the code,
and the saved index one past the bundle. (R243, R244) -/
def Obligations.EndAndTrap : Prop :=
  ∀ (g : Guard) (code : BitVec 16) (s : State) (t : Thread),
  Performs s t g →
  ((∀ q ∈ t.reqs, q.due.isNone = true → q.landed = true → q.fault.isNone = true) →
    exec (.endT g) s = .next (setThread s s.cur { t with phase := .ending, q := { t.q with moved := true } })) ∧
  (t.handler = false → t.replay = false →
    ∃ s' t', exec (.trap g code) s = .next s' ∧ threadOf s' s.cur = some t' ∧ t'.phase = .saving true s.now ∧
      t'.posFault = some { cls := 6, cause := 0, qw6 := BitVec.ofNat 64 code.toNat, cycle := s.now } ∧
      t'.q.idx = t.q.idx + 1 ∧ t'.q.seg = t.q.seg ∧ t'.r = t.r ∧ SameMemory s s')

/-- NOP, MNOP, CNOP and QNOP change nothing, whatever the state; VNOP and XNOP, in a thread whose engine is free, only
keep the engine busy for their beats. Reading p0 gives 1 in every thread, and a write of p0 leaves the thread as it
was. (R229, R250, R286, R150) -/
def Obligations.NoEffect : Prop :=
  (∀ (g : Guard) (h : MHdr) (hv : VHdr) (hx : XHdr) (x : BitVec 22) (m : BitVec 37) (v : BitVec 30) (c : BitVec 38) (s : State)
      (t : Thread),
    exec (.nop g x) s = .next s ∧ exec (.mnop h m) s = .next s ∧ exec (.cnop g c) s = .next s ∧ exec (.qnop g c) s = .next s ∧
    (threadOf s s.cur = some t → t.x.vEnd ≤ t.x.dc →
      exec (.vnop hv v) s = .next (setThread s s.cur { t with x := { t.x with vEnd := t.x.dc + hv.beats.toNat + 1 } })) ∧
    (threadOf s s.cur = some t → t.x.xEnd ≤ t.x.dc → t.x.xop = none →
      ∃ t', exec (.xnop hx x) s = .next (setThread s s.cur t') ∧ t'.x.xEnd = t.x.dc + hx.beats.toNat + 1 ∧
        t'.r = t.r ∧ t'.q = t.q ∧ t'.x.inflight = t.x.inflight)) ∧
  (∀ (t : Thread) (v m : Row), pred t 0 = true ∧ writeDest t (.preg 0) v m = t)

/-- With the address readable in SRAM and the landing free, each of the seven loads completes: one request joins the
thread, of the width and extension of its mnemonic, to s[rd], at the address of R251, due at the offset its MODE and
AT give (MODE 3: 5 cycles); its data is to arrive no earlier than the latency of R36 and in exactly 5 cycles from the
own slice; nothing else changes. (R251, R245, R36, R41) -/
def Obligations.LoadsIssue : Prop :=
  ∀ (h : MHdr) (rd ra : BitVec 5) (ord scope : BitVec 3) (mode : BitVec 2) (off : BitVec 10) (disp : BitVec 9) (s : State)
    (t : Thread) (p : Place) (l : Landing) (i : Instr) (w : Nat) (sg : Bool),
  (i, w, sg) ∈ [(.ldb h rd ra ord scope mode off disp, 1, false), (.ldh h rd ra ord scope mode off disp, 2, false), (.ldw h rd ra ord scope mode off disp, 4, false), (.ld h rd ra ord scope mode off disp, 8, false), (.ldbs h rd ra ord scope mode off disp, 1, true), (.ldhs h rd ra ord scope mode off disp, 2, true), (.ldws h rd ra ord scope mode off disp, 4, true)] →
  Performs s t h.g → t.x.xop = none → slotPlace s t h.m1 .read (accessAddress t ra disp w) = .ok p → inSram p.pa = true →
  loadLanding t mode off = .ok l → Lands t l 1 [.sreg rd.toNat] →
  ∃ s' q part d, exec i s = .next s' ∧ Issued s s' t q ∧ q.id = t.nextReq ∧ q.kind = .load w sg ∧ q.cls = 1 ∧
    q.dest = .sreg rd.toNat ∧ q.due = (if l.off = 0 then none else some (t.x.dc + l.off)) ∧ q.fixed = l.fixed ∧
    q.ord = ord.toNat ∧ q.scope = scope.toNat ∧ q.parts = [part] ∧ part.ga = accessAddress t ra disp w ∧
    part.pa = p.pa ∧ part.len = w ∧ part.done = false ∧ (mode = 3 → l.off = 5 ∧ l.fixed = true) ∧
    latency s.cur (p.pa / 0x800000) ≤ d ∧ (p.pa / 0x800000 = s.cur → d = 5) ∧
    s'.agenda = s.agenda ++ [⟨s.now + d, .requestDataArrival s.cur t.nextReq 0⟩]

/-- With the address writable in SRAM and fewer than 63 stores counted, each of the four stores completes: one counted
request of class S with the low bytes of s[rs] latched as the register stands at issue, also where a load that has not
landed is to write it; no register and no byte of memory changes at issue. That it is performed at its home no earlier
than the latency of R36 is the model's reading (log entry 33). (R251, R252, R245, R36) -/
def Obligations.StoresIssue : Prop :=
  ∀ (h : MHdr) (rs ra : BitVec 5) (ord scope : BitVec 3) (disp : BitVec 9) (s : State) (t : Thread) (p : Place) (i : Instr) (w : Nat),
  (i, w) ∈ [(.stb h rs ra ord scope disp, 1), (.sth h rs ra ord scope disp, 2), (.stw h rs ra ord scope disp, 4), (.st h rs ra ord scope disp, 8)] →
  Performs s t h.g → t.x.xop = none → slotPlace s t h.m1 .write (accessAddress t ra disp w) = .ok p → inSram p.pa = true →
  outstanding t 2 < 63 →
  ∃ s' q part d, exec i s = .next s' ∧ Issued s s' t q ∧ q.id = t.nextReq ∧ q.kind = .store w ∧ q.cls = 2 ∧ q.dest = .none ∧
    q.due = none ∧ q.ord = ord.toNat ∧ q.scope = scope.toNat ∧ q.parts = [part] ∧ part.ga = accessAddress t ra disp w ∧
    part.pa = p.pa ∧ part.len = w ∧ part.done = false ∧ part.sent = true ∧
    (∀ v : Word, ((∃ x ∈ t.reqs, x.landed = false ∧ x.dest = .sreg rs.toNat) → v = t.r.s[rs.toNat]) →
      ((∀ x ∈ t.reqs, x.landed = false → x.dest ≠ .sreg rs.toNat) → v = sreg t rs) → part.data.toNat = v.toNat % 2 ^ (8 * w)) ∧ latency s.cur (p.pa / 0x800000) ≤ d ∧
    s'.agenda = s.agenda ++ [⟨s.now + d, .memoryWritePerformed s.cur t.nextReq 0⟩]

/-- With every row readable, or writable, LDROW completes with one request of class T to its rows of the tile and STROW
with one whose rows are still to be read; no tile row and no byte of memory changes at issue. (R253) -/
def Obligations.RowsIssue : Prop :=
  ∀ (h : MHdr) (tl : BitVec 4) (e nm : BitVec 6) (ra rstr : BitVec 5) (mode : BitVec 2) (off : BitVec 9) (s : State) (t : Thread)
    (l : Landing) (ps : List Part),
  let n := nm.toNat + 1
  let k := 64 * tl.toNat + e.toNat
  let leaving (ps : List Part) : List Part := ps.map (fun p => { p with at_ := s.now + p.row / 4 })
  Performs s t h.g → t.x.xop = none → (∀ p ∈ ps, inSram p.pa = true ∧ 0 < p.len) →
  (allRows s t h.m1 .read ra rstr true n = .ok ps → rowLanding t mode off = .ok l →
    Lands t l 3 ((List.range n).map (fun i => .trow (k + i))) →
    (l.off = 0 → ∀ p ∈ ps, tileRead t (.trow (k + p.row)) (t.x.dc + p.row / 4 + accessLatency s.cur p.pa) = false) →
    ∃ s' q, exec (.ldrow h tl e nm ra rstr mode off) s = .next s' ∧ Issued s s' t q ∧ q.id = t.nextReq ∧ q.kind = .row n ∧
      q.cls = 3 ∧ q.dest = .trow k ∧ q.parts = leaving ps ∧ q.due = (if l.off = 0 then none else some (t.x.dc + l.off))) ∧
  (allRows s t h.m1 .write ra rstr false n = .ok ps → outstanding t 3 < 63 →
    (∀ i, i < n → landsBefore s.cur t (k + i) (t.x.dc + i / 4) = false) →
    ∃ s' q, exec (.strow h tl e nm ra rstr) s = .next s' ∧ Issued s s' t q ∧ q.id = t.nextReq ∧ q.kind = .srow n ∧ q.cls = 3 ∧
      q.dest = .trow k ∧ q.parts = leaving ps ∧ q.due = none)

/-- ATOM on SRAM completes with one counted request, of class L with a result to s[rd] or of class S without; FENCE with
no request of the thread outstanding completes: the expansion in the idle half is dropped, a releasing FENCE counts
SCNT up, registers and memory stay; with an unperformed earlier request the core freezes. (R254, R255, R207, R140) -/
def Obligations.AtomAndFence : Prop :=
  ∀ (h : MHdr) (rd ra rb rc : BitVec 5) (aop : BitVec 4) (w rv : Bool) (ord scope : BitVec 3) (s : State) (t : Thread) (p : Place),
  Performs s t h.g → t.x.xop = none →
  (let n := if w then 8 else 4
   slotPlace s t h.m1 .atomic (BitVec.ofNat 64 ((sreg t ra).toNat / n * n)) = .ok p → p.dev = none → inSram p.pa = true →
   outstanding t (if rv then 1 else 2) < 63 →
   ∃ s' q part, exec (.atom h rd ra rb rc aop w rv ord scope) s = .next s' ∧ Issued s s' t q ∧
     q.kind = .atom aop.toNat n rv (sreg t rb) (sreg t rc) ∧ q.cls = (if rv then 1 else 2) ∧
     q.dest = (if rv then .sreg rd.toNat else .none) ∧ q.due = none ∧ q.ord = ord.toNat ∧ q.parts = [part] ∧ part.pa = p.pa ∧
     part.len = n) ∧
  (t.reqs = [] → t.phase = .running →
    ∃ t', exec (.fence h ord scope) s = .next (setThread s s.cur t') ∧ t'.q.next = none ∧ t'.q.expanding = none ∧
      t'.q.idx = t.q.idx ∧ t'.q.seg = t.q.seg ∧ t'.r = t.r ∧ t'.c = t.c ∧ t'.x = t.x ∧ t'.reqs = [] ∧
      t'.det.scnt = (if ord = 2 ∨ ord = 3 ∨ ord = 4 then (t.det.scnt + 1) % 2 ^ 32 else t.det.scnt)) ∧
  ((∃ q ∈ t.reqs, q.issued ≠ t.x.dc ∧ performed q = false) →
    ∃ s' t', exec (.fence h ord scope) s = .next s' ∧ threadOf s' s.cur = some t' ∧ (∃ n, t'.phase = .frozen 6 n) ∧
      t'.r = t.r ∧ t'.q = t.q ∧ s'.mem = s.mem)

/-- A counted relaxed load of w bytes of sound SRAM on a page without checks, with nothing earlier in its way and its turn
at its home's sub-banks (R39), is performed by REQUEST_DATA_ARRIVAL (that this event is when memory is read is the
model's reading: log entry 33): its register takes the little-endian value, zero- or sign-extended, the request is
gone, and memory and the other registers are as they were. (R42, R44, R251, R1) -/
def Obligations.LoadPerformed : Prop :=
  ∀ (c : Nat) (s : State) (t : Thread) (q : Req) (p : Part) (w : Nat) (sg : Bool) (r : Fin 32),
  threadOf s c = some t → OnlyReq t q → q.kind = .load w sg → (w = 1 ∨ w = 2 ∨ w = 4 ∨ w = 8) → q.dest = .sreg r.val →
  q.due = none → q.landed = false → q.fault = none → q.ord = 0 → q.parts = [p] → p.done = false → p.unchk = true → p.len = w →
  SoundWord s p → t.replay = false → heldBack s c t q 0 p = false → HasTurn s c q p →
  ∃ s' t', exec (.requestDataArrival c q.id 0) s = .next s' ∧ threadOf s' c = some t' ∧ SameMemory s s' ∧
    (let v := memNat s.mem p.pa w
     t'.r.s[r] = BitVec.ofInt 64 (if sg = true ∧ 2 ^ (8 * w - 1) ≤ v then (v : Int) - 2 ^ (8 * w) else v)) ∧
    (∀ k : Fin 32, k ≠ r → t'.r.s[k] = t.r.s[k]) ∧ t'.r.p = t.r.p ∧ t'.r.tiles = t.r.tiles ∧ t'.r.accs = t.r.accs ∧
    t'.c = t.c ∧ t'.q = t.q ∧ t'.reqs = t.reqs.filter (fun x => decide (x.id ≠ q.id))

/-- A counted relaxed store of w bytes to sound SRAM on a page without checks, with nothing earlier in its way and its
turn at its home's sub-banks (R39), is performed by MEMORY_WRITE_PERFORMED: the w bytes at its address are those of
the data, little-endian, every other byte of memory is as it was, the request is gone and no register of the thread
changes. (R125, R251, R1) -/
def Obligations.StorePerformed : Prop :=
  ∀ (c : Nat) (s : State) (t : Thread) (q : Req) (p : Part) (w : Nat),
  threadOf s c = some t → OnlyReq t q → q.kind = .store w → (w = 1 ∨ w = 2 ∨ w = 4 ∨ w = 8) → q.dest = .none →
  q.due = none → q.landed = false → q.fault = none → q.ord = 0 → q.parts = [p] → p.done = false → p.unchk = true → p.len = w →
  SoundWord s p → t.replay = false → heldBack s c t q 0 p = false → HasTurn s c q p → Memory.wf s.mem = true →
  ∃ s' t', exec (.memoryWritePerformed c q.id 0) s = .next s' ∧ threadOf s' c = some t' ∧
    (∀ a, memByte s'.mem a = if p.pa ≤ a ∧ a < p.pa + w then BitVec.ofNat 8 (p.data.toNat / 2 ^ (8 * (a - p.pa))) else memByte s.mem a) ∧
    t'.r = t.r ∧ t'.c = t.c ∧ t'.q = t.q ∧ t'.reqs = t.reqs.filter (fun x => decide (x.id ≠ q.id))

/-- A counted load or store of a thread without bypass, at its turn, whose granule another access last wrote without the
thread being ordered after it is not performed: memory and the registers stay, and the request is complete with a race
fault of class 9. Which accesses race: a plain load, a plain store, a synchronising load and a synchronising store of
one granule pass, or fail with the cause of R147, as the recorded writer and reader are covered for the thread by R145
or not, and leave the tag that R146 gives; on a page without checks nothing is checked or tagged. (R145, R146, R147,
R22) -/
def Obligations.RaceRefused : Prop :=
  (∀ (c : Nat) (s : State) (t : Thread) (q : Req) (p : Part) (f : FaultRec),
  threadOf s c = some t → OnlyReq t q → q.landed = false → q.fault = none → q.due = none → q.ord = 0 → q.parts = [p] →
  p.done = false → t.replay = false → f.cls = 9 → HasTurn s c q p →
  let s1 := atTurn s c q p
  ((∃ w sg, q.kind = .load w sg) → heldBack s c t q 0 p = false →
    touchAt (withDet s1 c (acquireDet s1 c q p)) c .load p = .error f →
    ∃ s' t', exec (.requestDataArrival c q.id 0) s = .next s' ∧ threadOf s' c = some t' ∧ s'.mem = s.mem ∧ t'.r = t.r ∧
      ∃ q' ∈ t'.reqs, q'.id = q.id ∧ q'.fault = some f ∧ q'.landed = true) ∧
  ((∃ w, q.kind = .store w) → heldBack s c t q 0 p = false → touchAt s1 c .store p = .error f →
    ∃ s' t', exec (.memoryWritePerformed c q.id 0) s = .next s' ∧ threadOf s' c = some t' ∧ s'.mem = s.mem ∧ t'.r = t.r ∧
      ∃ q' ∈ t'.reqs, q'.id = q.id ∧ q'.fault = some f ∧ q'.landed = true)) ∧
  (∀ (c g : Nat) (s : State) (t : Thread) (p : Part) (rel : Bool) (scope : Nat),
  threadOf s c = some t → t.handler = false → t.replay = false → t.det.bypass = false → inSram p.pa = true → p.pa / 64 = g →
  0 < p.len → p.pa % 64 + p.len ≤ 64 → s.tagErr.contains g = false →
  let d := t.det
  let tag := mgetD Tag.empty g s.tags
  let newer (n a b : Nat) : Prop := 1 ≤ (a + 2 ^ n - b % 2 ^ n) % 2 ^ n ∧ (a + 2 ^ n - b % 2 ^ n) % 2 ^ n ≤ 2 ^ (n - 1)
  let byThread (a w : Nat) (rl : Prop) : Prop := (a = d.tid ∧ ¬ newer 32 d.startcnt w) ∨ d.coarse = true ∨ ∃ e ∈ d.aset,
    (e.kind = 0 ∧ e.id = a ∧ (newer 32 e.count w ∨ (rl ∧ e.count = w))) ∨
    (e.kind = 3 ∧ (newer 32 (arrivalNo (groupOf s t.job e.id) a e.count) w ∨
      (e.wide = true ∧ memberAt (groupOf s t.job e.id) a e.count = false)))
  let byEngine : Prop := d.coarse = true ∨ ∃ e ∈ d.aset,
    (e.kind = 1 ∧ e.id = tag.ectx ∧ (e.count % 2 ^ 28 = tag.wn % 2 ^ 28 ∨ newer 28 e.count tag.wn)) ∨ (e.kind = 3 ∧ e.wide = true) ∨
    (tag.wk = 3 ∧ e.kind = 2 ∧ e.id = tag.wid ∧
      ¬ (1 ≤ (tag.phase + 16 - e.count % 16) % 16 ∧ (tag.phase + 16 - e.count % 16) % 16 ≤ 3))
  let writerOk : Prop := tag.wk = 0 ∨ (tag.wk = 1 ∧ byThread tag.wid tag.wn (tag.rel = true)) ∨ (2 ≤ tag.wk ∧ byEngine)
  let readerOk : Prop := tag.rid = 0x7FFF ∨ byThread tag.rid tag.rn False
  let syncOk : Prop := tag.wk = 1 ∧ tag.syn = true
  let races (k : Touch) (cause : Nat) : Prop := ∃ f, touchAt s c k p = .error f ∧ f.cls = 9 ∧ f.cause = cause
  let becomes (k : Touch) (P : Tag → Prop) : Prop := ∃ x, touchAt s c k p = .ok (setTag s g x) ∧ P x
  let written (syn r : Bool) (x : Tag) : Prop := x.wk = 1 ∧ x.wid = d.tid ∧ x.wn = d.scnt ∧ x.syn = syn ∧ x.rel = r ∧ x.rid = 0x7FFF
  let st := Touch.syncStore rel scope
  (p.unchk = true → ∀ k, touchAt s c k p = .ok s) ∧
  (p.unchk = false →
    (writerOk → becomes .load (fun x => x = { tag with rid := d.tid, rn := d.scnt, shr := tag.shr || (tag.rid != 0x7FFF && tag.rid != d.tid) })) ∧
    (¬ writerOk → races .load 1) ∧
    (writerOk ∨ syncOk → becomes .syncLoad (fun x => x = tag)) ∧
    (¬ (writerOk ∨ syncOk) → races .syncLoad 1) ∧
    (writerOk → readerOk → becomes .store (written false false)) ∧
    (¬ writerOk → races .store 2) ∧
    (writerOk → ¬ readerOk → races .store 3) ∧
    (writerOk ∨ syncOk → readerOk → becomes st (written true rel)) ∧
    (¬ (writerOk ∨ syncOk) → races st 2) ∧
    (writerOk ∨ syncOk → ¬ readerOk → races st 3)))

/-- CVTA to a generic address adds the aperture base to an offset below the aperture size and gives all ones else; CVTA
from one gives the offset, or all ones for an address outside; APTEST gives whether the address lies inside: a result
in flight after 2 cycles, nothing else changed. An address is inside by R15's ranges: the enabled LOCAL window, else
the enabled CLUSTER window, else the translated half where its translation leads to the own slice, or to a slice of
the own cluster, of this device (R11, R12). (R11, R12, R15, R260) -/
def Obligations.AddressTests : Prop :=
  (∀ (h : MHdr) (rd ra : BitVec 5) (pd : BitVec 3) (sp : Bool) (s : State) (t : Thread) (rl rc : Option Nat),
  Performs s t h.g → Fits t (.sreg rd.toNat) 2 → Fits t (.preg pd.toNat) 2 →
  localOffset s t (sreg t ra) = .ok rl → clusterOffset s t (sreg t ra) = .ok rc →
  let no : Word := BitVec.allOnes 64
  let as (r : Option Nat) : Word := (r.map (BitVec.ofNat 64)).getD no
  exec (.cvta h rd ra 0) s = .next (withScalar s t rd 2 (if (sreg t ra).toNat < 2 ^ 23 then aplBase t.regs + sreg t ra else no)) ∧
  exec (.cvta h rd ra 1) s = .next (withScalar s t rd 2 (if (sreg t ra).toNat < 2 ^ 27 then apcBase t.regs + sreg t ra else no)) ∧
  exec (.cvta h rd ra 2) s = .next (withScalar s t rd 2 (as rl)) ∧
  exec (.cvta h rd ra 3) s = .next (withScalar s t rd 2 (as rc)) ∧
  exec (.aptest h pd ra sp) s = .next (withPred s t pd 2 (if sp then rc.isSome else rl.isSome))) ∧
  (∀ (s : State) (t : Thread) (a : Word), s.cur < 2048 → s.cur / 16 % 32 < 20 →
  let n := a.toNat
  let c := s.cur
  let own := 4 * (c / 16 % 4) + c % 4
  let loc := (aplBase t.regs).toNat
  let clu := (apcBase t.regs).toNat
  let inLoc : Prop := t.regs.apl.getLsbD 0 = true ∧ loc ≤ n ∧ n < loc + 2 ^ 23
  let inClu : Prop := t.regs.apc.getLsbD 0 = true ∧ clu ≤ n ∧ n < clu + 2 ^ 27
  let member (l k : Option Nat) : Prop := localOffset s t a = .ok l ∧ clusterOffset s t a = .ok k
  (2 ^ 56 ≤ n → member none none) ∧
  (inLoc → member (some (n - loc)) (some (own * 2 ^ 23 + (n - loc)))) ∧
  (inClu → ¬ inLoc →
    member (if (n - clu) / 2 ^ 23 = own then some ((n - clu) % 2 ^ 23) else none) (some (n - clu))) ∧
  (2 ^ 55 ≤ n → n < 2 ^ 56 → ¬ inLoc → ¬ inClu → member none none) ∧
  (n < 2 ^ 55 → t.regs.ttbase.getLsbD 0 = false → member none none) ∧
  (∀ e, n < 2 ^ 55 → t.regs.ttbase.getLsbD 0 = true → tlbFind s (cacheKey c 1) (t.regs.asid.toNat % 2 ^ 16) a = some e →
    let pa := e.pa + n % 2 ^ e.log
    let k := pa / 2 ^ 23
    (e.dev ≠ 0 ∨ 2048 ≤ k → member none none) ∧
    (e.dev = 0 → k < 2048 → member (if k = c then some (pa % 2 ^ 23) else none)
      (if k / 512 = c / 512 ∧ k / 64 % 8 = c / 64 % 8 ∧ k / 4 % 4 = c / 4 % 4 then
        some ((4 * (k / 16 % 4) + k % 4) * 2 ^ 23 + pa % 2 ^ 23) else none))))

/-- WAIT with every counter at or below its immediate, and no completed faulted request in a class it bounds, completes:
coverage of the bounded classes ends and nothing else changes; with a bounded counter above its immediate the thread
is stalled with everything else as it was. (R261, R44) -/
def Obligations.WaitIssues : Prop :=
  ∀ (h : MHdr) (l st cp tl : BitVec 4) (s : State) (t : Thread),
  Performs s t h.g →
  let ok (b : BitVec 4) (n : Nat) : Prop := b = 15 ∨ n ≤ b.toNat
  (ok l (outstanding t 1) → ok st (outstanding t 2) → ok tl (outstanding t 3) → ok cp (copyCount s t) →
    (∀ q ∈ t.reqs, q.fault = none) →
    exec (.wait h l st cp tl) s = .next (setThread s s.cur { t with uncov := t.uncov.filter (fun u =>
      !(decide ((if u.2.1 = 1 then l else if u.2.1 = 2 then st else if u.2.1 = 3 then tl else 15) ≠ 15)) ||
        t.reqs.any (fun q => q.id == u.2.2 && !q.landed)) })) ∧
  (l ≠ 15 → l.toNat < outstanding t 1 →
    ∃ t', exec (.wait h l st cp tl) s = .next (setThread s s.cur t') ∧ t'.phase = .stalled ∧ t'.r = t.r ∧ t'.q = t.q ∧
      t'.reqs = t.reqs ∧ t'.uncov = t.uncov)

/-- MON on SRAM of this device whose read is answered without an error sets its entry to the address, the value (under CHG
the one read), the time and the condition, ARMED, or fired at once when a condition other than CHG already holds of
what was read. MWAIT completes when an entry it names has fired, by its condition or its time, or was recycled, or
none of them is armed, or a wake stands: the map of R265 is in flight to s[rd] after 1 cycle, the entries it reports
are FREE and the armed ones stay; else it stalls. Memory and the registers stay. (R262, R263, R265) -/
def Obligations.MonAndMwait : Prop :=
  ∀ (h : MHdr) (ent : BitVec 3) (ra rb rt rd : BitVec 5) (cmp : BitVec 3) (w : Bool) (mask : BitVec 8) (s : State) (t : Thread),
  Performs s t h.g → t.watch.length = 8 →
  (∀ (p : Place) (g : Got),
   let n := if w then 8 else 4
   let a := BitVec.ofNat 64 ((sreg t ra).toNat / n * n)
   slotPlace s t h.m1 .read a = .ok p → p.dev = none → inSram p.pa = true → readPa s (whoCore s.cur) p.pa n a = (g, s) →
   g.err = none →
   let seen := leNat g.bytes
   ∃ s' t' e, exec (.mon h ent ra rb cmp w rt) s = .next s' ∧ threadOf s' s.cur = some t' ∧ t'.watch[ent.toNat]? = some e ∧
     e.addr = p.pa ∧ e.w = w ∧ e.cmp = cmp.toNat ∧ e.left = (sreg t rt).toNat % 2 ^ 32 ∧
     e.val = (if cmp = 0 then BitVec.ofNat 64 seen else sreg t rb) ∧
     e.state = (if cmp ≠ 0 ∧ watchFires e seen = true then 2 else 1) ∧ t'.r = t.r ∧ t'.q = t.q ∧ t'.reqs = t.reqs ∧ s'.mem = s.mem) ∧
  (let names (P : Watch → Prop) : Prop := ∃ (k : Nat) (e : Watch), mask.getLsbD k = true ∧ t.watch[k]? = some e ∧ P e
   (Fits t (.sreg rd.toNat) 1 →
    names (fun e => 2 ≤ e.state) ∨ names (fun e => e.recycled = true) ∨ ¬ names (fun e => e.state = 1) ∨ t.spurious = true →
    ∃ t' v, exec (.mwait h mask rd) s = .next (setThread s s.cur t') ∧
      t'.x.inflight = t.x.inflight ++ [⟨.sreg rd.toNat, t.x.dc + 1, v, fullMask, 0, 0⟩] ∧
      (∀ (k : Nat) (e : Watch), k < 8 → t.watch[k]? = some e →
        v.getLsbD k = (mask.getLsbD k && e.state == 2) ∧ v.getLsbD (8 + k) = (mask.getLsbD k && e.state == 3) ∧
        v.getLsbD (16 + k) = (mask.getLsbD k && e.recycled) ∧
        ∃ e', t'.watch[k]? = some e' ∧ e'.state = (if mask.getLsbD k = true ∧ e.state ≠ 1 then 0 else e.state)) ∧
      v.getLsbD 24 = t.spurious ∧ v.toNat < 2 ^ 25 ∧ t'.spurious = false ∧ t'.r = t.r ∧ t'.q = t.q ∧ t'.reqs = t.reqs) ∧
   (names (fun e => e.state = 1) → ¬ names (fun e => 2 ≤ e.state) → ¬ names (fun e => e.recycled = true) → t.spurious = false →
    ∃ t', exec (.mwait h mask rd) s = .next (setThread s s.cur t') ∧ t'.phase = .stalled ∧ t'.r = t.r ∧ t'.q = t.q ∧
      t'.watch = t.watch))

/-- With a barrier that can be named and a target below COUNT where they are given, PROBE puts its predicate, slot and
fill number in flight after 2 cycles and FILL its number after 1: on a VALID or DIRTY block true, the slot and its
number; on a FILLING tag false, the slot and its number; on an ERR tag the data error is taken; with no slot to take,
false, all ones and 0; on a miss with a way to take and room in the queue false, that way and the number of the fill
queued now, after the write-back of a DIRTY victim, the slot FILLING and SCNT counted up; without room the core
freezes. A PROBE with MB and false continues at TGT. EVICT frees a VALID slot, with write-back a DIRTY one, without it
a DIRTY or ERR one, and WBACK leaves a VALID or DIRTY slot VALID, each with the number of the write-back queued, or 0,
in flight to s[rd], and SCNT counted up; full, they freeze; on other slots and without one they only put 0 in flight.
That the slot leaves DIRTY, or INVALID, as its write-back is queued is the model's choice (log entry 81). No byte of
memory changes. (R256, R257, R258, R259) -/
def Obligations.ProbeCacheSlots : Prop :=
  ∀ (h : MHdr) (pd way : BitVec 3) (rdp : BitVec 4) (ra rd rb : BitVec 5) (tgt : BitVec 6) (wayf mb barf wb : Bool) (s : State)
    (t : Thread) (va : Word) (bar : Option (Word × Nat)),
  Performs s t h.g → probeBlock t ra = .ok va → fillBar s t barf rb = .ok bar → (mb = true → tgt.toNat < t.q.buf.count) →
  Fits t (.sreg rd.toNat) 1 →
  let c := s.cur
  let pr := (coreOf s c).probe
  let at_ := slotFor s c (t.regs.asid.toNat % 2 ^ 16) va
  let first := 8 * probeSet pr.cfg va
  let d := 2 * rdp.toNat
  let asProbe := Instr.probe h pd rdp ra wayf way mb tgt barf rb
  let asFill := Instr.fill h rd ra wayf way barf rb
  let room := inFlight t + 3 ≤ 64 ∧ Fits t (.preg pd.toNat) 2 ∧ Fits t (.sreg d) 2 ∧ Fits t (.sreg (d + 1)) 2
  let row (n : Nat) : Row := BitVec.ofNat 2048 (n % 2 ^ 64)
  let one (s' : State) (t' : Thread) (n : Nat) : Prop := threadOf s' c = some t' ∧ t'.r = t.r ∧ t'.q = t.q ∧ s'.mem = s.mem ∧
    t'.x.inflight = t.x.inflight ++ [⟨.sreg rd.toNat, t.x.dc + 1, row n, fullMask, 0, 0⟩]
  let three (s' : State) (t' : Thread) (b : Bool) (x y : Nat) : Prop := threadOf s' c = some t' ∧ t'.r = t.r ∧ s'.mem = s.mem ∧
    t'.q = (if mb = true ∧ b = false then { t.q with idx := tgt.toNat, moved := true } else t.q) ∧
    t'.x.inflight = t.x.inflight ++ [⟨.preg pd.toNat, t.x.dc + 2, BitVec.ofNat 2048 (b2n b), fullMask, 0, 0⟩,
      ⟨.sreg d, t.x.dc + 2, row x, fullMask, 0, 0⟩, ⟨.sreg (d + 1), t.x.dc + 2, row y, fullMask, 0, 0⟩]
  let may (w : Nat) : Prop := w < 8 ∧ (wayf = true → w = way.toNat) ∧ (slotOf s c (first + w)).state ≠ 1 ∧
    (slotOf s c (first + w)).drop_ = false
  let dirty (w : Nat) : Nat := if (slotOf s c (first + w)).state = 3 then 1 else 0
  let counted (t' : Thread) : Prop := t'.det.scnt = (t.det.scnt + 1) % 2 ^ 32
  (∀ j, pr.cfg.getLsbD 0 = true → at_ = some j →
    ((slotOf s c j).state = 2 ∨ (slotOf s c j).state = 3 →
      (room → ∃ s' t', exec asProbe s = .next s' ∧ three s' t' true j (slotOf s c j).no) ∧
      ∃ s' t', exec asFill s = .next s' ∧ one s' t' (slotOf s c j).no) ∧
    ((slotOf s c j).state = 1 →
      (room → ∃ s' t', exec asProbe s = .next s' ∧ three s' t' false j (slotOf s c j).no) ∧
      ∃ s' t', exec asFill s = .next s' ∧ one s' t' (slotOf s c j).no) ∧
    ((slotOf s c j).state = 4 →
      exec asProbe s = .next (attend s c (.pending 5 j)) ∧ exec asFill s = .next (attend s c (.pending 5 j)))) ∧
  (pr.cfg.getLsbD 0 = false ∨ (at_ = none ∧ ∀ w, ¬ may w) →
    (room → ∃ s' t', exec asProbe s = .next s' ∧ three s' t' false (2 ^ 64 - 1) 0) ∧
    ∃ s' t', exec asFill s = .next s' ∧ one s' t' 0) ∧
  (pr.cfg.getLsbD 0 = true → at_ = none → (∃ w, may w) →
    ((∀ w, may w → probeQueued pr + 1 + dirty w ≤ 32) → (∀ b, bar = some b → ∃ v, readBar s (whoCore c) b.2 b.1 = (.ok v, s)) →
      ∃ w, may w ∧
        (let n := pr.no + 1 + dirty w
         let filling (s' : State) (t' : Thread) : Prop := (slotOf s' c (first + w)).state = 1 ∧ (slotOf s' c (first + w)).va = va ∧
           (slotOf s' c (first + w)).no = n ∧ (coreOf s' c).probe.no = n ∧ counted t'
         (room → ∃ s' t', exec asProbe s = .next s' ∧ three s' t' false (first + w) n ∧ filling s' t') ∧
         ∃ s' t', exec asFill s = .next s' ∧ one s' t' n ∧ filling s' t')) ∧
    ((∀ w, may w → 32 < probeQueued pr + 1 + dirty w) →
      exec asProbe s = .next (attend s c (.freeze 5)) ∧ exec asFill s = .next (attend s c (.freeze 5)))) ∧
  (∀ j, at_ = some j →
    (let x := slotOf s c j
     let freed (s' : State) : Prop := (coreOf s' c).probe.slots = mdel j pr.slots
     (x.state = 2 ∨ ((x.state = 3 ∨ x.state = 4) ∧ wb = false) →
       ∃ s' t', exec (.evict h wb ra rd) s = .next s' ∧ one s' t' 0 ∧ counted t' ∧ freed s' ∧ (coreOf s' c).probe.no = pr.no) ∧
     (x.state = 3 → wb = true → probeQueued pr < 32 →
       ∃ s' t', exec (.evict h wb ra rd) s = .next s' ∧ one s' t' (pr.no + 1) ∧ counted t' ∧ freed s' ∧
         (coreOf s' c).probe.no = pr.no + 1) ∧
     (x.state = 2 → ∃ s' t', exec (.wback h ra rd) s = .next s' ∧ one s' t' 0 ∧ counted t' ∧ slotOf s' c j = x ∧
       (coreOf s' c).probe.no = pr.no) ∧
     (x.state = 3 → probeQueued pr < 32 →
       ∃ s' t', exec (.wback h ra rd) s = .next s' ∧ one s' t' (pr.no + 1) ∧ counted t' ∧
         slotOf s' c j = { x with state := 2 } ∧ (coreOf s' c).probe.no = pr.no + 1) ∧
     (x.state = 3 → 32 ≤ probeQueued pr → (wb = true → exec (.evict h wb ra rd) s = .next (attend s c (.freeze 5))) ∧
       exec (.wback h ra rd) s = .next (attend s c (.freeze 5))) ∧
     (x.state = 1 ∨ (x.state = 4 ∧ wb = true) → exec (.evict h wb ra rd) s = .next (withScalar s t rd 1 0)) ∧
     (x.state = 1 ∨ x.state = 4 → exec (.wback h ra rd) s = .next (withScalar s t rd 1 0)))) ∧
  (at_ = none →
    exec (.evict h wb ra rd) s = .next (withScalar s t rd 1 0) ∧ exec (.wback h ra rd) s = .next (withScalar s t rd 1 0))

/-- In a thread with a free engine and pipeline and FMT.VF naming FP32, BF16 or FP16, each floating-point VR operation
within its limits begins: its first row is in flight to D after the latency of its entry, every element the rounded
exact result in FMT.VF of the operand elements (for VMIN and VMAX the chosen operand, for VABS and VNEG the sign bit
cleared or inverted, for VCMP all ones or zero); registers stay as they were until then. (R267, R268, R271, R272,
R273, R275) -/
def Obligations.VectorFloat : Prop :=
  ∀ (h : VHdr) (dt ta tb : BitVec 4) (row br : BitVec 6) (bfix : Bool) (ty : BitVec 3) (s : State) (t : Thread),
  threadOf s s.cur = some t → guardTrue t h.g = true → Quiet t → row.toNat + (h.beats.toNat + 1) ≤ 64 →
  (bfix = true ∨ br.toNat + (h.beats.toNat + 1) ≤ 64) →
  fmtVF t.c.fmt ≤ 2 →
  let d := 64 * dt.toNat + row.toNat
  let a := tileRow t (64 * ta.toNat + row.toNat)
  let b := tileRow t (64 * tb.toNat + br.toNat)
  let c := tileRow t d
  let fmt := t.c.fmt
  let w := vfBits fmt
  let rm := fmtRM fmt
  let x (j : Nat) := vElem fmt j a
  let y (j : Nat) := vElem fmt j b
  let z (j : Nat) := vElem fmt j c
  StartsV (.vadd h dt row ta tb br bfix) h s t (OneRow t d 4 (Elements w (fun j => (vRound fmt (vAdd rm (x j) (y j))).1 % 2 ^ w))) ∧
  StartsV (.vsub h dt row ta tb br bfix) h s t (OneRow t d 4 (Elements w (fun j => (vRound fmt (vAdd rm (x j) (fminus (y j)))).1 % 2 ^ w))) ∧
  StartsV (.vmul h dt row ta tb br bfix) h s t (OneRow t d 4 (Elements w (fun j => (vRound fmt (vMul (x j) (y j))).1 % 2 ^ w))) ∧
  StartsV (.vfma h dt row ta tb br bfix) h s t (OneRow t d 4 (Elements w (fun j => (vRound fmt (vFma rm (x j) (y j) (z j))).1 % 2 ^ w))) ∧
  StartsV (.vmin h dt row ta tb br bfix) h s t (OneRow t d 4 (Elements w (fun j => minMaxBits fmt false (elem w j a) (elem w j b)))) ∧
  StartsV (.vmax h dt row ta tb br bfix) h s t (OneRow t d 4 (Elements w (fun j => minMaxBits fmt true (elem w j a) (elem w j b)))) ∧
  StartsV (.vabs h dt row ta) h s t (OneRow t d 2 (Elements w (fun j => elem w j a % 2 ^ (w - 1)))) ∧
  StartsV (.vneg h dt row ta) h s t (OneRow t d 2 (Elements w (fun j => if elem w j a < 2 ^ (w - 1) then elem w j a + 2 ^ (w - 1) else elem w j a - 2 ^ (w - 1)))) ∧
  StartsV (.vcmp h dt row ta tb br bfix ty) h s t (OneRow t d 4 (Elements w (fun j => if vcond ty.toNat (x j) (y j) = true then 2 ^ w - 1 else 0)))

/-- Under the same conditions the special functions begin with their first row in flight after 8 cycles, each element the
rounded value of the function, and VSCALE after 4, each element a times 2 to the m with m from operand B or the
immediate. The roundings of the special functions are the model's reading of their error bound (log entry 13). (R267,
R274, R276) -/
def Obligations.VectorFunctions : Prop :=
  ∀ (h : VHdr) (dt ta tb : BitVec 4) (row br : BitVec 6) (bfix : Bool) (s : State) (t : Thread),
  threadOf s s.cur = some t → guardTrue t h.g = true → Quiet t → row.toNat + (h.beats.toNat + 1) ≤ 64 →
  (bfix = true ∨ br.toNat + (h.beats.toNat + 1) ≤ 64) →
  fmtVF t.c.fmt ≤ 2 →
  let d := 64 * dt.toNat + row.toNat
  let a := tileRow t (64 * ta.toNat + row.toNat)
  let b := tileRow t (64 * tb.toNat + br.toNat)
  let c := tileRow t d
  let fmt := t.c.fmt
  let w := vfBits fmt
  let x (j : Nat) := vElem fmt j a
  StartsV (.vexp2 h dt row ta) h s t (OneRow t d 8 (Elements w (fun j => (vRound fmt (fexp2 (x j), 0)).1 % 2 ^ w))) ∧
  StartsV (.vlog2 h dt row ta) h s t (OneRow t d 8 (Elements w (fun j => (vRound fmt (flog2V (x j))).1 % 2 ^ w))) ∧
  StartsV (.vrcp h dt row ta) h s t (OneRow t d 8 (Elements w (fun j => (vRound fmt (frcp (x j))).1 % 2 ^ w))) ∧
  StartsV (.vrsqrt h dt row ta) h s t (OneRow t d 8 (Elements w (fun j => (vRound fmt (frsqrt (x j))).1 % 2 ^ w))) ∧
  StartsV (.vscale h dt row ta tb br bfix false) h s t (OneRow t d 4 (Elements w (fun j => (vRound fmt (scaleBy (x j) (clampI (-5000) 5000 (asInt w true (elem w j b))), 0)).1 % 2 ^ w))) ∧
  StartsV (.vscale h dt row ta 0 br false true) h s t (OneRow t d 4 (Elements w (fun j => (vRound fmt (scaleBy (x j) br.toInt, 0)).1 % 2 ^ w)))

/-- Whatever FMT, VIADD, VISUB and VIMUL begin with every element the exact sum, difference or product, wrapped, or
saturated to the range of TY; VIMIN and VIMAX with the lesser or greater; VAND, VOR and VXOR with the bits; the shifts
with the element moved by the count of operand B, or by the immediate; VSEL chooses by the top bit of the destination
element, VSHUF by index: one row in flight after 2 cycles, 4 for VIMUL. (R267, R277, R278, R282) -/
def Obligations.VectorInteger : Prop :=
  ∀ (h : VHdr) (dt ta tb : BitVec 4) (row br : BitVec 6) (bfix : Bool) (ty : BitVec 3) (sat : Bool) (s : State) (t : Thread),
  threadOf s s.cur = some t → guardTrue t h.g = true → Quiet t → row.toNat + (h.beats.toNat + 1) ≤ 64 →
  (bfix = true ∨ br.toNat + (h.beats.toNat + 1) ≤ 64) →
  let d := 64 * dt.toNat + row.toNat
  let a := tileRow t (64 * ta.toNat + row.toNat)
  let b := tileRow t (64 * tb.toNat + br.toNat)
  let c := tileRow t d
  let w := tyBits ty
  let sg := tySigned ty
  let x (j : Nat) : Int := asInt w sg (elem w j a)
  let y (j : Nat) : Int := asInt w sg (elem w j b)
  let fit (v : Int) : Nat := if sat then (max (if sg then -2 ^ (w - 1) else 0) (min v (if sg then 2 ^ (w - 1) - 1 else 2 ^ w - 1)) % 2 ^ w).toNat else (v % 2 ^ w).toNat
  StartsV (.viadd h dt row ta tb br bfix ty sat) h s t (OneRow t d 2 (Elements w (fun j => fit (x j + y j)))) ∧
  StartsV (.visub h dt row ta tb br bfix ty sat) h s t (OneRow t d 2 (Elements w (fun j => fit (x j - y j)))) ∧
  StartsV (.vimul h dt row ta tb br bfix ty sat) h s t (OneRow t d 4 (Elements w (fun j => fit (x j * y j)))) ∧
  StartsV (.vimin h dt row ta tb br bfix ty) h s t (OneRow t d 2 (Elements w (fun j => (min (x j) (y j) % 2 ^ w).toNat))) ∧
  StartsV (.vimax h dt row ta tb br bfix ty) h s t (OneRow t d 2 (Elements w (fun j => (max (x j) (y j) % 2 ^ w).toNat))) ∧
  StartsV (.vand h dt row ta tb br bfix) h s t (OneRow t d 2 (fun r => ∀ k, r.getLsbD k = (a.getLsbD k && b.getLsbD k))) ∧
  StartsV (.vor h dt row ta tb br bfix) h s t (OneRow t d 2 (fun r => ∀ k, r.getLsbD k = (a.getLsbD k || b.getLsbD k))) ∧
  StartsV (.vxor h dt row ta tb br bfix) h s t (OneRow t d 2 (fun r => ∀ k, r.getLsbD k = (a.getLsbD k ^^ b.getLsbD k))) ∧
  (ty.toNat ≤ 3 →
  StartsV (.vshl h dt row ta tb br bfix ty false) h s t (OneRow t d 2 (Elements w (fun j => elem w j a * 2 ^ (elem w j b) % 2 ^ w))) ∧
  StartsV (.vshr h dt row ta tb br bfix ty false) h s t (OneRow t d 2 (Elements w (fun j => elem w j a / 2 ^ (elem w j b)))) ∧
  StartsV (.vsar h dt row ta tb br bfix ty false) h s t (OneRow t d 2 (Elements w (fun j => (Int.fdiv (asInt w true (elem w j a)) (2 ^ (min (elem w j b) w)) % 2 ^ w).toNat))) ∧
  StartsV (.vshl h dt row ta 0 br false ty true) h s t (OneRow t d 2 (Elements w (fun j => elem w j a * 2 ^ br.toNat % 2 ^ w))) ∧
  StartsV (.vshr h dt row ta 0 br false ty true) h s t (OneRow t d 2 (Elements w (fun j => elem w j a / 2 ^ br.toNat))) ∧
  StartsV (.vsar h dt row ta 0 br false ty true) h s t (OneRow t d 2 (Elements w (fun j => (Int.fdiv (asInt w true (elem w j a)) (2 ^ (min br.toNat w)) % 2 ^ w).toNat))) ∧
  StartsV (.vsel h dt row ta tb br bfix ty) h s t (OneRow t d 2 (Elements w (fun j => if (elem w j c).testBit (w - 1) then elem w j a else elem w j b))) ∧
  StartsV (.vshuf h dt row ta tb br bfix ty) h s t (OneRow t d 2 (Elements w (fun j => if elem 8 j b < 2048 / w then elem w (elem 8 j b) a else 0))))

/-- VMOV, VBCAST and VZRD begin with their first row in flight to the tile after 2 cycles, the row itself, the scalar in
every element, or the accumulator row; VZWR with the tile row in flight to the accumulator; VTRANS of 64 beats begins
with nothing in flight and keeps the first row it reads (what its last beat writes: VectorLaterBeat). (R283, R284,
R285) -/
def Obligations.VectorMoves : Prop :=
  ∀ (h : VHdr) (dt ta : BitVec 4) (dr ar zr : BitVec 6) (z w dq aq : BitVec 2) (rs : BitVec 5) (s : State) (t : Thread),
  threadOf s s.cur = some t → guardTrue t h.g = true → Quiet t → dr.toNat + (h.beats.toNat + 1) ≤ 64 →
  ar.toNat + (h.beats.toNat + 1) ≤ 64 → zr.toNat + (h.beats.toNat + 1) ≤ 64 →
  let d := 64 * dt.toNat + dr.toNat
  let a := tileRow t (64 * ta.toNat + ar.toNat)
  let n := 8 * 2 ^ w.toNat
  StartsV (.vmov h dt dr ta ar) h s t (OneRow t d 2 (fun r => r = a)) ∧
  StartsV (.vbcast h dt dr rs w) h s t (OneRow t d 2 (Elements n (fun _ => (sreg t rs).toNat % 2 ^ n))) ∧
  StartsV (.vzrd h dt dr z zr) h s t (OneRow t d 2 (fun r => r = mgetD 0 (64 * z.toNat + zr.toNat) t.r.accs)) ∧
  StartsV (.vzwr h z zr ta ar) h s t (fun rs => ∃ r, rs = [r] ∧ r.dest = .arow (64 * z.toNat + zr.toNat) ∧
    r.due = t.x.dc + 2 ∧ r.mask = fullMask ∧ r.val = a) ∧
  (h.beats = 63 → StartsV (.vtrans h dt dq ta aq w) h s t (fun rs => rs = []) ∧
    ∃ t' v, exec (.vtrans h dt dq ta aq w) s = .next (setThread s s.cur t') ∧ t'.x.vop = some v ∧
      v.rows = [tileRow t (64 * ta.toNat)])

/-- In a thread with a free engine and pipeline, within the limits of its entry: VCVT begins with its first elements,
converted, in flight to the start of its destination row after 4 cycles; VRSUM, VRMAX and VRMIN with the rounded sum,
or the greatest or least, of the row's elements, and of the destination element under ACC, in flight to element DOFF
after 6; VPACKM with the packed elements of its first row's blocks and their scales, VUNPKM with its plain row after
4; VUNPKD with its plain row at the end of its unit; VPACKD with nothing in flight, its first row kept (what a unit's
last beat writes: VectorLaterBeat). Each result carries the mask of the bytes it is to write. (R279, R280, R281) -/
def Obligations.VectorConversions : Prop :=
  ∀ (h : VHdr) (dt ta se de mf : BitVec 4) (dr ar mr : BitVec 6) (doff : BitVec 7) (acc w : Bool) (s : State) (t : Thread),
  threadOf s s.cur = some t → guardTrue t h.g = true → Quiet t →
  let beats := h.beats.toNat + 1
  let d := 64 * dt.toNat + dr.toNat
  let a := tileRow t (64 * ta.toNat + ar.toNat)
  let aux := tileRow t (64 * ta.toNat + mr.toNat)
  let fmt := t.c.fmt
  let n := vfBits fmt
  let per := 2048 / n
  let isPut (r : Result) (k l lo hi : Nat) : Prop := r.dest = .trow k ∧ r.due = t.x.dc + l ∧ r.mask = byteMask lo hi
  (let q := 256 / max (cvtBytes se.toNat) (cvtBytes de.toNat)
   WellFormed (.vcvt h dt dr ta ar se de) = true →
   ar.toNat + (beats - 1) * q * cvtBytes se.toNat / 256 < 64 → dr.toNat + (beats - 1) * q * cvtBytes de.toNat / 256 < 64 →
   StartsV (.vcvt h dt dr ta ar se de) h s t (fun rs => ∃ r, rs = [r] ∧ isPut r d 4 0 (q * cvtBytes de.toNat) ∧
     ∀ j, j < q → elem (8 * cvtBytes de.toNat) j r.val =
       (cvtElem fmt se.toNat de.toNat (elem (8 * cvtBytes se.toNat) j a)).1 % 2 ^ (8 * cvtBytes de.toNat))) ∧
  (fmtVF fmt ≤ 2 → ar.toNat + beats ≤ 64 → doff.toNat + beats ≤ per →
    let xs := (if acc then [elem n doff.toNat (tileRow t d)] else []) ++ (List.range per).map (fun j => elem n j a)
    let put (f : Nat) (rs : List Result) : Prop := ∃ r, rs = [r] ∧
      isPut r d 6 (n * doff.toNat / 8) (n * doff.toNat / 8 + n / 8) ∧ elem n doff.toNat r.val = f % 2 ^ n
    StartsV (.vrsum h dt dr ta ar doff acc) h s t (put (redSum fmt xs).1) ∧
    StartsV (.vrmax h dt dr ta ar doff acc) h s t (put (redMinMax true fmt xs).1) ∧
    StartsV (.vrmin h dt dr ta ar doff acc) h s t (put (redMinMax false fmt xs).1)) ∧
  (let c := if mf.toNat ≤ 8 then 256 else if mf.toNat = 11 then 512 else 320
   let rows := (beats * per + c - 1) / c
   let wd := fmtBits mf.toNat
   let block (u : Nat) := mxPack ((List.range 32).map (fun j => vElem fmt (32 * u + j) a)) (mxFmt mf.toNat) (fmtRM fmt) (fmtSAT fmt)
   fmtVF fmt ≤ 2 → 7 ≤ mf.toNat → mf.toNat ≤ 11 →
   (dr.toNat + rows ≤ 64 → ar.toNat + beats ≤ 64 → ¬ (dr.toNat ≤ mr.toNat ∧ mr.toNat < dr.toNat + rows) →
     StartsV (.vpackm h dt dr ta ar mr mf) h s t (fun rs => rs.length = per / 32 + 1 ∧
       (∀ u, u < per / 32 → ∃ r, rs[u]? = some r ∧ isPut r d 4 (4 * wd * u) (4 * wd * u + 4 * wd) ∧
         ∀ j, j < 32 → elem wd (32 * u + j) r.val = (((block u).1)[j]?).getD 0 % 2 ^ wd) ∧
       ∃ r, rs[per / 32]? = some r ∧ isPut r (64 * dt.toNat + mr.toNat) 4 0 (per / 32) ∧
         ∀ u, u < per / 32 → elem 8 u r.val = (block u).2.1 % 256)) ∧
   (ar.toNat + rows ≤ 64 → dr.toNat + beats ≤ 64 → ¬ (ar.toNat ≤ mr.toNat ∧ mr.toNat < ar.toNat + rows) →
     StartsV (.vunpkm h dt dr ta ar mr mf) h s t (OneRow t d 4 (Elements n (fun j =>
       (roundTo (codeFmt (fmtVF fmt)) (scaleE8 (elem 8 (j / 32) aux) (decodeF (mxFmt mf.toNat) (elem wd j a)))
         (fmtRM fmt) (fmtSAT fmt)).1 % 2 ^ n))))) ∧
  (let units := beats / (n / 8)
   let rows := if w then (units + 1) / 2 else units
   let wd := if w then 4 else 8
   fmtVF fmt ≤ 2 → beats % (n / 8) = 0 → units ≤ 16 →
   (dr.toNat + rows ≤ 64 → ar.toNat + beats ≤ 64 → ¬ (dr.toNat ≤ mr.toNat ∧ mr.toNat < dr.toNat + rows) →
     StartsV (.vpackd h dt dr ta ar mr w) h s t (fun rs => rs = []) ∧
     ∃ t' v, exec (.vpackd h dt dr ta ar mr w) s = .next (setThread s s.cur t') ∧ (h.beats ≠ 0 → t'.x.vop = some v ∧ v.rows = [a])) ∧
   (ar.toNat + rows ≤ 64 → dr.toNat + beats ≤ 64 → ¬ (ar.toNat ≤ mr.toNat ∧ mr.toNat < ar.toNat + rows) →
     StartsV (.vunpkd h dt dr ta ar mr w) h s t (OneRow t d (n / 8 + 3) (Elements n (fun j =>
       (roundTo (codeFmt (fmtVF fmt)) (debValue wd (elem wd j a) (elem 8 (j / 32) aux) (elem 8 8 aux))
         (fmtRM fmt) (fmtSAT fmt)).1 % 2 ^ n)))))

/-- When beat k of a VADD, VIADD or VMOV in progress is due, performing it puts row k in flight to row D + k, due k cycles
after the first row's, with the format latched at issue; at the last beat the operation is over. A later beat of
VTRANS keeps the row it reads, and the last puts the 64 transposed rows in flight, due 66 cycles after issue, to the
elements that DQ names; one of VPACKD keeps its row, and the last of a unit puts the packed superblock and its 16
bytes of metadata in flight, due 4 cycles later. (R188, R267, R268, R269, R280, R283) -/
def Obligations.VectorLaterBeat : Prop :=
  (∀ (h : VHdr) (dt ta tb : BitVec 4) (row br : BitVec 6) (bfix : Bool) (ty : BitVec 3) (s : State) (t : Thread) (v : VOp),
  threadOf s s.cur = some t → t.x.vop = some v → v.go = true → t.uncov = [] →
  let a := tileRow t (64 * ta.toNat + row.toNat + v.k)
  let b := tileRow t (64 * tb.toNat + br.toNat + (if bfix then 0 else v.k))
  let goes (i : Instr) (l : Nat) (P : Row → Prop) : Prop :=
    v.i = i → ∃ t' r, exec i s = .next (setThread s s.cur t') ∧ t'.x.inflight = t.x.inflight ++ [r] ∧
      r.dest = .trow (64 * dt.toNat + row.toNat + v.k) ∧ r.due = v.issue + (v.k + l) ∧ P r.val ∧
      (t'.x.vop = if v.k + 1 < v.b then some { v with k := v.k + 1, rows := [], go := false } else none) ∧
      KeepsRegisters t t'
  goes (.vadd h dt row ta tb br bfix) 4 (Elements (vfBits v.fmt) (fun j =>
    (vRound v.fmt (vAdd (fmtRM v.fmt) (vElem v.fmt j a) (vElem v.fmt j b))).1 % 2 ^ vfBits v.fmt)) ∧
  goes (.viadd h dt row ta tb br bfix ty false) 2 (Elements (tyBits ty) (fun j =>
    (elem (tyBits ty) j a + elem (tyBits ty) j b) % 2 ^ tyBits ty)) ∧
  goes (.vmov h dt row ta row) 2 (fun r => r = a)) ∧
  (∀ (h : VHdr) (dt ta : BitVec 4) (dq aq w : BitVec 2) (s : State) (t : Thread) (v : VOp),
  threadOf s s.cur = some t → t.x.vop = some v → v.go = true → t.uncov = [] → v.i = .vtrans h dt dq ta aq w → w.toNat ≤ 2 →
  let n := 8 * 2 ^ w.toNat
  let rows := v.rows ++ [tileRow t (64 * ta.toNat + v.k)]
  ∃ t', exec (.vtrans h dt dq ta aq w) s = .next (setThread s s.cur t') ∧ KeepsRegisters t t' ∧
    (v.k < 63 → t'.x.inflight = t.x.inflight ∧
      t'.x.vop = if v.k + 1 < v.b then some { v with k := v.k + 1, rows := rows, go := false } else none) ∧
    (v.k = 63 → v.rows.length = 63 → (dq.toNat + 1) * n ≤ 32 → (aq.toNat + 1) * n ≤ 32 → ∃ out, t'.x.inflight = t.x.inflight ++ out ∧
      out.length = 64 ∧ ∀ r, r < 64 → ∃ x, out[r]? = some x ∧ x.dest = .trow (64 * dt.toNat + r) ∧ x.due = v.issue + 66 ∧
        x.mask = byteMask (8 * n * dq.toNat) (8 * n * dq.toNat + 8 * n) ∧
        ∀ c, c < 64 → elem n (64 * dq.toNat + c) x.val = elem n (64 * aq.toNat + r) ((rows[c]?).getD 0))) ∧
  (∀ (h : VHdr) (dt ta : BitVec 4) (dr ar mr : BitVec 6) (w : Bool) (s : State) (t : Thread) (v : VOp),
  threadOf s s.cur = some t → t.x.vop = some v → v.go = true → t.uncov = [] → v.i = .vpackd h dt dr ta ar mr w →
  let sw := vfBits v.fmt / 8
  let n := v.k / sw
  let wd := if w then 4 else 8
  let lo := if w then 128 * (n % 2) else 0
  let rows := v.rows ++ [tileRow t (64 * ta.toNat + ar.toNat + v.k)]
  let xs := rows.flatMap (fun r => (List.range (2048 / vfBits v.fmt)).map (fun j => vElem v.fmt j r))
  let pk := debPack xs wd (fmtRM v.fmt) (fmtSAT v.fmt)
  let at_ (l : List Nat) (k : Nat) : Nat := (l[k]?).getD 0
  ∃ t', exec (.vpackd h dt dr ta ar mr w) s = .next (setThread s s.cur t') ∧ KeepsRegisters t t' ∧
    (v.k % sw + 1 < sw → t'.x.inflight = t.x.inflight ∧
      t'.x.vop = if v.k + 1 < v.b then some { v with k := v.k + 1, rows := rows, go := false } else none) ∧
    (v.k % sw + 1 = sw → v.rows.length + 1 = sw → n < 16 → ∃ x m, t'.x.inflight = t.x.inflight ++ [x, m] ∧
      (t'.x.vop = if v.k + 1 < v.b then some { v with k := v.k + 1, rows := [], go := false } else none) ∧
      x.dest = .trow (64 * dt.toNat + dr.toNat + (if w then n / 2 else n)) ∧ x.due = v.issue + (v.k + 4) ∧
      x.mask = byteMask lo (lo + 32 * wd) ∧ (∀ j, j < 256 → elem wd (8 * lo / wd + j) x.val = at_ pk.1 j % 2 ^ wd) ∧
      m.dest = .trow (64 * dt.toNat + mr.toNat) ∧ m.due = v.issue + (v.k + 4) ∧ m.mask = byteMask (16 * n) (16 * n + 16) ∧
      (∀ j, j < 8 → elem 8 (16 * n + j) m.val = at_ pk.2.1 j % 256) ∧ elem 8 (16 * n + 8) m.val = pk.2.2.1 % 256 ∧
      ∀ j, 9 ≤ j → j < 16 → elem 8 (16 * n + j) m.val = 0))

/-- With a free engine and pipeline: MMA and MMA.TB under a matrix pair of formats become the engine's operation, with
accumulator, operand addresses, strides and formats latched, and the engine busy for beats times passes; ZZERO puts
zero in flight to the 64 rows of z after 1 cycle; ZSCALE the scaled rows; ZOUT becomes the operation that writes its
tile rows. Accumulators stay as they were at issue. (R291, R297, R298, R300) -/
def Obligations.MatrixIssue : Prop :=
  ∀ (h : XHdr) (rpe rel ax : Bool) (cnt : BitVec 12) (inca incb ra rsa rb rsb : BitVec 5) (z : BitVec 2) (pos : BitVec 3)
    (tl dt df : BitVec 4) (row zr : BitVec 6) (s : State) (t : Thread),
  threadOf s s.cur = some t → guardTrue t h.g = true → Quiet t → (rpe = true → cnt ≠ 0) →
  let n := h.beats.toNat + 1
  let np := if rpe then cnt.toNat else 1
  let runs (i : Instr) (busy : Nat) (P : XOp → Prop) : Prop :=
    ∃ t' x, exec i s = .next (setThread s s.cur t') ∧ t'.x.xop = some x ∧ x.i = i ∧ x.j = 0 ∧ x.b = n ∧ x.z = z.toNat ∧
      x.fmt = t.c.fmt ∧ x.xmask = t.c.xmask ∧ x.xscl = t.c.xscl ∧ x.nbv = t.c.nbv ∧ P x ∧ t'.x.xEnd = t.x.dc + busy ∧
      KeepsRegisters t t'
  (matrixPair t.c.fmt = true →
    runs (.mma h rpe cnt inca incb z ra rsa rb rsb) (np * n) (fun x => x.np = np ∧ x.a0 = sreg t ra ∧ x.sa = sreg t rsa ∧
      x.b0 = sreg t rb ∧ x.sb = sreg t rsb) ∧
    (n ≤ 64 → t.tide.pending = [] →
      runs (.mmaTb h rpe cnt inca incb z ra rsa rb pos rel) (np * n) (fun x => x.np = np ∧ x.a0 = sreg t ra ∧ x.sa = sreg t rsa))) ∧
  (n = 1 → (∃ t', exec (.zzero h z) s = .next (setThread s s.cur t') ∧ KeepsRegisters t t' ∧ t'.x.xEnd = t.x.dc + 1 ∧
      t'.x.inflight = (List.range 64).map (fun m => ⟨.arow (64 * z.toNat + m), t.x.dc + 1, 0, fullMask, 0, 2⟩))) ∧
  (n = 1 → (∃ t', exec (.zscale h z tl row ax) s = .next (setThread s s.cur t') ∧ KeepsRegisters t t' ∧
      t'.x.inflight.length = 64 ∧ ∀ m, m < 64 → ∃ r, t'.x.inflight[m]? = some r ∧ r.dest = .arow (64 * z.toNat + m) ∧
        r.due = t.x.dc + 1 ∧ Elements 32 (fun k => (zscaleElem (elem 32 k (mgetD 0 (64 * z.toNat + m) t.r.accs))
          (elem 32 (if ax then k else m) (tileRow t (64 * tl.toNat + row.toNat)))).1 % 2 ^ 32) r.val)) ∧
  (n ≤ 64 → row.toNat + n ≤ 64 → zr.toNat + n ≤ 64 → runs (.zout h z dt row zr df) n (fun _ => True))

/-- MATRIX_BEAT for a ZOUT at beat j puts accumulator row ZR + j, each FP32 element rounded to the destination format, in
flight to tile row ROW + j, due j + 4 cycles after issue, and counts the beat; after the last the engine has no
operation. MATRIX_BEAT for an MMA or MMA.TB in its cycle, with its operands read: until a group of 32 k-steps or the
pass ends, the beat's products are only kept; at that end, or at every beat under NBV, each position of the rows and
columns in use gets the one rounding of its old value plus all products kept, or under NBV the sum rounded product by
product, in flight for the next cycle; positions outside stay, or become zero with the first write under ZEROM; no
other register changes. (R198, R199, R200, R293, R297, R298, R300) -/
def Obligations.MatrixBeats : Prop :=
  (∀ (c : Nat) (h : XHdr) (z : BitVec 2) (dt df : BitVec 4) (row zr : BitVec 6) (s : State) (t : Thread) (x : XOp),
  threadOf s c = some t → t.x.xop = some x → x.fault = none → x.i = .zout h z dt row zr df → df.toNat ≤ 4 →
  ∃ t' r, exec (.matrixBeat c) s = .next (setThread s c t') ∧ t'.x.inflight = t.x.inflight ++ [r] ∧
    r.dest = .trow (64 * dt.toNat + row.toNat + x.j) ∧ r.due = x.issue + x.j + 4 ∧
    (∀ k, k < 64 → elem (fmtWidth (codeFmt df.toNat)) k r.val = (roundTo (codeFmt df.toNat)
      (decodeF .fp32 (elem 32 k (mgetD 0 (64 * z.toNat + (zr.toNat + x.j)) t.r.accs))) (fmtRM x.fmt) (fmtSAT x.fmt)).1 %
        2 ^ fmtWidth (codeFmt df.toNat)) ∧
    (t'.x.xop = if x.j + 1 < x.b then some { x with j := x.j + 1 } else none) ∧ KeepsRegisters t t' ∧ t'.r.accs = t.r.accs) ∧
  (∀ (c : Nat) (s s1 : State) (t t1 : Thread) (x : XOp) (tile : List Row) (rs : List (XRange × Nat)) (ps : List XPlace),
  threadOf s c = some t → t.x.xop = some x → x.fault = none → x.mma = true → tbTile t x = .ok tile →
  readBeat s c t x = .got rs ps s1 → threadOf s1 c = some t1 → t1.x.dc = x.issue + x.j →
  let k1 := x.j % x.b * x.kpb + x.kpb
  let nb := x.nbv.getLsbD 0
  let ks := x.ks ++ beatSteps x rs tile
  let ends : Prop := nb = true ∨ k1 % 32 = 0 ∨ x.j % x.b + 1 = x.b
  let clear : Prop := x.xmask.getLsbD 16 = true ∧ x.pass = 0 ∧ x.kstep = 0
  let old (m n : Nat) : Nat := elem 32 n (arow t1 x.z m)
  let prod (m n : Nat) (k : List FVal × List FVal) : FVal := (fmul ((k.1[m]?).getD .nan) ((k.2[n]?).getD .nan)).1
  let sum (l : List FVal) : Nat := (roundAcc (fsum 0 l).1).1
  let new (m n : Nat) : Nat := if nb then ks.foldl (fun z k => sum [decodeF .fp32 z, decodeF .fp32 (roundAcc (prod m n k)).1]) (old m n)
    else sum (decodeF .fp32 (old m n) :: ks.map (prod m n))
  ∃ s' t', exec (.matrixBeat c) s = .next s' ∧ threadOf s' c = some t' ∧ s'.mem = s1.mem ∧ t'.r = t1.r ∧ t'.c = t1.c ∧ t'.q = t1.q ∧
    t'.reqs = t1.reqs ∧
    (x.np * x.b ≤ x.j + 1 → t'.x.xop = none) ∧ (x.j + 1 < x.np * x.b → ∃ y, t'.x.xop = some y ∧ y.j = x.j + 1 ∧ y.i = x.i ∧ y.b = x.b ∧
      y.np = x.np ∧ y.issue = x.issue ∧ y.z = x.z ∧ (ends → y.ks = []) ∧ (¬ ends → y.ks = ks)) ∧
    (¬ ends → t'.x.inflight = t1.x.inflight) ∧
    (ends → ∃ out, t'.x.inflight = t1.x.inflight ++ out ∧ (∀ r ∈ out, r.due = t1.x.dc + 1 ∧ ∃ m, m < 64 ∧ r.dest = .arow (64 * x.z + m)) ∧
      (∀ m, m < 64 → m < x.rows → ∃ r ∈ out, r.dest = .arow (64 * x.z + m) ∧ (clear → r.mask = fullMask) ∧
        (¬ clear → r.mask = byteMask 0 (4 * x.cols)) ∧ ∀ n, n < x.cols → n < 64 → elem 32 n r.val = new m n % 2 ^ 32) ∧
      (∀ m, m < 64 → x.rows ≤ m → (clear → ∃ r ∈ out, r.dest = .arow (64 * x.z + m) ∧ r.mask = fullMask ∧ r.val = 0) ∧
        (¬ clear → ∀ r ∈ out, r.dest ≠ .arow (64 * x.z + m)))))

/-- COPY on a channel the thread holds with fewer than 16 chains completes: the chain joins the channel with its issuer,
SCNT counts up, the channel number of chains given joins the open batch, and the channel, unless it is going already,
is set going a cycle later; CLOSE moves the open batch to the closed ones; WAITL of any timeline it may name, a
channel's, the fabric channel's, the probe fill engine's, the Tide subscription's or a context's by number, that has
reached the value completes, WAITL.test puts whether it has in flight after 2 cycles, and WAITL of one that has not
stalls the thread. No register and no byte of memory changes. That the open batch records the number of chains given
is the model's reading (log entry 21). (R307, R308, R312, R140) -/
def Obligations.CopySlots : Prop :=
  ∀ (g : Guard) (ch : BitVec 2) (ra rc rn : BitVec 5) (pd ctxk : BitVec 3) (scope : BitVec 3) (s : State) (t : Thread) (ctx : Nat),
  Performs s t g →
  (t.chans[ch.toNat]? = some ctx → (engineOf s ctx).chains.length < 16 →
    ∃ s' t' i, exec (.copy g ch ra) s = .next s' ∧ threadOf s' s.cur = some t' ∧
      engineOf s' ctx = { engineOf s ctx with chains := (engineOf s ctx).chains ++ [⟨sreg t ra &&& ~~~(63#64), i⟩],
                                              given := (engineOf s ctx).given + 1 } ∧
      i.core = s.cur ∧ i.job = t.job ∧ i.regs = t.regs ∧ i.tid = t.det.tid ∧ i.scnt = t'.det.scnt ∧
      t'.det.scnt = (t.det.scnt + 1) % 2 ^ 32 ∧ mget ctx t'.openB = some ((engineOf s ctx).given + 1) ∧
      t'.closedB = t.closedB ∧ SameRegisters t t' ∧ t'.reqs = t.reqs ∧ t'.x = t.x ∧ s'.mem = s.mem ∧
      s'.agenda = (if s.agenda.any (fun e => e.ev == .copyRecordProcess ctx) then s.agenda
        else s.agenda ++ [⟨s.now + 1, .copyRecordProcess ctx⟩])) ∧
  (t.openB = [] → exec (.close g) s = .next s) ∧
  (t.openB ≠ [] → t.closedB.length < 15 →
    ∃ t', exec (.close g) s = .next (setThread s s.cur t') ∧ t'.openB = [] ∧
      t'.closedB = t.closedB.filter (fun b => !batchDone s b) ++ [t.openB] ∧ SameRegisters t t' ∧ t'.reqs = t.reqs ∧ t'.x = t.x) ∧
  (∀ x, waitlCtx s.cur t ctxk rc = .ok x → Fits t (.preg pd.toNat) 2 →
    let reached : Nat := match x with
      | some k => timelineOf s k
      | none => t.tide.tl
    (reached < (sreg t rn).toNat →
      exec (.waitl g true pd ctxk rc rn scope) s = .next (withPred s t pd 2 false) ∧
      ∃ t', exec (.waitl g false pd ctxk rc rn scope) s = .next (setThread s s.cur t') ∧ t'.phase = .stalled ∧
        SameRegisters t t' ∧ t'.x = t.x ∧ t'.det = t.det) ∧
    ((sreg t rn).toNat ≤ reached →
      (∃ t', exec (.waitl g true pd ctxk rc rn scope) s = .next (setThread s s.cur t') ∧
        t'.x.inflight = t.x.inflight ++ [⟨.preg pd.toNat, t.x.dc + 2, 1, fullMask, 0, 0⟩] ∧ SameRegisters t t' ∧ t'.phase = t.phase) ∧
      (∃ t', exec (.waitl g false pd ctxk rc rn scope) s = .next (setThread s s.cur t') ∧ t'.phase = t.phase ∧
        SameRegisters t t' ∧ t'.x = t.x ∧ t'.reqs = t.reqs)))

/-- On an SRAM barrier of this device BINIT, with a count from 1 to below 2^28 and sectors of 32 signed bits, and BARRIVE
each issue one counted request of 16 bytes of class S at the address with its low four bits dropped; BWAIT of a word
whose phase has ended, where a BINIT of the thread's own still on its way stands in the word already, completes, and
of one whose phase has not ended stalls; BWAIT.test puts which in flight after 2 cycles. No byte of memory changes at
issue. (R310, R311) -/
def Obligations.BarrierSlots : Prop :=
  ∀ (g : Guard) (ra rn rs rph : BitVec 5) (exp : Bool) (pd scope : BitVec 3) (s : State) (t : Thread) (p : Place),
  Performs s t g → p.dev = none → inSram p.pa = true →
  let a := sreg t ra &&& ~~~(15#64)
  (threadPlace s t .mem 0 .write a = .ok p → 0 < (sreg t rn).toNat → (sreg t rn).toNat < 2 ^ 28 →
    -(2 ^ 31 : Int) ≤ (sreg t rs).toInt → (sreg t rs).toInt < 2 ^ 31 → outstanding t 2 < 63 →
    ∃ s' q part, exec (.binit g ra rn rs) s = .next s' ∧ Issued s s' t q ∧
      q.kind = .binit (BitVec.ofNat 64 ((sreg t rn).toNat * 16 + (sreg t rs).toNat % 2 ^ 32 * 2 ^ 32)) (BitVec.ofNat 64 (sreg t rn).toNat) ∧
      q.cls = 2 ∧ q.due = none ∧ q.parts = [part] ∧ part.ga = a ∧ part.pa = p.pa ∧ part.len = 16) ∧
  (threadPlace s t .mem 0 .write a = .ok p → (sreg t rn).toNat = 0 ∨ 2 ^ 28 ≤ (sreg t rn).toNat →
    t.handler = false → t.replay = false →
    ∃ s' t', exec (.binit g ra rn rs) s = .next s' ∧ threadOf s' s.cur = some t' ∧ t'.phase = .saving true s.now ∧
      t'.posFault = some { cls := 0x0D, cause := 1, qw6 := a, cycle := s.now } ∧ t'.r = t.r ∧ s'.mem = s.mem) ∧
  (threadPlace s t .mem 0 .atomic a = .ok p → outstanding t 2 < 63 →
    ∃ s' q part, exec (.barrive g ra rs exp scope) s = .next s' ∧ Issued s s' t q ∧
      q.kind = .barrive (if exp then sreg t rs else 0) ∧ q.cls = 2 ∧ q.ord = 2 ∧ q.scope = scope.toNat ∧ q.due = none ∧
      q.parts = [part] ∧ part.ga = a ∧ part.pa = p.pa ∧ part.len = 16) ∧
  (∀ v, threadPlace s t .mem 0 .read a = .ok p → barWord s t a p.pa = .ok v → (readBar s (whoCore s.cur) p.pa a).2 = s →
    let ended := barEnded (barOf (ownBar t p.pa v)) (wf 3 0 (sreg t rph))
    (ended = true → ∃ t', exec (.bwait g false pd ra rph scope) s = .next (setThread s s.cur t') ∧ t'.phase = t.phase ∧
      SameRegisters t t' ∧ t'.x = t.x ∧ t'.reqs = t.reqs) ∧
    (ended = false → ∃ t', exec (.bwait g false pd ra rph scope) s = .next (setThread s s.cur t') ∧ t'.phase = .stalled ∧
      SameRegisters t t' ∧ t'.x = t.x ∧ t'.reqs = t.reqs) ∧
    (Fits t (.preg pd.toNat) 2 → ∃ t', exec (.bwait g true pd ra rph scope) s = .next (setThread s s.cur t') ∧
      t'.x.inflight = t.x.inflight ++ [⟨.preg pd.toNat, t.x.dc + 2, BitVec.ofNat 2048 (b2n ended), fullMask, 0, 0⟩] ∧
      SameRegisters t t' ∧ t'.phase = t.phase))

/-- GJOIN by a thread that is no member, in fewer than eight groups, of a group with members, whose job names no roots:
the thread is a member from the next phase. GLEAVE ends the membership and issues a release marker; GBAR in mode 1
with no arrival pending issues one; GBAR in mode 0 whose arrival has completed departs, and one that has made no
arrival yet or whose phase is not over stalls, its membership as it was; GBAR.test puts whether the phase is over in
flight after 2 cycles, and where it is over after an arrival the thread departs. A slot on a group the thread is not
in takes the synchronisation fault NOTMEMBER. Registers and memory stay. (R313, R314) -/
def Obligations.GroupSlots : Prop :=
  ∀ (g : Guard) (rg : BitVec 5) (pd : BitVec 3) (s : State) (t : Thread),
  Performs s t g →
  let gid := (sreg t rg).toNat % 2 ^ 16
  (membership t gid = none → t.groups.length < 8 → (groupOf s t.job gid).members ≠ [] → groupRoot s (t.regs.jobid.toNat % 2 ^ 16) gid = none →
    ∃ s' t', exec (.gjoin g rg) s = .next s' ∧ threadOf s' s.cur = some t' ∧ t'.groups = t.groups ++ [⟨gid, 0, false, false⟩] ∧
      (groupOf s' t.job gid).members = (groupOf s t.job gid).members ++
        [⟨t.frame, t.det.tid, (groupOf s t.job gid).phase + 1, false, false, [], t.regs.jobid.toNat % 2 ^ 16⟩] ∧
      (groupOf s' t.job gid).phase = (groupOf s t.job gid).phase ∧ SameRegisters t t' ∧ t'.x = t.x ∧ s'.mem = s.mem) ∧
  (∀ m, membership t gid = some m →
    (outstanding t 0 < 63 → ∃ s' t' q, exec (.gleave g rg) s = .next s' ∧ threadOf s' s.cur = some t' ∧
      t'.groups = t.groups.filter (fun m => m.gid != gid) ∧ t'.reqs = t.reqs ++ [q] ∧ q.kind = .gleave gid ∧ q.ord = 3 ∧
      SameRegisters t t' ∧ s'.mem = s.mem) ∧
    (m.pending = false → outstanding t 0 < 63 →
      ∃ s' t' q m', exec (.gbar g rg 1 pd) s = .next s' ∧ threadOf s' s.cur = some t' ∧ t'.reqs = t.reqs ++ [q] ∧
        q.kind = .garrive gid ∧ membership t' gid = some m' ∧ m'.pending = true ∧ m'.arrival = nextArrival s t gid ∧
        SameRegisters t t' ∧ s'.mem = s.mem) ∧
    (m.here = true → m.arrival < (groupOf s t.job gid).phase →
      ∃ t' m', exec (.gbar g rg 0 pd) s = .next (setThread s s.cur t') ∧ membership t' gid = some m' ∧ m'.pending = false ∧
        t'.phase = t.phase ∧ SameRegisters t t' ∧ t'.reqs = t.reqs) ∧
    (¬(m.here = true ∧ m.arrival < (groupOf s t.job gid).phase) →
      ∃ t', exec (.gbar g rg 0 pd) s = .next (setThread s s.cur t') ∧ t'.phase = .stalled ∧ t'.groups = t.groups ∧
        SameRegisters t t' ∧ t'.x = t.x ∧ t'.reqs = t.reqs) ∧
    (Fits t (.preg pd.toNat) 2 → m.pending = true → (groupOf s t.job gid).phase ≤ m.arrival →
      exec (.gbar g rg 2 pd) s = .next (withPred s t pd 2 false)) ∧
    (Fits t (.preg pd.toNat) 2 → m.pending = true → m.arrival < (groupOf s t.job gid).phase →
      ∃ t' m', exec (.gbar g rg 2 pd) s = .next (setThread s s.cur t') ∧ membership t' gid = some m' ∧ m'.pending = false ∧
        t'.x.inflight = t.x.inflight ++ [⟨.preg pd.toNat, t.x.dc + 2, 1, fullMask, 0, 0⟩] ∧ SameRegisters t t' ∧
        t'.phase = t.phase ∧ t'.reqs = t.reqs) ∧
    (Fits t (.preg pd.toNat) 2 → m.pending = false → exec (.gbar g rg 2 pd) s = .next (withPred s t pd 2 true))) ∧
  (membership t gid = none → t.handler = false → t.replay = false →
    ∀ i ∈ [Instr.gleave g rg, .gbar g rg 0 pd, .gbar g rg 1 pd, .gbar g rg 2 pd],
      ∃ s' t', exec i s = .next s' ∧ threadOf s' s.cur = some t' ∧ t'.phase = .saving true s.now ∧
        t'.posFault = some { cls := 0x0D, cause := 4, qw6 := BitVec.ofNat 64 gid, cycle := s.now } ∧ t'.r = t.r)

/-- SETFMT and CRW put their write into the control registers' shadow, due 4 cycles later, or 1 for FFLAGS; CRR puts the
register's value in flight after 1 cycle; DCAL the start of the next dredge window and DLEFT the cycles up to it, with
whether a window is open, after 2 cycles; AMARK adds its range of 1 to 2^32 bytes to the input or the output list, and
makes the task unauditable for K 2, a length outside that, or a list of eight. (R195, R324, R325, R327, R330) -/
def Obligations.RegisterSlots : Prop :=
  ∀ (g : Guard) (msk rd rs ra rl : BitVec 5) (kk : BitVec 2) (img : BitVec 20) (pd : BitVec 3) (s : State) (t : Thread),
  Performs s t g →
  let shadow (reg : Nat) (v : Word) (l : Nat) : State :=
    setThread s s.cur { t with x := { t.x with ctl := t.x.ctl ++ [⟨reg, v, t.x.dc + l⟩] } }
  let win := (s.now / 65536 + 1) * 65536
  exec (.setfmt g msk img) s = .next (shadow (0x1000 + msk.toNat) (img.setWidth 64) 4) ∧
  (Fits t (.sreg rd.toNat) 1 →
    exec (.crr g rd 0x010) s = .next (withScalar s t rd 1 t.c.fmt) ∧
    exec (.crr g rd 0x011) s = .next (withScalar s t rd 1 (t.c.fflags.setWidth 64)) ∧
    exec (.crr g rd 0x012) s = .next (withScalar s t rd 1 t.c.nbv) ∧
    exec (.crr g rd 0x013) s = .next (withScalar s t rd 1 t.c.xmask) ∧
    exec (.crr g rd 0x014) s = .next (withScalar s t rd 1 t.c.xscl) ∧
    exec (.crr g rd 0x002) s = .next (withScalar s t rd 1 (BitVec.ofNat 64 s.now)) ∧
    exec (.crr g rd 0x047) s = .next (withScalar s t rd 1 (BitVec.ofNat 64 t.tide.tl)) ∧
    (t.replay = false → exec (.crr g rd 0x000) s = .next (withScalar s t rd 1 (BitVec.ofNat 64 s.cur)) ∧
      exec (.crr g rd 0x001) s = .next (withScalar s t rd 1 (BitVec.ofNat 64 t.det.tid)))) ∧
  (∀ n : Nat, 0x10 ≤ n → n ≤ 0x14 → n ≠ 0x11 → exec (.crw g rs (BitVec.ofNat 12 n)) s = .next (shadow n (sreg t rs) 4)) ∧
  exec (.crw g rs 0x011) s = .next (shadow 0x11 (sreg t rs) 1) ∧
  (Fits t (.sreg rd.toNat) 2 → exec (.dcal g rd) s = .next (withScalar s t rd 2 (BitVec.ofNat 64 win))) ∧
  (Fits t (.sreg rd.toNat) 2 → Fits t (.preg pd.toNat) 2 → inFlight t + 2 ≤ 64 →
    exec (.dleft g rd pd) s = .next (setThread s s.cur (withResult
      (withResult t (.sreg rd.toNat) 2 (BitVec.ofNat 2048 (win - s.now)))
      (.preg pd.toNat) 2 (if s.now % 65536 < 2048 then 1 else 0)))) ∧
  (let n := (sreg t rl).toNat
   (1 ≤ n → n ≤ 2 ^ 32 → t.auditOut.length < 8 →
     exec (.amark g 1 ra rl) s = .next (setThread s s.cur { t with auditOut := t.auditOut ++ [(sreg t ra, n)] })) ∧
   (1 ≤ n → n ≤ 2 ^ 32 → t.auditIn.length < 8 → t.sampled = false →
     exec (.amark g 0 ra rl) s = .next (setThread s s.cur { t with auditIn := t.auditIn ++ [(sreg t ra, n)] })) ∧
   (kk = 2 ∨ n = 0 ∨ 2 ^ 32 < n ∨ (kk = 0 ∧ 8 ≤ t.auditIn.length) ∨ (kk = 1 ∧ 8 ≤ t.auditOut.length) →
     exec (.amark g kk ra rl) s = .next (setThread s s.cur { t with auditNone := true })))

/-- In a job with an Eddy window that holds the index and with fewer than eight operations queued at the tap, ECAP, EROW
(a counted one into no row that a V operation still has to read), EBOARD in either mode and EALIGHT with a deposit or
without each issue a request and queue one operation for the slot that R90 gives, or in any mode for the window, to be
performed from 3 cycles after issue; EWHEN puts in flight, after 2 cycles, the number of cycles, 3 or more and below
2,563, after which that slot is at the core's tap. Each of these forms takes the Eddy fault NOJOB in a job without a
window, and WINDOW for an index at or above COUNT, EBOARD in any mode for a COUNT of 0. No slot of the ring and no
register changes at issue. (R90, R91, R97, R98, R316) -/
def Obligations.EddySlots : Prop :=
  ∀ (g : Guard) (rd rw ra : BitVec 5) (f cop : BitVec 3) (tl : BitVec 4) (e : BitVec 6) (ord : BitVec 2) (atr : Bool)
    (off : BitVec 10) (s : State) (t : Thread) (k : Nat) (l : Landing) (p : Place),
  Performs s t g →
  let taps := (coreOf s s.cur).taps
  let queues (i : Instr) (cls : Nat) (dest : Dest) (l : Landing) (P : TapOp → Prop) : Prop :=
    ∃ s' q o, exec i s = .next s' ∧ Issued s s' t q ∧ q.cls = cls ∧ q.dest = dest ∧ q.ord = ord.toNat ∧
      q.due = (if l.off = 0 then none else some (t.x.dc + l.off)) ∧ (coreOf s' s.cur).taps = taps ++ [o] ∧
      o.req = t.nextReq ∧ o.slot = k ∧ o.job = t.regs.eddyJob.toNat % 2 ^ 16 ∧ o.eligible = s.now + 3 ∧ P o
  (eddyWindow t (sreg t rw) = .ok k → taps.length < 8 → queueLanding t atr off = .ok l →
    (Lands t l 1 [.sreg rd.toNat] →
      queues (.ecap g rd rw ra f cop ord atr off) 1 (.sreg rd.toNat) l (fun o => o.kind = 0 ∧ o.variant = cop.toNat ∧
        o.field = f.toNat ∧ o.a = sreg t ra ∧ (cop = 5 → o.b = sreg t (ra ||| 1))) ∧
      queues (.eboard g rd rw false tl e ord atr off) 1 (.sreg rd.toNat) l (fun o => o.kind = 2 ∧ o.any = false ∧
        o.w = sreg t rw ∧ o.payload = (trow t tl.toNat e.toNat).setWidth 512)) ∧
    (Lands t l 1 [.trow (64 * tl.toNat + e.toNat)] →
      (l.off = 0 → tileRead t (.trow (64 * tl.toNat + e.toNat)) (t.x.dc + 7) = false) →
      queues (.erow g tl e rw ord atr off) 1 (.trow (64 * tl.toNat + e.toNat)) l (fun o => o.kind = 1)) ∧
    (outstanding t 2 < 63 →
      queues (.ealight g rw false ra ord) 2 .none ⟨0, false⟩ (fun o => o.kind = 3 ∧ o.deposit = none) ∧
      (let a := sreg t ra &&& ~~~(63#64)
       threadPlace s t .mem 0 .write a = .ok p → p.dev = none → inSram p.pa = true → xOverlaps s s.cur t p.pa 64 = false →
       queues (.ealight g rw true ra ord) 2 .none ⟨0, false⟩ (fun o => o.kind = 3 ∧ o.deposit = some (a, p.pa, p.unchk))))) ∧
  (eddyWindow t 0 = .ok k → taps.length < 8 → queueLanding t atr off = .ok l → Lands t l 1 [.sreg rd.toNat] →
    queues (.eboard g rd rw true tl e ord atr off) 1 (.sreg rd.toNat) l (fun o => o.kind = 2 ∧ o.any = true ∧
      o.base = eddyBase t ∧ o.count = eddyCount t ∧ o.payload = (trow t tl.toNat e.toNat).setWidth 512)) ∧
  (eddyWindow t (sreg t rw) = .ok k → Fits t (.sreg rd.toNat) 2 →
    ∃ d, 3 ≤ d ∧ d < 2563 ∧ (2 * ringPos s.cur + 2560 - (s.now + d) % 2560) % 2560 = k ∧
      exec (.ewhen g rd rw) s = .next (withScalar s t rd 2 (BitVec.ofNat 64 d))) ∧
  (let faults (i : Instr) (cause : Nat) : Prop :=
     ∃ s' t' x, exec i s = .next s' ∧ threadOf s' s.cur = some t' ∧ t'.phase = .saving true s.now ∧
       t'.posFault = some { cls := 0x0B, cause := cause, qw6 := x, cycle := s.now } ∧ t'.r = t.r ∧ s'.eddy = s.eddy
   let indexed : List Instr := [.ecap g rd rw ra f cop ord atr off, .erow g tl e rw ord atr off,
     .eboard g rd rw false tl e ord atr off, .ealight g rw false ra ord, .ealight g rw true ra ord, .ewhen g rd rw]
   t.handler = false → t.replay = false →
     (wf 15 0 t.regs.eddyJob = 0 → ∀ i ∈ indexed ++ [.eboard g rd rw true tl e ord atr off], faults i 1) ∧
     (wf 15 0 t.regs.eddyJob ≠ 0 → eddyCount t ≤ (sreg t rw).toNat → ∀ i ∈ indexed, faults i 2) ∧
     (wf 15 0 t.regs.eddyJob ≠ 0 → eddyCount t = 0 → faults (.eboard g rd rw true tl e ord atr off) 2))

/-- With no Tide fault pending: TBOARD of an idle or done subscription with a layer, range and stride in their limits arms
it, to be registered 64 cycles later; of an armed, boarding or waiting one it takes the Tide fault BUSY, and with an
operand out of its limits ARG. TSTAT, and TWAIT with as many tiles resident as it asks for or on a subscription that
is DONE, IDLE or ABSENT, put the whole status word in flight after 1 cycle and clear the sticky flags; TWAIT short of
tiles on an armed subscription stalls; TLEAVE stalls while an MMA.TB is under way, and else leaves the subscription
idle with an empty buffer, and in a handler that of the trapped thread in its saved context and its frame too (log
entries 15 and 97: where the frame holds it, and that a handler has a subscription of its own, are the model's).
(R112, R113, R114, R317) -/
def Obligations.TideSlots : Prop :=
  ∀ (g : Guard) (rl rf re rs rd : BitVec 5) (d : BitVec 2) (n : BitVec 4) (s : State) (t : Thread),
  Performs s t g → t.tide.pending = [] →
  let status : Nat := t.tide.next % 2 ^ 24 * 2 ^ 40 + t.tide.layer * 2 ^ 24 + t.tide.buf.length * 2 ^ 20 +
    b2n t.tide.absent * 2 ^ 10 + b2n t.tide.misst * 2 ^ 9 + b2n t.tide.missl * 2 ^ 8 + t.tide.state
  let fed : Bool := match t.x.xop with
    | some x => (match x.i with
      | .mmaTb .. => true
      | _ => false)
    | none => false
  let taken (i : Instr) : Prop :=
    ∃ t', exec i s = .next (setThread s s.cur t') ∧
      t'.x.inflight = t.x.inflight ++ [⟨.sreg rd.toNat, t.x.dc + 1, BitVec.ofNat 2048 (status % 2 ^ 64), fullMask, 0, 0⟩] ∧
      t'.tide = { t.tide with absent := false, misst := false, missl := false } ∧ SameRegisters t t' ∧ t'.reqs = t.reqs
  ((t.tide.state = 0 ∨ t.tide.state = 4) → (sreg t rl).toNat ≤ 65535 → (sreg t rf).toNat ≤ (sreg t re).toNat →
    (sreg t re).toNat < 2 ^ 24 → 1 ≤ (sreg t rs).toNat → (sreg t rs).toNat ≤ 4096 →
    exec (.tboard g rl rf re rs d) s = .next (setThread s s.cur { t with tide := { t.tide with
      state := 1, layer := (sreg t rl).toNat, first := (sreg t rf).toNat, last := (sreg t re).toNat,
      stride := (sreg t rs).toNat, rate := d.toNat, next := (sreg t rf).toNat, seenLap := none, seen := none,
      reg := 2 + (s.now + 64) } })) ∧
  (t.handler = false → t.replay = false →
    let faults (cause : Nat) : Prop :=
      ∃ s' t' x y, exec (.tboard g rl rf re rs d) s = .next s' ∧ threadOf s' s.cur = some t' ∧
        t'.phase = .saving true s.now ∧ t'.r = t.r ∧
        t'.posFault = some { cls := 0x0C, cause := cause, qw6 := x, qw7 := y, cycle := s.now }
    (t.tide.state = 1 ∨ t.tide.state = 2 ∨ t.tide.state = 3 → faults 3) ∧
    (t.tide.state = 0 ∨ t.tide.state = 4 →
      65535 < (sreg t rl).toNat ∨ (sreg t re).toNat < (sreg t rf).toNat ∨ 2 ^ 24 ≤ (sreg t re).toNat ∨
        (sreg t rs).toNat = 0 ∨ 4096 < (sreg t rs).toNat → faults 4)) ∧
  (Fits t (.sreg rd.toNat) 1 →
    taken (.tstat g rd) ∧
    (n.toNat ≤ t.tide.buf.length ∨ t.tide.state = 4 ∨ t.tide.state = 0 ∨ t.tide.absent = true → taken (.twait g rd n))) ∧
  (t.tide.buf.length < n.toNat → t.tide.state = 1 ∨ t.tide.state = 2 ∨ t.tide.state = 3 → t.tide.absent = false →
    ∃ t', exec (.twait g rd n) s = .next (setThread s s.cur t') ∧ t'.phase = .stalled ∧ t'.tide = t.tide ∧
      SameRegisters t t' ∧ t'.x = t.x) ∧
  (fed = false →
    let left (d : TideSub) : TideSub := { d with state := 0, buf := [], taking := [], restore := [], seen := none,
                                                 seenLap := none, reg := 0, kept := 0 }
    (t.handler = false → exec (.tleave g) s = .next (setThread s s.cur { t with tide := left t.tide })) ∧
    (t.handler = true → mget t.frame s.saved = none →
      exec (.tleave g) s = .next (setThread s s.cur { t with tide := left t.tide })) ∧
    (t.handler = true → ∀ sv, mget t.frame s.saved = some sv →
      let sv' : Saved := { sv with thread := { sv.thread with tide := left sv.thread.tide } }
      exec (.tleave g) s = .next (setThread (storeUnits { s with saved := mput t.frame sv' s.saved }
        (framePa s t.frame + frameRest + restTide) (tideBytes sv'.thread.tide)) s.cur { t with tide := left t.tide }))) ∧
  (fed = true →
    ∃ t', exec (.tleave g) s = .next (setThread s s.cur t') ∧ t'.phase = .stalled ∧ t'.tide = t.tide ∧ SameRegisters t t' ∧
      t'.x = t.x)

/-- In a job that may use the fabric, with a fabric channel of fewer than 16 operations, FST and FLD of at most 2^24 bytes
and VATOM inside the window, on a leaf with RWIN or on one that no walk reaches yet, each queue one operation with the
next number, which TLQF and the open batch take, and count SCNT up; FATOM on SRAM issues one counted request with what
it sends latched. No register and no byte of memory changes at issue. That a leaf no walk has reached yet lets the
operation issue is the model's choice (log entry 84). (R318, R319, R320, R309) -/
def Obligations.FabricSlots : Prop :=
  ∀ (g : Guard) (rdst rsrc rlen rctr rd ra rb : BitVec 5) (ctr h ft : Bool) (tl : BitVec 4) (e : BitVec 6) (aop : BitVec 4)
    (w rv : Bool) (ord : BitVec 2) (atr : Bool) (off : BitVec 10) (s : State) (t : Thread) (ctx : Nat) (p : Place) (l : Landing),
  Performs s t g → fabricJob t = true →
  let queues (i : Instr) (P : FabOp → Prop) : Prop :=
    ∃ s' t' o, exec i s = .next s' ∧ threadOf s' s.cur = some t' ∧
      engineOf s' ctx = { engineOf s ctx with last := (engineOf s ctx).last + 1, ops := (engineOf s ctx).ops ++ [o] } ∧
      o.no = (engineOf s ctx).last + 1 ∧ o.off = 0 ∧ o.waiting = [] ∧ o.issuer.core = s.cur ∧ o.issuer.tid = t.det.tid ∧ P o ∧
      t'.tlqf = some o.no ∧ mget ctx t'.openB = some o.no ∧ t'.det.scnt = (t.det.scnt + 1) % 2 ^ 32 ∧
      SameRegisters t t' ∧ t'.reqs = t.reqs ∧ t'.x = t.x ∧ s'.mem = s.mem ∧
      s'.agenda = (if s.agenda.any (fun e => e.ev == .copyRecordProcess ctx) then s.agenda
        else s.agenda ++ [⟨s.now + 1, .copyRecordProcess ctx⟩])
  (t.fab = some ctx → (engineOf s ctx).ops.length < 16 →
    ((sreg t rlen).toNat ≤ 2 ^ 24 →
      queues (.fst g rdst rsrc rlen rctr ctr) (fun o => o.kind = 0 ∧ o.dst = sreg t rdst ∧ o.src = sreg t rsrc ∧
        o.len = (sreg t rlen).toNat ∧ o.ctr = (if ctr then some (sreg t rctr) else none)) ∧
      queues (.fld g rdst rsrc rlen rctr ctr) (fun o => o.kind = 1 ∧ o.dst = sreg t rdst ∧ o.src = sreg t rsrc ∧
        o.len = (sreg t rlen).toNat ∧ o.ctr = (if ctr then some (sreg t rctr) else none))) ∧
    (let a := sreg t ra &&& ~~~(127#64)
     (∀ x, leafNow s t a = some x → x.rwin = true) →
      wf 55 16 t.regs.rwinBase * 65536 ≤ a.toNat →
      a.toNat < (wf 55 16 t.regs.rwinBase + wf 39 16 t.regs.rwinSize) * 65536 →
      queues (.vatom g ra tl e h ft) (fun o => o.kind = 2 ∧ o.dst = a ∧ o.len = 128 ∧ o.ft = ft ∧
        o.unseen = (leafNow s t a).isNone ∧ o.data = (if h then trow t tl.toNat e.toNat >>> 1024 else trow t tl.toNat e.toNat)))) ∧
  (let n := if w then 8 else 4
   let a := sreg t ra &&& ~~~(BitVec.ofNat 64 (n - 1))
   threadPlace s t .fabric 8 .atomic a = .ok p → inSram p.pa = true → queueLanding t atr off = .ok l →
   let dest : Dest := if rv then .sreg rd.toNat else .none
   let landing : Landing := if rv then l else ⟨0, false⟩
   Lands t landing (if rv then 1 else 2) [dest] →
   ∃ s' q part, exec (.fatom g rd ra rb aop w rv ord atr off) s = .next s' ∧ Issued s s' t q ∧ q.kind = .fatom ∧
     q.cls = (if rv then 1 else 2) ∧ q.dest = dest ∧ q.due = (if landing.off = 0 then none else some (t.x.dc + landing.off)) ∧
     q.ord = ord.toNat ∧ q.scope = 5 ∧ q.parts = [part] ∧ part.ga = a ∧ part.pa = p.pa ∧ part.done = false ∧
     bits 0 64 part.data.toNat = (sreg t rb).toNat ∧ bits 128 4 part.data.toNat = aop.toNat ∧
     bits 132 1 part.data.toNat = b2n w ∧ bits 133 1 part.data.toNat = b2n rv)

/-- With the 64 bytes at the address read at issue: ENQT of a well-formed record, whose placement's die has room and live
cores and whose barrier, if it names one, lies on a live slice of this device, joins a new entry, in transit, to that
die's list and issues the release marker that will send it; COLL of a well-formed descriptor of a group the thread is
in queues it on its context with the next number, which is in flight to s[rd] after 2 cycles, and counts SCNT up.
(R315, R321, R154) -/
def Obligations.EnqueueAndCollective : Prop :=
  ∀ (g : Guard) (ra rd : BitVec 5) (s s1 : State) (t t1 : Thread) (ws : List Word) (d badr : Nat)
    (home : Option Nat),
  Performs s t g → readBlock s t (sreg t ra &&& ~~~(63#64)) 64 = .ok (ws, s1) → threadOf s1 s1.cur = some t1 →
  let a := sreg t ra &&& ~~~(63#64)
  (recordOk s1 ws = true →
    (recKind ws ≠ 3 ∧ d = recDie ws ∧ home = none) ∨
      (recKind ws = 3 ∧ ∃ p, recordPlace s1 t1 (recWord ws 4) = .ok p ∧ (d, home) = nearPlace s1.cur p) →
    (recBar ws = none ∧ badr = 0) ∨
      (∃ b p, recBar ws = some b ∧ recordPlace s1 t1 b = .ok p ∧ p.dev = none ∧ inSram p.pa = true ∧
        coreLive s1 (p.pa / 0x800000) = true ∧ badr = p.pa) →
    (∀ c, home = some c → coreLive s1 c = true) → recCores s1 d ws ≠ [] → schedFull (dieOf s1 d) = false → outstanding t1 0 < 63 →
    ∃ s' t' q e, exec (.enqt g ra) s = .next s' ∧ threadOf s' s1.cur = some t' ∧ t'.reqs = t1.reqs ++ [q] ∧
      q.kind = .enqt d e.id ∧ q.ord = 3 ∧ q.scope = 5 ∧ q.due = none ∧
      (dieOf s' d).entries = (dieOf s1 d).entries ++ [e] ∧ e.id = s1.stamp ∧ e.state = 0 ∧
      e.record = ws ++ [a] ∧ e.resume = none ∧ e.job = t1.job ∧ e.prio = recPrio ws ∧ e.near = home ∧ e.badr = badr ∧
      SameRegisters t1 t' ∧ t'.x = t1.x ∧ s'.mem = s1.mem ∧
      s'.agenda = s1.agenda ++ [⟨s1.now + 1, .requestDataArrival s1.cur t1.nextReq 0⟩]) ∧
  (fabricJob t = true → collOk ws = true → (membership t1 (collDesc ws).group).isSome = true → Fits t1 (.sreg rd.toNat) 2 →
    let ctx := 0x4000 + (collDesc ws).ctx
    ∃ s' t' o, exec (.coll g rd ra) s = .next s' ∧ threadOf s' s1.cur = some t' ∧
      (collOf s' ctx).ops = (collOf s1 ctx).ops ++ [o] ∧ (collOf s' ctx).last = (collOf s1 ctx).last + 1 ∧
      o.no = (collOf s1 ctx).last + 1 ∧ o.desc = ws ∧ o.addr = a ∧ o.stage = 0 ∧
      t'.x.inflight = t1.x.inflight ++ [⟨.sreg rd.toNat, t1.x.dc + 2, BitVec.ofNat 2048 (o.no % 2 ^ 64), fullMask, 0, 0⟩] ∧
      t'.det.scnt = (t1.det.scnt + 1) % 2 ^ 32 ∧ SameRegisters t1 t' ∧ t'.reqs = t1.reqs ∧ s'.mem = s1.mem)

/-- A privileged thread runs them: TLBI with fewer than eight not yet in effect starts one that covers what its form
names; TLBI.SYNC completes once all of the thread's are done; TSPEED sets the requested speed; CRW of a job-wide
register puts the write in the shadow; TRET in a handler ends it. In a thread without privilege each takes the
illegal-slot trap, of kind 6 and for TSPEED 7, whatever its guard. That CRW checks its privilege whatever its guard is
the model's reading (log entry 45). (R302, R325, R328, R329, R115, R317) -/
def Obligations.PrivilegedSlots : Prop :=
  ∀ (g : Guard) (form : BitVec 2) (rs ra : BitVec 5) (spd : BitVec 3) (cr : BitVec 12) (s : State) (t : Thread),
  threadOf s s.cur = some t →
  (privileged t = true → guardTrue t g = true →
    (t.tlbis.length < 8 → ∃ s' t' b, exec (.tlbi g form rs ra) s = .next s' ∧ threadOf s' s.cur = some t' ∧
      s'.tlbis = s.tlbis ++ [b] ∧ b.id = s.stamp ∧ b.form = form.toNat ∧
      b.asid = (if form = 3 then 0 else (sreg t rs).toNat % 2 ^ 16) ∧ b.va = (if form = 1 then sreg t ra else 0) ∧
      b.effective = false ∧ t'.tlbis = t.tlbis ++ [s.stamp] ∧ t'.tlbiOps = t.tlbiOps ++ [s.stamp] ∧
      t'.det.scnt = (t.det.scnt + 1) % 2 ^ 32 ∧ SameRegisters t t' ∧ t'.x = t.x ∧ t'.reqs = t.reqs ∧ s'.mem = s.mem) ∧
    ((∀ k ∈ t.tlbiOps, tlbiDone s k = true) → ∃ s' t', exec (.tlbiSync g) s = .next s' ∧ threadOf s' s.cur = some t' ∧
      t'.tlbiOps = [] ∧ SameRegisters t t' ∧ t'.x = t.x ∧ t'.reqs = t.reqs ∧ t'.phase = t.phase ∧ s'.mem = s.mem) ∧
    ((∃ k ∈ t.tlbiOps, tlbiDone s k = false) → ∃ t', exec (.tlbiSync g) s = .next (setThread s s.cur t') ∧
      t'.phase = .stalled ∧ t'.tlbiOps = t.tlbiOps ∧ SameRegisters t t' ∧ t'.x = t.x) ∧
    exec (.tspeed g spd) s = .next { s with weir := { s.weir with set := spd.toNat } } ∧
    ((crJobWord cr.toNat).isSome = true → cr ≠ 3 → exec (.crw g rs cr) s = .next (setThread s s.cur
      { t with x := { t.x with ctl := t.x.ctl ++ [⟨cr.toNat, sreg t rs, t.x.dc + 4⟩] } })) ∧
    (t.handler = true → (∀ q ∈ t.reqs, q.due.isNone = true → q.landed = true → q.fault.isNone = true) →
      exec (.tret g) s = .next (setThread s s.cur { t with phase := .ending, tret := true, q := { t.q with moved := true } }))) ∧
  (privileged t = false → t.replay = false →
    let traps (i : Instr) (kind : Nat) : Prop :=
      ∃ s' t', exec i s = .next s' ∧ threadOf s' s.cur = some t' ∧ t'.phase = .saving true s.now ∧
        t'.posFault = some { cls := 2, cause := 0, qw6 := BitVec.ofNat 64 kind, cycle := s.now } ∧ t'.q = t.q ∧ t'.r = t.r ∧
        s'.tlbis = s.tlbis ∧ s'.weir = s.weir ∧ s'.mem = s.mem
    traps (.tlbi g form rs ra) 6 ∧ traps (.tlbiSync g) 6 ∧ traps (.tspeed g spd) 7 ∧ traps (.tret g) 6 ∧
    ((crJobWord cr.toNat).isSome = true → traps (.crw g rs cr) 6))

/-- TIMED_LANDING writes the loaded value of a request due in the cycle; WATCH_TIMEOUT makes an armed entry with no time
left time out; FREEZE_RELEASE presents the frozen bundle again, for a late landing only when its data is there;
FREEZE_LIMIT raises the landing timeout with the freeze code; STALLED_BUNDLE_ISSUE presents the bundle again;
SAVE_LANDING_TIMEOUT abandons the landings without data and notes their cycles; SEGMENT_EXPANSION_COMPLETE is the step
of the expansion that is due: a line is requested, arrives, or all have arrived and the parsed segment is in the idle
half; THREAD_START gives a picked thread the starting state of R151, its first bundle due 342 cycles on, and then
frees its entry. (R40, R42, R151, R165, R263, R397) -/
def Obligations.CoreEvents : Prop :=
    (∀ (c : Nat) (s : State) (t : Thread) (q : Req) (p : Part) (w : Nat) (sg : Bool) (r : Fin 32), threadOf s c = some t → OnlyReq t q →
   q.kind = .load w sg → (w = 1 ∨ w = 2 ∨ w = 4 ∨ w = 8) → q.dest = .sreg r.val → q.due = some t.x.dc → q.landed = false →
   q.fault = none → q.parts = [p] → p.here = true → (∀ x ∈ t.reqs, x = q ∨ x.due = none) →
   ∃ s' t', exec (.timedLanding c) s = .next s' ∧ threadOf s' c = some t' ∧ s'.mem = s.mem ∧
    (let v := p.data.toNat % 2 ^ (8 * w)
     t'.r.s[r] = BitVec.ofInt 64 (if sg = true ∧ 2 ^ (8 * w - 1) ≤ v then (v : Int) - 2 ^ (8 * w) else v)) ∧
    (∀ k : Fin 32, k ≠ r → t'.r.s[k] = t.r.s[k]) ∧ t'.r.p = t.r.p ∧ t'.r.tiles = t.r.tiles ∧ t'.q = t.q ∧ t'.c = t.c ∧
    t'.reqs = t.reqs.filter (fun x => decide (x.id ≠ q.id))) ∧
  (∀ (c k : Nat) (s : State) (t : Thread) (w : Watch), threadOf s c = some t → t.watch[k]? = some w → w.state = 1 → w.left = 0 →
   ∃ s', exec (.watchTimeout c k) s = .next s' ∧ threadOf s' c = some { t with watch := t.watch.set k { w with state := 3 } } ∧ s'.mem = s.mem) ∧
  (∀ (c code n : Nat) (s : State) (t : Thread), threadOf s c = some t → t.phase = .frozen code n →
   let beat : List Todo := if xBehind t then [.ev (.matrixBeat c)] else []
   (code ≠ 1 → code ≠ 7 →
     exec (.freezeRelease c) s = .next { s with cur := c, todo := beat ++ .issue c :: .fin c :: s.todo }) ∧
   (code = 7 → exec (.freezeRelease c) s =
     .next { s with cur := c, todo := if xBehind t then beat ++ .fin c :: s.todo else .issue c :: .fin c :: s.todo }) ∧
   (code = 1 → landingLate t = true → exec (.freezeRelease c) s = .next { s with cur := c, todo := beat ++ .fin c :: s.todo }) ∧
   (code = 1 → landingLate t = false →
     ∃ s' r, exec (.freezeRelease c) s = .next s' ∧ s'.todo = .ev (.timedLanding c) :: r ∧ s'.mem = s.mem)) ∧
  (∀ (c code n : Nat) (s : State) (t : Thread), threadOf s c = some t → t.phase = .frozen code n → code ≠ 1 →
   t.handler = false → t.replay = false →
   ∃ s' t', exec (.freezeLimit c) s = .next s' ∧ threadOf s' c = some t' ∧ t'.phase = .saving true s.now ∧
    t'.posFault = some { cls := 0x0A, cause := 0, qw6 := BitVec.ofNat 64 code, cycle := s.now } ∧ t'.r = t.r ∧ t'.q = t.q ∧ s'.mem = s.mem) ∧
  (∀ (c : Nat) (s : State) (t : Thread), threadOf s c = some t → t.phase = .stalled →
   exec (.stalledBundleIssue c) s = .next { s with cur := c, todo := .issue c :: s.todo }) ∧
  (∀ (c : Nat) (s : State) (t : Thread), threadOf s c = some t →
   ∃ t', exec (.saveLandingTimeout c) s = .next (setThread s c t') ∧ t'.r = t.r ∧ t'.q = t.q ∧ t'.phase = t.phase ∧
    (∀ q, q ∈ t'.reqs ↔ q ∈ t.reqs ∧ (q.due = none ∨ arrived q = true)) ∧
    (∀ d, d ∈ t'.timeouts ↔ d ∈ t.timeouts ∨ ∃ q ∈ t.reqs, q.due = some d ∧ arrived q = false)) ∧
  (∀ (c : Nat) (s : State) (t : Thread) (e : Expansion), threadOf s c = some t → t.q.expanding = some e →
   (e.due = 0 → exec (.segmentExpansionComplete c) s = .next (requestLine s c t e s.now)) ∧
   (e.due ≠ 0 → e.due ≠ s.now → exec (.segmentExpansionComplete c) s = .next s) ∧
   (e.due ≠ 0 → e.due = s.now → e.bytes ≠ [] → segmentLines e.bytes ≤ e.bytes.length / 64 →
     exec (.segmentExpansionComplete c) s = .next (setThread s c
      { t with q := { t.q with expanding := none, next := some (parseSegment e.target e.bytes) } })) ∧
   (∀ (bs : List Byte) (s1 : State), e.due ≠ 0 → e.due = s.now → e.bytes.length / 64 < segmentLines e.bytes →
     let va := e.target + BitVec.ofNat 64 e.bytes.length
     turnAll s (lineSpan s c t va) e.bank.refused = .now →
     readLine (takeTurns (setExpansion s c (some { e with bank := ⟨0, []⟩ })) (lineSpan s c t va)) c t va = (.bytes bs, s1) →
     exec (.segmentExpansionComplete c) s = .next (nextLine s1 c t
      { e with ctlAt := if e.bytes.isEmpty then s1.now else e.ctlAt, bytes := e.bytes ++ bs }))) ∧
  (∀ (c : Nat) (s : State) (t : Thread) (e : Entry), threadOf s c = some t →
   (dieOf s (coreDie c)).entries.find? (fun e => e.state == 4 && e.core == c && e.resume.isNone) = some e →
   (t.phase ≠ .restoring → exec (.threadStart c) s = .next (dropEntry s (coreDie c) e.id)) ∧
   (t.phase = .restoring → e.replay = none →
   ∃ s' t', exec (.threadStart c) s = .next s' ∧ threadOf s' c = some t' ∧ t'.phase = .running ∧ t'.handler = false ∧
    (∀ n : Fin 32, t'.r.s[n] = if 1 ≤ n.val ∧ n.val ≤ 3 then recWord t.record n.val else if n.val = 4 then BitVec.ofNat 64 c
      else if n.val = 5 then BitVec.ofNat 64 t.det.tid else 0) ∧
    t'.r.p = 0 ∧ t'.r.tiles = [] ∧ t'.r.accs = [] ∧ t'.c = CtlRegs.reset ∧ t'.q.idx = 0 ∧
    t'.q.seg = recWord t.record 0 &&& 0x00FFFFFFFFFFFFC0 ∧ t'.q.loops = [] ∧ t'.reqs = [] ∧ t'.frame = t.frame ∧
    t'.regs = (jobEntry s t.job).2 ∧ t'.det.tid = t.det.tid ∧ t'.q.expanding = some ⟨t'.q.seg, 0, 0, [], ⟨0, []⟩⟩ ∧ t'.x.banks = 342 ∧
    (⟨s.now + 342, .threadStart c⟩ : Due) ∈ s'.agenda ∧ s'.mem = s.mem))

/-- PREEMPTION_TAKEN begins a save and KILL_TAKEN an end; SCHED_PREEMPT and SCHED_KILL request them; SAVE_COMPLETE frees
the core and leaves the context saved with its resume entry, ready unless a fault is served, its scalar registers in
the frame; TRAP_ENTRY logs the entry and either starts the handler of TRAPVEC with s1 and s2 as R335 says or leaves
the thread held; RESTORE_COMPLETE reloads the registers and the position from the frame, or keeps the saved ones where
the frame answers with an error, and resumes at the saved bundle; END_COMPLETE frees the core, the TID and the frame;
FQ_ACT resumes, kills, restarts or abandons. The layout of the frame, what a restore keeps where the frame answers
with an error, that HOLD marks a thread held at the trap, and what FQ KILL leaves of its TID are the model's choices
(log entries 14, 15, 26 and 57). (R161, R162, R173, R176, R335, R337) -/
def Obligations.SavesAndTraps : Prop :=
    (∀ (c : Nat) (s : State) (t : Thread), threadOf s c = some t → t.handler = false →
   exec (.preemptionTaken c) s = .next (setThread s c { t with preempt := false, phase := .saving false s.now, posFault := none })) ∧
  (∀ (c : Nat) (s : State) (t : Thread), threadOf s c = some t →
   exec (.killTaken c) s = .next (setThread s c { t with phase := .ending, preempt := false, killBy := some (s.now + 65536) })) ∧
  (∀ (d c : Nat) (s : State) (t : Thread), threadOf s c = some t → coreDie c = d → c < 2048 →
   exec (.schedPreempt d c) s = .next (setThread s c { t with preempt := true }) ∧
   exec (.schedKill d c) s = .next (setThread s c { t with kill := true })) ∧
  (∀ (c : Nat) (s : State) (t : Thread) (f : Bool), threadOf s c = some t → t.phase = .writing f → Memory.wf s.mem = true →
   ∃ s' sv k, exec (.saveComplete c) s = .next s' ∧ threadOf s' c = none ∧ mget t.frame s'.saved = some sv ∧
    sv.thread.r = t.r ∧ sv.thread.q = t.q ∧ sv.thread.c = t.c ∧ sv.thread.det = { t.det with scnt := (t.det.scnt + 1) % 2 ^ 32 } ∧
    sv.held = false ∧ sv.entry = some k ∧ sv.savedAt = s.now ∧
    (coreOf s' c).trapFrame = (if f then some t.frame else none) ∧
    (∃ e ∈ (dieOf s' (coreDie c)).entries, e.id = k ∧ e.resume = some t.frame ∧ e.core = c ∧ e.state = (if f then 2 else 3)) ∧
    (f = true → s'.todo.head? = some (.ev (.trapEntry c))) ∧
    (∀ x y, targetOf s (framePa s t.frame) = .sram x y → ∀ n : Fin 32,
      memNat s'.mem (framePa s t.frame + 8 * n.val) 8 = (t.r.s[n]).toNat)) ∧
  (∀ (c : Nat) (s : State) (sv : Saved) (f : FaultRec), (coreOf s c).trapFrame = some sv.thread.frame →
   mget sv.thread.frame s.saved = some sv → sv.thread.posFault = some f → threadOf s c = none →
   let t := sv.thread
   ∃ s', exec (.trapEntry c) s = .next s' ∧
    (fqRoom (dieOf s (coreDie c)) = true → (dieOf s (coreDie c)).fqHeld = [] →
      (dieOf s' (coreDie c)).fqHead = ((dieOf s (coreDie c)).fqHead + 1) % 2 ^ 32) ∧
    (t.regs.trapvec.getLsbD 0 = true → ∃ h n, threadOf s' c = some h ∧ h.handler = true ∧ h.trapped = some f ∧
      h.phase = .restoring ∧ h.frame = t.frame ∧ h.q.seg = t.regs.trapvec &&& 0x00FFFFFFFFFFFFC0 ∧ h.q.idx = 0 ∧
      h.r.s[1] = BitVec.ofNat 64 (framePa s t.frame) ∧ h.r.s[2] = entryQW0 f.cls f.cause true true f.req c f.ctx ∧
      mget t.frame s'.saved = some { sv with handling := true } ∧ s'.agenda = s.agenda ++ [⟨s.now + (8 + n), .threadStart c⟩]) ∧
    (t.regs.trapvec.getLsbD 0 = false → threadOf s' c = none ∧ (coreOf s' c).trapFrame = none ∧
      mget t.frame s'.saved = some { sv with held := true })) ∧
  (∀ (c : Nat) (s : State) (t : Thread), threadOf s c = some t → t.phase = .restoring → t.posFault = none → t.reqs = [] →
   let regs := framePart s c t.frame 0 256
   let ctl := framePart regs.2 c t.frame frameCtl 256
   ∃ s' t', exec (.restoreComplete c) s = .next s' ∧ threadOf s' c = some t' ∧
    t'.phase = (if t.attn.isSome then .frozen 7 0 else .running) ∧ t'.spurious = true ∧ t'.q.pwrite = [] ∧ t'.q.buf.count = 0 ∧
    t'.q.next = none ∧ t'.q.expanding = some ⟨t'.q.seg, 0, 0, [], ⟨0, []⟩⟩ ∧ t'.frame = t.frame ∧ t'.job = t.job ∧ t'.reqs = [] ∧
    (∀ n : Fin 32, t'.r.s[n] = match regs.1 with
      | some bs => byteWord bs n.val
      | none => t.r.s[n]) ∧
    (∀ cs, ctl.1 = some cs → t'.r.p = (byteWord cs 0).setWidth 8 ∧ t'.q.seg = byteWord cs 1 ∧ t'.q.idx = (byteWord cs 2).toNat ∧
      t'.c.fmt = byteWord cs 3 ∧ t'.c.nbv = byteWord cs 5 ∧ t'.c.xmask = byteWord cs 6 ∧ t'.c.xscl = byteWord cs 7) ∧
    (ctl.1 = none → t'.r.p = t.r.p ∧ t'.q.seg = t.q.seg ∧ t'.q.idx = t.q.idx ∧ t'.c = t.c) ∧
    (coreOf s' c).trapFrame = none ∧ (∀ e ∈ (dieOf s' (coreDie c)).entries, e.resume ≠ some t.frame)) ∧
  (∀ (c : Nat) (s : State) (t : Thread), threadOf s c = some t → t.phase = .ending → endDone s c t = true → t.handler = false →
   t.groups = [] → t.sampled = false → t.replay = false → t.tide.pending = [] → t.timeouts = [] →
   t.overruns = [] →
   ∃ s', exec (.endComplete c) s = .next s' ∧ threadOf s' c = none ∧
    mget (t.job * 2 ^ 15 + t.det.tid) s'.finals = some ((t.det.scnt + 1) % 2 ^ 32) ∧
    (t.job * 2 ^ 15 + t.det.tid) ∉ s'.liveTids ∧ (∀ x ∈ s'.liveTids, x ∈ s.liveTids) ∧
    (t.frame / 4096 < 4 → t.frame % 4096 ∉ (dieOf s' (t.frame / 4096)).usedFrames) ∧ s'.mem = s.mem) ∧
  (∀ (f k : Nat) (s : State) (sv : Saved), mget f s.saved = some sv → sv.held = true → sv.entry = some k → f / 4096 < 4 →
   ∃ s', exec (.fqResume f) s = .next s' ∧ mget f s'.saved = some { sv with held := false } ∧
    (∀ e ∈ (dieOf s (f / 4096)).entries, e.id = k → e.resume = some f →
      { e with state := 3, readyAt := sv.savedAt } ∈ (dieOf s' (f / 4096)).entries) ∧ s'.mem = s.mem ∧
    s'.agenda = s.agenda ++ [⟨s.now + 65536, .priorityAging (f / 4096) k⟩]) ∧
  (∀ (f k : Nat) (s : State) (sv : Saved), mget f s.saved = some sv → sv.held = true → sv.entry = some k →
   sv.thread.sampled = false → sv.thread.groups = [] → f / 4096 < 4 →
   ∃ s', exec (.fqKill f) s = .next s' ∧ s'.saved = mdel f s.saved ∧
    mget (sv.thread.job * 2 ^ 15 + sv.thread.det.tid) s'.finals = some ((sv.thread.det.scnt + 1) % 2 ^ 32) ∧
    (sv.thread.job * 2 ^ 15 + sv.thread.det.tid) ∉ s'.liveTids ∧
    (∀ e ∈ (dieOf s' (f / 4096)).entries, e.id ≠ k) ∧ s'.mem = s.mem) ∧
  (∀ (ctx : Nat) (s : State) (h : FaultRec), ctx < 0x4000 → ctx % 8 < 5 → (engineOf s ctx).halted = some h →
   (ctx % 8 < 4 →
     exec (.fqRestart ctx) s = .next (again (modEngine s ctx (fun e =>
       { e with halted := none, begun := false, words := [], pages := [], piece := 0, counted := false, hbmAt := none,
                giveUp := false, ops := [] })) ctx)) ∧
   (ctx % 8 = 4 →
     (∃ s', exec (.fqRestart ctx) s = .next s' ∧ (engineOf s' ctx).halted = none ∧
       (engineOf s' ctx).ops.map (fun o => (o.no, o.dst, o.src, o.len)) = (engineOf s ctx).ops.map (fun o => (o.no, o.dst, o.src, o.len)) ∧
       (∀ o ∈ (engineOf s' ctx).ops, o.off = 0 ∧ o.waiting = [] ∧ o.ctrSent = false)) ∧
     ∃ s', exec (.fqAbandon ctx) s = .next s' ∧ (engineOf s' ctx).halted = none ∧ (engineOf s' ctx).ops = [] ∧
       (engineOf s' ctx).tl = (engineOf s ctx).last ∧ s'.mem = s.mem)) ∧
  (∀ (c : Nat) (s : State) (h : FaultRec), c < 2048 → (coreOf s c).probe.halted = some h →
   ∃ s', exec (.fqAbandon (8 * c + 5)) s = .next s' ∧ (coreOf s' c).probe.halted = none ∧ (coreOf s' c).probe.queue = [] ∧
     (coreOf s' c).probe.tl = (coreOf s c).probe.no ∧ s'.mem = s.mem)

/-- PAGE_TABLE_WALK_COMPLETE installs the translation that the cluster TLB or the tables give; a walk that a TLBI
overtook, and a walk after MIGRATING, begins again; TLBI_TAKES_EFFECT leaves no entry that its form covers in any
translation cache and marks every walk; TLBICMD queues its form, the first in the queue begins, a ninth sets OVF;
TLBI_COMMAND_COMPLETE takes a finished command from the queue. (R20, R27, R28, R29, R33) -/
def Obligations.WalksAndInvalidation : Prop :=
    (∀ (k : Nat) (s : State) (w : Walk) (e : TlbEnt) (s1 : State), mget k s.walks = some w → w.stale = false → w.ctx ≠ walkFetch →
   let held := if w.regs.ttbase.getLsbD 0 then tlbFind s (clusterKey w.core) (wf 15 0 w.regs.asid) w.va else none
   (held = some e ∧ s1 = { s with walks := mdel k s.walks }) ∨
     (held = none ∧ walkTables { s with walks := mdel k s.walks } w.core w.regs w.va = (.ok e, s1)) →
   exec (.pageTableWalkComplete k) s = .next (tlbInstall s1 w.core w.cache e)) ∧
  (∀ (k : Nat) (s : State) (w : Walk), mget k s.walks = some w → w.stale = true → (∀ x ∈ mdel k s.walks, x.2.core ≠ w.core) →
   ∃ s', exec (.pageTableWalkComplete k) s = .next s' ∧ s'.tlbs = s.tlbs ∧ s'.mem = s.mem ∧
    mget s.stamp s'.walks = some ⟨w.cache, w.core, w.ctx, w.va, w.regs, s.now, false⟩) ∧
  (∀ (k : Nat) (s : State) (w : Walk), mget k s.walks = some w → (∀ x ∈ mdel k s.walks, x.2.core ≠ w.core) →
   ∃ s', exec (.migratingRewalk k) s = .next s' ∧ s'.tlbs = s.tlbs ∧ s'.mem = s.mem ∧
    mget s.stamp s'.walks = some ⟨w.cache, w.core, w.ctx, w.va, w.regs, s.now, false⟩) ∧
  (∀ (k : Nat) (s : State) (b : Tlbi), s.tlbis.find? (fun b => b.id == k) = some b → (∀ w ∈ b.waits, retired s w = true) → b.frame = none →
   ∃ s', exec (.tlbiTakesEffect k) s = .next s' ∧ s'.mem = s.mem ∧
    (∀ kv ∈ s'.tlbs, ∀ e ∈ kv.2, tlbiHits b.form b.asid b.va e = false) ∧ (∀ kv ∈ s'.walks, kv.2.stale = true) ∧
    (∃ b' ∈ s'.tlbis, b'.id = k ∧ b'.effective = true)) ∧
  (∀ (asid : BitVec 16) (s : State),
   (s.tlbiq.cmds.length < 8 → s.tlbiq.cmds ≠ [] →
     exec (.tlbicmdPage asid) s = .next { s with tlbiq := { s.tlbiq with cmds := s.tlbiq.cmds ++ [(1, asid.toNat, s.tlbiq.va)] } } ∧
     exec (.tlbicmdSpace asid) s = .next { s with tlbiq := { s.tlbiq with cmds := s.tlbiq.cmds ++ [(2, asid.toNat, s.tlbiq.va)] } } ∧
     exec .tlbicmdAll s = .next { s with tlbiq := { s.tlbiq with cmds := s.tlbiq.cmds ++ [(3, 0, s.tlbiq.va)] } }) ∧
   (s.tlbiq.cmds = [] → ∃ s' b, exec (.tlbicmdPage asid) s = .next s' ∧ s'.tlbiq.cmds = [(1, asid.toNat, s.tlbiq.va)] ∧
     s'.tlbis = s.tlbis ++ [b] ∧ b.form = 1 ∧ b.asid = asid.toNat ∧ b.va = s.tlbiq.va ∧ b.effective = false) ∧
   (8 ≤ s.tlbiq.cmds.length → exec .tlbicmdAll s = .next { s with tlbiq := { s.tlbiq with ovf := true } })) ∧
  (∀ (s : State) (x : Nat × Nat × Word), (∀ b ∈ s.tlbis, b.frame = none → tlbiDone s b.id = true) → s.tlbiq.cmds = [x] →
   exec .tlbiCommandComplete s = .next { s with tlbis := s.tlbis.filter (fun b => b.frame.isSome), tlbiq := { s.tlbiq with cmds := [] } })

/-- SCRUB_READ waits for an idle sub-bank, and of a sound word moves the position on and changes no byte; FILL_COMPLETE,
once its turn at the sub-banks has come, puts the bytes it read into the slot's 2,048 bytes and no others and makes
the slot VALID, WRITEBACK_COMPLETE writes the block back, each moving the probe timeline to its number; PCC_CFG_WRITE
sets the configuration and empties the cache, its trees too (log entry 82: R53 does not name them), or sets CFGERR;
CONTROL_REGISTER_WRITE merges the covered bytes of a plain register, keeps its reserved bits 0, clears the flags a one
is written to, and where no register is assigned logs the missing target; QUOKOR_STORE writes its bytes and no others,
and one to control-register space writes the aligned unit that holds its address. (R49, R53, R57, R58, R396, R384) -/
def Obligations.MemorySideEvents : Prop :=
    (∀ (c : Nat) (s : State), let sl := (coreOf s c).slice
   (sl.ecccfg.getLsbD 0 = false → exec (.scrubRead c) s = .next s) ∧
   (sl.ecccfg.getLsbD 0 = true →
     (scrubTurn s c (sl.scrub % 32) = .refused → exec (.scrubRead c) s = .next (schedule s 1 (.scrubRead c))) ∧
     (scrubTurn s c (sl.scrub % 32) = .now → mget (c * 262144 + sl.scrub) s.sramErr = none →
       ∃ s', exec (.scrubRead c) s = .next s' ∧ (coreOf s' c).slice.scrub = (sl.scrub + 1) % 262144 ∧ s'.mem = s.mem ∧
        s'.sramErr = s.sramErr ∧ threadOf s' c = threadOf s c))) ∧
  (∀ (c : Nat) (s : State) (o : POp) (pa : Nat) (g : Got), (coreOf s c).probe.halted = none → (coreOf s c).probe.queue = [o] →
   o.issued.isSome = true → o.done = false → o.place = some (pa, none) → (inHbm pa = true → inWindow s = false) → o.bar = none → g.err = none →
   (∀ x ∈ (coreOf s c).probe.slots, x.2.drop_ = false) →
   let a := slotPa s c o.slot
   let spans : List (Nat × Nat) := (pa, 2048) :: (if o.fill then [(a, 2048)] else [])
   let s0 := takeTurns (modPOp s c o.no (fun o => { o with bank := ⟨0, []⟩ })) spans
   turnAll s spans o.bank.refused = .now →
   (o.fill = true → readPa s0 (whoCtx (probeCtx c)) pa 2048 o.va = (g, s0) → g.bytes.length = 2048 →
     inSram a = true → spanError s a 2048 = none → Memory.wf s.mem = true →
     ∃ s', exec (.fillComplete c o.no) s = .next s' ∧ (slotOf s' c o.slot) = { slotOf s c o.slot with state := 2 } ∧
      (coreOf s' c).probe.tl = o.no ∧ (coreOf s' c).probe.queue = [] ∧
      (∀ b, memByte s'.mem b = if a ≤ b ∧ b < a + 2048 then g.bytes[b - a]?.getD 0 else memByte s.mem b)) ∧
   (o.fill = false → ∀ s1, performWrite s0 (whoCtx (probeCtx c)) pa o.data o.va = (none, s1) → coreOf s1 c = coreOf s0 c →
     ∃ s', exec (.writebackComplete c o.no) s = .next s' ∧ (coreOf s' c).probe.tl = o.no ∧
      (coreOf s' c).probe.queue = [] ∧ s'.mem = s1.mem)) ∧
  (∀ (c : Nat) (v : Word) (s : State),
   (wf 7 4 v ≤ 8 → wf 22 14 v % 2 ^ wf 7 4 v = 0 → threadOf s c = none → probeQueued (coreOf s c).probe = 0 →
     ∃ s', exec (.pccCfgWrite c v) s = .next s' ∧ (coreOf s' c).probe =
      { (coreOf s c).probe with cfg := v &&& 0x7FC0F1, slots := [], plru := [] } ∧ s'.mem = s.mem) ∧
   (8 < wf 7 4 v ∨ wf 22 14 v % 2 ^ wf 7 4 v ≠ 0 ∨ (threadOf s c).isSome = true ∨ probeQueued (coreOf s c).probe ≠ 0 →
     ∃ s', exec (.pccCfgWrite c v) s = .next s' ∧ (coreOf s' c).probe = { (coreOf s c).probe with cfgerr := true })) ∧
  (∀ (v : Word) (s : State),
   exec (.controlRegisterWrite 0xF000007000008 8 v) s = .next { s with dredge := { s.dredge with ovrf := v.getLsbD 0 } } ∧
   exec (.controlRegisterWrite 0xF000000001004 4 v) s = .next { s with tlbiq := { s.tlbiq with
     va := ((s.tlbiq.va &&& 0xFFFFFFFF) ||| ((v &&& 0xFFFFFFFF) <<< 32)) &&& 0x00FFFFFFFFFF0000 } } ∧
   exec (.controlRegisterWrite 0xF000000001010 8 v) s = .next (if v.getLsbD 1 then
     { s with tlbiq := { s.tlbiq with ovf := false } } else s) ∧
   exec (.controlRegisterWrite 0xF000002000010 8 v) s = .next (if v.getLsbD 1 then
     { s with hbm := { s.hbm with ovf := false } } else s) ∧
   exec (.controlRegisterWrite 0xF000003000010 8 v) s = .next (if v.getLsbD 1 then
     { s with eddy := { s.eddy with ovf := false } } else s) ∧
   exec (.controlRegisterWrite 0xF00000A000018 8 v) s = .next (if v.getLsbD 1 then
     { s with plat := { s.plat with quoteOvf := false } } else s) ∧
   exec (.controlRegisterWrite 0xF000004000028 8 v) s = .next { s with weir :=
     { s.weir with ovr := s.weir.ovr && !v.getLsbD 2, errstop := s.weir.errstop && !v.getLsbD 1 } }) ∧
  (∀ (k n d : Nat) (v old : Word) (s : State), k + n ≤ 8 → 1 ≤ n → d < 4 →
   let m : Word := BitVec.ofNat 64 ((2 ^ (8 * n) - 1) * 2 ^ (8 * k))
   let put : Word := (old &&& ~~~m) ||| ((v <<< (8 * k)) &&& m)
   (∀ r ∈ [(0x1000, (0x00FFFFFFFFFF0000 : Word)), (0x2000038, 0xFF0F), (0x4000008, 0x000FFFFFFFFFFFF0), (0x4000010, 0x1FFFF),
       (0x5000010 + 0x10000 * d, 0xFFFFFFFFFFFF0000), (0x5000018 + 0x10000 * d, 0xFFFFFFFFFFF80000),
       (0x6000008, 0xFFFFFFFFFFF00000), (0xA000028, 0xFFFF)],
     ctlReg s r.1 = some old → ∃ s', exec (.controlRegisterWrite (ctlBase + r.1 + k) n v) s = .next s' ∧
       ctlReg s' r.1 = some (put &&& r.2) ∧ s'.mem = s.mem ∧ s'.cores = s.cores) ∧
   (∀ r ∈ [0x2000020, 0x2000028, 0x2000030], ctlReg s r = some old →
     ∃ s', exec (.controlRegisterWrite (ctlBase + r + k) n v) s = .next s' ∧
       ctlReg s' r = some ((old &&& 0xFFFFFFFF00000000) ||| (put &&& 0xFFFFFFFF)) ∧ s'.mem = s.mem ∧ s'.cores = s.cores) ∧
   (∀ j i, j < 256 → i ≤ 12 → ctlReg s (0x9000000 + 256 * j + 8 * (i + 1)) = some old →
     ∃ s', exec (.controlRegisterWrite (ctlBase + (0x9000000 + 256 * j + 8 * (i + 1)) + k) n v) s = .next s' ∧
       jobEntry s' j = ((jobEntry s j).1, setJobWord (jobEntry s j).2 i put) ∧ (∀ l, l ≠ j → jobEntry s' l = jobEntry s l) ∧
       s'.mem = s.mem ∧ s'.cores = s.cores) ∧
   (∀ o, o % 8 = 0 → ctlReg s o = none → exec (.controlRegisterWrite (ctlBase + o + k) n v) s =
     .next (logNoTarget s { die := 0, core := 0 } (ctlBase + o + k) 0))) ∧
  (∀ (h pa len : Nat) (v : Word) (s : State) (hp : h < 16), inSram pa = true → (len = 1 ∨ len = 2 ∨ len = 4 ∨ len = 8) → pa % 32 + len ≤ 32 →
   mget (pa / 32) s.sramErr = none → targetOf s pa = .sram (pa / 0x800000) (pa % 0x800000) → Memory.wf s.mem = true →
   ∃ s', exec (.quokorStore h pa len v) s = .next s' ∧ s'.harts[h].stores = s.harts[h].stores.erase (pa, len, v) ∧
    s'.harts[h].x = s.harts[h].x ∧ s'.harts[h].pc = s.harts[h].pc ∧
    (∀ a, memByte s'.mem a = if pa ≤ a ∧ a < pa + len then BitVec.ofNat 8 (v.toNat / 2 ^ (8 * (a - pa))) else memByte s.mem a)) ∧
  (∀ (h pa len : Nat) (v : Word) (s : State), h < 16 → inCtl pa = true → (len = 1 ∨ len = 2 ∨ len = 4 ∨ len = 8) →
   ∃ s', exec (.quokorStore h pa len v) s = .next s' ∧ s'.todo = .ev (.controlRegisterWrite (pa - pa % len) len v) :: s.todo ∧
    s'.mem = s.mem)

/-- In supervisor or machine mode with the hart's stores performed: QFENCE, with its loads performed too, goes on to the
next word; QENQ, with no load under way to a register it names, of a job whose entry is not valid answers 2, and of a
well-formed record with room at its die answers 0 and puts a new entry, in transit, in the die's list; x0 stays 0. In
user mode both take the illegal-instruction exception, to supervisor mode when delegated, else to machine mode: the
registers of that trap are RISC-V's, taken from outside the spec (log entry 11). (R385, R386, R387) -/
def Obligations.QuokorInstructions : Prop :=
    (∀ (rs2 rs1 rd : BitVec 5) (s : State), (hartNow s).mode ≠ 0 → (hartNow s).stores = [] → s.hart < 16 →
   let free : Prop := ∀ x ∈ (hartNow s).loads, x.fp = true ∨ (x.rd ≠ rs2.toNat ∧ x.rd ≠ rs1.toNat ∧ x.rd ≠ rd.toNat)
   ((hartNow s).loads = [] → ∃ s', exec .qfence s = .next s' ∧ (hartNow s').pc = (hartNow s).pc + 4 ∧ (hartNow s').x = (hartNow s).x ∧ s'.mem = s.mem) ∧
   (free → (inHbm ((hartNow s).x[rs1.toNat] &&& ~~~(63#64)).toNat = true → inWindow s = false ∧ holding s = false) →
     (jobEntry s ((hartNow s).x[rs2.toNat].toNat % 256)).1 = false →
     ∃ s', exec (.qenq rs2 rs1 rd) s = .next s' ∧ (hartNow s').pc = (hartNow s).pc + 4 ∧ s'.mem = s.mem ∧
      (∀ n : Fin 32, (hartNow s').x[n] = if n.val = rd.toNat ∧ rd ≠ 0 then 2 else (hartNow s).x[n])) ∧
   (∀ (g : Got) (s1 : State), let a := ((hartNow s).x[rs1.toNat] &&& ~~~(63#64)).toNat
     let j := (hartNow s).x[rs2.toNat].toNat % 256
     let ws := (List.range 8).map (fun k => BitVec.ofNat 64 (leNat ((g.bytes.drop (8 * k)).take 8)))
     let d := recDie ws
     free → inSram a = true ∨ inHbm a = true → (inHbm a = true → inWindow s = false ∧ holding s = false) →
     (jobEntry s j).1 = true → readAny s whoQuokor a 64 = (g, s1) → g.err = none → s1.hart = s.hart → s1.harts = s.harts →
     recordOk s1 ws = true → recKind ws ≠ 3 → recBar ws = none → recCores s1 d ws ≠ [] → schedFull (dieOf s1 d) = false →
     ∃ s' e, exec (.qenq rs2 rs1 rd) s = .next s' ∧ (hartNow s').pc = (hartNow s).pc + 4 ∧ s'.mem = s1.mem ∧
      (∀ n : Fin 32, (hartNow s').x[n] = if n.val = rd.toNat ∧ rd ≠ 0 then 0 else (hartNow s).x[n]) ∧
      (dieOf s' d).entries = (dieOf s1 d).entries ++ [e] ∧ e.record = ws ++ [BitVec.ofNat 64 a] ∧ e.job = j ∧ e.state = 0 ∧
      e.prio = recPrio ws ∧ e.resume = none)) ∧
  (∀ (rs2 rs1 rd : BitVec 5) (s : State), (hartNow s).mode = 0 → s.hart < 16 → ∀ i ∈ [Instr.qfence, .qenq rs2 rs1 rd],
   ∃ s', exec i s = .next s' ∧ s'.mem = s.mem ∧ (hartNow s').x = (hartNow s).x ∧
    (if (hartNow s).medeleg.getLsbD 2 then (hartNow s').sepc = (hartNow s).pc ∧ (hartNow s').scause = 2 ∧ (hartNow s').mode = 1 ∧
        (hartNow s').pc = (hartNow s).stvec &&& ~~~(3#64)
      else (hartNow s').mepc = (hartNow s).pc ∧ (hartNow s').mcause = 2 ∧ (hartNow s').mode = 3 ∧
        (hartNow s').pc = (hartNow s).mtvec &&& ~~~(3#64)))

/-- MAKELIVE of a dead frame in range is busy for at most 2,048 cycles outside windows, after which the frame reads zeros,
is live, and no other byte has changed; MAKEDEAD and SETSCHEME act at once; DROP and REHASH ask every thread for its
pre-emption, wait for the cores, then for the engines, commit the layout with GEN counted up, and are reported once
the saved contexts run again; a command while busy only sets OVF; PCERR_INTERVAL clears the counts. (R70, R78, R79) -/
def Obligations.HbmCommands : Prop :=
    (∀ (arg : BitVec 24) (comp : Bool) (s : State), s.hbm.busy = false → arg.toNat < nlive s * 12288 → frameLive s arg.toNat = false →
   ∃ s' d, exec (.makelive arg comp) s = .next s' ∧ s'.hbm.busy = true ∧ s'.hbm.err = 0 ∧
    s'.hbm.making = some (arg.toNat, comp && s.plat.accept.getLsbD 4) ∧ 1 ≤ d ∧ d ≤ 2048 ∧
    s'.agenda = s.agenda ++ [⟨s.now + d, .makeliveComplete⟩] ∧ s'.mem = s.mem) ∧
  (∀ (f : Nat) (comp : Bool) (s : State), s.hbm.making = some (f, comp) → inWindow s = false →
   ∃ s', exec .makeliveComplete s = .next s' ∧ s'.hbm.busy = false ∧ s'.hbm.making = none ∧ mget f s'.hbm.frames = some (true, comp) ∧
    (∀ a, memByte s'.mem a = if hbmBase + 65536 * f ≤ a ∧ a < hbmBase + 65536 * (f + 1) then 0 else memByte s.mem a)) ∧
  (∀ (arg : BitVec 24) (s : State), s.hbm.busy = false → arg.toNat < nlive s * 12288 → frameLive s arg.toNat = true →
   ∃ s' k, exec (.makedead arg) s = .next s' ∧ mget arg.toNat s'.hbm.frames = some (false, k) ∧ s'.hbm.err = 0 ∧ s'.mem = s.mem) ∧
  (∀ (arg : BitVec 24) (il : BitVec 3) (s : State), s.hbm.busy = false → arg.toNat < 12288 →
   (∀ f ∈ s.hbm.frames, f.2.1 = true → f.1 / max 1 (nlive s) ≠ arg.toNat) →
   exec (.setscheme arg il) s = .next { s with hbm := { s.hbm with err := 0, schemes := mset 0 arg.toNat il.toNat s.hbm.schemes } }) ∧
  (∀ (arg : BitVec 24) (comp : Bool) (il : BitVec 3) (s : State), s.hbm.busy = true →
   ∀ i ∈ [Instr.makelive arg comp, .makedead arg, .setscheme arg il, .drop arg, .rehash],
   exec i s = .next { s with hbm := { s.hbm with ovf := true } }) ∧
  (∀ (arg : BitVec 24) (s : State), s.hbm.busy = false → (liveList s).contains arg.toNat = true → 1 < nlive s →
   (∀ f ∈ s.hbm.frames, f.2.1 = true → f.1 < (nlive s - 1) * 12288) →
   ∃ s', exec (.drop arg) s = .next s' ∧ s'.hbm.busy = true ∧ s'.hbm.drop = some (arg.toNat, 1) ∧
    (∀ c t, threadOf s' c = some t → t.handler = true ∨ t.preempt = true) ∧ s'.mem = s.mem ∧
    s'.agenda = s.agenda ++ [⟨s.now + 1, .dropHoldDone⟩]) ∧
  (∀ (s : State), s.hbm.busy = false →
   ∃ s', exec .rehash s = .next s' ∧ s'.hbm.busy = true ∧ s'.hbm.drop = some (0x3FF, 1) ∧ s'.mem = s.mem) ∧
  (∀ (g : Nat) (s : State), s.hbm.drop = some (g, 1) → (∀ k ∈ s.cores, k.2.thread = none) →
   exec .dropHoldDone s = .next { s with hbm := { s.hbm with drop := some (g, 2) }, agenda := s.agenda ++ [⟨s.now + 1, .dropDrainDone⟩] }) ∧
  (∀ (g : Nat) (s : State), s.hbm.drop = some (g, 2) → allDrained s = true →
   ∃ s' d, exec .dropDrainDone s = .next s' ∧ s'.hbm.drop = some (g, 3) ∧ s'.hbm.dropMasks = some (s.hbm.maskStack, s.hbm.maskCh, s.hbm.maskPc) ∧
    1 ≤ d ∧ s'.agenda = s.agenda ++ [⟨s.now + d, .dropRebuildDone⟩] ∧ s'.mem = s.mem) ∧
  (∀ (g : Nat) (s : State), s.hbm.drop = some (g, 3) → s.dredge.drained = false →
   ∃ s', exec .dropRebuildDone s = .next s' ∧ s'.hbm.drop = some (g, 5) ∧ s'.hbm.busy = s.hbm.busy ∧
    s'.hbm.gen = (s.hbm.gen + 1) % 65536 ∧ s'.hbm.live = (if g = 0x3FF then s.hbm.live else clearLive s.hbm.live g) ∧
    s'.agenda = s.agenda ++ [⟨s.now + 1, .dropRebuildDone⟩] ∧
    (s.hbm.weakBursts = [] → s.hbm.badBursts = [] → s.hbm.codes = [] → s'.mem = s.mem)) ∧
  (∀ (g : Nat) (s : State), s.hbm.drop = some (g, 5) →
   (allRestored s = false → exec .dropRebuildDone s = .next (schedule s 1 .dropRebuildDone)) ∧
   (allRestored s = true → ∃ s', exec .dropRebuildDone s = .next s' ∧ s'.hbm.drop = none ∧ s'.hbm.busy = false ∧
    s'.hbm.gen = s.hbm.gen ∧ s'.hbm.live = s.hbm.live)) ∧
  (∀ (s : State), exec .pcerrInterval s = .next { s with hbm := { s.hbm with corrected := [], reported := [], intervalAt := s.now / 65536 } })

/-- A slot that passes a tap stage with operations queued there lets the tap act, at the origin it is noted, and a
teardown empties its job's slots there; the tap performs its head operation only on that operation's own slot: a
capture changes its field alone, a row read nothing, a boarding fills an EMPTY slot, an alighting empties it, and the
result goes back 4 cycles later; an any-mode boarding that 2,560 slots in a row did not admit ends; TEARDOWN and
RECLAIM begin a command, are refused with BADARG, or, while one runs, set OVF. That ERR is 0 once a command is
accepted, that the 2,560 slots count from when the operation first could be performed, and which state the origin
counts are the model's choices (log entries 68, 89, 90). (R86, R91, R93, R94, R95, R96, R105) -/
def Obligations.EddyEvents : Prop :=
    (∀ (stage : Nat) (s : State) (c : Nat), mget (slotAt s stage) s.eddy.flips = none → c = ringCore (stage / 2) →
   (stage ≠ 0 → stage % 2 = 0 → coreLive s c = true → (coreOf s c).taps ≠ [] →
     exec (.eddySlotPass stage) s = .next { s with todo := .ev (.tapOperationPerformed c) :: s.todo }) ∧
   (stage ≠ 0 → (coreOf s c).taps = [] → exec (.eddySlotPass stage) s = .next s) ∧
   (stage = 0 → (coreOf s c).taps = [] → s.eddy.cmd = none → exec (.eddySlotPass stage) s = .next { s with eddy :=
     { s.eddy with seen := mset 0 (slotAt s 0) (eslot s (slotAt s 0)).state s.eddy.seen } }) ∧
   (stage = 0 → (coreOf s c).taps = [] → ∀ job g, s.eddy.cmd = some (1, job, g) → (eslot s (slotAt s 0)).state = 1 →
     (eslot s (slotAt s 0)).job.toNat = job →
     ∃ s', exec (.eddySlotPass stage) s = .next s' ∧ s'.eddy.slots = mdel (slotAt s 0) s.eddy.slots ∧ s'.eddy.cmd = s.eddy.cmd)) ∧
  (∀ (c : Nat) (s : State) (t : Thread) (o : TapOp) (rest : List TapOp) (q : Req),
   let k := slotAt s (2 * ringPos c)
   let x := eslot s k
   (coreOf s c).taps = o :: rest → threadOf s c = some t → reqOf s c o.req = some q → o.eligible ≤ s.now → tapReady t o = true →
   o.ord = 0 → o.any = false →
   (k ≠ o.slot → exec (.tapOperationPerformed c) s = .next s) ∧
   (k = o.slot →
     (o.kind = 0 → o.field < 8 → x.state = 1 → x.job.toNat = o.job →
       ∃ s', exec (.tapOperationPerformed c) s = .next s' ∧ (eslot s' k).state = 1 ∧ (eslot s' k).job = x.job ∧
        (∀ j, j < 8 → bits (64 * j) 64 (eslot s' k).payload.toNat = if j = o.field then
          (ecapNew o.variant (BitVec.ofNat 64 (bits (64 * j) 64 x.payload.toNat)) o.a o.b).toNat else bits (64 * j) 64 x.payload.toNat) ∧
        (coreOf s' c).taps.length = rest.length ∧ s'.mem = s.mem ∧
        s'.agenda = s.agenda ++ [⟨s.now + 4, .requestDataArrival c o.req 0⟩]) ∧
     (o.kind = 1 → x.state = 1 → x.job.toNat = o.job →
       ∃ s', exec (.tapOperationPerformed c) s = .next s' ∧ s'.eddy = s.eddy ∧
        s'.agenda = s.agenda ++ [⟨s.now + 4, .requestDataArrival c o.req 0⟩]) ∧
     (o.kind = 2 → x.state = 0 →
       ∃ s', exec (.tapOperationPerformed c) s = .next s' ∧ eslot s' k = ⟨o.payload, BitVec.ofNat 16 o.job, 1⟩ ∧
        s'.agenda = s.agenda ++ [⟨s.now + 4, .requestDataArrival c o.req 0⟩]) ∧
     (o.kind = 3 → x.state = 1 → x.job.toNat = o.job →
       ∃ s', exec (.tapOperationPerformed c) s = .next s' ∧ s'.eddy.slots = mdel k s.eddy.slots ∧ s'.mem = s.mem))) ∧
  (∀ (c : Nat) (s : State) (t : Thread) (o : TapOp) (rest : List TapOp), (coreOf s c).taps = o :: rest → threadOf s c = some t →
   (s.now < o.eligible → exec (.tapOperationPerformed c) s = .next s) ∧
   (o.eligible ≤ s.now → tapReady t o = false → exec (.tapOperationPerformed c) s = .next (tapWaits s c)) ∧
   (o.eligible ≤ s.now → tapReady t o = true → o.any = true →
     tapMatches o (eslot s (slotAt s (2 * ringPos c))) (slotAt s (2 * ringPos c)) = false →
     exec (.tapOperationPerformed c) s = .next (if o.eligible + 2559 ≤ s.now then pushEvs s [.eboardAnyTimeout c] else s))) ∧
  (∀ (c : Nat) (s : State) (o : TapOp) (rest : List TapOp), (coreOf s c).taps = o :: rest → o.any = true → o.ord = 0 →
   ∃ s', exec (.eboardAnyTimeout c) s = .next s' ∧ s'.eddy = s.eddy ∧ (coreOf s' c).taps.length = rest.length ∧ s'.mem = s.mem ∧
    s'.agenda = s.agenda ++ [⟨s.now + 4, .requestDataArrival c o.req 0⟩] ∧
    (∀ q, reqOf s' c o.req = some q → ∀ p ∈ q.parts, p.data = rowOf (BitVec.allOnes 64))) ∧
  (∀ (job slot : BitVec 16) (s : State),
   (s.eddy.cmd = none → job ≠ 0 → exec (.teardown job) s = .next (schedule
     { s with eddy := { s.eddy with cmd := some (1, job.toNat, s.now), err := 0 } } 2560 .teardownComplete)) ∧
   (s.eddy.cmd = none → exec (.teardown 0) s = .next { s with eddy := { s.eddy with err := 2 } }) ∧
   (s.eddy.cmd = none → slot.toNat < 2560 → (eslot s slot.toNat).state = 2 →
     exec (.reclaim slot) s = .next { s with eddy := { s.eddy with cmd := some (2, slot.toNat, s.now), err := 0 } }) ∧
   (s.eddy.cmd = none → (eslot s slot.toNat).state ≠ 2 → exec (.reclaim slot) s = .next { s with eddy := { s.eddy with err := 2 } }) ∧
   (s.eddy.cmd.isSome = true → exec (.teardown job) s = .next { s with eddy := { s.eddy with ovf := true } } ∧
     exec (.reclaim slot) s = .next { s with eddy := { s.eddy with ovf := true } }) ∧
   exec .teardownComplete s = .next { s with eddy := { s.eddy with cmd := none } } ∧
   exec .reclaimComplete s = .next { s with eddy := { s.eddy with cmd := none } })

/-- TIDE_CTL_WRITE stops the weir, starts it with a lap to begin, or for NLAYER 0 stops it with LPERR 5; LAP_BEGIN takes
the pending values over and counts LAP up; WEIR_TILE_SEND puts the next tile of the range on the ring with its
sideband and a right CRC and keeps the spacing of EFF; the first tile of the layer boards an ARMED subscription; a
landing adds a tile that checks to the buffer and counts the timeline, and makes one that does not a pending fault;
registration and the boarding timeout. When the weir reads a tile, and what R110 to R120 leave open of a port's
comparison and of a failed landing, are the model's choices (log entries 29, 60). (R107, R109, R111, R112, R113, R114,
R115) -/
def Obligations.TideEvents : Prop :=
    (∀ (v : Word) (s : State),
   (v.getLsbD 0 = false → exec (.tideCtlWrite v) s = .next { s with weir := { s.weir with ctl := v &&& 0xD, run := false } }) ∧
   (v.getLsbD 0 = true → s.weir.ctl.getLsbD 0 = false → 1 ≤ s.weir.nlayer.toNat → s.weir.nlayer.toNat ≤ 65536 → s.weir.ring = [] →
     exec (.tideCtlWrite v) s = .next (pushEvs
       { s with weir := { s.weir with ctl := v &&& 0xD, sent := 0, nextAt := s.now } } [.lapBegin])) ∧
   (v.getLsbD 0 = true → s.weir.ctl.getLsbD 0 = false → s.weir.nlayer = 0 →
     ∃ s', exec (.tideCtlWrite v) s = .next s' ∧ s'.weir.errstop = true ∧ s'.weir.lperr = 5 ∧ s'.weir.ctl.getLsbD 0 = false ∧
      s'.weir.run = false)) ∧
  (∀ (s : State), s.weir.ctl.getLsbD 0 = true → s.weir.run = false → 1 ≤ s.weir.nlayer.toNat → s.weir.nlayer.toNat ≤ 65536 →
   ∃ s', exec .lapBegin s = .next s' ∧ s'.weir.run = true ∧ s'.weir.lap = (s.weir.lap + 1) % 2 ^ 32 ∧ s'.weir.base = s.weir.lpbase ∧
    s'.weir.n = s.weir.nlayer.toNat ∧ s'.weir.dir = nextDir s.weir ∧
    s'.weir.layerix = (if nextDir s.weir then s.weir.nlayer.toNat - 1 else 0) ∧ s'.weir.tile = 0 ∧ s'.weir.ring = s.weir.ring ∧ s'.mem = s.mem) ∧
  (∀ (s s1 : State) (a b p r : Word) (rows : List Row), s.weir.run = true → s.weir.nextAt ≤ s.now → weirMayRead s = true →
   s.weir.desc = [a, b, p, r] → s.weir.inRange < wf 31 0 r → tideEff s < 4 → s.weir.lap < 2 ^ 32 →
   tileRows 32 s (p.toNat + 8192 * s.weir.inRange) = (rows, false, s1) → s1.weir = s.weir → tideEff s1 = tideEff s → s1.now = s.now →
   ∃ s' x, exec .weirTileSend s = .next s' ∧ s'.weir.ring.getLast? = some x ∧ x.at_ = s.now ∧ x.payload = rows ∧
    sbField x.sb 39 24 = wf 15 0 a ∧ sbField x.sb 63 40 = s.weir.tile % 2 ^ 24 ∧ sbField x.sb 95 64 = s.weir.lap ∧
    x.sb.getLsbD 0 = s.weir.dir ∧ x.sb.getLsbD 1 = decide (s.weir.tile + 1 = wf 63 32 a) ∧ x.sb.getLsbD 2 = false ∧ crcGood x = true ∧
    s'.weir.tile = s.weir.tile + 1 ∧ s'.weir.inRange = s.weir.inRange + 1 ∧ s'.weir.nextAt = s.now + 2 * 2 ^ tideEff s ∧ s'.mem = s1.mem) ∧
  (∀ (c : Nat) (s : State) (t : Thread) (x : RingTile), threadOf s c = some t → s.weir.ring.find? (fun y => y.id == x.id) = some x →
   s.now = x.at_ + tideDelay c → t.tide.restore = [] → t.tide.state = 1 → sbField x.sb 39 24 = t.tide.layer → sbField x.sb 63 40 = 0 →
   t.tide.first = 0 → t.tide.next = 0 → t.tide.buf.length + t.tide.taking.length < 8 → x.sb.getLsbD 1 = false →
   ∃ t', exec (.tideTilePass c x.id) s = .next (setThread s c t') ∧ t'.tide.state = 2 ∧ t'.tide.next = t.tide.stride ∧
    t'.tide.taking = t.tide.taking ++ [(x.id, s.now + 2, 0)] ∧ t'.tide.beatAt = s.now ∧ t'.tide.buf = t.tide.buf ∧ t'.r = t.r ∧ t'.q = t.q) ∧
  (∀ (c d k : Nat) (s : State) (t : Thread) (x : RingTile), threadOf s c = some t → t.tide.taking = [(x.id, d, 0)] → d ≤ s.now →
   s.weir.ring.find? (fun y => y.id == x.id) = some x →
   (crcGood x = true → x.sb.getLsbD 2 = false → ∃ t', exec (.tideTileLand c) s = .next (setThread s c t') ∧
     t'.tide.buf = t.tide.buf ++ [(sbField x.sb 39 24, sbField x.sb 63 40, x.payload)] ∧ t'.tide.tl = t.tide.tl + 1 ∧ t'.tide.taking = [] ∧
     t'.tide.state = t.tide.state ∧ t'.r = t.r) ∧
   (crcGood x = false → sbField x.sb 39 24 = t.tide.layer → ∃ t' f, exec (.tideTileLand c) s = .next (setThread s c t') ∧
     t'.tide.pending = t.tide.pending ++ [f] ∧ f.cls = 0x0C ∧ f.cause = 1 ∧ t'.tide.state = 3 ∧ t'.tide.buf = t.tide.buf ∧
     t'.tide.next = sbField x.sb 63 40) ∧
   (t.tide.reg = 2 + k → k ≤ s.now → exec (.tideRegistration c) s = .next (setThread s c { t with tide := { t.tide with reg := 1 } })) ∧
   (t.tide.state = 2 → t.tide.restore = [] → unpaused t.tide.beatAt + 65536 ≤ unpaused s.now →
     ∃ t', exec (.boardingTimeout c) s = .next (setThread s c t') ∧ t'.tide.state = 3 ∧ t'.tide.misst = true ∧ t'.tide.buf = t.tide.buf))

/-- TASK_RECORD_ARRIVAL makes a record READY, or WAITING while a condition is unmet, or spills it from a full store;
SPILL_RELOAD and TASK_CONDITION_MET make records READY; PRIORITY_AGING raises the priority to at most 3;
SCHEDULER_PICK gives the best entry a core, a frame and a TID and starts it, resumes a saved thread, or discards a
record of an invalid job; SCHED_CTL_WRITE sets RUN, which LOCK gates. Where a spilled record lies, and what its reload
does with an error, are the model's choices (log entry 25). (R155, R157, R158, R160) -/
def Obligations.SchedulerEvents : Prop :=
    (∀ (d k : Nat) (s : State) (e : Entry), d < 4 → entryOf s d k = some e → e.resume = none →
   (∀ x ∈ (dieOf s d).entries, x.id = k → x = e) →
   let ready : List Entry := (dieOf s d).entries.map (fun x => if x.id = k then { x with state := 3, readyAt := s.now } else x)
   (storeCount (dieOf s d) < 4096 → condsMet s d e = true → ∃ s', exec (.taskRecordArrival d k) s = .next s' ∧ (dieOf s' d).entries = ready ∧
     s'.mem = s.mem ∧ s'.agenda = s.agenda ++ [⟨s.now + 65536, .priorityAging d k⟩]) ∧
   (storeCount (dieOf s d) < 4096 → condsMet s d e = false → ∃ s', exec (.taskRecordArrival d k) s = .next s' ∧
     (dieOf s' d).entries = (dieOf s d).entries.map (fun x => if x.id = k then { x with state := 2 } else x) ∧ s'.mem = s.mem) ∧
   (4096 ≤ storeCount (dieOf s d) → ∃ s', exec (.taskRecordArrival d k) s = .next s' ∧
     (dieOf s' d).entries = (dieOf s d).entries.map (fun x => if x.id = k then { x with state := 1, slot := freeSpill (dieOf s d) } else x) ∧
     (∀ a b, targetOf s (spillPa (dieOf s d) (freeSpill (dieOf s d))) = .sram a b →
       s'.mem = memWrite s.mem (spillPa (dieOf s d) (freeSpill (dieOf s d))) (wordBytes (e.record.take 8)))) ∧
   (storeCount (dieOf s d) < 3840 → oldest ((dieOf s d).entries.filter (fun e => e.state == 1)) = some e →
     (inHbm (spillPa (dieOf s d) e.slot) = true → inWindow s = false) → reloaded s d e = (e, s) → condsMet s d e = true →
     ∃ s', exec (.spillReload d) s = .next s' ∧ (dieOf s' d).entries = ready) ∧
   (e.state = 2 → condsMet s d e = true → ((recWord e.record 7).getLsbD 60 = true → (barCond s d e).2 = s) →
     ∃ s', exec (.taskConditionMet d k) s = .next s' ∧ (dieOf s' d).entries = ready ∧ s'.mem = s.mem) ∧
   (e.state = 3 → ∃ s', exec (.priorityAging d k) s = .next s' ∧
     (dieOf s' d).entries = (dieOf s d).entries.map (fun x => if x.id = k then { x with prio := min 3 (x.prio + 1) } else x) ∧
     s'.agenda = s.agenda ++ [⟨s.now + 65536, .priorityAging d k⟩])) ∧
  (∀ (d c tid i : Nat) (s : State) (e : Entry), d < 4 → (dieOf s d).run = true → holding s = false → bestEntry s d = some (e, c) →
   e.resume = none →
   ((jobEntry s e.job).1 = true → freeTid s e.job = some tid → freeFrame (dieOf s d) = some i →
     ∃ s' t' n, exec (.schedulerPick d) s = .next s' ∧ threadOf s' c = some t' ∧ t'.phase = .restoring ∧ t'.frame = d * 4096 + i ∧
      t'.job = e.job ∧ t'.record = e.record ∧ t'.det.tid = tid ∧ t'.regs = (jobEntry s e.job).2 ∧ t'.handler = false ∧
      (dieOf s' d).usedFrames = (dieOf s d).usedFrames ++ [i] ∧ s'.liveTids = s.liveTids ++ [e.job * 2 ^ 15 + tid] ∧
      (dieOf s' d).entries = (dieOf s d).entries.map (fun x => if x.id = e.id then { x with state := 4, core := c } else x) ∧
      42 ≤ n ∧ s'.agenda = s.agenda ++ [⟨s.now + n, .threadStart c⟩] ∧ s'.mem = s.mem) ∧
   ((jobEntry s e.job).1 = false → ∃ s', exec (.schedulerPick d) s = .next s' ∧ (∀ x ∈ (dieOf s' d).entries, x.id ≠ e.id) ∧
     (∀ x, (threadOf s' x).isSome = (threadOf s x).isSome))) ∧
  (∀ (d c f : Nat) (s : State) (e : Entry) (sv : Saved), d < 4 → (dieOf s d).run = true → holding s = false →
   bestEntry s d = some (e, c) → e.resume = some f → mget f s.saved = some sv →
   ∃ s', exec (.schedulerPick d) s = .next s' ∧ threadOf s' c = some { sv.thread with phase := .restoring } ∧
    s'.saved = mdel f s.saved ∧ 1400 ≤ frameTime s f 1400 ∧
    s'.agenda = s.agenda ++ [⟨s.now + frameTime s f 1400, .restoreComplete c⟩] ∧ s'.mem = s.mem) ∧
  (∀ (d : Nat) (v : Word) (s : State), d < 4 →
   (v.getLsbD 0 = false ∨ s.plat.accept.getLsbD 63 = true → ∃ s', exec (.schedCtlWrite d v) s = .next s' ∧
     (dieOf s' d).run = v.getLsbD 0 ∧ (∀ x, x ≠ d → dieOf s' x = dieOf s x) ∧ s'.cores = s.cores ∧ s'.mem = s.mem) ∧
   (v.getLsbD 0 = true → s.plat.accept.getLsbD 63 = false → exec (.schedCtlWrite d v) s = .next s))

/-- COPY_RECORD_PROCESS takes a read record's pieces one after the other, each translated when it comes to it, issued, and
moved when its time and its turn at the sub-banks have come, and then makes the completion due; COPY_RECORD_COMPLETE
counts the record's sectors and arrival, then, not between the drain lead and the window's close for a record in HBM,
clears OWN, counts the timeline where the record says so and goes on in the chain; BARRIER_UPDATE applies an arrival
or sectors to the barrier word, ends the phase when both are zero, and halts the context on an over-arrival;
GROUP_PHASE_COMPLETE ends the group's phase. That a record is cut into pieces at pages and moves piece by piece is the
model's choice (log entry 32). (R307, R310, R313) -/
def Obligations.EngineEvents : Prop :=
    (∀ (ctx : Nat) (s s1 s2 : State) (c : Chain) (r : List Chain) (x : Run) (ps pd : Place), ctx < 0x4000 → ctx % 8 < 4 →
   let e := engineOf s ctx
   let rec_ := copyRec e.words
   e.halted = none → e.chains = c :: r → e.busy = true → e.words ≠ [] → e.ops = [] → issuerReady s c.issuer = true →
   rec_.barf = false → (boxPieces rec_)[e.piece]? = some x →
   opPlace s ctx c.issuer .read x.src = (.ok ps, s1) →
   opPlace s1 ctx c.issuer .write x.dst = (.ok pd, s2) → ps.dev = none → pd.dev = none →
   (e.begun = false → hbmHeld s2 ctx ps = false → hbmHeld s2 ctx pd = false → issuerHeld s2 c.issuer pd.pa x.len = false →
     ∃ s' d, exec (.copyRecordProcess ctx) s = .next s' ∧ (engineOf s' ctx).begun = true ∧ (engineOf s' ctx).piece = e.piece ∧
      (engineOf s' ctx).tl = e.tl ∧ s'.mem = s2.mem ∧ 1 ≤ d ∧ s'.agenda = s2.agenda ++ [⟨s2.now + d, .copyRecordProcess ctx⟩]) ∧
   (e.begun = true → (inHbm ps.pa = true ∨ inHbm pd.pa = true → inWindow s2 = false) → rec_.tagx = false →
     let spans := [(ps.pa, x.len), (pd.pa, x.len)]
     turnAll s2 spans (engineOf s2 ctx).bank.refused = .now →
     ∀ (bs : List Byte) (s3 s4 : State),
     ctxRead (takeTurns (modEngine s2 ctx (fun e => { e with bank := ⟨0, []⟩ })) spans) ctx c.issuer ps x.src x.len = (.ok bs, s3) →
     ctxWrite s3 ctx c.issuer (writeKind ctx ((engineOf s3 ctx).tl + 1) none) pd x.dst bs = (.ok (), s4) →
     exec (.copyRecordProcess ctx) s = .next (pieceMoved s4 ctx))) ∧
  (∀ (ctx : Nat) (s : State) (c : Chain) (r : List Chain), ctx < 0x4000 → ctx % 8 < 4 →
   let e := engineOf s ctx
   let rec_ := copyRec e.words
   e.halted = none → e.chains = c :: r → e.busy = true → e.words ≠ [] → e.ops = [] → issuerReady s c.issuer = true →
   rec_.barf = false → (boxPieces rec_).length ≤ e.piece → e.begun = false →
   ∃ s' d, exec (.copyRecordProcess ctx) s = .next s' ∧ (engineOf s' ctx).begun = true ∧ (engineOf s' ctx).tl = e.tl ∧
     s'.mem = s.mem ∧ 1 ≤ d ∧ s'.agenda = s.agenda ++ [⟨s.now + d, .copyRecordComplete ctx⟩]) ∧
  (∀ (ctx : Nat) (s s1 : State) (c : Chain) (r : List Chain), ctx < 0x4000 → ctx % 8 < 4 →
   let e := engineOf s ctx
   let rec_ := copyRec e.words
   let own := placeHeld s ctx c.issuer .read e.cur
   let s0 := takeTurns (modEngine s ctx (fun e => { e with bank := ⟨0, []⟩ })) [(own.pa, 1)]
   e.halted = none → e.chains = c :: r → e.begun = true → e.words ≠ [] → (boxPieces rec_).length ≤ e.piece →
   (rec_.barf = true → e.counted = false →
     exec (.copyRecordComplete ctx) s = .next (countRecord s ctx rec_ (placeHeld s ctx c.issuer .atomic rec_.bar).pa)) ∧
   (rec_.barf = false ∨ e.counted = true →
     (hbmHeld s ctx own = true → exec (.copyRecordComplete ctx) s = .next (schedule s 1 (.copyRecordComplete ctx))) ∧
     (hbmHeld s ctx own = false → c.issuer.replay = false → turnAll s [(own.pa, 1)] e.bank.refused = .now →
       performWrite (noteHint s0 own) (whoCtx ctx) own.pa [(((e.words[0]?).getD 0) &&& 0xFE).setWidth 8] e.cur = (none, s1) →
       engineOf s1 ctx = engineOf s0 ctx →
       ∃ s', exec (.copyRecordComplete ctx) s = .next s' ∧ s'.mem = s1.mem ∧
        (engineOf s' ctx).tl = (if rec_.tli = true ∨ rec_.next = 0 then e.tl + 1 else e.tl) ∧ (engineOf s' ctx).busy = false ∧
        (engineOf s' ctx).begun = false ∧ (engineOf s' ctx).chains = (if rec_.next = 0 then r else c :: r) ∧
        (engineOf s' ctx).cur = rec_.next ∧ (engineOf s' ctx).piece = 0 ∧ (engineOf s' ctx).counted = false))) ∧
  (∀ (pa who v : Nat) (sec : Word) (s s1 : State), (engineOf s who).halted = none → s.auditor.replaying = none →
   let ga := recordBar s who
   readBar s (whoCtx who) pa ga = (.ok v, s) →
   let b := barOf v
   let left := (b.sec + 2 ^ 32 - sec.toNat % 2 ^ 32) % 2 ^ 32
   let arrived_ : Bar := if b.arr = 1 ∧ b.sec = 0 then ⟨(b.phase + 1) % 16, b.reload, 0, b.reload⟩ else ⟨b.phase, b.arr - 1, b.sec, b.reload⟩
   let written : Bar := if b.arr = 0 ∧ 1 ≤ b.sec ∧ b.sec ≤ sec.toNat then ⟨(b.phase + 1) % 16, b.reload, left, b.reload⟩
     else ⟨b.phase, b.arr, left, b.reload⟩
   (b.arr ≠ 0 → performWrite s (whoCtx who) pa (leBytes 16 (barBits v arrived_)) ga = (none, s1) →
     ∃ s', exec (.barrierUpdate pa true sec who) s = .next s' ∧ s'.mem = s1.mem ∧ s'.engines = s1.engines) ∧
   (performWrite s (whoCtx who) pa (leBytes 16 (barBits v written)) ga = (none, s1) →
     ∃ s', exec (.barrierUpdate pa false sec who) s = .next s' ∧ s'.mem = s1.mem ∧ s'.engines = s1.engines)) ∧
  (∀ (pa who v : Nat) (sec : Word) (s : State), readBar s (whoCtx who) pa (recordBar s who) = (.ok v, s) → (barOf v).arr = 0 →
   who < 0x4000 → who % 8 < 5 → (engineOf s who).halted = none → s.auditor.replaying = none →
   (∀ c ∈ (engineOf s who).chains.head?, c.issuer.replay = false) →
   ∃ s' f, exec (.barrierUpdate pa true sec who) s = .next s' ∧ (engineOf s' who).halted = some f ∧ f.cls = 0x0E ∧ f.cause = 7 ∧ f.ctx = who) ∧
  (∀ (job gid : Nat) (s : State), ∃ s', exec (.groupPhaseComplete job gid) s = .next s' ∧
   (groupOf s' job gid).phase = (groupOf s job gid).phase + 1 ∧ (groupOf s' job gid).members = (groupOf s job gid).members ∧ s'.mem = s.mem)

/-- DRAIN_LEAD and WINDOW_CLOSE stop and resume HBM requests; WINDOW_OPEN counts the window, sets its close, the next
drain lead and the next window due, and steps the clock down at 95 degrees, or with 105 degrees reached stops the
clocks; a rail error aborts a recalibration or marks the rail failed; a replay starts on another die with the output
signed, and its comparison counts a pass or logs a mismatch, an abandoned one neither; boot applies a record that
passes every check, or is in recovery, with control core 0 alone running; features are accepted only as offered and
once; a quote holds the digests, the nonce and the features, signed. The record that a replay runs, the clock's way
up, which rail an error aborts and that boot is one event are the model's choices (log entries 44, 64, 65, 66). (R83,
R84, R339, R342, R344, R345, R346, R391, R392, R393, R394) -/
def Obligations.DredgeAuditBoot : Prop :=
    (∀ (s : State), exec .drainLead s = .next { s with dredge := { s.dredge with drained := true } } ∧
   ((∀ e ∈ s.engines, e.2.giveUp = false) → s.hbm.posted = [] →
     exec .windowClose s = .next { s with dredge := { s.dredge with drained := false } })) ∧
  (∀ (s : State),
   (s.plat.stop = true → exec .windowOpen s = .next { s with plat := { s.plat with boot := 3 } }) ∧
   (s.plat.stop = false → ∃ s', exec .windowOpen s = .next s' ∧ s'.now = s.now ∧
     s'.dredge.windows = (s.dredge.windows + 1) % 2 ^ 32 ∧ s'.dredge.drained = true ∧
     ⟨s.now + 2048, .windowClose⟩ ∈ s'.agenda ∧ ⟨s.now + 65024, .drainLead⟩ ∈ s'.agenda ∧ ⟨s.now + 65536, .windowOpen⟩ ∈ s'.agenda ∧
     (95 ≤ s.plat.temp → s'.plat.therm = true ∧ s'.plat.clk = if s.plat.clk = 2100 then 1800 else if s.plat.clk = 1800 then 1500 else 1200))) ∧
  (∀ (d rail : Nat) (s : State), d < 4 →
   (∃ s', exec (.railRecalDone d) s = .next s' ∧ dieOf s' d = { dieOf s d with recal := none, returning := none } ∧ s'.mem = s.mem) ∧
   (∀ r, (dieOf s d).recal = some r → r ≠ rail → ∃ s' n, exec (.railError d rail) s = .next s' ∧ 1 ≤ n ∧ n ≤ 64 ∧
     (dieOf s' d).failedRails = (dieOf s d).failedRails ∧ (dieOf s' d).recal = none ∧ (dieOf s' d).returning = some r ∧
     s'.agenda = s.agenda.filter (fun x => !isRecal d x.ev) ++ [⟨s.now + n, .railRecalDone d⟩]) ∧
   ((dieOf s d).recal = some rail ∨ (dieOf s d).recal = none ∧ (rail ∈ (dieOf s d).failedRails ∨ (dieOf s d).returning = some rail) →
     exec (.railError d rail) s = .next s) ∧
   ((dieOf s d).recal = none → rail ∉ (dieOf s d).failedRails → (dieOf s d).returning ≠ some rail → ∃ s', exec (.railError d rail) s = .next s' ∧
     (dieOf s' d).failedRails = (dieOf s d).failedRails ++ [rail] ∧ (dieOf s' d).recal = none ∧ s'.agenda = s.agenda)) ∧
  (∀ (temp power : Nat) (s : State), exec (.temperatureEvent temp power) s = .next { s with plat := { s.plat with
   temp := temp % 256, power := power % 65536, stop := s.plat.stop || decide (105 ≤ temp) } }) ∧
  (∀ (s s1 : State) (x : Sample) (bs : List Byte) (d : Nat), s.auditor.replaying = none → inWindow s = false →
   s.auditor.pending.find? (fun x => x.ended && reservationsOver s x.core) = some x →
   (x.bad = true → ∃ s', exec .auditReplayStart s = .next s' ∧ s'.auditor.pending = s.auditor.pending.erase x ∧
     s'.auditor.skipped = satInc 16 s.auditor.skipped ∧ s'.auditor.replaying = none ∧ s'.dies = s.dies) ∧
   (x.bad = false → replayDie s x.core = some d → outputBytes x.core (jobEntry s x.job).2 x.outputs s = (.ok bs, s1) →
     s1.auditor = s.auditor → ∃ s' e, exec .auditReplayStart s = .next s' ∧
     s'.auditor.replaying = some { x with sig := some (crc64 bs) } ∧ s'.auditor.pending = s.auditor.pending.erase x ∧
     e ∈ (dieOf s' d).entries ∧ e.id = s1.stamp ∧ e.state = 3 ∧ e.prio = 0 ∧ e.job = x.job ∧ e.record = replayRecord d x.record ∧
     e.replay = some (x.core, x.tid) ∧ d ≠ coreDie x.core ∧ s'.mem = s1.mem)) ∧
  (∀ (s : State) (x : Sample), s.auditor.replaying = some x →
   let sig := crc64 (x.outputs.flatMap (fun o => scratchRead s o.1.toNat o.2))
   (x.abandoned = true → exec .auditCompare s = .next { s with auditor := { s.auditor with replaying := none } }) ∧
   (x.abandoned = false → x.sig = some sig → exec .auditCompare s = .next { s with auditor :=
     { s.auditor with replaying := none, passed := satInc 16 s.auditor.passed } }) ∧
   (x.abandoned = false → x.sig ≠ some sig → fqRoom (dieOf s (coreDie x.core)) = true → (dieOf s (coreDie x.core)).fqHeld = [] →
     ∃ s', exec .auditCompare s = .next s' ∧ s'.auditor = { s.auditor with replaying := none, mismatch := satInc 16 s.auditor.mismatch } ∧
      (dieOf s' (coreDie x.core)).fqHead = ((dieOf s (coreDie x.core)).fqHead + 1) % 2 ^ 32)) ∧
  (∀ (s : State), ∃ s', exec .deviceResetBoot s = .next s' ∧ s'.now = 0 ∧ s'.mem = [] ∧ s'.agenda = [] ∧ s'.jobs = [] ∧ s'.engines = [] ∧
   s'.plat.image = s.plat.image ∧ s'.plat.firmware = s.plat.firmware ∧ (∀ c, threadOf s' c = none) ∧
   (∀ h : Fin 16, s'.harts[h].up = decide (h.val = 0)) ∧
   (recordChecks s.plat.image s.plat.firmware = false → s'.plat.boot = 2 ∧ s'.todo = []) ∧
   (recordChecks s.plat.image s.plat.firmware = true → s'.plat.boot = 1 ∧ s'.todo = [.ev .windowOpen] ∧
     s'.plat.yield_ = recordYield s.plat.image ∧ s'.hbm.live = recordLive s.plat.image ∧
     s'.plat.devid = BitVec.ofNat 16 (recordNat s.plat.image 0x008 2))) ∧
  (∀ (image firmware : List Byte) (s : State), s.plat.boot = 2 → image ≠ [] → firmware ≠ [] →
   let s1 : State := { s with plat := { s.plat with image := image, firmware := firmware } }
   exec (.recoveryUpload image firmware false) s = .next s1 ∧
   exec (.recoveryUpload image firmware true) s = exec .deviceResetBoot s1) ∧
  (∀ (v : Word) (s : State),
   (s.plat.accept.getLsbD 63 = true → exec (.featAcceptWrite v) s = .next s) ∧
   (s.plat.accept.getLsbD 63 = false → ∃ s', exec (.featAcceptWrite v) s = .next s' ∧
     (∀ i, i < 64 → s'.plat.accept.getLsbD i = if i < 5 then v.getLsbD i && s.plat.offer.getLsbD i else decide (i = 63) && v.getLsbD 63) ∧
     s'.plat.offer = s.plat.offer ∧ s'.dies = s.dies ∧ s'.mem = s.mem)) ∧
  (∀ (pa : Nat) (s : State) (g : Got) (s1 : State),
   (s.plat.quoteBusy.isSome = true → exec (.quote pa) s = .next { s with plat := { s.plat with quoteOvf := true } }) ∧
   (s.plat.quoteBusy = none → readPa s whoQuote (pa + 64) 32 = (g, s1) → ∃ s' n, exec (.quote pa) s = .next s' ∧ 1 ≤ n ∧
     s'.plat.quoteBusy = some (pa, g.bytes) ∧ s'.mem = s1.mem ∧ s'.agenda = s1.agenda ++ [⟨s1.now + n, .quoteComplete⟩])) ∧
  (∀ (pa : Nat) (nonce : List Byte) (s : State), s.plat.quoteBusy = some (pa, nonce) →
   let head := leBytes 32 s.plat.firmDigest.toNat ++ leBytes 32 s.plat.digest.toNat ++ nonce ++ leBytes 2 s.plat.devid.toNat ++
     leBytes 6 0 ++ leBytes 8 s.plat.accept.toNat ++ leBytes 16 0
   let bs := head ++ leBytes 64 (Config.sm2Sign (Config.sm3 head)).toNat ++ leBytes 64 0
   ∃ s', exec .quoteComplete s = .next s' ∧ s'.plat.quoteBusy = none ∧ s'.mem = (performWrite s whoQuote pa bs).2.mem)

/-- A flit in its turn whose CRC passes is accepted, counted against its channel and held until its group's tag, and a
flit whose CRC fails takes the receiver back to its in-order point; NAK, MAPNAK and the retry timeout resend every
unacknowledged flit in order; XACK, XSEQ, CREDIT and MAPADD change their own state alone; a lost lane is dropped from
the map and MAPNAK tells the far end, the mode following the lanes and going DOWN with too few; a trained lane comes
back by MAPADD; PORT_CFG_WRITE takes the link down and trains it, and training brings it up with the sequence at 0 or
leaves it as it was. When a map announced by MAPADD acts and when the end with the higher id adapts, that XSEQ takes
no SEQ before a resend, and what a corner of R350 to R357 leaves open are the model's choices (log entries 42, 43,
69). (R349, R350, R352, R353, R354, R355, R356, R357, R373, R374) -/
def Obligations.LinkEvents : Prop :=
    (∀ (p n seq lane : Nat) (mask : BitVec 8) (returns : List Nat) (s : State),
   let q := portOf s p
   let only (i : Instr) (P : Port → Prop) : Prop :=
     ∃ s', exec i s = .next s' ∧ P (portOf s' p) ∧ (∀ x, x ≠ p → portOf s' x = portOf s x) ∧ s'.mem = s.mem ∧ s'.agenda = s.agenda ∧
       s'.router.packets = s.router.packets ∧ s'.cores = s.cores
   exec (.idle p) s = .next s ∧
   only (.laneErrorInterval p) (fun x => x = { q with laneErr := [] }) ∧
   only (.credit p returns) (fun x => x = { q with used := x.used } ∧ x.used.length = q.used.length ∧
     ∀ (v u : Nat), q.used[v]? = some u → x.used[v]? = some (u - (returns[v]?).getD 0)) ∧
   (seq < 4096 → only (.mapadd p mask seq) (fun x => ∃ k, x = { q with addAt := some (k, mask) } ∧ q.txNext ≤ k ∧ k < q.txNext + 4096 ∧
     k % 4096 = seq)) ∧
   (n < 2 ^ 32 → only (.xseq p n) (fun x => ∃ k, x = { q with rxPos := k, rxLost := false } ∧
     (2 ^ 31 ≤ q.rxPos → k % 2 ^ 32 = n ∧ k ≤ q.rxPos + 2 ^ 31 ∧ q.rxPos ≤ k + 2 ^ 31) ∧
     (q.rxPos ≤ n → n < q.rxPos + 2 ^ 31 → k = n))) ∧
   (∀ e, q.ctl = [] → q.retry.find? (fun e => e.1 % 2 ^ 32 == n) = some e → only (.xack p n) (fun x =>
     x = { q with retry := q.retry.filter (fun x => decide (e.1 < x.1)), ackAt := s.now })) ∧
   (q.retry.find? (fun e => e.1 % 2 ^ 32 == n) = none → exec (.xack p n) s = .next s) ∧
   (wf 7 0 q.lcfg = 0 ∨ mgetD 0 lane q.laneErr + 1 < wf 7 0 q.lcfg → only (.uncorrectableCodeword p lane) (fun x =>
     x = { q with uncw := satInc 16 q.uncw, laneErr := mput lane (mgetD 0 lane q.laneErr + 1) q.laneErr }))) ∧
  (∀ (p ack : Nat) (mask : BitVec 8) (s : State) (e : Nat × Option Flit),
   let q := portOf s p
   let left := q.retry.filter (fun x => decide (e.1 < x.1))
   let mode := min (modeOf (laneCount q.rxMask)) (modeOf (laneCount mask))
   let resends (i : Instr) (kept : List (Nat × Option Flit)) (P : Port → Prop) : Prop :=
     ∃ s', exec i s = .next s' ∧ (portOf s' p).retry = kept ∧ (portOf s' p).ackAt = s.now ∧ P (portOf s' p) ∧
      (portOf s' p).wireOut.map (·.2) = q.wireOut.map (·.2) ++ kept.filterMap (·.2) ∧
      (portOf s' p).resent = min (q.resent + kept.length) (2 ^ 32 - 1) ∧ (∀ x, x ≠ p → portOf s' x = portOf s x)
   causeway q = false → q.ctl = [] → q.mode ≠ 0 → (∀ x ∈ q.retry, x.2.isSome = true) →
   (q.retry.find? (fun x => x.1 % 4096 == ack) = some e →
     resends (.nakReceive p ack) left (fun x => x.nakrx = satInc 16 q.nakrx ∧ x.txMask = q.txMask ∧ x.mode = q.mode) ∧
     (mode ≠ 0 → resends (.mapnak p mask ack) left (fun x => x.nakrx = satInc 16 q.nakrx ∧ x.txMask = mask ∧ x.addAt = none ∧
       x.mode = mode)) ∧
     (mode = 0 → ∃ s', exec (.mapnak p mask ack) s = .next s' ∧ (portOf s' p).mode = 0 ∧ (portOf s' p).retry = [])) ∧
   (q.retry ≠ [] → q.ackAt + 16384 ≤ s.now → resends (.linkRetryTimeout p) q.retry (fun x => x.txMask = q.txMask ∧ x.mode = q.mode)) ∧
   (q.resendOwed = false → s.now < q.ackAt + 16384 → exec (.linkRetryTimeout p) s = .next s)) ∧
  (∀ (p lane : Nat) (s : State), lane < 8 →
   let q := portOf s p
   let m := q.rxMask &&& ~~~(BitVec.ofNat 8 (2 ^ lane))
   let mode := min (modeOf (laneCount m)) (modeOf (laneCount q.txMask))
   q.mode ≠ 0 → q.rxMask.getLsbD lane = true → causeway q = false → q.addAt = none → linkRoom s q 1 = true →
   (mode ≠ 0 → ∃ s' l, exec (.laneLossOfLock p lane) s = .next s' ∧ (portOf s' p).rxMask = m ∧ (portOf s' p).txMask = q.txMask ∧
     (portOf s' p).mode = mode ∧ (portOf s' p).drops = satInc 16 q.drops ∧ (portOf s' p).rxNext = acceptedCount q ∧
     (portOf s' p).rxHold = [] ∧ lane ∈ (portOf s' p).shed ∧
     (portOf s' p).wireOut = q.wireOut ++ [(l, mkFlit (linkWord q.txNext (ackField q) 6 3 false false true) [2, m])]) ∧
   (mode = 0 → ∃ s', exec (.laneLossOfLock p lane) s = .next s' ∧ (portOf s' p).mode = 0 ∧ (portOf s' p).rxMask = 0 ∧
     (portOf s' p).retry = [])) ∧
  (∀ (p lane : Nat) (s : State), (portOf s p).mode ≠ 0 →
   let q := portOf s p
   (q.adapt = some (lane, 0) → exec (.laneTrainPass p lane) s = .next (beginLane s p)) ∧
   (q.adapt ≠ some (lane, 0) → q.adapt ≠ some (lane, 2) → exec (.laneTrainPass p lane) s = .next s) ∧
   (q.adapt = some (lane, 2) → q.rxAdd.isSome = true → exec (.laneTrainPass p lane) s = .next (schedule s 1 (.laneTrainPass p lane))) ∧
   (q.adapt = some (lane, 2) → q.rxAdd = none → ∃ s', exec (.laneTrainPass p lane) s = .next s' ∧ (portOf s' p).adapt = none ∧ (portOf s' p).rxMask = q.rxMask ∧
    (lane ∈ (portOf s' p).shed ∧ (portOf s' p).rxAdd = none ∨
     lane ∉ (portOf s' p).shed ∧ (portOf s' p).rxAdd = some (q.rxNext + 2048, q.rxMask ||| BitVec.ofNat 8 (2 ^ lane))))) ∧
  (∀ (p : Nat) (v : Word) (s : State),
   let role := wf 9 8 (v &&& 0xFFFF0000000007FF)
   let cfg := if s.plat.accept.getLsbD 1 then v &&& 0xFFFF0000000007FF else v &&& 0xFFFF0000000003FF
   let rest := s.agenda.filter (fun x => !(x.ev == .linkTrainingDone p))
   (role = 1 ∨ role = 2 → ∃ s' n, exec (.portCfgWrite p v) s = .next s' ∧ (portOf s' p).cfg = cfg ∧ (portOf s' p).training = true ∧
     (portOf s' p).mode = 0 ∧ 1 ≤ n ∧ s'.agenda = rest ++ [⟨s.now + n, .linkTrainingDone p⟩]) ∧
   (role = 0 ∨ role = 3 → ∃ s', exec (.portCfgWrite p v) s = .next s' ∧ (portOf s' p).cfg = cfg ∧ (portOf s' p).training = false ∧
     (portOf s' p).mode = 0 ∧ s'.agenda = rest)) ∧
  (∀ (p : Nat) (s : State), (portOf s p).training = true →
   let q := portOf s p
   ∃ s', exec (.linkTrainingDone p) s = .next s' ∧ (portOf s' p).training = false ∧ (portOf s' p).cfg = q.cfg ∧
    ((portOf s' p).mode = q.mode ∧ (portOf s' p).rxMask = q.rxMask ∧ (portOf s' p).peer = q.peer ∨
     (let x := portOf s' p
      x.mode ≠ 0 ∧ x.mode = min (modeOf (laneCount x.rxMask)) (modeOf (laneCount x.txMask)) ∧ x.peer = wf 63 48 q.cfg ∧
      x.txNext = 0 ∧ x.rxNext = 0 ∧ x.retry = [] ∧ x.used = List.replicate 6 0 ∧
      ∀ l, l < 8 → (x.rxMask.getLsbD l = true ∨ x.txMask.getLsbD l = true) → q.cfg.getLsbD l = true))) ∧
  (∀ (p : Nat) (f : Flit) (s : State),
   let q := portOf s p
   (q.mode = 0 → exec (.flitReceive p f) s = .next s) ∧
   (q.mode ≠ 0 → q.rxAdd = none → flitOk f = false → ∃ s', exec (.flitReceive p f) s = .next s' ∧ (portOf s' p).rxNext = acceptedCount q ∧
     (portOf s' p).rxHold = [] ∧ (portOf s' p).rxStopped = true ∧ s'.router.packets = s.router.packets) ∧
   (q.mode ≠ 0 → flitOk f = true → flitNo q f = q.rxNext → flitVc f < 6 → flitTag f = false → flitAckv f = false →
     q.rxHold = [] → q.rxAdd = none → q.cfg.getLsbD 10 = false → causeway q = false →
     ∃ s', exec (.flitReceive p f) s = .next s' ∧ portOf s' p = { unwire q true with
       rxPos := q.rxNext + 1, rxNext := q.rxNext + 1, rxStopped := false, held := q.held.modify (flitVc f) (· + 1), rxHold := [⟨q.rxNext, f, none, false⟩] } ∧
      (∀ x, x ≠ p → portOf s' x = portOf s x) ∧ s'.router.packets = s.router.packets ∧ s'.mem = s.mem))

/-- WR performs its bytes and is answered ACK, or ERR with the cause; RDREQ is answered with the bytes; ATOM and CTRADD
write the new value once and are answered ATOMRSP, the response kept 4 ms, and a repeated request is answered from the
cache and applied no second time; VATOM waits in its line's window of 64 cycles, whose end adds it to the line; BARARV
arrives, joins and leaves at the root at the phase it names, whose last arrival ends the phase and sends BARREL to
every package, or is refused while the forward-pending buffer is full; BARREL ends the groups' phase once, COLLP
reaches its context, and one that its leader is to relay takes a forward-pending entry or is answered RETRY 1;
management packets write a register, report, or store a key. The numbers that packages give a group's phases, with
which arrival, leave or BARREL they tell a replay, who an access is logged under, and what a corner of R359 to R389
leaves open are the model's choices (log entries 49, 52, 70). (R254, R319, R320, R360, R361, R366, R368, R370, R371,
R372, R381) -/
def Obligations.FabricTarget : Prop :=
    (∀ (p : Packet) (s s1 : State) (g : Got) (e a : Nat), 
   let answered (s0 s' : State) (kind : BitVec 8) (sub : BitVec 8) (data : List Byte) : Prop :=
     ∃ h, mget s0.router.nextId s'.router.packets = some h ∧ h.pkt.dst = p.src ∧ h.pkt.src = s0.plat.devid ∧ h.pkt.tag = p.tag ∧
       h.pkt.kind = kind ∧ h.pkt.sub = sub ∧ h.pkt.data = data ∧ h.pkt.job = p.job ∧ h.inPort = 44 ∧ h.cls = 2;
   (performWrite s (whoArrive s p) p.addr.toNat p.data = (none, s1) → ∃ s', exec (.wr p) s = .next s' ∧
     answered s1 s' 0x10 0 [] ∧ s'.mem = s1.mem) ∧
   (performWrite s (whoArrive s p) p.addr.toNat p.data = (some (e, a), s1) → e < 256 → ∃ s', exec (.wr p) s = .next s' ∧
     answered s1 s' 0x14 (BitVec.ofNat 8 e) [] ∧ s'.mem = s1.mem) ∧
   (readPa s (whoArrive s p) p.addr.toNat (p.aux.toNat % 8192) = (g, s1) → g.err = none → ∃ s', exec (.rdreq p) s = .next s' ∧
     answered s1 s' 0x11 0 g.bytes ∧ s'.mem = s1.mem)) ∧
  (∀ (p : Packet) (s s1 s2 : State) (g : Got), 
   let answered (s0 s' : State) (kind : BitVec 8) (sub : BitVec 8) (data : List Byte) : Prop :=
     ∃ h, mget s0.router.nextId s'.router.packets = some h ∧ h.pkt.dst = p.src ∧ h.pkt.src = s0.plat.devid ∧ h.pkt.tag = p.tag ∧
       h.pkt.kind = kind ∧ h.pkt.sub = sub ∧ h.pkt.data = data ∧ h.pkt.job = p.job ∧ h.inPort = 44 ∧ h.cls = 2;
   let key := p.src.toNat * 2 ^ 24 + p.tag.toNat
   let applied (i : Instr) (n : Nat) (s0 : State) (f : Word → Word) (data : Word → List Byte) : Prop :=
     readPa s0 (whoArrive s0 p) p.addr.toNat n = (g, s1) → g.err = none →
     let old : Word := BitVec.ofNat 64 (leNat g.bytes)
     performWrite s1 (whoArrive s0 p) p.addr.toNat (leBytes n (f old).toNat) = (none, s2) →
     ∃ s' r, exec i s = .next s' ∧ answered s2 s' 0x12 0 (data old) ∧ s'.mem = s2.mem ∧
       mget key s'.router.replies = some (r, s2.timer + 504000000) ∧ r.kind = 0x12 ∧ r.tag = p.tag ∧ r.data = data old
   mget key s.router.replies = none → key ∉ s.router.inWork → s.router.replies.length + s.router.inWork.length < 65536 →
   let n := if p.sub.getLsbD 4 then 8 else 4
   (∀ s0, atomTouch s (ownFatom s p n) p.addr.toNat n = .ok s0 → applied (.atomPacket p) n s0
     (fun old => atomNew (p.sub.toNat % 16) n old (BitVec.ofNat 64 (leNat (p.data.take 8)))
       (BitVec.ofNat 64 (leNat ((p.data.drop 8).take 8))))
     (fun old => if p.sub.getLsbD 5 then leBytes 8 old.toNat else [])) ∧
   (∀ f c q x, ownFatom s p n = some (c, q, x) → atomTouch s (some (c, q, x)) p.addr.toNat n = .error f →
     exec (.atomPacket p) s = .next (refuseReq (forget s p) c q.id f)) ∧
   applied (.ctradd p) 8 s (fun old => old + 1) (fun _ => [])) ∧
  (∀ (p r : Packet) (due : Nat) (s : State),
   let key := p.src.toNat * 2 ^ 24 + p.tag.toNat
   (mget key s.router.replies = some (r, due) → ∀ i ∈ [Instr.atomPacket p, .ctradd p, .vatomPacket p], ∃ s' h, exec i s = .next s' ∧
     mget s.router.nextId s'.router.packets = some h ∧ h.pkt.dst = r.dst ∧ h.pkt.tag = r.tag ∧ h.pkt.kind = r.kind ∧ h.pkt.data = r.data ∧
     s'.mem = s.mem ∧ s'.router.replies = s.router.replies ∧ s'.cores = s.cores) ∧
   (mget key s.router.replies = none → key ∈ s.router.inWork →
     ∀ i ∈ [Instr.atomPacket p, .ctradd p, .vatomPacket p], exec i s = .next s)) ∧
  (∀ (p : Packet) (s : State),
   let key := p.src.toNat * 2 ^ 24 + p.tag.toNat
   let line := p.addr.toNat / 128 * 128
   let ft := p.sub.getLsbD 0
   mget key s.router.replies = none → key ∉ s.router.inWork → s.router.replies.length + s.router.inWork.length < 65536 →
   ((∀ c ∈ s.router.combine, c.line ≠ line ∨ c.ft ≠ ft) → exec (.vatomPacket p) s = .next { s with
     agenda := s.agenda ++ [⟨s.now + 64, .combineWindowEnd line ft⟩],
     router := { s.router with inWork := key :: s.router.inWork, combine := s.router.combine ++ [⟨line, ft, [p]⟩] } }) ∧
   ((∃ c ∈ s.router.combine, c.line = line ∧ c.ft = ft) → exec (.vatomPacket p) s = .next { s with
     router := { s.router with inWork := key :: s.router.inWork, combine := s.router.combine.map (fun c =>
       if c.line = line ∧ c.ft = ft then { c with parts := c.parts ++ [p] } else c) } })) ∧
  (∀ (line : Nat) (ft : Bool) (p : Packet) (s sa s1 s2 : State) (g : Got), 
   let answered (s0 s' : State) (kind : BitVec 8) (sub : BitVec 8) (data : List Byte) : Prop :=
     ∃ h, mget s0.router.nextId s'.router.packets = some h ∧ h.pkt.dst = p.src ∧ h.pkt.src = s0.plat.devid ∧ h.pkt.tag = p.tag ∧
       h.pkt.kind = kind ∧ h.pkt.sub = sub ∧ h.pkt.data = data ∧ h.pkt.job = p.job ∧ h.inPort = 44 ∧ h.cls = 2;
   let n := if ft then 2 else 4
   let rest := s.router.combine.filter (fun c => !(c.line == line && c.ft == ft))
   let s0 : State := { s with router := { s.router with combine := rest } }
   let bs := bytesOf n ((elemsOf n g.bytes).zipIdx.map (fun e => vatomElem ft e.1 (column e.2 [elemsOf n p.data])))
   s.router.combine.find? (fun c => c.line == line && c.ft == ft) = some ⟨line, ft, [p]⟩ → (inHbm line = true → inWindow s = false) →
   admitted line [p] s0 = ([p], sa) → readPa sa (whoArrive sa p) line 128 = (g, s1) → g.err = none → performWrite s1 (whoArrive sa p) line bs = (none, s2) →
   ∃ s' r, exec (.combineWindowEnd line ft) s = .next s' ∧ answered s2 s' 0x12 0 [] ∧ s'.mem = s2.mem ∧
     s'.router.combine = s2.router.combine ∧ mget (p.src.toNat * 2 ^ 24 + p.tag.toNat) s'.router.replies = some r) ∧
  (∀ (p : Packet) (s : State), 
   let answered (s0 s' : State) (kind : BitVec 8) (sub : BitVec 8) (data : List Byte) : Prop :=
     ∃ h, mget s0.router.nextId s'.router.packets = some h ∧ h.pkt.dst = p.src ∧ h.pkt.src = s0.plat.devid ∧ h.pkt.tag = p.tag ∧
       h.pkt.kind = kind ∧ h.pkt.sub = sub ∧ h.pkt.data = data ∧ h.pkt.job = p.job ∧ h.inPort = 44 ∧ h.cls = 2;
   let key := rootKey p
   let d := p.src.toNat
   let e := rootOf s key
   let k := barrierPhase p
   let ends (i : Instr) (e' : RootEntry) : Prop :=
     rootDone e' = true → rootDone (nextPhase e') = false →
     (s.router.fwd.length < 16 → ∃ s', exec i s = .next s' ∧ answered s s' 0x10 0 [] ∧
       mget s.stamp s'.router.fwd = some e.packages.length ∧
       (∃ qs, s'.router.waiting = s.router.waiting ++ qs ∧ qs.map (fun q => (q.1.dst, q.1.kind, q.1.job, q.1.aux, q.2)) =
         e.packages.map (fun x => (BitVec.ofNat 16 x, 0x08, p.job, BitVec.ofNat 52 (p.aux.toNat % 65536 + 65536 * phaseOf e x),
           Waiter.barrel s.stamp))) ∧
       (let stay := e.packages.filter (fun x => decide (x ∉ e'.leaving))
        let come := e'.joining.filter (fun x => decide (x ∉ stay))
        let r := rootOf s' key
        stay ++ come ≠ [] → r.packages = stay ++ come ∧ r.joining = [] ∧ r.leaving = [] ∧ r.phase = (e.phase + 1) % 16 ∧
         (∀ x ∈ stay, phaseOf r x = (phaseOf e x + 1) % 16) ∧ (∀ x ∈ come, phaseOf r x = phaseOf e (65536 + x)) ∧
         (e'.joining = [] → r.arrived = []))) ∧
     (16 ≤ s.router.fwd.length → ∃ s', exec i s = .next s' ∧ rootOf s' key = e ∧ answered s s' 0x13 1 [])
   let stays (i : Instr) (e' : RootEntry) : Prop :=
     ∃ s', exec i s = .next s' ∧ rootOf s' key = e' ∧ answered s s' 0x10 0 [] ∧ s'.router.waiting = s.router.waiting ∧ s'.mem = s.mem
   let arrived : RootEntry := { e with arrived := if d ∈ e.arrived then e.arrived else e.arrived ++ [d] }
   let left : RootEntry := { e with leaving := if d ∈ e.leaving then e.leaving else e.leaving ++ [d] }
   (e.packages ≠ [] →
     ((d ∈ e.packages ∧ phaseOf e d = k ∨ d ∈ e.joining ∧ phaseOf e (65536 + d) = k) → ends (.barArvArrive p) arrived ∧ (rootDone arrived = false → stays (.barArvArrive p) arrived)) ∧
     ((d ∈ e.packages → phaseOf e d ≠ k) → (d ∈ e.joining → phaseOf e (65536 + d) ≠ k) → stays (.barArvArrive p) e) ∧
     (d ∉ e.joining → leavesAt e d k = true → ends (.barArvLeave p) left ∧ (rootDone left = false → stays (.barArvLeave p) left)) ∧
     (d ∉ e.joining → leavesAt e d k = false → stays (.barArvLeave p) e) ∧
     (d ∈ e.joining → stays (.barArvLeave p) { e with joining := e.joining.filter (fun x => decide (x ≠ d)) }) ∧
     ((d ∈ e.joining ∨ d ∈ e.packages ∧ d ∉ e.leaving) → stays (.barArvJoin p) e) ∧
     (d ∉ e.joining → (d ∉ e.packages ∨ d ∈ e.leaving) →
       stays (.barArvJoin p) { e with joining := e.joining ++ [d], nums := mput (65536 + d) k e.nums })) ∧
   (e.packages = [] → stays (.barArvJoin p) { e with packages := [d], phase := k, nums := [(d, k)], fresh := [d] })) ∧
  (∀ (p : Packet) (s : State),
   let answered (s0 s' : State) (kind : BitVec 8) (sub : BitVec 8) (data : List Byte) : Prop :=
     ∃ h, mget s0.router.nextId s'.router.packets = some h ∧ h.pkt.dst = p.src ∧ h.pkt.src = s0.plat.devid ∧ h.pkt.tag = p.tag ∧
       h.pkt.kind = kind ∧ h.pkt.sub = sub ∧ h.pkt.data = data ∧ h.pkt.job = p.job ∧ h.inPort = 44 ∧ h.cls = 2;
   let gid := p.aux.toNat % 65536
   let l := localOf s p.job.toNat gid
   (l.here = true → l.phase % 16 = barrierPhase p → (entriesOf s p.job.toNat gid).Nodup → ∃ s', exec (.barrel p) s = .next s' ∧
     answered s s' 0x10 0 [] ∧ s'.mem = s.mem ∧ (localOf s' p.job.toNat gid).phase = l.phase + 1 ∧
     ∀ j, (groupOf s' j gid).members = (groupOf s j gid).members ∧
       (groupOf s' j gid).phase = (groupOf s j gid).phase + (if j ∈ entriesOf s p.job.toNat gid then 1 else 0)) ∧
   ((l.here = false ∨ l.phase % 16 ≠ barrierPhase p) → ∃ s', exec (.barrel p) s = .next s' ∧ answered s s' 0x10 0 [] ∧
     s'.mem = s.mem ∧ s'.groups = s.groups ∧ s'.router.locals = s.router.locals) ∧
   (let ctx := 0x4000 + p.aux.toNat % 256
    let a := p.aux.toNat
    let k := collOf s ctx
    let x : CollIn := ⟨bits 24 16 a, p.src, p.sub, bits 8 16 a, p.addr.toNat, p.data⟩
    (relays k x = false → ∃ s', exec (.collp p) s = .next s' ∧ answered s s' 0x10 0 [] ∧ s'.mem = s.mem ∧
      collOf s' ctx = { k with inbox := k.inbox ++ [x] }) ∧
    (relays k x = true → 16 ≤ s.router.fwd.length → ∃ s', exec (.collp p) s = .next s' ∧ answered s s' 0x13 1 [] ∧
      s'.mem = s.mem ∧ collOf s' ctx = k) ∧
    (relays k x = true → s.router.fwd.length < 16 → ∃ s', exec (.collp p) s = .next s' ∧ answered s s' 0x10 0 [] ∧
      s'.mem = s.mem ∧ (collOf s' ctx).inbox = k.inbox ++ [x] ∧ mget s.stamp s'.router.fwd = some 1))) ∧
  (∀ (p : Packet) (s : State),
   (p.addr = 0x8008 → p.data.length = 8 → exec (.mgtmsgWrite p) s = .next { s with router := { s.router with
     e2e := BitVec.ofNat 64 (leNat p.data) &&& 0x00000003FFFFFFFF } }) ∧
   exec (.mgtmsgHealth p) s = .next { s with router := { s.router with health := s.router.health ++ [(p.src, p.data)] } } ∧
   ∃ s', exec (.mgtmsgKey p) s = .next s' ∧ s'.mem = (performWrite s whoFabric p.addr.toNat p.data).2.mem)

/-- An answer that finds its request forgets it and moves what waits for it on, one that finds none does nothing; RETRY
has the request sent again after 512 x 2^min(n, 5) cycles, an ERR halts the context with its cause; a timeout replays
the request, and after the last replay gives it up; a waiting request takes the next tag unless that was used within 4
ms or its request still waits for its response; a packet that has reached its device runs as its kind says, one of
unknown kind or without a key is discarded, a request without a key answered ERR with code 5; BW_CTL keeps a V bit in
use; key commands begin, are refused with a code, or set OVF, and ZERO and ZEROJOB leave the slot without its key.
That an own-device request needs its job's key too, and what a corner of R359 to R389 leaves open, are the model's
choices (log entry 70). (R51, R318, R319, R359, R360, R363, R364, R366, R367, R368, R375, R376) -/
def Obligations.FabricSource : Prop :=
    (∀ (p : Packet) (s : State) (o : Outst) (ctx no : Nat) (dst : Word),
   let rest := mdel p.tag.toNat s.router.outst
   let i := [Instr.ack p, .rdrsp p, .atomrsp p, .retry p, .err p]
   (mget p.tag.toNat s.router.outst = none → ∀ x ∈ i, exec x s = .next s) ∧
   (mget p.tag.toNat s.router.outst = some o → o.pkt.dst = p.src →
     (o.waiter = .op ctx no dst → ctx % 8 ≠ 5 → (∀ x ∈ s.agenda, x.ev ≠ .copyRecordProcess ctx) →
       (∃ s', exec (.ack p) s = .next s' ∧ s'.router.outst = rest ∧ s'.mem = s.mem ∧
         (engineOf s' ctx).ops = (engineOf s ctx).ops.map (fun x => if x.no = no then { x with waiting := x.waiting.erase dst.toNat } else x) ∧
         s'.agenda = s.agenda ++ [⟨s.now + 1, .copyRecordProcess ctx⟩]) ∧
       exec (.rdrsp p) s = .next (landPiece { s with router := { s.router with outst := rest } } ctx no dst p.data)) ∧
     (o.waiter = .ctr ctx no → ∃ s', exec (.atomrsp p) s = .next s' ∧ s'.router.outst = rest ∧ s'.mem = s.mem ∧
       (engineOf s' ctx).ops = (engineOf s ctx).ops.map (fun x => if x.no = no then { x with ctr := none } else x)) ∧
     (o.waiter = .collRead ctx → ∀ x r, (collOf s ctx).ops = x :: r → x.stage = 0 → ∃ s', exec (.rdrsp p) s = .next s' ∧
       s'.router.outst = rest ∧ (collOf s' ctx).ops = { x with own := x.own ++ p.data, waiting := 0 } :: r ∧ s'.mem = s.mem) ∧
     (∀ c req tid t q, o.waiter = .fatom c req tid → threadOf s c = some t → reqOf s c req = some q → t.det.tid = tid →
       acquires q.ord = false → ∃ s', exec (.atomrsp p) s = .next s' ∧ s'.router.outst = rest ∧ s'.mem = s.mem ∧
       s'.agenda = s.agenda ++ [⟨s.now + (1 + 2 * railDist c), .requestDataArrival c req 0⟩]) ∧
     (o.waits = false → ∃ s', exec (.retry p) s = .next s' ∧
       mget p.tag.toNat s'.router.outst = some { o with retries := o.retries + 1, waits := true } ∧ s'.mem = s.mem ∧
       s'.agenda = s.agenda ++ [⟨s.now + 512 * 2 ^ min o.retries 5, .retryBackoff p.tag.toNat⟩]) ∧
     (o.waiter = .ctr ctx no → ctx < 0x4000 → ctx % 8 < 5 → (engineOf s ctx).halted = none → (waiterIssuer s ctx).replay = false →
       ∃ s' f, exec (.err p) s = .next s' ∧ s'.router.outst = rest ∧ (engineOf s' ctx).halted = some f ∧ f.cls = 8 ∧
        f.cause = p.sub.toNat ∧ f.ctx = ctx))) ∧
  (∀ (tag : Nat) (s : State) (o : Outst), mget tag s.router.outst = some o →
   let sentAgain (s' : State) (h : Held) : Prop :=
     mget s.router.nextId s'.router.packets = some h ∧ h.pkt.dst = o.pkt.dst ∧ h.pkt.tag = o.pkt.tag ∧ h.pkt.kind = o.pkt.kind ∧
     h.pkt.data = o.pkt.data ∧ h.pkt.addr = o.pkt.addr ∧ h.pkt.hops = 0 ∧ h.pkt.esc = false
   (o.waits = true → exec (.e2eTimeout tag) s = .next s ∧ ∃ s' h, exec (.retryBackoff tag) s = .next s' ∧ sentAgain s' h ∧
     mget tag s'.router.outst = some { o with waits := false, at_ := s.timer } ∧ s'.mem = s.mem) ∧
   (s.timer < o.at_ + e2eLimit s o.pkt.dst.toNat → exec (.e2eTimeout tag) s = .next s) ∧
   (o.waits = false → o.at_ + e2eLimit s o.pkt.dst.toNat ≤ s.timer → o.replays < wf 33 32 s.router.e2e →
     ∃ s' h, exec (.e2eTimeout tag) s = .next s' ∧ sentAgain s' h ∧
      mget tag s'.router.outst = some { o with replays := o.replays + 1, at_ := s.timer }) ∧
   (o.waits = false → o.at_ + e2eLimit s o.pkt.dst.toNat ≤ s.timer → wf 33 32 s.router.e2e ≤ o.replays → o.waiter = .group →
     ∃ s', exec (.e2eTimeout tag) s = .next s' ∧ s'.router.outst = mdel o.pkt.tag.toNat s.router.outst ∧
      s'.router.packets = s.router.packets)) ∧
  (∀ (s : State) (p : Packet) (w : Waiter) (rest : List (Packet × Waiter)),
   (s.router.waiting = [] → exec .tagReuseReady s = .next s) ∧
   (s.router.waiting = (p, w) :: rest → s.router.nextTag < 2 ^ 24 →
     ((∀ u, mget s.router.nextTag s.router.tagUse = some u → u + 504000000 ≤ s.timer) → mget s.router.nextTag s.router.outst = none →
       ∃ s' h, exec .tagReuseReady s = .next s' ∧ s'.router.waiting = rest ∧ s'.router.nextTag = (s.router.nextTag + 1) % 2 ^ 24 ∧
        mget s.router.nextTag s'.router.outst = some ⟨{ p with tag := BitVec.ofNat 24 s.router.nextTag }, w, 0, 0, s.timer, false⟩ ∧
        mget s.router.nextTag s'.router.tagUse = some s.timer ∧ mget s.router.nextId s'.router.packets = some h ∧
        h.pkt.tag.toNat = s.router.nextTag ∧ h.pkt.dst = p.dst ∧ h.pkt.kind = p.kind ∧ h.inPort = 44 ∧ s'.mem = s.mem) ∧
     ((∃ u, mget s.router.nextTag s.router.tagUse = some u ∧ s.timer < u + 504000000) ∨ (mget s.router.nextTag s.router.outst).isSome = true →
       ∃ s', exec .tagReuseReady s = .next s' ∧ s'.router = s.router ∧ s'.mem = s.mem ∧ ∃ d ∈ s'.agenda, d.ev = .tagReuseReady))) ∧
  (∀ (src tag : Nat) (s : State), exec (.replyCacheExpiry src tag) s = .next { s with router := { s.router with
   replies := mdel (src * 2 ^ 24 + tag) s.router.replies } }) ∧
  (∀ (id : Nat) (s : State) (h : Held), mget id s.router.packets = some h → h.inPort = 44 →
   let kind := h.pkt.kind.toNat
   (kindOk kind = false → ∃ s', exec (.packetRoute id) s = .next s' ∧ s'.router.packets = mdel id s.router.packets ∧ s'.router.ports = s.router.ports) ∧
   (kindOk kind = true → h.pkt.dst = s.plat.devid → (2 ≤ h.cls ∨ (keySlot s h.pkt.job).isSome = true) → (inHbm h.pkt.addr.toNat = true → s.hbm.drop = none ∧ inWindow s = false) →
     exec (.packetRoute id) s = arrive h.pkt { s with router := { s.router with packets := mdel id s.router.packets } }) ∧
   (kindOk kind = true → h.pkt.dst ≠ s.plat.devid → keySlot s h.pkt.job = none → 2 ≤ h.cls →
     ∃ s', exec (.packetRoute id) s = .next s' ∧ s'.router.packets = mdel id s.router.packets ∧ s'.router.ports = s.router.ports) ∧
   (kindOk kind = true → h.cls < 2 → keySlot s h.pkt.job = none → s.router.installing ≠ some h.pkt.job.toNat → id < s.router.nextId →
     ∃ s' x, exec (.packetRoute id) s = .next s' ∧ mget id s'.router.packets = none ∧
      mget s.router.nextId s'.router.packets = some x ∧ x.pkt.dst = h.pkt.src ∧ x.pkt.tag = h.pkt.tag ∧ x.pkt.kind = 0x14 ∧
      x.pkt.sub = 5 ∧ x.pkt.job = 0) ∧
   ∃ s', exec (.escapeTimeout id) s = .next s' ∧ s'.mem = s.mem ∧ s'.router.ports = s.router.ports ∧
    mget id s'.router.packets = some { h with port := none, pkt := { h.pkt with esc := true, tp := s.router.bwctl.getLsbD 0 } }) ∧
  (∀ (v : Word) (s : State), ∃ s', exec (.bwCtlWrite v) s = .next s' ∧ s'.router.packets = s.router.packets ∧
   s'.router.bwctl.getLsbD 0 = v.getLsbD 0 ∧ s'.router.bwctl.toNat < 8 ∧ ∀ k : Bool, s'.router.bwctl.getLsbD (1 + b2n k) =
     (v.getLsbD (1 + b2n k) || (treeValid s k && (bwCount s k != 0 || k == s.router.bwctl.getLsbD 0)))) ∧
  (∀ (slot : BitVec 6) (job epoch : BitVec 16) (s : State),
   let begun (i : Instr) (op slot job epoch : Nat) : Prop := ∃ s' d, exec i s = .next s' ∧
     s'.router.keyBusy = some (op, slot, job, epoch) ∧ s'.router.keyErr = 0 ∧ s'.router.keys = s.router.keys ∧
     s'.router.installing = (if op = 1 then some job else none) ∧ 1 ≤ d ∧ s'.agenda = s.agenda ++ [⟨s.now + d, .keyCommandComplete⟩]
   (s.router.keyBusy.isSome = true → ∀ i ∈ [Instr.install slot job epoch, .zero slot, .zerojob job],
     exec i s = .next { s with router := { s.router with keyOvf := true } }) ∧
   (s.router.keyBusy = none →
     begun (.zero slot) 2 slot.toNat 0 0 ∧
     ((∀ k, mget slot.toNat s.router.keys = some k → k.job = job) → begun (.install slot job epoch) 1 slot.toNat job.toNat epoch.toNat) ∧
     (∀ k, mget slot.toNat s.router.keys = some k → k.job ≠ job →
       exec (.install slot job epoch) s = .next { s with router := { s.router with keyErr := 3 } }) ∧
     ((∃ k ∈ s.router.keys, k.2.job = job) → begun (.zerojob job) 3 0 job.toNat 0) ∧
     ((∀ k ∈ s.router.keys, k.2.job ≠ job) → exec (.zerojob job) s = .next { s with router := { s.router with keyErr := 4 } }))) ∧
  (∀ (s : State) (op sl slot job epoch : Nat) (k : Key), s.router.keyBusy = some (op, sl, job, epoch) →
   let gone : State := { s with router := { s.router with keys := mdel slot s.router.keys, keyBusy := none, installing := none, keyErr := 0 } }
   (op = 2 → sl = slot → s.router.keys.filter (fun x => x.1 == slot) = [(slot, k)] → groupOpen s k.job = false →
     exec .keyCommandComplete s = .next gone) ∧
   (op = 3 → s.router.keys.filter (fun x => x.2.job.toNat == job) = [(slot, k)] → groupOpen s k.job = false →
     exec .keyCommandComplete s = .next gone))

/-- With the clocks running: an event, packet or command that is first to be done is executed in the state without it; a
control core's word that decodes is executed with that hart current; the bundle at a running thread's position, when
it is one slot whose word decodes to i and nothing is held or due, has i executed with that core current, after which
the bundle is closed: the thread is at the next index unless i moved it, its registers, results and requests as i left
them. With nothing left at the instant the next ring cycle begins. (R86, R165, R170, R384) -/
def Obligations.StepRunsDecoded : Prop :=
  ∀ (s : State), s.plat.boot ≠ 3 →
  (s.todo = [] → step s = .next (advance s) ∧ (advance s).now = s.now + 1) ∧
  (∀ (i : Instr) (r : List Todo), s.todo = .ev i :: r → step s = exec i { s with todo := r }) ∧
  (∀ (h : Nat) (k : Hart) (i : Instr) (r : List Todo), s.todo = .quokor h :: r → s.harts.toList[h]? = some k →
    decodeQuokor k.word.toNat = some i → step s = exec i { s with todo := r, hart := h }) ∧
  (∀ (c w : Nat) (k : Kind) (i : Instr) (r : List Todo) (t : Thread), s.todo = .issue c :: r → threadOf s c = some t →
    t.phase = .running → t.kill = false → t.replay = false →
    t.q.holdM0 = none → t.q.holdM1 = none → t.q.holdV = none → t.q.holdX = none →
    t.q.buf.addr = t.q.seg → t.q.idx < t.q.buf.count → t.q.buf.bundles[t.q.idx]? = some [(k, w)] → decodeSlot k w = .ok i →
    let t1 : Thread := { t with attn := none, q := { t.q with moved := false, point := false } }
    let s1 : State := setThread { s with todo := r, cur := c } c t1
    dueAttn s1 c t1 = none → nullified t1 [(k, w)] = false →
    ∀ s' t', exec i s1 = .next s' → threadOf s' c = some t' → t'.attn = none →
     step s = .next (closeBundle s1 s' c [(k, i)]) ∧
     (t'.q.point = false → (if t'.q.moved = true then t'.q.idx else t'.q.idx + 1) < t'.q.buf.count →
       ∃ s'' t'', step s = .next s'' ∧ threadOf s'' c = some t'' ∧ t''.q.seg = t'.q.seg ∧
        t''.q.idx = (if t'.q.moved = true then t'.q.idx else t'.q.idx + 1) ∧
        t''.r = t'.r ∧ t''.c = t'.c ∧ t''.x = t'.x ∧ t''.reqs = t'.reqs ∧ s''.mem = s'.mem ∧
        (∀ x, x ≠ c → coreOf s'' x = coreOf s' x)))

/-- Words written out from the encodings of chapter 9, one or more of each slot kind and of the control cores, decode to
the instructions they stand for; a word of an unassigned operation, with a nonzero must-be-zero field, or of an S1
operation in the S0 slot is refused by name. (R209, R213, R214, R215, R216, R217, R218, R385, R212) -/
def Obligations.DecodeWords : Prop :=
    decodeSlot .s1 0x084C0000 = .ok (.movi ⟨false, 0⟩ 6 0) ∧
  decodeSlot .s1 0x0D410043 = .ok (.loopReg ⟨false, 0⟩ 1 1 3) ∧
  decodeSlot .s0 0x004C6080 = .ok (.add ⟨false, 0⟩ 6 6 1) ∧
  decodeSlot .s0 0x00C21FFF = .ok (.addi ⟨false, 0⟩ 1 1 0xFFF) ∧
  decodeSlot .s1 0xAE40002A = .ok (.trap ⟨true, 2⟩ 42) ∧
  decodeSlot .m0 0x006608085000 = .ok (.ldw ⟨false, ⟨false, 0⟩, false⟩ 6 1 0 0 1 40 0) ∧
  decodeSlot .m1 0x0381FFE00000 = .ok (.wait ⟨true, ⟨false, 0⟩, false⟩ 0 15 15 15) ∧
  decodeSlot .v 0x0041D0056020 = .ok (.vfma ⟨⟨false, 0⟩, false, 7⟩ 4 0 5 6 0 true) ∧
  decodeSlot .x 0x0023F00273D52D8D = .ok (.mma ⟨⟨false, 0⟩, false, 31⟩ true 2 14 15 1 10 11 12 13) ∧
  decodeSlot .c 0x00C2B6000000 = .ok (.binit ⟨false, 0⟩ 1 11 12) ∧
  decodeSlot .c 0x004100000000 = .ok (.copy ⟨false, 0⟩ 0 2) ∧
  decodeSlot .q 0x004200000000 = .ok (.enqt ⟨false, 0⟩ 1) ∧
  decodeQuokor 0x00C5850B = some (.qenq 12 11 10) ∧
  decodeQuokor 0x0000100B = some .qfence ∧
  decodeSlot .s1 0x0A000000 = .error .unassignedOp ∧
  decodeSlot .s1 0x004C6081 = .error .nonzeroField ∧
  decodeSlot .s0 0x0E000000 = .error .s1Only

/-- For every well-formed instruction of a slot, with every operand at every value its encoding admits, decoding its
encoding in its slot kind gives that instruction; one not marked S1 decodes in S0 too; QENQ with any registers and
QFENCE decode from their encodings. (R209, R210, R213, R214, R215, R216, R217, R218, R385) -/
def Obligations.EncodeDecode : Prop :=
    (∀ (i : Instr) (k : Kind), WellFormed i = true → slotKind i = some k → decodeSlot k (encode i) = .ok i) ∧
  (∀ (i : Instr), WellFormed i = true → slotKind i = some .s1 → s1Only i = false → decodeSlot .s0 (encode i) = .ok i) ∧
  (∀ (rs2 rs1 rd : BitVec 5), decodeQuokor (encode (.qenq rs2 rs1 rd)) = some (.qenq rs2 rs1 rd)) ∧
  decodeQuokor (encode .qfence) = some .qfence

/-- From every state whose memory is in its one canonical form, addresses strictly rising and no entry equal to what an
unlisted address reads as, every step that gives a next state gives one whose memory is too: equal memories are equal
data throughout (the form and the zero byte of an unlisted address are the model's: log entry 12). (R16, R37) -/
def Obligations.MemoryCanonicalKept : Prop :=
  ∀ (s s' : State), Memory.wf s.mem = true → step s = .next s' → Memory.wf s'.mem = true

/-- After reset the clock reads zero, memory is canonical and lists nothing (the form is the model's: log entry 12), no
core runs a thread, the one thing to do is the boot, and the registers hold the values their chapters give
(FQ_BASE.BASE, for which none is given, is the model's 0: log entry 10); with the clocks stopped every step but a
recovery upload or a reset is the fault clocksStopped, and a control core's word outside the two instructions and their opcode is performed as RV64GC's word (log entry 94). (R49, R53,
R69, R104, R111, R160, R333, R343, R357, R369, R394, R384) -/
def Obligations.ResetAndStops : Prop :=
    (Memory.wf State.reset.mem = true ∧ State.reset.mem = [] ∧ State.reset.now = 0 ∧ State.reset.agenda = [] ∧
    State.reset.todo = [.ev .deviceResetBoot] ∧ (∀ c, threadOf State.reset c = none) ∧
    (∀ c, (coreOf State.reset c).slice.ecccfg = 0x1001 ∧ (coreOf State.reset c).probe.cfg = 0) ∧
    (∀ d, (dieOf State.reset d).run = false ∧ (dieOf State.reset d).fqBase = 10 ∧ (dieOf State.reset d).fqHead = 0) ∧
    State.reset.hbm.pcerrcfg = 0x400A ∧ State.reset.router.e2e = 0x303200064 ∧ (∀ p, (portOf State.reset p).cfg = 0xFF) ∧
    State.reset.auditor.ctl = 0x101400 ∧ State.reset.auditor.seed = 1 ∧ State.reset.weir.ctl = 0 ∧ State.reset.plat.clk = 2100 ∧
    State.reset.plat.cap = 4400) ∧
  (∀ (s : State), s.plat.boot = 3 → managementNext s = false → step s = .fault .clocksStopped) ∧
  (∀ (s : State) (h : Nat) (k : Hart) (r : List Todo), s.plat.boot ≠ 3 → s.todo = .quokor h :: r → s.harts.toList[h]? = some k →
    decodeQuokor k.word.toNat = none → k.word.toNat % 128 ≠ 0x0B →
    step s = .next (hartStep { s with todo := r } h k))
end

