-- ==== Sys2Proof/Laws/Maps.lean ====
section
/-! SUPPORT. Laws of data by key: what is read back after a write or a removal. -/

namespace Sys2Proof.Machine

theorem mget_mput_same {α : Type} (k : Nat) (v : α) (m : Map α) : mget k (mput k v m) = some v := by
  induction m with
  | nil => simp [mput, mget]
  | cons x r ih =>
    obtain ⟨j, w⟩ := x
    simp only [mput]
    split
    · simp [mget]
    · split
      · simp [mget]
      · rename_i h
        simp [mget, Ne.symm h, ih]

theorem mget_mput_other {α : Type} (k x : Nat) (v : α) (m : Map α) (h : x ≠ k) : mget x (mput k v m) = mget x m := by
  induction m with
  | nil => simp [mput, mget, Ne.symm h]
  | cons y r ih =>
    obtain ⟨j, w⟩ := y
    simp only [mput]
    split
    · simp [mget, Ne.symm h]
    · split
      · rename_i e
        subst e
        simp [mget, Ne.symm h]
      · simp [mget, ih]

theorem mgetD_mput_same {α : Type} (d : α) (k : Nat) (v : α) (m : Map α) : mgetD d k (mput k v m) = v := by
  simp [mgetD, mget_mput_same]

theorem mgetD_mput_other {α : Type} (d : α) (k x : Nat) (v : α) (m : Map α) (h : x ≠ k) :
    mgetD d x (mput k v m) = mgetD d x m := by
  simp [mgetD, mget_mput_other k x v m h]

theorem mput_mput {α : Type} (k : Nat) (v w : α) (m : Map α) : mput k w (mput k v m) = mput k w m := by
  induction m with
  | nil => simp [mput]
  | cons x r ih =>
    obtain ⟨j, u⟩ := x
    by_cases h1 : k < j
    · simp [mput, h1]
    · by_cases h2 : k = j
      · simp [mput, h2]
      · simp [mput, h1, h2, ih]

theorem mget_mdel_other {α : Type} (k x : Nat) (m : Map α) (h : x ≠ k) : mget x (mdel k m) = mget x m := by
  induction m with
  | nil => rfl
  | cons y r ih =>
    obtain ⟨j, w⟩ := y
    simp only [mdel]
    split
    · rename_i e
      subst e
      simp [mget, Ne.symm h]
    · simp [mget, ih]

end Sys2Proof.Machine
end

