-- ==== Sys2Proof/Laws/State.lean ====
section
/-! SUPPORT. What each update of the state leaves as it was, one lemma per field, and what it sets (read-back). -/

namespace Sys2Proof.Machine

/-! setCore -/

@[simp] theorem setCore_now (s : State) (c : Nat) (k : Core) : (setCore s c k).now = s.now := rfl
@[simp] theorem setCore_timer (s : State) (c : Nat) (k : Core) : (setCore s c k).timer = s.timer := rfl
@[simp] theorem setCore_free (s : State) (c : Nat) (k : Core) : (setCore s c k).free = s.free := rfl
@[simp] theorem setCore_stamp (s : State) (c : Nat) (k : Core) : (setCore s c k).stamp = s.stamp := rfl
@[simp] theorem setCore_cur (s : State) (c : Nat) (k : Core) : (setCore s c k).cur = s.cur := rfl
@[simp] theorem setCore_hart (s : State) (c : Nat) (k : Core) : (setCore s c k).hart = s.hart := rfl
@[simp] theorem setCore_todo (s : State) (c : Nat) (k : Core) : (setCore s c k).todo = s.todo := rfl
@[simp] theorem setCore_agenda (s : State) (c : Nat) (k : Core) : (setCore s c k).agenda = s.agenda := rfl
@[simp] theorem setCore_mem (s : State) (c : Nat) (k : Core) : (setCore s c k).mem = s.mem := rfl
@[simp] theorem setCore_sramErr (s : State) (c : Nat) (k : Core) : (setCore s c k).sramErr = s.sramErr := rfl
@[simp] theorem setCore_tags (s : State) (c : Nat) (k : Core) : (setCore s c k).tags = s.tags := rfl
@[simp] theorem setCore_tagErr (s : State) (c : Nat) (k : Core) : (setCore s c k).tagErr = s.tagErr := rfl
@[simp] theorem setCore_barArr (s : State) (c : Nat) (k : Core) : (setCore s c k).barArr = s.barArr := rfl
@[simp] theorem setCore_engines (s : State) (c : Nat) (k : Core) : (setCore s c k).engines = s.engines := rfl
@[simp] theorem setCore_colls (s : State) (c : Nat) (k : Core) : (setCore s c k).colls = s.colls := rfl
@[simp] theorem setCore_ctxJobs (s : State) (c : Nat) (k : Core) : (setCore s c k).ctxJobs = s.ctxJobs := rfl
@[simp] theorem setCore_tlbs (s : State) (c : Nat) (k : Core) : (setCore s c k).tlbs = s.tlbs := rfl
@[simp] theorem setCore_walkCache (s : State) (c : Nat) (k : Core) : (setCore s c k).walkCache = s.walkCache := rfl
@[simp] theorem setCore_walks (s : State) (c : Nat) (k : Core) : (setCore s c k).walks = s.walks := rfl
@[simp] theorem setCore_walkFails (s : State) (c : Nat) (k : Core) : (setCore s c k).walkFails = s.walkFails := rfl
@[simp] theorem setCore_tlbis (s : State) (c : Nat) (k : Core) : (setCore s c k).tlbis = s.tlbis := rfl
@[simp] theorem setCore_tlbiq (s : State) (c : Nat) (k : Core) : (setCore s c k).tlbiq = s.tlbiq := rfl
@[simp] theorem setCore_dies (s : State) (c : Nat) (k : Core) : (setCore s c k).dies = s.dies := rfl
@[simp] theorem setCore_jobs (s : State) (c : Nat) (k : Core) : (setCore s c k).jobs = s.jobs := rfl
@[simp] theorem setCore_finals (s : State) (c : Nat) (k : Core) : (setCore s c k).finals = s.finals := rfl
@[simp] theorem setCore_liveTids (s : State) (c : Nat) (k : Core) : (setCore s c k).liveTids = s.liveTids := rfl
@[simp] theorem setCore_saved (s : State) (c : Nat) (k : Core) : (setCore s c k).saved = s.saved := rfl
@[simp] theorem setCore_groups (s : State) (c : Nat) (k : Core) : (setCore s c k).groups = s.groups := rfl
@[simp] theorem setCore_hbm (s : State) (c : Nat) (k : Core) : (setCore s c k).hbm = s.hbm := rfl
@[simp] theorem setCore_eddy (s : State) (c : Nat) (k : Core) : (setCore s c k).eddy = s.eddy := rfl
@[simp] theorem setCore_weir (s : State) (c : Nat) (k : Core) : (setCore s c k).weir = s.weir := rfl
@[simp] theorem setCore_router (s : State) (c : Nat) (k : Core) : (setCore s c k).router = s.router := rfl
@[simp] theorem setCore_harts (s : State) (c : Nat) (k : Core) : (setCore s c k).harts = s.harts := rfl
@[simp] theorem setCore_auditor (s : State) (c : Nat) (k : Core) : (setCore s c k).auditor = s.auditor := rfl
@[simp] theorem setCore_plat (s : State) (c : Nat) (k : Core) : (setCore s c k).plat = s.plat := rfl
@[simp] theorem setCore_dredge (s : State) (c : Nat) (k : Core) : (setCore s c k).dredge = s.dredge := rfl

/-! setThread -/

@[simp] theorem setThread_now (s : State) (c : Nat) (t : Thread) : (setThread s c t).now = s.now := rfl
@[simp] theorem setThread_timer (s : State) (c : Nat) (t : Thread) : (setThread s c t).timer = s.timer := rfl
@[simp] theorem setThread_free (s : State) (c : Nat) (t : Thread) : (setThread s c t).free = s.free := rfl
@[simp] theorem setThread_stamp (s : State) (c : Nat) (t : Thread) : (setThread s c t).stamp = s.stamp := rfl
@[simp] theorem setThread_cur (s : State) (c : Nat) (t : Thread) : (setThread s c t).cur = s.cur := rfl
@[simp] theorem setThread_hart (s : State) (c : Nat) (t : Thread) : (setThread s c t).hart = s.hart := rfl
@[simp] theorem setThread_todo (s : State) (c : Nat) (t : Thread) : (setThread s c t).todo = s.todo := rfl
@[simp] theorem setThread_agenda (s : State) (c : Nat) (t : Thread) : (setThread s c t).agenda = s.agenda := rfl
@[simp] theorem setThread_mem (s : State) (c : Nat) (t : Thread) : (setThread s c t).mem = s.mem := rfl
@[simp] theorem setThread_sramErr (s : State) (c : Nat) (t : Thread) : (setThread s c t).sramErr = s.sramErr := rfl
@[simp] theorem setThread_tags (s : State) (c : Nat) (t : Thread) : (setThread s c t).tags = s.tags := rfl
@[simp] theorem setThread_tagErr (s : State) (c : Nat) (t : Thread) : (setThread s c t).tagErr = s.tagErr := rfl
@[simp] theorem setThread_barArr (s : State) (c : Nat) (t : Thread) : (setThread s c t).barArr = s.barArr := rfl
@[simp] theorem setThread_engines (s : State) (c : Nat) (t : Thread) : (setThread s c t).engines = s.engines := rfl
@[simp] theorem setThread_colls (s : State) (c : Nat) (t : Thread) : (setThread s c t).colls = s.colls := rfl
@[simp] theorem setThread_ctxJobs (s : State) (c : Nat) (t : Thread) : (setThread s c t).ctxJobs = s.ctxJobs := rfl
@[simp] theorem setThread_tlbs (s : State) (c : Nat) (t : Thread) : (setThread s c t).tlbs = s.tlbs := rfl
@[simp] theorem setThread_walkCache (s : State) (c : Nat) (t : Thread) : (setThread s c t).walkCache = s.walkCache := rfl
@[simp] theorem setThread_walks (s : State) (c : Nat) (t : Thread) : (setThread s c t).walks = s.walks := rfl
@[simp] theorem setThread_walkFails (s : State) (c : Nat) (t : Thread) : (setThread s c t).walkFails = s.walkFails := rfl
@[simp] theorem setThread_tlbis (s : State) (c : Nat) (t : Thread) : (setThread s c t).tlbis = s.tlbis := rfl
@[simp] theorem setThread_tlbiq (s : State) (c : Nat) (t : Thread) : (setThread s c t).tlbiq = s.tlbiq := rfl
@[simp] theorem setThread_dies (s : State) (c : Nat) (t : Thread) : (setThread s c t).dies = s.dies := rfl
@[simp] theorem setThread_jobs (s : State) (c : Nat) (t : Thread) : (setThread s c t).jobs = s.jobs := rfl
@[simp] theorem setThread_finals (s : State) (c : Nat) (t : Thread) : (setThread s c t).finals = s.finals := rfl
@[simp] theorem setThread_liveTids (s : State) (c : Nat) (t : Thread) : (setThread s c t).liveTids = s.liveTids := rfl
@[simp] theorem setThread_saved (s : State) (c : Nat) (t : Thread) : (setThread s c t).saved = s.saved := rfl
@[simp] theorem setThread_groups (s : State) (c : Nat) (t : Thread) : (setThread s c t).groups = s.groups := rfl
@[simp] theorem setThread_hbm (s : State) (c : Nat) (t : Thread) : (setThread s c t).hbm = s.hbm := rfl
@[simp] theorem setThread_eddy (s : State) (c : Nat) (t : Thread) : (setThread s c t).eddy = s.eddy := rfl
@[simp] theorem setThread_weir (s : State) (c : Nat) (t : Thread) : (setThread s c t).weir = s.weir := rfl
@[simp] theorem setThread_router (s : State) (c : Nat) (t : Thread) : (setThread s c t).router = s.router := rfl
@[simp] theorem setThread_harts (s : State) (c : Nat) (t : Thread) : (setThread s c t).harts = s.harts := rfl
@[simp] theorem setThread_auditor (s : State) (c : Nat) (t : Thread) : (setThread s c t).auditor = s.auditor := rfl
@[simp] theorem setThread_plat (s : State) (c : Nat) (t : Thread) : (setThread s c t).plat = s.plat := rfl
@[simp] theorem setThread_dredge (s : State) (c : Nat) (t : Thread) : (setThread s c t).dredge = s.dredge := rfl

/-! modCore -/

@[simp] theorem modCore_now (s : State) (c : Nat) (f : Core → Core) : (modCore s c f).now = s.now := rfl
@[simp] theorem modCore_timer (s : State) (c : Nat) (f : Core → Core) : (modCore s c f).timer = s.timer := rfl
@[simp] theorem modCore_free (s : State) (c : Nat) (f : Core → Core) : (modCore s c f).free = s.free := rfl
@[simp] theorem modCore_stamp (s : State) (c : Nat) (f : Core → Core) : (modCore s c f).stamp = s.stamp := rfl
@[simp] theorem modCore_cur (s : State) (c : Nat) (f : Core → Core) : (modCore s c f).cur = s.cur := rfl
@[simp] theorem modCore_hart (s : State) (c : Nat) (f : Core → Core) : (modCore s c f).hart = s.hart := rfl
@[simp] theorem modCore_todo (s : State) (c : Nat) (f : Core → Core) : (modCore s c f).todo = s.todo := rfl
@[simp] theorem modCore_agenda (s : State) (c : Nat) (f : Core → Core) : (modCore s c f).agenda = s.agenda := rfl
@[simp] theorem modCore_mem (s : State) (c : Nat) (f : Core → Core) : (modCore s c f).mem = s.mem := rfl
@[simp] theorem modCore_sramErr (s : State) (c : Nat) (f : Core → Core) : (modCore s c f).sramErr = s.sramErr := rfl
@[simp] theorem modCore_tags (s : State) (c : Nat) (f : Core → Core) : (modCore s c f).tags = s.tags := rfl
@[simp] theorem modCore_tagErr (s : State) (c : Nat) (f : Core → Core) : (modCore s c f).tagErr = s.tagErr := rfl
@[simp] theorem modCore_barArr (s : State) (c : Nat) (f : Core → Core) : (modCore s c f).barArr = s.barArr := rfl
@[simp] theorem modCore_engines (s : State) (c : Nat) (f : Core → Core) : (modCore s c f).engines = s.engines := rfl
@[simp] theorem modCore_colls (s : State) (c : Nat) (f : Core → Core) : (modCore s c f).colls = s.colls := rfl
@[simp] theorem modCore_ctxJobs (s : State) (c : Nat) (f : Core → Core) : (modCore s c f).ctxJobs = s.ctxJobs := rfl
@[simp] theorem modCore_tlbs (s : State) (c : Nat) (f : Core → Core) : (modCore s c f).tlbs = s.tlbs := rfl
@[simp] theorem modCore_walkCache (s : State) (c : Nat) (f : Core → Core) : (modCore s c f).walkCache = s.walkCache := rfl
@[simp] theorem modCore_walks (s : State) (c : Nat) (f : Core → Core) : (modCore s c f).walks = s.walks := rfl
@[simp] theorem modCore_walkFails (s : State) (c : Nat) (f : Core → Core) : (modCore s c f).walkFails = s.walkFails := rfl
@[simp] theorem modCore_tlbis (s : State) (c : Nat) (f : Core → Core) : (modCore s c f).tlbis = s.tlbis := rfl
@[simp] theorem modCore_tlbiq (s : State) (c : Nat) (f : Core → Core) : (modCore s c f).tlbiq = s.tlbiq := rfl
@[simp] theorem modCore_dies (s : State) (c : Nat) (f : Core → Core) : (modCore s c f).dies = s.dies := rfl
@[simp] theorem modCore_jobs (s : State) (c : Nat) (f : Core → Core) : (modCore s c f).jobs = s.jobs := rfl
@[simp] theorem modCore_finals (s : State) (c : Nat) (f : Core → Core) : (modCore s c f).finals = s.finals := rfl
@[simp] theorem modCore_liveTids (s : State) (c : Nat) (f : Core → Core) : (modCore s c f).liveTids = s.liveTids := rfl
@[simp] theorem modCore_saved (s : State) (c : Nat) (f : Core → Core) : (modCore s c f).saved = s.saved := rfl
@[simp] theorem modCore_groups (s : State) (c : Nat) (f : Core → Core) : (modCore s c f).groups = s.groups := rfl
@[simp] theorem modCore_hbm (s : State) (c : Nat) (f : Core → Core) : (modCore s c f).hbm = s.hbm := rfl
@[simp] theorem modCore_eddy (s : State) (c : Nat) (f : Core → Core) : (modCore s c f).eddy = s.eddy := rfl
@[simp] theorem modCore_weir (s : State) (c : Nat) (f : Core → Core) : (modCore s c f).weir = s.weir := rfl
@[simp] theorem modCore_router (s : State) (c : Nat) (f : Core → Core) : (modCore s c f).router = s.router := rfl
@[simp] theorem modCore_harts (s : State) (c : Nat) (f : Core → Core) : (modCore s c f).harts = s.harts := rfl
@[simp] theorem modCore_auditor (s : State) (c : Nat) (f : Core → Core) : (modCore s c f).auditor = s.auditor := rfl
@[simp] theorem modCore_plat (s : State) (c : Nat) (f : Core → Core) : (modCore s c f).plat = s.plat := rfl
@[simp] theorem modCore_dredge (s : State) (c : Nat) (f : Core → Core) : (modCore s c f).dredge = s.dredge := rfl

/-! modSlice -/

@[simp] theorem modSlice_now (s : State) (c : Nat) (f : Slice → Slice) : (modSlice s c f).now = s.now := rfl
@[simp] theorem modSlice_timer (s : State) (c : Nat) (f : Slice → Slice) : (modSlice s c f).timer = s.timer := rfl
@[simp] theorem modSlice_free (s : State) (c : Nat) (f : Slice → Slice) : (modSlice s c f).free = s.free := rfl
@[simp] theorem modSlice_stamp (s : State) (c : Nat) (f : Slice → Slice) : (modSlice s c f).stamp = s.stamp := rfl
@[simp] theorem modSlice_cur (s : State) (c : Nat) (f : Slice → Slice) : (modSlice s c f).cur = s.cur := rfl
@[simp] theorem modSlice_hart (s : State) (c : Nat) (f : Slice → Slice) : (modSlice s c f).hart = s.hart := rfl
@[simp] theorem modSlice_todo (s : State) (c : Nat) (f : Slice → Slice) : (modSlice s c f).todo = s.todo := rfl
@[simp] theorem modSlice_agenda (s : State) (c : Nat) (f : Slice → Slice) : (modSlice s c f).agenda = s.agenda := rfl
@[simp] theorem modSlice_mem (s : State) (c : Nat) (f : Slice → Slice) : (modSlice s c f).mem = s.mem := rfl
@[simp] theorem modSlice_sramErr (s : State) (c : Nat) (f : Slice → Slice) : (modSlice s c f).sramErr = s.sramErr := rfl
@[simp] theorem modSlice_tags (s : State) (c : Nat) (f : Slice → Slice) : (modSlice s c f).tags = s.tags := rfl
@[simp] theorem modSlice_tagErr (s : State) (c : Nat) (f : Slice → Slice) : (modSlice s c f).tagErr = s.tagErr := rfl
@[simp] theorem modSlice_barArr (s : State) (c : Nat) (f : Slice → Slice) : (modSlice s c f).barArr = s.barArr := rfl
@[simp] theorem modSlice_engines (s : State) (c : Nat) (f : Slice → Slice) : (modSlice s c f).engines = s.engines := rfl
@[simp] theorem modSlice_colls (s : State) (c : Nat) (f : Slice → Slice) : (modSlice s c f).colls = s.colls := rfl
@[simp] theorem modSlice_ctxJobs (s : State) (c : Nat) (f : Slice → Slice) : (modSlice s c f).ctxJobs = s.ctxJobs := rfl
@[simp] theorem modSlice_tlbs (s : State) (c : Nat) (f : Slice → Slice) : (modSlice s c f).tlbs = s.tlbs := rfl
@[simp] theorem modSlice_walkCache (s : State) (c : Nat) (f : Slice → Slice) : (modSlice s c f).walkCache = s.walkCache := rfl
@[simp] theorem modSlice_walks (s : State) (c : Nat) (f : Slice → Slice) : (modSlice s c f).walks = s.walks := rfl
@[simp] theorem modSlice_walkFails (s : State) (c : Nat) (f : Slice → Slice) : (modSlice s c f).walkFails = s.walkFails := rfl
@[simp] theorem modSlice_tlbis (s : State) (c : Nat) (f : Slice → Slice) : (modSlice s c f).tlbis = s.tlbis := rfl
@[simp] theorem modSlice_tlbiq (s : State) (c : Nat) (f : Slice → Slice) : (modSlice s c f).tlbiq = s.tlbiq := rfl
@[simp] theorem modSlice_dies (s : State) (c : Nat) (f : Slice → Slice) : (modSlice s c f).dies = s.dies := rfl
@[simp] theorem modSlice_jobs (s : State) (c : Nat) (f : Slice → Slice) : (modSlice s c f).jobs = s.jobs := rfl
@[simp] theorem modSlice_finals (s : State) (c : Nat) (f : Slice → Slice) : (modSlice s c f).finals = s.finals := rfl
@[simp] theorem modSlice_liveTids (s : State) (c : Nat) (f : Slice → Slice) : (modSlice s c f).liveTids = s.liveTids := rfl
@[simp] theorem modSlice_saved (s : State) (c : Nat) (f : Slice → Slice) : (modSlice s c f).saved = s.saved := rfl
@[simp] theorem modSlice_groups (s : State) (c : Nat) (f : Slice → Slice) : (modSlice s c f).groups = s.groups := rfl
@[simp] theorem modSlice_hbm (s : State) (c : Nat) (f : Slice → Slice) : (modSlice s c f).hbm = s.hbm := rfl
@[simp] theorem modSlice_eddy (s : State) (c : Nat) (f : Slice → Slice) : (modSlice s c f).eddy = s.eddy := rfl
@[simp] theorem modSlice_weir (s : State) (c : Nat) (f : Slice → Slice) : (modSlice s c f).weir = s.weir := rfl
@[simp] theorem modSlice_router (s : State) (c : Nat) (f : Slice → Slice) : (modSlice s c f).router = s.router := rfl
@[simp] theorem modSlice_harts (s : State) (c : Nat) (f : Slice → Slice) : (modSlice s c f).harts = s.harts := rfl
@[simp] theorem modSlice_auditor (s : State) (c : Nat) (f : Slice → Slice) : (modSlice s c f).auditor = s.auditor := rfl
@[simp] theorem modSlice_plat (s : State) (c : Nat) (f : Slice → Slice) : (modSlice s c f).plat = s.plat := rfl
@[simp] theorem modSlice_dredge (s : State) (c : Nat) (f : Slice → Slice) : (modSlice s c f).dredge = s.dredge := rfl

/-! modThread -/

@[simp] theorem modThread_now (s : State) (c : Nat) (f : Thread → Thread) : (modThread s c f).now = s.now := by unfold modThread; split <;> rfl
@[simp] theorem modThread_timer (s : State) (c : Nat) (f : Thread → Thread) : (modThread s c f).timer = s.timer := by unfold modThread; split <;> rfl
@[simp] theorem modThread_free (s : State) (c : Nat) (f : Thread → Thread) : (modThread s c f).free = s.free := by unfold modThread; split <;> rfl
@[simp] theorem modThread_stamp (s : State) (c : Nat) (f : Thread → Thread) : (modThread s c f).stamp = s.stamp := by unfold modThread; split <;> rfl
@[simp] theorem modThread_cur (s : State) (c : Nat) (f : Thread → Thread) : (modThread s c f).cur = s.cur := by unfold modThread; split <;> rfl
@[simp] theorem modThread_hart (s : State) (c : Nat) (f : Thread → Thread) : (modThread s c f).hart = s.hart := by unfold modThread; split <;> rfl
@[simp] theorem modThread_todo (s : State) (c : Nat) (f : Thread → Thread) : (modThread s c f).todo = s.todo := by unfold modThread; split <;> rfl
@[simp] theorem modThread_agenda (s : State) (c : Nat) (f : Thread → Thread) : (modThread s c f).agenda = s.agenda := by unfold modThread; split <;> rfl
@[simp] theorem modThread_mem (s : State) (c : Nat) (f : Thread → Thread) : (modThread s c f).mem = s.mem := by unfold modThread; split <;> rfl
@[simp] theorem modThread_sramErr (s : State) (c : Nat) (f : Thread → Thread) : (modThread s c f).sramErr = s.sramErr := by unfold modThread; split <;> rfl
@[simp] theorem modThread_tags (s : State) (c : Nat) (f : Thread → Thread) : (modThread s c f).tags = s.tags := by unfold modThread; split <;> rfl
@[simp] theorem modThread_tagErr (s : State) (c : Nat) (f : Thread → Thread) : (modThread s c f).tagErr = s.tagErr := by unfold modThread; split <;> rfl
@[simp] theorem modThread_barArr (s : State) (c : Nat) (f : Thread → Thread) : (modThread s c f).barArr = s.barArr := by unfold modThread; split <;> rfl
@[simp] theorem modThread_engines (s : State) (c : Nat) (f : Thread → Thread) : (modThread s c f).engines = s.engines := by unfold modThread; split <;> rfl
@[simp] theorem modThread_colls (s : State) (c : Nat) (f : Thread → Thread) : (modThread s c f).colls = s.colls := by unfold modThread; split <;> rfl
@[simp] theorem modThread_ctxJobs (s : State) (c : Nat) (f : Thread → Thread) : (modThread s c f).ctxJobs = s.ctxJobs := by unfold modThread; split <;> rfl
@[simp] theorem modThread_tlbs (s : State) (c : Nat) (f : Thread → Thread) : (modThread s c f).tlbs = s.tlbs := by unfold modThread; split <;> rfl
@[simp] theorem modThread_walkCache (s : State) (c : Nat) (f : Thread → Thread) : (modThread s c f).walkCache = s.walkCache := by unfold modThread; split <;> rfl
@[simp] theorem modThread_walks (s : State) (c : Nat) (f : Thread → Thread) : (modThread s c f).walks = s.walks := by unfold modThread; split <;> rfl
@[simp] theorem modThread_walkFails (s : State) (c : Nat) (f : Thread → Thread) : (modThread s c f).walkFails = s.walkFails := by unfold modThread; split <;> rfl
@[simp] theorem modThread_tlbis (s : State) (c : Nat) (f : Thread → Thread) : (modThread s c f).tlbis = s.tlbis := by unfold modThread; split <;> rfl
@[simp] theorem modThread_tlbiq (s : State) (c : Nat) (f : Thread → Thread) : (modThread s c f).tlbiq = s.tlbiq := by unfold modThread; split <;> rfl
@[simp] theorem modThread_dies (s : State) (c : Nat) (f : Thread → Thread) : (modThread s c f).dies = s.dies := by unfold modThread; split <;> rfl
@[simp] theorem modThread_jobs (s : State) (c : Nat) (f : Thread → Thread) : (modThread s c f).jobs = s.jobs := by unfold modThread; split <;> rfl
@[simp] theorem modThread_finals (s : State) (c : Nat) (f : Thread → Thread) : (modThread s c f).finals = s.finals := by unfold modThread; split <;> rfl
@[simp] theorem modThread_liveTids (s : State) (c : Nat) (f : Thread → Thread) : (modThread s c f).liveTids = s.liveTids := by unfold modThread; split <;> rfl
@[simp] theorem modThread_saved (s : State) (c : Nat) (f : Thread → Thread) : (modThread s c f).saved = s.saved := by unfold modThread; split <;> rfl
@[simp] theorem modThread_groups (s : State) (c : Nat) (f : Thread → Thread) : (modThread s c f).groups = s.groups := by unfold modThread; split <;> rfl
@[simp] theorem modThread_hbm (s : State) (c : Nat) (f : Thread → Thread) : (modThread s c f).hbm = s.hbm := by unfold modThread; split <;> rfl
@[simp] theorem modThread_eddy (s : State) (c : Nat) (f : Thread → Thread) : (modThread s c f).eddy = s.eddy := by unfold modThread; split <;> rfl
@[simp] theorem modThread_weir (s : State) (c : Nat) (f : Thread → Thread) : (modThread s c f).weir = s.weir := by unfold modThread; split <;> rfl
@[simp] theorem modThread_router (s : State) (c : Nat) (f : Thread → Thread) : (modThread s c f).router = s.router := by unfold modThread; split <;> rfl
@[simp] theorem modThread_harts (s : State) (c : Nat) (f : Thread → Thread) : (modThread s c f).harts = s.harts := by unfold modThread; split <;> rfl
@[simp] theorem modThread_auditor (s : State) (c : Nat) (f : Thread → Thread) : (modThread s c f).auditor = s.auditor := by unfold modThread; split <;> rfl
@[simp] theorem modThread_plat (s : State) (c : Nat) (f : Thread → Thread) : (modThread s c f).plat = s.plat := by unfold modThread; split <;> rfl
@[simp] theorem modThread_dredge (s : State) (c : Nat) (f : Thread → Thread) : (modThread s c f).dredge = s.dredge := by unfold modThread; split <;> rfl

/-! modDie -/

@[simp] theorem modDie_now (s : State) (d : Nat) (f : Die → Die) : (modDie s d f).now = s.now := by unfold modDie; split <;> rfl
@[simp] theorem modDie_timer (s : State) (d : Nat) (f : Die → Die) : (modDie s d f).timer = s.timer := by unfold modDie; split <;> rfl
@[simp] theorem modDie_free (s : State) (d : Nat) (f : Die → Die) : (modDie s d f).free = s.free := by unfold modDie; split <;> rfl
@[simp] theorem modDie_stamp (s : State) (d : Nat) (f : Die → Die) : (modDie s d f).stamp = s.stamp := by unfold modDie; split <;> rfl
@[simp] theorem modDie_cur (s : State) (d : Nat) (f : Die → Die) : (modDie s d f).cur = s.cur := by unfold modDie; split <;> rfl
@[simp] theorem modDie_hart (s : State) (d : Nat) (f : Die → Die) : (modDie s d f).hart = s.hart := by unfold modDie; split <;> rfl
@[simp] theorem modDie_todo (s : State) (d : Nat) (f : Die → Die) : (modDie s d f).todo = s.todo := by unfold modDie; split <;> rfl
@[simp] theorem modDie_agenda (s : State) (d : Nat) (f : Die → Die) : (modDie s d f).agenda = s.agenda := by unfold modDie; split <;> rfl
@[simp] theorem modDie_mem (s : State) (d : Nat) (f : Die → Die) : (modDie s d f).mem = s.mem := by unfold modDie; split <;> rfl
@[simp] theorem modDie_sramErr (s : State) (d : Nat) (f : Die → Die) : (modDie s d f).sramErr = s.sramErr := by unfold modDie; split <;> rfl
@[simp] theorem modDie_tags (s : State) (d : Nat) (f : Die → Die) : (modDie s d f).tags = s.tags := by unfold modDie; split <;> rfl
@[simp] theorem modDie_tagErr (s : State) (d : Nat) (f : Die → Die) : (modDie s d f).tagErr = s.tagErr := by unfold modDie; split <;> rfl
@[simp] theorem modDie_barArr (s : State) (d : Nat) (f : Die → Die) : (modDie s d f).barArr = s.barArr := by unfold modDie; split <;> rfl
@[simp] theorem modDie_cores (s : State) (d : Nat) (f : Die → Die) : (modDie s d f).cores = s.cores := by unfold modDie; split <;> rfl
@[simp] theorem modDie_engines (s : State) (d : Nat) (f : Die → Die) : (modDie s d f).engines = s.engines := by unfold modDie; split <;> rfl
@[simp] theorem modDie_colls (s : State) (d : Nat) (f : Die → Die) : (modDie s d f).colls = s.colls := by unfold modDie; split <;> rfl
@[simp] theorem modDie_ctxJobs (s : State) (d : Nat) (f : Die → Die) : (modDie s d f).ctxJobs = s.ctxJobs := by unfold modDie; split <;> rfl
@[simp] theorem modDie_tlbs (s : State) (d : Nat) (f : Die → Die) : (modDie s d f).tlbs = s.tlbs := by unfold modDie; split <;> rfl
@[simp] theorem modDie_walkCache (s : State) (d : Nat) (f : Die → Die) : (modDie s d f).walkCache = s.walkCache := by unfold modDie; split <;> rfl
@[simp] theorem modDie_walks (s : State) (d : Nat) (f : Die → Die) : (modDie s d f).walks = s.walks := by unfold modDie; split <;> rfl
@[simp] theorem modDie_walkFails (s : State) (d : Nat) (f : Die → Die) : (modDie s d f).walkFails = s.walkFails := by unfold modDie; split <;> rfl
@[simp] theorem modDie_tlbis (s : State) (d : Nat) (f : Die → Die) : (modDie s d f).tlbis = s.tlbis := by unfold modDie; split <;> rfl
@[simp] theorem modDie_tlbiq (s : State) (d : Nat) (f : Die → Die) : (modDie s d f).tlbiq = s.tlbiq := by unfold modDie; split <;> rfl
@[simp] theorem modDie_jobs (s : State) (d : Nat) (f : Die → Die) : (modDie s d f).jobs = s.jobs := by unfold modDie; split <;> rfl
@[simp] theorem modDie_finals (s : State) (d : Nat) (f : Die → Die) : (modDie s d f).finals = s.finals := by unfold modDie; split <;> rfl
@[simp] theorem modDie_liveTids (s : State) (d : Nat) (f : Die → Die) : (modDie s d f).liveTids = s.liveTids := by unfold modDie; split <;> rfl
@[simp] theorem modDie_saved (s : State) (d : Nat) (f : Die → Die) : (modDie s d f).saved = s.saved := by unfold modDie; split <;> rfl
@[simp] theorem modDie_groups (s : State) (d : Nat) (f : Die → Die) : (modDie s d f).groups = s.groups := by unfold modDie; split <;> rfl
@[simp] theorem modDie_hbm (s : State) (d : Nat) (f : Die → Die) : (modDie s d f).hbm = s.hbm := by unfold modDie; split <;> rfl
@[simp] theorem modDie_eddy (s : State) (d : Nat) (f : Die → Die) : (modDie s d f).eddy = s.eddy := by unfold modDie; split <;> rfl
@[simp] theorem modDie_weir (s : State) (d : Nat) (f : Die → Die) : (modDie s d f).weir = s.weir := by unfold modDie; split <;> rfl
@[simp] theorem modDie_router (s : State) (d : Nat) (f : Die → Die) : (modDie s d f).router = s.router := by unfold modDie; split <;> rfl
@[simp] theorem modDie_harts (s : State) (d : Nat) (f : Die → Die) : (modDie s d f).harts = s.harts := by unfold modDie; split <;> rfl
@[simp] theorem modDie_auditor (s : State) (d : Nat) (f : Die → Die) : (modDie s d f).auditor = s.auditor := by unfold modDie; split <;> rfl
@[simp] theorem modDie_plat (s : State) (d : Nat) (f : Die → Die) : (modDie s d f).plat = s.plat := by unfold modDie; split <;> rfl
@[simp] theorem modDie_dredge (s : State) (d : Nat) (f : Die → Die) : (modDie s d f).dredge = s.dredge := by unfold modDie; split <;> rfl

/-! modEngine -/

@[simp] theorem modEngine_now (s : State) (e : Nat) (f : Engine → Engine) : (modEngine s e f).now = s.now := rfl
@[simp] theorem modEngine_timer (s : State) (e : Nat) (f : Engine → Engine) : (modEngine s e f).timer = s.timer := rfl
@[simp] theorem modEngine_free (s : State) (e : Nat) (f : Engine → Engine) : (modEngine s e f).free = s.free := rfl
@[simp] theorem modEngine_stamp (s : State) (e : Nat) (f : Engine → Engine) : (modEngine s e f).stamp = s.stamp := rfl
@[simp] theorem modEngine_cur (s : State) (e : Nat) (f : Engine → Engine) : (modEngine s e f).cur = s.cur := rfl
@[simp] theorem modEngine_hart (s : State) (e : Nat) (f : Engine → Engine) : (modEngine s e f).hart = s.hart := rfl
@[simp] theorem modEngine_todo (s : State) (e : Nat) (f : Engine → Engine) : (modEngine s e f).todo = s.todo := rfl
@[simp] theorem modEngine_agenda (s : State) (e : Nat) (f : Engine → Engine) : (modEngine s e f).agenda = s.agenda := rfl
@[simp] theorem modEngine_mem (s : State) (e : Nat) (f : Engine → Engine) : (modEngine s e f).mem = s.mem := rfl
@[simp] theorem modEngine_sramErr (s : State) (e : Nat) (f : Engine → Engine) : (modEngine s e f).sramErr = s.sramErr := rfl
@[simp] theorem modEngine_tags (s : State) (e : Nat) (f : Engine → Engine) : (modEngine s e f).tags = s.tags := rfl
@[simp] theorem modEngine_tagErr (s : State) (e : Nat) (f : Engine → Engine) : (modEngine s e f).tagErr = s.tagErr := rfl
@[simp] theorem modEngine_barArr (s : State) (e : Nat) (f : Engine → Engine) : (modEngine s e f).barArr = s.barArr := rfl
@[simp] theorem modEngine_cores (s : State) (e : Nat) (f : Engine → Engine) : (modEngine s e f).cores = s.cores := rfl
@[simp] theorem modEngine_colls (s : State) (e : Nat) (f : Engine → Engine) : (modEngine s e f).colls = s.colls := rfl
@[simp] theorem modEngine_ctxJobs (s : State) (e : Nat) (f : Engine → Engine) : (modEngine s e f).ctxJobs = s.ctxJobs := rfl
@[simp] theorem modEngine_tlbs (s : State) (e : Nat) (f : Engine → Engine) : (modEngine s e f).tlbs = s.tlbs := rfl
@[simp] theorem modEngine_walkCache (s : State) (e : Nat) (f : Engine → Engine) : (modEngine s e f).walkCache = s.walkCache := rfl
@[simp] theorem modEngine_walks (s : State) (e : Nat) (f : Engine → Engine) : (modEngine s e f).walks = s.walks := rfl
@[simp] theorem modEngine_walkFails (s : State) (e : Nat) (f : Engine → Engine) : (modEngine s e f).walkFails = s.walkFails := rfl
@[simp] theorem modEngine_tlbis (s : State) (e : Nat) (f : Engine → Engine) : (modEngine s e f).tlbis = s.tlbis := rfl
@[simp] theorem modEngine_tlbiq (s : State) (e : Nat) (f : Engine → Engine) : (modEngine s e f).tlbiq = s.tlbiq := rfl
@[simp] theorem modEngine_dies (s : State) (e : Nat) (f : Engine → Engine) : (modEngine s e f).dies = s.dies := rfl
@[simp] theorem modEngine_jobs (s : State) (e : Nat) (f : Engine → Engine) : (modEngine s e f).jobs = s.jobs := rfl
@[simp] theorem modEngine_finals (s : State) (e : Nat) (f : Engine → Engine) : (modEngine s e f).finals = s.finals := rfl
@[simp] theorem modEngine_liveTids (s : State) (e : Nat) (f : Engine → Engine) : (modEngine s e f).liveTids = s.liveTids := rfl
@[simp] theorem modEngine_saved (s : State) (e : Nat) (f : Engine → Engine) : (modEngine s e f).saved = s.saved := rfl
@[simp] theorem modEngine_groups (s : State) (e : Nat) (f : Engine → Engine) : (modEngine s e f).groups = s.groups := rfl
@[simp] theorem modEngine_hbm (s : State) (e : Nat) (f : Engine → Engine) : (modEngine s e f).hbm = s.hbm := rfl
@[simp] theorem modEngine_eddy (s : State) (e : Nat) (f : Engine → Engine) : (modEngine s e f).eddy = s.eddy := rfl
@[simp] theorem modEngine_weir (s : State) (e : Nat) (f : Engine → Engine) : (modEngine s e f).weir = s.weir := rfl
@[simp] theorem modEngine_router (s : State) (e : Nat) (f : Engine → Engine) : (modEngine s e f).router = s.router := rfl
@[simp] theorem modEngine_harts (s : State) (e : Nat) (f : Engine → Engine) : (modEngine s e f).harts = s.harts := rfl
@[simp] theorem modEngine_auditor (s : State) (e : Nat) (f : Engine → Engine) : (modEngine s e f).auditor = s.auditor := rfl
@[simp] theorem modEngine_plat (s : State) (e : Nat) (f : Engine → Engine) : (modEngine s e f).plat = s.plat := rfl
@[simp] theorem modEngine_dredge (s : State) (e : Nat) (f : Engine → Engine) : (modEngine s e f).dredge = s.dredge := rfl

/-! takeFree -/

@[simp] theorem takeFree_now (s : State) : ((takeFree s).2).now = s.now := rfl
@[simp] theorem takeFree_timer (s : State) : ((takeFree s).2).timer = s.timer := rfl
@[simp] theorem takeFree_stamp (s : State) : ((takeFree s).2).stamp = s.stamp := rfl
@[simp] theorem takeFree_cur (s : State) : ((takeFree s).2).cur = s.cur := rfl
@[simp] theorem takeFree_hart (s : State) : ((takeFree s).2).hart = s.hart := rfl
@[simp] theorem takeFree_todo (s : State) : ((takeFree s).2).todo = s.todo := rfl
@[simp] theorem takeFree_agenda (s : State) : ((takeFree s).2).agenda = s.agenda := rfl
@[simp] theorem takeFree_mem (s : State) : ((takeFree s).2).mem = s.mem := rfl
@[simp] theorem takeFree_sramErr (s : State) : ((takeFree s).2).sramErr = s.sramErr := rfl
@[simp] theorem takeFree_tags (s : State) : ((takeFree s).2).tags = s.tags := rfl
@[simp] theorem takeFree_tagErr (s : State) : ((takeFree s).2).tagErr = s.tagErr := rfl
@[simp] theorem takeFree_barArr (s : State) : ((takeFree s).2).barArr = s.barArr := rfl
@[simp] theorem takeFree_cores (s : State) : ((takeFree s).2).cores = s.cores := rfl
@[simp] theorem takeFree_engines (s : State) : ((takeFree s).2).engines = s.engines := rfl
@[simp] theorem takeFree_colls (s : State) : ((takeFree s).2).colls = s.colls := rfl
@[simp] theorem takeFree_ctxJobs (s : State) : ((takeFree s).2).ctxJobs = s.ctxJobs := rfl
@[simp] theorem takeFree_tlbs (s : State) : ((takeFree s).2).tlbs = s.tlbs := rfl
@[simp] theorem takeFree_walkCache (s : State) : ((takeFree s).2).walkCache = s.walkCache := rfl
@[simp] theorem takeFree_walks (s : State) : ((takeFree s).2).walks = s.walks := rfl
@[simp] theorem takeFree_walkFails (s : State) : ((takeFree s).2).walkFails = s.walkFails := rfl
@[simp] theorem takeFree_tlbis (s : State) : ((takeFree s).2).tlbis = s.tlbis := rfl
@[simp] theorem takeFree_tlbiq (s : State) : ((takeFree s).2).tlbiq = s.tlbiq := rfl
@[simp] theorem takeFree_dies (s : State) : ((takeFree s).2).dies = s.dies := rfl
@[simp] theorem takeFree_jobs (s : State) : ((takeFree s).2).jobs = s.jobs := rfl
@[simp] theorem takeFree_finals (s : State) : ((takeFree s).2).finals = s.finals := rfl
@[simp] theorem takeFree_liveTids (s : State) : ((takeFree s).2).liveTids = s.liveTids := rfl
@[simp] theorem takeFree_saved (s : State) : ((takeFree s).2).saved = s.saved := rfl
@[simp] theorem takeFree_groups (s : State) : ((takeFree s).2).groups = s.groups := rfl
@[simp] theorem takeFree_hbm (s : State) : ((takeFree s).2).hbm = s.hbm := rfl
@[simp] theorem takeFree_eddy (s : State) : ((takeFree s).2).eddy = s.eddy := rfl
@[simp] theorem takeFree_weir (s : State) : ((takeFree s).2).weir = s.weir := rfl
@[simp] theorem takeFree_router (s : State) : ((takeFree s).2).router = s.router := rfl
@[simp] theorem takeFree_harts (s : State) : ((takeFree s).2).harts = s.harts := rfl
@[simp] theorem takeFree_auditor (s : State) : ((takeFree s).2).auditor = s.auditor := rfl
@[simp] theorem takeFree_plat (s : State) : ((takeFree s).2).plat = s.plat := rfl
@[simp] theorem takeFree_dredge (s : State) : ((takeFree s).2).dredge = s.dredge := rfl

/-! takeStamp -/

@[simp] theorem takeStamp_now (s : State) : ((takeStamp s).2).now = s.now := rfl
@[simp] theorem takeStamp_timer (s : State) : ((takeStamp s).2).timer = s.timer := rfl
@[simp] theorem takeStamp_free (s : State) : ((takeStamp s).2).free = s.free := rfl
@[simp] theorem takeStamp_cur (s : State) : ((takeStamp s).2).cur = s.cur := rfl
@[simp] theorem takeStamp_hart (s : State) : ((takeStamp s).2).hart = s.hart := rfl
@[simp] theorem takeStamp_todo (s : State) : ((takeStamp s).2).todo = s.todo := rfl
@[simp] theorem takeStamp_agenda (s : State) : ((takeStamp s).2).agenda = s.agenda := rfl
@[simp] theorem takeStamp_mem (s : State) : ((takeStamp s).2).mem = s.mem := rfl
@[simp] theorem takeStamp_sramErr (s : State) : ((takeStamp s).2).sramErr = s.sramErr := rfl
@[simp] theorem takeStamp_tags (s : State) : ((takeStamp s).2).tags = s.tags := rfl
@[simp] theorem takeStamp_tagErr (s : State) : ((takeStamp s).2).tagErr = s.tagErr := rfl
@[simp] theorem takeStamp_barArr (s : State) : ((takeStamp s).2).barArr = s.barArr := rfl
@[simp] theorem takeStamp_cores (s : State) : ((takeStamp s).2).cores = s.cores := rfl
@[simp] theorem takeStamp_engines (s : State) : ((takeStamp s).2).engines = s.engines := rfl
@[simp] theorem takeStamp_colls (s : State) : ((takeStamp s).2).colls = s.colls := rfl
@[simp] theorem takeStamp_ctxJobs (s : State) : ((takeStamp s).2).ctxJobs = s.ctxJobs := rfl
@[simp] theorem takeStamp_tlbs (s : State) : ((takeStamp s).2).tlbs = s.tlbs := rfl
@[simp] theorem takeStamp_walkCache (s : State) : ((takeStamp s).2).walkCache = s.walkCache := rfl
@[simp] theorem takeStamp_walks (s : State) : ((takeStamp s).2).walks = s.walks := rfl
@[simp] theorem takeStamp_walkFails (s : State) : ((takeStamp s).2).walkFails = s.walkFails := rfl
@[simp] theorem takeStamp_tlbis (s : State) : ((takeStamp s).2).tlbis = s.tlbis := rfl
@[simp] theorem takeStamp_tlbiq (s : State) : ((takeStamp s).2).tlbiq = s.tlbiq := rfl
@[simp] theorem takeStamp_dies (s : State) : ((takeStamp s).2).dies = s.dies := rfl
@[simp] theorem takeStamp_jobs (s : State) : ((takeStamp s).2).jobs = s.jobs := rfl
@[simp] theorem takeStamp_finals (s : State) : ((takeStamp s).2).finals = s.finals := rfl
@[simp] theorem takeStamp_liveTids (s : State) : ((takeStamp s).2).liveTids = s.liveTids := rfl
@[simp] theorem takeStamp_saved (s : State) : ((takeStamp s).2).saved = s.saved := rfl
@[simp] theorem takeStamp_groups (s : State) : ((takeStamp s).2).groups = s.groups := rfl
@[simp] theorem takeStamp_hbm (s : State) : ((takeStamp s).2).hbm = s.hbm := rfl
@[simp] theorem takeStamp_eddy (s : State) : ((takeStamp s).2).eddy = s.eddy := rfl
@[simp] theorem takeStamp_weir (s : State) : ((takeStamp s).2).weir = s.weir := rfl
@[simp] theorem takeStamp_router (s : State) : ((takeStamp s).2).router = s.router := rfl
@[simp] theorem takeStamp_harts (s : State) : ((takeStamp s).2).harts = s.harts := rfl
@[simp] theorem takeStamp_auditor (s : State) : ((takeStamp s).2).auditor = s.auditor := rfl
@[simp] theorem takeStamp_plat (s : State) : ((takeStamp s).2).plat = s.plat := rfl
@[simp] theorem takeStamp_dredge (s : State) : ((takeStamp s).2).dredge = s.dredge := rfl

/-! schedule -/

@[simp] theorem schedule_now (s : State) (d : Nat) (e : Instr) : (schedule s d e).now = s.now := by unfold schedule; split <;> rfl
@[simp] theorem schedule_timer (s : State) (d : Nat) (e : Instr) : (schedule s d e).timer = s.timer := by unfold schedule; split <;> rfl
@[simp] theorem schedule_free (s : State) (d : Nat) (e : Instr) : (schedule s d e).free = s.free := by unfold schedule; split <;> rfl
@[simp] theorem schedule_stamp (s : State) (d : Nat) (e : Instr) : (schedule s d e).stamp = s.stamp := by unfold schedule; split <;> rfl
@[simp] theorem schedule_cur (s : State) (d : Nat) (e : Instr) : (schedule s d e).cur = s.cur := by unfold schedule; split <;> rfl
@[simp] theorem schedule_hart (s : State) (d : Nat) (e : Instr) : (schedule s d e).hart = s.hart := by unfold schedule; split <;> rfl
@[simp] theorem schedule_mem (s : State) (d : Nat) (e : Instr) : (schedule s d e).mem = s.mem := by unfold schedule; split <;> rfl
@[simp] theorem schedule_sramErr (s : State) (d : Nat) (e : Instr) : (schedule s d e).sramErr = s.sramErr := by unfold schedule; split <;> rfl
@[simp] theorem schedule_tags (s : State) (d : Nat) (e : Instr) : (schedule s d e).tags = s.tags := by unfold schedule; split <;> rfl
@[simp] theorem schedule_tagErr (s : State) (d : Nat) (e : Instr) : (schedule s d e).tagErr = s.tagErr := by unfold schedule; split <;> rfl
@[simp] theorem schedule_barArr (s : State) (d : Nat) (e : Instr) : (schedule s d e).barArr = s.barArr := by unfold schedule; split <;> rfl
@[simp] theorem schedule_cores (s : State) (d : Nat) (e : Instr) : (schedule s d e).cores = s.cores := by unfold schedule; split <;> rfl
@[simp] theorem schedule_engines (s : State) (d : Nat) (e : Instr) : (schedule s d e).engines = s.engines := by unfold schedule; split <;> rfl
@[simp] theorem schedule_colls (s : State) (d : Nat) (e : Instr) : (schedule s d e).colls = s.colls := by unfold schedule; split <;> rfl
@[simp] theorem schedule_ctxJobs (s : State) (d : Nat) (e : Instr) : (schedule s d e).ctxJobs = s.ctxJobs := by unfold schedule; split <;> rfl
@[simp] theorem schedule_tlbs (s : State) (d : Nat) (e : Instr) : (schedule s d e).tlbs = s.tlbs := by unfold schedule; split <;> rfl
@[simp] theorem schedule_walkCache (s : State) (d : Nat) (e : Instr) : (schedule s d e).walkCache = s.walkCache := by unfold schedule; split <;> rfl
@[simp] theorem schedule_walks (s : State) (d : Nat) (e : Instr) : (schedule s d e).walks = s.walks := by unfold schedule; split <;> rfl
@[simp] theorem schedule_walkFails (s : State) (d : Nat) (e : Instr) : (schedule s d e).walkFails = s.walkFails := by unfold schedule; split <;> rfl
@[simp] theorem schedule_tlbis (s : State) (d : Nat) (e : Instr) : (schedule s d e).tlbis = s.tlbis := by unfold schedule; split <;> rfl
@[simp] theorem schedule_tlbiq (s : State) (d : Nat) (e : Instr) : (schedule s d e).tlbiq = s.tlbiq := by unfold schedule; split <;> rfl
@[simp] theorem schedule_dies (s : State) (d : Nat) (e : Instr) : (schedule s d e).dies = s.dies := by unfold schedule; split <;> rfl
@[simp] theorem schedule_jobs (s : State) (d : Nat) (e : Instr) : (schedule s d e).jobs = s.jobs := by unfold schedule; split <;> rfl
@[simp] theorem schedule_finals (s : State) (d : Nat) (e : Instr) : (schedule s d e).finals = s.finals := by unfold schedule; split <;> rfl
@[simp] theorem schedule_liveTids (s : State) (d : Nat) (e : Instr) : (schedule s d e).liveTids = s.liveTids := by unfold schedule; split <;> rfl
@[simp] theorem schedule_saved (s : State) (d : Nat) (e : Instr) : (schedule s d e).saved = s.saved := by unfold schedule; split <;> rfl
@[simp] theorem schedule_groups (s : State) (d : Nat) (e : Instr) : (schedule s d e).groups = s.groups := by unfold schedule; split <;> rfl
@[simp] theorem schedule_hbm (s : State) (d : Nat) (e : Instr) : (schedule s d e).hbm = s.hbm := by unfold schedule; split <;> rfl
@[simp] theorem schedule_eddy (s : State) (d : Nat) (e : Instr) : (schedule s d e).eddy = s.eddy := by unfold schedule; split <;> rfl
@[simp] theorem schedule_weir (s : State) (d : Nat) (e : Instr) : (schedule s d e).weir = s.weir := by unfold schedule; split <;> rfl
@[simp] theorem schedule_router (s : State) (d : Nat) (e : Instr) : (schedule s d e).router = s.router := by unfold schedule; split <;> rfl
@[simp] theorem schedule_harts (s : State) (d : Nat) (e : Instr) : (schedule s d e).harts = s.harts := by unfold schedule; split <;> rfl
@[simp] theorem schedule_auditor (s : State) (d : Nat) (e : Instr) : (schedule s d e).auditor = s.auditor := by unfold schedule; split <;> rfl
@[simp] theorem schedule_plat (s : State) (d : Nat) (e : Instr) : (schedule s d e).plat = s.plat := by unfold schedule; split <;> rfl
@[simp] theorem schedule_dredge (s : State) (d : Nat) (e : Instr) : (schedule s d e).dredge = s.dredge := by unfold schedule; split <;> rfl

/-! pushEvs -/

@[simp] theorem pushEvs_now (s : State) (es : List Instr) : (pushEvs s es).now = s.now := rfl
@[simp] theorem pushEvs_timer (s : State) (es : List Instr) : (pushEvs s es).timer = s.timer := rfl
@[simp] theorem pushEvs_free (s : State) (es : List Instr) : (pushEvs s es).free = s.free := rfl
@[simp] theorem pushEvs_stamp (s : State) (es : List Instr) : (pushEvs s es).stamp = s.stamp := rfl
@[simp] theorem pushEvs_cur (s : State) (es : List Instr) : (pushEvs s es).cur = s.cur := rfl
@[simp] theorem pushEvs_hart (s : State) (es : List Instr) : (pushEvs s es).hart = s.hart := rfl
@[simp] theorem pushEvs_agenda (s : State) (es : List Instr) : (pushEvs s es).agenda = s.agenda := rfl
@[simp] theorem pushEvs_mem (s : State) (es : List Instr) : (pushEvs s es).mem = s.mem := rfl
@[simp] theorem pushEvs_sramErr (s : State) (es : List Instr) : (pushEvs s es).sramErr = s.sramErr := rfl
@[simp] theorem pushEvs_tags (s : State) (es : List Instr) : (pushEvs s es).tags = s.tags := rfl
@[simp] theorem pushEvs_tagErr (s : State) (es : List Instr) : (pushEvs s es).tagErr = s.tagErr := rfl
@[simp] theorem pushEvs_barArr (s : State) (es : List Instr) : (pushEvs s es).barArr = s.barArr := rfl
@[simp] theorem pushEvs_cores (s : State) (es : List Instr) : (pushEvs s es).cores = s.cores := rfl
@[simp] theorem pushEvs_engines (s : State) (es : List Instr) : (pushEvs s es).engines = s.engines := rfl
@[simp] theorem pushEvs_colls (s : State) (es : List Instr) : (pushEvs s es).colls = s.colls := rfl
@[simp] theorem pushEvs_ctxJobs (s : State) (es : List Instr) : (pushEvs s es).ctxJobs = s.ctxJobs := rfl
@[simp] theorem pushEvs_tlbs (s : State) (es : List Instr) : (pushEvs s es).tlbs = s.tlbs := rfl
@[simp] theorem pushEvs_walkCache (s : State) (es : List Instr) : (pushEvs s es).walkCache = s.walkCache := rfl
@[simp] theorem pushEvs_walks (s : State) (es : List Instr) : (pushEvs s es).walks = s.walks := rfl
@[simp] theorem pushEvs_walkFails (s : State) (es : List Instr) : (pushEvs s es).walkFails = s.walkFails := rfl
@[simp] theorem pushEvs_tlbis (s : State) (es : List Instr) : (pushEvs s es).tlbis = s.tlbis := rfl
@[simp] theorem pushEvs_tlbiq (s : State) (es : List Instr) : (pushEvs s es).tlbiq = s.tlbiq := rfl
@[simp] theorem pushEvs_dies (s : State) (es : List Instr) : (pushEvs s es).dies = s.dies := rfl
@[simp] theorem pushEvs_jobs (s : State) (es : List Instr) : (pushEvs s es).jobs = s.jobs := rfl
@[simp] theorem pushEvs_finals (s : State) (es : List Instr) : (pushEvs s es).finals = s.finals := rfl
@[simp] theorem pushEvs_liveTids (s : State) (es : List Instr) : (pushEvs s es).liveTids = s.liveTids := rfl
@[simp] theorem pushEvs_saved (s : State) (es : List Instr) : (pushEvs s es).saved = s.saved := rfl
@[simp] theorem pushEvs_groups (s : State) (es : List Instr) : (pushEvs s es).groups = s.groups := rfl
@[simp] theorem pushEvs_hbm (s : State) (es : List Instr) : (pushEvs s es).hbm = s.hbm := rfl
@[simp] theorem pushEvs_eddy (s : State) (es : List Instr) : (pushEvs s es).eddy = s.eddy := rfl
@[simp] theorem pushEvs_weir (s : State) (es : List Instr) : (pushEvs s es).weir = s.weir := rfl
@[simp] theorem pushEvs_router (s : State) (es : List Instr) : (pushEvs s es).router = s.router := rfl
@[simp] theorem pushEvs_harts (s : State) (es : List Instr) : (pushEvs s es).harts = s.harts := rfl
@[simp] theorem pushEvs_auditor (s : State) (es : List Instr) : (pushEvs s es).auditor = s.auditor := rfl
@[simp] theorem pushEvs_plat (s : State) (es : List Instr) : (pushEvs s es).plat = s.plat := rfl
@[simp] theorem pushEvs_dredge (s : State) (es : List Instr) : (pushEvs s es).dredge = s.dredge := rfl

/-! cancel -/

@[simp] theorem cancel_now (s : State) (p : Instr → Bool) : (cancel s p).now = s.now := rfl
@[simp] theorem cancel_timer (s : State) (p : Instr → Bool) : (cancel s p).timer = s.timer := rfl
@[simp] theorem cancel_free (s : State) (p : Instr → Bool) : (cancel s p).free = s.free := rfl
@[simp] theorem cancel_stamp (s : State) (p : Instr → Bool) : (cancel s p).stamp = s.stamp := rfl
@[simp] theorem cancel_cur (s : State) (p : Instr → Bool) : (cancel s p).cur = s.cur := rfl
@[simp] theorem cancel_hart (s : State) (p : Instr → Bool) : (cancel s p).hart = s.hart := rfl
@[simp] theorem cancel_todo (s : State) (p : Instr → Bool) : (cancel s p).todo = s.todo := rfl
@[simp] theorem cancel_mem (s : State) (p : Instr → Bool) : (cancel s p).mem = s.mem := rfl
@[simp] theorem cancel_sramErr (s : State) (p : Instr → Bool) : (cancel s p).sramErr = s.sramErr := rfl
@[simp] theorem cancel_tags (s : State) (p : Instr → Bool) : (cancel s p).tags = s.tags := rfl
@[simp] theorem cancel_tagErr (s : State) (p : Instr → Bool) : (cancel s p).tagErr = s.tagErr := rfl
@[simp] theorem cancel_barArr (s : State) (p : Instr → Bool) : (cancel s p).barArr = s.barArr := rfl
@[simp] theorem cancel_cores (s : State) (p : Instr → Bool) : (cancel s p).cores = s.cores := rfl
@[simp] theorem cancel_engines (s : State) (p : Instr → Bool) : (cancel s p).engines = s.engines := rfl
@[simp] theorem cancel_colls (s : State) (p : Instr → Bool) : (cancel s p).colls = s.colls := rfl
@[simp] theorem cancel_ctxJobs (s : State) (p : Instr → Bool) : (cancel s p).ctxJobs = s.ctxJobs := rfl
@[simp] theorem cancel_tlbs (s : State) (p : Instr → Bool) : (cancel s p).tlbs = s.tlbs := rfl
@[simp] theorem cancel_walkCache (s : State) (p : Instr → Bool) : (cancel s p).walkCache = s.walkCache := rfl
@[simp] theorem cancel_walks (s : State) (p : Instr → Bool) : (cancel s p).walks = s.walks := rfl
@[simp] theorem cancel_walkFails (s : State) (p : Instr → Bool) : (cancel s p).walkFails = s.walkFails := rfl
@[simp] theorem cancel_tlbis (s : State) (p : Instr → Bool) : (cancel s p).tlbis = s.tlbis := rfl
@[simp] theorem cancel_tlbiq (s : State) (p : Instr → Bool) : (cancel s p).tlbiq = s.tlbiq := rfl
@[simp] theorem cancel_dies (s : State) (p : Instr → Bool) : (cancel s p).dies = s.dies := rfl
@[simp] theorem cancel_jobs (s : State) (p : Instr → Bool) : (cancel s p).jobs = s.jobs := rfl
@[simp] theorem cancel_finals (s : State) (p : Instr → Bool) : (cancel s p).finals = s.finals := rfl
@[simp] theorem cancel_liveTids (s : State) (p : Instr → Bool) : (cancel s p).liveTids = s.liveTids := rfl
@[simp] theorem cancel_saved (s : State) (p : Instr → Bool) : (cancel s p).saved = s.saved := rfl
@[simp] theorem cancel_groups (s : State) (p : Instr → Bool) : (cancel s p).groups = s.groups := rfl
@[simp] theorem cancel_hbm (s : State) (p : Instr → Bool) : (cancel s p).hbm = s.hbm := rfl
@[simp] theorem cancel_eddy (s : State) (p : Instr → Bool) : (cancel s p).eddy = s.eddy := rfl
@[simp] theorem cancel_weir (s : State) (p : Instr → Bool) : (cancel s p).weir = s.weir := rfl
@[simp] theorem cancel_router (s : State) (p : Instr → Bool) : (cancel s p).router = s.router := rfl
@[simp] theorem cancel_harts (s : State) (p : Instr → Bool) : (cancel s p).harts = s.harts := rfl
@[simp] theorem cancel_auditor (s : State) (p : Instr → Bool) : (cancel s p).auditor = s.auditor := rfl
@[simp] theorem cancel_plat (s : State) (p : Instr → Bool) : (cancel s p).plat = s.plat := rfl
@[simp] theorem cancel_dredge (s : State) (p : Instr → Bool) : (cancel s p).dredge = s.dredge := rfl

/-! modDredge -/

@[simp] theorem modDredge_now (s : State) (f : Dredge → Dredge) : (modDredge s f).now = s.now := rfl
@[simp] theorem modDredge_timer (s : State) (f : Dredge → Dredge) : (modDredge s f).timer = s.timer := rfl
@[simp] theorem modDredge_free (s : State) (f : Dredge → Dredge) : (modDredge s f).free = s.free := rfl
@[simp] theorem modDredge_stamp (s : State) (f : Dredge → Dredge) : (modDredge s f).stamp = s.stamp := rfl
@[simp] theorem modDredge_cur (s : State) (f : Dredge → Dredge) : (modDredge s f).cur = s.cur := rfl
@[simp] theorem modDredge_hart (s : State) (f : Dredge → Dredge) : (modDredge s f).hart = s.hart := rfl
@[simp] theorem modDredge_todo (s : State) (f : Dredge → Dredge) : (modDredge s f).todo = s.todo := rfl
@[simp] theorem modDredge_agenda (s : State) (f : Dredge → Dredge) : (modDredge s f).agenda = s.agenda := rfl
@[simp] theorem modDredge_mem (s : State) (f : Dredge → Dredge) : (modDredge s f).mem = s.mem := rfl
@[simp] theorem modDredge_sramErr (s : State) (f : Dredge → Dredge) : (modDredge s f).sramErr = s.sramErr := rfl
@[simp] theorem modDredge_tags (s : State) (f : Dredge → Dredge) : (modDredge s f).tags = s.tags := rfl
@[simp] theorem modDredge_tagErr (s : State) (f : Dredge → Dredge) : (modDredge s f).tagErr = s.tagErr := rfl
@[simp] theorem modDredge_barArr (s : State) (f : Dredge → Dredge) : (modDredge s f).barArr = s.barArr := rfl
@[simp] theorem modDredge_cores (s : State) (f : Dredge → Dredge) : (modDredge s f).cores = s.cores := rfl
@[simp] theorem modDredge_engines (s : State) (f : Dredge → Dredge) : (modDredge s f).engines = s.engines := rfl
@[simp] theorem modDredge_colls (s : State) (f : Dredge → Dredge) : (modDredge s f).colls = s.colls := rfl
@[simp] theorem modDredge_ctxJobs (s : State) (f : Dredge → Dredge) : (modDredge s f).ctxJobs = s.ctxJobs := rfl
@[simp] theorem modDredge_tlbs (s : State) (f : Dredge → Dredge) : (modDredge s f).tlbs = s.tlbs := rfl
@[simp] theorem modDredge_walkCache (s : State) (f : Dredge → Dredge) : (modDredge s f).walkCache = s.walkCache := rfl
@[simp] theorem modDredge_walks (s : State) (f : Dredge → Dredge) : (modDredge s f).walks = s.walks := rfl
@[simp] theorem modDredge_walkFails (s : State) (f : Dredge → Dredge) : (modDredge s f).walkFails = s.walkFails := rfl
@[simp] theorem modDredge_tlbis (s : State) (f : Dredge → Dredge) : (modDredge s f).tlbis = s.tlbis := rfl
@[simp] theorem modDredge_tlbiq (s : State) (f : Dredge → Dredge) : (modDredge s f).tlbiq = s.tlbiq := rfl
@[simp] theorem modDredge_dies (s : State) (f : Dredge → Dredge) : (modDredge s f).dies = s.dies := rfl
@[simp] theorem modDredge_jobs (s : State) (f : Dredge → Dredge) : (modDredge s f).jobs = s.jobs := rfl
@[simp] theorem modDredge_finals (s : State) (f : Dredge → Dredge) : (modDredge s f).finals = s.finals := rfl
@[simp] theorem modDredge_liveTids (s : State) (f : Dredge → Dredge) : (modDredge s f).liveTids = s.liveTids := rfl
@[simp] theorem modDredge_saved (s : State) (f : Dredge → Dredge) : (modDredge s f).saved = s.saved := rfl
@[simp] theorem modDredge_groups (s : State) (f : Dredge → Dredge) : (modDredge s f).groups = s.groups := rfl
@[simp] theorem modDredge_hbm (s : State) (f : Dredge → Dredge) : (modDredge s f).hbm = s.hbm := rfl
@[simp] theorem modDredge_eddy (s : State) (f : Dredge → Dredge) : (modDredge s f).eddy = s.eddy := rfl
@[simp] theorem modDredge_weir (s : State) (f : Dredge → Dredge) : (modDredge s f).weir = s.weir := rfl
@[simp] theorem modDredge_router (s : State) (f : Dredge → Dredge) : (modDredge s f).router = s.router := rfl
@[simp] theorem modDredge_harts (s : State) (f : Dredge → Dredge) : (modDredge s f).harts = s.harts := rfl
@[simp] theorem modDredge_auditor (s : State) (f : Dredge → Dredge) : (modDredge s f).auditor = s.auditor := rfl
@[simp] theorem modDredge_plat (s : State) (f : Dredge → Dredge) : (modDredge s f).plat = s.plat := rfl

/-! modPlat -/

@[simp] theorem modPlat_now (s : State) (f : Platform → Platform) : (modPlat s f).now = s.now := rfl
@[simp] theorem modPlat_timer (s : State) (f : Platform → Platform) : (modPlat s f).timer = s.timer := rfl
@[simp] theorem modPlat_free (s : State) (f : Platform → Platform) : (modPlat s f).free = s.free := rfl
@[simp] theorem modPlat_stamp (s : State) (f : Platform → Platform) : (modPlat s f).stamp = s.stamp := rfl
@[simp] theorem modPlat_cur (s : State) (f : Platform → Platform) : (modPlat s f).cur = s.cur := rfl
@[simp] theorem modPlat_hart (s : State) (f : Platform → Platform) : (modPlat s f).hart = s.hart := rfl
@[simp] theorem modPlat_todo (s : State) (f : Platform → Platform) : (modPlat s f).todo = s.todo := rfl
@[simp] theorem modPlat_agenda (s : State) (f : Platform → Platform) : (modPlat s f).agenda = s.agenda := rfl
@[simp] theorem modPlat_mem (s : State) (f : Platform → Platform) : (modPlat s f).mem = s.mem := rfl
@[simp] theorem modPlat_sramErr (s : State) (f : Platform → Platform) : (modPlat s f).sramErr = s.sramErr := rfl
@[simp] theorem modPlat_tags (s : State) (f : Platform → Platform) : (modPlat s f).tags = s.tags := rfl
@[simp] theorem modPlat_tagErr (s : State) (f : Platform → Platform) : (modPlat s f).tagErr = s.tagErr := rfl
@[simp] theorem modPlat_barArr (s : State) (f : Platform → Platform) : (modPlat s f).barArr = s.barArr := rfl
@[simp] theorem modPlat_cores (s : State) (f : Platform → Platform) : (modPlat s f).cores = s.cores := rfl
@[simp] theorem modPlat_engines (s : State) (f : Platform → Platform) : (modPlat s f).engines = s.engines := rfl
@[simp] theorem modPlat_colls (s : State) (f : Platform → Platform) : (modPlat s f).colls = s.colls := rfl
@[simp] theorem modPlat_ctxJobs (s : State) (f : Platform → Platform) : (modPlat s f).ctxJobs = s.ctxJobs := rfl
@[simp] theorem modPlat_tlbs (s : State) (f : Platform → Platform) : (modPlat s f).tlbs = s.tlbs := rfl
@[simp] theorem modPlat_walkCache (s : State) (f : Platform → Platform) : (modPlat s f).walkCache = s.walkCache := rfl
@[simp] theorem modPlat_walks (s : State) (f : Platform → Platform) : (modPlat s f).walks = s.walks := rfl
@[simp] theorem modPlat_walkFails (s : State) (f : Platform → Platform) : (modPlat s f).walkFails = s.walkFails := rfl
@[simp] theorem modPlat_tlbis (s : State) (f : Platform → Platform) : (modPlat s f).tlbis = s.tlbis := rfl
@[simp] theorem modPlat_tlbiq (s : State) (f : Platform → Platform) : (modPlat s f).tlbiq = s.tlbiq := rfl
@[simp] theorem modPlat_dies (s : State) (f : Platform → Platform) : (modPlat s f).dies = s.dies := rfl
@[simp] theorem modPlat_jobs (s : State) (f : Platform → Platform) : (modPlat s f).jobs = s.jobs := rfl
@[simp] theorem modPlat_finals (s : State) (f : Platform → Platform) : (modPlat s f).finals = s.finals := rfl
@[simp] theorem modPlat_liveTids (s : State) (f : Platform → Platform) : (modPlat s f).liveTids = s.liveTids := rfl
@[simp] theorem modPlat_saved (s : State) (f : Platform → Platform) : (modPlat s f).saved = s.saved := rfl
@[simp] theorem modPlat_groups (s : State) (f : Platform → Platform) : (modPlat s f).groups = s.groups := rfl
@[simp] theorem modPlat_hbm (s : State) (f : Platform → Platform) : (modPlat s f).hbm = s.hbm := rfl
@[simp] theorem modPlat_eddy (s : State) (f : Platform → Platform) : (modPlat s f).eddy = s.eddy := rfl
@[simp] theorem modPlat_weir (s : State) (f : Platform → Platform) : (modPlat s f).weir = s.weir := rfl
@[simp] theorem modPlat_router (s : State) (f : Platform → Platform) : (modPlat s f).router = s.router := rfl
@[simp] theorem modPlat_harts (s : State) (f : Platform → Platform) : (modPlat s f).harts = s.harts := rfl
@[simp] theorem modPlat_auditor (s : State) (f : Platform → Platform) : (modPlat s f).auditor = s.auditor := rfl
@[simp] theorem modPlat_dredge (s : State) (f : Platform → Platform) : (modPlat s f).dredge = s.dredge := rfl

/-! modRouter -/

@[simp] theorem modRouter_now (s : State) (f : Router → Router) : (modRouter s f).now = s.now := rfl
@[simp] theorem modRouter_timer (s : State) (f : Router → Router) : (modRouter s f).timer = s.timer := rfl
@[simp] theorem modRouter_free (s : State) (f : Router → Router) : (modRouter s f).free = s.free := rfl
@[simp] theorem modRouter_stamp (s : State) (f : Router → Router) : (modRouter s f).stamp = s.stamp := rfl
@[simp] theorem modRouter_cur (s : State) (f : Router → Router) : (modRouter s f).cur = s.cur := rfl
@[simp] theorem modRouter_hart (s : State) (f : Router → Router) : (modRouter s f).hart = s.hart := rfl
@[simp] theorem modRouter_todo (s : State) (f : Router → Router) : (modRouter s f).todo = s.todo := rfl
@[simp] theorem modRouter_agenda (s : State) (f : Router → Router) : (modRouter s f).agenda = s.agenda := rfl
@[simp] theorem modRouter_mem (s : State) (f : Router → Router) : (modRouter s f).mem = s.mem := rfl
@[simp] theorem modRouter_sramErr (s : State) (f : Router → Router) : (modRouter s f).sramErr = s.sramErr := rfl
@[simp] theorem modRouter_tags (s : State) (f : Router → Router) : (modRouter s f).tags = s.tags := rfl
@[simp] theorem modRouter_tagErr (s : State) (f : Router → Router) : (modRouter s f).tagErr = s.tagErr := rfl
@[simp] theorem modRouter_barArr (s : State) (f : Router → Router) : (modRouter s f).barArr = s.barArr := rfl
@[simp] theorem modRouter_cores (s : State) (f : Router → Router) : (modRouter s f).cores = s.cores := rfl
@[simp] theorem modRouter_engines (s : State) (f : Router → Router) : (modRouter s f).engines = s.engines := rfl
@[simp] theorem modRouter_colls (s : State) (f : Router → Router) : (modRouter s f).colls = s.colls := rfl
@[simp] theorem modRouter_ctxJobs (s : State) (f : Router → Router) : (modRouter s f).ctxJobs = s.ctxJobs := rfl
@[simp] theorem modRouter_tlbs (s : State) (f : Router → Router) : (modRouter s f).tlbs = s.tlbs := rfl
@[simp] theorem modRouter_walkCache (s : State) (f : Router → Router) : (modRouter s f).walkCache = s.walkCache := rfl
@[simp] theorem modRouter_walks (s : State) (f : Router → Router) : (modRouter s f).walks = s.walks := rfl
@[simp] theorem modRouter_walkFails (s : State) (f : Router → Router) : (modRouter s f).walkFails = s.walkFails := rfl
@[simp] theorem modRouter_tlbis (s : State) (f : Router → Router) : (modRouter s f).tlbis = s.tlbis := rfl
@[simp] theorem modRouter_tlbiq (s : State) (f : Router → Router) : (modRouter s f).tlbiq = s.tlbiq := rfl
@[simp] theorem modRouter_dies (s : State) (f : Router → Router) : (modRouter s f).dies = s.dies := rfl
@[simp] theorem modRouter_jobs (s : State) (f : Router → Router) : (modRouter s f).jobs = s.jobs := rfl
@[simp] theorem modRouter_finals (s : State) (f : Router → Router) : (modRouter s f).finals = s.finals := rfl
@[simp] theorem modRouter_liveTids (s : State) (f : Router → Router) : (modRouter s f).liveTids = s.liveTids := rfl
@[simp] theorem modRouter_saved (s : State) (f : Router → Router) : (modRouter s f).saved = s.saved := rfl
@[simp] theorem modRouter_groups (s : State) (f : Router → Router) : (modRouter s f).groups = s.groups := rfl
@[simp] theorem modRouter_hbm (s : State) (f : Router → Router) : (modRouter s f).hbm = s.hbm := rfl
@[simp] theorem modRouter_eddy (s : State) (f : Router → Router) : (modRouter s f).eddy = s.eddy := rfl
@[simp] theorem modRouter_weir (s : State) (f : Router → Router) : (modRouter s f).weir = s.weir := rfl
@[simp] theorem modRouter_harts (s : State) (f : Router → Router) : (modRouter s f).harts = s.harts := rfl
@[simp] theorem modRouter_auditor (s : State) (f : Router → Router) : (modRouter s f).auditor = s.auditor := rfl
@[simp] theorem modRouter_plat (s : State) (f : Router → Router) : (modRouter s f).plat = s.plat := rfl
@[simp] theorem modRouter_dredge (s : State) (f : Router → Router) : (modRouter s f).dredge = s.dredge := rfl

/-! modPort -/

@[simp] theorem modPort_now (s : State) (p : Nat) (f : Port → Port) : (modPort s p f).now = s.now := rfl
@[simp] theorem modPort_timer (s : State) (p : Nat) (f : Port → Port) : (modPort s p f).timer = s.timer := rfl
@[simp] theorem modPort_free (s : State) (p : Nat) (f : Port → Port) : (modPort s p f).free = s.free := rfl
@[simp] theorem modPort_stamp (s : State) (p : Nat) (f : Port → Port) : (modPort s p f).stamp = s.stamp := rfl
@[simp] theorem modPort_cur (s : State) (p : Nat) (f : Port → Port) : (modPort s p f).cur = s.cur := rfl
@[simp] theorem modPort_hart (s : State) (p : Nat) (f : Port → Port) : (modPort s p f).hart = s.hart := rfl
@[simp] theorem modPort_todo (s : State) (p : Nat) (f : Port → Port) : (modPort s p f).todo = s.todo := rfl
@[simp] theorem modPort_agenda (s : State) (p : Nat) (f : Port → Port) : (modPort s p f).agenda = s.agenda := rfl
@[simp] theorem modPort_mem (s : State) (p : Nat) (f : Port → Port) : (modPort s p f).mem = s.mem := rfl
@[simp] theorem modPort_sramErr (s : State) (p : Nat) (f : Port → Port) : (modPort s p f).sramErr = s.sramErr := rfl
@[simp] theorem modPort_tags (s : State) (p : Nat) (f : Port → Port) : (modPort s p f).tags = s.tags := rfl
@[simp] theorem modPort_tagErr (s : State) (p : Nat) (f : Port → Port) : (modPort s p f).tagErr = s.tagErr := rfl
@[simp] theorem modPort_barArr (s : State) (p : Nat) (f : Port → Port) : (modPort s p f).barArr = s.barArr := rfl
@[simp] theorem modPort_cores (s : State) (p : Nat) (f : Port → Port) : (modPort s p f).cores = s.cores := rfl
@[simp] theorem modPort_engines (s : State) (p : Nat) (f : Port → Port) : (modPort s p f).engines = s.engines := rfl
@[simp] theorem modPort_colls (s : State) (p : Nat) (f : Port → Port) : (modPort s p f).colls = s.colls := rfl
@[simp] theorem modPort_ctxJobs (s : State) (p : Nat) (f : Port → Port) : (modPort s p f).ctxJobs = s.ctxJobs := rfl
@[simp] theorem modPort_tlbs (s : State) (p : Nat) (f : Port → Port) : (modPort s p f).tlbs = s.tlbs := rfl
@[simp] theorem modPort_walkCache (s : State) (p : Nat) (f : Port → Port) : (modPort s p f).walkCache = s.walkCache := rfl
@[simp] theorem modPort_walks (s : State) (p : Nat) (f : Port → Port) : (modPort s p f).walks = s.walks := rfl
@[simp] theorem modPort_walkFails (s : State) (p : Nat) (f : Port → Port) : (modPort s p f).walkFails = s.walkFails := rfl
@[simp] theorem modPort_tlbis (s : State) (p : Nat) (f : Port → Port) : (modPort s p f).tlbis = s.tlbis := rfl
@[simp] theorem modPort_tlbiq (s : State) (p : Nat) (f : Port → Port) : (modPort s p f).tlbiq = s.tlbiq := rfl
@[simp] theorem modPort_dies (s : State) (p : Nat) (f : Port → Port) : (modPort s p f).dies = s.dies := rfl
@[simp] theorem modPort_jobs (s : State) (p : Nat) (f : Port → Port) : (modPort s p f).jobs = s.jobs := rfl
@[simp] theorem modPort_finals (s : State) (p : Nat) (f : Port → Port) : (modPort s p f).finals = s.finals := rfl
@[simp] theorem modPort_liveTids (s : State) (p : Nat) (f : Port → Port) : (modPort s p f).liveTids = s.liveTids := rfl
@[simp] theorem modPort_saved (s : State) (p : Nat) (f : Port → Port) : (modPort s p f).saved = s.saved := rfl
@[simp] theorem modPort_groups (s : State) (p : Nat) (f : Port → Port) : (modPort s p f).groups = s.groups := rfl
@[simp] theorem modPort_hbm (s : State) (p : Nat) (f : Port → Port) : (modPort s p f).hbm = s.hbm := rfl
@[simp] theorem modPort_eddy (s : State) (p : Nat) (f : Port → Port) : (modPort s p f).eddy = s.eddy := rfl
@[simp] theorem modPort_weir (s : State) (p : Nat) (f : Port → Port) : (modPort s p f).weir = s.weir := rfl
@[simp] theorem modPort_harts (s : State) (p : Nat) (f : Port → Port) : (modPort s p f).harts = s.harts := rfl
@[simp] theorem modPort_auditor (s : State) (p : Nat) (f : Port → Port) : (modPort s p f).auditor = s.auditor := rfl
@[simp] theorem modPort_plat (s : State) (p : Nat) (f : Port → Port) : (modPort s p f).plat = s.plat := rfl
@[simp] theorem modPort_dredge (s : State) (p : Nat) (f : Port → Port) : (modPort s p f).dredge = s.dredge := rfl

/-! modAudit -/

@[simp] theorem modAudit_now (s : State) (f : Auditor → Auditor) : (modAudit s f).now = s.now := rfl
@[simp] theorem modAudit_timer (s : State) (f : Auditor → Auditor) : (modAudit s f).timer = s.timer := rfl
@[simp] theorem modAudit_free (s : State) (f : Auditor → Auditor) : (modAudit s f).free = s.free := rfl
@[simp] theorem modAudit_stamp (s : State) (f : Auditor → Auditor) : (modAudit s f).stamp = s.stamp := rfl
@[simp] theorem modAudit_cur (s : State) (f : Auditor → Auditor) : (modAudit s f).cur = s.cur := rfl
@[simp] theorem modAudit_hart (s : State) (f : Auditor → Auditor) : (modAudit s f).hart = s.hart := rfl
@[simp] theorem modAudit_todo (s : State) (f : Auditor → Auditor) : (modAudit s f).todo = s.todo := rfl
@[simp] theorem modAudit_agenda (s : State) (f : Auditor → Auditor) : (modAudit s f).agenda = s.agenda := rfl
@[simp] theorem modAudit_mem (s : State) (f : Auditor → Auditor) : (modAudit s f).mem = s.mem := rfl
@[simp] theorem modAudit_sramErr (s : State) (f : Auditor → Auditor) : (modAudit s f).sramErr = s.sramErr := rfl
@[simp] theorem modAudit_tags (s : State) (f : Auditor → Auditor) : (modAudit s f).tags = s.tags := rfl
@[simp] theorem modAudit_tagErr (s : State) (f : Auditor → Auditor) : (modAudit s f).tagErr = s.tagErr := rfl
@[simp] theorem modAudit_barArr (s : State) (f : Auditor → Auditor) : (modAudit s f).barArr = s.barArr := rfl
@[simp] theorem modAudit_cores (s : State) (f : Auditor → Auditor) : (modAudit s f).cores = s.cores := rfl
@[simp] theorem modAudit_engines (s : State) (f : Auditor → Auditor) : (modAudit s f).engines = s.engines := rfl
@[simp] theorem modAudit_colls (s : State) (f : Auditor → Auditor) : (modAudit s f).colls = s.colls := rfl
@[simp] theorem modAudit_ctxJobs (s : State) (f : Auditor → Auditor) : (modAudit s f).ctxJobs = s.ctxJobs := rfl
@[simp] theorem modAudit_tlbs (s : State) (f : Auditor → Auditor) : (modAudit s f).tlbs = s.tlbs := rfl
@[simp] theorem modAudit_walkCache (s : State) (f : Auditor → Auditor) : (modAudit s f).walkCache = s.walkCache := rfl
@[simp] theorem modAudit_walks (s : State) (f : Auditor → Auditor) : (modAudit s f).walks = s.walks := rfl
@[simp] theorem modAudit_walkFails (s : State) (f : Auditor → Auditor) : (modAudit s f).walkFails = s.walkFails := rfl
@[simp] theorem modAudit_tlbis (s : State) (f : Auditor → Auditor) : (modAudit s f).tlbis = s.tlbis := rfl
@[simp] theorem modAudit_tlbiq (s : State) (f : Auditor → Auditor) : (modAudit s f).tlbiq = s.tlbiq := rfl
@[simp] theorem modAudit_dies (s : State) (f : Auditor → Auditor) : (modAudit s f).dies = s.dies := rfl
@[simp] theorem modAudit_jobs (s : State) (f : Auditor → Auditor) : (modAudit s f).jobs = s.jobs := rfl
@[simp] theorem modAudit_finals (s : State) (f : Auditor → Auditor) : (modAudit s f).finals = s.finals := rfl
@[simp] theorem modAudit_liveTids (s : State) (f : Auditor → Auditor) : (modAudit s f).liveTids = s.liveTids := rfl
@[simp] theorem modAudit_saved (s : State) (f : Auditor → Auditor) : (modAudit s f).saved = s.saved := rfl
@[simp] theorem modAudit_groups (s : State) (f : Auditor → Auditor) : (modAudit s f).groups = s.groups := rfl
@[simp] theorem modAudit_hbm (s : State) (f : Auditor → Auditor) : (modAudit s f).hbm = s.hbm := rfl
@[simp] theorem modAudit_eddy (s : State) (f : Auditor → Auditor) : (modAudit s f).eddy = s.eddy := rfl
@[simp] theorem modAudit_weir (s : State) (f : Auditor → Auditor) : (modAudit s f).weir = s.weir := rfl
@[simp] theorem modAudit_router (s : State) (f : Auditor → Auditor) : (modAudit s f).router = s.router := rfl
@[simp] theorem modAudit_harts (s : State) (f : Auditor → Auditor) : (modAudit s f).harts = s.harts := rfl
@[simp] theorem modAudit_plat (s : State) (f : Auditor → Auditor) : (modAudit s f).plat = s.plat := rfl
@[simp] theorem modAudit_dredge (s : State) (f : Auditor → Auditor) : (modAudit s f).dredge = s.dredge := rfl

/-! modGroup -/

@[simp] theorem modGroup_now (s : State) (j g : Nat) (f : Group → Group) : (modGroup s j g f).now = s.now := rfl
@[simp] theorem modGroup_timer (s : State) (j g : Nat) (f : Group → Group) : (modGroup s j g f).timer = s.timer := rfl
@[simp] theorem modGroup_free (s : State) (j g : Nat) (f : Group → Group) : (modGroup s j g f).free = s.free := rfl
@[simp] theorem modGroup_stamp (s : State) (j g : Nat) (f : Group → Group) : (modGroup s j g f).stamp = s.stamp := rfl
@[simp] theorem modGroup_cur (s : State) (j g : Nat) (f : Group → Group) : (modGroup s j g f).cur = s.cur := rfl
@[simp] theorem modGroup_hart (s : State) (j g : Nat) (f : Group → Group) : (modGroup s j g f).hart = s.hart := rfl
@[simp] theorem modGroup_todo (s : State) (j g : Nat) (f : Group → Group) : (modGroup s j g f).todo = s.todo := rfl
@[simp] theorem modGroup_agenda (s : State) (j g : Nat) (f : Group → Group) : (modGroup s j g f).agenda = s.agenda := rfl
@[simp] theorem modGroup_mem (s : State) (j g : Nat) (f : Group → Group) : (modGroup s j g f).mem = s.mem := rfl
@[simp] theorem modGroup_sramErr (s : State) (j g : Nat) (f : Group → Group) : (modGroup s j g f).sramErr = s.sramErr := rfl
@[simp] theorem modGroup_tags (s : State) (j g : Nat) (f : Group → Group) : (modGroup s j g f).tags = s.tags := rfl
@[simp] theorem modGroup_tagErr (s : State) (j g : Nat) (f : Group → Group) : (modGroup s j g f).tagErr = s.tagErr := rfl
@[simp] theorem modGroup_barArr (s : State) (j g : Nat) (f : Group → Group) : (modGroup s j g f).barArr = s.barArr := rfl
@[simp] theorem modGroup_cores (s : State) (j g : Nat) (f : Group → Group) : (modGroup s j g f).cores = s.cores := rfl
@[simp] theorem modGroup_engines (s : State) (j g : Nat) (f : Group → Group) : (modGroup s j g f).engines = s.engines := rfl
@[simp] theorem modGroup_colls (s : State) (j g : Nat) (f : Group → Group) : (modGroup s j g f).colls = s.colls := rfl
@[simp] theorem modGroup_ctxJobs (s : State) (j g : Nat) (f : Group → Group) : (modGroup s j g f).ctxJobs = s.ctxJobs := rfl
@[simp] theorem modGroup_tlbs (s : State) (j g : Nat) (f : Group → Group) : (modGroup s j g f).tlbs = s.tlbs := rfl
@[simp] theorem modGroup_walkCache (s : State) (j g : Nat) (f : Group → Group) : (modGroup s j g f).walkCache = s.walkCache := rfl
@[simp] theorem modGroup_walks (s : State) (j g : Nat) (f : Group → Group) : (modGroup s j g f).walks = s.walks := rfl
@[simp] theorem modGroup_walkFails (s : State) (j g : Nat) (f : Group → Group) : (modGroup s j g f).walkFails = s.walkFails := rfl
@[simp] theorem modGroup_tlbis (s : State) (j g : Nat) (f : Group → Group) : (modGroup s j g f).tlbis = s.tlbis := rfl
@[simp] theorem modGroup_tlbiq (s : State) (j g : Nat) (f : Group → Group) : (modGroup s j g f).tlbiq = s.tlbiq := rfl
@[simp] theorem modGroup_dies (s : State) (j g : Nat) (f : Group → Group) : (modGroup s j g f).dies = s.dies := rfl
@[simp] theorem modGroup_jobs (s : State) (j g : Nat) (f : Group → Group) : (modGroup s j g f).jobs = s.jobs := rfl
@[simp] theorem modGroup_finals (s : State) (j g : Nat) (f : Group → Group) : (modGroup s j g f).finals = s.finals := rfl
@[simp] theorem modGroup_liveTids (s : State) (j g : Nat) (f : Group → Group) : (modGroup s j g f).liveTids = s.liveTids := rfl
@[simp] theorem modGroup_saved (s : State) (j g : Nat) (f : Group → Group) : (modGroup s j g f).saved = s.saved := rfl
@[simp] theorem modGroup_hbm (s : State) (j g : Nat) (f : Group → Group) : (modGroup s j g f).hbm = s.hbm := rfl
@[simp] theorem modGroup_eddy (s : State) (j g : Nat) (f : Group → Group) : (modGroup s j g f).eddy = s.eddy := rfl
@[simp] theorem modGroup_weir (s : State) (j g : Nat) (f : Group → Group) : (modGroup s j g f).weir = s.weir := rfl
@[simp] theorem modGroup_router (s : State) (j g : Nat) (f : Group → Group) : (modGroup s j g f).router = s.router := rfl
@[simp] theorem modGroup_harts (s : State) (j g : Nat) (f : Group → Group) : (modGroup s j g f).harts = s.harts := rfl
@[simp] theorem modGroup_auditor (s : State) (j g : Nat) (f : Group → Group) : (modGroup s j g f).auditor = s.auditor := rfl
@[simp] theorem modGroup_plat (s : State) (j g : Nat) (f : Group → Group) : (modGroup s j g f).plat = s.plat := rfl
@[simp] theorem modGroup_dredge (s : State) (j g : Nat) (f : Group → Group) : (modGroup s j g f).dredge = s.dredge := rfl

/-! setColl -/

@[simp] theorem setColl_now (s : State) (x : Nat) (k : Coll) : (setColl s x k).now = s.now := rfl
@[simp] theorem setColl_timer (s : State) (x : Nat) (k : Coll) : (setColl s x k).timer = s.timer := rfl
@[simp] theorem setColl_free (s : State) (x : Nat) (k : Coll) : (setColl s x k).free = s.free := rfl
@[simp] theorem setColl_stamp (s : State) (x : Nat) (k : Coll) : (setColl s x k).stamp = s.stamp := rfl
@[simp] theorem setColl_cur (s : State) (x : Nat) (k : Coll) : (setColl s x k).cur = s.cur := rfl
@[simp] theorem setColl_hart (s : State) (x : Nat) (k : Coll) : (setColl s x k).hart = s.hart := rfl
@[simp] theorem setColl_todo (s : State) (x : Nat) (k : Coll) : (setColl s x k).todo = s.todo := rfl
@[simp] theorem setColl_agenda (s : State) (x : Nat) (k : Coll) : (setColl s x k).agenda = s.agenda := rfl
@[simp] theorem setColl_mem (s : State) (x : Nat) (k : Coll) : (setColl s x k).mem = s.mem := rfl
@[simp] theorem setColl_sramErr (s : State) (x : Nat) (k : Coll) : (setColl s x k).sramErr = s.sramErr := rfl
@[simp] theorem setColl_tags (s : State) (x : Nat) (k : Coll) : (setColl s x k).tags = s.tags := rfl
@[simp] theorem setColl_tagErr (s : State) (x : Nat) (k : Coll) : (setColl s x k).tagErr = s.tagErr := rfl
@[simp] theorem setColl_barArr (s : State) (x : Nat) (k : Coll) : (setColl s x k).barArr = s.barArr := rfl
@[simp] theorem setColl_cores (s : State) (x : Nat) (k : Coll) : (setColl s x k).cores = s.cores := rfl
@[simp] theorem setColl_engines (s : State) (x : Nat) (k : Coll) : (setColl s x k).engines = s.engines := rfl
@[simp] theorem setColl_ctxJobs (s : State) (x : Nat) (k : Coll) : (setColl s x k).ctxJobs = s.ctxJobs := rfl
@[simp] theorem setColl_tlbs (s : State) (x : Nat) (k : Coll) : (setColl s x k).tlbs = s.tlbs := rfl
@[simp] theorem setColl_walkCache (s : State) (x : Nat) (k : Coll) : (setColl s x k).walkCache = s.walkCache := rfl
@[simp] theorem setColl_walks (s : State) (x : Nat) (k : Coll) : (setColl s x k).walks = s.walks := rfl
@[simp] theorem setColl_walkFails (s : State) (x : Nat) (k : Coll) : (setColl s x k).walkFails = s.walkFails := rfl
@[simp] theorem setColl_tlbis (s : State) (x : Nat) (k : Coll) : (setColl s x k).tlbis = s.tlbis := rfl
@[simp] theorem setColl_tlbiq (s : State) (x : Nat) (k : Coll) : (setColl s x k).tlbiq = s.tlbiq := rfl
@[simp] theorem setColl_dies (s : State) (x : Nat) (k : Coll) : (setColl s x k).dies = s.dies := rfl
@[simp] theorem setColl_jobs (s : State) (x : Nat) (k : Coll) : (setColl s x k).jobs = s.jobs := rfl
@[simp] theorem setColl_finals (s : State) (x : Nat) (k : Coll) : (setColl s x k).finals = s.finals := rfl
@[simp] theorem setColl_liveTids (s : State) (x : Nat) (k : Coll) : (setColl s x k).liveTids = s.liveTids := rfl
@[simp] theorem setColl_saved (s : State) (x : Nat) (k : Coll) : (setColl s x k).saved = s.saved := rfl
@[simp] theorem setColl_groups (s : State) (x : Nat) (k : Coll) : (setColl s x k).groups = s.groups := rfl
@[simp] theorem setColl_hbm (s : State) (x : Nat) (k : Coll) : (setColl s x k).hbm = s.hbm := rfl
@[simp] theorem setColl_eddy (s : State) (x : Nat) (k : Coll) : (setColl s x k).eddy = s.eddy := rfl
@[simp] theorem setColl_weir (s : State) (x : Nat) (k : Coll) : (setColl s x k).weir = s.weir := rfl
@[simp] theorem setColl_router (s : State) (x : Nat) (k : Coll) : (setColl s x k).router = s.router := rfl
@[simp] theorem setColl_harts (s : State) (x : Nat) (k : Coll) : (setColl s x k).harts = s.harts := rfl
@[simp] theorem setColl_auditor (s : State) (x : Nat) (k : Coll) : (setColl s x k).auditor = s.auditor := rfl
@[simp] theorem setColl_plat (s : State) (x : Nat) (k : Coll) : (setColl s x k).plat = s.plat := rfl
@[simp] theorem setColl_dredge (s : State) (x : Nat) (k : Coll) : (setColl s x k).dredge = s.dredge := rfl

/-! modHbm -/

@[simp] theorem modHbm_now (s : State) (f : Hbm → Hbm) : (modHbm s f).now = s.now := rfl
@[simp] theorem modHbm_timer (s : State) (f : Hbm → Hbm) : (modHbm s f).timer = s.timer := rfl
@[simp] theorem modHbm_free (s : State) (f : Hbm → Hbm) : (modHbm s f).free = s.free := rfl
@[simp] theorem modHbm_stamp (s : State) (f : Hbm → Hbm) : (modHbm s f).stamp = s.stamp := rfl
@[simp] theorem modHbm_cur (s : State) (f : Hbm → Hbm) : (modHbm s f).cur = s.cur := rfl
@[simp] theorem modHbm_hart (s : State) (f : Hbm → Hbm) : (modHbm s f).hart = s.hart := rfl
@[simp] theorem modHbm_todo (s : State) (f : Hbm → Hbm) : (modHbm s f).todo = s.todo := rfl
@[simp] theorem modHbm_agenda (s : State) (f : Hbm → Hbm) : (modHbm s f).agenda = s.agenda := rfl
@[simp] theorem modHbm_mem (s : State) (f : Hbm → Hbm) : (modHbm s f).mem = s.mem := rfl
@[simp] theorem modHbm_sramErr (s : State) (f : Hbm → Hbm) : (modHbm s f).sramErr = s.sramErr := rfl
@[simp] theorem modHbm_tags (s : State) (f : Hbm → Hbm) : (modHbm s f).tags = s.tags := rfl
@[simp] theorem modHbm_tagErr (s : State) (f : Hbm → Hbm) : (modHbm s f).tagErr = s.tagErr := rfl
@[simp] theorem modHbm_barArr (s : State) (f : Hbm → Hbm) : (modHbm s f).barArr = s.barArr := rfl
@[simp] theorem modHbm_cores (s : State) (f : Hbm → Hbm) : (modHbm s f).cores = s.cores := rfl
@[simp] theorem modHbm_engines (s : State) (f : Hbm → Hbm) : (modHbm s f).engines = s.engines := rfl
@[simp] theorem modHbm_colls (s : State) (f : Hbm → Hbm) : (modHbm s f).colls = s.colls := rfl
@[simp] theorem modHbm_ctxJobs (s : State) (f : Hbm → Hbm) : (modHbm s f).ctxJobs = s.ctxJobs := rfl
@[simp] theorem modHbm_tlbs (s : State) (f : Hbm → Hbm) : (modHbm s f).tlbs = s.tlbs := rfl
@[simp] theorem modHbm_walkCache (s : State) (f : Hbm → Hbm) : (modHbm s f).walkCache = s.walkCache := rfl
@[simp] theorem modHbm_walks (s : State) (f : Hbm → Hbm) : (modHbm s f).walks = s.walks := rfl
@[simp] theorem modHbm_walkFails (s : State) (f : Hbm → Hbm) : (modHbm s f).walkFails = s.walkFails := rfl
@[simp] theorem modHbm_tlbis (s : State) (f : Hbm → Hbm) : (modHbm s f).tlbis = s.tlbis := rfl
@[simp] theorem modHbm_tlbiq (s : State) (f : Hbm → Hbm) : (modHbm s f).tlbiq = s.tlbiq := rfl
@[simp] theorem modHbm_dies (s : State) (f : Hbm → Hbm) : (modHbm s f).dies = s.dies := rfl
@[simp] theorem modHbm_jobs (s : State) (f : Hbm → Hbm) : (modHbm s f).jobs = s.jobs := rfl
@[simp] theorem modHbm_finals (s : State) (f : Hbm → Hbm) : (modHbm s f).finals = s.finals := rfl
@[simp] theorem modHbm_liveTids (s : State) (f : Hbm → Hbm) : (modHbm s f).liveTids = s.liveTids := rfl
@[simp] theorem modHbm_saved (s : State) (f : Hbm → Hbm) : (modHbm s f).saved = s.saved := rfl
@[simp] theorem modHbm_groups (s : State) (f : Hbm → Hbm) : (modHbm s f).groups = s.groups := rfl
@[simp] theorem modHbm_eddy (s : State) (f : Hbm → Hbm) : (modHbm s f).eddy = s.eddy := rfl
@[simp] theorem modHbm_weir (s : State) (f : Hbm → Hbm) : (modHbm s f).weir = s.weir := rfl
@[simp] theorem modHbm_router (s : State) (f : Hbm → Hbm) : (modHbm s f).router = s.router := rfl
@[simp] theorem modHbm_harts (s : State) (f : Hbm → Hbm) : (modHbm s f).harts = s.harts := rfl
@[simp] theorem modHbm_auditor (s : State) (f : Hbm → Hbm) : (modHbm s f).auditor = s.auditor := rfl
@[simp] theorem modHbm_plat (s : State) (f : Hbm → Hbm) : (modHbm s f).plat = s.plat := rfl
@[simp] theorem modHbm_dredge (s : State) (f : Hbm → Hbm) : (modHbm s f).dredge = s.dredge := rfl

/-! modWeir -/

@[simp] theorem modWeir_now (s : State) (f : Weir → Weir) : (modWeir s f).now = s.now := rfl
@[simp] theorem modWeir_timer (s : State) (f : Weir → Weir) : (modWeir s f).timer = s.timer := rfl
@[simp] theorem modWeir_free (s : State) (f : Weir → Weir) : (modWeir s f).free = s.free := rfl
@[simp] theorem modWeir_stamp (s : State) (f : Weir → Weir) : (modWeir s f).stamp = s.stamp := rfl
@[simp] theorem modWeir_cur (s : State) (f : Weir → Weir) : (modWeir s f).cur = s.cur := rfl
@[simp] theorem modWeir_hart (s : State) (f : Weir → Weir) : (modWeir s f).hart = s.hart := rfl
@[simp] theorem modWeir_todo (s : State) (f : Weir → Weir) : (modWeir s f).todo = s.todo := rfl
@[simp] theorem modWeir_agenda (s : State) (f : Weir → Weir) : (modWeir s f).agenda = s.agenda := rfl
@[simp] theorem modWeir_mem (s : State) (f : Weir → Weir) : (modWeir s f).mem = s.mem := rfl
@[simp] theorem modWeir_sramErr (s : State) (f : Weir → Weir) : (modWeir s f).sramErr = s.sramErr := rfl
@[simp] theorem modWeir_tags (s : State) (f : Weir → Weir) : (modWeir s f).tags = s.tags := rfl
@[simp] theorem modWeir_tagErr (s : State) (f : Weir → Weir) : (modWeir s f).tagErr = s.tagErr := rfl
@[simp] theorem modWeir_barArr (s : State) (f : Weir → Weir) : (modWeir s f).barArr = s.barArr := rfl
@[simp] theorem modWeir_cores (s : State) (f : Weir → Weir) : (modWeir s f).cores = s.cores := rfl
@[simp] theorem modWeir_engines (s : State) (f : Weir → Weir) : (modWeir s f).engines = s.engines := rfl
@[simp] theorem modWeir_colls (s : State) (f : Weir → Weir) : (modWeir s f).colls = s.colls := rfl
@[simp] theorem modWeir_ctxJobs (s : State) (f : Weir → Weir) : (modWeir s f).ctxJobs = s.ctxJobs := rfl
@[simp] theorem modWeir_tlbs (s : State) (f : Weir → Weir) : (modWeir s f).tlbs = s.tlbs := rfl
@[simp] theorem modWeir_walkCache (s : State) (f : Weir → Weir) : (modWeir s f).walkCache = s.walkCache := rfl
@[simp] theorem modWeir_walks (s : State) (f : Weir → Weir) : (modWeir s f).walks = s.walks := rfl
@[simp] theorem modWeir_walkFails (s : State) (f : Weir → Weir) : (modWeir s f).walkFails = s.walkFails := rfl
@[simp] theorem modWeir_tlbis (s : State) (f : Weir → Weir) : (modWeir s f).tlbis = s.tlbis := rfl
@[simp] theorem modWeir_tlbiq (s : State) (f : Weir → Weir) : (modWeir s f).tlbiq = s.tlbiq := rfl
@[simp] theorem modWeir_dies (s : State) (f : Weir → Weir) : (modWeir s f).dies = s.dies := rfl
@[simp] theorem modWeir_jobs (s : State) (f : Weir → Weir) : (modWeir s f).jobs = s.jobs := rfl
@[simp] theorem modWeir_finals (s : State) (f : Weir → Weir) : (modWeir s f).finals = s.finals := rfl
@[simp] theorem modWeir_liveTids (s : State) (f : Weir → Weir) : (modWeir s f).liveTids = s.liveTids := rfl
@[simp] theorem modWeir_saved (s : State) (f : Weir → Weir) : (modWeir s f).saved = s.saved := rfl
@[simp] theorem modWeir_groups (s : State) (f : Weir → Weir) : (modWeir s f).groups = s.groups := rfl
@[simp] theorem modWeir_hbm (s : State) (f : Weir → Weir) : (modWeir s f).hbm = s.hbm := rfl
@[simp] theorem modWeir_eddy (s : State) (f : Weir → Weir) : (modWeir s f).eddy = s.eddy := rfl
@[simp] theorem modWeir_router (s : State) (f : Weir → Weir) : (modWeir s f).router = s.router := rfl
@[simp] theorem modWeir_harts (s : State) (f : Weir → Weir) : (modWeir s f).harts = s.harts := rfl
@[simp] theorem modWeir_auditor (s : State) (f : Weir → Weir) : (modWeir s f).auditor = s.auditor := rfl
@[simp] theorem modWeir_plat (s : State) (f : Weir → Weir) : (modWeir s f).plat = s.plat := rfl
@[simp] theorem modWeir_dredge (s : State) (f : Weir → Weir) : (modWeir s f).dredge = s.dredge := rfl

/-! Read-back -/

@[simp] theorem coreOf_setCore (s : State) (c : Nat) (k : Core) : coreOf (setCore s c k) c = k := mgetD_mput_same ..

theorem coreOf_setCore_other (s : State) (c x : Nat) (k : Core) (h : x ≠ c) : coreOf (setCore s c k) x = coreOf s x :=
  mgetD_mput_other _ _ _ _ _ h

@[simp] theorem threadOf_setThread (s : State) (c : Nat) (t : Thread) : threadOf (setThread s c t) c = some t := by
  simp [threadOf, setThread]

theorem coreOf_setThread_other (s : State) (c x : Nat) (t : Thread) (h : x ≠ c) : coreOf (setThread s c t) x = coreOf s x :=
  coreOf_setCore_other s c x _ h

theorem threadOf_setThread_other (s : State) (c x : Nat) (t : Thread) (h : x ≠ c) : threadOf (setThread s c t) x = threadOf s x := by
  simp [threadOf, coreOf_setThread_other s c x t h]

@[simp] theorem setThread_setThread (s : State) (c : Nat) (t u : Thread) : setThread (setThread s c t) c u = setThread s c u := by
  simp [setThread, setCore, coreOf, mgetD_mput_same, mput_mput]

/-- What a change of a core's thread gives: nothing without a thread, the changed thread with one. -/
theorem modThread_eq (s : State) (c : Nat) (f : Thread → Thread) :
    modThread s c f = match threadOf s c with
      | none => s
      | some t => setThread s c (f t) := rfl

theorem dieOf_modDie (s : State) (d : Nat) (f : Die → Die) (h : d < 4) : dieOf (modDie s d f) d = f (dieOf s d) := by
  simp [dieOf, modDie, h]

theorem dieOf_modDie_other (s : State) (d x : Nat) (f : Die → Die) (h : x ≠ d) : dieOf (modDie s d f) x = dieOf s x := by
  unfold dieOf modDie
  by_cases hd : d < 4
  · by_cases hx : x < 4
    · simp only [hd, hx, dif_pos]
      exact Vector.getElem_set_ne _ _ (Ne.symm h)
    · simp [hx]
  · simp [hd]

@[simp] theorem engineOf_modEngine (s : State) (e : Nat) (f : Engine → Engine) :
    engineOf (modEngine s e f) e = f (engineOf s e) := mgetD_mput_same ..

theorem engineOf_modEngine_other (s : State) (e x : Nat) (f : Engine → Engine) (h : x ≠ e) :
    engineOf (modEngine s e f) x = engineOf s x := mgetD_mput_other _ _ _ _ _ h

@[simp] theorem portOf_modPort (s : State) (p : Nat) (f : Port → Port) : portOf (modPort s p f) p = f (portOf s p) := mgetD_mput_same ..

theorem portOf_modPort_other (s : State) (p x : Nat) (f : Port → Port) (h : x ≠ p) : portOf (modPort s p f) x = portOf s x :=
  mgetD_mput_other _ _ _ _ _ h

@[simp] theorem groupOf_modGroup (s : State) (j g : Nat) (f : Group → Group) : groupOf (modGroup s j g f) j g = f (groupOf s j g) :=
  mgetD_mput_same ..

theorem agenda_schedule (s : State) (d : Nat) (e : Instr) (h : d ≠ 0) : (schedule s d e).agenda = s.agenda ++ [⟨s.now + d, e⟩] := by
  simp [schedule, h]

theorem todo_schedule (s : State) (d : Nat) (e : Instr) (h : d ≠ 0) : (schedule s d e).todo = s.todo := by simp [schedule, h]

end Sys2Proof.Machine
end

