-- ==== Sys2Proof/Laws/Memory.lean ====
section
/-! SUPPORT. The canonical form of memory: every memory operation keeps it, reset has it, and under it a byte reads back
what was written. -/

namespace Sys2Proof.Machine

/-- The form said by its two parts: no listed byte is the unlisted one, and the addresses rise. -/
theorem wf_iff (m : List Host.Cell) :
    Memory.wf m = true ↔ (∀ c ∈ m, c.2 ≠ emptyByte) ∧ m.Pairwise (fun c d => c.1 < d.1) := by
  induction m with
  | nil => simp [Memory.wf]
  | cons c r ih =>
    cases r with
    | nil => simp [Memory.wf]
    | cons d q =>
      simp only [Memory.wf, Bool.and_eq_true, bne_iff_ne, ne_eq, decide_eq_true_eq, ih]
      constructor
      · rintro ⟨⟨hc, hcd⟩, hr, hp⟩
        refine ⟨?_, ?_⟩
        · intro x hx
          rcases List.mem_cons.mp hx with rfl | hx
          · exact hc
          · exact hr x hx
        · refine List.pairwise_cons.mpr ⟨?_, hp⟩
          intro x hx
          rcases List.mem_cons.mp hx with rfl | hx
          · exact hcd
          · exact Nat.lt_trans hcd ((List.pairwise_cons.mp hp).1 x hx)
      · rintro ⟨h, hp⟩
        have h' := List.pairwise_cons.mp hp
        exact ⟨⟨h c (by simp), h'.1 d (by simp)⟩, fun x hx => h x (List.mem_cons_of_mem _ hx), h'.2⟩

theorem mem_mput {α : Type} (k : Nat) (v : α) (m : Map α) (x : Nat × α) (h : x ∈ mput k v m) : x = (k, v) ∨ x ∈ m := by
  induction m with
  | nil => simpa [mput] using h
  | cons y r ih =>
    obtain ⟨j, w⟩ := y
    simp only [mput] at h
    split at h
    · simpa using h
    · split at h
      · rcases List.mem_cons.mp h with h | h
        · exact .inl h
        · exact .inr (List.mem_cons_of_mem _ h)
      · rcases List.mem_cons.mp h with h | h
        · exact .inr (by simp [h])
        · rcases ih h with h | h
          · exact .inl h
          · exact .inr (List.mem_cons_of_mem _ h)

theorem pairwise_mput {α : Type} (k : Nat) (v : α) (m : Map α) (h : m.Pairwise (fun c d => c.1 < d.1)) :
    (mput k v m).Pairwise (fun c d => c.1 < d.1) := by
  induction m with
  | nil => simp [mput]
  | cons y r ih =>
    obtain ⟨j, w⟩ := y
    have h' := List.pairwise_cons.mp h
    simp only [mput]
    split
    · rename_i hk
      refine List.pairwise_cons.mpr ⟨?_, h⟩
      intro x hx
      rcases List.mem_cons.mp hx with rfl | hx
      · exact hk
      · exact Nat.lt_trans hk (h'.1 x hx)
    · split
      · rename_i e
        subst e
        exact List.pairwise_cons.mpr ⟨h'.1, h'.2⟩
      · refine List.pairwise_cons.mpr ⟨?_, ih h'.2⟩
        intro x hx
        rcases mem_mput k v r x hx with rfl | hx
        · show j < k
          omega
        · exact h'.1 x hx

theorem mdel_sublist {α : Type} (k : Nat) (m : Map α) : (mdel k m).Sublist m := by
  induction m with
  | nil => exact List.Sublist.refl _
  | cons y r ih =>
    obtain ⟨j, w⟩ := y
    simp only [mdel]
    split
    · exact List.sublist_cons_self _ _
    · exact ih.cons_cons _

/-- Writing one byte keeps the form. -/
theorem wf_memPut (m : List Host.Cell) (a : Nat) (b : Byte) (h : Memory.wf m = true) : Memory.wf (memPut m a b) = true := by
  rw [wf_iff] at h ⊢
  unfold memPut mset
  split
  · exact ⟨fun c hc => h.1 c ((mdel_sublist a m).subset hc), h.2.sublist (mdel_sublist a m)⟩
  · rename_i hb
    refine ⟨fun c hc => ?_, pairwise_mput a b m h.2⟩
    rcases mem_mput a b m c hc with rfl | hc
    · exact hb
    · exact h.1 c hc

/-- Writing bytes keeps the form. -/
theorem wf_memWrite (bs : List Byte) (m : List Host.Cell) (a : Nat) (h : Memory.wf m = true) :
    Memory.wf (memWrite m a bs) = true := by
  induction bs generalizing m a with
  | nil => exact h
  | cons b r ih => exact ih (memPut m a b) (a + 1) (wf_memPut m a b h)

/-- Zeroing a range keeps the form. -/
theorem wf_memClear (m : List Host.Cell) (lo hi : Nat) (h : Memory.wf m = true) : Memory.wf (memClear m lo hi) = true := by
  rw [wf_iff] at h ⊢
  exact ⟨fun c hc => h.1 c (List.mem_of_mem_filter hc), h.2.sublist List.filter_sublist⟩

/-- What every pass of a fold keeps, the fold keeps. -/
theorem foldl_keeps {α β : Type} (P : α → Prop) (f : α → β → α) (h : ∀ a b, P a → P (f a b)) :
    ∀ (l : List β) (a : α), P a → P (l.foldl f a)
  | [], _, ha => ha
  | b :: r, a, ha => foldl_keeps P f h r (f a b) (h a b ha)

/-- The watches a write fires change no byte. -/
theorem mem_evalWatches (s : State) (pa n : Nat) : (evalWatches s pa n).mem = s.mem := by
  unfold evalWatches
  refine foldl_keeps (fun x => x.mem = s.mem) _ (fun x ck hx => ?_) _ s rfl
  dsimp only
  split
  · exact hx
  · split
    · refine foldl_keeps (fun y => y.mem = s.mem) _ (fun y w hy => ?_) _ x hx
      split
      · rw [modThread_mem]
        exact hy
      · exact hy
    · exact hx

/-- What a write of SRAM sets off changes no byte (R55, R263). -/
theorem mem_sramEffects (s : State) (pa n : Nat) : (sramEffects s pa n).mem = s.mem := by
  unfold sramEffects dirtySlots
  dsimp only
  split
  · exact mem_evalWatches s pa n
  · exact mem_evalWatches s pa n

/-- A write by the device itself keeps the form. -/
theorem wf_storeNow (s : State) (pa : Nat) (bs : List Byte) (h : Memory.wf s.mem = true) : Memory.wf (storeNow s pa bs).mem = true := by
  unfold storeNow
  split
  · dsimp only
    rw [mem_sramEffects]
    exact wf_memWrite _ _ _ h
  · dsimp only
    repeat' split
    all_goals first
      | exact h
      | exact wf_memWrite _ _ _ h
  · exact h

/-- Such a write keeps the form whether it is made now or held (R84). -/
theorem wf_storeUnits (s : State) (pa : Nat) (bs : List Byte) (h : Memory.wf s.mem = true) :
    Memory.wf (storeUnits s pa bs).mem = true := by
  unfold storeUnits
  split
  · exact h
  · exact wf_storeNow s pa bs h

/-- What writing whole units keeps, writing the rows of a register array keeps. -/
theorem storeRows_keeps (P : State → Prop) (h : ∀ s pa bs, P s → P (storeUnits s pa bs)) (n : Nat) (s : State) (pa k : Nat)
    (m : Map Row) (hs : P s) : P (storeRows n s pa k m) := by
  induction n generalizing s pa k with
  | zero => exact hs
  | succ n ih => exact ih _ _ _ (h _ _ _ hs)

/-- What writing whole units keeps, a save keeps: it does nothing else to the machine (R173, R175). -/
theorem saveFrame_keeps (P : State → Prop) (h : ∀ s pa bs, P s → P (storeUnits s pa bs)) (s : State) (c : Nat) (t : Thread)
    (hs : P s) : P (saveFrame s c t) := by
  unfold saveFrame
  exact h _ _ _ (h _ _ _ (h _ _ _ (h _ _ _ (h _ _ _ (storeRows_keeps P h _ _ _ _ _ (storeRows_keeps P h _ _ _ _ _
    (h _ _ _ (h _ _ _ hs))))))))

/-- Writing a context to its frame keeps the form. -/
theorem wf_saveFrame (s : State) (c : Nat) (t : Thread) (h : Memory.wf s.mem = true) :
    Memory.wf (saveFrame s c t).mem = true :=
  saveFrame_keeps (fun s => Memory.wf s.mem = true) (fun s pa bs hs => wf_storeUnits s pa bs hs) s c t h

/-- Memory after reset has the form. -/
theorem wf_reset : Memory.wf State.reset.mem = true := rfl

theorem mget_none_of_lt {α : Type} (k : Nat) (m : Map α) (h : ∀ c ∈ m, k < c.1) : mget k m = none := by
  induction m with
  | nil => rfl
  | cons y r ih =>
    obtain ⟨j, w⟩ := y
    have hj : k < j := h (j, w) (by simp)
    simp only [mget]
    rw [if_neg (by omega)]
    exact ih (fun c hc => h c (List.mem_cons_of_mem _ hc))

theorem mget_mdel_same {α : Type} (k : Nat) (m : Map α) (h : m.Pairwise (fun c d => c.1 < d.1)) : mget k (mdel k m) = none := by
  induction m with
  | nil => rfl
  | cons y r ih =>
    obtain ⟨j, w⟩ := y
    have h' := List.pairwise_cons.mp h
    simp only [mdel]
    split
    · rename_i e
      subst e
      exact mget_none_of_lt _ r h'.1
    · rename_i e
      simp [mget, e, ih h'.2]

/-- A byte written reads back, in a memory that has the form. -/
theorem memByte_memPut_same (m : List Host.Cell) (a : Nat) (b : Byte) (h : Memory.wf m = true) : memByte (memPut m a b) a = b := by
  have hp := ((wf_iff m).mp h).2
  unfold memByte memPut mset
  split
  · rename_i e
    simp [mgetD, mget_mdel_same a m hp, e]
  · exact mgetD_mput_same ..

/-- A write of one byte leaves every other byte as it was. -/
theorem memByte_memPut_other (m : List Host.Cell) (a x : Nat) (b : Byte) (h : x ≠ a) : memByte (memPut m a b) x = memByte m x := by
  unfold memByte memPut mset
  split
  · simp [mgetD, mget_mdel_other a x m h]
  · exact mgetD_mput_other _ _ _ _ _ h

/-- A write leaves every byte outside it as it was. -/
theorem memByte_memWrite_outside (bs : List Byte) (m : List Host.Cell) (a x : Nat) (h : x < a ∨ a + bs.length ≤ x) :
    memByte (memWrite m a bs) x = memByte m x := by
  induction bs generalizing m a with
  | nil => rfl
  | cons b r ih =>
    simp only [List.length_cons] at h
    rw [show memWrite m a (b :: r) = memWrite (memPut m a b) (a + 1) r from rfl, ih (memPut m a b) (a + 1) (by omega),
      memByte_memPut_other m a x b (by omega)]

/-- Bytes written read back, in a memory that has the form. -/
theorem memByte_memWrite_inside (bs : List Byte) (m : List Host.Cell) (a i : Nat) (h : Memory.wf m = true) (hi : i < bs.length) :
    memByte (memWrite m a bs) (a + i) = bs[i] := by
  induction bs generalizing m a i with
  | nil => simp at hi
  | cons b r ih =>
    rw [show memWrite m a (b :: r) = memWrite (memPut m a b) (a + 1) r from rfl]
    cases i with
    | zero =>
      rw [memByte_memWrite_outside r _ _ _ (by omega)]
      exact memByte_memPut_same m a b h
    | succ j =>
      have := ih (memPut m a b) (a + 1) j (wf_memPut m a b h) (by simpa using hi)
      rw [show a + (j + 1) = a + 1 + j by omega, this, List.getElem_cons_succ]

end Sys2Proof.Machine
end

