-- ==== Sys2Proof/Laws/Ops.lean ====
section
/-! SUPPORT. What each shared operation can do, said once: slots and their guards, results, requests, exceptions, the
fault queues. -/

namespace Sys2Proof.Machine

/-! Slots -/

/-- A slot does nothing without a thread or with a false guard; else it has its effect or is attended to. -/
theorem runSlot_cases (g : Guard) (s s' : State) (f : Thread → Slot) (h : runSlot g s f = .next s') :
    (threadOf s s.cur = none ∧ s' = s) ∨
    ∃ t, threadOf s s.cur = some t ∧
      ((guardTrue t g = false ∧ s' = s) ∨
       (guardTrue t g = true ∧ (f t = .ok s' ∨ ∃ a, f t = .error a ∧ s' = attend s s.cur a))) := by
  unfold runSlot at h
  split at h
  · rename_i ht
    exact .inl ⟨ht, by cases h; rfl⟩
  · rename_i t ht
    refine .inr ⟨t, ht, ?_⟩
    split at h
    · rename_i hg
      refine .inr ⟨hg, ?_⟩
      split at h
      · rename_i s1 hf
        cases h
        exact .inl hf
      · rename_i a hf
        cases h
        exact .inr ⟨a, hf, rfl⟩
    · rename_i hg
      exact .inl ⟨by simpa using hg, by cases h; rfl⟩

/-- A slot always gives a next state. -/
theorem runSlot_next (g : Guard) (s : State) (f : Thread → Slot) : ∃ s', runSlot g s f = .next s' := by
  unfold runSlot
  split
  · exact ⟨_, rfl⟩
  · split
    · split <;> exact ⟨_, rfl⟩
    · exact ⟨_, rfl⟩

/-- A slot whose guard is true and whose effect is `s'`. -/
theorem runSlot_ok (g : Guard) (s s' : State) (t : Thread) (f : Thread → Slot) (ht : threadOf s s.cur = some t)
    (hg : guardTrue t g = true) (hf : f t = .ok s') : runSlot g s f = .next s' := by
  simp [runSlot, ht, hg, hf]

/-- A slot whose guard is true and which meets `a`. -/
theorem runSlot_error (g : Guard) (s : State) (t : Thread) (f : Thread → Slot) (a : Attn) (ht : threadOf s s.cur = some t)
    (hg : guardTrue t g = true) (hf : f t = .error a) : runSlot g s f = .next (attend s s.cur a) := by
  simp [runSlot, ht, hg, hf]

/-- A slot whose guard is false changes nothing. -/
theorem runSlot_false (g : Guard) (s : State) (t : Thread) (f : Thread → Slot) (ht : threadOf s s.cur = some t)
    (hg : guardTrue t g = false) : runSlot g s f = .next s := by
  simp [runSlot, ht, hg]

/-- A slot checked whatever its guard always gives a next state. -/
theorem runAlways_next (s : State) (f : Thread → Slot) : ∃ s', runAlways s f = .next s' := by
  unfold runAlways
  split
  · exact ⟨_, rfl⟩
  · split <;> exact ⟨_, rfl⟩

/-- A slot checked whatever its guard, with effect `s'`. -/
theorem runAlways_ok (s s' : State) (t : Thread) (f : Thread → Slot) (ht : threadOf s s.cur = some t) (hf : f t = .ok s') :
    runAlways s f = .next s' := by
  simp [runAlways, ht, hf]

/-- A slot checked whatever its guard, which meets `a`. -/
theorem runAlways_error (s : State) (t : Thread) (f : Thread → Slot) (a : Attn) (ht : threadOf s s.cur = some t)
    (hf : f t = .error a) : runAlways s f = .next (attend s s.cur a) := by
  simp [runAlways, ht, hf]

/-! Results -/

/-- A result is put in flight, or COLLIDE, TILEREAD or INFLIGHT stands in its way, in that order (R43, R171, R269); one to p0
counts in no limit (R248). -/
theorem addResult_cases (t : Thread) (d : Dest) (v : Row) (l : Nat) (fl : BitVec 5) :
    (collides t d (t.x.dc + l) = true ∧ addResult t d v l fl = .error (schedFault 5)) ∨
    (collides t d (t.x.dc + l) = false ∧ tileRead t d (t.x.dc + l) = true ∧ addResult t d v l fl = .error (schedFault 2)) ∨
    (collides t d (t.x.dc + l) = false ∧ tileRead t d (t.x.dc + l) = false ∧ (d ≠ .preg 0 ∧ 64 ≤ inFlight t) ∧
      addResult t d v l fl = .error (schedFault 6)) ∨
    (Fits t d l ∧ addResult t d v l fl =
      .ok { t with x := { t.x with inflight := t.x.inflight ++ [⟨d, t.x.dc + l, v, fullMask, fl, 0⟩] } }) := by
  unfold addResult checkWrite Fits
  cases hc : collides t d (t.x.dc + l)
  · cases hr : tileRead t d (t.x.dc + l)
    · by_cases hi : d ≠ .preg 0 ∧ 64 ≤ inFlight t
      · simp [hi]
      · have hn : d ≠ .preg 0 → inFlight t < 64 := fun hd => Nat.lt_of_not_le (fun h => hi ⟨hd, h⟩)
        simp only [hi]
        exact .inr (.inr (.inr ⟨⟨trivial, trivial, hn⟩, rfl⟩))
    · simp
  · simp

/-- A scalar result that fits is in flight and nothing else has changed. -/
theorem putScalar_ok (s : State) (t : Thread) (rd : BitVec 5) (v : Word) (l : Nat)
    (hc : collides t (.sreg rd.toNat) (t.x.dc + l) = false) (hi : inFlight t < 64) :
    putScalar s t rd v l = .ok (setThread s s.cur { t with x := { t.x with
      inflight := t.x.inflight ++ [⟨.sreg rd.toNat, t.x.dc + l, BitVec.ofNat 2048 v.toNat, fullMask, 0, 0⟩] } }) := by
  have hn : ¬ 64 ≤ inFlight t := by omega
  simp [putScalar, addScalar, addResult, checkWrite, hc, tileRead, hn, Except.map]

/-- A predicate result that fits is in flight and nothing else has changed. -/
theorem putPred_ok (s : State) (t : Thread) (pd : BitVec 3) (v : Bool) (l : Nat)
    (hc : collides t (.preg pd.toNat) (t.x.dc + l) = false) (hi : Dest.preg pd.toNat ≠ .preg 0 → inFlight t < 64) :
    putPred s t pd v l = .ok (setThread s s.cur { t with x := { t.x with
      inflight := t.x.inflight ++ [⟨.preg pd.toNat, t.x.dc + l, BitVec.ofNat 2048 (b2n v), fullMask, 0, 0⟩] } }) := by
  have hn : ¬ (Dest.preg pd.toNat ≠ .preg 0 ∧ 64 ≤ inFlight t) := fun h => absurd (hi h.1) (Nat.not_lt.mpr h.2)
  simp only [putPred, addPred, addResult, checkWrite, hc, tileRead, if_neg hn]
  rfl

/-! Exceptions -/

/-- Taking an exception in a thread that is neither a handler nor a replay (R335 step 1): its save begins, the fault is
kept, its position is the bundle at its PC or the one named, and its registers and requests are as they were. -/
theorem takeException_thread (s : State) (c : Nat) (t : Thread) (f : FaultRec) (idx : Option Nat) (ht : threadOf s c = some t)
    (hh : t.handler = false) (hr : t.replay = false) :
    ∃ t', threadOf (takeException s c f idx) c = some t' ∧ t'.phase = .saving true s.now ∧
      t'.posFault = some { f with cycle := s.now } ∧ t'.q.idx = idx.getD t.q.idx ∧ t'.q.seg = t.q.seg ∧ t'.r = t.r ∧ t'.x = t.x ∧
      t'.c = t.c ∧ t'.reqs = t.reqs := by
  cases idx <;> simp [takeException, ht, hh, hr]

/-- Taking an exception in such a thread changes nothing of the machine's but that thread and the walk failures noted
for its core. -/
theorem takeException_machine (s : State) (c : Nat) (t : Thread) (f : FaultRec) (idx : Option Nat) (ht : threadOf s c = some t)
    (hh : t.handler = false) (hr : t.replay = false) :
    (takeException s c f idx).mem = s.mem ∧ (takeException s c f idx).dies = s.dies ∧ (takeException s c f idx).todo = s.todo ∧
      (takeException s c f idx).agenda = s.agenda ∧ (takeException s c f idx).now = s.now ∧
      ∀ x, x ≠ c → coreOf (takeException s c f idx) x = coreOf s x := by
  have hk : ∀ (s0 : State) (u : Thread) (x : Nat), x ≠ c → coreOf (setThread s0 c u) x = coreOf s0 x :=
    fun s0 u x hx => coreOf_setThread_other s0 c x u hx
  cases idx <;> (simp only [takeException, ht, hh, hr]; refine ⟨rfl, rfl, rfl, rfl, rfl, fun x hx => ?_⟩; exact hk _ _ x hx)

/-! The fault queues -/

/-- Writing one entry keeps memory's form. -/
theorem wf_fqWrite (s : State) (d : Nat) (ws : List Word) (h : Memory.wf s.mem = true) : Memory.wf (fqWrite s d ws).mem = true := by
  unfold fqWrite
  simp only [modDie_mem]
  exact wf_storeUnits _ _ _ h

/-- An event entry is written while the ring has space, and counted as dropped when it has none (R334). -/
theorem fqEvent_cases (s : State) (d : Nat) (ws : List Word) :
    (fqRoom (dieOf s d) = true ∧ fqEvent s d ws = fqWrite s d ws) ∨
    (fqRoom (dieOf s d) = false ∧ fqEvent s d ws = modDie s d (fun x => { x with fqDrop := satInc 32 x.fqDrop })) := by
  unfold fqEvent
  cases h : fqRoom (dieOf s d) <;> simp

/-- A fault entry is written while the ring has space and none waits, and else waits (R334). -/
theorem fqFault_cases (s : State) (d : Nat) (ws : List Word) :
    (fqRoom (dieOf s d) = true ∧ (dieOf s d).fqHeld = [] ∧ fqFault s d ws = fqWrite s d ws) ∨
    ((fqRoom (dieOf s d) = false ∨ (dieOf s d).fqHeld ≠ []) ∧
      fqFault s d ws = modDie s d (fun x => { x with fqHeld := x.fqHeld ++ [ws] })) := by
  unfold fqFault
  cases h : fqRoom (dieOf s d) <;> cases hq : (dieOf s d).fqHeld <;> simp

/-- Logging an event keeps memory's form. -/
theorem wf_fqEvent (s : State) (d : Nat) (ws : List Word) (h : Memory.wf s.mem = true) : Memory.wf (fqEvent s d ws).mem = true := by
  rcases fqEvent_cases s d ws with ⟨_, e⟩ | ⟨_, e⟩ <;> rw [e]
  · exact wf_fqWrite s d ws h
  · simpa using h

/-- Logging a fault keeps memory's form. -/
theorem wf_fqFault (s : State) (d : Nat) (ws : List Word) (h : Memory.wf s.mem = true) : Memory.wf (fqFault s d ws).mem = true := by
  rcases fqFault_cases s d ws with ⟨_, _, e⟩ | ⟨_, e⟩ <;> rw [e]
  · exact wf_fqWrite s d ws h
  · simpa using h

end Sys2Proof.Machine
end

