-- ==== Sys2Proof/Laws/PerInstr.lean ====
section
/-! SUPPORT. Statements about every instruction, one lemma per constructor of Instr: an encoding fits its slot. -/

namespace Sys2Proof.Laws.F

/-- Bits of a slot of each kind (R202). -/
def slotBits : Kind → Nat
  | .s0 | .s1 => 32
  | .x => 64
  | _ => 48

/-- The encoding of an instruction that a slot presents fits that slot. -/
def Statement (i : Instr) : Prop := ∀ k, slotKind i = some k → encode i < 2 ^ slotBits k

/-- Every field's value is below two to its width. -/
def Fit : List (Nat × Nat) → Prop
  | [] => True
  | f :: r => f.2 < 2 ^ f.1 ∧ Fit r

/-- Fields that fit their widths make a word of the sum of the widths. -/
theorem pk_lt (l : List (Nat × Nat)) (h : Fit l) : pk l < 2 ^ (l.map (·.1)).sum := by
  induction l with
  | nil => exact Nat.one_pos
  | cons f r ih =>
    obtain ⟨n, v⟩ := f
    have hv : v < 2 ^ n := h.1
    have hr : pk r + 1 ≤ 2 ^ (r.map (·.1)).sum := ih h.2
    simp only [pk, List.map_cons, List.sum_cons, Nat.pow_add]
    calc v + 2 ^ n * pk r < 2 ^ n + 2 ^ n * pk r := Nat.add_lt_add_right hv _
      _ = 2 ^ n * (pk r + 1) := by rw [Nat.mul_add, Nat.mul_one, Nat.add_comm]
      _ ≤ 2 ^ n * 2 ^ (r.map (·.1)).sum := Nat.mul_le_mul_left _ hr

/-- A slot of either memory kind has 48 bits. -/
theorem memory_bits (b : Bool) (k : Kind) (h : some (if b then Kind.m1 else Kind.m0) = some k) : slotBits k = 48 := by
  cases b <;> cases h <;> rfl

theorem nop (g : Guard) (x : BitVec 22) : Statement (.nop g x) := by
  rintro k ⟨⟩
  exact Nat.lt_of_lt_of_eq (pk_lt _ ⟨x.isLt, by decide, g.grd.isLt, Bool.toNat_lt g.neg, trivial⟩) (by rfl)

theorem add (g : Guard) (rd : BitVec 5) (ra : BitVec 5) (rb : BitVec 5) : Statement (.add g rd ra rb) := by
  rintro k ⟨⟩
  exact Nat.lt_of_lt_of_eq (pk_lt _ ⟨by decide, rb.isLt, ra.isLt, rd.isLt, by decide, g.grd.isLt, Bool.toNat_lt g.neg, trivial⟩) (by rfl)

theorem sub (g : Guard) (rd : BitVec 5) (ra : BitVec 5) (rb : BitVec 5) : Statement (.sub g rd ra rb) := by
  rintro k ⟨⟩
  exact Nat.lt_of_lt_of_eq (pk_lt _ ⟨by decide, rb.isLt, ra.isLt, rd.isLt, by decide, g.grd.isLt, Bool.toNat_lt g.neg, trivial⟩) (by rfl)

theorem addi (g : Guard) (rd : BitVec 5) (ra : BitVec 5) (imm : BitVec 12) : Statement (.addi g rd ra imm) := by
  rintro k ⟨⟩
  exact Nat.lt_of_lt_of_eq (pk_lt _ ⟨imm.isLt, ra.isLt, rd.isLt, by decide, g.grd.isLt, Bool.toNat_lt g.neg, trivial⟩) (by rfl)

theorem mul (g : Guard) (rd : BitVec 5) (ra : BitVec 5) (rb : BitVec 5) : Statement (.mul g rd ra rb) := by
  rintro k ⟨⟩
  exact Nat.lt_of_lt_of_eq (pk_lt _ ⟨by decide, rb.isLt, ra.isLt, rd.isLt, by decide, g.grd.isLt, Bool.toNat_lt g.neg, trivial⟩) (by rfl)

theorem mulhI (g : Guard) (rd : BitVec 5) (ra : BitVec 5) (rb : BitVec 5) : Statement (.mulhI g rd ra rb) := by
  rintro k ⟨⟩
  exact Nat.lt_of_lt_of_eq (pk_lt _ ⟨by decide, rb.isLt, ra.isLt, rd.isLt, by decide, g.grd.isLt, Bool.toNat_lt g.neg, trivial⟩) (by rfl)

theorem mulhN (g : Guard) (rd : BitVec 5) (ra : BitVec 5) (rb : BitVec 5) : Statement (.mulhN g rd ra rb) := by
  rintro k ⟨⟩
  exact Nat.lt_of_lt_of_eq (pk_lt _ ⟨by decide, rb.isLt, ra.isLt, rd.isLt, by decide, g.grd.isLt, Bool.toNat_lt g.neg, trivial⟩) (by rfl)

theorem and (g : Guard) (rd : BitVec 5) (ra : BitVec 5) (rb : BitVec 5) : Statement (.and g rd ra rb) := by
  rintro k ⟨⟩
  exact Nat.lt_of_lt_of_eq (pk_lt _ ⟨by decide, rb.isLt, ra.isLt, rd.isLt, by decide, g.grd.isLt, Bool.toNat_lt g.neg, trivial⟩) (by rfl)

theorem or (g : Guard) (rd : BitVec 5) (ra : BitVec 5) (rb : BitVec 5) : Statement (.or g rd ra rb) := by
  rintro k ⟨⟩
  exact Nat.lt_of_lt_of_eq (pk_lt _ ⟨by decide, rb.isLt, ra.isLt, rd.isLt, by decide, g.grd.isLt, Bool.toNat_lt g.neg, trivial⟩) (by rfl)

theorem xor (g : Guard) (rd : BitVec 5) (ra : BitVec 5) (rb : BitVec 5) : Statement (.xor g rd ra rb) := by
  rintro k ⟨⟩
  exact Nat.lt_of_lt_of_eq (pk_lt _ ⟨by decide, rb.isLt, ra.isLt, rd.isLt, by decide, g.grd.isLt, Bool.toNat_lt g.neg, trivial⟩) (by rfl)

theorem andn (g : Guard) (rd : BitVec 5) (ra : BitVec 5) (rb : BitVec 5) : Statement (.andn g rd ra rb) := by
  rintro k ⟨⟩
  exact Nat.lt_of_lt_of_eq (pk_lt _ ⟨by decide, rb.isLt, ra.isLt, rd.isLt, by decide, g.grd.isLt, Bool.toNat_lt g.neg, trivial⟩) (by rfl)

theorem andi (g : Guard) (rd : BitVec 5) (ra : BitVec 5) (imm : BitVec 12) : Statement (.andi g rd ra imm) := by
  rintro k ⟨⟩
  exact Nat.lt_of_lt_of_eq (pk_lt _ ⟨imm.isLt, ra.isLt, rd.isLt, by decide, g.grd.isLt, Bool.toNat_lt g.neg, trivial⟩) (by rfl)

theorem ori (g : Guard) (rd : BitVec 5) (ra : BitVec 5) (imm : BitVec 12) : Statement (.ori g rd ra imm) := by
  rintro k ⟨⟩
  exact Nat.lt_of_lt_of_eq (pk_lt _ ⟨imm.isLt, ra.isLt, rd.isLt, by decide, g.grd.isLt, Bool.toNat_lt g.neg, trivial⟩) (by rfl)

theorem xori (g : Guard) (rd : BitVec 5) (ra : BitVec 5) (imm : BitVec 12) : Statement (.xori g rd ra imm) := by
  rintro k ⟨⟩
  exact Nat.lt_of_lt_of_eq (pk_lt _ ⟨imm.isLt, ra.isLt, rd.isLt, by decide, g.grd.isLt, Bool.toNat_lt g.neg, trivial⟩) (by rfl)

theorem shl (g : Guard) (rd : BitVec 5) (ra : BitVec 5) (rb : BitVec 5) : Statement (.shl g rd ra rb) := by
  rintro k ⟨⟩
  exact Nat.lt_of_lt_of_eq (pk_lt _ ⟨by decide, rb.isLt, ra.isLt, rd.isLt, by decide, g.grd.isLt, Bool.toNat_lt g.neg, trivial⟩) (by rfl)

theorem shr (g : Guard) (rd : BitVec 5) (ra : BitVec 5) (rb : BitVec 5) : Statement (.shr g rd ra rb) := by
  rintro k ⟨⟩
  exact Nat.lt_of_lt_of_eq (pk_lt _ ⟨by decide, rb.isLt, ra.isLt, rd.isLt, by decide, g.grd.isLt, Bool.toNat_lt g.neg, trivial⟩) (by rfl)

theorem sar (g : Guard) (rd : BitVec 5) (ra : BitVec 5) (rb : BitVec 5) : Statement (.sar g rd ra rb) := by
  rintro k ⟨⟩
  exact Nat.lt_of_lt_of_eq (pk_lt _ ⟨by decide, rb.isLt, ra.isLt, rd.isLt, by decide, g.grd.isLt, Bool.toNat_lt g.neg, trivial⟩) (by rfl)

theorem ror (g : Guard) (rd : BitVec 5) (ra : BitVec 5) (rb : BitVec 5) : Statement (.ror g rd ra rb) := by
  rintro k ⟨⟩
  exact Nat.lt_of_lt_of_eq (pk_lt _ ⟨by decide, rb.isLt, ra.isLt, rd.isLt, by decide, g.grd.isLt, Bool.toNat_lt g.neg, trivial⟩) (by rfl)

theorem shli (g : Guard) (rd : BitVec 5) (ra : BitVec 5) (c : BitVec 6) : Statement (.shli g rd ra c) := by
  rintro k ⟨⟩
  exact Nat.lt_of_lt_of_eq (pk_lt _ ⟨c.isLt, by decide, ra.isLt, rd.isLt, by decide, g.grd.isLt, Bool.toNat_lt g.neg, trivial⟩) (by rfl)

theorem shri (g : Guard) (rd : BitVec 5) (ra : BitVec 5) (c : BitVec 6) : Statement (.shri g rd ra c) := by
  rintro k ⟨⟩
  exact Nat.lt_of_lt_of_eq (pk_lt _ ⟨c.isLt, by decide, ra.isLt, rd.isLt, by decide, g.grd.isLt, Bool.toNat_lt g.neg, trivial⟩) (by rfl)

theorem sari (g : Guard) (rd : BitVec 5) (ra : BitVec 5) (c : BitVec 6) : Statement (.sari g rd ra c) := by
  rintro k ⟨⟩
  exact Nat.lt_of_lt_of_eq (pk_lt _ ⟨c.isLt, by decide, ra.isLt, rd.isLt, by decide, g.grd.isLt, Bool.toNat_lt g.neg, trivial⟩) (by rfl)

theorem rori (g : Guard) (rd : BitVec 5) (ra : BitVec 5) (c : BitVec 6) : Statement (.rori g rd ra c) := by
  rintro k ⟨⟩
  exact Nat.lt_of_lt_of_eq (pk_lt _ ⟨c.isLt, by decide, ra.isLt, rd.isLt, by decide, g.grd.isLt, Bool.toNat_lt g.neg, trivial⟩) (by rfl)

theorem bfxN (g : Guard) (rd : BitVec 5) (ra : BitVec 5) (pos : BitVec 6) (len : BitVec 6) : Statement (.bfxN g rd ra pos len) := by
  rintro k ⟨⟩
  exact Nat.lt_of_lt_of_eq (pk_lt _ ⟨len.isLt, pos.isLt, ra.isLt, rd.isLt, by decide, g.grd.isLt, Bool.toNat_lt g.neg, trivial⟩) (by rfl)

theorem bfxI (g : Guard) (rd : BitVec 5) (ra : BitVec 5) (pos : BitVec 6) (len : BitVec 6) : Statement (.bfxI g rd ra pos len) := by
  rintro k ⟨⟩
  exact Nat.lt_of_lt_of_eq (pk_lt _ ⟨len.isLt, pos.isLt, ra.isLt, rd.isLt, by decide, g.grd.isLt, Bool.toNat_lt g.neg, trivial⟩) (by rfl)

theorem bfi (g : Guard) (rd : BitVec 5) (ra : BitVec 5) (pos : BitVec 6) (len : BitVec 6) : Statement (.bfi g rd ra pos len) := by
  rintro k ⟨⟩
  exact Nat.lt_of_lt_of_eq (pk_lt _ ⟨len.isLt, pos.isLt, ra.isLt, rd.isLt, by decide, g.grd.isLt, Bool.toNat_lt g.neg, trivial⟩) (by rfl)

theorem clz (g : Guard) (rd : BitVec 5) (ra : BitVec 5) : Statement (.clz g rd ra) := by
  rintro k ⟨⟩
  exact Nat.lt_of_lt_of_eq (pk_lt _ ⟨by decide, ra.isLt, rd.isLt, by decide, g.grd.isLt, Bool.toNat_lt g.neg, trivial⟩) (by rfl)

theorem ctz (g : Guard) (rd : BitVec 5) (ra : BitVec 5) : Statement (.ctz g rd ra) := by
  rintro k ⟨⟩
  exact Nat.lt_of_lt_of_eq (pk_lt _ ⟨by decide, ra.isLt, rd.isLt, by decide, g.grd.isLt, Bool.toNat_lt g.neg, trivial⟩) (by rfl)

theorem popc (g : Guard) (rd : BitVec 5) (ra : BitVec 5) : Statement (.popc g rd ra) := by
  rintro k ⟨⟩
  exact Nat.lt_of_lt_of_eq (pk_lt _ ⟨by decide, ra.isLt, rd.isLt, by decide, g.grd.isLt, Bool.toNat_lt g.neg, trivial⟩) (by rfl)

theorem minI (g : Guard) (rd : BitVec 5) (ra : BitVec 5) (rb : BitVec 5) : Statement (.minI g rd ra rb) := by
  rintro k ⟨⟩
  exact Nat.lt_of_lt_of_eq (pk_lt _ ⟨by decide, rb.isLt, ra.isLt, rd.isLt, by decide, g.grd.isLt, Bool.toNat_lt g.neg, trivial⟩) (by rfl)

theorem minN (g : Guard) (rd : BitVec 5) (ra : BitVec 5) (rb : BitVec 5) : Statement (.minN g rd ra rb) := by
  rintro k ⟨⟩
  exact Nat.lt_of_lt_of_eq (pk_lt _ ⟨by decide, rb.isLt, ra.isLt, rd.isLt, by decide, g.grd.isLt, Bool.toNat_lt g.neg, trivial⟩) (by rfl)

theorem maxI (g : Guard) (rd : BitVec 5) (ra : BitVec 5) (rb : BitVec 5) : Statement (.maxI g rd ra rb) := by
  rintro k ⟨⟩
  exact Nat.lt_of_lt_of_eq (pk_lt _ ⟨by decide, rb.isLt, ra.isLt, rd.isLt, by decide, g.grd.isLt, Bool.toNat_lt g.neg, trivial⟩) (by rfl)

theorem maxN (g : Guard) (rd : BitVec 5) (ra : BitVec 5) (rb : BitVec 5) : Statement (.maxN g rd ra rb) := by
  rintro k ⟨⟩
  exact Nat.lt_of_lt_of_eq (pk_lt _ ⟨by decide, rb.isLt, ra.isLt, rd.isLt, by decide, g.grd.isLt, Bool.toNat_lt g.neg, trivial⟩) (by rfl)

theorem sel (g : Guard) (rd : BitVec 5) (ra : BitVec 5) (rb : BitVec 5) (pn : Bool) (ps : BitVec 3) : Statement (.sel g rd ra rb pn ps) := by
  rintro k ⟨⟩
  exact Nat.lt_of_lt_of_eq (pk_lt _ ⟨by decide, ps.isLt, Bool.toNat_lt pn, rb.isLt, ra.isLt, rd.isLt, by decide, g.grd.isLt, Bool.toNat_lt g.neg, trivial⟩) (by rfl)

theorem movi (g : Guard) (rd : BitVec 5) (imm : BitVec 17) : Statement (.movi g rd imm) := by
  rintro k ⟨⟩
  exact Nat.lt_of_lt_of_eq (pk_lt _ ⟨imm.isLt, rd.isLt, by decide, g.grd.isLt, Bool.toNat_lt g.neg, trivial⟩) (by rfl)

theorem movhi (g : Guard) (rd : BitVec 5) (imm : BitVec 17) : Statement (.movhi g rd imm) := by
  rintro k ⟨⟩
  exact Nat.lt_of_lt_of_eq (pk_lt _ ⟨imm.isLt, rd.isLt, by decide, g.grd.isLt, Bool.toNat_lt g.neg, trivial⟩) (by rfl)

theorem cmp (g : Guard) (pd : BitVec 3) (cond : BitVec 4) (ra : BitVec 5) (rb : BitVec 5) (cm : BitVec 2) : Statement (.cmp g pd cond ra rb cm) := by
  rintro k ⟨⟩
  exact Nat.lt_of_lt_of_eq (pk_lt _ ⟨by decide, cm.isLt, rb.isLt, ra.isLt, cond.isLt, pd.isLt, by decide, g.grd.isLt, Bool.toNat_lt g.neg, trivial⟩) (by rfl)

theorem cmpi (g : Guard) (pd : BitVec 3) (cond : BitVec 4) (ra : BitVec 5) (cm : BitVec 2) (imm : BitVec 8) : Statement (.cmpi g pd cond ra cm imm) := by
  rintro k ⟨⟩
  exact Nat.lt_of_lt_of_eq (pk_lt _ ⟨imm.isLt, cm.isLt, ra.isLt, cond.isLt, pd.isLt, by decide, g.grd.isLt, Bool.toNat_lt g.neg, trivial⟩) (by rfl)

theorem plog (g : Guard) (pd : BitVec 3) (pa : BitVec 3) (pb : BitVec 3) (lut : BitVec 4) : Statement (.plog g pd pa pb lut) := by
  rintro k ⟨⟩
  exact Nat.lt_of_lt_of_eq (pk_lt _ ⟨by decide, lut.isLt, pb.isLt, pa.isLt, pd.isLt, by decide, g.grd.isLt, Bool.toNat_lt g.neg, trivial⟩) (by rfl)

theorem pmovWr (g : Guard) (reg : BitVec 5) (mask : BitVec 8) : Statement (.pmovWr g reg mask) := by
  rintro k ⟨⟩
  exact Nat.lt_of_lt_of_eq (pk_lt _ ⟨by decide, mask.isLt, reg.isLt, by decide, by decide, g.grd.isLt, Bool.toNat_lt g.neg, trivial⟩) (by rfl)

theorem pmovRd (g : Guard) (reg : BitVec 5) : Statement (.pmovRd g reg) := by
  rintro k ⟨⟩
  exact Nat.lt_of_lt_of_eq (pk_lt _ ⟨by decide, reg.isLt, by decide, by decide, g.grd.isLt, Bool.toNat_lt g.neg, trivial⟩) (by rfl)

theorem br (g : Guard) (tgt : BitVec 6) : Statement (.br g tgt) := by
  rintro k ⟨⟩
  exact Nat.lt_of_lt_of_eq (pk_lt _ ⟨tgt.isLt, by decide, by decide, g.grd.isLt, Bool.toNat_lt g.neg, trivial⟩) (by rfl)

theorem brx (g : Guard) : Statement (.brx g) := by
  rintro k ⟨⟩
  exact Nat.lt_of_lt_of_eq (pk_lt _ ⟨by decide, by decide, g.grd.isLt, Bool.toNat_lt g.neg, trivial⟩) (by rfl)

theorem jmp (g : Guard) (ra : BitVec 5) : Statement (.jmp g ra) := by
  rintro k ⟨⟩
  exact Nat.lt_of_lt_of_eq (pk_lt _ ⟨by decide, ra.isLt, by decide, by decide, g.grd.isLt, Bool.toNat_lt g.neg, trivial⟩) (by rfl)

theorem call (g : Guard) (rd : BitVec 5) (ra : BitVec 5) : Statement (.call g rd ra) := by
  rintro k ⟨⟩
  exact Nat.lt_of_lt_of_eq (pk_lt _ ⟨by decide, ra.isLt, rd.isLt, by decide, g.grd.isLt, Bool.toNat_lt g.neg, trivial⟩) (by rfl)

theorem ret (g : Guard) (ra : BitVec 5) : Statement (.ret g ra) := by
  rintro k ⟨⟩
  exact Nat.lt_of_lt_of_eq (pk_lt _ ⟨by decide, ra.isLt, by decide, by decide, g.grd.isLt, Bool.toNat_lt g.neg, trivial⟩) (by rfl)

theorem loopReg (g : Guard) (ra : BitVec 5) (start : BitVec 6) (exit : BitVec 6) : Statement (.loopReg g ra start exit) := by
  rintro k ⟨⟩
  exact Nat.lt_of_lt_of_eq (pk_lt _ ⟨exit.isLt, start.isLt, by decide, ra.isLt, by decide, by decide, g.grd.isLt, Bool.toNat_lt g.neg, trivial⟩) (by rfl)

theorem loopImm (g : Guard) (cnt : BitVec 9) (start : BitVec 6) (exit : BitVec 6) : Statement (.loopImm g cnt start exit) := by
  rintro k ⟨⟩
  exact Nat.lt_of_lt_of_eq (pk_lt _ ⟨exit.isLt, start.isLt, cnt.isLt, by decide, by decide, g.grd.isLt, Bool.toNat_lt g.neg, trivial⟩) (by rfl)

theorem endl (g : Guard) : Statement (.endl g) := by
  rintro k ⟨⟩
  exact Nat.lt_of_lt_of_eq (pk_lt _ ⟨by decide, by decide, g.grd.isLt, Bool.toNat_lt g.neg, trivial⟩) (by rfl)

theorem brk (g : Guard) (tgt : BitVec 6) : Statement (.brk g tgt) := by
  rintro k ⟨⟩
  exact Nat.lt_of_lt_of_eq (pk_lt _ ⟨tgt.isLt, by decide, by decide, g.grd.isLt, Bool.toNat_lt g.neg, trivial⟩) (by rfl)

theorem endT (g : Guard) : Statement (.endT g) := by
  rintro k ⟨⟩
  exact Nat.lt_of_lt_of_eq (pk_lt _ ⟨by decide, by decide, g.grd.isLt, Bool.toNat_lt g.neg, trivial⟩) (by rfl)

theorem trap (g : Guard) (code : BitVec 16) : Statement (.trap g code) := by
  rintro k ⟨⟩
  exact Nat.lt_of_lt_of_eq (pk_lt _ ⟨code.isLt, by decide, by decide, g.grd.isLt, Bool.toNat_lt g.neg, trivial⟩) (by rfl)

theorem mnop (h : MHdr) (x : BitVec 37) : Statement (.mnop h x) := by
  intro k hk
  rw [memory_bits h.m1 k hk]
  exact Nat.lt_of_lt_of_eq (pk_lt _ ⟨x.isLt, by decide, Bool.toNat_lt h.hold, h.g.grd.isLt, Bool.toNat_lt h.g.neg, trivial⟩) (by rfl)

theorem ldb (h : MHdr) (rd : BitVec 5) (ra : BitVec 5) (ord : BitVec 3) (scope : BitVec 3) (mode : BitVec 2) (off : BitVec 10) (disp : BitVec 9) : Statement (.ldb h rd ra ord scope mode off disp) := by
  intro k hk
  rw [memory_bits h.m1 k hk]
  exact Nat.lt_of_lt_of_eq (pk_lt _ ⟨disp.isLt, off.isLt, mode.isLt, scope.isLt, ord.isLt, ra.isLt, rd.isLt, by decide, Bool.toNat_lt h.hold, h.g.grd.isLt, Bool.toNat_lt h.g.neg, trivial⟩) (by rfl)

theorem ldh (h : MHdr) (rd : BitVec 5) (ra : BitVec 5) (ord : BitVec 3) (scope : BitVec 3) (mode : BitVec 2) (off : BitVec 10) (disp : BitVec 9) : Statement (.ldh h rd ra ord scope mode off disp) := by
  intro k hk
  rw [memory_bits h.m1 k hk]
  exact Nat.lt_of_lt_of_eq (pk_lt _ ⟨disp.isLt, off.isLt, mode.isLt, scope.isLt, ord.isLt, ra.isLt, rd.isLt, by decide, Bool.toNat_lt h.hold, h.g.grd.isLt, Bool.toNat_lt h.g.neg, trivial⟩) (by rfl)

theorem ldw (h : MHdr) (rd : BitVec 5) (ra : BitVec 5) (ord : BitVec 3) (scope : BitVec 3) (mode : BitVec 2) (off : BitVec 10) (disp : BitVec 9) : Statement (.ldw h rd ra ord scope mode off disp) := by
  intro k hk
  rw [memory_bits h.m1 k hk]
  exact Nat.lt_of_lt_of_eq (pk_lt _ ⟨disp.isLt, off.isLt, mode.isLt, scope.isLt, ord.isLt, ra.isLt, rd.isLt, by decide, Bool.toNat_lt h.hold, h.g.grd.isLt, Bool.toNat_lt h.g.neg, trivial⟩) (by rfl)

theorem ld (h : MHdr) (rd : BitVec 5) (ra : BitVec 5) (ord : BitVec 3) (scope : BitVec 3) (mode : BitVec 2) (off : BitVec 10) (disp : BitVec 9) : Statement (.ld h rd ra ord scope mode off disp) := by
  intro k hk
  rw [memory_bits h.m1 k hk]
  exact Nat.lt_of_lt_of_eq (pk_lt _ ⟨disp.isLt, off.isLt, mode.isLt, scope.isLt, ord.isLt, ra.isLt, rd.isLt, by decide, Bool.toNat_lt h.hold, h.g.grd.isLt, Bool.toNat_lt h.g.neg, trivial⟩) (by rfl)

theorem ldbs (h : MHdr) (rd : BitVec 5) (ra : BitVec 5) (ord : BitVec 3) (scope : BitVec 3) (mode : BitVec 2) (off : BitVec 10) (disp : BitVec 9) : Statement (.ldbs h rd ra ord scope mode off disp) := by
  intro k hk
  rw [memory_bits h.m1 k hk]
  exact Nat.lt_of_lt_of_eq (pk_lt _ ⟨disp.isLt, off.isLt, mode.isLt, scope.isLt, ord.isLt, ra.isLt, rd.isLt, by decide, Bool.toNat_lt h.hold, h.g.grd.isLt, Bool.toNat_lt h.g.neg, trivial⟩) (by rfl)

theorem ldhs (h : MHdr) (rd : BitVec 5) (ra : BitVec 5) (ord : BitVec 3) (scope : BitVec 3) (mode : BitVec 2) (off : BitVec 10) (disp : BitVec 9) : Statement (.ldhs h rd ra ord scope mode off disp) := by
  intro k hk
  rw [memory_bits h.m1 k hk]
  exact Nat.lt_of_lt_of_eq (pk_lt _ ⟨disp.isLt, off.isLt, mode.isLt, scope.isLt, ord.isLt, ra.isLt, rd.isLt, by decide, Bool.toNat_lt h.hold, h.g.grd.isLt, Bool.toNat_lt h.g.neg, trivial⟩) (by rfl)

theorem ldws (h : MHdr) (rd : BitVec 5) (ra : BitVec 5) (ord : BitVec 3) (scope : BitVec 3) (mode : BitVec 2) (off : BitVec 10) (disp : BitVec 9) : Statement (.ldws h rd ra ord scope mode off disp) := by
  intro k hk
  rw [memory_bits h.m1 k hk]
  exact Nat.lt_of_lt_of_eq (pk_lt _ ⟨disp.isLt, off.isLt, mode.isLt, scope.isLt, ord.isLt, ra.isLt, rd.isLt, by decide, Bool.toNat_lt h.hold, h.g.grd.isLt, Bool.toNat_lt h.g.neg, trivial⟩) (by rfl)

theorem stb (h : MHdr) (rs : BitVec 5) (ra : BitVec 5) (ord : BitVec 3) (scope : BitVec 3) (disp : BitVec 9) : Statement (.stb h rs ra ord scope disp) := by
  intro k hk
  rw [memory_bits h.m1 k hk]
  exact Nat.lt_of_lt_of_eq (pk_lt _ ⟨disp.isLt, by decide, scope.isLt, ord.isLt, ra.isLt, rs.isLt, by decide, Bool.toNat_lt h.hold, h.g.grd.isLt, Bool.toNat_lt h.g.neg, trivial⟩) (by rfl)

theorem sth (h : MHdr) (rs : BitVec 5) (ra : BitVec 5) (ord : BitVec 3) (scope : BitVec 3) (disp : BitVec 9) : Statement (.sth h rs ra ord scope disp) := by
  intro k hk
  rw [memory_bits h.m1 k hk]
  exact Nat.lt_of_lt_of_eq (pk_lt _ ⟨disp.isLt, by decide, scope.isLt, ord.isLt, ra.isLt, rs.isLt, by decide, Bool.toNat_lt h.hold, h.g.grd.isLt, Bool.toNat_lt h.g.neg, trivial⟩) (by rfl)

theorem stw (h : MHdr) (rs : BitVec 5) (ra : BitVec 5) (ord : BitVec 3) (scope : BitVec 3) (disp : BitVec 9) : Statement (.stw h rs ra ord scope disp) := by
  intro k hk
  rw [memory_bits h.m1 k hk]
  exact Nat.lt_of_lt_of_eq (pk_lt _ ⟨disp.isLt, by decide, scope.isLt, ord.isLt, ra.isLt, rs.isLt, by decide, Bool.toNat_lt h.hold, h.g.grd.isLt, Bool.toNat_lt h.g.neg, trivial⟩) (by rfl)

theorem st (h : MHdr) (rs : BitVec 5) (ra : BitVec 5) (ord : BitVec 3) (scope : BitVec 3) (disp : BitVec 9) : Statement (.st h rs ra ord scope disp) := by
  intro k hk
  rw [memory_bits h.m1 k hk]
  exact Nat.lt_of_lt_of_eq (pk_lt _ ⟨disp.isLt, by decide, scope.isLt, ord.isLt, ra.isLt, rs.isLt, by decide, Bool.toNat_lt h.hold, h.g.grd.isLt, Bool.toNat_lt h.g.neg, trivial⟩) (by rfl)

theorem ldrow (h : MHdr) (t : BitVec 4) (e : BitVec 6) (nm : BitVec 6) (ra : BitVec 5) (rstr : BitVec 5) (mode : BitVec 2) (off : BitVec 9) : Statement (.ldrow h t e nm ra rstr mode off) := by
  intro k hk
  rw [memory_bits h.m1 k hk]
  exact Nat.lt_of_lt_of_eq (pk_lt _ ⟨off.isLt, mode.isLt, rstr.isLt, ra.isLt, nm.isLt, e.isLt, t.isLt, by decide, Bool.toNat_lt h.hold, h.g.grd.isLt, Bool.toNat_lt h.g.neg, trivial⟩) (by rfl)

theorem strow (h : MHdr) (t : BitVec 4) (e : BitVec 6) (nm : BitVec 6) (ra : BitVec 5) (rstr : BitVec 5) : Statement (.strow h t e nm ra rstr) := by
  intro k hk
  rw [memory_bits h.m1 k hk]
  exact Nat.lt_of_lt_of_eq (pk_lt _ ⟨by decide, rstr.isLt, ra.isLt, nm.isLt, e.isLt, t.isLt, by decide, Bool.toNat_lt h.hold, h.g.grd.isLt, Bool.toNat_lt h.g.neg, trivial⟩) (by rfl)

theorem atom (h : MHdr) (rd : BitVec 5) (ra : BitVec 5) (rb : BitVec 5) (rc : BitVec 5) (aop : BitVec 4) (w : Bool) (rv : Bool) (ord : BitVec 3) (scope : BitVec 3) : Statement (.atom h rd ra rb rc aop w rv ord scope) := by
  intro k hk
  rw [memory_bits h.m1 k hk]
  exact Nat.lt_of_lt_of_eq (pk_lt _ ⟨by decide, scope.isLt, ord.isLt, Bool.toNat_lt rv, Bool.toNat_lt w, aop.isLt, rc.isLt, rb.isLt, ra.isLt, rd.isLt, by decide, Bool.toNat_lt h.hold, h.g.grd.isLt, Bool.toNat_lt h.g.neg, trivial⟩) (by rfl)

theorem fence (h : MHdr) (ord : BitVec 3) (scope : BitVec 3) : Statement (.fence h ord scope) := by
  intro k hk
  rw [memory_bits h.m1 k hk]
  exact Nat.lt_of_lt_of_eq (pk_lt _ ⟨by decide, scope.isLt, ord.isLt, by decide, Bool.toNat_lt h.hold, h.g.grd.isLt, Bool.toNat_lt h.g.neg, trivial⟩) (by rfl)

theorem probe (h : MHdr) (pd : BitVec 3) (rdp : BitVec 4) (ra : BitVec 5) (wayf : Bool) (way : BitVec 3) (mb : Bool) (tgt : BitVec 6) (barf : Bool) (rb : BitVec 5) : Statement (.probe h pd rdp ra wayf way mb tgt barf rb) := by
  intro k hk
  rw [memory_bits h.m1 k hk]
  exact Nat.lt_of_lt_of_eq (pk_lt _ ⟨by decide, rb.isLt, Bool.toNat_lt barf, tgt.isLt, Bool.toNat_lt mb, way.isLt, Bool.toNat_lt wayf, ra.isLt, rdp.isLt, pd.isLt, by decide, Bool.toNat_lt h.hold, h.g.grd.isLt, Bool.toNat_lt h.g.neg, trivial⟩) (by rfl)

theorem fill (h : MHdr) (rd : BitVec 5) (ra : BitVec 5) (wayf : Bool) (way : BitVec 3) (barf : Bool) (rb : BitVec 5) : Statement (.fill h rd ra wayf way barf rb) := by
  intro k hk
  rw [memory_bits h.m1 k hk]
  exact Nat.lt_of_lt_of_eq (pk_lt _ ⟨by decide, rb.isLt, Bool.toNat_lt barf, way.isLt, Bool.toNat_lt wayf, ra.isLt, rd.isLt, by decide, Bool.toNat_lt h.hold, h.g.grd.isLt, Bool.toNat_lt h.g.neg, trivial⟩) (by rfl)

theorem evict (h : MHdr) (wb : Bool) (ra : BitVec 5) (rd : BitVec 5) : Statement (.evict h wb ra rd) := by
  intro k hk
  rw [memory_bits h.m1 k hk]
  exact Nat.lt_of_lt_of_eq (pk_lt _ ⟨by decide, rd.isLt, ra.isLt, Bool.toNat_lt wb, by decide, Bool.toNat_lt h.hold, h.g.grd.isLt, Bool.toNat_lt h.g.neg, trivial⟩) (by rfl)

theorem wback (h : MHdr) (ra : BitVec 5) (rd : BitVec 5) : Statement (.wback h ra rd) := by
  intro k hk
  rw [memory_bits h.m1 k hk]
  exact Nat.lt_of_lt_of_eq (pk_lt _ ⟨by decide, rd.isLt, ra.isLt, by decide, Bool.toNat_lt h.hold, h.g.grd.isLt, Bool.toNat_lt h.g.neg, trivial⟩) (by rfl)

theorem cvta (h : MHdr) (rd : BitVec 5) (ra : BitVec 5) (dir : BitVec 2) : Statement (.cvta h rd ra dir) := by
  intro k hk
  rw [memory_bits h.m1 k hk]
  exact Nat.lt_of_lt_of_eq (pk_lt _ ⟨by decide, dir.isLt, ra.isLt, rd.isLt, by decide, Bool.toNat_lt h.hold, h.g.grd.isLt, Bool.toNat_lt h.g.neg, trivial⟩) (by rfl)

theorem aptest (h : MHdr) (pd : BitVec 3) (ra : BitVec 5) (sp : Bool) : Statement (.aptest h pd ra sp) := by
  intro k hk
  rw [memory_bits h.m1 k hk]
  exact Nat.lt_of_lt_of_eq (pk_lt _ ⟨by decide, Bool.toNat_lt sp, ra.isLt, pd.isLt, by decide, Bool.toNat_lt h.hold, h.g.grd.isLt, Bool.toNat_lt h.g.neg, trivial⟩) (by rfl)

theorem wait (h : MHdr) (l : BitVec 4) (s : BitVec 4) (c : BitVec 4) (t : BitVec 4) : Statement (.wait h l s c t) := by
  intro k hk
  rw [memory_bits h.m1 k hk]
  exact Nat.lt_of_lt_of_eq (pk_lt _ ⟨by decide, t.isLt, c.isLt, s.isLt, l.isLt, by decide, Bool.toNat_lt h.hold, h.g.grd.isLt, Bool.toNat_lt h.g.neg, trivial⟩) (by rfl)

theorem mon (h : MHdr) (ent : BitVec 3) (ra : BitVec 5) (rb : BitVec 5) (cmp : BitVec 3) (w : Bool) (rt : BitVec 5) : Statement (.mon h ent ra rb cmp w rt) := by
  intro k hk
  rw [memory_bits h.m1 k hk]
  exact Nat.lt_of_lt_of_eq (pk_lt _ ⟨by decide, rt.isLt, Bool.toNat_lt w, cmp.isLt, rb.isLt, ra.isLt, ent.isLt, by decide, Bool.toNat_lt h.hold, h.g.grd.isLt, Bool.toNat_lt h.g.neg, trivial⟩) (by rfl)

theorem mwait (h : MHdr) (mask : BitVec 8) (rd : BitVec 5) : Statement (.mwait h mask rd) := by
  intro k hk
  rw [memory_bits h.m1 k hk]
  exact Nat.lt_of_lt_of_eq (pk_lt _ ⟨by decide, rd.isLt, mask.isLt, by decide, Bool.toNat_lt h.hold, h.g.grd.isLt, Bool.toNat_lt h.g.neg, trivial⟩) (by rfl)

theorem vnop (h : VHdr) (x : BitVec 30) : Statement (.vnop h x) := by
  rintro k ⟨⟩
  exact Nat.lt_of_lt_of_eq (pk_lt _ ⟨x.isLt, h.beats.isLt, by decide, Bool.toNat_lt h.hold, h.g.grd.isLt, Bool.toNat_lt h.g.neg, trivial⟩) (by rfl)

theorem vadd (h : VHdr) (dt : BitVec 4) (row : BitVec 6) (ta : BitVec 4) (tb : BitVec 4) (br : BitVec 6) (bfix : Bool) : Statement (.vadd h dt row ta tb br bfix) := by
  rintro k ⟨⟩
  exact Nat.lt_of_lt_of_eq (pk_lt _ ⟨by decide, Bool.toNat_lt bfix, br.isLt, tb.isLt, ta.isLt, row.isLt, dt.isLt, h.beats.isLt, by decide, Bool.toNat_lt h.hold, h.g.grd.isLt, Bool.toNat_lt h.g.neg, trivial⟩) (by rfl)

theorem vsub (h : VHdr) (dt : BitVec 4) (row : BitVec 6) (ta : BitVec 4) (tb : BitVec 4) (br : BitVec 6) (bfix : Bool) : Statement (.vsub h dt row ta tb br bfix) := by
  rintro k ⟨⟩
  exact Nat.lt_of_lt_of_eq (pk_lt _ ⟨by decide, Bool.toNat_lt bfix, br.isLt, tb.isLt, ta.isLt, row.isLt, dt.isLt, h.beats.isLt, by decide, Bool.toNat_lt h.hold, h.g.grd.isLt, Bool.toNat_lt h.g.neg, trivial⟩) (by rfl)

theorem vmul (h : VHdr) (dt : BitVec 4) (row : BitVec 6) (ta : BitVec 4) (tb : BitVec 4) (br : BitVec 6) (bfix : Bool) : Statement (.vmul h dt row ta tb br bfix) := by
  rintro k ⟨⟩
  exact Nat.lt_of_lt_of_eq (pk_lt _ ⟨by decide, Bool.toNat_lt bfix, br.isLt, tb.isLt, ta.isLt, row.isLt, dt.isLt, h.beats.isLt, by decide, Bool.toNat_lt h.hold, h.g.grd.isLt, Bool.toNat_lt h.g.neg, trivial⟩) (by rfl)

theorem vfma (h : VHdr) (dt : BitVec 4) (row : BitVec 6) (ta : BitVec 4) (tb : BitVec 4) (br : BitVec 6) (bfix : Bool) : Statement (.vfma h dt row ta tb br bfix) := by
  rintro k ⟨⟩
  exact Nat.lt_of_lt_of_eq (pk_lt _ ⟨by decide, Bool.toNat_lt bfix, br.isLt, tb.isLt, ta.isLt, row.isLt, dt.isLt, h.beats.isLt, by decide, Bool.toNat_lt h.hold, h.g.grd.isLt, Bool.toNat_lt h.g.neg, trivial⟩) (by rfl)

theorem vmin (h : VHdr) (dt : BitVec 4) (row : BitVec 6) (ta : BitVec 4) (tb : BitVec 4) (br : BitVec 6) (bfix : Bool) : Statement (.vmin h dt row ta tb br bfix) := by
  rintro k ⟨⟩
  exact Nat.lt_of_lt_of_eq (pk_lt _ ⟨by decide, Bool.toNat_lt bfix, br.isLt, tb.isLt, ta.isLt, row.isLt, dt.isLt, h.beats.isLt, by decide, Bool.toNat_lt h.hold, h.g.grd.isLt, Bool.toNat_lt h.g.neg, trivial⟩) (by rfl)

theorem vmax (h : VHdr) (dt : BitVec 4) (row : BitVec 6) (ta : BitVec 4) (tb : BitVec 4) (br : BitVec 6) (bfix : Bool) : Statement (.vmax h dt row ta tb br bfix) := by
  rintro k ⟨⟩
  exact Nat.lt_of_lt_of_eq (pk_lt _ ⟨by decide, Bool.toNat_lt bfix, br.isLt, tb.isLt, ta.isLt, row.isLt, dt.isLt, h.beats.isLt, by decide, Bool.toNat_lt h.hold, h.g.grd.isLt, Bool.toNat_lt h.g.neg, trivial⟩) (by rfl)

theorem vabs (h : VHdr) (dt : BitVec 4) (row : BitVec 6) (ta : BitVec 4) : Statement (.vabs h dt row ta) := by
  rintro k ⟨⟩
  exact Nat.lt_of_lt_of_eq (pk_lt _ ⟨by decide, ta.isLt, row.isLt, dt.isLt, h.beats.isLt, by decide, Bool.toNat_lt h.hold, h.g.grd.isLt, Bool.toNat_lt h.g.neg, trivial⟩) (by rfl)

theorem vneg (h : VHdr) (dt : BitVec 4) (row : BitVec 6) (ta : BitVec 4) : Statement (.vneg h dt row ta) := by
  rintro k ⟨⟩
  exact Nat.lt_of_lt_of_eq (pk_lt _ ⟨by decide, ta.isLt, row.isLt, dt.isLt, h.beats.isLt, by decide, Bool.toNat_lt h.hold, h.g.grd.isLt, Bool.toNat_lt h.g.neg, trivial⟩) (by rfl)

theorem vcmp (h : VHdr) (dt : BitVec 4) (row : BitVec 6) (ta : BitVec 4) (tb : BitVec 4) (br : BitVec 6) (bfix : Bool) (ty : BitVec 3) : Statement (.vcmp h dt row ta tb br bfix ty) := by
  rintro k ⟨⟩
  exact Nat.lt_of_lt_of_eq (pk_lt _ ⟨by decide, ty.isLt, Bool.toNat_lt bfix, br.isLt, tb.isLt, ta.isLt, row.isLt, dt.isLt, h.beats.isLt, by decide, Bool.toNat_lt h.hold, h.g.grd.isLt, Bool.toNat_lt h.g.neg, trivial⟩) (by rfl)

theorem vsel (h : VHdr) (dt : BitVec 4) (row : BitVec 6) (ta : BitVec 4) (tb : BitVec 4) (br : BitVec 6) (bfix : Bool) (ty : BitVec 3) : Statement (.vsel h dt row ta tb br bfix ty) := by
  rintro k ⟨⟩
  exact Nat.lt_of_lt_of_eq (pk_lt _ ⟨by decide, ty.isLt, Bool.toNat_lt bfix, br.isLt, tb.isLt, ta.isLt, row.isLt, dt.isLt, h.beats.isLt, by decide, Bool.toNat_lt h.hold, h.g.grd.isLt, Bool.toNat_lt h.g.neg, trivial⟩) (by rfl)

theorem vexp2 (h : VHdr) (dt : BitVec 4) (row : BitVec 6) (ta : BitVec 4) : Statement (.vexp2 h dt row ta) := by
  rintro k ⟨⟩
  exact Nat.lt_of_lt_of_eq (pk_lt _ ⟨by decide, ta.isLt, row.isLt, dt.isLt, h.beats.isLt, by decide, Bool.toNat_lt h.hold, h.g.grd.isLt, Bool.toNat_lt h.g.neg, trivial⟩) (by rfl)

theorem vlog2 (h : VHdr) (dt : BitVec 4) (row : BitVec 6) (ta : BitVec 4) : Statement (.vlog2 h dt row ta) := by
  rintro k ⟨⟩
  exact Nat.lt_of_lt_of_eq (pk_lt _ ⟨by decide, ta.isLt, row.isLt, dt.isLt, h.beats.isLt, by decide, Bool.toNat_lt h.hold, h.g.grd.isLt, Bool.toNat_lt h.g.neg, trivial⟩) (by rfl)

theorem vrcp (h : VHdr) (dt : BitVec 4) (row : BitVec 6) (ta : BitVec 4) : Statement (.vrcp h dt row ta) := by
  rintro k ⟨⟩
  exact Nat.lt_of_lt_of_eq (pk_lt _ ⟨by decide, ta.isLt, row.isLt, dt.isLt, h.beats.isLt, by decide, Bool.toNat_lt h.hold, h.g.grd.isLt, Bool.toNat_lt h.g.neg, trivial⟩) (by rfl)

theorem vrsqrt (h : VHdr) (dt : BitVec 4) (row : BitVec 6) (ta : BitVec 4) : Statement (.vrsqrt h dt row ta) := by
  rintro k ⟨⟩
  exact Nat.lt_of_lt_of_eq (pk_lt _ ⟨by decide, ta.isLt, row.isLt, dt.isLt, h.beats.isLt, by decide, Bool.toNat_lt h.hold, h.g.grd.isLt, Bool.toNat_lt h.g.neg, trivial⟩) (by rfl)

theorem vscale (h : VHdr) (dt : BitVec 4) (row : BitVec 6) (ta : BitVec 4) (tb : BitVec 4) (br : BitVec 6) (bfix : Bool) (imm : Bool) : Statement (.vscale h dt row ta tb br bfix imm) := by
  rintro k ⟨⟩
  exact Nat.lt_of_lt_of_eq (pk_lt _ ⟨Bool.toNat_lt imm, by decide, Bool.toNat_lt bfix, br.isLt, tb.isLt, ta.isLt, row.isLt, dt.isLt, h.beats.isLt, by decide, Bool.toNat_lt h.hold, h.g.grd.isLt, Bool.toNat_lt h.g.neg, trivial⟩) (by rfl)

theorem viadd (h : VHdr) (dt : BitVec 4) (row : BitVec 6) (ta : BitVec 4) (tb : BitVec 4) (br : BitVec 6) (bfix : Bool) (ty : BitVec 3) (sat : Bool) : Statement (.viadd h dt row ta tb br bfix ty sat) := by
  rintro k ⟨⟩
  exact Nat.lt_of_lt_of_eq (pk_lt _ ⟨by decide, Bool.toNat_lt sat, ty.isLt, Bool.toNat_lt bfix, br.isLt, tb.isLt, ta.isLt, row.isLt, dt.isLt, h.beats.isLt, by decide, Bool.toNat_lt h.hold, h.g.grd.isLt, Bool.toNat_lt h.g.neg, trivial⟩) (by rfl)

theorem visub (h : VHdr) (dt : BitVec 4) (row : BitVec 6) (ta : BitVec 4) (tb : BitVec 4) (br : BitVec 6) (bfix : Bool) (ty : BitVec 3) (sat : Bool) : Statement (.visub h dt row ta tb br bfix ty sat) := by
  rintro k ⟨⟩
  exact Nat.lt_of_lt_of_eq (pk_lt _ ⟨by decide, Bool.toNat_lt sat, ty.isLt, Bool.toNat_lt bfix, br.isLt, tb.isLt, ta.isLt, row.isLt, dt.isLt, h.beats.isLt, by decide, Bool.toNat_lt h.hold, h.g.grd.isLt, Bool.toNat_lt h.g.neg, trivial⟩) (by rfl)

theorem vimul (h : VHdr) (dt : BitVec 4) (row : BitVec 6) (ta : BitVec 4) (tb : BitVec 4) (br : BitVec 6) (bfix : Bool) (ty : BitVec 3) (sat : Bool) : Statement (.vimul h dt row ta tb br bfix ty sat) := by
  rintro k ⟨⟩
  exact Nat.lt_of_lt_of_eq (pk_lt _ ⟨by decide, Bool.toNat_lt sat, ty.isLt, Bool.toNat_lt bfix, br.isLt, tb.isLt, ta.isLt, row.isLt, dt.isLt, h.beats.isLt, by decide, Bool.toNat_lt h.hold, h.g.grd.isLt, Bool.toNat_lt h.g.neg, trivial⟩) (by rfl)

theorem vimin (h : VHdr) (dt : BitVec 4) (row : BitVec 6) (ta : BitVec 4) (tb : BitVec 4) (br : BitVec 6) (bfix : Bool) (ty : BitVec 3) : Statement (.vimin h dt row ta tb br bfix ty) := by
  rintro k ⟨⟩
  exact Nat.lt_of_lt_of_eq (pk_lt _ ⟨by decide, ty.isLt, Bool.toNat_lt bfix, br.isLt, tb.isLt, ta.isLt, row.isLt, dt.isLt, h.beats.isLt, by decide, Bool.toNat_lt h.hold, h.g.grd.isLt, Bool.toNat_lt h.g.neg, trivial⟩) (by rfl)

theorem vimax (h : VHdr) (dt : BitVec 4) (row : BitVec 6) (ta : BitVec 4) (tb : BitVec 4) (br : BitVec 6) (bfix : Bool) (ty : BitVec 3) : Statement (.vimax h dt row ta tb br bfix ty) := by
  rintro k ⟨⟩
  exact Nat.lt_of_lt_of_eq (pk_lt _ ⟨by decide, ty.isLt, Bool.toNat_lt bfix, br.isLt, tb.isLt, ta.isLt, row.isLt, dt.isLt, h.beats.isLt, by decide, Bool.toNat_lt h.hold, h.g.grd.isLt, Bool.toNat_lt h.g.neg, trivial⟩) (by rfl)

theorem vand (h : VHdr) (dt : BitVec 4) (row : BitVec 6) (ta : BitVec 4) (tb : BitVec 4) (br : BitVec 6) (bfix : Bool) : Statement (.vand h dt row ta tb br bfix) := by
  rintro k ⟨⟩
  exact Nat.lt_of_lt_of_eq (pk_lt _ ⟨by decide, Bool.toNat_lt bfix, br.isLt, tb.isLt, ta.isLt, row.isLt, dt.isLt, h.beats.isLt, by decide, Bool.toNat_lt h.hold, h.g.grd.isLt, Bool.toNat_lt h.g.neg, trivial⟩) (by rfl)

theorem vor (h : VHdr) (dt : BitVec 4) (row : BitVec 6) (ta : BitVec 4) (tb : BitVec 4) (br : BitVec 6) (bfix : Bool) : Statement (.vor h dt row ta tb br bfix) := by
  rintro k ⟨⟩
  exact Nat.lt_of_lt_of_eq (pk_lt _ ⟨by decide, Bool.toNat_lt bfix, br.isLt, tb.isLt, ta.isLt, row.isLt, dt.isLt, h.beats.isLt, by decide, Bool.toNat_lt h.hold, h.g.grd.isLt, Bool.toNat_lt h.g.neg, trivial⟩) (by rfl)

theorem vxor (h : VHdr) (dt : BitVec 4) (row : BitVec 6) (ta : BitVec 4) (tb : BitVec 4) (br : BitVec 6) (bfix : Bool) : Statement (.vxor h dt row ta tb br bfix) := by
  rintro k ⟨⟩
  exact Nat.lt_of_lt_of_eq (pk_lt _ ⟨by decide, Bool.toNat_lt bfix, br.isLt, tb.isLt, ta.isLt, row.isLt, dt.isLt, h.beats.isLt, by decide, Bool.toNat_lt h.hold, h.g.grd.isLt, Bool.toNat_lt h.g.neg, trivial⟩) (by rfl)

theorem vshl (h : VHdr) (dt : BitVec 4) (row : BitVec 6) (ta : BitVec 4) (tb : BitVec 4) (br : BitVec 6) (bfix : Bool) (ty : BitVec 3) (imm : Bool) : Statement (.vshl h dt row ta tb br bfix ty imm) := by
  rintro k ⟨⟩
  exact Nat.lt_of_lt_of_eq (pk_lt _ ⟨Bool.toNat_lt imm, by decide, ty.isLt, Bool.toNat_lt bfix, br.isLt, tb.isLt, ta.isLt, row.isLt, dt.isLt, h.beats.isLt, by decide, Bool.toNat_lt h.hold, h.g.grd.isLt, Bool.toNat_lt h.g.neg, trivial⟩) (by rfl)

theorem vshr (h : VHdr) (dt : BitVec 4) (row : BitVec 6) (ta : BitVec 4) (tb : BitVec 4) (br : BitVec 6) (bfix : Bool) (ty : BitVec 3) (imm : Bool) : Statement (.vshr h dt row ta tb br bfix ty imm) := by
  rintro k ⟨⟩
  exact Nat.lt_of_lt_of_eq (pk_lt _ ⟨Bool.toNat_lt imm, by decide, ty.isLt, Bool.toNat_lt bfix, br.isLt, tb.isLt, ta.isLt, row.isLt, dt.isLt, h.beats.isLt, by decide, Bool.toNat_lt h.hold, h.g.grd.isLt, Bool.toNat_lt h.g.neg, trivial⟩) (by rfl)

theorem vsar (h : VHdr) (dt : BitVec 4) (row : BitVec 6) (ta : BitVec 4) (tb : BitVec 4) (br : BitVec 6) (bfix : Bool) (ty : BitVec 3) (imm : Bool) : Statement (.vsar h dt row ta tb br bfix ty imm) := by
  rintro k ⟨⟩
  exact Nat.lt_of_lt_of_eq (pk_lt _ ⟨Bool.toNat_lt imm, by decide, ty.isLt, Bool.toNat_lt bfix, br.isLt, tb.isLt, ta.isLt, row.isLt, dt.isLt, h.beats.isLt, by decide, Bool.toNat_lt h.hold, h.g.grd.isLt, Bool.toNat_lt h.g.neg, trivial⟩) (by rfl)

theorem vcvt (h : VHdr) (dt : BitVec 4) (dr : BitVec 6) (ta : BitVec 4) (ar : BitVec 6) (se : BitVec 4) (de : BitVec 4) : Statement (.vcvt h dt dr ta ar se de) := by
  rintro k ⟨⟩
  exact Nat.lt_of_lt_of_eq (pk_lt _ ⟨by decide, de.isLt, se.isLt, ar.isLt, ta.isLt, dr.isLt, dt.isLt, h.beats.isLt, by decide, Bool.toNat_lt h.hold, h.g.grd.isLt, Bool.toNat_lt h.g.neg, trivial⟩) (by rfl)

theorem vpackd (h : VHdr) (dt : BitVec 4) (dr : BitVec 6) (ta : BitVec 4) (ar : BitVec 6) (mr : BitVec 6) (w : Bool) : Statement (.vpackd h dt dr ta ar mr w) := by
  rintro k ⟨⟩
  exact Nat.lt_of_lt_of_eq (pk_lt _ ⟨by decide, Bool.toNat_lt w, mr.isLt, ar.isLt, ta.isLt, dr.isLt, dt.isLt, h.beats.isLt, by decide, Bool.toNat_lt h.hold, h.g.grd.isLt, Bool.toNat_lt h.g.neg, trivial⟩) (by rfl)

theorem vunpkd (h : VHdr) (dt : BitVec 4) (dr : BitVec 6) (ta : BitVec 4) (ar : BitVec 6) (mr : BitVec 6) (w : Bool) : Statement (.vunpkd h dt dr ta ar mr w) := by
  rintro k ⟨⟩
  exact Nat.lt_of_lt_of_eq (pk_lt _ ⟨by decide, Bool.toNat_lt w, mr.isLt, ar.isLt, ta.isLt, dr.isLt, dt.isLt, h.beats.isLt, by decide, Bool.toNat_lt h.hold, h.g.grd.isLt, Bool.toNat_lt h.g.neg, trivial⟩) (by rfl)

theorem vpackm (h : VHdr) (dt : BitVec 4) (dr : BitVec 6) (ta : BitVec 4) (ar : BitVec 6) (sr : BitVec 6) (mf : BitVec 4) : Statement (.vpackm h dt dr ta ar sr mf) := by
  rintro k ⟨⟩
  exact Nat.lt_of_lt_of_eq (pk_lt _ ⟨mf.isLt, sr.isLt, ar.isLt, ta.isLt, dr.isLt, dt.isLt, h.beats.isLt, by decide, Bool.toNat_lt h.hold, h.g.grd.isLt, Bool.toNat_lt h.g.neg, trivial⟩) (by rfl)

theorem vunpkm (h : VHdr) (dt : BitVec 4) (dr : BitVec 6) (ta : BitVec 4) (ar : BitVec 6) (sr : BitVec 6) (mf : BitVec 4) : Statement (.vunpkm h dt dr ta ar sr mf) := by
  rintro k ⟨⟩
  exact Nat.lt_of_lt_of_eq (pk_lt _ ⟨mf.isLt, sr.isLt, ar.isLt, ta.isLt, dr.isLt, dt.isLt, h.beats.isLt, by decide, Bool.toNat_lt h.hold, h.g.grd.isLt, Bool.toNat_lt h.g.neg, trivial⟩) (by rfl)

theorem vrsum (h : VHdr) (dt : BitVec 4) (dr : BitVec 6) (ta : BitVec 4) (ar : BitVec 6) (doff : BitVec 7) (acc : Bool) : Statement (.vrsum h dt dr ta ar doff acc) := by
  rintro k ⟨⟩
  exact Nat.lt_of_lt_of_eq (pk_lt _ ⟨by decide, Bool.toNat_lt acc, doff.isLt, ar.isLt, ta.isLt, dr.isLt, dt.isLt, h.beats.isLt, by decide, Bool.toNat_lt h.hold, h.g.grd.isLt, Bool.toNat_lt h.g.neg, trivial⟩) (by rfl)

theorem vrmax (h : VHdr) (dt : BitVec 4) (dr : BitVec 6) (ta : BitVec 4) (ar : BitVec 6) (doff : BitVec 7) (acc : Bool) : Statement (.vrmax h dt dr ta ar doff acc) := by
  rintro k ⟨⟩
  exact Nat.lt_of_lt_of_eq (pk_lt _ ⟨by decide, Bool.toNat_lt acc, doff.isLt, ar.isLt, ta.isLt, dr.isLt, dt.isLt, h.beats.isLt, by decide, Bool.toNat_lt h.hold, h.g.grd.isLt, Bool.toNat_lt h.g.neg, trivial⟩) (by rfl)

theorem vrmin (h : VHdr) (dt : BitVec 4) (dr : BitVec 6) (ta : BitVec 4) (ar : BitVec 6) (doff : BitVec 7) (acc : Bool) : Statement (.vrmin h dt dr ta ar doff acc) := by
  rintro k ⟨⟩
  exact Nat.lt_of_lt_of_eq (pk_lt _ ⟨by decide, Bool.toNat_lt acc, doff.isLt, ar.isLt, ta.isLt, dr.isLt, dt.isLt, h.beats.isLt, by decide, Bool.toNat_lt h.hold, h.g.grd.isLt, Bool.toNat_lt h.g.neg, trivial⟩) (by rfl)

theorem vshuf (h : VHdr) (dt : BitVec 4) (row : BitVec 6) (ta : BitVec 4) (tb : BitVec 4) (br : BitVec 6) (bfix : Bool) (ty : BitVec 3) : Statement (.vshuf h dt row ta tb br bfix ty) := by
  rintro k ⟨⟩
  exact Nat.lt_of_lt_of_eq (pk_lt _ ⟨by decide, ty.isLt, Bool.toNat_lt bfix, br.isLt, tb.isLt, ta.isLt, row.isLt, dt.isLt, h.beats.isLt, by decide, Bool.toNat_lt h.hold, h.g.grd.isLt, Bool.toNat_lt h.g.neg, trivial⟩) (by rfl)

theorem vtrans (h : VHdr) (dt : BitVec 4) (dq : BitVec 2) (ta : BitVec 4) (aq : BitVec 2) (w : BitVec 2) : Statement (.vtrans h dt dq ta aq w) := by
  rintro k ⟨⟩
  exact Nat.lt_of_lt_of_eq (pk_lt _ ⟨by decide, w.isLt, aq.isLt, ta.isLt, dq.isLt, dt.isLt, h.beats.isLt, by decide, Bool.toNat_lt h.hold, h.g.grd.isLt, Bool.toNat_lt h.g.neg, trivial⟩) (by rfl)

theorem vmov (h : VHdr) (dt : BitVec 4) (dr : BitVec 6) (ta : BitVec 4) (ar : BitVec 6) : Statement (.vmov h dt dr ta ar) := by
  rintro k ⟨⟩
  exact Nat.lt_of_lt_of_eq (pk_lt _ ⟨by decide, ar.isLt, ta.isLt, dr.isLt, dt.isLt, h.beats.isLt, by decide, Bool.toNat_lt h.hold, h.g.grd.isLt, Bool.toNat_lt h.g.neg, trivial⟩) (by rfl)

theorem vzrd (h : VHdr) (dt : BitVec 4) (dr : BitVec 6) (z : BitVec 2) (zr : BitVec 6) : Statement (.vzrd h dt dr z zr) := by
  rintro k ⟨⟩
  exact Nat.lt_of_lt_of_eq (pk_lt _ ⟨by decide, zr.isLt, z.isLt, dr.isLt, dt.isLt, h.beats.isLt, by decide, Bool.toNat_lt h.hold, h.g.grd.isLt, Bool.toNat_lt h.g.neg, trivial⟩) (by rfl)

theorem vzwr (h : VHdr) (z : BitVec 2) (zr : BitVec 6) (ta : BitVec 4) (ar : BitVec 6) : Statement (.vzwr h z zr ta ar) := by
  rintro k ⟨⟩
  exact Nat.lt_of_lt_of_eq (pk_lt _ ⟨by decide, ar.isLt, ta.isLt, zr.isLt, z.isLt, h.beats.isLt, by decide, Bool.toNat_lt h.hold, h.g.grd.isLt, Bool.toNat_lt h.g.neg, trivial⟩) (by rfl)

theorem vbcast (h : VHdr) (dt : BitVec 4) (dr : BitVec 6) (rs : BitVec 5) (w : BitVec 2) : Statement (.vbcast h dt dr rs w) := by
  rintro k ⟨⟩
  exact Nat.lt_of_lt_of_eq (pk_lt _ ⟨by decide, w.isLt, rs.isLt, dr.isLt, dt.isLt, h.beats.isLt, by decide, Bool.toNat_lt h.hold, h.g.grd.isLt, Bool.toNat_lt h.g.neg, trivial⟩) (by rfl)

theorem xnop (h : XHdr) (x : BitVec 22) : Statement (.xnop h x) := by
  rintro k ⟨⟩
  exact Nat.lt_of_lt_of_eq (pk_lt _ ⟨x.isLt, by decide, h.beats.isLt, by decide, Bool.toNat_lt h.hold, h.g.grd.isLt, Bool.toNat_lt h.g.neg, trivial⟩) (by rfl)

theorem mma (h : XHdr) (rpe : Bool) (cnt : BitVec 12) (inca : BitVec 5) (incb : BitVec 5) (z : BitVec 2) (ra : BitVec 5) (rsa : BitVec 5) (rb : BitVec 5) (rsb : BitVec 5) : Statement (.mma h rpe cnt inca incb z ra rsa rb rsb) := by
  rintro k ⟨⟩
  exact Nat.lt_of_lt_of_eq (pk_lt _ ⟨rsb.isLt, rb.isLt, rsa.isLt, ra.isLt, z.isLt, incb.isLt, inca.isLt, cnt.isLt, Bool.toNat_lt rpe, h.beats.isLt, by decide, Bool.toNat_lt h.hold, h.g.grd.isLt, Bool.toNat_lt h.g.neg, trivial⟩) (by rfl)

theorem fit_mmaTb (h : XHdr) (rpe : Bool) (cnt : BitVec 12) (inca : BitVec 5) (incb : BitVec 5) (z : BitVec 2) (ra : BitVec 5) (rsa : BitVec 5) (rbs : BitVec 5) (pos : BitVec 3) (rel : Bool) :
    Fit [(1, 0), (1, rel.toNat), (3, pos.toNat), (5, rbs.toNat), (5, rsa.toNat), (5, ra.toNat), (2, z.toNat), (5, incb.toNat), (5, inca.toNat), (12, cnt.toNat), (1, rpe.toNat), (8, h.beats.toNat), (6, 2), (1, h.hold.toNat), (3, h.g.grd.toNat), (1, h.g.neg.toNat)] :=
  ⟨by decide, Bool.toNat_lt rel, pos.isLt, rbs.isLt, rsa.isLt, ra.isLt, z.isLt, incb.isLt, inca.isLt, cnt.isLt, Bool.toNat_lt rpe, h.beats.isLt, by decide, Bool.toNat_lt h.hold, h.g.grd.isLt, Bool.toNat_lt h.g.neg, trivial⟩

theorem enc_mmaTb (h : XHdr) (rpe : Bool) (cnt : BitVec 12) (inca : BitVec 5) (incb : BitVec 5) (z : BitVec 2) (ra : BitVec 5) (rsa : BitVec 5) (rbs : BitVec 5) (pos : BitVec 3) (rel : Bool) : encode (.mmaTb h rpe cnt inca incb z ra rsa rbs pos rel) =
    pk [(1, 0), (1, rel.toNat), (3, pos.toNat), (5, rbs.toNat), (5, rsa.toNat), (5, ra.toNat), (2, z.toNat), (5, incb.toNat), (5, inca.toNat), (12, cnt.toNat), (1, rpe.toNat), (8, h.beats.toNat), (6, 2), (1, h.hold.toNat), (3, h.g.grd.toNat), (1, h.g.neg.toNat)] := by rfl

theorem mmaTb (h : XHdr) (rpe : Bool) (cnt : BitVec 12) (inca : BitVec 5) (incb : BitVec 5) (z : BitVec 2) (ra : BitVec 5) (rsa : BitVec 5) (rbs : BitVec 5) (pos : BitVec 3) (rel : Bool) : Statement (.mmaTb h rpe cnt inca incb z ra rsa rbs pos rel) := by
  rintro k ⟨⟩
  rw [enc_mmaTb]
  exact Nat.lt_of_lt_of_eq (pk_lt _ (fit_mmaTb h rpe cnt inca incb z ra rsa rbs pos rel)) (by rfl)

theorem zzero (h : XHdr) (z : BitVec 2) : Statement (.zzero h z) := by
  rintro k ⟨⟩
  exact Nat.lt_of_lt_of_eq (pk_lt _ ⟨by decide, z.isLt, by decide, h.beats.isLt, by decide, Bool.toNat_lt h.hold, h.g.grd.isLt, Bool.toNat_lt h.g.neg, trivial⟩) (by rfl)

theorem zscale (h : XHdr) (z : BitVec 2) (t : BitVec 4) (row : BitVec 6) (ax : Bool) : Statement (.zscale h z t row ax) := by
  rintro k ⟨⟩
  exact Nat.lt_of_lt_of_eq (pk_lt _ ⟨by decide, Bool.toNat_lt ax, row.isLt, t.isLt, z.isLt, by decide, h.beats.isLt, by decide, Bool.toNat_lt h.hold, h.g.grd.isLt, Bool.toNat_lt h.g.neg, trivial⟩) (by rfl)

theorem zout (h : XHdr) (z : BitVec 2) (dt : BitVec 4) (row : BitVec 6) (zr : BitVec 6) (df : BitVec 4) : Statement (.zout h z dt row zr df) := by
  rintro k ⟨⟩
  exact Nat.lt_of_lt_of_eq (pk_lt _ ⟨df.isLt, zr.isLt, row.isLt, dt.isLt, z.isLt, by decide, h.beats.isLt, by decide, Bool.toNat_lt h.hold, h.g.grd.isLt, Bool.toNat_lt h.g.neg, trivial⟩) (by rfl)

theorem cnop (g : Guard) (x : BitVec 38) : Statement (.cnop g x) := by
  rintro k ⟨⟩
  exact Nat.lt_of_lt_of_eq (pk_lt _ ⟨x.isLt, by decide, g.grd.isLt, Bool.toNat_lt g.neg, trivial⟩) (by rfl)

theorem copy (g : Guard) (ch : BitVec 2) (ra : BitVec 5) : Statement (.copy g ch ra) := by
  rintro k ⟨⟩
  exact Nat.lt_of_lt_of_eq (pk_lt _ ⟨by decide, ra.isLt, ch.isLt, by decide, g.grd.isLt, Bool.toNat_lt g.neg, trivial⟩) (by rfl)

theorem close (g : Guard) : Statement (.close g) := by
  rintro k ⟨⟩
  exact Nat.lt_of_lt_of_eq (pk_lt _ ⟨by decide, by decide, g.grd.isLt, Bool.toNat_lt g.neg, trivial⟩) (by rfl)

theorem binit (g : Guard) (ra : BitVec 5) (rn : BitVec 5) (rs : BitVec 5) : Statement (.binit g ra rn rs) := by
  rintro k ⟨⟩
  exact Nat.lt_of_lt_of_eq (pk_lt _ ⟨by decide, rs.isLt, rn.isLt, ra.isLt, by decide, g.grd.isLt, Bool.toNat_lt g.neg, trivial⟩) (by rfl)

theorem barrive (g : Guard) (ra : BitVec 5) (rs : BitVec 5) (exp : Bool) (scope : BitVec 3) : Statement (.barrive g ra rs exp scope) := by
  rintro k ⟨⟩
  exact Nat.lt_of_lt_of_eq (pk_lt _ ⟨by decide, scope.isLt, Bool.toNat_lt exp, rs.isLt, ra.isLt, by decide, g.grd.isLt, Bool.toNat_lt g.neg, trivial⟩) (by rfl)

theorem bwait (g : Guard) (test : Bool) (pd : BitVec 3) (ra : BitVec 5) (rph : BitVec 5) (scope : BitVec 3) : Statement (.bwait g test pd ra rph scope) := by
  rintro k ⟨⟩
  exact Nat.lt_of_lt_of_eq (pk_lt _ ⟨by decide, scope.isLt, rph.isLt, ra.isLt, pd.isLt, Bool.toNat_lt test, by decide, g.grd.isLt, Bool.toNat_lt g.neg, trivial⟩) (by rfl)

theorem waitl (g : Guard) (test : Bool) (pd : BitVec 3) (ctxk : BitVec 3) (rc : BitVec 5) (rn : BitVec 5) (scope : BitVec 3) : Statement (.waitl g test pd ctxk rc rn scope) := by
  rintro k ⟨⟩
  exact Nat.lt_of_lt_of_eq (pk_lt _ ⟨by decide, scope.isLt, rn.isLt, rc.isLt, ctxk.isLt, pd.isLt, Bool.toNat_lt test, by decide, g.grd.isLt, Bool.toNat_lt g.neg, trivial⟩) (by rfl)

theorem gjoin (g : Guard) (rg : BitVec 5) : Statement (.gjoin g rg) := by
  rintro k ⟨⟩
  exact Nat.lt_of_lt_of_eq (pk_lt _ ⟨by decide, rg.isLt, by decide, g.grd.isLt, Bool.toNat_lt g.neg, trivial⟩) (by rfl)

theorem gleave (g : Guard) (rg : BitVec 5) : Statement (.gleave g rg) := by
  rintro k ⟨⟩
  exact Nat.lt_of_lt_of_eq (pk_lt _ ⟨by decide, rg.isLt, by decide, g.grd.isLt, Bool.toNat_lt g.neg, trivial⟩) (by rfl)

theorem gbar (g : Guard) (rg : BitVec 5) (mode : BitVec 2) (pd : BitVec 3) : Statement (.gbar g rg mode pd) := by
  rintro k ⟨⟩
  exact Nat.lt_of_lt_of_eq (pk_lt _ ⟨by decide, pd.isLt, mode.isLt, rg.isLt, by decide, g.grd.isLt, Bool.toNat_lt g.neg, trivial⟩) (by rfl)

theorem setfmt (g : Guard) (msk : BitVec 5) (img : BitVec 20) : Statement (.setfmt g msk img) := by
  rintro k ⟨⟩
  exact Nat.lt_of_lt_of_eq (pk_lt _ ⟨img.isLt, by decide, msk.isLt, by decide, g.grd.isLt, Bool.toNat_lt g.neg, trivial⟩) (by rfl)

theorem crr (g : Guard) (rd : BitVec 5) (cr : BitVec 12) : Statement (.crr g rd cr) := by
  rintro k ⟨⟩
  exact Nat.lt_of_lt_of_eq (pk_lt _ ⟨by decide, cr.isLt, rd.isLt, by decide, g.grd.isLt, Bool.toNat_lt g.neg, trivial⟩) (by rfl)

theorem crw (g : Guard) (rs : BitVec 5) (cr : BitVec 12) : Statement (.crw g rs cr) := by
  rintro k ⟨⟩
  exact Nat.lt_of_lt_of_eq (pk_lt _ ⟨by decide, cr.isLt, rs.isLt, by decide, g.grd.isLt, Bool.toNat_lt g.neg, trivial⟩) (by rfl)

theorem dcal (g : Guard) (rd : BitVec 5) : Statement (.dcal g rd) := by
  rintro k ⟨⟩
  exact Nat.lt_of_lt_of_eq (pk_lt _ ⟨by decide, rd.isLt, by decide, g.grd.isLt, Bool.toNat_lt g.neg, trivial⟩) (by rfl)

theorem dleft (g : Guard) (rd : BitVec 5) (pd : BitVec 3) : Statement (.dleft g rd pd) := by
  rintro k ⟨⟩
  exact Nat.lt_of_lt_of_eq (pk_lt _ ⟨by decide, pd.isLt, rd.isLt, by decide, g.grd.isLt, Bool.toNat_lt g.neg, trivial⟩) (by rfl)

theorem tlbi (g : Guard) (form : BitVec 2) (rs : BitVec 5) (ra : BitVec 5) : Statement (.tlbi g form rs ra) := by
  rintro k ⟨⟩
  exact Nat.lt_of_lt_of_eq (pk_lt _ ⟨by decide, ra.isLt, rs.isLt, form.isLt, by decide, g.grd.isLt, Bool.toNat_lt g.neg, trivial⟩) (by rfl)

theorem tlbiSync (g : Guard) : Statement (.tlbiSync g) := by
  rintro k ⟨⟩
  exact Nat.lt_of_lt_of_eq (pk_lt _ ⟨by decide, by decide, g.grd.isLt, Bool.toNat_lt g.neg, trivial⟩) (by rfl)

theorem tret (g : Guard) : Statement (.tret g) := by
  rintro k ⟨⟩
  exact Nat.lt_of_lt_of_eq (pk_lt _ ⟨by decide, by decide, g.grd.isLt, Bool.toNat_lt g.neg, trivial⟩) (by rfl)

theorem amark (g : Guard) (k : BitVec 2) (ra : BitVec 5) (rl : BitVec 5) : Statement (.amark g k ra rl) := by
  rintro k ⟨⟩
  exact Nat.lt_of_lt_of_eq (pk_lt _ ⟨by decide, rl.isLt, ra.isLt, k.isLt, by decide, g.grd.isLt, Bool.toNat_lt g.neg, trivial⟩) (by rfl)

theorem qnop (g : Guard) (x : BitVec 38) : Statement (.qnop g x) := by
  rintro k ⟨⟩
  exact Nat.lt_of_lt_of_eq (pk_lt _ ⟨x.isLt, by decide, g.grd.isLt, Bool.toNat_lt g.neg, trivial⟩) (by rfl)

theorem enqt (g : Guard) (ra : BitVec 5) : Statement (.enqt g ra) := by
  rintro k ⟨⟩
  exact Nat.lt_of_lt_of_eq (pk_lt _ ⟨by decide, ra.isLt, by decide, g.grd.isLt, Bool.toNat_lt g.neg, trivial⟩) (by rfl)

theorem eboard (g : Guard) (rd : BitVec 5) (rw : BitVec 5) (any : Bool) (t : BitVec 4) (e : BitVec 6) (ord : BitVec 2) (atr : Bool) (off : BitVec 10) : Statement (.eboard g rd rw any t e ord atr off) := by
  rintro k ⟨⟩
  exact Nat.lt_of_lt_of_eq (pk_lt _ ⟨off.isLt, Bool.toNat_lt atr, by decide, ord.isLt, e.isLt, t.isLt, Bool.toNat_lt any, rw.isLt, rd.isLt, by decide, g.grd.isLt, Bool.toNat_lt g.neg, trivial⟩) (by rfl)

theorem ealight (g : Guard) (rw : BitVec 5) (dep : Bool) (ra : BitVec 5) (ord : BitVec 2) : Statement (.ealight g rw dep ra ord) := by
  rintro k ⟨⟩
  exact Nat.lt_of_lt_of_eq (pk_lt _ ⟨by decide, ord.isLt, ra.isLt, Bool.toNat_lt dep, rw.isLt, by decide, g.grd.isLt, Bool.toNat_lt g.neg, trivial⟩) (by rfl)

theorem ecap (g : Guard) (rd : BitVec 5) (rw : BitVec 5) (ra : BitVec 5) (f : BitVec 3) (cop : BitVec 3) (ord : BitVec 2) (atr : Bool) (off : BitVec 10) : Statement (.ecap g rd rw ra f cop ord atr off) := by
  rintro k ⟨⟩
  exact Nat.lt_of_lt_of_eq (pk_lt _ ⟨off.isLt, Bool.toNat_lt atr, by decide, ord.isLt, cop.isLt, f.isLt, ra.isLt, rw.isLt, rd.isLt, by decide, g.grd.isLt, Bool.toNat_lt g.neg, trivial⟩) (by rfl)

theorem erow (g : Guard) (t : BitVec 4) (e : BitVec 6) (rw : BitVec 5) (ord : BitVec 2) (atr : Bool) (off : BitVec 10) : Statement (.erow g t e rw ord atr off) := by
  rintro k ⟨⟩
  exact Nat.lt_of_lt_of_eq (pk_lt _ ⟨off.isLt, Bool.toNat_lt atr, by decide, ord.isLt, rw.isLt, e.isLt, t.isLt, by decide, g.grd.isLt, Bool.toNat_lt g.neg, trivial⟩) (by rfl)

theorem ewhen (g : Guard) (rd : BitVec 5) (rw : BitVec 5) : Statement (.ewhen g rd rw) := by
  rintro k ⟨⟩
  exact Nat.lt_of_lt_of_eq (pk_lt _ ⟨by decide, rw.isLt, rd.isLt, by decide, g.grd.isLt, Bool.toNat_lt g.neg, trivial⟩) (by rfl)

theorem tboard (g : Guard) (rl : BitVec 5) (rf : BitVec 5) (re : BitVec 5) (rs : BitVec 5) (d : BitVec 2) : Statement (.tboard g rl rf re rs d) := by
  rintro k ⟨⟩
  exact Nat.lt_of_lt_of_eq (pk_lt _ ⟨by decide, d.isLt, rs.isLt, re.isLt, rf.isLt, rl.isLt, by decide, g.grd.isLt, Bool.toNat_lt g.neg, trivial⟩) (by rfl)

theorem twait (g : Guard) (rd : BitVec 5) (n : BitVec 4) : Statement (.twait g rd n) := by
  rintro k ⟨⟩
  exact Nat.lt_of_lt_of_eq (pk_lt _ ⟨by decide, n.isLt, rd.isLt, by decide, g.grd.isLt, Bool.toNat_lt g.neg, trivial⟩) (by rfl)

theorem tleave (g : Guard) : Statement (.tleave g) := by
  rintro k ⟨⟩
  exact Nat.lt_of_lt_of_eq (pk_lt _ ⟨by decide, by decide, g.grd.isLt, Bool.toNat_lt g.neg, trivial⟩) (by rfl)

theorem tstat (g : Guard) (rd : BitVec 5) : Statement (.tstat g rd) := by
  rintro k ⟨⟩
  exact Nat.lt_of_lt_of_eq (pk_lt _ ⟨by decide, rd.isLt, by decide, g.grd.isLt, Bool.toNat_lt g.neg, trivial⟩) (by rfl)

theorem tspeed (g : Guard) (spd : BitVec 3) : Statement (.tspeed g spd) := by
  rintro k ⟨⟩
  exact Nat.lt_of_lt_of_eq (pk_lt _ ⟨by decide, spd.isLt, by decide, g.grd.isLt, Bool.toNat_lt g.neg, trivial⟩) (by rfl)

theorem fst (g : Guard) (rdst : BitVec 5) (rsrc : BitVec 5) (rlen : BitVec 5) (rctr : BitVec 5) (ctr : Bool) : Statement (.fst g rdst rsrc rlen rctr ctr) := by
  rintro k ⟨⟩
  exact Nat.lt_of_lt_of_eq (pk_lt _ ⟨by decide, Bool.toNat_lt ctr, rctr.isLt, rlen.isLt, rsrc.isLt, rdst.isLt, by decide, g.grd.isLt, Bool.toNat_lt g.neg, trivial⟩) (by rfl)

theorem fld (g : Guard) (rdst : BitVec 5) (rsrc : BitVec 5) (rlen : BitVec 5) (rctr : BitVec 5) (ctr : Bool) : Statement (.fld g rdst rsrc rlen rctr ctr) := by
  rintro k ⟨⟩
  exact Nat.lt_of_lt_of_eq (pk_lt _ ⟨by decide, Bool.toNat_lt ctr, rctr.isLt, rlen.isLt, rsrc.isLt, rdst.isLt, by decide, g.grd.isLt, Bool.toNat_lt g.neg, trivial⟩) (by rfl)

theorem fatom (g : Guard) (rd : BitVec 5) (ra : BitVec 5) (rb : BitVec 5) (aop : BitVec 4) (w : Bool) (rv : Bool) (ord : BitVec 2) (atr : Bool) (off : BitVec 10) : Statement (.fatom g rd ra rb aop w rv ord atr off) := by
  rintro k ⟨⟩
  exact Nat.lt_of_lt_of_eq (pk_lt _ ⟨off.isLt, Bool.toNat_lt atr, by decide, ord.isLt, Bool.toNat_lt rv, Bool.toNat_lt w, aop.isLt, rb.isLt, ra.isLt, rd.isLt, by decide, g.grd.isLt, Bool.toNat_lt g.neg, trivial⟩) (by rfl)

theorem vatom (g : Guard) (ra : BitVec 5) (t : BitVec 4) (e : BitVec 6) (h : Bool) (ft : Bool) : Statement (.vatom g ra t e h ft) := by
  rintro k ⟨⟩
  exact Nat.lt_of_lt_of_eq (pk_lt _ ⟨by decide, Bool.toNat_lt ft, Bool.toNat_lt h, e.isLt, t.isLt, ra.isLt, by decide, g.grd.isLt, Bool.toNat_lt g.neg, trivial⟩) (by rfl)

theorem coll (g : Guard) (rd : BitVec 5) (ra : BitVec 5) : Statement (.coll g rd ra) := by
  rintro k ⟨⟩
  exact Nat.lt_of_lt_of_eq (pk_lt _ ⟨by decide, ra.isLt, rd.isLt, by decide, g.grd.isLt, Bool.toNat_lt g.neg, trivial⟩) (by rfl)

theorem qenq (rs2 : BitVec 5) (rs1 : BitVec 5) (rd : BitVec 5) : Statement (.qenq rs2 rs1 rd) := by
  rintro k ⟨⟩

theorem qfence : Statement (.qfence) := by
  rintro k ⟨⟩

theorem controlRegisterWrite (pa len : Nat) (data : Word) : Statement (.controlRegisterWrite pa len data) := by
  rintro k ⟨⟩

theorem pageTableWalkComplete (walk : Nat) : Statement (.pageTableWalkComplete walk) := by
  rintro k ⟨⟩

theorem migratingRewalk (walk : Nat) : Statement (.migratingRewalk walk) := by
  rintro k ⟨⟩

theorem tlbiCommandComplete : Statement (.tlbiCommandComplete) := by
  rintro k ⟨⟩

theorem timedLanding (core : Nat) : Statement (.timedLanding core) := by
  rintro k ⟨⟩

theorem requestDataArrival (core req part : Nat) : Statement (.requestDataArrival core req part) := by
  rintro k ⟨⟩

theorem memoryWritePerformed (core req part : Nat) : Statement (.memoryWritePerformed core req part) := by
  rintro k ⟨⟩

theorem watchTimeout (core ent : Nat) : Statement (.watchTimeout core ent) := by
  rintro k ⟨⟩

theorem freezeRelease (core : Nat) : Statement (.freezeRelease core) := by
  rintro k ⟨⟩

theorem freezeLimit (core : Nat) : Statement (.freezeLimit core) := by
  rintro k ⟨⟩

theorem stalledBundleIssue (core : Nat) : Statement (.stalledBundleIssue core) := by
  rintro k ⟨⟩

theorem scrubRead (core : Nat) : Statement (.scrubRead core) := by
  rintro k ⟨⟩

theorem fillComplete (core n : Nat) : Statement (.fillComplete core n) := by
  rintro k ⟨⟩

theorem writebackComplete (core n : Nat) : Statement (.writebackComplete core n) := by
  rintro k ⟨⟩

theorem makeliveComplete : Statement (.makeliveComplete) := by
  rintro k ⟨⟩

theorem dropHoldDone : Statement (.dropHoldDone) := by
  rintro k ⟨⟩

theorem dropDrainDone : Statement (.dropDrainDone) := by
  rintro k ⟨⟩

theorem dropRebuildDone : Statement (.dropRebuildDone) := by
  rintro k ⟨⟩

theorem pcerrInterval : Statement (.pcerrInterval) := by
  rintro k ⟨⟩

theorem eddySlotPass (stage : Nat) : Statement (.eddySlotPass stage) := by
  rintro k ⟨⟩

theorem tapOperationPerformed (core : Nat) : Statement (.tapOperationPerformed core) := by
  rintro k ⟨⟩

theorem eboardAnyTimeout (core : Nat) : Statement (.eboardAnyTimeout core) := by
  rintro k ⟨⟩

theorem teardownComplete : Statement (.teardownComplete) := by
  rintro k ⟨⟩

theorem reclaimComplete : Statement (.reclaimComplete) := by
  rintro k ⟨⟩

theorem lapBegin : Statement (.lapBegin) := by
  rintro k ⟨⟩

theorem weirTileSend : Statement (.weirTileSend) := by
  rintro k ⟨⟩

theorem tideTilePass (core tile : Nat) : Statement (.tideTilePass core tile) := by
  rintro k ⟨⟩

theorem tideTileLand (core : Nat) : Statement (.tideTileLand core) := by
  rintro k ⟨⟩

theorem tideRegistration (core : Nat) : Statement (.tideRegistration core) := by
  rintro k ⟨⟩

theorem boardingTimeout (core : Nat) : Statement (.boardingTimeout core) := by
  rintro k ⟨⟩

theorem taskRecordArrival (die entry : Nat) : Statement (.taskRecordArrival die entry) := by
  rintro k ⟨⟩

theorem spillReload (die : Nat) : Statement (.spillReload die) := by
  rintro k ⟨⟩

theorem taskConditionMet (die entry : Nat) : Statement (.taskConditionMet die entry) := by
  rintro k ⟨⟩

theorem schedulerPick (die : Nat) : Statement (.schedulerPick die) := by
  rintro k ⟨⟩

theorem priorityAging (die entry : Nat) : Statement (.priorityAging die entry) := by
  rintro k ⟨⟩

theorem threadStart (core : Nat) : Statement (.threadStart core) := by
  rintro k ⟨⟩

theorem preemptionTaken (core : Nat) : Statement (.preemptionTaken core) := by
  rintro k ⟨⟩

theorem saveLandingTimeout (core : Nat) : Statement (.saveLandingTimeout core) := by
  rintro k ⟨⟩

theorem saveComplete (core : Nat) : Statement (.saveComplete core) := by
  rintro k ⟨⟩

theorem restoreComplete (core : Nat) : Statement (.restoreComplete core) := by
  rintro k ⟨⟩

theorem killTaken (core : Nat) : Statement (.killTaken core) := by
  rintro k ⟨⟩

theorem endComplete (core : Nat) : Statement (.endComplete core) := by
  rintro k ⟨⟩

theorem segmentExpansionComplete (core : Nat) : Statement (.segmentExpansionComplete core) := by
  rintro k ⟨⟩

theorem copyRecordProcess (ctx : Nat) : Statement (.copyRecordProcess ctx) := by
  rintro k ⟨⟩

theorem copyRecordComplete (ctx : Nat) : Statement (.copyRecordComplete ctx) := by
  rintro k ⟨⟩

theorem barrierUpdate (pa : Nat) (arrive : Bool) (sectors : Word) (who : Nat) : Statement (.barrierUpdate pa arrive sectors who) := by
  rintro k ⟨⟩

theorem groupPhaseComplete (job gid : Nat) : Statement (.groupPhaseComplete job gid) := by
  rintro k ⟨⟩

theorem trapEntry (core : Nat) : Statement (.trapEntry core) := by
  rintro k ⟨⟩

theorem drainLead : Statement (.drainLead) := by
  rintro k ⟨⟩

theorem windowOpen : Statement (.windowOpen) := by
  rintro k ⟨⟩

theorem windowClose : Statement (.windowClose) := by
  rintro k ⟨⟩

theorem railRecalDone (die : Nat) : Statement (.railRecalDone die) := by
  rintro k ⟨⟩

theorem auditReplayStart : Statement (.auditReplayStart) := by
  rintro k ⟨⟩

theorem auditCompare : Statement (.auditCompare) := by
  rintro k ⟨⟩

theorem linkRetryTimeout (port : Nat) : Statement (.linkRetryTimeout port) := by
  rintro k ⟨⟩

theorem laneErrorInterval (port : Nat) : Statement (.laneErrorInterval port) := by
  rintro k ⟨⟩

theorem laneTrainPass (port lane : Nat) : Statement (.laneTrainPass port lane) := by
  rintro k ⟨⟩

theorem linkTrainingDone (port : Nat) : Statement (.linkTrainingDone port) := by
  rintro k ⟨⟩

theorem packetRoute (id : Nat) : Statement (.packetRoute id) := by
  rintro k ⟨⟩

theorem escapeTimeout (id : Nat) : Statement (.escapeTimeout id) := by
  rintro k ⟨⟩

theorem combineWindowEnd (line : Nat) (ft : Bool) : Statement (.combineWindowEnd line ft) := by
  rintro k ⟨⟩

theorem retryBackoff (tag : Nat) : Statement (.retryBackoff tag) := by
  rintro k ⟨⟩

theorem e2eTimeout (tag : Nat) : Statement (.e2eTimeout tag) := by
  rintro k ⟨⟩

theorem tagReuseReady : Statement (.tagReuseReady) := by
  rintro k ⟨⟩

theorem replyCacheExpiry (src tag : Nat) : Statement (.replyCacheExpiry src tag) := by
  rintro k ⟨⟩

theorem keyCommandComplete : Statement (.keyCommandComplete) := by
  rintro k ⟨⟩

theorem deviceResetBoot : Statement (.deviceResetBoot) := by
  rintro k ⟨⟩

theorem quoteComplete : Statement (.quoteComplete) := by
  rintro k ⟨⟩

theorem resultWrite (core : Nat) : Statement (.resultWrite core) := by
  rintro k ⟨⟩

theorem matrixBeat (core : Nat) : Statement (.matrixBeat core) := by
  rintro k ⟨⟩

theorem tlbiTakesEffect (id : Nat) : Statement (.tlbiTakesEffect id) := by
  rintro k ⟨⟩

theorem quokorStore (hart pa len : Nat) (data : Word) : Statement (.quokorStore hart pa len data) := by
  rintro k ⟨⟩

theorem tlbicmdPage (asid : BitVec 16) : Statement (.tlbicmdPage asid) := by
  rintro k ⟨⟩

theorem tlbicmdSpace (asid : BitVec 16) : Statement (.tlbicmdSpace asid) := by
  rintro k ⟨⟩

theorem tlbicmdAll : Statement (.tlbicmdAll) := by
  rintro k ⟨⟩

theorem makelive (arg : BitVec 24) (comp : Bool) : Statement (.makelive arg comp) := by
  rintro k ⟨⟩

theorem makedead (arg : BitVec 24) : Statement (.makedead arg) := by
  rintro k ⟨⟩

theorem setscheme (arg : BitVec 24) (il : BitVec 3) : Statement (.setscheme arg il) := by
  rintro k ⟨⟩

theorem drop (arg : BitVec 24) : Statement (.drop arg) := by
  rintro k ⟨⟩

theorem rehash : Statement (.rehash) := by
  rintro k ⟨⟩

theorem teardown (job : BitVec 16) : Statement (.teardown job) := by
  rintro k ⟨⟩

theorem reclaim (slot : BitVec 16) : Statement (.reclaim slot) := by
  rintro k ⟨⟩

theorem tideCtlWrite (val : Word) : Statement (.tideCtlWrite val) := by
  rintro k ⟨⟩

theorem schedCtlWrite (die : Nat) (val : Word) : Statement (.schedCtlWrite die val) := by
  rintro k ⟨⟩

theorem schedPreempt (die core : Nat) : Statement (.schedPreempt die core) := by
  rintro k ⟨⟩

theorem schedKill (die core : Nat) : Statement (.schedKill die core) := by
  rintro k ⟨⟩

theorem fqResume (frame : Nat) : Statement (.fqResume frame) := by
  rintro k ⟨⟩

theorem fqKill (frame : Nat) : Statement (.fqKill frame) := by
  rintro k ⟨⟩

theorem fqRestart (ctx : Nat) : Statement (.fqRestart ctx) := by
  rintro k ⟨⟩

theorem fqAbandon (ctx : Nat) : Statement (.fqAbandon ctx) := by
  rintro k ⟨⟩

theorem portCfgWrite (port : Nat) (val : Word) : Statement (.portCfgWrite port val) := by
  rintro k ⟨⟩

theorem bwCtlWrite (val : Word) : Statement (.bwCtlWrite val) := by
  rintro k ⟨⟩

theorem install (slot : BitVec 6) (job epoch : BitVec 16) : Statement (.install slot job epoch) := by
  rintro k ⟨⟩

theorem zero (slot : BitVec 6) : Statement (.zero slot) := by
  rintro k ⟨⟩

theorem zerojob (job : BitVec 16) : Statement (.zerojob job) := by
  rintro k ⟨⟩

theorem featAcceptWrite (val : Word) : Statement (.featAcceptWrite val) := by
  rintro k ⟨⟩

theorem quote (pa : Nat) : Statement (.quote pa) := by
  rintro k ⟨⟩

theorem pccCfgWrite (core : Nat) (val : Word) : Statement (.pccCfgWrite core val) := by
  rintro k ⟨⟩

theorem nakReceive (port ack : Nat) : Statement (.nakReceive port ack) := by
  rintro k ⟨⟩

theorem idle (port : Nat) : Statement (.idle port) := by
  rintro k ⟨⟩

theorem credit (port : Nat) (returns : List Nat) : Statement (.credit port returns) := by
  rintro k ⟨⟩

theorem mapnak (port : Nat) (mask : BitVec 8) (ack : Nat) : Statement (.mapnak port mask ack) := by
  rintro k ⟨⟩

theorem mapadd (port : Nat) (mask : BitVec 8) (seq : Nat) : Statement (.mapadd port mask seq) := by
  rintro k ⟨⟩

theorem xack (port n : Nat) : Statement (.xack port n) := by
  rintro k ⟨⟩

theorem xseq (port n : Nat) : Statement (.xseq port n) := by
  rintro k ⟨⟩

theorem wr (p : Packet) : Statement (.wr p) := by
  rintro k ⟨⟩

theorem rdreq (p : Packet) : Statement (.rdreq p) := by
  rintro k ⟨⟩

theorem atomPacket (p : Packet) : Statement (.atomPacket p) := by
  rintro k ⟨⟩

theorem ctradd (p : Packet) : Statement (.ctradd p) := by
  rintro k ⟨⟩

theorem vatomPacket (p : Packet) : Statement (.vatomPacket p) := by
  rintro k ⟨⟩

theorem barArvArrive (p : Packet) : Statement (.barArvArrive p) := by
  rintro k ⟨⟩

theorem barArvJoin (p : Packet) : Statement (.barArvJoin p) := by
  rintro k ⟨⟩

theorem barArvLeave (p : Packet) : Statement (.barArvLeave p) := by
  rintro k ⟨⟩

theorem collp (p : Packet) : Statement (.collp p) := by
  rintro k ⟨⟩

theorem barrel (p : Packet) : Statement (.barrel p) := by
  rintro k ⟨⟩

theorem ack (p : Packet) : Statement (.ack p) := by
  rintro k ⟨⟩

theorem rdrsp (p : Packet) : Statement (.rdrsp p) := by
  rintro k ⟨⟩

theorem atomrsp (p : Packet) : Statement (.atomrsp p) := by
  rintro k ⟨⟩

theorem retry (p : Packet) : Statement (.retry p) := by
  rintro k ⟨⟩

theorem err (p : Packet) : Statement (.err p) := by
  rintro k ⟨⟩

theorem mgtmsgWrite (p : Packet) : Statement (.mgtmsgWrite p) := by
  rintro k ⟨⟩

theorem mgtmsgHealth (p : Packet) : Statement (.mgtmsgHealth p) := by
  rintro k ⟨⟩

theorem mgtmsgKey (p : Packet) : Statement (.mgtmsgKey p) := by
  rintro k ⟨⟩

theorem flitReceive (port : Nat) (flit : Flit) : Statement (.flitReceive port flit) := by
  rintro k ⟨⟩

theorem laneLossOfLock (port lane : Nat) : Statement (.laneLossOfLock port lane) := by
  rintro k ⟨⟩

theorem uncorrectableCodeword (port lane : Nat) : Statement (.uncorrectableCodeword port lane) := by
  rintro k ⟨⟩

theorem railError (die rail : Nat) : Statement (.railError die rail) := by
  rintro k ⟨⟩

theorem temperatureEvent (temp power : Nat) : Statement (.temperatureEvent temp power) := by
  rintro k ⟨⟩

theorem recoveryUpload (image firmware : List (BitVec 8)) (resets : Bool) : Statement (.recoveryUpload image firmware resets) := by
  rintro k ⟨⟩

end Sys2Proof.Laws.F
end

