-- ==== Sys2Proof/Tests/Slice0.lean ====
section
/-! SUPPORT. The model's own tests: words written out from the encoding tables decode to the instructions they stand for,
ill-formed terms are refused, and for every statement with hypotheses a state and operands that meet them. -/

open Sys2Proof Sys2Proof.Machine

/-- Words laid out field by field from the tables of the S slots (R213). -/
theorem test_decode_scalar_arithmetic_a :
    decodeSlot .s1 0xA0062E3F = .ok (.nop ⟨true, 2⟩ 405055) ∧
    decodeSlot .s1 0x305C6E80 = .ok (.add ⟨false, 3⟩ 14 6 29) ∧
    decodeSlot .s1 0x30985F80 = .ok (.sub ⟨false, 3⟩ 12 5 31) ∧
    decodeSlot .s1 0xC0D7182E = .ok (.addi ⟨true, 4⟩ 11 17 2094) ∧
    decodeSlot .s1 0x1100B780 = .ok (.mul ⟨false, 1⟩ 0 11 15) ∧
    decodeSlot .s1 0x614CB480 = .ok (.mulhI ⟨false, 6⟩ 6 11 9) ∧
    decodeSlot .s1 0x71854300 = .ok (.mulhN ⟨false, 7⟩ 2 20 6) ∧
    decodeSlot .s1 0xD1F41380 = .ok (.and ⟨true, 5⟩ 26 1 7) ∧
    decodeSlot .s1 0x8233D380 = .ok (.or ⟨true, 0⟩ 25 29 7) ∧
    decodeSlot .s1 0x124B5C00 = .ok (.xor ⟨false, 1⟩ 5 21 24) ∧
    decodeSlot .s1 0x729BF980 = .ok (.andn ⟨false, 7⟩ 13 31 19) ∧
    decodeSlot .s1 0x22F4AF26 = .ok (.andi ⟨false, 2⟩ 26 10 3878) :=
  ⟨rfl, rfl, rfl, rfl, rfl, rfl, rfl, rfl, rfl, rfl, rfl, rfl⟩

/-- Words laid out field by field from the tables of the S slots (R213). -/
theorem test_decode_scalar_arithmetic_b :
    decodeSlot .s1 0x73212744 = .ok (.ori ⟨false, 7⟩ 16 18 1860) ∧
    decodeSlot .s1 0x435CA647 = .ok (.xori ⟨false, 4⟩ 14 10 1607) ∧
    decodeSlot .s1 0x039A7280 = .ok (.shl ⟨false, 0⟩ 13 7 5) ∧
    decodeSlot .s1 0xC3CB2480 = .ok (.shr ⟨true, 4⟩ 5 18 9) ∧
    decodeSlot .s1 0xD436C080 = .ok (.sar ⟨true, 5⟩ 27 12 1) ∧
    decodeSlot .s1 0x44696600 = .ok (.ror ⟨false, 4⟩ 20 22 12) ∧
    decodeSlot .s1 0x94A8403F = .ok (.shli ⟨true, 1⟩ 20 4 63) ∧
    decodeSlot .s1 0x94EC2037 = .ok (.shri ⟨true, 1⟩ 22 2 55) ∧
    decodeSlot .s1 0x751A0010 = .ok (.sari ⟨false, 7⟩ 13 0 16) ∧
    decodeSlot .s1 0xC567C000 = .ok (.rori ⟨true, 4⟩ 19 28 0) :=
  ⟨rfl, rfl, rfl, rfl, rfl, rfl, rfl, rfl, rfl, rfl⟩

/-- Words laid out field by field from the tables of the S slots (R213). -/
theorem test_decode_scalar_values_a :
    decodeSlot .s1 0xB59C44C1 = .ok (.bfxN ⟨true, 3⟩ 14 4 19 1) ∧
    decodeSlot .s1 0x55E9822A = .ok (.bfxI ⟨false, 5⟩ 20 24 8 42) ∧
    decodeSlot .s1 0x86355343 = .ok (.bfi ⟨true, 0⟩ 26 21 13 3) ∧
    decodeSlot .s1 0xA67DA000 = .ok (.clz ⟨true, 2⟩ 30 26) ∧
    decodeSlot .s1 0xE694C000 = .ok (.ctz ⟨true, 6⟩ 10 12) ∧
    decodeSlot .s1 0xA6ECB000 = .ok (.popc ⟨true, 2⟩ 22 11) ∧
    decodeSlot .s1 0x272E2280 = .ok (.minI ⟨false, 2⟩ 23 2 5) ∧
    decodeSlot .s1 0x17634A00 = .ok (.minN ⟨false, 1⟩ 17 20 20) ∧
    decodeSlot .s1 0x77946A00 = .ok (.maxI ⟨false, 7⟩ 10 6 20) ∧
    decodeSlot .s1 0x67F59680 = .ok (.maxN ⟨false, 6⟩ 26 25 13) ∧
    decodeSlot .s1 0x380316E0 = .ok (.sel ⟨false, 3⟩ 1 17 13 true 4) ∧
    decodeSlot .s1 0xC873565E = .ok (.movi ⟨true, 4⟩ 25 87646) :=
  ⟨rfl, rfl, rfl, rfl, rfl, rfl, rfl, rfl, rfl, rfl, rfl, rfl⟩

/-- Words laid out field by field from the tables of the S slots (R213). -/
theorem test_decode_scalar_values_b :
    decodeSlot .s1 0x78B76ADD = .ok (.movhi ⟨false, 7⟩ 27 92893) ∧
    decodeSlot .s1 0xE8FDFA60 = .ok (.cmp ⟨true, 6⟩ 7 11 30 19 0) ∧
    decodeSlot .s1 0x3900AABB = .ok (.cmpi ⟨false, 3⟩ 0 1 10 2 187) ∧
    decodeSlot .s1 0xF9631600 = .ok (.plog ⟨true, 7⟩ 4 3 0 11) :=
  ⟨rfl, rfl, rfl, rfl⟩

/-- Words laid out field by field from the tables of the S slots (R213). -/
theorem test_decode_scalar_control_a :
    decodeSlot .s1 0x99874200 = .ok (.pmovWr ⟨true, 1⟩ 7 66) ∧
    decodeSlot .s1 0xB9A20000 = .ok (.pmovRd ⟨true, 3⟩ 2) ∧
    decodeSlot .s1 0x9C000037 = .ok (.br ⟨true, 1⟩ 55) ∧
    decodeSlot .s1 0x0C400000 = .ok (.brx ⟨false, 0⟩) ∧
    decodeSlot .s1 0x2C80B000 = .ok (.jmp ⟨false, 2⟩ 11) ∧
    decodeSlot .s1 0xACFB5000 = .ok (.call ⟨true, 2⟩ 29 21) ∧
    decodeSlot .s1 0x2D018000 = .ok (.ret ⟨false, 2⟩ 24) ∧
    decodeSlot .s1 0xCD5E03B8 = .ok (.loopReg ⟨true, 4⟩ 30 14 56) ∧
    decodeSlot .s1 0x8D7F2E86 = .ok (.loopImm ⟨true, 0⟩ 498 58 6) ∧
    decodeSlot .s1 0xBD800000 = .ok (.endl ⟨true, 3⟩) ∧
    decodeSlot .s1 0x0DC00031 = .ok (.brk ⟨false, 0⟩ 49) ∧
    decodeSlot .s1 0x1E000000 = .ok (.endT ⟨false, 1⟩) :=
  ⟨rfl, rfl, rfl, rfl, rfl, rfl, rfl, rfl, rfl, rfl, rfl, rfl⟩

/-- Words laid out field by field from the tables of the S slots (R213). -/
theorem test_decode_scalar_control_b :
    decodeSlot .s1 0x4E402415 = .ok (.trap ⟨false, 4⟩ 9237) :=
  rfl

/-- Words laid out field by field from the tables of the M slots (R214). -/
theorem test_decode_memory_access_a :
    decodeSlot .m0 0xF015B4E8EB14 = .ok (.mnop ⟨false, ⟨true, 7⟩, false⟩ 93229476628) ∧
    decodeSlot .m1 0x0821540001C9 = .ok (.ldb ⟨true, ⟨false, 0⟩, true⟩ 1 10 4 0 0 0 457) ∧
    decodeSlot .m0 0x805164096307 = .ok (.ldh ⟨false, ⟨true, 0⟩, false⟩ 17 12 4 0 1 177 263) ∧
    decodeSlot .m0 0x207CCCAD1AE9 = .ok (.ldw ⟨false, ⟨false, 2⟩, false⟩ 28 25 4 5 1 653 233) ∧
    decodeSlot .m0 0x48835C486C29 = .ok (.ld ⟨false, ⟨false, 4⟩, true⟩ 3 11 4 2 1 54 41) ∧
    decodeSlot .m0 0x80BD7C0A082B = .ok (.ldbs ⟨false, ⟨true, 0⟩, false⟩ 29 15 4 0 1 260 43) ∧
    decodeSlot .m1 0x90DCFCAF8DB3 = .ok (.ldhs ⟨true, ⟨true, 1⟩, false⟩ 28 31 4 5 1 966 435) ∧
    decodeSlot .m1 0xF8E8D96F1F0B = .ok (.ldws ⟨true, ⟨true, 7⟩, true⟩ 8 27 1 3 1 911 267) ∧
    decodeSlot .m0 0x511B54000019 = .ok (.stb ⟨false, ⟨false, 5⟩, false⟩ 27 10 4 0 25) ∧
    decodeSlot .m0 0xD922FC40018D = .ok (.sth ⟨false, ⟨true, 5⟩, true⟩ 2 31 4 2 397) ∧
    decodeSlot .m0 0x915CC200012B = .ok (.stw ⟨false, ⟨true, 1⟩, false⟩ 28 24 2 0 299) ∧
    decodeSlot .m0 0xA172DA000002 = .ok (.st ⟨false, ⟨true, 2⟩, false⟩ 18 27 2 0 2) :=
  ⟨rfl, rfl, rfl, rfl, rfl, rfl, rfl, rfl, rfl, rfl, rfl, rfl⟩

/-- Words laid out field by field from the tables of the M slots (R214). -/
theorem test_decode_memory_access_b :
    decodeSlot .m1 0xA19026E3423B = .ok (.ldrow ⟨true, ⟨true, 2⟩, false⟩ 8 4 55 3 8 1 59) :=
  rfl

/-- Words laid out field by field from the tables of the M slots (R214). -/
theorem test_decode_memory_ordering :
    decodeSlot .m1 0x91A288A0C800 = .ok (.strow ⟨true, ⟨true, 1⟩, false⟩ 1 17 5 0 25) ∧
    decodeSlot .m1 0xBA1A00006B20 = .ok (.atom ⟨true, ⟨true, 3⟩, true⟩ 26 0 0 0 3 false true 3 1) ∧
    decodeSlot .m0 0x922480000000 = .ok (.fence ⟨false, ⟨true, 1⟩, false⟩ 1 1) ∧
    decodeSlot .m1 0xB28D25F22000 = .ok (.probe ⟨true, ⟨true, 3⟩, false⟩ 3 4 18 true 7 true 8 true 0) ∧
    decodeSlot .m1 0xD2B306660000 = .ok (.fill ⟨true, ⟨true, 5⟩, false⟩ 19 0 true 4 true 19) ∧
    decodeSlot .m1 0x62C13C000000 = .ok (.evict ⟨true, ⟨false, 6⟩, false⟩ false 2 15) ∧
    decodeSlot .m1 0x72E238000000 = .ok (.wback ⟨true, ⟨false, 7⟩, false⟩ 2 7) ∧
    decodeSlot .m1 0x5304D4000000 = .ok (.cvta ⟨true, ⟨false, 5⟩, false⟩ 4 26 2) ∧
    decodeSlot .m0 0x832E10000000 = .ok (.aptest ⟨false, ⟨true, 0⟩, false⟩ 3 16 true) ∧
    decodeSlot .m1 0xF39DADE00000 = .ok (.wait ⟨true, ⟨true, 7⟩, false⟩ 14 13 6 15) ∧
    decodeSlot .m0 0x53B0B59C8000 = .ok (.mon ⟨false, ⟨false, 5⟩, false⟩ 4 5 21 4 true 25) ∧
    decodeSlot .m1 0xA3CECF000000 = .ok (.mwait ⟨true, ⟨true, 2⟩, false⟩ 118 15) :=
  ⟨rfl, rfl, rfl, rfl, rfl, rfl, rfl, rfl, rfl, rfl, rfl, rfl⟩

/-- Words laid out field by field from the tables of the V slots (R215). -/
theorem test_decode_vector_float_a :
    decodeSlot .v 0x980A1DBFFEA4 = .ok (.vnop ⟨⟨true, 1⟩, true, 40⟩ 499121828) ∧
    decodeSlot .v 0xC01D51A2EE80 = .ok (.vadd ⟨⟨true, 4⟩, false, 53⟩ 4 26 2 14 58 false) ∧
    decodeSlot .v 0x782B998FFF20 = .ok (.vsub ⟨⟨false, 7⟩, true, 46⟩ 6 24 15 15 60 true) ∧
    decodeSlot .v 0x003C00DF3FA0 = .ok (.vmul ⟨⟨false, 0⟩, false, 48⟩ 0 13 15 3 62 true) ∧
    decodeSlot .v 0x104CDBF50780 = .ok (.vfma ⟨⟨false, 1⟩, false, 51⟩ 6 63 5 0 30 false) ∧
    decodeSlot .v 0xB8564E8FD300 = .ok (.vmin ⟨⟨true, 3⟩, true, 25⟩ 3 40 15 13 12 false) ∧
    decodeSlot .v 0x906DB5AA74E0 = .ok (.vmax ⟨⟨true, 1⟩, false, 54⟩ 13 26 10 7 19 true) ∧
    decodeSlot .v 0xC07D5AD70000 = .ok (.vabs ⟨⟨true, 4⟩, false, 53⟩ 6 45 7) ∧
    decodeSlot .v 0xB08266560000 = .ok (.vneg ⟨⟨true, 3⟩, false, 9⟩ 9 37 6) ∧
    decodeSlot .v 0x009C77BC4384 = .ok (.vcmp ⟨⟨false, 0⟩, false, 49⟩ 13 59 12 4 14 false 1) ∧
    decodeSlot .v 0xD0A6E2FFC5C8 = .ok (.vsel ⟨⟨true, 5⟩, false, 27⟩ 8 47 15 12 23 false 2) ∧
    decodeSlot .v 0x70B82E980000 = .ok (.vexp2 ⟨⟨false, 7⟩, false, 32⟩ 11 41 8) :=
  ⟨rfl, rfl, rfl, rfl, rfl, rfl, rfl, rfl, rfl, rfl, rfl, rfl⟩

/-- Words laid out field by field from the tables of the V slots (R215). -/
theorem test_decode_vector_float_b :
    decodeSlot .v 0x90C0620B0000 = .ok (.vlog2 ⟨⟨true, 1⟩, false, 1⟩ 8 32 11) ∧
    decodeSlot .v 0x28D793120000 = .ok (.vrcp ⟨⟨false, 2⟩, true, 30⟩ 4 49 2) ∧
    decodeSlot .v 0xC0E15C930000 = .ok (.vrsqrt ⟨⟨true, 4⟩, false, 5⟩ 7 9 3) ∧
    decodeSlot .v 0x28F71AACFC60 = .ok (.vscale ⟨⟨false, 2⟩, true, 28⟩ 6 42 12 15 49 true false) :=
  ⟨rfl, rfl, rfl, rfl⟩

/-- Words laid out field by field from the tables of the V slots (R215). -/
theorem test_decode_vector_integer_and_moves_a :
    decodeSlot .v 0x890F8049D468 = .ok (.viadd ⟨⟨true, 0⟩, true, 62⟩ 0 4 9 13 17 true 2 false) ∧
    decodeSlot .v 0x4914C5A38876 = .ok (.visub ⟨⟨false, 4⟩, true, 19⟩ 1 26 3 8 33 true 5 true) ∧
    decodeSlot .v 0x2124FB04944E = .ok (.vimul ⟨⟨false, 2⟩, false, 19⟩ 14 48 4 9 17 false 3 true) ∧
    decodeSlot .v 0x193CC45A6BFC = .ok (.vimin ⟨⟨false, 1⟩, true, 51⟩ 1 5 10 6 47 true 7) ∧
    decodeSlot .v 0xA1454C4F0648 = .ok (.vimax ⟨⟨true, 2⟩, false, 21⟩ 3 4 15 0 25 false 2) ∧
    decodeSlot .v 0x915A010C2480 = .ok (.vand ⟨⟨true, 1⟩, false, 40⟩ 0 16 12 2 18 false) ∧
    decodeSlot .v 0xF16E492B4960 = .ok (.vor ⟨⟨true, 7⟩, false, 57⟩ 2 18 11 4 37 true) ∧
    decodeSlot .v 0x497400D55B40 = .ok (.vxor ⟨⟨false, 4⟩, true, 16⟩ 0 13 5 5 45 false) ∧
    decodeSlot .v 0xD18072550FCD = .ok (.vshl ⟨⟨true, 5⟩, false, 1⟩ 12 37 5 0 63 false 3 true) ∧
    decodeSlot .v 0xA19014928768 = .ok (.vshr ⟨⟨true, 2⟩, false, 0⟩ 5 9 2 8 29 true 2 false) ∧
    decodeSlot .v 0x71A401495604 = .ok (.vsar ⟨⟨false, 7⟩, false, 16⟩ 0 20 9 5 24 false 1 false) ∧
    decodeSlot .v 0x8A02319368CC = .ok (.vcvt ⟨⟨true, 0⟩, true, 8⟩ 12 25 3 26 3 3) :=
  ⟨rfl, rfl, rfl, rfl, rfl, rfl, rfl, rfl, rfl, rfl, rfl, rfl⟩

/-- Words laid out field by field from the tables of the V slots (R215). -/
theorem test_decode_vector_integer_and_moves_b :
    decodeSlot .v 0x2A11F6379A48 = .ok (.vpackd ⟨⟨false, 2⟩, true, 7⟩ 13 35 7 38 36 true) ∧
    decodeSlot .v 0xFA297B15C3D8 = .ok (.vunpkd ⟨⟨true, 7⟩, true, 37⟩ 14 49 5 48 61 true) ∧
    decodeSlot .v 0x3A37D9AF8469 = .ok (.vpackm ⟨⟨false, 3⟩, true, 31⟩ 6 26 15 33 6 9) ∧
    decodeSlot .v 0xAA42426980DA = .ok (.vunpkm ⟨⟨true, 2⟩, true, 9⟩ 0 38 9 32 13 10) ∧
    decodeSlot .v 0xDA8BCBE09A54 = .ok (.vrsum ⟨⟨true, 5⟩, true, 47⟩ 2 62 0 38 74 true) ∧
    decodeSlot .v 0x6299E340741C = .ok (.vrmax ⟨⟨false, 6⟩, false, 39⟩ 8 52 0 29 3 true) ∧
    decodeSlot .v 0x1AAE6306315C = .ok (.vrmin ⟨⟨false, 1⟩, true, 57⟩ 8 48 6 12 43 true) ∧
    decodeSlot .v 0x93030AFF7F60 = .ok (.vshuf ⟨⟨true, 1⟩, false, 12⟩ 2 47 15 7 61 true 0) ∧
    decodeSlot .v 0xA316A5D10000 = .ok (.vtrans ⟨⟨true, 2⟩, false, 26⟩ 9 1 13 0 1) ∧
    decodeSlot .v 0x732376787800 = .ok (.vmov ⟨⟨false, 7⟩, false, 13⟩ 13 39 8 30) ∧
    decodeSlot .v 0xA33E7821F000 = .ok (.vzrd ⟨⟨true, 2⟩, false, 57⟩ 14 2 0 31) ∧
    decodeSlot .v 0xB34807C0B000 = .ok (.vzwr ⟨⟨true, 3⟩, false, 32⟩ 0 31 0 11) :=
  ⟨rfl, rfl, rfl, rfl, rfl, rfl, rfl, rfl, rfl, rfl, rfl, rfl⟩

/-- Words laid out field by field from the tables of the V slots (R215). -/
theorem test_decode_vector_integer_and_moves_c :
    decodeSlot .v 0x63526D060000 = .ok (.vbcast ⟨⟨false, 6⟩, false, 9⟩ 11 16 12 0) :=
  rfl

/-- Words laid out field by field from the tables of the X slots (R216). -/
theorem test_decode_matrix :
    decodeSlot .x 0x601E400000236D63 = .ok (.xnop ⟨⟨false, 6⟩, false, 242⟩ 2321763) ∧
    decodeSlot .x 0x903DB49CE0D560A3 = .ok (.mma ⟨⟨true, 1⟩, false, 237⟩ true 1180 28 3 1 10 24 5 3) ∧
    decodeSlot .x 0xC04814BC1F5B9C54 = .ok (.mmaTb ⟨⟨true, 4⟩, false, 64⟩ true 1212 3 29 1 23 7 2 5 false) ∧
    decodeSlot .x 0x2873C00000000000 = .ok (.zzero ⟨⟨false, 2⟩, true, 158⟩ 0) ∧
    decodeSlot .x 0x4093800000107600 = .ok (.zscale ⟨⟨false, 4⟩, false, 156⟩ 1 0 29 true) ∧
    decodeSlot .x 0x90ABE000001CA821 = .ok (.zout ⟨⟨true, 1⟩, false, 95⟩ 1 12 42 2 1) :=
  ⟨rfl, rfl, rfl, rfl, rfl, rfl⟩

/-- Words laid out field by field from the tables of the C slots (R217). -/
theorem test_decode_control_a :
    decodeSlot .c 0xA006552E5815 = .ok (.cnop ⟨true, 2⟩ 27198904341) ∧
    decodeSlot .c 0x305580000000 = .ok (.copy ⟨false, 3⟩ 1 11) ∧
    decodeSlot .c 0xE08000000000 = .ok (.close ⟨true, 6⟩) ∧
    decodeSlot .c 0xF0ECCF800000 = .ok (.binit ⟨true, 7⟩ 22 12 31) ∧
    decodeSlot .c 0x112729000000 = .ok (.barrive ⟨false, 1⟩ 19 18 true 1) ∧
    decodeSlot .c 0xC178F9400000 = .ok (.bwait ⟨true, 4⟩ true 6 7 25 2) ∧
    decodeSlot .c 0xC1B283600000 = .ok (.waitl ⟨true, 4⟩ true 4 5 0 27 0) ∧
    decodeSlot .c 0xF23400000000 = .ok (.gjoin ⟨true, 7⟩ 26) ∧
    decodeSlot .c 0xB24A00000000 = .ok (.gleave ⟨true, 3⟩ 5) ∧
    decodeSlot .c 0x529E80000000 = .ok (.gbar ⟨false, 5⟩ 15 1 0) ∧
    decodeSlot .c 0xC33E000C0321 = .ok (.setfmt ⟨true, 4⟩ 31 787233) ∧
    decodeSlot .c 0xA36E05400000 = .ok (.crr ⟨true, 2⟩ 23 42) :=
  ⟨rfl, rfl, rfl, rfl, rfl, rfl, rfl, rfl, rfl, rfl, rfl, rfl⟩

/-- Words laid out field by field from the tables of the C slots (R217). -/
theorem test_decode_control_b :
    decodeSlot .c 0x838805400000 = .ok (.crw ⟨true, 0⟩ 4 42) ∧
    decodeSlot .c 0x041E00000000 = .ok (.dcal ⟨false, 0⟩ 15) ∧
    decodeSlot .c 0x944400000000 = .ok (.dleft ⟨true, 1⟩ 2 0) ∧
    decodeSlot .c 0xD51E58000000 = .ok (.tlbi ⟨true, 5⟩ 1 28 22) ∧
    decodeSlot .c 0xD54000000000 = .ok (.tlbiSync ⟨true, 5⟩) ∧
    decodeSlot .c 0x160000000000 = .ok (.tret ⟨false, 1⟩) ∧
    decodeSlot .c 0xE64398000000 = .ok (.amark ⟨true, 6⟩ 0 7 6) :=
  ⟨rfl, rfl, rfl, rfl, rfl, rfl, rfl⟩

/-- Words laid out field by field from the tables of the Q slots (R218). -/
theorem test_decode_queue_a :
    decodeSlot .q 0x6010800B3096 = .ok (.qnop ⟨false, 6⟩ 70867693718) ∧
    decodeSlot .q 0x904800000000 = .ok (.enqt ⟨true, 1⟩ 4) ∧
    decodeSlot .q 0xA111128303F3 = .ok (.eboard ⟨true, 2⟩ 8 17 false 5 1 2 false 1011) ∧
    decodeSlot .q 0xC159E6000000 = .ok (.ealight ⟨true, 4⟩ 12 true 28 3) ∧
    decodeSlot .q 0x41B1C0F60405 = .ok (.ecap ⟨false, 4⟩ 24 28 1 7 3 0 true 5) ∧
    decodeSlot .q 0x41EC140003EA = .ok (.erow ⟨false, 4⟩ 11 1 8 0 false 1002) ∧
    decodeSlot .q 0xD223F0000000 = .ok (.ewhen ⟨true, 5⟩ 17 31) ∧
    decodeSlot .q 0x83046FD20000 = .ok (.tboard ⟨true, 0⟩ 2 6 31 20 2) ∧
    decodeSlot .q 0x0376C0000000 = .ok (.twait ⟨false, 0⟩ 27 6) ∧
    decodeSlot .q 0x238000000000 = .ok (.tleave ⟨false, 2⟩) ∧
    decodeSlot .q 0x03FE00000000 = .ok (.tstat ⟨false, 0⟩ 31) ∧
    decodeSlot .q 0x341800000000 = .ok (.tspeed ⟨false, 3⟩ 3) :=
  ⟨rfl, rfl, rfl, rfl, rfl, rfl, rfl, rfl, rfl, rfl, rfl, rfl⟩

/-- Words laid out field by field from the tables of the Q slots (R218). -/
theorem test_decode_queue_b :
    decodeSlot .q 0xC52761D20000 = .ok (.fst ⟨true, 4⟩ 19 22 3 20 true) ∧
    decodeSlot .q 0x95642D9E0000 = .ok (.fld ⟨true, 1⟩ 18 2 27 7 true) ∧
    decodeSlot .q 0x3594A0AB831B = .ok (.fatom ⟨false, 3⟩ 10 10 1 5 false true 3 false 795) ∧
    decodeSlot .q 0xF5E160200000 = .ok (.vatom ⟨true, 7⟩ 16 11 0 false true) ∧
    decodeSlot .q 0x9612A0000000 = .ok (.coll ⟨true, 1⟩ 9 10) :=
  ⟨rfl, rfl, rfl, rfl, rfl⟩

/-- Fields that no encoding admits are refused, one check at a time. -/
theorem test_illFormed_a :
    WellFormed (.bfxN ⟨false, 0⟩ 1 2 60 4) = false ∧
    WellFormed (.bfxI ⟨false, 0⟩ 1 2 1 63) = false ∧
    WellFormed (.bfi ⟨false, 0⟩ 1 2 63 1) = false ∧
    WellFormed (.cmp ⟨false, 0⟩ 1 12 0 0 0) = false ∧
    WellFormed (.cmp ⟨false, 0⟩ 1 0 0 0 3) = false ∧
    WellFormed (.cmpi ⟨false, 0⟩ 1 15 0 0 0) = false ∧
    WellFormed (.cmpi ⟨false, 0⟩ 1 0 0 3 0) = false ∧
    WellFormed (.ldb ⟨false, ⟨false, 0⟩, false⟩ 1 2 2 0 0 0 0) = false ∧
    WellFormed (.ldh ⟨false, ⟨false, 0⟩, false⟩ 1 2 3 0 0 0 0) = false ∧
    WellFormed (.ldw ⟨false, ⟨false, 0⟩, false⟩ 1 2 5 0 0 0 0) = false ∧
    WellFormed (.ld ⟨false, ⟨false, 0⟩, false⟩ 1 2 0 1 0 0 0) = false ∧
    WellFormed (.ldbs ⟨false, ⟨false, 0⟩, false⟩ 1 2 1 4 0 0 0) = false ∧
    WellFormed (.ldhs ⟨false, ⟨false, 0⟩, false⟩ 1 2 0 0 0 1 0) = false ∧
    WellFormed (.ldws ⟨false, ⟨false, 0⟩, false⟩ 1 2 0 0 1 0 0) = false ∧
    WellFormed (.ldw ⟨false, ⟨false, 0⟩, false⟩ 1 2 0 0 2 32 0) = false ∧
    WellFormed (.ld ⟨false, ⟨false, 0⟩, false⟩ 1 2 0 0 3 1 0) = false ∧
    WellFormed (.stb ⟨false, ⟨false, 0⟩, false⟩ 1 2 1 0 0) = false ∧
    WellFormed (.sth ⟨false, ⟨false, 0⟩, false⟩ 1 2 3 0 0) = false :=
  ⟨rfl, rfl, rfl, rfl, rfl, rfl, rfl, rfl, rfl, rfl, rfl, rfl, rfl, rfl, rfl, rfl, rfl, rfl⟩

/-- Fields that no encoding admits are refused, one check at a time. -/
theorem test_illFormed_b :
    WellFormed (.stw ⟨false, ⟨false, 0⟩, false⟩ 1 2 0 2 0) = false ∧
    WellFormed (.st ⟨false, ⟨false, 0⟩, false⟩ 1 2 2 6 0) = false ∧
    WellFormed (.ldrow ⟨false, ⟨false, 0⟩, false⟩ 1 63 1 0 0 0 0) = false ∧
    WellFormed (.ldrow ⟨false, ⟨false, 0⟩, false⟩ 1 0 0 0 0 3 0) = false ∧
    WellFormed (.ldrow ⟨false, ⟨false, 0⟩, false⟩ 1 0 0 0 0 1 0) = false ∧
    WellFormed (.strow ⟨false, ⟨false, 0⟩, false⟩ 1 60 4 0 0) = false ∧
    WellFormed (.atom ⟨false, ⟨false, 0⟩, false⟩ 0 0 0 0 10 false false 0 0) = false ∧
    WellFormed (.atom ⟨false, ⟨false, 0⟩, false⟩ 1 0 0 0 0 false false 0 0) = false ∧
    WellFormed (.atom ⟨false, ⟨false, 0⟩, false⟩ 0 0 0 1 1 false false 0 0) = false ∧
    WellFormed (.atom ⟨false, ⟨false, 0⟩, false⟩ 0 0 0 0 0 false false 5 0) = false ∧
    WellFormed (.atom ⟨false, ⟨false, 0⟩, false⟩ 0 0 0 0 0 false false 1 7) = false ∧
    WellFormed (.fence ⟨false, ⟨false, 0⟩, false⟩ 0 0) = false ∧
    WellFormed (.fence ⟨false, ⟨false, 0⟩, false⟩ 5 0) = false ∧
    WellFormed (.fence ⟨false, ⟨false, 0⟩, false⟩ 1 4) = false ∧
    WellFormed (.fence ⟨false, ⟨false, 0⟩, true⟩ 1 0) = false ∧
    WellFormed (.probe ⟨false, ⟨false, 0⟩, false⟩ 1 0 0 false 1 false 0 false 0) = false ∧
    WellFormed (.probe ⟨false, ⟨false, 0⟩, false⟩ 1 0 0 false 0 false 1 false 0) = false ∧
    WellFormed (.probe ⟨false, ⟨false, 0⟩, false⟩ 1 0 0 false 0 false 0 false 1) = false :=
  ⟨rfl, rfl, rfl, rfl, rfl, rfl, rfl, rfl, rfl, rfl, rfl, rfl, rfl, rfl, rfl, rfl, rfl, rfl⟩

/-- Fields that no encoding admits are refused, one check at a time. -/
theorem test_illFormed_c :
    WellFormed (.probe ⟨false, ⟨false, 0⟩, true⟩ 1 0 0 false 0 false 0 false 0) = false ∧
    WellFormed (.fill ⟨false, ⟨false, 0⟩, false⟩ 1 0 false 1 false 0) = false ∧
    WellFormed (.fill ⟨false, ⟨false, 0⟩, false⟩ 1 0 false 0 false 1) = false ∧
    WellFormed (.fill ⟨false, ⟨false, 0⟩, true⟩ 1 0 false 0 false 0) = false ∧
    WellFormed (.evict ⟨false, ⟨false, 0⟩, true⟩ false 1 2) = false ∧
    WellFormed (.wback ⟨false, ⟨false, 0⟩, true⟩ 1 2) = false ∧
    WellFormed (.wait ⟨false, ⟨false, 0⟩, true⟩ 0 0 0 0) = false ∧
    WellFormed (.mon ⟨false, ⟨false, 0⟩, false⟩ 0 1 0 7 false 0) = false ∧
    WellFormed (.mon ⟨false, ⟨false, 0⟩, false⟩ 0 1 2 0 false 0) = false ∧
    WellFormed (.mon ⟨false, ⟨false, 0⟩, true⟩ 0 1 0 0 false 0) = false ∧
    WellFormed (.mwait ⟨false, ⟨false, 0⟩, true⟩ 1 1) = false ∧
    WellFormed (.vsel ⟨⟨false, 0⟩, false, 0⟩ 0 0 0 0 0 false 4) = false ∧
    WellFormed (.vshuf ⟨⟨false, 0⟩, false, 0⟩ 0 0 0 0 0 false 7) = false ∧
    WellFormed (.vshl ⟨⟨false, 0⟩, false, 0⟩ 0 0 0 0 0 false 4 false) = false ∧
    WellFormed (.vshr ⟨⟨false, 0⟩, false, 0⟩ 0 0 0 1 0 false 0 true) = false ∧
    WellFormed (.vsar ⟨⟨false, 0⟩, false, 0⟩ 0 0 0 0 0 true 0 true) = false ∧
    WellFormed (.vscale ⟨⟨false, 0⟩, false, 0⟩ 0 0 0 1 0 false true) = false ∧
    WellFormed (.vcvt ⟨⟨false, 0⟩, false, 0⟩ 0 0 0 0 5 0) = false :=
  ⟨rfl, rfl, rfl, rfl, rfl, rfl, rfl, rfl, rfl, rfl, rfl, rfl, rfl, rfl, rfl, rfl, rfl, rfl⟩

/-- Fields that no encoding admits are refused, one check at a time. -/
theorem test_illFormed_d :
    WellFormed (.vcvt ⟨⟨false, 0⟩, false, 0⟩ 0 0 0 0 0 7) = false ∧
    WellFormed (.vpackm ⟨⟨false, 0⟩, false, 0⟩ 0 0 0 0 0 6) = false ∧
    WellFormed (.vunpkm ⟨⟨false, 0⟩, false, 0⟩ 0 0 0 0 0 12) = false ∧
    WellFormed (.vtrans ⟨⟨false, 0⟩, false, 0⟩ 0 1 0 0 2) = false ∧
    WellFormed (.vtrans ⟨⟨false, 0⟩, false, 0⟩ 0 2 0 0 1) = false ∧
    WellFormed (.vtrans ⟨⟨false, 0⟩, false, 0⟩ 0 0 0 0 3) = false ∧
    WellFormed (.mma ⟨⟨false, 0⟩, false, 0⟩ false 1 0 0 0 0 0 0 0) = false ∧
    WellFormed (.mma ⟨⟨false, 0⟩, false, 0⟩ true 0 0 0 0 0 0 0 0) = false ∧
    WellFormed (.mma ⟨⟨false, 0⟩, true, 0⟩ true 1 0 0 0 0 0 0 0) = false ∧
    WellFormed (.mmaTb ⟨⟨false, 0⟩, false, 0⟩ false 0 1 0 0 0 0 0 0 false) = false ∧
    WellFormed (.mmaTb ⟨⟨false, 0⟩, false, 0⟩ false 0 0 0 0 0 0 0 1 true) = false ∧
    WellFormed (.zout ⟨⟨false, 0⟩, false, 0⟩ 0 0 0 0 5) = false ∧
    WellFormed (.barrive ⟨false, 0⟩ 1 1 false 0) = false ∧
    WellFormed (.barrive ⟨false, 0⟩ 1 0 false 4) = false ∧
    WellFormed (.bwait ⟨false, 0⟩ false 1 1 0 0) = false ∧
    WellFormed (.bwait ⟨false, 0⟩ true 1 1 0 7) = false ∧
    WellFormed (.waitl ⟨false, 0⟩ false 1 7 0 0 0) = false ∧
    WellFormed (.waitl ⟨false, 0⟩ true 1 6 1 0 0) = false :=
  ⟨rfl, rfl, rfl, rfl, rfl, rfl, rfl, rfl, rfl, rfl, rfl, rfl, rfl, rfl, rfl, rfl, rfl, rfl⟩

/-- Fields that no encoding admits are refused, one check at a time. -/
theorem test_illFormed_e :
    WellFormed (.waitl ⟨false, 0⟩ true 1 6 0 0 6) = false ∧
    WellFormed (.gbar ⟨false, 0⟩ 1 3 0) = false ∧
    WellFormed (.gbar ⟨false, 0⟩ 1 0 1) = false ∧
    WellFormed (.setfmt ⟨false, 0⟩ 1 12) = false ∧
    WellFormed (.setfmt ⟨false, 0⟩ 0 1) = false ∧
    WellFormed (.setfmt ⟨false, 0⟩ 2 0xC0) = false ∧
    WellFormed (.setfmt ⟨false, 0⟩ 4 0xC00) = false ∧
    WellFormed (.setfmt ⟨false, 0⟩ 7 0x1000) = false ∧
    WellFormed (.setfmt ⟨false, 0⟩ 8 0x50000) = false ∧
    WellFormed (.setfmt ⟨false, 0⟩ 8 0x80000) = false ∧
    WellFormed (.crr ⟨false, 0⟩ 1 4) = false ∧
    WellFormed (.crr ⟨false, 0⟩ 1 0x2B) = false ∧
    WellFormed (.crw ⟨false, 0⟩ 1 0x48) = false ∧
    WellFormed (.tlbi ⟨false, 0⟩ 0 0 0) = false ∧
    WellFormed (.tlbi ⟨false, 0⟩ 2 0 1) = false ∧
    WellFormed (.tlbi ⟨false, 0⟩ 3 1 0) = false ∧
    WellFormed (.amark ⟨false, 0⟩ 3 0 0) = false ∧
    WellFormed (.amark ⟨false, 0⟩ 2 1 0) = false :=
  ⟨rfl, rfl, rfl, rfl, rfl, rfl, rfl, rfl, rfl, rfl, rfl, rfl, rfl, rfl, rfl, rfl, rfl, rfl⟩

/-- Fields that no encoding admits are refused, one check at a time. -/
theorem test_illFormed_f :
    WellFormed (.eboard ⟨false, 0⟩ 1 1 true 0 0 0 false 0) = false ∧
    WellFormed (.eboard ⟨false, 0⟩ 1 1 false 0 0 0 true 32) = false ∧
    WellFormed (.ealight ⟨false, 0⟩ 1 false 1 0) = false ∧
    WellFormed (.ecap ⟨false, 0⟩ 1 1 1 0 7 0 false 0) = false ∧
    WellFormed (.ecap ⟨false, 0⟩ 1 1 1 0 0 0 false 0) = false ∧
    WellFormed (.ecap ⟨false, 0⟩ 1 1 1 0 5 0 false 0) = false ∧
    WellFormed (.ecap ⟨false, 0⟩ 1 1 1 0 1 0 true 32) = false ∧
    WellFormed (.erow ⟨false, 0⟩ 0 0 0 0 true 1023) = false ∧
    WellFormed (.twait ⟨false, 0⟩ 1 0) = false ∧
    WellFormed (.twait ⟨false, 0⟩ 1 9) = false ∧
    WellFormed (.tspeed ⟨false, 0⟩ 5) = false ∧
    WellFormed (.fst ⟨false, 0⟩ 1 2 3 4 false) = false ∧
    WellFormed (.fld ⟨false, 0⟩ 1 2 3 1 false) = false ∧
    WellFormed (.fatom ⟨false, 0⟩ 0 0 0 10 false false 0 false 0) = false ∧
    WellFormed (.fatom ⟨false, 0⟩ 1 0 0 0 false false 0 false 0) = false ∧
    WellFormed (.fatom ⟨false, 0⟩ 1 0 1 2 false true 0 false 0) = false ∧
    WellFormed (.fatom ⟨false, 0⟩ 1 0 0 0 false true 0 true 32) = false :=
  ⟨rfl, rfl, rfl, rfl, rfl, rfl, rfl, rfl, rfl, rfl, rfl, rfl, rfl, rfl, rfl, rfl, rfl⟩

section

-- `decide +kernel` waits for what stands before it: one theorem after the other, not a thread for each
set_option Elab.async false

/-! Witnesses: for every statement with hypotheses, a state and operands that meet them together; of a statement with several
clauses, one for each. -/

/-- A machine past its first windows, cores 0 to 3 enabled, whose core 0 runs thread t. -/
def Witness.run (t : Thread) : State :=
  setThread { State.reset with todo := [], now := 70000, plat := { Platform.reset with yield_ := 15 } } 0 t

/-- A thread of core 0 that has just started, in a job that may use the fabric. -/
def Witness.t : Thread :=
  { Thread.start 0 0 [] { JobRegs.reset with jobid := 1, asid := 1 } 0 0 1 [8] (some 4) 0 with phase := .running }

def Witness.s : State := Witness.run Witness.t

/-- The guard that is always true, and the one that is always false. -/
def Witness.g : Guard := ⟨false, 0⟩
def Witness.no : Guard := ⟨true, 0⟩

/-- A header of an M slot, a V slot and an X slot of one beat. -/
def Witness.m : MHdr := ⟨false, Witness.g, false⟩
def Witness.v : VHdr := ⟨Witness.g, false, 0⟩
def Witness.x : XHdr := ⟨Witness.g, false, 0⟩

/-- The thread with registers, pipeline or sequencer changed. -/
def Witness.regs (f : Vector Word 32 → Vector Word 32) : Thread := { Witness.t with r := { Witness.t.r with s := f Witness.t.r.s } }
def Witness.pipe (f : Pipe → Pipe) : Thread := { Witness.t with x := f Witness.t.x }
def Witness.seq (f : Seqr → Seqr) : Thread := { Witness.t with q := f Witness.t.q }

open Witness

/-- Slots with a scalar or predicate result: the destinations are free (R43, R171). -/
theorem witness_scalarResults : Performs s t g ∧ Fits t (.sreg 1) 1 ∧ Fits t (.sreg 1) 3 ∧ Fits t (.sreg 31) 2 ∧
    Fits t (.preg 1) 1 ∧ Fits t (.preg 0) 2 :=
  ⟨⟨rfl, rfl⟩, ⟨rfl, rfl, by decide⟩, ⟨rfl, rfl, by decide⟩, ⟨rfl, rfl, by decide⟩, ⟨rfl, rfl, by decide⟩, ⟨rfl, rfl, by decide⟩⟩

/-- Bit fields that reach bit 63, and one that would pass it. -/
theorem witness_ShiftsAndBitFields : (60#6).toNat + ((3#6).toNat + 1) ≤ 64 ∧ 64 < (60#6).toNat + ((4#6).toNat + 1) := by decide

theorem witness_ComparisonsAndPredicates : (11#4).toNat ≤ 11 ∧ (2#2) ≠ 3 ∧ inFlight t + 7 ≤ 64 ∧
    (∀ k, 1 ≤ k → k ≤ 7 → collides t (.preg k) (t.x.dc + 1) = false) :=
  ⟨by decide, by decide, by decide, fun k h1 h7 => by interval_cases k <;> rfl⟩

theorem witness_GuardFalse : guardOf (.add no 1 2 3) = some no ∧ threadOf s s.cur = some t ∧ guardTrue t no = false :=
  ⟨rfl, rfl, rfl⟩

/-- COLLIDE: another result is due in s1 in the same cycle. INFLIGHT: 64 results in flight. -/
theorem witness_ScheduleFaultPrecise :
    (let u := pipe (fun x => { x with inflight := [⟨.sreg 1, x.dc + 1, 0, fullMask, 0, 0⟩] })
     Performs (run u) u g ∧ u.handler = false ∧ u.replay = false ∧ collides u (.sreg 1) (u.x.dc + 1) = true) ∧
    (let u := pipe (fun x => { x with inflight := List.replicate 64 ⟨.sreg 2, x.dc + 3, 0, fullMask, 0, 0⟩ })
     Performs (run u) u g ∧ collides u (.sreg 1) (u.x.dc + 1) = false ∧ 64 ≤ inFlight u) :=
  ⟨⟨⟨rfl, rfl⟩, rfl, rfl, rfl⟩, ⟨rfl, rfl⟩, rfl, by decide⟩

theorem witness_ScalarFrame : slotKind (.mul g 1 2 3) = some .s1 ∧ s1Only (.mul g 1 2 3) = false ∧ threadOf s s.cur = some t ∧
    t.handler = false ∧ ∃ s', exec (.mul g 1 2 3) s = .next s' := ⟨rfl, rfl, rfl, rfl, _, rfl⟩

/-- A result that is due, and one that is due a cycle later. -/
theorem witness_ResultWritten :
    (let u := pipe (fun x => { x with inflight := [⟨.sreg 3, x.dc, BitVec.ofNat 2048 7, fullMask, 0, 0⟩] })
     threadOf (run u) 0 = some u ∧ u.x.inflight = [⟨.sreg 3, u.x.dc, BitVec.ofNat 2048 (7#64).toNat, fullMask, 0, 0⟩]) ∧
    (let u := pipe (fun x => { x with inflight := [⟨.sreg 3, x.dc + 1, BitVec.ofNat 2048 7, fullMask, 0, 0⟩] })
     threadOf (run u) 0 = some u ∧ u.x.dc < u.x.dc + 1) :=
  ⟨⟨rfl, rfl⟩, rfl, by decide⟩

/-- Branches within a segment of four bundles, at the last index and at the first beyond; loops of one and two iterations. -/
def Witness.four : Segment := ⟨0x100, none, none, 4, false, false, 0, 0, List.replicate 4 []⟩

theorem witness_Transfers :
    let u := seq (fun q => { q with buf := four, loops := [(3, 2)] })
    Performs (run u) u g ∧ (3#6).toNat < u.q.buf.count ∧ u.q.loops.length < 6 ∧ u.q.loops = [(3, 2)] ∧ 1 < 2 ∧ 3 < u.q.buf.count ∧
      (seq (fun q => { q with buf := four, loops := [(0, 1)] })).q.loops = [(0, 1)] :=
  ⟨⟨rfl, rfl⟩, by decide, by decide, rfl, by decide, by decide, rfl⟩

theorem witness_TransferTraps :
    let u := seq (fun q => { q with buf := four, loops := List.replicate 6 (0, 1) })
    Performs (run u) u g ∧ u.handler = false ∧ u.replay = false ∧ u.q.buf.count ≤ (4#6).toNat ∧ (3#6).toNat < u.q.buf.count ∧
      u.q.loops ≠ [] ∧ u.q.loops.length = 6 ∧ (1#9) ≠ 0 ∧ (seq (fun q => { q with buf := four })).q.loops = [] :=
  ⟨⟨rfl, rfl⟩, rfl, rfl, by decide, by decide, by decide, by decide, by decide, rfl⟩

/-- The segment at 0x200 stands in the idle half; s[1] holds its address, s[2] that of its bundle 4. -/
def Witness.other : Segment := { four with addr := 0x200 }

theorem witness_SegmentTransfers :
    let u : Thread := { regs (fun r => (r.set 1 0x200).set 2 0x204) with
      q := { t.q with buf := { four with taken := 0x200 }, next := some other } }
    Performs (run u) u g ∧ u.q.next = some other ∧ other.addr ≠ 0 ∧ other.fetch = none ∧ other.bad = none ∧ Fits u (.sreg 5) 1 ∧
      other.addr = u.q.buf.taken ∧ other.addr = sreg u 1 ∧ (sreg u 1).toNat < 2 ^ 56 ∧ (sreg u 1).toNat % 64 = 0 ∧
      other.addr.toNat = (sreg u 2).toNat / 64 * 64 ∧ (sreg u 2).toNat % 64 ≤ other.count :=
  ⟨⟨rfl, rfl⟩, rfl, by decide, rfl, rfl, ⟨rfl, rfl, by decide⟩, rfl, rfl, by decide, by decide, by decide, by decide⟩

theorem witness_EndAndTrap : Performs s t g ∧ (∀ q ∈ t.reqs, q.due.isNone = true → q.landed = true → q.fault.isNone = true) ∧
    t.handler = false ∧ t.replay = false := ⟨⟨rfl, rfl⟩, (fun _ h => nomatch h), rfl, rfl⟩

theorem witness_NoEffect : threadOf s s.cur = some t ∧ t.x.vEnd ≤ t.x.dc ∧ t.x.xEnd ≤ t.x.dc ∧ t.x.xop = none :=
  ⟨rfl, by decide, by decide, rfl⟩

/-- A thread in ANM mode, so that small addresses are those of the own slice (R13). -/
def Witness.near : Thread := { t with anm := true }

/-- A counted load, a fixed one and a timed one, at the last doubleword of the slice. -/
theorem witness_LoadsIssue :
    let u : Thread := { near with r := { t.r with s := t.r.s.set 6 0x7FFFF8 } }
    Performs (run u) u g ∧ u.x.xop = none ∧ accessAddress u 6 0 8 = 0x7FFFF8 ∧
      slotPlace (run u) u false .read (accessAddress u 6 0 8) = .ok (Place.direct 0x7FFFF8) ∧ inSram 0x7FFFF8 = true ∧
      loadLanding u 0 0 = .ok ⟨0, false⟩ ∧ Lands u ⟨0, false⟩ 1 [.sreg 7] ∧
      loadLanding u 3 0 = .ok ⟨5, true⟩ ∧ Lands u ⟨5, true⟩ 1 [.sreg 7] ∧
      loadLanding u 1 9 = .ok ⟨9, false⟩ ∧ Lands u ⟨9, false⟩ 1 [.sreg 7] :=
  ⟨⟨rfl, rfl⟩, rfl, by decide, rfl, rfl, rfl, ⟨by decide, by decide, by decide⟩, rfl, ⟨by decide, by decide, by decide⟩, rfl,
    ⟨by decide, by decide, by decide⟩⟩

theorem witness_StoresIssue :
    Performs (run near) near g ∧ near.x.xop = none ∧ slotPlace (run near) near false .write (accessAddress near 6 1 4) = .ok (Place.direct 4) ∧
      inSram 4 = true ∧ outstanding near 2 < 63 := ⟨⟨rfl, rfl⟩, rfl, rfl, rfl, by decide⟩

/-- One row of 256 bytes at offset 0, into the last row of a tile. -/
def Witness.row : Part := partAt 0 (Place.direct 0) 256 0

theorem witness_RowsIssue :
    Performs (run near) near g ∧ near.x.xop = none ∧ (∀ p ∈ [Witness.row], inSram p.pa = true ∧ 0 < p.len) ∧
      allRows (run near) near false .read 6 7 true 1 = .ok [Witness.row] ∧ rowLanding near 0 0 = .ok ⟨0, false⟩ ∧
      Lands near ⟨0, false⟩ 3 [.trow 63] ∧ (∀ p ∈ [Witness.row], tileRead near (.trow (63 + p.row)) (near.x.dc + p.row / 4 + 5) = false) ∧
      allRows (run near) near false .write 6 7 false 1 = .ok [{ Witness.row with sent := false }] ∧ outstanding near 3 < 63 ∧
      landsBefore 0 near 63 near.x.dc = false :=
  ⟨⟨rfl, rfl⟩, rfl, by decide, rfl, rfl, ⟨by decide, by decide, by decide⟩, by decide, rfl, by decide, rfl⟩

/-- A request of a thread: part p of its kind, counted, with nothing else outstanding. -/
def Witness.req (k : ReqKind) (d : Dest) (p : Part) : Req :=
  { id := 0, kind := k, cls := 1, dest := d, due := none, fixed := false, timed := false, ord := 0, scope := 0, pos := 0,
    issued := 0, parts := [p], fault := none, landed := false }

def Witness.asks (q : Req) : Thread := { t with reqs := [q], nextReq := 1, x := { t.x with dc := 3 } }

/-- ATOM with and without a result; FENCE with nothing outstanding, and behind a load of an earlier bundle. -/
theorem witness_AtomAndFence :
    Performs (run near) near g ∧ near.x.xop = none ∧ slotPlace (run near) near false .atomic 0 = .ok (Place.direct 0) ∧
      (Place.direct 0).dev = none ∧ inSram (Place.direct 0).pa = true ∧ outstanding near 1 < 63 ∧ outstanding near 2 < 63 ∧
      near.reqs = [] ∧ near.phase = .running ∧
      (let q := Witness.req (.load 8 false) (.sreg 7) (partAt 0 (Place.direct 0) 8)
       Performs (run (asks q)) (asks q) g ∧ q ∈ (asks q).reqs ∧ q.issued ≠ (asks q).x.dc ∧ performed q = false) :=
  ⟨⟨rfl, rfl⟩, rfl, rfl, rfl, rfl, by decide, by decide, rfl, rfl, ⟨rfl, rfl⟩, List.mem_singleton_self _, by decide, rfl⟩

/-- A load of the own slice, and one of core 1's slice whose turn it is there. -/
theorem witness_LoadPerformed :
    ∀ pa ∈ [0x40, 0x800040],
      let p := { partAt 0 (Place.direct pa) 8 with unchk := true }
      let q := Witness.req (.load 8 true) (.sreg 7) p
      threadOf (run (asks q)) 0 = some (asks q) ∧ OnlyReq (asks q) q ∧ SoundWord (run (asks q)) p ∧
        heldBack (run (asks q)) 0 (asks q) q 0 p = false ∧ HasTurn (run (asks q)) 0 q p := by
  intro pa h
  fin_cases h
  · exact ⟨rfl, ⟨List.mem_singleton_self _, fun r hr _ => List.mem_singleton.mp hr⟩, ⟨rfl, by decide +kernel, by decide, by decide, rfl⟩, by decide +kernel,
      fun h b hc => nomatch hc⟩
  · exact ⟨rfl, ⟨List.mem_singleton_self _, fun r hr _ => List.mem_singleton.mp hr⟩, ⟨rfl, by decide +kernel, by decide, by decide, rfl⟩, by decide +kernel,
      fun h b hc => by injection hc with hc; injection hc with h1 h2; subst h1 h2; decide +kernel⟩

theorem witness_StorePerformed :
    let p := { partAt 0 (Place.direct 0x800040) 4 0x1234 with unchk := true }
    let q := { Witness.req (.store 4) .none p with cls := 2 }
    threadOf (run (asks q)) 0 = some (asks q) ∧ OnlyReq (asks q) q ∧ SoundWord (run (asks q)) p ∧
      heldBack (run (asks q)) 0 (asks q) q 0 p = false ∧ HasTurn (run (asks q)) 0 q p ∧ Memory.wf (run (asks q)).mem = true :=
  ⟨rfl, ⟨List.mem_singleton_self _, fun r hr _ => List.mem_singleton.mp hr⟩, ⟨rfl, by decide +kernel, by decide, by decide, rfl⟩, by decide +kernel,
    fun h b hc => by injection hc with hc; injection hc with h1 h2; subst h1 h2; decide +kernel, rfl⟩

/-- Core 0 accesses a granule that the thread with TID 5 wrote last. -/
def Witness.raced (q : Req) : State := { run (asks q) with tags := [(1, { Tag.empty with wk := 1, wid := 5, wn := 9 })] }

theorem witness_RaceRefused :
    ∀ k ∈ [ReqKind.load 8 false, .store 8],
      let p := partAt 0x40 (Place.direct 0x40) 8
      let q := Witness.req k .none p
      threadOf (raced q) 0 = some (asks q) ∧ OnlyReq (asks q) q ∧ heldBack (raced q) 0 (asks q) q 0 p = false ∧
        HasTurn (raced q) 0 q p ∧
        (match touchAt (withDet (atTurn (raced q) 0 q p) 0 (acquireDet (atTurn (raced q) 0 q p) 0 q p)) 0 .load p with
          | .error f => f.cls = 9
          | .ok _ => False) ∧
        (match touchAt (atTurn (raced q) 0 q p) 0 .store p with
          | .error f => f.cls = 9
          | .ok _ => False) := by
  intro k h
  fin_cases h <;>
    exact ⟨rfl, ⟨List.mem_singleton_self _, fun r hr _ => List.mem_singleton.mp hr⟩, by decide +kernel, fun h b hc => (nomatch hc), rfl, rfl⟩

theorem witness_AddressTests : Performs s t g ∧ Fits t (.sreg 3) 2 ∧ Fits t (.preg 3) 2 ∧
    localOffset s t (sreg t 6) = .ok none ∧ clusterOffset s t (sreg t 6) = .ok none ∧
    (let u := regs (fun r => r.set 6 0x80000000000040)
     localOffset (run u) u (sreg u 6) = .ok (some 0x40) ∧ clusterOffset (run u) u (sreg u 6) = .ok (some 0x40)) :=
  ⟨⟨rfl, rfl⟩, ⟨rfl, rfl, by decide⟩, ⟨rfl, rfl, by decide⟩, rfl, rfl, by decide +kernel, by decide +kernel⟩

/-- All counters at zero; one load outstanding against a bound of 0. -/
theorem witness_WaitIssues : Performs s t g ∧ outstanding t 1 ≤ (0#4).toNat ∧ outstanding t 2 ≤ (14#4).toNat ∧
    (15#4 = 15) ∧ copyCount s t ≤ (0#4).toNat ∧ (∀ q ∈ t.reqs, q.fault = none) ∧
    (let q := Witness.req (.load 8 false) (.sreg 7) (partAt 0 (Place.direct 0) 8)
     Performs (run (asks q)) (asks q) g ∧ (0#4) ≠ 15 ∧ (0#4).toNat < outstanding (asks q) 1) :=
  ⟨⟨rfl, rfl⟩, by decide, by decide, rfl, by decide, (fun _ h => nomatch h), ⟨rfl, rfl⟩, by decide, by decide⟩

/-- MON of the own slice; MWAIT with an entry fired, with one armed, and with none. -/
theorem witness_MonAndMwait :
    (Performs (run near) near g ∧ near.watch.length = 8 ∧ slotPlace (run near) near false .read 0 = .ok (Place.direct 0) ∧
      (Place.direct 0).dev = none ∧ (readPa (run near) (whoCore 0) 0 8 0).2 = run near ∧ (readPa (run near) (whoCore 0) 0 8 0).1.err = none) ∧
    (let armed : Thread := { t with watch := t.watch.set 0 { Watch.free with state := 1 } }
     let fired : Thread := { t with watch := t.watch.set 7 { Watch.free with state := 2 } }
     let lost : Thread := { t with watch := t.watch.set 3 { Watch.free with recycled := true } }
     Performs (run armed) armed g ∧ Performs (run fired) fired g ∧ Performs (run lost) lost g ∧ armed.watch.length = 8 ∧
       fired.watch.length = 8 ∧ lost.watch.length = 8 ∧ (armed.watch.map (·.state))[0]? = some 1 ∧
       (fired.watch.map (·.state))[7]? = some 2 ∧ (lost.watch.map (·.recycled))[3]? = some true ∧
       (t.watch.map (·.state)) = List.replicate 8 0 ∧ armed.spurious = false) :=
  ⟨⟨⟨rfl, rfl⟩, rfl, rfl, rfl, by decide +kernel, by decide +kernel⟩, ⟨rfl, rfl⟩, ⟨rfl, rfl⟩, ⟨rfl, rfl⟩, rfl, rfl, rfl, rfl, rfl, rfl, rfl, rfl⟩

/-- Core 0's probe cache of one set, enabled, with slot 5 holding block 0 in a state, or every slot in one state. -/
def Witness.cache (slots : Map PSlot) (queue : List POp) : State :=
  modProbe s 0 (fun p => { p with cfg := 1, slots := slots, queue := queue })
def Witness.slot (state : Nat) : PSlot := { PSlot.invalid with state := state, va := 0, asid := 1 }
def Witness.full : List POp := List.replicate 32 (newWriteBack 0 PSlot.invalid (deviceIssuer 0))

theorem witness_ProbeCacheSlots :
    (Performs (cache [] []) t g ∧ probeBlock t 6 = .ok 0 ∧ ∀ S : State, fillBar S t false 0 = .ok none) ∧
    (∀ st ∈ [1, 2, 3, 4], threadOf (cache [(5, slot st)] []) 0 = some t ∧ (coreOf (cache [(5, slot st)] []) 0).probe.cfg.getLsbD 0 = true ∧ slotFor (cache [(5, slot st)] []) 0 1 0 = some 5 ∧
      (slotOf (cache [(5, slot st)] []) 0 5).state = st) ∧
    ((0#6).toNat < (seq (fun q => { q with buf := four })).q.buf.count ∧ inFlight t + 3 ≤ 64 ∧ Fits t (.sreg 30) 2 ∧ Fits t (.sreg 31) 2) ∧
    ((coreOf s 0).probe.cfg.getLsbD 0 = false ∧ slotFor s 0 1 0 = none) ∧
    (slotFor (cache ((List.range 8).map (fun j => (j, { slot 1 with va := 0x800 }))) []) 0 1 0 = none ∧
      ∀ w, w < 8 → (slotOf (cache ((List.range 8).map (fun j => (j, { slot 1 with va := 0x800 }))) []) 0 w).state = 1) ∧
    (slotFor (cache [] []) 0 1 0 = none ∧ (slotOf (cache [] []) 0 7).state = 0 ∧ probeQueued (coreOf (cache [] []) 0).probe = 0) ∧
    probeQueued (coreOf (cache [] full) 0).probe = 32 :=
  ⟨⟨⟨rfl, rfl⟩, rfl, fun _ => rfl⟩, by decide +kernel, ⟨by decide, by decide, ⟨rfl, rfl, by decide⟩, ⟨rfl, rfl, by decide⟩⟩, ⟨by decide +kernel, by decide +kernel⟩,
    ⟨by decide +kernel, by decide +kernel⟩, ⟨by decide +kernel, by decide +kernel, by decide +kernel⟩, by decide +kernel⟩

theorem witness_quiet : Quiet t := ⟨rfl, rfl, rfl, rfl, rfl, rfl, rfl, rfl, rfl, by decide, by decide⟩

/-- Vector operations at the last row, and with the operand B row of the whole operation within its tile or fixed. -/
theorem witness_VectorSlots : threadOf s s.cur = some t ∧ guardTrue t v.g = true ∧ (63#6).toNat + (v.beats.toNat + 1) ≤ 64 ∧
    fmtVF t.c.fmt ≤ 2 ∧ (3#3).toNat ≤ 3 ∧ (⟨g, false, 63⟩ : VHdr).beats = 63 ∧ (0#6).toNat + ((⟨g, false, 63⟩ : VHdr).beats.toNat + 1) ≤ 64 :=
  ⟨rfl, rfl, by decide, by decide, by decide, rfl, by decide⟩

/-- FP32 elements: a VCVT of four beats to bytes; a reduction to the last element; MX and DEB packs with the scales in the
row after the packed ones. -/
theorem witness_VectorConversions :
    (WellFormed (.vcvt ⟨g, false, 3⟩ 0 63 0 60 0 3) = true ∧ 60 + 3 * 64 * 4 / 256 < 64 ∧ 63 + 3 * 64 * 1 / 256 < 64) ∧
    (vfBits t.c.fmt = 32 ∧ 63 + 1 ≤ 64 ∧ (63#7).toNat + 1 ≤ 2048 / vfBits t.c.fmt) ∧
    (7 ≤ (9#4).toNat ∧ (11#4).toNat ≤ 11 ∧ 0 + (4 * 64 + 320 - 1) / 320 ≤ 64 ∧ 0 + 4 ≤ 64 ∧ ¬ (0 ≤ 1 ∧ 1 < 0 + (4 * 64 + 320 - 1) / 320)) ∧
    (4 % (vfBits t.c.fmt / 8) = 0 ∧ 4 / (vfBits t.c.fmt / 8) ≤ 16) :=
  ⟨by decide, by decide +kernel, by decide, by decide +kernel⟩

theorem witness_VectorLaterBeat :
    let u := pipe (fun x => { x with vop := some ⟨.vmov ⟨g, false, 3⟩ 0 0 1 0, 1, 4, 0, 0, 0, [], true⟩ })
    threadOf (run u) 0 = some u ∧ u.uncov = [] ∧ (u.x.vop.map (fun v => (v.go, v.i))) = some (true, .vmov ⟨g, false, 3⟩ 0 0 1 0) :=
  ⟨rfl, rfl, rfl⟩

/-- FMT names BF16 for both operands; one beat, and the limits of ZOUT at their ends. -/
theorem witness_MatrixIssue :
    let u : Thread := { t with c := { t.c with fmt := 0x11 } }
    threadOf (run u) 0 = some u ∧ guardTrue u x.g = true ∧ Quiet u ∧ matrixPair u.c.fmt = true ∧ u.tide.pending = [] ∧
      x.beats.toNat + 1 = 1 ∧ (63#6).toNat + (x.beats.toNat + 1) ≤ 64 :=
  ⟨rfl, rfl, ⟨rfl, rfl, rfl, rfl, rfl, rfl, rfl, rfl, rfl, by decide, by decide⟩, by decide, rfl, by decide, by decide⟩

theorem witness_MatrixBeats_zout :
    let o : XOp := xopOf t (.zout x 0 1 0 0 4) x 1 0 0 0 0 0 0 0
    let u := pipe (fun y => { y with xop := some o })
    threadOf (run u) 0 = some u ∧ u.x.xop = some o ∧ o.fault = none ∧ o.i = .zout x 0 1 0 0 4 ∧ (4#4).toNat ≤ 4 :=
  ⟨rfl, rfl, rfl, rfl, by decide⟩

/-- Whether an operation goes on, with a result that satisfies p. -/
def Witness.given {α : Type} (r : Except Attn α) (p : α → Bool) : Bool :=
  match r with
  | .ok x => p x
  | .error _ => false

/-- COPY, CLOSE with and without an open batch, WAITL reached and not reached. -/
theorem witness_CopySlots :
    Performs s t g ∧ t.chans[(0#2).toNat]? = some 8 ∧ (engineOf s 8).chains.length < 16 ∧ t.openB = [] ∧
      ({ t with openB := [(8, 1)] }).openB ≠ [] ∧ t.closedB.length < 15 ∧
      waitlCtx s.cur t 0 0 = .ok (some 8) ∧ waitlCtx s.cur t 4 0 = .ok (some 4) ∧ waitlCtx s.cur t 5 0 = .ok (some 5) ∧
      waitlCtx s.cur t 6 0 = .ok none ∧ Fits t (.preg 1) 2 ∧ (sreg t 9).toNat ≤ timelineOf s 8 ∧
      timelineOf s 8 < (sreg (regs (fun r => r.set 9 1)) 9).toNat :=
  ⟨⟨rfl, rfl⟩, rfl, by decide +kernel, rfl, by decide, by decide, rfl, rfl, rfl, rfl, ⟨rfl, rfl, by decide⟩, by decide +kernel, by decide +kernel⟩

/-- A barrier at offset 0x40 of the own slice, counts 1 and 2^28 - 1 and the first that is too large, the least sectors. -/
def Witness.bar (n sec : Word) : Thread := regs (fun r => ((r.set 6 0x8000000000004F).set 7 n).set 8 sec)

theorem witness_BarrierSlots_a :
    (∀ n ∈ [1, 0xFFFFFFF], ∀ sec ∈ [0, 0xFFFFFFFF80000000, 0x7FFFFFFF],
      threadOf (run (bar n sec)) 0 = some (bar n sec) ∧ sreg (bar n sec) 7 = n ∧ sreg (bar n sec) 8 = sec ∧
        outstanding (bar n sec) 2 = 0) ∧
    sreg (bar 1 0) 6 &&& ~~~(15#64) = 0x80000000000040 ∧ (0xFFFFFFF#64).toNat < 2 ^ 28 ∧
    -(2 ^ 31 : Int) ≤ (0xFFFFFFFF80000000#64).toInt ∧ (0x7FFFFFFF#64).toInt < 2 ^ 31 :=
  ⟨fun n _ sec _ => ⟨rfl, rfl, rfl, rfl⟩, by decide +kernel, by decide, by decide, by decide⟩

theorem witness_BarrierSlots_b :
    threadPlace (run (bar 1 0)) (bar 1 0) .mem 0 .write 0x80000000000040 = .ok (Place.direct 0x40) ∧
    threadPlace (run (bar 1 0)) (bar 1 0) .mem 0 .atomic 0x80000000000040 = .ok (Place.direct 0x40) ∧
    threadPlace (run (bar 1 0)) (bar 1 0) .mem 0 .read 0x80000000000040 = .ok (Place.direct 0x40) ∧
    (Place.direct 0x40).dev = none ∧ inSram (Place.direct 0x40).pa = true ∧
    (2 ^ 28 ≤ (sreg (bar 0x10000000 0) 7).toNat ∧ (bar 0x10000000 0).handler = false ∧ (bar 0x10000000 0).replay = false) :=
  ⟨rfl, rfl, rfl, rfl, rfl, by decide +kernel⟩

theorem witness_BarrierSlots_c :
    given (barWord (run (bar 1 0)) (bar 1 0) 0x80000000000040 0x40) (fun v => !barEnded (barOf v) 0 && barEnded (barOf v) 15) = true ∧
    (readBar (run (bar 1 0)) (whoCore 0) 0x40 0x80000000000040).2 = run (bar 1 0) :=
  ⟨by decide +kernel, by decide +kernel⟩

/-- Group 3 of the job has one member, which is not this thread, or is it, with its arrival open, pending or complete. -/
def Witness.group (phase : Nat) (ms : List Membership) : State :=
  { run { t with groups := ms } with
    groups := [(3, ⟨phase, [⟨t.frame, if ms.isEmpty then 9 else t.det.tid, 0, false, false, [], 1⟩], false, [], [], none⟩)] }

theorem witness_GroupSlots :
    (∀ ms ∈ [([] : List Membership), [⟨3, 0, false, false⟩], [⟨3, 0, true, true⟩]], ∀ phase ∈ [0, 1],
      threadOf (group phase ms) 0 = some { t with groups := ms } ∧ ms.length < 8 ∧ (groupOf (group phase ms) 0 3).members ≠ [] ∧
        groupRoot (group phase ms) (t.regs.jobid.toNat % 2 ^ 16) 3 = none ∧ (groupOf (group phase ms) 0 3).phase = phase ∧
        outstanding { t with groups := ms } 0 < 63) ∧
    (sreg (regs (fun r => r.set 6 0x10003)) 6).toNat % 2 ^ 16 = 3 ∧ Fits t (.preg 1) 2 :=
  ⟨by decide +kernel, by decide +kernel, ⟨rfl, rfl, by decide⟩⟩

/-- AMARK's range of 2^32 bytes, and its lists full. -/
theorem witness_RegisterSlots :
    Performs s t g ∧ Fits t (.sreg 1) 1 ∧ Fits t (.sreg 1) 2 ∧ Fits t (.preg 1) 2 ∧ inFlight t + 2 ≤ 64 ∧ t.replay = false ∧
      t.sampled = false ∧ t.auditIn.length < 8 ∧ t.auditOut.length < 8 ∧
      (let u := regs (fun r => r.set 7 0x100000000)
       1 ≤ (sreg u 7).toNat ∧ (sreg u 7).toNat ≤ 2 ^ 32) ∧ (sreg t 7).toNat = 0 ∧
      8 ≤ ({ t with auditIn := List.replicate 8 (0, 1) }).auditIn.length :=
  ⟨⟨rfl, rfl⟩, ⟨rfl, rfl, by decide⟩, ⟨rfl, rfl, by decide⟩, ⟨rfl, rfl, by decide⟩, by decide, rfl, rfl, by decide, by decide,
    by decide +kernel, by decide +kernel, by decide⟩

/-- A window of 16 slots that wraps past slot 2,559: its index 15 lies in it, 16 does not. -/
def Witness.window : Thread :=
  { regs (fun r => ((r.set 6 15).set 7 16).set 8 0x80000000000040) with
    regs := { t.regs with eddyJob := 1, eddyBase := 2550, eddyCount := 16 } }

theorem witness_EddySlots :
    Performs (run window) window g ∧ eddyWindow window (sreg window 6) = .ok 5 ∧ eddyWindow window 0 = .ok 2550 ∧
      (coreOf (run window) 0).taps.length < 8 ∧ queueLanding window false 0 = .ok ⟨0, false⟩ ∧
      Lands window ⟨0, false⟩ 1 [.sreg 9] ∧ Lands window ⟨0, false⟩ 1 [.trow 63] ∧ outstanding window 2 < 63 ∧
      threadPlace (run window) window .mem 0 .write (sreg window 8 &&& ~~~(63#64)) = .ok (Place.direct 0x40) ∧
      (Place.direct 0x40).dev = none ∧ inSram (Place.direct 0x40).pa = true ∧ xOverlaps (run window) 0 window 0x40 64 = false ∧
      Fits window (.sreg 9) 2 ∧ wf 15 0 window.regs.eddyJob ≠ 0 ∧ eddyCount window ≤ (sreg window 7).toNat ∧
      window.handler = false ∧ window.replay = false :=
  ⟨⟨rfl, rfl⟩, rfl, rfl, by decide +kernel, rfl, ⟨by decide, by decide, by decide⟩, ⟨by decide, by decide, by decide⟩, by decide,
    rfl, rfl, rfl, by decide +kernel, ⟨rfl, rfl, by decide⟩, by decide +kernel, by decide +kernel, rfl, rfl⟩

/-- A subscription that may board, one that is armed and short of a tile, and a handler's. -/
def Witness.boards : Thread := regs (fun r => (((r.set 6 0xFFFF).set 7 0).set 8 0xFFFFFF).set 9 4096)

theorem witness_TideSlots :
    Performs (run boards) boards g ∧ boards.tide.pending = [] ∧ boards.tide.state = 0 ∧ (sreg boards 6).toNat ≤ 65535 ∧
      (sreg boards 7).toNat ≤ (sreg boards 8).toNat ∧ (sreg boards 8).toNat < 2 ^ 24 ∧ 1 ≤ (sreg boards 9).toNat ∧
      (sreg boards 9).toNat ≤ 4096 ∧ Fits boards (.sreg 10) 1 ∧ boards.tide.layer < 2 ^ 16 ∧ boards.tide.buf.length ≤ 8 ∧
      (0#4).toNat ≤ boards.tide.buf.length ∧ boards.tide.buf.length < (1#4).toNat ∧ boards.tide.absent = false ∧
      ({ boards.tide with state := 1 }).state = 1 ∧ boards.x.xop = none ∧ boards.handler = false ∧
      (let u : Thread := { t with handler := true }
       Performs (run u) u g ∧ u.handler = true ∧ u.x.xop = none ∧
         ((mget u.frame { run u with saved := [(0, ⟨t, false, none, true, 0⟩)] }.saved).isSome = true)) :=
  ⟨⟨rfl, rfl⟩, rfl, rfl, by decide +kernel, by decide +kernel, by decide +kernel, by decide +kernel, by decide +kernel,
    ⟨rfl, rfl, by decide⟩, by decide, by decide, by decide, by decide, rfl, rfl, rfl, rfl, ⟨rfl, rfl⟩, rfl, rfl, rfl⟩

/-- The fabric TLB of core 0 holds the page at 0x10000 with RWIN; the reduction window is that page. -/
def Witness.fabric : Thread :=
  { regs (fun r => (((r.set 6 0x1FF80).set 7 0x1000000).set 8 0x80000000000040).set 9 0x20000) with
    regs := { t.regs with ttbase := 1, rwinBase := 0x10000, rwinSize := 0x10000 } }
def Witness.fabricS : State :=
  { run fabric with tlbs := [(cacheKey 0 4, [⟨1, 0x10000, 16, 0, 0, 0, 0x2000, 0x2000⟩])] }

theorem witness_FabricSlots :
    Performs fabricS fabric g ∧ fabricJob fabric = true ∧ fabric.fab = some 4 ∧ (engineOf fabricS 4).ops.length < 16 ∧
      (sreg fabric 7).toNat ≤ 2 ^ 24 ∧
      (leafNow fabricS fabric (sreg fabric 6 &&& ~~~(127#64))).any (·.rwin) = true ∧
      wf 55 16 fabric.regs.rwinBase * 65536 ≤ (sreg fabric 6 &&& ~~~(127#64)).toNat ∧
      (sreg fabric 6 &&& ~~~(127#64)).toNat < (wf 55 16 fabric.regs.rwinBase + wf 39 16 fabric.regs.rwinSize) * 65536 ∧
      leafNow (run t) t 0x10000 = none ∧
      threadPlace fabricS fabric .fabric 8 .atomic (sreg fabric 8 &&& ~~~(BitVec.ofNat 64 7)) = .ok (Place.direct 0x40) ∧
      inSram (Place.direct 0x40).pa = true ∧ queueLanding fabric false 9 = .ok ⟨9, false⟩ ∧ Lands fabric ⟨9, false⟩ 1 [.sreg 9] ∧
      Lands fabric ⟨0, false⟩ 2 [.none] :=
  ⟨⟨rfl, rfl⟩, by decide +kernel, rfl, by decide +kernel, by decide +kernel, by decide +kernel, by decide +kernel, by decide +kernel,
    by decide +kernel, rfl, rfl, rfl, ⟨by decide, by decide, by decide⟩, ⟨by decide, by decide, by decide⟩⟩

def Witness.poster : Thread := { regs (fun r => r.set 6 0x80000000000040) with groups := [⟨0, 0, false, false⟩] }

/-- A record of zeros for any core of die 0, and a descriptor of one rank and one element of group 0. -/
def Witness.block (mem : List Host.Cell) : State :=
  { run poster with mem := mem }

theorem witness_EnqueueAndCollective :
    Performs (block []) poster g ∧ fabricJob poster = true ∧
      given (readBlock (block []) poster 0x80000000000040 64) (fun r => recordOk r.2 r.1 && recKind r.1 != 3 && recBar r.1 == none &&
        !(recCores r.2 (recDie r.1) r.1).isEmpty && !schedFull (dieOf r.2 (recDie r.1)) && threadOf r.2 r.2.cur == some poster) = true ∧
      outstanding poster 0 < 63 ∧
      given (readBlock (block [(0x46, 1), (0x58, 1)]) poster 0x80000000000040 64) (fun r => collOk r.1 &&
        (membership poster (collDesc r.1).group).isSome && threadOf r.2 r.2.cur == some poster) = true ∧ Fits poster (.sreg 7) 2 :=
  ⟨⟨rfl, rfl⟩, by decide +kernel, by decide +kernel, by decide, by decide +kernel, ⟨rfl, rfl, by decide⟩⟩

/-- A privileged thread with no TLBI under way, one that has not been completed, a handler, and a thread without privilege. -/
theorem witness_PrivilegedSlots :
    (let u : Thread := { t with regs := { t.regs with priv := 1 } }
     threadOf (run u) 0 = some u ∧ privileged u = true ∧ guardTrue u g = true ∧ u.tlbis.length < 8 ∧
       (∀ k ∈ u.tlbiOps, tlbiDone (run u) k = true) ∧ (crJobWord (0x20#12).toNat).isSome = true ∧ (0x20#12) ≠ 3) ∧
    (let u : Thread := { t with handler := true, tlbiOps := [1] }
     threadOf { run u with tlbis := [⟨1, 3, 0, 0, none, false, []⟩] } 0 = some u ∧ privileged u = true ∧ u.handler = true ∧
       tlbiDone { run u with tlbis := [⟨1, 3, 0, 0, none, false, []⟩] } 1 = false ∧
       (∀ q ∈ u.reqs, q.due.isNone = true → q.landed = true → q.fault.isNone = true)) ∧
    privileged t = false ∧ t.replay = false :=
  ⟨⟨rfl, by decide +kernel, rfl, by decide, (fun _ h => nomatch h), rfl, by decide⟩,
    ⟨rfl, rfl, rfl, by decide +kernel, (fun _ h => nomatch h)⟩, by decide +kernel, rfl⟩

/-- A load whose data is there and whose landing is due, and one whose data is not there yet. -/
def Witness.due (here : Bool) : Thread :=
  asks { Witness.req (.load 4 true) (.sreg 7) { partAt 0 (Place.direct 0x40) 4 0x80000000 with here := here } with due := some 3, timed := true }

def Witness.phased (p : Phase) : Thread := { t with phase := p }

theorem witness_CoreEvents_a :
    threadOf (run (due true)) 0 = some (due true) ∧ landingLate (due true) = false ∧ landingLate (due false) = true ∧
      ((due true).reqs.map (fun q => (q.due, q.dest))) = [(some 3, .sreg 7)] ∧ (due true).x.dc = 3 ∧
      (∀ q ∈ (due true).reqs, OnlyReq (due true) q) ∧
      (let w := { Watch.free with state := 1 }
       ({ t with watch := t.watch.set 7 w }).watch[7]? = some w ∧ w.state = 1 ∧ w.left = 0) ∧
      (∀ code, threadOf (run (phased (.frozen code 65535))) 0 = some (phased (.frozen code 65535))) ∧
      (phased (.frozen 1 0)).handler = false ∧ (phased .stalled).phase = .stalled :=
  ⟨rfl, rfl, rfl, rfl, rfl, (fun _ h => ⟨h, fun _ hr _ => (List.mem_singleton.mp hr).trans (List.mem_singleton.mp h).symm⟩), ⟨rfl, rfl, rfl⟩,
    fun _ => rfl, rfl, rfl⟩

/-- A control line of one bundle and one body line; its first line comes from the own slice. -/
def Witness.ctl : List Byte := [0xB5, 1, 1, 0] ++ List.replicate 60 0

theorem witness_CoreEvents_b :
    segmentLines ctl = 2 ∧ segmentLines (List.replicate 64 0) = 1 ∧ ctl.length / 64 = 1 ∧
      (let u := { t with regs := { t.regs with ttbase := 1 } }
       readLine { run u with tlbs := [(cacheKey 0 0, [⟨1, 0x10000, 16, 0, 0, 0, 0x3F, 0x3F⟩])] } 0 u 0x10000 =
         (.bytes (List.replicate 64 0), { run u with tlbs := [(cacheKey 0 0, [⟨1, 0x10000, 16, 0, 0, 0, 0x3F, 0x3F⟩])] })) ∧
      (let u := seq (fun q => { q with expanding := some ⟨0x80000000000000, 70000, 70000, ctl, ⟨0, []⟩⟩ })
       threadOf (run u) 0 = some u ∧ (run u).now = 70000) :=
  ⟨by decide, by decide, by decide, by decide +kernel, rfl, rfl⟩

/-- An entry of die 0 in a state, its record eight zeros. -/
def Witness.entry (state : Nat) (resume : Option Nat) : Entry :=
  { id := 5, state := state, record := List.replicate 8 0, resume := resume, job := 0, prio := 0, age := 5, readyAt := 0, near := none,
    badr := 0, parent := none, core := 0, replay := none, slot := 0 }
def Witness.dieWith (s : State) (f : Die → Die) : State := modDie s 0 f

theorem witness_CoreEvents_c :
    let S := dieWith (run (phased .restoring)) (fun d => { d with entries := [entry 4 none] })
    threadOf S 0 = some (phased .restoring) ∧
      (dieOf S (coreDie 0)).entries.find? (fun e => e.state == 4 && e.core == 0 && e.resume.isNone) = some (entry 4 none) :=
  ⟨rfl, by decide +kernel⟩

/-- A thread between operations, one that has written its context, one that is restored, one that has ended, and one saved. -/
def Witness.savedS (f : FaultRec) (r : JobRegs) (held : Bool) : State :=
  { State.reset with
    saved := [(t.frame, ⟨{ t with posFault := some f, regs := r }, held, some 5, false, 100⟩)],
    cores := [(0, { Core.reset with trapFrame := some t.frame })] }

theorem witness_SavesAndTraps_a :
    (t.handler = false ∧ coreDie 0 = 0) ∧
    (∀ b : Bool, threadOf (run (phased (.writing b))) 0 = some (phased (.writing b)) ∧ Memory.wf (run (phased (.writing b))).mem = true) ∧
    targetOf (run (phased (.writing true))) (framePa (run (phased (.writing true))) t.frame) = .sram 0 0 ∧
    (threadOf (run (phased .restoring)) 0 = some (phased .restoring) ∧ (phased .restoring).posFault = none ∧ (phased .restoring).reqs = []) ∧
    (endDone (run (phased .ending)) 0 (phased .ending) = true ∧ (phased .ending).groups = [] ∧ (phased .ending).sampled = false ∧
      (phased .ending).replay = false ∧ (phased .ending).timeouts = [] ∧ (phased .ending).tide.pending = [] ∧ (phased .ending).overruns = [] ∧
      t.frame / 4096 < 4) :=
  ⟨⟨rfl, by decide⟩, (fun _ => ⟨rfl, rfl⟩), by decide +kernel, ⟨rfl, rfl, rfl⟩, ⟨by decide +kernel, rfl, rfl, rfl, rfl, rfl, rfl, by decide⟩⟩

theorem witness_SavesAndTraps_b :
    (∀ r ∈ [JobRegs.reset, { JobRegs.reset with trapvec := 0x101 }],
      (coreOf (savedS { cls := 1, cause := 2 } r false) 0).trapFrame = some t.frame ∧
        ((mget t.frame (savedS { cls := 1, cause := 2 } r false).saved).any (fun v => v.thread.posFault.isSome && v.entry == some 5)) = true ∧
        threadOf (savedS { cls := 1, cause := 2 } r false) 0 = none ∧ fqRoom (dieOf State.reset 0) = true) ∧
    ((mget t.frame (savedS { cls := 1, cause := 2 } JobRegs.reset true).saved).any (fun v => v.held && v.entry == some 5)) = true ∧
    (∀ ctx ∈ [0, 4, 16380], ctx < 0x4000 ∧ ctx % 8 < 5 ∧
      (engineOf (modEngine s ctx (fun e => { e with halted := some { cls := 8, cause := 1 } })) ctx).halted.isSome = true) ∧
    ((coreOf (modProbe s 2047 (fun p => { p with halted := some { cls := 8, cause := 1 } })) 2047).probe.halted.isSome = true) :=
  ⟨by decide +kernel, by decide +kernel, by decide +kernel, by decide +kernel⟩

/-- A walk, of a page at 0x10000 that the cluster TLB holds, that a TLBI has overtaken or not. -/
def Witness.ent : TlbEnt := ⟨1, 0x10000, 16, 0, 0, 0, 0x2000, 0x2000⟩
def Witness.walking (stale : Bool) : State :=
  { s with walks := [(7, ⟨1, 0, 0, 0x10000, { JobRegs.reset with ttbase := 1, asid := 1 }, 69000, stale⟩)], tlbs := [(clusterKey 0, [ent])] }

theorem witness_WalksAndInvalidation :
    (∀ b ∈ [true, false], (mget 7 (walking b).walks).any (fun w => w.stale == b && w.ctx == 0) = true ∧
      tlbFind (walking b) (clusterKey 0) 1 0x10000 = some ent ∧ (∀ x ∈ mdel 7 (walking b).walks, x.2.core ≠ 0)) ∧
    tlbFind s (clusterKey 0) 1 0x10000 = none ∧
    (let b : Tlbi := ⟨9, 2, 1, 0, none, false, []⟩
     ({ s with tlbis := [b] }).tlbis.find? (fun b => b.id == 9) = some b ∧ (∀ w ∈ b.waits, retired { s with tlbis := [b] } w = true) ∧ b.frame = none) ∧
    (∀ n ∈ [0, 7, 8], ((List.replicate n ((3, 0, 0) : Nat × Nat × Word)).length < 8 ↔ n ≠ 8)) ∧ s.tlbiq.cmds = [] ∧ (∀ b ∈ s.tlbis, b.frame = none → tlbiDone s b.id = true) :=
  ⟨by decide +kernel, by decide +kernel, ⟨by decide +kernel, (fun _ h => nomatch h), rfl⟩, by decide, rfl, fun _ h => nomatch h⟩

/-- Whether a function's two results satisfy p. -/
def Witness.both {α β : Type} (r : α × β) (p : α → β → Bool) : Bool := p r.1 r.2

theorem witness_MemorySideEvents_a :
    (let S := modCore s 0 (fun k => { k with slice := { k.slice with ecccfg := 0x1000 } })
     (coreOf S 0).slice.ecccfg.getLsbD 0 = false) ∧
    ((coreOf State.reset 5).slice.ecccfg.getLsbD 0 = true ∧ scrubTurn State.reset 5 0 = .now ∧
      mget (5 * 262144 + (coreOf State.reset 5).slice.scrub) State.reset.sramErr = none) ∧
    (let S := modCore State.reset 5 (fun k => { k with slice := { k.slice with taken := [0] } })
     scrubTurn S 5 0 = .refused) :=
  ⟨by decide +kernel, ⟨by decide +kernel, by decide +kernel, by decide +kernel⟩, by decide +kernel⟩

/-- A fill from and a write-back to the own slice, each translated and issued, alone in the queue. -/
def Witness.op (fill : Bool) : POp :=
  { newWriteBack 0 (slot 1) (deviceIssuer 0) with no := 1, fill := fill, place := some (0x40000, none), issued := some 69000, data := List.replicate 2048 7 }

theorem witness_MemorySideEvents_b :
    (∀ b ∈ [true, false], (coreOf (cache [(0, slot 1)] [op b]) 0).probe.halted = none ∧ (coreOf (cache [(0, slot 1)] [op b]) 0).probe.queue = [op b] ∧
      (op b).issued.isSome = true ∧ (op b).done = false ∧ (op b).bar = none ∧ (slotOf (cache [(0, slot 1)] [op b]) 0 0).drop_ = false) ∧
    inHbm 0x40000 = false ∧
    both (readPa (cache [(0, slot 1)] [op true]) (whoCtx (probeCtx 0)) 0x40000 2048 0) (fun g S => g.err == none && S == cache [(0, slot 1)] [op true]) = true :=
  ⟨by decide +kernel, by decide +kernel, by decide +kernel⟩

theorem witness_MemorySideEvents_c :
    (wf 7 4 (0x80#64) ≤ 8 ∧ wf 22 14 (0x80#64) % 2 ^ wf 7 4 (0x80#64) = 0 ∧ threadOf State.reset 0 = none ∧ probeQueued (coreOf State.reset 0).probe = 0) ∧
    (8 < wf 7 4 (0x90#64) ∧ wf 22 14 (0x4010#64) % 2 ^ wf 7 4 (0x4010#64) ≠ 0 ∧ (threadOf s 0).isSome = true ∧ probeQueued (coreOf (cache [] full) 0).probe ≠ 0) ∧
    (∀ pa ∈ [0x40, 0x7FFFF8], inSram pa = true ∧ pa % 8 = 0 ∧ mget (pa / 32) State.reset.sramErr = none ∧
      targetOf s pa = .sram (pa / 0x800000) (pa % 0x800000) ∧ Memory.wf s.mem = true) :=
  ⟨by decide +kernel, by decide +kernel, by decide +kernel⟩

/-- Hart 0 in machine mode, job 0 valid or not; and in user mode with and without delegation. -/
def Witness.hart (mode : Nat) (deleg : Word) : State :=
  { s with harts := s.harts.set 0 { Hart.reset with mode := mode, medeleg := deleg } }
def Witness.posts : State := { hart 3 0 with jobs := [(0, (true, JobRegs.reset))] }

theorem witness_QuokorInstructions_a :
    (hartNow (hart 1 0)).mode ≠ 0 ∧ (hartNow (hart 3 0)).mode ≠ 0 ∧ (hartNow (hart 1 0)).stores = [] ∧ (hart 1 0).hart = 0 ∧
      (jobEntry (hart 1 0) 0).1 = false ∧ (hartNow (hart 0 0)).mode = 0 ∧ (hartNow (hart 0 0)).medeleg = 0 ∧ (hartNow (hart 0 4)).medeleg = 4 :=
  ⟨by decide +kernel, by decide +kernel, rfl, rfl, by decide +kernel, rfl, rfl, rfl⟩

theorem witness_QuokorInstructions_b :
    inSram 0 = true ∧ inHbm 0 = false ∧ (jobEntry posts 0).1 = true ∧
      both (readAny posts whoQuokor 0 64) (fun g S =>
        let ws := (List.range 8).map (fun k => BitVec.ofNat 64 (leNat ((g.bytes.drop (8 * k)).take 8)))
        g.err == none && recordOk S ws && recKind ws != 3 && recBar ws == none &&
          !(recCores S (recDie ws) ws).isEmpty && !schedFull (dieOf S (recDie ws))) = true :=
  ⟨by decide +kernel, by decide +kernel, by decide +kernel, by decide +kernel⟩

theorem witness_QuokorInstructions_c :
    (readAny posts whoQuokor 0 64).2.hart = posts.hart ∧ (readAny posts whoQuokor 0 64).2.harts = posts.harts := ⟨by decide +kernel, by decide +kernel⟩

/-- HBM with two live pseudo-channels, commands free or in a step of a drop, frame 3 live or not. -/
def Witness.hbm (f : Hbm → Hbm) : State := { State.reset with now := 70000, hbm := f { Hbm.reset with live := Hbm.reset.live.set 0 3 } }

theorem witness_HbmCommands :
    (let S := hbm (fun h => { h with frames := [(3, (true, false))] })
     S.hbm.busy = false ∧ nlive S = 2 ∧ (4#24).toNat < nlive S * 12288 ∧ frameLive S 4 = false ∧ frameLive S 3 = true ∧
       (24575#24).toNat < nlive S * 12288 ∧ (∀ f ∈ S.hbm.frames, f.2.1 = true → f.1 / max 1 (nlive S) ≠ (2#24).toNat) ∧
       (liveList S).contains (1#24).toNat = true ∧ (∀ f ∈ S.hbm.frames, f.2.1 = true → f.1 < (nlive S - 1) * 12288)) ∧
    (let S := hbm (fun h => { h with busy := true, making := some (4, true) })
     S.hbm.busy = true ∧ S.hbm.making = some (4, true) ∧ inWindow S = false) ∧
    (∀ k ∈ [1, 2, 3, 5], ∀ g ∈ [1, 0x3FF], (hbm (fun h => { h with busy := true, drop := some (g, k) })).hbm.drop = some (g, k) ∧
      (∀ x ∈ (hbm (fun h => { h with busy := true, drop := some (g, k) })).cores, x.2.thread = none) ∧
      allDrained (hbm (fun h => { h with busy := true, drop := some (g, k) })) = true ∧
      (hbm (fun h => { h with busy := true, drop := some (g, k) })).dredge.drained = false ∧
      allRestored (hbm (fun h => { h with busy := true, drop := some (g, k) })) = true) ∧
    allRestored { hbm (fun h => { h with toRestore := [4] }) with saved := [(4, ⟨t, false, none, false, 0⟩)] } = false :=
  ⟨by decide +kernel, by decide +kernel, by decide +kernel, by decide +kernel⟩

/-- Core 0's thread with a tap operation of a kind at slot k, in job 1, its request outstanding; slot k in a state. -/
def Witness.tapOp (kind k : Nat) (any : Bool) (eligible : Nat) : TapOp :=
  { kind := kind, req := 0, slot := k, any := any, w := 0, base := 0, count := 1, job := 1, variant := 1, field := 7, a := 1, b := 0,
    payload := 5, deposit := none, ord := 0, eligible := eligible, frame := 0 }
def Witness.tapped (o : TapOp) (x : ESlot) : State :=
  let s0 := run (asks (Witness.req .tap (.sreg 7) (partAt 0 (Place.direct 0) 0)))
  { modCore s0 0 (fun k => { k with taps := [o] }) with eddy := { Eddy.reset with slots := [(slotAt s0 (2 * ringPos 0), x)] } }
/-- The slot at core 0's tap. -/
def Witness.here : Nat := slotAt s (2 * ringPos 0)

theorem witness_EddyEvents_a :
    (∀ kind ∈ [0, 1, 2, 3], let S := tapped (tapOp kind here false 69000) ⟨5, 1, if kind = 2 then 0 else 1⟩
      let u := asks (Witness.req .tap (.sreg 7) (partAt 0 (Place.direct 0) 0))
      slotAt S (2 * ringPos 0) = here ∧ (coreOf S 0).taps = [tapOp kind here false 69000] ∧ threadOf S 0 = some u ∧ (reqOf S 0 0).isSome = true ∧
        tapReady u (tapOp kind here false 69000) = true ∧ (eslot S here).state = (if kind = 2 then 0 else 1) ∧ (eslot S here).job.toNat = 1) ∧
    (let o := tapOp 2 0 true 60000
     tapReady t o = true ∧ tapMatches o (eslot (tapped o ⟨0, 1, 1⟩) here) here = false ∧ 60000 + 2559 ≤ (tapped o ⟨0, 1, 1⟩).now ∧ o.eligible ≤ (tapped o ⟨0, 1, 1⟩).now) ∧
    (tapped (tapOp 2 0 true 70001) ⟨0, 1, 1⟩).now < (tapOp 2 0 true 70001).eligible ∧
    tapReady (asks (Witness.req .tap (.sreg 7) (partAt 0 (Place.direct 0) 0))) { tapOp 3 here false 0 with req := 1, ord := 2 } = false :=
  ⟨by decide +kernel, by decide +kernel, by decide +kernel, by decide +kernel⟩

theorem witness_EddyEvents_b :
    (let c := ringCore (2 / 2)
     coreLive s c = true ∧ (coreOf (modCore s c (fun k => { k with taps := [tapOp 3 here false 0] })) c).taps ≠ [] ∧
       (coreOf s c).taps = [] ∧ mget (slotAt s 2) s.eddy.flips = none) ∧
    (coreOf s (ringCore 0)).taps = [] ∧ s.eddy.cmd = none ∧
    (let S : State := { s with eddy := { Eddy.reset with cmd := some (1, 1, 0), slots := [(slotAt s 0, ⟨5, 1, 1⟩)] } }
     S.eddy.cmd = some (1, 1, 0) ∧ (eslot S (slotAt S 0)).state = 1 ∧ (eslot S (slotAt S 0)).job.toNat = 1 ∧ S.eddy.cmd.isSome = true) ∧
    (let S : State := { s with eddy := { Eddy.reset with slots := [(2559, ⟨5, 1, 2⟩)] } }
     (2559#16).toNat < 2560 ∧ (eslot S (2559#16).toNat).state = 2 ∧ (eslot S (0#16).toNat).state ≠ 2) :=
  ⟨by decide +kernel, by decide +kernel, by decide +kernel, by decide +kernel, by decide +kernel⟩

/-- A weir whose lap of one layer of two tiles stands at its first tile, in HBM whose first two frames are live. -/
def Witness.weir (f : Weir → Weir) : State :=
  { s with
    weir := f { Weir.reset with nlayer := 1, desc := [0x200000007, 0, 0x10000000000, 2], n := 1, lap := 1 },
    hbm := { s.hbm with live := s.hbm.live.set 0 1, frames := [(0, (true, false)), (1, (true, false))] } }

theorem witness_TideEvents_a :
    (let S := weir id
     S.weir.ctl.getLsbD 0 = false ∧ 1 ≤ S.weir.nlayer.toNat ∧ S.weir.nlayer.toNat ≤ 65536 ∧ S.weir.ring = [] ∧ s.weir.nlayer = 0) ∧
    ((weir (fun w => { w with ctl := 1 })).weir.ctl.getLsbD 0 = true ∧ (weir (fun w => { w with ctl := 1 })).weir.run = false) :=
  ⟨by decide +kernel, by decide +kernel⟩

theorem witness_TideEvents_b :
    let S := weir (fun w => { w with run := true })
    S.weir.run = true ∧ S.weir.nextAt ≤ S.now ∧ weirMayRead S = true ∧ S.weir.desc = [0x200000007, 0, 0x10000000000, 2] ∧
      S.weir.inRange < wf 31 0 (2#64) ∧ tideEff S < 4 ∧ S.weir.lap < 2 ^ 32 :=
  by decide +kernel

theorem witness_TideEvents_c :
    let S := weir (fun w => { w with run := true })
    both (tileRows 32 S (0x10000000000 + 8192 * S.weir.inRange)) (fun _ r => !r.1 && r.2.weir == S.weir && tideEff r.2 == tideEff S && r.2.now == S.now) = true := by
  decide +kernel

/-- A tile of layer 7, index 0, not the last, whose CRC is right or not; a subscription that it boards, one that lands it. -/
def Witness.sb : Nat := 7 * 2 ^ 24
def Witness.tile (at_ : Nat) (good : Bool) : RingTile :=
  ⟨3, at_, BitVec.ofNat 128 ((crc32c (crcBytes [] sb) + if good then 0 else 1) * 2 ^ 96 + sb), []⟩
def Witness.sub (f : TideSub → TideSub) : Thread :=
  { t with tide := f { TideSub.idle with state := 1, layer := 7, first := 0, last := 9, stride := 1 } }

theorem witness_TideEvents_d :
    let u := sub id
    let x := tile (70000 - tideDelay 0) true
    let S : State := { run u with weir := { s.weir with ring := [x] } }
    threadOf S 0 = some u ∧ S.weir.ring.find? (fun y => y.id == x.id) = some x ∧ S.now = x.at_ + tideDelay 0 ∧ u.tide.restore = [] ∧
      u.tide.state = 1 ∧ sbField x.sb 39 24 = u.tide.layer ∧ sbField x.sb 63 40 = 0 ∧ u.tide.first = 0 ∧ u.tide.next = 0 ∧
      u.tide.buf.length + u.tide.taking.length < 8 ∧ x.sb.getLsbD 1 = false := by decide +kernel

theorem witness_TideEvents_e :
    let u := sub (fun y => { y with state := 2, taking := [(3, 70000, 0)], reg := 2 + 64 })
    u.tide.taking = [(3, 70000, 0)] ∧ crcGood (tile 0 true) = true ∧ (tile 0 true).sb.getLsbD 2 = false ∧ crcGood (tile 0 false) = false ∧
      sbField (tile 0 false).sb 39 24 = u.tide.layer ∧ u.tide.reg = 2 + 64 ∧ 64 ≤ s.now ∧ u.tide.state = 2 ∧ u.tide.restore = [] ∧
      unpaused u.tide.beatAt + 65536 ≤ unpaused ({ s with now := 70144 }).now := by decide +kernel

/-- Die 0 with an entry, and others beside it. -/
def Witness.sched (e : Entry) (rest : List Entry) : State :=
  dieWith s (fun d => { d with run := true, entries := e :: rest, save := 0x0010000000000000 })

theorem witness_SchedulerEvents_a :
    (∀ st ∈ [0, 1, 2, 3], entryOf (sched (entry st none) []) 0 5 = some (entry st none) ∧
      (∀ x ∈ (dieOf (sched (entry st none) []) 0).entries, x.id = 5 → x = entry st none) ∧
      storeCount (dieOf (sched (entry st none) []) 0) < 3840 ∧ condsMet (sched (entry st none) []) 0 (entry st none) = true ∧
      (barCond (sched (entry st none) []) 0 (entry st none)).2 = sched (entry st none) []) ∧
    (let e : Entry := { entry 0 none with record := [0x20, 0, 0, 0, 0, 1, 0, 0] }
     condsMet (sched e []) 0 e = false) ∧
    4096 ≤ storeCount (dieOf (sched (entry 0 none) (List.replicate 4096 { entry 2 none with id := 6 })) 0) ∧
    (let S := sched (entry 1 none) []
     oldest ((dieOf S 0).entries.filter (fun e => e.state == 1)) = some (entry 1 none) ∧
       inHbm (spillPa (dieOf S 0) 0) = false ∧ reloaded S 0 (entry 1 none) = (entry 1 none, S) ∧
       targetOf S (spillPa (dieOf S 0) 0) = .sram 0 0) :=
  ⟨by decide +kernel, by decide +kernel, by decide +kernel, by decide +kernel⟩

theorem witness_SchedulerEvents_b :
    (let e : Entry := { entry 3 none with job := 1 }
     let S : State := { sched e [] with jobs := [(1, (true, JobRegs.reset))] }
     (bestEntry S 0).map (·.1) = some e ∧ (jobEntry S 1).1 = true ∧ freeTid S 1 = some 0 ∧ freeFrame (dieOf S 0) = some 0 ∧
       (dieOf S 0).run = true ∧ S.hbm.drop = none) ∧
    ((bestEntry (sched (entry 3 none) []) 0).map (·.1) = some (entry 3 none) ∧ (jobEntry (sched (entry 3 none) []) 0).1 = false) ∧
    (let S : State := { sched (entry 3 (some 9)) [] with saved := [(9, ⟨t, false, some 5, false, 0⟩)] }
     (bestEntry S 0).map (·.1) = some (entry 3 (some 9)) ∧ (mget 9 S.saved).isSome = true) :=
  ⟨by decide +kernel, by decide +kernel, by decide +kernel⟩

/-- Copy channel 0 of core 0 with a record of 64 bytes from 0x10000 to 0x10040, through a page of its copy TLB. -/
def Witness.from_ : Issuer := { deviceIssuer 0 with regs := { JobRegs.reset with ttbase := 1, asid := 1 } }
def Witness.rec : List Word := [3, 0x10000, 0x10040, 64, 0, 0, 0, 0]
def Witness.copies (piece : Nat) (begun : Bool) : State :=
  modEngine { s with tlbs := [(cacheKey 0 3, [⟨1, 0x10000, 16, 0, 0, 0, 0x3F, 0x3F⟩])] } 0 (fun e => { e with
    chains := [⟨0x10080, from_⟩], busy := true, words := rec, cur := 0x10080, piece := piece, begun := begun })

theorem witness_EngineEvents_a :
    (copyRec rec).barf = false ∧ (copyRec rec).tagx = false ∧ (boxPieces (copyRec rec)).length = 1 ∧
      (boxPieces (copyRec rec))[0]? = some ⟨0x10000, 0x10040, 64⟩ ∧ issuerReady (copies 0 false) from_ = true ∧
      (engineOf (copies 0 false) 0).halted = none ∧ (engineOf (copies 0 false) 0).chains = [⟨0x10080, from_⟩] ∧
      (engineOf (copies 0 false) 0).busy = true ∧ (engineOf (copies 0 false) 0).ops = [] ∧ (engineOf (copies 1 true) 0).begun = true := by
  decide +kernel

/-- Both sides are translated, nothing holds them, and the piece moves. -/
def Witness.placed (r : EPlace × State) (k : Place → State → Bool) : Bool :=
  match r with
  | (.ok p, S) => k p S
  | _ => false

theorem witness_EngineEvents_b :
    ∀ begun ∈ [true, false], placed (opPlace (modEngine (copies 0 begun) 0 (fun e => e)) 0 from_ .read 0x10000) (fun ps S1 =>
      placed (opPlace S1 0 from_ .write 0x10040) (fun pd S2 => ps.dev == none && pd.dev == none && !hbmHeld S2 0 ps && !hbmHeld S2 0 pd &&
        !issuerHeld S2 from_ pd.pa 64 && !inHbm ps.pa && !inHbm pd.pa)) = true := by decide +kernel

theorem witness_EngineEvents_c :
    let S := copies 1 true
    let own := placeHeld S 0 from_ .read (engineOf S 0).cur
    inHbm own.pa = false ∧ from_.replay = false ∧ (boxPieces (copyRec (engineOf S 0).words)).length ≤ (engineOf S 0).piece ∧
      both (performWrite (noteHint S own) (whoCtx 0) own.pa [(((engineOf S 0).words[0]?.getD 0) &&& 0xFE).setWidth 8] (engineOf S 0).cur)
        (fun e S1 => e == none && engineOf S1 0 == engineOf S 0) = true := by decide +kernel

/-- A barrier word of one arrival, of no arrival and of sectors alone, which its requester can read. -/
def Witness.barWordAt (v : Nat) : State := { copies 1 true with mem := memWrite [] 0x200 (leBytes 16 v) }

theorem witness_EngineEvents_d :
    (∀ v ∈ [16 + 2 ^ 64, 2 ^ 64, 7 * 2 ^ 32 + 2 ^ 64],
      both (readBar (barWordAt v) (whoCtx 0) 0x200 (recordBar (barWordAt v) 0)) (fun r S => (match r with
        | .ok x => x == v
        | .error _ => false) && S == barWordAt v) = true) ∧
    (barOf (16 + 2 ^ 64)).arr = 1 ∧ (barOf (2 ^ 64)).arr = 0 ∧ (barOf (7 * 2 ^ 32 + 2 ^ 64)).sec = 7 ∧
    (performWrite (barWordAt 0) (whoCtx 0) 0x200 (leBytes 16 (2 ^ 64 + 1)) 0).1 = none ∧ (barWordAt 0).auditor.replaying = none :=
  ⟨by decide +kernel, by decide, by decide, by decide, by decide +kernel, rfl⟩

/-- A machine with rails, temperatures and sampled tasks of its auditor. -/
def Witness.sample (bad : Bool) (sig : Option Word) : Sample :=
  { record := List.replicate 8 0, core := 0, tid := 0, frame := 0, job := 0, inputs := [], outputs := [], bad := bad, ended := true, sig := sig, scratch := [], abandoned := false }
def Witness.audits (f : Auditor → Auditor) : State := { s with auditor := f Auditor.reset }

theorem witness_DredgeAuditBoot_a :
    (∀ e ∈ s.engines, e.2.giveUp = false) ∧ s.plat.stop = false ∧ 95 ≤ ({ s.plat with temp := 95 }).temp ∧
    (dieOf (dieWith s (fun d => { d with recal := some 1 })) 0).recal = some 1 ∧
    (dieOf (dieWith s (fun d => { d with failedRails := [2] })) 0).recal = none ∧ 2 ∈ (dieOf (dieWith s (fun d => { d with failedRails := [2] })) 0).failedRails ∧
    (dieOf s 0).recal = none ∧ 2 ∉ (dieOf s 0).failedRails ∧ (dieOf s 0).returning ≠ some 2 :=
  ⟨(fun _ h => nomatch h), rfl, by decide, by decide +kernel, by decide +kernel, by decide +kernel, by decide +kernel, by decide +kernel, by decide +kernel⟩

/-- With no task enabled anywhere but on die 0, core 0 of the last die is free to replay a sample of core 0. -/
def Witness.wide (f : Auditor → Auditor) : State :=
  { audits f with plat := { s.plat with yield_ := BitVec.ofNat 2048 (1 + 2 ^ 1536) } }

theorem witness_DredgeAuditBoot_b :
    (∀ b ∈ [true, false], let S := wide (fun a => { a with pending := [sample b none] })
      S.auditor.replaying = none ∧ inWindow S = false ∧
        S.auditor.pending.find? (fun x => x.ended && reservationsOver S x.core) = some (sample b none)) ∧
    replayDie (wide (fun a => { a with pending := [sample false none] })) 0 = some 3 ∧
    (sample false none).outputs = [] ∧
    (let S := audits (fun a => { a with replaying := some (sample false (some 0)) })
     S.auditor.replaying = some (sample false (some 0)) ∧ crc64 ((sample false (some 0)).outputs.flatMap (fun o => scratchRead S o.1.toNat o.2)) = 0 ∧
       fqRoom (dieOf S 0) = true ∧ (dieOf S 0).fqHeld = []) :=
  ⟨by decide +kernel, by decide +kernel, rfl, by decide +kernel⟩

/-- Boot without a record is in recovery; a record that passes hangs on the signature check, which Config leaves free. -/
theorem witness_DredgeAuditBoot_c :
    recordChecks [] [] = false ∧ ({ s.plat with boot := 2 }).boot = 2 ∧
    (s.plat.accept.getLsbD 63 = false ∧ (0x8000000000000000#64).getLsbD 63 = true) ∧
    s.plat.quoteBusy = none ∧ ({ s.plat with quoteBusy := some (0x40, List.replicate 32 0) }).quoteBusy = some (0x40, List.replicate 32 0) :=
  ⟨rfl, rfl, by decide +kernel, rfl, rfl⟩

/-- Port 3 up with all eight lanes, or changed. -/
def Witness.up : Port := { Port.reset with mode := 2, rxMask := 0xFF, txMask := 0xFF, cfg := 0x1FF }
def Witness.port (f : Port → Port) : State := { s with router := { s.router with ports := [(3, f up)] } }
def Witness.flit (seq : Nat) : Flit := mkFlit (linkWord seq 0 2 0 false false false) []

theorem witness_LinkEvents_a :
    (∀ f ∈ [id, (fun q : Port => { q with adapt := some (2, 0) }), (fun q => { q with adapt := some (2, 2) }), (fun q => { q with training := true }),
        (fun q => { q with mode := 0 })], portOf (port f) 3 = f up) ∧
    up.rxHold = [] ∧ 5 % 4096 ≠ up.rxNext ∧ up.rxNext % 4096 = 4096 % 4096 ∧ up.ctl = [] ∧ wf 7 0 ({ up with lcfg := 0 }).lcfg = 0 ∧
    mgetD 0 2 up.laneErr + 1 < wf 7 0 up.lcfg ∧ (4095 : Nat) < 4096 :=
  ⟨by decide +kernel, rfl, by decide, by decide, rfl, by decide, by decide, by decide⟩

theorem witness_LinkEvents_b :
    (let q := { up with retry := [(7, some (flit 7)), (8, some (flit 8))] }
     (∃ e ∈ q.retry, e.1 ≤ 7) ∧ causeway q = false ∧ q.ctl = [] ∧ q.mode ≠ 0 ∧ (∀ x ∈ q.retry, x.2.isSome = true) ∧
       (q.retry.find? (fun x => x.1 % 4096 == 7)).isSome = true ∧ q.retry ≠ [] ∧ q.ackAt + 16384 ≤ s.now ∧
       min (modeOf (laneCount q.rxMask)) (modeOf (laneCount (0xFE#8))) ≠ 0 ∧ min (modeOf (laneCount q.rxMask)) (modeOf (laneCount (3#8))) = 0) ∧
    s.now < ({ up with ackAt := 70000 }).ackAt + 16384 ∧
    (up.mode ≠ 0 ∧ up.rxMask.getLsbD 7 = true ∧ causeway up = false ∧ up.addAt = none ∧ linkRoom s up 1 = true ∧
      min (modeOf (laneCount (up.rxMask &&& ~~~(BitVec.ofNat 8 (2 ^ 7))))) (modeOf (laneCount up.txMask)) ≠ 0 ∧
      min (modeOf (laneCount (7#8 &&& ~~~(BitVec.ofNat 8 (2 ^ 1))))) (modeOf (laneCount up.txMask)) = 0) :=
  ⟨by decide +kernel, by decide +kernel, by decide +kernel⟩

theorem witness_LinkEvents_c :
    (wf 9 8 (0x1FF#64 &&& 0xFFFF0000000007FF) = 1 ∧ wf 9 8 (0x2FF#64 &&& 0xFFFF0000000007FF) = 2 ∧ wf 9 8 (0xFF#64 &&& 0xFFFF0000000007FF) = 0) ∧
    (flitOk (flit 0) = true ∧ flitSeq (flit 0) = up.rxNext % 4096 ∧ flitVc (flit 0) < 6 ∧ flitTag (flit 0) = false ∧ flitAckv (flit 0) = false ∧
      up.rxAdd = none ∧ up.cfg.getLsbD 10 = false) ∧ flitOk (flit 0 ^^^ 1) = false :=
  ⟨by decide +kernel, by decide +kernel, by decide +kernel⟩

/-- A packet for this device's SRAM from device 9. -/
def Witness.packet (kind : BitVec 8) (sub : BitVec 8) (addr aux : BitVec 52) (data : List Byte) : Packet :=
  { blankPacket with src := 9, tag := 7, job := 1, kind := kind, sub := sub, addr := addr, aux := aux, data := data }
/-- A router changed. -/
def Witness.routes (f : Router → Router) : State := { s with router := f s.router }

theorem witness_FabricTarget_a :
    (performWrite s whoFabric 0x40 [1, 2]).1 = none ∧
    ((performWrite s whoFabric 0x7FFF00000000 [1]).1.any (fun e => decide (e.1 < 256))) = true ∧
    ((readPa s whoFabric 0x40 128).1.err = none ∧ (packet 2 0 0x40 128 []).aux.toNat % 8192 = 128) ∧
    (let p := packet 4 0x31 0x40 0 (List.replicate 16 1)
     mget (9 * 2 ^ 24 + 7) s.router.replies = none ∧ (9 * 2 ^ 24 + 7) ∉ s.router.inWork ∧ s.router.replies.length + s.router.inWork.length < 65536 ∧
       ownFatom s p 8 = none ∧ (readPa s whoFabric 0x40 8).1.err = none ∧ (performWrite s whoFabric 0x40 (leBytes 8 1)).1 = none) :=
  ⟨by decide +kernel, by decide +kernel, by decide +kernel, by decide +kernel⟩

theorem witness_FabricTarget_b :
    (let S := routes (fun r => { r with replies := [(9 * 2 ^ 24 + 7, (packet 0x12 0 0 0 [], 99))] })
     mget (9 * 2 ^ 24 + 7) S.router.replies = some (packet 0x12 0 0 0 [], 99)) ∧
    (9 * 2 ^ 24 + 7) ∈ (routes (fun r => { r with inWork := [9 * 2 ^ 24 + 7] })).router.inWork ∧
    (let p := packet 5 0 0x80 0 (List.replicate 128 0)
     let S := routes (fun r => { r with combine := [⟨0x80, false, [p]⟩] })
     (∃ c ∈ S.router.combine, c.line = 0x80 ∧ c.ft = false) ∧ (∀ c ∈ s.router.combine, c.line ≠ 0x80 ∨ c.ft ≠ false) ∧
       S.router.combine.find? (fun c => c.line == 0x80 && c.ft == false) = some ⟨0x80, false, [p]⟩ ∧ inHbm 0x80 = false ∧
       (admitted 0x80 [p] s).1 = [p] ∧ (readPa s whoFabric 0x80 128).1.err = none ∧
       (performWrite s whoFabric 0x80 (List.replicate 128 0)).1 = none) :=
  ⟨by decide +kernel, by decide +kernel, by decide +kernel⟩

/-- A root's entry of a group at phase 3, of packages 9 and 8 that count it 5, with what has arrived, joins and leaves. -/
def Witness.rooted (packages arrived joining leaving : List Nat) : RootEntry :=
  ⟨3, packages, arrived, joining, leaving, [(8, 5), (9, 5), (65536 + 9, 5)], []⟩

theorem witness_FabricTarget_c :
    let p := packet 6 0 0 (5 * 65536 + 5) []
    let S (e : RootEntry) : State := routes (fun r => { r with roots := [(rootKey p, e)] })
    (∀ e ∈ [rooted [9, 8] [8] [] [], rooted [9] [] [] [9]], 9 ∈ (rootOf (S e) (rootKey p)).packages ∧
      phaseOf (rootOf (S e) (rootKey p)) 9 = barrierPhase p ∧ rootDone { e with arrived := e.arrived ++ [9] } = true ∧
      rootDone (nextPhase { e with arrived := e.arrived ++ [9] }) = false ∧ leavesAt e 9 (barrierPhase p) = true) ∧
    rootDone (rooted [9, 8] [9] [] []) = false ∧ rootDone (rooted [9, 8] [] [] [9]) = false ∧
    (phaseOf (rooted [9] [] [] []) 9 ≠ 6 ∧ leavesAt (rooted [9] [] [] []) 9 6 = false ∧ 9 ∉ (rooted [9] [] [] []).joining) ∧
    (9 ∈ (rooted [8] [] [9] []).joining ∧ phaseOf (rooted [8] [] [9] []) (65536 + 9) = barrierPhase p ∧ 9 ∉ (rooted [8] [] [] []).packages ∧
      9 ∈ (rooted [9] [] [] [9]).leaving) ∧
    s.router.fwd.length < 16 ∧ 16 ≤ ((List.range 16).map (fun i => (i, i))).length ∧ (rootOf s (rootKey p)).packages = [] := by
  decide +kernel

/-- Group 5 of JOBID 1 with a member of entry 2, registered here, its phase numbered 5. -/
def Witness.joined : State :=
  { routes (fun r => { r with locals := [(groupKey 1 5, ⟨21, true, true, false, []⟩)] }) with
    groups := [(groupKey 2 5, ⟨0, [⟨t.frame, 0, 0, false, false, [], 1⟩], false, [], [], none⟩)] }
/-- Collective context 5 of rank 0 of two ranks, whose own vector of one element is read. -/
def Witness.leadOp : CollOp :=
  { no := 1, desc := [0x0002000000000580, 0, 0, 1, 0, 0, 0, 0], addr := 0, issuer := deviceIssuer 0, stage := 1, own := [0, 0, 0, 0], resid := [],
    out := [], waiting := 0, seq := 0, relay := none }

theorem witness_FabricTarget_d :
    ((localOf joined 1 5).here = true ∧ (localOf joined 1 5).phase % 16 = barrierPhase (packet 8 0 0 (5 * 65536 + 5) []) ∧
      (entriesOf joined 1 5) = [2]) ∧
    (localOf joined 1 5).phase % 16 ≠ barrierPhase (packet 8 0 0 (4 * 65536 + 5) []) ∧ (localOf s 1 5).here = false ∧
    relays (collOf s 0x4005) ⟨0, 9, 0, 0, 0, []⟩ = false ∧
    ((packet 8 1 0x8008 0 (List.replicate 8 0)).addr = 0x8008 ∧ (packet 8 1 0x8008 0 (List.replicate 8 0)).data.length = 8) := by
  decide +kernel

/-- An outstanding request to device 9, of a waiter. -/
def Witness.asked (w : Waiter) (waits : Bool) (at_ : Nat) : Outst := ⟨{ blankPacket with dst := 9, tag := 7 }, w, 0, 0, at_, waits⟩
def Witness.waitsFor (w : Waiter) (waits : Bool) (at_ : Nat) : State :=
  { routes (fun r => { r with outst := [(7, asked w waits at_)] }) with timer := 600000000 }

theorem witness_FabricSource_a :
    (∀ w ∈ [Waiter.op 4 1 0x40, .ctr 4 1, .collRead 0x4000, .fatom 0 0 0, .group], ∀ waits ∈ [true, false],
      mget 7 (waitsFor w waits 0).router.outst = some (asked w waits 0) ∧ (asked w waits 0).pkt.dst = (packet 0x10 0 0 0 []).src) ∧
    mget 7 s.router.outst = none ∧ (∀ x ∈ s.agenda, x.ev ≠ .copyRecordProcess 4) ∧
    (let q := { Witness.req .fatom (.sreg 7) (partAt 0 (Place.direct 0) 8) with ord := 0 }
     threadOf (run (asks q)) 0 = some (asks q) ∧ reqOf (run (asks q)) 0 0 = some q ∧ (asks q).det.tid = 0 ∧ acquires q.ord = false) ∧
    ((0 : Nat) + e2eLimit (waitsFor .group false 0) 9 ≤ (waitsFor .group false 0).timer ∧
      (waitsFor .group false 0).timer < 600000000 + e2eLimit (waitsFor .group false 0) 9 ∧
      (0 : Nat) < wf 33 32 (waitsFor .group false 0).router.e2e ∧ wf 33 32 (waitsFor .group false 0).router.e2e ≤ 3) :=
  ⟨by decide +kernel, rfl, (fun _ h => nomatch h), ⟨rfl, by decide +kernel, rfl, rfl⟩, by decide +kernel⟩

theorem witness_FabricSource_b :
    (let p := packet 1 0 0x40 0 []
     let S := { routes (fun r => { r with waiting := [(p, .group)], nextTag := 5, tagUse := [(5, 1)] }) with timer := 600000000 }
     S.router.waiting = [(p, .group)] ∧ S.router.nextTag < 2 ^ 24 ∧ mget 5 S.router.tagUse = some 1 ∧ 1 + 504000000 ≤ S.timer ∧
       ({ S with timer := 504000000 }).timer < 1 + 504000000) ∧
    (∀ k ∈ [(1 : BitVec 8), 0x30], let h : Held := ⟨{ packet k 0 0x40 0 [] with dst := if k = 1 then s.plat.devid else 5 }, 44, 0, 1, 2, 0, none⟩
      mget 1 (routes (fun r => { r with packets := [(1, h)] })).router.packets = some h) ∧
    kindOk 1 = true ∧ kindOk 0x30 = false ∧ inHbm 0x40 = false ∧ (5#16) ≠ s.plat.devid ∧ keySlot s 1 = none ∧
    s.router.keyBusy = none ∧
    (let k : Key := ⟨1, 0, 0, [], []⟩
     let S := routes (fun r => { r with keys := [(63, k)], keyBusy := some (2, 63, 0, 0) })
     S.router.keyBusy = some (2, 63, 0, 0) ∧ S.router.keys.filter (fun x => x.1 == 63) = [(63, k)] ∧
       S.router.keys.filter (fun x => x.2.job.toNat == 1) = [(63, k)] ∧ groupOpen S 1 = false ∧ mget (63#6).toNat S.router.keys = some k) :=
  ⟨by decide +kernel, by decide +kernel, rfl, rfl, by decide +kernel, by decide +kernel, rfl, rfl, by decide +kernel⟩

/-- Core 0 about to issue a bundle of one ADD. -/
theorem witness_StepRunsDecoded :
    let w := encode (.add g 1 2 3)
    let u := seq (fun q => { q with buf := oneSlot 0 .s1 w, seg := 0 })
    let S : State := { run u with todo := [.issue 0] }
    let t1 : Thread := { u with attn := none, q := { u.q with moved := false, point := false } }
    (run u).plat.boot ≠ 3 ∧ (run u).todo = [] ∧ threadOf S 0 = some u ∧ u.phase = .running ∧ u.q.buf.addr = u.q.seg ∧ u.q.idx < u.q.buf.count ∧
      u.q.buf.bundles[u.q.idx]? = some [(.s1, w)] ∧ decodeSlot .s1 w = .ok (.add g 1 2 3) ∧
      dueAttn (setThread { S with todo := [], cur := 0 } 0 t1) 0 t1 = none ∧ nullified t1 [(.s1, w)] = false ∧
      ∃ s', exec (.add g 1 2 3) (setThread { S with todo := [], cur := 0 } 0 t1) = .next s' :=
  ⟨by decide, rfl, rfl, rfl, rfl, by decide, rfl, rfl, rfl, rfl, _, rfl⟩

theorem witness_StepRunsDecoded_quokor :
    State.reset.harts.toList[15]? = some Hart.reset ∧ decodeQuokor (0x0000100B : BitVec 32).toNat = some .qfence ∧
      decodeQuokor (0#32).toNat = none ∧ (0#32).toNat % 128 ≠ 0x0B := ⟨rfl, rfl, rfl, by decide⟩

/-- Well-formed instructions at the ends of their fields. -/
theorem witness_EncodeDecode :
    (∀ n ∈ [(0 : BitVec 5), 31], WellFormed (.add ⟨true, 7⟩ n n n) = true ∧ slotKind (.add ⟨true, 7⟩ n n n) = some .s1 ∧ s1Only (.add ⟨true, 7⟩ n n n) = false) ∧
    WellFormed (.nop g 0x3FFFFF) = true := ⟨by decide, rfl⟩

theorem witness_MemoryCanonicalKept : Memory.wf s.mem = true ∧ ∃ s', step s = .next s' := ⟨rfl, _, rfl⟩

theorem witness_ResetAndStops :
    (let S : State := { s with plat := { s.plat with boot := 3 } }
     S.plat.boot = 3 ∧ managementNext S = false) ∧
    (let S : State := { s with todo := [.quokor 15] }
     S.plat.boot ≠ 3 ∧ S.todo = [.quokor 15] ∧ S.harts.toList[15]? = some Hart.reset) := ⟨⟨rfl, rfl⟩, by decide, rfl, rfl⟩

/-! Witnesses of further clauses. -/

/-- Guards that are false: of a privileged slot, CRW of the job's registers and of others, V with its engine busy or not, X. -/
theorem witness_GuardFalse_b :
    (let u : Thread := { t with regs := { t.regs with priv := 1 } }
     privilegedGuardOf (.tlbiSync no) = some no ∧ threadOf (run u) 0 = some u ∧ privileged u = true ∧ guardTrue u no = false) ∧
    crJobWord (0#12).toNat = none ∧ (crJobWord (0x20#12).toNat).isSome = true ∧
    (let i : Instr := .vmov ⟨no, false, 0⟩ 0 0 0 0
     vHeader i = some ⟨no, false, 0⟩ ∧ laterBeat t i = false ∧ t.x.vEnd ≤ t.x.dc ∧
       (let u := pipe (fun x => { x with vEnd := x.dc + 1 })
        threadOf (run u) 0 = some u ∧ u.x.dc < u.x.vEnd ∧ laterBeat u i = false)) ∧
    (let u : Thread := { t with c := { t.c with fmt := 0x11 } }
     xHeader (.xnop ⟨no, false, 31⟩ 0) = some ⟨no, false, 31⟩ ∧ threadOf (run u) 0 = some u ∧ guardTrue u no = false ∧ matrixPair u.c.fmt = true) :=
  ⟨⟨rfl, rfl, by decide +kernel, rfl⟩, rfl, rfl, ⟨rfl, rfl, by decide, rfl, by decide, rfl⟩, rfl, rfl, rfl, by decide⟩

/-- The count of a LOOP in a register. -/
theorem witness_TransferTraps_loop : sreg (regs (fun r => r.set 1 1)) 1 ≠ 0 := by decide +kernel

/-- The data register of a store awaits a load, or none. -/
theorem witness_StoresIssue_data :
    (let q := Witness.req (.load 8 false) (.sreg 6) (partAt 0 (Place.direct 0) 8)
     ∃ x ∈ (asks q).reqs, x.landed = false ∧ x.dest = .sreg 6) ∧ ∀ x ∈ near.reqs, x.landed = false → x.dest ≠ .sreg 6 :=
  ⟨⟨_, List.mem_singleton_self _, rfl, rfl⟩, fun _ h => nomatch h⟩

/-- A granule that nothing has written; one that TID 5 wrote or read last, plainly or synchronising, of which the thread has acquired
nothing; the same under a coarse acquire set. -/
theorem witness_RaceRefused_pairs :
    ∀ tag ∈ [Tag.empty, { Tag.empty with wk := 1, wid := 5, wn := 9 }, { Tag.empty with wk := 1, wid := 5, wn := 9, syn := true }, { Tag.empty with rid := 5, rn := 9 }],
      let S : State := { s with tags := [(1, tag)] }
      threadOf S 0 = some t ∧ t.handler = false ∧ t.replay = false ∧ t.det.bypass = false ∧ inSram 0x40 = true ∧ 0x40 / 64 = 1 ∧ 0x40 % 64 + 64 ≤ 64 ∧
        S.tagErr.contains 1 = false ∧ mgetD Tag.empty 1 S.tags = tag ∧ t.det.tid = 0 ∧ t.det.coarse = false ∧ t.det.aset = [] ∧
        ({ t.det with coarse := true }).coarse = true := by
  decide +kernel

/-- Addresses of the tests: in the LOCAL window's last byte, in the CLUSTER window's first and last slices, beyond 2^56, in no window,
and translated ones, of the own slice, of a slice of the cluster, of a row that has none, of another device. -/
def Witness.apertures : Thread := { t with regs := { t.regs with apl := 1, apc := 0x8000001, ttbase := 1 } }
def Witness.mapped (pa dev : Nat) : State :=
  { run apertures with tlbs := [(cacheKey 0 1, [⟨1, 0x10000, 16, pa, dev, 0, 0x2000, 0x2000⟩])] }

theorem witness_AddressTests_ranges :
    (aplBase apertures.regs).toNat = 2 ^ 55 ∧ (apcBase apertures.regs).toNat = 2 ^ 55 + 2 ^ 27 ∧
      apertures.regs.apl.getLsbD 0 = true ∧ apertures.regs.apc.getLsbD 0 = true ∧ apertures.regs.ttbase.getLsbD 0 = true ∧ t.regs.ttbase.getLsbD 0 = false ∧
      2 ^ 55 + 2 ^ 23 - 1 < 2 ^ 55 + 2 ^ 23 ∧ (2 ^ 55 + 2 ^ 28 - 1 - (2 ^ 55 + 2 ^ 27)) / 2 ^ 23 = 15 ∧ (2 ^ 55 + 2 ^ 27 - (2 ^ 55 + 2 ^ 27)) / 2 ^ 23 = 0 ∧
      2 ^ 55 + 2 ^ 28 < 2 ^ 56 ∧ (run apertures).cur < 2048 ∧ (run apertures).cur / 16 % 32 < 20 ∧
    (∀ x ∈ [(0, 0), (3 * 2 ^ 23, 0), (320 * 2 ^ 23, 0), (2048 * 2 ^ 23, 0), (0, 1)],
      (tlbFind (mapped x.1 x.2) (cacheKey 0 1) (apertures.regs.asid.toNat % 2 ^ 16) 0x1FFFF).map (fun e => (e.pa, e.dev, e.log)) = some (x.1, x.2, 16)) := by
  decide +kernel

theorem witness_ProbeCacheSlots_fill :
    (∀ w, w < 8 → (slotOf (cache [] []) 0 w).drop_ = false) ∧
    (let S := { cache [] [] with mem := memWrite [] 0x40 (leBytes 16 (2 ^ 64)) }
     both (readBar S (whoCore 0) 0x40 0) (fun r S1 => (match r with | .ok _ => true | .error _ => false) && S1 == S) = true) :=
  ⟨by decide +kernel, by decide +kernel⟩

/-- VTRANS at a first, and at its last beat; VPACKD inside a unit of four rows, and at the last row of its units 0 and 15. -/
theorem witness_VectorLaterBeat_packs :
    (∀ x ∈ [(0, 64), (62, 64), (63, 64)], let v : VOp := ⟨.vtrans ⟨g, false, 63⟩ 0 0 1 0 2, x.1, x.2, 0, 0, 0, List.replicate x.1 0, true⟩
      let u := pipe (fun y => { y with vop := some v })
      threadOf (run u) 0 = some u ∧ u.x.vop = some v ∧ v.go = true ∧ u.uncov = [] ∧ (2#2).toNat ≤ 2 ∧ v.rows.length = x.1 ∧
        ((0#2).toNat + 1) * (8 * 2 ^ (2#2).toNat) ≤ 32) ∧
    (∀ x ∈ [(1, 1), (2, 2), (3, 3), (63, 3)], let v : VOp := ⟨.vpackd ⟨g, false, 63⟩ 0 1 0 0 16 true, x.1, 64, 0, 0, 0, List.replicate x.2 0, true⟩
      let u := pipe (fun y => { y with vop := some v })
      threadOf (run u) 0 = some u ∧ u.x.vop = some v ∧ v.go = true ∧ vfBits v.fmt / 8 = 4 ∧ v.rows.length = x.2 ∧ v.k / 4 < 16 ∧
        (v.k % 4 + 1 < 4 ∨ v.k % 4 + 1 = 4 ∧ v.rows.length + 1 = 4)) ∧
    (⟨g, false, 63⟩ : VHdr).beats ≠ 0 := by
  decide +kernel

/-- A BF16 MMA of one row and column over beats of the own slice, at beat j of b, with NBV and ZEROM or not. -/
def Witness.multiplies (b j : Nat) (nbv xmask : Word) : XOp :=
  { xopOf near (.mma ⟨g, false, BitVec.ofNat 8 (b - 1)⟩ false 1 0 0 1 0 0 0 0) x 1 1 0x80000000000040 64 0x80000000000080 64 0 0 with
    b := b, j := j, fmt := 0x11, nbv := nbv, xmask := xmask, issue := near.x.dc - j }
def Witness.engaged (o : XOp) : State :=
  run { near with x := { near.x with xop := some o } }

theorem witness_MatrixBeats_mma :
    ∀ y ∈ [(1, (0 : Word), (0x101 : Word)), (1, 1, 0x10101), (1, 0, 0x10101), (2, 0, 0x101)],
      let o := multiplies y.1 0 y.2.1 y.2.2
      o.fault = none ∧ o.mma = true ∧ o.rows = 1 ∧ o.cols = 1 ∧ o.kpb = 1 ∧
        (match tbTile { near with x := { near.x with xop := some o } } o with | .ok _ => true | .error _ => false) = true ∧
        (match readBeat (engaged o) 0 { near with x := { near.x with xop := some o } } o with
          | .got _ _ s1 => (threadOf s1 0).any (fun t1 => t1.x.dc == o.issue + o.j)
          | _ => false) = true := by
  decide +kernel

/-- GBAR whose latest arrival is over, pending, or not made. -/
theorem witness_GroupSlots_stalls :
    ∀ x ∈ [((⟨3, 0, true, true⟩ : Membership), 1), (⟨3, 0, true, true⟩, 0), (⟨3, 0, true, false⟩, 1), (⟨3, 0, false, false⟩, 0)],
      membership { t with groups := [x.1] } 3 = some x.1 ∧ (groupOf (group x.2 [x.1]) 0 3).phase = x.2 := by
  decide +kernel

/-- A job without an Eddy window, and a window of no slots. -/
theorem witness_EddySlots_faults :
    Performs s t g ∧ wf 15 0 t.regs.eddyJob = 0 ∧ tileRead window (.trow 63) (window.x.dc + 7) = false ∧
      (let u : Thread := { window with regs := { window.regs with eddyCount := 0 } }
       Performs (run u) u g ∧ wf 15 0 u.regs.eddyJob ≠ 0 ∧ eddyCount u = 0 ∧ u.handler = false ∧ u.replay = false) :=
  ⟨⟨rfl, rfl⟩, by decide +kernel, rfl, ⟨rfl, rfl⟩, by decide +kernel, by decide +kernel, rfl, rfl⟩

/-- TBOARD while armed, boarding or waiting; each operand at the first value outside its limits; TWAIT on a done, idle or absent
subscription; TLEAVE beside an MMA.TB, and of a handler whose thread is no longer saved. -/
theorem witness_TideSlots_stops :
    (∀ st ∈ [1, 2, 3], let u : Thread := { boards with tide := { boards.tide with state := st } }
      threadOf (run u) 0 = some u ∧ guardTrue u g = true ∧ u.tide.state = st ∧ u.tide.pending = [] ∧ u.handler = false ∧ u.replay = false) ∧
    (sreg (regs (fun r => r.set 6 65536)) 6).toNat = 65536 ∧ (sreg (regs (fun r => r.set 8 0xFFFFFF)) 7).toNat < 2 ^ 24 ∧
      (sreg (regs (fun r => r.set 7 1)) 8).toNat < (sreg (regs (fun r => r.set 7 1)) 7).toNat ∧ (sreg (regs (fun r => r.set 8 0x1000000)) 8).toNat = 2 ^ 24 ∧
      (sreg t 9).toNat = 0 ∧ (sreg (regs (fun r => r.set 9 4097)) 9).toNat = 4097 ∧
    ({ boards.tide with state := 4 }).state = 4 ∧ ({ boards.tide with absent := true }).absent = true ∧
    (let o : XOp := xopOf t (.mmaTb x false 1 0 0 0 0 0 0 0 true) x 1 0 0 0 0 0 0 0
     let u := pipe (fun y => { y with xop := some o })
     threadOf (run u) 0 = some u ∧ u.x.xop = some o ∧ (match o.i with | .mmaTb .. => true | _ => false) = true) ∧
    (let u : Thread := { t with handler := true }
     threadOf (run u) 0 = some u ∧ mget u.frame (run u).saved = none) := by
  decide +kernel

theorem witness_CoreEvents_line :
    let u := { t with regs := { t.regs with ttbase := 1 } }
    let S : State := { run u with tlbs := [(cacheKey 0 0, [⟨1, 0x10000, 16, 0, 0, 0, 0x3F, 0x3F⟩])] }
    turnAll S (lineSpan S 0 u 0x10000) 0 = .now ∧
      (match readLine (takeTurns (setExpansion S 0 (some ⟨0x10000, 70000, 0, [], ⟨0, []⟩⟩)) (lineSpan S 0 u 0x10000)) 0 u 0x10000 with
        | (.bytes bs, _) => bs == List.replicate 64 0
        | _ => false) = true := by
  decide +kernel

/-- A fill into slot 0 of the cache at its own base, whose turn has come, from bytes that read whole. -/
theorem witness_MemorySideEvents_d :
    (∀ b ∈ [true, false], let S := cache [(0, slot 1)] [op b]
      let spans := (0x40000, 2048) :: (if b then [(slotPa S 0 0, 2048)] else [])
      turnAll S spans (op b).bank.refused = .now ∧ (∀ x ∈ (coreOf S 0).probe.slots, x.2.drop_ = false)) ∧
    (let S := cache [(0, slot 1)] [op true]
     let s0 := takeTurns (modPOp S 0 1 (fun o => { o with bank := ⟨0, []⟩ })) [(0x40000, 2048), (slotPa S 0 0, 2048)]
     both (readPa s0 (whoCtx (probeCtx 0)) 0x40000 2048 0) (fun g S1 => g.err == none && S1 == s0 && g.bytes.length == 2048) = true ∧
       inSram (slotPa S 0 0) = true ∧ spanError S (slotPa S 0 0) 2048 = none ∧ Memory.wf S.mem = true) ∧
    (let S := cache [(0, slot 1)] [op false]
     let s0 := takeTurns (modPOp S 0 1 (fun o => { o with bank := ⟨0, []⟩ })) [(0x40000, 2048)]
     both (performWrite s0 (whoCtx (probeCtx 0)) 0x40000 (op false).data 0) (fun e S1 => e == none && coreOf S1 0 == coreOf s0 0) = true) :=
  ⟨by decide +kernel, by decide +kernel, by decide +kernel⟩

/-- Registers of every unit, at their first and last bytes; offsets without a register; a store at an unaligned address. -/
theorem witness_MemorySideEvents_e :
    (∀ o ∈ [0x1000, 0x2000038, 0x4000008, 0x4000010, 0x5000010, 0x5030010, 0x5000018, 0x5030018, 0x6000008, 0xA000028, 0x2000020, 0x2000030,
        0x9000008, 0x900FF68], (ctlReg s o).isSome = true) ∧
    (∀ o ∈ [0x1FF8, 0xB000000], o % 8 = 0 ∧ ctlReg s o = none) ∧ 0 + 8 ≤ 8 ∧ 7 + 1 ≤ 8 ∧ inCtl 0xF000002000015 = true ∧ 0x7FFFF9 % 32 + 4 ≤ 32 := by
  decide +kernel

/-- A hart without loads, and one with a load to a register that the instruction does not name. -/
theorem witness_QuokorInstructions_d :
    (hartNow (hart 1 0)).loads = [] ∧ (hart 1 0).hart < 16 ∧ holding (hart 1 0) = false ∧ inWindow (hart 1 0) = false := by
  decide +kernel

theorem witness_SchedulerEvents_c :
    holding (sched (entry 3 none) []) = false ∧ storeCount (dieOf (sched (entry 0 none) []) 0) < 4096 ∧
      (recWord (entry 2 none).record 7).getLsbD 60 = false := by
  decide +kernel

/-- Both sides of the piece, its turn at the sub-banks, what it reads and writes. -/
theorem witness_EngineEvents_e :
    placed (opPlace (copies 0 true) 0 from_ .read 0x10000) (fun ps S1 => placed (opPlace S1 0 from_ .write 0x10040) (fun pd S2 =>
      let spans := [(ps.pa, 64), (pd.pa, 64)]
      decide (turnAll S2 spans (engineOf S2 0).bank.refused = .now) &&
      (match ctxRead (takeTurns (modEngine S2 0 (fun e => { e with bank := ⟨0, []⟩ })) spans) 0 from_ ps 0x10000 64 with
        | (.ok bs, s3) => (match ctxWrite s3 0 from_ (writeKind 0 ((engineOf s3 0).tl + 1) none) pd 0x10040 bs with
          | (.ok _, _) => true
          | _ => false)
        | _ => false))) = true := by
  decide +kernel

theorem witness_EngineEvents_f :
    let S := copies 1 true
    let own := placeHeld S 0 from_ .read (engineOf S 0).cur
    let s0 := takeTurns (modEngine S 0 (fun e => { e with bank := ⟨0, []⟩ })) [(own.pa, 1)]
    hbmHeld S 0 own = false ∧ from_.replay = false ∧ turnAll S [(own.pa, 1)] (engineOf S 0).bank.refused = .now ∧
      (∀ c ∈ (engineOf S 0).chains.head?, c.issuer.replay = false) ∧
      both (performWrite (noteHint s0 own) (whoCtx 0) own.pa [(((engineOf S 0).words[0]?.getD 0) &&& 0xFE).setWidth 8] (engineOf S 0).cur)
        (fun e S1 => e == none && engineOf S1 0 == engineOf s0 0) = true ∧
      hbmHeld { S with dredge := { S.dredge with drained := true } } 0 { own with pa := hbmBase } = true := by
  decide +kernel

theorem witness_DredgeAuditBoot_d :
    s.hbm.posted = [] ∧ ({ sample false none with abandoned := true }).abandoned = true ∧ (sample false (some 0)).abandoned = false := by
  decide +kernel

/-- Numbers of XSEQ at both ends of its wrap; XACK of the newest and of an unknown flit; a map that waits. -/
theorem witness_LinkEvents_d :
    (∀ n ∈ [0, 2 ^ 32 - 1], n < 2 ^ 32) ∧ (2 ^ 31 ≤ ({ up with rxPos := 2 ^ 32 }).rxPos ∧ up.rxPos ≤ 0 ∧ 2 ^ 31 - 1 < up.rxPos + 2 ^ 31) ∧
    (let q := { up with retry := [(2 ^ 32 + 7, some (flit 7)), (2 ^ 32 + 8, none)] }
     q.ctl = [] ∧ q.retry.find? (fun e => e.1 % 2 ^ 32 == 8) = some (2 ^ 32 + 8, none) ∧ q.retry.find? (fun e => e.1 % 2 ^ 32 == 9) = none) ∧
    (let q := { up with adapt := some (2, 2), rxAdd := some (9, 0xFF) }
     q.adapt = some (2, 2) ∧ q.rxAdd.isSome = true) ∧
    (flitNo up (flit 0) = up.rxNext ∧ up.resendOwed = false) := by
  decide +kernel

theorem witness_FabricTarget_f :
    let p := packet 1 0 0x40 0 [1, 2]
    whoArrive s p = whoFabric ∧ (performWrite s (whoArrive s p) 0x40 [1, 2]).1 = none ∧
      (both (admitted 0x80 [packet 5 0 0x80 0 (List.replicate 128 0)] s) (fun ps sa => ps == [packet 5 0 0x80 0 (List.replicate 128 0)] &&
        (readPa sa (whoArrive sa (packet 5 0 0x80 0 (List.replicate 128 0))) 0x80 128).1.err == none)) = true := by
  decide +kernel

/-- The next tag free, used lately, or of a request without a response; a request to this device or through it, with a key or
none. -/
theorem witness_FabricSource_c :
    (let S := routes (fun r => { r with nextTag := 5, outst := [(5, asked .group false 0)] })
     mget S.router.nextTag s.router.outst = none ∧ (mget S.router.nextTag S.router.outst).isSome = true) ∧
    (let S := routes (fun r => { r with keys := [(63, ⟨1, 0, 0, [], []⟩)] })
     (keySlot S (packet 1 0 0x40 0 []).job).isSome = true) ∧
    keySlot s (packet 1 0 0x40 0 []).job = none ∧ s.router.installing ≠ some 1 ∧ (1 : Nat) < (routes (fun r => { r with nextId := 2 })).router.nextId ∧
    (waiterIssuer s 4).replay = false := by
  decide +kernel

/-- A leader whose rank 1 lies in its own Ecmen group: that rank's vector is the last it awaits. -/
theorem witness_FabricTarget_e (h : rankGroup leadOp 1 = rankGroup leadOp 0) :
    relays ⟨0, 1, [leadOp], [], none, []⟩ ⟨1, 9, 0x80, 0, 0, [0, 0, 0, 0]⟩ = true := by
  have d : collDesc leadOp.desc = ⟨2, 0, 0, 5, 2, 0, 0, 0, 0, 0, 1, 0, 0, 0⟩ := by decide +kernel
  have l0 : leaderOf leadOp 0 = 0 := by simp [leaderOf, d, List.range, List.range.loop]
  have l1 : leaderOf leadOp 1 = 0 := by simp [leaderOf, d, List.range, List.range.loop, h]
  have f : firstSeg leadOp 1 0 = some (0, 1) := by simp [firstSeg, d, l1]
  have g : leadOp.stage = 1 ∧ leadOp.relay = none := ⟨rfl, rfl⟩
  simp [relays, gatherFirst, d, l0, f, g.1, g.2, List.range, List.range.loop, collPieces, inboxOf, cutRange, collPer, collSize]

end
end

namespace Sys2Proof.Machine

/-! The canonical form of memory is kept by every step (O59)

`Canon s` says that the memory of `s` is in its canonical form. `memWrite` and `memClear` keep the form, and every other
function of the model changes memory through these alone: for each function `f` that gives a state, the lemma `canon_f`
says that what it gives is canonical when what it is given is. The lemmas stand in the order of the model's files; a
function that gives several outcomes or may fail is described by `CanonOut`, `OkAll`, `SomeAll` or `EitherAll`.

The kernel must not evaluate an access to memory at a fixed address when it compares two states: a record update is
shown by `Canon.update`, a pair is taken apart by `split`, and where that does not suffice the function is held opaque
(`obtain ⟨R, hR⟩ : ∃ R, R = f := ⟨_, rfl⟩`). -/

/-- The memory of a state is in its canonical form. -/
structure Canon (s : State) : Prop where
  wf : Memory.wf s.mem = true

/-- The memory is the only field that `Canon` speaks of: any other may change. -/
theorem Canon.update {s : State} {now timer free stamp cur hart : Nat} {todo : List Todo} {agenda : List Due} {sramErr
    : Map (BitVec 288)} {tags : Map Tag} {tagErr liveTids : List Nat} {barArr ctxJobs finals : Map Nat} {cores : Map
    Core} {engines : Map Engine} {colls : Map Coll} {tlbs : Map (List TlbEnt)} {walkCache : Map (List WalkEnt)} {walks
    : Map Walk} {walkFails : List WalkFail} {tlbis : List Tlbi} {tlbiq : TlbiQueue} {dies : Vector Die 4} {jobs : Map
    (Bool × JobRegs)} {saved : Map Saved} {groups : Map Group} {hbm : Hbm} {eddy : Eddy} {weir : Weir} {router :
    Router} {harts : Vector Hart 16} {auditor : Auditor} {plat : Platform} {dredge : Dredge} (h : Canon s) :
    Canon ⟨now, timer, free, stamp, cur, hart, todo, agenda, s.mem, sramErr, tags, tagErr, barArr, cores, engines,
    colls, ctxJobs, tlbs, walkCache, walks, walkFails, tlbis, tlbiq, dies, jobs, finals, liveTids, saved, groups, hbm,
    eddy, weir, router, harts, auditor, plat, dredge⟩ := .mk h.wf

theorem Canon.snd_of {α : Type} {p : α × State} (h : ∀ a s, p = (a, s) → Canon s) : Canon p.2 := h _ _ rfl

theorem Canon.of_eq {α : Type} {p : α × State} {a : α} {s : State} (e : p = (a, s)) (h : Canon p.2) : Canon s := by
  subst e
  exact h

theorem Canon.of_eq_fst {α : Type} {p : State × α} {a : α} {s : State} (e : p = (s, a)) (h : Canon p.1) :
    Canon s := by
  subst e
  exact h

theorem Canon.of_eq_third {α β : Type} {p : α × β × State} {a : α} {b : β} {s : State} (e : p = (a, b, s))
    (h : Canon p.2.2) :
    Canon s := by
  subst e
  exact h

theorem canon_ite {p : Prop} [Decidable p] {a b : State} (ha : Canon a) (hb : Canon b) :
    Canon (if p then a else b) := by
  split
  · exact ha
  · exact hb

/-- Every state that an outcome gives is canonical. -/
def CanonOut (o : Out) : Prop := ∀ s, o = .next s → Canon s
/-- What a computation returns, if it returns, satisfies `P`. -/
def OkAll {ε α : Type} (P : α → Prop) (x : Except ε α) : Prop := ∀ a, x = .ok a → P a
/-- What an option holds, if it holds anything, satisfies `P`. -/
def SomeAll {α : Type} (P : α → Prop) (x : Option α) : Prop := ∀ a, x = some a → P a

theorem Canon.of_next {o : Out} {s : State} (e : o = .next s) (h : CanonOut o) : Canon s := h s e

theorem Canon.of_ok {ε : Type} {x : Except ε State} {s : State} (e : x = .ok s) (h : OkAll Canon x) : Canon s := h s e

theorem Canon.of_ok_snd {ε α : Type} {x : Except ε (α × State)} {a : α} {s : State} (e : x = .ok (a, s))
    (h : OkAll (fun r => Canon r.2) x) : Canon s := h (a, s) e

theorem Canon.of_ok_fst {ε α : Type} {x : Except ε (State × α)} {a : α} {s : State} (e : x = .ok (s, a))
    (h : OkAll (fun r => Canon r.1) x) : Canon s := h (s, a) e

theorem Canon.of_some {x : Option State} {s : State} (e : x = some s) (h : SomeAll Canon x) : Canon s := h s e

theorem Canon.of_some_snd {α : Type} {x : Option (α × State)} {a : α} {s : State} (e : x = some (a, s))
    (h : SomeAll (fun r => Canon r.2) x) : Canon s := h (a, s) e

theorem Canon.of_some_ok {ε : Type} {x : Option (Except ε State)} {s : State} (e : x = some (.ok s))
    (h : SomeAll (OkAll Canon) x) : Canon s := h (.ok s) e s rfl

theorem OkAll.out {ε α : Type} {P : α → Prop} {x : Except ε α} {a : α} (e : x = .ok a) (h : OkAll P x) : P a := h a e

theorem SomeAll.out {α : Type} {P : α → Prop} {x : Option α} {a : α} (e : x = some a) (h : SomeAll P x) : P a := h a e

theorem CanonOut.next {s : State} (h : Canon s) : CanonOut (.next s) := by
  rintro _ ⟨⟩
  exact h

theorem CanonOut.fault {f : Fault} : CanonOut (.fault f) := by rintro _ ⟨⟩

theorem CanonOut.refused {f : Refusal} : CanonOut (.refused f) := by rintro _ ⟨⟩

/-- Both ways out of a computation: what it returns satisfies `Q`, and what it raises `P`. -/
structure EitherAll {ε α : Type} (P : ε → Prop) (Q : α → Prop) (x : Except ε α) : Prop where
  ok : OkAll Q x
  error : ∀ e, x = .error e → P e

theorem EitherAll.ofOk {ε α : Type} {P : ε → Prop} {Q : α → Prop} {a : α} (h : Q a) :
    EitherAll P Q (.ok a : Except ε α) := by
  constructor
  · rintro _ ⟨⟩
    exact h
  · rintro _ ⟨⟩

theorem EitherAll.ofError {ε α : Type} {P : ε → Prop} {Q : α → Prop} {e : ε} (h : P e) :
    EitherAll P Q (.error e : Except ε α) := by
  constructor
  · rintro _ ⟨⟩
  · rintro _ ⟨⟩
    exact h

section
variable {ε α β : Type} {P : α → Prop} {Q : β → Prop}

theorem OkAll.ok {a : α} (h : P a) : OkAll P (.ok a : Except ε α) := by
  rintro _ ⟨⟩
  exact h

theorem OkAll.error {e : ε} : OkAll P (.error e) := by rintro _ ⟨⟩

theorem SomeAll.some {a : α} (h : P a) : SomeAll P (some a) := by
  rintro _ ⟨⟩
  exact h

theorem SomeAll.none : SomeAll P none := by rintro _ ⟨⟩

theorem OkAll.bind {x : Except ε α} {f : α → Except ε β} (hx : OkAll P x) (h : ∀ a, P a → OkAll Q (f a)) :
    OkAll Q (x.bind f) := by
  cases x with
  | error => exact .error
  | ok a => exact h a (hx a rfl)

theorem OkAll.bindAny {x : Except ε α} {f : α → Except ε β} (h : ∀ a, OkAll Q (f a)) : OkAll Q (x.bind f) := by
  cases x with
  | error => exact .error
  | ok a => exact h a

theorem OkAll.map {x : Except ε α} {f : α → β} (hx : OkAll P x) (h : ∀ a, P a → Q (f a)) : OkAll Q (x.map f) := by
  cases x with
  | error => exact .error
  | ok a => exact .ok (h a (hx a rfl))

theorem OkAll.mapAny {x : Except ε α} {f : α → β} (h : ∀ a, Q (f a)) : OkAll Q (x.map f) := by
  cases x with
  | error => exact .error
  | ok a => exact .ok (h a)

theorem SomeAll.mapAny {x : Option α} {f : α → β} (h : ∀ a, Q (f a)) : SomeAll Q (x.map f) := by
  cases x with
  | none => exact .none
  | some a => exact .some (h a)

theorem SomeAll.map {x : Option α} {f : α → β} (hx : SomeAll P x) (h : ∀ a, P a → Q (f a)) : SomeAll Q (x.map f) := by
  cases x with
  | none => exact .none
  | some a => exact .some (h a (hx a rfl))
end

theorem canon_foldl {α : Type} {f : State → α → State} {l : List α} {s : State} (h : ∀ s a, Canon s → Canon (f s a))
    (hs : Canon s) :
    Canon (l.foldl f s) :=
  foldl_keeps Canon f h l s hs



theorem canon_sramEffects {s : State} {pa n : Nat} (hs : Canon s) : Canon (sramEffects s pa n) := ⟨by
  rw [mem_sramEffects]
  exact hs.wf⟩

theorem canon_storeNow {s : State} {pa : Nat} {bs : List Byte} (hs : Canon s) :
    Canon (storeNow s pa bs) := ⟨wf_storeNow _ _ _ hs.wf⟩

theorem canon_storeUnits {s : State} {pa : Nat} {bs : List Byte} (hs : Canon s) :
    Canon (storeUnits s pa bs) := ⟨wf_storeUnits _ _ _ hs.wf⟩

theorem canon_fqWrite {s : State} {d : Nat} {ws : List Word} (hs : Canon s) :
    Canon (fqWrite s d ws) := ⟨wf_fqWrite _ _ _ hs.wf⟩

theorem canon_fqEvent {s : State} {d : Nat} {ws : List Word} (hs : Canon s) :
    Canon (fqEvent s d ws) := ⟨wf_fqEvent _ _ _ hs.wf⟩

theorem canon_fqFault {s : State} {d : Nat} {ws : List Word} (hs : Canon s) :
    Canon (fqFault s d ws) := ⟨wf_fqFault _ _ _ hs.wf⟩

theorem canon_saveFrame {s : State} {c : Nat} {t : Thread} (hs : Canon s) :
    Canon (saveFrame s c t) := ⟨wf_saveFrame _ _ _ hs.wf⟩

/-- The state that a place found by an engine may carry. -/
def EPlace.Canon : EPlace → Prop
  | .ok _ => True
  | .wait s => Machine.Canon s
  | .stop s => Machine.Canon s

theorem Canon.of_stop {p : EPlace × State} {s s' : State} (e : p = (.stop s, s')) (h : p.1.Canon) : Canon s := by
  subst e
  exact h

theorem Canon.of_wait {p : EPlace × State} {s s' : State} (e : p = (.wait s, s')) (h : p.1.Canon) : Canon s := by
  subst e
  exact h

theorem Canon.of_place_stop {p : EPlace} {s : State} (e : p = .stop s) (h : p.Canon) : Canon s := by
  subst e
  exact h

theorem Canon.of_place_wait {p : EPlace} {s : State} (e : p = .wait s) (h : p.Canon) : Canon s := by
  subst e
  exact h

theorem EPlace.Canon.stop {s : State} (h : Machine.Canon s) : (EPlace.stop s).Canon := h

theorem EPlace.Canon.wait {s : State} (h : Machine.Canon s) : (EPlace.wait s).Canon := h

theorem EPlace.Canon.ok {p : Place} : (EPlace.ok p).Canon := trivial

/-! The shared operations over the state -/

theorem canon_setCore {s : State} {c : Nat} {k : Core} (hs : Canon s) : Canon (setCore s c k) :=
  .update hs

theorem canon_setThread {s : State} {c : Nat} {t : Thread} (hs : Canon s) : Canon (setThread s c t) :=
  canon_setCore hs

theorem canon_modThread {s : State} {c : Nat} {f : Thread → Thread} (hs : Canon s) : Canon (modThread s c f) := by
  unfold modThread
  split
  · exact hs
  · exact canon_setThread hs

theorem canon_modCore {s : State} {c : Nat} {f : Core → Core} (hs : Canon s) : Canon (modCore s c f) :=
  canon_setCore hs

theorem canon_modDie {s : State} {d : Nat} {f : Die → Die} (hs : Canon s) : Canon (modDie s d f) := by
  unfold modDie
  split
  · exact .update hs
  · exact hs

theorem canon_modEngine {s : State} {e : Nat} {f : Engine → Engine} (hs : Canon s) : Canon (modEngine s e f) :=
  .update hs

theorem canon_takeFree {s : State} (hs : Canon s) : Canon (takeFree s).2 := by
  unfold takeFree
  dsimp only
  exact .update hs

theorem canon_takeStamp {s : State} (hs : Canon s) : Canon (takeStamp s).2 := by
  unfold takeStamp
  dsimp only
  exact .update hs

theorem canon_schedule {s : State} {d : Nat} {e : Instr} (hs : Canon s) : Canon (schedule s d e) := by
  unfold schedule
  split <;> exact .update hs

theorem canon_pushEvs {s : State} {es : List Instr} (hs : Canon s) : Canon (pushEvs s es) :=
  .update hs

theorem canon_cancel {s : State} {p : Instr → Bool} (hs : Canon s) : Canon (cancel s p) :=
  .update hs

theorem canon_quietCore {s : State} {c : Nat} (hs : Canon s) : Canon (quietCore s c) :=
  .update (canon_cancel hs)

theorem canon_modSlice {s : State} {c : Nat} {f : Slice → Slice} (hs : Canon s) : Canon (modSlice s c f) :=
  canon_modCore hs

theorem canon_dropTracker {s : State} {core ent addr : Nat} (hs : Canon s) : Canon (dropTracker s core ent addr) :=
  canon_modSlice hs

theorem canon_storePosted {s : State} (hs : Canon s) : Canon (storePosted s) :=
  canon_foldl (fun _ _ hk => canon_storeNow hk) (.update hs)

theorem canon_fqFlush {n : Nat} {s : State} {a : Nat} (hs : Canon s) : Canon (fqFlush n s a) := by
  induction n generalizing s a with
  | zero => exact hs
  | succ n ih =>
    unfold fqFlush
    split
    · exact hs
    · split
      · exact ih (canon_fqWrite (canon_modDie hs))
      · exact hs

theorem canon_logEvent {s : State} {d cls cause : Nat} {core : Nat} {ga pa qw6 qw7 : Word} {req : Nat} {ctx : Nat}
    (hs : Canon s) :
    Canon (logEvent s d cls cause core ga pa qw6 qw7 req ctx) :=
  canon_fqEvent hs

theorem canon_dropReplay {s : State} (hs : Canon s) : Canon (dropReplay s) := by
  unfold dropReplay
  dsimp only
  split
  · split
    · exact hs
    · exact .update hs
  · exact hs

theorem canon_abandonReplay {s : State} {c : Nat} (hs : Canon s) : Canon (abandonReplay s c) :=
  canon_modThread (canon_dropReplay hs)

theorem canon_doubleFault {s : State} {c : Nat} {t : Thread} {f : FaultRec} (hs : Canon s) :
    Canon (doubleFault s c t f) :=
  canon_setThread hs

theorem canon_takeException {s : State} {c : Nat} {f : FaultRec} {idx : Option Nat} (hs : Canon s) :
    Canon (takeException s c f idx) := by
  unfold takeException
  dsimp only
  split
  · exact hs
  · split
    · dsimp only
      split
      · exact canon_doubleFault (.update hs)
      · split
        · exact canon_abandonReplay (.update hs)
        · exact canon_setThread (.update hs)
    · split
      · exact canon_doubleFault (.update hs)
      · split
        · exact canon_abandonReplay (.update hs)
        · exact canon_setThread (.update hs)

theorem canon_startExpansion {s : State} {c : Nat} {target : Word} (hs : Canon s) :
    Canon (startExpansion s c target) := by
  unfold startExpansion
  dsimp only
  split
  · exact hs
  · exact canon_schedule (canon_setThread hs)

theorem canon_startWalk {s : State} {c cache ctx : Nat} {va : Word} {regs : JobRegs} (hs : Canon s) :
    Canon (startWalk s c cache ctx va regs) := by
  unfold startWalk
  dsimp only
  split
  · exact hs
  · exact canon_schedule (.update (canon_takeStamp (canon_takeFree hs)))

theorem canon_attend {s : State} {c : Nat} {a : Attn} (hs : Canon s) : Canon (attend s c a) := by
  unfold attend
  dsimp only
  split
  · exact canon_takeException hs
  · exact canon_takeException hs
  · exact canon_modThread hs
  · exact canon_takeException hs
  · exact canon_modThread hs
  · split
    · exact hs
    · exact canon_modThread (canon_takeException (canon_modCore hs))
  · split
    · exact hs
    · split
      · exact canon_modThread (canon_takeException (canon_setThread hs))
      · exact canon_setThread hs
  · exact canon_modThread (canon_startWalk hs)
  · refine canon_modThread ?_
    split
    · split
      · exact hs
      · exact canon_startExpansion hs
    · split
      · exact hs
      · exact canon_startExpansion hs

theorem canon_runSlot {g : Guard} {s : State} {f : Thread → Slot} (hs : Canon s) (hf : ∀ t, OkAll Canon (f t)) :
    CanonOut (runSlot g s f) := by
  unfold runSlot
  split
  · exact .next hs
  · split
    · split
      · rename_i e
        exact .next (.of_ok e (hf _))
      · exact .next (canon_attend hs)
    · exact .next hs

theorem canon_runAlways {s : State} {f : Thread → Slot} (hs : Canon s) (hf : ∀ t, OkAll Canon (f t)) :
    CanonOut (runAlways s f) := by
  unfold runAlways
  split
  · exact .next hs
  · split
    · rename_i e
      exact .next (.of_ok e (hf _))
    · exact .next (canon_attend hs)

theorem canon_putScalar {s : State} {t : Thread} {rd : BitVec 5} {v : Word} {l : Nat} (hs : Canon s) :
    OkAll Canon (putScalar s t rd v l) :=
  OkAll.mapAny (fun _ => canon_setThread hs)

theorem canon_putPred {s : State} {t : Thread} {pd : BitVec 3} {v : Bool} {l : Nat} (hs : Canon s) :
    OkAll Canon (putPred s t pd v l) :=
  OkAll.mapAny (fun _ => canon_setThread hs)

/-! Physical memory -/

theorem canon_sramEvent {s : State} {c cause word bank : Nat} (hs : Canon s) :
    Canon (sramEvent s c cause word bank) :=
  canon_logEvent hs

theorem canon_bankLimit {s : State} {c word k : Nat} (hs : Canon s) : Canon (bankLimit s c word k) := by
  unfold bankLimit
  dsimp only
  split
  · exact hs
  · split
    · exact canon_sramEvent (canon_modSlice hs)
    · split
      · exact hs
      · exact canon_sramEvent (canon_modSlice hs)

theorem canon_correctedAt {s : State} {c word k : Nat} (hs : Canon s) : Canon (correctedAt s c word k) :=
  canon_bankLimit (canon_sramEvent (canon_modSlice hs))

theorem canon_uncorrectedAt {s : State} {c word n : Nat} (hs : Canon s) : Canon (uncorrectedAt s c word n) :=
  canon_sramEvent (canon_modSlice hs)

theorem canon_readSramWord {s : State} {w : Nat} (hs : Canon s) : Canon (readSramWord s w).2 := by
  unfold readSramWord
  dsimp only
  split
  · exact hs
  · split
    · dsimp only
      exact canon_foldl (fun _ _ hk => canon_correctedAt hk) hs
    · dsimp only
      exact canon_uncorrectedAt (canon_foldl (fun _ _ hk => canon_correctedAt hk) hs)

theorem canon_sramWords {n : Nat} {s : State} {a : Nat} (hs : Canon s) : Canon (sramWords n s a).2.2 := by
  induction n generalizing s a with
  | zero => exact hs
  | succ n ih =>
    unfold sramWords
    dsimp only
    split <;> exact ih (canon_readSramWord hs)

theorem canon_pcFail {s : State} {g reason : Nat} (hs : Canon s) : Canon (pcFail s g reason) :=
  canon_logEvent hs

theorem canon_burstCorrected {s : State} {h : Nat} (hs : Canon s) : Canon (burstCorrected s h) := by
  unfold burstCorrected
  dsimp only
  split
  · exact canon_pcFail (.update hs)
  · exact .update hs

theorem canon_unitRead {s : State} {size u : Nat} (hs : Canon s) : Canon (unitRead s size u) := by
  unfold unitRead
  dsimp only
  split
  · exact canon_pcFail (canon_foldl (fun _ _ hk => canon_burstCorrected (.update hk)) hs)
  · exact canon_foldl (fun _ _ hk => canon_burstCorrected (.update hk)) hs

theorem canon_reportMerges {s : State} (hs : Canon s) : Canon (reportMerges s) := by
  unfold reportMerges
  refine canon_foldl ?_ (.update hs)
  intro _ _ hk
  split
  · exact canon_burstCorrected hk
  · exact canon_pcFail hk

theorem canon_hbmUnits {size n : Nat} {s : State} {a : Nat} (hs : Canon s) : Canon (hbmUnits size n s a).2.2 := by
  induction n generalizing s a with
  | zero => exact hs
  | succ n ih =>
    unfold hbmUnits
    exact ih (canon_unitRead hs)

theorem canon_hbmRead {n : Nat} {s : State} {a b : Nat} (hs : Canon s) : Canon (hbmRead n s a b).2.2 := by
  induction n generalizing s a b with
  | zero => exact hs
  | succ n ih =>
    unfold hbmRead
    dsimp only
    split
    · dsimp only
      exact canon_hbmUnits hs
    · exact ih (canon_hbmUnits hs)

theorem canon_logNoTarget {s : State} {w : Who} {pa : Nat} {ga : Word} (hs : Canon s) :
    Canon (logNoTarget s w pa ga) :=
  canon_logEvent hs

theorem canon_spanLog {s : State} {w : Who} {e : Nat × Nat} {ga : Word} (hs : Canon s) :
    Canon (spanLog s w e ga) := by
  unfold spanLog
  split
  · exact canon_logNoTarget hs
  · exact hs

theorem canon_readPa {s : State} {w : Who} {pa n : Nat} {ga : Word} (hs : Canon s) :
    Canon (readPa s w pa n ga).2 := by
  unfold readPa
  split
  · exact canon_spanLog hs
  · split
    · extract_lets
      split
      rename_i e
      exact .of_eq_third e (canon_sramWords hs)
    · split
      rename_i e
      exact .of_eq_third e (canon_hbmRead hs)

theorem canon_sramPut {n : Nat} {s : State} {a : Nat} {bs : List Byte} (hs : Canon s) :
    Canon (sramPut n s a bs).2 := by
  induction n generalizing s a bs with
  | zero => exact hs
  | succ n ih =>
    unfold sramPut
    dsimp only
    split
    · exact hs
    · refine ih ?_
      split
      · dsimp only
        exact canon_sramEffects ⟨wf_memWrite _ _ _ hs.wf⟩
      · split
        · dsimp only
          rename_i e
          exact canon_sramEffects ⟨wf_memWrite _ _ _ (wf_memWrite _ _ _ ((Canon.of_eq e (canon_readSramWord hs)).wf))⟩
        · dsimp only
          rename_i e
          exact .of_eq e (canon_readSramWord hs)

theorem canon_hbmPut {n : Nat} {s : State} {a : Nat} {bs : List Byte} (hs : Canon s) : Canon (hbmPut n s a bs).2 := by
  induction n generalizing s a bs with
  | zero => exact hs
  | succ n ih =>
    unfold hbmPut
    dsimp only
    split
    · exact hs
    · refine ih ?_
      split
      · split
        · split
          · exact canon_unitRead hs
          · exact hs
        · split
          · exact canon_unitRead hs
          · exact hs
      · split
        · split
          · exact ⟨wf_memWrite _ _ _ ((canon_unitRead hs).wf)⟩
          · exact ⟨wf_memWrite _ _ _ hs.wf⟩
        · split
          · exact ⟨wf_memWrite _ _ _ ((canon_unitRead hs).wf)⟩
          · exact ⟨wf_memWrite _ _ _ hs.wf⟩

theorem canon_performWrite {s : State} {w : Who} {pa : Nat} {bs : List Byte} {ga : Word} (hs : Canon s) :
    Canon (performWrite s w pa bs ga).2 := by
  unfold performWrite
  dsimp only
  split
  · dsimp only
    exact canon_spanLog hs
  · split
    · dsimp only
      exact canon_sramPut hs
    · dsimp only
      exact canon_hbmPut hs

/-! The race detector -/

theorem canon_tagOf {s : State} {g : Nat} (hs : Canon s) : Canon (tagOf s g).2 := by
  unfold tagOf
  dsimp only
  split
  · dsimp only
    exact canon_sramEvent (.update hs)
  · exact hs

theorem canon_setTag {s : State} {g : Nat} {t : Tag} (hs : Canon s) : Canon (setTag s g t) :=
  .update hs

theorem canon_noteCtxJob {s : State} {ctx : Nat} {r : JobRegs} (hs : Canon s) : Canon (noteCtxJob s ctx r) :=
  .update hs

theorem canon_checkGranules {v : View} {k : Touch} {xs : List Nat} {s : State} (hs : Canon s) :
    Canon (checkGranules v k xs s).2 := by
  induction xs generalizing s with
  | nil => exact hs
  | cons x xs ih =>
    unfold checkGranules
    dsimp only
    split
    · dsimp only
      exact canon_tagOf hs
    · exact ih (canon_tagOf hs)

theorem canon_touchGranules {s : State} {v : View} {k : Touch} {gs : List Nat} (hs : Canon s) :
    Canon (touchGranules s v k gs) :=
  canon_foldl (fun _ _ hk => canon_setTag (canon_tagOf hk)) hs

theorem canon_clearTags {s : State} {pa n : Nat} (hs : Canon s) : Canon (clearTags s pa n) :=
  canon_foldl (fun _ _ hk => canon_setTag hk) hs

theorem canon_storeRecord {s : State} {g : Nat} {aset : List AEntry} {coarse : Bool} (hs : Canon s) :
    Canon (storeRecord s g aset coarse) := by
  unfold storeRecord
  exact canon_modSlice (canon_takeStamp hs)

theorem canon_threadTouch {s : State} {core : Nat} {t : Thread} {k : Touch} {pa n : Nat} {ga : Word} {req : Nat}
    (hs : Canon s) :
    OkAll Canon (threadTouch s core t k pa n ga req) := by
  unfold threadTouch
  dsimp only
  split
  · refine .ok ?_
    split
    · exact canon_clearTags hs
    · exact canon_clearTags hs
    · exact hs
  · split
    · exact .ok hs
    · split
      · exact .ok (canon_touchGranules (canon_modThread hs))
      · split
        · exact .error
        · rename_i e
          exact .ok (canon_touchGranules (.of_eq e (canon_checkGranules hs)))

theorem canon_engineTouch {s : State} {i : Issuer} {k : Touch} {pa n : Nat} {ga : Word} {req ctx : Nat}
    (hs : Canon s) :
    OkAll Canon (engineTouch s i k pa n ga req ctx) := by
  unfold engineTouch
  dsimp only
  split
  · exact .ok hs
  · split
    · refine .ok ?_
      split
      · exact canon_clearTags hs
      · exact hs
    · split
      · exact .error
      · rename_i e
        exact .ok (canon_touchGranules (.of_eq e (canon_checkGranules hs)))

/-! Generic addresses -/

theorem canon_readEntry {s : State} {core pa n level : Nat} {prev : Word} (hs : Canon s) :
    Canon (readEntry s core pa n level prev).2 := by
  unfold readEntry
  dsimp only
  split
  · exact hs
  · split
    · split
      · dsimp only
        exact canon_readPa hs
      · dsimp only
        exact canon_readPa hs
    · exact hs

theorem canon_finishLeaf {s : State} {core : Nat} {r : JobRegs} {va : Word} {level : Nat} {e : Word} (hs : Canon s) :
    Canon (finishLeaf s core r va level e).2 := by
  unfold finishLeaf
  extract_lets log devx base ent
  split
  · exact hs
  · split
    · split <;> exact hs
    · split
      · rename_i hr
        exact .of_eq hr (canon_readEntry hs)
      · rename_i hr
        have h1 := Canon.of_eq hr (canon_readEntry hs)
        split
        · exact h1
        · split <;> exact h1

theorem canon_walk3 {s : State} {core : Nat} {r : JobRegs} {va : Word} {next : Nat} {p : Word} (hs : Canon s) :
    Canon (walk3 s core r va next p).2 := by
  unfold walk3
  split
  · exact hs
  · split
    · dsimp only
      rename_i e
      exact .of_eq e (canon_readEntry hs)
    · split
      · dsimp only
        rename_i e _
        exact .of_eq e (canon_readEntry hs)
      · split
        · dsimp only
          rename_i e _ _
          exact .of_eq e (canon_readEntry hs)
        · rename_i e _ _
          exact canon_finishLeaf (.of_eq e (canon_readEntry hs))

theorem canon_walk2 {s : State} {core : Nat} {r : JobRegs} {va : Word} {next : Nat} {p : Word} (hs : Canon s) :
    Canon (walk2 s core r va next p).2 := by
  unfold walk2
  split
  · dsimp only
    rename_i e
    exact .of_eq e (canon_readEntry hs)
  · split
    · dsimp only
      rename_i e _
      exact .of_eq e (canon_readEntry hs)
    · split
      · split
        · dsimp only
          rename_i e _ _ _ _ _ e2
          exact .of_eq e2 (canon_finishLeaf (.of_eq e (canon_readEntry hs)))
        · dsimp only
          rename_i e _ _ _ _ _ e2
          exact .of_eq e2 (canon_finishLeaf (.of_eq e (canon_readEntry hs)))
      · split
        · dsimp only
          rename_i e _ _ _
          exact .of_eq e (canon_readEntry hs)
        · split
          · dsimp only
            rename_i e _ _ _ _ _ _ e2
            exact .of_eq e2 (canon_walk3 (.of_eq e (canon_readEntry hs)))
          · dsimp only
            rename_i e _ _ _ _ _ _ e2
            exact .of_eq e2 (canon_walk3 (.of_eq e (canon_readEntry hs)))

theorem canon_rememberPointer {s : State} {core level asid : Nat} {va : Word} {next : Nat} (hs : Canon s) :
    Canon (rememberPointer s core level asid va next) :=
  .update (canon_takeFree hs)

theorem canon_walkTables {s : State} {core : Nat} {r : JobRegs} {va : Word} (hs : Canon s) :
    Canon (walkTables s core r va).2 := by
  have hr : ∀ {pa n l p}, Canon (readEntry s core pa n l p).2 := canon_readEntry hs
  obtain ⟨R, hR⟩ : ∃ R, R = readEntry := ⟨_, rfl⟩
  refine .snd_of fun x s' e => ?_
  unfold walkTables at e
  rw [← hR] at hr e
  extract_lets asid second at e
  have h2 : ∀ {s0 next first x s'}, Canon s0 → second s0 next first = (x, s') → Canon s' := by
    intro s0 next first x s' h e
    unfold second at e
    split at e
    · rename_i e1
      cases e
      exact .of_eq e1 (canon_walk2 h)
    · rename_i e1
      have h1 := Canon.of_eq e1 (canon_walk2 h)
      cases e
      split
      · exact canon_rememberPointer (canon_ite (canon_rememberPointer h1) h1)
      · exact canon_ite (canon_rememberPointer h1) h1
  split at e
  · cases e
    exact hs
  · split at e
    · exact .of_eq e (canon_walk3 hs)
    · split at e
      · exact h2 hs e
      · split at e
        · rename_i e1
          cases e
          exact .of_eq e1 hr
        · rename_i e1
          have h1 := Canon.of_eq e1 hr
          split at e
          · cases e
            exact h1
          · split at e
            · cases e
              exact h1
            · exact h2 h1 e

theorem canon_tlbInstall {s : State} {core cache : Nat} {e : TlbEnt} (hs : Canon s) :
    Canon (tlbInstall s core cache e) :=
  .update (canon_takeFree (.update (canon_takeFree hs)))

theorem canon_resolveNow {s : State} {rq : Rq} {home req ctx : Nat} {r : JobRegs} {priv : Bool} {acc : Acc}
    {va : Word} (hs : Canon s) :
    Canon (resolveNow s rq home req ctx r priv acc va).2 := by
  unfold resolveNow
  dsimp only
  split
  · split
    · dsimp only
      rename_i e
      exact .of_eq e (canon_walkTables hs)
    · dsimp only
      rename_i e
      exact .of_eq e (canon_walkTables hs)
    · split
      · dsimp only
        rename_i e _ _ _
        exact .of_eq e (canon_walkTables hs)
      · dsimp only
        rename_i e _ _
        exact .of_eq e (canon_walkTables hs)
  · exact hs

theorem canon_noteHint {s : State} {p : Place} (hs : Canon s) : Canon (noteHint s p) := by
  unfold noteHint
  dsimp only
  split
  · split
    · exact .update hs
    · exact hs
  · exact hs

theorem canon_readPlace {s : State} {w : Who} {p : Place} {n : Nat} {va : Word} (hs : Canon s) :
    Canon (readPlace s w p n va).2 := by
  unfold readPlace
  split
  · exact hs
  · exact canon_readPa (canon_noteHint hs)

/-! Control-register space read -/

theorem canon_ctlRead {s : State} {w : Who} {pa n : Nat} {ga : Word} (hs : Canon s) :
    Canon (ctlRead s w pa n ga).2 := by
  unfold ctlRead
  dsimp only
  split
  · dsimp only
    exact canon_logNoTarget hs
  · exact hs

theorem canon_readAny {s : State} {w : Who} {pa n : Nat} {ga : Word} (hs : Canon s) :
    Canon (readAny s w pa n ga).2 := by
  unfold readAny
  split
  · exact canon_ctlRead hs
  · exact canon_readPa hs

/-! Where an auditor's replay reads and writes -/

theorem canon_scratchWrite {s : State} {a : Nat} {bs : List Byte} (hs : Canon s) : Canon (scratchWrite s a bs) := by
  unfold scratchWrite
  dsimp only
  split
  · exact hs
  · exact .update hs

theorem canon_replayWrite {s : State} {core : Nat} {r : JobRegs} {anm : Bool} {pa : Nat} {ga : Word}
    {bs : List Byte} (hs : Canon s) :
    SomeAll (OkAll Canon) (replayWrite s core r anm pa ga bs) := by
  unfold replayWrite
  split
  · exact .none
  · exact .some (.ok (canon_scratchWrite hs))
  · exact .some .error

/-! Variable-latency requests -/

theorem canon_loadedLatency {s : State} {c pa : Nat} (hs : Canon s) : Canon (loadedLatency s c pa).2 := by
  unfold loadedLatency
  dsimp only
  split
  · exact hs
  · dsimp only
    exact canon_takeFree hs

theorem canon_launchParts {s : State} {c : Nat} {q : Req} (hs : Canon s) : Canon (launchParts s c q) := by
  unfold launchParts
  refine canon_foldl ?_ hs
  intro _ _ hk
  dsimp only
  split
  · exact hk
  · exact canon_schedule (canon_loadedLatency hk)

theorem canon_issueReq {s : State} {t : Thread} {kind : ReqKind} {cls : Nat} {dest : Dest} {l : Landing}
    {ord scope : Nat} {parts : List Part} (hs : Canon s) :
    OkAll Canon (issueReq s t kind cls dest l ord scope parts) := by
  unfold issueReq
  dsimp only
  split
  · exact .error
  · split
    · exact .error
    · split
      · exact .error
      · split
        · exact .error
        · exact .ok (canon_launchParts (canon_setThread hs))

theorem canon_modReq {s : State} {c id : Nat} {f : Req → Req} (hs : Canon s) : Canon (modReq s c id f) :=
  canon_modThread hs

theorem canon_modPart {s : State} {c id k : Nat} {f : Part → Part} (hs : Canon s) : Canon (modPart s c id k f) :=
  canon_modReq hs

theorem canon_settleReq {s : State} {c id : Nat} (hs : Canon s) : Canon (settleReq s c id) := by
  unfold settleReq
  dsimp only
  split
  · exact hs
  · split
    · exact hs
    · split
      · exact canon_modReq (canon_modThread hs)
      · exact canon_modThread (canon_modThread hs)

theorem canon_settleRow {s : State} {c id r : Nat} (hs : Canon s) : Canon (settleRow s c id r) := by
  unfold settleRow
  split
  · exact hs
  · split
    · split
      · exact canon_modReq (canon_modThread hs)
      · exact hs
    · exact hs

theorem canon_faultReq {s : State} {c id : Nat} {f : FaultRec} (hs : Canon s) : Canon (faultReq s c id f) :=
  canon_modReq hs

theorem canon_refuseReq {s : State} {c id : Nat} {f : FaultRec} (hs : Canon s) : Canon (refuseReq s c id f) :=
  canon_settleReq (canon_modReq hs)

theorem canon_finishPart {s : State} {c id k : Nat} {data : Row} (hs : Canon s) :
    Canon (finishPart s c id k data) := by
  unfold finishPart
  dsimp only
  split
  · exact hs
  · exact canon_settleReq (canon_settleRow (canon_modPart hs))

theorem canon_retryPart {s : State} {c : Nat} {q : Req} {k : Nat} (hs : Canon s) : Canon (retryPart s c q k) :=
  canon_schedule hs

theorem canon_deliverReq {s : State} {c id : Nat} {data : Row} {d : Nat} {f : Option FaultRec} (hs : Canon s) :
    Canon (deliverReq s c id data d f) :=
  canon_schedule (canon_modReq hs)

theorem canon_relaunch {s : State} {c : Nat} (hs : Canon s) : Canon (relaunch s c) := by
  unfold relaunch
  dsimp only
  split
  · exact hs
  · refine canon_foldl ?_ (canon_setThread hs)
    intro _ _ hk
    split
    · exact hk
    · split
      · exact hk
      · exact canon_schedule (canon_modReq hk)
    · split
      · exact hk
      · exact canon_launchParts hk

theorem canon_releaseAt {s : State} {c : Nat} (hs : Canon s) : Canon (releaseAt s c) :=
  canon_modThread hs

theorem canon_recordAt {s : State} {c pa : Nat} {unchk : Bool} (hs : Canon s) : Canon (recordAt s c pa unchk) := by
  unfold recordAt
  split
  · exact hs
  · split
    · exact hs
    · exact canon_storeRecord hs

theorem canon_touchAt {s : State} {c : Nat} {k : Touch} {p : Part} (hs : Canon s) :
    OkAll Canon (touchAt s c k p) := by
  unfold touchAt
  split
  · exact .ok hs
  · split
    · exact .ok hs
    · exact canon_threadTouch hs

/-! The transfers of the S1 slot -/

theorem canon_enterSegment {s : State} {c : Nat} {t : Thread} {target : Word} {j : Nat} (hs : Canon s) :
    OkAll Canon (enterSegment s c t target j) := by
  unfold enterSegment
  dsimp only
  split
  · exact .error
  · split
    · exact .error
    · split
      · exact .error
      · split
        · exact .error
        · split
          · exact .error
          · split
            · exact .error
            · refine .ok ?_
              split
              · split
                · exact canon_setThread hs
                · exact canon_startExpansion (canon_setThread hs)
              · split
                · exact canon_setThread hs
                · exact canon_startExpansion (canon_setThread hs)

theorem canon_execBr {g : Guard} {tgt : BitVec 6} {s : State} (hs : Canon s) : CanonOut (execBr g tgt s) :=
  canon_runSlot hs (fun _ => OkAll.mapAny (fun _ => canon_setThread hs))

theorem canon_execBrx {g : Guard} {s : State} (hs : Canon s) : CanonOut (execBrx g s) := by
  unfold execBrx
  refine canon_runSlot hs fun _ => ?_
  split
  · exact .error
  · exact canon_enterSegment hs

theorem canon_execJmp {g : Guard} {ra : BitVec 5} {s : State} (hs : Canon s) : CanonOut (execJmp g ra s) :=
  canon_runSlot hs (fun _ => OkAll.bindAny (fun _ => canon_enterSegment hs))

theorem canon_execCall {g : Guard} {rd ra : BitVec 5} {s : State} (hs : Canon s) : CanonOut (execCall g rd ra s) :=
  canon_runSlot hs (fun _ => OkAll.bindAny (fun _ => OkAll.bindAny (fun _ => canon_enterSegment hs)))

theorem canon_execRet {g : Guard} {ra : BitVec 5} {s : State} (hs : Canon s) : CanonOut (execRet g ra s) := by
  unfold execRet
  refine canon_runSlot hs fun _ => ?_
  dsimp only
  split
  · exact .error
  · exact canon_enterSegment hs

theorem canon_openLoop {s : State} {t : Thread} {n : Nat} {start exit : BitVec 6} (hs : Canon s) :
    OkAll Canon (openLoop s t n start exit) := by
  unfold openLoop
  refine OkAll.bindAny fun _ => ?_
  refine OkAll.bindAny fun _ => ?_
  dsimp only
  split
  · exact .ok (canon_setThread hs)
  · split
    · exact .error
    · exact .ok (canon_setThread hs)

theorem canon_execLoopReg {g : Guard} {ra : BitVec 5} {start exit : BitVec 6} {s : State} (hs : Canon s) :
    CanonOut (execLoopReg g ra start exit s) :=
  canon_runSlot hs (fun _ => canon_openLoop hs)

theorem canon_execLoopImm {g : Guard} {cnt : BitVec 9} {start exit : BitVec 6} {s : State} (hs : Canon s) :
    CanonOut (execLoopImm g cnt start exit s) :=
  canon_runSlot hs (fun _ => canon_openLoop hs)

theorem canon_execEndl {g : Guard} {s : State} (hs : Canon s) : CanonOut (execEndl g s) := by
  unfold execEndl
  refine canon_runSlot hs fun _ => ?_
  dsimp only
  split
  · exact .error
  · split
    · exact .ok (canon_setThread hs)
    · split
      · exact .error
      · exact .ok (canon_setThread hs)

theorem canon_execBrk {g : Guard} {tgt : BitVec 6} {s : State} (hs : Canon s) : CanonOut (execBrk g tgt s) := by
  unfold execBrk
  refine canon_runSlot hs fun _ => ?_
  dsimp only
  split
  · exact .error
  · exact OkAll.mapAny (fun _ => canon_setThread hs)

theorem canon_execEndT {g : Guard} {s : State} (hs : Canon s) : CanonOut (execEndT g s) := by
  unfold execEndT
  refine canon_runSlot hs fun _ => ?_
  dsimp only
  split
  · exact .error
  · exact .ok (canon_setThread hs)

theorem canon_execTrap {g : Guard} {code : BitVec 16} {s : State} (hs : Canon s) : CanonOut (execTrap g code s) :=
  canon_runSlot hs (fun _ => .error)

/-! Sub-bank arbitration -/

theorem canon_takeTurn {s : State} {h : Nat} {banks : List Nat} (hs : Canon s) : Canon (takeTurn s h banks) :=
  canon_modCore hs

theorem canon_served {s : State} {c : Nat} {q : Req} {k : Nat} {p : Part} {perform : State → State} (hs : Canon s)
    (hf : ∀ s, Canon s → Canon (perform s)) :
    Canon (served s c q k p perform) := by
  unfold served
  split
  · exact hf _ hs
  · split
    · exact hf _ (canon_takeTurn hs)
    · exact .update hs
    · exact canon_retryPart (canon_modPart hs)

theorem canon_takeTurns {s : State} {spans : List (Nat × Nat)} (hs : Canon s) : Canon (takeTurns s spans) :=
  canon_foldl (fun _ _ hk => canon_takeTurn hk) hs

theorem canon_engineServed {s : State} {spans : List (Nat × Nat)} {ev : Instr} {note : State → BankWait → State}
    {perform : State → State} (hs : Canon s) (hfnote : ∀ s b, Canon s → Canon (note s b))
    (hf : ∀ s, Canon s → Canon (perform s)) :
    Canon (engineServed s spans ev note perform) := by
  unfold engineServed
  dsimp only
  split
  · exact hf _ (canon_takeTurns (hfnote _ _ hs))
  · exact .update (hfnote _ _ hs)
  · exact canon_schedule (hfnote _ _ hs)

/-! Segments in memory and their expansion -/

theorem canon_readLine {s : State} {c : Nat} {t : Thread} {va : Word} (hs : Canon s) :
    Canon (readLine s c t va).2 := by
  unfold readLine
  split
  · exact hs
  · exact hs
  · split
    · exact hs
    · split
      · dsimp only
        rename_i e
        exact .of_eq e (canon_readPlace hs)
      · dsimp only
        rename_i e
        exact .of_eq e (canon_readPlace hs)

theorem canon_setExpansion {s : State} {c : Nat} {e : Option Expansion} (hs : Canon s) : Canon (setExpansion s c e) :=
  canon_modThread hs

theorem canon_expanded {s : State} {c : Nat} {g : Segment} (hs : Canon s) : Canon (expanded s c g) :=
  canon_modThread hs

theorem canon_expandAfter {s : State} {c : Nat} {e : Expansion} {d : Nat} (hs : Canon s) :
    Canon (expandAfter s c e d) :=
  canon_schedule (canon_setExpansion hs)

theorem canon_requestLine {s : State} {c : Nat} {t : Thread} {e : Expansion} {at_ : Nat} (hs : Canon s) :
    Canon (requestLine s c t e at_) := by
  unfold requestLine
  dsimp only
  split
  · exact canon_expanded hs
  · exact canon_startWalk (canon_setExpansion hs)
  · exact canon_expandAfter (canon_takeFree hs)

theorem canon_nextLine {s : State} {c : Nat} {t : Thread} {e : Expansion} (hs : Canon s) :
    Canon (nextLine s c t e) := by
  unfold nextLine
  split
  · exact canon_expandAfter hs
  · exact canon_requestLine hs

theorem canon_arriveLine {s : State} {c : Nat} {t : Thread} {e : Expansion} (hs : Canon s) :
    Canon (arriveLine s c t e) := by
  unfold arriveLine
  refine canon_engineServed hs (fun _ _ hk => canon_setExpansion hk) fun _ hk => ?_
  split
  · rename_i e
    exact canon_nextLine (.of_eq e (canon_readLine hk))
  · rename_i e
    exact canon_expanded (.of_eq e (canon_readLine hk))
  · rename_i e
    exact canon_requestLine (.of_eq e (canon_readLine hk))
  · rename_i e
    exact canon_expandAfter (.of_eq e (canon_readLine hk))

theorem canon_execSegmentExpansionComplete {core : Nat} {s : State} (hs : Canon s) :
    CanonOut (execSegmentExpansionComplete core s) := by
  unfold execSegmentExpansionComplete
  split
  · exact .next hs
  · split
    · exact .next hs
    · refine .next ?_
      split
      · exact canon_requestLine hs
      · split
        · exact hs
        · split
          · exact canon_expanded hs
          · exact canon_arriveLine hs

theorem canon_expansionWalked {s : State} {c : Nat} {fault : Option FaultRec} (hs : Canon s) :
    Canon (expansionWalked s c fault) := by
  unfold expansionWalked
  split
  · split
    · exact hs
    · split
      · exact canon_expanded hs
      · exact canon_schedule hs
  · exact hs

theorem canon_fallThrough {s : State} {c : Nat} {t : Thread} (hs : Canon s) : OkAll Canon (fallThrough s c t) := by
  unfold fallThrough
  split
  · exact .error
  · exact canon_enterSegment hs

/-! Groups and their barriers -/

theorem canon_queuePacket {s : State} {p : Packet} {w : Waiter} (hs : Canon s) : Canon (queuePacket s p w) :=
  canon_schedule (.update hs)

theorem canon_modGroup {s : State} {job gid : Nat} {f : Group → Group} (hs : Canon s) :
    Canon (modGroup s job gid f) :=
  .update hs

theorem canon_modLocal {s : State} {jobid gid : Nat} {f : LocalEntry → LocalEntry} (hs : Canon s) :
    Canon (modLocal s jobid gid f) :=
  .update hs

theorem canon_sendBararv {s : State} {jobid gid sub : Nat} (hs : Canon s) : Canon (sendBararv s jobid gid sub) := by
  unfold sendBararv
  dsimp only
  split
  · exact hs
  · split
    · exact canon_modLocal hs
    · exact canon_queuePacket (canon_modLocal hs)

theorem canon_bararvAnswered {s : State} {p : Packet} (hs : Canon s) : Canon (bararvAnswered s p) := by
  unfold bararvAnswered
  dsimp only
  split
  · exact canon_queuePacket (canon_modLocal hs)
  · exact canon_modLocal hs

theorem canon_checkPackage {s : State} {jobid gid : Nat} (hs : Canon s) : Canon (checkPackage s jobid gid) := by
  unfold checkPackage
  dsimp only
  split
  · exact canon_sendBararv (canon_modLocal hs)
  · exact hs

theorem canon_checkGroup {s : State} {job gid : Nat} (hs : Canon s) : Canon (checkGroup s job gid) := by
  unfold checkGroup
  dsimp only
  split
  · exact canon_checkPackage hs
  · split
    · exact hs
    · exact canon_schedule (canon_takeFree (canon_modGroup hs))

theorem canon_endPhase {s : State} {job gid : Nat} (hs : Canon s) : Canon (endPhase s job gid) :=
  canon_modGroup hs

theorem canon_completePhase {s : State} {job gid : Nat} (hs : Canon s) : Canon (completePhase s job gid) :=
  canon_checkGroup (canon_endPhase hs)

theorem canon_packagePhase {s : State} {jobid gid : Nat} (hs : Canon s) : Canon (packagePhase s jobid gid) :=
  canon_checkPackage (canon_foldl (fun _ _ hk => canon_endPhase hk) (canon_modLocal hs))

theorem canon_execGroupPhaseComplete {job gid : Nat} {s : State} (hs : Canon s) :
    CanonOut (execGroupPhaseComplete job gid s) :=
  .next (canon_completePhase hs)

theorem canon_arriveGroup {s : State} {job gid tid phase scnt : Nat} {wide : Bool} (hs : Canon s) :
    Canon (arriveGroup s job gid tid phase scnt wide) :=
  canon_checkGroup (canon_modGroup hs)

theorem canon_leaveGroup {s : State} {job gid tid scnt : Nat} {wide : Bool} (hs : Canon s) :
    Canon (leaveGroup s job gid tid scnt wide) := by
  unfold leaveGroup
  dsimp only
  split
  · exact canon_modLocal (canon_sendBararv (canon_modGroup hs))
  · split
    · exact canon_checkPackage (canon_modGroup hs)
    · exact canon_checkGroup (canon_modGroup hs)

theorem canon_registerPackage {s : State} {jobid gid : Nat} (hs : Canon s) : Canon (registerPackage s jobid gid) := by
  unfold registerPackage
  split
  · exact hs
  · exact canon_sendBararv (canon_modLocal hs)

theorem canon_issueMarker {s : State} {t : Thread} {k : ReqKind} {scope : Nat} (hs : Canon s) :
    OkAll Canon (issueMarker s t k scope) :=
  OkAll.map (canon_issueReq hs) (fun _ hk => canon_schedule hk)

theorem canon_beginArrival {s : State} {t : Thread} {gid : Nat} {waits : Bool} (hs : Canon s) :
    OkAll Canon (beginArrival s t gid waits) :=
  canon_issueMarker hs

theorem canon_gbarArrives {s : State} {c : Nat} {i : Instr} (hs : Canon s) : Canon (gbarArrives s c i) := by
  unfold gbarArrives
  split
  · extract_lets gid
    split
    · split
      · exact hs
      · extract_lets t1
        split
        · rename_i e
          exact .of_ok e (canon_beginArrival (.update hs))
        · exact hs
    · exact hs
  · exact hs

theorem canon_execGjoin {g : Guard} {rg : BitVec 5} {s : State} (hs : Canon s) : CanonOut (execGjoin g rg s) := by
  unfold execGjoin
  refine canon_runSlot hs fun _ => ?_
  dsimp only
  split
  · exact .error
  · split
    · exact .error
    · split
      · exact .error
      · exact .ok (canon_setThread (canon_registerPackage (canon_modGroup hs)))

theorem canon_execGleave {g : Guard} {rg : BitVec 5} {s : State} (hs : Canon s) : CanonOut (execGleave g rg s) := by
  unfold execGleave
  refine canon_runSlot hs fun _ => ?_
  dsimp only
  split
  · exact .error
  · exact canon_issueMarker hs

theorem canon_execGbar {g : Guard} {rg : BitVec 5} {mode : BitVec 2} {pd : BitVec 3} {s : State} (hs : Canon s) :
    CanonOut (execGbar g rg mode pd s) := by
  unfold execGbar
  refine canon_runSlot hs fun _ => ?_
  dsimp only
  split
  · exact .error
  · split
    · split
      · exact .ok (canon_setThread hs)
      · exact .error
    · split
      · exact .error
      · exact canon_beginArrival hs
    · split
      · exact canon_putPred hs
      · split <;> exact canon_putPred hs

theorem canon_performArrival {s : State} {c gid : Nat} (hs : Canon s) : Canon (performArrival s c gid) := by
  unfold performArrival
  dsimp only
  split
  · exact canon_releaseAt hs
  · split
    · exact canon_releaseAt hs
    · exact canon_arriveGroup (canon_releaseAt hs)

theorem canon_performLeave {s : State} {c gid : Nat} (hs : Canon s) : Canon (performLeave s c gid) := by
  unfold performLeave
  dsimp only
  split
  · exact canon_releaseAt hs
  · exact canon_leaveGroup (canon_releaseAt hs)

/-! A core's cycle -/

theorem canon_execResultWrite {core : Nat} {s : State} (hs : Canon s) : CanonOut (execResultWrite core s) :=
  .next (canon_modThread hs)

theorem canon_execTimedLanding {core : Nat} {s : State} (hs : Canon s) : CanonOut (execTimedLanding core s) :=
  .next (canon_modThread hs)

theorem canon_execWatchTimeout {core ent : Nat} {s : State} (hs : Canon s) :
    CanonOut (execWatchTimeout core ent s) := by
  unfold execWatchTimeout
  split
  · refine .next ?_
    split
    · exact canon_modThread (canon_dropTracker hs)
    · exact hs
  · exact .next hs

theorem canon_advanceDomain {s : State} {c : Nat} {t : Thread} (hs : Canon s) : Canon (advanceDomain s c t) := by
  unfold advanceDomain
  extract_lets
  split <;> exact .update (canon_setThread hs)

theorem canon_execFreezeRelease {core : Nat} {s : State} (hs : Canon s) : CanonOut (execFreezeRelease core s) := by
  unfold execFreezeRelease
  split
  · exact .next hs
  · extract_lets s1 beat stay landed
    have h1 : Canon s1 := .update hs
    have hstay : Canon stay := .update h1
    have hlanded : ∀ t, Canon (landed t) := fun _ => .update (canon_setThread h1)
    split
    · exact .next (canon_ite hstay (hlanded _))
    · exact .next (canon_ite hstay (hlanded _))
    · exact .next (canon_ite hstay (canon_setThread h1))
    · exact .next (canon_ite hstay (.update h1))
    · exact .next (.update h1)
    · exact .next h1

theorem canon_execFreezeLimit {core : Nat} {s : State} (hs : Canon s) : CanonOut (execFreezeLimit core s) := by
  unfold execFreezeLimit
  dsimp only
  split
  · exact .next hs
  · split
    · exact .next (.update (canon_attend (canon_setThread hs)))
    · refine .next ?_
      split
      · split
        · exact canon_setThread hs
        · exact canon_attend (canon_setThread hs)
      · split
        · exact canon_setThread hs
        · exact canon_attend (canon_setThread hs)
    · exact .next hs

theorem canon_execStalledBundleIssue {core : Nat} {s : State} (hs : Canon s) :
    CanonOut (execStalledBundleIssue core s) := by
  unfold execStalledBundleIssue
  split
  · exact .next hs
  · split
    · exact .next (.update hs)
    · exact .next hs

theorem canon_execSaveLandingTimeout {core : Nat} {s : State} (hs : Canon s) :
    CanonOut (execSaveLandingTimeout core s) :=
  .next (canon_modThread hs)

theorem canon_saveCycle {ex : Instr → State → Out} {s : State} {c : Nat} {t : Thread} {forFault : Bool} {began : Nat}
    (hs : Canon s) : Canon (saveCycle ex s c t forFault began) := by
  unfold saveCycle
  extract_lets t1 s1
  have h1 : Canon s1 := canon_setThread hs
  split
  · exact canon_schedule (canon_setThread (canon_ite (.update h1) h1))
  · have h2 {i} : Canon (if xAwaited s1 c t1 then pushEvs s1 i else s1) := canon_ite (canon_pushEvs h1) h1
    exact canon_ite (canon_pushEvs h2) h2

theorem canon_endByForce {s : State} {c : Nat} {t : Thread} (hs : Canon s) : Canon (endByForce s c t) :=
  canon_pushEvs (canon_setThread (canon_modCore hs))

theorem canon_beginCycle {ex : Instr → State → Out} {s : State} {c : Nat} (hs : Canon s) :
    Canon (beginCycle ex s c) := by
  unfold beginCycle
  extract_lets s1
  have h1 : Canon s1 := .update hs
  split
  · exact h1
  · split
    · exact canon_endByForce h1
    · split
      · exact canon_setThread h1
      · split
        · exact canon_advanceDomain h1
        · exact canon_advanceDomain h1
        · split
          · exact canon_ite (canon_setThread h1) (canon_attend h1)
          · split <;> exact canon_ite (canon_setThread h1) (canon_advanceDomain h1)
        · exact canon_ite (canon_pushEvs h1) (canon_pushEvs (canon_setThread h1))
        · exact canon_ite (canon_pushEvs h1) (canon_ite (canon_pushEvs h1) (canon_pushEvs (canon_setThread h1)))
        · exact canon_saveCycle h1
        · exact h1

theorem canon_thawed {s : State} {c : Nat} (hs : Canon s) : Canon (thawed s c) :=
  canon_modThread hs

theorem canon_nextBundle {n : Nat} {s : State} {c : Nat} (hs : Canon s) :
    EitherAll (fun r : Attn × State => Canon r.2) (fun r : State × Bundle => Canon r.1) (nextBundle n s c) := by
  induction n generalizing s with
  | zero => exact .ofOk hs
  | succ n ih =>
    unfold nextBundle
    split
    · exact .ofOk hs
    · split
      · split
        · exact .ofError hs
        · rename_i e
          exact ih (canon_thawed (.of_ok e (OkAll.bindAny (fun _ => canon_enterSegment hs))))
      · split
        · split
          · exact .ofError hs
          · rename_i e
            exact ih (canon_thawed (.of_ok e (canon_fallThrough hs)))
        · dsimp only
          split
          · exact ih (canon_setThread hs)
          · exact .ofOk hs

theorem canon_runSlots {ex : Instr → State → Out} {c : Nat} {l : List Instr} {s : State}
    (hex : ∀ i s, Canon s → CanonOut (ex i s)) (hs : Canon s) :
    EitherAll CanonOut (fun r => Canon r.1) (runSlots ex c l s) := by
  induction l generalizing s with
  | nil => exact .ofOk hs
  | cons i r ih =>
    unfold runSlots
    split
    · rename_i e
      have h1 := Canon.of_next e (hex i s hs)
      split
      · exact .ofOk h1
      · split
        · exact .ofOk h1
        · exact ih h1
    · exact .ofError (hex i s hs)

theorem canon_closeBundle {before after : State} {c : Nat} {l : List (Kind × Instr)} (hs : Canon before)
    (hs2 : Canon after) :
    Canon (closeBundle before after c l) := by
  unfold closeBundle
  dsimp only
  split
  · exact hs2
  · split
    · split
      · split
        · exact canon_attend hs
        · split
          · split
            · exact canon_pushEvs (canon_setThread (.update hs2))
            · exact canon_setThread (.update hs2)
          · split
            · exact canon_pushEvs (canon_setThread (.update hs2))
            · exact canon_setThread (.update hs2)
          · split
            · exact canon_pushEvs (canon_setThread (.update hs2))
            · exact canon_setThread (.update hs2)
      · exact canon_setThread (.update hs2)
    · split
      · split
        · exact canon_attend hs
        · split
          · split
            · exact canon_pushEvs (canon_setThread (.update hs2))
            · exact canon_setThread (.update hs2)
          · split
            · exact canon_pushEvs (canon_setThread (.update hs2))
            · exact canon_setThread (.update hs2)
          · split
            · exact canon_pushEvs (canon_setThread (.update hs2))
            · exact canon_setThread (.update hs2)
      · exact canon_setThread (.update hs2)

theorem canon_respond {s : State} {c : Nat} {a : Attn} (hs : Canon s) : Canon (respond s c a) := by
  unfold respond
  split
  · exact canon_readPa hs
  · exact hs

theorem canon_issueBundle {ex : Instr → State → Out} {s : State} {c : Nat} (hex : ∀ i s, Canon s → CanonOut (ex i s))
    (hs : Canon s) : CanonOut (issueBundle ex s c) := by
  unfold issueBundle
  extract_lets s1
  have hc : Canon s1 := .update hs
  split
  · exact .next hc
  · extract_lets live q1 t1 s2
    have h2 : Canon s2 := canon_setThread hc
    split
    · exact .next hc
    · split
      · exact .next (canon_pushEvs hc)
      · split
        · exact .next (canon_abandonReplay hc)
        · split
          · exact .next (canon_attend h2)
          · split
            · rename_i e
              exact .next (canon_attend ((canon_nextBundle h2).error _ e))
            · rename_i e
              have h3 := Canon.of_ok_fst e (canon_nextBundle h2).ok
              split
              · exact .next (canon_attend h3)
              · split
                · exact .next (canon_attend h3)
                · split
                  · exact .next (canon_abandonReplay h3)
                  · extract_lets s3 held is
                    have h4 : Canon s3 := canon_modThread h3
                    split
                    · rename_i e
                      exact (canon_runSlots hex h4).error _ e
                    · rename_i e
                      exact .next (canon_closeBundle h4 (.of_ok_fst e (canon_runSlots hex h4).ok))
                    · rename_i e
                      exact .next (canon_modThread (.of_ok_fst e (canon_runSlots hex h4).ok))
                    · extract_lets s5
                      have h5 : Canon s5 := canon_attend (canon_gbarArrives h4)
                      split
                      · exact .next h5
                      · split
                        · exact .next h5
                        · split
                          · exact .next (canon_attend h4)
                          · refine .next ?_
                            split
                            · exact canon_pushEvs h5
                            · exact h5
                    · exact .next (canon_attend (canon_respond h4))

theorem canon_waitingWords {s : State} {c : Nat} {before banks : List Nat} (hs : Canon s) :
    Canon (waitingWords s c before banks).2 := by
  unfold waitingWords
  dsimp only
  split
  · exact hs
  · dsimp only
    exact canon_takeFree hs

theorem canon_finishDomain {s : State} {c : Nat} {t : Thread} (hs : Canon s) : Canon (finishDomain s c t) := by
  unfold finishDomain
  dsimp only
  split
  · exact canon_setThread (canon_waitingWords hs)
  · split
    · exact canon_pushEvs (canon_setThread (canon_waitingWords hs))
    · exact canon_setThread (canon_waitingWords hs)

theorem canon_finishCycle {ex : Instr → State → Out} {s : State} {c : Nat} (hs : Canon s) :
    Canon (finishCycle ex s c) := by
  unfold finishCycle
  split
  · exact hs
  · split
    · exact canon_finishDomain hs
    · exact canon_finishDomain hs
    · exact canon_finishDomain hs
    · split
      · exact canon_finishDomain hs
      · exact hs
    · exact canon_setThread hs
    · exact canon_setThread hs
    · exact hs

theorem canon_execPreemptionTaken {core : Nat} {s : State} (hs : Canon s) : CanonOut (execPreemptionTaken core s) :=
  .next (canon_modThread hs)

theorem canon_execKillTaken {core : Nat} {s : State} (hs : Canon s) : CanonOut (execKillTaken core s) :=
  .next (canon_modThread hs)

/-! The M slots -/

theorem canon_execMnop {_h : MHdr} {_x : BitVec 37} {s : State} (hs : Canon s) : CanonOut (execMnop _h _x s) :=
  .next hs

theorem canon_loadSlot {s : State} {h : MHdr} {rd ra : BitVec 5} {ord scope : BitVec 3} {mode : BitVec 2}
    {off : BitVec 10} {disp : BitVec 9} {w : Nat} {signed : Bool} {t : Thread} (hs : Canon s) :
    OkAll Canon (loadSlot s h rd ra ord scope mode off disp w signed t) :=
  OkAll.bindAny (fun _ => OkAll.bindAny (fun _ => OkAll.bindAny (fun _ => canon_issueReq hs)))

theorem canon_storeSlot {s : State} {h : MHdr} {rs ra : BitVec 5} {ord scope : BitVec 3} {disp : BitVec 9} {w : Nat}
    {t : Thread} (hs : Canon s) :
    OkAll Canon (storeSlot s h rs ra ord scope disp w t) := by
  unfold storeSlot
  refine OkAll.bindAny fun _ => ?_
  dsimp only
  split
  · exact .error
  · exact canon_issueReq hs

theorem canon_execLdb {h : MHdr} {rd ra : BitVec 5} {ord scope : BitVec 3} {mode : BitVec 2} {off : BitVec 10}
    {disp : BitVec 9} {s : State} (hs : Canon s) :
    CanonOut (execLdb h rd ra ord scope mode off disp s) :=
  canon_runSlot hs (fun _ => canon_loadSlot hs)

theorem canon_execLdh {h : MHdr} {rd ra : BitVec 5} {ord scope : BitVec 3} {mode : BitVec 2} {off : BitVec 10}
    {disp : BitVec 9} {s : State} (hs : Canon s) :
    CanonOut (execLdh h rd ra ord scope mode off disp s) :=
  canon_runSlot hs (fun _ => canon_loadSlot hs)

theorem canon_execLdw {h : MHdr} {rd ra : BitVec 5} {ord scope : BitVec 3} {mode : BitVec 2} {off : BitVec 10}
    {disp : BitVec 9} {s : State} (hs : Canon s) :
    CanonOut (execLdw h rd ra ord scope mode off disp s) :=
  canon_runSlot hs (fun _ => canon_loadSlot hs)

theorem canon_execLd {h : MHdr} {rd ra : BitVec 5} {ord scope : BitVec 3} {mode : BitVec 2} {off : BitVec 10}
    {disp : BitVec 9} {s : State} (hs : Canon s) :
    CanonOut (execLd h rd ra ord scope mode off disp s) :=
  canon_runSlot hs (fun _ => canon_loadSlot hs)

theorem canon_execLdbs {h : MHdr} {rd ra : BitVec 5} {ord scope : BitVec 3} {mode : BitVec 2} {off : BitVec 10}
    {disp : BitVec 9} {s : State} (hs : Canon s) :
    CanonOut (execLdbs h rd ra ord scope mode off disp s) :=
  canon_runSlot hs (fun _ => canon_loadSlot hs)

theorem canon_execLdhs {h : MHdr} {rd ra : BitVec 5} {ord scope : BitVec 3} {mode : BitVec 2} {off : BitVec 10}
    {disp : BitVec 9} {s : State} (hs : Canon s) :
    CanonOut (execLdhs h rd ra ord scope mode off disp s) :=
  canon_runSlot hs (fun _ => canon_loadSlot hs)

theorem canon_execLdws {h : MHdr} {rd ra : BitVec 5} {ord scope : BitVec 3} {mode : BitVec 2} {off : BitVec 10}
    {disp : BitVec 9} {s : State} (hs : Canon s) :
    CanonOut (execLdws h rd ra ord scope mode off disp s) :=
  canon_runSlot hs (fun _ => canon_loadSlot hs)

theorem canon_execStb {h : MHdr} {rs ra : BitVec 5} {ord scope : BitVec 3} {disp : BitVec 9} {s : State}
    (hs : Canon s) :
    CanonOut (execStb h rs ra ord scope disp s) :=
  canon_runSlot hs (fun _ => canon_storeSlot hs)

theorem canon_execSth {h : MHdr} {rs ra : BitVec 5} {ord scope : BitVec 3} {disp : BitVec 9} {s : State}
    (hs : Canon s) :
    CanonOut (execSth h rs ra ord scope disp s) :=
  canon_runSlot hs (fun _ => canon_storeSlot hs)

theorem canon_execStw {h : MHdr} {rs ra : BitVec 5} {ord scope : BitVec 3} {disp : BitVec 9} {s : State}
    (hs : Canon s) :
    CanonOut (execStw h rs ra ord scope disp s) :=
  canon_runSlot hs (fun _ => canon_storeSlot hs)

theorem canon_execSt {h : MHdr} {rs ra : BitVec 5} {ord scope : BitVec 3} {disp : BitVec 9} {s : State}
    (hs : Canon s) :
    CanonOut (execSt h rs ra ord scope disp s) :=
  canon_runSlot hs (fun _ => canon_storeSlot hs)

theorem canon_execLdrow {h : MHdr} {tl : BitVec 4} {e nm : BitVec 6} {ra rstr : BitVec 5} {mode : BitVec 2}
    {off : BitVec 9} {s : State} (hs : Canon s) :
    CanonOut (execLdrow h tl e nm ra rstr mode off s) :=
  canon_runSlot hs (fun _ => OkAll.bindAny (fun _ => OkAll.bindAny (fun _ => OkAll.bindAny (fun _ => canon_issueReq
    hs))))

theorem canon_execStrow {h : MHdr} {tl : BitVec 4} {e nm : BitVec 6} {ra rstr : BitVec 5} {s : State} (hs : Canon s) :
    CanonOut (execStrow h tl e nm ra rstr s) := by
  unfold execStrow
  refine canon_runSlot hs fun _ => ?_
  refine OkAll.bindAny fun _ => ?_
  dsimp only
  split
  · exact .error
  · split
    · exact .error
    · exact canon_issueReq hs

theorem canon_execAtom {h : MHdr} {rd ra rb rc : BitVec 5} {aop : BitVec 4} {w rv : Bool} {ord scope : BitVec 3}
    {s : State} (hs : Canon s) :
    CanonOut (execAtom h rd ra rb rc aop w rv ord scope s) := by
  unfold execAtom
  refine canon_runSlot hs fun _ => ?_
  refine OkAll.bindAny fun _ => ?_
  refine OkAll.bindAny fun _ => ?_
  dsimp only
  split
  · split
    · exact .error
    · exact OkAll.bindAny (fun _ => canon_issueReq hs)
  · split
    · exact .error
    · exact OkAll.bindAny (fun _ => canon_issueReq hs)

theorem canon_execFence {h : MHdr} {ord scope : BitVec 3} {s : State} (hs : Canon s) :
    CanonOut (execFence h ord scope s) := by
  unfold execFence
  refine canon_runSlot hs fun _ => ?_
  dsimp only
  split
  · exact .error
  · split
    · exact OkAll.map (canon_issueReq hs) (fun _ hk => canon_schedule hk)
    · exact .ok (canon_setThread hs)

theorem canon_execCvta {h : MHdr} {rd ra : BitVec 5} {dir : BitVec 2} {s : State} (hs : Canon s) :
    CanonOut (execCvta h rd ra dir s) := by
  unfold execCvta
  refine canon_runSlot hs fun _ => ?_
  dsimp only
  split
  · exact canon_putScalar hs
  · exact canon_putScalar hs
  · exact OkAll.bindAny (fun _ => canon_putScalar hs)
  · exact OkAll.bindAny (fun _ => canon_putScalar hs)

theorem canon_execAptest {h : MHdr} {pd : BitVec 3} {ra : BitVec 5} {sp : Bool} {s : State} (hs : Canon s) :
    CanonOut (execAptest h pd ra sp s) :=
  canon_runSlot hs (fun _ => OkAll.bindAny (fun _ => canon_putPred hs))

theorem canon_execWait {h : MHdr} {l st cp tl : BitVec 4} {s : State} (hs : Canon s) :
    CanonOut (execWait h l st cp tl s) := by
  unfold execWait
  refine canon_runSlot hs fun _ => ?_
  dsimp only
  split
  · exact .error
  · split
    · exact .error
    · exact .ok (canon_setThread hs)

theorem canon_armTracker {s : State} {core ent addr : Nat} (hs : Canon s) : Canon (armTracker s core ent addr) := by
  unfold armTracker
  dsimp only
  split
  · split
    · exact canon_modSlice hs
    · exact canon_modThread (canon_modSlice hs)
  · exact canon_modSlice hs

theorem canon_execMon {h : MHdr} {ent : BitVec 3} {ra rb : BitVec 5} {cmp : BitVec 3} {w : Bool} {rt : BitVec 5}
    {s : State} (hs : Canon s) : CanonOut (execMon h ent ra rb cmp w rt s) := by
  unfold execMon
  refine canon_runSlot hs fun t => .bindAny fun p => .bindAny fun _ => ?_
  split
  rename_i hg
  have h1 := Canon.of_eq hg (canon_readPa hs)
  split
  · exact .error
  · exact .ok (canon_ite (canon_armTracker (canon_setThread (canon_ite (canon_dropTracker h1) h1)))
      (canon_setThread (canon_ite (canon_dropTracker h1) h1)))

theorem canon_execMwait {h : MHdr} {mask : BitVec 8} {rd : BitVec 5} {s : State} (hs : Canon s) :
    CanonOut (execMwait h mask rd s) := by
  unfold execMwait
  refine canon_runSlot hs fun _ => ?_
  dsimp only
  split
  · exact .error
  · exact canon_putScalar hs

/-! The V slots -/

theorem canon_runV {s : State} {i : Instr} {h : VHdr} {plan : Thread → VPlan} {f : Beat} {scal : Thread → Word}
    (hs : Canon s) :
    CanonOut (runV s i h plan f scal) := by
  unfold runV
  split
  · exact .next hs
  · split
    · exact .next (canon_setThread hs)
    · split
      · exact .next (canon_attend hs)
      · exact .next (canon_setThread hs)

theorem canon_execVnop {h : VHdr} {_x : BitVec 30} {s : State} (hs : Canon s) : CanonOut (execVnop h _x s) := by
  unfold execVnop
  refine canon_runAlways hs fun _ => ?_
  dsimp only
  split
  · exact .error
  · exact .ok (canon_setThread hs)

theorem canon_execVadd {h : VHdr} {dt : BitVec 4} {row : BitVec 6} {ta tb : BitVec 4} {br : BitVec 6} {bfix : Bool}
    {s : State} (hs : Canon s) :
    CanonOut (execVadd h dt row ta tb br bfix s) :=
  canon_runV hs

theorem canon_execVsub {h : VHdr} {dt : BitVec 4} {row : BitVec 6} {ta tb : BitVec 4} {br : BitVec 6} {bfix : Bool}
    {s : State} (hs : Canon s) :
    CanonOut (execVsub h dt row ta tb br bfix s) :=
  canon_runV hs

theorem canon_execVmul {h : VHdr} {dt : BitVec 4} {row : BitVec 6} {ta tb : BitVec 4} {br : BitVec 6} {bfix : Bool}
    {s : State} (hs : Canon s) :
    CanonOut (execVmul h dt row ta tb br bfix s) :=
  canon_runV hs

theorem canon_execVfma {h : VHdr} {dt : BitVec 4} {row : BitVec 6} {ta tb : BitVec 4} {br : BitVec 6} {bfix : Bool}
    {s : State} (hs : Canon s) :
    CanonOut (execVfma h dt row ta tb br bfix s) :=
  canon_runV hs

theorem canon_execVmin {h : VHdr} {dt : BitVec 4} {row : BitVec 6} {ta tb : BitVec 4} {br : BitVec 6} {bfix : Bool}
    {s : State} (hs : Canon s) :
    CanonOut (execVmin h dt row ta tb br bfix s) :=
  canon_runV hs

theorem canon_execVmax {h : VHdr} {dt : BitVec 4} {row : BitVec 6} {ta tb : BitVec 4} {br : BitVec 6} {bfix : Bool}
    {s : State} (hs : Canon s) :
    CanonOut (execVmax h dt row ta tb br bfix s) :=
  canon_runV hs

theorem canon_execVabs {h : VHdr} {dt : BitVec 4} {row : BitVec 6} {ta : BitVec 4} {s : State} (hs : Canon s) :
    CanonOut (execVabs h dt row ta s) :=
  canon_runV hs

theorem canon_execVneg {h : VHdr} {dt : BitVec 4} {row : BitVec 6} {ta : BitVec 4} {s : State} (hs : Canon s) :
    CanonOut (execVneg h dt row ta s) :=
  canon_runV hs

theorem canon_execVcmp {h : VHdr} {dt : BitVec 4} {row : BitVec 6} {ta tb : BitVec 4} {br : BitVec 6} {bfix : Bool}
    {ty : BitVec 3} {s : State} (hs : Canon s) :
    CanonOut (execVcmp h dt row ta tb br bfix ty s) :=
  canon_runV hs

theorem canon_execVsel {h : VHdr} {dt : BitVec 4} {row : BitVec 6} {ta tb : BitVec 4} {br : BitVec 6} {bfix : Bool}
    {ty : BitVec 3} {s : State} (hs : Canon s) :
    CanonOut (execVsel h dt row ta tb br bfix ty s) :=
  canon_runV hs

theorem canon_execVexp2 {h : VHdr} {dt : BitVec 4} {row : BitVec 6} {ta : BitVec 4} {s : State} (hs : Canon s) :
    CanonOut (execVexp2 h dt row ta s) :=
  canon_runV hs

theorem canon_execVlog2 {h : VHdr} {dt : BitVec 4} {row : BitVec 6} {ta : BitVec 4} {s : State} (hs : Canon s) :
    CanonOut (execVlog2 h dt row ta s) :=
  canon_runV hs

theorem canon_execVrcp {h : VHdr} {dt : BitVec 4} {row : BitVec 6} {ta : BitVec 4} {s : State} (hs : Canon s) :
    CanonOut (execVrcp h dt row ta s) :=
  canon_runV hs

theorem canon_execVrsqrt {h : VHdr} {dt : BitVec 4} {row : BitVec 6} {ta : BitVec 4} {s : State} (hs : Canon s) :
    CanonOut (execVrsqrt h dt row ta s) :=
  canon_runV hs

theorem canon_execVscale {h : VHdr} {dt : BitVec 4} {row : BitVec 6} {ta tb : BitVec 4} {br : BitVec 6}
    {bfix imm : Bool} {s : State} (hs : Canon s) :
    CanonOut (execVscale h dt row ta tb br bfix imm s) :=
  canon_runV hs

theorem canon_execViadd {h : VHdr} {dt : BitVec 4} {row : BitVec 6} {ta tb : BitVec 4} {br : BitVec 6} {bfix : Bool}
    {ty : BitVec 3} {sat : Bool} {s : State} (hs : Canon s) :
    CanonOut (execViadd h dt row ta tb br bfix ty sat s) :=
  canon_runV hs

theorem canon_execVisub {h : VHdr} {dt : BitVec 4} {row : BitVec 6} {ta tb : BitVec 4} {br : BitVec 6} {bfix : Bool}
    {ty : BitVec 3} {sat : Bool} {s : State} (hs : Canon s) :
    CanonOut (execVisub h dt row ta tb br bfix ty sat s) :=
  canon_runV hs

theorem canon_execVimul {h : VHdr} {dt : BitVec 4} {row : BitVec 6} {ta tb : BitVec 4} {br : BitVec 6} {bfix : Bool}
    {ty : BitVec 3} {sat : Bool} {s : State} (hs : Canon s) :
    CanonOut (execVimul h dt row ta tb br bfix ty sat s) :=
  canon_runV hs

theorem canon_execVimin {h : VHdr} {dt : BitVec 4} {row : BitVec 6} {ta tb : BitVec 4} {br : BitVec 6} {bfix : Bool}
    {ty : BitVec 3} {s : State} (hs : Canon s) :
    CanonOut (execVimin h dt row ta tb br bfix ty s) :=
  canon_runV hs

theorem canon_execVimax {h : VHdr} {dt : BitVec 4} {row : BitVec 6} {ta tb : BitVec 4} {br : BitVec 6} {bfix : Bool}
    {ty : BitVec 3} {s : State} (hs : Canon s) :
    CanonOut (execVimax h dt row ta tb br bfix ty s) :=
  canon_runV hs

theorem canon_execVand {h : VHdr} {dt : BitVec 4} {row : BitVec 6} {ta tb : BitVec 4} {br : BitVec 6} {bfix : Bool}
    {s : State} (hs : Canon s) :
    CanonOut (execVand h dt row ta tb br bfix s) :=
  canon_runV hs

theorem canon_execVor {h : VHdr} {dt : BitVec 4} {row : BitVec 6} {ta tb : BitVec 4} {br : BitVec 6} {bfix : Bool}
    {s : State} (hs : Canon s) :
    CanonOut (execVor h dt row ta tb br bfix s) :=
  canon_runV hs

theorem canon_execVxor {h : VHdr} {dt : BitVec 4} {row : BitVec 6} {ta tb : BitVec 4} {br : BitVec 6} {bfix : Bool}
    {s : State} (hs : Canon s) :
    CanonOut (execVxor h dt row ta tb br bfix s) :=
  canon_runV hs

theorem canon_execVshl {h : VHdr} {dt : BitVec 4} {row : BitVec 6} {ta tb : BitVec 4} {br : BitVec 6} {bfix : Bool}
    {ty : BitVec 3} {imm : Bool} {s : State} (hs : Canon s) :
    CanonOut (execVshl h dt row ta tb br bfix ty imm s) :=
  canon_runV hs

theorem canon_execVshr {h : VHdr} {dt : BitVec 4} {row : BitVec 6} {ta tb : BitVec 4} {br : BitVec 6} {bfix : Bool}
    {ty : BitVec 3} {imm : Bool} {s : State} (hs : Canon s) :
    CanonOut (execVshr h dt row ta tb br bfix ty imm s) :=
  canon_runV hs

theorem canon_execVsar {h : VHdr} {dt : BitVec 4} {row : BitVec 6} {ta tb : BitVec 4} {br : BitVec 6} {bfix : Bool}
    {ty : BitVec 3} {imm : Bool} {s : State} (hs : Canon s) :
    CanonOut (execVsar h dt row ta tb br bfix ty imm s) :=
  canon_runV hs

theorem canon_execVcvt {h : VHdr} {dt : BitVec 4} {dr : BitVec 6} {ta : BitVec 4} {ar : BitVec 6} {se de : BitVec 4}
    {s : State} (hs : Canon s) :
    CanonOut (execVcvt h dt dr ta ar se de s) :=
  canon_runV hs

theorem canon_execVpackd {h : VHdr} {dt : BitVec 4} {dr : BitVec 6} {ta : BitVec 4} {ar mr : BitVec 6} {w : Bool}
    {s : State} (hs : Canon s) :
    CanonOut (execVpackd h dt dr ta ar mr w s) :=
  canon_runV hs

theorem canon_execVunpkd {h : VHdr} {dt : BitVec 4} {dr : BitVec 6} {ta : BitVec 4} {ar mr : BitVec 6} {w : Bool}
    {s : State} (hs : Canon s) :
    CanonOut (execVunpkd h dt dr ta ar mr w s) :=
  canon_runV hs

theorem canon_execVpackm {h : VHdr} {dt : BitVec 4} {dr : BitVec 6} {ta : BitVec 4} {ar sr : BitVec 6}
    {mf : BitVec 4} {s : State} (hs : Canon s) :
    CanonOut (execVpackm h dt dr ta ar sr mf s) :=
  canon_runV hs

theorem canon_execVunpkm {h : VHdr} {dt : BitVec 4} {dr : BitVec 6} {ta : BitVec 4} {ar sr : BitVec 6}
    {mf : BitVec 4} {s : State} (hs : Canon s) :
    CanonOut (execVunpkm h dt dr ta ar sr mf s) :=
  canon_runV hs

theorem canon_execVrsum {h : VHdr} {dt : BitVec 4} {dr : BitVec 6} {ta : BitVec 4} {ar : BitVec 6} {doff : BitVec 7}
    {acc : Bool} {s : State} (hs : Canon s) :
    CanonOut (execVrsum h dt dr ta ar doff acc s) :=
  canon_runV hs

theorem canon_execVrmax {h : VHdr} {dt : BitVec 4} {dr : BitVec 6} {ta : BitVec 4} {ar : BitVec 6} {doff : BitVec 7}
    {acc : Bool} {s : State} (hs : Canon s) :
    CanonOut (execVrmax h dt dr ta ar doff acc s) :=
  canon_runV hs

theorem canon_execVrmin {h : VHdr} {dt : BitVec 4} {dr : BitVec 6} {ta : BitVec 4} {ar : BitVec 6} {doff : BitVec 7}
    {acc : Bool} {s : State} (hs : Canon s) :
    CanonOut (execVrmin h dt dr ta ar doff acc s) :=
  canon_runV hs

theorem canon_execVshuf {h : VHdr} {dt : BitVec 4} {row : BitVec 6} {ta tb : BitVec 4} {br : BitVec 6} {bfix : Bool}
    {ty : BitVec 3} {s : State} (hs : Canon s) :
    CanonOut (execVshuf h dt row ta tb br bfix ty s) :=
  canon_runV hs

theorem canon_execVtrans {h : VHdr} {dt : BitVec 4} {dq : BitVec 2} {ta : BitVec 4} {aq w : BitVec 2} {s : State}
    (hs : Canon s) :
    CanonOut (execVtrans h dt dq ta aq w s) :=
  canon_runV hs

theorem canon_execVmov {h : VHdr} {dt : BitVec 4} {dr : BitVec 6} {ta : BitVec 4} {ar : BitVec 6} {s : State}
    (hs : Canon s) :
    CanonOut (execVmov h dt dr ta ar s) :=
  canon_runV hs

theorem canon_execVbcast {h : VHdr} {dt : BitVec 4} {dr : BitVec 6} {rs : BitVec 5} {w : BitVec 2} {s : State}
    (hs : Canon s) :
    CanonOut (execVbcast h dt dr rs w s) :=
  canon_runV hs

theorem canon_execVzrd {h : VHdr} {dt : BitVec 4} {dr : BitVec 6} {z : BitVec 2} {zr : BitVec 6} {s : State}
    (hs : Canon s) :
    CanonOut (execVzrd h dt dr z zr s) :=
  canon_runV hs

theorem canon_execVzwr {h : VHdr} {z : BitVec 2} {zr : BitVec 6} {ta : BitVec 4} {ar : BitVec 6} {s : State}
    (hs : Canon s) :
    CanonOut (execVzwr h z zr ta ar s) :=
  canon_runV hs

/-! The X slots and the matrix engine's beats -/

theorem canon_execXnop {h : XHdr} {_x : BitVec 22} {s : State} (hs : Canon s) : CanonOut (execXnop h _x s) :=
  canon_runAlways hs (fun _ => OkAll.mapAny (fun _ => canon_setThread hs))

theorem canon_execMma {h : XHdr} {rpe : Bool} {cnt : BitVec 12} {inca incb : BitVec 5} {z : BitVec 2}
    {ra rsa rb rsb : BitVec 5} {s : State} (hs : Canon s) :
    CanonOut (execMma h rpe cnt inca incb z ra rsa rb rsb s) := by
  unfold execMma
  refine canon_runAlways hs fun _ => ?_
  refine OkAll.bindAny fun _ => ?_
  dsimp only
  split
  · exact .ok (canon_setThread hs)
  · exact OkAll.mapAny (fun _ => canon_setThread hs)

theorem canon_execMmaTb {h : XHdr} {rpe : Bool} {cnt : BitVec 12} {inca incb : BitVec 5} {z : BitVec 2}
    {ra rsa rbs : BitVec 5} {pos : BitVec 3} {rel : Bool} {s : State} (hs : Canon s) :
    CanonOut (execMmaTb h rpe cnt inca incb z ra rsa rbs pos rel s) := by
  unfold execMmaTb
  refine canon_runAlways hs fun _ => ?_
  refine OkAll.bindAny fun _ => ?_
  dsimp only
  split
  · exact .ok (canon_setThread hs)
  · split
    · exact .error
    · exact OkAll.mapAny (fun _ => canon_setThread hs)

theorem canon_execZzero {h : XHdr} {z : BitVec 2} {s : State} (hs : Canon s) : CanonOut (execZzero h z s) := by
  unfold execZzero
  refine canon_runAlways hs fun _ => ?_
  refine OkAll.bindAny fun _ => ?_
  split
  · exact .ok (canon_setThread hs)
  · exact OkAll.mapAny (fun _ => canon_setThread hs)

theorem canon_execZscale {h : XHdr} {z : BitVec 2} {tl : BitVec 4} {row : BitVec 6} {ax : Bool} {s : State}
    (hs : Canon s) :
    CanonOut (execZscale h z tl row ax s) := by
  unfold execZscale
  refine canon_runAlways hs fun _ => ?_
  refine OkAll.bindAny fun _ => ?_
  dsimp only
  split
  · exact .ok (canon_setThread hs)
  · refine OkAll.bindAny fun _ => ?_
    split
    · exact .error
    · exact .ok (canon_setThread hs)

theorem canon_execZout {h : XHdr} {z : BitVec 2} {dt : BitVec 4} {row zr : BitVec 6} {df : BitVec 4} {s : State}
    (hs : Canon s) :
    CanonOut (execZout h z dt row zr df s) := by
  unfold execZout
  refine canon_runAlways hs fun _ => ?_
  refine OkAll.bindAny fun _ => ?_
  dsimp only
  split
  · exact .ok (canon_setThread hs)
  · refine OkAll.bindAny fun _ => ?_
    split
    · exact .error
    · split
      · exact .error
      · split
        · exact .error
        · exact .ok (canon_setThread hs)

theorem canon_placeRanges {s : State} {c : Nat} {t : Thread} {x : XOp} {l : List XRange} {got : List TlbEnt}
    (hs : Canon s) :
    ∀ f s', (placeRanges s c t x l got).2 = .error (f, s') → Canon s' := by
  induction l generalizing got with
  | nil => rintro _ _ ⟨⟩
  | cons r rest ih =>
    unfold placeRanges
    split
    · rintro _ _ ⟨⟩
      exact hs
    · split
      · rintro _ _ ⟨⟩
        exact hs
      · rintro _ _ ⟨⟩
        exact canon_startWalk hs
    · dsimp only
      split
      · rename_i e
        rintro _ _ ⟨⟩
        exact ih _ _ (by rw [e])
      · rintro _ _ ⟨⟩

theorem canon_readRange {s : State} {c : Nat} {r : XRange} {p : Place} (hs : Canon s) :
    Canon (readRange s c r p).2 := by
  unfold readRange
  dsimp only
  split
  · exact hs
  · split
    · dsimp only
      exact canon_readPa hs
    · dsimp only
      exact canon_readPa hs

theorem canon_readRanges {c : Nat} {x : XOp} {xs : List XPlace} {s : State} (hs : Canon s) :
    Canon (readRanges c x xs s).2 := by
  induction xs generalizing s with
  | nil => exact hs
  | cons p ps ih =>
    obtain ⟨r, pl⟩ := p
    rw [readRanges]
    split
    · rename_i e
      exact .of_eq e (canon_readRange hs)
    · rename_i e
      have h := ih (.of_eq e (canon_readRange hs))
      split
      · rename_i e
        exact .of_eq e h
      · rename_i e
        exact .of_eq e h

theorem canon_touchRanges {c : Nat} {x : XOp} {xs : List XPlace} {s : State} (hs : Canon s) :
    OkAll Canon (touchRanges c x xs s) := by
  induction xs generalizing s with
  | nil =>
    unfold touchRanges
    exact .ok hs
  | cons x xs ih =>
    unfold touchRanges
    split
    · exact .ok hs
    · split
      · exact ih hs
      · split
        · exact .error
        · rename_i e
          exact ih (.of_ok e (canon_threadTouch hs))

theorem canon_modX {s : State} {c : Nat} {f : XOp → XOp} (hs : Canon s) : Canon (modX s c f) :=
  canon_modThread hs

theorem canon_askRemote {s : State} {c : Nat} {x : XOp} {ps : List XPlace} (hs : Canon s) :
    Canon (askRemote s c x ps).2 := by
  unfold askRemote
  dsimp only
  split
  · exact hs
  · split
    · exact hs
    · dsimp only
      exact canon_takeFree (canon_takeFree hs)

/-- The state that the operand reads of a beat leave. -/
def XRead.Canon : XRead → Prop
  | .late s => Machine.Canon s
  | .stop _ s => Machine.Canon s
  | .got _ _ s => Machine.Canon s

theorem canon_readBeat {s : State} {c : Nat} {t : Thread} {x : XOp} (hs : Canon s) : (readBeat s c t x).Canon := by
  have hp : ∀ {l got f s'}, (placeRanges s c t x l got).2 = .error (f, s') → Canon s' := canon_placeRanges hs _ _
  unfold readBeat
  dsimp only
  split
  · rename_i e
    exact hp (by rw [e])
  · rename_i e
    exact canon_modX (hp (by rw [e]))
  · split
    · exact canon_modX (canon_askRemote hs)
    · split
      · rename_i e
        exact .of_eq e (canon_readRanges (canon_modX (canon_askRemote hs)))
      · rename_i e
        have h1 := Canon.of_eq e (canon_readRanges (canon_modX (canon_askRemote hs)))
        split
        · exact h1
        · rename_i e
          exact .of_ok e (canon_touchRanges h1)

theorem canon_takeXBanks {s : State} {c : Nat} {t : Thread} {ps : List XPlace} (hs : Canon s) :
    Canon (takeXBanks s c t ps).1 := by
  unfold takeXBanks
  dsimp only
  exact canon_waitingWords hs

theorem canon_execMatrixBeat {core : Nat} {s : State} (hs : Canon s) : CanonOut (execMatrixBeat core s) := by
  unfold execMatrixBeat
  split
  · exact .next hs
  · split
    · exact .next hs
    · split
      · exact .next hs
      · split
        · exact .next (canon_setThread hs)
        · extract_lets stop late
          have hstop : ∀ {s f}, Canon s → Canon (stop s f) := canon_modX
          have hlate : ∀ {s}, Canon s → Canon (late s) := canon_modX
          split
          · exact .next (hstop hs)
          · exact .next (hlate hs)
          · have hr : ∀ {t x r}, readBeat s core t x = r → r.Canon := fun e => e ▸ canon_readBeat hs
            split
            · rename_i e
              exact .next (hlate (hr e))
            · rename_i e
              exact .next (hstop (hr e))
            · rename_i e
              have h1 : Canon _ := hr e
              split
              · exact .next h1
              · extract_lets t2
                split
                rename_i e
                refine .next (canon_setThread (.of_eq_fst e ?_))
                split
                · exact canon_takeXBanks h1
                · exact h1

/-! The probe cache -/

theorem canon_modProbe {s : State} {c : Nat} {f : Probe → Probe} (hs : Canon s) : Canon (modProbe s c f) :=
  canon_modCore hs

theorem canon_setSlot {s : State} {c j : Nat} {x : PSlot} (hs : Canon s) : Canon (setSlot s c j x) :=
  canon_modProbe hs

theorem canon_touchPlru {s : State} {c j : Nat} (hs : Canon s) : Canon (touchPlru s c j) :=
  canon_modProbe hs

theorem canon_startProbe {s : State} {c : Nat} {o : POp} (hs : Canon s) : Canon (startProbe s c o) :=
  canon_schedule (canon_takeFree hs)

theorem canon_queueProbe {s : State} {c : Nat} {o : POp} (hs : Canon s) : Canon (queueProbe s c o) := by
  unfold queueProbe
  refine canon_startProbe (canon_modProbe ?_)
  dsimp only
  split
  · exact canon_noteCtxJob hs
  · exact hs

theorem canon_queueDropped {s : State} {c j : Nat} (hs : Canon s) : Canon (queueDropped s c j) :=
  .update (canon_setSlot (canon_queueProbe hs))

theorem canon_fillRoom {n : Nat} {s : State} {a : Nat} (hs : Canon s) : Canon (fillRoom n s a) := by
  induction n generalizing s a with
  | zero => exact hs
  | succ n ih =>
    unfold fillRoom
    dsimp only
    split
    · exact hs
    · split
      · exact ih (canon_queueDropped hs)
      · exact hs

theorem canon_dropSlot {s : State} {c j : Nat} (hs : Canon s) : Canon (dropSlot s c j).2 := by
  unfold dropSlot
  dsimp only
  split
  · dsimp only
    exact canon_setSlot hs
  · dsimp only
    exact canon_setSlot hs
  · dsimp only
    exact canon_setSlot hs

theorem canon_probeTlbi {s : State} {form asid : Nat} {va : Word} (hs : Canon s) :
    Canon (probeTlbi s form asid va).2 :=
  foldl_keeps (fun r : List (Nat × Nat) × State => Canon r.2) _ (fun _ _ hk => canon_dropSlot hk) _ _ hs

theorem canon_fillRooms {s : State} (hs : Canon s) : Canon (fillRooms s) :=
  canon_foldl (fun _ _ hk => canon_fillRoom hk) hs

/-! Page-table walks that finish -/

theorem canon_keepFail {s : State} {w : Walk} {f : FaultRec} (hs : Canon s) : Canon (keepFail s w f) :=
  .update hs

theorem canon_walkFailed {s : State} {k : Nat} {w : Walk} {e : WalkErr} (hs : Canon s) :
    Canon (walkFailed s k w e) := by
  unfold walkFailed
  dsimp only
  split
  · exact hs
  · split
    · exact canon_expansionWalked hs
    · split
      · exact canon_keepFail hs
      · split
        · split
          · split
            · exact canon_attend hs
            · exact hs
          · split
            · exact canon_attend hs
            · exact hs
        · split
          · split
            · exact canon_schedule (.update hs)
            · exact canon_keepFail hs
          · split
            · exact canon_schedule (.update hs)
            · exact canon_keepFail hs

theorem canon_execPageTableWalkComplete {walk : Nat} {s : State} (hs : Canon s) :
    CanonOut (execPageTableWalkComplete walk s) := by
  unfold execPageTableWalkComplete
  split
  · exact .next hs
  · rename_i w _
    extract_lets s1 held
    clear_value held
    have h1 : Canon s1 := .update hs
    split
    · exact .next (canon_startWalk h1)
    · have h2 : Canon (match held with
          | some e => (Except.ok e, s1)
          | none => walkTables s1 w.core w.regs w.va).2 := by
        cases held with
        | none => exact canon_walkTables h1
        | some => exact h1
      split
      · rename_i e
        have h3 := Canon.of_eq e h2
        exact .next (canon_ite (canon_expansionWalked (canon_tlbInstall h3)) (canon_tlbInstall h3))
      · rename_i e
        exact .next (canon_schedule (.update (.of_eq e h2)))
      · rename_i e
        exact .next (canon_walkFailed (.of_eq e h2))

theorem canon_execMigratingRewalk {walk : Nat} {s : State} (hs : Canon s) :
    CanonOut (execMigratingRewalk walk s) := by
  unfold execMigratingRewalk
  split
  · exact .next hs
  · exact .next (canon_startWalk (.update hs))

theorem canon_invalidate {s : State} {form asid : Nat} {va : Word} (hs : Canon s) :
    Canon (invalidate s form asid va) :=
  .update hs

theorem canon_tlbiTaken {s : State} {frame id : Nat} (hs : Canon s) : Canon (tlbiTaken s frame id) :=
  .update hs

theorem canon_startTlbi {s : State} {form asid : Nat} {va : Word} {frame : Option Nat} {waits : List (Nat × Nat)}
    (hs : Canon s) :
    Canon (startTlbi s form asid va frame waits).2 := by
  unfold startTlbi
  dsimp only
  exact canon_schedule (.update (canon_takeFree (canon_takeStamp hs)))

theorem canon_execTlbiTakesEffect {id : Nat} {s : State} (hs : Canon s) : CanonOut (execTlbiTakesEffect id s) := by
  unfold execTlbiTakesEffect
  dsimp only
  split
  · exact .next hs
  · split
    · exact .next (canon_schedule hs)
    · refine .next ?_
      split
      · exact canon_tlbiTaken (canon_fillRooms (.update (canon_probeTlbi (canon_invalidate hs))))
      · exact canon_fillRooms (.update (canon_probeTlbi (canon_invalidate hs)))

theorem canon_execTlbi {g : Guard} {form : BitVec 2} {rs ra : BitVec 5} {s : State} (hs : Canon s) :
    CanonOut (execTlbi g form rs ra s) := by
  unfold execTlbi
  refine canon_runAlways hs fun _ => ?_
  dsimp only
  split
  · exact .error
  · split
    · exact .ok hs
    · split
      · exact .error
      · exact .ok (canon_setThread (canon_startTlbi hs))

theorem canon_execTlbiSync {g : Guard} {s : State} (hs : Canon s) : CanonOut (execTlbiSync g s) := by
  unfold execTlbiSync
  refine canon_runAlways hs fun _ => ?_
  split
  · exact .error
  · split
    · exact .ok hs
    · split
      · exact .error
      · exact .ok (canon_setThread (.update hs))

theorem canon_startQueued {s : State} (hs : Canon s) : Canon (startQueued s) := by
  unfold startQueued
  split
  · exact hs
  · exact canon_schedule (canon_startTlbi hs)

theorem canon_queueTlbi {s : State} {form asid : Nat} (hs : Canon s) : Canon (queueTlbi s form asid) := by
  unfold queueTlbi
  dsimp only
  split
  · exact .update hs
  · split
    · exact canon_startQueued (.update hs)
    · exact .update hs

theorem canon_execTlbicmdPage {asid : BitVec 16} {s : State} (hs : Canon s) : CanonOut (execTlbicmdPage asid s) :=
  .next (canon_queueTlbi hs)

theorem canon_execTlbicmdSpace {asid : BitVec 16} {s : State} (hs : Canon s) : CanonOut (execTlbicmdSpace asid s) :=
  .next (canon_queueTlbi hs)

theorem canon_execTlbicmdAll {s : State} (hs : Canon s) : CanonOut (execTlbicmdAll s) :=
  .next (canon_queueTlbi hs)

theorem canon_execTlbiCommandComplete {s : State} (hs : Canon s) : CanonOut (execTlbiCommandComplete s) := by
  unfold execTlbiCommandComplete
  dsimp only
  split
  · exact .next (canon_schedule hs)
  · exact .next (canon_startQueued (.update hs))

/-! Transaction barriers -/

theorem canon_haltContext {s : State} {ctx : Nat} {i : Issuer} {f : FaultRec} (hs : Canon s) :
    Canon (haltContext s ctx i f) := by
  unfold haltContext
  split
  · exact hs
  · split
    · exact canon_modEngine (canon_abandonReplay hs)
    · extract_lets f s1
      have h1 : Canon s1 := canon_fqFault hs
      split
      · exact .update h1
      · split
        · exact canon_modCore h1
        · exact canon_modEngine h1

theorem canon_readBar {s : State} {w : Who} {pa : Nat} {ga : Word} (hs : Canon s) : Canon (readBar s w pa ga).2 := by
  unfold readBar
  dsimp only
  split
  · dsimp only
    exact canon_readPa hs
  · dsimp only
    exact canon_readPa hs

theorem canon_noteArrive {s : State} {pa p : Nat} {thread : Bool} (hs : Canon s) : Canon (noteArrive s pa p thread) :=
  .update hs

theorem canon_putBar {s : State} {w : Who} {pa : Nat} {ga : Word} {v : Nat} {b : Bar} {arrive : Bool} (hs : Canon s) :
    Canon (putBar s w pa ga v b arrive) := by
  unfold putBar
  dsimp only
  split
  · split
    · exact canon_noteArrive (canon_performWrite hs)
    · exact canon_performWrite hs
  · refine canon_noteArrive ?_
    split
    · exact canon_noteArrive (canon_performWrite hs)
    · exact canon_performWrite hs

theorem canon_applyBar {s : State} {w : Who} {pa : Nat} {ga : Word} {a : Bool} {c : ℤ} {thread : Bool}
    (hs : Canon s) :
    Canon (applyBar s w pa ga a c thread).2 := by
  unfold applyBar
  split
  · dsimp only
    rename_i e
    exact .of_eq e (canon_readBar hs)
  · split
    · dsimp only
      rename_i e _ _
      exact .of_eq e (canon_readBar hs)
    · dsimp only
      rename_i e _ _ _
      exact canon_putBar (.of_eq e (canon_readBar hs))

theorem canon_applySectors {s : State} {w : Who} {pa : Nat} {ga : Word} {n : Nat} (hs : Canon s) :
    Canon (applySectors s w pa ga n).2 := by
  unfold applySectors
  split
  · dsimp only
    rename_i e
    exact .of_eq e (canon_readBar hs)
  · dsimp only
    rename_i e
    exact canon_putBar (.of_eq e (canon_readBar hs))

theorem canon_engineBar {s : State} {ctx : Nat} {i : Issuer} {cur : Word} {pa : Nat} {ga : Word} {arrive : Bool}
    {n : Nat} (hs : Canon s) :
    Canon (engineBar s ctx i cur pa ga arrive n) := by
  unfold engineBar
  dsimp only
  split
  · exact canon_haltContext hs
  · split
    · exact canon_haltContext hs
    · split
      · rename_i e
        exact .of_some_ok e (canon_replayWrite hs)
      · exact canon_haltContext hs
      · exact hs
  · split
    · rename_i e
      refine .of_eq e ?_
      split
      · exact canon_applyBar hs
      · exact canon_applySectors hs
    · rename_i e
      refine canon_haltContext (.of_eq e ?_)
      split
      · exact canon_applyBar hs
      · exact canon_applySectors hs
    · rename_i e
      refine canon_haltContext (.of_eq e ?_)
      split
      · exact canon_applyBar hs
      · exact canon_applySectors hs

theorem canon_execBarrierUpdate {pa : Nat} {arrive : Bool} {sectors : Word} {who : Nat} {s : State} (hs : Canon s) :
    CanonOut (execBarrierUpdate pa arrive sectors who s) := by
  unfold execBarrierUpdate
  refine .next ?_
  split
  · exact hs
  · exact canon_engineBar hs

theorem canon_execBinit {g : Guard} {ra rn rs : BitVec 5} {s : State} (hs : Canon s) :
    CanonOut (execBinit g ra rn rs s) := by
  unfold execBinit
  refine canon_runSlot hs fun _ => ?_
  refine OkAll.bindAny fun _ => ?_
  dsimp only
  split
  · exact .error
  · exact canon_issueReq hs

theorem canon_execBarrive {g : Guard} {ra rs : BitVec 5} {exp : Bool} {scope : BitVec 3} {s : State} (hs : Canon s) :
    CanonOut (execBarrive g ra rs exp scope s) :=
  canon_runSlot hs (fun _ => OkAll.bindAny (fun _ => canon_issueReq hs))

theorem canon_execBwait {g : Guard} {test : Bool} {pd : BitVec 3} {ra rph : BitVec 5} {scope : BitVec 3} {s : State}
    (hs : Canon s) :
    CanonOut (execBwait g test pd ra rph scope s) := by
  unfold execBwait
  refine canon_runSlot hs fun _ => ?_
  refine OkAll.bindAny fun _ => ?_
  refine OkAll.bindAny fun _ => ?_
  dsimp only
  split
  · exact canon_putPred (canon_readBar hs)
  · split
    · exact .ok (canon_setThread (canon_readBar hs))
    · exact .error

/-! Engine contexts at work -/

theorem canon_ctxPlace {s : State} {ctx : Nat} {i : Issuer} {rq : Rq} {acc : Acc} {va : Word} (hs : Canon s) :
    (ctxPlace s ctx i rq acc va).Canon := by
  unfold ctxPlace
  dsimp only
  split
  · exact .ok
  · exact .stop (canon_haltContext hs)
  · split
    · exact .stop (canon_haltContext ⟨hs.wf⟩)
    · exact .wait (canon_startWalk hs)

theorem canon_again {s : State} {ctx : Nat} (hs : Canon s) : Canon (again s ctx) := by
  unfold again
  split
  · exact hs
  · exact canon_schedule hs

theorem canon_wake {s : State} {ctx : Nat} (hs : Canon s) : Canon (wake s ctx) :=
  canon_again hs

theorem canon_modOp {s : State} {ctx no : Nat} {f : FabOp → FabOp} (hs : Canon s) : Canon (modOp s ctx no f) :=
  canon_modEngine hs

theorem canon_opPlace {s : State} {ctx : Nat} {i : Issuer} {acc : Acc} {va : Word} (hs : Canon s) :
    Canon (opPlace s ctx i acc va).2 := by
  unfold opPlace
  split
  · exact hs
  · exact hs
  · split
    · split
      · dsimp only
        exact canon_modEngine hs
      · exact hs
    · exact hs

theorem canonAt_opPlace {s : State} {ctx : Nat} {i : Issuer} {acc : Acc} {va : Word} (hs : Canon s) :
    (opPlace s ctx i acc va).1.Canon := by
  unfold opPlace
  split
  · exact .stop (canon_haltContext hs)
  · exact .ok
  · split
    · split <;> exact .ok
    · exact canon_ctxPlace hs

theorem canon_opSpans {s : State} {ctx : Nat} {i : Issuer} {acc : Acc} {va : Word} {n : Nat} (hs : Canon s) :
    EitherAll Canon (fun r : List Span × State => Canon r.2) (opSpans s ctx i acc va n) := by
  unfold opSpans
  dsimp only
  split
  · rename_i e
    exact .ofError (.of_stop e (canonAt_opPlace hs))
  · rename_i e
    exact .ofError (canon_again (.of_wait e (canonAt_opPlace hs)))
  · rename_i e
    have h1 := Canon.of_eq e (canon_opPlace hs)
    split
    · exact .ofOk h1
    · split
      · rename_i e2
        exact .ofError (.of_stop e2 (canonAt_opPlace h1))
      · rename_i e2
        exact .ofError (canon_again (.of_wait e2 (canonAt_opPlace h1)))
      · rename_i e2
        exact .ofOk (.of_eq e2 (canon_opPlace h1))

theorem canon_ctxServed {s : State} {ctx : Nat} {ev : Instr} {spans : List (Nat × Nat)} {k : State → State}
    (hs : Canon s) (hf : ∀ s, Canon s → Canon (k s)) :
    Canon (ctxServed s ctx ev spans k) :=
  canon_engineServed hs (fun _ _ hk => canon_modEngine hk) (fun _ hk => hf _ hk)

theorem canon_ctxRead {s : State} {ctx : Nat} {i : Issuer} {p : Place} {va : Word} {n : Nat} (hs : Canon s) :
    Canon (ctxRead s ctx i p va n).2 := by
  unfold ctxRead
  dsimp only
  split
  · exact hs
  · split
    · exact hs
    · split
      · dsimp only
        rename_i e _ _ _ _
        refine canon_readPlace (.of_ok e ?_)
        split
        · exact .ok hs
        · exact canon_engineTouch hs
      · dsimp only
        rename_i e _ _
        refine canon_readPlace (.of_ok e ?_)
        split
        · exact .ok hs
        · exact canon_engineTouch hs

theorem canon_ctxWrite {s : State} {ctx : Nat} {i : Issuer} {k : Touch} {p : Place} {va : Word} {bs : List Byte}
    (hs : Canon s) :
    Canon (ctxWrite s ctx i k p va bs).2 := by
  unfold ctxWrite
  dsimp only
  split
  · dsimp only
    rename_i e
    refine .of_some_ok e ?_
    split
    · exact canon_replayWrite hs
    · exact .none
  · exact hs
  · split
    · exact hs
    · split
      · dsimp only
        rename_i e _ _ _ _ e2
        refine .of_eq e2 (canon_performWrite (canon_noteHint (.of_ok e ?_)))
        split
        · exact .ok hs
        · exact canon_engineTouch hs
      · dsimp only
        rename_i e _ _ e2
        refine .of_eq e2 (canon_performWrite (canon_noteHint (.of_ok e ?_)))
        split
        · exact .ok hs
        · exact canon_engineTouch hs

theorem canon_readSpans {ctx : Nat} {i : Issuer} {xs : List Span} {s : State} (hs : Canon s) :
    Canon (readSpans ctx i xs s).2 := by
  induction xs generalizing s with
  | nil => exact hs
  | cons x xs ih =>
    unfold readSpans
    split
    · dsimp only
      rename_i e
      exact .of_eq e (canon_ctxRead hs)
    · split
      · dsimp only
        rename_i e _ _ _ e2
        exact .of_eq e2 (ih (.of_eq e (canon_ctxRead hs)))
      · dsimp only
        rename_i e _ _ _ e2
        exact .of_eq e2 (ih (.of_eq e (canon_ctxRead hs)))

theorem canon_writeSpans {ctx : Nat} {i : Issuer} {k : Touch} {xs : List Span} {bs : List Byte} {s : State}
    (hs : Canon s) : Canon (writeSpans ctx i k xs bs s).2 := by
  induction xs generalizing bs s with
  | nil => exact hs
  | cons x xs ih =>
    obtain ⟨p, va, n⟩ := x
    rw [writeSpans]
    split
    · rename_i e
      exact .of_eq e (canon_ctxWrite hs)
    · rename_i e
      exact ih (.of_eq e (canon_ctxWrite hs))

theorem canon_landPiece {s : State} {ctx no : Nat} {dst : Word} {bs : List Byte} (hs : Canon s) :
    Canon (landPiece s ctx no dst bs) :=
  canon_wake (canon_modOp hs)

theorem canon_storeLanded {s : State} {ctx : Nat} {o : FabOp} {dst : Word} {bs : List Byte} (hs : Canon s) :
    Canon (storeLanded s ctx o dst bs) := by
  unfold storeLanded
  extract_lets took
  have htook : ∀ {s b}, Canon s → Canon (took s b) := fun h => canon_again (canon_modOp h)
  split
  · rename_i e
    exact (canon_opSpans hs).error _ e
  · rename_i e
    have h1 := Canon.of_ok_snd e (canon_opSpans hs).ok
    split
    · exact htook (canon_queuePacket h1)
    · split
      · exact canon_again h1
      · refine canon_ctxServed h1 fun _ hk => ?_
        split
        · rename_i e
          exact canon_haltContext (.of_eq e (canon_writeSpans hk))
        · rename_i e
          exact htook (.of_eq e (canon_writeSpans hk))

theorem canon_movePieceOut {s : State} {ctx : Nat} {o : FabOp} {n : Nat} {src dst : List Span} (hs : Canon s) :
    Canon (movePieceOut s ctx o n src dst) := by
  unfold movePieceOut
  dsimp only
  split
  · exact canon_again (canon_modOp (canon_queuePacket (canon_noteHint hs)))
  · refine canon_ctxServed hs fun _ hk => ?_
    split
    · rename_i e
      exact canon_haltContext (.of_eq e (canon_readSpans hk))
    · split
      · rename_i e _
        exact canon_again (canon_modOp (canon_queuePacket (canon_noteHint (.of_eq e (canon_readSpans hk)))))
      · split
        · rename_i e _ _ _ _ e2
          exact canon_haltContext (.of_eq e2 (canon_writeSpans (.of_eq e (canon_readSpans hk))))
        · rename_i e _ _ _ _ e2
          exact canon_again (canon_modOp (.of_eq e2 (canon_writeSpans (.of_eq e (canon_readSpans hk)))))

theorem canon_sendPiece {s : State} {ctx : Nat} {o : FabOp} (hs : Canon s) : Canon (sendPiece s ctx o) := by
  unfold sendPiece
  extract_lets m
  split
  · rename_i e
    exact (canon_opSpans hs).error _ e
  · rename_i e
    have h1 := Canon.of_ok_snd e (canon_opSpans hs).ok
    split
    · rename_i e
      exact (canon_opSpans h1).error _ e
    · rename_i e
      have h2 := Canon.of_ok_snd e (canon_opSpans h1).ok
      extract_lets
      split
      · exact canon_haltContext h2
      · exact canon_ite (canon_haltContext h2) (canon_ite (canon_again h2)
          (canon_ite (canon_again h2) (canon_movePieceOut h2)))

theorem canon_ctrPlace {s : State} {ctx : Nat} {o : FabOp} {a : Word} (hs : Canon s) :
    Canon (ctrPlace s ctx o a).2 := by
  have hop : ∀ {s acc va}, Canon s → Canon (opPlace s ctx o.issuer acc va).2 := canon_opPlace
  unfold ctrPlace
  dsimp only
  split
  · rename_i e
    split
    · split
      · rename_i e2
        split <;> exact .of_eq e2 (hop (.of_eq e (hop hs)))
      · exact hop (.of_eq e (hop hs))
    · split <;> exact .of_eq e (hop hs)
  · exact hop hs

theorem canonAt_ctrPlace {s : State} {ctx : Nat} {o : FabOp} {a : Word} (hs : Canon s) :
    (ctrPlace s ctx o a).1.Canon := by
  have hop : ∀ {s acc va}, Canon s → Canon (opPlace s ctx o.issuer acc va).2 := canon_opPlace
  unfold ctrPlace
  dsimp only
  split
  · rename_i e
    split
    · split
      · rename_i e2
        split
        · exact .ok
        · exact .stop (canon_haltContext (.of_eq e2 (hop (.of_eq e (hop hs)))))
      · exact canonAt_opPlace (.of_eq e (hop hs))
    · split
      · exact .ok
      · exact .stop (canon_haltContext (.of_eq e (hop hs)))
  · exact canonAt_opPlace hs

theorem canon_addCounter {s : State} {ctx : Nat} {o : FabOp} {a : Word} (hs : Canon s) :
    Canon (addCounter s ctx o a) := by
  unfold addCounter
  dsimp only
  split
  · rename_i e
    exact .of_stop e (canonAt_ctrPlace hs)
  · rename_i e
    exact canon_again (.of_wait e (canonAt_ctrPlace hs))
  · split
    · rename_i e _
      exact canon_modOp (canon_queuePacket (.of_eq e (canon_ctrPlace hs)))
    · rename_i e _
      refine canon_ctxServed (.of_eq e (canon_ctrPlace hs)) fun _ hk => ?_
      split
      · rename_i e
        exact canon_haltContext (.of_eq e (canon_ctxRead hk))
      · split
        · rename_i e _ _ _ e2
          exact canon_haltContext (.of_eq e2 (canon_ctxWrite (.of_eq e (canon_ctxRead hk))))
        · rename_i e _ _ _ e2
          exact canon_again (canon_modOp (.of_eq e2 (canon_ctxWrite (.of_eq e (canon_ctxRead hk)))))

theorem canon_finishOp {s : State} {ctx : Nat} (hs : Canon s) : Canon (finishOp s ctx) :=
  canon_again (canon_modEngine hs)

theorem canon_sendVatom {s : State} {ctx : Nat} {o : FabOp} (hs : Canon s) : Canon (sendVatom s ctx o) := by
  unfold sendVatom
  dsimp only
  split
  · rename_i e
    exact .of_stop e (canonAt_opPlace hs)
  · rename_i e
    exact canon_again (.of_wait e (canonAt_opPlace hs))
  · split
    · rename_i e _
      exact canon_haltContext (.of_eq e (canon_opPlace hs))
    · rename_i e _
      exact canon_modOp (canon_queuePacket (canon_noteHint (.of_eq e (canon_opPlace hs))))

theorem canon_fabricStep {s : State} {ctx : Nat} (hs : Canon s) : Canon (fabricStep s ctx) := by
  unfold fabricStep
  extract_lets e
  split
  · exact hs
  · exact hs
  · split
    · exact canon_again hs
    · split
      · exact canon_ite (canon_sendVatom hs) (canon_ite (canon_finishOp hs) hs)
      · extract_lets start
        have hp : start.1.Canon := by
          unfold start
          split
          · split
            · exact canonAt_ctrPlace hs
            · exact .ok
          · exact .ok
        have hq : Canon start.2 := by
          unfold start
          split
          · split
            · exact canon_ctrPlace hs
            · exact hs
          · exact hs
        clear_value start
        split
        · exact hp
        · exact canon_again hp
        · have h1 : Canon _ := hq
          split
          · exact canon_storeLanded h1
          · split
            · exact canon_sendPiece h1
            · split
              · exact h1
              · split
                · exact canon_ite h1 (canon_addCounter h1)
                · exact canon_finishOp h1

theorem canon_counterDone {s : State} {ctx no : Nat} (hs : Canon s) : Canon (counterDone s ctx no) :=
  canon_again (canon_modOp hs)

theorem canon_queueFab {s : State} {t : Thread} {kind : Nat} {dst src : Word} {len : Nat} {ctr : Option Word}
    {data : Row} {ft unseen : Bool} (hs : Canon s) :
    OkAll Canon (queueFab s t kind dst src len ctr data ft unseen) := by
  unfold queueFab
  dsimp only
  split
  · exact .error
  · split
    · exact .error
    · split
      · exact .error
      · split
        · exact .error
        · exact .ok (canon_again (canon_setThread (canon_noteCtxJob (canon_modEngine hs))))

theorem canon_execFst {g : Guard} {rdst rsrc rlen rctr : BitVec 5} {ctr : Bool} {s : State} (hs : Canon s) :
    CanonOut (execFst g rdst rsrc rlen rctr ctr s) :=
  canon_runSlot hs (fun _ => canon_queueFab hs)

theorem canon_execFld {g : Guard} {rdst rsrc rlen rctr : BitVec 5} {ctr : Bool} {s : State} (hs : Canon s) :
    CanonOut (execFld g rdst rsrc rlen rctr ctr s) :=
  canon_runSlot hs (fun _ => canon_queueFab hs)

theorem canon_execFatom {g : Guard} {rd ra rb : BitVec 5} {aop : BitVec 4} {w rv : Bool} {ord : BitVec 2}
    {atr : Bool} {off : BitVec 10} {s : State} (hs : Canon s) :
    CanonOut (execFatom g rd ra rb aop w rv ord atr off s) := by
  unfold execFatom
  refine canon_runSlot hs fun _ => ?_
  dsimp only
  split
  · exact .error
  · refine OkAll.bindAny fun _ => ?_
    split
    · exact .error
    · exact OkAll.bindAny (fun _ => OkAll.map (canon_issueReq hs) (fun _ hk => canon_schedule hk))

theorem canon_execVatom {g : Guard} {ra : BitVec 5} {tl : BitVec 4} {e : BitVec 6} {h ft : Bool} {s : State}
    (hs : Canon s) :
    CanonOut (execVatom g ra tl e h ft s) := by
  unfold execVatom
  refine canon_runSlot hs fun _ => ?_
  dsimp only
  split
  · exact .error
  · split
    · split
      · exact .error
      · exact canon_queueFab hs
    · split
      · exact .error
      · exact canon_queueFab hs

theorem canon_execQnop {_g : Guard} {_x : BitVec 38} {s : State} (hs : Canon s) : CanonOut (execQnop _g _x s) :=
  .next hs

/-! Collective contexts at work -/

theorem canon_setColl {s : State} {ctx : Nat} {k : Coll} (hs : Canon s) : Canon (setColl s ctx k) :=
  .update hs

theorem canon_modCollOp {s : State} {ctx : Nat} {f : CollOp → CollOp} (hs : Canon s) : Canon (modCollOp s ctx f) :=
  canon_setColl hs

theorem canon_collAgain {s : State} {ctx d : Nat} (hs : Canon s) : Canon (collAgain s ctx d) := by
  unfold collAgain
  split
  · exact hs
  · exact canon_schedule hs

theorem canon_collPlace {s : State} {ctx : Nat} {o : CollOp} {acc : Acc} {va : Word} (hs : Canon s) :
    Canon (collPlace s ctx o acc va).2 := by
  unfold collPlace
  split
  · rename_i e
    exact .of_eq e (canon_resolveNow hs)
  · rename_i e
    exact .of_eq e (canon_resolveNow hs)
  · rename_i e
    split <;> exact .of_eq e (canon_resolveNow hs)

theorem canonAt_collPlace {s : State} {ctx : Nat} {o : CollOp} {acc : Acc} {va : Word} (hs : Canon s) :
    (collPlace s ctx o acc va).1.Canon := by
  unfold collPlace
  split
  · exact .ok
  · rename_i e
    exact .wait (.of_eq e (canon_resolveNow hs))
  · rename_i e
    split
    · exact .wait (canon_collAgain (.of_eq e (canon_resolveNow hs)))
    · exact .stop (canon_haltContext (.of_eq e (canon_resolveNow hs)))

theorem canon_collFetch {s : State} {ctx : Nat} {o : CollOp} {va : Word} {n have_ : Nat} (hs : Canon s) :
    Canon (collFetch s ctx o va n have_).1 := by
  unfold collFetch
  dsimp only
  split
  · exact hs
  · split
    · dsimp only
      rename_i e
      exact .of_stop e (canonAt_collPlace hs)
    · dsimp only
      rename_i e
      exact .of_wait e (canonAt_collPlace hs)
    · split
      · dsimp only
        rename_i e _
        exact canon_modCollOp (canon_queuePacket (.of_eq e (canon_collPlace hs)))
      · split
        · dsimp only
          rename_i e _ _
          exact .of_eq e (canon_collPlace hs)
        · split
          · dsimp only
            rename_i e _ _ _ _ _ e2
            exact canon_haltContext (.of_eq e2 (canon_ctxRead (.of_eq e (canon_collPlace hs))))
          · dsimp only
            rename_i e _ _ _ _ _ e2
            exact .of_eq e2 (canon_ctxRead (.of_eq e (canon_collPlace hs)))

theorem canon_collStore {s : State} {ctx : Nat} {o : CollOp} {va : Word} {bs : List Byte}
    {rest : List (Word × List Byte)} (hs : Canon s) :
    Canon (collStore s ctx o va bs rest) := by
  unfold collStore
  dsimp only
  split
  · rename_i e
    exact .of_stop e (canonAt_collPlace hs)
  · rename_i e
    exact .of_wait e (canonAt_collPlace hs)
  · split
    · rename_i e _
      exact canon_modCollOp (canon_queuePacket (.of_eq e (canon_collPlace hs)))
    · split
      · rename_i e _ _
        exact .of_eq e (canon_collPlace hs)
      · split
        · rename_i e _ _ _ _ _ e2
          exact canon_haltContext (.of_eq e2 (canon_ctxWrite (.of_eq e (canon_collPlace hs))))
        · rename_i e _ _ _ _ _ e2
          exact canon_modCollOp (.of_eq e2 (canon_ctxWrite (.of_eq e (canon_collPlace hs))))

theorem canon_sendCollp {s : State} {ctx : Nat} {o : CollOp} {b first : Nat} {data : List Byte} {fwd : Bool}
    (hs : Canon s) :
    Canon (sendCollp s ctx o b first data fwd) :=
  canon_modCollOp (canon_queuePacket hs)

theorem canon_takeOut {s : State} {ctx : Nat} {es : List CollIn} (hs : Canon s) : Canon (takeOut s ctx es) :=
  canon_setColl hs

theorem canon_collSend {s : State} {ctx : Nat} {o : CollOp} (hs : Canon s) : Canon (collSend s ctx o) := by
  unfold collSend
  refine canon_foldl ?_ hs
  intro _ _ hk
  split
  · exact hk
  · exact canon_foldl (fun _ _ hk2 => canon_sendCollp hk2) hk

theorem canon_sendPartial {s : State} {ctx : Nat} {o : CollOp} {qs : List (List Byte)} {b : Nat} (hs : Canon s) :
    Canon (sendPartial s ctx o qs b) := by
  unfold sendPartial
  dsimp only
  split
  · exact hs
  · split <;> exact canon_foldl (fun _ _ hk => canon_sendCollp hk) hs

theorem canon_collHalt {s : State} {k : Coll} {o : CollOp} (hs : Canon s) : Canon (collHalt s k o) := by
  unfold collHalt
  refine canon_foldl ?_ hs
  intro _ _ hk
  split
  · split
    · exact canon_haltContext hk
    · exact hk
  · exact hk

theorem canon_collCtrPlace {s : State} {ctx : Nat} {o : CollOp} {a : Word} (hs : Canon s) :
    Canon (collCtrPlace s ctx o a).2 := by
  unfold collCtrPlace
  split
  · rename_i e
    split <;> exact .of_eq e (canon_collPlace hs)
  · exact canon_collPlace hs

theorem canonAt_collCtrPlace {s : State} {ctx : Nat} {o : CollOp} {a : Word} (hs : Canon s) :
    (collCtrPlace s ctx o a).1.Canon := by
  unfold collCtrPlace
  split
  · rename_i e
    split
    · exact .stop (canon_haltContext (.of_eq e (canon_collPlace hs)))
    · exact .ok
  · exact canonAt_collPlace hs

theorem canon_collCounter {s : State} {ctx : Nat} {o : CollOp} {a : Word} (hs : Canon s) :
    Canon (collCounter s ctx o a).1 := by
  unfold collCounter
  dsimp only
  split
  · dsimp only
    rename_i e
    exact .of_stop e (canonAt_collCtrPlace hs)
  · dsimp only
    rename_i e
    exact .of_wait e (canonAt_collCtrPlace hs)
  · split
    · dsimp only
      rename_i e _ _ _ e2
      exact canon_haltContext (.of_eq e2 (canon_ctxRead (.of_eq e (canon_collCtrPlace hs))))
    · split
      · dsimp only
        rename_i e _ _ _ e2 _ _ _ e3
        exact canon_haltContext (.of_eq e3 (canon_ctxWrite (.of_eq e2 (canon_ctxRead (.of_eq e (canon_collCtrPlace
          hs))))))
      · dsimp only
        rename_i e _ _ _ e2 _ _ _ e3
        exact .of_eq e3 (canon_ctxWrite (.of_eq e2 (canon_ctxRead (.of_eq e (canon_collCtrPlace hs)))))

theorem canon_takeRelay {s : State} {ctx : Nat} (hs : Canon s) : SomeAll Canon (takeRelay s ctx) := by
  unfold takeRelay
  dsimp only
  split
  · exact .none
  · exact .some (canon_modCollOp (.update (canon_takeStamp hs)))

theorem canon_holdRelay {s : State} {ctx before : Nat} (hs : Canon s) : Canon (holdRelay s ctx before) := by
  unfold holdRelay
  dsimp only
  split
  · split
    · exact .update hs
    · exact hs
  · exact hs

theorem canon_toStage {s : State} {ctx n : Nat} (hs : Canon s) : Canon (toStage s ctx n) :=
  canon_modCollOp hs

theorem canon_collFinish {s : State} {ctx : Nat} (hs : Canon s) : Canon (collFinish s ctx) :=
  canon_setColl hs

theorem canon_collStage {s : State} {ctx : Nat} {o : CollOp} (hs : Canon s) : Canon (collStage s ctx o) := by
  unfold collStage
  extract_lets d k n start
  split
  · have hp : start.1.Canon := by
      unfold start
      split
      · exact .ok
      · exact canonAt_collCtrPlace hs
    have hq : Canon start.2 := by
      unfold start
      split
      · exact hs
      · exact canon_collCtrPlace hs
    clear_value start
    split
    · exact hp
    · exact hp
    · have h1 : Canon _ := hq
      split
      · exact canon_toStage h1
      · split
        · rename_i e
          exact .of_eq_fst e (canon_collFetch h1)
        · rename_i e
          exact canon_modCollOp (.of_eq_fst e (canon_collFetch h1))
  · exact canon_toStage (canon_collSend hs)
  · split
    rename_i e
    have h1 := Canon.of_eq e (canon_takeFree hs)
    split
    · exact canon_collHalt h1
    · split
      · exact h1
      · split
        · exact canon_modCollOp (canon_takeOut h1)
        · split
          · exact canon_modCollOp (canon_takeOut h1)
          · exact canon_toStage (canon_takeOut h1)
  · split
    · exact canon_toStage hs
    · split
      · rename_i e
        exact .of_eq_fst e (canon_collFetch hs)
      · rename_i e
        exact canon_modCollOp (.of_eq_fst e (canon_collFetch hs))
  · split
    · exact hs
    · rename_i e
      refine canon_modCollOp (canon_holdRelay (canon_foldl (fun _ _ hk => canon_sendPartial hk) (.of_some e ?_)))
      split
      · exact .some hs
      · exact canon_takeRelay hs
  · split
    · exact canon_toStage hs
    · exact canon_ite (canon_modCollOp hs) (canon_collStore hs)
  · split
    · exact canon_toStage hs
    · split
      · exact hs
      · exact canon_modCollOp (canon_takeOut hs)
  · split
    · exact canon_ite (canon_toStage hs) hs
    · exact canon_ite (canon_modCollOp hs) (canon_collStore hs)
  · split
    · exact canon_collFinish hs
    · split
      · rename_i e
        exact canon_collFinish (.of_eq_fst e (canon_collCounter hs))
      · rename_i e
        exact .of_eq_fst e (canon_collCounter hs)

theorem canon_collStep {s : State} {ctx : Nat} (hs : Canon s) : Canon (collStep s ctx) := by
  unfold collStep
  dsimp only
  split
  · refine canon_collAgain ?_
    split
    · exact canon_collStage hs
    · exact hs
  · exact hs

/-! Copy channels -/

theorem canon_readRecord {s : State} {ctx : Nat} {i : Issuer} {cur : Word} (hs : Canon s) :
    Canon (readRecord s ctx i cur) := by
  unfold readRecord
  dsimp only
  split
  · rename_i e
    exact .of_stop e (canonAt_opPlace hs)
  · rename_i e
    exact canon_again (.of_wait e (canonAt_opPlace hs))
  · split
    · rename_i e _
      exact canon_haltContext (.of_eq e (canon_opPlace hs))
    · split
      · rename_i e _ _
        exact canon_again (.of_eq e (canon_opPlace hs))
      · rename_i e _ _
        refine canon_ctxServed (.of_eq e (canon_opPlace hs)) fun _ hk => ?_
        split
        · rename_i e
          exact canon_haltContext (.of_eq e (canon_ctxRead hk))
        · split
          · rename_i e _
            exact canon_haltContext (.of_eq e (canon_ctxRead hk))
          · split
            · rename_i e _ _
              exact canon_haltContext (.of_eq e (canon_ctxRead hk))
            · split
              · rename_i e _ _ _
                exact canon_haltContext (.of_eq e (canon_ctxRead hk))
              · rename_i e _ _ _
                exact canon_again (canon_modEngine (.of_eq e (canon_ctxRead hk)))

theorem canon_pieceMoved {s : State} {ctx : Nat} (hs : Canon s) : Canon (pieceMoved s ctx) :=
  canon_again (canon_modEngine hs)

theorem canon_farStep {s : State} {ctx : Nat} {o : FabOp} (hs : Canon s) : Canon (farStep s ctx o) := by
  unfold farStep
  split
  · exact canon_storeLanded hs
  · split
    · exact canon_sendPiece hs
    · split
      · exact hs
      · exact canon_pieceMoved hs

theorem canon_copyTags {s : State} {ps pd : Place} {n : Nat} (hs : Canon s) : Canon (copyTags s ps pd n) := by
  unfold copyTags
  dsimp only
  split
  · exact canon_foldl (fun _ _ hk => canon_setTag (canon_tagOf hk)) hs
  · exact hs

theorem canon_pieceBar {s : State} {ctx : Nat} {i : Issuer} {r : CopyRec} (hs : Canon s) :
    Canon (pieceBar s ctx i r).2 := by
  unfold pieceBar
  dsimp only
  split
  · exact hs
  · split
    · dsimp only
      rename_i e
      exact .of_eq e (canon_readBar hs)
    · dsimp only
      rename_i e
      exact .of_eq e (canon_readBar hs)

theorem canon_movePiece {s : State} {ctx : Nat} {i : Issuer} {r : CopyRec} {x : Run} {ps pd : Place} (hs : Canon s) :
    Canon (movePiece s ctx i r x ps pd) := by
  unfold movePiece
  dsimp only
  split
  · rename_i e
    exact canon_haltContext (.of_eq e (canon_pieceBar hs))
  · split
    · rename_i e _ _ _ e2
      exact canon_haltContext (.of_eq e2 (canon_ctxRead (.of_eq e (canon_pieceBar hs))))
    · split
      · rename_i e _ _ _ e2 _ _ _ e3
        exact canon_haltContext (.of_eq e3 (canon_ctxWrite (.of_eq e2 (canon_ctxRead (.of_eq e (canon_pieceBar
          hs))))))
      · refine canon_pieceMoved ?_
        split
        · rename_i e _ _ _ e2 _ _ _ e3 _
          exact canon_copyTags (.of_eq e3 (canon_ctxWrite (.of_eq e2 (canon_ctxRead (.of_eq e (canon_pieceBar hs))))))
        · rename_i e _ _ _ e2 _ _ _ e3 _
          exact .of_eq e3 (canon_ctxWrite (.of_eq e2 (canon_ctxRead (.of_eq e (canon_pieceBar hs)))))

theorem canon_copyPiece {s : State} {ctx : Nat} {i : Issuer} {r : CopyRec} {x : Run} (hs : Canon s) :
    Canon (copyPiece s ctx i r x) := by
  unfold copyPiece
  dsimp only
  split
  · rename_i e
    exact .of_stop e (canonAt_opPlace hs)
  · rename_i e
    exact canon_again (.of_wait e (canonAt_opPlace hs))
  · split
    · rename_i e _ _ _ e2
      exact .of_stop e2 (canonAt_opPlace (.of_eq e (canon_opPlace hs)))
    · rename_i e _ _ _ e2
      exact canon_again (.of_wait e2 (canonAt_opPlace (.of_eq e (canon_opPlace hs))))
    · split
      · rename_i e _ _ _ e2 _
        exact canon_again (canon_modEngine (.of_eq e2 (canon_opPlace (.of_eq e (canon_opPlace hs)))))
      · split
        · split
          · rename_i e _ _ _ e2 _ _ _
            exact canon_again (.of_eq e2 (canon_opPlace (.of_eq e (canon_opPlace hs))))
          · rename_i e _ _ _ e2 _ _ _
            exact canon_ctxServed (.of_eq e2 (canon_opPlace (.of_eq e (canon_opPlace hs)))) (fun _ hk =>
              canon_movePiece hk)
        · split
          · rename_i e _ _ _ e2 _ _ _
            exact canon_again (.of_eq e2 (canon_opPlace (.of_eq e (canon_opPlace hs))))
          · rename_i e _ _ _ e2 _ _ _
            exact canon_schedule (canon_modEngine (canon_takeFree (.of_eq e2 (canon_opPlace (.of_eq e (canon_opPlace
              hs))))))

theorem canon_recordStep {s : State} {ctx : Nat} {i : Issuer} {r : CopyRec} (hs : Canon s) :
    Canon (recordStep s ctx i r) := by
  unfold recordStep
  extract_lets bar
  have hp : bar.1.Canon := by
    unfold bar
    split
    · exact canonAt_opPlace hs
    · exact .ok
  have hq : Canon bar.2 := by
    unfold bar
    split
    · exact canon_opPlace hs
    · exact hs
  clear_value bar
  split
  · exact hp
  · exact canon_again hp
  · have h1 : Canon _ := hq
    split
    · exact canon_haltContext h1
    · split
      · exact canon_farStep h1
      · exact canon_copyPiece h1
      · split
        · exact h1
        · exact canon_schedule (canon_modEngine (canon_takeFree h1))

theorem canon_takeRecord {s : State} {ctx : Nat} {c : Chain} (hs : Canon s) : Canon (takeRecord s ctx c) := by
  unfold takeRecord
  dsimp only
  split
  · exact hs
  · exact canon_modEngine (canon_takeStamp hs)

theorem canon_execCopyRecordProcess {ctx : Nat} {s : State} (hs : Canon s) :
    CanonOut (execCopyRecordProcess ctx s) := by
  unfold execCopyRecordProcess
  refine .next ?_
  dsimp only
  split
  · exact canon_collStep hs
  · split
    · exact canon_fabricStep hs
    · split
      · split
        · exact canon_again hs
        · split
          · exact canon_readRecord (canon_takeRecord hs)
          · exact canon_recordStep (canon_takeRecord hs)
      · exact hs

theorem canon_clearOwn {s : State} {ctx : Nat} {i : Issuer} {cur w0 : Word} (hs : Canon s) :
    Canon (clearOwn s ctx i cur w0).2 := by
  unfold clearOwn
  dsimp only
  split
  · dsimp only
    rename_i e
    refine .of_some_ok e ?_
    split
    · exact canon_replayWrite hs
    · exact .none
  · exact hs
  · split
    · dsimp only
      rename_i e
      exact .of_eq e (canon_performWrite (canon_noteHint hs))
    · dsimp only
      rename_i e
      exact .of_eq e (canon_performWrite (canon_noteHint hs))

theorem canon_nextRecord {s : State} {ctx : Nat} {r : CopyRec} (hs : Canon s) : Canon (nextRecord s ctx r) :=
  canon_again (canon_modEngine hs)

theorem canon_countRecord {s : State} {ctx : Nat} {r : CopyRec} {bpa : Nat} (hs : Canon s) :
    Canon (countRecord s ctx r bpa) :=
  canon_pushEvs (canon_modEngine hs)

theorem canon_execCopyRecordComplete {ctx : Nat} {s : State} (hs : Canon s) :
    CanonOut (execCopyRecordComplete ctx s) := by
  unfold execCopyRecordComplete
  dsimp only
  split
  · refine .next ?_
    split
    · exact hs
    · split
      · exact canon_countRecord hs
      · split
        · exact canon_schedule hs
        · refine canon_ctxServed hs fun _ hk => ?_
          split
          · rename_i e
            exact canon_haltContext (.of_eq e (canon_clearOwn hk))
          · rename_i e
            exact canon_nextRecord (.of_eq e (canon_clearOwn hk))
  · exact .next hs

theorem canon_execCnop {_g : Guard} {_x : BitVec 38} {s : State} (hs : Canon s) : CanonOut (execCnop _g _x s) :=
  .next hs

theorem canon_execCopy {g : Guard} {ch : BitVec 2} {ra : BitVec 5} {s : State} (hs : Canon s) :
    CanonOut (execCopy g ch ra s) := by
  unfold execCopy
  refine canon_runSlot hs fun _ => ?_
  dsimp only
  split
  · exact .error
  · split
    · exact .error
    · exact .ok (canon_again (canon_setThread (canon_noteCtxJob (canon_modEngine hs))))

theorem canon_execClose {g : Guard} {s : State} (hs : Canon s) : CanonOut (execClose g s) := by
  unfold execClose
  refine canon_runSlot hs fun _ => ?_
  dsimp only
  split
  · exact .ok hs
  · split
    · exact .error
    · exact .ok (canon_setThread hs)

theorem canon_execWaitl {g : Guard} {test : Bool} {pd ctxk : BitVec 3} {rc rn : BitVec 5} {scope : BitVec 3}
    {s : State} (hs : Canon s) :
    CanonOut (execWaitl g test pd ctxk rc rn scope s) := by
  unfold execWaitl
  refine canon_runSlot hs fun _ => ?_
  refine OkAll.bindAny fun _ => ?_
  dsimp only
  split
  · exact canon_putPred hs
  · split
    · dsimp only
      split
      · exact .ok (canon_setThread hs)
      · exact .error
    · split
      · exact .ok (canon_setThread hs)
      · exact .error

/-! The probe-cache instructions -/

theorem canon_tagFill {s : State} {c j n : Nat} {bar : Option (Word × Nat)} {phase : Nat} (hs : Canon s) :
    Canon (tagFill s c j n bar phase) :=
  canon_foldl (fun _ _ hk => canon_setTag hk) hs

theorem canon_barPhase {s : State} {c : Nat} {bar : Option (Word × Nat)} (hs : Canon s) :
    OkAll (fun r => Canon r.2) (barPhase s c bar) := by
  unfold barPhase
  split
  · exact .ok hs
  · split
    · refine .ok ?_
      dsimp only
      rename_i e
      exact .of_eq e (canon_readBar hs)
    · exact .error

theorem canon_probeMiss {s : State} {c : Nat} {t : Thread} {va : Word} {way : Option Nat}
    {bar : Option (Word × Nat)} (hs : Canon s) :
    OkAll (fun r => Canon r.1) (probeMiss s c t va way bar) := by
  unfold probeMiss
  dsimp only
  split
  · exact .ok hs
  · split
    · exact .error
    · refine OkAll.bind (canon_barPhase hs) fun _ hk => ?_
      refine .ok ?_
      dsimp only
      refine canon_tagFill (canon_touchPlru (canon_setSlot (canon_queueProbe ?_)))
      split
      · exact canon_queueProbe hk
      · exact hk

theorem canon_execProbe {h : MHdr} {pd : BitVec 3} {rdp : BitVec 4} {ra : BitVec 5} {wayf : Bool} {way : BitVec 3}
    {mb : Bool} {tgt : BitVec 6} {barf : Bool} {rb : BitVec 5} {s : State} (hs : Canon s) :
    CanonOut (execProbe h pd rdp ra wayf way mb tgt barf rb s) := by
  unfold execProbe
  refine canon_runSlot hs fun _ => ?_
  refine OkAll.bindAny fun _ => ?_
  refine OkAll.bindAny fun _ => ?_
  refine OkAll.bindAny fun _ => ?_
  dsimp only
  split
  · exact .error
  · exact OkAll.bindAny (fun _ => OkAll.bindAny (fun _ => OkAll.mapAny (fun _ => canon_setThread (canon_touchPlru
      hs))))
  · exact OkAll.bindAny (fun _ => OkAll.bindAny (fun _ => OkAll.mapAny (fun _ => canon_setThread hs)))
  · refine OkAll.bind (canon_probeMiss hs) fun _ hk => ?_
    split <;> exact OkAll.bindAny (fun _ => OkAll.bindAny (fun _ => OkAll.mapAny (fun _ => canon_setThread hk)))

theorem canon_execFill {h : MHdr} {rd ra : BitVec 5} {wayf : Bool} {way : BitVec 3} {barf : Bool} {rb : BitVec 5}
    {s : State} (hs : Canon s) :
    CanonOut (execFill h rd ra wayf way barf rb s) := by
  unfold execFill
  refine canon_runSlot hs fun _ => ?_
  refine OkAll.bindAny fun _ => ?_
  refine OkAll.bindAny fun _ => ?_
  dsimp only
  split
  · exact .error
  · exact canon_putScalar (canon_touchPlru hs)
  · exact canon_putScalar hs
  · exact OkAll.bind (canon_probeMiss hs) (fun _ hk => canon_putScalar hk)

theorem canon_releaseSlot {s : State} {rd ra : BitVec 5} {wb : Bool} {next : Nat → Option Nat} {t : Thread}
    (hs : Canon s) :
    OkAll Canon (releaseSlot s rd ra wb next t) := by
  unfold releaseSlot
  refine OkAll.bindAny fun _ => ?_
  dsimp only
  split
  · exact canon_putScalar hs
  · split
    · exact canon_putScalar hs
    · split
      · exact .error
      · refine canon_putScalar (canon_setSlot ?_)
        split
        · exact canon_queueProbe hs
        · exact hs

theorem canon_execEvict {h : MHdr} {wb : Bool} {ra rd : BitVec 5} {s : State} (hs : Canon s) :
    CanonOut (execEvict h wb ra rd s) :=
  canon_runSlot hs (fun _ => canon_releaseSlot hs)

theorem canon_execWback {h : MHdr} {ra rd : BitVec 5} {s : State} (hs : Canon s) : CanonOut (execWback h ra rd s) :=
  canon_runSlot hs (fun _ => canon_releaseSlot hs)

theorem canon_modPOp {s : State} {c n : Nat} {f : POp → POp} (hs : Canon s) : Canon (modPOp s c n f) :=
  canon_modProbe hs

theorem canon_countFill {s : State} {c : Nat} {o : POp} {pa : Nat} (hs : Canon s) : Canon (countFill s c o pa) :=
  canon_engineBar (canon_engineBar hs)

theorem canon_probeAgain {s : State} {c : Nat} {o : POp} (hs : Canon s) : Canon (probeAgain s c o) :=
  canon_schedule hs

theorem canon_countOwing {s : State} {c : Nat} {o : POp} (hs : Canon s) : Canon (countOwing s c o) := by
  unfold countOwing
  dsimp only
  split
  · rename_i e
    exact .of_place_stop e (canon_ctxPlace hs)
  · rename_i e
    exact canon_probeAgain (.of_place_wait e (canon_ctxPlace hs))
  · split
    · exact canon_haltContext hs
    · exact canon_countFill (canon_modProbe hs)

theorem canon_popProbe {s : State} {c : Nat} {o : POp} (hs : Canon s) : Canon (popProbe s c o) := by
  unfold popProbe
  dsimp only
  split
  · split
    · exact canon_probeAgain (canon_modProbe (canon_fillRoom (canon_modProbe (canon_modPOp hs))))
    · exact canon_countFill (canon_fillRoom (canon_modProbe (canon_modPOp hs)))
  · exact canon_fillRoom (canon_modProbe (canon_modPOp hs))

theorem canon_finishFill {s : State} {c : Nat} {o : POp} {r : Except (Nat × Nat) (List Byte)} (hs : Canon s) :
    Canon (finishFill s c o r) := by
  have hw : ∀ {w pa bs ga}, Canon (performWrite s w pa bs ga).2 := canon_performWrite hs
  obtain ⟨W, hW⟩ : ∃ W, W = @performWrite := ⟨_, rfl⟩
  unfold finishFill
  rw [← hW] at hw ⊢
  refine canon_popProbe (canon_setSlot ?_)
  split
  · exact hw
  · exact hs

theorem canon_haltProbe {s : State} {c : Nat} {o : POp} {f : FaultRec} (hs : Canon s) : Canon (haltProbe s c o f) :=
  canon_haltContext (canon_modPOp hs)

theorem canon_probePacket {s : State} {c : Nat} {o : POp} {d : BitVec 16} {pa : Nat} {bs : List Byte} (hs : Canon s) :
    Canon (probePacket s c o d pa bs) :=
  canon_queuePacket hs

theorem canon_probeServed {s : State} {c : Nat} {o : POp} {spans : List (Nat × Nat)} {k : State → State}
    (hs : Canon s) (hf : ∀ s, Canon s → Canon (k s)) :
    Canon (probeServed s c o spans k) :=
  canon_engineServed hs (fun _ _ hk => canon_modPOp hk) (fun _ hk => hf _ hk)

theorem canon_readSlot {s : State} {c : Nat} {o : POp} (hs : Canon s) : Canon (readSlot s c o) := by
  unfold readSlot
  refine canon_probeServed hs fun s2 h2 => ?_
  split
  rename_i e
  have h3 := Canon.of_eq e (canon_readPa h2)
  split
  · exact canon_haltProbe h3
  · exact canon_probeAgain (canon_modPOp h3)

theorem canon_issueProbe {s : State} {c : Nat} {o : POp} {pa : Nat} {dev : Option (BitVec 16)} (hs : Canon s) :
    Canon (issueProbe s c o pa dev) := by
  unfold issueProbe
  dsimp only
  split
  · exact canon_readSlot hs
  · split
    · exact canon_probeAgain hs
    · split
      · exact canon_probePacket (canon_modPOp (canon_noteHint hs))
      · exact canon_startProbe (canon_modPOp (canon_noteHint hs))

theorem canon_noteFill {s : State} {c : Nat} {o : POp} {p : Place} (hs : Canon s) : Canon (noteFill s c o p) :=
  canon_setSlot hs

theorem canon_translateProbe {s : State} {c : Nat} {o : POp} (hs : Canon s) : Canon (translateProbe s c o) := by
  unfold translateProbe
  dsimp only
  split
  · rename_i e
    exact .of_place_stop e (canon_ctxPlace hs)
  · rename_i e
    exact canon_probeAgain (.of_place_wait e (canon_ctxPlace hs))
  · split
    · refine canon_finishFill ?_
      split
      · exact canon_noteFill hs
      · exact hs
    · refine canon_issueProbe (canon_modPOp ?_)
      split
      · exact canon_noteFill hs
      · exact hs

theorem canon_performProbe {s : State} {c : Nat} {o : POp} {pa : Nat} (hs : Canon s) :
    Canon (performProbe s c o pa) := by
  unfold performProbe
  dsimp only
  split
  · exact canon_probeAgain hs
  · refine canon_probeServed hs fun _ hk => ?_
    split
    · exact canon_finishFill (canon_readPa hk)
    · split
      · rename_i e
        exact canon_haltProbe (.of_eq e (canon_performWrite hk))
      · rename_i e
        exact canon_popProbe (.of_eq e (canon_performWrite hk))

theorem canon_probeStep {s : State} {c n : Nat} {fill : Bool} (hs : Canon s) : Canon (probeStep s c n fill) := by
  unfold probeStep
  dsimp only
  split
  · split
    · split
      · exact hs
      · exact canon_countOwing hs
    · exact hs
  · split
    · exact canon_performProbe hs
    · split
      · exact canon_probeServed hs (fun _ hk => canon_finishFill hk)
      · exact hs
    · exact hs
    · split
      · exact hs
      · split
        · exact canon_probeAgain hs
        · split
          · exact canon_issueProbe hs
          · exact canon_translateProbe hs

theorem canon_execFillComplete {core n : Nat} {s : State} (hs : Canon s) : CanonOut (execFillComplete core n s) :=
  .next (canon_probeStep hs)

theorem canon_execWritebackComplete {core n : Nat} {s : State} (hs : Canon s) :
    CanonOut (execWritebackComplete core n s) :=
  .next (canon_probeStep hs)

theorem canon_probeAnswer {s : State} {ctx no : Nat} {r : Except (Nat × Nat) (List Byte)} (hs : Canon s) :
    Canon (probeAnswer s ctx no r) := by
  unfold probeAnswer
  dsimp only
  split
  · exact hs
  · split
    · split
      · exact canon_schedule (canon_modPOp hs)
      · exact canon_finishFill hs
    · split
      · exact canon_popProbe hs
      · exact canon_haltProbe hs

theorem canon_restartProbe {s : State} {c : Nat} (hs : Canon s) : Canon (restartProbe s c) :=
  canon_foldl (fun _ _ hk => canon_probeAgain hk) (canon_modProbe hs)

/-! Format and control registers, the calendar, and the auditor's ranges -/

theorem canon_putCtl {s : State} {t : Thread} {reg : Nat} {v : Word} {l : Nat} (hs : Canon s) :
    Canon (putCtl s t reg v l) :=
  canon_setThread hs

theorem canon_execSetfmt {g : Guard} {msk : BitVec 5} {img : BitVec 20} {s : State} (hs : Canon s) :
    CanonOut (execSetfmt g msk img s) :=
  canon_runSlot hs (fun _ => .ok (canon_putCtl hs))

theorem canon_execCrr {g : Guard} {rd : BitVec 5} {cr : BitVec 12} {s : State} (hs : Canon s) :
    CanonOut (execCrr g rd cr s) :=
  canon_runSlot hs (fun _ => canon_putScalar hs)

theorem canon_execCrw {g : Guard} {rs : BitVec 5} {cr : BitVec 12} {s : State} (hs : Canon s) :
    CanonOut (execCrw g rs cr s) := by
  unfold execCrw
  refine canon_runAlways hs fun _ => ?_
  dsimp only
  split
  · exact .error
  · split
    · exact .ok hs
    · split
      · exact .ok (canon_putCtl hs)
      · split
        · exact .ok (canon_putCtl hs)
        · exact .ok hs

theorem canon_execDcal {g : Guard} {rd : BitVec 5} {s : State} (hs : Canon s) : CanonOut (execDcal g rd s) :=
  canon_runSlot hs (fun _ => canon_putScalar hs)

theorem canon_execDleft {g : Guard} {rd : BitVec 5} {pd : BitVec 3} {s : State} (hs : Canon s) :
    CanonOut (execDleft g rd pd s) :=
  canon_runSlot hs (fun _ => OkAll.bindAny (fun _ => canon_putPred hs))

theorem canon_execAmark {g : Guard} {k : BitVec 2} {ra rl : BitVec 5} {s : State} (hs : Canon s) :
    CanonOut (execAmark g k ra rl s) := by
  unfold execAmark
  refine canon_runSlot hs fun _ => ?_
  dsimp only
  split
  · split
    · exact .ok (canon_setThread hs)
    · split
      · exact .ok (canon_setThread hs)
      · split
        · exact canon_issueMarker hs
        · exact .ok (canon_setThread hs)
  · split
    · exact .ok (canon_setThread hs)
    · split
      · exact .ok (canon_setThread hs)
      · split
        · exact canon_issueMarker hs
        · exact .ok (canon_setThread hs)

/-! Requests at their home -/

theorem canon_withDet {s : State} {c : Nat} {d : Option Detector} (hs : Canon s) : Canon (withDet s c d) := by
  unfold withDet
  dsimp only
  split
  · exact hs
  · exact canon_modThread hs

theorem canon_giveUp {s : State} {c : Nat} (hs : Canon s) : Canon (giveUp s c) :=
  canon_abandonReplay hs

theorem canon_readPart {s : State} {c : Nat} {t : Thread} {p : Part} (hs : Canon s) :
    SomeAll (fun r => Canon r.2) (readPart s c t p) := by
  unfold readPart
  split
  · exact .some hs
  · exact .none
  · exact .some (canon_readAny hs)

theorem canon_writePart {s : State} {c : Nat} {t : Thread} {p : Part} {bs : List Byte} (hs : Canon s) :
    SomeAll (fun r => Canon r.2) (writePart s c t p bs) := by
  unfold writePart
  split
  · refine .some ?_
    dsimp only
    rename_i e
    refine .of_some_ok e ?_
    split
    · exact canon_replayWrite hs
    · exact .none
  · exact .none
  · exact .some (canon_performWrite hs)

theorem canon_performLoad {s : State} {c : Nat} {t : Thread} {q : Req} {k : Nat} {p : Part} (hs : Canon s) :
    Canon (performLoad s c t q k p) := by
  unfold performLoad
  dsimp only
  split
  · refine canon_refuseReq ?_
    split
    · exact canon_releaseAt hs
    · exact hs
  · split
    · rename_i e _
      refine canon_finishPart (.of_ok e (canon_touchAt (canon_withDet ?_)))
      split
      · exact canon_releaseAt hs
      · exact hs
    · split
      · rename_i e _ _ _
        refine canon_finishPart (canon_giveUp (.of_ok e (canon_touchAt (canon_withDet ?_))))
        split
        · exact canon_releaseAt hs
        · exact hs
      · refine canon_finishPart ?_
        split
        · rename_i e _ _ _ _ e2 _ _ _
          refine canon_faultReq (.of_some_snd e2 (canon_readPart (.of_ok e (canon_touchAt (canon_withDet ?_)))))
          split
          · exact canon_releaseAt hs
          · exact hs
        · rename_i e _ _ _ _ e2 _ _
          refine .of_some_snd e2 (canon_readPart (.of_ok e (canon_touchAt (canon_withDet ?_))))
          split
          · exact canon_releaseAt hs
          · exact hs

theorem canon_performAtom {s : State} {c : Nat} {t : Thread} {q : Req} {k : Nat} {p : Part} {aop w : Nat} {x y : Word}
    (hs : Canon s) : Canon (performAtom s c t q k p aop w x y) := by
  unfold performAtom
  extract_lets d rel m
  have hm : Canon m := canon_withDet hs
  split
  · exact canon_refuseReq hs
  · rename_i e
    have h1 := Canon.of_ok e (canon_touchAt (canon_ite (canon_releaseAt hm) hm))
    split
    · exact canon_finishPart (canon_giveUp h1)
    · rename_i e
      have h2 := Canon.of_some_snd e (canon_readPart h1)
      split
      · exact canon_finishPart (canon_faultReq h2)
      · extract_lets old
        split
        · exact canon_finishPart (canon_giveUp h2)
        · rename_i e
          have h3 := Canon.of_some_snd e (canon_writePart h2)
          refine canon_finishPart ?_
          split
          · exact canon_faultReq h3
          · exact canon_ite (canon_recordAt h3) h3

theorem canon_performStore {s : State} {c : Nat} {t : Thread} {q : Req} {k : Nat} {p : Part} (hs : Canon s) :
    Canon (performStore s c t q k p) := by
  unfold performStore
  extract_lets plain rel touch s1
  have h1 : Canon s1 := canon_ite (canon_modThread hs) hs
  split
  · exact canon_refuseReq h1
  · rename_i e
    have h2 := Canon.of_ok e (canon_touchAt (canon_ite (canon_releaseAt h1) h1))
    split
    · exact canon_finishPart h2
    · split
      · split
        · exact canon_finishPart (canon_faultReq (canon_logNoTarget h2))
        · exact canon_finishPart (canon_pushEvs h2)
      · split
        · exact canon_finishPart (canon_giveUp h2)
        · rename_i e
          have h3 := Canon.of_some_snd e (canon_writePart h2)
          refine canon_finishPart ?_
          split
          · exact canon_faultReq h3
          · exact canon_ite (canon_recordAt h3) h3

theorem canon_performBinit {s : State} {c : Nat} {t : Thread} {q : Req} {k : Nat} {p : Part} {lo hi : Word}
    (hs : Canon s) :
    Canon (performBinit s c t q k p lo hi) := by
  unfold performBinit
  dsimp only
  split
  · exact canon_finishPart (canon_giveUp hs)
  · refine canon_finishPart ?_
    split
    · refine canon_faultReq ?_
      split
      · rename_i e _
        exact .of_some_snd e (canon_writePart hs)
      · rename_i e _
        exact .update (Canon.of_some_snd e (canon_writePart hs))
    · split
      · rename_i e _
        exact .of_some_snd e (canon_writePart hs)
      · rename_i e _
        exact .update (Canon.of_some_snd e (canon_writePart hs))

theorem canon_replayBarrive {s : State} {c : Nat} {t : Thread} {p : Part} {sectors : Word} (hs : Canon s) :
    SomeAll (fun r => Canon r.2) (replayBarrive s c t p sectors) := by
  unfold replayBarrive
  split
  · split
    · exact .some hs
    · exact SomeAll.map (canon_writePart hs) (fun _ hk => hk)
  · exact .none
  · exact .some (canon_applyBar hs)

theorem canon_performBarrive {s : State} {c : Nat} {t : Thread} {q : Req} {k : Nat} {p : Part} {sectors : Word}
    (hs : Canon s) :
    Canon (performBarrive s c t q k p sectors) := by
  unfold performBarrive
  dsimp only
  split
  · exact canon_finishPart (canon_giveUp (canon_releaseAt hs))
  · rename_i e
    refine canon_finishPart (.of_some_snd e ?_)
    split
    · exact canon_replayBarrive (canon_releaseAt hs)
    · exact .some (canon_applyBar (canon_releaseAt hs))
  · rename_i e
    refine canon_finishPart (canon_faultReq (.of_some_snd e ?_))
    split
    · exact canon_replayBarrive (canon_releaseAt hs)
    · exact .some (canon_applyBar (canon_releaseAt hs))
  · rename_i e
    refine canon_finishPart (canon_faultReq (.of_some_snd e ?_))
    split
    · exact canon_replayBarrive (canon_releaseAt hs)
    · exact .some (canon_applyBar (canon_releaseAt hs))

theorem canon_performEnqt {s : State} {c die entry : Nat} (hs : Canon s) : Canon (performEnqt s c die entry) := by
  unfold performEnqt
  dsimp only
  split
  · exact canon_releaseAt hs
  · exact canon_schedule (canon_takeFree (canon_modDie (canon_releaseAt hs)))

theorem canon_readRangeNow {c : Nat} {r : JobRegs} {n : Nat} {x : Word} {a : Nat} {s : State} (hs : Canon s) :
    Canon (readRangeNow c r n x a s).2 := by
  induction n generalizing x a s with
  | zero => exact hs
  | succ n ih =>
    unfold readRangeNow
    split
    · exact hs
    · extract_lets k
      split
      · rename_i e
        exact .of_eq e (canon_resolveNow hs)
      · rename_i e
        exact .of_eq e (canon_resolveNow hs)
      · rename_i e
        have h1 := Canon.of_eq e (canon_resolveNow hs)
        split
        · exact h1
        · split
          · exact h1
          · split
            rename_i e
            have h2 := Canon.of_eq e (canon_readPlace h1)
            split
            · exact h2
            · split
              · rename_i e
                exact .of_eq e (ih h2)
              · exact ih h2

theorem canon_snapshot {s : State} {c : Nat} {a : Word} {n : Nat} (hs : Canon s) :
    SomeAll Canon (snapshot s c a n) := by
  unfold snapshot
  split
  · exact .some hs
  · extract_lets used base size
    split
    rename_i hr
    have h1 := canon_releaseAt (c := c) (Canon.of_eq hr (canon_readRangeNow hs))
    split
    · exact .none
    · exact .some (.update h1)
    · split
      · exact .none
      · split
        · exact .some (.update h1)
        · exact .some (.update (canon_performWrite h1))

theorem canon_sendFatom {s : State} {c : Nat} {t : Thread} {q : Req} {p : Part} (hs : Canon s) :
    Canon (sendFatom s c t q p) := by
  unfold sendFatom
  refine canon_modPart (canon_queuePacket ?_)
  split
  · exact canon_releaseAt hs
  · exact hs

theorem canon_execRequestDataArrival {core req part : Nat} {s : State} (hs : Canon s) :
    CanonOut (execRequestDataArrival core req part s) := by
  unfold execRequestDataArrival
  split
  · split
    · exact .next hs
    · split
      · exact .next (canon_settleReq (canon_settleRow (canon_modPart hs)))
      · split
        · exact .next hs
        · split
          · exact .next (canon_retryPart hs)
          · split
            · exact .next (canon_served hs (fun _ hk => canon_performLoad hk))
            · exact .next (canon_served hs (fun _ hk => canon_performLoad hk))
            · exact .next (canon_served hs (fun _ hk => canon_performAtom hk))
            · exact .next (canon_sendFatom hs)
            · exact .next (canon_finishPart (canon_performEnqt hs))
            · exact .next (canon_finishPart (canon_performArrival hs))
            · exact .next (canon_finishPart (canon_performLeave hs))
            · refine .next ?_
              split
              · rename_i e
                exact canon_finishPart (.of_some e (canon_snapshot hs))
              · exact canon_retryPart hs
            · exact .next (canon_finishPart (canon_modThread hs))
            · exact .next hs
  · exact .next hs

theorem canon_execMemoryWritePerformed {core req part : Nat} {s : State} (hs : Canon s) :
    CanonOut (execMemoryWritePerformed core req part s) := by
  unfold execMemoryWritePerformed
  split
  · split
    · exact .next hs
    · split
      · exact .next (canon_settleReq hs)
      · split
        · exact .next (canon_retryPart hs)
        · split
          · exact .next (canon_served hs (fun _ hk => canon_performStore hk))
          · exact .next (canon_served hs (fun _ hk => canon_performStore hk))
          · exact .next (canon_served hs (fun _ hk => canon_performStore hk))
          · exact .next (canon_served hs (fun _ hk => canon_performAtom hk))
          · exact .next (canon_served hs (fun _ hk => canon_performBinit hk))
          · exact .next (canon_served hs (fun _ hk => canon_performBarrive hk))
          · exact .next hs
  · exact .next hs

/-! Tasks and the per-die schedulers -/

theorem canon_modEntry {s : State} {d id : Nat} {f : Entry → Entry} (hs : Canon s) : Canon (modEntry s d id f) :=
  canon_modDie hs

theorem canon_dropEntry {s : State} {d id : Nat} (hs : Canon s) : Canon (dropEntry s d id) :=
  canon_modDie hs

theorem canon_newEntry {s : State} {d state : Nat} {ws : List Word} {resume : Option Nat} {job prio core : Nat}
    {near : Option Nat} {badr : Nat} {replay : Option (Nat × Nat)} (hs : Canon s) :
    Canon (newEntry s d state ws resume job prio core near badr replay).2 := by
  unfold newEntry
  dsimp only
  exact canon_modDie (canon_takeStamp hs)

theorem canon_barCond {s : State} {d : Nat} {e : Entry} (hs : Canon s) : Canon (barCond s d e).2 := by
  unfold barCond
  split
  · dsimp only
    rename_i e
    exact .of_eq e (canon_readBar hs)
  · dsimp only
    rename_i e
    exact .of_eq e (canon_readBar hs)

theorem canon_makeReady {s : State} {d id : Nat} (hs : Canon s) : Canon (makeReady s d id) :=
  canon_schedule (canon_modEntry hs)

theorem canon_storeEntry {s : State} {d : Nat} {e : Entry} (hs : Canon s) : Canon (storeEntry s d e) := by
  unfold storeEntry
  split
  · exact canon_makeReady hs
  · exact canon_modEntry hs

theorem canon_execTaskRecordArrival {die entry : Nat} {s : State} (hs : Canon s) :
    CanonOut (execTaskRecordArrival die entry s) := by
  unfold execTaskRecordArrival
  dsimp only
  split
  · exact .next hs
  · split
    · exact .next (canon_storeUnits (canon_modEntry hs))
    · exact .next (canon_storeEntry hs)

theorem canon_reloaded {s : State} {die : Nat} {e : Entry} (hs : Canon s) : Canon (reloaded s die e).2 := by
  refine .snd_of fun _ _ e => ?_
  generalize h : reloaded = F at e
  delta reloaded at h
  subst h
  beta_reduce at e
  split at e
  rename_i hg
  have h1 := Canon.of_eq hg (canon_readPa hs)
  split at e
  · obtain ⟨-, rfl⟩ := Prod.mk.inj e
    exact h1
  · obtain ⟨-, rfl⟩ := Prod.mk.inj e
    exact h1

theorem canon_execSpillReload {die : Nat} {s : State} (hs : Canon s) : CanonOut (execSpillReload die s) := by
  unfold execSpillReload
  split
  · exact .next hs
  · split
    · exact .next hs
    · split
      · exact .next hs
      · split
        rename_i e
        exact .next (canon_storeEntry (canon_modEntry (.of_eq e (canon_reloaded hs))))

theorem canon_execTaskConditionMet {die entry : Nat} {s : State} (hs : Canon s) :
    CanonOut (execTaskConditionMet die entry s) := by
  unfold execTaskConditionMet
  split
  · exact .next hs
  · refine .next ?_
    split
    · refine canon_makeReady ?_
      split
      · exact canon_barCond hs
      · exact hs
    · exact hs

theorem canon_execPriorityAging {die entry : Nat} {s : State} (hs : Canon s) :
    CanonOut (execPriorityAging die entry s) := by
  unfold execPriorityAging
  split
  · exact .next hs
  · refine .next ?_
    split
    · exact canon_schedule (canon_modEntry hs)
    · exact hs

theorem canon_discardRecord {s : State} {d : Nat} {e : Entry} (hs : Canon s) : Canon (discardRecord s d e) := by
  unfold discardRecord
  dsimp only
  split
  · exact .update (canon_dropEntry hs)
  · exact canon_fqFault (canon_dropEntry hs)

theorem canon_beginRestore {s : State} {c f : Nat} (hs : Canon s) : Canon (beginRestore s c f) := by
  unfold beginRestore
  dsimp only
  split
  · exact hs
  · exact canon_schedule (canon_setThread (.update hs))

theorem canon_beginStart {s : State} {d : Nat} {e : Entry} {c : Nat} (hs : Canon s) : Canon (beginStart s d e c) := by
  unfold beginStart
  dsimp only
  split
  · exact canon_schedule (canon_takeFree (canon_setThread (canon_foldl (fun _ _ hk => canon_modEngine hk) (.update
      (canon_modDie (canon_modEntry hs))))))
  · exact hs

theorem canon_noteRestore {s : State} {f : Nat} (hs : Canon s) : Canon (noteRestore s f) := by
  unfold noteRestore
  dsimp only
  split
  · exact .update hs
  · exact hs

theorem canon_execSchedulerPick {die : Nat} {s : State} (hs : Canon s) : CanonOut (execSchedulerPick die s) := by
  unfold execSchedulerPick
  split
  · exact .next hs
  · split
    · exact .next hs
    · split
      · exact .next (canon_beginRestore (canon_modEntry hs))
      · refine .next ?_
        split
        · exact canon_beginStart hs
        · exact canon_discardRecord hs

theorem canon_auditDraw {s : State} {skip : Bool} (hs : Canon s) : Canon (auditDraw s skip).2 := by
  unfold auditDraw
  dsimp only
  exact .update hs

theorem canon_addSample {s : State} {c : Nat} {t : Thread} (hs : Canon s) : Canon (addSample s c t) :=
  .update hs

theorem canon_startTask {s : State} {c : Nat} {t : Thread} {e : Entry} (hs : Canon s) :
    Canon (startTask s c t e) := by
  have h1 : ∀ b, Canon (auditDraw (schedule s 342 (.threadStart c)) b).2 := fun _ => canon_auditDraw (canon_schedule
    hs)
  unfold startTask
  dsimp only
  split
  · refine canon_startExpansion (canon_setThread ⟨?_⟩)
    dsimp only
    exact (h1 _).wf
  · refine canon_startExpansion (canon_setThread ?_)
    split
    · exact canon_addSample (h1 _)
    · exact h1 _

theorem canon_execThreadStart {core : Nat} {s : State} (hs : Canon s) : CanonOut (execThreadStart core s) := by
  unfold execThreadStart
  dsimp only
  split
  · refine .next ?_
    split
    · exact canon_startTask hs
    · exact canon_dropEntry hs
  · exact .next (canon_dropEntry hs)
  · split
    · exact .next (canon_startExpansion (canon_setThread (canon_auditDraw hs)))
    · exact .next hs
  · exact .next hs

theorem canon_freeReservations {s : State} {t : Thread} (hs : Canon s) : Canon (freeReservations s t) :=
  canon_foldl (fun _ _ hk => canon_modEngine hk) hs

theorem canon_leaveAll {s : State} {t : Thread} (hs : Canon s) : Canon (leaveAll s t).1 :=
  foldl_keeps (fun r : State × Nat => Canon r.1) _ (fun _ _ hk => canon_leaveGroup hk) _ _ hs

theorem canon_retire {s : State} {t : Thread} (hs : Canon s) : Canon (retire s t) :=
  canon_freeReservations (canon_modDie (.update (canon_leaveAll hs)))

theorem canon_sampleEnded {s : State} {t : Thread} (hs : Canon s) : Canon (sampleEnded s t) := by
  unfold sampleEnded
  dsimp only
  split
  · exact hs
  · exact .update hs

theorem canon_dropTrackers {s : State} {c : Nat} {t : Thread} (hs : Canon s) : Canon (dropTrackers s c t) := by
  unfold dropTrackers
  refine canon_foldl ?_ hs
  intro _ _ hk
  split
  · exact canon_dropTracker hk
  · exact hk

theorem canon_readBlock {s : State} {t : Thread} {a : Word} {n : Nat} (hs : Canon s) :
    OkAll (fun r => Canon r.2) (readBlock s t a n) := by
  unfold readBlock
  refine OkAll.bindAny fun _ => ?_
  refine OkAll.bindAny fun _ => ?_
  refine OkAll.bindAny fun _ => ?_
  dsimp only
  split
  · exact .error
  · split
    · exact .error
    · split
      · exact .error
      · refine .ok ?_
        dsimp only
        rename_i e _ _
        refine canon_readPa (.of_ok e ?_)
        split
        · exact .ok hs
        · exact canon_threadTouch hs

theorem canon_execEnqt {g : Guard} {ra : BitVec 5} {s : State} (hs : Canon s) : CanonOut (execEnqt g ra s) := by
  unfold execEnqt
  refine canon_runSlot hs fun _ => ?_
  refine OkAll.bind (canon_readBlock hs) fun _ hk => ?_
  dsimp only
  split
  · exact .error
  · refine OkAll.bindAny fun _ => ?_
    refine OkAll.bindAny fun _ => ?_
    split
    · split
      · exact .error
      · split
        · exact .error
        · exact canon_issueMarker (canon_newEntry hk)
    · split
      · exact .error
      · split
        · exact .error
        · exact canon_issueMarker (canon_newEntry hk)

/-! The save frame -/

theorem canon_framePart {s : State} {c f off n : Nat} (hs : Canon s) : Canon (framePart s c f off n).2 := by
  have hr : ∀ {w pa n ga}, Canon (readPa s w pa n ga).2 := canon_readPa hs
  obtain ⟨R, hR⟩ : ∃ R, R = @readPa := ⟨_, rfl⟩
  obtain ⟨F, hF⟩ : ∃ F, F = framePart := ⟨_, rfl⟩
  rw [← hF]
  delta framePart at hF
  rw [← hR] at hr hF
  rw [hF]
  exact hr

theorem canon_loadRows {n : Nat} {s : State} {a b d : Nat} {x : Map Row} (hs : Canon s) :
    Canon (loadRows n s a b d x).2 := by
  induction n generalizing s a b d x with
  | zero => exact hs
  | succ n ih =>
    unfold loadRows
    exact ih (canon_readPa hs)

theorem canon_loadFrame {s : State} {c : Nat} {t : Thread} (hs : Canon s) : Canon (loadFrame s c t).2 := by
  have hp : ∀ {s c f off n}, Canon s → Canon (framePart s c f off n).2 := canon_framePart
  have hr : ∀ {n s a b d x}, Canon s → Canon (loadRows n s a b d x).2 := canon_loadRows
  obtain ⟨P, hP⟩ : ∃ P, P = framePart := ⟨_, rfl⟩
  obtain ⟨R, hR⟩ : ∃ R, R = loadRows := ⟨_, rfl⟩
  obtain ⟨F, hF⟩ : ∃ F, F = loadFrame := ⟨_, rfl⟩
  rw [← hF]
  delta loadFrame at hF
  rw [← hP] at hp hF
  rw [← hR] at hr hF
  rw [hF]
  exact hp (hp (hp (hp (hp (hr (hr (hp (hp hs))))))))

/-! Saves, trap entry, the return from a trap, restores and ends -/

theorem canon_execSaveComplete {core : Nat} {s : State} (hs : Canon s) : CanonOut (execSaveComplete core s) := by
  unfold execSaveComplete
  split
  · exact .next hs
  · split
    · extract_lets d t1 s1
      have h1 : Canon s1 := canon_dropTrackers (canon_saveFrame hs)
      split
      rename_i e
      have h2 := canon_quietCore (c := core) (Canon.of_eq e (canon_newEntry h1))
      exact .next (canon_ite (canon_pushEvs (.update (canon_modCore h2)))
        (canon_makeReady (canon_noteRestore (.update (canon_modCore h2)))))
    · exact .next hs

theorem canon_writeTrapRecord {s : State} {core : Nat} {t : Thread} {f : FaultRec} (hs : Canon s) :
    Canon (writeTrapRecord s core t f) :=
  canon_fqFault (canon_storeUnits hs)

theorem canon_execTrapEntry {core : Nat} {s : State} (hs : Canon s) : CanonOut (execTrapEntry core s) := by
  unfold execTrapEntry
  split
  · exact .next hs
  · extract_lets t
    split
    · exact .next hs
    · extract_lets s1
      have h1 : Canon s1 := canon_writeTrapRecord hs
      split
      · exact .next (canon_schedule (.update (canon_setThread (.update h1))))
      · exact .next (canon_modCore (.update h1))

theorem canon_execTret {g : Guard} {s : State} (hs : Canon s) : CanonOut (execTret g s) := by
  unfold execTret
  refine canon_runAlways hs fun _ => ?_
  dsimp only
  split
  · exact .error
  · split
    · exact .ok hs
    · split
      · exact .error
      · split
        · exact .error
        · exact .ok (canon_setThread hs)

theorem canon_honourRecord {s : State} {c : Nat} {t : Thread} (hs : Canon s) : Canon (honourRecord s c t).2 := by
  refine .snd_of fun _ _ e => ?_
  unfold honourRecord at e
  split at e
  · obtain ⟨-, rfl⟩ := Prod.mk.inj e
    exact hs
  · split at e
    · rename_i hg
      obtain ⟨-, rfl⟩ := Prod.mk.inj e
      exact .of_eq hg (canon_framePart hs)
    · rename_i hg
      obtain ⟨-, rfl⟩ := Prod.mk.inj e
      exact .of_eq hg (canon_framePart hs)

theorem canon_rearm {s : State} {c : Nat} {t : Thread} (hs : Canon s) : Canon (rearm s c t) := by
  unfold rearm
  refine canon_foldl ?_ hs
  intro _ _ hk
  dsimp only
  split
  · exact hk
  · split
    · exact canon_modThread (canon_readPa hk)
    · exact canon_armTracker (canon_readPa hk)

theorem canon_execRestoreComplete {core : Nat} {s : State} (hs : Canon s) :
    CanonOut (execRestoreComplete core s) := by
  have hl : ∀ {s c t}, Canon s → Canon (loadFrame s c t).2 := canon_loadFrame
  have hr : ∀ {s c t}, Canon s → Canon (honourRecord s c t).2 := canon_honourRecord
  obtain ⟨L, hL⟩ : ∃ L, L = loadFrame := ⟨_, rfl⟩
  obtain ⟨R, hR⟩ : ∃ R, R = honourRecord := ⟨_, rfl⟩
  unfold execRestoreComplete
  rw [← hL] at hl ⊢
  rw [← hR] at hr ⊢
  split
  · exact .next hs
  · split
    · exact .next (canon_startExpansion (canon_relaunch (canon_rearm (canon_setThread
        (canon_modCore (canon_modDie (hr (hl hs))))))))
    · exact .next hs

theorem canon_handlerEnded {s : State} {core : Nat} {h : Thread} (hs : Canon s) : Canon (handlerEnded s core h) := by
  unfold handlerEnded
  split
  · exact hs
  · extract_lets s1
    have h1 : Canon s1 := canon_modCore (canon_quietCore hs)
    split
    · split
      · split
        · exact canon_makeReady (canon_noteRestore (.update h1))
        · exact .update h1
      · exact canon_beginRestore (.update h1)
    · exact .update (canon_fqFault h1)

theorem canon_logPending {s : State} {c : Nat} {t : Thread} (hs : Canon s) : Canon (logPending s c t) := by
  unfold logPending
  dsimp only
  split
  · exact canon_fqFault (canon_foldl (fun _ _ hk => canon_fqFault hk) (canon_foldl (fun _ _ hk => canon_fqFault hk)
      hs))
  · exact canon_foldl (fun _ _ hk => canon_fqFault hk) (canon_foldl (fun _ _ hk => canon_fqFault hk) hs)

theorem canon_execEndComplete {core : Nat} {s : State} (hs : Canon s) : CanonOut (execEndComplete core s) := by
  unfold execEndComplete
  split
  · exact .next hs
  · split
    · exact .next hs
    · split
      · exact .next (canon_attend hs)
      · split
        · exact .next hs
        · extract_lets s1 s2
          have h1 : Canon s1 := canon_dropTrackers (canon_logPending (canon_sampleEnded hs))
          have h2 : Canon s2 := canon_modCore (canon_quietCore (canon_retire h1))
          split
          · exact .next (canon_handlerEnded h1)
          · split
            · exact .next h2
            · exact .next (.update (canon_ite (canon_dropReplay h2) h2))

theorem canon_execSchedPreempt {die core : Nat} {s : State} (hs : Canon s) :
    CanonOut (execSchedPreempt die core s) := by
  unfold execSchedPreempt
  refine .next ?_
  split
  · exact canon_modThread hs
  · exact hs

theorem canon_execSchedKill {die core : Nat} {s : State} (hs : Canon s) : CanonOut (execSchedKill die core s) := by
  unfold execSchedKill
  refine .next ?_
  split
  · exact canon_modThread hs
  · exact hs

theorem canon_execFqResume {frame : Nat} {s : State} (hs : Canon s) : CanonOut (execFqResume frame s) := by
  unfold execFqResume
  split
  · exact .next hs
  · split
    · exact .next (canon_makeReady (.update hs))
    · exact .next hs

theorem canon_execFqKill {frame : Nat} {s : State} (hs : Canon s) : CanonOut (execFqKill frame s) := by
  unfold execFqKill
  dsimp only
  split
  · exact .next hs
  · split
    · exact .next hs
    · refine .next ?_
      split
      · exact canon_dropEntry (canon_retire (canon_sampleEnded (.update hs)))
      · exact canon_retire (canon_sampleEnded (.update hs))

theorem canon_execFqRestart {ctx : Nat} {s : State} (hs : Canon s) : CanonOut (execFqRestart ctx s) := by
  unfold execFqRestart
  dsimp only
  split
  · exact .next hs
  · split
    · exact .next (canon_restartProbe hs)
    · exact .next (canon_again (canon_modEngine hs))

theorem canon_countChain {c : Nat} {i : Issuer} {n : Nat} {x : Word} {s : State} (hs : Canon s) :
    Canon (countChain c i n x s).2 := by
  induction n generalizing x s with
  | zero => exact hs
  | succ n ih =>
    unfold countChain
    dsimp only
    split
    · dsimp only
      rename_i e
      exact .of_eq e (canon_readRangeNow hs)
    · dsimp only
      rename_i e
      exact .of_eq e (canon_readRangeNow hs)
    · split
      · dsimp only
        rename_i e _
        exact .of_eq e (canon_readRangeNow hs)
      · split
        · dsimp only
          rename_i e _ _ _ _ e2
          exact .of_eq e2 (ih (.of_eq e (canon_readRangeNow hs)))
        · dsimp only
          rename_i e _ _ _ e2
          exact .of_eq e2 (ih (.of_eq e (canon_readRangeNow hs)))

theorem canon_countChains {c : Nat} {xs : List (Issuer × Word)} {n : Nat} {s : State} (hs : Canon s) :
    Canon (countChains c xs n s).2 := by
  induction xs generalizing n s with
  | nil => exact hs
  | cons x xs ih =>
    obtain ⟨i, head⟩ := x
    rw [countChains]
    split
    · rename_i e
      exact ih (.of_eq e (canon_countChain hs))
    · rename_i e
      exact .of_eq e (canon_countChain hs)

theorem canon_abandonCtx {s : State} {ctx : Nat} (hs : Canon s) : Canon (abandonCtx s ctx) := by
  unfold abandonCtx
  dsimp only
  split
  · exact hs
  · split
    · exact .update hs
    · split
      · exact canon_modProbe hs
      · split
        · exact canon_modEngine hs
        · split
          · rename_i e
            exact canon_modEngine (.of_eq e (canon_countChains hs))
          · rename_i e
            exact canon_modEngine (.of_eq e (canon_countChains hs))

theorem canon_execFqAbandon {ctx : Nat} {s : State} (hs : Canon s) : CanonOut (execFqAbandon ctx s) :=
  .next (canon_abandonCtx hs)

/-! The Eddy ring -/

theorem canon_setEslot {s : State} {k : Nat} {x : ESlot} (hs : Canon s) : Canon (setEslot s k x) :=
  .update hs

theorem canon_checkSlot {s : State} {k stage : Nat} (hs : Canon s) : Canon (checkSlot s k stage) := by
  unfold checkSlot
  split
  · exact hs
  · split
    · exact canon_setEslot hs
    · constructor
      dsimp only
      exact (canon_setEslot hs).wf
    · refine canon_logEvent ⟨?_⟩
      dsimp only
      exact (canon_setEslot hs).wf

theorem canon_originPass {s : State} {k : Nat} (hs : Canon s) : Canon (originPass s k) := by
  unfold originPass
  extract_lets x s1
  have h1 : Canon s1 := by
    dsimp only [s1]
    split
    · split
      · exact canon_setEslot hs
      · exact hs
    · split
      · exact canon_pushEvs (canon_setEslot hs)
      · exact hs
    · exact hs
  exact ⟨h1.wf⟩

theorem canon_execEddySlotPass {stage : Nat} {s : State} (hs : Canon s) : CanonOut (execEddySlotPass stage s) := by
  unfold execEddySlotPass
  refine .next ?_
  split
  · refine canon_originPass ?_
    split
    · split
      · exact canon_pushEvs (canon_checkSlot hs)
      · exact canon_checkSlot hs
    · split
      · exact canon_pushEvs hs
      · exact hs
  · split
    · split
      · exact canon_pushEvs (canon_checkSlot hs)
      · exact canon_checkSlot hs
    · split
      · exact canon_pushEvs hs
      · exact hs

theorem canon_execTeardownComplete {s : State} (hs : Canon s) : CanonOut (execTeardownComplete s) :=
  .next (.update hs)

theorem canon_execReclaimComplete {s : State} (hs : Canon s) : CanonOut (execReclaimComplete s) :=
  .next (.update hs)

theorem canon_eddyRefuse {s : State} {err : Nat} (hs : Canon s) : Canon (eddyRefuse s err) :=
  .update hs

theorem canon_execTeardown {job : BitVec 16} {s : State} (hs : Canon s) : CanonOut (execTeardown job s) := by
  unfold execTeardown
  dsimp only
  split
  · exact .next (canon_eddyRefuse hs)
  · split
    · exact .next (canon_eddyRefuse hs)
    · exact .next (canon_schedule (.update hs))

theorem canon_execReclaim {slot : BitVec 16} {s : State} (hs : Canon s) : CanonOut (execReclaim slot s) := by
  unfold execReclaim
  dsimp only
  split
  · exact .next (canon_eddyRefuse hs)
  · split
    · exact .next (canon_eddyRefuse hs)
    · exact .next (.update hs)

theorem canon_tapEffect {s : State} {o : TapOp} {k : Nat} (hs : Canon s) : Canon (tapEffect s o k).2 := by
  unfold tapEffect
  dsimp only
  split
  · split
    · dsimp only
      exact canon_setEslot hs
    · exact hs
  · split
    · exact hs
    · split
      · exact hs
      · split
        · dsimp only
          exact canon_setEslot hs
        · exact hs
        · dsimp only
          exact canon_setEslot hs

theorem canon_popTap {s : State} {c : Nat} (hs : Canon s) : Canon (popTap s c) :=
  canon_modThread (canon_modCore hs)

theorem canon_tapOrder {s : State} {c ord : Nat} (hs : Canon s) : Canon (tapOrder s c ord) := by
  unfold tapOrder
  dsimp only
  split
  · refine canon_modThread ?_
    split
    · exact canon_releaseAt hs
    · exact hs
  · split
    · exact canon_releaseAt hs
    · exact hs

theorem canon_tapDone {s : State} {c req : Nat} {f : Option FaultRec} (hs : Canon s) : Canon (tapDone s c req f) :=
  canon_settleReq (canon_modReq hs)

theorem canon_tapDeliver {s : State} {c : Nat} {o : TapOp} {r : TapResult} (hs : Canon s) :
    Canon (tapDeliver s c o r) := by
  unfold tapDeliver
  split
  · exact hs
  · exact canon_tapDone hs
  · exact canon_deliverReq hs
  · split
    · exact canon_modPart hs
    · exact canon_tapDone hs
  · exact canon_deliverReq hs

theorem canon_tapWaits {s : State} {c : Nat} (hs : Canon s) : Canon (tapWaits s c) :=
  canon_modCore hs

theorem canon_execTapOperationPerformed {core : Nat} {s : State} (hs : Canon s) :
    CanonOut (execTapOperationPerformed core s) := by
  unfold execTapOperationPerformed
  dsimp only
  split
  · split
    · exact .next hs
    · split
      · exact .next (canon_tapWaits hs)
      · split
        · exact .next (canon_tapDeliver (canon_tapOrder (canon_popTap (canon_tapEffect hs))))
        · refine .next ?_
          split
          · exact canon_pushEvs hs
          · exact hs
  · exact .next hs

theorem canon_execEboardAnyTimeout {core : Nat} {s : State} (hs : Canon s) :
    CanonOut (execEboardAnyTimeout core s) := by
  unfold execEboardAnyTimeout
  split
  · refine .next ?_
    split
    · exact canon_deliverReq (canon_tapOrder (canon_popTap hs))
    · exact hs
  · exact .next hs

theorem canon_queueTap {s : State} {t : Thread} {o : TapOp} {k : ReqKind} {cls : Nat} {dest : Dest} {l : Landing}
    {p : Part} (hs : Canon s) :
    OkAll Canon (queueTap s t o k cls dest l p) := by
  unfold queueTap
  split
  · exact .error
  · exact OkAll.map (canon_issueReq hs) (fun _ hk => canon_modCore hk)

theorem canon_execEcap {g : Guard} {rd rw ra : BitVec 5} {f cop : BitVec 3} {ord : BitVec 2} {atr : Bool}
    {off : BitVec 10} {s : State} (hs : Canon s) :
    CanonOut (execEcap g rd rw ra f cop ord atr off s) :=
  canon_runSlot hs (fun _ => OkAll.bindAny (fun _ => OkAll.bindAny (fun _ => canon_queueTap hs)))

theorem canon_execErow {g : Guard} {tl : BitVec 4} {e : BitVec 6} {rw : BitVec 5} {ord : BitVec 2} {atr : Bool}
    {off : BitVec 10} {s : State} (hs : Canon s) :
    CanonOut (execErow g tl e rw ord atr off s) :=
  canon_runSlot hs (fun _ => OkAll.bindAny (fun _ => OkAll.bindAny (fun _ => canon_queueTap hs)))

theorem canon_execEboard {g : Guard} {rd rw : BitVec 5} {any : Bool} {tl : BitVec 4} {e : BitVec 6} {ord : BitVec 2}
    {atr : Bool} {off : BitVec 10} {s : State} (hs : Canon s) :
    CanonOut (execEboard g rd rw any tl e ord atr off s) :=
  canon_runSlot hs (fun _ => OkAll.bindAny (fun _ => OkAll.bindAny (fun _ => canon_queueTap hs)))

theorem canon_execEalight {g : Guard} {rw : BitVec 5} {dep : Bool} {ra : BitVec 5} {ord : BitVec 2} {s : State}
    (hs : Canon s) :
    CanonOut (execEalight g rw dep ra ord s) := by
  unfold execEalight
  refine canon_runSlot hs fun _ => ?_
  refine OkAll.bindAny fun _ => ?_
  dsimp only
  split
  · exact canon_queueTap hs
  · refine OkAll.bindAny fun _ => ?_
    refine OkAll.bindAny fun _ => ?_
    split
    · exact .error
    · exact canon_queueTap hs

theorem canon_execEwhen {g : Guard} {rd rw : BitVec 5} {s : State} (hs : Canon s) : CanonOut (execEwhen g rd rw s) :=
  canon_runSlot hs (fun _ => OkAll.bindAny (fun _ => canon_putScalar hs))

/-! The Tide ring and the weir -/

theorem canon_modWeir {s : State} {f : Weir → Weir} (hs : Canon s) : Canon (modWeir s f) :=
  .update hs

theorem canon_weirStop {s : State} {cause : Nat} (hs : Canon s) : Canon (weirStop s cause) :=
  canon_modWeir hs

theorem canon_execLapBegin {s : State} (hs : Canon s) : CanonOut (execLapBegin s) := by
  unfold execLapBegin
  dsimp only
  split
  · exact .next hs
  · split
    · exact .next (canon_weirStop hs)
    · refine .next ?_
      split
      · split
        · exact canon_pushEvs (canon_modWeir hs)
        · exact canon_modWeir hs
      · split
        · exact canon_pushEvs (canon_modWeir hs)
        · exact canon_modWeir hs

theorem canon_execTideCtlWrite {val : Word} {s : State} (hs : Canon s) : CanonOut (execTideCtlWrite val s) := by
  unfold execTideCtlWrite
  dsimp only
  split
  · exact .next (canon_modWeir (canon_modWeir hs))
  · split
    · exact .next (canon_modWeir hs)
    · split
      · exact .next (canon_weirStop (canon_modWeir hs))
      · exact .next (canon_schedule (canon_modWeir (canon_modWeir hs)))

theorem canon_weirEntry {s : State} {pa : Nat} (hs : Canon s) : Canon (weirEntry s pa).2 := by
  unfold weirEntry
  dsimp only
  split
  · dsimp only
    exact canon_readAny hs
  · dsimp only
    exact canon_readAny hs

theorem canon_weirPrepare {n : Nat} {s : State} (hs : Canon s) : Canon (weirPrepare n s) := by
  induction n generalizing s with
  | zero => exact hs
  | succ n ih =>
    unfold weirPrepare
    extract_lets w
    split
    · exact hs
    · split
      · split
        · rename_i e
          exact canon_weirStop (.of_eq e (canon_weirEntry hs))
        · rename_i e
          have h1 := Canon.of_eq e (canon_weirEntry hs)
          split
          · exact canon_weirStop h1
          · exact ih (canon_modWeir h1)
      · split
        · split
          · rename_i e
            exact canon_weirStop (.of_eq e (canon_weirEntry hs))
          · rename_i e
            have h1 := Canon.of_eq e (canon_weirEntry hs)
            split
            · exact canon_weirStop h1
            · exact ih (canon_modWeir h1)
        · exact canon_ite (canon_weirStop hs)
            (canon_ite (canon_pushEvs (canon_modWeir hs)) (ih (canon_modWeir hs)))
      · exact hs

theorem canon_tileRows {n : Nat} {s : State} {a : Nat} (hs : Canon s) : Canon (tileRows n s a).2.2 := by
  induction n generalizing s a with
  | zero => exact hs
  | succ n ih =>
    unfold tileRows
    exact ih (canon_readAny hs)

theorem canon_weirSend {s : State} (hs : Canon s) : Canon (weirSend s) := by
  have ht : ∀ {n a}, Canon (tileRows n s a).2.2 := canon_tileRows hs
  obtain ⟨R, hR⟩ : ∃ R, R = tileRows := ⟨_, rfl⟩
  unfold weirSend
  rw [← hR] at ht ⊢
  split
  · split
    rename_i e
    exact canon_modWeir (.of_eq_third e ht)
  · exact hs

theorem canon_execWeirTileSend {s : State} (hs : Canon s) : CanonOut (execWeirTileSend s) := by
  unfold execWeirTileSend
  dsimp only
  split
  · exact .next hs
  · refine .next ?_
    split
    · exact canon_weirSend (canon_weirPrepare hs)
    · exact canon_weirPrepare hs

theorem canon_modTide {s : State} {c : Nat} {f : TideSub → TideSub} (hs : Canon s) : Canon (modTide s c f) :=
  canon_modThread hs

theorem canon_execTideTilePass {core tile : Nat} {s : State} (hs : Canon s) :
    CanonOut (execTideTilePass core tile s) := by
  unfold execTideTilePass
  dsimp only
  split
  · exact .next hs
  · split <;> exact .next (canon_modTide hs)

theorem canon_execTideTileLand {core : Nat} {s : State} (hs : Canon s) : CanonOut (execTideTileLand core s) := by
  unfold execTideTileLand
  split
  · exact .next hs
  · refine .next (canon_foldl ?_ hs)
    intro _ _ hk
    split
    · exact canon_modTide hk
    · exact hk

theorem canon_execTideRegistration {core : Nat} {s : State} (hs : Canon s) : CanonOut (execTideRegistration core s) :=
  .next (canon_modTide hs)

theorem canon_execBoardingTimeout {core : Nat} {s : State} (hs : Canon s) : CanonOut (execBoardingTimeout core s) :=
  .next (canon_modTide hs)

theorem canon_tideSlot {g : Guard} {s : State} {f : Thread → Slot} (hs : Canon s) (hf : ∀ t, OkAll Canon (f t)) :
    CanonOut (tideSlot g s f) := by
  unfold tideSlot
  refine canon_runSlot hs fun _ => ?_
  split
  · exact .error
  · exact hf _

theorem canon_takeStatus {s : State} {t : Thread} {rd : BitVec 5} (hs : Canon s) : OkAll Canon (takeStatus s t rd) :=
  canon_putScalar hs

theorem canon_execTboard {g : Guard} {rl rf re rs : BitVec 5} {d : BitVec 2} {s : State} (hs : Canon s) :
    CanonOut (execTboard g rl rf re rs d s) := by
  unfold execTboard
  refine canon_tideSlot hs fun _ => ?_
  dsimp only
  split
  · exact .error
  · split
    · exact .error
    · exact .ok (canon_setThread hs)

theorem canon_execTwait {g : Guard} {rd : BitVec 5} {n : BitVec 4} {s : State} (hs : Canon s) :
    CanonOut (execTwait g rd n s) := by
  unfold execTwait
  refine canon_tideSlot hs fun _ => ?_
  split
  · exact canon_takeStatus hs
  · exact .error

theorem canon_execTleave {g : Guard} {s : State} (hs : Canon s) : CanonOut (execTleave g s) := by
  unfold execTleave
  refine canon_tideSlot hs fun _ => ?_
  dsimp only
  split
  · split
    · exact .error
    · refine .ok (canon_setThread ?_)
      split
      · split
        · exact canon_storeUnits (.update hs)
        · exact hs
      · exact hs
  · split
    · exact .error
    · refine .ok (canon_setThread ?_)
      split
      · split
        · exact canon_storeUnits (.update hs)
        · exact hs
      · exact hs

theorem canon_execTstat {g : Guard} {rd : BitVec 5} {s : State} (hs : Canon s) : CanonOut (execTstat g rd s) :=
  canon_tideSlot hs (fun _ => canon_takeStatus hs)

theorem canon_execTspeed {g : Guard} {spd : BitVec 3} {s : State} (hs : Canon s) : CanonOut (execTspeed g spd s) := by
  unfold execTspeed
  refine canon_runAlways hs fun _ => ?_
  split
  · exact .error
  · split
    · exact .ok hs
    · exact .ok (canon_modWeir hs)

/-! The control cores' task and fence extension -/

theorem canon_modHart {s : State} {h : Nat} {f : Hart → Hart} (hs : Canon s) : Canon (modHart s h f) := by
  unfold modHart
  split
  · exact .update hs
  · exact hs

theorem canon_jobPlace {s : State} {r : JobRegs} {va : Word} (hs : Canon s) : Canon (jobPlace s r va).2 := by
  have h1 : Canon (walkTables { s with walkCache := [] } 0 r va).2 := canon_walkTables ⟨hs.wf⟩
  unfold jobPlace
  dsimp only
  split
  · exact hs
  · split
    · exact hs
    · split <;> exact ⟨h1.wf⟩

theorem canon_qenqNear {s : State} {j : Nat} {ws : List Word} (hs : Canon s) : Canon (qenqNear s j ws).2 := by
  unfold qenqNear
  split
  · split
    · dsimp only
      rename_i e
      exact .of_eq e (canon_jobPlace hs)
    · dsimp only
      rename_i e
      exact .of_eq e (canon_jobPlace hs)
  · exact hs

theorem canon_qenqStatus {s : State} {j a : Nat} (hs : Canon s) :
    SomeAll (fun r : Nat × State => Canon r.2) (qenqStatus s j a) := by
  unfold qenqStatus
  split
  · exact .some hs
  · split
    · exact .some hs
    · split
      rename_i e
      have h1 := Canon.of_eq e (canon_readAny hs)
      split
      · exact .some h1
      · extract_lets ws
        split
        · exact .none
        · rename_i e
          have h2 := Canon.of_eq e (canon_qenqNear h1)
          split
          · exact .some h2
          · split
            · exact .some h2
            · split
              · exact .some h2
              · extract_lets home
                split
                · exact .some h2
                · split
                  · exact .some h2
                  · split
                    rename_i e
                    have h3 := Canon.of_eq e (canon_newEntry h2)
                    exact .some (canon_schedule (canon_takeFree h3))

theorem canon_hartWaits {s : State} (hs : Canon s) : Canon (hartWaits s) :=
  canon_modHart hs

theorem canon_hartRun {s : State} {hold : Bool} {f : State → State} (hs : Canon s) (hf : ∀ s, Canon s → Canon (f s)) :
    CanonOut (hartRun s hold f) := by
  unfold hartRun
  dsimp only
  split
  · exact .next (canon_modHart hs)
  · split
    · exact .next (canon_hartWaits hs)
    · exact .next (hf _ hs)

theorem canon_execQenq {rs2 rs1 rd : BitVec 5} {s : State} (hs : Canon s) : CanonOut (execQenq rs2 rs1 rd s) := by
  unfold execQenq
  refine canon_hartRun hs fun s1 h1 => ?_
  split
  · rename_i e
    exact canon_modHart (canon_qenqStatus h1 _ e)
  · exact canon_hartWaits h1

theorem canon_execQfence {s : State} (hs : Canon s) : CanonOut (execQfence s) :=
  canon_hartRun hs (fun _ hk => canon_modHart hk)

theorem canon_execQuokorStore {hart pa len : Nat} {data : Word} {s : State} (hs : Canon s) :
    CanonOut (execQuokorStore hart pa len data s) := by
  unfold execQuokorStore
  dsimp only
  split
  · exact .next (canon_schedule hs)
  · split
    · exact .next (canon_pushEvs (canon_modHart hs))
    · exact .next (canon_clearTags (canon_performWrite (canon_modHart hs)))

/-! The instruction words of the control cores beside QENQ and QFENCE -/

theorem canon_hartRead {s : State} {acc pa n : Nat} {va : Word} (hs : Canon s) :
    Canon (hartRead s acc pa n va).2 := by
  unfold hartRead
  dsimp only
  split
  · dsimp only
    exact canon_takeFree hs
  · split
    · exact hs
    · dsimp only
      exact canon_readAny hs

theorem canon_walkSv {k : Hart} {mode acc : Nat} {va : Word} {n a : Nat} {s : State} (hs : Canon s) :
    Canon (walkSv k mode acc va n a s).2 := by
  induction n generalizing a s with
  | zero => exact hs
  | succ n ih =>
    unfold walkSv
    dsimp only
    split
    · dsimp only
      rename_i e
      exact .of_eq e (canon_hartRead hs)
    · dsimp only
      rename_i e
      exact .of_eq e (canon_hartRead hs)
    · split
      · dsimp only
        rename_i e _
        exact .of_eq e (canon_hartRead hs)
      · split
        · rename_i e _ _
          exact ih (.of_eq e (canon_hartRead hs))
        · split
          · dsimp only
            rename_i e _ _ _
            exact .of_eq e (canon_hartRead hs)
          · dsimp only
            rename_i e _ _ _
            exact .of_eq e (canon_hartRead hs)

theorem canon_hartPlace {s : State} {k : Hart} {acc : Nat} {va : Word} (hs : Canon s) :
    Canon (hartPlace s k acc va).2 := by
  unfold hartPlace
  dsimp only
  split
  · split
    · exact hs
    · split
      · exact hs
      · exact canon_walkSv hs
  · split
    · exact hs
    · split
      · exact hs
      · exact canon_walkSv hs

theorem canon_hartParcel {s : State} {k : Hart} {pc : Word} (hs : Canon s) : Canon (hartParcel s k pc).2 := by
  unfold hartParcel
  split
  · dsimp only
    rename_i e
    exact .of_eq e (canon_hartPlace hs)
  · dsimp only
    rename_i e
    exact .of_eq e (canon_hartPlace hs)
  · split
    · dsimp only
      rename_i e _
      exact .of_eq e (canon_hartPlace hs)
    · split
      · dsimp only
        rename_i e _ _ _ _ e2
        exact .of_eq e2 (canon_hartRead (.of_eq e (canon_hartPlace hs)))
      · dsimp only
        rename_i e _ _ _ _ _ e2
        exact .of_eq e2 (canon_hartRead (.of_eq e (canon_hartPlace hs)))
      · dsimp only
        rename_i e _ _ _ e2
        exact .of_eq e2 (canon_hartRead (.of_eq e (canon_hartPlace hs)))

theorem canon_hartFetch {s : State} {k : Hart} (hs : Canon s) : Canon (hartFetch s k).2 := by
  unfold hartFetch
  split
  · split
    · dsimp only
      rename_i e _
      exact .of_eq e (canon_hartParcel hs)
    · split
      · dsimp only
        rename_i e _ _ _ _ e2
        exact .of_eq e2 (canon_hartParcel (.of_eq e (canon_hartParcel hs)))
      · rename_i e _ _ _
        exact canon_hartParcel (.of_eq e (canon_hartParcel hs))
  · exact canon_hartParcel hs

theorem canon_hartAddr {s : State} {k : Hart} {acc len : Nat} {va : Word} (hs : Canon s) :
    Canon (hartAddr s k acc len va).2 := by
  unfold hartAddr
  split
  · exact hs
  · split
    · dsimp only
      rename_i e
      exact .of_eq e (canon_hartPlace hs)
    · exact canon_hartPlace hs

theorem canon_hartLoad {s : State} {k : Hart} {len : Nat} {signed fp : Bool} {rd : Nat} {va : Word} (hs : Canon s) :
    Canon (hartLoad s k len signed fp rd va).2 := by
  unfold hartLoad
  dsimp only
  split
  · dsimp only
    rename_i e
    exact .of_eq e (canon_hartAddr hs)
  · dsimp only
    rename_i e
    exact .of_eq e (canon_hartAddr hs)
  · split
    · dsimp only
      rename_i e _
      exact .of_eq e (canon_hartAddr hs)
    · split
      · dsimp only
        rename_i e _ _ _ _ e2
        exact .of_eq e2 (canon_hartRead (.of_eq e (canon_hartAddr hs)))
      · dsimp only
        rename_i e _ _ _ _ _ e2
        exact .of_eq e2 (canon_hartRead (.of_eq e (canon_hartAddr hs)))
      · dsimp only
        rename_i e _ _ _ e2
        exact .of_eq e2 (canon_hartRead (.of_eq e (canon_hartAddr hs)))

theorem canon_hartStore {s : State} {h : Nat} {k : Hart} {len : Nat} {va v : Word} (hs : Canon s) :
    Canon (hartStore s h k len va v).2 := by
  unfold hartStore
  dsimp only
  split
  · dsimp only
    rename_i e
    exact .of_eq e (canon_hartAddr hs)
  · dsimp only
    rename_i e
    exact .of_eq e (canon_hartAddr hs)
  · split
    · dsimp only
      rename_i e _
      exact .of_eq e (canon_hartAddr hs)
    · dsimp only
      rename_i e _
      exact canon_schedule (canon_takeFree (.of_eq e (canon_hartAddr hs)))

theorem canon_hartAtomic {s : State} {k : Hart} {w : Nat} (hs : Canon s) : Canon (hartAtomic s k w).2 := by
  unfold hartAtomic
  extract_lets len f5 acc rd va b give
  split
  · exact hs
  · split
    · rename_i e
      exact .of_eq e (canon_hartAddr hs)
    · rename_i e
      exact .of_eq e (canon_hartAddr hs)
    · rename_i pa _ e
      have h1 := Canon.of_eq e (canon_hartAddr hs)
      split
      · exact h1
      · split
        · rename_i e
          exact .of_eq e (canon_hartRead h1)
        · rename_i e
          exact .of_eq e (canon_hartRead h1)
        · rename_i e
          have h2 := Canon.of_eq e (canon_hartRead h1)
          extract_lets old put
          have hput : ∀ {s v}, Canon s → Canon (put s v) := fun h =>
            canon_ite (canon_clearTags (canon_performWrite h)) h
          split
          · exact h2
          · split
            rename_i e
            have h3 := Canon.of_eq e (canon_takeFree h2)
            split
            · exact hput h3
            · exact h3
          · exact hput h2
          · exact h2

theorem canon_hartCsr {s : State} {h : Nat} {k : Hart} {w : Nat} (hs : Canon s) : Canon (hartCsr s h k w).2 := by
  unfold hartCsr
  dsimp only
  split
  · split
    · dsimp only
      exact canon_takeFree hs
    · dsimp only
      exact canon_takeFree hs
  · dsimp only
    exact canon_takeFree hs

theorem canon_rvExec {s : State} {h : Nat} {k0 : Hart} {w : Nat} (hs : Canon s) : Canon (rvExec s h k0 w).2 := by
  unfold rvExec
  dsimp only
  split
  · exact hs
  · exact hs
  · exact hs
  · exact hs
  · exact hs
  · split
    · exact hs
    · exact canon_hartLoad hs
  · split
    · exact hs
    · exact canon_hartStore hs
  · exact hs
  · exact hs
  · exact hs
  · exact hs
  · exact hs
  · split
    · exact canon_hartCsr hs
    · exact hs
  · split
    · exact canon_hartAtomic hs
    · exact hs
  · split
    · exact canon_hartLoad hs
    · exact hs
  · split
    · exact canon_hartStore hs
    · exact hs
  · exact hs
  · exact hs
  · exact hs
  · exact hs
  · exact hs
  · exact hs

theorem canon_hartStep {s : State} {h : Nat} {k : Hart} (hs : Canon s) : Canon (hartStep s h k) := by
  unfold hartStep
  dsimp only
  split
  · exact canon_modHart hs
  · split
    · exact canon_modHart hs
    · split
      · rename_i e
        exact canon_modHart (.of_eq e (canon_rvExec hs))
      · rename_i e
        exact canon_modHart (.of_eq e (canon_rvExec hs))
      · rename_i e
        exact canon_modHart (.of_eq e (canon_rvExec hs))

theorem canon_hartNext {s : State} {h : Nat} {k : Hart} (hs : Canon s) : Canon (hartNext s h k).1 := by
  unfold hartNext
  split
  · dsimp only
    rename_i e
    exact canon_modHart (.of_eq e (canon_hartFetch hs))
  · dsimp only
    rename_i e
    exact canon_modHart (.of_eq e (canon_hartFetch hs))
  · dsimp only
    rename_i e
    exact .of_eq e (canon_hartFetch hs)

theorem canon_hartPerform {s : State} {h : Nat} {k : Hart} (hs : Canon s) : Canon (hartPerform s h k) := by
  unfold hartPerform
  dsimp only
  split
  · exact canon_takeFree hs
  · split
    · exact canon_takeFree hs
    · exact canon_modHart (canon_readAny (canon_takeFree hs))

theorem canon_hartCycle {s : State} (hs : Canon s) : Canon (hartCycle s).2 := by
  unfold hartCycle
  dsimp only
  split
  · exact hs
  · dsimp only
    exact .update (canon_takeFree hs)

/-! HBM commands -/

theorem canon_modHbm {s : State} {f : Hbm → Hbm} (hs : Canon s) : Canon (modHbm s f) :=
  .update hs

theorem canon_hbmCmd {s : State} {refused : Option Nat} {f : State → State} (hs : Canon s)
    (hf : ∀ s, Canon s → Canon (f s)) :
    CanonOut (hbmCmd s refused f) := by
  unfold hbmCmd
  split
  · exact .next (canon_modHbm hs)
  · split
    · exact .next (canon_modHbm hs)
    · exact .next (hf _ (canon_modHbm hs))

theorem canon_execMakelive {arg : BitVec 24} {comp : Bool} {s : State} (hs : Canon s) :
    CanonOut (execMakelive arg comp s) :=
  canon_hbmCmd hs (fun _ hk => canon_schedule (canon_modHbm (canon_takeFree hk)))

theorem canon_execMakeliveComplete {s : State} (hs : Canon s) : CanonOut (execMakeliveComplete s) := by
  unfold execMakeliveComplete
  dsimp only
  split
  · exact .next hs
  · split
    · exact .next (canon_schedule hs)
    · exact .next (canon_modHbm ⟨wf_memClear _ _ _ hs.wf⟩)

theorem canon_execMakedead {arg : BitVec 24} {s : State} (hs : Canon s) : CanonOut (execMakedead arg s) :=
  canon_hbmCmd hs (fun _ hk => canon_modHbm hk)

theorem canon_execSetscheme {arg : BitVec 24} {il : BitVec 3} {s : State} (hs : Canon s) :
    CanonOut (execSetscheme arg il s) :=
  canon_hbmCmd hs (fun _ hk => canon_modHbm hk)

theorem canon_holdThreads {s : State} (hs : Canon s) : Canon (holdThreads s) :=
  .update hs

theorem canon_beginHold {s : State} {g : Nat} (hs : Canon s) : Canon (beginHold s g) :=
  canon_schedule (canon_holdThreads (canon_modHbm hs))

theorem canon_execDrop {arg : BitVec 24} {s : State} (hs : Canon s) : CanonOut (execDrop arg s) := by
  unfold execDrop
  exact canon_hbmCmd hs (fun _ hk => canon_beginHold hk)

theorem canon_execRehash {s : State} (hs : Canon s) : CanonOut (execRehash s) :=
  canon_hbmCmd hs (fun _ hk => canon_beginHold hk)

theorem canon_execDropHoldDone {s : State} (hs : Canon s) : CanonOut (execDropHoldDone s) := by
  unfold execDropHoldDone
  split
  · exact .next hs
  · split
    · exact .next (canon_schedule (canon_modHbm hs))
    · exact .next (canon_schedule (canon_holdThreads hs))

theorem canon_execDropDrainDone {s : State} (hs : Canon s) : CanonOut (execDropDrainDone s) := by
  unfold execDropDrainDone
  dsimp only
  split
  · exact .next hs
  · split
    · exact .next (canon_schedule (.update (canon_takeFree hs)))
    · exact .next (canon_schedule hs)

theorem canon_loseBurst {s : State} {b : Nat} (hs : Canon s) : Canon (loseBurst s b) :=
  canon_logEvent (canon_modHbm ⟨wf_memClear _ _ _ hs.wf⟩)

theorem canon_rebuild {s : State} (hs : Canon s) : Canon (rebuild s) := by
  unfold rebuild
  exact canon_modHbm (canon_foldl (fun _ _ hk => canon_loseBurst hk) (canon_foldl (fun _ _ hk => canon_unitRead hk)
    hs))

theorem canon_reportDrop {s : State} {g : Nat} (hs : Canon s) : Canon (reportDrop s g) :=
  canon_logEvent (canon_modHbm hs)

theorem canon_execDropRebuildDone {s : State} (hs : Canon s) : CanonOut (execDropRebuildDone s) := by
  unfold execDropRebuildDone
  split
  · exact .next (canon_ite (canon_reportDrop hs) (canon_schedule hs))
  · split
    · exact .next (canon_schedule hs)
    · exact .next (canon_schedule (.update (canon_rebuild hs)))
  · exact .next hs

theorem canon_execPcerrInterval {s : State} (hs : Canon s) : CanonOut (execPcerrInterval s) :=
  .next (canon_modHbm hs)

theorem canon_scrubWord {s : State} {c : Nat} (hs : Canon s) : Canon (scrubWord s c) := by
  unfold scrubWord
  extract_lets sl s1 w fixed
  have h1 : Canon s1 := canon_ite (canon_modSlice hs) hs
  split
  rename_i e
  have h2 := Canon.of_eq e (canon_readSramWord h1)
  refine canon_modSlice ?_
  split
  · exact canon_ite ⟨wf_memWrite _ _ _ h2.wf⟩ h2
  · exact h2

theorem canon_execScrubRead {core : Nat} {s : State} (hs : Canon s) : CanonOut (execScrubRead core s) := by
  unfold execScrubRead
  dsimp only
  split
  · exact .next hs
  · split
    · exact .next (.update hs)
    · exact .next (canon_schedule hs)
    · exact .next (canon_scrubWord hs)

/-! The link layer of a fabric port -/

theorem canon_modPort {s : State} {p : Nat} {f : Port → Port} (hs : Canon s) : Canon (modPort s p f) :=
  .update hs

theorem canon_modRouter {s : State} {f : Router → Router} (hs : Canon s) : Canon (modRouter s f) :=
  .update hs

theorem canon_linkEvent {s : State} {cls cause qw6 qw7 : Nat} (hs : Canon s) :
    Canon (linkEvent s cls cause qw6 qw7) :=
  canon_logEvent hs

theorem canon_putRaw {s : State} {p vc ft : Nat} {tag nak : Bool} {content : List Byte} (hs : Canon s) :
    Canon (putRaw s p vc ft tag nak content) := by
  unfold putRaw
  refine canon_modPort ?_
  split
  · split
    · dsimp only
      split
      · exact canon_storeUnits hs
      · exact hs
    · split
      · exact canon_storeUnits hs
      · exact hs
  · split
    · exact canon_storeUnits hs
    · exact hs

theorem canon_putFlit {s : State} {p vc ft : Nat} {tag nak : Bool} {content : List Byte} (hs : Canon s) :
    Canon (putFlit s p vc ft tag nak content) := by
  unfold putFlit
  dsimp only
  split
  · exact canon_putRaw (canon_putRaw hs)
  · exact canon_putRaw hs

theorem canon_sendCtl {s : State} {p typ : Nat} {bs : List Byte} (hs : Canon s) : Canon (sendCtl s p typ bs) := by
  unfold sendCtl
  split
  · exact canon_putFlit hs
  · exact canon_modPort hs

theorem canon_flushCtl {n : Nat} {s : State} {a : Nat} (hs : Canon s) : Canon (flushCtl n s a) := by
  induction n generalizing s a with
  | zero => exact hs
  | succ n ih =>
    unfold flushCtl
    dsimp only
    split
    · exact hs
    · split
      · exact ih (canon_sendCtl (canon_modPort hs))
      · exact hs

theorem canon_sendAck {s : State} {p : Nat} {nak : Bool} (hs : Canon s) : Canon (sendAck s p nak) := by
  unfold sendAck
  dsimp only
  split
  · exact canon_sendCtl (canon_modPort hs)
  · exact canon_sendCtl hs

theorem canon_retryFlits {q : Port} {l : List (Nat × Option Flit)} {s : State} (hs : Canon s) :
    Canon (retryFlits q l s).2 := by
  have hr : ∀ {s w pa n ga}, Canon s → Canon (readPa s w pa n ga).2 := canon_readPa
  obtain ⟨R, hR⟩ : ∃ R, R = @readPa := ⟨_, rfl⟩
  obtain ⟨F, hF⟩ : ∃ F, F = retryFlits := ⟨_, rfl⟩
  rw [← hF]
  delta retryFlits retryFlits._f at hF
  rw [← hR] at hr hF
  have hnil : ∀ s, (F q [] s).2 = s := by
    subst hF
    exact fun _ => rfl
  have hsome : ∀ n f r s, (F q ((n, some f) :: r) s).2 = (F q r s).2 := by
    subst hF
    exact fun _ _ _ _ => rfl
  have hnone : ∀ n r s,
      (F q ((n, none) :: r) s).2 = (F q r (R s { die := 0, core := 0 } (retryPa q n) 64 0).2).2 := by
    subst hF
    exact fun _ _ _ => rfl
  clear hF
  induction l generalizing s with
  | nil => rwa [hnil]
  | cons x r ih =>
    obtain ⟨n, f⟩ := x
    cases f with
    | some f =>
      rw [hsome]
      exact ih hs
    | none =>
      rw [hnone]
      exact ih (hr hs)

theorem canon_resend {s : State} {p : Nat} (hs : Canon s) : Canon (resend s p) := by
  unfold resend
  dsimp only
  split
  · exact canon_modPort hs
  · exact canon_modPort (canon_retryFlits hs)

theorem canon_ackedTo {s : State} {p n : Nat} (hs : Canon s) : Canon (ackedTo s p n) := by
  unfold ackedTo
  dsimp only
  split
  · exact hs
  · exact canon_flushCtl (canon_modPort hs)

theorem canon_ackedSeq {s : State} {p ack : Nat} (hs : Canon s) : Canon (ackedSeq s p ack) := by
  unfold ackedSeq
  split
  · exact canon_ackedTo hs
  · exact hs

theorem canon_countNak {s : State} {p : Nat} (hs : Canon s) : Canon (countNak s p) :=
  canon_modPort hs

theorem canon_execNakReceive {port ack : Nat} {s : State} (hs : Canon s) : CanonOut (execNakReceive port ack s) :=
  .next (canon_resend (canon_countNak (canon_ackedSeq hs)))

theorem canon_execLinkRetryTimeout {port : Nat} {s : State} (hs : Canon s) :
    CanonOut (execLinkRetryTimeout port s) := by
  unfold execLinkRetryTimeout
  dsimp only
  split
  · exact .next hs
  · split
    · refine .next ?_
      split
      · exact canon_resend hs
      · exact canon_flushCtl (canon_resend hs)
    · split
      · exact .next hs
      · exact .next (canon_resend hs)

theorem canon_sendGroup {s : State} {p vc : Nat} {job : BitVec 16} {cs : List ClearFlit} (hs : Canon s) :
    Canon (sendGroup s p vc job cs) := by
  unfold sendGroup
  dsimp only
  split
  · exact hs
  · exact canon_modRouter (canon_putFlit (canon_foldl (fun _ _ hk => canon_putFlit hk) hs))

theorem canon_sendPackets {s : State} {p vc : Nat} {job : BitVec 16} {pkts : List Packet} (hs : Canon s) :
    Canon (sendPackets s p vc job pkts) := by
  unfold sendPackets
  exact canon_modPort (canon_foldl (fun _ _ hk => canon_sendGroup hk) hs)

theorem canon_reroute {s : State} {p : Nat} {adaptive : Bool} (hs : Canon s) : Canon (reroute s p adaptive) := by
  unfold reroute
  exact canon_modRouter hs

theorem canon_linkDown {s : State} {p : Nat} (hs : Canon s) : Canon (linkDown s p) :=
  canon_reroute (canon_modPort (canon_linkEvent hs))

theorem canon_updateMode {s : State} {p : Nat} (hs : Canon s) : Canon (updateMode s p) := by
  unfold updateMode
  dsimp only
  split
  · exact hs
  · split
    · exact canon_linkDown hs
    · split
      · exact canon_reroute (canon_modPort hs)
      · exact canon_modPort hs

theorem canon_returnCredits {s : State} {p : Nat} (hs : Canon s) : Canon (returnCredits s p) := by
  unfold returnCredits
  dsimp only
  split
  · exact hs
  · exact canon_sendCtl (canon_modPort hs)

theorem canon_freeFlits {s : State} {p vc n : Nat} (hs : Canon s) : Canon (freeFlits s p vc n) := by
  unfold freeFlits
  split
  · exact hs
  · exact canon_returnCredits (canon_modPort hs)

theorem canon_discardFlit {s : State} {p : Nat} {again_ : Bool} (hs : Canon s) : Canon (discardFlit s p again_) := by
  unfold discardFlit
  dsimp only
  split
  · exact canon_modPort hs
  · exact canon_sendAck (canon_modPort hs)

theorem canon_dropLane {s : State} {p lane : Nat} (hs : Canon s) : Canon (dropLane s p lane) := by
  unfold dropLane
  dsimp only
  split
  · exact hs
  · refine canon_updateMode (canon_sendCtl ?_)
    split
    · exact canon_sendAck (canon_linkEvent (canon_modPort hs))
    · exact canon_linkEvent (canon_modPort hs)

theorem canon_execLaneLossOfLock {port lane : Nat} {s : State} (hs : Canon s) :
    CanonOut (execLaneLossOfLock port lane s) :=
  .next (canon_dropLane hs)

theorem canon_execUncorrectableCodeword {port lane : Nat} {s : State} (hs : Canon s) :
    CanonOut (execUncorrectableCodeword port lane s) := by
  unfold execUncorrectableCodeword
  refine .next ?_
  split
  · exact canon_dropLane (canon_modPort hs)
  · exact canon_modPort hs

theorem canon_execLaneErrorInterval {port : Nat} {s : State} (hs : Canon s) :
    CanonOut (execLaneErrorInterval port s) :=
  .next (canon_modPort hs)

theorem canon_changeMap {s : State} {p : Nat} {m : BitVec 8} (hs : Canon s) : Canon (changeMap s p m) :=
  canon_sendCtl (canon_modPort hs)

theorem canon_trainLane {s : State} {p lane : Nat} (hs : Canon s) : Canon (trainLane s p lane) :=
  canon_schedule (canon_modPort (canon_takeFree hs))

theorem canon_beginLane {s : State} {p : Nat} (hs : Canon s) : Canon (beginLane s p) := by
  unfold beginLane
  dsimp only
  split
  · exact canon_modPort hs
  · split
    · exact canon_trainLane hs
    · exact canon_changeMap (canon_modPort hs)

theorem canon_turnMap {s : State} {p : Nat} (hs : Canon s) : Canon (turnMap s p) := by
  unfold turnMap
  dsimp only
  split
  · exact hs
  · split
    · exact hs
    · refine canon_updateMode ?_
      split
      · exact canon_trainLane (canon_modPort hs)
      · exact canon_modPort hs

theorem canon_execLaneTrainPass {port lane : Nat} {s : State} (hs : Canon s) :
    CanonOut (execLaneTrainPass port lane s) := by
  unfold execLaneTrainPass
  dsimp only
  split
  · exact .next hs
  · split
    · exact .next (canon_beginLane hs)
    · split
      · exact .next hs
      · split
        · exact .next (canon_schedule hs)
        · split
          · exact .next (canon_modPort (canon_takeFree (canon_modPort hs)))
          · exact .next (canon_linkEvent (canon_changeMap (canon_modPort (canon_takeFree (canon_modPort hs)))))

theorem canon_laneWindow {s : State} {p : Nat} (hs : Canon s) : Canon (laneWindow s p) := by
  unfold laneWindow
  dsimp only
  split
  · exact hs
  · split
    · exact canon_beginLane hs
    · split
      · exact hs
      · exact canon_schedule (canon_modPort (canon_takeFree hs))

theorem canon_execPortCfgWrite {port : Nat} {val : Word} {s : State} (hs : Canon s) :
    CanonOut (execPortCfgWrite port val s) := by
  unfold execPortCfgWrite
  dsimp only
  split
  · split
    · refine .next (canon_schedule (canon_takeFree (canon_modPort (canon_cancel ?_))))
      split
      · exact hs
      · exact canon_linkDown hs
    · refine .next (canon_modPort (canon_cancel ?_))
      split
      · exact hs
      · exact canon_linkDown hs
  · split
    · refine .next (canon_schedule (canon_takeFree (canon_modPort (canon_cancel ?_))))
      split
      · exact hs
      · exact canon_linkDown hs
    · refine .next (canon_modPort (canon_cancel ?_))
      split
      · exact hs
      · exact canon_linkDown hs

theorem canon_execLinkTrainingDone {port : Nat} {s : State} (hs : Canon s) :
    CanonOut (execLinkTrainingDone port s) := by
  unfold execLinkTrainingDone
  dsimp only
  split
  · exact .next hs
  · split
    · exact .next (canon_modPort (canon_takeFree hs))
    · exact .next (canon_linkEvent (canon_modPort (canon_modPort (canon_takeFree hs))))

theorem canon_execIdle {_port : Nat} {s : State} (hs : Canon s) : CanonOut (execIdle _port s) :=
  .next hs

theorem canon_execCredit {port : Nat} {returns : List Nat} {s : State} (hs : Canon s) :
    CanonOut (execCredit port returns s) :=
  .next (canon_modPort hs)

theorem canon_execMapnak {port : Nat} {mask : BitVec 8} {ack : Nat} {s : State} (hs : Canon s) :
    CanonOut (execMapnak port mask ack s) := by
  unfold execMapnak
  refine .next ?_
  split
  · split
    · exact canon_updateMode (canon_modPort (canon_countNak hs))
    · exact canon_resend (canon_updateMode (canon_modPort (canon_countNak hs)))
  · split
    · exact canon_updateMode (canon_modPort (canon_countNak (canon_ackedSeq hs)))
    · exact canon_resend (canon_updateMode (canon_modPort (canon_countNak (canon_ackedSeq hs))))

theorem canon_execMapadd {port : Nat} {mask : BitVec 8} {seq : Nat} {s : State} (hs : Canon s) :
    CanonOut (execMapadd port mask seq s) :=
  .next (canon_modPort hs)

theorem canon_execXack {port n : Nat} {s : State} (hs : Canon s) : CanonOut (execXack port n s) := by
  unfold execXack
  split
  · exact .next (canon_ackedTo hs)
  · exact .next hs

theorem canon_execXseq {port n : Nat} {s : State} (hs : Canon s) : CanonOut (execXseq port n s) :=
  .next (canon_modPort hs)

theorem canon_controlFlit {s : State} {p : Nat} {f : Flit} (hs : Canon s) : CanonOut (controlFlit s p f) := by
  unfold controlFlit
  dsimp only
  split
  · exact canon_execCredit hs
  · exact canon_execMapnak hs
  · exact canon_execMapadd hs
  · split
    · split
      · rename_i e _
        exact .next (canon_resend (canon_countNak (.of_next e (canon_execXack hs))))
      · rename_i e _
        exact .next (.of_next e (canon_execXack hs))
    · exact canon_execXack hs
  · exact canon_execXseq hs
  · exact canon_execIdle hs

theorem canon_passOn {s : State} {p : Nat} {f : Flit} {content : List Byte} (hs : Canon s) :
    Canon (passOn s p f content) := by
  unfold passOn
  dsimp only
  split
  · exact canon_pushEvs (canon_modRouter (canon_modPort hs))
  · exact canon_modPort hs

theorem canon_drainRx {n : Nat} {s : State} {a : Nat} (hs : Canon s) : Canon (drainRx n s a) := by
  induction n generalizing s a with
  | zero => exact hs
  | succ n ih =>
    unfold drainRx
    dsimp only
    split
    · exact hs
    · split
      · exact hs
      · refine ih ?_
        split
        · split
          · rename_i e
            exact .of_next e (canon_controlFlit (canon_modPort hs))
          · exact canon_modPort hs
        · split
          · exact canon_sendAck (canon_freeFlits (canon_modPort hs))
          · split
            · exact canon_modPort hs
            · exact canon_passOn (canon_modPort hs)

theorem canon_noteCounter {s : State} {p : Nat} {job : BitVec 16} {tagFlit : Flit} (hs : Canon s) :
    Canon (noteCounter s p job tagFlit) := by
  unfold noteCounter
  dsimp only
  split
  · exact hs
  · exact canon_modRouter hs

theorem canon_failGroup {s : State} {p : Nat} {group : List RxFlit} {tagFlit : Flit} (hs : Canon s) :
    Canon (failGroup s p group tagFlit) := by
  unfold failGroup
  dsimp only
  split
  · refine canon_linkDown (canon_modPort ?_)
    split
    · exact canon_linkEvent (canon_linkEvent hs)
    · exact canon_linkEvent hs
  · refine canon_discardFlit (canon_modPort ?_)
    split
    · exact canon_linkEvent (canon_linkEvent hs)
    · exact canon_linkEvent hs

theorem canon_closeGroup {s : State} {p : Nat} {f : Flit} (hs : Canon s) : Canon (closeGroup s p f) := by
  unfold closeGroup
  dsimp only
  split
  · exact canon_failGroup hs
  · exact canon_drainRx (canon_modPort (canon_noteCounter hs))

theorem canon_acceptFlit {s : State} {p : Nat} {f : Flit} (hs : Canon s) : Canon (acceptFlit s p f) := by
  unfold acceptFlit
  extract_lets q ctl early s1 s2 s3 s4 s5 q5
  have h1 : Canon s1 := canon_modPort hs
  have h2 : Canon s2 := by
    dsimp only [s2]
    split
    · exact canon_ackedSeq h1
    · exact h1
  have h3 : Canon s3 := by
    dsimp only [s3]
    split
    · split
      · rename_i e
        exact .of_next e (canon_execNakReceive h2)
      · exact h2
    · exact h2
  have h4 : Canon s4 := by
    dsimp only [s4]
    split
    · exact canon_passOn h3
    · exact h3
  have h5 : Canon s5 := by
    dsimp only [s5]
    split
    · exact canon_closeGroup h4
    · exact canon_drainRx h4
  split
  · exact canon_sendAck h5
  · exact h5

theorem canon_execFlitReceive {port : Nat} {flit : Flit} {s : State} (hs : Canon s) :
    CanonOut (execFlitReceive port flit s) := by
  unfold execFlitReceive
  dsimp only
  split
  · exact .next hs
  · split
    · exact .next (canon_modPort (canon_modPort (canon_turnMap hs)))
    · split
      · exact .next (canon_discardFlit (canon_modPort (canon_modPort (canon_turnMap hs))))
      · split
        · exact .next (canon_acceptFlit (canon_modPort (canon_modPort (canon_turnMap hs))))
        · split
          · exact canon_execXseq (canon_modPort (canon_modPort (canon_turnMap hs)))
          · exact .next (canon_discardFlit (canon_modPort (canon_modPort (canon_turnMap hs))))

/-! Routing and end-to-end delivery -/

theorem canon_routeAgain {s : State} {id : Nat} (hs : Canon s) : Canon (routeAgain s id) := by
  unfold routeAgain
  split
  · exact hs
  · exact canon_schedule hs

theorem canon_injectPacket {s : State} {p : Packet} {cls : Nat} (hs : Canon s) : Canon (injectPacket s p cls) :=
  canon_routeAgain (canon_modRouter hs)

theorem canon_respondTo {s : State} {req : Packet} {kind sub : Nat} {data : List Byte} (hs : Canon s) :
    Canon (respondTo s req kind sub data) :=
  canon_injectPacket hs

theorem canon_dropHeld {s : State} {id : Nat} {h : Held} (hs : Canon s) : Canon (dropHeld s id h) :=
  canon_freeFlits (canon_modRouter hs)

theorem canon_linkErr {s : State} {id : Nat} {h : Held} {reason : Nat} (hs : Canon s) :
    Canon (linkErr s id h reason) :=
  canon_linkEvent (canon_dropHeld hs)

theorem canon_adaptivePort {s : State} {id : Nat} {h : Held} (hs : Canon s) : Canon (adaptivePort s id h).2 := by
  unfold adaptivePort
  extract_lets d c best
  split
  · split
    rename_i e
    have h1 := Canon.of_eq e (canon_takeFree hs)
    split
    · exact h1
    · split
      · split <;> exact h1
      · exact h1
  · exact hs

theorem canon_emit {s : State} {id : Nat} {h : Held} {p : Nat} {down : Bool} (hs : Canon s) :
    Canon (emit s id h p down) :=
  canon_foldl (fun _ _ hk => canon_dropHeld hk) (canon_sendPackets hs)

theorem canon_queueOn {s : State} {id : Nat} {h : Held} {p : Option Nat} (hs : Canon s) : Canon (queueOn s id h p) :=
  canon_routeAgain (canon_modRouter hs)

theorem canon_execEscapeTimeout {id : Nat} {s : State} (hs : Canon s) : CanonOut (execEscapeTimeout id s) := by
  unfold execEscapeTimeout
  dsimp only
  split
  · exact .next hs
  · exact .next (canon_routeAgain (canon_modRouter hs))

theorem canon_routeAdaptive {s : State} {id : Nat} {h : Held} (hs : Canon s) : Canon (routeAdaptive s id h) := by
  unfold routeAdaptive
  dsimp only
  split
  · exact canon_emit (canon_adaptivePort hs)
  · split
    · exact canon_pushEvs (canon_queueOn (canon_adaptivePort hs))
    · exact canon_queueOn (canon_adaptivePort hs)

theorem canon_routeTree {s : State} {id : Nat} {h : Held} (hs : Canon s) : Canon (routeTree s id h) := by
  unfold routeTree
  dsimp only
  split
  · exact canon_linkErr hs
  · split
    · exact canon_linkErr hs
    · split
      · exact canon_emit hs
      · exact canon_queueOn hs

theorem canon_execTagReuseReady {s : State} (hs : Canon s) : CanonOut (execTagReuseReady s) := by
  unfold execTagReuseReady
  dsimp only
  split
  · exact .next hs
  · split
    · refine .next ?_
      split
      · exact hs
      · exact canon_schedule hs
    · exact .next (canon_injectPacket (canon_modRouter hs))

theorem canon_modOutst {s : State} {tag : Nat} {f : Outst → Outst} (hs : Canon s) : Canon (modOutst s tag f) := by
  unfold modOutst
  split
  · exact hs
  · exact canon_modRouter hs

theorem canon_forget {s : State} {p : Packet} (hs : Canon s) : Canon (forget s p) :=
  canon_modRouter hs

theorem canon_fwdAnswered {s : State} {key : Nat} (hs : Canon s) : Canon (fwdAnswered s key) := by
  unfold fwdAnswered
  exact canon_modRouter hs

theorem canon_collAnswered {s : State} {ctx : Nat} {fwd : Bool} (hs : Canon s) : Canon (collAnswered s ctx fwd) := by
  unfold collAnswered
  refine canon_modCollOp ?_
  split
  · exact canon_fwdAnswered hs
  · exact hs

theorem canon_fatomAnswer {s : State} {c req tid : Nat} {v : Row} {f : Option FaultRec} (hs : Canon s) :
    Canon (fatomAnswer s c req tid v f) := by
  unfold fatomAnswer
  dsimp only
  split
  · split
    · exact hs
    · refine canon_deliverReq ?_
      split
      · exact canon_modThread hs
      · exact hs
  · exact hs

theorem canon_pieceDone {s : State} {ctx no : Nat} {dst : Word} (hs : Canon s) : Canon (pieceDone s ctx no dst) := by
  unfold pieceDone
  split
  · exact canon_probeAnswer hs
  · exact canon_wake (canon_modOp hs)

theorem canon_requestFails {s : State} {o : Outst} {cause : Option Nat} (hs : Canon s) :
    Canon (requestFails s o cause) := by
  unfold requestFails
  dsimp only
  split
  · exact canon_fatomAnswer hs
  · split
    · exact canon_probeAnswer hs
    · split <;> exact canon_haltContext hs
  · split <;> exact canon_haltContext hs
  · split <;> exact canon_haltContext (canon_collAnswered hs)
  · split <;> exact canon_haltContext hs
  · exact canon_bararvAnswered hs
  · exact canon_fwdAnswered hs

theorem canon_unreachable {s : State} {tag : Nat} (hs : Canon s) : Canon (unreachable s tag) := by
  unfold unreachable
  split
  · exact hs
  · exact canon_requestFails (canon_linkEvent (canon_forget hs))

theorem canon_execE2eTimeout {tag : Nat} {s : State} (hs : Canon s) : CanonOut (execE2eTimeout tag s) := by
  unfold execE2eTimeout
  dsimp only
  split
  · exact .next hs
  · split
    · exact .next hs
    · split
      · exact .next (canon_injectPacket (canon_linkEvent (canon_modOutst hs)))
      · exact .next (canon_unreachable hs)

theorem canon_execRetryBackoff {tag : Nat} {s : State} (hs : Canon s) : CanonOut (execRetryBackoff tag s) := by
  unfold execRetryBackoff
  dsimp only
  split
  · exact .next hs
  · split
    · exact .next hs
    · exact .next (canon_injectPacket (canon_modOutst hs))

theorem canon_execAck {p : Packet} {s : State} (hs : Canon s) : CanonOut (execAck p s) := by
  unfold execAck
  dsimp only
  split
  · exact .next hs
  · refine .next ?_
    split
    · exact canon_pieceDone (canon_forget hs)
    · exact canon_collAnswered (canon_forget hs)
    · exact canon_fwdAnswered (canon_forget hs)
    · exact canon_bararvAnswered (canon_forget hs)
    · exact canon_forget hs

theorem canon_execRdrsp {p : Packet} {s : State} (hs : Canon s) : CanonOut (execRdrsp p s) := by
  unfold execRdrsp
  dsimp only
  split
  · exact .next hs
  · refine .next ?_
    split
    · split
      · exact canon_probeAnswer (canon_forget hs)
      · exact canon_landPiece (canon_forget hs)
    · exact canon_modCollOp (canon_forget hs)
    · exact canon_forget hs

theorem canon_execAtomrsp {p : Packet} {s : State} (hs : Canon s) : CanonOut (execAtomrsp p s) := by
  unfold execAtomrsp
  dsimp only
  split
  · exact .next hs
  · refine .next ?_
    split
    · exact canon_counterDone (canon_forget hs)
    · exact canon_fatomAnswer (canon_forget hs)
    · exact canon_pieceDone (canon_forget hs)
    · exact canon_forget hs

theorem canon_execRetry {p : Packet} {s : State} (hs : Canon s) : CanonOut (execRetry p s) := by
  unfold execRetry
  dsimp only
  split
  · exact .next hs
  · split
    · exact .next hs
    · exact .next (canon_schedule (canon_modOutst hs))

theorem canon_execErr {p : Packet} {s : State} (hs : Canon s) : CanonOut (execErr p s) := by
  unfold execErr
  split
  · exact .next hs
  · exact .next (canon_requestFails (canon_forget hs))

theorem canon_ingressTags {s : State} {pa n : Nat} (hs : Canon s) : Canon (ingressTags s pa n) := by
  unfold ingressTags
  split
  · exact canon_touchGranules hs
  · exact hs

theorem canon_arrivalTags {s : State} {p : Packet} {pa n : Nat} (hs : Canon s) : Canon (arrivalTags s p pa n) := by
  unfold arrivalTags
  split
  · split
    · exact hs
    · split
      · split
        · exact canon_clearTags hs
        · exact hs
      · exact canon_ingressTags hs
  · exact canon_ingressTags hs

theorem canon_execWr {p : Packet} {s : State} (hs : Canon s) : CanonOut (execWr p s) := by
  unfold execWr
  split
  · rename_i e
    exact .next (canon_respondTo (.of_eq e (canon_performWrite hs)))
  · rename_i e
    exact .next (canon_respondTo (canon_arrivalTags (.of_eq e (canon_performWrite hs))))

theorem canon_execRdreq {p : Packet} {s : State} (hs : Canon s) : CanonOut (execRdreq p s) := by
  unfold execRdreq
  dsimp only
  split <;> exact .next (canon_respondTo (canon_readPa hs))

theorem canon_reply {s : State} {req rsp : Packet} (hs : Canon s) : Canon (reply s req rsp) :=
  canon_injectPacket (canon_modRouter hs)

theorem canon_tagged {s : State} {p : Packet} {f : State → State} (hs : Canon s) (hf : ∀ s, Canon s → Canon (f s)) :
    CanonOut (tagged s p f) := by
  unfold tagged
  split
  · exact .next (canon_injectPacket hs)
  · split
    · exact .next hs
    · split
      · exact .next (canon_respondTo hs)
      · exact .next (hf _ hs)

theorem canon_execReplyCacheExpiry {src tag : Nat} {s : State} (hs : Canon s) :
    CanonOut (execReplyCacheExpiry src tag s) :=
  .next (canon_modRouter hs)

theorem canon_fabricAtomic {s : State} {who : Who} {pa w : Nat} {f : Word → Word} (hs : Canon s) :
    Canon (fabricAtomic s who pa w f).2 := by
  unfold fabricAtomic
  split
  rename_i hg
  have h1 := Canon.of_eq hg (canon_readPa hs)
  split
  · exact h1
  · extract_lets old
    split
    · rename_i e
      exact .of_eq e (canon_performWrite h1)
    · rename_i e
      exact .of_eq e (canon_performWrite h1)

theorem canon_atomTouch {s : State} {own : Option (Nat × Req × Part)} {pa w : Nat} (hs : Canon s) :
    OkAll Canon (atomTouch s own pa w) := by
  unfold atomTouch
  split
  · exact canon_touchAt (canon_withDet hs)
  · exact .ok (canon_ingressTags hs)

theorem canon_execAtomPacket {p : Packet} {s : State} (hs : Canon s) : CanonOut (execAtomPacket p s) := by
  unfold execAtomPacket
  refine canon_tagged hs fun _ hk => ?_
  dsimp only
  split
  · exact canon_refuseReq (canon_forget hk)
  · exact hk
  · split
    · rename_i e _ _ _ e2
      exact canon_reply (.of_eq e2 (canon_fabricAtomic (.of_ok e (canon_atomTouch hk))))
    · refine canon_reply ?_
      split
      · split
        · rename_i e _ _ _ e2 _ _ _ _ _ _
          exact canon_recordAt (.of_eq e2 (canon_fabricAtomic (.of_ok e (canon_atomTouch hk))))
        · rename_i e _ _ _ e2 _ _ _ _ _ _
          exact .of_eq e2 (canon_fabricAtomic (.of_ok e (canon_atomTouch hk)))
      · rename_i e _ _ _ e2 _ _
        exact .of_eq e2 (canon_fabricAtomic (.of_ok e (canon_atomTouch hk)))

theorem canon_execCtradd {p : Packet} {s : State} (hs : Canon s) : CanonOut (execCtradd p s) := by
  unfold execCtradd
  refine canon_tagged hs fun _ hk => ?_
  split
  · rename_i e
    exact canon_reply (.of_eq e (canon_fabricAtomic hk))
  · rename_i e
    exact canon_reply (canon_arrivalTags (.of_eq e (canon_fabricAtomic hk)))

theorem canon_execVatomPacket {p : Packet} {s : State} (hs : Canon s) : CanonOut (execVatomPacket p s) := by
  unfold execVatomPacket
  refine canon_tagged hs fun _ hk => ?_
  dsimp only
  split
  · exact canon_modRouter (canon_modRouter hk)
  · exact canon_schedule (canon_modRouter (canon_modRouter hk))

theorem canon_admitted {line : Nat} {xs : List Packet} {s : State} (hs : Canon s) : Canon (admitted line xs s).2 := by
  induction xs generalizing s with
  | nil => exact hs
  | cons x xs ih =>
    unfold admitted
    dsimp only
    split
    · exact ih (canon_haltContext (canon_forget hs))
    · exact ih hs
    · rename_i e
      refine ih (.of_ok e ?_)
      split
      · exact .ok (canon_ingressTags hs)
      · split
        · exact .ok hs
        · exact canon_engineTouch hs

theorem canon_execCombineWindowEnd {line : Nat} {ft : Bool} {s : State} (hs : Canon s) :
    CanonOut (execCombineWindowEnd line ft s) := by
  unfold execCombineWindowEnd
  split
  · exact .next hs
  · split
    · exact .next (canon_schedule hs)
    · extract_lets s1 n
      have h1 : Canon s1 := canon_modRouter hs
      split
      rename_i ea
      have h2 := Canon.of_eq ea (canon_admitted h1)
      split
      · exact .next h2
      · split
        rename_i eg
        have h3 := Canon.of_eq eg (canon_readPa h2)
        extract_lets parts new
        split
        rename_i ew
        refine .next (canon_foldl (fun _ _ hk => canon_reply hk) (.of_eq ew ?_))
        split
        · exact h3
        · split
          · rename_i e
            exact .of_eq e (canon_performWrite h3)
          · rename_i e
            exact .of_eq e (canon_performWrite h3)

theorem canon_setRoot {s : State} {key : Nat} {e : RootEntry} (hs : Canon s) : Canon (setRoot s key e) :=
  canon_modRouter hs

theorem canon_multicast {s : State} {p : Packet} {e : RootEntry} (hs : Canon s) : Canon (multicast s p e) :=
  canon_foldl (fun _ _ hk => canon_queuePacket hk) (canon_modRouter (canon_takeStamp hs))

theorem canon_rootStep {s : State} {p : Packet} {e : RootEntry} (hs : Canon s) : CanonOut (rootStep s p e) := by
  unfold rootStep
  dsimp only
  split
  · exact .next (canon_respondTo (canon_setRoot hs))
  · split
    · exact .next (canon_respondTo hs)
    · refine .next (canon_respondTo (canon_setRoot ?_))
      split
      · exact canon_multicast (canon_multicast hs)
      · exact canon_multicast hs

theorem canon_execBarArvArrive {p : Packet} {s : State} (hs : Canon s) : CanonOut (execBarArvArrive p s) := by
  unfold execBarArvArrive
  dsimp only
  split
  · exact .next (canon_respondTo hs)
  · exact canon_rootStep hs

theorem canon_execBarArvJoin {p : Packet} {s : State} (hs : Canon s) : CanonOut (execBarArvJoin p s) :=
  .next (canon_respondTo (canon_setRoot hs))

theorem canon_execBarArvLeave {p : Packet} {s : State} (hs : Canon s) : CanonOut (execBarArvLeave p s) := by
  unfold execBarArvLeave
  dsimp only
  split
  · exact .next (canon_respondTo (canon_setRoot hs))
  · split
    · exact .next (canon_respondTo hs)
    · exact canon_rootStep hs

theorem canon_execBarrel {p : Packet} {s : State} (hs : Canon s) : CanonOut (execBarrel p s) := by
  unfold execBarrel
  refine .next (canon_respondTo ?_)
  split
  · exact canon_packagePhase hs
  · exact hs

theorem canon_execCollp {p : Packet} {s : State} (hs : Canon s) : CanonOut (execCollp p s) := by
  unfold execCollp
  dsimp only
  split
  · split
    · exact .next (canon_respondTo hs)
    · rename_i e
      exact .next (canon_respondTo (canon_setColl (.of_some e (canon_takeRelay hs))))
  · exact .next (canon_respondTo (canon_setColl hs))

theorem canon_execBwCtlWrite {val : Word} {s : State} (hs : Canon s) : CanonOut (execBwCtlWrite val s) := by
  unfold execBwCtlWrite
  refine .next ?_
  dsimp only
  split
  · exact canon_modRouter hs
  · exact canon_linkEvent (canon_modRouter hs)

theorem canon_keyCommand {s : State} {refused : Option Nat} {op slot job epoch : Nat} (hs : Canon s) :
    CanonOut (keyCommand s refused op slot job epoch) := by
  unfold keyCommand
  dsimp only
  split
  · exact .next (canon_modRouter hs)
  · split
    · exact .next (canon_modRouter hs)
    · exact .next (canon_schedule (canon_modRouter (canon_takeFree hs)))

theorem canon_execInstall {slot : BitVec 6} {job epoch : BitVec 16} {s : State} (hs : Canon s) :
    CanonOut (execInstall slot job epoch s) :=
  canon_keyCommand hs

theorem canon_execZero {slot : BitVec 6} {s : State} (hs : Canon s) : CanonOut (execZero slot s) :=
  canon_keyCommand hs

theorem canon_execZerojob {job : BitVec 16} {s : State} (hs : Canon s) : CanonOut (execZerojob job s) :=
  canon_keyCommand hs

theorem canon_keyDone {s : State} {err : Nat} (hs : Canon s) : Canon (keyDone s err) :=
  canon_modRouter hs

theorem canon_execKeyCommandComplete {s : State} (hs : Canon s) : CanonOut (execKeyCommandComplete s) := by
  unfold execKeyCommandComplete
  dsimp only
  split
  · exact .next hs
  · split
    · split
      · exact .next (canon_schedule hs)
      · split
        · exact .next (canon_keyDone (canon_readPa hs))
        · exact .next (canon_keyDone (canon_modRouter (canon_readPa hs)))
    · split
      · split
        · exact .next (canon_schedule hs)
        · exact .next (canon_keyDone (canon_foldl (fun _ _ hk => canon_modRouter hk) hs))
      · split
        · exact .next (canon_schedule hs)
        · exact .next (canon_keyDone (canon_foldl (fun _ _ hk => canon_modRouter hk) hs))

theorem canon_routerWrite {s : State} {o : Nat} {v m : Word} (hs : Canon s) : CanonOut (routerWrite s o v m) := by
  unfold routerWrite
  dsimp only
  split
  · split
    · exact canon_execPortCfgWrite hs
    · exact .next (canon_modPort hs)
    · split
      · exact .next hs
      · exact .next (canon_modPort hs)
    · exact .next hs
  · split
    · exact .next (canon_modRouter hs)
    · split
      · exact canon_execBwCtlWrite hs
      · exact .next (canon_modRouter hs)
      · split
        · exact canon_execInstall hs
        · exact canon_execZero hs
        · exact canon_execZerojob hs
        · exact canon_keyCommand hs
      · exact .next (canon_modRouter hs)
      · refine .next ?_
        split
        · exact canon_modRouter hs
        · exact hs
      · exact .next hs

theorem canon_writeWords {bs : List Byte} {n : Nat} {s : State} (hs : Canon s) : CanonOut (writeWords bs n s) := by
  induction bs generalizing n s with
  | nil =>
    unfold writeWords
    exact .next hs
  | cons x bs ih =>
    unfold writeWords
    dsimp only
    split
    · rename_i e
      exact ih (.of_next e (canon_routerWrite hs))
    · exact canon_routerWrite hs

theorem canon_writeBlock {n : Nat} {bs : List Byte} {a : Nat} {s : State} (hs : Canon s) :
    CanonOut (writeBlock n bs a s) := by
  induction n generalizing bs a s with
  | zero =>
    unfold writeBlock
    exact .next hs
  | succ n ih =>
    unfold writeBlock
    split
    · exact .next hs
    · split
      · split
        · rename_i e
          exact ih (.of_next e (canon_routerWrite hs))
        · exact canon_routerWrite hs
      · split
        · rename_i e
          exact ih (.of_next e (canon_writeWords hs))
        · exact canon_writeWords hs

theorem canon_execMgtmsgWrite {p : Packet} {s : State} (hs : Canon s) : CanonOut (execMgtmsgWrite p s) :=
  canon_writeBlock hs

theorem canon_execMgtmsgHealth {p : Packet} {s : State} (hs : Canon s) : CanonOut (execMgtmsgHealth p s) :=
  .next (canon_modRouter hs)

theorem canon_execMgtmsgKey {p : Packet} {s : State} (hs : Canon s) : CanonOut (execMgtmsgKey p s) :=
  .next (canon_ingressTags (canon_performWrite hs))

theorem canon_arrive {p : Packet} {s : State} (hs : Canon s) : CanonOut (arrive p s) := by
  unfold arrive
  split
  · exact canon_execWr hs
  · exact canon_execRdreq hs
  · exact canon_execAtomPacket hs
  · exact canon_execCtradd hs
  · exact canon_execVatomPacket hs
  · split
    · exact canon_execBarArvArrive hs
    · exact canon_execBarArvJoin hs
    · exact canon_execBarArvLeave hs
    · exact .next hs
  · exact canon_execCollp hs
  · exact canon_execBarrel hs
  · exact canon_execAck hs
  · exact canon_execRdrsp hs
  · exact canon_execAtomrsp hs
  · exact canon_execRetry hs
  · exact canon_execErr hs
  · split
    · exact canon_execMgtmsgWrite hs
    · exact canon_execMgtmsgHealth hs
    · exact canon_execMgtmsgKey hs
    · exact .next hs
  · exact .next hs

theorem canon_deliver {s : State} {id : Nat} {h : Held} (hs : Canon s) : CanonOut (deliver s id h) := by
  unfold deliver
  dsimp only
  split
  · exact canon_arrive (canon_dropHeld hs)
  · split
    · exact .next (canon_respondTo (canon_dropHeld hs))
    · split
      · exact .next (canon_routeAgain hs)
      · exact .next (canon_respondTo (canon_dropHeld hs))
      · exact canon_arrive (canon_dropHeld hs)

theorem canon_noKey {s : State} {id : Nat} {h : Held} (hs : Canon s) : Canon (noKey s id h) := by
  unfold noKey
  dsimp only
  split
  · exact canon_linkEvent (canon_dropHeld hs)
  · exact canon_injectPacket (canon_linkEvent (canon_dropHeld hs))

theorem canon_execPacketRoute {id : Nat} {s : State} (hs : Canon s) : CanonOut (execPacketRoute id s) := by
  unfold execPacketRoute
  split
  · exact .next hs
  · extract_lets here h1
    split
    · exact .next (canon_linkErr hs)
    · split
      · exact .next (canon_noKey hs)
      · split
        · exact canon_deliver hs
        · split
          · exact .next (canon_unreachable (canon_dropHeld hs))
          · split
            · exact .next (canon_routeTree hs)
            · split
              · exact canon_execEscapeTimeout (canon_modRouter hs)
              · exact .next (canon_routeAdaptive hs)

theorem canon_giveColl {s : State} {t : Thread} {a : Word} {ws : List Word} (hs : Canon s) :
    Canon (giveColl s t a ws).2 := by
  unfold giveColl
  dsimp only
  exact canon_collAgain (canon_setColl (canon_noteCtxJob hs))

theorem canon_execColl {g : Guard} {rd ra : BitVec 5} {s : State} (hs : Canon s) : CanonOut (execColl g rd ra s) := by
  unfold execColl
  refine canon_runSlot hs fun _ => ?_
  dsimp only
  split
  · exact .error
  · refine OkAll.bind (canon_readBlock hs) fun _ hk => ?_
    split
    · exact .error
    · split
      · exact .error
      · exact canon_putScalar (canon_giveColl hk)

/-! The auditor's replays -/

theorem canon_modAudit {s : State} {f : Auditor → Auditor} (hs : Canon s) : Canon (modAudit s f) :=
  .update hs

theorem canon_skipSample {s : State} {x : Sample} (hs : Canon s) : Canon (skipSample s x) :=
  canon_modAudit hs

theorem canon_outputBytes {c : Nat} {r : JobRegs} {xs : List (Word × Nat)} {s : State} (hs : Canon s) :
    Canon (outputBytes c r xs s).2 := by
  induction xs generalizing s with
  | nil => exact hs
  | cons x xs ih =>
    unfold outputBytes
    split
    · split
      · dsimp only
        rename_i e _ _ _ e2
        exact .of_eq e2 (ih (.of_eq e (canon_readRangeNow hs)))
      · rename_i e _ _
        exact ih (.of_eq e (canon_readRangeNow hs))
    · exact canon_readRangeNow hs

theorem canon_execAuditReplayStart {s : State} (hs : Canon s) : CanonOut (execAuditReplayStart s) := by
  unfold execAuditReplayStart
  dsimp only
  split
  · exact .next hs
  · split
    · exact .next hs
    · split
      · exact .next (canon_skipSample hs)
      · split
        · exact .next hs
        · split
          · rename_i e
            exact .next (canon_skipSample (.of_eq e (canon_outputBytes hs)))
          · rename_i e
            exact .next (.of_eq e (canon_outputBytes hs))
          · rename_i e
            exact .next (canon_makeReady (canon_newEntry (canon_modAudit (.of_eq e (canon_outputBytes hs)))))

theorem canon_execAuditCompare {s : State} (hs : Canon s) : CanonOut (execAuditCompare s) := by
  unfold execAuditCompare
  dsimp only
  split
  · exact .next hs
  · split
    · exact .next (canon_modAudit hs)
    · split
      · exact .next (canon_modAudit (canon_modAudit hs))
      · exact .next (canon_fqFault (canon_modAudit (canon_modAudit hs)))

/-! The dredge calendar -/

theorem canon_modDredge {s : State} {f : Dredge → Dredge} (hs : Canon s) : Canon (modDredge s f) :=
  .update hs

theorem canon_modPlat {s : State} {f : Platform → Platform} (hs : Canon s) : Canon (modPlat s f) :=
  .update hs

theorem canon_execDrainLead {s : State} (hs : Canon s) : CanonOut (execDrainLead s) :=
  .next (canon_modDredge hs)

theorem canon_execWindowClose {s : State} (hs : Canon s) : CanonOut (execWindowClose s) :=
  .next (canon_foldl (fun _ _ hk => canon_abandonCtx hk) (canon_storePosted (canon_modDredge hs)))

theorem canon_overrun {s : State} {i : Issuer} {ctx pa : Nat} (hs : Canon s) : Canon (overrun s i ctx pa) := by
  unfold overrun
  extract_lets s1 add log
  have h1 : Canon s1 := canon_modDredge hs
  have hlog : Canon log := canon_fqFault h1
  split
  · exact hlog
  · split
    · exact canon_setThread h1
    · split
      · split
        · exact .update h1
        · exact hlog
      · exact hlog

theorem canon_weirOverrun {s : State} (hs : Canon s) : Canon (weirOverrun s) := by
  unfold weirOverrun
  dsimp only
  split
  · split
    · exact canon_logEvent (canon_modWeir (canon_modDredge (canon_takeFree hs)))
    · exact canon_takeFree hs
  · exact hs

theorem canon_wakeWaiting {s : State} (hs : Canon s) : Canon (wakeWaiting s) :=
  .update hs

theorem canon_execTemperatureEvent {temp power : Nat} {s : State} (hs : Canon s) :
    CanonOut (execTemperatureEvent temp power s) :=
  .next (canon_modPlat hs)

theorem canon_newReading {s : State} (hs : Canon s) : Canon (newReading s) := by
  unfold newReading
  exact canon_modPlat (canon_takeFree hs)

theorem canon_railWindow {s : State} {d : Nat} (hs : Canon s) : Canon (railWindow s d) := by
  unfold railWindow
  dsimp only
  split
  · exact hs
  · exact canon_schedule (canon_modDie (canon_takeFree hs))

theorem canon_execRailRecalDone {die : Nat} {s : State} (hs : Canon s) : CanonOut (execRailRecalDone die s) :=
  .next (canon_modDie hs)

theorem canon_railEvent {s : State} {d cause rail : Nat} (hs : Canon s) : Canon (railEvent s d cause rail) :=
  canon_logEvent hs

theorem canon_execRailError {die rail : Nat} {s : State} (hs : Canon s) : CanonOut (execRailError die rail s) := by
  unfold execRailError
  dsimp only
  split
  · split
    · exact .next hs
    · exact .next (canon_schedule (canon_railEvent (canon_modDie (canon_cancel (canon_takeFree hs)))))
  · split
    · exact .next hs
    · exact .next (canon_railEvent (canon_modDie hs))

theorem canon_retrainStacks {s : State} (hs : Canon s) : Canon (retrainStacks s) := by
  unfold retrainStacks
  dsimp only
  split
  · exact canon_takeFree hs
  · split
    · exact canon_pcFail (canon_takeFree hs)
    · exact canon_takeFree hs

theorem canon_openWindow {s : State} (hs : Canon s) : Canon (openWindow s) := by
  unfold openWindow
  dsimp only
  split
  · refine canon_pushEvs (canon_schedule (canon_schedule (canon_schedule (canon_foldl (fun _ _ hk =>
      canon_laneWindow hk) (canon_retrainStacks (canon_foldl (fun _ _ hk => canon_railWindow hk) (canon_newReading
      (canon_modPlat (canon_wakeWaiting (canon_weirOverrun (canon_foldl ?_ (canon_modDredge hs))))))))))))
    intro _ _ hk
    exact canon_overrun hk
  · exact canon_schedule (canon_schedule (canon_schedule (canon_foldl (fun _ _ hk => canon_laneWindow hk)
      (canon_retrainStacks (canon_foldl (fun _ _ hk => canon_railWindow hk) (canon_newReading (canon_modPlat
      (canon_wakeWaiting (canon_weirOverrun (canon_foldl (fun _ _ hk => canon_overrun hk) (canon_modDredge
      hs)))))))))))

theorem canon_execWindowOpen {s : State} (hs : Canon s) : CanonOut (execWindowOpen s) := by
  unfold execWindowOpen
  refine .next ?_
  split
  · exact canon_modPlat hs
  · exact canon_openWindow hs

/-! The signed configuration record, boot and recovery, feature negotiation, quotes -/

theorem canon_applyRecord {s : State} {r firmware : List Byte} (hs : Canon s) : Canon (applyRecord s r firmware) := by
  unfold applyRecord
  refine canon_foldl ?_ (canon_modRouter (canon_modHbm (canon_modPlat hs)))
  intro _ _ hk
  split
  · exact canon_modSlice hk
  · exact hk

theorem canon_afterReset {s : State} : Canon (afterReset s) := ⟨wf_reset⟩

theorem canon_execDeviceResetBoot {s : State} (_ : Canon s) : CanonOut (execDeviceResetBoot s) := by
  unfold execDeviceResetBoot
  refine .next ?_
  dsimp only
  split
  · exact canon_pushEvs (canon_modHart (canon_applyRecord canon_afterReset))
  · exact canon_modHart (canon_modPlat canon_afterReset)

theorem canon_execRecoveryUpload {image firmware : List (BitVec 8)} {resets : Bool} {s : State} (hs : Canon s) :
    CanonOut (execRecoveryUpload image firmware resets s) := by
  unfold execRecoveryUpload
  dsimp only
  split
  · split
    · exact canon_execDeviceResetBoot (canon_modPlat hs)
    · exact .next (canon_modPlat hs)
  · split
    · exact canon_execDeviceResetBoot hs
    · exact .next hs

theorem canon_execFeatAcceptWrite {val : Word} {s : State} (hs : Canon s) : CanonOut (execFeatAcceptWrite val s) := by
  unfold execFeatAcceptWrite
  refine .next ?_
  split
  · exact hs
  · exact canon_modPlat hs

theorem canon_execSchedCtlWrite {die : Nat} {val : Word} {s : State} (hs : Canon s) :
    CanonOut (execSchedCtlWrite die val s) := by
  unfold execSchedCtlWrite
  refine .next ?_
  split
  · exact hs
  · exact canon_modDie hs

theorem canon_execQuote {pa : Nat} {s : State} (hs : Canon s) : CanonOut (execQuote pa s) := by
  unfold execQuote
  dsimp only
  split
  · exact .next (canon_modPlat hs)
  · exact .next (canon_schedule (canon_modPlat (canon_takeFree (canon_readPa hs))))

theorem canon_execQuoteComplete {s : State} (hs : Canon s) : CanonOut (execQuoteComplete s) := by
  unfold execQuoteComplete
  dsimp only
  split
  · exact .next hs
  · exact .next (canon_modPlat (canon_clearTags (canon_performWrite hs)))

theorem canon_execPccCfgWrite {core : Nat} {val : Word} {s : State} (hs : Canon s) :
    CanonOut (execPccCfgWrite core val s) :=
  .next (canon_modCore hs)

/-! Writes of control-register space -/

theorem canon_tlbiWrite {s : State} {o : Nat} {v m : Word} (hs : Canon s) : CanonOut (tlbiWrite s o v m) := by
  unfold tlbiWrite
  dsimp only
  split
  · exact .next (.update hs)
  · split
    · exact .next hs
    · exact canon_execTlbicmdPage hs
    · exact canon_execTlbicmdSpace hs
    · exact canon_execTlbicmdAll hs
  · refine .next ?_
    split
    · exact .update hs
    · exact hs
  · exact .next hs

theorem canon_hbmCommand {s : State} {v : Word} (hs : Canon s) : CanonOut (hbmCommand s v) := by
  unfold hbmCommand
  dsimp only
  split
  · exact canon_execMakelive hs
  · exact canon_execMakedead hs
  · exact canon_execSetscheme hs
  · exact canon_execDrop hs
  · exact canon_execRehash hs
  · exact canon_hbmCmd hs (fun _ h => h)

theorem canon_hbmWrite {s : State} {o : Nat} {v m : Word} (hs : Canon s) : CanonOut (hbmWrite s o v m) := by
  unfold hbmWrite
  dsimp only
  split
  · exact canon_hbmCommand hs
  · refine .next ?_
    split
    · exact canon_modHbm hs
    · exact hs
  · exact .next (canon_modHbm hs)
  · exact .next (canon_modHbm hs)
  · exact .next (canon_modHbm hs)
  · exact .next (canon_modHbm hs)
  · exact .next hs

theorem canon_eddyWrite {s : State} {o : Nat} {v : Word} (hs : Canon s) : CanonOut (eddyWrite s o v) := by
  unfold eddyWrite
  dsimp only
  split
  · split
    · exact canon_execTeardown hs
    · exact canon_execReclaim hs
    · exact .next (canon_eddyRefuse hs)
  · refine .next ?_
    split
    · exact .update hs
    · exact hs
  · exact .next hs

theorem canon_tideWrite {s : State} {o : Nat} {v m : Word} (hs : Canon s) : CanonOut (tideWrite s o v m) := by
  unfold tideWrite
  split
  · exact canon_execTideCtlWrite hs
  · exact .next (canon_modWeir hs)
  · exact .next (canon_modWeir hs)
  · exact .next (canon_modWeir hs)
  · exact .next (canon_modWeir hs)
  · exact .next hs

theorem canon_fqAct {s : State} {d : Nat} {v : Word} (hs : Canon s) : CanonOut (fqAct s d v) := by
  unfold fqAct
  dsimp only
  split
  · split
    · exact canon_execFqResume hs
    · exact .next hs
  · split
    · exact canon_execFqKill hs
    · exact .next hs
  · exact canon_execFqRestart hs
  · exact .next (canon_abandonCtx hs)
  · exact .next hs

theorem canon_schedWrite {s : State} {d o : Nat} {v m : Word} (hs : Canon s) : CanonOut (schedWrite s d o v m) := by
  unfold schedWrite
  dsimp only
  split
  · exact canon_execSchedCtlWrite hs
  · exact .next (canon_modDie hs)
  · exact .next (canon_modDie hs)
  · split
    · exact canon_execSchedPreempt hs
    · exact canon_execSchedKill hs
    · exact .next hs
  · exact .next (canon_fqFlush (canon_modDie hs))
  · exact .next (canon_fqFlush (canon_modDie hs))
  · exact canon_fqAct hs
  · exact .next hs

theorem canon_auditWrite {s : State} {o : Nat} {v m : Word} (hs : Canon s) : CanonOut (auditWrite s o v m) := by
  unfold auditWrite
  dsimp only
  split
  · exact .next (.update hs)
  · exact .next (.update hs)
  · exact .next (.update hs)
  · exact .next hs

theorem canon_dredgeWrite {s : State} {o : Nat} {v m : Word} (hs : Canon s) : CanonOut (dredgeWrite s o v m) := by
  unfold dredgeWrite
  split
  · exact .next (canon_modDredge hs)
  · exact .next hs

theorem canon_jobWrite {s : State} {j o : Nat} {v m : Word} (hs : Canon s) : CanonOut (jobWrite s j o v m) := by
  unfold jobWrite
  dsimp only
  split
  · exact .next (.update hs)
  · split
    · exact .next hs
    · exact .next (.update hs)

theorem canon_platWrite {s : State} {o : Nat} {v m : Word} (hs : Canon s) : CanonOut (platWrite s o v m) := by
  unfold platWrite
  split
  · exact canon_execFeatAcceptWrite hs
  · exact canon_execQuote hs
  · refine .next ?_
    split
    · exact canon_modPlat hs
    · exact hs
  · exact .next (canon_modPlat hs)
  · exact .next hs

theorem canon_ecccfgWrite {s : State} {c : Nat} {v m : Word} (hs : Canon s) : Canon (ecccfgWrite s c v m) :=
  canon_foldl (fun _ _ hk => canon_bankLimit hk) (canon_modSlice hs)

theorem canon_coreWrite {s : State} {c o : Nat} {v m : Word} (hs : Canon s) : CanonOut (coreWrite s c o v m) := by
  unfold coreWrite
  dsimp only
  split
  · exact canon_execPccCfgWrite hs
  · exact .next (canon_modCore hs)
  · exact .next (canon_ecccfgWrite hs)
  · exact .next (canon_modSlice hs)
  · exact .next hs

theorem canon_ctlWrite {s : State} {o : Nat} {v m : Word} (hs : Canon s) : CanonOut (ctlWrite s o v m) := by
  unfold ctlWrite
  dsimp only
  split
  · exact canon_tlbiWrite hs
  · split
    · exact canon_hbmWrite hs
    · exact canon_eddyWrite hs
    · exact canon_tideWrite hs
    · exact canon_schedWrite hs
    · exact canon_auditWrite hs
    · exact canon_dredgeWrite hs
    · exact canon_routerWrite hs
    · exact canon_jobWrite hs
    · exact canon_platWrite hs
    · exact canon_coreWrite hs

theorem canon_execControlRegisterWrite {pa len : Nat} {data : Word} {s : State} (hs : Canon s) :
    CanonOut (execControlRegisterWrite pa len data s) := by
  obtain ⟨R, hR⟩ : ∃ R, R = ctlReg := ⟨_, rfl⟩
  obtain ⟨F, hF⟩ : ∃ F, F = execControlRegisterWrite := ⟨_, rfl⟩
  rw [← hF]
  delta execControlRegisterWrite at hF
  rw [← hR] at hF
  rw [hF]
  beta_reduce
  extract_lets k o
  split
  · exact .next (canon_logNoTarget hs)
  · exact canon_ctlWrite hs

/-! Time -/

theorem canon_advance {s : State} (hs : Canon s) : Canon (advance s) := by
  unfold advance
  extract_lets s1 due s2 cores evs
  have h1 : Canon s1 := canon_reportMerges ⟨hs.wf⟩
  have h2 : Canon s2 := ⟨h1.wf⟩
  exact ⟨(canon_hartCycle h2).wf⟩

theorem canon_quokorNext {ex : Instr → State → Out} {s : State} {h : Nat} (hex : ∀ i s, Canon s → CanonOut (ex i s))
    (hs : Canon s) :
    CanonOut (quokorNext ex s h) := by
  unfold quokorNext
  split
  · exact .next hs
  · split
    · exact hex _ _ (.update hs)
    · split
      · exact .next (canon_modHart (.update hs))
      · exact .next (canon_hartStep hs)

theorem canon_hartGo {ex : Instr → State → Out} {s : State} {h : Nat} (hex : ∀ i s, Canon s → CanonOut (ex i s))
    (hs : Canon s) :
    CanonOut (hartGo ex s h) := by
  unfold hartGo
  split
  · exact .next hs
  · split
    · rename_i e
      exact canon_quokorNext hex (.of_eq_fst e (canon_hartNext hs))
    · rename_i e
      exact .next (.of_eq_fst e (canon_hartNext hs))

theorem canon_perform {ex : Instr → State → Out} {s : State} (hex : ∀ i s, Canon s → CanonOut (ex i s))
    (hs : Canon s) : CanonOut (perform ex s) := by
  unfold perform
  split
  · exact .fault
  · split
    · exact .next (canon_advance hs)
    · exact hex _ _ (.update hs)
    · exact .next (canon_beginCycle (.update hs))
    · exact canon_issueBundle hex (.update hs)
    · exact .next (canon_finishCycle (.update hs))
    · exact canon_quokorNext hex (.update hs)
    · exact canon_hartGo hex (.update hs)
    · extract_lets s1
      have h1 : Canon s1 := .update hs
      split
      · exact .next (canon_hartPerform h1)
      · exact .next h1

/-! The S slots without the transfers -/

theorem canon_execNop {_g : Guard} {_x : BitVec 22} {s : State} (hs : Canon s) : CanonOut (execNop _g _x s) :=
  .next hs

theorem canon_execAdd {g : Guard} {rd ra rb : BitVec 5} {s : State} (hs : Canon s) :
    CanonOut (execAdd g rd ra rb s) :=
  canon_runSlot hs (fun _ => canon_putScalar hs)

theorem canon_execSub {g : Guard} {rd ra rb : BitVec 5} {s : State} (hs : Canon s) :
    CanonOut (execSub g rd ra rb s) :=
  canon_runSlot hs (fun _ => canon_putScalar hs)

theorem canon_execAddi {g : Guard} {rd ra : BitVec 5} {i : BitVec 12} {s : State} (hs : Canon s) :
    CanonOut (execAddi g rd ra i s) :=
  canon_runSlot hs (fun _ => canon_putScalar hs)

theorem canon_execMul {g : Guard} {rd ra rb : BitVec 5} {s : State} (hs : Canon s) :
    CanonOut (execMul g rd ra rb s) :=
  canon_runSlot hs (fun _ => canon_putScalar hs)

theorem canon_execMulhI {g : Guard} {rd ra rb : BitVec 5} {s : State} (hs : Canon s) :
    CanonOut (execMulhI g rd ra rb s) :=
  canon_runSlot hs (fun _ => canon_putScalar hs)

theorem canon_execMulhN {g : Guard} {rd ra rb : BitVec 5} {s : State} (hs : Canon s) :
    CanonOut (execMulhN g rd ra rb s) :=
  canon_runSlot hs (fun _ => canon_putScalar hs)

theorem canon_execAnd {g : Guard} {rd ra rb : BitVec 5} {s : State} (hs : Canon s) :
    CanonOut (execAnd g rd ra rb s) :=
  canon_runSlot hs (fun _ => canon_putScalar hs)

theorem canon_execOr {g : Guard} {rd ra rb : BitVec 5} {s : State} (hs : Canon s) : CanonOut (execOr g rd ra rb s) :=
  canon_runSlot hs (fun _ => canon_putScalar hs)

theorem canon_execXor {g : Guard} {rd ra rb : BitVec 5} {s : State} (hs : Canon s) :
    CanonOut (execXor g rd ra rb s) :=
  canon_runSlot hs (fun _ => canon_putScalar hs)

theorem canon_execAndn {g : Guard} {rd ra rb : BitVec 5} {s : State} (hs : Canon s) :
    CanonOut (execAndn g rd ra rb s) :=
  canon_runSlot hs (fun _ => canon_putScalar hs)

theorem canon_execAndi {g : Guard} {rd ra : BitVec 5} {i : BitVec 12} {s : State} (hs : Canon s) :
    CanonOut (execAndi g rd ra i s) :=
  canon_runSlot hs (fun _ => canon_putScalar hs)

theorem canon_execOri {g : Guard} {rd ra : BitVec 5} {i : BitVec 12} {s : State} (hs : Canon s) :
    CanonOut (execOri g rd ra i s) :=
  canon_runSlot hs (fun _ => canon_putScalar hs)

theorem canon_execXori {g : Guard} {rd ra : BitVec 5} {i : BitVec 12} {s : State} (hs : Canon s) :
    CanonOut (execXori g rd ra i s) :=
  canon_runSlot hs (fun _ => canon_putScalar hs)

theorem canon_execShl {g : Guard} {rd ra rb : BitVec 5} {s : State} (hs : Canon s) :
    CanonOut (execShl g rd ra rb s) :=
  canon_runSlot hs (fun _ => canon_putScalar hs)

theorem canon_execShr {g : Guard} {rd ra rb : BitVec 5} {s : State} (hs : Canon s) :
    CanonOut (execShr g rd ra rb s) :=
  canon_runSlot hs (fun _ => canon_putScalar hs)

theorem canon_execSar {g : Guard} {rd ra rb : BitVec 5} {s : State} (hs : Canon s) :
    CanonOut (execSar g rd ra rb s) :=
  canon_runSlot hs (fun _ => canon_putScalar hs)

theorem canon_execRor {g : Guard} {rd ra rb : BitVec 5} {s : State} (hs : Canon s) :
    CanonOut (execRor g rd ra rb s) :=
  canon_runSlot hs (fun _ => canon_putScalar hs)

theorem canon_execShli {g : Guard} {rd ra : BitVec 5} {c : BitVec 6} {s : State} (hs : Canon s) :
    CanonOut (execShli g rd ra c s) :=
  canon_runSlot hs (fun _ => canon_putScalar hs)

theorem canon_execShri {g : Guard} {rd ra : BitVec 5} {c : BitVec 6} {s : State} (hs : Canon s) :
    CanonOut (execShri g rd ra c s) :=
  canon_runSlot hs (fun _ => canon_putScalar hs)

theorem canon_execSari {g : Guard} {rd ra : BitVec 5} {c : BitVec 6} {s : State} (hs : Canon s) :
    CanonOut (execSari g rd ra c s) :=
  canon_runSlot hs (fun _ => canon_putScalar hs)

theorem canon_execRori {g : Guard} {rd ra : BitVec 5} {c : BitVec 6} {s : State} (hs : Canon s) :
    CanonOut (execRori g rd ra c s) :=
  canon_runSlot hs (fun _ => canon_putScalar hs)

theorem canon_execBfxN {g : Guard} {rd ra : BitVec 5} {pos len : BitVec 6} {s : State} (hs : Canon s) :
    CanonOut (execBfxN g rd ra pos len s) :=
  canon_runSlot hs (fun _ => canon_putScalar hs)

theorem canon_execBfxI {g : Guard} {rd ra : BitVec 5} {pos len : BitVec 6} {s : State} (hs : Canon s) :
    CanonOut (execBfxI g rd ra pos len s) :=
  canon_runSlot hs (fun _ => canon_putScalar hs)

theorem canon_execBfi {g : Guard} {rd ra : BitVec 5} {pos len : BitVec 6} {s : State} (hs : Canon s) :
    CanonOut (execBfi g rd ra pos len s) :=
  canon_runSlot hs (fun _ => canon_putScalar hs)

theorem canon_execClz {g : Guard} {rd ra : BitVec 5} {s : State} (hs : Canon s) : CanonOut (execClz g rd ra s) :=
  canon_runSlot hs (fun _ => canon_putScalar hs)

theorem canon_execCtz {g : Guard} {rd ra : BitVec 5} {s : State} (hs : Canon s) : CanonOut (execCtz g rd ra s) :=
  canon_runSlot hs (fun _ => canon_putScalar hs)

theorem canon_execPopc {g : Guard} {rd ra : BitVec 5} {s : State} (hs : Canon s) : CanonOut (execPopc g rd ra s) :=
  canon_runSlot hs (fun _ => canon_putScalar hs)

theorem canon_execMinI {g : Guard} {rd ra rb : BitVec 5} {s : State} (hs : Canon s) :
    CanonOut (execMinI g rd ra rb s) :=
  canon_runSlot hs (fun _ => canon_putScalar hs)

theorem canon_execMinN {g : Guard} {rd ra rb : BitVec 5} {s : State} (hs : Canon s) :
    CanonOut (execMinN g rd ra rb s) :=
  canon_runSlot hs (fun _ => canon_putScalar hs)

theorem canon_execMaxI {g : Guard} {rd ra rb : BitVec 5} {s : State} (hs : Canon s) :
    CanonOut (execMaxI g rd ra rb s) :=
  canon_runSlot hs (fun _ => canon_putScalar hs)

theorem canon_execMaxN {g : Guard} {rd ra rb : BitVec 5} {s : State} (hs : Canon s) :
    CanonOut (execMaxN g rd ra rb s) :=
  canon_runSlot hs (fun _ => canon_putScalar hs)

theorem canon_execSel {g : Guard} {rd ra rb : BitVec 5} {pn : Bool} {ps : BitVec 3} {s : State} (hs : Canon s) :
    CanonOut (execSel g rd ra rb pn ps s) :=
  canon_runSlot hs (fun _ => canon_putScalar hs)

theorem canon_execMovi {g : Guard} {rd : BitVec 5} {i : BitVec 17} {s : State} (hs : Canon s) :
    CanonOut (execMovi g rd i s) :=
  canon_runSlot hs (fun _ => canon_putScalar hs)

theorem canon_execMovhi {g : Guard} {rd : BitVec 5} {i : BitVec 17} {s : State} (hs : Canon s) :
    CanonOut (execMovhi g rd i s) :=
  canon_runSlot hs (fun _ => canon_putScalar hs)

theorem canon_execCmp {g : Guard} {pd : BitVec 3} {cond : BitVec 4} {ra rb : BitVec 5} {cm : BitVec 2} {s : State}
    (hs : Canon s) :
    CanonOut (execCmp g pd cond ra rb cm s) :=
  canon_runSlot hs (fun _ => canon_putPred hs)

theorem canon_execCmpi {g : Guard} {pd : BitVec 3} {cond : BitVec 4} {ra : BitVec 5} {cm : BitVec 2} {i : BitVec 8}
    {s : State} (hs : Canon s) :
    CanonOut (execCmpi g pd cond ra cm i s) :=
  canon_runSlot hs (fun _ => canon_putPred hs)

theorem canon_execPlog {g : Guard} {pd pa pb : BitVec 3} {lut : BitVec 4} {s : State} (hs : Canon s) :
    CanonOut (execPlog g pd pa pb lut s) :=
  canon_runSlot hs (fun _ => canon_putPred hs)

theorem canon_execPmovWr {g : Guard} {reg : BitVec 5} {mask : BitVec 8} {s : State} (hs : Canon s) :
    CanonOut (execPmovWr g reg mask s) :=
  canon_runSlot hs (fun _ => OkAll.mapAny (fun _ => canon_setThread hs))

theorem canon_execPmovRd {g : Guard} {reg : BitVec 5} {s : State} (hs : Canon s) : CanonOut (execPmovRd g reg s) :=
  canon_runSlot hs (fun _ => canon_putScalar hs)

/-! One arm per instruction -/

theorem canon_exec {i : Instr} {s : State} (hs : Canon s) : CanonOut (exec i s) := by
  unfold exec
  split
  · exact canon_execNop hs
  · exact canon_execAdd hs
  · exact canon_execSub hs
  · exact canon_execAddi hs
  · exact canon_execMul hs
  · exact canon_execMulhI hs
  · exact canon_execMulhN hs
  · exact canon_execAnd hs
  · exact canon_execOr hs
  · exact canon_execXor hs
  · exact canon_execAndn hs
  · exact canon_execAndi hs
  · exact canon_execOri hs
  · exact canon_execXori hs
  · exact canon_execShl hs
  · exact canon_execShr hs
  · exact canon_execSar hs
  · exact canon_execRor hs
  · exact canon_execShli hs
  · exact canon_execShri hs
  · exact canon_execSari hs
  · exact canon_execRori hs
  · exact canon_execBfxN hs
  · exact canon_execBfxI hs
  · exact canon_execBfi hs
  · exact canon_execClz hs
  · exact canon_execCtz hs
  · exact canon_execPopc hs
  · exact canon_execMinI hs
  · exact canon_execMinN hs
  · exact canon_execMaxI hs
  · exact canon_execMaxN hs
  · exact canon_execSel hs
  · exact canon_execMovi hs
  · exact canon_execMovhi hs
  · exact canon_execCmp hs
  · exact canon_execCmpi hs
  · exact canon_execPlog hs
  · exact canon_execPmovWr hs
  · exact canon_execPmovRd hs
  · exact canon_execBr hs
  · exact canon_execBrx hs
  · exact canon_execJmp hs
  · exact canon_execCall hs
  · exact canon_execRet hs
  · exact canon_execLoopReg hs
  · exact canon_execLoopImm hs
  · exact canon_execEndl hs
  · exact canon_execBrk hs
  · exact canon_execEndT hs
  · exact canon_execTrap hs
  · exact canon_execMnop hs
  · exact canon_execLdb hs
  · exact canon_execLdh hs
  · exact canon_execLdw hs
  · exact canon_execLd hs
  · exact canon_execLdbs hs
  · exact canon_execLdhs hs
  · exact canon_execLdws hs
  · exact canon_execStb hs
  · exact canon_execSth hs
  · exact canon_execStw hs
  · exact canon_execSt hs
  · exact canon_execLdrow hs
  · exact canon_execStrow hs
  · exact canon_execAtom hs
  · exact canon_execFence hs
  · exact canon_execProbe hs
  · exact canon_execFill hs
  · exact canon_execEvict hs
  · exact canon_execWback hs
  · exact canon_execCvta hs
  · exact canon_execAptest hs
  · exact canon_execWait hs
  · exact canon_execMon hs
  · exact canon_execMwait hs
  · exact canon_execVnop hs
  · exact canon_execVadd hs
  · exact canon_execVsub hs
  · exact canon_execVmul hs
  · exact canon_execVfma hs
  · exact canon_execVmin hs
  · exact canon_execVmax hs
  · exact canon_execVabs hs
  · exact canon_execVneg hs
  · exact canon_execVcmp hs
  · exact canon_execVsel hs
  · exact canon_execVexp2 hs
  · exact canon_execVlog2 hs
  · exact canon_execVrcp hs
  · exact canon_execVrsqrt hs
  · exact canon_execVscale hs
  · exact canon_execViadd hs
  · exact canon_execVisub hs
  · exact canon_execVimul hs
  · exact canon_execVimin hs
  · exact canon_execVimax hs
  · exact canon_execVand hs
  · exact canon_execVor hs
  · exact canon_execVxor hs
  · exact canon_execVshl hs
  · exact canon_execVshr hs
  · exact canon_execVsar hs
  · exact canon_execVcvt hs
  · exact canon_execVpackd hs
  · exact canon_execVunpkd hs
  · exact canon_execVpackm hs
  · exact canon_execVunpkm hs
  · exact canon_execVrsum hs
  · exact canon_execVrmax hs
  · exact canon_execVrmin hs
  · exact canon_execVshuf hs
  · exact canon_execVtrans hs
  · exact canon_execVmov hs
  · exact canon_execVzrd hs
  · exact canon_execVzwr hs
  · exact canon_execVbcast hs
  · exact canon_execXnop hs
  · exact canon_execMma hs
  · exact canon_execMmaTb hs
  · exact canon_execZzero hs
  · exact canon_execZscale hs
  · exact canon_execZout hs
  · exact canon_execCnop hs
  · exact canon_execCopy hs
  · exact canon_execClose hs
  · exact canon_execBinit hs
  · exact canon_execBarrive hs
  · exact canon_execBwait hs
  · exact canon_execWaitl hs
  · exact canon_execGjoin hs
  · exact canon_execGleave hs
  · exact canon_execGbar hs
  · exact canon_execSetfmt hs
  · exact canon_execCrr hs
  · exact canon_execCrw hs
  · exact canon_execDcal hs
  · exact canon_execDleft hs
  · exact canon_execTlbi hs
  · exact canon_execTlbiSync hs
  · exact canon_execTret hs
  · exact canon_execAmark hs
  · exact canon_execQnop hs
  · exact canon_execEnqt hs
  · exact canon_execEboard hs
  · exact canon_execEalight hs
  · exact canon_execEcap hs
  · exact canon_execErow hs
  · exact canon_execEwhen hs
  · exact canon_execTboard hs
  · exact canon_execTwait hs
  · exact canon_execTleave hs
  · exact canon_execTstat hs
  · exact canon_execTspeed hs
  · exact canon_execFst hs
  · exact canon_execFld hs
  · exact canon_execFatom hs
  · exact canon_execVatom hs
  · exact canon_execColl hs
  · exact canon_execQenq hs
  · exact canon_execQfence hs
  · exact canon_execControlRegisterWrite hs
  · exact canon_execPageTableWalkComplete hs
  · exact canon_execMigratingRewalk hs
  · exact canon_execTlbiCommandComplete hs
  · exact canon_execTimedLanding hs
  · exact canon_execRequestDataArrival hs
  · exact canon_execMemoryWritePerformed hs
  · exact canon_execWatchTimeout hs
  · exact canon_execFreezeRelease hs
  · exact canon_execFreezeLimit hs
  · exact canon_execStalledBundleIssue hs
  · exact canon_execScrubRead hs
  · exact canon_execFillComplete hs
  · exact canon_execWritebackComplete hs
  · exact canon_execMakeliveComplete hs
  · exact canon_execDropHoldDone hs
  · exact canon_execDropDrainDone hs
  · exact canon_execDropRebuildDone hs
  · exact canon_execPcerrInterval hs
  · exact canon_execEddySlotPass hs
  · exact canon_execTapOperationPerformed hs
  · exact canon_execEboardAnyTimeout hs
  · exact canon_execTeardownComplete hs
  · exact canon_execReclaimComplete hs
  · exact canon_execLapBegin hs
  · exact canon_execWeirTileSend hs
  · exact canon_execTideTilePass hs
  · exact canon_execTideTileLand hs
  · exact canon_execTideRegistration hs
  · exact canon_execBoardingTimeout hs
  · exact canon_execTaskRecordArrival hs
  · exact canon_execSpillReload hs
  · exact canon_execTaskConditionMet hs
  · exact canon_execSchedulerPick hs
  · exact canon_execPriorityAging hs
  · exact canon_execThreadStart hs
  · exact canon_execPreemptionTaken hs
  · exact canon_execSaveLandingTimeout hs
  · exact canon_execSaveComplete hs
  · exact canon_execRestoreComplete hs
  · exact canon_execKillTaken hs
  · exact canon_execEndComplete hs
  · exact canon_execSegmentExpansionComplete hs
  · exact canon_execCopyRecordProcess hs
  · exact canon_execCopyRecordComplete hs
  · exact canon_execBarrierUpdate hs
  · exact canon_execGroupPhaseComplete hs
  · exact canon_execTrapEntry hs
  · exact canon_execDrainLead hs
  · exact canon_execWindowOpen hs
  · exact canon_execWindowClose hs
  · exact canon_execRailRecalDone hs
  · exact canon_execAuditReplayStart hs
  · exact canon_execAuditCompare hs
  · exact canon_execLinkRetryTimeout hs
  · exact canon_execLaneErrorInterval hs
  · exact canon_execLaneTrainPass hs
  · exact canon_execLinkTrainingDone hs
  · exact canon_execPacketRoute hs
  · exact canon_execEscapeTimeout hs
  · exact canon_execCombineWindowEnd hs
  · exact canon_execRetryBackoff hs
  · exact canon_execE2eTimeout hs
  · exact canon_execTagReuseReady hs
  · exact canon_execReplyCacheExpiry hs
  · exact canon_execKeyCommandComplete hs
  · exact canon_execDeviceResetBoot hs
  · exact canon_execQuoteComplete hs
  · exact canon_execResultWrite hs
  · exact canon_execMatrixBeat hs
  · exact canon_execTlbiTakesEffect hs
  · exact canon_execQuokorStore hs
  · exact canon_execTlbicmdPage hs
  · exact canon_execTlbicmdSpace hs
  · exact canon_execTlbicmdAll hs
  · exact canon_execMakelive hs
  · exact canon_execMakedead hs
  · exact canon_execSetscheme hs
  · exact canon_execDrop hs
  · exact canon_execRehash hs
  · exact canon_execTeardown hs
  · exact canon_execReclaim hs
  · exact canon_execTideCtlWrite hs
  · exact canon_execSchedCtlWrite hs
  · exact canon_execSchedPreempt hs
  · exact canon_execSchedKill hs
  · exact canon_execFqResume hs
  · exact canon_execFqKill hs
  · exact canon_execFqRestart hs
  · exact canon_execFqAbandon hs
  · exact canon_execPortCfgWrite hs
  · exact canon_execBwCtlWrite hs
  · exact canon_execInstall hs
  · exact canon_execZero hs
  · exact canon_execZerojob hs
  · exact canon_execFeatAcceptWrite hs
  · exact canon_execQuote hs
  · exact canon_execPccCfgWrite hs
  · exact canon_execNakReceive hs
  · exact canon_execIdle hs
  · exact canon_execCredit hs
  · exact canon_execMapnak hs
  · exact canon_execMapadd hs
  · exact canon_execXack hs
  · exact canon_execXseq hs
  · exact canon_execWr hs
  · exact canon_execRdreq hs
  · exact canon_execAtomPacket hs
  · exact canon_execCtradd hs
  · exact canon_execVatomPacket hs
  · exact canon_execBarArvArrive hs
  · exact canon_execBarArvJoin hs
  · exact canon_execBarArvLeave hs
  · exact canon_execCollp hs
  · exact canon_execBarrel hs
  · exact canon_execAck hs
  · exact canon_execRdrsp hs
  · exact canon_execAtomrsp hs
  · exact canon_execRetry hs
  · exact canon_execErr hs
  · exact canon_execMgtmsgWrite hs
  · exact canon_execMgtmsgHealth hs
  · exact canon_execMgtmsgKey hs
  · exact canon_execFlitReceive hs
  · exact canon_execLaneLossOfLock hs
  · exact canon_execUncorrectableCodeword hs
  · exact canon_execRailError hs
  · exact canon_execTemperatureEvent hs
  · exact canon_execRecoveryUpload hs

/-! One step -/

theorem canon_step {s : State} (hs : Canon s) : CanonOut (step s) :=
  canon_perform (fun _ _ hk => canon_exec hk) hs

/-- Settles O59: every function that a step performs keeps the memory canonical. -/
theorem memoryCanonicalKept : Obligations.MemoryCanonicalKept := by
  unfold Obligations.MemoryCanonicalKept
  intro s s' hs hstep
  exact (canon_step ⟨hs⟩ s' hstep).wf

end Sys2Proof.Machine

namespace Sys2Proof.Machine

/-! Inside tests of an address (O21) -/

/-- A field in place keeps its value under the mask of its width. -/
theorem fieldMask_and {v n lo : Nat} (hv : v < 2 ^ n) : v * 2 ^ lo &&& (2 ^ n - 1) * 2 ^ lo = v * 2 ^ lo := by
  rw [← Nat.shiftLeft_eq, ← Nat.shiftLeft_eq, ← Nat.shiftLeft_and_distrib, Nat.and_two_pow_sub_one_eq_mod,
    Nat.mod_eq_of_lt hv]

/-- A register that holds one field alone. -/
theorem wset_zero_toNat {hi lo v : Nat} (hv : v < 2 ^ (hi + 1 - lo)) (h : hi < 64) (hlo : lo ≤ hi) :
    (wset hi lo 0 v).toNat = v * 2 ^ lo := by
  have hp : 2 ^ (hi + 1 - lo) * 2 ^ lo ≤ 2 ^ 64 := by
    rw [← pow_add]
    exact Nat.pow_le_pow_right (by decide) (by omega)
  have hv64 : v * 2 ^ lo < 2 ^ 64 := lt_of_lt_of_le (Nat.mul_lt_mul_of_pos_right hv (by positivity)) hp
  have hm64 : (2 ^ (hi + 1 - lo) - 1) * 2 ^ lo < 2 ^ 64 :=
    lt_of_lt_of_le (Nat.mul_lt_mul_of_pos_right (Nat.sub_lt (by positivity) one_pos) (by positivity)) hp
  rw [wset, show ∀ m : Word, (0 &&& m) = 0#64 from fun _ => BitVec.zero_and, BitVec.zero_or, BitVec.toNat_and,
    BitVec.toNat_ofNat, BitVec.toNat_ofNat, Nat.mod_eq_of_lt hv64, Nat.mod_eq_of_lt hm64, fieldMask_and hv]

/-- Bit 55 set above a value that lies below it. -/
theorem wset_bit55_toNat {x : Word} (hx : x.toNat < 2 ^ 55) : (wset 55 55 x 1).toNat = 2 ^ 55 + x.toNat := by
  have hand : x.toNat &&& (2 ^ 64 - 1 - 2 ^ 55) = x.toNat := by
    have hlt : x.toNat &&& (2 ^ 64 - 1 - 2 ^ 55) < 2 ^ 55 := Nat.and_le_left.trans_lt hx
    rw [← Nat.mod_eq_of_lt hlt, Nat.and_mod_two_pow, Nat.mod_eq_of_lt hx,
      show (2 ^ 64 - 1 - 2 ^ 55) % 2 ^ 55 = 2 ^ 55 - 1 from rfl, Nat.and_two_pow_sub_one_eq_mod, Nat.mod_eq_of_lt hx]
  have hor : x.toNat ||| 2 ^ 55 = 2 ^ 55 + x.toNat := by
    rw [Nat.or_comm]
    simpa using (Nat.two_pow_add_eq_or_of_lt hx 1).symm
  have h : (wset 55 55 x 1).toNat = x.toNat &&& (2 ^ 64 - 1 - 2 ^ 55) ||| 2 ^ 55 := by simp [wset]
  rw [h, hand, hor]

/-- The LOCAL window begins at bit 55 and the base field of `apl`. -/
theorem aplBase_toNat (r : JobRegs) : (aplBase r).toNat = 2 ^ 55 + r.apl.toNat / 2 ^ 23 % 2 ^ 32 * 2 ^ 23 := by
  have hf : wf 54 23 r.apl < 2 ^ (54 + 1 - 23) := Nat.mod_lt _ (by decide)
  have h : (wset 54 23 0 (wf 54 23 r.apl)).toNat = wf 54 23 r.apl * 2 ^ 23 := wset_zero_toNat hf (by decide) (by decide)
  rw [aplBase, wset_bit55_toNat (by rw [h]; omega), h]
  rfl

/-- The CLUSTER window begins at bit 55 and the base field of `apc`. -/
theorem apcBase_toNat (r : JobRegs) : (apcBase r).toNat = 2 ^ 55 + r.apc.toNat / 2 ^ 27 % 2 ^ 28 * 2 ^ 27 := by
  have hf : wf 54 27 r.apc < 2 ^ (54 + 1 - 27) := Nat.mod_lt _ (by decide)
  have h : (wset 54 27 0 (wf 54 27 r.apc)).toNat = wf 54 27 r.apc * 2 ^ 27 := wset_zero_toNat hf (by decide) (by decide)
  rw [apcBase, wset_bit55_toNat (by rw [h]; omega), h]
  rfl

theorem getLsbD_55_iff (a : Word) : a.getLsbD 55 = true ↔ a.toNat / 2 ^ 55 % 2 = 1 := by
  rw [BitVec.getLsbD, Nat.testBit_eq_decide_div_mod_eq, decide_eq_true_eq]

/-- R12: an address below 2^56 lies in the LOCAL window exactly when it lies in the window's 8 MiB. -/
theorem inLocal_iff {r : JobRegs} {a : Word} (ha : a.toNat < 2 ^ 56) : inLocal r a = true ↔
    r.apl.getLsbD 0 = true ∧ (aplBase r).toNat ≤ a.toNat ∧ a.toNat < (aplBase r).toNat + 2 ^ 23 := by
  have hw : ∀ w : Word, wf 54 23 w = w.toNat / 2 ^ 23 % 2 ^ 32 := fun _ => rfl
  rw [aplBase_toNat]
  simp only [inLocal, Bool.and_eq_true, beq_iff_eq, getLsbD_55_iff, hw, and_assoc]
  refine and_congr_right fun _ => ?_
  omega

/-- R12: the same for the CLUSTER window's 128 MiB. -/
theorem inCluster_iff {r : JobRegs} {a : Word} (ha : a.toNat < 2 ^ 56) : inCluster r a = true ↔
    r.apc.getLsbD 0 = true ∧ (apcBase r).toNat ≤ a.toNat ∧ a.toNat < (apcBase r).toNat + 2 ^ 27 := by
  have hw : ∀ w : Word, wf 54 27 w = w.toNat / 2 ^ 27 % 2 ^ 28 := fun _ => rfl
  rw [apcBase_toNat]
  simp only [inCluster, Bool.and_eq_true, beq_iff_eq, getLsbD_55_iff, hw, and_assoc]
  refine and_congr_right fun _ => ?_
  omega

/-! Where the place of an address lies -/

section
variable {s : State} {t : Thread} {a : Word}

theorem offsets_of_noPlace (h : memberPlace s t a = .ok none) :
    localOffset s t a = .ok none ∧ clusterOffset s t a = .ok none := by
  constructor
  · rw [localOffset, h]
    rfl
  · rw [clusterOffset, h]
    rfl

/-- R11: the cluster of a core of the map is given by its die and the row and column of the cluster. -/
theorem clusterId_eq_iff {c k : Nat} (hc : c < 2048) (hrow : c / 16 % 32 < 20) (hk : k < 2048) :
    coreRow k < 20 ∧ clusterId k = clusterId c ↔
    k / 512 = c / 512 ∧ k / 64 % 8 = c / 64 % 8 ∧ k / 4 % 4 = c / 4 % 4 := by
  have hdie : ∀ x, x < 2048 → x / 512 % 4 = x / 512 := by omega
  have hrow4 : ∀ x, x / 64 % 8 = x / 16 % 32 / 4 := by omega
  have hcol4 : ∀ x, x / 4 % 4 = x % 16 / 4 := by omega
  simp only [clusterId, coreRow, coreDie, clusterRow, clusterCol, coreCol, hdie c hc, hdie k hk, hrow4, hcol4]
  generalize c / 512 = dc, c / 16 % 32 = rc at *
  have hc4 : c % 16 / 4 < 4 := by omega
  have hk4 : k % 16 / 4 < 4 := by omega
  omega

theorem clusterPos_eq (k : Nat) : clusterPos k = 4 * (k / 16 % 4) + k % 4 := by
  simp only [clusterPos, coreRow, coreCol]
  omega

/-- The number of a core from its parts: die, cluster row, row in the cluster, cluster column, column in the cluster. -/
theorem core_parts {d R r C q : Nat} (hR : R < 8) (hr : r < 4) (hC : C < 4) (hq : q < 4) :
    let core := d * 512 + R * 64 + r * 16 + C * 4 + q
    core / 512 = d ∧ core / 64 % 8 = R ∧ core / 16 % 4 = r ∧ core / 4 % 4 = C ∧ core % 4 = q := by
  refine ⟨?_, ?_, ?_, ?_, ?_⟩ <;> omega

/-- R11: the core at a position of a cluster has the cluster's die, row and column, and the position's row and column. -/
theorem clusterCore_eq {c k : Nat} (hc : c < 2048) (hk : k < 16) :
    clusterCore c k = c / 512 * 512 + c / 64 % 8 * 64 + k / 4 * 16 + c / 4 % 4 * 4 + k % 4 := by
  have hdie : c / 512 % 4 = c / 512 := by omega
  have hrow : c / 16 % 32 - c / 16 % 32 % 4 = c / 64 % 8 * 4 := by omega
  have hcol : c % 16 - c % 16 % 4 = c / 4 % 4 * 4 := by omega
  have hk4 : k / 4 % 4 = k / 4 := by omega
  simp only [clusterCore, coreDie, coreRow, coreCol, hdie, hrow, hcol, hk4]
  omega

theorem clusterCore_lt {c k : Nat} (hc : c < 2048) (hk : k < 16) : clusterCore c k < 2048 := by
  rw [clusterCore_eq hc hk]
  omega

theorem clusterCore_sameCluster {c k : Nat} (hc : c < 2048) (hk : k < 16) :
    clusterCore c k / 512 = c / 512 ∧ clusterCore c k / 64 % 8 = c / 64 % 8 ∧
    clusterCore c k / 4 % 4 = c / 4 % 4 := by
  obtain ⟨hd, hR, -, hC, -⟩ := core_parts (d := c / 512) (R := c / 64 % 8) (r := k / 4) (C := c / 4 % 4) (q := k % 4)
    (by omega) (by omega) (by omega) (by omega)
  rw [clusterCore_eq hc hk]
  exact ⟨hd, hR, hC⟩

theorem clusterCore_position {c k : Nat} (hc : c < 2048) (hk : k < 16) :
    4 * (clusterCore c k / 16 % 4) + clusterCore c k % 4 = k := by
  obtain ⟨-, -, hr, -, hq⟩ := core_parts (d := c / 512) (R := c / 64 % 8) (r := k / 4) (C := c / 4 % 4) (q := k % 4)
    (by omega) (by omega) (by omega) (by omega)
  rw [clusterCore_eq hc hk, hr, hq]
  omega

/-- A core lies at one position of its cluster. -/
theorem clusterCore_eq_self_iff {c k : Nat} (hc : c < 2048) (hk : k < 16) :
    clusterCore c k = c ↔ k = 4 * (c / 16 % 4) + c % 4 := by
  constructor
  · intro h
    have hpos := clusterCore_position hc hk
    rw [h] at hpos
    exact hpos.symm
  · rintro rfl
    have h4 : (4 * (c / 16 % 4) + c % 4) / 4 = c / 16 % 4 := by omega
    have h4' : (4 * (c / 16 % 4) + c % 4) % 4 = c % 4 := by omega
    have h16 : c / 16 = c / 4 / 4 := by omega
    have h64 : c / 64 = c / 4 / 4 / 4 := by omega
    have h512 : c / 512 = c / 4 / 4 / 4 / 8 := by omega
    rw [clusterCore_eq hc hk, h4, h4', h16, h64, h512]
    omega

theorem offsets_of_place {pa : Nat} (hc : s.cur < 2048) (hrow : s.cur / 16 % 32 < 20) (hpa : pa < 2 ^ 34)
    (h : memberPlace s t a = .ok (some pa)) :
    localOffset s t a = .ok (if pa / 2 ^ 23 = s.cur then some (pa % 2 ^ 23) else none) ∧
    clusterOffset s t a = .ok (if pa / 2 ^ 23 / 512 = s.cur / 512 ∧ pa / 2 ^ 23 / 64 % 8 = s.cur / 64 % 8 ∧
        pa / 2 ^ 23 / 4 % 4 = s.cur / 4 % 4 then
      some ((4 * (pa / 2 ^ 23 / 16 % 4) + pa / 2 ^ 23 % 4) * 2 ^ 23 + pa % 2 ^ 23) else none) := by
  constructor
  · rw [localOffset, h]
    rfl
  · have hslice : pa / 2 ^ 23 < 2048 := by omega
    simp only [clusterOffset, h, Except.map, ← clusterId_eq_iff hc hrow hslice, ← clusterPos_eq]
    rfl

theorem memberPlace_high (h : 2 ^ 56 ≤ a.toNat) : memberPlace s t a = .ok none := by
  have hw : wf 63 56 a ≠ 0 := by
    have := a.isLt
    simp only [wf, bits]
    omega
  rw [memberPlace, if_pos hw]

theorem wf_63_56_eq_zero (h : a.toNat < 2 ^ 56) : ¬ wf 63 56 a ≠ 0 := by
  simp only [wf, bits]
  omega

theorem memberPlace_upper (h55 : 2 ^ 55 ≤ a.toNat) (h56 : a.toNat < 2 ^ 56) :
    memberPlace s t a = .ok (aperturePa t.regs s.cur a) := by
  have hb : a.getLsbD 55 = true := by
    rw [getLsbD_55_iff]
    omega
  rw [memberPlace, if_neg (wf_63_56_eq_zero h56), if_pos hb]

theorem getLsbD_55_of_lt (h : a.toNat < 2 ^ 55) : ¬ a.getLsbD 55 = true := by
  rw [getLsbD_55_iff]
  omega

theorem memberPlace_noTables (h55 : a.toNat < 2 ^ 55) (htt : t.regs.ttbase.getLsbD 0 = false) :
    memberPlace s t a = .ok none := by
  rw [memberPlace, if_neg (wf_63_56_eq_zero (by omega)), if_neg (getLsbD_55_of_lt h55), htt, Bool.not_false, if_pos rfl]

theorem memberPlace_translated {e : TlbEnt} (h55 : a.toNat < 2 ^ 55) (htt : t.regs.ttbase.getLsbD 0 = true)
    (he : tlbFind s (cacheKey s.cur 1) (t.regs.asid.toNat % 2 ^ 16) a = some e) :
    memberPlace s t a = .ok (if e.dev = 0 && decide ((e.place a).pa < 2 ^ 34) then some (e.place a).pa else none) := by
  have hasid : wf 15 0 t.regs.asid = t.regs.asid.toNat % 2 ^ 16 := by simp [wf, bits]
  rw [memberPlace, if_neg (wf_63_56_eq_zero (by omega)), if_neg (getLsbD_55_of_lt h55), htt, Bool.not_true,
    if_neg Bool.false_ne_true, hasid, he]
  rfl

/-- R16: a physical address of SRAM holds the number of its slice above the offset in it. -/
theorem slice_offset {k o : Nat} (ho : o < 2 ^ 23) :
    (k * 2 ^ 23 + o) / 2 ^ 23 = k ∧ (k * 2 ^ 23 + o) % 2 ^ 23 = o := by
  constructor
  · omega
  · omega

theorem slice_lt {k o : Nat} (hk : k < 2048) (ho : o < 2 ^ 23) : k * 2 ^ 23 + o < 2 ^ 34 := by omega

/-- R10: an address in the LOCAL window lies in the own slice, at the offset from the window's base. -/
theorem offsets_local (hc : s.cur < 2048) (hrow : s.cur / 16 % 32 < 20) (hapl : t.regs.apl.getLsbD 0 = true)
    (hlo : (aplBase t.regs).toNat ≤ a.toNat) (hhi : a.toNat < (aplBase t.regs).toNat + 2 ^ 23) :
    localOffset s t a = .ok (some (a.toNat - (aplBase t.regs).toNat)) ∧
    clusterOffset s t a = .ok (some ((4 * (s.cur / 16 % 4) + s.cur % 4) * 2 ^ 23 +
      (a.toNat - (aplBase t.regs).toNat))) := by
  have hb := aplBase_toNat t.regs
  have h56 : a.toNat < 2 ^ 56 := by omega
  have hoff : a.toNat - (aplBase t.regs).toNat = a.toNat % 2 ^ 23 := by omega
  have hin : inLocal t.regs a = true := (inLocal_iff h56).mpr ⟨hapl, hlo, hhi⟩
  have hpa : memberPlace s t a = .ok (some (s.cur * 2 ^ 23 + a.toNat % 2 ^ 23)) := by
    rw [memberPlace_upper (by omega) h56, aperturePa, if_pos hin]
    simp [wf, bits]
  have ho23 : a.toNat % 2 ^ 23 < 2 ^ 23 := Nat.mod_lt _ (by decide)
  obtain ⟨hk, ho⟩ := slice_offset (k := s.cur) ho23
  have h := offsets_of_place hc hrow (slice_lt hc ho23) hpa
  rw [hk, ho, if_pos rfl, if_pos ⟨rfl, rfl, rfl⟩] at h
  rwa [hoff]

/-- R11: an address in the CLUSTER window and not in the LOCAL one lies in the slice that its offset names. -/
theorem offsets_cluster (hc : s.cur < 2048) (hrow : s.cur / 16 % 32 < 20) (hapc : t.regs.apc.getLsbD 0 = true)
    (hlo : (apcBase t.regs).toNat ≤ a.toNat) (hhi : a.toNat < (apcBase t.regs).toNat + 2 ^ 27)
    (hloc : ¬ (t.regs.apl.getLsbD 0 = true ∧ (aplBase t.regs).toNat ≤ a.toNat ∧
      a.toNat < (aplBase t.regs).toNat + 2 ^ 23)) :
    localOffset s t a = .ok (if (a.toNat - (apcBase t.regs).toNat) / 2 ^ 23 = 4 * (s.cur / 16 % 4) + s.cur % 4 then
      some ((a.toNat - (apcBase t.regs).toNat) % 2 ^ 23) else none) ∧
    clusterOffset s t a = .ok (some (a.toNat - (apcBase t.regs).toNat)) := by
  have hb := apcBase_toNat t.regs
  have h56 : a.toNat < 2 ^ 56 := by omega
  have hoff : a.toNat % 2 ^ 27 = a.toNat - (apcBase t.regs).toNat := by omega
  have hout : ¬ inLocal t.regs a = true := mt (inLocal_iff h56).mp hloc
  have hin : inCluster t.regs a = true := (inCluster_iff h56).mpr ⟨hapc, hlo, hhi⟩
  obtain ⟨o, ho⟩ : ∃ o, o = a.toNat - (apcBase t.regs).toNat := ⟨_, rfl⟩
  have ho27 : o < 2 ^ 27 := by omega
  rw [← ho] at hoff ⊢
  have hk16 : o / 2 ^ 23 < 16 := by omega
  have hpa : memberPlace s t a = .ok (some (clusterCore s.cur (o / 2 ^ 23) * 2 ^ 23 + o % 2 ^ 23)) := by
    have hw : wf 26 0 a = o := by
      rw [← hoff]
      simp [wf, bits]
    rw [memberPlace_upper (by omega) h56, aperturePa, if_neg hout, if_pos hin, hw, clusterPa,
      show (0x800000 : Nat) = 2 ^ 23 from rfl, Nat.mod_eq_of_lt hk16]
  have hlt := clusterCore_lt hc hk16
  have hown := clusterCore_eq_self_iff hc hk16
  have hpos := clusterCore_position hc hk16
  have hsame := clusterCore_sameCluster hc hk16
  generalize clusterCore s.cur (o / 2 ^ 23) = core at hlt hown hpos hsame hpa
  have ho23 : o % 2 ^ 23 < 2 ^ 23 := Nat.mod_lt _ (by decide)
  obtain ⟨hk, hm⟩ := slice_offset (k := core) ho23
  have hsplit : o / 2 ^ 23 * 2 ^ 23 + o % 2 ^ 23 = o := Nat.div_add_mod' o (2 ^ 23)
  have h := offsets_of_place hc hrow (slice_lt hlt ho23) hpa
  simp only [hk, hm, hown, if_pos hsame, hpos, hsplit] at h
  exact h

/-- An address whose translation is cached lies where the translation leads, when that is a slice of this device. -/
theorem offsets_translated {e : TlbEnt} (hc : s.cur < 2048) (hrow : s.cur / 16 % 32 < 20) (h55 : a.toNat < 2 ^ 55)
    (htt : t.regs.ttbase.getLsbD 0 = true)
    (he : tlbFind s (cacheKey s.cur 1) (t.regs.asid.toNat % 2 ^ 16) a = some e) :
    let pa := e.pa + a.toNat % 2 ^ e.log
    let k := pa / 2 ^ 23
    (e.dev ≠ 0 ∨ 2048 ≤ k → localOffset s t a = .ok none ∧ clusterOffset s t a = .ok none) ∧
    (e.dev = 0 → k < 2048 → localOffset s t a = .ok (if k = s.cur then some (pa % 2 ^ 23) else none) ∧
      clusterOffset s t a = .ok (if k / 512 = s.cur / 512 ∧ k / 64 % 8 = s.cur / 64 % 8 ∧ k / 4 % 4 = s.cur / 4 % 4 then
        some ((4 * (k / 16 % 4) + k % 4) * 2 ^ 23 + pa % 2 ^ 23) else none)) := by
  intro pa k
  have hm : memberPlace s t a = .ok (if e.dev = 0 && decide (pa < 2 ^ 34) then some pa else none) :=
    memberPlace_translated h55 htt he
  have hk : k < 2048 ↔ pa < 2 ^ 34 := by omega
  constructor
  · intro h
    refine offsets_of_noPlace (hm.trans (congrArg _ (if_neg ?_)))
    rw [Bool.and_eq_true, decide_eq_true_eq, decide_eq_true_eq, ← hk]
    omega
  · intro hdev hlt
    refine offsets_of_place hc hrow (hk.mp hlt) (hm.trans (congrArg _ (if_pos ?_)))
    rw [Bool.and_eq_true, decide_eq_true_eq, decide_eq_true_eq, ← hk]
    exact ⟨hdev, hlt⟩

end

/-! CVTA and APTEST -/

section
variable {h : MHdr} {s : State} {t : Thread} {rd ra : BitVec 5}

/-- A slot that gives one scalar result, which fits, puts it in flight and changes nothing else. -/
theorem runSlot_scalar {g : Guard} {f : Thread → Slot} {v : Word} {l : Nat} (hp : Performs s t g)
    (hf : Fits t (.sreg rd.toNat) l) (h : f t = putScalar s t rd v l) :
    runSlot g s f = .next (withScalar s t rd l v) := by
  obtain ⟨ht, hg⟩ := hp
  obtain ⟨hcol, -, hroom⟩ := hf
  exact runSlot_ok g s _ t f ht hg (h.trans (putScalar_ok s t rd v l hcol (hroom (by simp))))

/-- The same for one predicate result. -/
theorem runSlot_pred {g : Guard} {f : Thread → Slot} {pd : BitVec 3} {v : Bool} {l : Nat} (hp : Performs s t g)
    (hf : Fits t (.preg pd.toNat) l) (h : f t = putPred s t pd v l) :
    runSlot g s f = .next (withPred s t pd l v) := by
  obtain ⟨ht, hg⟩ := hp
  obtain ⟨hcol, -, hroom⟩ := hf
  exact runSlot_ok g s _ t f ht hg (h.trans (putPred_ok s t pd v l hcol hroom))

/-- R260: CVTA puts the converted address in flight. -/
theorem cvta_result {rl rc : Option Nat} (hp : Performs s t h.g) (hf : Fits t (.sreg rd.toNat) 2)
    (hl : localOffset s t (sreg t ra) = .ok rl) (hc : clusterOffset s t (sreg t ra) = .ok rc) :
    let no : Word := BitVec.allOnes 64
    let as (r : Option Nat) : Word := (r.map (BitVec.ofNat 64)).getD no
    let o := sreg t ra
    exec (.cvta h rd ra 0) s = .next (withScalar s t rd 2 (if o.toNat < 2 ^ 23 then aplBase t.regs + o else no)) ∧
    exec (.cvta h rd ra 1) s = .next (withScalar s t rd 2 (if o.toNat < 2 ^ 27 then apcBase t.regs + o else no)) ∧
    exec (.cvta h rd ra 2) s = .next (withScalar s t rd 2 (as rl)) ∧
    exec (.cvta h rd ra 3) s = .next (withScalar s t rd 2 (as rc)) := by
  intro no as o
  refine ⟨runSlot_scalar hp hf rfl, runSlot_scalar hp hf rfl, runSlot_scalar hp hf ?_, runSlot_scalar hp hf ?_⟩
  · show (localOffset s t (sreg t ra)).bind _ = _
    rw [hl]
    cases rl <;> rfl
  · show (clusterOffset s t (sreg t ra)).bind _ = _
    rw [hc]
    cases rc <;> rfl

/-- R260: APTEST puts in flight whether the address lies inside. -/
theorem aptest_result {pd : BitVec 3} {sp : Bool} {rl rc : Option Nat} (hp : Performs s t h.g)
    (hf : Fits t (.preg pd.toNat) 2) (hl : localOffset s t (sreg t ra) = .ok rl)
    (hc : clusterOffset s t (sreg t ra) = .ok rc) :
    exec (.aptest h pd ra sp) s = .next (withPred s t pd 2 (if sp then rc.isSome else rl.isSome)) := by
  cases sp with
  | false =>
    refine runSlot_pred hp hf ?_
    show (localOffset s t (sreg t ra)).bind _ = _
    rw [hl]
    rfl
  | true =>
    refine runSlot_pred hp hf ?_
    show (clusterOffset s t (sreg t ra)).bind _ = _
    rw [hc]
    rfl

end

/-- Settles O21: the windows' bases as numbers, and the place of an address by the range it lies in. -/
theorem addressTests : Obligations.AddressTests := by
  unfold Obligations.AddressTests
  constructor
  · intro h rd ra pd sp s t rl rc hp hs hpred hl hc no as
    obtain ⟨h0, h1, h2, h3⟩ := cvta_result hp hs hl hc
    exact ⟨h0, h1, h2, h3, aptest_result hp hpred hl hc⟩
  · intro s t a hc hrow n c own loc clu inLoc inClu member
    refine ⟨fun h => offsets_of_noPlace (memberPlace_high h), ?_, ?_, ?_, ?_, ?_⟩
    · rintro ⟨hapl, hlo, hhi⟩
      exact offsets_local hc hrow hapl hlo hhi
    · rintro ⟨hapc, hlo, hhi⟩ hloc
      exact offsets_cluster hc hrow hapc hlo hhi hloc
    · intro h55 h56 hloc hclu
      refine offsets_of_noPlace ((memberPlace_upper h55 h56).trans (congrArg _ ?_))
      rw [aperturePa, if_neg (mt (inLocal_iff h56).mp hloc), if_neg (mt (inCluster_iff h56).mp hclu)]
    · intro h55 htt
      exact offsets_of_noPlace (memberPlace_noTables h55 htt)
    · intro e h55 htt he
      exact offsets_translated hc hrow h55 htt he

end Sys2Proof.Machine

namespace Sys2Proof.Machine

/-! Walks that finish and TLBIs (O44) -/

/-! What a TLBI leaves as it was: the probe caches' part of it (R30, R60) -/

/-- Memory, the translation caches and the walks are the same, and so are the TLBIs but for what they wait for. -/
structure SameTranslations (s s' : State) : Prop where
  mem : s'.mem = s.mem
  tlbs : s'.tlbs = s.tlbs
  walks : s'.walks = s.walks
  tlbis : s'.tlbis.map (fun b => (b.id, b.effective)) = s.tlbis.map (fun b => (b.id, b.effective))

theorem SameTranslations.refl (s : State) : SameTranslations s s := ⟨rfl, rfl, rfl, rfl⟩

theorem SameTranslations.trans {s s' s'' : State} (h : SameTranslations s s') (h' : SameTranslations s' s'') :
    SameTranslations s s'' :=
  ⟨h'.mem.trans h.mem, h'.tlbs.trans h.tlbs, h'.walks.trans h.walks, h'.tlbis.trans h.tlbis⟩

theorem sameTranslations_foldl {α : Type} {f : State → α → State} (h : ∀ s a, SameTranslations s (f s a)) (l : List α)
    (s : State) : SameTranslations s (l.foldl f s) :=
  foldl_keeps (SameTranslations s) f (fun _ a hs => hs.trans (h _ a)) l s (.refl s)

theorem sameTranslations_setSlot (s : State) (c j : Nat) (x : PSlot) : SameTranslations s (setSlot s c j x) :=
  ⟨rfl, rfl, rfl, rfl⟩

theorem sameTranslations_dropSlot (s : State) (c j : Nat) : SameTranslations s (dropSlot s c j).2 := by
  unfold dropSlot
  extract_lets x
  split
  · exact sameTranslations_setSlot ..
  · exact sameTranslations_setSlot ..
  · exact sameTranslations_setSlot ..

theorem sameTranslations_probeTlbi (s : State) (form asid : Nat) (va : Word) :
    SameTranslations s (probeTlbi s form asid va).2 :=
  foldl_keeps (fun r : List (Nat × Nat) × State => SameTranslations s r.2) _
    (fun _ _ hr => hr.trans (sameTranslations_dropSlot ..)) _ _ (.refl s)

theorem sameTranslations_schedule (s : State) (d : Nat) (e : Instr) : SameTranslations s (schedule s d e) :=
  ⟨schedule_mem .., schedule_tlbs .., schedule_walks .., by rw [schedule_tlbis]⟩

theorem sameTranslations_queueProbe (s : State) (c : Nat) (o : POp) : SameTranslations s (queueProbe s c o) := by
  unfold queueProbe startProbe
  refine .trans ?_ (sameTranslations_schedule ..)
  split
  · exact ⟨rfl, rfl, rfl, rfl⟩
  · exact ⟨rfl, rfl, rfl, rfl⟩

theorem sameTranslations_queueDropped (s : State) (c j : Nat) : SameTranslations s (queueDropped s c j) := by
  unfold queueDropped
  extract_lets x o s1 n
  have h1 : SameTranslations s s1 := (sameTranslations_queueProbe ..).trans (sameTranslations_setSlot ..)
  refine h1.trans ⟨rfl, rfl, rfl, ?_⟩
  rw [List.map_map]
  rfl

theorem sameTranslations_fillRoom (n : Nat) (s : State) (c : Nat) : SameTranslations s (fillRoom n s c) := by
  induction n generalizing s with
  | zero => exact .refl s
  | succ n ih =>
    unfold fillRoom
    extract_lets p
    split
    · exact .refl s
    · split
      · exact (sameTranslations_queueDropped ..).trans (ih _)
      · exact .refl s

theorem sameTranslations_fillRooms (s : State) : SameTranslations s (fillRooms s) :=
  sameTranslations_foldl (fun s c => sameTranslations_fillRoom 32 s c) _ s

/-- A TLBI that has taken effect keeps its number and its effect. -/
theorem SameTranslations.effective {s s' : State} {k : Nat} (h : SameTranslations s s')
    (hb : ∃ b ∈ s.tlbis, b.id = k ∧ b.effective = true) : ∃ b ∈ s'.tlbis, b.id = k ∧ b.effective = true := by
  obtain ⟨b, hmem, hid, heff⟩ := hb
  have hpair : (b.id, b.effective) ∈ s'.tlbis.map (fun b => (b.id, b.effective)) := by
    rw [h.tlbis]
    exact List.mem_map_of_mem hmem
  obtain ⟨b', hmem', heq⟩ := List.mem_map.mp hpair
  obtain ⟨hid', heff'⟩ := Prod.mk.inj heq
  exact ⟨b', hmem', hid'.trans hid, heff'.trans heff⟩

/-! Invalidation (R28, R29) -/

theorem tlbiHits_of_mem_invalidate {s : State} {form asid : Nat} {va : Word} {kv : Nat × List TlbEnt} {e : TlbEnt}
    (hkv : kv ∈ (invalidate s form asid va).tlbs) (he : e ∈ kv.2) : tlbiHits form asid va e = false := by
  obtain ⟨kv', -, rfl⟩ := List.mem_map.mp hkv
  simpa using (List.mem_filter.mp he).2

theorem stale_of_mem_invalidate {s : State} {form asid : Nat} {va : Word} {kv : Nat × Walk}
    (hkv : kv ∈ (invalidate s form asid va).walks) : kv.2.stale = true := by
  obtain ⟨kv', -, rfl⟩ := List.mem_map.mp hkv
  rfl

/-- A TLBI that waits for nothing takes effect (R28 to R30). -/
theorem tlbiTakesEffect_ok {k : Nat} {s : State} {b : Tlbi} (hb : s.tlbis.find? (fun b => b.id == k) = some b)
    (hw : ∀ w ∈ b.waits, retired s w = true) (hf : b.frame = none) :
    ∃ s', exec (.tlbiTakesEffect k) s = .next s' ∧ s'.mem = s.mem ∧
      (∀ kv ∈ s'.tlbs, ∀ e ∈ kv.2, tlbiHits b.form b.asid b.va e = false) ∧ (∀ kv ∈ s'.walks, kv.2.stale = true) ∧
      (∃ b' ∈ s'.tlbis, b'.id = k ∧ b'.effective = true) := by
  have hid : b.id = k := by simpa using List.find?_some hb
  have hwait : ¬ b.waits.any (fun w => !retired s w) = true := by simpa using hw
  have hprobe := sameTranslations_probeTlbi (invalidate s b.form b.asid b.va) b.form b.asid b.va
  rcases hp : probeTlbi (invalidate s b.form b.asid b.va) b.form b.asid b.va with ⟨slots, s1⟩
  rw [hp] at hprobe
  obtain ⟨s2, hs2⟩ : ∃ s2, s2 = { s1 with tlbis := modWhere (fun x => x.id == k) (fun x =>
    { x with effective := true, waits := tlbiCovers s b.form b.asid b.va ++ slots }) s1.tlbis } := ⟨_, rfl⟩
  have hrooms := sameTranslations_fillRooms s2
  have hexec : exec (.tlbiTakesEffect k) s = .next (fillRooms s2) := by
    show execTlbiTakesEffect k s = _
    simp only [execTlbiTakesEffect, hb, if_neg hwait, hp, hf, hs2]
  refine ⟨_, hexec, ?_, ?_, ?_, hrooms.effective ?_⟩
  · rw [hrooms.mem, hs2]
    exact hprobe.mem
  · rw [hrooms.tlbs, hs2]
    intro kv hkv e he
    exact tlbiHits_of_mem_invalidate (hprobe.tlbs ▸ hkv) he
  · rw [hrooms.walks, hs2]
    intro kv hkv
    exact stale_of_mem_invalidate (hprobe.walks ▸ hkv)
  · have hmem : (b.id, b.effective) ∈ s1.tlbis.map (fun b => (b.id, b.effective)) := by
      rw [hprobe.tlbis]
      exact List.mem_map_of_mem (List.mem_of_find?_eq_some hb)
    obtain ⟨b1, hb1, heq⟩ := List.mem_map.mp hmem
    have hid1 : b1.id = k := (Prod.mk.inj heq).1.trans hid
    rw [hs2]
    refine ⟨_, List.mem_map_of_mem hb1, ?_⟩
    simp [hid1]

/-! Walks (R20, R23, R27, R29) -/

/-- A walk that a core's cache does not wait for already begins, under the next number. -/
theorem startWalk_new {s : State} {c cache ctx : Nat} {va : Word} {regs : JobRegs} (h : ∀ x ∈ s.walks, x.2.core ≠ c) :
    (startWalk s c cache ctx va regs).tlbs = s.tlbs ∧ (startWalk s c cache ctx va regs).mem = s.mem ∧
    mget s.stamp (startWalk s c cache ctx va regs).walks = some ⟨cache, c, ctx, va, regs, s.now, false⟩ := by
  have hnew : ¬ s.walks.any (fun w => w.2.core == c && w.2.cache == cache && w.2.va == va && w.2.ctx == ctx) = true := by
    rw [List.any_eq_true]
    rintro ⟨x, hx, hhit⟩
    simp only [Bool.and_eq_true, beq_iff_eq] at hhit
    exact h x hx hhit.1.1.1
  rw [startWalk, if_neg hnew]
  refine ⟨schedule_tlbs .., schedule_mem .., ?_⟩
  rw [schedule_walks]
  exact mget_mput_same ..

theorem pageTableWalkComplete_installs {k : Nat} {s s1 : State} {w : Walk} {e : TlbEnt}
    (hw : mget k s.walks = some w) (hstale : w.stale = false) (hctx : w.ctx ≠ walkFetch) :
    let held := if w.regs.ttbase.getLsbD 0 then tlbFind s (clusterKey w.core) (wf 15 0 w.regs.asid) w.va else none
    (held = some e ∧ s1 = { s with walks := mdel k s.walks }) ∨
      (held = none ∧ walkTables { s with walks := mdel k s.walks } w.core w.regs w.va = (.ok e, s1)) →
    exec (.pageTableWalkComplete k) s = .next (tlbInstall s1 w.core w.cache e) := by
  intro held h
  show execPageTableWalkComplete k s = _
  have hheld : (if w.regs.ttbase.getLsbD 0 then
      tlbFind { s with walks := mdel k s.walks } (clusterKey w.core) (wf 15 0 w.regs.asid) w.va else none) = held := rfl
  rw [execPageTableWalkComplete, hw]
  dsimp only
  rw [hheld, hstale]
  obtain ⟨hsome, rfl⟩ | ⟨hnone, htables⟩ := h
  · rw [hsome]
    simp [hctx]
  · rw [hnone]
    simp [htables, hctx]

/-! The queue of control-register space (R32, R33) -/

theorem queueTlbi_waits {s : State} {form asid : Nat} (hlen : s.tlbiq.cmds.length < 8) (hne : s.tlbiq.cmds ≠ []) :
    queueTlbi s form asid = { s with tlbiq := { s.tlbiq with cmds := s.tlbiq.cmds ++ [(form, asid, s.tlbiq.va)] } } := by
  rw [queueTlbi, if_neg (Nat.not_le.mpr hlen)]
  exact if_neg (by simpa using hne)

theorem queueTlbi_full {s : State} {form asid : Nat} (hlen : 8 ≤ s.tlbiq.cmds.length) :
    queueTlbi s form asid = { s with tlbiq := { s.tlbiq with ovf := true } } :=
  if_pos hlen

/-- The first command of the queue begins at once. -/
theorem queueTlbi_begins {s : State} {form asid : Nat} (h : s.tlbiq.cmds = []) :
    ∃ b, (queueTlbi s form asid).tlbiq.cmds = [(form, asid, s.tlbiq.va)] ∧
      (queueTlbi s form asid).tlbis = s.tlbis ++ [b] ∧ b.form = form ∧ b.asid = asid ∧ b.va = s.tlbiq.va ∧
      b.effective = false := by
  have hq : queueTlbi s form asid =
      startQueued { s with tlbiq := { s.tlbiq with cmds := [(form, asid, s.tlbiq.va)] } } := by
    simp [queueTlbi, h]
  refine ⟨⟨s.stamp, form, asid, s.tlbiq.va, none, false, []⟩, ?_, ?_, rfl, rfl, rfl, rfl⟩
  · rw [hq]
    simp [startQueued, startTlbi]
  · rw [hq]
    simp [startQueued, startTlbi, takeStamp]

theorem tlbiCommandComplete_last {s : State} {x : Nat × Nat × Word}
    (hdone : ∀ b ∈ s.tlbis, b.frame = none → tlbiDone s b.id = true) (hq : s.tlbiq.cmds = [x]) :
    exec .tlbiCommandComplete s = .next { s with
      tlbis := s.tlbis.filter (fun b => b.frame.isSome), tlbiq := { s.tlbiq with cmds := [] } } := by
  show execTlbiCommandComplete s = _
  have hnone : ¬ (s.tlbis.filter (fun b => b.frame.isNone)).any (fun b => !tlbiDone s b.id) = true := by
    simpa using hdone
  simp only [execTlbiCommandComplete, if_neg hnone, hq, List.drop_one, List.tail_cons, startQueued]

/-- Settles O44: each event by what its function does, and the probe caches' part of a TLBI by what it leaves alone. -/
theorem walksAndInvalidation : Obligations.WalksAndInvalidation := by
  unfold Obligations.WalksAndInvalidation
  refine ⟨?_, ?_, ?_, ?_, ?_, ?_⟩
  · intro k s w e s1 hw hstale hctx
    exact pageTableWalkComplete_installs hw hstale hctx
  · intro k s w hw hstale hnew
    refine ⟨startWalk { s with walks := mdel k s.walks } w.core w.cache w.ctx w.va w.regs, ?_, startWalk_new hnew⟩
    show execPageTableWalkComplete k s = _
    simp only [execPageTableWalkComplete, hw, hstale, if_true]
  · intro k s w hw hnew
    refine ⟨startWalk { s with walks := mdel k s.walks } w.core w.cache w.ctx w.va w.regs, ?_, startWalk_new hnew⟩
    show execMigratingRewalk k s = _
    simp only [execMigratingRewalk, hw]
  · intro k s b hb hw hf
    exact tlbiTakesEffect_ok hb hw hf
  · intro asid s
    refine ⟨fun hlen hne => ⟨?_, ?_, ?_⟩, fun h => ?_, fun hlen => ?_⟩
    · exact congrArg Host.Outcome.next (queueTlbi_waits hlen hne)
    · exact congrArg Host.Outcome.next (queueTlbi_waits hlen hne)
    · exact congrArg Host.Outcome.next (queueTlbi_waits hlen hne)
    · obtain ⟨b, hb⟩ := queueTlbi_begins (form := 1) (asid := asid.toNat) h
      exact ⟨_, b, rfl, hb⟩
    · exact congrArg Host.Outcome.next (queueTlbi_full hlen)
  · intro s x hdone hq
    exact tlbiCommandComplete_last hdone hq

end Sys2Proof.Machine

namespace Sys2Proof.Machine

/-! The state after reset and the stops (O60) -/

theorem perform_stopped {ex : Instr → State → Out} {s : State} (hboot : s.plat.boot = 3) (hm : managementNext s = false) :
    perform ex s = .fault .clocksStopped := by
  rw [perform, hboot, hm]
  rfl

theorem perform_quokor {ex : Instr → State → Out} {s : State} {h : Nat} {r : List Todo} (hboot : s.plat.boot ≠ 3)
    (htodo : s.todo = .quokor h :: r) : perform ex s = quokorNext ex { s with todo := r } h := by
  rw [perform, if_neg (by simp [hboot]), htodo]

/-- R384, R385: a word that is neither QENQ's, QFENCE's nor their opcode's is performed as RV64GC's. -/
theorem quokorNext_rv64 {ex : Instr → State → Out} {s : State} {h : Nat} {k : Hart} (hk : s.harts.toList[h]? = some k)
    (hdec : decodeQuokor k.word.toNat = none) (hop : k.word.toNat % 128 ≠ 0x0B) :
    quokorNext ex s h = .next (hartStep s h k) := by
  simp only [quokorNext, hk, hdec, if_neg hop]

/-- Settles O60: the reset state by its definition, and a step by what it does with the clocks stopped and with a
control core's word. -/
theorem resetAndStops : Obligations.ResetAndStops := by
  unfold Obligations.ResetAndStops
  refine ⟨⟨rfl, rfl, rfl, rfl, rfl, fun _ => rfl, fun _ => ⟨rfl, rfl⟩, fun d => ?_, rfl, rfl, fun _ => rfl,
    rfl, rfl, rfl, rfl, rfl⟩, ?_, ?_⟩
  · have hdie : dieOf State.reset d = Die.reset := by
      unfold dieOf
      split
      · exact Vector.getElem_replicate ..
      · rfl
    rw [hdie]
    exact ⟨rfl, rfl, rfl⟩
  · intro s hboot hm
    exact perform_stopped hboot hm
  · intro s h k r hboot htodo hk hdec hop
    exact (perform_quokor hboot htodo).trans (quokorNext_rv64 hk hdec hop)

end Sys2Proof.Machine

namespace Sys2Proof.Machine

/-! Schedule faults (O6) -/

/-- Taking an exception in a thread that is neither a handler nor a replay, at the bundle at its PC (R335 step 1). -/
theorem takeException_eq {s : State} {c : Nat} {t : Thread} {f : FaultRec} (ht : threadOf s c = some t)
    (hh : t.handler = false) (hr : t.replay = false) :
    takeException s c f none =
      setThread { s with walkFails := s.walkFails.filter (fun w => w.core ≠ c || 3 ≤ w.cache) } c
        { t with phase := .saving true s.now, posFault := some { f with cycle := s.now }, attn := some (.fault f) } := by
  simp [takeException, ht, hh, hr]

/-- R171: COLLIDE comes before INFLIGHT, and each keeps the result from going into flight. -/
theorem putScalar_schedFault {s : State} {t : Thread} {rd : BitVec 5} {v : Word} {l cause : Nat}
    (h : cause = 5 ∧ collides t (.sreg rd.toNat) (t.x.dc + l) = true ∨
      cause = 6 ∧ collides t (.sreg rd.toNat) (t.x.dc + l) = false ∧ 64 ≤ inFlight t) :
    putScalar s t rd v l = .error (schedFault cause) := by
  rcases h with ⟨rfl, hcol⟩ | ⟨rfl, hcol, hfull⟩
  · simp [putScalar, addScalar, addResult, checkWrite, hcol, Except.map]
  · simp [putScalar, addScalar, addResult, checkWrite, hcol, tileRead, hfull, Except.map]

/-- Settles O6: the slot meets a schedule fault, and the exception is taken with the thread's position as it was. -/
theorem scheduleFaultPrecise : Obligations.ScheduleFaultPrecise := by
  unfold Obligations.ScheduleFaultPrecise
  rintro g rd ra rb s t cause ⟨ht, hg⟩ hh hr hcause
  have hfault : exec (.add g rd ra rb) s = .next (takeException s s.cur { cls := 0x01, cause := cause } none) :=
    runSlot_error g s t (fun t => putScalar s t rd (sreg t ra + sreg t rb) 1) (schedFault cause) ht hg
      (putScalar_schedFault hcause)
  rw [takeException_eq ht hh hr] at hfault
  exact ⟨_, _, hfault, threadOf_setThread .., rfl, rfl, rfl, rfl, rfl, rfl, fun _ => rfl, rfl, rfl⟩

end Sys2Proof.Machine

namespace Sys2Proof.Machine

/-! A packet without a key, and a router that lists a packet twice (O55) -/

/-! What an event's entry leaves as it was: the router -/

/-- A fold whose passes leave the router as it was leaves it as it was. -/
theorem router_foldl {α : Type} {f : State → α → State} (h : ∀ s a, (f s a).router = s.router) (l : List α) (s : State) :
    (l.foldl f s).router = s.router :=
  foldl_keeps (fun x => x.router = s.router) f (fun _ _ hx => (h _ _).trans hx) l s rfl

theorem router_evalWatches (s : State) (pa n : Nat) : (evalWatches s pa n).router = s.router := by
  unfold evalWatches
  refine router_foldl (fun s ck => ?_) _ s
  dsimp only
  split
  · rfl
  · split
    · refine router_foldl (fun s w => ?_) _ s
      split
      · exact modThread_router ..
      · rfl
    · rfl

theorem router_sramEffects (s : State) (pa n : Nat) : (sramEffects s pa n).router = s.router := by
  unfold sramEffects dirtySlots
  dsimp only
  split
  · exact router_evalWatches ..
  · exact router_evalWatches ..

theorem router_storeNow (s : State) (pa : Nat) (bs : List Byte) : (storeNow s pa bs).router = s.router := by
  unfold storeNow
  split
  · exact router_sramEffects ..
  · dsimp only
    repeat' split
    all_goals rfl
  · rfl

theorem router_storeUnits (s : State) (pa : Nat) (bs : List Byte) : (storeUnits s pa bs).router = s.router := by
  unfold storeUnits
  split
  · rfl
  · exact router_storeNow ..

theorem router_linkEvent (s : State) (cls cause qw6 qw7 : Nat) : (linkEvent s cls cause qw6 qw7).router = s.router := by
  unfold linkEvent logEvent
  rcases fqEvent_cases s 0 _ with ⟨-, h⟩ | ⟨-, h⟩
  · rw [h, fqWrite, modDie_router, router_storeUnits]
  · rw [h, modDie_router]

/-! The packets of the router -/

theorem router_routeAgain (s : State) (id : Nat) : (routeAgain s id).router = s.router := by
  unfold routeAgain
  split
  · rfl
  · exact schedule_router ..

theorem packets_injectPacket (s : State) (p : Packet) (cls : Nat) :
    ∃ h, (injectPacket s p cls).router.packets = mput s.router.nextId h s.router.packets := by
  unfold injectPacket
  exact ⟨_, by rw [router_routeAgain]; rfl⟩

/-- A packet of this device takes no room in a receive buffer. -/
theorem router_dropHeld (s : State) (id : Nat) {h : Held} (hin : h.inPort = 44) :
    (dropHeld s id h).router = { s.router with packets := mdel id s.router.packets } := by
  rw [dropHeld, freeFlits, hin, if_pos (le_refl 44)]
  rfl

/-- R375: a request of a job without a key leaves the router, and its answer enters it. -/
theorem packets_noKey (s : State) (id : Nat) {h : Held} (hin : h.inPort = 44) (hcls : h.cls < 2) :
    ∃ x, (noKey s id h).router.packets = mput s.router.nextId x (mdel id s.router.packets) := by
  rw [noKey, if_neg (by omega)]
  obtain ⟨x, hx⟩ := packets_injectPacket (linkEvent (dropHeld s id h) 0x2B 0 h.inPort h.pkt.job.toNat)
    { answer h.pkt 0x14 5 [] with job := 0 } 2
  rw [router_linkEvent, router_dropHeld s id hin] at hx
  exact ⟨x, hx⟩

theorem packetRoute_noKey {s : State} {id : Nat} {h : Held} (hid : mget id s.router.packets = some h)
    (hkind : kindOk h.pkt.kind.toNat = true) (hcls : h.cls < 2) (hkey : keySlot s h.pkt.job = none)
    (hinst : s.router.installing ≠ some h.pkt.job.toNat) : exec (.packetRoute id) s = .next (noKey s id h) := by
  have hreq : decide (2 ≤ h.cls) = false := by simpa using hcls
  show execPacketRoute id s = _
  simp [execPacketRoute, hid, hkind, hreq, hkey, hinst]

/-- A request of job 0 of this device. -/
def keylessHeld : Held := ⟨{ blankPacket with kind := 1 }, 44, 0, 0, 0, 0, none⟩

/-- A router without keys whose list of packets holds one number twice. -/
def twiceListed : State :=
  { State.reset with router := { Router.reset with packets := [(0, keylessHeld), (0, keylessHeld)], nextId := 1 } }

/-- Refutes O55: the clause on a request without a key has it that afterwards the router holds no packet of that number. The
statement is about every state, also one whose list of packets holds the number twice; the packet's removal takes one
entry away and leaves the other. -/
theorem not_fabricSource : ¬ Obligations.FabricSource := by
  unfold Obligations.FabricSource
  rintro ⟨-, -, -, -, hroute, -⟩
  obtain ⟨-, -, -, hkeyless, -⟩ := hroute 0 twiceListed keylessHeld rfl rfl
  obtain ⟨s', -, hnext, hgone, -⟩ := hkeyless rfl (by decide) rfl (by rintro ⟨⟩) (by decide)
  rw [packetRoute_noKey rfl rfl (by decide) rfl (by rintro ⟨⟩)] at hnext
  obtain ⟨x, hx⟩ := packets_noKey twiceListed 0 (h := keylessHeld) rfl (by decide)
  rw [← Host.Outcome.next.inj hnext, hx] at hgone
  exact Option.some_ne_none keylessHeld hgone

end Sys2Proof.Machine

namespace Sys2Proof.Machine

/-! What a core's change leaves of it, and the thread of a core -/

theorem coreOf_of_cores {s s' : State} (h : s'.cores = s.cores) (c : Nat) : coreOf s' c = coreOf s c := by
  rw [coreOf, h, coreOf]

theorem threadOf_of_cores {s s' : State} (h : s'.cores = s.cores) (c : Nat) : threadOf s' c = threadOf s c :=
  congrArg Core.thread (coreOf_of_cores h c)

/-- What a change of one core keeps of it, it keeps of every core. -/
theorem coreOf_modCore_keeps {α : Type} (π : Core → α) {f : Core → Core} (hf : ∀ k, π (f k) = π k) (s : State) (h c : Nat) :
    π (coreOf (modCore s h f) c) = π (coreOf s c) := by
  by_cases hc : c = h
  · rw [hc, modCore, coreOf_setCore, hf]
  · rw [modCore, coreOf_setCore_other _ _ _ _ hc]

theorem threadOf_modSlice (s : State) (h : Nat) (f : Slice → Slice) (c : Nat) : threadOf (modSlice s h f) c = threadOf s c :=
  coreOf_modCore_keeps Core.thread (f := fun k => { k with slice := f k.slice }) (fun _ => rfl) s h c

theorem modThread_some {s : State} {c : Nat} {t : Thread} (ht : threadOf s c = some t) (f : Thread → Thread) :
    modThread s c f = setThread s c (f t) := by
  rw [modThread_eq, ht]

/-! A scalar load that lands (R42, R44, R251) -/

/-- R251: the low bytes of a value, zero- or sign-extended, as an integer. -/
theorem extend_eq_ofInt (w : Nat) (sg : Bool) (n : Nat) : extend w sg n = BitVec.ofInt 64
    (if sg = true ∧ 2 ^ (8 * w - 1) ≤ n % 2 ^ (8 * w) then ((n % 2 ^ (8 * w) : Nat) : Int) - 2 ^ (8 * w)
      else ((n % 2 ^ (8 * w) : Nat) : Int)) := by
  by_cases hneg : sg = true ∧ 2 ^ (8 * w - 1) ≤ n % 2 ^ (8 * w)
  · have hcast : (2 : Int) ^ (8 * w) = ((2 ^ (8 * w) : Nat) : Int) := by push_cast; rfl
    rw [if_pos hneg, extend, if_pos (by simpa using hneg)]
    refine (eq_sub_of_add_eq ?_).symm
    rw [hcast, ← BitVec.ofInt_natCast, ← BitVec.ofInt_natCast, ← BitVec.ofInt_add, sub_add_cancel]
  · rw [if_neg hneg, BitVec.ofInt_natCast, extend, if_neg (by simpa using hneg)]

/-- The thread whose load to register r has landed with value v: the request is gone. -/
def loadLanded (t : Thread) (r : Fin 32) (v : Word) (id : Nat) : Thread :=
  { t with r := { t.r with s := t.r.s.set r.val v }, reqs := t.reqs.filter (fun x => decide (x.id ≠ id)) }

theorem loadLanded_loadLanded (t : Thread) (r : Fin 32) (v : Word) (id : Nat) :
    loadLanded (loadLanded t r v id) r v id = loadLanded t r v id := by
  simp [loadLanded, List.filter_filter]

theorem loadLanded_s_same (t : Thread) (r : Fin 32) (v : Word) (id : Nat) : (loadLanded t r v id).r.s[r] = v := by
  simp [loadLanded]

theorem loadLanded_s_other (t : Thread) (r k : Fin 32) (v : Word) (id : Nat) (hk : k ≠ r) :
    (loadLanded t r v id).r.s[k] = t.r.s[k] := by
  have hval : r.val ≠ k.val := fun h => hk (Fin.ext h.symm)
  simp [loadLanded, Vector.getElem_set_ne _ _ hval]

theorem landReq_load {t : Thread} {q : Req} {p : Part} {w : Nat} {sg : Bool} {r : Fin 32} (hkind : q.kind = .load w sg)
    (hdest : q.dest = .sreg r.val) (hfault : q.fault = none) (hparts : q.parts = [p]) :
    landReq t q = { t with r := { t.r with s := t.r.s.set r.val (extend w sg p.data.toNat) } } := by
  have hv : reqScalar q = extend w sg p.data.toNat := by simp [reqScalar, hkind, hparts]
  have hrow (v : Word) : BitVec.ofNat 64 (rowOf v).toNat = v := by
    rw [rowOf, BitVec.toNat_setWidth_of_le (by decide), BitVec.ofNat_toNat, BitVec.setWidth_eq]
  have hno : noWrite q = false := by simp [noWrite, hfault]
  rw [landReq, hno, hkind, hdest]
  simp [writeDest, hrow, hv]

end Sys2Proof.Machine

namespace Sys2Proof.Machine

/-! A load is performed when its data arrives (O18) -/

/-! Reading sound bytes of SRAM (R17, R47) -/

/-- An access that lies in one 64 KiB frame meets an error only where its first byte does. -/
theorem spanError_sram {s : State} {pa n core off : Nat} (hn : 0 < n) (hframe : pa % 65536 + n ≤ 65536)
    (ht : targetOf s pa = .sram core off) : spanError s pa n = none := by
  have hone : (pa + n - 1) / 65536 - pa / 65536 + 1 = 1 := by omega
  have hfirst : max pa (pa / 65536 * 65536) = pa := by omega
  simp [spanError, hone, hfirst, ht]

theorem length_memBytes (m : List Host.Cell) (a n : Nat) : (memBytes m a n).length = n := by
  induction n generalizing a with
  | zero => rfl
  | succ n ih => simp [memBytes, ih]

theorem drop_memBytes (m : List Host.Cell) (a n k : Nat) : (memBytes m a (k + n)).drop k = memBytes m (a + k) n := by
  induction k generalizing a with
  | zero => simp
  | succ k ih =>
    rw [show k + 1 + n = k + n + 1 by omega, memBytes, List.drop_succ_cons, ih, show a + 1 + k = a + (k + 1) by omega]

theorem take_memBytes (m : List Host.Cell) (a n k : Nat) : (memBytes m a (k + n)).take k = memBytes m a k := by
  induction k generalizing a with
  | zero => rfl
  | succ k ih => rw [show k + 1 + n = k + n + 1 by omega, memBytes, List.take_succ_cons, ih, memBytes]

/-- R47: bytes within one sound word of SRAM are read as memory holds them. -/
theorem readPa_soundWord {s : State} {p : Part} (h : SoundWord s p) (w : Who) (ga : Word) :
    readPa s w p.pa p.len ga = (⟨memBytes s.mem p.pa p.len, none⟩, s) := by
  obtain ⟨hsram, htarget, hword, hlen, herr⟩ := h
  have hwords : (p.pa + p.len + 31) / 32 - p.pa / 32 = 1 := by omega
  obtain ⟨k, hk⟩ : ∃ k, k = p.pa % 32 := ⟨_, rfl⟩
  obtain ⟨r, hr⟩ : ∃ r, 32 = k + (p.len + r) := ⟨32 - k - p.len, by omega⟩
  have hstart : 32 * (p.pa / 32) + k = p.pa := by omega
  have hoff : p.pa - 32 * (p.pa / 32) = k := by omega
  have hbytes : ((memBytes s.mem (32 * (p.pa / 32)) 32).drop k).take p.len = memBytes s.mem p.pa p.len := by
    rw [show memBytes s.mem (32 * (p.pa / 32)) 32 = memBytes s.mem (32 * (p.pa / 32)) (k + (p.len + r)) from
      congrArg _ hr, drop_memBytes, hstart, take_memBytes]
  rw [readPa, spanError_sram hlen (by omega) htarget]
  simp [hsram, hwords, sramWords, readSramWord, herr, hoff, hbytes]

theorem leNat_lt (bs : List Byte) : leNat bs < 2 ^ (8 * bs.length) := by
  induction bs with
  | nil => simp [leNat]
  | cons b r ih =>
    have hb := b.isLt
    rw [leNat, List.length_cons, show 8 * (r.length + 1) = 8 * r.length + 8 by omega, pow_add]
    omega

/-- A row takes up to 256 bytes whole. -/
theorem toNat_bytesRow {bs : List Byte} (h : bs.length ≤ 256) : (bytesRow bs).toNat = leNat bs := by
  obtain ⟨n, hn⟩ : ∃ n, n = 2048 := ⟨_, rfl⟩
  have hlt : leNat bs < 2 ^ n := (leNat_lt bs).trans_le (Nat.pow_le_pow_right Nat.two_pos (by omega))
  rw [bytesRow, BitVec.toNat_ofNat, ← hn, Nat.mod_eq_of_lt hlt]

/-! The request at the core -/

theorem find_onlyReq {t : Thread} {q : Req} (h : OnlyReq t q) : t.reqs.find? (fun x => x.id == q.id) = some q := by
  obtain ⟨hmem, honly⟩ := h
  obtain ⟨x, hx⟩ := Option.isSome_iff_exists.mp (List.find?_isSome (p := fun x => x.id == q.id).mpr ⟨q, hmem, by simp⟩)
  rw [hx, honly x (List.mem_of_find?_eq_some hx) (by simpa using List.find?_some hx)]

theorem reqOf_onlyReq {s : State} {c : Nat} {t : Thread} {q : Req} (ht : threadOf s c = some t) (h : OnlyReq t q) :
    reqOf s c q.id = some q := by
  rw [reqOf, ht]
  exact find_onlyReq h

/-- A change that keeps a request's number changes it where it stands alone. -/
theorem reqOf_modReq {s : State} {c : Nat} {t : Thread} {q : Req} {f : Req → Req} (ht : threadOf s c = some t)
    (h : OnlyReq t q) (hf : ∀ x, (f x).id = x.id) : reqOf (modReq s c q.id f) c q.id = some (f q) := by
  have hp : (fun x : Req => x.id == q.id) ∘ (fun x => if x.id = q.id then f x else x) = fun x => x.id == q.id := by
    funext x
    by_cases hx : x.id = q.id
    · simp [hx, hf]
    · simp [hx]
  rw [modReq, modThread_some ht, reqOf, threadOf_setThread, Option.bind_some, List.find?_map, hp, find_onlyReq h,
    Option.map_some, if_pos rfl]

/-- A request that changes under its number is forgotten as it would have been. -/
theorem filter_map_id (l : List Req) (id : Nat) {f : Req → Req} (hf : ∀ x, (f x).id = x.id) :
    (l.map (fun x => if x.id = id then f x else x)).filter (fun x => decide (x.id ≠ id)) =
      l.filter (fun x => decide (x.id ≠ id)) := by
  induction l with
  | nil => rfl
  | cons x r ih =>
    by_cases hx : x.id = id
    · simpa [hx, hf] using ih
    · simpa [hx] using ih

theorem mem_settleReq (s : State) (c id : Nat) : (settleReq s c id).mem = s.mem := by
  unfold settleReq
  split
  · rfl
  · split
    · rfl
    · dsimp only
      split
      · exact (modThread_mem ..).trans (modThread_mem ..)
      · exact (modThread_mem ..).trans (modThread_mem ..)

theorem mem_settleRow (s : State) (c id r : Nat) : (settleRow s c id r).mem = s.mem := by
  unfold settleRow
  split
  · rfl
  · split
    · split
      · exact (modThread_mem ..).trans (modThread_mem ..)
      · rfl
    · rfl

theorem mem_finishPart (s : State) (c id k : Nat) (data : Row) : (finishPart s c id k data).mem = s.mem := by
  unfold finishPart
  split
  · rfl
  · exact (mem_settleReq ..).trans ((mem_settleRow ..).trans (modThread_mem ..))

/-- R44, R172: a counted request without a fault is written and forgotten when its data is complete. -/
theorem settleReq_arrived {s : State} {c id : Nat} {t : Thread} {q : Req} (ht : threadOf s c = some t)
    (hq : reqOf s c id = some q) (hdue : q.due = none) (harr : arrived q = true) (hland : q.landed = false)
    (hfault : q.fault = none) :
    threadOf (settleReq s c id) c =
      some { landReq t q with reqs := (landReq t q).reqs.filter (fun x => decide (x.id ≠ id)) } := by
  rw [settleReq, hq]
  simp only [hdue, harr, hland, hfault, Option.isSome_none, Bool.not_true, Bool.or_self, Bool.false_eq_true, if_false]
  rw [modThread_some ht, modThread_some (threadOf_setThread ..), threadOf_setThread]

/-- A request whose first part's data is at the core. -/
def reqLoaded (data : Row) (q : Req) : Req :=
  { q with parts := q.parts.modify 0 (fun p => { p with data := data, done := true, here := true }) }

/-- A counted scalar load of one part lands when the part's data arrives (R44, R172). -/
theorem finishPart_load {s : State} {c : Nat} {t : Thread} {q : Req} {p : Part} {w : Nat} {sg : Bool} {r : Fin 32}
    {data : Row} (ht : threadOf s c = some t) (honly : OnlyReq t q) (hkind : q.kind = .load w sg)
    (hdest : q.dest = .sreg r.val) (hdue : q.due = none) (hland : q.landed = false) (hfault : q.fault = none)
    (hparts : q.parts = [p]) :
    threadOf (finishPart s c q.id 0 data) c = some (loadLanded t r (extend w sg data.toNat) q.id) := by
  have hreads : reqWrites q.kind = false := by rw [hkind]; rfl
  have hq : reqOf (modReq s c q.id (reqLoaded data)) c q.id = some (reqLoaded data q) :=
    reqOf_modReq ht honly (fun _ => rfl)
  have hrow (k : Nat) : settleRow (modReq s c q.id (reqLoaded data)) c q.id k = modReq s c q.id (reqLoaded data) := by
    simp only [settleRow, hq, reqLoaded, hkind]
  have hfinish : finishPart s c q.id 0 data = settleReq (modReq s c q.id (reqLoaded data)) c q.id := by
    rw [finishPart, reqOf_onlyReq ht honly]
    dsimp only
    rw [hreads]
    exact congrArg (settleReq · c q.id) (hrow _)
  have hpart : (reqLoaded data q).parts = [{ p with data := data, done := true, here := true }] := by
    simp [reqLoaded, hparts]
  have harr : arrived (reqLoaded data q) = true := by
    rw [arrived, show reqWrites (reqLoaded data q).kind = false from hreads, hpart]
    rfl
  have hthread : threadOf (modReq s c q.id (reqLoaded data)) c =
      some { t with reqs := t.reqs.map (fun x => if x.id = q.id then reqLoaded data x else x) } := by
    rw [modReq, modThread_some ht, threadOf_setThread]
  rw [hfinish, settleReq_arrived hthread hq hdue harr hland hfault, landReq_load (q := reqLoaded data q) hkind hdest hfault hpart,
    loadLanded,
    ← filter_map_id t.reqs q.id (f := reqLoaded data) (fun _ => rfl)]

/-! The load at its home -/

/-- A core's thread with its own acquire set and pending reads put in place of them. -/
theorem threadOf_withDet {s : State} {c : Nat} {t : Thread} (ht : threadOf s c = some t) :
    threadOf (withDet s c (some t.det)) c = some t := by
  rw [withDet, modThread_some ht, threadOf_setThread]

/-- R146, R251: a relaxed load of one sound word on a page without checks only reads. -/
theorem performLoad_plain {s : State} {c : Nat} {t : Thread} {q : Req} {p : Part} {w : Nat} {sg : Bool}
    (ht : threadOf s c = some t) (hkind : q.kind = .load w sg) (hord : q.ord = 0) (hparts : q.parts = [p])
    (hchk : p.unchk = true) (hsound : SoundWord s p) (hreplay : t.replay = false) :
    performLoad s c t q 0 p = finishPart (withDet s c (some t.det)) c q.id 0 (bytesRow (memBytes s.mem p.pa p.len)) := by
  have hdet : acquireDet s c q p = some t.det := by
    simp [acquireDet, hord, acquires, synchronises, hkind, ht]
  have htouch (k : Touch) : touchAt (withDet s c (some t.det)) c k p = .ok (withDet s c (some t.det)) := by
    simp [touchAt, threadOf_withDet ht, hchk]
  have hmem : (withDet s c (some t.det)).mem = s.mem := modThread_mem ..
  have hsound' : SoundWord (withDet s c (some t.det)) p := by
    rw [withDet, modThread_some ht]
    exact hsound
  have hctl : inCtl p.pa = false := by
    have hpa : p.pa < 0x400000000 := by simpa [inSram] using hsound.1
    rw [inCtl, decide_eq_false_iff_not, ctlBase]
    omega
  have hread : readPart (withDet s c (some t.det)) c t p =
      some (⟨memBytes s.mem p.pa p.len, none⟩, withDet s c (some t.det)) := by
    simp [readPart, hreplay, readAny, hctl, readPa_soundWord hsound', hmem]
  have hrow (s : State) : rowRefused s q p = false := by simp [rowRefused, hparts]
  have hsame (bs : List Byte) : sameBytes q p bs = bs := by simp [sameBytes, hkind]
  have hrel : releases q.ord = false := by rw [hord]; rfl
  simp only [performLoad, hdet, hrel, htouch, hrow, hread, hsame, Bool.and_false, Bool.false_eq_true, if_false]

/-- R39: a part whose turn it is is performed, its sub-banks taken. -/
theorem served_now {s : State} {c : Nat} {q : Req} {p : Part} (hturn : HasTurn s c q p) (k : Nat) (f : State → State) :
    served s c q k p f = f (atTurn s c q p) := by
  unfold served atTurn
  cases hc : contends c q p with
  | none => rfl
  | some hb =>
    obtain ⟨h, b⟩ := hb
    simp only [hturn h b hc]

theorem threadOf_atTurn (s : State) (c : Nat) (q : Req) (p : Part) (x : Nat) :
    threadOf (atTurn s c q p) x = threadOf s x := by
  unfold atTurn
  split
  · rfl
  · exact coreOf_modCore_keeps Core.thread
      (f := fun k => { k with slice := { k.slice with takenAt := s.now, taken := _ } }) (fun _ => rfl) s _ x

/-- Taking sub-banks changes nothing that a read asks for. -/
theorem soundWord_atTurn {s : State} {c : Nat} {q : Req} {p x : Part} (h : SoundWord s x) :
    SoundWord (atTurn s c q p) x := by
  unfold atTurn
  split
  · exact h
  · exact h

theorem mem_atTurn (s : State) (c : Nat) (q : Req) (p : Part) : (atTurn s c q p).mem = s.mem := by
  unfold atTurn
  split
  · rfl
  · rfl

/-- R39, R42: the arrival of a load's data, in turn and with nothing before it, reads it. -/
theorem requestDataArrival_load {s : State} {c : Nat} {t : Thread} {q : Req} {p : Part} {w : Nat} {sg : Bool}
    (ht : threadOf s c = some t) (honly : OnlyReq t q) (hkind : q.kind = .load w sg) (hparts : q.parts = [p])
    (hdone : p.done = false) (hheld : heldBack s c t q 0 p = false) (hturn : HasTurn s c q p) :
    exec (.requestDataArrival c q.id 0) s = .next (performLoad (atTurn s c q p) c t q 0 p) := by
  have hfatom : (q.kind == .fatom) = false := by rw [hkind]; rfl
  have hpart : q.parts[0]? = some p := by rw [hparts]; rfl
  show execRequestDataArrival c q.id 0 s = _
  simp only [execRequestDataArrival, reqOf_onlyReq ht honly, ht, hpart, hdone, hfatom, hheld, Bool.and_false,
    Bool.false_eq_true, if_false]
  rw [hkind]
  exact congrArg _ (served_now hturn 0 _)

/-- Settles O18: the arrival reads the word in its turn, and the request lands with what was read. -/
theorem loadPerformed : Obligations.LoadPerformed := by
  unfold Obligations.LoadPerformed
  intro c s t q p w sg r ht honly hkind hw hdest hdue hland hfault hord hparts hdone hchk hlen hsound hreplay hheld hturn
  have hexec := requestDataArrival_load ht honly hkind hparts hdone hheld hturn
  have ht' : threadOf (atTurn s c q p) c = some t := (threadOf_atTurn ..).trans ht
  rw [performLoad_plain ht' hkind hord hparts hchk (soundWord_atTurn hsound) hreplay, mem_atTurn, hlen] at hexec
  have hthread := finishPart_load (threadOf_withDet ht') honly hkind hdest hdue hland hfault hparts
    (data := bytesRow (memBytes s.mem p.pa w))
  have hshort : (memBytes s.mem p.pa w).length ≤ 256 := by
    rw [length_memBytes]
    omega
  have hval : (bytesRow (memBytes s.mem p.pa w)).toNat % 2 ^ (8 * w) = memNat s.mem p.pa w := by
    have hlt := leNat_lt (memBytes s.mem p.pa w)
    rw [length_memBytes] at hlt
    rw [toNat_bytesRow hshort, Nat.mod_eq_of_lt hlt, memNat]
  refine ⟨_, _, hexec, hthread, fun a => ?_, ?_, fun k hk => loadLanded_s_other _ _ _ _ _ hk, rfl, rfl, rfl, rfl, rfl, rfl⟩
  · rw [mem_finishPart, withDet, modThread_mem, mem_atTurn]
  · rw [loadLanded_s_same, extend_eq_ofInt, hval]

end Sys2Proof.Machine

namespace Sys2Proof.Machine

/-! Events of a core's cycle (O42) -/

/-! Landings of a cycle (R42) -/

/-- What a landing does to its thread: a request without a fault is forgotten. -/
def landOne (t : Thread) (q : Req) : Thread :=
  let t := landReq t q
  if q.fault.isSome then { t with reqs := t.reqs.map (fun r => if r.id = q.id then { r with landed := true } else r) }
  else { t with reqs := t.reqs.filter (fun r => r.id ≠ q.id) }

theorem landOne_load {t : Thread} {q : Req} {p : Part} {w : Nat} {sg : Bool} {r : Fin 32} (hkind : q.kind = .load w sg)
    (hdest : q.dest = .sreg r.val) (hfault : q.fault = none) (hparts : q.parts = [p]) :
    landOne t q = loadLanded t r (extend w sg p.data.toNat) q.id := by
  simp only [landOne, landReq_load hkind hdest hfault hparts, hfault]
  rfl

/-- A step that is over after one time is over after any number of times. -/
theorem foldl_eq_of_idempotent {α β : Type} {f : α → β → α} {b : β} (hf : ∀ a, f (f a b) b = f a b) {l : List β}
    (hne : l ≠ []) (hall : ∀ x ∈ l, x = b) (a : α) : l.foldl f a = f a b := by
  induction l generalizing a with
  | nil => exact absurd rfl hne
  | cons x r ih =>
    obtain ⟨rfl, hr⟩ := List.forall_mem_cons.mp hall
    cases r with
    | nil => rfl
    | cons y r => exact (ih (List.cons_ne_nil y r) hr (f a x)).trans (hf a)

/-- R42: a timed load that is due lands; every other request that stands beside it is counted. -/
theorem landDue_load {t : Thread} {q : Req} {p : Part} {w : Nat} {sg : Bool} {r : Fin 32} (hmem : q ∈ t.reqs)
    (hkind : q.kind = .load w sg) (hdest : q.dest = .sreg r.val) (hdue : q.due = some t.x.dc) (hland : q.landed = false)
    (hfault : q.fault = none) (hparts : q.parts = [p]) (hhere : p.here = true)
    (hothers : ∀ x ∈ t.reqs, x = q ∨ x.due = none) :
    landDue t = loadLanded t r (extend w sg p.data.toNat) q.id := by
  have harr : arrived q = true := by simp [arrived, hkind, reqWrites, hparts, hhere]
  have hone := fun u : Thread => landOne_load (t := u) hkind hdest hfault hparts
  refine (foldl_eq_of_idempotent (f := landOne) (b := q) (fun u => ?_) ?_ ?_ t).trans (hone t)
  · rw [hone, hone, loadLanded_loadLanded]
  · exact List.ne_nil_of_mem (List.mem_filter.mpr ⟨hmem, by simp [hland, harr, hdue]⟩)
  · intro x hx
    obtain ⟨hx, hdue'⟩ := List.mem_filter.mp hx
    refine (hothers x hx).resolve_right (fun hnone => ?_)
    simp [hnone] at hdue'

theorem watchTimeout_fires {c k : Nat} {s : State} {t : Thread} {w : Watch} (ht : threadOf s c = some t)
    (hw : t.watch[k]? = some w) (hstate : w.state = 1) (hleft : w.left = 0) :
    exec (.watchTimeout c k) s = .next (setThread (dropTracker s c k w.addr) c
      { t with watch := t.watch.set k { w with state := 3 } }) := by
  have ht' : threadOf (dropTracker s c k w.addr) c = some t := (threadOf_modSlice ..).trans ht
  have hset : t.watch.modify k (fun w => { w with state := 3 }) = t.watch.set k { w with state := 3 } := by
    obtain ⟨hk, rfl⟩ := List.getElem?_eq_some_iff.mp hw
    rw [List.modify_eq_set_getElem?, hw]
    rfl
  show execWatchTimeout c k s = _
  simp only [execWatchTimeout, ht, Option.bind_some, hw, hstate, hleft, beq_self_eq_true, Bool.and_self, if_true,
    modThread_some ht', hset]

/-! Freezes and stalls (R40, R45, R261) -/

/-- R397: a freeze of another code than a late landing's ends in the landing-timeout fault, which is precise. -/
theorem freezeLimit_fault {c code n : Nat} {s : State} {t : Thread} (ht : threadOf s c = some t)
    (hphase : t.phase = .frozen code n) (hcode : code ≠ 1) (hh : t.handler = false) (hr : t.replay = false) :
    ∃ s' t', exec (.freezeLimit c) s = .next s' ∧ threadOf s' c = some t' ∧ t'.phase = .saving true s.now ∧
      t'.posFault = some { timeoutFault code with cycle := s.now } ∧ t'.r = t.r ∧ t'.q = t.q ∧ s'.mem = s.mem := by
  obtain ⟨u, hu⟩ : ∃ u, u = { t with phase := .running } := ⟨_, rfl⟩
  have hexec : ∃ l, exec (.freezeLimit c) s =
      .next { takeException (setThread s c u) c (timeoutFault code) none with cur := c, todo := l } := by
    rw [show exec (.freezeLimit c) s = execFreezeLimit c s from rfl, hu]
    simp only [execFreezeLimit, ht, hphase, if_neg hcode]
    exact ⟨_, rfl⟩
  obtain ⟨l, hexec⟩ := hexec
  rw [takeException_eq (threadOf_setThread ..) (hu ▸ hh) (hu ▸ hr)] at hexec
  exact ⟨_, _, hexec, threadOf_setThread .., rfl, rfl, hu ▸ rfl, hu ▸ rfl, rfl⟩

theorem saveLandingTimeout_eq {c : Nat} {s : State} {t : Thread} (ht : threadOf s c = some t) :
    ∃ t', exec (.saveLandingTimeout c) s = .next (setThread s c t') ∧ t'.r = t.r ∧ t'.q = t.q ∧ t'.phase = t.phase ∧
      (∀ q, q ∈ t'.reqs ↔ q ∈ t.reqs ∧ (q.due = none ∨ arrived q = true)) ∧
      (∀ d, d ∈ t'.timeouts ↔ d ∈ t.timeouts ∨ ∃ q ∈ t.reqs, q.due = some d ∧ arrived q = false) := by
  refine ⟨_, congrArg _ (modThread_some ht _), rfl, rfl, rfl, fun q => ?_, fun d => ?_⟩
  · simp only [List.mem_filter, Bool.not_and, Bool.not_not, Bool.or_eq_true, Bool.not_eq_true', Option.isSome_eq_false_iff,
      Option.isNone_iff_eq_none]
  · simp only [List.mem_append, List.mem_filterMap, List.mem_filter, Bool.and_eq_true, Bool.not_eq_true']
    refine or_congr_right (exists_congr fun q => ?_)
    constructor
    · rintro ⟨⟨hq, -, harr⟩, hd⟩
      exact ⟨hq, hd, harr⟩
    · rintro ⟨hq, hd, harr⟩
      exact ⟨⟨hq, by rw [hd]; rfl, harr⟩, hd⟩

/-! Expansion of a segment (R165) -/

theorem setExpansion_some {s : State} {c : Nat} {t : Thread} (ht : threadOf s c = some t) (e : Option Expansion) :
    setExpansion s c e = setThread s c { t with q := { t.q with expanding := e } } := modThread_some ht _

section
variable {c : Nat} {s : State} {t : Thread} {e : Expansion}

theorem segmentExpansionComplete_eq (ht : threadOf s c = some t) (he : t.q.expanding = some e) :
    exec (.segmentExpansionComplete c) s = .next (if e.due = 0 then requestLine s c t e s.now
      else if e.due ≠ s.now then s
      else if e.bytes ≠ [] ∧ segmentLines e.bytes ≤ e.bytes.length / 64 then expanded s c (parseSegment e.target e.bytes)
      else arriveLine s c t e) := by
  show execSegmentExpansionComplete c s = _
  simp only [execSegmentExpansionComplete, ht, he]

/-- R39: a line whose turn it is at its slice is read there. -/
theorem arriveLine_now {s1 : State} {bs : List Byte} (ht : threadOf s c = some t) (he : t.q.expanding = some e) :
    let va := e.target + BitVec.ofNat 64 e.bytes.length
    turnAll s (lineSpan s c t va) e.bank.refused = .now →
    readLine (takeTurns (setExpansion s c (some { e with bank := ⟨0, []⟩ })) (lineSpan s c t va)) c t va = (.bytes bs, s1) →
    arriveLine s c t e = nextLine s1 c t
      { e with ctlAt := if e.bytes.isEmpty then s1.now else e.ctlAt, bytes := e.bytes ++ bs } := by
  intro va hturn hread
  have hwait : eventWait s (.segmentExpansionComplete c) = e.bank := by simp [eventWait, ht, he]
  simp only [arriveLine, engineServed, hwait]
  rw [hturn]
  simp only [Nat.not_lt_zero, if_false]
  rw [hread]

end

/-! The start of a task (R151, R164) -/

/-- A thread that differs from another in what it acquires alone (R143). -/
def SameButAcquired (t t' : Thread) : Prop := ∃ q, t' = withAcq t q

theorem sameButAcquired_refl (t : Thread) : SameButAcquired t t := ⟨acqOf t, rfl⟩

theorem SameButAcquired.trans {t t' t'' : Thread} (h : SameButAcquired t t') (h' : SameButAcquired t' t'') :
    SameButAcquired t t'' := by
  obtain ⟨q, rfl⟩ := h
  obtain ⟨q', rfl⟩ := h'
  exact ⟨q', rfl⟩

theorem sameButAcquired_inherit (t : Thread) (p : Option Parent) : SameButAcquired t (inherit t p) := by
  cases p with
  | none => exact sameButAcquired_refl t
  | some p => exact ⟨_, rfl⟩

theorem sameButAcquired_acquireTl (s : State) (c : Nat) (t : Thread) (ctx n scope : Nat) :
    SameButAcquired t (acquireTl s c t ctx n scope) := by
  unfold acquireTl
  split
  · exact sameButAcquired_refl t
  · exact ⟨_, rfl⟩

theorem sameButAcquired_acquireBar (s : State) (c : Nat) (t : Thread) (pa p scope : Nat) :
    SameButAcquired t (acquireBar s c t pa p scope) := by
  unfold acquireBar
  split
  · exact sameButAcquired_refl t
  · exact ⟨_, rfl⟩

theorem sameButAcquired_ite {t u : Thread} {b : Prop} [Decidable b] (h : SameButAcquired t u) :
    SameButAcquired t (if b then u else t) := by
  split
  · exact h
  · exact sameButAcquired_refl t

theorem sameButAcquired_acquireConds (s : State) (c : Nat) (t : Thread) (e : Entry) :
    SameButAcquired t (acquireConds s c t e) :=
  ((sameButAcquired_ite (sameButAcquired_acquireTl ..)).trans (sameButAcquired_ite (sameButAcquired_acquireTl ..))).trans
    (sameButAcquired_ite (sameButAcquired_acquireBar ..))

/-- The thread that a task's start puts on its core, but for what it acquires and whether it is sampled (R151). -/
def startedThread (s : State) (c : Nat) (t : Thread) : Thread :=
  let n := Thread.start t.frame t.job t.record (jobEntry s t.job).2 c t.det.tid t.det.scnt t.chans t.fab t.prio
  { n with x := { n.x with banks := 342 }, near := t.near, homes := [(s.now, c)] }

/-- R151: the record's words 1 to 3, the core and the TID stand in s1 to s5. -/
theorem startedThread_s (s : State) (c : Nat) (t : Thread) (n : Fin 32) : (startedThread s c t).r.s[n] =
    if 1 ≤ n.val ∧ n.val ≤ 3 then recWord t.record n.val else if n.val = 4 then BitVec.ofNat 64 c
      else if n.val = 5 then BitVec.ofNat 64 t.det.tid else 0 := by
  fin_cases n <;> rfl

/-- What a start does when no replay begins. -/
theorem startTask_eq {s : State} {c : Nat} {t : Thread} {e : Entry} (hreplay : e.replay = none) :
    ∃ q hit s1, startTask s c t e = startExpansion (setThread s1 c { withAcq (startedThread s c t) q with sampled := hit }) c
        (withAcq (startedThread s c t) q).q.seg ∧
      s1.mem = s.mem ∧ s1.now = s.now ∧ s1.agenda = s.agenda ++ [⟨s.now + 342, .threadStart c⟩] := by
  obtain ⟨q, hq⟩ := (sameButAcquired_inherit (startedThread s c t) e.parent).trans
    (sameButAcquired_acquireConds (schedule s 342 (.threadStart c)) c _ e)
  have hreplays : e.replay.isSome = false := by rw [hreplay]; rfl
  rcases hdraw : auditDraw (schedule s 342 (.threadStart c)) false with ⟨hit, s2⟩
  have hs2 : s2 = (auditDraw (schedule s 342 (.threadStart c)) false).2 := by rw [hdraw]
  refine ⟨q, hit, if hit then addSample s2 c (withAcq (startedThread s c t) q) else s2, ?_, ?_⟩
  · rw [← hq, startTask, hreplays, hdraw, hreplay]
    rfl
  · rw [hs2]
    cases hit
    · exact ⟨rfl, rfl, rfl⟩
    · exact ⟨rfl, rfl, rfl⟩

theorem threadOf_startExpansion {s : State} {c : Nat} {t : Thread} (ht : threadOf s c = some t) (a : Word) :
    threadOf (startExpansion s c a) c = some { t with q := { t.q with expanding := some ⟨a, 0, 0, [], ⟨0, []⟩⟩, next := none } } := by
  rw [startExpansion, ht]
  exact (threadOf_of_cores (schedule_cores ..) c).trans (threadOf_setThread ..)

theorem agenda_startExpansion (s : State) (c : Nat) (a : Word) : (startExpansion s c a).agenda = s.agenda := by
  unfold startExpansion
  split
  · rfl
  · rfl

theorem mem_startExpansion (s : State) (c : Nat) (a : Word) : (startExpansion s c a).mem = s.mem := by
  unfold startExpansion
  split
  · rfl
  · rfl

theorem threadStart_eq {c : Nat} {s : State} {t : Thread} {e : Entry} (ht : threadOf s c = some t)
    (he : (dieOf s (coreDie c)).entries.find? (fun e => e.state == 4 && e.core == c && e.resume.isNone) = some e) :
    exec (.threadStart c) s = .next (if t.phase = .restoring then startTask s c t e else dropEntry s (coreDie c) e.id) := by
  show execThreadStart c s = _
  simp only [execThreadStart, he, ht]

/-- R151, R164: the starting state, the entry segment's expansion, and the first bundle's cycle. -/
theorem threadStart_starts {c : Nat} {s : State} {t : Thread} {e : Entry} (ht : threadOf s c = some t)
    (he : (dieOf s (coreDie c)).entries.find? (fun e => e.state == 4 && e.core == c && e.resume.isNone) = some e)
    (hphase : t.phase = .restoring) (hreplay : e.replay = none) :
    ∃ s' q hit, exec (.threadStart c) s = .next s' ∧
      (let n := withAcq (startedThread s c t) q
       threadOf s' c = some { n with sampled := hit, q := { n.q with expanding := some ⟨n.q.seg, 0, 0, [], ⟨0, []⟩⟩, next := none } }) ∧
      s'.mem = s.mem ∧ s'.agenda = s.agenda ++ [⟨s.now + 342, .threadStart c⟩] := by
  obtain ⟨q, hit, s1, htask, hmem, -, hagenda⟩ := startTask_eq (s := s) (c := c) (t := t) hreplay
  have hexec := threadStart_eq ht he
  rw [if_pos hphase, htask] at hexec
  exact ⟨_, q, hit, hexec, threadOf_startExpansion (threadOf_setThread ..) _, (mem_startExpansion ..).trans hmem,
    (agenda_startExpansion ..).trans hagenda⟩

/-- Settles O42: each event by what its function does. -/
theorem coreEvents : Obligations.CoreEvents := by
  unfold Obligations.CoreEvents
  refine ⟨?_, ?_, ?_, ?_, ?_, ?_, ?_, ?_⟩
  · intro c s t q p w sg r ht honly hkind hw hdest hdue hland hfault hparts hhere hothers
    have hexec : exec (.timedLanding c) s = .next (setThread s c (landDue t)) := congrArg _ (modThread_some ht landDue)
    rw [landDue_load honly.1 hkind hdest hdue hland hfault hparts hhere hothers] at hexec
    refine ⟨_, _, hexec, threadOf_setThread .., rfl, ?_, fun k hk => loadLanded_s_other _ _ _ _ _ hk, rfl, rfl, rfl, rfl, rfl⟩
    exact (loadLanded_s_same ..).trans (extend_eq_ofInt ..)
  · intro c k s t w ht hw hstate hleft
    exact ⟨_, watchTimeout_fires ht hw hstate hleft, threadOf_setThread .., rfl⟩
  · intro c code n s t ht hphase beat
    have hexec : exec (.freezeRelease c) s = execFreezeRelease c s := rfl
    refine ⟨fun h1 h7 => ?_, ?_, ?_, ?_⟩
    · rw [hexec, execFreezeRelease, ht]
      dsimp only
      rw [hphase]
      split
      · next heq => exact absurd (Phase.frozen.inj heq).1 h1
      · next heq => cases heq
      · next heq => cases heq
      · next heq => exact absurd (Phase.frozen.inj heq).1 h7
      · rfl
      · next hno => exact absurd rfl (hno code n)
    · rintro rfl
      simp only [hexec, execFreezeRelease, ht, hphase]
      by_cases hb : xBehind t = true
      · simp only [beat, if_pos hb]
      · simp only [beat, if_neg hb]
    · rintro rfl hlate
      simp only [hexec, execFreezeRelease, ht, hphase, if_pos hlate]
      rfl
    · rintro rfl hlate
      simp only [hexec, execFreezeRelease, ht, hphase, hlate]
      exact ⟨_, _, rfl, rfl, rfl⟩
  · intro c code n s t ht hphase hcode hh hr
    exact freezeLimit_fault ht hphase hcode hh hr
  · intro c s t ht hphase
    show execStalledBundleIssue c s = _
    simp only [execStalledBundleIssue, ht, hphase]
  · intro c s t ht
    exact saveLandingTimeout_eq ht
  · intro c s t e ht he
    rw [segmentExpansionComplete_eq ht he]
    refine ⟨fun h => by rw [if_pos h], fun h h' => by rw [if_neg h, if_pos h'], fun h h' hne hall => ?_, ?_⟩
    · rw [if_neg h, if_neg (not_not.mpr h'), if_pos ⟨hne, hall⟩, expanded, modThread_some ht]
    · intro bs s1 h h' hmore va hturn hread
      rw [if_neg h, if_neg (not_not.mpr h'), if_neg (fun hall => absurd hall.2 (Nat.not_le.mpr hmore)),
        arriveLine_now ht he hturn hread]
  · intro c s t e ht he
    refine ⟨fun hphase => by rw [threadStart_eq ht he, if_neg hphase], fun hphase hreplay => ?_⟩
    obtain ⟨s', q, hit, hexec, hthread, hmem, hagenda⟩ := threadStart_starts ht he hphase hreplay
    refine ⟨s', _, hexec, hthread, rfl, rfl, startedThread_s s c t, rfl, rfl, rfl, rfl, rfl, rfl, rfl, rfl, rfl, rfl, rfl,
      rfl, rfl, ?_, hmem⟩
    rw [hagenda]
    exact List.mem_append_right _ (List.mem_singleton_self _)

end Sys2Proof.Machine

namespace Sys2Proof.Machine

/-! The scrubber and the probe cache's configuration (R39, R49, R53) -/

/-- R49: the state of the scrubber's step, the counts cleared at the start of a pass. -/
def scrubPass (s : State) (c : Nat) : State :=
  if (coreOf s c).slice.scrub = 0 then modSlice s c (fun x => { x with counts := [] }) else s

/-- R49: the scrubber's step at a sound word moves its position on. -/
theorem scrubWord_sound {s : State} {c : Nat} (h : mget (c * 262144 + (coreOf s c).slice.scrub) s.sramErr = none) :
    scrubWord s c = modSlice (scrubPass s c) c (fun x => { x with scrub := (x.scrub + 1) % 262144 }) := by
  have hpass : mget (c * 262144 + (coreOf s c).slice.scrub) (scrubPass s c).sramErr = none := by
    unfold scrubPass
    split
    · exact h
    · exact h
  rw [scrubWord]
  dsimp only
  rw [← scrubPass]
  simp [readSramWord, hpass]

theorem mem_scrubPass (s : State) (c : Nat) : (scrubPass s c).mem = s.mem := by
  unfold scrubPass
  split
  · rfl
  · rfl

theorem sramErr_scrubPass (s : State) (c : Nat) : (scrubPass s c).sramErr = s.sramErr := by
  unfold scrubPass
  split
  · rfl
  · rfl

theorem threadOf_scrubPass (s : State) (c : Nat) : threadOf (scrubPass s c) c = threadOf s c := by
  unfold scrubPass
  split
  · exact threadOf_modSlice ..
  · rfl

theorem scrub_scrubPass (s : State) (c : Nat) : (coreOf (scrubPass s c) c).slice.scrub = (coreOf s c).slice.scrub := by
  unfold scrubPass
  split
  · simp [modSlice, modCore]
  · rfl

theorem scrubRead_refused {s : State} {c : Nat} (hon : (coreOf s c).slice.ecccfg.getLsbD 0 = true)
    (h : scrubTurn s c ((coreOf s c).slice.scrub % 32) = .refused) :
    exec (.scrubRead c) s = .next (schedule s 1 (.scrubRead c)) := by
  show execScrubRead c s = _
  simp [execScrubRead, hon, h]

theorem scrubRead_now {s : State} {c : Nat} (hon : (coreOf s c).slice.ecccfg.getLsbD 0 = true)
    (h : scrubTurn s c ((coreOf s c).slice.scrub % 32) = .now) : exec (.scrubRead c) s = .next (scrubWord s c) := by
  show execScrubRead c s = _
  simp [execScrubRead, hon, h]

theorem scrubRead_off {s : State} {c : Nat} (hoff : (coreOf s c).slice.ecccfg.getLsbD 0 = false) :
    exec (.scrubRead c) s = .next s := by
  show execScrubRead c s = _
  simp only [execScrubRead, hoff, Bool.not_false, if_true]

/-- A field whose bits a mask keeps is a field of the masked register. -/
theorem wf_and_mask {hi lo : Nat} {v m : Word} (h : ∀ i, lo ≤ i → i ≤ hi → m.getLsbD i = true) :
    wf hi lo (v &&& m) = wf hi lo v := by
  unfold wf bits
  refine Nat.eq_of_testBit_eq fun i => ?_
  simp only [Nat.testBit_mod_two_pow, Nat.testBit_div_two_pow]
  by_cases hi' : i < hi + 1 - lo
  · have hm : m.getLsbD (i + lo) = true := h _ (by omega) (by omega)
    rw [BitVec.toNat_and, Nat.testBit_and, BitVec.testBit_toNat m, hm, Bool.and_true]
  · simp [hi']

theorem wf_pccCfg_size (v : Word) : wf 7 4 (v &&& 0x7FC0F1) = wf 7 4 v :=
  wf_and_mask fun i hlo hhi => by interval_cases i <;> rfl

theorem wf_pccCfg_base (v : Word) : wf 22 14 (v &&& 0x7FC0F1) = wf 22 14 v :=
  wf_and_mask fun i hlo hhi => by interval_cases i <;> rfl

/-- R53: a configuration that is taken empties the cache. -/
theorem pccCfgWrite_taken {c : Nat} {v : Word} {s : State} (hsize : wf 7 4 v ≤ 8)
    (hbase : wf 22 14 v % 2 ^ wf 7 4 v = 0) (hidle : threadOf s c = none) (hq : probeQueued (coreOf s c).probe = 0) :
    exec (.pccCfgWrite c v) s = .next (modCore s c (fun k => { k with probe :=
      { (coreOf s c).probe with cfg := v &&& 0x7FC0F1, slots := [], plru := [] } })) := by
  have hidle' : (coreOf s c).thread = none := hidle
  show execPccCfgWrite c v s = _
  simp only [execPccCfgWrite, wf_pccCfg_size, wf_pccCfg_base, hidle', hq, hbase]
  simp [Nat.not_lt.mpr hsize]

/-- R53: any other sets CFGERR. -/
theorem pccCfgWrite_refused {c : Nat} {v : Word} {s : State} (h : 8 < wf 7 4 v ∨ wf 22 14 v % 2 ^ wf 7 4 v ≠ 0 ∨
    (threadOf s c).isSome = true ∨ probeQueued (coreOf s c).probe ≠ 0) :
    exec (.pccCfgWrite c v) s = .next (modCore s c (fun k => { k with probe :=
      { (coreOf s c).probe with cfgerr := true } })) := by
  have hbad : (((decide (8 < wf 7 4 v) || wf 22 14 v % 2 ^ wf 7 4 v != 0) || (coreOf s c).thread.isSome) ||
      (probeQueued (coreOf s c).probe != 0)) = true := by
    simpa [threadOf, or_assoc] using h
  show execPccCfgWrite c v s = _
  simp only [execPccCfgWrite, wf_pccCfg_size, wf_pccCfg_base, hbad, if_true]

end Sys2Proof.Machine

namespace Sys2Proof.Machine

/-! Fills and write-backs that end (R55, R57) -/

/-! What a write of SRAM leaves of a probe cache -/

/-- A probe cache without its slots' states: a write of SRAM makes slots DIRTY and changes nothing else (R55). -/
def probeShape (p : Probe) : Probe := { p with slots := p.slots.map (fun x => (x.1, { x.2 with state := 0 })) }

theorem probe_modThread (s : State) (h : Nat) (f : Thread → Thread) (c : Nat) :
    (coreOf (modThread s h f) c).probe = (coreOf s c).probe := by
  unfold modThread
  split
  · rfl
  · next t _ => exact coreOf_modCore_keeps Core.probe (f := fun k => { k with thread := some (f t) }) (fun _ => rfl) s h c

theorem probe_modSlice (s : State) (h : Nat) (f : Slice → Slice) (c : Nat) :
    (coreOf (modSlice s h f) c).probe = (coreOf s c).probe :=
  coreOf_modCore_keeps Core.probe (f := fun k => { k with slice := f k.slice }) (fun _ => rfl) s h c

theorem probe_evalWatches (s : State) (pa n c : Nat) : (coreOf (evalWatches s pa n) c).probe = (coreOf s c).probe := by
  unfold evalWatches
  refine foldl_keeps (fun x => (coreOf x c).probe = (coreOf s c).probe) _ (fun x ck hx => ?_) _ s rfl
  dsimp only
  split
  · exact hx
  · split
    · refine foldl_keeps (fun y => (coreOf y c).probe = (coreOf s c).probe) _ (fun y w hy => ?_) _ x hx
      split
      · exact (probe_modThread ..).trans ((probe_modSlice ..).trans hy)
      · exact hy
    · exact hx

theorem probeShape_dirtySlots (s : State) (h off n c : Nat) :
    probeShape (coreOf (dirtySlots s h off n) c).probe = probeShape (coreOf s c).probe := by
  unfold dirtySlots
  dsimp only
  split
  · rfl
  · refine coreOf_modCore_keeps (fun k => probeShape k.probe) (fun k => ?_) s h c
    rw [probeShape, probeShape, List.map_map]
    congr 1
    refine List.map_congr_left fun x _ => ?_
    dsimp only [Function.comp]
    split
    · rfl
    · rfl

theorem probeShape_sramEffects (s : State) (pa n c : Nat) :
    probeShape (coreOf (sramEffects s pa n) c).probe = probeShape (coreOf s c).probe :=
  (probeShape_dirtySlots ..).trans (congrArg probeShape (probe_evalWatches ..))

theorem queue_of_shape {p p' : Probe} (h : probeShape p' = probeShape p) : p'.queue = p.queue := by
  rw [show p'.queue = (probeShape p').queue from rfl, h]
  rfl

/-- Slots that no TLBI has dropped stay so. -/
theorem noDrop_of_shape {p p' : Probe} (h : probeShape p' = probeShape p) (hp : ∀ x ∈ p.slots, x.2.drop_ = false) :
    ∀ x ∈ p'.slots, x.2.drop_ = false := by
  intro x hx
  have hdrops : p'.slots.map (fun x => x.2.drop_) = p.slots.map (fun x => x.2.drop_) := by
    simpa [probeShape, Function.comp_def] using congrArg (fun p : Probe => p.slots.map (fun x => x.2.drop_)) h
  obtain ⟨y, hy, hxy⟩ := List.mem_map.mp (hdrops ▸ List.mem_map_of_mem hx)
  rw [← hxy, hp y hy]

/-! Whole words written to SRAM (R47, R48) -/

/-- The bytes of memory after a write. -/
theorem memByte_memWrite (m : List Host.Cell) (a : Nat) (bs : List Byte) (h : Memory.wf m = true) (b : Nat) :
    memByte (memWrite m a bs) b = if a ≤ b ∧ b < a + bs.length then bs[b - a]?.getD 0 else memByte m b := by
  split
  · next hin =>
    obtain ⟨i, rfl⟩ : ∃ i, b = a + i := ⟨b - a, by omega⟩
    have hi : i < bs.length := by omega
    rw [memByte_memWrite_inside bs m a i h hi, Nat.add_sub_cancel_left, List.getElem?_eq_getElem hi, Option.getD_some]
  · next hout => exact memByte_memWrite_outside bs m a b (by omega)

/-- A write of whole words changes the bytes it covers and no others, and makes slots DIRTY. -/
theorem sramPut_words (c f : Nat) : ∀ (s : State) (pa : Nat) (bs : List Byte), pa % 32 = 0 → bs.length % 32 = 0 →
    bs.length < f → Memory.wf s.mem = true →
    probeShape (coreOf (sramPut f s pa bs).2 c).probe = probeShape (coreOf s c).probe ∧
    ∀ b, memByte (sramPut f s pa bs).2.mem b =
      if pa ≤ b ∧ b < pa + bs.length then bs[b - pa]?.getD 0 else memByte s.mem b := by
  induction f with
  | zero => intro s pa bs _ _ h; exact absurd h (Nat.not_lt_zero _)
  | succ f ih =>
    intro s pa bs hpa hlen hf hwf
    by_cases hbs : bs = []
    · subst hbs
      refine ⟨rfl, fun b => ?_⟩
      rw [if_neg (by simp)]
      rfl
    · have hpos : 0 < bs.length := List.length_pos_iff.mpr hbs
      have hnow : (bs.take 32).length = 32 := by rw [List.length_take]; omega
      obtain ⟨s1, hs1⟩ : ∃ s1, s1 = sramEffects { s with mem := memWrite s.mem pa (bs.take 32), sramErr := mdel (pa / 32) s.sramErr }
        pa 32 := ⟨_, rfl⟩
      have hput : (sramPut (f + 1) s pa bs).2 = (sramPut f s1 (pa + 32) (bs.drop 32)).2 := by
        rw [sramPut, if_neg (by simpa using hbs)]
        simp only [hpa, Nat.sub_zero, hnow, or_true, if_true, ← hs1]
      have hmem : s1.mem = memWrite s.mem pa (bs.take 32) := by rw [hs1, mem_sramEffects]
      obtain ⟨hshape, hbytes⟩ := ih s1 (pa + 32) (bs.drop 32) (by omega) (by rw [List.length_drop]; omega)
        (by rw [List.length_drop]; omega) (by rw [hmem]; exact wf_memWrite _ _ _ hwf)
      rw [hput]
      refine ⟨hshape.trans (by rw [hs1]; exact probeShape_sramEffects ..), fun b => ?_⟩
      rw [hbytes, hmem, memByte_memWrite _ _ _ hwf, hnow, List.length_drop]
      by_cases hlo : pa ≤ b ∧ b < pa + 32
      · rw [if_neg (by omega), if_pos hlo, if_pos (by omega), List.getElem?_take_of_lt (by omega)]
      · rw [if_neg hlo]
        by_cases hhi : pa + 32 ≤ b ∧ b < pa + bs.length
        · rw [if_pos (by omega), if_pos (by omega), List.getElem?_drop, show 32 + (b - (pa + 32)) = b - pa by omega]
        · rw [if_neg (by omega), if_neg (by omega)]

theorem performWrite_sram {s : State} {w : Who} {pa : Nat} {bs : List Byte} {ga : Word}
    (herr : spanError s pa bs.length = none) (hsram : inSram pa = true) :
    (performWrite s w pa bs ga).2 = (sramPut (bs.length + 1) s pa bs).2 := by
  unfold performWrite
  rw [herr]
  dsimp only
  rw [if_pos hsram]

/-! The operation's turn -/

/-- Taking sub-banks changes cores alone, and of a core no probe cache. -/
theorem takeTurns_eq (s : State) (spans : List (Nat × Nat)) : ∃ m, takeTurns s spans = { s with cores := m } :=
  foldl_keeps (fun x : State => ∃ m, x = { s with cores := m }) _ (by rintro _ _ ⟨_, rfl⟩; exact ⟨_, rfl⟩) _ s ⟨s.cores, rfl⟩

theorem probe_takeTurns (s : State) (spans : List (Nat × Nat)) (c : Nat) :
    (coreOf (takeTurns s spans) c).probe = (coreOf s c).probe :=
  foldl_keeps (fun x => (coreOf x c).probe = (coreOf s c).probe) _ (fun x _ hx =>
    (coreOf_modCore_keeps Core.probe (f := fun k => { k with slice := { k.slice with takenAt := x.now, taken := _ } })
      (fun _ => rfl) x _ c).trans hx) _ s rfl

theorem probe_modProbe (s : State) (c : Nat) (f : Probe → Probe) : (coreOf (modProbe s c f) c).probe = f (coreOf s c).probe := by
  simp [modProbe, modCore]

/-- An operation alone in its core's queue, issued to this device, begins what performs it (R39, R57). -/
theorem probeStep_perform {s : State} {c : Nat} {o : POp} {pa : Nat} (hq : (coreOf s c).probe.queue = [o])
    (hissued : o.issued.isSome = true) (hdone : o.done = false) (hplace : o.place = some (pa, none)) :
    probeStep s c o.no o.fill = performProbe s c o pa := by
  obtain ⟨n, hn⟩ := Option.isSome_iff_exists.mp hissued
  simp [probeStep, hq, hdone, hn, hplace]

/-- The state in which an operation whose turn it is is performed. -/
def probeTaken (s : State) (c : Nat) (o : POp) (spans : List (Nat × Nat)) : State :=
  takeTurns (modPOp s c o.no (fun o => { o with bank := ⟨0, []⟩ })) spans

theorem probeServed_now {s : State} {c : Nat} {o : POp} {spans : List (Nat × Nat)} (hq : (coreOf s c).probe.queue = [o])
    (h : turnAll s spans o.bank.refused = .now) (k : State → State) :
    probeServed s c o spans k = k (probeTaken s c o spans) := by
  have hwait : eventWait s (probeEvent c o) = o.bank := by
    unfold probeEvent
    split
    · simp [eventWait, hq]
    · simp [eventWait, hq]
  rw [probeServed, engineServed]
  simp only [hwait, h]
  rfl

theorem probe_probeTaken {s : State} {c : Nat} {o : POp} (spans : List (Nat × Nat)) (hq : (coreOf s c).probe.queue = [o]) :
    (coreOf (probeTaken s c o spans) c).probe = { (coreOf s c).probe with queue := [{ o with bank := ⟨0, []⟩ }] } := by
  rw [probeTaken, probe_takeTurns, modPOp, probe_modProbe, hq]
  simp [modWhere]

theorem mem_probeTaken (s : State) (c : Nat) (o : POp) (spans : List (Nat × Nat)) : (probeTaken s c o spans).mem = s.mem := by
  obtain ⟨m, hm⟩ := takeTurns_eq (modPOp s c o.no (fun o => { o with bank := ⟨0, []⟩ })) spans
  rw [probeTaken, hm]
  rfl

theorem spanError_probeTaken (s : State) (c : Nat) (o : POp) (spans : List (Nat × Nat)) (pa n : Nat) :
    spanError (probeTaken s c o spans) pa n = spanError s pa n := by
  obtain ⟨m, hm⟩ := takeTurns_eq (modPOp s c o.no (fun o => { o with bank := ⟨0, []⟩ })) spans
  rw [probeTaken, hm]
  rfl

theorem slotOf_probeTaken {s : State} {c : Nat} {o : POp} (spans : List (Nat × Nat)) (hq : (coreOf s c).probe.queue = [o]) (j : Nat) :
    slotOf (probeTaken s c o spans) c j = slotOf s c j := by
  rw [slotOf, probe_probeTaken spans hq, slotOf]

theorem slotPa_probeTaken {s : State} {c : Nat} {o : POp} (spans : List (Nat × Nat)) (hq : (coreOf s c).probe.queue = [o]) (j : Nat) :
    slotPa (probeTaken s c o spans) c j = slotPa s c j := by
  rw [slotPa, probe_probeTaken spans hq, slotPa]

/-! The end of an operation -/

/-- No slot waits for room in the queue. -/
theorem fillRoom_noDrop {s : State} {c : Nat} (h : ∀ x ∈ (coreOf s c).probe.slots, x.2.drop_ = false) (n : Nat) :
    fillRoom n s c = s := by
  cases n with
  | zero => rfl
  | succ n =>
    have hfind : (coreOf s c).probe.slots.find? (fun x => x.2.state == 3 && x.2.drop_) = none := by
      rw [List.find?_eq_none]
      intro x hx
      simp [h x hx]
    rw [fillRoom]
    simp only [hfind, ite_self]

/-- R57: the operation alone in the queue ends, and the timeline stands at its number. -/
theorem popProbe_alone {s : State} {c : Nat} {o o' : POp} (hq : (coreOf s c).probe.queue = [o']) (hno : o'.no = o.no)
    (hdrop : ∀ x ∈ (coreOf s c).probe.slots, x.2.drop_ = false) (hbar : o.bar = none) :
    (coreOf (popProbe s c o) c).probe = { (coreOf s c).probe with queue := [], tl := o.no } ∧
      (popProbe s c o).mem = s.mem := by
  obtain ⟨s1, hs1⟩ : ∃ s1, s1 = modProbe (modPOp s c o.no (fun o => { o with done := true })) c advanceProbe := ⟨_, rfl⟩
  have hprobe : (coreOf s1 c).probe = { (coreOf s c).probe with queue := [], tl := o.no } := by
    rw [hs1, probe_modProbe, modPOp, probe_modProbe, hq]
    simp [modWhere, advanceProbe, hno]
  have hroom : fillRoom 32 s1 c = s1 := fillRoom_noDrop (by rw [hprobe]; exact hdrop) 32
  have hpop : popProbe s c o = s1 := by
    rw [popProbe, ← hs1, hroom, hbar]
    split
    · next h => cases h
    · rfl
  rw [hpop]
  exact ⟨hprobe, by rw [hs1]; rfl⟩

theorem slotOf_mem_or_invalid (s : State) (c j : Nat) :
    slotOf s c j = PSlot.invalid ∨ ∃ x ∈ (coreOf s c).probe.slots, x.2 = slotOf s c j := by
  rw [slotOf]
  generalize (coreOf s c).probe.slots = m
  induction m with
  | nil => exact .inl rfl
  | cons y r ih =>
    obtain ⟨k, v⟩ := y
    by_cases hk : k = j
    · exact .inr ⟨(k, v), List.mem_cons_self, by simp [mgetD, mget, hk]⟩
    · have hrest : mgetD PSlot.invalid j ((k, v) :: r) = mgetD PSlot.invalid j r := by simp [mgetD, mget, hk]
      rw [hrest]
      exact ih.imp id fun ⟨x, hx, he⟩ => ⟨x, List.mem_cons_of_mem _ hx, he⟩

theorem slotOf_noDrop {s : State} {c : Nat} (h : ∀ x ∈ (coreOf s c).probe.slots, x.2.drop_ = false) (j : Nat) :
    (slotOf s c j).drop_ = false := by
  obtain hj | ⟨x, hx, hj⟩ := slotOf_mem_or_invalid s c j
  · rw [hj]
    rfl
  · rw [← hj, h x hx]

/-- A slot that is VALID is listed. -/
theorem slots_setValid (s : State) (c j : Nat) (x : PSlot) :
    (coreOf (setSlot s c j { x with state := 2 }) c).probe =
      { (coreOf s c).probe with slots := mput j { x with state := 2 } (coreOf s c).probe.slots } := by
  have hne : ({ x with state := 2 } : PSlot) ≠ PSlot.invalid := fun h => Nat.succ_ne_zero 1 (congrArg PSlot.state h)
  rw [setSlot, probe_modProbe, mset, if_neg hne]

/-- The write is held opaque, or the kernel would evaluate it when it compares the two sides. -/
theorem finishFill_eq {s : State} {c : Nat} {o : POp} (h : (slotOf s c o.slot).drop_ = false) (bs : List Byte) :
    finishFill s c o (.ok bs) = popProbe (setSlot (performWrite s (whoCtx (probeCtx c)) (slotPa s c o.slot) bs o.va).2 c o.slot
      { slotOf s c o.slot with state := 2 }) c o := by
  have hkept : ¬ (slotOf s c o.slot).drop_ = true := by rw [h]; exact Bool.false_ne_true
  obtain ⟨W, hW⟩ : ∃ W, W = @performWrite := ⟨_, rfl⟩
  unfold finishFill
  rw [← hW]
  dsimp only
  rw [if_neg hkept]

/-- R55, R57: a fill that has read its bytes puts them in its slot, which is VALID. -/
theorem finishFill_ok {s : State} {c : Nat} {o o' : POp} {bs : List Byte} (hq : (coreOf s c).probe.queue = [o'])
    (hno : o'.no = o.no) (hdrop : ∀ x ∈ (coreOf s c).probe.slots, x.2.drop_ = false) (hbar : o.bar = none)
    (hlen : bs.length = 2048) (hsram : inSram (slotPa s c o.slot) = true)
    (herr : spanError s (slotPa s c o.slot) 2048 = none) (hwf : Memory.wf s.mem = true) :
    slotOf (finishFill s c o (.ok bs)) c o.slot = { slotOf s c o.slot with state := 2 } ∧
    (coreOf (finishFill s c o (.ok bs)) c).probe.tl = o.no ∧ (coreOf (finishFill s c o (.ok bs)) c).probe.queue = [] ∧
    ∀ b, memByte (finishFill s c o (.ok bs)).mem b = if slotPa s c o.slot ≤ b ∧ b < slotPa s c o.slot + 2048 then
      bs[b - slotPa s c o.slot]?.getD 0 else memByte s.mem b := by
  obtain ⟨s1, hs1⟩ : ∃ s1, s1 = (performWrite s (whoCtx (probeCtx c)) (slotPa s c o.slot) bs o.va).2 := ⟨_, rfl⟩
  have hwrite : s1 = (sramPut (bs.length + 1) s (slotPa s c o.slot) bs).2 := by
    rw [hs1, performWrite_sram (by rw [hlen]; exact herr) hsram]
  have haligned : slotPa s c o.slot % 32 = 0 := by
    rw [slotPa]
    omega
  obtain ⟨hshape, hbytes⟩ := sramPut_words c (bs.length + 1) s (slotPa s c o.slot) bs haligned (by rw [hlen]) (Nat.lt_succ_self _) hwf
  rw [← hwrite] at hshape hbytes
  rw [hlen] at hbytes
  obtain ⟨s2, hs2⟩ : ∃ s2, s2 = setSlot s1 c o.slot { slotOf s c o.slot with state := 2 } := ⟨_, rfl⟩
  have hprobe : (coreOf s2 c).probe = { (coreOf s1 c).probe with
      slots := mput o.slot { slotOf s c o.slot with state := 2 } (coreOf s1 c).probe.slots } := by
    rw [hs2, slots_setValid]
  have hfinish : finishFill s c o (.ok bs) = popProbe s2 c o := by
    rw [finishFill_eq (slotOf_noDrop hdrop _), ← hs1, ← hs2]
  have hdrop2 : ∀ x ∈ (coreOf s2 c).probe.slots, x.2.drop_ = false := by
    rw [hprobe]
    intro x hx
    obtain rfl | hx := mem_mput _ _ _ _ hx
    · exact slotOf_noDrop hdrop _
    · exact noDrop_of_shape hshape hdrop x hx
  have hq2 : (coreOf s2 c).probe.queue = [o'] := by
    rw [hprobe]
    exact (queue_of_shape hshape).trans hq
  obtain ⟨hpop, hmem⟩ := popProbe_alone hq2 hno hdrop2 hbar
  rw [hfinish]
  refine ⟨?_, by rw [hpop], by rw [hpop], fun b => ?_⟩
  · rw [slotOf, hpop, hprobe]
    exact mgetD_mput_same ..
  · rw [hmem, show s2.mem = s1.mem by rw [hs2]; rfl, hbytes]

end Sys2Proof.Machine

namespace Sys2Proof.Machine

/-- Who has nothing to wait for at HBM goes on. -/
theorem hbmOpen {s : State} {pa : Nat} (h : inHbm pa = true → inWindow s = false) : (inHbm pa && inWindow s) = false := by
  by_cases hpa : inHbm pa = true
  · rw [h hpa, Bool.and_false]
  · rw [Bool.not_eq_true] at hpa
    rw [hpa, Bool.false_and]

/-- R39, R57: a fill whose turn it is reads its block and ends with it. -/
theorem performProbe_fill {s : State} {c : Nat} {o : POp} {pa : Nat} {g : Got} (hq : (coreOf s c).probe.queue = [o])
    (hfill : o.fill = true) (hopen : (inHbm pa && inWindow s) = false)
    (hturn : turnAll s [(pa, 2048), (slotPa s c o.slot, 2048)] o.bank.refused = .now)
    (hread : readPa (probeTaken s c o [(pa, 2048), (slotPa s c o.slot, 2048)]) (whoCtx (probeCtx c)) pa 2048 o.va =
      (g, probeTaken s c o [(pa, 2048), (slotPa s c o.slot, 2048)])) (herr : g.err = none) :
    performProbe s c o pa = finishFill (probeTaken s c o [(pa, 2048), (slotPa s c o.slot, 2048)]) c o (.ok g.bytes) := by
  obtain ⟨R, hR⟩ : ∃ R, R = @readPa := ⟨_, rfl⟩
  obtain ⟨F, hF⟩ : ∃ F, F = @finishFill := ⟨_, rfl⟩
  obtain ⟨W, hW⟩ : ∃ W, W = @performWrite := ⟨_, rfl⟩
  unfold performProbe
  rw [← hR] at hread ⊢
  rw [← hF, ← hW, hopen, hfill]
  simp only [Bool.false_eq_true, if_false, if_true]
  rw [probeServed_now hq hturn, hread, herr]

/-- R39, R57: a write-back whose turn it is and whose write meets no error ends. -/
theorem performProbe_writeback {s s1 : State} {c : Nat} {o : POp} {pa : Nat} (hq : (coreOf s c).probe.queue = [o])
    (hfill : o.fill = false) (hopen : (inHbm pa && inWindow s) = false)
    (hturn : turnAll s [(pa, 2048)] o.bank.refused = .now)
    (hwrite : performWrite (probeTaken s c o [(pa, 2048)]) (whoCtx (probeCtx c)) pa o.data o.va = (none, s1)) :
    performProbe s c o pa = popProbe s1 c o := by
  obtain ⟨R, hR⟩ : ∃ R, R = @readPa := ⟨_, rfl⟩
  obtain ⟨F, hF⟩ : ∃ F, F = @finishFill := ⟨_, rfl⟩
  obtain ⟨W, hW⟩ : ∃ W, W = @performWrite := ⟨_, rfl⟩
  unfold performProbe
  rw [← hW] at hwrite ⊢
  rw [← hF, ← hR, hopen, hfill]
  simp only [Bool.false_eq_true, if_false]
  rw [probeServed_now hq hturn, hwrite]

/-- FILL_COMPLETE of a fill alone in its queue whose turn it is (R39, R55, R57). -/
theorem fillComplete_ok {s : State} {c : Nat} {o : POp} {pa : Nat} {g : Got} (hq : (coreOf s c).probe.queue = [o])
    (hissued : o.issued.isSome = true) (hdone : o.done = false) (hplace : o.place = some (pa, none))
    (hopen : inHbm pa = true → inWindow s = false) (hbar : o.bar = none) (herr : g.err = none)
    (hdrop : ∀ x ∈ (coreOf s c).probe.slots, x.2.drop_ = false) (hfill : o.fill = true)
    (hturn : turnAll s [(pa, 2048), (slotPa s c o.slot, 2048)] o.bank.refused = .now)
    (hread : readPa (probeTaken s c o [(pa, 2048), (slotPa s c o.slot, 2048)]) (whoCtx (probeCtx c)) pa 2048 o.va =
      (g, probeTaken s c o [(pa, 2048), (slotPa s c o.slot, 2048)]))
    (hlen : g.bytes.length = 2048) (hsram : inSram (slotPa s c o.slot) = true)
    (hspan : spanError s (slotPa s c o.slot) 2048 = none) (hwf : Memory.wf s.mem = true) :
    ∃ s', exec (.fillComplete c o.no) s = .next s' ∧ slotOf s' c o.slot = { slotOf s c o.slot with state := 2 } ∧
      (coreOf s' c).probe.tl = o.no ∧ (coreOf s' c).probe.queue = [] ∧
      ∀ b, memByte s'.mem b = if slotPa s c o.slot ≤ b ∧ b < slotPa s c o.slot + 2048 then
        g.bytes[b - slotPa s c o.slot]?.getD 0 else memByte s.mem b := by
  have hstep : probeStep s c o.no true =
      finishFill (probeTaken s c o [(pa, 2048), (slotPa s c o.slot, 2048)]) c o (.ok g.bytes) := by
    rw [← hfill, probeStep_perform hq hissued hdone hplace, performProbe_fill hq hfill (hbmOpen hopen) hturn hread herr]
  obtain ⟨s0, hs0⟩ : ∃ s0, s0 = probeTaken s c o [(pa, 2048), (slotPa s c o.slot, 2048)] := ⟨_, rfl⟩
  have hprobe : (coreOf s0 c).probe = { (coreOf s c).probe with queue := [{ o with bank := ⟨0, []⟩ }] } := by
    rw [hs0, probe_probeTaken _ hq]
  have hpa : slotPa s0 c o.slot = slotPa s c o.slot := by rw [hs0, slotPa_probeTaken _ hq]
  have hslot : slotOf s0 c o.slot = slotOf s c o.slot := by rw [hs0, slotOf_probeTaken _ hq]
  have hmem : s0.mem = s.mem := by rw [hs0, mem_probeTaken]
  have hend := finishFill_ok (s := s0) (c := c) (o := o) (o' := { o with bank := ⟨0, []⟩ }) (bs := g.bytes)
    (by rw [hprobe]) rfl (by rw [hprobe]; exact hdrop) hbar hlen
    (by rw [hpa]; exact hsram) (by rw [hpa, hs0, spanError_probeTaken]; exact hspan) (by rw [hmem]; exact hwf)
  rw [hpa, hslot, hmem] at hend
  rw [← hs0] at hstep
  exact ⟨finishFill s0 c o (.ok g.bytes), congrArg _ hstep, hend⟩

/-- WRITEBACK_COMPLETE of a write-back alone in its queue whose turn it is (R39, R57). -/
theorem writebackComplete_ok {s s1 : State} {c : Nat} {o : POp} {pa : Nat} (hq : (coreOf s c).probe.queue = [o])
    (hissued : o.issued.isSome = true) (hdone : o.done = false) (hplace : o.place = some (pa, none))
    (hopen : inHbm pa = true → inWindow s = false) (hbar : o.bar = none)
    (hdrop : ∀ x ∈ (coreOf s c).probe.slots, x.2.drop_ = false) (hfill : o.fill = false)
    (hturn : turnAll s [(pa, 2048)] o.bank.refused = .now)
    (hwrite : performWrite (probeTaken s c o [(pa, 2048)]) (whoCtx (probeCtx c)) pa o.data o.va = (none, s1))
    (hcore : coreOf s1 c = coreOf (probeTaken s c o [(pa, 2048)]) c) :
    ∃ s', exec (.writebackComplete c o.no) s = .next s' ∧ (coreOf s' c).probe.tl = o.no ∧
      (coreOf s' c).probe.queue = [] ∧ s'.mem = s1.mem := by
  have hstep : probeStep s c o.no false = popProbe s1 c o := by
    rw [← hfill, probeStep_perform hq hissued hdone hplace, performProbe_writeback hq hfill (hbmOpen hopen) hturn hwrite]
  have hprobe : (coreOf s1 c).probe = { (coreOf s c).probe with queue := [{ o with bank := ⟨0, []⟩ }] } := by
    rw [hcore, probe_probeTaken _ hq]
  obtain ⟨hpop, hmem⟩ := popProbe_alone (s := s1) (c := c) (o := o) (o' := { o with bank := ⟨0, []⟩ })
    (by rw [hprobe]) rfl (by rw [hprobe]; exact hdrop) hbar
  exact ⟨popProbe s1 c o, congrArg _ hstep, by rw [hpop], by rw [hpop], hmem⟩

end Sys2Proof.Machine

namespace Sys2Proof.Machine

/-! Writes of control-register space (R4, R396) -/

/-- The bits of a register that n bytes from its byte k cover. -/
def coveredBits (k n : Nat) : Word := BitVec.ofNat 64 ((2 ^ (8 * n) - 1) * 2 ^ (8 * k))

/-- What n bytes stored from byte k of a register make of it. -/
def storedWord (k n : Nat) (v old : Word) : Word :=
  (old &&& ~~~(coveredBits k n)) ||| ((v <<< (8 * k)) &&& coveredBits k n)

theorem merged_eq (k n : Nat) (v old img : Word) :
    merged old ((v <<< (8 * k)) &&& coveredBits k n) (coveredBits k n) img = storedWord k n v old &&& img := rfl

/-- Byte k of the register at offset o. -/
def RegisterByte (pa o k : Nat) : Prop := pa % 8 = k ∧ pa - ctlBase - k = o

theorem registerByte {o k : Nat} (ho : o % 8 = 0) (hk : k < 8) : RegisterByte (ctlBase + o + k) o k := by
  rw [RegisterByte, ctlBase]
  omega

/-- R396, R17: what a write of control-register space is. The registers are held opaque, or the kernel would evaluate
them at the given offset. -/
theorem controlRegisterWrite_eq {pa o k : Nat} (h : RegisterByte pa o k) (n : Nat) (v : Word) (s : State) :
    exec (.controlRegisterWrite pa n v) s = (ctlReg s o).elim (.next (logNoTarget s { die := 0, core := 0 } pa 0))
      (fun _ => ctlWrite s o ((v <<< (8 * k)) &&& coveredBits k n) (coveredBits k n)) := by
  obtain ⟨hbyte, hoff⟩ := h
  have hexec : exec (.controlRegisterWrite pa n v) s = execControlRegisterWrite pa n v s := rfl
  obtain ⟨R, hR⟩ : ∃ R, R = ctlReg := ⟨_, rfl⟩
  obtain ⟨W, hW⟩ : ∃ W, W = ctlWrite := ⟨_, rfl⟩
  obtain ⟨F, hF⟩ : ∃ F, F = execControlRegisterWrite := ⟨_, rfl⟩
  rw [hexec, ← hF, ← hR, ← hW]
  delta execControlRegisterWrite at hF
  rw [← hR, ← hW] at hF
  rw [hF]
  simp only [hbyte, hoff, coveredBits]
  cases R s o
  · rfl
  · rfl

theorem controlRegisterWrite_assigned {s : State} {o k n : Nat} {v old : Word} (ho : o % 8 = 0) (hk : k < 8)
    (hreg : ctlReg s o = some old) : exec (.controlRegisterWrite (ctlBase + o + k) n v) s =
      ctlWrite s o ((v <<< (8 * k)) &&& coveredBits k n) (coveredBits k n) := by
  rw [controlRegisterWrite_eq (registerByte ho hk), hreg, Option.elim_some]

theorem controlRegisterWrite_unassigned {s : State} {o k n : Nat} {v : Word} (ho : o % 8 = 0) (hk : k < 8)
    (hreg : ctlReg s o = none) : exec (.controlRegisterWrite (ctlBase + o + k) n v) s =
      .next (logNoTarget s { die := 0, core := 0 } (ctlBase + o + k) 0) := by
  rw [controlRegisterWrite_eq (registerByte ho hk), hreg, Option.elim_none]

/-- A whole register stored. -/
theorem covered_whole (v : Word) : (v <<< (8 * 0)) &&& coveredBits 0 8 = v := by
  rw [show coveredBits 0 8 = BitVec.allOnes 64 from rfl, BitVec.and_allOnes, Nat.mul_zero, BitVec.shiftLeft_zero]

/-- A store of a whole assigned register. -/
theorem controlRegisterWrite_whole {s : State} {o : Nat} {v old : Word} (ho : o % 8 = 0) (hreg : ctlReg s o = some old) :
    exec (.controlRegisterWrite (ctlBase + o) 8 v) s = ctlWrite s o v (BitVec.allOnes 64) := by
  rw [show ctlBase + o = ctlBase + o + 0 from rfl, controlRegisterWrite_assigned ho (by decide) hreg, covered_whole]
  rfl

/-! Registers of plain fields -/

/-- The register at offset o keeps what is stored, its bits outside img 0, and nothing else of memory or cores changes. -/
def PlainRegister (s : State) (o : Nat) (old img : Word) : Prop :=
  ∀ v m, ∃ s', ctlWrite s o v m = .next s' ∧ ctlReg s' o = some (merged old v m img) ∧ s'.mem = s.mem ∧ s'.cores = s.cores

theorem controlRegisterWrite_plain {s : State} {o k n : Nat} {v old img : Word} (ho : o % 8 = 0) (hk : k < 8)
    (hreg : ctlReg s o = some old) (hplain : PlainRegister s o old img) :
    ∃ s', exec (.controlRegisterWrite (ctlBase + o + k) n v) s = .next s' ∧
      ctlReg s' o = some (storedWord k n v old &&& img) ∧ s'.mem = s.mem ∧ s'.cores = s.cores := by
  rw [controlRegisterWrite_assigned ho hk hreg]
  exact hplain _ _

theorem plain_tlbiVa {s : State} {old : Word} (h : ctlReg s 0x1000 = some old) : PlainRegister s 0x1000 old 0x00FFFFFFFFFF0000 := by
  obtain rfl : s.tlbiq.va = old := Option.some.inj h
  exact fun v m => ⟨_, rfl, rfl, rfl, rfl⟩

theorem plain_pcerrcfg {s : State} {old : Word} (h : ctlReg s 0x2000038 = some old) : PlainRegister s 0x2000038 old 0xFF0F := by
  obtain rfl : s.hbm.pcerrcfg = old := Option.some.inj h
  exact fun v m => ⟨_, rfl, rfl, rfl, rfl⟩

theorem plain_lpbase {s : State} {old : Word} (h : ctlReg s 0x4000008 = some old) :
    PlainRegister s 0x4000008 old 0x000FFFFFFFFFFFF0 := by
  obtain rfl : s.weir.lpbase = old := Option.some.inj h
  exact fun v m => ⟨_, rfl, rfl, rfl, rfl⟩

theorem plain_nlayer {s : State} {old : Word} (h : ctlReg s 0x4000010 = some old) : PlainRegister s 0x4000010 old 0x1FFFF := by
  obtain rfl : s.weir.nlayer = old := Option.some.inj h
  exact fun v m => ⟨_, rfl, rfl, rfl, rfl⟩

theorem plain_auditBuf {s : State} {old : Word} (h : ctlReg s 0x6000008 = some old) :
    PlainRegister s 0x6000008 old 0xFFFFFFFFFFF00000 := by
  obtain rfl : s.auditor.buf = old := Option.some.inj h
  exact fun v m => ⟨_, rfl, rfl, rfl, rfl⟩

theorem plain_cap {s : State} {old : Word} (h : ctlReg s 0xA000028 = some old) : PlainRegister s 0xA000028 old 0xFFFF := by
  obtain rfl : s.plat.cap = old := Option.some.inj h
  exact fun v m => ⟨_, rfl, rfl, rfl, rfl⟩

/-- Where the block of a die's scheduler lies (R160). -/
theorem schedOffset {o d x : Nat} (ho : o = 0x5000000 + 0x10000 * d + x) (hd : d < 4) (hx : x < 0x2000) :
    ¬ o < 0x2000 ∧ o / 0x1000000 = 5 ∧ o % 0x1000000 / 0x10000 = d ∧ o % 0x1000000 % 0x10000 = x ∧ o % 0x10000 = x ∧
      o % 0x1000000 < 0x40000 := by
  omega

theorem ctlReg_sched {s : State} {d x : Nat} (hd : d < 4) (hx : x < 0x2000) :
    ctlReg s (0x5000000 + 0x10000 * d + x) = schedReg s d x := by
  obtain ⟨hlow, hblock, hdie, -, hoff, hlt⟩ := schedOffset rfl hd hx
  simp only [ctlReg, hlow, hblock, hdie, hoff, hlt, if_true, if_false]

theorem ctlWrite_sched {s : State} {d x : Nat} (hd : d < 4) (hx : x < 0x2000) (v m : Word) :
    ctlWrite s (0x5000000 + 0x10000 * d + x) v m = schedWrite s d x v m := by
  obtain ⟨hlow, hblock, hdie, hoff, -, -⟩ := schedOffset rfl hd hx
  simp only [ctlWrite, hlow, hblock, hdie, hoff, if_false]

theorem plain_spill {s : State} {d : Nat} {old : Word} (hd : d < 4) (h : ctlReg s (0x5000010 + 0x10000 * d) = some old) :
    PlainRegister s (0x5000010 + 0x10000 * d) old 0xFFFFFFFFFFFF0000 := by
  rw [show 0x5000010 + 0x10000 * d = 0x5000000 + 0x10000 * d + 0x10 by omega] at h ⊢
  rw [ctlReg_sched hd (by decide)] at h
  obtain rfl : (dieOf s d).spill = old := Option.some.inj h
  intro v m
  refine ⟨_, ctlWrite_sched hd (by decide) v m, ?_, modDie_mem .., modDie_cores ..⟩
  rw [ctlReg_sched hd (by decide)]
  show some (dieOf _ d).spill = _
  rw [dieOf_modDie _ _ _ hd]

theorem plain_save {s : State} {d : Nat} {old : Word} (hd : d < 4) (h : ctlReg s (0x5000018 + 0x10000 * d) = some old) :
    PlainRegister s (0x5000018 + 0x10000 * d) old 0xFFFFFFFFFFF80000 := by
  rw [show 0x5000018 + 0x10000 * d = 0x5000000 + 0x10000 * d + 0x18 by omega] at h ⊢
  rw [ctlReg_sched hd (by decide)] at h
  obtain rfl : (dieOf s d).save = old := Option.some.inj h
  intro v m
  refine ⟨_, ctlWrite_sched hd (by decide) v m, ?_, modDie_mem .., modDie_cores ..⟩
  rw [ctlReg_sched hd (by decide)]
  show some (dieOf _ d).save = _
  rw [dieOf_modDie _ _ _ hd]

/-! The placement masks of HBM (R66, R69) -/

theorem controlRegisterWrite_mask {s : State} {o k n : Nat} {v old : Word} (ho : o ∈ [0x2000020, 0x2000028, 0x2000030]) (hk : k < 8)
    (hreg : ctlReg s o = some old) : ∃ s', exec (.controlRegisterWrite (ctlBase + o + k) n v) s = .next s' ∧
      ctlReg s' o = some ((old &&& 0xFFFFFFFF00000000) ||| (storedWord k n v old &&& 0xFFFFFFFF)) ∧
      s'.mem = s.mem ∧ s'.cores = s.cores := by
  have haligned : o % 8 = 0 := (show ∀ x ∈ [0x2000020, 0x2000028, 0x2000030], x % 8 = 0 by decide) o ho
  rw [controlRegisterWrite_assigned haligned hk hreg]
  simp only [List.mem_cons, List.not_mem_nil, or_false] at ho
  obtain rfl | rfl | rfl := ho
  · obtain rfl : s.hbm.maskStack = old := Option.some.inj hreg
    exact ⟨_, rfl, rfl, rfl, rfl⟩
  · obtain rfl : s.hbm.maskCh = old := Option.some.inj hreg
    exact ⟨_, rfl, rfl, rfl, rfl⟩
  · obtain rfl : s.hbm.maskPc = old := Option.some.inj hreg
    exact ⟨_, rfl, rfl, rfl, rfl⟩

/-! The job table (R388) -/

theorem controlRegisterWrite_job {s : State} {j i k n : Nat} {v old : Word} (hj : j < 256) (hi : i ≤ 12) (hk : k < 8)
    (hreg : ctlReg s (0x9000000 + 256 * j + 8 * (i + 1)) = some old) :
    ∃ s', exec (.controlRegisterWrite (ctlBase + (0x9000000 + 256 * j + 8 * (i + 1)) + k) n v) s = .next s' ∧
      jobEntry s' j = ((jobEntry s j).1, setJobWord (jobEntry s j).2 i (storedWord k n v old)) ∧
      (∀ l, l ≠ j → jobEntry s' l = jobEntry s l) ∧ s'.mem = s.mem ∧ s'.cores = s.cores := by
  rw [controlRegisterWrite_assigned (by omega) hk hreg]
  obtain ⟨o, ho⟩ : ∃ o, o = 0x9000000 + 256 * j + 8 * (i + 1) := ⟨_, rfl⟩
  rw [← ho] at hreg ⊢
  have hlow : ¬ o < 0x2000 := by omega
  have hblock : o / 0x1000000 = 9 := by omega
  have hentry : o % 0x1000000 / 256 = j := by omega
  have hword : o % 256 = 8 * (i + 1) := by omega
  have hword' : o % 0x1000000 % 256 = 8 * (i + 1) := by omega
  have hlt : o % 0x1000000 < 0x10000 := by omega
  have hne : 8 * (i + 1) ≠ 0 := by omega
  have hindex : 8 * (i + 1) / 8 - 1 = i := by omega
  have hold : jobWord (jobEntry s j).2 i = old := by
    simpa only [ctlReg, hlow, hblock, hentry, hword, hlt, jobReg, hne, hindex, if_true, if_false, Option.some.injEq] using hreg
  simp only [ctlWrite, hlow, hblock, hentry, hword', jobWrite, hne, hindex, Nat.not_lt.mpr hi, if_false, hold, merged_eq,
    BitVec.and_allOnes]
  refine ⟨_, rfl, ?_, fun l hl => ?_, rfl, rfl⟩
  · exact mgetD_mput_same ..
  · exact mgetD_mput_other _ _ _ _ _ hl

/-! Registers of flags (R5) -/

theorem controlRegisterWrite_ovrf (v : Word) (s : State) :
    exec (.controlRegisterWrite 0xF000007000008 8 v) s = .next { s with dredge := { s.dredge with ovrf := v.getLsbD 0 } } := by
  have hbit (old : Word) : (merged old v (BitVec.allOnes 64) 1 == 1) = v.getLsbD 0 := by
    have hone : merged old v (BitVec.allOnes 64) 1 = BitVec.setWidth 64 (BitVec.ofBool (v.getLsbD 0)) := by
      rw [← BitVec.and_one_eq_setWidth_ofBool_getLsbD]
      simp [merged]
    rw [hone]
    cases v.getLsbD 0
    · rfl
    · rfl
  rw [show 0xF000007000008 = ctlBase + 0x7000008 from rfl, controlRegisterWrite_whole (by decide) rfl]
  show Host.Outcome.next (modDredge s (fun d => { d with ovrf := merged _ v (BitVec.allOnes 64) 1 == 1 })) = _
  simp only [hbit]
  rfl

theorem controlRegisterWrite_tlbiVaHigh (v : Word) (s : State) :
    exec (.controlRegisterWrite 0xF000000001004 4 v) s = .next { s with tlbiq := { s.tlbiq with
      va := ((s.tlbiq.va &&& 0xFFFFFFFF) ||| ((v &&& 0xFFFFFFFF) <<< 32)) &&& 0x00FFFFFFFFFF0000 } } := by
  have hput (old : Word) : storedWord 4 4 v old = (old &&& 0xFFFFFFFF) ||| ((v &&& 0xFFFFFFFF) <<< 32) := by
    rw [BitVec.shiftLeft_and_distrib]
    rfl
  rw [show 0xF000000001004 = ctlBase + 0x1000 + 4 from rfl, controlRegisterWrite_assigned (by decide) (by decide) rfl]
  show Host.Outcome.next { s with tlbiq := { s.tlbiq with va := merged s.tlbiq.va _ _ 0x00FFFFFFFFFF0000 } } = _
  rw [merged_eq, hput]

theorem controlRegisterWrite_tlbiOvf (v : Word) (s : State) : exec (.controlRegisterWrite 0xF000000001010 8 v) s =
    .next (if v.getLsbD 1 then { s with tlbiq := { s.tlbiq with ovf := false } } else s) :=
  controlRegisterWrite_whole (o := 0x1010) (by decide) rfl

theorem controlRegisterWrite_hbmOvf (v : Word) (s : State) : exec (.controlRegisterWrite 0xF000002000010 8 v) s =
    .next (if v.getLsbD 1 then { s with hbm := { s.hbm with ovf := false } } else s) :=
  controlRegisterWrite_whole (o := 0x2000010) (by decide) rfl

theorem controlRegisterWrite_eddyOvf (v : Word) (s : State) : exec (.controlRegisterWrite 0xF000003000010 8 v) s =
    .next (if v.getLsbD 1 then { s with eddy := { s.eddy with ovf := false } } else s) :=
  controlRegisterWrite_whole (o := 0x3000010) (by decide) rfl

theorem controlRegisterWrite_quoteOvf (v : Word) (s : State) : exec (.controlRegisterWrite 0xF00000A000018 8 v) s =
    .next (if v.getLsbD 1 then { s with plat := { s.plat with quoteOvf := false } } else s) :=
  controlRegisterWrite_whole (o := 0xA000018) (by decide) rfl

theorem controlRegisterWrite_weirFlags (v : Word) (s : State) : exec (.controlRegisterWrite 0xF000004000028 8 v) s =
    .next { s with weir := { s.weir with ovr := s.weir.ovr && !v.getLsbD 2, errstop := s.weir.errstop && !v.getLsbD 1 } } :=
  controlRegisterWrite_whole (o := 0x4000028) (by decide) rfl

end Sys2Proof.Machine

namespace Sys2Proof.Machine

/-! Stores of the control cores (R384, R396) -/

theorem length_leBytes (n v : Nat) : (leBytes n v).length = n := by
  induction n generalizing v with
  | zero => rfl
  | succ n ih => rw [leBytes, List.length_cons, ih]

theorem getElem?_leBytes {n i : Nat} (v : Nat) (hi : i < n) : (leBytes n v)[i]? = some (BitVec.ofNat 8 (v / 2 ^ (8 * i))) := by
  induction n generalizing v i with
  | zero => exact absurd hi (Nat.not_lt_zero _)
  | succ n ih =>
    cases i with
    | zero => simp [leBytes]
    | succ i =>
      rw [leBytes, List.getElem?_cons_succ, ih _ (Nat.lt_of_succ_lt_succ hi), Nat.div_div_eq_div_mul,
        show 8 * (i + 1) = 8 + 8 * i by omega, pow_add, show 2 ^ 8 = 256 from rfl]

/-! What a write of part of a sound word does (R47, R48) -/

theorem sramPut_nil (f : Nat) (s : State) (pa : Nat) : sramPut f s pa [] = (none, s) := by
  cases f with
  | zero => rfl
  | succ f => simp [sramPut]

theorem sramPut_part {s : State} {pa f : Nat} {bs : List Byte} (hbs : bs ≠ []) (hword : pa % 32 + bs.length ≤ 32)
    (herr : mget (pa / 32) s.sramErr = none) : (sramPut (f + 1) s pa bs).2 =
      sramEffects { s with mem := memWrite s.mem pa bs, sramErr := mdel (pa / 32) s.sramErr } pa bs.length := by
  have htake : bs.take (32 - pa % 32) = bs := List.take_of_length_le (by omega)
  have hdrop : bs.drop (32 - pa % 32) = [] := List.drop_eq_nil_of_le (by omega)
  rw [sramPut, if_neg (by simpa using hbs)]
  simp only [htake, hdrop, herr, true_or, if_true, sramPut_nil]

theorem harts_evalWatches (s : State) (pa n : Nat) : (evalWatches s pa n).harts = s.harts := by
  unfold evalWatches
  refine foldl_keeps (fun x => x.harts = s.harts) _ (fun x ck hx => ?_) _ s rfl
  split
  · exact hx
  · dsimp only
    split
    · refine foldl_keeps (fun y => y.harts = s.harts) _ (fun y w hy => ?_) _ x hx
      split
      · exact (modThread_harts ..).trans hy
      · exact hy
    · exact hx

theorem harts_sramEffects (s : State) (pa n : Nat) : (sramEffects s pa n).harts = s.harts := by
  unfold sramEffects dirtySlots
  dsimp only
  split
  · exact harts_evalWatches s pa n
  · exact harts_evalWatches s pa n

theorem clearTags_eq (s : State) (pa n : Nat) : (clearTags s pa n).mem = s.mem ∧ (clearTags s pa n).harts = s.harts :=
  foldl_keeps (fun x : State => x.mem = s.mem ∧ x.harts = s.harts) (fun x g => setTag x g Tag.empty) (fun _ _ hx => hx) _ s
    ⟨rfl, rfl⟩

/-- The store has left the hart's list. -/
def storeTaken (s : State) (h pa len : Nat) (v : Word) : State :=
  modHart s h (fun k => { k with stores := k.stores.erase (pa, len, v) })

theorem storeTaken_eq {s : State} {h : Nat} (hp : h < 16) (pa len : Nat) (v : Word) : storeTaken s h pa len v =
    { s with harts := s.harts.set h { s.harts[h] with stores := s.harts[h].stores.erase (pa, len, v) } } := by
  rw [storeTaken, modHart, dif_pos hp]

theorem inCtl_of_inSram {pa : Nat} (h : inSram pa = true) : inCtl pa = false := by
  have hpa : pa < 0x400000000 := by simpa [inSram] using h
  rw [inCtl, decide_eq_false_iff_not, ctlBase]
  omega

theorem inHbm_of_inSram {pa : Nat} (h : inSram pa = true) : inHbm pa = false := by
  have hpa : pa < 0x400000000 := by simpa [inSram] using h
  rw [inHbm, decide_eq_false_iff_not, hbmBase]
  omega

theorem inHbm_of_inCtl {pa : Nat} (h : inCtl pa = true) : inHbm pa = false := by
  have hpa : ctlBase ≤ pa ∧ pa < ctlBase + 0x100000000 := by simpa [inCtl] using h
  rw [ctlBase] at hpa
  rw [inHbm, decide_eq_false_iff_not, hbmBase]
  omega

theorem quokorStore_memory {s : State} {h pa len : Nat} {v : Word} (hhbm : inHbm pa = false) (hctl : inCtl pa = false) :
    exec (.quokorStore h pa len v) s =
      .next (clearTags (performWrite (storeTaken s h pa len v) whoQuokor pa (leBytes len v.toNat)).2 pa len) := by
  have hexec : exec (.quokorStore h pa len v) s = execQuokorStore h pa len v s := rfl
  obtain ⟨W, hW⟩ : ∃ W, W = @performWrite := ⟨_, rfl⟩
  rw [hexec]
  unfold execQuokorStore
  rw [← hW, hhbm, hctl]
  rfl

theorem quokorStore_control {s : State} {h pa len : Nat} {v : Word} (hctl : inCtl pa = true) :
    exec (.quokorStore h pa len v) s =
      .next (pushEvs (storeTaken s h pa len v) [.controlRegisterWrite (pa - pa % len) len v]) := by
  have hexec : exec (.quokorStore h pa len v) s = execQuokorStore h pa len v s := rfl
  obtain ⟨W, hW⟩ : ∃ W, W = @performWrite := ⟨_, rfl⟩
  rw [hexec]
  unfold execQuokorStore
  rw [← hW, inHbm_of_inCtl hctl, hctl]
  rfl

/-- R384: a store within a sound word of SRAM writes its bytes and leaves the hart's list. -/
theorem quokorStore_sram {s : State} {h pa len : Nat} {v : Word} (hp : h < 16) (hsram : inSram pa = true) (hpos : 0 < len)
    (hword : pa % 32 + len ≤ 32) (herr : mget (pa / 32) s.sramErr = none)
    (htarget : targetOf s pa = .sram (pa / 0x800000) (pa % 0x800000)) (hwf : Memory.wf s.mem = true) :
    ∃ s', exec (.quokorStore h pa len v) s = .next s' ∧ s'.harts[h].stores = s.harts[h].stores.erase (pa, len, v) ∧
      s'.harts[h].x = s.harts[h].x ∧ s'.harts[h].pc = s.harts[h].pc ∧
      ∀ a, memByte s'.mem a =
        if pa ≤ a ∧ a < pa + len then BitVec.ofNat 8 (v.toNat / 2 ^ (8 * (a - pa))) else memByte s.mem a := by
  obtain ⟨s1, hs1⟩ : ∃ s1, s1 = storeTaken s h pa len v := ⟨_, rfl⟩
  obtain ⟨bs, hbs⟩ : ∃ bs, bs = leBytes len v.toNat := ⟨_, rfl⟩
  have hlen : bs.length = len := by rw [hbs, length_leBytes]
  have htarget1 : targetOf s1 pa = .sram (pa / 0x800000) (pa % 0x800000) := by
    rw [hs1, storeTaken_eq hp]
    exact htarget
  have hmem1 : s1.mem = s.mem := by rw [hs1, storeTaken_eq hp]
  have herr1 : mget (pa / 32) s1.sramErr = none := by
    rw [hs1, storeTaken_eq hp]
    exact herr
  have hwrite : (performWrite s1 whoQuokor pa bs).2 =
      sramEffects { s1 with mem := memWrite s1.mem pa bs, sramErr := mdel (pa / 32) s1.sramErr } pa bs.length := by
    rw [performWrite_sram (spanError_sram (by omega) (by omega) htarget1) hsram,
      sramPut_part (List.length_pos_iff.mp (by omega)) (by omega) herr1]
  obtain ⟨s', hs'⟩ : ∃ s', s' = clearTags (performWrite s1 whoQuokor pa bs).2 pa len := ⟨_, rfl⟩
  obtain ⟨htagMem, htagHarts⟩ := clearTags_eq (performWrite s1 whoQuokor pa bs).2 pa len
  have hharts : s'.harts = s1.harts := by rw [hs', htagHarts, hwrite, harts_sramEffects]
  have hmem : s'.mem = memWrite s.mem pa bs := by rw [hs', htagMem, hwrite, mem_sramEffects, hmem1]
  have hhart : s1.harts[h] = { s.harts[h] with stores := s.harts[h].stores.erase (pa, len, v) } := by
    simp [hs1, storeTaken_eq hp]
  refine ⟨s', ?_, by rw [hharts, hhart], by rw [hharts, hhart], by rw [hharts, hhart], fun a => ?_⟩
  · rw [quokorStore_memory (inHbm_of_inSram hsram) (inCtl_of_inSram hsram), ← hs1, ← hbs, ← hs']
  · rw [hmem, memByte_memWrite _ _ _ hwf, hlen]
    split
    · next hin => rw [hbs, getElem?_leBytes _ (by omega), Option.getD_some]
    · rfl

/-- R396: a store to control-register space writes the aligned unit that holds its address. -/
theorem quokorStore_ctl {s : State} {h pa len : Nat} {v : Word} (hp : h < 16) (hctl : inCtl pa = true) :
    ∃ s', exec (.quokorStore h pa len v) s = .next s' ∧
      s'.todo = .ev (.controlRegisterWrite (pa - pa % len) len v) :: s.todo ∧ s'.mem = s.mem := by
  refine ⟨_, quokorStore_control hctl, ?_, ?_⟩
  · rw [storeTaken_eq hp]
    rfl
  · rw [storeTaken_eq hp]
    rfl

end Sys2Proof.Machine

namespace Sys2Proof.Machine

/-! The events on the memory side (O45) -/

/-- The registers of plain fields that O45 lists, with the bits they keep. -/
def plainRegisters (d : Nat) : List (Nat × Word) :=
  [(0x1000, (0x00FFFFFFFFFF0000 : Word)), (0x2000038, 0xFF0F), (0x4000008, 0x000FFFFFFFFFFFF0), (0x4000010, 0x1FFFF),
    (0x5000010 + 0x10000 * d, 0xFFFFFFFFFFFF0000), (0x5000018 + 0x10000 * d, 0xFFFFFFFFFFF80000),
    (0x6000008, 0xFFFFFFFFFFF00000), (0xA000028, 0xFFFF)]

theorem plainRegister_of_mem {s : State} {d : Nat} {r : Nat × Word} {old : Word} (hd : d < 4) (hr : r ∈ plainRegisters d)
    (hreg : ctlReg s r.1 = some old) : r.1 % 8 = 0 ∧ PlainRegister s r.1 old r.2 := by
  simp only [plainRegisters, List.mem_cons, List.not_mem_nil, or_false] at hr
  obtain rfl | rfl | rfl | rfl | rfl | rfl | rfl | rfl := hr
  · exact ⟨rfl, plain_tlbiVa hreg⟩
  · exact ⟨rfl, plain_pcerrcfg hreg⟩
  · exact ⟨rfl, plain_lpbase hreg⟩
  · exact ⟨rfl, plain_nlayer hreg⟩
  · exact ⟨by dsimp only; omega, plain_spill hd hreg⟩
  · exact ⟨by dsimp only; omega, plain_save hd hreg⟩
  · exact ⟨rfl, plain_auditBuf hreg⟩
  · exact ⟨rfl, plain_cap hreg⟩

/-- Settles O45: each event by what its function does. -/
theorem memorySideEvents : Obligations.MemorySideEvents := by
  unfold Obligations.MemorySideEvents
  refine ⟨?_, ?_, ?_, ?_, ?_, ?_, ?_⟩
  · intro c s sl
    refine ⟨scrubRead_off, fun hon => ⟨scrubRead_refused hon, fun hnow hsound => ⟨_, scrubRead_now hon hnow, ?_⟩⟩⟩
    rw [scrubWord_sound hsound]
    refine ⟨?_, mem_scrubPass s c, sramErr_scrubPass s c, (threadOf_modSlice ..).trans (threadOf_scrubPass s c)⟩
    simp only [modSlice, modCore, coreOf_setCore, scrub_scrubPass]
    rfl
  · intro c s o pa g _ hq hissued hdone hplace hopen hbar herr hdrop a spans s0 hturn
    refine ⟨fun hfill hread hlen hsram hspan hwf => ?_, fun hfill s1 hwrite hcore => ?_⟩
    · have hspans : spans = [(pa, 2048), (slotPa s c o.slot, 2048)] := by simp [spans, a, hfill]
      have hs0 : s0 = probeTaken s c o [(pa, 2048), (slotPa s c o.slot, 2048)] := by rw [probeTaken, ← hspans]
      rw [hspans] at hturn
      rw [hs0] at hread
      exact fillComplete_ok hq hissued hdone hplace hopen hbar herr hdrop hfill hturn hread hlen hsram hspan hwf
    · have hspans : spans = [(pa, 2048)] := by simp [spans, hfill]
      have hs0 : s0 = probeTaken s c o [(pa, 2048)] := by rw [probeTaken, ← hspans]
      rw [hspans] at hturn
      rw [hs0] at hwrite hcore
      exact writebackComplete_ok hq hissued hdone hplace hopen hbar hdrop hfill hturn hwrite hcore
  · intro c v s
    refine ⟨fun hsize hbase hidle hq => ⟨_, pccCfgWrite_taken hsize hbase hidle hq, ?_, rfl⟩,
      fun hbad => ⟨_, pccCfgWrite_refused hbad, ?_⟩⟩
    · rw [modCore, coreOf_setCore]
    · rw [modCore, coreOf_setCore]
  · exact fun v s => ⟨controlRegisterWrite_ovrf v s, controlRegisterWrite_tlbiVaHigh v s, controlRegisterWrite_tlbiOvf v s,
      controlRegisterWrite_hbmOvf v s, controlRegisterWrite_eddyOvf v s, controlRegisterWrite_quoteOvf v s,
      controlRegisterWrite_weirFlags v s⟩
  · intro k n d v old s hkn hn hd m put
    have hk : k < 8 := by omega
    refine ⟨fun r hr hreg => ?_, fun o ho hreg => controlRegisterWrite_mask ho hk hreg,
      fun j i hj hi hreg => controlRegisterWrite_job hj hi hk hreg, fun o ho hreg => controlRegisterWrite_unassigned ho hk hreg⟩
    obtain ⟨haligned, hplain⟩ := plainRegister_of_mem hd hr hreg
    exact controlRegisterWrite_plain haligned hk hreg hplain
  · intro h pa len v s hp hsram hlen hword herr htarget hwf
    exact quokorStore_sram hp hsram (by omega) hword herr htarget hwf
  · intro h pa len v s hp hctl _
    exact quokorStore_ctl hp hctl

end Sys2Proof.Machine

namespace Sys2Proof.Machine

/-! What the device's own entries leave as it was (R17, R47, R78, R334)

A write at its home changes memory, the watches and probe slots of cores and HBM's lists of bursts; an entry of a fault
queue changes the registers of its die's ring too. `besideStores` and `besideLogs` are the machine without these, so that
what such an operation leaves is one equation, and every field of the rest follows from it. -/

/-- The machine without what a write at its home may change, or a read of HBM that is counted. -/
def besideStores (s : State) : State :=
  { s with mem := [], sramErr := [], cores := [], hbm := { s.hbm with
      codes := [], weakBursts := [], badBursts := [], corrected := [], reported := [], lost := 0, unlogged := [], posted := [] } }

/-- A die without the registers of its fault queue that an entry moves. -/
def Die.besideRing (d : Die) : Die := { d with fqHead := 0, fqDrop := 0, fqHeld := [] }

/-- The machine without what an entry of a fault queue may change. -/
def besideLogs (s : State) : State := { besideStores s with dies := s.dies.map Die.besideRing }

/-- What every pass of a fold leaves of a state, the fold leaves. -/
theorem view_foldl {α β : Type} (v : State → β) {f : State → α → State} (h : ∀ s a, v (f s a) = v s) (l : List α) (s : State) :
    v (l.foldl f s) = v s :=
  foldl_keeps (fun x => v x = v s) f (fun _ _ hx => (h _ _).trans hx) l s rfl

theorem besideStores_modThread (s : State) (c : Nat) (f : Thread → Thread) : besideStores (modThread s c f) = besideStores s := by
  rw [modThread_eq]
  split
  · rfl
  · rfl

theorem besideStores_evalWatches (s : State) (pa n : Nat) : besideStores (evalWatches s pa n) = besideStores s := by
  unfold evalWatches
  refine view_foldl besideStores (fun s ck => ?_) _ s
  dsimp only
  split
  · rfl
  · split
    · refine view_foldl besideStores (fun s w => ?_) _ s
      split
      · exact besideStores_modThread ..
      · rfl
    · rfl

theorem besideStores_sramEffects (s : State) (pa n : Nat) : besideStores (sramEffects s pa n) = besideStores s := by
  unfold sramEffects dirtySlots
  dsimp only
  split
  · exact besideStores_evalWatches s pa n
  · exact besideStores_evalWatches s pa n

theorem besideStores_storeNow (s : State) (pa : Nat) (bs : List Byte) : besideStores (storeNow s pa bs) = besideStores s := by
  unfold storeNow
  split
  · exact besideStores_sramEffects ..
  · dsimp only
    repeat' split
    all_goals rfl
  · rfl

theorem besideStores_storeUnits (s : State) (pa : Nat) (bs : List Byte) : besideStores (storeUnits s pa bs) = besideStores s := by
  unfold storeUnits
  split
  · rfl
  · exact besideStores_storeNow ..

theorem besideLogs_of_stores {s s' : State} (h : besideStores s' = besideStores s) : besideLogs s' = besideLogs s :=
  congrArg (fun x : State => { x with dies := x.dies.map Die.besideRing }) h

theorem dies_of_besideStores {s s' : State} (h : besideStores s' = besideStores s) : s'.dies = s.dies := (congrArg State.dies h :)

theorem time_of_besideLogs {s s' : State} (h : besideLogs s' = besideLogs s) : s'.now = s.now ∧ s'.agenda = s.agenda :=
  ⟨(congrArg State.now h :), (congrArg State.agenda h :)⟩

theorem auditor_of_besideLogs {s s' : State} (h : besideLogs s' = besideLogs s) : s'.auditor = s.auditor :=
  (congrArg State.auditor h :)

/-- The registers of HBM's layout and of its commands are no matter of the logs. -/
theorem hbm_of_besideLogs {s s' : State} (h : besideLogs s' = besideLogs s) : s'.hbm.drop = s.hbm.drop ∧
    s'.hbm.busy = s.hbm.busy ∧ s'.hbm.gen = s.hbm.gen ∧ s'.hbm.live = s.hbm.live :=
  have hhbm := congrArg State.hbm h
  ⟨(congrArg Hbm.drop hhbm :), (congrArg Hbm.busy hhbm :), (congrArg Hbm.gen hhbm :), (congrArg Hbm.live hhbm :)⟩

/-- A change of a die's ring registers alone is none beside the logs. -/
theorem besideLogs_modDie (s : State) (d : Nat) {f : Die → Die} (hf : ∀ x, (f x).besideRing = x.besideRing) :
    besideLogs (modDie s d f) = besideLogs s := by
  unfold modDie
  split
  · next hd =>
    have hdies : (s.dies.set d (f s.dies[d])).map Die.besideRing = s.dies.map Die.besideRing := by
      rw [Vector.map_set, hf]
      ext i hi
      by_cases hid : d = i
      · simp [hid]
      · simp [hid]
    exact congrArg (fun v => { besideStores s with dies := v }) hdies
  · rfl

theorem besideLogs_fqWrite (s : State) (d : Nat) (ws : List Word) : besideLogs (fqWrite s d ws) = besideLogs s := by
  refine (besideLogs_modDie _ _ ?_).trans (besideLogs_of_stores (besideStores_storeUnits ..))
  exact fun _ => rfl

theorem besideLogs_fqEvent (s : State) (d : Nat) (ws : List Word) : besideLogs (fqEvent s d ws) = besideLogs s := by
  rcases fqEvent_cases s d ws with ⟨-, h⟩ | ⟨-, h⟩
  · rw [h, besideLogs_fqWrite]
  · rw [h]
    exact besideLogs_modDie s d (fun _ => rfl)

theorem besideLogs_fqFault (s : State) (d : Nat) (ws : List Word) : besideLogs (fqFault s d ws) = besideLogs s := by
  rcases fqFault_cases s d ws with ⟨-, -, h⟩ | ⟨-, h⟩
  · rw [h, besideLogs_fqWrite]
  · rw [h]
    exact besideLogs_modDie s d (fun _ => rfl)

theorem besideLogs_logEvent (s : State) (d cls cause core : Nat) (ga pa qw6 qw7 : Word) (req ctx : Nat) :
    besideLogs (logEvent s d cls cause core ga pa qw6 qw7 req ctx) = besideLogs s := besideLogs_fqEvent ..

/-- A die keeps all but its ring registers where the machine beside the logs is as it was. -/
theorem besideRing_dieOf {s s' : State} (h : besideLogs s' = besideLogs s) (d : Nat) :
    (dieOf s' d).besideRing = (dieOf s d).besideRing := by
  have hdies : s'.dies.map Die.besideRing = s.dies.map Die.besideRing := congrArg State.dies h
  unfold dieOf
  split
  · next hd => simpa using congrArg (fun v : Vector Die 4 => v[d]) hdies
  · rfl

/-- The rails of a die are no matter of the logs. -/
theorem rails_of_besideLogs {s s' : State} (h : besideLogs s' = besideLogs s) (d : Nat) :
    (dieOf s' d).failedRails = (dieOf s d).failedRails ∧ (dieOf s' d).recal = (dieOf s d).recal ∧
      (dieOf s' d).returning = (dieOf s d).returning :=
  have hring := besideRing_dieOf h d
  ⟨(congrArg Die.failedRails hring :), (congrArg Die.recal hring :), (congrArg Die.returning hring :)⟩

/-! Reads of HBM that are counted and reported (R78) -/

theorem besideLogs_pcFail (s : State) (g reason : Nat) : besideLogs (pcFail s g reason) = besideLogs s := besideLogs_logEvent ..

theorem besideLogs_burstCorrected (s : State) (h : Nat) : besideLogs (burstCorrected s h) = besideLogs s := by
  unfold burstCorrected
  dsimp only
  split
  · exact besideLogs_pcFail ..
  · rfl

theorem besideLogs_unitRead (s : State) (size u : Nat) : besideLogs (unitRead s size u) = besideLogs s := by
  have hweak : ∀ l : List Nat, besideLogs (l.foldl (fun s b => burstCorrected
      { s with hbm := { s.hbm with weakBursts := s.hbm.weakBursts.filter (· ≠ b) } } (32 * b)) s) = besideLogs s :=
    fun l => view_foldl besideLogs (fun s b => besideLogs_burstCorrected
      { s with hbm := { s.hbm with weakBursts := s.hbm.weakBursts.filter (· ≠ b) } } (32 * b)) l s
  unfold unitRead
  dsimp only
  split
  · exact (besideLogs_pcFail ..).trans (hweak _)
  · exact hweak _

end Sys2Proof.Machine

namespace Sys2Proof.Machine

/-! HBM commands (R70) -/

theorem hbmCmd_busy {s : State} (hbusy : s.hbm.busy = true) (no : Option Nat) (f : State → State) :
    hbmCmd s no f = .next { s with hbm := { s.hbm with ovf := true } } := by
  unfold hbmCmd
  rw [if_pos hbusy]
  rfl

theorem hbmCmd_performed {s : State} (hidle : s.hbm.busy = false) (f : State → State) :
    hbmCmd s none f = .next (f { s with hbm := { s.hbm with err := 0 } }) := by
  unfold hbmCmd
  rw [if_neg (by simp [hidle])]
  rfl

/-- A frame being made live. -/
def frameMaking (s : State) (f : Nat) (comp : Bool) : State :=
  let s := { s with hbm := { s.hbm with err := 0 } }
  modHbm (takeFree s).2 (fun h => { h with busy := true, making := some (f, comp && s.plat.accept.getLsbD 4) })

/-- R70: MAKELIVE of a dead frame in range is busy until its zero-fill is complete. -/
theorem makelive_ok {arg : BitVec 24} {s : State} (comp : Bool) (hidle : s.hbm.busy = false)
    (hrange : arg.toNat < nlive s * 12288) (hdead : frameLive s arg.toNat = false) :
    ∃ s' d, exec (.makelive arg comp) s = .next s' ∧ s'.hbm.busy = true ∧ s'.hbm.err = 0 ∧
      s'.hbm.making = some (arg.toNat, comp && s.plat.accept.getLsbD 4) ∧ 1 ≤ d ∧ d ≤ 2048 ∧
      s'.agenda = s.agenda ++ [⟨s.now + d, .makeliveComplete⟩] ∧ s'.mem = s.mem := by
  refine ⟨schedule (frameMaking s arg.toNat comp) (1 + Config.delay s.free % 2048) .makeliveComplete,
    1 + Config.delay s.free % 2048, ?_, ?_⟩
  · show execMakelive arg comp s = _
    unfold execMakelive
    dsimp only
    rw [if_neg (by omega), hdead, if_neg Bool.false_ne_true, hbmCmd_performed hidle]
    rfl
  · rw [schedule_hbm, schedule_mem, agenda_schedule _ _ _ (by omega)]
    exact ⟨rfl, rfl, rfl, by omega, by omega, rfl, rfl⟩

theorem mget_filter {α : Type} (p : Nat → Bool) (k : Nat) (m : Map α) :
    mget k (m.filter (fun x => p x.1)) = if p k then mget k m else none := by
  induction m with
  | nil => simp [mget]
  | cons x r ih =>
    obtain ⟨j, v⟩ := x
    rw [List.filter_cons]
    by_cases hj : p j = true
    · by_cases hk : j = k
      · simp [mget, hk ▸ hj, hk]
      · simp [mget, hj, hk, ih]
    · by_cases hk : j = k
      · simp [hj, ih, hk ▸ hj]
      · simp [mget, hj, hk, ih]

/-- A byte of a memory part of which is cleared. -/
theorem memByte_memClear (m : List Host.Cell) (lo hi a : Nat) :
    memByte (memClear m lo hi) a = if lo ≤ a ∧ a < hi then 0 else memByte m a := by
  have hget : mget a (memClear m lo hi) = if a < lo || hi ≤ a then mget a m else none :=
    mget_filter (fun k => k < lo || hi ≤ k) a m
  rw [memByte, mgetD, hget]
  by_cases ha : lo ≤ a ∧ a < hi
  · rw [if_pos ha, if_neg (by simp; omega)]
    rfl
  · rw [if_neg ha, if_pos (by simp; omega)]
    rfl

/-- A frame whose zero-fill is complete. -/
def frameMade (s : State) (f : Nat) (comp : Bool) : State :=
  let out (b : Nat) : Bool := decide (b < 2048 * f ∨ 2048 * (f + 1) ≤ b)
  modHbm { s with mem := memClear s.mem (hbmBase + 65536 * f) (hbmBase + 65536 * (f + 1)) } (fun h => { h with
    busy := false, making := none, frames := mput f (true, comp) h.frames, badBursts := h.badBursts.filter out,
    weakBursts := h.weakBursts.filter out, codes := h.codes.filter (fun c => out (4 * c.1)) })

/-- R70: the zero-fill's end outside a window. -/
theorem makeliveComplete_ok {f : Nat} {comp : Bool} {s : State} (hmaking : s.hbm.making = some (f, comp))
    (hopen : inWindow s = false) :
    ∃ s', exec .makeliveComplete s = .next s' ∧ s'.hbm.busy = false ∧ s'.hbm.making = none ∧
      mget f s'.hbm.frames = some (true, comp) ∧
      (∀ a, memByte s'.mem a = if hbmBase + 65536 * f ≤ a ∧ a < hbmBase + 65536 * (f + 1) then 0 else memByte s.mem a) := by
  refine ⟨frameMade s f comp, ?_, rfl, rfl, mget_mput_same .., memByte_memClear s.mem _ _⟩
  show execMakeliveComplete s = _
  unfold execMakeliveComplete
  rw [hmaking]
  dsimp only
  rw [if_neg (by simp [hopen])]
  rfl

theorem makedead_ok {arg : BitVec 24} {s : State} (hidle : s.hbm.busy = false)
    (hrange : arg.toNat < nlive s * 12288) (hlive : frameLive s arg.toNat = true) :
    ∃ s' k, exec (.makedead arg) s = .next s' ∧ mget arg.toNat s'.hbm.frames = some (false, k) ∧ s'.hbm.err = 0 ∧
      s'.mem = s.mem := by
  have hexec : exec (.makedead arg) s = .next (modHbm { s with hbm := { s.hbm with err := 0 } } (fun h =>
      { h with frames := mput arg.toNat (false, (mgetD (false, false) arg.toNat h.frames).2) h.frames })) := by
    show execMakedead arg s = _
    unfold execMakedead
    dsimp only
    rw [if_neg (by omega), hlive, if_pos rfl, hbmCmd_performed hidle]
  exact ⟨_, (mgetD (false, false) arg.toNat s.hbm.frames).2, hexec, mget_mput_same .., rfl, rfl⟩

theorem setscheme_ok {arg : BitVec 24} {s : State} (il : BitVec 3) (hidle : s.hbm.busy = false) (hrange : arg.toNat < 12288)
    (hdead : ∀ f ∈ s.hbm.frames, f.2.1 = true → f.1 / max 1 (nlive s) ≠ arg.toNat) :
    exec (.setscheme arg il) s =
      .next { s with hbm := { s.hbm with err := 0, schemes := mset 0 arg.toNat il.toNat s.hbm.schemes } } := by
  have hnone : s.hbm.frames.any (fun f => f.2.1 && f.1 / max 1 (nlive s) == arg.toNat) = false := by
    rw [List.any_eq_false]
    intro f hf
    simpa using hdead f hf
  show execSetscheme arg il s = _
  unfold execSetscheme
  dsimp only
  rw [if_neg (by omega), hnone, if_neg Bool.false_ne_true, hbmCmd_performed hidle]
  rfl

/-- R70: while a command is busy every other sets OVF and does nothing else. -/
theorem hbmCommand_busy {s : State} (hbusy : s.hbm.busy = true) (arg : BitVec 24) (comp : Bool) (il : BitVec 3) :
    ∀ i ∈ [Instr.makelive arg comp, .makedead arg, .setscheme arg il, .drop arg, .rehash],
      exec i s = .next { s with hbm := { s.hbm with ovf := true } } := by
  intro i hi
  simp only [List.mem_cons, List.not_mem_nil, or_false] at hi
  rcases hi with rfl | rfl | rfl | rfl | rfl
  · show execMakelive arg comp s = _
    unfold execMakelive
    exact hbmCmd_busy hbusy _ _
  · show execMakedead arg s = _
    unfold execMakedead
    exact hbmCmd_busy hbusy _ _
  · show execSetscheme arg il s = _
    unfold execSetscheme
    exact hbmCmd_busy hbusy _ _
  · show execDrop arg s = _
    unfold execDrop
    exact hbmCmd_busy hbusy _ _
  · show execRehash s = _
    unfold execRehash
    exact hbmCmd_busy hbusy _ _

/-! Drop and rehash (R79) -/

/-- A thread that a drop asks for its pre-emption; a handler is left alone. -/
def askedThread (t : Thread) : Thread := if t.handler then t else { t with preempt := true }

/-- A core whose thread a drop asks. -/
def askedCore (k : Core) : Core := { k with thread := k.thread.map askedThread }

theorem mget_mapValues {α β : Type} (f : α → β) (k : Nat) (m : Map α) :
    mget k (m.map (fun x => (x.1, f x.2))) = (mget k m).map f := by
  induction m with
  | nil => rfl
  | cons x r ih =>
    by_cases hk : x.1 = k
    · simp [mget, hk]
    · simp [mget, hk, ih]

theorem threadOf_holdThreads (s : State) (c : Nat) : threadOf (holdThreads s) c = (threadOf s c).map askedThread := by
  have hcore : mget c (holdThreads s).cores = (mget c s.cores).map askedCore := mget_mapValues askedCore c s.cores
  rw [threadOf, coreOf, mgetD, hcore, threadOf, coreOf, mgetD]
  cases mget c s.cores with
  | none => rfl
  | some k => rfl

/-- R79 step 1: every thread that is asked is a handler or is to be pre-empted. -/
theorem holdThreads_asks {s : State} {c : Nat} {t : Thread} (h : threadOf (holdThreads s) c = some t) :
    t.handler = true ∨ t.preempt = true := by
  rw [threadOf_holdThreads, Option.map_eq_some_iff] at h
  obtain ⟨u, -, rfl⟩ := h
  unfold askedThread
  split
  · next hu => exact .inl hu
  · exact .inr rfl

theorem drop_begins {arg : BitVec 24} {s : State} (hidle : s.hbm.busy = false) (hlisted : (liveList s).contains arg.toNat = true)
    (hmore : 1 < nlive s) (hlow : ∀ f ∈ s.hbm.frames, f.2.1 = true → f.1 < (nlive s - 1) * 12288) :
    exec (.drop arg) s = .next (beginHold { s with hbm := { s.hbm with err := 0 } } arg.toNat) := by
  have hnone : s.hbm.frames.any (fun f => f.2.1 && decide ((nlive s - 1) * 12288 ≤ f.1)) = false := by
    rw [List.any_eq_false]
    intro f hf
    simpa using hlow f hf
  have hone : ¬ nlive s = 1 := by omega
  show execDrop arg s = _
  unfold execDrop
  dsimp only
  rw [hlisted, if_neg (by simp [hone]), hnone, if_neg Bool.false_ne_true, hbmCmd_performed hidle]

theorem rehash_begins {s : State} (hidle : s.hbm.busy = false) :
    exec .rehash s = .next (beginHold { s with hbm := { s.hbm with err := 0 } } 0x3FF) := by
  show execRehash s = _
  unfold execRehash
  exact hbmCmd_performed hidle _

/-- R79 step 1: with no thread on a core, the drain begins. -/
theorem dropHoldDone_ok {g : Nat} {s : State} (hdrop : s.hbm.drop = some (g, 1)) (hfree : ∀ k ∈ s.cores, k.2.thread = none) :
    exec .dropHoldDone s = .next { s with hbm := { s.hbm with drop := some (g, 2) },
                                          agenda := s.agenda ++ [⟨s.now + 1, .dropDrainDone⟩] } := by
  have hall : s.cores.all (fun k => k.2.thread.isNone) = true := by
    rw [List.all_eq_true]
    intro k hk
    rw [hfree k hk]
    rfl
  have hat : dropAt s 1 = some g := by rw [dropAt, hdrop]; rfl
  show execDropHoldDone s = _
  unfold execDropHoldDone
  rw [hat]
  dsimp only
  rw [if_pos hall]
  rfl

/-- The rebuild of a drop begun, with the masks as they stand (R79, R82). -/
def rebuildBegun (s : State) (g : Nat) : State :=
  modHbm (takeFree s).2 (fun h => { h with drop := some (g, 3), dropMasks := some (h.maskStack, h.maskCh, h.maskPc) })

/-- R79 step 2: with every engine drained the rebuild begins, with the masks as they stand. -/
theorem dropDrainDone_ok {g : Nat} {s : State} (hdrop : s.hbm.drop = some (g, 2)) (hdrained : allDrained s = true) :
    ∃ s' d, exec .dropDrainDone s = .next s' ∧ s'.hbm.drop = some (g, 3) ∧
      s'.hbm.dropMasks = some (s.hbm.maskStack, s.hbm.maskCh, s.hbm.maskPc) ∧ 1 ≤ d ∧
      s'.agenda = s.agenda ++ [⟨s.now + d, .dropRebuildDone⟩] ∧ s'.mem = s.mem := by
  have hat : dropAt s 2 = some g := by rw [dropAt, hdrop]; rfl
  refine ⟨schedule (rebuildBegun s g) (1 + Config.delay s.free) .dropRebuildDone, 1 + Config.delay s.free, ?_, ?_⟩
  · show execDropDrainDone s = _
    unfold execDropDrainDone
    rw [hat]
    dsimp only
    rw [if_pos hdrained]
    rfl
  · rw [schedule_hbm, schedule_mem, agenda_schedule _ _ _ (by omega)]
    exact ⟨rfl, rfl, by omega, rfl, rfl⟩

theorem besideLogs_loseBurst (s : State) (b : Nat) : besideLogs (loseBurst s b) = besideLogs s := besideLogs_logEvent ..

/-- R78 to R80: the rebuild changes memory, HBM's lists of bursts, and what it logs. -/
theorem besideLogs_rebuild (s : State) : besideLogs (rebuild s) = besideLogs s := by
  have hfresh : ∀ (l : List (Nat × Nat)) (s : State), besideLogs (modHbm s (fun h =>
      l.foldl (fun h x => freshBursts h (x.2 * x.1 / 32) ((x.2 + 1) * x.1 / 32)) h)) = besideLogs s := by
    intro l
    induction l with
    | nil => exact fun _ => rfl
    | cons x l ih => exact fun s => ih (modHbm s (fun h => freshBursts h (x.2 * x.1 / 32) ((x.2 + 1) * x.1 / 32)))
  unfold rebuild
  dsimp only
  rw [hfresh, view_foldl besideLogs besideLogs_loseBurst, view_foldl besideLogs (fun _ _ => besideLogs_unitRead ..)]

/-- R78, R80: where no burst and no code is marred the rebuild finds nothing to do. -/
theorem rebuild_unmarred {s : State} (hweak : s.hbm.weakBursts = []) (hbad : s.hbm.badBursts = []) (hcodes : s.hbm.codes = []) :
    rebuild s = s := by
  have hnone : marredUnits s = [] := by simp [marredUnits, hweak, hbad, hcodes]
  unfold rebuild
  rw [hnone]
  rfl

/-- The layout of a drop of pseudo-channel g, or of a rehash, in force (R79). -/
def layoutCommitted (s : State) (g : Nat) : State :=
  let n := nlive s
  let n' := if g = 0x3FF then n else n - 1
  let m := s.hbm.dropMasks.getD (s.hbm.maskStack, s.hbm.maskCh, s.hbm.maskPc)
  modHbm s (fun h => { h with
    live := if g = 0x3FF then h.live else clearLive h.live g, schemes := if n' = n then h.schemes else newSchemes h.schemes n n',
    maskStack := commitMask h.maskStack m.1, maskCh := commitMask h.maskCh m.2.1, maskPc := commitMask h.maskPc m.2.2,
    gen := (h.gen + 1) % 65536, drop := some (g, 5), dropMasks := none })

theorem dropRebuildDone_rebuilding {g : Nat} {s : State} (hdrop : s.hbm.drop = some (g, 3)) :
    exec .dropRebuildDone s = if s.dredge.drained then .next (schedule s 1 .dropRebuildDone)
      else .next (schedule (layoutCommitted (rebuild s) g) 1 .dropRebuildDone) := by
  show execDropRebuildDone s = _
  unfold execDropRebuildDone
  rw [hdrop]
  rfl

theorem dropRebuildDone_restoring {g : Nat} {s : State} (hdrop : s.hbm.drop = some (g, 5)) :
    exec .dropRebuildDone s = .next (if allRestored s then reportDrop s g else schedule s 1 .dropRebuildDone) := by
  show execDropRebuildDone s = _
  unfold execDropRebuildDone
  rw [hdrop]
  rfl

/-- R79 steps 3 and 4: the layout is committed, with GEN counted up. -/
theorem dropRebuildDone_commits {g : Nat} {s : State} (hdrop : s.hbm.drop = some (g, 3)) (hopen : s.dredge.drained = false) :
    ∃ s', exec .dropRebuildDone s = .next s' ∧ s'.hbm.drop = some (g, 5) ∧ s'.hbm.busy = s.hbm.busy ∧
      s'.hbm.gen = (s.hbm.gen + 1) % 65536 ∧ s'.hbm.live = (if g = 0x3FF then s.hbm.live else clearLive s.hbm.live g) ∧
      s'.agenda = s.agenda ++ [⟨s.now + 1, .dropRebuildDone⟩] ∧
      (s.hbm.weakBursts = [] → s.hbm.badBursts = [] → s.hbm.codes = [] → s'.mem = s.mem) := by
  obtain ⟨R, hR⟩ : ∃ R, R = rebuild s := ⟨_, rfl⟩
  have hkeep : besideLogs R = besideLogs s := by rw [hR, besideLogs_rebuild]
  obtain ⟨-, hbusy, hgen, hlive⟩ := hbm_of_besideLogs hkeep
  obtain ⟨hnow, hagenda⟩ := time_of_besideLogs hkeep
  refine ⟨schedule (layoutCommitted R g) 1 .dropRebuildDone, ?_, ?_⟩
  · rw [dropRebuildDone_rebuilding hdrop, hopen, if_neg Bool.false_ne_true, hR]
  · rw [agenda_schedule _ _ _ Nat.one_ne_zero, schedule_hbm, schedule_mem, ← hbusy, ← hgen, ← hlive, ← hagenda, ← hnow]
    refine ⟨rfl, rfl, rfl, rfl, rfl, fun hweak hbad hcodes => ?_⟩
    have hsame : R = s := hR.trans (rebuild_unmarred hweak hbad hcodes)
    rw [hsame]
    rfl

theorem dropRebuildDone_waits {g : Nat} {s : State} (hdrop : s.hbm.drop = some (g, 5)) (hnot : allRestored s = false) :
    exec .dropRebuildDone s = .next (schedule s 1 .dropRebuildDone) := by
  rw [dropRebuildDone_restoring hdrop, hnot, if_neg Bool.false_ne_true]

/-- R79 steps 5 and 6: once the saved contexts run again, the drop is reported. -/
theorem dropRebuildDone_reports {g : Nat} {s : State} (hdrop : s.hbm.drop = some (g, 5)) (hall : allRestored s = true) :
    ∃ s', exec .dropRebuildDone s = .next s' ∧ s'.hbm.drop = none ∧ s'.hbm.busy = false ∧ s'.hbm.gen = s.hbm.gen ∧
      s'.hbm.live = s.hbm.live := by
  have hkeep : besideLogs (reportDrop s g) =
      besideLogs { s with hbm := { s.hbm with busy := false, drop := none, toRestore := [] } } := besideLogs_logEvent ..
  refine ⟨reportDrop s g, ?_, hbm_of_besideLogs hkeep⟩
  rw [dropRebuildDone_restoring hdrop, hall, if_pos rfl]

/-- Settles O47: each command and each step of a drop by what its function does. -/
theorem hbmCommands : Obligations.HbmCommands := by
  unfold Obligations.HbmCommands
  refine ⟨?_, ?_, ?_, ?_, ?_, ?_, ?_, ?_, ?_, ?_, ?_, ?_⟩
  · exact fun _ comp _ hidle hrange hdead => makelive_ok comp hidle hrange hdead
  · exact fun _ _ _ hmaking hopen => makeliveComplete_ok hmaking hopen
  · exact fun _ _ hidle hrange hlive => makedead_ok hidle hrange hlive
  · exact fun _ il _ hidle hrange hdead => setscheme_ok il hidle hrange hdead
  · exact fun arg comp il _ hbusy => hbmCommand_busy hbusy arg comp il
  · exact fun _ _ hidle hlisted hmore hlow =>
      ⟨_, drop_begins hidle hlisted hmore hlow, rfl, rfl, fun _ _ ht => holdThreads_asks ht, rfl, rfl⟩
  · exact fun _ hidle => ⟨_, rehash_begins hidle, rfl, rfl, rfl⟩
  · exact fun _ _ hdrop hfree => dropHoldDone_ok hdrop hfree
  · exact fun _ _ hdrop hdrained => dropDrainDone_ok hdrop hdrained
  · exact fun _ _ hdrop hopen => dropRebuildDone_commits hdrop hopen
  · exact fun _ _ hdrop => ⟨dropRebuildDone_waits hdrop, dropRebuildDone_reports hdrop⟩
  · exact fun _ => rfl

end Sys2Proof.Machine

namespace Sys2Proof.Machine

/-! The dredge calendar (R83, R84, R339, R341, R394) -/

/-- What the work of a window leaves as it was: the ring cycle, the calendar's registers without the count of overruns, and
the platform block. -/
def calendarOf (s : State) : Nat × Dredge × Platform := (s.now, { s.dredge with overruns := 0 }, s.plat)

theorem calendarOf_of_logs {s s' : State} (h : besideLogs s' = besideLogs s) : calendarOf s' = calendarOf s :=
  (congrArg calendarOf h :)

theorem fields_of_calendarOf {s : State} {now : Nat} {d : Dredge} {p : Platform} (h : calendarOf s = (now, d, p)) :
    s.now = now ∧ s.dredge.windows = d.windows ∧ s.dredge.drained = d.drained ∧ s.plat = p := by
  simp only [calendarOf, Prod.mk.injEq] at h
  obtain ⟨rfl, rfl, rfl⟩ := h
  exact ⟨rfl, rfl, rfl, rfl⟩

theorem calendarOf_schedule (s : State) (d : Nat) (e : Instr) : calendarOf (schedule s d e) = calendarOf s := by
  rw [calendarOf, schedule_now, schedule_dredge, schedule_plat]
  rfl

theorem calendarOf_pushEvs (s : State) (es : List Instr) : calendarOf (pushEvs s es) = calendarOf s := rfl

theorem calendarOf_modDie (s : State) (d : Nat) (f : Die → Die) : calendarOf (modDie s d f) = calendarOf s := by
  rw [calendarOf, modDie_now, modDie_dredge, modDie_plat]
  rfl

theorem calendarOf_overrun (s : State) (i : Issuer) (ctx pa : Nat) : calendarOf (overrun s i ctx pa) = calendarOf s := by
  unfold overrun
  extract_lets s1 add log
  have hlog : calendarOf log = calendarOf s1 := calendarOf_of_logs (besideLogs_fqFault s1 _ _)
  split
  · exact hlog
  · split
    · rfl
    · split
      · split
        · rfl
        · exact hlog
      · exact hlog

theorem calendarOf_weirOverrun (s : State) : calendarOf (weirOverrun s) = calendarOf s := by
  unfold weirOverrun
  dsimp only
  split
  · split
    · exact (calendarOf_of_logs (besideLogs_logEvent ..)).trans rfl
    · rfl
  · rfl

theorem calendarOf_wakeWaiting (s : State) : calendarOf (wakeWaiting s) = calendarOf s := rfl

theorem calendarOf_railWindow (s : State) (d : Nat) : calendarOf (railWindow s d) = calendarOf s := by
  unfold railWindow
  dsimp only
  split
  · rfl
  · exact (calendarOf_schedule ..).trans (calendarOf_modDie ..)

theorem calendarOf_retrainStacks (s : State) : calendarOf (retrainStacks s) = calendarOf s := by
  unfold retrainStacks
  dsimp only
  split
  · rfl
  · split
    · exact (calendarOf_of_logs (besideLogs_pcFail ..)).trans rfl
    · rfl

theorem calendarOf_putRaw (s : State) (p vc ft : Nat) (tag nak : Bool) (content : List Byte) :
    calendarOf (putRaw s p vc ft tag nak content) = calendarOf s := by
  have hspill : ∀ (far : Bool) (pa : Nat) (bs : List Byte),
      calendarOf (if far then storeUnits s pa bs else s) = calendarOf s := by
    intro far pa bs
    cases far with
    | false => rfl
    | true => exact calendarOf_of_logs (besideLogs_of_stores (besideStores_storeUnits ..))
  exact hspill ..

theorem calendarOf_sendCtl (s : State) (p typ : Nat) (bs : List Byte) : calendarOf (sendCtl s p typ bs) = calendarOf s := by
  unfold sendCtl putFlit
  split
  · dsimp only
    split
    · rw [calendarOf_putRaw, calendarOf_putRaw]
    · exact calendarOf_putRaw ..
  · rfl

theorem calendarOf_laneWindow (s : State) (p : Nat) : calendarOf (laneWindow s p) = calendarOf s := by
  have hbegin : calendarOf (beginLane s p) = calendarOf s := by
    unfold beginLane trainLane changeMap
    dsimp only
    split
    · rfl
    · split
      · exact calendarOf_schedule ..
      · exact calendarOf_sendCtl ..
  unfold laneWindow
  dsimp only
  split
  · rfl
  · split
    · exact hbegin
    · split
      · rfl
      · exact calendarOf_schedule ..

/-- The machine at a window's opening before the clock's step: the window is counted, overruns are noted, MWAITs wake. -/
def windowBegun (s : State) : State :=
  let s := modDredge s (fun d => { d with windows := (d.windows + 1) % 2 ^ 32, drained := true })
  wakeWaiting (weirOverrun ((copyOverruns s ++ probeOverruns s).foldl (fun s x => overrun s x.1 x.2.1 x.2.2) s))

/-- The machine when the window's work is under way, before its own events are set. -/
def windowWorks (s : State) : State :=
  let s := (List.range 4).foldl railWindow (newReading (modPlat (windowBegun s) clockStep))
  (s.router.ports.map (·.1)).foldl laneWindow (retrainStacks s)

/-- R339: the window's close, the next drain lead and the next window are set. -/
def windowScheduled (s : State) : State :=
  schedule (schedule (schedule s 2048 .windowClose) 65024 .drainLead) 65536 .windowOpen

/-- R78: the interval of the corrected-burst counts ends with a window, if it does. -/
def intervalEnded (s : State) : State := if intervalEnds s then pushEvs s [.pcerrInterval] else s

theorem openWindow_eq (s : State) : openWindow s = intervalEnded (windowScheduled (windowWorks s)) := by
  rfl

theorem calendarOf_intervalEnded (s : State) : calendarOf (intervalEnded s) = calendarOf s := by
  unfold intervalEnded
  split
  · exact calendarOf_pushEvs ..
  · rfl

theorem agenda_intervalEnded (s : State) : (intervalEnded s).agenda = s.agenda := by
  unfold intervalEnded
  split
  · rfl
  · rfl

theorem calendarOf_windowScheduled (s : State) : calendarOf (windowScheduled s) = calendarOf s := by
  rw [windowScheduled, calendarOf_schedule, calendarOf_schedule, calendarOf_schedule]

theorem agenda_windowScheduled (s : State) : (windowScheduled s).agenda =
    s.agenda ++ [⟨s.now + 2048, .windowClose⟩] ++ [⟨s.now + 65024, .drainLead⟩] ++ [⟨s.now + 65536, .windowOpen⟩] := rfl

theorem calendarOf_windowBegun (s : State) : calendarOf (windowBegun s) =
    (s.now, { s.dredge with windows := (s.dredge.windows + 1) % 2 ^ 32, drained := true, overruns := 0 }, s.plat) := by
  unfold windowBegun
  dsimp only
  rw [calendarOf_wakeWaiting, calendarOf_weirOverrun, view_foldl calendarOf (fun _ _ => calendarOf_overrun ..)]
  rfl

/-- R394: the clock makes its step, and a new reading is taken. -/
theorem calendarOf_newReading (s : State) : calendarOf (newReading (modPlat s clockStep)) =
    ((calendarOf s).1, (calendarOf s).2.1, setReading (clockStep (calendarOf s).2.2)
      (Config.reading s.free / 65536 % 256) (Config.reading s.free % 65536)) := rfl

/-- R339, R394: the window is counted, the clock has made its step, and a new reading stands. -/
theorem calendarOf_windowWorks (s : State) : ∃ temp power, calendarOf (windowWorks s) =
    (s.now, { s.dredge with windows := (s.dredge.windows + 1) % 2 ^ 32, drained := true, overruns := 0 },
      setReading (clockStep s.plat) temp power) := by
  unfold windowWorks
  dsimp only
  rw [view_foldl calendarOf calendarOf_laneWindow, calendarOf_retrainStacks,
    view_foldl calendarOf calendarOf_railWindow, calendarOf_newReading, calendarOf_windowBegun]
  exact ⟨_, _, rfl⟩

/-- R394: at 95 degrees the clock goes one step down. -/
theorem clockStep_hot {p : Platform} (h : 95 ≤ p.temp) :
    (clockStep p).therm = true ∧ (clockStep p).clk = clockDown p.clk := by
  have hhot : decide (95 ≤ p.temp) = true := by simpa using h
  unfold clockStep
  dsimp only
  rw [hhot, Bool.true_or, if_pos rfl]
  exact ⟨rfl, rfl⟩

/-- WINDOW_OPEN while no stop is due (R83, R339, R394). -/
theorem windowOpen_ok {s : State} (hrun : s.plat.stop = false) :
    ∃ s', exec .windowOpen s = .next s' ∧ s'.now = s.now ∧
      s'.dredge.windows = (s.dredge.windows + 1) % 2 ^ 32 ∧ s'.dredge.drained = true ∧
      ⟨s.now + 2048, .windowClose⟩ ∈ s'.agenda ∧ ⟨s.now + 65024, .drainLead⟩ ∈ s'.agenda ∧
      ⟨s.now + 65536, .windowOpen⟩ ∈ s'.agenda ∧
      (95 ≤ s.plat.temp → s'.plat.therm = true ∧ s'.plat.clk = clockDown s.plat.clk) := by
  obtain ⟨temp, power, hworks⟩ := calendarOf_windowWorks s
  obtain ⟨W, hW⟩ : ∃ W, W = windowWorks s := ⟨_, rfl⟩
  rw [← hW] at hworks
  obtain ⟨hnow, hwindows, hdrained, hplat⟩ := fields_of_calendarOf (s := intervalEnded (windowScheduled W))
    ((calendarOf_intervalEnded _).trans ((calendarOf_windowScheduled W).trans hworks))
  have hagenda : (intervalEnded (windowScheduled W)).agenda = W.agenda ++ [⟨s.now + 2048, .windowClose⟩] ++
      [⟨s.now + 65024, .drainLead⟩] ++ [⟨s.now + 65536, .windowOpen⟩] := by
    rw [agenda_intervalEnded, agenda_windowScheduled, (fields_of_calendarOf hworks).1]
  refine ⟨intervalEnded (windowScheduled W), ?_, hnow, hwindows, hdrained, by simp [hagenda], by simp [hagenda],
    by simp [hagenda], fun hhot => ?_⟩
  · show execWindowOpen s = _
    rw [execWindowOpen, hrun, if_neg Bool.false_ne_true, openWindow_eq, hW]
  · rw [hplat]
    exact clockStep_hot hhot

/-- WINDOW_OPEN once 105 degrees were reached stops the clocks (R394). -/
theorem windowOpen_stops {s : State} (hstop : s.plat.stop = true) :
    exec .windowOpen s = .next { s with plat := { s.plat with boot := 3 } } := by
  show execWindowOpen s = _
  rw [execWindowOpen, hstop, if_pos rfl]
  rfl

/-- WINDOW_CLOSE with no held write and no ABANDON that waits (R84, R339). -/
theorem windowClose_ok {s : State} (hnone : ∀ e ∈ s.engines, e.2.giveUp = false) (hposted : s.hbm.posted = []) :
    exec .windowClose s = .next { s with dredge := { s.dredge with drained := false } } := by
  have hhbm : { s.hbm with posted := [] } = s.hbm := by rw [← hposted]
  have hstore : storePosted (modDredge s (fun d => { d with drained := false })) =
      { s with dredge := { s.dredge with drained := false } } := by
    unfold storePosted
    rw [show (modDredge s (fun d => { d with drained := false })).hbm = s.hbm from rfl, hposted, hhbm]
    rfl
  have hwaits : s.engines.filter (fun e => e.2.giveUp) = [] := by
    rw [List.filter_eq_nil_iff]
    exact fun e he => by simp [hnone e he]
  show execWindowClose s = _
  unfold execWindowClose
  dsimp only
  rw [hstore, hwaits]
  rfl

/-! Rails (R342) -/

theorem dieOf_of_dies {s s' : State} (h : s'.dies = s.dies) (d : Nat) : dieOf s' d = dieOf s d := by
  rw [dieOf, h, dieOf]

/-- A recalibration that another rail's error ends. -/
def recalAborted (s : State) (d r : Nat) : State :=
  modDie (cancel (takeFree s).2 (isRecal d)) d (fun x => { x with recal := none, returning := some r })

/-- A rail marked failed. -/
def railFailed (s : State) (d rail : Nat) : State := modDie s d (fun x => { x with failedRails := x.failedRails ++ [rail] })

theorem dieOf_recalAborted {d : Nat} (s : State) (r : Nat) (hd : d < 4) :
    dieOf (recalAborted s d r) d = { dieOf s d with recal := none, returning := some r } := dieOf_modDie _ _ _ hd

theorem time_recalAborted (s : State) (d r : Nat) : (recalAborted s d r).now = s.now ∧
    (recalAborted s d r).agenda = s.agenda.filter (fun x => !isRecal d x.ev) := ⟨modDie_now .., modDie_agenda ..⟩

theorem besideLogs_railEvent (s : State) (d cause rail : Nat) : besideLogs (railEvent s d cause rail) = besideLogs s :=
  besideLogs_logEvent ..

theorem railRecalDone_ok {d : Nat} (s : State) (hd : d < 4) :
    ∃ s', exec (.railRecalDone d) s = .next s' ∧ dieOf s' d = { dieOf s d with recal := none, returning := none } ∧
      s'.mem = s.mem := ⟨_, rfl, dieOf_modDie _ _ _ hd, modDie_mem ..⟩

/-- R342: the error of another rail ends the recalibration, whose rail returns within 64 cycles. -/
theorem railError_aborts {d rail r : Nat} {s : State} (hd : d < 4) (hrecal : (dieOf s d).recal = some r) (hother : r ≠ rail) :
    ∃ s' n, exec (.railError d rail) s = .next s' ∧ 1 ≤ n ∧ n ≤ 64 ∧ (dieOf s' d).failedRails = (dieOf s d).failedRails ∧
      (dieOf s' d).recal = none ∧ (dieOf s' d).returning = some r ∧
      s'.agenda = s.agenda.filter (fun x => !isRecal d x.ev) ++ [⟨s.now + n, .railRecalDone d⟩] := by
  obtain ⟨R, hR⟩ : ∃ R, R = railEvent (recalAborted s d r) d 1 r := ⟨_, rfl⟩
  have hkeep : besideLogs R = besideLogs (recalAborted s d r) := by rw [hR, besideLogs_railEvent]
  obtain ⟨hnow, hagenda⟩ := time_of_besideLogs hkeep
  have hrails := rails_of_besideLogs hkeep d
  rw [dieOf_recalAborted s r hd] at hrails
  refine ⟨schedule R (1 + Config.delay s.free % 64) (.railRecalDone d), 1 + Config.delay s.free % 64, ?_, by omega, by omega, ?_⟩
  · show execRailError d rail s = _
    unfold execRailError
    dsimp only
    rw [hrecal]
    dsimp only
    rw [if_neg hother, hR]
    rfl
  · rw [dieOf_of_dies (schedule_dies R _ _), agenda_schedule _ _ _ (by omega), hagenda, hnow, (time_recalAborted s d r).1,
      (time_recalAborted s d r).2]
    exact ⟨hrails.1, hrails.2.1, hrails.2.2, rfl⟩

/-- R342: a rail that is not in service meets no error. -/
theorem railError_ignored {d rail : Nat} {s : State} (h : (dieOf s d).recal = some rail ∨
    (dieOf s d).recal = none ∧ (rail ∈ (dieOf s d).failedRails ∨ (dieOf s d).returning = some rail)) :
    exec (.railError d rail) s = .next s := by
  show execRailError d rail s = _
  unfold execRailError
  dsimp only
  rcases h with hown | ⟨hnone, hout⟩
  · rw [hown]
    dsimp only
    rw [if_pos rfl]
  · rw [hnone]
    dsimp only
    rw [if_pos (by simpa using hout)]

/-- R342: outside recalibration the rail is marked failed. -/
theorem railError_fails {d rail : Nat} {s : State} (hd : d < 4) (hnone : (dieOf s d).recal = none)
    (hsound : rail ∉ (dieOf s d).failedRails) (hback : (dieOf s d).returning ≠ some rail) :
    ∃ s', exec (.railError d rail) s = .next s' ∧ (dieOf s' d).failedRails = (dieOf s d).failedRails ++ [rail] ∧
      (dieOf s' d).recal = none ∧ s'.agenda = s.agenda := by
  obtain ⟨R, hR⟩ : ∃ R, R = railEvent (railFailed s d rail) d 2 rail := ⟨_, rfl⟩
  have hkeep : besideLogs R = besideLogs (railFailed s d rail) := by rw [hR, besideLogs_railEvent]
  obtain ⟨hfailed, hrecal, -⟩ := rails_of_besideLogs hkeep d
  have hdie : dieOf (railFailed s d rail) d = { dieOf s d with failedRails := (dieOf s d).failedRails ++ [rail] } :=
    dieOf_modDie _ _ _ hd
  rw [hdie] at hfailed hrecal
  refine ⟨R, ?_, hfailed, hrecal.trans hnone, (time_of_besideLogs hkeep).2.trans (modDie_agenda ..)⟩
  show execRailError d rail s = _
  unfold execRailError
  dsimp only
  rw [hnone]
  dsimp only
  rw [if_neg (by simp [hsound, hback]), hR]
  rfl

end Sys2Proof.Machine

namespace Sys2Proof.Machine

/-! The auditor's replays (R344 to R346) -/

theorem auditReplayStart_bad {s : State} {x : Sample} (hidle : s.auditor.replaying = none) (hopen : inWindow s = false)
    (hfind : s.auditor.pending.find? (fun x => x.ended && reservationsOver s x.core) = some x) (hbad : x.bad = true) :
    exec .auditReplayStart s = .next (skipSample s x) := by
  show execAuditReplayStart s = _
  unfold execAuditReplayStart
  rw [hidle, hopen, hfind]
  dsimp only
  rw [hbad]
  rfl

/-- The auditor takes up a sample whose output is signed (R344, R345). -/
def sampleSigned (s : State) (x : Sample) (sig : Word) : State :=
  modAudit s (fun a => { a with pending := a.pending.erase x, replaying := some { x with sig := some sig }, replayDone := false })

/-- The replay's entry on its die, READY at once (R345). -/
def replayQueued (s : State) (d : Nat) (x : Sample) : State :=
  let r := newEntry s d 2 (replayRecord d x.record) none x.job 0 0 none 0 (some (x.core, x.tid))
  makeReady r.2 d r.1

theorem auditReplayStart_signs {s s1 : State} {x : Sample} {bs : List Byte} {d : Nat} (hidle : s.auditor.replaying = none)
    (hopen : inWindow s = false) (hfind : s.auditor.pending.find? (fun x => x.ended && reservationsOver s x.core) = some x)
    (hgood : x.bad = false) (hdie : replayDie s x.core = some d)
    (hout : outputBytes x.core (jobEntry s x.job).2 x.outputs s = (.ok bs, s1)) :
    exec .auditReplayStart s = .next (replayQueued (sampleSigned s1 x (crc64 bs)) d x) := by
  show execAuditReplayStart s = _
  unfold execAuditReplayStart
  rw [hidle, hopen, hfind]
  dsimp only
  rw [if_neg (by simp), if_neg (by simp [hgood]), hdie]
  dsimp only
  rw [hout]
  rfl

theorem replayDie_spec {s : State} {c d : Nat} (h : replayDie s c = some d) : d < 4 ∧ d ≠ coreDie c := by
  obtain ⟨hfree, hmem⟩ := And.intro (List.find?_some h) (List.mem_of_find?_eq_some h)
  simp only [Bool.and_eq_true, bne_iff_ne] at hfree
  exact ⟨List.mem_range.mp hmem, hfree.1⟩

/-- R345: the replay's entry has priority 0 and is READY. -/
theorem replayQueued_entry {s : State} {d : Nat} (x : Sample) (hd : d < 4) :
    ∃ e ∈ (dieOf (replayQueued s d x) d).entries, e.id = s.stamp ∧ e.state = 3 ∧ e.prio = 0 ∧ e.job = x.job ∧
      e.record = replayRecord d x.record ∧ e.replay = some (x.core, x.tid) := by
  rw [replayQueued, makeReady, dieOf_of_dies (schedule_dies ..), modEntry, dieOf_modDie _ _ _ hd, newEntry]
  dsimp only
  rw [dieOf_modDie _ _ _ hd, modWhere]
  refine ⟨_, List.mem_map_of_mem (List.mem_append_right _ (List.mem_singleton_self _)), ?_⟩
  rw [if_pos (by simp)]
  exact ⟨rfl, rfl, rfl, rfl, rfl, rfl⟩

theorem mem_replayQueued (s : State) (d : Nat) (x : Sample) : (replayQueued s d x).mem = s.mem := by
  rw [replayQueued, makeReady, schedule_mem, modEntry, modDie_mem, newEntry, modDie_mem, takeStamp_mem]

theorem auditor_replayQueued (s : State) (d : Nat) (x : Sample) : (replayQueued s d x).auditor = s.auditor := by
  rw [replayQueued, makeReady, schedule_auditor, modEntry, modDie_auditor, newEntry, modDie_auditor, takeStamp_auditor]

/-- A replay's output as its scratch space holds it, signed (R345, R346). -/
def replaySig (s : State) (x : Sample) : Word := crc64 (x.outputs.flatMap (fun o => scratchRead s o.1.toNat o.2))

theorem auditCompare_abandoned {s : State} {x : Sample} (hx : s.auditor.replaying = some x) (hab : x.abandoned = true) :
    exec .auditCompare s = .next { s with auditor := { s.auditor with replaying := none } } := by
  show execAuditCompare s = _
  unfold execAuditCompare
  rw [hx]
  dsimp only
  rw [if_pos hab]
  rfl

theorem auditCompare_passes {s : State} {x : Sample} (hx : s.auditor.replaying = some x) (hab : x.abandoned = false)
    (hsig : x.sig = some (replaySig s x)) : exec .auditCompare s =
      .next { s with auditor := { s.auditor with replaying := none, passed := satInc 16 s.auditor.passed } } := by
  show execAuditCompare s = _
  unfold execAuditCompare
  rw [hx]
  dsimp only
  rw [if_neg (by simp [hab])]
  exact if_pos hsig

/-- An entry written moves the head of its ring by one (R334). -/
theorem fqHead_fqWrite {s : State} {d : Nat} (ws : List Word) (hd : d < 4) :
    (dieOf (fqWrite s d ws) d).fqHead = ((dieOf s d).fqHead + 1) % 2 ^ 32 := by
  rw [fqWrite, dieOf_modDie _ _ _ hd, dieOf_of_dies (dies_of_besideStores (besideStores_storeUnits ..))]

theorem coreDie_lt (c : Nat) : coreDie c < 4 := Nat.mod_lt _ (by decide)

/-- The entry of a replay whose signature differs (R346). -/
def mismatchEntry (s : State) (x : Sample) : List Word :=
  let f : FaultRec := { cls := 0x11, cause := 1, req := 11, ctx := 0x4801, ga := (x.record[8]?).getD 0, pa := x.sig.getD 0,
                        qw6 := BitVec.ofNat 64 s.auditor.replayCore, qw7 := replaySig s x }
  ctxWords s x.core (wf 15 0 (jobEntry s x.job).2.asid) x.tid f false

/-- The mismatch counted (R346). -/
def mismatchCounted (s : State) : State :=
  { s with auditor := { s.auditor with replaying := none, mismatch := satInc 16 s.auditor.mismatch } }

theorem auditCompare_differs {s : State} {x : Sample} (hx : s.auditor.replaying = some x) (hab : x.abandoned = false)
    (hsig : x.sig ≠ some (replaySig s x)) :
    exec .auditCompare s = .next (fqFault (mismatchCounted s) (coreDie x.core) (mismatchEntry s x)) := by
  show execAuditCompare s = _
  unfold execAuditCompare
  rw [hx]
  dsimp only
  rw [if_neg (by simp [hab])]
  exact if_neg hsig

/-- R346: a signature that differs is counted and logged on the die of the task's core. -/
theorem auditCompare_mismatch {s : State} {x : Sample} (hx : s.auditor.replaying = some x) (hab : x.abandoned = false)
    (hsig : x.sig ≠ some (replaySig s x)) (hroom : fqRoom (dieOf s (coreDie x.core)) = true)
    (hheld : (dieOf s (coreDie x.core)).fqHeld = []) :
    ∃ s', exec .auditCompare s = .next s' ∧
      s'.auditor = { s.auditor with replaying := none, mismatch := satInc 16 s.auditor.mismatch } ∧
      (dieOf s' (coreDie x.core)).fqHead = ((dieOf s (coreDie x.core)).fqHead + 1) % 2 ^ 32 := by
  have hdie : dieOf (mismatchCounted s) (coreDie x.core) = dieOf s (coreDie x.core) := rfl
  refine ⟨_, auditCompare_differs hx hab hsig, auditor_of_besideLogs (besideLogs_fqFault ..), ?_⟩
  rw [fqFault, hdie, hroom, hheld, if_pos (by rfl), fqHead_fqWrite _ (coreDie_lt _), hdie]

/-! Boot and recovery (R390, R391) -/

/-- A record taken up but for the failed banks of the slices (R391): the platform, the live bits and the manager's key. -/
def recordTaken (s : State) (r firmware : List Byte) : State :=
  let manager : Key := { job := 0, epoch := 0, key := Config.managerKey, txCtr := [], rxCtr := [] }
  let s := modPlat s (fun p => { p with
    boot := 1, yield_ := recordYield r, devid := BitVec.ofNat 16 (recordNat r 0x008 2),
    offer := BitVec.ofNat 64 (recordNat r 0x010 8 % 32), pubkey := BitVec.ofNat 512 (recordNat r 0x980 64),
    digest := Config.sm3 r, firmDigest := Config.sm3 firmware })
  modRouter (modHbm s (fun h => { h with live := recordLive r })) (fun x => { x with keys := [(0, manager)] })

/-- The bank that a record marks failed in a slice is marked (R49, R390). -/
def bankMarked (r : List Byte) (s : State) (c : Nat) : State :=
  match recordBank r c with
  | some b => modSlice s c (fun x => { x with failed := some b })
  | none => s

theorem applyRecord_eq (s : State) (r firmware : List Byte) :
    applyRecord s r firmware = (enabledCores (recordYield r)).foldl (bankMarked r) (recordTaken s r firmware) := by
  rfl

theorem threadOf_bankMarked (r : List Byte) (s : State) (b c : Nat) : threadOf (bankMarked r s b) c = threadOf s c := by
  unfold bankMarked
  split
  · exact threadOf_modSlice ..
  · rfl

/-- Marked banks are a change of the cores alone. -/
theorem cores_bankMarked (r : List Byte) (s : State) (c : Nat) : ∃ cores, bankMarked r s c = { s with cores := cores } := by
  unfold bankMarked
  split
  · exact ⟨_, rfl⟩
  · exact ⟨s.cores, rfl⟩

theorem applyRecord_machine (s : State) (r firmware : List Byte) :
    ∃ cores, applyRecord s r firmware = { recordTaken s r firmware with cores := cores } := by
  obtain ⟨T, hT⟩ : ∃ T, T = recordTaken s r firmware := ⟨_, rfl⟩
  rw [applyRecord_eq, ← hT]
  refine foldl_keeps (fun x : State => ∃ cores, x = { T with cores := cores }) _ ?_ _ T ⟨T.cores, rfl⟩
  rintro _ c ⟨cores, rfl⟩
  exact cores_bankMarked r { T with cores := cores } c

theorem threadOf_applyRecord (s : State) (r firmware : List Byte) (c : Nat) :
    threadOf (applyRecord s r firmware) c = threadOf s c := by
  have hcores : (recordTaken s r firmware).cores = s.cores := by
    rw [recordTaken, modRouter_cores, modHbm_cores, modPlat_cores]
  rw [applyRecord_eq, view_foldl (fun x => threadOf x c) (fun s b => threadOf_bankMarked r s b c), threadOf_of_cores hcores]

/-- The start of control core 0 (R391). -/
def firmwareStarted (s : State) (n : Nat) : State := modHart s 0 (fun k => { k with up := true, pc := Config.hartEntry n })

theorem firmwareStarted_eq (s : State) (n : Nat) : firmwareStarted s n =
    { s with harts := s.harts.set 0 { s.harts[0] with up := true, pc := Config.hartEntry n } } := by
  rw [firmwareStarted, modHart, dif_pos (by decide)]

/-- R391: after reset control core 0 alone runs. -/
theorem firmwareStarted_up {s : State} (n : Nat) (hharts : s.harts = Vector.replicate 16 Hart.reset) (h : Fin 16) :
    (firmwareStarted s n).harts[h].up = decide (h.val = 0) := by
  rw [firmwareStarted_eq, hharts]
  by_cases hh : h.val = 0
  · simp [hh]
  · simp [Ne.symm hh, hh, Hart.reset]

theorem deviceResetBoot_recovery {s : State} (h : recordChecks s.plat.image s.plat.firmware = false) :
    exec .deviceResetBoot s = .next (firmwareStarted (modPlat (afterReset s) (fun p => { p with boot := 2 })) 0) := by
  show execDeviceResetBoot s = _
  unfold execDeviceResetBoot
  dsimp only
  rw [show (afterReset s).plat.image = s.plat.image from rfl, show (afterReset s).plat.firmware = s.plat.firmware from rfl, h,
    if_neg Bool.false_ne_true]
  rfl

theorem deviceResetBoot_applies {s : State} (h : recordChecks s.plat.image s.plat.firmware = true) :
    exec .deviceResetBoot s =
      .next (pushEvs (firmwareStarted (applyRecord (afterReset s) s.plat.image s.plat.firmware) 1) [.windowOpen]) := by
  show execDeviceResetBoot s = _
  unfold execDeviceResetBoot
  dsimp only
  rw [show (afterReset s).plat.image = s.plat.image from rfl, show (afterReset s).plat.firmware = s.plat.firmware from rfl, h,
    if_pos rfl]
  rfl

/-- R391: boot applies a record that passes every check, or is in recovery. -/
theorem deviceResetBoot_ok (s : State) : ∃ s', exec .deviceResetBoot s = .next s' ∧ s'.now = 0 ∧ s'.mem = [] ∧ s'.agenda = [] ∧
    s'.jobs = [] ∧ s'.engines = [] ∧ s'.plat.image = s.plat.image ∧ s'.plat.firmware = s.plat.firmware ∧
    (∀ c, threadOf s' c = none) ∧ (∀ h : Fin 16, s'.harts[h].up = decide (h.val = 0)) ∧
    (recordChecks s.plat.image s.plat.firmware = false → s'.plat.boot = 2 ∧ s'.todo = []) ∧
    (recordChecks s.plat.image s.plat.firmware = true → s'.plat.boot = 1 ∧ s'.todo = [.ev .windowOpen] ∧
      s'.plat.yield_ = recordYield s.plat.image ∧ s'.hbm.live = recordLive s.plat.image ∧
      s'.plat.devid = BitVec.ofNat 16 (recordNat s.plat.image 0x008 2)) := by
  cases hchecks : recordChecks s.plat.image s.plat.firmware with
  | false =>
    refine ⟨_, deviceResetBoot_recovery hchecks, rfl, rfl, rfl, rfl, rfl, rfl, rfl, fun _ => rfl,
      firmwareStarted_up 0 rfl, fun _ => ⟨rfl, rfl⟩, fun h => absurd h Bool.false_ne_true⟩
  | true =>
    obtain ⟨cores, happly⟩ := applyRecord_machine (afterReset s) s.plat.image s.plat.firmware
    have hthread := threadOf_applyRecord (afterReset s) s.plat.image s.plat.firmware
    refine ⟨_, deviceResetBoot_applies hchecks, ?_⟩
    rw [happly] at hthread ⊢
    exact ⟨rfl, rfl, rfl, rfl, rfl, rfl, rfl, hthread, firmwareStarted_up 1 rfl, fun h => absurd h.symm Bool.false_ne_true,
      fun _ => ⟨rfl, rfl, rfl, rfl, rfl⟩⟩

/-- R391: in recovery the management port takes a record and firmware, and a reset boots with them. -/
theorem recoveryUpload_ok {image firmware : List Byte} {s : State} (hboot : s.plat.boot = 2) (himage : image ≠ [])
    (hfirm : firmware ≠ []) (resets : Bool) :
    exec (.recoveryUpload image firmware resets) s = if resets then
      exec .deviceResetBoot { s with plat := { s.plat with image := image, firmware := firmware } }
      else .next { s with plat := { s.plat with image := image, firmware := firmware } } := by
  show execRecoveryUpload image firmware resets s = _
  unfold execRecoveryUpload
  dsimp only
  rw [if_pos hboot, List.isEmpty_eq_false_iff.mpr himage, List.isEmpty_eq_false_iff.mpr hfirm]
  rfl

/-! Features (R392) -/

/-- The features accepted by a write: those offered, and the lock. -/
theorem featAccept_bits (v offer : Word) {i : Nat} (hi : i < 64) :
    ((v &&& offer &&& 0x1F) ||| (v &&& 0x8000000000000000)).getLsbD i =
      if i < 5 then v.getLsbD i && offer.getLsbD i else decide (i = 63) && v.getLsbD 63 := by
  have hlow : ∀ i : Fin 64, (0x1F : Word).getLsbD i = decide (i.val < 5) := by decide
  have hlock : ∀ i : Fin 64, (0x8000000000000000 : Word).getLsbD i = decide (i.val = 63) := by decide
  rw [BitVec.getLsbD_or, BitVec.getLsbD_and, BitVec.getLsbD_and, BitVec.getLsbD_and, hlow ⟨i, hi⟩, hlock ⟨i, hi⟩]
  by_cases h5 : i < 5
  · have h63 : i ≠ 63 := by omega
    simp [h5, h63]
  · by_cases h63 : i = 63
    · simp [h63]
    · simp [h5, h63]

theorem featAcceptWrite_locked {v : Word} {s : State} (h : s.plat.accept.getLsbD 63 = true) :
    exec (.featAcceptWrite v) s = .next s := by
  show execFeatAcceptWrite v s = _
  rw [execFeatAcceptWrite, if_pos h]

theorem featAcceptWrite_ok {v : Word} {s : State} (h : s.plat.accept.getLsbD 63 = false) :
    exec (.featAcceptWrite v) s = .next { s with plat := { s.plat with
      accept := (v &&& s.plat.offer &&& 0x1F) ||| (v &&& 0x8000000000000000) } } := by
  show execFeatAcceptWrite v s = _
  rw [execFeatAcceptWrite, h, if_neg Bool.false_ne_true]
  rfl

/-! Quotes (R393) -/

theorem quote_busy {pa : Nat} {s : State} (h : s.plat.quoteBusy.isSome = true) :
    exec (.quote pa) s = .next { s with plat := { s.plat with quoteOvf := true } } := by
  show execQuote pa s = _
  rw [execQuote, if_pos h]
  rfl

/-- R393: the nonce is read as the command is accepted. -/
theorem quote_ok {pa : Nat} {s s1 : State} {g : Got} (hidle : s.plat.quoteBusy = none)
    (hread : readPa s whoQuote (pa + 64) 32 = (g, s1)) :
    ∃ s' n, exec (.quote pa) s = .next s' ∧ 1 ≤ n ∧ s'.plat.quoteBusy = some (pa, g.bytes) ∧ s'.mem = s1.mem ∧
      s'.agenda = s1.agenda ++ [⟨s1.now + n, .quoteComplete⟩] := by
  refine ⟨schedule (modPlat (takeFree s1).2 (fun p => { p with quoteBusy := some (pa, g.bytes) })) (1 + Config.delay s1.free)
    .quoteComplete, 1 + Config.delay s1.free, ?_, by omega, ?_⟩
  · show execQuote pa s = _
    rw [execQuote, if_neg (by simp [hidle]), hread]
    rfl
  · rw [schedule_plat, schedule_mem, agenda_schedule _ _ _ (by omega)]
    exact ⟨rfl, rfl, rfl⟩

/-- The bytes of a quote: the digests, the nonce and the features, signed (R393). -/
def quoteBytes (p : Platform) (nonce : List Byte) : List Byte :=
  quoteHead p nonce ++ leBytes 64 (Config.sm2Sign (Config.sm3 (quoteHead p nonce))).toNat ++ leBytes 64 0

theorem quoteComplete_ok {pa : Nat} {nonce : List Byte} {s : State} (h : s.plat.quoteBusy = some (pa, nonce)) :
    ∃ s', exec .quoteComplete s = .next s' ∧ s'.plat.quoteBusy = none ∧
      s'.mem = (performWrite s whoQuote pa (quoteBytes s.plat nonce)).2.mem := by
  obtain ⟨W, hW⟩ : ∃ W, W = @performWrite := ⟨_, rfl⟩
  refine ⟨modPlat (clearTags (performWrite s whoQuote pa (quoteBytes s.plat nonce)).2 pa (quoteBytes s.plat nonce).length)
    (fun p => { p with quoteBusy := none }), ?_, rfl, (clearTags_eq ..).1⟩
  show execQuoteComplete s = _
  unfold execQuoteComplete
  rw [h, ← hW]
  rfl

/-- Settles O52: each event by what its function does. -/
theorem dredgeAuditBoot : Obligations.DredgeAuditBoot := by
  unfold Obligations.DredgeAuditBoot
  refine ⟨?_, ?_, ?_, ?_, ?_, ?_, ?_, ?_, ?_, ?_, ?_⟩
  · exact fun _ => ⟨rfl, windowClose_ok⟩
  · exact fun _ => ⟨windowOpen_stops, windowOpen_ok⟩
  · exact fun d rail s hd => ⟨railRecalDone_ok s hd, fun _ hrecal hother => railError_aborts hd hrecal hother,
      railError_ignored, railError_fails hd⟩
  · exact fun _ _ _ => rfl
  · intro s s1 x bs d hidle hopen hfind
    refine ⟨fun hbad => ⟨_, auditReplayStart_bad hidle hopen hfind hbad, rfl, rfl, hidle, rfl⟩, fun hgood hdie hout haud => ?_⟩
    obtain ⟨hd, hother⟩ := replayDie_spec hdie
    obtain ⟨e, hmem, hentry⟩ := replayQueued_entry (s := sampleSigned s1 x (crc64 bs)) x hd
    obtain ⟨hid, hstate, hprio, hjob, hrecord, hreplay⟩ := hentry
    refine ⟨_, e, auditReplayStart_signs hidle hopen hfind hgood hdie hout, ?_, ?_, hmem, hid, hstate, hprio, hjob, hrecord,
      hreplay, hother, mem_replayQueued ..⟩
    · rw [auditor_replayQueued]
      rfl
    · rw [auditor_replayQueued, ← haud]
      rfl
  · exact fun _ _ hx => ⟨auditCompare_abandoned hx, auditCompare_passes hx, auditCompare_mismatch hx⟩
  · exact deviceResetBoot_ok
  · exact fun _ _ _ hboot himage hfirm => ⟨recoveryUpload_ok hboot himage hfirm false, recoveryUpload_ok hboot himage hfirm true⟩
  · exact fun v s => ⟨featAcceptWrite_locked, fun h => ⟨_, featAcceptWrite_ok h, fun _ hi => featAccept_bits v s.plat.offer hi,
      rfl, rfl, rfl⟩⟩
  · exact fun _ _ _ _ => ⟨quote_busy, quote_ok⟩
  · exact fun _ _ _ h => quoteComplete_ok h

end Sys2Proof.Machine

namespace Sys2Proof.Machine

/-! The Eddy slots at issue (O37) -/

/-! Requests on their way to their homes (R36, R253) -/

theorem latency_pos (c t : Nat) : 0 < latency c t := by
  unfold latency
  split
  · decide
  · split
    · split <;> omega
    · omega

theorem accessLatency_pos (c pa : Nat) : 0 < accessLatency c pa := by
  unfold accessLatency ctlLatency
  split
  · dsimp only
    split
    · split
      · decide
      · exact latency_pos ..
    · omega
  · exact latency_pos ..

/-- R36: every access takes time; contention is drawn from the free values. -/
theorem loadedLatency_spec (s : State) (c pa : Nat) :
    0 < (loadedLatency s c pa).1 ∧ ∃ n, (loadedLatency s c pa).2 = { s with free := n } := by
  unfold loadedLatency
  split
  · exact ⟨Nat.succ_pos _, s.free, rfl⟩
  · exact ⟨Nat.add_pos_left (accessLatency_pos c pa) _, _, rfl⟩

/-- Parts on their way change the agenda and draw free values. -/
theorem launchParts_eq (s : State) (c : Nat) (q : Req) :
    ∃ n a, launchParts s c q = { s with free := n, agenda := a } := by
  refine foldl_keeps (fun x : State => ∃ n a, x = { s with free := n, agenda := a }) _ ?_ _ s ⟨s.free, s.agenda, rfl⟩
  rintro _ ⟨p, k⟩ ⟨n, a, rfl⟩
  dsimp only
  split
  · exact ⟨n, a, rfl⟩
  · obtain ⟨hpos, m, hm⟩ := loadedLatency_spec { s with free := n, agenda := a } c p.pa
    rw [hm, schedule, if_neg (by omega)]
    exact ⟨_, _, rfl⟩

/-! Issue of a request with one destination (R41, R43, R44, R172) -/

/-- A request as the checks of its issue see it (R172, R251). -/
def requestOf (t : Thread) (kind : ReqKind) (cls : Nat) (dest : Dest) (l : Landing) (ord scope : Nat) (parts : List Part) : Req :=
  { id := t.nextReq, kind := kind, cls := cls, dest := dest, due := if l.off == 0 then none else some (t.x.dc + l.off),
    fixed := l.fixed, timed := !(l.off == 0) && !l.fixed, ord := ord, scope := scope, pos := t.nextReq,
    issued := t.x.dc, parts := parts, fault := none, landed := false }

/-- A thread with one more request, and what no WAIT covers yet. -/
def issuedThread (t : Thread) (q : Req) (u : List (Dest × Nat × Nat)) : Thread :=
  { t with reqs := t.reqs ++ [q], nextReq := t.nextReq + 1, uncov := u }

section
variable {s : State} {t : Thread} {kind : ReqKind} {cls : Nat} {dest : Dest} {l : Landing} {ord scope : Nat} {parts : List Part}
  (hlands : Lands t l cls [dest]) (hdests : ∀ q : Req, q.kind = kind → q.dest = dest → reqDests q = [dest])
  (hrows : l.off = 0 → ∀ r ∈ countedRows t s.cur kind dest parts, tileRead t (.trow r.1) r.2 = false)
include hlands hdests hrows

theorem checkLandings_requestOf : checkLandings t s.cur (requestOf t kind cls dest l ord scope parts) = .ok () := by
  obtain ⟨-, -, -, hwrite⟩ := hlands
  by_cases hoff : l.off = 0
  · have hnone : (countedRows t s.cur kind dest parts).any (fun r => tileRead t (.trow r.1) r.2) = false := by
      simpa using hrows hoff
    simp [checkLandings, requestOf, hoff, hnone]
  · obtain ⟨hcol, hread⟩ := hwrite hoff dest (List.mem_singleton.mpr rfl)
    have hdue : (requestOf t kind cls dest l ord scope parts).due = some (t.x.dc + l.off) := by simp [requestOf, hoff]
    simp [checkLandings, hdue, hdests (requestOf t kind cls dest l ord scope parts) rfl rfl, checkWrite, hcol, hread, Except.bind]

/-- R41, R43, R172: a request that can land is issued. -/
theorem issueReq_ok : let q := timeParts s.now (requestOf t kind cls dest l ord scope parts)
    ∃ u, issueReq s t kind cls dest l ord scope parts = .ok (launchParts (setThread s s.cur (issuedThread t q u)) s.cur q) := by
  have hcheck := checkLandings_requestOf (ord := ord) (scope := scope) hlands hdests hrows
  obtain ⟨hcount, hslots, hfixed, -⟩ := hlands
  have hroom : ¬ (l.off == 0 && decide (63 ≤ outstanding t cls)) = true := by
    simpa using hcount
  have htimed : ¬ ((!(l.off == 0) && !l.fixed) && decide (16 ≤ landingHeld t)) = true := by
    simpa using hslots
  have hflight : ¬ (l.fixed && decide (64 ≤ inFlight t)) = true := by
    simpa using hfixed
  rw [requestOf] at hcheck
  unfold issueReq
  dsimp only
  rw [if_neg hroom, if_neg htimed, if_neg hflight, hcheck]
  exact ⟨_, rfl⟩

end

/-! Tap operations queued (R90 to R92, R98) -/

/-- What queueing the operation o for slot k with a request changes: the request is issued, the operation stands last at
the tap, and nothing of the ring has moved. -/
def QueuesTap (i : Instr) (s : State) (t : Thread) (ord : BitVec 2) (k cls : Nat) (dest : Dest) (l : Landing)
    (P : TapOp → Prop) : Prop :=
  ∃ s' q o, exec i s = .next s' ∧ Issued s s' t q ∧ q.cls = cls ∧ q.dest = dest ∧ q.ord = ord.toNat ∧
    q.due = (if l.off = 0 then none else some (t.x.dc + l.off)) ∧ (coreOf s' s.cur).taps = (coreOf s s.cur).taps ++ [o] ∧
    o.req = t.nextReq ∧ o.slot = k ∧ o.job = t.regs.eddyJob.toNat % 2 ^ 16 ∧ o.eligible = s.now + 3 ∧ P o

theorem wf_15_0 (w : Word) : wf 15 0 w = w.toNat % 2 ^ 16 := by
  rw [wf, bits, pow_zero, Nat.div_one]

/-- R42: a tap operation has one destination, an alighting none. -/
theorem reqDests_tap {q : Req} (h : q.kind = .tap ∨ q.kind = .alight) : reqDests q = [q.dest] := by
  rcases h with h | h
  · simp [reqDests, h]
  · simp [reqDests, h]

/-- R94, R253: of the tap operations only a row read has a row to be written. -/
theorem mem_countedRows_tap {t : Thread} {c : Nat} {kind : ReqKind} {dest : Dest} {parts : List Part} {r : Nat × Nat}
    (hkind : kind = .tap ∨ kind = .alight) (h : r ∈ countedRows t c kind dest parts) :
    dest = .trow r.1 ∧ r.2 = t.x.dc + 7 := by
  rcases hkind with rfl | rfl
  · cases dest <;> simp_all [countedRows]
  · simp [countedRows] at h

/-- A thread that counts one more tap operation of its own. -/
def tapThread (t : Thread) : Thread := { t with taps := t.taps + 1 }

/-- The state in which a tap operation is queued with its request. -/
def tapQueued (s : State) (t : Thread) (q : Req) (o : TapOp) (u : List (Dest × Nat × Nat)) (n : Nat) (a : List Due) : State :=
  modCore { setThread s s.cur (issuedThread (tapThread t) q u) with free := n, agenda := a } s.cur
    (fun c => { c with taps := c.taps ++ [o] })

section
variable (s : State) (t : Thread) (q : Req) (o : TapOp) (u : List (Dest × Nat × Nat)) (n : Nat) (a : List Due)

theorem coreOf_tapQueued : coreOf (tapQueued s t q o u n a) s.cur =
    { coreOf s s.cur with thread := some (issuedThread (tapThread t) q u), taps := (coreOf s s.cur).taps ++ [o] } := by
  have h : coreOf { setThread s s.cur (issuedThread (tapThread t) q u) with free := n, agenda := a } s.cur =
      { coreOf s s.cur with thread := some (issuedThread (tapThread t) q u) } :=
    coreOf_setCore s s.cur { coreOf s s.cur with thread := some (issuedThread (tapThread t) q u) }
  rw [tapQueued, modCore, coreOf_setCore, h]

theorem coreOf_tapQueued_other {c : Nat} (hc : c ≠ s.cur) : coreOf (tapQueued s t q o u n a) c = coreOf s c :=
  (coreOf_setCore_other _ _ _ _ hc).trans (coreOf_setThread_other s s.cur c _ hc)

theorem issued_tapQueued : Issued s (tapQueued s t q o u n a) t q :=
  ⟨issuedThread (tapThread t) q u, congrArg Core.thread (coreOf_tapQueued s t q o u n a), rfl, rfl,
    ⟨rfl, rfl, rfl, rfl, rfl⟩, rfl, rfl, rfl, rfl, rfl, rfl, fun _ hc => coreOf_tapQueued_other s t q o u n a hc,
    rfl, rfl, rfl, rfl, rfl⟩

end

section
variable {s : State} {t : Thread} {o : TapOp} {kind : ReqKind} {cls : Nat} {dest : Dest} {l : Landing} {p : Part}
  (hroom : (coreOf s s.cur).taps.length < 8) (hlands : Lands t l cls [dest])
  (hkind : kind = .tap ∨ kind = .alight) (hread : l.off = 0 → ∀ n, dest = .trow n → tileRead t dest (t.x.dc + 7) = false)
include hroom hlands hkind hread

/-- R91, R92: a tap operation is queued with its request. -/
theorem queueTap_ok : ∃ u n a, queueTap s t o kind cls dest l p =
    .ok (tapQueued s t (timeParts s.now (requestOf t kind cls dest l o.ord 3 [p])) o u n a) := by
  have hdests (q : Req) (hk : q.kind = kind) (hd : q.dest = dest) : reqDests q = [dest] := hd ▸ reqDests_tap (hk ▸ hkind)
  have hrows (hoff : l.off = 0) (r) (hr : r ∈ countedRows t s.cur kind dest [p]) : tileRead t (.trow r.1) r.2 = false := by
    obtain ⟨hdest, hcycle⟩ := mem_countedRows_tap hkind hr
    rw [hcycle, ← hdest]
    exact hread hoff _ hdest
  obtain ⟨u, hissue⟩ := issueReq_ok (s := s) (t := tapThread t) (ord := o.ord) (scope := 3)
    (parts := [p]) hlands hdests hrows
  obtain ⟨n, a, hlaunch⟩ := launchParts_eq (setThread s s.cur (issuedThread (tapThread t)
    (timeParts s.now (requestOf t kind cls dest l o.ord 3 [p])) u)) s.cur (timeParts s.now (requestOf t kind cls dest l o.ord 3 [p]))
  refine ⟨u, n, a, ?_⟩
  rw [queueTap, if_neg (Nat.not_le.mpr hroom)]
  show Except.map _ (issueReq s (tapThread t) kind cls dest l o.ord 3 [p]) = _
  rw [hissue]
  exact congrArg (fun x => Except.ok (modCore x x.cur (fun c => { c with taps := c.taps ++ [o] }))) hlaunch

end

/-- What a tap operation for slot k holds at issue, whatever its kind (R90, R91). -/
def TapFor (s : State) (t : Thread) (ord : BitVec 2) (k : Nat) (o : TapOp) : Prop :=
  o.req = t.nextReq ∧ o.slot = k ∧ o.job = wf 15 0 t.regs.eddyJob ∧ o.eligible = s.now + 3 ∧ o.ord = ord.toNat

section
variable {i : Instr} {g : Guard} {s : State} {t : Thread} {f : Thread → Slot} {o : TapOp} {ord : BitVec 2} {k cls : Nat}
  {dest : Dest} {l : Landing} {P : TapOp → Prop} {kind : ReqKind} {p : Part}

/-- A slot that queues a tap operation with its request. -/
theorem queuesTap_of (hp : Performs s t g) (hi : exec i s = runSlot g s f) (hf : f t = queueTap s t o kind cls dest l p)
    (hroom : (coreOf s s.cur).taps.length < 8) (hlands : Lands t l cls [dest]) (hkind : kind = .tap ∨ kind = .alight)
    (hread : l.off = 0 → ∀ n, dest = .trow n → tileRead t dest (t.x.dc + 7) = false) (ho : TapFor s t ord k o) (hP : P o) :
    QueuesTap i s t ord k cls dest l P := by
  obtain ⟨ht, hg⟩ := hp
  obtain ⟨hreq, hslot, hjob, heligible, hord⟩ := ho
  obtain ⟨u, n, a, hqueue⟩ := queueTap_ok (o := o) (p := p) hroom hlands hkind hread
  refine ⟨_, _, o, hi.trans (runSlot_ok g s _ t f ht hg (hf.trans hqueue)), issued_tapQueued .., rfl, rfl, hord, ?_,
    congrArg Core.taps (coreOf_tapQueued ..), hreq, hslot, hjob.trans (wf_15_0 _), heligible, hP⟩
  simp [timeParts, requestOf]

end

section
variable {g : Guard} {rd rw ra : BitVec 5} {f cop : BitVec 3} {tl : BitVec 4} {e : BitVec 6} {ord : BitVec 2} {atr : Bool}
  {off : BitVec 10} {s : State} {t : Thread} {k : Nat} {l : Landing} {p : Place}
  (hp : Performs s t g) (hroom : (coreOf s s.cur).taps.length < 8)

section
variable (hland : queueLanding t atr off = .ok l)
include hp hroom hland

/-- R93: a capture. -/
theorem ecap_queues (hwin : eddyWindow t (sreg t rw) = .ok k) (hlands : Lands t l 1 [.sreg rd.toNat]) :
    QueuesTap (.ecap g rd rw ra f cop ord atr off) s t ord k 1 (.sreg rd.toNat) l (fun o => o.kind = 0 ∧
      o.variant = cop.toNat ∧ o.field = f.toNat ∧ o.a = sreg t ra ∧ (cop = 5 → o.b = sreg t (ra ||| 1))) := by
  refine queuesTap_of hp rfl (by rw [hwin, Except.bind, hland, Except.bind]) hroom hlands (.inl rfl) (by simp)
    ⟨rfl, rfl, rfl, rfl, rfl⟩ ⟨rfl, rfl, rfl, rfl, fun h => if_pos h⟩

/-- R94: a row read. -/
theorem erow_queues (hwin : eddyWindow t (sreg t rw) = .ok k) (hlands : Lands t l 1 [.trow (64 * tl.toNat + e.toNat)])
    (hread : l.off = 0 → tileRead t (.trow (64 * tl.toNat + e.toNat)) (t.x.dc + 7) = false) :
    QueuesTap (.erow g tl e rw ord atr off) s t ord k 1 (.trow (64 * tl.toNat + e.toNat)) l (fun o => o.kind = 1) :=
  queuesTap_of hp rfl (by rw [hwin, Except.bind, hland, Except.bind]) hroom hlands (.inl rfl) (fun h _ _ => hread h)
    ⟨rfl, rfl, rfl, rfl, rfl⟩ rfl

/-- R95: a boarding of one slot. -/
theorem eboard_queues (hwin : eddyWindow t (sreg t rw) = .ok k) (hlands : Lands t l 1 [.sreg rd.toNat]) :
    QueuesTap (.eboard g rd rw false tl e ord atr off) s t ord k 1 (.sreg rd.toNat) l (fun o => o.kind = 2 ∧ o.any = false ∧
      o.w = sreg t rw ∧ o.payload = (trow t tl.toNat e.toNat).setWidth 512) :=
  queuesTap_of hp rfl (by dsimp only; rw [if_neg Bool.false_ne_true, hwin, Except.bind, hland, Except.bind]) hroom hlands
    (.inl rfl) (by simp) ⟨rfl, rfl, rfl, rfl, rfl⟩ ⟨rfl, rfl, rfl, rfl⟩

/-- R95: a boarding of any slot of the window. -/
theorem eboardAny_queues (hwin : eddyWindow t 0 = .ok k) (hlands : Lands t l 1 [.sreg rd.toNat]) :
    QueuesTap (.eboard g rd rw true tl e ord atr off) s t ord k 1 (.sreg rd.toNat) l (fun o => o.kind = 2 ∧ o.any = true ∧
      o.base = eddyBase t ∧ o.count = eddyCount t ∧ o.payload = (trow t tl.toNat e.toNat).setWidth 512) :=
  queuesTap_of hp rfl (by dsimp only; rw [if_pos rfl, hwin, Except.bind, hland, Except.bind]) hroom hlands (.inl rfl) (by simp)
    ⟨rfl, rfl, rfl, rfl, rfl⟩ ⟨rfl, rfl, rfl, rfl, rfl⟩

end

/-- An alighting takes no landing slot (R172). -/
theorem lands_alight (h : outstanding t 2 < 63) : Lands t ⟨0, false⟩ 2 [.none] := by
  refine ⟨fun _ => h, ?_, ?_, ?_⟩
  · simp
  · simp
  · simp

section
variable (hwin : eddyWindow t (sreg t rw) = .ok k) (hcount : outstanding t 2 < 63)
include hp hroom hwin hcount

/-- R96: an alighting without a deposit. -/
theorem ealight_queues : QueuesTap (.ealight g rw false ra ord) s t ord k 2 .none ⟨0, false⟩
    (fun o => o.kind = 3 ∧ o.deposit = none) :=
  queuesTap_of hp rfl (by rw [hwin]; rfl) hroom (lands_alight hcount) (.inr rfl) (by simp)
    ⟨rfl, rfl, rfl, rfl, rfl⟩ ⟨rfl, rfl⟩

/-- R96: an alighting with a deposit in SRAM, translated at issue as a store's address. -/
theorem ealightDeposit_queues (hplace : threadPlace s t .mem 0 .write (sreg t ra &&& ~~~(63#64)) = .ok p) (hdev : p.dev = none)
    (hsram : inSram p.pa = true) (hfree : xOverlaps s s.cur t p.pa 64 = false) :
    QueuesTap (.ealight g rw true ra ord) s t ord k 2 .none ⟨0, false⟩
      (fun o => o.kind = 3 ∧ o.deposit = some (sreg t ra &&& ~~~(63#64), p.pa, p.unchk)) := by
  have honly : sramOnly p (sreg t ra &&& ~~~(63#64)) = .ok p := by simp [sramOnly, hdev, hsram]
  refine queuesTap_of (o := { tapOf s t 3 k (sreg t rw) ord with deposit := some (sreg t ra &&& ~~~(63#64), p.pa, p.unchk) })
    (p := partAt (sreg t ra &&& ~~~(63#64)) p 64 0 false) hp rfl ?_ hroom (lands_alight hcount) (.inr rfl) (by simp)
    ⟨rfl, rfl, rfl, rfl, rfl⟩ ⟨rfl, rfl⟩
  rw [hwin]
  simp only [Except.bind, Bool.not_true, Bool.false_eq_true, if_false, hplace, honly, hfree, Bool.false_and]

end

end

/-! EWHEN (R97) -/

theorem eddyWindow_lt {t : Thread} {w : Word} {k : Nat} (h : eddyWindow t w = .ok k) : k < 2560 := by
  unfold eddyWindow at h
  dsimp only at h
  split at h
  · cases h
  · split at h
    · cases h
    · cases h
      exact Nat.mod_lt _ (by decide)

/-- The cycles until slot k is at the core's tap, 3 or more (R97). -/
def tapDelay (s : State) (k : Nat) : Nat := 3 + (2 * ringPos s.cur + 2 * 2560 - k - (s.now + 3) % 2560) % 2560

theorem tapDelay_spec (s : State) {k : Nat} (hk : k < 2560) : 3 ≤ tapDelay s k ∧ tapDelay s k < 2563 ∧
    (2 * ringPos s.cur + 2560 - (s.now + tapDelay s k) % 2560) % 2560 = k := by
  unfold tapDelay
  omega

theorem ewhen_result {g : Guard} {rd rw : BitVec 5} {s : State} {t : Thread} {k : Nat} (hp : Performs s t g)
    (hwin : eddyWindow t (sreg t rw) = .ok k) (hfits : Fits t (.sreg rd.toNat) 2) :
    exec (.ewhen g rd rw) s = .next (withScalar s t rd 2 (BitVec.ofNat 64 (tapDelay s k))) :=
  runSlot_scalar hp hfits (by rw [hwin]; rfl)

/-! The Eddy fault at issue (R98) -/

theorem eddyWindow_noJob {t : Thread} (h : wf 15 0 t.regs.eddyJob = 0) (w : Word) :
    ∃ k, eddyWindow t w = .error (.fault (eddyFault 1 k)) := ⟨_, if_pos h⟩

theorem eddyWindow_outside {t : Thread} {w : Word} (hjob : wf 15 0 t.regs.eddyJob ≠ 0) (h : eddyCount t ≤ w.toNat) :
    ∃ k, eddyWindow t w = .error (.fault (eddyFault 2 k)) := ⟨_, by rw [eddyWindow, if_neg hjob, if_pos h]⟩

/-- A slot that takes the Eddy fault: its thread's save begins, its registers and the ring as they were. -/
def TakesEddyFault (i : Instr) (s : State) (t : Thread) (cause : Nat) : Prop :=
  ∃ s' t' x, exec i s = .next s' ∧ threadOf s' s.cur = some t' ∧ t'.phase = .saving true s.now ∧
    t'.posFault = some { cls := 0x0B, cause := cause, qw6 := x, cycle := s.now } ∧ t'.r = t.r ∧ s'.eddy = s.eddy

/-- A slot that looks for window index w first of all (R90, R98). -/
def NamesSlot (i : Instr) (g : Guard) (s : State) (t : Thread) (w : Word) : Prop :=
  ∃ (v : Thread → Word) (f : Thread → Nat → Slot), exec i s = runSlot g s (fun t => (eddyWindow t (v t)).bind (f t)) ∧ v t = w

theorem takesEddyFault_of {i : Instr} {g : Guard} {s : State} {t : Thread} {w : Word} {cause : Nat} (hp : Performs s t g)
    (hh : t.handler = false) (hr : t.replay = false) (hi : NamesSlot i g s t w)
    (hw : ∃ k, eddyWindow t w = .error (.fault (eddyFault cause k))) : TakesEddyFault i s t cause := by
  obtain ⟨v, f, hexec, rfl⟩ := hi
  obtain ⟨k, hw⟩ := hw
  have hrun := runSlot_error g s t (fun t => (eddyWindow t (v t)).bind (f t)) (.fault (eddyFault cause k)) hp.1 hp.2
    (show (eddyWindow t (v t)).bind (f t) = .error (.fault (eddyFault cause k)) by rw [hw, Except.bind])
  have htaken : attend s s.cur (.fault (eddyFault cause k)) = _ := takeException_eq hp.1 hh hr
  rw [← hexec, htaken] at hrun
  exact ⟨_, _, _, hrun, threadOf_setThread .., rfl, rfl, rfl, rfl⟩

/-- Settles O37: each slot by what it queues, the number that EWHEN puts in flight, and the fault of a missing window. -/
theorem eddySlots : Obligations.EddySlots := by
  unfold Obligations.EddySlots
  intro g rd rw ra f cop tl e ord atr off s t k l p hp
  refine ⟨fun hwin hroom hland => ⟨fun hlands => ⟨ecap_queues hp hroom hland hwin hlands, eboard_queues hp hroom hland hwin hlands⟩,
    erow_queues hp hroom hland hwin, fun hcount => ⟨ealight_queues hp hroom hwin hcount,
    ealightDeposit_queues hp hroom hwin hcount⟩⟩, fun hwin hroom hland => eboardAny_queues hp hroom hland hwin, fun hwin hfits => ?_, ?_⟩
  · obtain ⟨hmin, hmax, hslot⟩ := tapDelay_spec s (eddyWindow_lt hwin)
    exact ⟨_, hmin, hmax, hslot, ewhen_result hp hwin hfits⟩
  · intro faults indexed hh hr
    have hindexed : ∀ i ∈ indexed, NamesSlot i g s t (sreg t rw) := by
      simp only [indexed, List.forall_mem_cons]
      exact ⟨⟨_, _, rfl, rfl⟩, ⟨_, _, rfl, rfl⟩, ⟨_, _, rfl, rfl⟩, ⟨_, _, rfl, rfl⟩, ⟨_, _, rfl, rfl⟩, ⟨_, _, rfl, rfl⟩, by simp⟩
    have hany : NamesSlot (.eboard g rd rw true tl e ord atr off) g s t 0 := ⟨_, _, rfl, rfl⟩
    have htaken {i : Instr} {w : Word} {cause : Nat} (hi : NamesSlot i g s t w) :=
      takesEddyFault_of (cause := cause) hp hh hr hi
    refine ⟨fun hjob i hi => ?_, fun hjob hout i hi => htaken (hindexed i hi) (eddyWindow_outside hjob hout),
      fun hjob hnone => htaken hany (eddyWindow_outside hjob (Nat.le_of_eq hnone))⟩
    rcases List.mem_append.mp hi with hi | hi
    · exact htaken (hindexed i hi) (eddyWindow_noJob hjob _)
    · rw [List.mem_singleton.mp hi]
      exact htaken hany (eddyWindow_noJob hjob _)

end Sys2Proof.Machine

namespace Sys2Proof.Machine

/-! The Eddy ring at work (O48) -/

/-- A state that differs from another in its cores alone. -/
def CoresOnly (s s' : State) : Prop := ∃ m, s' = { s with cores := m }

theorem CoresOnly.refl (s : State) : CoresOnly s s := ⟨s.cores, rfl⟩

theorem CoresOnly.trans {s s' s'' : State} (h : CoresOnly s s') (h' : CoresOnly s' s'') : CoresOnly s s'' := by
  obtain ⟨_, rfl⟩ := h
  obtain ⟨m, rfl⟩ := h'
  exact ⟨m, rfl⟩

theorem CoresOnly.eddy {s s' : State} (h : CoresOnly s s') : s'.eddy = s.eddy := by
  obtain ⟨_, rfl⟩ := h
  rfl

theorem CoresOnly.mem {s s' : State} (h : CoresOnly s s') : s'.mem = s.mem := by
  obtain ⟨_, rfl⟩ := h
  rfl

theorem CoresOnly.agenda {s s' : State} (h : CoresOnly s s') : s'.agenda = s.agenda := by
  obtain ⟨_, rfl⟩ := h
  rfl

theorem CoresOnly.now {s s' : State} (h : CoresOnly s s') : s'.now = s.now := by
  obtain ⟨_, rfl⟩ := h
  rfl

theorem coresOnly_modCore (s : State) (c : Nat) (f : Core → Core) : CoresOnly s (modCore s c f) := ⟨_, rfl⟩

theorem coresOnly_modThread (s : State) (c : Nat) (f : Thread → Thread) : CoresOnly s (modThread s c f) := by
  rw [modThread_eq]
  split
  · exact .refl s
  · exact ⟨_, rfl⟩

theorem coresOnly_settleReq (s : State) (c id : Nat) : CoresOnly s (settleReq s c id) := by
  unfold settleReq
  split
  · exact .refl s
  · split
    · exact .refl s
    · dsimp only
      split
      · exact (coresOnly_modThread ..).trans (coresOnly_modThread ..)
      · exact (coresOnly_modThread ..).trans (coresOnly_modThread ..)

theorem taps_modThread (s : State) (h : Nat) (f : Thread → Thread) (c : Nat) :
    (coreOf (modThread s h f) c).taps = (coreOf s c).taps := by
  unfold modThread
  split
  · rfl
  · next t _ => exact coreOf_modCore_keeps Core.taps (f := fun k => { k with thread := some (f t) }) (fun _ => rfl) s h c

/-! Slots (R86 to R88) -/

theorem eslot_of_eddy {s s' : State} (h : s'.eddy = s.eddy) (k : Nat) : eslot s' k = eslot s k := by
  rw [eslot, h, eslot]

theorem eslot_setEslot (s : State) (k : Nat) {x : ESlot} (hx : x.state ≠ 0) : eslot (setEslot s k x) k = x := by
  have hne : x ≠ ESlot.empty := fun h => hx (congrArg ESlot.state h)
  show mgetD ESlot.empty k (mset ESlot.empty k x s.eddy.slots) = x
  rw [mset, if_neg hne, mgetD_mput_same]

theorem cmd_setEslot (s : State) (k : Nat) (x : ESlot) : (setEslot s k x).eddy.cmd = s.eddy.cmd := rfl

theorem slots_setEslot_empty (s : State) (k : Nat) : (setEslot s k ESlot.empty).eddy.slots = mdel k s.eddy.slots := by
  unfold setEslot
  rw [mset, if_pos rfl]

theorem checkSlot_clean {s : State} {k : Nat} (h : mget k s.eddy.flips = none) (stage : Nat) : checkSlot s k stage = s := by
  rw [checkSlot, h]

/-! A slot passes a stage (R85, R86, R105) -/

section
variable {stage : Nat} {s : State} (hclean : mget (slotAt s stage) s.eddy.flips = none)
include hclean

/-- R88: at a stage whose slot is as it was encoded only the tap and the origin act. -/
theorem eddySlotPass_clean : exec (.eddySlotPass stage) s = .next
    (let c := ringCore (stage / 2)
     let s1 := if (stage % 2 = 0 && coreLive s c && !(coreOf s c).taps.isEmpty) = true then
       pushEvs s [.tapOperationPerformed c] else s
     if stage = 0 then originPass s1 (slotAt s stage) else s1) := by
  show execEddySlotPass stage s = _
  simp only [execEddySlotPass, checkSlot_clean hclean, ite_self]

/-- R91: a live core's tap with operations queued acts on the slot that passes it. -/
theorem eddySlotPass_taps (hpos : stage ≠ 0) (heven : stage % 2 = 0) (hlive : coreLive s (ringCore (stage / 2)) = true)
    (htaps : (coreOf s (ringCore (stage / 2))).taps ≠ []) :
    exec (.eddySlotPass stage) s =
      .next { s with todo := .ev (.tapOperationPerformed (ringCore (stage / 2))) :: s.todo } := by
  rw [eddySlotPass_clean hclean]
  simp [hpos, heven, hlive, htaps, pushEvs]

theorem eddySlotPass_noTaps (hpos : stage ≠ 0) (htaps : (coreOf s (ringCore (stage / 2))).taps = []) :
    exec (.eddySlotPass stage) s = .next s := by
  rw [eddySlotPass_clean hclean]
  simp [hpos, htaps]

theorem eddySlotPass_origin (hzero : stage = 0) (htaps : (coreOf s (ringCore (stage / 2))).taps = []) :
    exec (.eddySlotPass stage) s = .next (originPass s (slotAt s 0)) := by
  subst hzero
  rw [eddySlotPass_clean hclean]
  simp [htaps]

end

/-- R104: without a command the origin notes the state of its slot. -/
theorem originPass_idle {s : State} (hcmd : s.eddy.cmd = none) (k : Nat) : originPass s k =
    { s with eddy := { s.eddy with seen := mset 0 k (eslot s k).state s.eddy.seen } } := by
  simp only [originPass, hcmd]

/-- R105: a teardown empties a slot of its job that passes the origin. -/
theorem originPass_teardown {s : State} {job g k : Nat} (hcmd : s.eddy.cmd = some (1, job, g)) (hstate : (eslot s k).state = 1)
    (hjob : (eslot s k).job.toNat = job) :
    (originPass s k).eddy.slots = mdel k s.eddy.slots ∧ (originPass s k).eddy.cmd = s.eddy.cmd := by
  simp only [originPass, hcmd, hstate, hjob, and_self, if_true]
  rw [slots_setEslot_empty, cmd_setEslot]
  exact ⟨rfl, hcmd⟩

/-! What an operation's end changes (R91, R92) -/

theorem coresOnly_popTap (s : State) (c : Nat) : CoresOnly s (popTap s c) :=
  (coresOnly_modCore ..).trans (coresOnly_modThread ..)

/-- R91: the head operation alone leaves the queue. -/
theorem length_taps_popTap {s : State} {c : Nat} {o : TapOp} {rest : List TapOp} (h : (coreOf s c).taps = o :: rest) :
    (coreOf (popTap s c) c).taps.length = rest.length := by
  unfold popTap
  dsimp only
  rw [taps_modThread, modCore, coreOf_setCore, h]
  cases rest
  · rfl
  · rfl

/-- R92: the result is on its way, and beside it the machine's cores alone have changed. -/
theorem deliverReq_machine (s : State) (c id : Nat) (data : Row) (f : Option FaultRec) :
    (deliverReq s c id data 4 f).eddy = s.eddy ∧ (deliverReq s c id data 4 f).mem = s.mem ∧
      (deliverReq s c id data 4 f).agenda = s.agenda ++ [⟨s.now + 4, .requestDataArrival c id 0⟩] ∧
      ∀ x, (coreOf (deliverReq s c id data 4 f) x).taps = (coreOf s x).taps := by
  have hcores : CoresOnly s (modReq s c id (fun q =>
      { q with fault := f, parts := q.parts.map (fun p => { p with data := data, done := true, sent := true }) })) :=
    coresOnly_modThread ..
  refine ⟨hcores.eddy, hcores.mem, ?_, fun x => taps_modThread ..⟩
  rw [deliverReq, agenda_schedule _ _ _ (by decide), hcores.agenda, hcores.now]

/-- A request found under a number after a change of that request is a changed one. -/
theorem reqOf_modReq_changed {s : State} {c id : Nat} {f : Req → Req} {q : Req} (h : reqOf (modReq s c id f) c id = some q) :
    ∃ x, q = f x := by
  rw [modReq, modThread_eq] at h
  split at h
  · next hnone => simp [reqOf, hnone] at h
  · rw [reqOf, threadOf_setThread] at h
    have hid : q.id = id := by simpa using List.find?_some h
    obtain ⟨x, -, hx⟩ := List.mem_map.mp (List.mem_of_find?_eq_some h)
    split at hx
    · exact ⟨x, hx.symm⟩
    · next hne => exact absurd (hx ▸ hid) hne

theorem deliverReq_data {s : State} {c id : Nat} {data : Row} {f : Option FaultRec} {q : Req}
    (h : reqOf (deliverReq s c id data 4 f) c id = some q) : ∀ p ∈ q.parts, p.data = data := by
  obtain ⟨x, rfl⟩ := reqOf_modReq_changed h
  intro p hp
  obtain ⟨y, -, rfl⟩ := List.mem_map.mp hp
  rfl

/-! The operation at the head of a tap (R91 to R96) -/

theorem testBit_bits (lo n v i : Nat) : (bits lo n v).testBit i = (decide (i < n) && v.testBit (lo + i)) := by
  rw [bits, Nat.testBit_mod_two_pow, Nat.testBit_div_two_pow, Nat.add_comm]

/-- R93: a field of a payload replaced, the other fields as they were. -/
theorem field_replaced (p : BitVec 512) (v : Word) {f j : Nat} (hf : f < 8) (hj : j < 8) :
    bits (64 * j) 64 ((p &&& ~~~(BitVec.ofNat 512 ((2 ^ 64 - 1) * 2 ^ (64 * f)))) |||
      BitVec.ofNat 512 (v.toNat * 2 ^ (64 * f))).toNat = if j = f then v.toNat else bits (64 * j) 64 p.toNat := by
  refine Nat.eq_of_testBit_eq fun i => ?_
  rw [testBit_bits, BitVec.testBit_toNat, BitVec.getLsbD_or, BitVec.getLsbD_and, BitVec.getLsbD_not, BitVec.getLsbD_ofNat,
    BitVec.getLsbD_ofNat, Nat.testBit_mul_two_pow, Nat.testBit_mul_two_pow, Nat.testBit_two_pow_sub_one]
  by_cases hi : i < 64
  · have hlt : 64 * j + i < 512 := by omega
    by_cases hjf : j = f
    · subst hjf
      simp [hi, hlt]
    · rw [if_neg hjf, testBit_bits, BitVec.testBit_toNat]
      by_cases hlow : 64 * f ≤ 64 * j + i
      · have hhigh : 64 ≤ 64 * j + i - 64 * f := by omega
        simp [hi, hlt, hlow, hhigh, BitVec.testBit_toNat]
      · simp [hi, hlt, hlow, BitVec.testBit_toNat]
  · have hv : v.toNat.testBit i = false := by rw [BitVec.testBit_toNat, BitVec.getLsbD_of_ge _ _ (by omega)]
    by_cases hjf : j = f
    · simp [hi, hjf, hv]
    · simp [hi, hjf, testBit_bits]

section
variable {c : Nat} {s : State} {t : Thread} {o : TapOp} {rest : List TapOp} (htaps : (coreOf s c).taps = o :: rest)
  (ht : threadOf s c = some t)
include htaps ht

theorem tapOperation_early (h : s.now < o.eligible) : exec (.tapOperationPerformed c) s = .next s := by
  show execTapOperationPerformed c s = _
  simp only [execTapOperationPerformed, htaps, ht, if_pos h]

theorem tapOperation_waits (heligible : o.eligible ≤ s.now) (hready : tapReady t o = false) :
    exec (.tapOperationPerformed c) s = .next (tapWaits s c) := by
  show execTapOperationPerformed c s = _
  simp only [execTapOperationPerformed, htaps, ht, if_neg (Nat.not_lt.mpr heligible), hready, Bool.not_false, if_true]

variable (heligible : o.eligible ≤ s.now) (hready : tapReady t o = true)
include heligible hready

/-- R91, R95: a slot that is not the operation's passes; the 2,560th that an any-mode boarding tries is its last. -/
theorem tapOperation_passes (hslot : tapMatches o (eslot s (slotAt s (2 * ringPos c))) (slotAt s (2 * ringPos c)) = false) :
    exec (.tapOperationPerformed c) s =
      .next (if o.any = true ∧ o.eligible + 2559 ≤ s.now then pushEvs s [.eboardAnyTimeout c] else s) := by
  show execTapOperationPerformed c s = _
  simp only [execTapOperationPerformed, htaps, ht, if_neg (Nat.not_lt.mpr heligible), hready, Bool.not_true, hslot,
    Bool.false_eq_true, if_false]

/-- R91: on its own slot the operation has its effect, leaves the queue and gives its result. -/
theorem tapOperation_acts (hslot : tapMatches o (eslot s (slotAt s (2 * ringPos c))) (slotAt s (2 * ringPos c)) = true)
    (hord : o.ord = 0) {r : TapResult} {s1 : State} (heff : tapEffect s o (slotAt s (2 * ringPos c)) = (r, s1)) :
    exec (.tapOperationPerformed c) s = .next (tapDeliver (popTap s1 c) c o r) := by
  show execTapOperationPerformed c s = _
  simp only [execTapOperationPerformed, htaps, ht, if_neg (Nat.not_lt.mpr heligible), hready, Bool.not_true, hslot, heff,
    hord, Bool.false_eq_true, if_false, if_true]
  rfl

end

/-- What an operation without any-mode finds at its own slot (R91). -/
theorem tapMatches_own {o : TapOp} (hany : o.any = false) (x : ESlot) (k : Nat) : tapMatches o x k = (k == o.slot) := by
  rw [tapMatches, hany, if_neg Bool.false_ne_true]

section
variable {s : State} {o : TapOp} {k : Nat}

/-- R93: what a capture leaves of its slot. -/
def capturedSlot (x : ESlot) (o : TapOp) : ESlot :=
  let old := BitVec.ofNat 64 (bits (64 * o.field) 64 x.payload.toNat)
  { x with payload := (x.payload &&& ~~~(BitVec.ofNat 512 ((2 ^ 64 - 1) * 2 ^ (64 * o.field)))) |||
      BitVec.ofNat 512 ((ecapNew o.variant old o.a o.b).toNat * 2 ^ (64 * o.field)) }

theorem capturedSlot_field (x : ESlot) {j : Nat} (hfield : o.field < 8) (hj : j < 8) :
    bits (64 * j) 64 (capturedSlot x o).payload.toNat = if j = o.field then
      (ecapNew o.variant (BitVec.ofNat 64 (bits (64 * j) 64 x.payload.toNat)) o.a o.b).toNat
      else bits (64 * j) 64 x.payload.toNat := by
  rw [capturedSlot, field_replaced _ _ hfield hj]
  by_cases h : j = o.field
  · rw [if_pos h, if_pos h, h]
  · rw [if_neg h, if_neg h]

/-- R93, R94, R96: on a slot of the operation's job a capture changes one field, a row read nothing, and an alighting empties
the slot. -/
theorem tapEffect_owned (hkind : o.kind ≠ 2) (hstate : (eslot s k).state = 1) (hjob : (eslot s k).job.toNat = o.job) :
    ∃ d s1, tapEffect s o k = (.data d, s1) ∧ (o.kind = 0 → s1 = setEslot s k (capturedSlot (eslot s k) o)) ∧
      (o.kind = 1 → s1 = s) ∧ (o.kind = 3 → s1 = setEslot s k ESlot.empty) := by
  unfold tapEffect
  dsimp only
  rw [if_neg hkind, if_neg (by simp [hstate]), if_neg (by simp [hstate, hjob])]
  split
  · next h => exact ⟨_, _, rfl, fun _ => rfl, by simp [h], by simp [h]⟩
  · next h => exact ⟨_, _, rfl, by simp [h], fun _ => rfl, by simp [h]⟩
  · next h0 h1 => exact ⟨_, _, rfl, fun h => (h0 h).elim, fun h => (h1 h).elim, fun _ => rfl⟩

theorem tapEffect_capture (hkind : o.kind = 0) (hstate : (eslot s k).state = 1) (hjob : (eslot s k).job.toNat = o.job) :
    ∃ d, tapEffect s o k = (.data d, setEslot s k (capturedSlot (eslot s k) o)) := by
  obtain ⟨d, s1, heff, hcapture, -, -⟩ := tapEffect_owned (by simp [hkind]) hstate hjob
  exact ⟨d, hcapture hkind ▸ heff⟩

theorem tapEffect_read (hkind : o.kind = 1) (hstate : (eslot s k).state = 1) (hjob : (eslot s k).job.toNat = o.job) :
    ∃ d, tapEffect s o k = (.data d, s) := by
  obtain ⟨d, s1, heff, -, hread, -⟩ := tapEffect_owned (by simp [hkind]) hstate hjob
  exact ⟨d, heff.trans (by rw [hread hkind])⟩

theorem tapEffect_alight (hkind : o.kind = 3) (hstate : (eslot s k).state = 1) (hjob : (eslot s k).job.toNat = o.job) :
    ∃ d, tapEffect s o k = (.data d, setEslot s k ESlot.empty) := by
  obtain ⟨d, s1, heff, -, -, halight⟩ := tapEffect_owned (by simp [hkind]) hstate hjob
  exact ⟨d, halight hkind ▸ heff⟩

theorem tapEffect_board (hkind : o.kind = 2) (hstate : (eslot s k).state = 0) :
    ∃ d, tapEffect s o k = (.data d, setEslot s k ⟨o.payload, BitVec.ofNat 16 o.job, 1⟩) := by
  simp only [tapEffect, hkind, hstate, if_true]
  exact ⟨_, rfl⟩

end

/-- R92: every result but an alighting's goes back four cycles later. -/
theorem tapDeliver_data {o : TapOp} (hkind : o.kind ≠ 3) (s : State) (c : Nat) (d : Row) :
    tapDeliver s c o (.data d) = deliverReq s c o.req d 4 := by
  simp only [tapDeliver]

theorem coresOnly_tapDeliver_alight {o : TapOp} (hkind : o.kind = 3) (s : State) (c : Nat) (d : Row) :
    CoresOnly s (tapDeliver s c o (.data d)) := by
  simp only [tapDeliver, hkind]
  split
  · exact coresOnly_modThread ..
  · exact (coresOnly_modThread ..).trans (coresOnly_settleReq ..)

/-- A state that differs from another in the ring alone. -/
def RingOnly (s s' : State) : Prop := ∃ e, s' = { s with eddy := e }

theorem RingOnly.machine {s s' : State} (h : RingOnly s s') :
    s'.mem = s.mem ∧ s'.agenda = s.agenda ∧ s'.now = s.now ∧ s'.cores = s.cores := by
  obtain ⟨_, rfl⟩ := h
  exact ⟨rfl, rfl, rfl, rfl⟩

theorem ringOnly_refl (s : State) : RingOnly s s := ⟨s.eddy, rfl⟩

theorem ringOnly_setEslot (s : State) (k : Nat) (x : ESlot) : RingOnly s (setEslot s k x) := ⟨_, rfl⟩

section
variable {c : Nat} {s s1 : State} {t : Thread} {o : TapOp} {rest : List TapOp}
  (htaps : (coreOf s c).taps = o :: rest) (ht : threadOf s c = some t) (heligible : o.eligible ≤ s.now)
  (hready : tapReady t o = true) (hord : o.ord = 0) (hany : o.any = false) (hslot : slotAt s (2 * ringPos c) = o.slot)
  (heff : ∃ d, tapEffect s o (slotAt s (2 * ringPos c)) = (.data d, s1))
include htaps ht heligible hready hord hany hslot heff

theorem tapOperation_own : ∃ d, exec (.tapOperationPerformed c) s =
    .next (tapDeliver (popTap s1 c) c o (.data d)) := by
  obtain ⟨d, heff⟩ := heff
  have hown : tapMatches o (eslot s (slotAt s (2 * ringPos c))) (slotAt s (2 * ringPos c)) = true := by
    rw [tapMatches_own hany, hslot, beq_self_eq_true]
  exact ⟨d, tapOperation_acts htaps ht heligible hready hown hord heff⟩

/-- R91, R92: an operation with a result leaves the queue, and its result goes back four cycles later. -/
theorem tapOperation_result (hring : RingOnly s s1) (hkind : o.kind ≠ 3) :
    ∃ s', exec (.tapOperationPerformed c) s = .next s' ∧ s'.eddy = s1.eddy ∧ s'.mem = s.mem ∧
      s'.agenda = s.agenda ++ [⟨s.now + 4, .requestDataArrival c o.req 0⟩] ∧ (coreOf s' c).taps.length = rest.length := by
  obtain ⟨d, hexec⟩ := tapOperation_own htaps ht heligible hready hord hany hslot heff
  obtain ⟨hmem1, hagenda1, hnow1, hcores1⟩ := hring.machine
  obtain ⟨heddy, hmem, hagenda, hqueue⟩ := deliverReq_machine (popTap s1 c) c o.req d none
  have hpop := coresOnly_popTap s1 c
  rw [tapDeliver_data hkind] at hexec
  refine ⟨_, hexec, heddy.trans hpop.eddy, hmem.trans (hpop.mem.trans hmem1), ?_, ?_⟩
  · rw [hagenda, hpop.agenda, hpop.now, hagenda1, hnow1]
  · rw [hqueue]
    exact length_taps_popTap ((congrArg Core.taps (coreOf_of_cores hcores1 c)).trans htaps)

/-- R96: an alighting ends in the cycle in which it is performed. -/
theorem tapOperation_alights (hring : RingOnly s s1) (hkind : o.kind = 3) :
    ∃ s', exec (.tapOperationPerformed c) s = .next s' ∧ s'.eddy = s1.eddy ∧ s'.mem = s.mem := by
  obtain ⟨d, hexec⟩ := tapOperation_own htaps ht heligible hready hord hany hslot heff
  have hcores := (coresOnly_popTap s1 c).trans (coresOnly_tapDeliver_alight hkind (popTap s1 c) c d)
  exact ⟨_, hexec, hcores.eddy, hcores.mem.trans hring.machine.1⟩

end

/-- R95: an any-mode boarding that ends without a slot leaves the queue, and all ones go back four cycles later. -/
theorem eboardAnyTimeout_ends {c : Nat} {s : State} {o : TapOp} {rest : List TapOp} (htaps : (coreOf s c).taps = o :: rest)
    (hany : o.any = true) (hord : o.ord = 0) :
    exec (.eboardAnyTimeout c) s = .next (deliverReq (popTap s c) c o.req (rowOf (BitVec.allOnes 64)) 4) := by
  show execEboardAnyTimeout c s = _
  simp only [execEboardAnyTimeout, htaps, hany, hord, if_true]
  rfl

/-! The operating system's commands (R105) -/

section
variable {s : State} {job slot : BitVec 16}

theorem eddyRefuse_idle (h : s.eddy.cmd = none) (err : Nat) : eddyRefuse s err = { s with eddy := { s.eddy with err := err } } := by
  simp [eddyRefuse, h]

theorem eddyRefuse_busy (h : s.eddy.cmd.isSome = true) (err : Nat) :
    eddyRefuse s err = { s with eddy := { s.eddy with ovf := true } } := by
  simp [eddyRefuse, h]

theorem teardown_begins (h : s.eddy.cmd = none) (hjob : job ≠ 0) : exec (.teardown job) s = .next (schedule
    { s with eddy := { s.eddy with cmd := some (1, job.toNat, s.now), err := 0 } } 2560 .teardownComplete) := by
  show execTeardown job s = _
  rw [execTeardown, h, if_neg (by simp), if_neg hjob]

theorem teardown_noJob (h : s.eddy.cmd = none) : exec (.teardown 0) s = .next { s with eddy := { s.eddy with err := 2 } } := by
  show execTeardown 0 s = _
  simp [execTeardown, h, eddyRefuse_idle]

theorem reclaim_begins (h : s.eddy.cmd = none) (hslot : slot.toNat < 2560)
    (hlost : (eslot s slot.toNat).state = 2) :
    exec (.reclaim slot) s = .next { s with eddy := { s.eddy with cmd := some (2, slot.toNat, s.now), err := 0 } } := by
  show execReclaim slot s = _
  simp [execReclaim, h, Nat.not_le.mpr hslot, hlost]

theorem reclaim_notLost (h : s.eddy.cmd = none) (hlost : (eslot s slot.toNat).state ≠ 2) :
    exec (.reclaim slot) s = .next { s with eddy := { s.eddy with err := 2 } } := by
  show execReclaim slot s = _
  simp [execReclaim, h, hlost, eddyRefuse_idle]

theorem commands_busy (h : s.eddy.cmd.isSome = true) (job slot : BitVec 16) :
    exec (.teardown job) s = .next { s with eddy := { s.eddy with ovf := true } } ∧
      exec (.reclaim slot) s = .next { s with eddy := { s.eddy with ovf := true } } := by
  constructor
  · show execTeardown job s = _
    rw [execTeardown, if_pos h, eddyRefuse_busy h]
  · show execReclaim slot s = _
    rw [execReclaim, if_pos h, eddyRefuse_busy h]

end

/-- Settles O48: each event by what its function does, a tap's operation by its effect on its own slot. -/
theorem eddyEvents : Obligations.EddyEvents := by
  unfold Obligations.EddyEvents
  refine ⟨?_, ?_, ?_, ?_, ?_⟩
  · rintro stage s _ hclean rfl
    refine ⟨eddySlotPass_taps hclean, eddySlotPass_noTaps hclean, fun hzero htaps hcmd => ?_,
      fun hzero htaps job g hcmd hstate hjob => ?_⟩
    · rw [eddySlotPass_origin hclean hzero htaps, originPass_idle hcmd]
    · exact ⟨_, eddySlotPass_origin hclean hzero htaps, originPass_teardown hcmd hstate hjob⟩
  · intro c s t o rest q k x htaps ht _ heligible hready hord hany
    refine ⟨fun hne => ?_, fun hslot => ⟨fun hkind hfield hstate hjob => ?_, fun hkind hstate hjob => ?_,
      fun hkind hstate => ?_, fun hkind hstate hjob => ?_⟩⟩
    · rw [tapOperation_passes htaps ht heligible hready (by rw [tapMatches_own hany]; exact beq_false_of_ne hne), hany]
      simp
    · obtain ⟨s', hexec, heddy, hmem, hagenda, hqueue⟩ := tapOperation_result htaps ht heligible hready hord hany hslot
        (tapEffect_capture hkind hstate hjob) (ringOnly_setEslot ..) (by simp [hkind])
      have hk : eslot s' k = capturedSlot x o := by
        rw [eslot_of_eddy heddy]
        exact eslot_setEslot s k (by simp [capturedSlot, x, k, hstate])
      refine ⟨s', hexec, ?_⟩
      rw [hk]
      exact ⟨hstate, rfl, fun j hj => capturedSlot_field x hfield hj, hqueue, hmem, hagenda⟩
    · obtain ⟨s', hexec, heddy, -, hagenda, -⟩ := tapOperation_result htaps ht heligible hready hord hany hslot
        (tapEffect_read hkind hstate hjob) (ringOnly_refl s) (by simp [hkind])
      exact ⟨s', hexec, heddy, hagenda⟩
    · obtain ⟨s', hexec, heddy, -, hagenda, -⟩ := tapOperation_result htaps ht heligible hready hord hany hslot
        (tapEffect_board hkind hstate) (ringOnly_setEslot ..) (by simp [hkind])
      exact ⟨s', hexec, (eslot_of_eddy heddy k).trans (eslot_setEslot s k (by simp)), hagenda⟩
    · obtain ⟨s', hexec, heddy, hmem⟩ := tapOperation_alights htaps ht heligible hready hord hany hslot
        (tapEffect_alight hkind hstate hjob) (ringOnly_setEslot ..) hkind
      exact ⟨s', hexec, (congrArg Eddy.slots heddy).trans (slots_setEslot_empty s k), hmem⟩
  · intro c s t o rest htaps ht
    refine ⟨tapOperation_early htaps ht, tapOperation_waits htaps ht, fun heligible hready hany hslot => ?_⟩
    rw [tapOperation_passes htaps ht heligible hready hslot]
    simp [hany]
  · intro c s o rest htaps hany hord
    have hpop := coresOnly_popTap s c
    obtain ⟨heddy, hmem, hagenda, hqueue⟩ := deliverReq_machine (popTap s c) c o.req (rowOf (BitVec.allOnes 64)) none
    refine ⟨_, eboardAnyTimeout_ends htaps hany hord, heddy.trans hpop.eddy, ?_, hmem.trans hpop.mem, ?_,
      fun _ => deliverReq_data⟩
    · rw [hqueue, length_taps_popTap htaps]
    · rw [hagenda, hpop.agenda, hpop.now]
  · exact fun job slot s => ⟨teardown_begins, teardown_noJob, reclaim_begins, reclaim_notLost,
      fun h => commands_busy h job slot, rfl, rfl⟩

end Sys2Proof.Machine

namespace Sys2Proof.Machine

/-! A step runs what is first to be done (O56) -/

section
variable {ex : Instr → State → Out} {s : State} {r : List Todo} (hboot : s.plat.boot ≠ 3)
include hboot

theorem perform_idle (htodo : s.todo = []) : perform ex s = .next (advance s) := by
  rw [perform, if_neg (by simp [hboot]), htodo]

theorem perform_event {i : Instr} (htodo : s.todo = .ev i :: r) : perform ex s = ex i { s with todo := r } := by
  rw [perform, if_neg (by simp [hboot]), htodo]

theorem perform_issue {c : Nat} (htodo : s.todo = .issue c :: r) : perform ex s = issueBundle ex { s with todo := r } c := by
  rw [perform, if_neg (by simp [hboot]), htodo]

end

/-- R78: what the device's own reads met is entered in the logs alone. -/
theorem besideLogs_reportMerges (s : State) : besideLogs (reportMerges s) = besideLogs s := by
  refine (view_foldl besideLogs (fun s x => ?_) _ _).trans rfl
  split
  · exact besideLogs_burstCorrected ..
  · exact besideLogs_pcFail ..

theorem now_hartCycle (s : State) : (hartCycle s).2.now = s.now := by
  unfold hartCycle
  split
  · rfl
  · rfl

/-- R86: a ring cycle is one cycle of time. -/
theorem now_advance (s : State) : (advance s).now = s.now + 1 := by
  unfold advance
  dsimp only
  rw [now_hartCycle]
  exact (time_of_besideLogs (besideLogs_reportMerges _)).1

theorem quokorNext_decoded {ex : Instr → State → Out} {s : State} {h : Nat} {k : Hart} {i : Instr}
    (hk : s.harts.toList[h]? = some k) (hdec : decodeQuokor k.word.toNat = some i) :
    quokorNext ex s h = ex i { s with hart := h } := by
  simp only [quokorNext, hk, hdec]

/-! A bundle of one slot (R165, R170) -/

theorem s1Only_of_branchingProbe {i : Instr} (h : branchingProbe i = true) : s1Only i = false := by
  unfold branchingProbe at h
  split at h
  · rfl
  · cases h

/-- A branching PROBE is no transfer of S1, and one slot is no pair (R257, R265). -/
theorem badPairing_one (k : Kind) (i : Instr) : badPairing [(k, i)] = none := by
  have hone (p : Kind × Instr → Bool) : ¬ 2 ≤ ([(k, i)].filter p).length :=
    Nat.not_le.mpr (Nat.lt_succ_of_le (List.length_filter_le p [(k, i)]))
  have htransfer : ¬ (!([(k, i)].filter (fun x => branchingProbe x.2)).isEmpty && [(k, i)].any (fun x => s1Only x.2)) = true := by
    cases h : branchingProbe i
    · simp [h]
    · simp [h, s1Only_of_branchingProbe h]
  unfold badPairing
  dsimp only
  rw [if_neg (hone _), if_neg htransfer, if_neg (hone _)]

theorem slotRank_lt (x : Kind × Instr) : slotRank x < 10 := by
  unfold slotRank
  repeat' split
  all_goals decide

/-- One slot is performed once, whatever its place in the order (R123). -/
theorem inOrder_one (k : Kind) (i : Instr) : inOrder [(k, i)] = [i] := by
  have hlt := slotRank_lt (k, i)
  unfold inOrder
  generalize hr : slotRank (k, i) = r at hlt
  interval_cases r <;> simp [hr, List.range_succ]

/-- R170: nothing repeats where nothing is held. -/
theorem repeats_none {t : Thread} (hm0 : t.q.holdM0 = none) (hm1 : t.q.holdM1 = none) (hv : t.q.holdV = none)
    (hx : t.q.holdX = none) (l : List (Kind × Instr)) : repeats t l = [] := by
  simp [repeats, hm0, hm1, hv, hx]

/-- The bundle at the thread's position issues where its segment is in the loop buffer and nothing drops it (R165, R168). -/
theorem nextBundle_here {s : State} {c n : Nat} {t : Thread} {b : Bundle} (ht : threadOf s c = some t)
    (haddr : t.q.buf.addr = t.q.seg) (hidx : t.q.idx < t.q.buf.count) (hb : t.q.buf.bundles[t.q.idx]? = some b)
    (hnull : nullified t b = false) : nextBundle (n + 1) s c = .ok (s, b) := by
  rw [nextBundle, ht]
  dsimp only
  rw [if_neg (by simp [haddr]; omega), if_neg (by omega), hb, Option.getD_some, hnull, if_neg Bool.false_ne_true]

section
variable {ex : Instr → State → Out} {s s' : State} {c : Nat} {i : Instr} {t' : Thread} (hex : ex i s = .next s')
  (ht' : threadOf s' c = some t') (hattn : t'.attn = none)
include hex ht' hattn

/-- A slot that meets nothing is performed. -/
theorem runSlots_one : runSlots ex c [i] s = .ok (s', none) := by
  simp only [runSlots, hex, ht', hattn]

theorem stalledArrival_one : stalledArrival ex c s [i] = [] := by
  rw [stalledArrival, List.filter_eq_nil_iff]
  intro a ha
  rw [List.mem_singleton.mp ha]
  split
  · rw [runSlots_one hex ht' hattn]; simp
  · simp

end

/-- What a thread is once its bundle has been closed at index n (R165, R170). -/
def closedThread (t : Thread) (l : List (Kind × Instr)) (n : Nat) : Thread :=
  { newHolds t l with spurious := false
                      q := { (newHolds t l).q with idx := n, point := false }
                      phase := match t.phase with
                        | .frozen _ _ => .running
                        | .stalled => .running
                        | p => p }

/-- R170: a bundle that is no pre-emption point and does not end its segment is closed. -/
theorem closeBundle_next {before after : State} {c : Nat} {t : Thread} (l : List (Kind × Instr)) (ht : threadOf after c = some t)
    (hpoint : t.q.point = false) (hnext : (if t.q.moved = true then t.q.idx else t.q.idx + 1) < t.q.buf.count) :
    closeBundle before after c l = setThread { after with walkFails := after.walkFails.filter (fun w => w.core ≠ c || w.cache ≠ 1) } c
      (closedThread t l (if t.q.moved = true then t.q.idx else t.q.idx + 1)) := by
  have hopen : (newHolds t l).q.point = false := hpoint
  have hin : decide ((newHolds t l).q.buf.count ≤ if t.q.moved = true then t.q.idx else t.q.idx + 1) = false :=
    decide_eq_false (Nat.not_le.mpr hnext)
  unfold closeBundle
  rw [ht]
  dsimp only
  rw [hopen, hin, Bool.or_false, if_neg Bool.false_ne_true]
  rfl

/-- The thread whose bundle is about to issue (R165). -/
def issuingThread (t : Thread) : Thread := { t with attn := none, q := { t.q with moved := false, point := false } }

/-- The state in which core c's bundle is about to issue. -/
def issuingState (s : State) (c : Nat) (t : Thread) : State := setThread { s with cur := c } c (issuingThread t)

section
variable {s : State} {c w : Nat} {k : Kind} {i : Instr} {t : Thread} (ht : threadOf s c = some t)
  (hphase : t.phase = .running) (hkill : t.kill = false) (hreplay : t.replay = false)
  (hm0 : t.q.holdM0 = none) (hm1 : t.q.holdM1 = none) (hv : t.q.holdV = none) (hx : t.q.holdX = none)
  (haddr : t.q.buf.addr = t.q.seg) (hidx : t.q.idx < t.q.buf.count) (hb : t.q.buf.bundles[t.q.idx]? = some [(k, w)])
  (hdec : decodeSlot k w = .ok i)
include ht hphase hkill hreplay hm0 hm1 hv hx haddr hidx hb hdec

/-- R165, R170: the bundle of one slot is issued, and closed once its slot has had its effect. -/
theorem issueBundle_one {ex : Instr → State → Out} {s' : State} {t' : Thread}
    (hdue : dueAttn (issuingState s c t) c (issuingThread t) = none)
    (hnull : nullified (issuingThread t) [(k, w)] = false)
    (hex : ex i (issuingState s c t) = .next s') (ht' : threadOf s' c = some t')
    (hattn : t'.attn = none) :
    issueBundle ex s c = .next (closeBundle (issuingState s c t) s' c [(k, i)]) := by
  have hthread : threadOf (issuingState s c t) c = some (issuingThread t) := threadOf_setThread ..
  have hbundle : nextBundle 300 (issuingState s c t) c = .ok (issuingState s c t, [(k, w)]) :=
    nextBundle_here hthread haddr hidx hb hnull
  have hslots : decodeSlots [(k, w)] = .ok [(k, i)] := by
    rw [decodeSlots, hdec]
    rfl
  have hsame : modThread (issuingState s c t) c (fun t => { t with q := { t.q with moved := false, point := false } }) =
      issuingState s c t := by
    rw [modThread_some hthread, issuingState, setThread_setThread]
    rfl
  have hrepeats : repeats (issuingThread t) [(k, i)] = [] := repeats_none hm0 hm1 hv hx _
  have ht0 : threadOf { s with cur := c } c = some t := ht
  have hstalled := stalledArrival_one hex ht' hattn
  have hrun := runSlots_one hex ht' hattn
  -- the branches of the issue in their order, each by the fact that decides it
  simp only [issuingState, issuingThread] at hdue hbundle hsame hthread hrepeats hstalled hrun ⊢
  rw [issueBundle]
  dsimp only
  rw [ht0]
  dsimp only
  rw [if_neg (by simp [hphase]), if_neg (by simp [hkill]), if_neg (by simp [hreplay]), hdue]
  dsimp only
  rw [hbundle]
  dsimp only
  rw [hslots]
  dsimp only
  rw [badPairing_one]
  dsimp only
  rw [if_neg (by simp [hreplay]), hsame, hthread]
  dsimp only
  rw [hrepeats, List.append_nil, inOrder_one, hstalled, List.nil_append, hrun]

end

/-- Settles O56: a step by what is first to be done, and a bundle of one slot by its issue and its end. -/
theorem stepRunsDecoded : Obligations.StepRunsDecoded := by
  unfold Obligations.StepRunsDecoded
  intro s hboot
  refine ⟨fun htodo => ⟨perform_idle hboot htodo, now_advance s⟩, fun i r htodo => perform_event hboot htodo,
    fun h k i r htodo hk hdec => (perform_quokor hboot htodo).trans (quokorNext_decoded hk hdec), ?_⟩
  intro c w k i r t htodo ht hphase hkill hreplay hm0 hm1 hv hx haddr hidx hb hdec t1 s1 hdue hnull s' t' hex ht' hattn
  have hstep : step s = .next (closeBundle s1 s' c [(k, i)]) :=
    (perform_issue hboot htodo).trans (issueBundle_one (s := { s with todo := r }) ht hphase hkill hreplay hm0 hm1 hv hx haddr hidx
      hb hdec hdue hnull hex ht' hattn)
  refine ⟨hstep, fun hpoint hnext => ?_⟩
  rw [closeBundle_next [(k, i)] ht' hpoint hnext] at hstep
  exact ⟨_, _, hstep, threadOf_setThread .., rfl, rfl, rfl, rfl, rfl, rfl, rfl,
    fun x hx => coreOf_setThread_other _ c x _ hx⟩

end Sys2Proof.Machine

namespace Sys2Proof.Machine

/-! The Tide slots at issue (O38) -/

theorem cur_of_besideStores {s s' : State} (h : besideStores s' = besideStores s) : s'.cur = s.cur := (congrArg State.cur h :)

section
variable {g : Guard} {s : State} {t : Thread}

/-! The status word (R114) -/

theorem sum_fields_cons (lo v : Nat) (fs : List (Nat × Nat)) :
    (((lo, v) :: fs).map (fun f => f.2 * 2 ^ f.1)).sum = v * 2 ^ lo + (fs.map (fun f => f.2 * 2 ^ f.1)).sum :=
  List.sum_cons

theorem tideStatus_eq (d : TideSub) : tideStatus d = BitVec.ofNat 64 (d.next % 2 ^ 24 * 2 ^ 40 + d.layer * 2 ^ 24 +
    d.buf.length * 2 ^ 20 + b2n d.absent * 2 ^ 10 + b2n d.misst * 2 ^ 9 + b2n d.missl * 2 ^ 8 + d.state) := by
  rw [tideStatus, fieldsWord]
  repeat rw [sum_fields_cons]
  simp only [List.map_nil, List.sum_nil, Nat.add_assoc, Nat.pow_zero, Nat.mul_one, Nat.add_zero]

/-- A thread whose sticky flags are cleared, with its status word in flight (R113, R114). -/
def statusTaken (t : Thread) (rd : BitVec 5) : Thread :=
  withResult { t with tide := { t.tide with absent := false, misst := false, missl := false } } (.sreg rd.toNat) 1
    (BitVec.ofNat 2048 (tideStatus t.tide).toNat)

theorem takeStatus_ok {rd : BitVec 5} (hfits : Fits t (.sreg rd.toNat) 1) :
    takeStatus s t rd = .ok (setThread s s.cur (statusTaken t rd)) := by
  obtain ⟨hcol, -, hroom⟩ := hfits
  exact putScalar_ok s { t with tide := { t.tide with absent := false, misst := false, missl := false } } rd _ 1 hcol
    (hroom (by simp))

/-! What TLEAVE leaves (R113, R118) -/

/-- Whether the matrix engine is at an MMA.TB (R298, R305). -/
def feeding (t : Thread) : Bool := t.x.xop.any XOp.tb

/-- A saved thread whose subscription has been left. -/
def Saved.left (sv : Saved) : Saved := { sv with thread := { sv.thread with tide := sv.thread.tide.left } }

/-- The machine once a handler's TLEAVE has ended the subscription of the thread that it serves, in its saved context and in
its frame (R118). -/
def servedLeft (s : State) (t : Thread) (sv : Saved) : State :=
  storeUnits { s with saved := mput t.frame sv.left s.saved } (framePa s t.frame + frameRest + restTide)
    (tideBytes sv.left.thread.tide)

theorem cur_servedLeft (sv : Saved) : (servedLeft s t sv).cur = s.cur := by
  rw [servedLeft, cur_of_besideStores (besideStores_storeUnits ..)]

/-- The machine as TLEAVE of thread t leaves it beside its own thread. -/
def tideLeft (s : State) (t : Thread) : State :=
  if t.handler then
    match mget t.frame s.saved with
    | some sv => servedLeft s t sv
    | none => s
  else s

theorem tideLeft_own (h : t.handler = false ∨ mget t.frame s.saved = none) : tideLeft s t = s := by
  rcases h with h | h
  · simp [tideLeft, h]
  · simp [tideLeft, h]

theorem tideLeft_served {sv : Saved} (hh : t.handler = true) (hsv : mget t.frame s.saved = some sv) :
    tideLeft s t = servedLeft s t sv := by
  rw [tideLeft, if_pos hh, hsv]

theorem tleave_eq : exec (.tleave g) s = tideSlot g s (fun t => if feeding t then .error .stall
    else .ok (setThread (tideLeft s t) (tideLeft s t).cur { t with tide := t.tide.left })) := by
  show execTleave g s = _
  refine congrArg (tideSlot g s) (funext fun t => ite_congr ?_ (fun _ => rfl) (fun _ => ?_))
  · rw [feeding]
    cases t.x.xop <;> rfl
  · rw [tideLeft]
    cases t.handler
    · rfl
    · cases mget t.frame s.saved <;> rfl

variable (hp : Performs s t g) (hpend : t.tide.pending = [])
include hp hpend

/-! A slot without a pending fault in its way (R117) -/

theorem tideSlot_ok {s' : State} {f : Thread → Slot} (hf : f t = .ok s') : tideSlot g s f = .next s' := by
  obtain ⟨ht, hg⟩ := hp
  exact runSlot_ok g s s' t _ ht hg (by simp [hpend, hf])

theorem tideSlot_error {a : Attn} {f : Thread → Slot} (hf : f t = .error a) :
    tideSlot g s f = .next (attend s s.cur a) := by
  obtain ⟨ht, hg⟩ := hp
  exact runSlot_error g s t _ a ht hg (by simp [hpend, hf])

/-- R305: a slot that stalls marks its thread and changes nothing else. -/
theorem tideSlot_stall {f : Thread → Slot} (hf : f t = .error .stall) :
    tideSlot g s f = .next (setThread s s.cur { t with attn := some .stall, phase := .stalled }) := by
  rw [tideSlot_error hp hpend hf, attend, modThread_some hp.1]

/-! TSTAT and TWAIT (R114) -/

theorem tstat_takes {rd : BitVec 5} (hfits : Fits t (.sreg rd.toNat) 1) :
    exec (.tstat g rd) s = .next (setThread s s.cur (statusTaken t rd)) :=
  tideSlot_ok hp hpend (takeStatus_ok hfits)

/-- R114: TWAIT that need not wait. -/
theorem twait_takes {rd : BitVec 5} {n : BitVec 4} (hfits : Fits t (.sreg rd.toNat) 1)
    (hmet : n.toNat ≤ t.tide.buf.length ∨ t.tide.state = 0 ∨ t.tide.state = 4 ∨ t.tide.absent = true) :
    exec (.twait g rd n) s = .next (setThread s s.cur (statusTaken t rd)) :=
  tideSlot_ok hp hpend ((if_pos hmet).trans (takeStatus_ok hfits))

theorem twait_stalls {rd : BitVec 5} {n : BitVec 4}
    (hshort : ¬(n.toNat ≤ t.tide.buf.length ∨ t.tide.state = 0 ∨ t.tide.state = 4 ∨ t.tide.absent = true)) :
    exec (.twait g rd n) s = .next (setThread s s.cur { t with attn := some .stall, phase := .stalled }) :=
  tideSlot_stall hp hpend (if_neg hshort)

/-! TBOARD (R112, R118) -/

section
variable {rl rf re rs : BitVec 5} {d : BitVec 2}

/-- R112: an operand of TBOARD out of its limits: the layer, the range or the stride. -/
abbrev OperandOut (t : Thread) (rl rf re rs : BitVec 5) : Prop :=
  65535 < (sreg t rl).toNat ∨ (sreg t re).toNat < (sreg t rf).toNat ∨ 2 ^ 24 ≤ (sreg t re).toNat ∨ (sreg t rs).toNat = 0 ∨
    4096 < (sreg t rs).toNat

/-- R112: TBOARD of a subscription that is neither armed, boarding nor waiting, with operands in their limits. -/
theorem tboard_arms (hstate : ¬(1 ≤ t.tide.state ∧ t.tide.state ≤ 3)) (hlimits : ¬OperandOut t rl rf re rs) :
    exec (.tboard g rl rf re rs d) s = .next (setThread s s.cur { t with tide := { t.tide with
      state := 1, layer := (sreg t rl).toNat, first := (sreg t rf).toNat, last := (sreg t re).toNat,
      stride := (sreg t rs).toNat, rate := d.toNat, next := (sreg t rf).toNat, seenLap := none, seen := none,
      reg := 2 + (s.now + 64) } }) :=
  tideSlot_ok hp hpend ((if_neg hstate).trans (if_neg hlimits))

/-- R118: TBOARD that takes a Tide fault, its thread's registers as they were. -/
def TakesTideFault (i : Instr) (s : State) (t : Thread) (cause : Nat) : Prop :=
  ∃ s' t' x y, exec i s = .next s' ∧ threadOf s' s.cur = some t' ∧ t'.phase = .saving true s.now ∧ t'.r = t.r ∧
    t'.posFault = some { cls := 0x0C, cause := cause, qw6 := x, qw7 := y, cycle := s.now }

variable (hh : t.handler = false) (hr : t.replay = false)
include hh hr

theorem takesTideFault_of {i : Instr} {f : Thread → Slot} {cause layer tile lap : Nat} (hi : exec i s = tideSlot g s f)
    (hf : f t = .error (.fault (tideFault cause layer tile lap))) : TakesTideFault i s t cause := by
  have hexec := hi.trans (tideSlot_error hp hpend hf)
  rw [attend, takeException_eq hp.1 hh hr] at hexec
  exact ⟨_, _, _, _, hexec, threadOf_setThread .., rfl, rfl, rfl⟩

/-- R118 BUSY. -/
theorem tboard_busy (hstate : 1 ≤ t.tide.state ∧ t.tide.state ≤ 3) : TakesTideFault (.tboard g rl rf re rs d) s t 3 :=
  takesTideFault_of hp hpend hh hr rfl (if_pos hstate)

/-- R118 ARG. -/
theorem tboard_arg (hstate : ¬(1 ≤ t.tide.state ∧ t.tide.state ≤ 3)) (hlimits : OperandOut t rl rf re rs) :
    TakesTideFault (.tboard g rl rf re rs d) s t 4 :=
  takesTideFault_of hp hpend hh hr rfl ((if_neg hstate).trans (if_pos hlimits))

end

/-! TLEAVE (R113, R305) -/

/-- R305: TLEAVE beside an MMA.TB. -/
theorem tleave_stalls (hfed : feeding t = true) :
    exec (.tleave g) s = .next (setThread s s.cur { t with attn := some .stall, phase := .stalled }) :=
  tleave_eq.trans (tideSlot_stall hp hpend (if_pos hfed))

/-- R113, R118: TLEAVE with no MMA.TB under way. -/
theorem tleave_leaves (hfed : feeding t = false) : exec (.tleave g) s =
    .next (setThread (tideLeft s t) (tideLeft s t).cur { t with tide := t.tide.left }) :=
  tleave_eq.trans (tideSlot_ok hp hpend (if_neg (ne_true_of_eq_false hfed)))

end

/-- Settles O38: each slot by what it does to its thread, and a handler's TLEAVE by what it does to the thread that it serves. -/
theorem tideSlots : Obligations.TideSlots := by
  unfold Obligations.TideSlots
  intro g rl rf re rs rd d n s t hp hpend status fed taken
  have htaken {i : Instr} (h : exec i s = .next (setThread s s.cur (statusTaken t rd))) : taken i := by
    refine ⟨_, h, ?_, rfl, ⟨rfl, rfl, rfl, rfl, rfl⟩, rfl⟩
    rw [statusTaken, tideStatus_eq, BitVec.toNat_ofNat]
    rfl
  have hfeeding : fed = feeding t := by
    simp only [fed, feeding]
    cases t.x.xop <;> rfl
  refine ⟨fun hstate hl hf he hmin hmax => tboard_arms hp hpend (by omega) (by omega), fun hh hr => ⟨fun hstate => ?_,
    fun hstate hout => ?_⟩,
    fun hfits => ⟨htaken (tstat_takes hp hpend hfits), fun hmet => htaken (twait_takes hp hpend hfits ?_)⟩, fun hshort hstate habsent => ?_, fun hfed => ⟨fun hh => ?_, fun hh hsv => ?_, fun hh sv hsv => ?_⟩, fun hfed => ?_⟩
  · exact tboard_busy hp hpend hh hr (by omega)
  · exact tboard_arg hp hpend hh hr (by omega) hout
  · tauto
  · exact ⟨_, twait_stalls hp hpend (by simp [habsent]; omega), rfl, rfl, ⟨rfl, rfl, rfl, rfl, rfl⟩, rfl⟩
  · rw [tleave_leaves hp hpend (hfeeding ▸ hfed), tideLeft_own (.inl hh)]
    rfl
  · rw [tleave_leaves hp hpend (hfeeding ▸ hfed), tideLeft_own (.inr hsv)]
    rfl
  · rw [tleave_leaves hp hpend (hfeeding ▸ hfed), tideLeft_served hh hsv, cur_servedLeft]
    rfl
  · exact ⟨_, tleave_stalls hp hpend (hfeeding ▸ hfed), rfl, rfl, ⟨rfl, rfl, rfl, rfl, rfl⟩, rfl⟩

end Sys2Proof.Machine

namespace Sys2Proof.Machine

/-! A lap that begins after what is still to be done (O49) -/

/-- R109, R111: setting EN with a right NLAYER and no tile on the ring makes LAP_BEGIN the last thing to be done in this
instant. -/
theorem tideCtlWrite_starts {v : Word} {s : State} (hen : v.getLsbD 0 = true) (hwas : s.weir.ctl.getLsbD 0 = false)
    (hlayers : 1 ≤ s.weir.nlayer.toNat ∧ s.weir.nlayer.toNat ≤ 65536) (hring : s.weir.ring = []) :
    exec (.tideCtlWrite v) s = .next
      { s with weir := { s.weir with ctl := v &&& 0xD, sent := 0, nextAt := s.now }, todo := s.todo ++ [.ev .lapBegin] } := by
  show execTideCtlWrite v s = _
  simp only [execTideCtlWrite, modWeir, layersOk, hen, hwas, hlayers, hring, List.foldl_nil, Nat.sub_self, schedule, and_self,
    decide_true, Bool.not_true, Bool.false_eq_true, if_true, if_false]

/-- A weir at rest with a program of one layer, while a bundle of core 0 has still to issue. -/
def bundleWaits : State := { State.reset with todo := [.issue 0], weir := { Weir.reset with nlayer := 1 } }

/-- Refutes O49: the clause on a write that starts the weir has LAP_BEGIN stand before everything that is still to be done in
this instant. The statement is about every state, also one in which a bundle has still to issue; the model puts LAP_BEGIN
behind it. -/
theorem not_tideEvents : ¬ Obligations.TideEvents := by
  unfold Obligations.TideEvents
  rintro ⟨hwrite, -⟩
  obtain ⟨-, hstart, -⟩ := hwrite 1 bundleWaits
  have hfirst := hstart (by decide) (by decide) (by decide) (by decide) rfl
  rw [tideCtlWrite_starts (by decide) (by decide) (by decide) rfl] at hfirst
  have htodo : [Todo.issue 0, .ev .lapBegin] = [.ev .lapBegin, .issue 0] := congrArg State.todo (Host.Outcome.next.inj hfirst)
  cases htodo

end Sys2Proof.Machine

namespace Sys2Proof.Machine

/-! A store is performed at its home (O19) -/

/-! What a write of SRAM leaves of a thread (R55, R263) -/

/-- A thread without its watches: a write of SRAM fires watches and changes nothing else of a thread (R263). -/
def unwatched (t : Thread) : Thread := { t with watch := [] }

theorem unwatched_modThread {f : Thread → Thread} (hf : ∀ t, unwatched (f t) = unwatched t) (s : State) (h c : Nat) :
    (threadOf (modThread s h f) c).map unwatched = (threadOf s c).map unwatched := by
  cases ht : threadOf s h with
  | none => rw [modThread_eq, ht]
  | some t =>
    rw [modThread_some ht]
    by_cases hc : c = h
    · rw [hc, threadOf_setThread, ht, Option.map_some, Option.map_some, hf]
    · rw [threadOf_setThread_other _ _ _ _ hc]

theorem unwatched_evalWatches (s : State) (pa n c : Nat) :
    (threadOf (evalWatches s pa n) c).map unwatched = (threadOf s c).map unwatched := by
  unfold evalWatches
  refine foldl_keeps (fun x => (threadOf x c).map unwatched = (threadOf s c).map unwatched) _ (fun x ck hx => ?_) _ s rfl
  dsimp only
  split
  · exact hx
  · split
    · refine foldl_keeps (fun y => (threadOf y c).map unwatched = (threadOf s c).map unwatched) _ (fun y w hy => ?_) _ x hx
      split
      · refine (unwatched_modThread (fun _ => ?_) _ _ c).trans ?_
        · rfl
        · rw [dropTracker, threadOf_modSlice, hy]
      · exact hy
    · exact hx

theorem threadOf_dirtySlots (s : State) (h off n c : Nat) : threadOf (dirtySlots s h off n) c = threadOf s c := by
  unfold dirtySlots
  dsimp only
  split
  · rfl
  · refine coreOf_modCore_keeps Core.thread (fun _ => ?_) s h c
    rfl

theorem threadOf_sramEffects {s : State} {c : Nat} {t : Thread} (ht : threadOf s c = some t) (pa n : Nat) :
    ∃ w, threadOf (sramEffects s pa n) c = some { t with watch := w } := by
  have hkept : (threadOf (sramEffects s pa n) c).map unwatched = some (unwatched t) := by
    rw [sramEffects, threadOf_dirtySlots, unwatched_evalWatches, ht, Option.map_some]
  obtain ⟨t', ht', hsame⟩ := Option.map_eq_some_iff.mp hkept
  refine ⟨t'.watch, ht'.trans (congrArg some ?_)⟩
  calc t' = { unwatched t' with watch := t'.watch } := rfl
    _ = { t with watch := t'.watch } := by rw [hsame]; rfl

/-! The write (R47, R48) -/

/-- The state after bytes have been written within one sound word of SRAM. -/
def wordWritten (s : State) (pa : Nat) (bs : List Byte) : State :=
  sramEffects { s with mem := memWrite s.mem pa bs, sramErr := mdel (pa / 32) s.sramErr } pa bs.length

theorem threadOf_wordWritten {s : State} {c : Nat} {t : Thread} (ht : threadOf s c = some t) (pa : Nat) (bs : List Byte) :
    ∃ w, threadOf (wordWritten s pa bs) c = some { t with watch := w } :=
  threadOf_sramEffects ((threadOf_of_cores (by rfl) c).trans ht) pa bs.length

theorem mem_wordWritten (s : State) (pa : Nat) (bs : List Byte) : (wordWritten s pa bs).mem = memWrite s.mem pa bs :=
  mem_sramEffects ..

theorem sramPut_part_answer {s : State} {pa f : Nat} {bs : List Byte} (hbs : bs ≠ []) (hword : pa % 32 + bs.length ≤ 32)
    (herr : mget (pa / 32) s.sramErr = none) : (sramPut (f + 1) s pa bs).1 = none := by
  have hdrop : bs.drop (32 - pa % 32) = [] := List.drop_eq_nil_of_le (by omega)
  rw [sramPut, if_neg (by simpa using hbs)]
  simp only [hdrop, herr, true_or, if_true, sramPut_nil, Bool.false_eq_true, if_false]

/-- R47, R48: a write within one sound word of SRAM is made, and answered without an error. -/
theorem performWrite_soundWord {s : State} {p : Part} {bs : List Byte} (h : SoundWord s p) (hlen : bs.length = p.len)
    (w : Who) (ga : Word) : performWrite s w p.pa bs ga = (none, wordWritten s p.pa bs) := by
  obtain ⟨hsram, htarget, hword, hpos, herr⟩ := h
  have hbs : bs ≠ [] := List.length_pos_iff.mp (by omega)
  have hput : sramPut (bs.length + 1) s p.pa bs = (none, wordWritten s p.pa bs) :=
    Prod.ext (sramPut_part_answer hbs (by omega) herr) (sramPut_part hbs (by omega) herr)
  unfold performWrite
  rw [spanError_sram (by omega) (by omega) htarget]
  dsimp only
  rw [if_pos hsram, hput]
  rfl

theorem length_partBytes (p : Part) : (partBytes p).length = p.len := length_leBytes ..

/-- R146, R251: a relaxed store to one sound word on a page without checks only writes its bytes. -/
theorem performStore_plain {s : State} {c : Nat} {t : Thread} {q : Req} {p : Part}
    (ht : threadOf s c = some t) (hord : q.ord = 0) (hparts : q.parts = [p])
    (hchk : p.unchk = true) (hsound : SoundWord s p) (hreplay : t.replay = false) :
    performStore s c t q 0 p = finishPart (wordWritten s p.pa (partBytes p)) c q.id 0 0 := by
  have hacq : acquires q.ord = false := by rw [hord]; rfl
  have hrel : releases q.ord = false := by rw [hord]; rfl
  have htouch (k : Touch) : touchAt s c k p = .ok s := by simp [touchAt, ht, hchk]
  have hrow : rowRefused s q p = false := by simp [rowRefused, hparts]
  have hwrite : writePart s c t p (partBytes p) = some (none, wordWritten s p.pa (partBytes p)) := by
    simp [writePart, hreplay, performWrite_soundWord hsound (length_partBytes p)]
  simp only [performStore, hacq, hrel, htouch, hrow, inCtl_of_inSram hsound.1, hwrite, Bool.false_and, Bool.and_false,
    Bool.false_eq_true, if_false]

/-! The request at the core -/

/-- A request whose first part has been written. -/
def reqWritten (q : Req) : Req := { q with parts := q.parts.modify 0 (fun p => { p with done := true, here := true }) }

/-- A counted store of one part is forgotten when it has been written (R44, R172). -/
theorem finishPart_store {s : State} {c : Nat} {t : Thread} {q : Req} {p : Part} {w : Nat} {data : Row}
    (ht : threadOf s c = some t) (honly : OnlyReq t q) (hkind : q.kind = .store w) (hdest : q.dest = .none)
    (hdue : q.due = none) (hland : q.landed = false) (hfault : q.fault = none) (hparts : q.parts = [p]) :
    threadOf (finishPart s c q.id 0 data) c = some { t with reqs := t.reqs.filter (fun x => decide (x.id ≠ q.id)) } := by
  have hwrites : reqWrites q.kind = true := by rw [hkind]; rfl
  have hq : reqOf (modReq s c q.id reqWritten) c q.id = some (reqWritten q) := reqOf_modReq ht honly (fun _ => rfl)
  have hrow (k : Nat) : settleRow (modReq s c q.id reqWritten) c q.id k = modReq s c q.id reqWritten := by
    simp only [settleRow, hq, reqWritten, hkind]
  have hfinish : finishPart s c q.id 0 data = settleReq (modReq s c q.id reqWritten) c q.id := by
    rw [finishPart, reqOf_onlyReq ht honly]
    dsimp only
    rw [hwrites]
    exact congrArg (settleReq · c q.id) (hrow _)
  have harr : arrived (reqWritten q) = true := by
    rw [arrived, show reqWrites (reqWritten q).kind = true from hwrites]
    simp [performed, reqWritten, hparts]
  have hthread : threadOf (modReq s c q.id reqWritten) c =
      some { t with reqs := t.reqs.map (fun x => if x.id = q.id then reqWritten x else x) } := by
    rw [modReq, modThread_some ht, threadOf_setThread]
  have hkeeps (u : Thread) : landReq u (reqWritten q) = u := by
    simp [landReq, noWrite, reqWritten, hfault, hkind, hdest]
  rw [hfinish, settleReq_arrived hthread hq hdue harr hland hfault, hkeeps,
    ← filter_map_id t.reqs q.id (f := reqWritten) (fun _ => rfl)]

/-! The store at its home -/

/-- R39, R37: a store, in turn and with nothing before it, is performed by its event. -/
theorem memoryWritePerformed_store {s : State} {c : Nat} {t : Thread} {q : Req} {p : Part} {w : Nat}
    (ht : threadOf s c = some t) (honly : OnlyReq t q) (hkind : q.kind = .store w) (hparts : q.parts = [p])
    (hdone : p.done = false) (hheld : heldBack s c t q 0 p = false) (hturn : HasTurn s c q p) :
    exec (.memoryWritePerformed c q.id 0) s = .next (performStore (atTurn s c q p) c t q 0 p) := by
  have hpart : q.parts[0]? = some p := by rw [hparts]; rfl
  show execMemoryWritePerformed c q.id 0 s = _
  simp only [execMemoryWritePerformed, reqOf_onlyReq ht honly, ht, hpart, hdone, hheld, Bool.false_eq_true, if_false]
  rw [hkind]
  exact congrArg _ (served_now hturn 0 _)

/-- Settles O19: the event writes the word in its turn, the watches and probe slots that this sets off are no registers, and
the request is forgotten. -/
theorem storePerformed : Obligations.StorePerformed := by
  unfold Obligations.StorePerformed
  intro c s t q p w ht honly hkind hw hdest hdue hland hfault hord hparts hdone hchk hlen hsound hreplay hheld hturn hwf
  have hexec := memoryWritePerformed_store ht honly hkind hparts hdone hheld hturn
  have ht' : threadOf (atTurn s c q p) c = some t := (threadOf_atTurn ..).trans ht
  rw [performStore_plain ht' hord hparts hchk (soundWord_atTurn hsound) hreplay] at hexec
  obtain ⟨watch, hwritten⟩ := threadOf_wordWritten ht' p.pa (partBytes p)
  refine ⟨_, _, hexec, finishPart_store hwritten honly hkind hdest hdue hland hfault hparts, fun a => ?_, rfl, rfl, rfl, rfl⟩
  rw [mem_finishPart, mem_wordWritten, mem_atTurn, memByte_memWrite _ _ _ hwf, length_partBytes, hlen]
  split
  · next hin => rw [partBytes, getElem?_leBytes _ (by omega), Option.getD_some]
  · rfl

end Sys2Proof.Machine

namespace Sys2Proof.Machine

/-! Accesses that race (O20) -/

/-! A race stops the access (R147) -/

theorem mem_refuseReq (s : State) (c id : Nat) (f : FaultRec) : (refuseReq s c id f).mem = s.mem :=
  (mem_settleReq ..).trans (modThread_mem ..)

/-- R147: an access that the detector refused writes no destination. -/
theorem landReq_race {q : Req} {f : FaultRec} (hfault : q.fault = some f) (hcls : f.cls = 9) (t : Thread) : landReq t q = t := by
  have hno : noWrite q = true := by simp [noWrite, hfault, hcls]
  rw [landReq, hno]
  rfl

/-- R147: a counted request that the detector refused stays, complete, until its exception is raised. -/
theorem settleReq_race {s : State} {c id : Nat} {t : Thread} {q : Req} {f : FaultRec} (ht : threadOf s c = some t)
    (hq : reqOf s c id = some q) (hdue : q.due = none) (harr : arrived q = true) (hland : q.landed = false)
    (hfault : q.fault = some f) (hcls : f.cls = 9) :
    threadOf (settleReq s c id) c =
      some { t with reqs := t.reqs.map (fun x => if x.id = id then { x with landed := true } else x) } := by
  rw [settleReq, hq]
  simp only [hdue, harr, hland, hfault, Option.isSome_none, Option.isSome_some, Bool.not_true, Bool.or_self,
    Bool.false_eq_true, if_false, if_true]
  rw [modThread_some ht, landReq_race hfault hcls, modReq, modThread_some (threadOf_setThread ..), threadOf_setThread]

/-- A request stopped by a fault before it took effect: nothing of it is still to come. -/
def reqStopped (f : FaultRec) (q : Req) : Req :=
  { q with fault := some f, parts := q.parts.map (fun p => { p with done := true, here := true }) }

theorem arrived_reqStopped (f : FaultRec) (q : Req) : arrived (reqStopped f q) = true := by
  simp [arrived, performed, reqStopped]

/-- R147: a refused counted request is complete with its fault, and the thread is otherwise as it was. -/
theorem refuseReq_race {s : State} {c : Nat} {t : Thread} {q : Req} {f : FaultRec} (ht : threadOf s c = some t)
    (honly : OnlyReq t q) (hland : q.landed = false) (hdue : q.due = none) (hcls : f.cls = 9) :
    ∃ t', threadOf (refuseReq s c q.id f) c = some t' ∧ (refuseReq s c q.id f).mem = s.mem ∧ t'.r = t.r ∧
      ∃ q' ∈ t'.reqs, q'.id = q.id ∧ q'.fault = some f ∧ q'.landed = true := by
  have hthread : threadOf (modReq s c q.id (reqStopped f)) c =
      some { t with reqs := t.reqs.map (fun x => if x.id = q.id then reqStopped f x else x) } := by
    rw [modReq, modThread_some ht, threadOf_setThread]
  have hsettled := settleReq_race hthread (reqOf_modReq ht honly (fun _ => rfl)) hdue (arrived_reqStopped f q) hland rfl hcls
  have hstopped : reqStopped f q ∈ t.reqs.map (fun x => if x.id = q.id then reqStopped f x else x) :=
    List.mem_map.mpr ⟨q, honly.1, if_pos rfl⟩
  exact ⟨_, hsettled, mem_refuseReq .., rfl, _, List.mem_map.mpr ⟨_, hstopped, if_pos rfl⟩, rfl, rfl, rfl⟩

theorem performLoad_race {s : State} {c : Nat} {t : Thread} {q : Req} {p : Part} {f : FaultRec} (hord : q.ord = 0) (k : Nat)
    (h : touchAt (withDet s c (acquireDet s c q p)) c .load p = .error f) : performLoad s c t q k p = refuseReq s c q.id f := by
  have hrel : releases 0 = false := rfl
  simp only [performLoad, hord, hrel, Bool.false_eq_true, if_false, if_true, h]

theorem performStore_race {s : State} {c : Nat} {t : Thread} {q : Req} {p : Part} {f : FaultRec} (hord : q.ord = 0) (k : Nat)
    (h : touchAt s c .store p = .error f) : performStore s c t q k p = refuseReq s c q.id f := by
  have hacq : acquires 0 = false := rfl
  have hrel : releases 0 = false := rfl
  simp only [performStore, hord, hacq, hrel, Bool.false_and, Bool.false_eq_true, if_false, true_or, if_true, h]

/-! Which records are covered (R145) -/

/-- R145: a is later than b on n bits. -/
def Newer (n a b : Nat) : Prop := 1 ≤ (a + 2 ^ n - b % 2 ^ n) % 2 ^ n ∧ (a + 2 ^ n - b % 2 ^ n) % 2 ^ n ≤ 2 ^ (n - 1)

theorem later_iff (n a b : Nat) : later n a b = true ↔ Newer n a b := decide_eq_true_iff

/-- R145: the record (a, w) of a thread, a release where rl holds, is covered for v. -/
def ThreadOrdered (s : State) (v : View) (a w : Nat) (rl : Prop) : Prop :=
  (a = v.tid ∧ ¬ Newer 32 v.startcnt w) ∨ v.coarse = true ∨ ∃ e ∈ v.aset,
    (e.kind = 0 ∧ e.id = a ∧ (Newer 32 e.count w ∨ (rl ∧ e.count = w))) ∨
    (e.kind = 3 ∧ (Newer 32 (arrivalNo (groupOf s v.job e.id) a e.count) w ∨
      (e.wide = true ∧ memberAt (groupOf s v.job e.id) a e.count = false)))

theorem coveredThread_iff {s : State} {v : View} {a w : Nat} {rel : Bool} {rl : Prop} (h : rel = true ↔ rl) :
    coveredThread s v a w rel = true ↔ ThreadOrdered s v a w rl := by
  simp [coveredThread, ThreadOrdered, ← later_iff, ← h, or_assoc, and_assoc]

/-- R145: the record of an engine in a tag is covered for v. -/
def EngineOrdered (v : View) (x : Tag) : Prop :=
  v.coarse = true ∨ ∃ e ∈ v.aset,
    (e.kind = 1 ∧ e.id = x.ectx ∧ (e.count % 2 ^ 28 = x.wn % 2 ^ 28 ∨ Newer 28 e.count x.wn)) ∨ (e.kind = 3 ∧ e.wide = true) ∨
    (x.wk = 3 ∧ e.kind = 2 ∧ e.id = x.wid ∧
      ¬ (1 ≤ (x.phase + 16 - e.count % 16) % 16 ∧ (x.phase + 16 - e.count % 16) % 16 ≤ 3))

theorem coveredEngine_iff (v : View) (x : Tag) : coveredEngine v x = true ↔ EngineOrdered v x := by
  simp only [coveredEngine, EngineOrdered, ← later_iff, Bool.or_eq_true, Bool.and_eq_true, List.any_eq_true, beq_iff_eq,
    Bool.not_eq_true', decide_eq_false_iff_not, or_assoc, and_assoc]

/-- R145: the recorded writer is covered for v. -/
def WriterOrdered (s : State) (v : View) (x : Tag) : Prop :=
  x.wk = 0 ∨ (x.wk = 1 ∧ ThreadOrdered s v x.wid x.wn (x.rel = true)) ∨ (2 ≤ x.wk ∧ EngineOrdered v x)

theorem writerCovered_iff (s : State) (v : View) (x : Tag) : writerCovered s v x = true ↔ WriterOrdered s v x := by
  unfold writerCovered
  split
  · next h => simp [WriterOrdered, h]
  · next h => simp [WriterOrdered, h, coveredThread_iff (Iff.refl (x.rel = true))]
  · next h0 h1 =>
    have htwo : 2 ≤ x.wk := (Nat.two_le_iff x.wk).mpr ⟨h0, h1⟩
    rw [coveredEngine_iff, WriterOrdered, or_iff_right h0, or_iff_right (fun h => h1 h.1), and_iff_right htwo]

/-- R145: the recorded reader is covered for v. -/
def ReaderOrdered (s : State) (v : View) (x : Tag) : Prop := x.rid = 0x7FFF ∨ ThreadOrdered s v x.rid x.rn False

theorem readerCovered_iff (s : State) (v : View) (x : Tag) : readerCovered s v x = true ↔ ReaderOrdered s v x := by
  simp [readerCovered, ReaderOrdered, coveredThread_iff (s := s) (v := v) (a := x.rid) (w := x.rn) (rel := false) (rl := False)]

/-- R146: a synchronising access needs no order after a synchronising write of a thread. -/
def WriterMet (s : State) (v : View) (x : Tag) : Prop := WriterOrdered s v x ∨ (x.wk = 1 ∧ x.syn = true)

theorem writerMet_iff (s : State) (v : View) (x : Tag) :
    ((x.wk == 1 && x.syn) || writerCovered s v x) = true ↔ WriterMet s v x := by
  simp [WriterMet, writerCovered_iff, or_comm]

/-! The check of one granule (R146, R147) -/

section

variable {s : State} {v : View} {x : Tag}

theorem checkTag_load (h : WriterOrdered s v x) : checkTag s v .load x = none := if_pos ((writerCovered_iff s v x).mpr h)

theorem checkTag_load_race (h : ¬ WriterOrdered s v x) : checkTag s v .load x = some 1 :=
  if_neg (mt (writerCovered_iff s v x).mp h)

theorem checkTag_syncLoad (h : WriterMet s v x) : checkTag s v .syncLoad x = none := if_pos ((writerMet_iff s v x).mpr h)

theorem checkTag_syncLoad_race (h : ¬ WriterMet s v x) : checkTag s v .syncLoad x = some 1 :=
  if_neg (mt (writerMet_iff s v x).mp h)

theorem checkTag_store (hw : WriterOrdered s v x) (hr : ReaderOrdered s v x) : checkTag s v .store x = none := by
  simp [checkTag, (writerCovered_iff s v x).mpr hw, (readerCovered_iff s v x).mpr hr]

theorem checkTag_store_writerRace (hw : ¬ WriterOrdered s v x) : checkTag s v .store x = some 2 := by
  simp [checkTag, mt (writerCovered_iff s v x).mp hw]

theorem checkTag_store_readerRace (hw : WriterOrdered s v x) (hr : ¬ ReaderOrdered s v x) : checkTag s v .store x = some 3 := by
  simp [checkTag, (writerCovered_iff s v x).mpr hw, mt (readerCovered_iff s v x).mp hr]

theorem checkTag_syncStore (hw : WriterMet s v x) (hr : ReaderOrdered s v x) (rel : Bool) (scope : Nat) :
    checkTag s v (.syncStore rel scope) x = none := by
  simp only [checkTag, (writerMet_iff s v x).mpr hw, (readerCovered_iff s v x).mpr hr, Bool.not_true, Bool.false_eq_true, if_false]

theorem checkTag_syncStore_writerRace (hw : ¬ WriterMet s v x) (rel : Bool) (scope : Nat) :
    checkTag s v (.syncStore rel scope) x = some 2 := by
  simp only [checkTag, Bool.eq_false_of_not_eq_true (mt (writerMet_iff s v x).mp hw), Bool.not_false, if_true]

theorem checkTag_syncStore_readerRace (hw : WriterMet s v x) (hr : ¬ ReaderOrdered s v x) (rel : Bool) (scope : Nat) :
    checkTag s v (.syncStore rel scope) x = some 3 := by
  simp only [checkTag, (writerMet_iff s v x).mpr hw, Bool.eq_false_of_not_eq_true (mt (readerCovered_iff s v x).mp hr),
    Bool.not_true, Bool.not_false, Bool.false_eq_true, if_false, if_true]

end

theorem granules_one {pa n : Nat} (hn : 0 < n) (hin : pa % 64 + n ≤ 64) : granules pa n = [pa / 64] := by
  have hone : (pa + n + 63) / 64 - pa / 64 = 1 := by omega
  simp [granules, hone]

/-- Part p of an access of core c's thread t that the detector checks: it lies in granule g of SRAM, whose tag is sound. -/
structure Checked (s : State) (c : Nat) (t : Thread) (p : Part) (g : Nat) : Prop where
  thread : threadOf s c = some t
  noHandler : t.handler = false
  noReplay : t.replay = false
  noBypass : t.det.bypass = false
  checked : p.unchk = false
  sram : inSram p.pa = true
  granule : granules p.pa p.len = [g]
  soundTag : s.tagErr.contains g = false

namespace Checked

variable {s : State} {c g : Nat} {t : Thread} {p : Part} (h : Checked s c t p g)
include h

theorem tagOf_eq : tagOf s g = (mgetD Tag.empty g s.tags, s) := by
  rw [tagOf, h.soundTag]
  rfl

theorem touchAt_eq (k : Touch) : touchAt s c k p = threadTouch s c t k p.pa p.len p.ga 0 := by
  simp [touchAt, h.thread, h.checked, h.sram]

/-- R146: an access that passes its check leaves its tag. -/
theorem passes {k : Touch} (hcheck : checkTag s (viewOf c t) k (mgetD Tag.empty g s.tags) = none) :
    touchAt s c k p = .ok (setTag s g (touchTag s.now (viewOf c t) k (mgetD Tag.empty g s.tags))) := by
  simp [h.touchAt_eq, threadTouch, h.noHandler, h.noReplay, h.noBypass, h.granule, checkGranules, touchGranules, h.tagOf_eq, hcheck]

/-- R147: an access that fails its check is a race, with the cause of the check. -/
theorem races {k : Touch} {cause : Nat} (hcheck : checkTag s (viewOf c t) k (mgetD Tag.empty g s.tags) = some cause) :
    ∃ f, touchAt s c k p = .error f ∧ f.cls = 9 ∧ f.cause = cause := by
  refine ⟨raceFault (viewOf c t) cause 0 p.ga p.pa g (mgetD Tag.empty g s.tags), ?_, rfl, rfl⟩
  simp [h.touchAt_eq, threadTouch, h.noHandler, h.noReplay, h.noBypass, h.granule, checkGranules, h.tagOf_eq, hcheck]

end Checked

/-- R22: on a page without checks nothing is checked or tagged. -/
theorem touchAt_unchecked {p : Part} (h : p.unchk = true) (s : State) (c : Nat) (k : Touch) : touchAt s c k p = .ok s := by
  unfold touchAt
  split
  · rfl
  · rw [h, Bool.true_or, if_pos rfl]

/-- Settles O20: the event of an access that races refuses it, and each kind of access passes or fails as its check does. -/
theorem raceRefused : Obligations.RaceRefused := by
  unfold Obligations.RaceRefused
  refine ⟨fun c s t q p f ht honly hland _ hdue hord hparts hdone _ hcls hturn => ?_, ?_⟩
  · have ht' : threadOf (atTurn s c q p) c = some t := (threadOf_atTurn ..).trans ht
    obtain ⟨t', hthread, hmem, hregs, hreq⟩ := refuseReq_race ht' honly hland hdue hcls
    have hmem' := hmem.trans (mem_atTurn s c q p)
    refine ⟨fun ⟨w, sg, hkind⟩ hheld hrace => ⟨_, t', ?_, hthread, hmem', hregs, hreq⟩,
      fun ⟨w, hkind⟩ hheld hrace => ⟨_, t', ?_, hthread, hmem', hregs, hreq⟩⟩
    · rw [requestDataArrival_load ht honly hkind hparts hdone hheld hturn, performLoad_race hord 0 hrace]
    · rw [memoryWritePerformed_store ht honly hkind hparts hdone hheld hturn, performStore_race hord 0 hrace]
  · intro c g s t p rel scope ht hhandler hreplay hbypass hsram hg hlen hin htag _ tag _ _ _ writerOk readerOk syncOk _ _ _ _
    refine ⟨fun hunchk k => touchAt_unchecked hunchk s c k, fun hchk => ?_⟩
    have h : Checked s c t p g := ⟨ht, hhandler, hreplay, hbypass, hchk, hsram, hg ▸ granules_one hlen hin, htag⟩
    have hwriter : writerOk ↔ WriterOrdered s (viewOf c t) tag := Iff.rfl
    have hreader : readerOk ↔ ReaderOrdered s (viewOf c t) tag := Iff.rfl
    have hmet : writerOk ∨ syncOk ↔ WriterMet s (viewOf c t) tag := Iff.rfl
    rw [hmet, hwriter, hreader]
    refine ⟨fun hw => ⟨_, h.passes (checkTag_load hw), rfl⟩, fun hw => h.races (checkTag_load_race hw),
      fun hw => ⟨_, h.passes (checkTag_syncLoad hw), rfl⟩, fun hw => h.races (checkTag_syncLoad_race hw),
      fun hw hr => ⟨_, h.passes (checkTag_store hw hr), rfl, rfl, rfl, rfl, rfl, rfl⟩,
      fun hw => h.races (checkTag_store_writerRace hw), fun hw hr => h.races (checkTag_store_readerRace hw hr),
      fun hw hr => ⟨_, h.passes (checkTag_syncStore hw hr rel scope), rfl, rfl, rfl, rfl, rfl, rfl⟩,
      fun hw => h.races (checkTag_syncStore_writerRace hw rel scope),
      fun hw hr => h.races (checkTag_syncStore_readerRace hw hr rel scope)⟩

end Sys2Proof.Machine

namespace Sys2Proof.Machine

/-! A result in flight is written in its cycle (O8) -/

/-- The thread whose scalar register r has the value v, with no result in flight any more. -/
def scalarWritten (t : Thread) (r : Fin 32) (v : Word) : Thread :=
  { t with r := { t.r with s := t.r.s.set r.val v }, x := { t.x with inflight := [] } }

section
variable {c due : Nat} {s : State} {t : Thread} {r : Fin 32} {v : Word} (ht : threadOf s c = some t)
  (hr : t.x.inflight = [⟨.sreg r.val, due, BitVec.ofNat 2048 v.toNat, fullMask, 0, 0⟩])
include ht hr

theorem resultWrite_due (hdue : due ≤ t.x.dc) : exec (.resultWrite c) s = .next (setThread s c (scalarWritten t r v)) := by
  have hlate : ¬ t.x.dc < due := by omega
  rw [show exec (.resultWrite c) s = execResultWrite c s from rfl, execResultWrite, modThread_some ht]
  simp [hr, hdue, hlate, writeDest, orFlags, scalarWritten]

theorem resultWrite_later (hdue : t.x.dc < due) : exec (.resultWrite c) s = .next (setThread s c t) := by
  have hnone : t.x.inflight.filter (fun r => decide (r.due ≤ t.x.dc)) = [] := by simp [hr, hdue]
  have hall : t.x.inflight.filter (fun r => decide (t.x.dc < r.due)) = t.x.inflight := by simp [hr, hdue]
  rw [show exec (.resultWrite c) s = execResultWrite c s from rfl, execResultWrite, modThread_some ht]
  simp only [hnone, hall, List.foldl_nil]
end

/-- Settles O8: a result that is due is written to its register alone, one due later stays in flight. -/
theorem resultWritten : Obligations.ResultWritten := by
  unfold Obligations.ResultWritten
  intro c s t r v due ht hr
  by_cases hdue : due ≤ t.x.dc
  · refine ⟨_, scalarWritten t r v, resultWrite_due ht hr hdue, rfl, fun _ => ⟨?_, fun k hk => ?_, rfl⟩,
      fun hlate => absurd hdue (by omega), rfl, rfl, rfl, rfl, rfl⟩
    · simp [scalarWritten]
    · have hval : r.val ≠ k.val := fun h => hk (Fin.ext h.symm)
      simp [scalarWritten, Vector.getElem_set_ne _ _ hval]
  · exact ⟨_, t, resultWrite_later ht hr (by omega), rfl, fun h => absurd h hdue, fun _ => rfl, rfl, rfl, rfl, rfl, rfl⟩

end Sys2Proof.Machine

namespace Sys2Proof.Machine

/-! Frame of the S slots that write a register or predicate (O7) -/

/-- Everything but the current core's thread is as it was, and that thread has the registers and requests of t. -/
def KeepsFrame (s s' : State) (t : Thread) : Prop :=
  SameMemory s s' ∧ s'.dies = s.dies ∧ s'.todo = s.todo ∧ s'.agenda = s.agenda ∧ s'.now = s.now ∧
  (∀ c, c ≠ s.cur → coreOf s' c = coreOf s c) ∧
  ∃ t', threadOf s' s.cur = some t' ∧ SameRegisters t t' ∧ t'.reqs = t.reqs

theorem sameRegisters_refl (t : Thread) : SameRegisters t t := ⟨rfl, rfl, rfl, rfl, rfl⟩

section
variable {s : State} {t : Thread}

theorem keepsFrame_refl (ht : threadOf s s.cur = some t) : KeepsFrame s s t :=
  ⟨fun _ => rfl, rfl, rfl, rfl, rfl, fun _ _ => rfl, t, ht, sameRegisters_refl t, rfl⟩

theorem keepsFrame_setThread {t' : Thread} (hregs : SameRegisters t t') (hreqs : t'.reqs = t.reqs) :
    KeepsFrame s (setThread s s.cur t') t :=
  ⟨fun _ => rfl, rfl, rfl, rfl, rfl, fun c hc => coreOf_setThread_other s s.cur c t' hc, t', threadOf_setThread .., hregs, hreqs⟩

/-! A fault met at issue (R335, R345) -/

theorem dropReplay_eq (s : State) : ∃ a, dropReplay s = { s with auditor := a } := by
  unfold dropReplay
  dsimp only
  split
  · split
    · exact ⟨s.auditor, rfl⟩
    · exact ⟨_, rfl⟩
  · exact ⟨s.auditor, rfl⟩

/-- The thread of an abandoned replay ends, at once or later; nothing else of it changes (R345). -/
theorem abandonReplay_eq {c : Nat} (ht : threadOf s c = some t) :
    ∃ a p k, abandonReplay s c = setThread { s with auditor := a } c { t with phase := p, kill := k } := by
  obtain ⟨a, ha⟩ := dropReplay_eq s
  have hthread : threadOf { s with auditor := a } c = some t := ht
  rw [abandonReplay, ha, modThread_some hthread]
  split <;> exact ⟨a, _, _, rfl⟩

theorem takeException_replay {c : Nat} (ht : threadOf s c = some t) (hh : t.handler = false) (hr : t.replay = true)
    (f : FaultRec) : ∃ w, takeException s c f none = abandonReplay { s with walkFails := w } c :=
  ⟨_, by simp [takeException, ht, hh, hr]; rfl⟩

theorem keepsFrame_takeException (ht : threadOf s s.cur = some t) (hh : t.handler = false) (f : FaultRec) :
    KeepsFrame s (takeException s s.cur f none) t := by
  cases hr : t.replay with
  | false =>
    rw [takeException_eq ht hh hr]
    exact keepsFrame_setThread (sameRegisters_refl t) rfl
  | true =>
    obtain ⟨w, hw⟩ := takeException_replay ht hh hr f
    obtain ⟨a, p, k, h⟩ := abandonReplay_eq (s := { s with walkFails := w }) (c := s.cur) ht
    rw [hw, h]
    exact keepsFrame_setThread (sameRegisters_refl t) rfl

/-! What such a slot can do -/

/-- The slot puts results in flight, or meets a fault. -/
def PutsResults (s : State) (t : Thread) (r : Slot) : Prop :=
  (∃ l, r = .ok (setThread s s.cur { t with x := { t.x with inflight := l } })) ∨ ∃ f, r = .error (.fault f)

/-- The thread with results put in flight, or a fault. -/
def AddsResults (t : Thread) (r : Except Attn Thread) : Prop :=
  (∃ l, r = .ok { t with x := { t.x with inflight := l } }) ∨ ∃ f, r = .error (.fault f)

theorem addsResults_addResult (t : Thread) (d : Dest) (v : Row) (l : Nat) (fl : BitVec 5) :
    AddsResults t (addResult t d v l fl) := by
  rcases addResult_cases t d v l fl with ⟨_, h⟩ | ⟨_, _, h⟩ | ⟨_, _, _, h⟩ | ⟨_, h⟩
  · exact .inr ⟨_, h⟩
  · exact .inr ⟨_, h⟩
  · exact .inr ⟨_, h⟩
  · exact .inl ⟨_, h⟩

theorem AddsResults.puts {r : Except Attn Thread} (h : AddsResults t r) (s : State) :
    PutsResults s t (r.map (setThread s s.cur)) := by
  rcases h with ⟨l, rfl⟩ | ⟨f, rfl⟩
  · exact .inl ⟨l, rfl⟩
  · exact .inr ⟨f, rfl⟩

theorem AddsResults.bind {r : Except Attn Thread} {f : Thread → Except Attn Thread} (h : AddsResults t r)
    (hf : ∀ u, AddsResults u (f u)) : AddsResults t (r.bind f) := by
  rcases h with ⟨l, rfl⟩ | ⟨f', rfl⟩
  · rcases hf { t with x := { t.x with inflight := l } } with ⟨m, hm⟩ | ⟨f', hf'⟩
    · exact .inl ⟨m, hm⟩
    · exact .inr ⟨f', hf'⟩
  · exact .inr ⟨f', rfl⟩

theorem putsResults_scalar (s : State) (t : Thread) (rd : BitVec 5) (v : Word) (l : Nat) :
    PutsResults s t (putScalar s t rd v l) := (addsResults_addResult ..).puts s

theorem putsResults_pred (s : State) (t : Thread) (pd : BitVec 3) (v : Bool) (l : Nat) :
    PutsResults s t (putPred s t pd v l) := (addsResults_addResult ..).puts s

/-- PMOV.wr puts one result after the other in flight, or meets the fault of the first that cannot be (R238). -/
theorem addsResults_pmovWr (t : Thread) (reg : BitVec 5) (mask : BitVec 8) :
    AddsResults t ((List.range 7).foldl (fun r i => r.bind fun u =>
      if mask.getLsbD (i + 1) then addPred u (BitVec.ofNat 3 (i + 1)) ((sreg t reg).getLsbD (i + 1)) 1 else .ok u) (.ok t)) := by
  refine foldl_keeps (AddsResults t) _ (fun r i hr => hr.bind fun u => ?_) _ _ (.inl ⟨t.x.inflight, rfl⟩)
  split
  · exact addsResults_addResult ..
  · exact .inl ⟨u.x.inflight, rfl⟩

/-- The slot i does nothing, or runs under its guard and puts results in flight or meets a fault. -/
def IsScalarSlot (i : Instr) : Prop :=
  (∀ s, exec i s = .next s) ∨ ∃ g, ∀ s, ∃ f, exec i s = runSlot g s f ∧ ∀ t, PutsResults s t (f t)

theorem memoryKind_ne_s1 (m1 : Bool) : some (if m1 then Kind.m1 else .m0) ≠ some .s1 := by
  cases m1 <;> decide

theorem isScalarSlot {i : Instr} (hkind : slotKind i = some .s1) (hs1 : s1Only i = false) : IsScalarSlot i := by
  cases i with
  | nop => exact .inl fun _ => rfl
  | add | sub | addi | mul | mulhI | mulhN | and | or | xor | andn | andi | ori | xori | shl | shr | sar | ror | shli | shri
  | sari | rori | bfxN | bfxI | bfi | clz | ctz | popc | minI | minN | maxI | maxN | sel | movi | movhi | pmovRd =>
    exact .inr ⟨_, fun s => ⟨_, rfl, fun t => putsResults_scalar ..⟩⟩
  | cmp | cmpi | plog => exact .inr ⟨_, fun s => ⟨_, rfl, fun t => putsResults_pred ..⟩⟩
  | pmovWr _ reg mask => exact .inr ⟨_, fun s => ⟨_, rfl, fun t => (addsResults_pmovWr t reg mask).puts s⟩⟩
  | br | brx | jmp | call | ret | loopReg | loopImm | endl | brk | endT | trap => cases hs1
  | mnop h | ldb h | ldh h | ldw h | ld h | ldbs h | ldhs h | ldws h | stb h | sth h | stw h | st h | ldrow h | strow h | atom h
  | fence h | probe h | fill h | evict h | wback h | cvta h | aptest h | wait h | mon h | mwait h => exact absurd hkind (memoryKind_ne_s1 h.m1)
  | _ => cases hkind

theorem keepsFrame_runSlot {g : Guard} {f : Thread → Slot} {s' : State} (ht : threadOf s s.cur = some t)
    (hh : t.handler = false) (hf : PutsResults s t (f t)) (h : runSlot g s f = .next s') : KeepsFrame s s' t := by
  rcases runSlot_cases g s s' f h with ⟨hnone, _⟩ | ⟨u, hu, hcases⟩
  · exact absurd (hnone.symm.trans ht) (by simp)
  obtain rfl : u = t := Option.some.inj (hu.symm.trans ht)
  rcases hcases with ⟨_, rfl⟩ | ⟨_, hrun⟩
  · exact keepsFrame_refl ht
  rcases hf with ⟨l, hok⟩ | ⟨fault, herr⟩
  · rcases hrun with hs | ⟨a, ha, _⟩
    · obtain rfl : _ = s' := Except.ok.inj (hok.symm.trans hs)
      exact keepsFrame_setThread (sameRegisters_refl u) rfl
    · exact absurd (hok.symm.trans ha) (by simp)
  · rcases hrun with hs | ⟨a, ha, rfl⟩
    · exact absurd (herr.symm.trans hs) (by simp)
    · obtain rfl : _ = a := Except.error.inj (herr.symm.trans ha)
      exact keepsFrame_takeException ht hh fault

end

/-- Settles O7: every such slot does nothing, puts results in flight, or meets a fault at issue. -/
theorem scalarFrame : Obligations.ScalarFrame := by
  unfold Obligations.ScalarFrame
  rintro i s s' t ⟨hkind, hs1⟩ ht hh he
  rcases isScalarSlot hkind hs1 with h | ⟨g, h⟩
  · obtain rfl : s = s' := by simpa [h] using he
    exact keepsFrame_refl ht
  · obtain ⟨f, hf, hputs⟩ := h s
    exact keepsFrame_runSlot ht hh (hputs t) (hf.symm.trans he)

end Sys2Proof.Machine

namespace Sys2Proof.Machine

/-! A slot whose guard is false (O5) -/

/-! S, M, C and Q slots (R167) -/

/-- A slot that does nothing at all when its guard is false is NOP of its kind, or runs under its guard. -/
theorem exec_guardOf {i : Instr} {g : Guard} (hi : guardOf i = some g) (s : State) :
    exec i s = .next s ∨ ∃ f, exec i s = runSlot g s f := by
  cases i with
  | nop | mnop | cnop | qnop => exact .inl rfl
  | add | sub | addi | mul | mulhI | mulhN | and | or | xor | andn | andi | ori | xori | shl | shr | sar | ror | shli | shri
  | sari | rori | bfxN | bfxI | bfi | clz | ctz | popc | minI | minN | maxI | maxN | sel | movi | movhi | cmp | cmpi | plog
  | pmovWr | pmovRd | br | brx | jmp | call | ret | loopReg | loopImm | endl | brk | endT
  | ldb | ldh | ldw | ld | ldbs | ldhs | ldws | stb | sth | stw | st | ldrow | strow | atom | fence | probe | fill | evict
  | wback | cvta | aptest | wait | mon | mwait
  | copy | close | binit | barrive | bwait | waitl | gjoin | gleave | gbar | crr | dcal | dleft | amark
  | enqt | eboard | ealight | ecap | erow | ewhen | tboard | twait | tleave | tstat | fst | fld | fatom | vatom | coll =>
    cases hi
    exact .inr ⟨_, rfl⟩
  | trap =>
    cases hi
    exact .inr ⟨_, (rfl : execTrap _ _ s = _)⟩
  | setfmt =>
    cases hi
    exact .inr ⟨_, (rfl : execSetfmt _ _ _ s = _)⟩
  | _ => cases hi

section
variable {i : Instr} {g : Guard} {s : State} {t : Thread} (ht : threadOf s s.cur = some t)
include ht

theorem exec_guardFalse (hi : guardOf i = some g) (hg : guardTrue t g = false) : exec i s = .next s := by
  rcases exec_guardOf hi s with h | ⟨f, h⟩
  · exact h
  · rw [h, runSlot_false g s t f ht hg]

/-! Slots that check their privilege first (R302) -/

theorem privileged_guardFalse (hi : privilegedGuardOf i = some g) (hp : privileged t = true)
    (hg : guardTrue t g = false) : exec i s = .next s := by
  cases i with
  | tlbi | tlbiSync | tret | tspeed =>
    cases hi
    exact runAlways_ok s s t _ ht (by simp [hp, hg])
  | _ => cases hi

theorem crw_guardFalse {rs : BitVec 5} {cr : BitVec 12} (hg : guardTrue t g = false)
    (hp : crJobWord cr.toNat = none ∨ privileged t = true) : exec (.crw g rs cr) s = .next s := by
  refine runAlways_ok s s t _ ht ?_
  rcases hp with hp | hp <;> simp [hp, hg]

/-! V slots (R169, R212, R267) -/

omit ht in
/-- The checks of a V slot whose guard is false: BUSY, the illegal slot and BEATS, and then its beats alone. -/
theorem issueV_guardFalse {c : Nat} {h : VHdr} {p : VPlan} {scal : Word} (hg : guardTrue t h.g = false)
    (hfree : t.x.vEnd ≤ t.x.dc) :
    issueV c t h i p scal = .ok { t with x := { t.x with vEnd := t.x.dc + (h.beats.toNat + 1) } } ∨
    issueV c t h i p scal = .error (illegalSlot 4) ∨ issueV c t h i p scal = .error (schedFault 8) := by
  have hidle : ¬ t.x.dc < t.x.vEnd := Nat.not_lt.mpr hfree
  unfold issueV
  dsimp only
  rw [if_neg hidle]
  by_cases hformat : (p.vf && decide (2 < fmtVF t.c.fmt)) = true
  · rw [if_pos hformat]
    exact .inr (.inl rfl)
  rw [if_neg hformat]
  by_cases hlegal : (!p.legal) = true
  · rw [if_pos hlegal]
    exact .inr (.inl rfl)
  rw [if_neg hlegal]
  by_cases hlimits : (!p.ok) = true
  · rw [if_pos hlimits]
    exact .inr (.inr rfl)
  rw [if_neg hlimits, if_pos (by rw [hg]; rfl)]
  exact .inl rfl

omit ht in
theorem issueV_busy {c : Nat} {h : VHdr} {p : VPlan} {scal : Word} (hbusy : t.x.dc < t.x.vEnd) :
    issueV c t h i p scal = .error (schedFault 1) := if_pos hbusy

/-- What a V slot with a false guard does: its engine's BUSY, or its beats, or a check that is made whatever the guard. -/
def OnlyBusiesV (i : Instr) (h : VHdr) (s : State) (t : Thread) : Prop :=
  (t.x.dc < t.x.vEnd → exec i s = .next (attend s s.cur (schedFault 1))) ∧
  (t.x.vEnd ≤ t.x.dc →
    exec i s = .next (setThread s s.cur { t with x := { t.x with vEnd := t.x.dc + (h.beats.toNat + 1) } }) ∨
    exec i s = .next (attend s s.cur (illegalSlot 4)) ∨ exec i s = .next (attend s s.cur (schedFault 8)))

theorem onlyBusiesV_runV {h : VHdr} {plan : Thread → VPlan} {f : Beat} {scal : Thread → Word}
    (he : exec i s = runV s i h plan f scal) (hg : guardTrue t h.g = false) (hl : laterBeat t i = false) :
    OnlyBusiesV i h s t := by
  simp only [OnlyBusiesV, he, runV, ht, hl, hg, Bool.false_eq_true, if_false]
  refine ⟨fun hbusy => by rw [issueV_busy hbusy], fun hfree => ?_⟩
  rcases issueV_guardFalse (i := i) (c := s.cur) (p := plan t) (scal := scal t) hg hfree with h | h | h <;> rw [h]
  · exact .inl rfl
  · exact .inr (.inl rfl)
  · exact .inr (.inr rfl)

theorem onlyBusiesV_vnop (h : VHdr) (x : BitVec 30) : OnlyBusiesV (.vnop h x) h s t := by
  refine ⟨fun hbusy => runAlways_error s t _ _ ht (if_pos hbusy), fun hfree => .inl ?_⟩
  exact runAlways_ok s _ t _ ht (if_neg (Nat.not_lt.mpr hfree))

theorem onlyBusiesV_guardFalse {h : VHdr} (hi : vHeader i = some h) (hg : guardTrue t h.g = false)
    (hl : laterBeat t i = false) : OnlyBusiesV i h s t := by
  cases i with
  | vnop h x =>
    cases hi
    exact onlyBusiesV_vnop ht h x
  | vadd | vsub | vmul | vfma | vmin | vmax | vabs | vneg | vcmp | vsel | vexp2 | vlog2 | vrcp | vrsqrt | vscale
  | viadd | visub | vimul | vimin | vimax | vand | vor | vxor | vshl | vshr | vsar | vcvt | vpackd | vunpkd | vpackm | vunpkm
  | vrsum | vrmax | vrmin | vshuf | vtrans | vmov | vzrd | vzwr | vbcast =>
    cases hi
    exact onlyBusiesV_runV ht rfl hg hl
  | _ => cases hi

/-! X slots (R169, R270) -/

/-- The passes of an X slot: MMA's and MMA.TB's repeat count, else one (R210, R297). -/
def xPasses : Instr → Nat
  | .mma _ rpe cnt .. | .mmaTb _ rpe cnt .. => if rpe then cnt.toNat else 1
  | _ => 1

omit ht in
/-- The checks of an X slot whose guard is false and whose formats are legal: BUSY alone. -/
theorem xBusy_guardFalse {ok : Bool} {n : Nat} (hg : guardTrue t g = false) :
    xBusy t g true ok n = if t.x.dc < t.x.xEnd then .error (schedFault 1)
      else .ok { t with x := { t.x with xEnd := t.x.dc + n } } := by
  simp [xBusy, hg]

/-- An X slot whose guard is false and whose formats are legal keeps its engine busy for its passes, or meets BUSY. -/
def OnlyBusiesX (i : Instr) (h : XHdr) (s : State) (t : Thread) : Prop :=
  exec i s = .next (if t.x.dc < t.x.xEnd then attend s s.cur (schedFault 1)
    else setThread s s.cur { t with x := { t.x with xEnd := t.x.dc + xPasses i * (h.beats.toNat + 1) } })

/-- Such a slot goes no further than its checks and its busy span: `f` is what it does when its guard is true. -/
theorem onlyBusiesX_runAlways {h : XHdr} {k f : Thread → Slot} {ok : Bool} {n : Nat} (he : exec i s = runAlways s k)
    (hg : guardTrue t h.g = false) (hn : xPasses i * (h.beats.toNat + 1) = n) (hk : k t = (xBusy t h.g true ok n).bind f)
    (hf : ∀ u, guardTrue u h.g = false → f u = .ok (setThread s s.cur u)) : OnlyBusiesX i h s t := by
  rw [xBusy_guardFalse hg] at hk
  rw [OnlyBusiesX, he, hn]
  by_cases hbusy : t.x.dc < t.x.xEnd
  · rw [if_pos hbusy] at hk ⊢
    exact runAlways_error s t k _ ht hk
  · rw [if_neg hbusy] at hk ⊢
    exact runAlways_ok s _ t k ht (hk.trans (hf _ hg))

theorem onlyBusiesX_guardFalse {h : XHdr} (hi : xHeader i = some h) (hg : guardTrue t h.g = false)
    (hpair : matrixPair t.c.fmt = true) : OnlyBusiesX i h s t := by
  cases i with
  | xnop =>
    cases hi
    refine onlyBusiesX_runAlways (ok := true) (n := xbeats _) (f := fun u => .ok (setThread s s.cur u)) ht rfl hg (one_mul _) ?_ (fun _ _ => rfl)
    cases xBusy t h.g true true (xbeats h) <;> rfl
  | mma | mmaTb =>
    cases hi
    refine onlyBusiesX_runAlways (ok := ?_) (f := ?_) ht rfl hg rfl ?hk (fun u hu => ?hf)
    case hk =>
      rw [hpair]
      rfl
    case hf => exact if_pos (by rw [hu]; rfl)
  | zzero | zscale | zout =>
    cases hi
    exact onlyBusiesX_runAlways ht rfl hg (one_mul _) rfl (fun u hu => if_pos (by rw [hu]; rfl))
  | _ => cases hi

end

/-- Settles O5: by the form of each slot's effect: under its guard, after its privilege, or after its engine's checks. -/
theorem guardFalse : Obligations.GuardFalse := by
  unfold Obligations.GuardFalse
  exact ⟨fun i g s t hi ht hg => exec_guardFalse ht hi hg,
    fun i g s t hi ht hp hg => privileged_guardFalse ht hi hp hg,
    fun g rs cr s t ht hg hp => crw_guardFalse ht hg hp,
    fun i h s t hi ht hg hl => onlyBusiesV_guardFalse ht hi hg hl,
    fun i h s t hi ht hg hpair => onlyBusiesX_guardFalse ht hi hg hpair,
    fun t => ⟨rfl, rfl⟩⟩

end Sys2Proof.Machine

namespace Sys2Proof.Machine

/-! What the device's stores, reads and logs leave (R17, R47, R78, R334)

A write at its home fires watches; a read of memory counts and logs what it corrects; an entry of a fault queue is such a
write. `besideLogs` says what all of them leave of the machine, `Core.besideLogs` what they leave of a core. -/

/-- A core without what such an operation may change of it: the watches of its thread, its probe slots and its slice. -/
def Core.besideLogs (k : Core) : Core :=
  { k with thread := k.thread.map unwatched, probe := Probe.reset, slice := Slice.reset }

/-- Beside the stores and logs, the machine and every core are as they were. -/
def OnlyLogs (s s' : State) : Prop :=
  besideLogs s' = besideLogs s ∧ ∀ c, (coreOf s' c).besideLogs = (coreOf s c).besideLogs

theorem OnlyLogs.refl (s : State) : OnlyLogs s s := ⟨rfl, fun _ => rfl⟩

theorem OnlyLogs.trans {s s' s'' : State} (h : OnlyLogs s s') (h' : OnlyLogs s' s'') : OnlyLogs s s'' :=
  ⟨h'.1.trans h.1, fun c => (h'.2 c).trans (h.2 c)⟩

theorem onlyLogs_foldl {α : Type} {f : State → α → State} (h : ∀ s a, OnlyLogs s (f s a)) (l : List α) (s : State) :
    OnlyLogs s (l.foldl f s) :=
  foldl_keeps (OnlyLogs s) f (fun _ _ hx => hx.trans (h _ _)) l s (.refl s)

theorem onlyLogs_beside {s s' : State} (h : besideLogs s' = besideLogs s) (hcores : s'.cores = s.cores) : OnlyLogs s s' :=
  ⟨h, fun c => congrArg Core.besideLogs (coreOf_of_cores hcores c)⟩

/-! What follows for the fields -/

section
variable {s s' : State} (h : OnlyLogs s s')
include h

theorem OnlyLogs.now : s'.now = s.now := (time_of_besideLogs h.1).1

theorem OnlyLogs.agenda : s'.agenda = s.agenda := (time_of_besideLogs h.1).2

theorem OnlyLogs.saved : s'.saved = s.saved := (congrArg State.saved h.1 :)

theorem OnlyLogs.entries (d : Nat) : (dieOf s' d).entries = (dieOf s d).entries :=
  (congrArg Die.entries (besideRing_dieOf h.1 d) :)

theorem OnlyLogs.framePa (f : Nat) : framePa s' f = framePa s f := by
  have hsave : (dieOf s' (f / 4096)).save = (dieOf s (f / 4096)).save := (congrArg Die.save (besideRing_dieOf h.1 _) :)
  rw [Machine.framePa, hsave, Machine.framePa]

theorem OnlyLogs.thread (c : Nat) : (threadOf s' c).map unwatched = (threadOf s c).map unwatched :=
  (congrArg Core.thread (h.2 c) :)

theorem OnlyLogs.trapFrame (c : Nat) : (coreOf s' c).trapFrame = (coreOf s c).trapFrame :=
  (congrArg Core.trapFrame (h.2 c) :)

theorem OnlyLogs.isSome_thread (c : Nat) : (threadOf s' c).isSome = (threadOf s c).isSome := by
  simpa using congrArg Option.isSome (h.thread c)

theorem OnlyLogs.noThread {c : Nat} (ht : threadOf s c = none) : threadOf s' c = none := by
  have hsome := h.isSome_thread c
  rw [ht] at hsome
  simpa using hsome

theorem OnlyLogs.someThread {c : Nat} {t : Thread} (ht : threadOf s c = some t) :
    ∃ w, threadOf s' c = some { t with watch := w } := by
  have hkept := h.thread c
  rw [ht] at hkept
  obtain ⟨t', ht', hsame⟩ := Option.map_eq_some_iff.mp hkept
  refine ⟨t'.watch, ht'.trans (congrArg some ?_)⟩
  calc t' = { unwatched t' with watch := t'.watch } := rfl
    _ = { t with watch := t'.watch } := by rw [hsame]; rfl

end

/-! Changes of a core -/

theorem onlyLogs_modCore {f : Core → Core} (hf : ∀ k, (f k).besideLogs = k.besideLogs) (s : State) (c : Nat) :
    OnlyLogs s (modCore s c f) := ⟨rfl, coreOf_modCore_keeps Core.besideLogs hf s c⟩

theorem onlyLogs_modSlice (s : State) (c : Nat) (f : Slice → Slice) : OnlyLogs s (modSlice s c f) :=
  onlyLogs_modCore (f := fun k => { k with slice := f k.slice }) (fun _ => rfl) s c

theorem onlyLogs_modThread {f : Thread → Thread} (hf : ∀ t, unwatched (f t) = unwatched t) (s : State) (c : Nat) :
    OnlyLogs s (modThread s c f) := by
  cases ht : threadOf s c with
  | none =>
    rw [modThread_eq, ht]
    exact .refl s
  | some t =>
    rw [modThread_some ht]
    refine ⟨rfl, fun x => ?_⟩
    by_cases hx : x = c
    · rw [hx, setThread, coreOf_setCore, Core.besideLogs, Core.besideLogs, show (coreOf s c).thread = some t from ht,
        Option.map_some, Option.map_some, hf]
    · rw [coreOf_setThread_other _ _ _ _ hx]

theorem onlyLogs_dropTracker (s : State) (c ent addr : Nat) : OnlyLogs s (dropTracker s c ent addr) := onlyLogs_modSlice ..

theorem onlyLogs_dropTrackers (s : State) (c : Nat) (t : Thread) : OnlyLogs s (dropTrackers s c t) := by
  refine onlyLogs_foldl (fun s w => ?_) _ s
  split
  · exact onlyLogs_dropTracker ..
  · exact .refl s

/-! Stores at their homes (R55, R84, R263) -/

theorem onlyLogs_evalWatches (s : State) (pa n : Nat) : OnlyLogs s (evalWatches s pa n) := by
  refine onlyLogs_foldl (fun s ck => ?_) _ s
  dsimp only
  split
  · exact .refl s
  · split
    · refine onlyLogs_foldl (fun s w => ?_) _ s
      split
      · refine (onlyLogs_dropTracker ..).trans (onlyLogs_modThread (fun _ => ?_) _ _)
        rfl
      · exact .refl s
    · exact .refl s

theorem onlyLogs_sramEffects (s : State) (pa n : Nat) : OnlyLogs s (sramEffects s pa n) := by
  refine (onlyLogs_evalWatches s pa n).trans ?_
  unfold sramEffects dirtySlots
  dsimp only
  split
  · exact .refl _
  · refine onlyLogs_modCore (fun _ => ?_) _ _
    rfl

theorem onlyLogs_storeNow (s : State) (pa : Nat) (bs : List Byte) : OnlyLogs s (storeNow s pa bs) := by
  unfold storeNow
  split
  · refine OnlyLogs.trans (onlyLogs_beside ?_ ?_) (onlyLogs_sramEffects ..) <;> rfl
  · dsimp only
    repeat' split
    all_goals exact onlyLogs_beside rfl rfl
  · exact .refl s

theorem onlyLogs_storeUnits (s : State) (pa : Nat) (bs : List Byte) : OnlyLogs s (storeUnits s pa bs) := by
  unfold storeUnits
  split
  · exact onlyLogs_beside rfl rfl
  · exact onlyLogs_storeNow ..

/-! Entries of a fault queue (R334) -/

theorem onlyLogs_modDie (s : State) (d : Nat) {f : Die → Die} (hf : ∀ x, (f x).besideRing = x.besideRing) :
    OnlyLogs s (modDie s d f) :=
  ⟨besideLogs_modDie s d hf, fun c => congrArg Core.besideLogs (coreOf_of_cores (modDie_cores ..) c)⟩

theorem onlyLogs_fqWrite (s : State) (d : Nat) (ws : List Word) : OnlyLogs s (fqWrite s d ws) :=
  (onlyLogs_storeUnits ..).trans (onlyLogs_modDie _ _ (fun _ => rfl))

theorem onlyLogs_fqEvent (s : State) (d : Nat) (ws : List Word) : OnlyLogs s (fqEvent s d ws) := by
  rcases fqEvent_cases s d ws with ⟨-, h⟩ | ⟨-, h⟩ <;> rw [h]
  · exact onlyLogs_fqWrite ..
  · exact onlyLogs_modDie s d (fun _ => rfl)

theorem onlyLogs_fqFault (s : State) (d : Nat) (ws : List Word) : OnlyLogs s (fqFault s d ws) := by
  rcases fqFault_cases s d ws with ⟨-, -, h⟩ | ⟨-, h⟩ <;> rw [h]
  · exact onlyLogs_fqWrite ..
  · exact onlyLogs_modDie s d (fun _ => rfl)

/-! Reads of memory (R47, R78) -/

theorem onlyLogs_sramEvent (s : State) (c cause word bank : Nat) : OnlyLogs s (sramEvent s c cause word bank) :=
  onlyLogs_fqEvent ..

theorem onlyLogs_bankLimit (s : State) (c word k : Nat) : OnlyLogs s (bankLimit s c word k) := by
  unfold bankLimit
  dsimp only
  repeat' split
  · exact .refl s
  · exact (onlyLogs_modSlice ..).trans (onlyLogs_sramEvent ..)
  · exact .refl s
  · exact (onlyLogs_modSlice ..).trans (onlyLogs_sramEvent ..)

theorem onlyLogs_correctedAt (s : State) (c word k : Nat) : OnlyLogs s (correctedAt s c word k) :=
  ((onlyLogs_modSlice ..).trans (onlyLogs_sramEvent ..)).trans (onlyLogs_bankLimit ..)

theorem onlyLogs_readSramWord (s : State) (w : Nat) : OnlyLogs s (readSramWord s w).2 := by
  have hfixed (l : List Nat) : OnlyLogs s (l.foldl (fun s k => correctedAt s (w / 262144) (w % 262144) k) s) :=
    onlyLogs_foldl (fun _ _ => onlyLogs_correctedAt ..) l s
  unfold readSramWord
  split
  · exact .refl s
  · dsimp only
    split
    · exact hfixed _
    · exact (hfixed _).trans ((onlyLogs_modSlice ..).trans (onlyLogs_sramEvent ..))

theorem onlyLogs_sramWords (n : Nat) (s : State) (w : Nat) : OnlyLogs s (sramWords n s w).2.2 := by
  induction n generalizing s w with
  | zero => exact .refl s
  | succ n ih =>
    unfold sramWords
    dsimp only
    split <;> exact (onlyLogs_readSramWord s w).trans (ih ..)

theorem onlyLogs_pcFail (s : State) (g reason : Nat) : OnlyLogs s (pcFail s g reason) := onlyLogs_fqEvent ..

theorem onlyLogs_burstCorrected (s : State) (h : Nat) : OnlyLogs s (burstCorrected s h) := by
  unfold burstCorrected
  dsimp only
  split
  · refine OnlyLogs.trans (onlyLogs_beside ?_ ?_) (onlyLogs_pcFail ..) <;> rfl
  · exact onlyLogs_beside rfl rfl

theorem onlyLogs_unitRead (s : State) (size u : Nat) : OnlyLogs s (unitRead s size u) := by
  have hweak (l : List Nat) : OnlyLogs s (l.foldl (fun s b => burstCorrected
      { s with hbm := { s.hbm with weakBursts := s.hbm.weakBursts.filter (· ≠ b) } } (32 * b)) s) :=
    onlyLogs_foldl (fun s b => OnlyLogs.trans (onlyLogs_beside rfl rfl) (onlyLogs_burstCorrected
      { s with hbm := { s.hbm with weakBursts := s.hbm.weakBursts.filter (· ≠ b) } } (32 * b))) l s
  unfold unitRead
  dsimp only
  split
  · exact (hweak _).trans (onlyLogs_pcFail ..)
  · exact hweak _

theorem onlyLogs_hbmUnits (size n : Nat) (s : State) (u : Nat) : OnlyLogs s (hbmUnits size n s u).2.2 := by
  induction n generalizing s u with
  | zero => exact .refl s
  | succ n ih => exact (onlyLogs_unitRead s size u).trans (ih ..)

theorem onlyLogs_hbmRead (f : Nat) (s : State) (h n : Nat) : OnlyLogs s (hbmRead f s h n).2.2 := by
  induction f generalizing s h n with
  | zero => exact .refl s
  | succ f ih =>
    unfold hbmRead
    dsimp only
    split
    · exact onlyLogs_hbmUnits ..
    · exact (onlyLogs_hbmUnits ..).trans (ih ..)

theorem onlyLogs_spanLog (s : State) (w : Who) (e : Nat × Nat) (ga : Word) : OnlyLogs s (spanLog s w e ga) := by
  unfold spanLog
  split
  · exact onlyLogs_fqEvent ..
  · exact .refl s

theorem OnlyLogs.of_third {α β : Type} {s s' : State} {r : α × β × State} {a : α} {b : β} (e : r = (a, b, s'))
    (h : OnlyLogs s r.2.2) : OnlyLogs s s' := by
  rwa [e] at h

theorem onlyLogs_readPa (s : State) (w : Who) (pa n : Nat) (ga : Word) : OnlyLogs s (readPa s w pa n ga).2 := by
  unfold readPa
  split
  · exact onlyLogs_spanLog ..
  · split
    · extract_lets
      split
      next e => exact .of_third e (onlyLogs_sramWords ..)
    · split
      next e => exact .of_third e (onlyLogs_hbmRead ..)

end Sys2Proof.Machine

namespace Sys2Proof.Machine

/-! Stores to SRAM (R16, R47) -/

theorem targetOf_congr {s s' : State} (hplat : s'.plat = s.plat) (hhbm : s'.hbm = s.hbm) (pa : Nat) :
    targetOf s' pa = targetOf s pa := by
  rw [targetOf, coreLive, hbmCap, nlive, hplat, hhbm]
  rfl

theorem inSram_of_target {s : State} {pa a b : Nat} (h : targetOf s pa = .sram a b) : inSram pa = true := by
  by_contra hout
  rw [targetOf, if_neg (by simpa [inSram] using hout)] at h
  split at h
  · cases h
  · split at h <;> cases h

theorem mem_storeUnits_sram {s : State} {pa a b : Nat} (h : targetOf s pa = .sram a b) (bs : List Byte) :
    (storeUnits s pa bs).mem = memWrite s.mem pa bs := by
  rw [storeUnits, inHbm_of_inSram (inSram_of_target h), Bool.false_and, if_neg Bool.false_ne_true, storeNow, h]
  exact mem_sramEffects ..

/-! Save frames (R160, R175) -/

/-- What a change of one die keeps of it, it keeps of every die. -/
theorem dieOf_modDie_keeps {α : Type} (π : Die → α) {f : Die → Die} (hf : ∀ x, π (f x) = π x) (s : State) (d x : Nat) :
    π (dieOf (modDie s d f) x) = π (dieOf s x) := by
  by_cases hx : x = d
  · by_cases hd : d < 4
    · rw [hx, dieOf_modDie _ _ _ hd, hf]
    · rw [modDie, dif_neg hd]
  · rw [dieOf_modDie_other _ _ _ _ hx]

theorem frameTime_congr {s s' : State} {f : Nat} (hpa : framePa s' f = framePa s f) (hnow : s'.now = s.now) (n : Nat) :
    frameTime s' f n = frameTime s f n := by
  rw [frameTime, hpa, hnow, frameTime]

theorem frameTime_ge (s : State) (f : Nat) : 1400 ≤ frameTime s f 1400 := by
  unfold frameTime
  split
  · dsimp only
    omega
  · exact Nat.le_refl _

/-! Entries of a die's scheduler (R155, R157) -/

section
variable {s : State} {d k : Nat}

theorem modWhere_id (k : Nat) (f : Entry → Entry) (l : List Entry) :
    modWhere (fun e => e.id == k) f l = l.map (fun x => if x.id = k then f x else x) := by
  simp only [modWhere, beq_iff_eq]

theorem entries_modEntry (hd : d < 4) (f : Entry → Entry) :
    (dieOf (modEntry s d k f) d).entries = (dieOf s d).entries.map (fun x => if x.id = k then f x else x) := by
  rw [modEntry, dieOf_modDie _ _ _ hd, modWhere_id]

@[simp] theorem modEntry_mem (s : State) (d k : Nat) (f : Entry → Entry) : (modEntry s d k f).mem = s.mem := modDie_mem ..
@[simp] theorem modEntry_agenda (s : State) (d k : Nat) (f : Entry → Entry) : (modEntry s d k f).agenda = s.agenda :=
  modDie_agenda ..
@[simp] theorem modEntry_now (s : State) (d k : Nat) (f : Entry → Entry) : (modEntry s d k f).now = s.now := modDie_now ..
@[simp] theorem modEntry_saved (s : State) (d k : Nat) (f : Entry → Entry) : (modEntry s d k f).saved = s.saved :=
  modDie_saved ..

theorem framePa_modEntry (s : State) (d k f : Nat) (g : Entry → Entry) : framePa (modEntry s d k g) f = framePa s f := by
  have hsave : (dieOf (modEntry s d k g) (f / 4096)).save = (dieOf s (f / 4096)).save :=
    dieOf_modDie_keeps Die.save (f := fun x => { x with entries := modWhere (fun e => e.id == k) g x.entries }) (fun _ => rfl) ..
  rw [framePa, hsave, framePa]

theorem targetOf_modEntry (s : State) (d k pa : Nat) (f : Entry → Entry) : targetOf (modEntry s d k f) pa = targetOf s pa :=
  targetOf_congr (modDie_plat ..) (modDie_hbm ..) pa

theorem entries_dropEntry (hd : d < 4) :
    (dieOf (dropEntry s d k) d).entries = (dieOf s d).entries.filter (fun x => x.id != k) := by
  rw [dropEntry, dieOf_modDie _ _ _ hd]

theorem entries_makeReady (hd : d < 4) : (dieOf (makeReady s d k) d).entries =
    (dieOf s d).entries.map (fun x => if x.id = k then { x with state := 3, readyAt := ageFrom s x } else x) := by
  rw [makeReady, dieOf_of_dies (schedule_dies ..), entries_modEntry hd]

theorem agenda_makeReady (s : State) (d k : Nat) :
    (makeReady s d k).agenda = s.agenda ++ [⟨s.now + 65536, .priorityAging d k⟩] := by
  rw [makeReady, agenda_schedule _ _ _ (by decide), modEntry_agenda, modEntry_now]

theorem mem_makeReady (s : State) (d k : Nat) : (makeReady s d k).mem = s.mem := by
  rw [makeReady, schedule_mem, modEntry_mem]

theorem modDie_self (hd : d < 4) {f : Die → Die} (hf : f (dieOf s d) = dieOf s d) : modDie s d f = s := by
  have hdie : dieOf s d = s.dies[d] := dif_pos hd
  rw [modDie, dif_pos hd, ← hdie, hf, hdie, Vector.set_getElem_self]

/-- A change that is none for the entries of a number is none for the machine. -/
theorem modEntry_self (hd : d < 4) {f : Entry → Entry} (hf : ∀ x ∈ (dieOf s d).entries, x.id = k → f x = x) :
    modEntry s d k f = s := by
  refine modDie_self hd ?_
  have hsame : modWhere (fun e => e.id == k) f (dieOf s d).entries = (dieOf s d).entries := by
    rw [modWhere_id]
    conv_rhs => rw [← List.map_id (dieOf s d).entries]
    refine List.map_congr_left (fun x hx => ?_)
    by_cases hk : x.id = k
    · rw [if_pos hk, hf x hx hk, id]
    · rw [if_neg hk, id]
  rw [hsame]

end

/-! A record's arrival, its reload, its conditions, its age (R155 to R157) -/

section
variable {s : State} {d k : Nat} {e : Entry} (hd : d < 4) (he : entryOf s d k = some e)
include he

theorem entryOf_id : e.id = k := by
  simpa using List.find?_some he

theorem taskRecordArrival_stores (hroom : storeCount (dieOf s d) < 4096) :
    exec (.taskRecordArrival d k) s = .next (storeEntry s d e) := by
  show execTaskRecordArrival d k s = _
  rw [execTaskRecordArrival, he]
  exact if_neg (Nat.not_le.mpr hroom)

theorem taskRecordArrival_spills (hfull : 4096 ≤ storeCount (dieOf s d)) : exec (.taskRecordArrival d k) s =
    .next (storeUnits (modEntry s d k (fun e => { e with state := 1, slot := freeSpill (dieOf s d) }))
      (spillPa (dieOf s d) (freeSpill (dieOf s d))) (wordBytes (e.record.take 8))) := by
  show execTaskRecordArrival d k s = _
  rw [execTaskRecordArrival, he]
  exact if_pos hfull

theorem storeEntry_ready (hmet : condsMet s d e = true) : storeEntry s d e = makeReady s d k := by
  rw [storeEntry, if_pos hmet, entryOf_id he]

theorem storeEntry_waits (hunmet : condsMet s d e = false) :
    storeEntry s d e = modEntry s d k (fun e => { e with state := 2 }) := by
  rw [storeEntry, if_neg (by simp [hunmet]), entryOf_id he]

theorem taskConditionMet_ready (hstate : e.state = 2) (hres : e.resume = none) (hmet : condsMet s d e = true)
    (hbar : (recWord e.record 7).getLsbD 60 = true → (barCond s d e).2 = s) :
    exec (.taskConditionMet d k) s = .next (makeReady s d k) := by
  show execTaskConditionMet d k s = _
  rw [execTaskConditionMet, he]
  refine congrArg Host.Outcome.next ((if_pos ⟨hstate, by rw [hres]; rfl, hmet⟩).trans ?_)
  split
  next hb => rw [hbar hb]
  next => rfl

theorem priorityAging_raises (hstate : e.state = 3) : exec (.priorityAging d k) s = .next (schedule
    (modEntry s d k (fun e => { e with prio := min 3 (e.prio + 1) })) 65536 (.priorityAging d k)) := by
  show execPriorityAging d k s = _
  rw [execPriorityAging, he]
  exact congrArg Host.Outcome.next (if_pos hstate)

include hd

omit he in
theorem entries_ready (hres : e.resume = none) (huniq : ∀ x ∈ (dieOf s d).entries, x.id = k → x = e) :
    (dieOf (makeReady s d k) d).entries =
      (dieOf s d).entries.map (fun x => if x.id = k then { x with state := 3, readyAt := s.now } else x) := by
  rw [entries_makeReady hd]
  refine List.map_congr_left (fun x hx => ?_)
  by_cases hk : x.id = k
  · have hage : ageFrom s x = s.now := by rw [huniq x hx hk, ageFrom, hres]; rfl
    rw [if_pos hk, if_pos hk, hage]
  · rw [if_neg hk, if_neg hk]

theorem spillReload_ready (huniq : ∀ x ∈ (dieOf s d).entries, x.id = k → x = e) (hroom : storeCount (dieOf s d) < 3840)
    (hold : oldest ((dieOf s d).entries.filter (fun e => e.state == 1)) = some e)
    (hopen : inHbm (spillPa (dieOf s d) e.slot) = true → inWindow s = false) (hload : reloaded s d e = (e, s))
    (hmet : condsMet s d e = true) : exec (.spillReload d) s = .next (makeReady s d k) := by
  show execSpillReload d s = _
  have hself : modEntry s d e.id (fun _ => e) = s :=
    modEntry_self hd (fun x hx hk => (huniq x hx (hk.trans (entryOf_id he))).symm)
  rw [execSpillReload, if_neg (Nat.not_le.mpr hroom), hold]
  dsimp only
  rw [hbmOpen hopen, if_neg Bool.false_ne_true, hload]
  dsimp only
  rw [hself, storeEntry_ready he hmet]

end

/-! The pick (R157, R158) -/

section
variable {s : State} {d c : Nat} {e : Entry}

theorem schedulerPick_picks (hrun : (dieOf s d).run = true) (hhold : holding s = false) (hbest : bestEntry s d = some (e, c)) :
    exec (.schedulerPick d) s = match e.resume with
      | some f => .next (beginRestore (modEntry s d e.id (fun e => { e with state := 4, core := c })) c f)
      | none => .next (if (jobEntry s e.job).1 then beginStart s d e c else discardRecord s d e) := by
  show execSchedulerPick d s = _
  rw [execSchedulerPick, hrun, hhold, hbest]
  rfl

/-! A start -/

/-- The die's part of a start: the entry is on its core, and frame i is taken. -/
def startEntered (s : State) (d : Nat) (e : Entry) (c i : Nat) : State :=
  modDie (modEntry s d e.id (fun e => { e with state := 4, core := c })) d
    (fun x => { x with usedFrames := x.usedFrames ++ [i] })

/-- The resources of a start taken (R158, R160): the frame, the TID, the contexts. -/
def startTaken (s : State) (d : Nat) (e : Entry) (c tid i : Nat) : State :=
  ((freeChans s c).take (recCopy e.record) ++ (if recFab e.record then some (8 * c + 4) else none).toList).foldl
    (fun s x => modEngine s x (fun g => { g with held := some (d * 4096 + i) }))
    { startEntered s d e c i with liveTids := (startEntered s d e c i).liveTids ++ [e.job * 2 ^ 15 + tid] }

/-- The thread of a record picked, as its start begins (R158, R164). -/
def pickedThread (s : State) (d : Nat) (e : Entry) (c tid i : Nat) : Thread :=
  { Thread.start (d * 4096 + i) e.job e.record (jobEntry s e.job).2 c tid ((mgetD 0 (e.job * 2 ^ 15 + tid) s.finals + 1) % 2 ^ 32)
      ((freeChans s c).take (recCopy e.record)) (if recFab e.record then some (8 * c + 4) else none) (recPrio e.record) with
    phase := .restoring, near := e.near }

/-- The start message on its way to the core (R164). -/
def startSent (s : State) (d c : Nat) (t : Thread) : State :=
  schedule (takeFree (setThread s c t)).2 (42 + launchDelay (takeFree (setThread s c t)).2 d s.free) (.threadStart c)

/-- The clocks until that message arrives. -/
def startDelay (s : State) (d : Nat) (e : Entry) (c tid i : Nat) : Nat :=
  42 + launchDelay (takeFree (setThread (startTaken s d e c tid i) c (pickedThread s d e c tid i))).2 d
    (startTaken s d e c tid i).free

theorem view_foldl_modEngine {α : Type} (v : State → α) (hv : ∀ s x f, v (modEngine s x f) = v s) (f : Engine → Engine)
    (l : List Nat) (s : State) : v (l.foldl (fun s x => modEngine s x f) s) = v s :=
  view_foldl v (fun s x => hv s x f) l s

theorem startTaken_fields (s : State) (d : Nat) (e : Entry) (c tid i : Nat) :
    (startTaken s d e c tid i).jobs = s.jobs ∧ (startTaken s d e c tid i).now = s.now ∧
    (startTaken s d e c tid i).mem = s.mem ∧ (startTaken s d e c tid i).agenda = s.agenda ∧
    (startTaken s d e c tid i).liveTids = s.liveTids ++ [e.job * 2 ^ 15 + tid] := by
  refine ⟨(view_foldl_modEngine State.jobs (fun _ _ _ => rfl) ..).trans ?_,
    (view_foldl_modEngine State.now (fun _ _ _ => rfl) ..).trans ?_,
    (view_foldl_modEngine State.mem (fun _ _ _ => rfl) ..).trans ?_,
    (view_foldl_modEngine State.agenda (fun _ _ _ => rfl) ..).trans ?_,
    (view_foldl_modEngine State.liveTids (fun _ _ _ => rfl) ..).trans ?_⟩
  all_goals simp [startEntered, modEntry]

theorem startTaken_die (hd : d < 4) (e : Entry) (c tid i : Nat) :
    (dieOf (startTaken s d e c tid i) d).usedFrames = (dieOf s d).usedFrames ++ [i] ∧
    (dieOf (startTaken s d e c tid i) d).entries =
      (dieOf s d).entries.map (fun x => if x.id = e.id then { x with state := 4, core := c } else x) := by
  have hdies : (startTaken s d e c tid i).dies = (startEntered s d e c i).dies :=
    view_foldl_modEngine State.dies (fun _ _ _ => rfl) ..
  rw [dieOf_of_dies hdies, startEntered, dieOf_modDie _ _ _ hd]
  refine ⟨?_, entries_modEntry hd _⟩
  rw [modEntry, dieOf_modDie _ _ _ hd]

theorem beginStart_eq {tid i : Nat} (htid : freeTid s e.job = some tid) (hframe : freeFrame (dieOf s d) = some i) :
    beginStart s d e c = startSent (startTaken s d e c tid i) d c (pickedThread s d e c tid i) := by
  have hjob : jobEntry (startTaken s d e c tid i) e.job = jobEntry s e.job := by
    rw [jobEntry, (startTaken_fields s d e c tid i).1, jobEntry]
  rw [pickedThread, ← hjob]
  unfold beginStart
  rw [htid, hframe]
  rfl

theorem schedulerPick_starts {tid i : Nat} (hd : d < 4) (hrun : (dieOf s d).run = true) (hhold : holding s = false)
    (hbest : bestEntry s d = some (e, c)) (hres : e.resume = none) (hjob : (jobEntry s e.job).1 = true)
    (htid : freeTid s e.job = some tid) (hframe : freeFrame (dieOf s d) = some i) :
    ∃ s' t' n, exec (.schedulerPick d) s = .next s' ∧ threadOf s' c = some t' ∧ t'.phase = .restoring ∧ t'.frame = d * 4096 + i ∧
      t'.job = e.job ∧ t'.record = e.record ∧ t'.det.tid = tid ∧ t'.regs = (jobEntry s e.job).2 ∧ t'.handler = false ∧
      (dieOf s' d).usedFrames = (dieOf s d).usedFrames ++ [i] ∧ s'.liveTids = s.liveTids ++ [e.job * 2 ^ 15 + tid] ∧
      (dieOf s' d).entries = (dieOf s d).entries.map (fun x => if x.id = e.id then { x with state := 4, core := c } else x) ∧
      42 ≤ n ∧ s'.agenda = s.agenda ++ [⟨s.now + n, .threadStart c⟩] ∧ s'.mem = s.mem := by
  have hpick : exec (.schedulerPick d) s =
      .next (startSent (startTaken s d e c tid i) d c (pickedThread s d e c tid i)) := by
    rw [schedulerPick_picks hrun hhold hbest, hres, hjob, beginStart_eq htid hframe]
    rfl
  obtain ⟨-, hnow, hmem, hagenda, htids⟩ := startTaken_fields s d e c tid i
  obtain ⟨hframes, hentries⟩ := startTaken_die (s := s) hd e c tid i
  have hdelay : 42 ≤ startDelay s d e c tid i := Nat.le_add_right ..
  refine ⟨_, pickedThread s d e c tid i, startDelay s d e c tid i, hpick, ?_, rfl, rfl, rfl, rfl, rfl, rfl, rfl, ?_, ?_, ?_,
    hdelay, ?_, ?_⟩
  · rw [startSent, threadOf_of_cores (schedule_cores ..)]
    exact threadOf_setThread ..
  · rw [startSent, dieOf_of_dies (schedule_dies ..)]
    exact hframes
  · rw [startSent, schedule_liveTids]
    exact htids
  · rw [startSent, dieOf_of_dies (schedule_dies ..)]
    exact hentries
  · rw [startSent, ← startDelay, agenda_schedule _ _ _ (by omega), ← hagenda, ← hnow]
    rfl
  · rw [startSent, schedule_mem]
    exact hmem

/-! A resume, and a record discarded -/

theorem beginRestore_eq {f : Nat} {sv : Saved} (hsv : mget f s.saved = some sv) : beginRestore s c f =
    schedule (setThread { s with saved := mdel f s.saved } c { sv.thread with phase := .restoring }) (frameTime s f 1400)
      (.restoreComplete c) := by
  rw [beginRestore, hsv]
  rfl

theorem schedulerPick_resumes {f : Nat} {sv : Saved} (hrun : (dieOf s d).run = true) (hhold : holding s = false)
    (hbest : bestEntry s d = some (e, c)) (hres : e.resume = some f) (hsv : mget f s.saved = some sv) :
    ∃ s', exec (.schedulerPick d) s = .next s' ∧ threadOf s' c = some { sv.thread with phase := .restoring } ∧
      s'.saved = mdel f s.saved ∧ s'.agenda = s.agenda ++ [⟨s.now + frameTime s f 1400, .restoreComplete c⟩] ∧ s'.mem = s.mem := by
  have hsv' : mget f (modEntry s d e.id (fun e => { e with state := 4, core := c })).saved = some sv := by rwa [modEntry_saved]
  have htime : frameTime (modEntry s d e.id (fun e => { e with state := 4, core := c })) f 1400 = frameTime s f 1400 :=
    frameTime_congr (framePa_modEntry ..) (modEntry_now ..) _
  have hpos : frameTime s f 1400 ≠ 0 := by have := frameTime_ge s f; omega
  have hpick := schedulerPick_picks hrun hhold hbest
  rw [hres] at hpick
  refine ⟨_, hpick, ?_⟩
  rw [beginRestore_eq hsv', htime, modEntry_saved, threadOf_of_cores (schedule_cores ..), schedule_saved, schedule_mem,
    agenda_schedule _ _ _ hpos]
  refine ⟨threadOf_setThread .., rfl, ?_, ?_⟩
  · rw [setThread_agenda, setThread_now]
    dsimp only
    rw [modEntry_agenda, modEntry_now]
  · rw [setThread_mem]
    exact modEntry_mem ..

/-- A record of an invalid job leaves the store; a replay's is noted by the auditor, any other by the task fault (R388). -/
theorem discardRecord_logs (s : State) (d : Nat) (e : Entry) :
    ∃ a, OnlyLogs { dropEntry s d e.id with auditor := a } (discardRecord s d e) := by
  unfold discardRecord
  split
  · exact ⟨_, .refl _⟩
  · exact ⟨(dropEntry s d e.id).auditor, onlyLogs_fqFault ..⟩

theorem discardRecord_entries (hd : d < 4) (e : Entry) : ∀ x ∈ (dieOf (discardRecord s d e) d).entries, x.id ≠ e.id := by
  obtain ⟨a, h⟩ := discardRecord_logs s d e
  have hentries : (dieOf (discardRecord s d e) d).entries = (dieOf s d).entries.filter (fun x => x.id != e.id) :=
    (h.entries d).trans (entries_dropEntry hd)
  intro x hx
  rw [hentries] at hx
  simpa using (List.mem_filter.mp hx).2

theorem discardRecord_threads (s : State) (d : Nat) (e : Entry) (x : Nat) :
    (threadOf (discardRecord s d e) x).isSome = (threadOf s x).isSome := by
  obtain ⟨a, h⟩ := discardRecord_logs s d e
  rw [h.isSome_thread, threadOf_of_cores (s' := { dropEntry s d e.id with auditor := a }) (modDie_cores ..)]

theorem schedulerPick_discards (hrun : (dieOf s d).run = true) (hhold : holding s = false) (hbest : bestEntry s d = some (e, c))
    (hres : e.resume = none) (hjob : (jobEntry s e.job).1 = false) :
    exec (.schedulerPick d) s = .next (discardRecord s d e) := by
  rw [schedulerPick_picks hrun hhold hbest, hres]
  exact congrArg Host.Outcome.next (if_neg (by simp [hjob]))

/-! The scheduler's control register (R157, R392) -/

theorem schedCtlWrite_sets {v : Word} (h : v.getLsbD 0 = false ∨ s.plat.accept.getLsbD 63 = true) :
    exec (.schedCtlWrite d v) s = .next (modDie s d (fun x => { x with run := v.getLsbD 0 })) := by
  show execSchedCtlWrite d v s = _
  rw [execSchedCtlWrite, if_neg (by rcases h with h | h <;> rw [h] <;> simp)]

theorem schedCtlWrite_locked {v : Word} (hrun : v.getLsbD 0 = true) (hlock : s.plat.accept.getLsbD 63 = false) :
    exec (.schedCtlWrite d v) s = .next s := by
  show execSchedCtlWrite d v s = _
  rw [execSchedCtlWrite, if_pos (by rw [hrun, hlock]; rfl)]

end

/-- Settles O50: each event by what its function does with the entries of its die. -/
theorem schedulerEvents : Obligations.SchedulerEvents := by
  unfold Obligations.SchedulerEvents
  refine ⟨?_, ?_, ?_, ?_⟩
  · intro d k s e hd he hres huniq
    have hready := entries_ready hd hres huniq
    refine ⟨fun hroom hmet => ?_, fun hroom hunmet => ?_, fun hfull => ?_, fun hroom hold hopen hload hmet => ?_,
      fun hstate hmet hbar => ?_, fun hstate => ?_⟩
    · exact ⟨_, by rw [taskRecordArrival_stores he hroom, storeEntry_ready he hmet], hready, mem_makeReady .., agenda_makeReady ..⟩
    · exact ⟨_, by rw [taskRecordArrival_stores he hroom, storeEntry_waits he hunmet], entries_modEntry hd _, modDie_mem ..⟩
    · refine ⟨_, taskRecordArrival_spills he hfull, ?_, fun a b htarget => ?_⟩
      · rw [(onlyLogs_storeUnits ..).entries, entries_modEntry hd]
      · rw [mem_storeUnits_sram ((targetOf_modEntry ..).trans htarget), modEntry_mem]
    · exact ⟨_, spillReload_ready hd he huniq hroom hold hopen hload hmet, hready⟩
    · exact ⟨_, taskConditionMet_ready he hstate hres hmet hbar, hready, mem_makeReady ..⟩
    · refine ⟨_, priorityAging_raises he hstate, ?_, ?_⟩
      · rw [dieOf_of_dies (schedule_dies ..), entries_modEntry hd]
      · rw [agenda_schedule _ _ _ (by decide), modEntry_agenda, modEntry_now]
  · intro d c tid i s e hd hrun hhold hbest hres
    exact ⟨fun hjob htid hframe => schedulerPick_starts hd hrun hhold hbest hres hjob htid hframe, fun hjob =>
      ⟨_, schedulerPick_discards hrun hhold hbest hres hjob, discardRecord_entries hd e, discardRecord_threads s d e⟩⟩
  · intro d c f s e sv _ hrun hhold hbest hres hsv
    obtain ⟨s', hpick, hthread, hsaved, hagenda, hmem⟩ := schedulerPick_resumes hrun hhold hbest hres hsv
    exact ⟨s', hpick, hthread, hsaved, frameTime_ge s f, hagenda, hmem⟩
  · intro d v s hd
    exact ⟨fun h => ⟨_, schedCtlWrite_sets h, by rw [dieOf_modDie _ _ _ hd], fun x hx => dieOf_modDie_other _ _ _ _ hx,
      modDie_cores .., modDie_mem ..⟩, schedCtlWrite_locked⟩

end Sys2Proof.Machine

namespace Sys2Proof.Machine

/-! Pre-emption and kill (R161, R173) -/

section
variable {s : State} {c : Nat} {t : Thread} (ht : threadOf s c = some t)
include ht

theorem preemptionTaken_saves (hh : t.handler = false) : exec (.preemptionTaken c) s =
    .next (setThread s c { t with preempt := false, phase := .saving false s.now, posFault := none }) := by
  show execPreemptionTaken c s = _
  rw [execPreemptionTaken, modThread_some ht, if_neg (by simp [hh])]

theorem killTaken_ends : exec (.killTaken c) s =
    .next (setThread s c { t with phase := .ending, preempt := false, killBy := some (s.now + 65536) }) := by
  show execKillTaken c s = _
  rw [execKillTaken, modThread_some ht]

variable {d : Nat} (hd : coreDie c = d) (hc : c < 2048)
include hd hc

theorem schedPreempt_asks : exec (.schedPreempt d c) s = .next (setThread s c { t with preempt := true }) := by
  show execSchedPreempt d c s = _
  rw [execSchedPreempt, if_pos ⟨hd, hc⟩, modThread_some ht]

theorem schedKill_asks : exec (.schedKill d c) s = .next (setThread s c { t with kill := true }) := by
  show execSchedKill d c s = _
  rw [execSchedKill, if_pos ⟨hd, hc⟩, modThread_some ht]

end

/-! Trap entry (R335) -/

theorem fqHead_fqFault {s : State} {d : Nat} (hd : d < 4) (hroom : fqRoom (dieOf s d) = true) (hheld : (dieOf s d).fqHeld = [])
    (ws : List Word) : (dieOf (fqFault s d ws) d).fqHead = ((dieOf s d).fqHead + 1) % 2 ^ 32 := by
  rw [fqFault, if_pos (by rw [hroom, hheld]; rfl), fqHead_fqWrite _ hd]

theorem onlyLogs_writeTrapRecord (s : State) (c : Nat) (t : Thread) (f : FaultRec) : OnlyLogs s (writeTrapRecord s c t f) :=
  (onlyLogs_storeUnits ..).trans (onlyLogs_fqFault ..)

theorem fqHead_writeTrapRecord {s : State} {c : Nat} (hroom : fqRoom (dieOf s (coreDie c)) = true)
    (hheld : (dieOf s (coreDie c)).fqHeld = []) (t : Thread) (f : FaultRec) :
    (dieOf (writeTrapRecord s c t f) (coreDie c)).fqHead = ((dieOf s (coreDie c)).fqHead + 1) % 2 ^ 32 := by
  have hdie (pa : Nat) (bs : List Byte) : dieOf (storeUnits s pa bs) (coreDie c) = dieOf s (coreDie c) :=
    dieOf_of_dies (dies_of_besideStores (besideStores_storeUnits ..)) _
  rw [writeTrapRecord, fqHead_fqFault (coreDie_lt c) (by rw [hdie, hroom]) (by rw [hdie, hheld]), hdie]

/-- The handler of a trap stands on its core, its thread's context marked (R335 step 3). -/
def trapHandled (s : State) (c : Nat) (sv : Saved) (f : FaultRec) : State :=
  (takeFree (setThread { s with saved := mput sv.thread.frame { sv with handling := true } s.saved } c
    (handlerThread s c sv.thread f true))).2

/-- With no handler the thread stays saved and held (R335). -/
def trapHeld (s : State) (c : Nat) (sv : Saved) : State :=
  modCore { s with saved := mput sv.thread.frame { sv with held := true } s.saved } c (fun k => { k with trapFrame := none })

/-- What follows the writing of a trap's entry. -/
def trapAnswer (s : State) (c : Nat) (sv : Saved) (f : FaultRec) : Out :=
  if sv.thread.regs.trapvec.getLsbD 0 then
    let s := { s with saved := mput sv.thread.frame { sv with handling := true } s.saved }
    let s := setThread s c (handlerThread s c sv.thread f true)
    let (n, s) := takeFree s
    .next (schedule s (8 + Config.delay n) (.threadStart c))
  else
    let s := { s with saved := mput sv.thread.frame { sv with held := true } s.saved }
    .next (modCore s c (fun k => { k with trapFrame := none }))

section
variable {s : State} {c : Nat} {sv : Saved} {f : FaultRec} (htrap : (coreOf s c).trapFrame = some sv.thread.frame)
  (hsaved : mget sv.thread.frame s.saved = some sv) (hfault : sv.thread.posFault = some f)
include htrap hsaved hfault

/-- The entry written, a trap's thread goes on in its handler or waits. -/
theorem trapEntry_eq : exec (.trapEntry c) s = trapAnswer (writeTrapRecord s c sv.thread f) c sv f := by
  show execTrapEntry c s = _
  rw [execTrapEntry, htrap, Option.bind_some, hsaved]
  show (match sv.thread.posFault with
    | none => Host.Outcome.next s
    | some f => trapAnswer (writeTrapRecord s c sv.thread f) c sv f) = _
  rw [hfault]

end

theorem trapAnswer_handles {sv : Saved} (hen : sv.thread.regs.trapvec.getLsbD 0 = true) (s : State) (c : Nat) (f : FaultRec) :
    trapAnswer s c sv f = .next (schedule (trapHandled s c sv f) (8 + Config.delay s.free) (.threadStart c)) := by
  rw [trapAnswer, if_pos hen]
  rfl

theorem trapAnswer_holds {sv : Saved} (hen : sv.thread.regs.trapvec.getLsbD 0 = false) (s : State) (c : Nat) (f : FaultRec) :
    trapAnswer s c sv f = .next (trapHeld s c sv) := by
  rw [trapAnswer, if_neg (ne_true_of_eq_false hen)]
  rfl

/-- The registers that a handler starts with (R335 step 3). -/
theorem handlerThread_regs (s : State) (c : Nat) (t : Thread) (f : FaultRec) (prec : Bool) :
    (handlerThread s c t f prec).r.s[1] = BitVec.ofNat 64 (framePa s t.frame) ∧
    (handlerThread s c t f prec).r.s[2] = entryQW0 f.cls f.cause prec true f.req c f.ctx := by
  simp [handlerThread, Thread.start]

theorem handlerThread_pc (s : State) (c : Nat) (t : Thread) (f : FaultRec) (prec : Bool) :
    (handlerThread s c t f prec).q.seg = t.regs.trapvec &&& 0x00FFFFFFFFFFFFC0 ∧ (handlerThread s c t f prec).q.idx = 0 := by
  refine ⟨?_, rfl⟩
  show t.regs.trapvec &&& 0x00FFFFFFFFFFFFC0 &&& 0x00FFFFFFFFFFFFC0 = _
  rw [BitVec.and_assoc, BitVec.and_self]

/-! What an ended or killed thread gives back (R158, R162) -/

section
variable {s : State} {t : Thread}

theorem sampleEnded_unsampled (h : t.sampled = false) : sampleEnded s t = s := by
  rw [sampleEnded, h]
  rfl

theorem logPending_nothing (htide : t.tide.pending = []) (htime : t.timeouts = []) (hover : t.overruns = []) (c : Nat) :
    logPending s c t = s := by
  rw [logPending, htide, htime, takePending, hover]
  rfl

/-- The frame, the TID and the final count given back, of a thread that is in no group. -/
def givenBack (s : State) (t : Thread) : State :=
  modDie { s with finals := mput (t.job * 2 ^ 15 + t.det.tid) ((t.det.scnt + 1) % 2 ^ 32) s.finals,
                  liveTids := s.liveTids.filter (· ≠ t.job * 2 ^ 15 + t.det.tid) }
    (t.frame / 4096) (fun d => { d with usedFrames := d.usedFrames.filter (· ≠ t.frame % 4096) })

theorem retire_alone (hgroups : t.groups = []) : retire s t = freeReservations (givenBack s t) t := by
  rw [retire, leaveAll, hgroups]
  rfl

theorem view_freeReservations {α : Type} (v : State → α) (hv : ∀ s x f, v (modEngine s x f) = v s) (s : State) (t : Thread) :
    v (freeReservations s t) = v s := view_foldl_modEngine v hv _ _ s

theorem retire_fields (hgroups : t.groups = []) :
    (retire s t).finals = mput (t.job * 2 ^ 15 + t.det.tid) ((t.det.scnt + 1) % 2 ^ 32) s.finals ∧
    (retire s t).liveTids = s.liveTids.filter (· ≠ t.job * 2 ^ 15 + t.det.tid) ∧
    (retire s t).mem = s.mem ∧ (retire s t).saved = s.saved := by
  rw [retire_alone hgroups]
  refine ⟨(view_freeReservations State.finals (fun _ _ _ => rfl) ..).trans ?_,
    (view_freeReservations State.liveTids (fun _ _ _ => rfl) ..).trans ?_,
    (view_freeReservations State.mem (fun _ _ _ => rfl) ..).trans ?_,
    (view_freeReservations State.saved (fun _ _ _ => rfl) ..).trans ?_⟩
  · rw [givenBack, modDie_finals]
  · rw [givenBack, modDie_liveTids]
  · rw [givenBack, modDie_mem]
  · rw [givenBack, modDie_saved]

theorem retire_frame (hgroups : t.groups = []) (hd : t.frame / 4096 < 4) :
    t.frame % 4096 ∉ (dieOf (retire s t) (t.frame / 4096)).usedFrames := by
  have hdies : (retire s t).dies = (givenBack s t).dies := by
    rw [retire_alone hgroups]
    exact view_freeReservations State.dies (fun _ _ _ => rfl) ..
  rw [dieOf_of_dies hdies, givenBack, dieOf_modDie _ _ _ hd]
  simp

theorem retire_tid (hgroups : t.groups = []) : t.job * 2 ^ 15 + t.det.tid ∉ (retire s t).liveTids ∧
    ∀ x ∈ (retire s t).liveTids, x ∈ s.liveTids := by
  obtain ⟨-, htids, -⟩ := retire_fields (s := s) hgroups
  rw [htids]
  exact ⟨by simp, fun x hx => (List.mem_filter.mp hx).1⟩

/-! The end (R162) -/

/-- Watch trackers stand at cores alone. -/
theorem dropTrackers_besideCores (s : State) (c : Nat) (t : Thread) :
    { dropTrackers s c t with cores := [] } = { s with cores := [] } := by
  refine view_foldl (fun s : State => { s with cores := [] }) (fun s w => ?_) _ s
  split
  · rfl
  · rfl

/-- The core is free, and nothing of its thread's requests comes any more. -/
def coreFreed (s : State) (c : Nat) : State := modCore (quietCore s c) c (fun k => { k with thread := none })

theorem threadOf_coreFreed (s : State) (c : Nat) : threadOf (coreFreed s c) c = none := by
  rw [threadOf, coreFreed, modCore, coreOf_setCore]

theorem endComplete_frees {c : Nat} (ht : threadOf s c = some t) (hphase : t.phase = .ending) (hdone : endDone s c t = true)
    (hh : t.handler = false) (hsampled : t.sampled = false) (hreplay : t.replay = false) (htide : t.tide.pending = [])
    (htime : t.timeouts = []) (hover : t.overruns = []) :
    exec (.endComplete c) s = .next (coreFreed (retire (dropTrackers s c t) t) c) := by
  have hxop : t.x.xop = none := by
    rw [endDone] at hdone
    simp only [Bool.and_eq_true, Option.isNone_iff_eq_none] at hdone
    obtain ⟨⟨⟨⟨⟨⟨-, -⟩, -⟩, hxop⟩, -⟩, -⟩, -⟩ := hdone
    exact hxop
  show execEndComplete c s = _
  rw [execEndComplete, ht]
  dsimp only
  rw [if_neg (not_not_intro hphase), hxop, if_neg (by simp), if_neg (by simp [hdone]), sampleEnded_unsampled hsampled,
    logPending_nothing htide htime hover, if_neg (by simp [hh]), if_pos (by simp [hreplay])]
  rfl

end

/-! The control processor's actions (R337) -/

section
variable {f k : Nat} {s : State} {sv : Saved} (hsaved : mget f s.saved = some sv) (hheld : sv.held = true)
  (hentry : sv.entry = some k)
include hsaved hheld hentry

theorem fqResume_readies : exec (.fqResume f) s =
    .next (makeReady { s with saved := mput f { sv with held := false } s.saved } (f / 4096) k) := by
  show execFqResume f s = _
  rw [execFqResume, hsaved]
  dsimp only
  rw [hheld, hentry]

theorem fqKill_retires (hsampled : sv.thread.sampled = false) : exec (.fqKill f) s =
    .next (dropEntry (retire { s with saved := mdel f s.saved } sv.thread) (f / 4096) k) := by
  show execFqKill f s = _
  rw [execFqKill, hsaved]
  dsimp only
  rw [if_neg (by simp [hheld]), sampleEnded_unsampled hsampled, hentry]

omit hheld hentry in
/-- A held entry made ready is as old as its save (log entry 101). -/
theorem makeReady_aged (hd : f / 4096 < 4) {e : Entry} (he : e ∈ (dieOf s (f / 4096)).entries) (hid : e.id = k)
    (hres : e.resume = some f) :
    { e with state := 3, readyAt := sv.savedAt } ∈ (dieOf (makeReady s (f / 4096) k) (f / 4096)).entries := by
  have hage : ageFrom s e = sv.savedAt := by rw [ageFrom, hres, Option.bind_some, hsaved]
  rw [entries_makeReady hd]
  refine List.mem_map.mpr ⟨e, he, ?_⟩
  rw [if_pos hid, hage]

end

theorem again_keeps {α : Type} (v : State → α) (hv : ∀ s d e, v (schedule s d e) = v s) (s : State) (ctx : Nat) :
    v (again s ctx) = v s := by
  unfold again
  split
  · rfl
  · exact hv ..

section
variable {ctx : Nat} {s : State} {h : FaultRec} (hctx : ctx < 0x4000) (hno : ctx % 8 < 5) (hhalt : (engineOf s ctx).halted = some h)
include hctx hno hhalt

theorem ctxHalted_engine : ctxHalted s ctx = some h := by
  rw [ctxHalted, if_neg (Nat.not_le.mpr hctx), if_neg (by omega), hhalt]

/-- A halted engine's work at its start again: its records read anew, its fabric operations as `ops` has them. -/
def redone (ops : List FabOp → List FabOp) (e : Engine) : Engine :=
  { e with halted := none, begun := false, words := [], pages := [], piece := 0, counted := false, hbmAt := none,
           giveUp := false, ops := ops e.ops }

/-- A fabric operation from its beginning. -/
def fabRedone (o : FabOp) : FabOp := { o with off := 0, waiting := [], ctrSent := false, landed := [] }

theorem fqRestart_redoes : exec (.fqRestart ctx) s = .next (again (modEngine s ctx
    (redone (fun l => if ctx % 8 = 4 then l.map fabRedone else []))) ctx) := by
  show execFqRestart ctx s = _
  rw [execFqRestart, ctxHalted_engine hctx hno hhalt, if_neg (by simp [hctx]), if_neg (by omega)]
  rfl

theorem fqAbandon_empties (hfab : ctx % 8 = 4) :
    exec (.fqAbandon ctx) s = .next (modEngine s ctx (fun e => emptied e e.last)) := by
  show execFqAbandon ctx s = _
  rw [execFqAbandon, abandonCtx, ctxHalted_engine hctx hno hhalt, if_neg (by simp), if_neg (Nat.not_le.mpr hctx),
    if_neg (by omega), if_pos hfab]

end

theorem fqAbandon_probe {c : Nat} {s : State} {h : FaultRec} (hc : c < 2048) (hhalt : (coreOf s c).probe.halted = some h) :
    exec (.fqAbandon (8 * c + 5)) s = .next (modProbe s c (fun p => { p with halted := none, queue := [], tl := p.no })) := by
  have hcore : (8 * c + 5) / 8 = c := by omega
  have hhalted : ctxHalted s (8 * c + 5) = some h := by
    rw [ctxHalted, if_neg (by omega), if_pos (by omega), hcore, hhalt]
  show execFqAbandon (8 * c + 5) s = _
  rw [execFqAbandon, abandonCtx, hhalted, if_neg (by simp), if_neg (by omega), if_pos (by omega), hcore]

end Sys2Proof.Machine

namespace Sys2Proof.Machine

/-! Bytes of words (R1) -/

theorem leNat_leBytes (n v : Nat) : leNat (leBytes n v) = v % 2 ^ (8 * n) := by
  induction n generalizing v with
  | zero => simp [leBytes, leNat, Nat.mod_one]
  | succ n ih =>
    rw [leBytes, leNat, ih, show 2 ^ (8 * (n + 1)) = 256 * 2 ^ (8 * n) by rw [Nat.mul_succ, pow_add]; omega,
      Nat.mod_mul, BitVec.toNat_ofNat]

theorem leNat_word (w : Word) : leNat (leBytes 8 w.toNat) = w.toNat := by
  rw [leNat_leBytes, Nat.mod_eq_of_lt w.isLt]

theorem length_wordBytes (ws : List Word) : (wordBytes ws).length = 8 * ws.length := by
  induction ws with
  | nil => rfl
  | cons w r ih =>
    rw [show wordBytes (w :: r) = leBytes 8 w.toNat ++ wordBytes r from rfl, List.length_append, length_leBytes, ih,
      List.length_cons]
    omega

theorem wordBytes_word (ws : List Word) (n : Nat) (hn : n < ws.length) :
    ((wordBytes ws).drop (8 * n)).take 8 = leBytes 8 ws[n].toNat := by
  induction ws generalizing n with
  | nil => exact absurd hn (Nat.not_lt_zero _)
  | cons w r ih =>
    have hcons : wordBytes (w :: r) = leBytes 8 w.toNat ++ wordBytes r := rfl
    have hlen := length_leBytes 8 w.toNat
    cases n with
    | zero => rw [hcons, Nat.mul_zero, List.drop_zero, List.take_left' hlen, List.getElem_cons_zero]
    | succ n =>
      rw [hcons, Nat.mul_succ, Nat.add_comm, ← List.drop_drop, List.drop_left' hlen, ih n (by simpa using hn),
        List.getElem_cons_succ]

theorem memBytes_congr {m m' : List Host.Cell} {a n : Nat} (h : ∀ x, a ≤ x → x < a + n → memByte m' x = memByte m x) :
    memBytes m' a n = memBytes m a n := by
  induction n generalizing a with
  | zero => rfl
  | succ n ih =>
    rw [memBytes, memBytes, h a (Nat.le_refl a) (by omega), ih (fun x hlo hhi => h x (by omega) (by omega))]

theorem memBytes_memWrite_same (bs : List Byte) (m : List Host.Cell) (a : Nat) (hwf : Memory.wf m = true) :
    memBytes (memWrite m a bs) a bs.length = bs := by
  induction bs generalizing m a with
  | nil => rfl
  | cons b r ih =>
    rw [List.length_cons, memBytes, show memWrite m a (b :: r) = memWrite (memPut m a b) (a + 1) r from rfl,
      ih _ _ (wf_memPut m a b hwf), memByte_memWrite_outside r _ _ _ (by omega), memByte_memPut_same m a b hwf]

/-- A word of those written reads back. -/
theorem memNat_memWrite_word (m : List Host.Cell) (a : Nat) (ws : List Word) (hwf : Memory.wf m = true) (n : Nat)
    (hn : n < ws.length) : memNat (memWrite m a (wordBytes ws)) (a + 8 * n) 8 = ws[n].toNat := by
  have hlen : (wordBytes ws).length = 8 * n + (8 + 8 * (ws.length - n - 1)) := by rw [length_wordBytes]; omega
  have hall := memBytes_memWrite_same (wordBytes ws) m a hwf
  rw [hlen] at hall
  rw [memNat, ← take_memBytes _ _ (8 * (ws.length - n - 1)), ← drop_memBytes, hall, wordBytes_word ws n hn, leNat_word]

/-! The context written to its frame (R173, R175) -/

/-- The bytes below an address are as they were. -/
def SameBelow (a : Nat) (s s' : State) : Prop := ∀ x < a, memByte s'.mem x = memByte s.mem x

theorem SameBelow.trans {a : Nat} {s s' s'' : State} (h : SameBelow a s s') (h' : SameBelow a s' s'') : SameBelow a s s'' :=
  fun x hx => (h' x hx).trans (h x hx)

theorem mem_storeUnits_cases (s : State) (pa : Nat) (bs : List Byte) :
    (storeUnits s pa bs).mem = s.mem ∨ (storeUnits s pa bs).mem = memWrite s.mem pa bs := by
  unfold storeUnits
  split
  · exact .inl rfl
  · unfold storeNow
    split
    · exact .inr (mem_sramEffects ..)
    · dsimp only
      split
      · exact .inl rfl
      · split
        · split
          · exact .inl rfl
          · exact .inr rfl
        · rw [if_neg Bool.false_ne_true]
          exact .inr rfl
    · exact .inl rfl

theorem sameBelow_storeUnits {a pa : Nat} (h : a ≤ pa) (s : State) (bs : List Byte) : SameBelow a s (storeUnits s pa bs) := by
  intro x hx
  rcases mem_storeUnits_cases s pa bs with hmem | hmem <;> rw [hmem]
  exact memByte_memWrite_outside bs s.mem pa x (.inl (by omega))

theorem sameBelow_storeRows {a : Nat} (n : Nat) (s : State) (pa k : Nat) (m : Map Row) (h : a ≤ pa) :
    SameBelow a s (storeRows n s pa k m) := by
  induction n generalizing s pa k with
  | zero => exact fun _ _ => rfl
  | succ n ih => exact SameBelow.trans (sameBelow_storeUnits h _ _) (ih _ _ _ (by omega))

theorem onlyLogs_storeRows (n : Nat) (s : State) (pa k : Nat) (m : Map Row) : OnlyLogs s (storeRows n s pa k m) := by
  induction n generalizing s pa k with
  | zero => exact .refl s
  | succ n ih => exact (onlyLogs_storeUnits ..).trans (ih ..)

theorem onlyLogs_saveFrame (s : State) (c : Nat) (t : Thread) : OnlyLogs s (saveFrame s c t) := by
  unfold saveFrame
  exact (((((((((onlyLogs_storeUnits ..).trans (onlyLogs_storeUnits ..)).trans (onlyLogs_storeRows ..)).trans
    (onlyLogs_storeRows ..)).trans (onlyLogs_storeUnits ..)).trans (onlyLogs_storeUnits ..)).trans
    (onlyLogs_storeUnits ..)).trans (onlyLogs_storeUnits ..)).trans (onlyLogs_storeUnits ..))

/-- Beyond the scalar registers nothing of a save is written over them. -/
theorem sameBelow_saveFrame (s : State) (c : Nat) (t : Thread) : SameBelow (framePa s t.frame + frameCtl)
    (storeUnits s (framePa s t.frame) (wordBytes t.r.s.toList)) (saveFrame s c t) := by
  have hpart {n : Nat} (h : frameCtl ≤ n) : framePa s t.frame + frameCtl ≤ framePa s t.frame + n := Nat.add_le_add_left h _
  have htiles : frameCtl ≤ frameTiles := by decide
  have haccs : frameCtl ≤ frameAccs := by decide
  have hlandings : frameCtl ≤ frameLandings := by decide
  have hwatch : frameCtl ≤ frameWatch := by decide
  have hdet : frameCtl ≤ frameDet := by decide
  have hsnap : frameCtl ≤ frameSnap := by decide
  have hrest : frameCtl ≤ frameRest := by decide
  unfold saveFrame
  dsimp only
  exact .trans (sameBelow_storeUnits (Nat.le_refl _) _ _) (.trans (sameBelow_storeRows _ _ _ _ _ (hpart htiles))
    (.trans (sameBelow_storeRows _ _ _ _ _ (hpart haccs)) (.trans (sameBelow_storeUnits (hpart hlandings) _ _)
    (.trans (sameBelow_storeUnits (hpart hwatch) _ _) (.trans (sameBelow_storeUnits (hpart hdet) _ _)
    (.trans (sameBelow_storeUnits (hpart hsnap) _ _) (sameBelow_storeUnits (hpart hrest) _ _)))))))

/-- R175: the scalar registers stand at the frame's start. -/
theorem memNat_saveFrame {s : State} {t : Thread} {a b : Nat} (htarget : targetOf s (framePa s t.frame) = .sram a b)
    (hwf : Memory.wf s.mem = true) (c : Nat) (n : Fin 32) :
    memNat (saveFrame s c t).mem (framePa s t.frame + 8 * n.val) 8 = (t.r.s[n]).toNat := by
  have hsame := sameBelow_saveFrame s c t
  have hkept : memBytes (saveFrame s c t).mem (framePa s t.frame + 8 * n.val) 8 =
      memBytes (memWrite s.mem (framePa s t.frame) (wordBytes t.r.s.toList)) (framePa s t.frame + 8 * n.val) 8 := by
    rw [← mem_storeUnits_sram htarget]
    exact memBytes_congr (fun x _ hx => hsame x (by rw [frameCtl]; omega))
  rw [memNat, hkept]
  exact (memNat_memWrite_word s.mem _ t.r.s.toList hwf n.val (by simp)).trans (by simp)

/-! The context saved and the core freed (R173 to R175) -/

/-- The thread as its save leaves it. -/
def savedThread (s : State) (t : Thread) : Thread :=
  release { t with phase := .restoring, tide := saveTide s.weir.ring t.tide, attn := t.attn.filter (fun a => a == .pending 4 0) }

/-- The resume entry of a save. -/
def resumeEntry (s : State) (c : Nat) (t : Thread) : Entry :=
  { id := s.stamp, state := 2, record := t.record, resume := some t.frame, job := t.job, prio := t.prio, age := s.stamp,
    readyAt := 0, near := t.near, badr := 0, parent := none, core := c, replay := none, slot := 0 }

/-- The core free, and its thread's context kept beside resume entry k. -/
def coreLeft (s : State) (k c : Nat) (t : Thread) (forFault : Bool) : State :=
  let s := modCore (quietCore s c) c (fun k => { k with thread := none, trapFrame := if forFault then some t.frame else none })
  { s with saved := mput t.frame ⟨t, false, some k, false, s.now⟩ s.saved }

/-- The context kept, with its resume entry held back, and the core free. -/
def contextKept (s : State) (c : Nat) (t : Thread) (forFault : Bool) : State :=
  let r := newEntry s (coreDie c) 2 t.record (some t.frame) t.job t.prio c t.near 0 none
  coreLeft r.2 r.1 c t forFault

/-- What follows: the trap's entry, or the resume entry READY. -/
def saveAnswer (s : State) (c : Nat) (t : Thread) (forFault : Bool) : State :=
  if forFault then pushEvs (contextKept s c t forFault) [.trapEntry c]
  else makeReady (noteRestore (contextKept s c t forFault) t.frame) (coreDie c) s.stamp

theorem saveComplete_eq {s : State} {c : Nat} {t : Thread} {f : Bool} (ht : threadOf s c = some t) (hphase : t.phase = .writing f) :
    exec (.saveComplete c) s = .next (saveAnswer (dropTrackers (saveFrame s c (savedThread s t)) c (savedThread s t)) c
      (savedThread s t) f) := by
  show execSaveComplete c s = _
  -- the functions called stand as unknowns: the kernel is to compare texts, not to evaluate them
  obtain ⟨save, hs⟩ : ∃ save, save = saveFrame := ⟨_, rfl⟩
  obtain ⟨complete, hc⟩ : ∃ complete, complete = execSaveComplete := ⟨_, rfl⟩
  rw [← hc]
  delta execSaveComplete at hc
  rw [← hs] at hc ⊢
  rw [hc]
  beta_reduce
  rw [ht]
  dsimp -zeta only
  rw [hphase]
  dsimp -zeta only
  cases f
  · rfl
  · rfl

section
variable (s : State) (c : Nat) (t : Thread) (f : Bool)

theorem coreLeft_fields (k : Nat) : (coreLeft s k c t f).dies = s.dies ∧ (coreLeft s k c t f).mem = s.mem ∧
    (coreLeft s k c t f).saved = mput t.frame ⟨t, false, some k, false, s.now⟩ s.saved := ⟨rfl, rfl, rfl⟩

theorem core_coreLeft (k : Nat) : threadOf (coreLeft s k c t f) c = none ∧
    (coreOf (coreLeft s k c t f) c).trapFrame = (if f then some t.frame else none) := by
  have hcore : coreOf (coreLeft s k c t f) c = _ := coreOf_setCore ..
  rw [threadOf, hcore]
  exact ⟨rfl, rfl⟩

theorem entries_contextKept :
    (dieOf (contextKept s c t f) (coreDie c)).entries = (dieOf s (coreDie c)).entries ++ [resumeEntry s c t] := by
  rw [contextKept, dieOf_of_dies (coreLeft_fields ..).1, newEntry]
  dsimp only
  rw [dieOf_modDie _ _ _ (coreDie_lt c)]
  rfl

theorem saved_contextKept : (contextKept s c t f).saved = mput t.frame ⟨t, false, some s.stamp, false, s.now⟩ s.saved := by
  rw [contextKept, (coreLeft_fields ..).2.2, newEntry, modDie_now, modDie_saved]
  rfl

theorem mem_contextKept : (contextKept s c t f).mem = s.mem := by
  rw [contextKept, (coreLeft_fields ..).2.1, newEntry, modDie_mem, takeStamp_mem]

theorem noteRestore_keeps {α : Type} (v : State → α) (hv : ∀ (s : State) h, v { s with hbm := h } = v s) (n : Nat) :
    v (noteRestore s n) = v s := by
  unfold noteRestore
  split
  · exact hv ..
  · rfl

/-- What is neither of the dies nor of the time to come an answer to a save leaves. -/
theorem saveAnswer_fields : (saveAnswer s c t f).cores = (contextKept s c t f).cores ∧
    (saveAnswer s c t f).saved = (contextKept s c t f).saved ∧ (saveAnswer s c t f).mem = s.mem := by
  rw [← mem_contextKept s c t f, saveAnswer]
  cases f
  · rw [if_neg Bool.false_ne_true]
    generalize contextKept s c t false = s'
    rw [makeReady, schedule_cores, schedule_saved, schedule_mem, modEntry_saved, modEntry_mem, modEntry, modDie_cores]
    exact ⟨noteRestore_keeps s' State.cores (fun _ _ => rfl) _, noteRestore_keeps s' State.saved (fun _ _ => rfl) _,
      noteRestore_keeps s' State.mem (fun _ _ => rfl) _⟩
  · exact ⟨rfl, rfl, rfl⟩

/-- The resume entry stands in its die's store, READY where no fault is served. -/
theorem saveAnswer_entry : ∃ e ∈ (dieOf (saveAnswer s c t f) (coreDie c)).entries,
    e.id = s.stamp ∧ e.resume = some t.frame ∧ e.core = c ∧ e.state = (if f then 2 else 3) := by
  have hentry : resumeEntry s c t ∈ (dieOf (contextKept s c t f) (coreDie c)).entries := by
    rw [entries_contextKept]
    exact List.mem_append_right _ (List.mem_singleton_self _)
  rw [saveAnswer]
  cases f
  · rw [if_neg Bool.false_ne_true, entries_makeReady (coreDie_lt c),
      dieOf_of_dies (noteRestore_keeps _ State.dies (fun _ _ => rfl) _)]
    refine ⟨_, List.mem_map_of_mem hentry, ?_⟩
    rw [if_pos (show (resumeEntry s c t).id = s.stamp from rfl)]
    exact ⟨rfl, rfl, rfl, rfl⟩
  · exact ⟨_, hentry, rfl, rfl, rfl, rfl⟩

end

end Sys2Proof.Machine

namespace Sys2Proof.Machine

/-! A frame read back (R176) -/

theorem OnlyLogs.of_second {α : Type} {s s' : State} {r : α × State} {a : α} (e : r = (a, s')) (h : OnlyLogs s r.2) :
    OnlyLogs s s' := by
  rwa [e] at h

theorem onlyLogs_framePart (s : State) (c f off n : Nat) : OnlyLogs s (framePart s c f off n).2 := by
  have hread : ∀ {s w pa n ga}, OnlyLogs s (readPa s w pa n ga).2 := onlyLogs_readPa ..
  -- the functions called stand as unknowns: the kernel is to compare texts, not to evaluate them
  obtain ⟨read, hr⟩ : ∃ read, read = @readPa := ⟨_, rfl⟩
  obtain ⟨part, hp⟩ : ∃ part, part = framePart := ⟨_, rfl⟩
  rw [← hp]
  delta framePart at hp
  rw [← hr] at hread hp
  rw [hp]
  exact hread

theorem onlyLogs_loadRows (n : Nat) (s : State) (c pa k : Nat) (m : Map Row) : OnlyLogs s (loadRows n s c pa k m).2 := by
  induction n generalizing s pa k m with
  | zero => exact .refl s
  | succ n ih => exact (onlyLogs_readPa ..).trans (ih ..)

/-- A part taken into a context, where it could be read. -/
def takePart (g : Option (List Byte)) (f : Thread → List Byte → Thread) (t : Thread) : Thread :=
  match g with
  | some bs => f t bs
  | none => t

/-- The watch table from its part. -/
def takeWatches (t : Thread) (bs : List Byte) : Thread :=
  { t with watch := t.watch.zipIdx.map (fun w => takeWatch w.1 ((bs.drop (32 * w.2)).take 32)) }

/-- The detector state from its part. -/
def takeDetector (t : Thread) (bs : List Byte) : Thread := { t with det := takeDet t.det bs }

/-- The context with the parts after the control registers taken from its frame. -/
def restTaken (landings watch det snap rest : Option (List Byte)) (tiles accs : Map Row) (t : Thread) : Thread :=
  let t := takePart watch takeWatches t
  let t := takePart det takeDetector t
  let t := takePart landings takeLandings (takePart snap takeSnap (takePart rest takeRest t))
  { t with r := { t.r with tiles := tiles, accs := accs } }

theorem exists_pair {α β : Type} (r : α × β) : ∃ a b, r = (a, b) := ⟨r.1, r.2, rfl⟩

theorem loadFrame_eq (s : State) (c : Nat) (t : Thread) : ∃ landings watch det snap rest tiles accs s',
    loadFrame s c t = (restTaken landings watch det snap rest tiles accs (takePart (framePart s c t.frame 0 256).1 takeScalars
      (takePart (framePart (framePart s c t.frame 0 256).2 c t.frame frameCtl 256).1 takeCtl t)), s') ∧ OnlyLogs s s' := by
  have hparts : ∀ {s c f off n}, OnlyLogs s (framePart s c f off n).2 := onlyLogs_framePart ..
  have hrows : ∀ {n s c pa k m}, OnlyLogs s (loadRows n s c pa k m).2 := onlyLogs_loadRows ..
  -- the functions called stand as unknowns: the kernel is to compare texts, not to evaluate them
  obtain ⟨part, hpart⟩ : ∃ part, part = framePart := ⟨_, rfl⟩
  obtain ⟨rows, hrow⟩ : ∃ rows, rows = loadRows := ⟨_, rfl⟩
  obtain ⟨load, hload⟩ : ∃ load, load = loadFrame := ⟨_, rfl⟩
  rw [← hload]
  delta loadFrame at hload
  rw [← hpart] at hparts hload ⊢
  rw [← hrow] at hrows hload
  obtain ⟨regs, s1, h1⟩ := exists_pair (part s c t.frame 0 256)
  obtain ⟨ctl, s2, h2⟩ := exists_pair (part s1 c t.frame frameCtl 256)
  obtain ⟨tiles, s3, h3⟩ := exists_pair (rows 1024 s2 c (framePa s t.frame + frameTiles) 0 t.r.tiles)
  obtain ⟨accs, s4, h4⟩ := exists_pair (rows 256 s3 c (framePa s t.frame + frameAccs) 0 t.r.accs)
  obtain ⟨landings, s5, h5⟩ := exists_pair (part s4 c t.frame frameLandings 4352)
  obtain ⟨watch, s6, h6⟩ := exists_pair (part s5 c t.frame frameWatch 256)
  obtain ⟨det, s7, h7⟩ := exists_pair (part s6 c t.frame frameDet 128)
  obtain ⟨snap, s8, h8⟩ := exists_pair (part s7 c t.frame frameSnap 17408)
  obtain ⟨rest, s9, h9⟩ := exists_pair (part s8 c t.frame frameRest 1024)
  refine ⟨landings, watch, det, snap, rest, tiles, accs, s9, ?_, ?_⟩
  · rw [h1]
    dsimp only
    rw [h2, hload]
    beta_reduce
    extract_lets b from_
    have hb : b = framePa s t.frame := rfl
    simp -zeta only [hb, h1, h2, h3, h4, h5, h6, h7, h8, h9]
    rfl
  · exact ((((((((OnlyLogs.of_second h1 hparts).trans (.of_second h2 hparts)).trans (.of_second h3 hrows)).trans
      (.of_second h4 hrows)).trans (.of_second h5 hparts)).trans (.of_second h6 hparts)).trans (.of_second h7 hparts)).trans
      (.of_second h8 hparts)).trans (.of_second h9 hparts)

/-! What each part leaves of a context -/

/-- What no part of a frame holds: the frame, the job, the faults noted, whether requests are outstanding. -/
def unframed (t : Thread) : Nat × Nat × Option FaultRec × Option Attn × Bool :=
  (t.frame, t.job, t.posFault, t.attn, t.reqs.isEmpty)

/-- What the first two parts hold and no other: the scalar registers; the predicates, the PC and the control registers. -/
def scalarsOf (t : Thread) : Vector Word 32 := t.r.s

def ctlOf (t : Thread) : BitVec 8 × Word × Nat × CtlRegs := (t.r.p, t.q.seg, t.q.idx, t.c)

theorem view_takePart {α : Type} (v : Thread → α) {f : Thread → List Byte → Thread} (hf : ∀ t bs, v (f t bs) = v t)
    (g : Option (List Byte)) (t : Thread) : v (takePart g f t) = v t := by
  cases g
  · rfl
  · exact hf ..

theorem isEmpty_takeHeld (l : List Req) (es : List (Nat × Nat × Nat)) : (takeHeld l es).isEmpty = l.isEmpty := by
  cases l <;> rfl

theorem view_restTaken {α : Type} (v : Thread → α) (hlandings : ∀ t bs, v (takeLandings t bs) = v t)
    (hsnap : ∀ t bs, v (takeSnap t bs) = v t) (hrest : ∀ t bs, v (takeRest t bs) = v t)
    (hdet : ∀ t bs, v (takeDetector t bs) = v t) (hwatch : ∀ t bs, v (takeWatches t bs) = v t)
    (hrows : ∀ t (tiles accs : Map Row), v { t with r := { t.r with tiles := tiles, accs := accs } } = v t)
    (landings watch det snap rest : Option (List Byte)) (tiles accs : Map Row) (t : Thread) :
    v (restTaken landings watch det snap rest tiles accs t) = v t := by
  rw [restTaken, hrows, view_takePart v hlandings, view_takePart v hsnap, view_takePart v hrest, view_takePart v hdet,
    view_takePart v hwatch]

section
variable (landings watch det snap rest : Option (List Byte)) (tiles accs : Map Row) (t : Thread)

theorem unframed_restTaken : unframed (restTaken landings watch det snap rest tiles accs t) = unframed t := by
  refine view_restTaken unframed (fun t bs => ?_) (fun t bs => ?_) (fun t bs => ?_) (fun _ _ => rfl) (fun _ _ => rfl)
    (fun _ _ _ => rfl) ..
  · simp [unframed, takeLandings]
  · simp [unframed, takeSnap]
  · simp [unframed, takeRest, isEmpty_takeHeld]

theorem scalarsOf_restTaken : scalarsOf (restTaken landings watch det snap rest tiles accs t) = scalarsOf t :=
  view_restTaken scalarsOf (fun _ _ => rfl) (fun _ _ => rfl) (fun _ _ => rfl) (fun _ _ => rfl) (fun _ _ => rfl)
    (fun _ _ _ => rfl) ..

theorem ctlOf_restTaken : ctlOf (restTaken landings watch det snap rest tiles accs t) = ctlOf t :=
  view_restTaken ctlOf (fun _ _ => rfl) (fun _ _ => rfl) (fun _ _ => rfl) (fun _ _ => rfl) (fun _ _ => rfl)
    (fun _ _ _ => rfl) ..

end

/-! The restore (R138, R176) -/

theorem onlyLogs_armTracker (s : State) (core ent addr : Nat) : OnlyLogs s (armTracker s core ent addr) := by
  unfold armTracker
  dsimp only
  split
  · split
    · exact onlyLogs_modSlice ..
    · refine (onlyLogs_modSlice ..).trans (onlyLogs_modThread (fun _ => ?_) _ _)
      rfl
  · exact onlyLogs_modSlice ..

theorem onlyLogs_rearm (s : State) (c : Nat) (t : Thread) : OnlyLogs s (rearm s c t) := by
  refine onlyLogs_foldl (fun s w => ?_) _ s
  dsimp only
  split
  · exact .refl s
  · split
    · refine (onlyLogs_readPa ..).trans (onlyLogs_modThread (fun _ => ?_) _ _)
      rfl
    · exact (onlyLogs_readPa ..).trans (onlyLogs_armTracker ..)

theorem honourRecord_noFault {t : Thread} (h : t.posFault = none) (s : State) (c : Nat) : honourRecord s c t = (t, s) := by
  rw [honourRecord, h]
  rfl

theorem relaunch_idle {s : State} {c : Nat} {t : Thread} (ht : threadOf s c = some t) (hreqs : t.reqs = []) :
    relaunch s c = setThread s c t := by
  have hsame : { t with reqs := [] } = t := by rw [← hreqs]
  rw [relaunch, ht]
  dsimp only
  rw [hreqs, List.map_nil, hsame]
  rfl

/-- A thread reloaded from its frame, as it goes on (R176). -/
def restoredThread (now c : Nat) (d : Detector) (t : Thread) : Thread :=
  { t with det := d, phase := (match t.attn with
             | some _ => .frozen 7 0
             | none => .running),
           posFault := none, attn := none, spurious := true, homes := (now, c) :: t.homes,
           q := { t.q with buf := Segment.none_, next := none, expanding := none, pwrite := [] },
           tide := resumeTide now t.tide }

/-- The thread stands on its core again: its resume entry is gone and no trap is served. -/
def threadBack (s : State) (c : Nat) (t : Thread) : State :=
  setThread (modCore (modDie s (coreDie c) (fun d => { d with entries := d.entries.filter (fun e => e.resume != some t.frame) })) c
    (fun k => { k with trapFrame := none })) c t

theorem acquired_det (t : Thread) : ∃ d, (if tracked t then withAcq t (acquireScope (acqOf t) 5) else t) = { t with det := d } := by
  split
  · exact ⟨_, rfl⟩
  · exact ⟨_, rfl⟩

theorem restoreComplete_eq {s s1 : State} {c : Nat} {t t1 : Thread} (ht : threadOf s c = some t) (hphase : t.phase = .restoring)
    (hload : loadFrame s c t = (t1, s1)) (hfault : t1.posFault = none) : ∃ d, exec (.restoreComplete c) s =
      .next (startExpansion (relaunch (rearm (threadBack s1 c (restoredThread s1.now c d t1)) c (restoredThread s1.now c d t1)) c) c
        t1.q.seg) := by
  obtain ⟨d, hd⟩ := acquired_det t1
  have hhonour := honourRecord_noFault hfault s1 c
  refine ⟨d, ?_⟩
  show execRestoreComplete c s = _
  -- the functions called stand as unknowns: the kernel is to compare texts, not to evaluate them
  obtain ⟨load, hl⟩ : ∃ load, load = loadFrame := ⟨_, rfl⟩
  obtain ⟨honour, hh⟩ : ∃ honour, honour = honourRecord := ⟨_, rfl⟩
  obtain ⟨restore, hr⟩ : ∃ restore, restore = execRestoreComplete := ⟨_, rfl⟩
  rw [← hr]
  delta execRestoreComplete at hr
  rw [← hl] at hload hr
  rw [← hh] at hhonour hr
  rw [hr]
  beta_reduce
  rw [ht]
  dsimp -zeta only
  rw [hphase]
  dsimp -zeta only
  rw [hload]
  dsimp -zeta only
  rw [hhonour]
  dsimp -zeta only
  rw [hd]
  rfl

/-- What the restored context stands with, once its watches are armed and its next bundle's segment is asked for. -/
theorem threadOf_restored {s : State} {c : Nat} {t : Thread} (hreqs : t.reqs = []) (a : Word) :
    ∃ w, threadOf (startExpansion (relaunch (rearm (threadBack s c t) c t) c) c a) c =
      some { t with watch := w, q := { t.q with expanding := some ⟨a, 0, 0, [], ⟨0, []⟩⟩, next := none } } := by
  obtain ⟨w, hw⟩ := (onlyLogs_rearm (threadBack s c t) c t).someThread (threadOf_setThread ..)
  rw [relaunch_idle hw hreqs]
  exact ⟨w, threadOf_startExpansion (threadOf_setThread ..) a⟩

theorem trapFrame_setThread (s : State) (c : Nat) (t : Thread) : (coreOf (setThread s c t) c).trapFrame = (coreOf s c).trapFrame := by
  rw [setThread, coreOf_setCore]

theorem startExpansion_some {s : State} {c : Nat} {t : Thread} (ht : threadOf s c = some t) (a : Word) : startExpansion s c a =
    schedule (setThread s c { t with q := { t.q with expanding := some ⟨a, 0, 0, [], ⟨0, []⟩⟩, next := none } }) 0
      (.segmentExpansionComplete c) := by
  rw [startExpansion, ht]

/-- The machine beside the core's thread and the reads: no trap is served and the resume entry is gone. -/
theorem restored_core {s : State} {c : Nat} {t : Thread} (hreqs : t.reqs = []) (a : Word) :
    (coreOf (startExpansion (relaunch (rearm (threadBack s c t) c t) c) c a) c).trapFrame = none ∧
    (dieOf (startExpansion (relaunch (rearm (threadBack s c t) c t) c) c a) (coreDie c)).entries =
      (dieOf s (coreDie c)).entries.filter (fun e => e.resume != some t.frame) := by
  have hlogs := onlyLogs_rearm (threadBack s c t) c t
  obtain ⟨w, hw⟩ := hlogs.someThread (threadOf_setThread ..)
  rw [relaunch_idle hw hreqs, startExpansion_some (threadOf_setThread ..), coreOf_of_cores (schedule_cores ..),
    dieOf_of_dies (schedule_dies ..), trapFrame_setThread, trapFrame_setThread, hlogs.trapFrame, threadBack,
    trapFrame_setThread, modCore, coreOf_setCore]
  refine ⟨rfl, ?_⟩
  have hdie : dieOf (modDie s (coreDie c) (fun d => { d with entries := d.entries.filter (fun e => e.resume != some t.frame) }))
      (coreDie c) = _ := dieOf_modDie _ _ _ (coreDie_lt c)
  exact (hlogs.entries _).trans (congrArg Die.entries hdie)

/-! What the two first parts give -/

theorem scalarsOf_taken (regs ctl : Option (List Byte)) (t : Thread) (n : Fin 32) :
    (scalarsOf (takePart regs takeScalars (takePart ctl takeCtl t)))[n] = match regs with
      | some bs => byteWord bs n.val
      | none => t.r.s[n] := by
  cases regs with
  | some bs => simp [takePart, takeScalars, scalarsOf]
  | none => exact congrArg (fun v : Vector Word 32 => v[n]) (view_takePart scalarsOf (f := takeCtl) (fun _ _ => rfl) ctl t)

theorem ctlOf_takeScalars (t : Thread) (bs : List Byte) : ctlOf (takeScalars t bs) = ctlOf t := by
  simp only [ctlOf, takeScalars]

theorem unframed_takeScalars (t : Thread) (bs : List Byte) : unframed (takeScalars t bs) = unframed t := by
  simp only [unframed, takeScalars]

theorem unframed_takeCtl (t : Thread) (bs : List Byte) : unframed (takeCtl t bs) = unframed t := by
  simp only [unframed, takeCtl]

theorem ctlOf_taken (regs ctl : Option (List Byte)) (t : Thread) :
    ctlOf (takePart regs takeScalars (takePart ctl takeCtl t)) = ctlOf (takePart ctl takeCtl t) :=
  view_takePart ctlOf ctlOf_takeScalars ..

theorem unframed_taken (regs ctl : Option (List Byte)) (t : Thread) :
    unframed (takePart regs takeScalars (takePart ctl takeCtl t)) = unframed t :=
  (view_takePart unframed unframed_takeScalars ..).trans (view_takePart unframed unframed_takeCtl ..)

end Sys2Proof.Machine

namespace Sys2Proof.Machine

/-! What each event leaves, of the states above (R161, R162, R173 to R176, R335 to R337) -/

theorem mem_dropTrackers (s : State) (c : Nat) (t : Thread) : (dropTrackers s c t).mem = s.mem :=
  (congrArg State.mem (dropTrackers_besideCores s c t) :)

theorem liveTids_dropTrackers (s : State) (c : Nat) (t : Thread) : (dropTrackers s c t).liveTids = s.liveTids :=
  (congrArg State.liveTids (dropTrackers_besideCores s c t) :)

/-- SAVE_COMPLETE: the core is free, the context is kept with its resume entry, the scalar registers are in the frame. -/
theorem saveComplete_keeps {c : Nat} {s : State} {t : Thread} {f : Bool} (ht : threadOf s c = some t)
    (hphase : t.phase = .writing f) (hwf : Memory.wf s.mem = true) :
    ∃ s' sv k, exec (.saveComplete c) s = .next s' ∧ threadOf s' c = none ∧ mget t.frame s'.saved = some sv ∧
    sv.thread.r = t.r ∧ sv.thread.q = t.q ∧ sv.thread.c = t.c ∧ sv.thread.det = { t.det with scnt := (t.det.scnt + 1) % 2 ^ 32 } ∧
    sv.held = false ∧ sv.entry = some k ∧ sv.savedAt = s.now ∧
    (coreOf s' c).trapFrame = (if f then some t.frame else none) ∧
    (∃ e ∈ (dieOf s' (coreDie c)).entries, e.id = k ∧ e.resume = some t.frame ∧ e.core = c ∧ e.state = (if f then 2 else 3)) ∧
    (f = true → s'.todo.head? = some (.ev (.trapEntry c))) ∧
    (∀ x y, targetOf s (framePa s t.frame) = .sram x y → ∀ n : Fin 32,
      memNat s'.mem (framePa s t.frame + 8 * n.val) 8 = (t.r.s[n]).toNat) := by
  obtain ⟨t1, ht1⟩ : ∃ t1, t1 = savedThread s t := ⟨_, rfl⟩
  obtain ⟨s1, hs1⟩ : ∃ s1, s1 = dropTrackers (saveFrame s c t1) c t1 := ⟨_, rfl⟩
  have hlogs : OnlyLogs s s1 := hs1 ▸ (onlyLogs_saveFrame ..).trans (onlyLogs_dropTrackers ..)
  have hmem1 : s1.mem = (saveFrame s c t1).mem := by rw [hs1, mem_dropTrackers]
  have hframe : t1.frame = t.frame := by rw [ht1]; rfl
  have hregs : t1.r = t.r := by rw [ht1]; rfl
  have hsave := saveComplete_eq ht hphase
  rw [← ht1, ← hs1] at hsave
  obtain ⟨hcores, hsaved, hmem⟩ := saveAnswer_fields s1 c t1 f
  obtain ⟨hthread, htrap⟩ := core_coreLeft
    (newEntry s1 (coreDie c) 2 t1.record (some t1.frame) t1.job t1.prio c t1.near 0 none).2 c t1 f s1.stamp
  refine ⟨_, ⟨t1, false, some s1.stamp, false, s1.now⟩, s1.stamp, hsave, (threadOf_of_cores hcores c).trans hthread, ?_, hregs, ?_, ?_,
    ?_, rfl, rfl, hlogs.now, ?_, ?_, fun hf => ?_, fun x y htarget n => ?_⟩
  · rw [hsaved, saved_contextKept, hframe, mget_mput_same]
  · rw [ht1]; rfl
  · rw [ht1]; rfl
  · rw [ht1]; rfl
  · rw [coreOf_of_cores hcores, ← hframe]
    exact htrap
  · rw [← hframe]
    exact saveAnswer_entry s1 c t1 f
  · rw [saveAnswer, if_pos hf]
    rfl
  · rw [← hframe] at htarget
    rw [hmem, hmem1, ← hframe, ← hregs]
    exact memNat_saveFrame htarget hwf c n

theorem trapHandled_dies (s : State) (c : Nat) (sv : Saved) (f : FaultRec) : (trapHandled s c sv f).dies = s.dies := rfl

theorem trapHeld_dies (s : State) (c : Nat) (sv : Saved) : (trapHeld s c sv).dies = s.dies := rfl

section
variable {s s1 : State} {c : Nat} {sv : Saved} {f : FaultRec} (hlogs : OnlyLogs s s1)
include hlogs

theorem trapHandled_starts : ∃ h n, threadOf (schedule (trapHandled s1 c sv f) (8 + Config.delay s1.free) (.threadStart c)) c = some h ∧
    h.handler = true ∧ h.trapped = some f ∧ h.phase = .restoring ∧ h.frame = sv.thread.frame ∧
    h.q.seg = sv.thread.regs.trapvec &&& 0x00FFFFFFFFFFFFC0 ∧ h.q.idx = 0 ∧
    h.r.s[1] = BitVec.ofNat 64 (framePa s sv.thread.frame) ∧ h.r.s[2] = entryQW0 f.cls f.cause true true f.req c f.ctx ∧
    mget sv.thread.frame (schedule (trapHandled s1 c sv f) (8 + Config.delay s1.free) (.threadStart c)).saved =
      some { sv with handling := true } ∧
    (schedule (trapHandled s1 c sv f) (8 + Config.delay s1.free) (.threadStart c)).agenda =
      s.agenda ++ [⟨s.now + (8 + n), .threadStart c⟩] := by
  obtain ⟨hpa, hqw⟩ := handlerThread_regs s1 c sv.thread f true
  obtain ⟨hseg, hidx⟩ := handlerThread_pc s1 c sv.thread f true
  refine ⟨handlerThread s1 c sv.thread f true, Config.delay s1.free, ?_, rfl, rfl, rfl, rfl, hseg, hidx,
    hpa.trans (by rw [hlogs.framePa]), hqw, ?_, ?_⟩
  · rw [threadOf_of_cores (schedule_cores ..)]
    exact threadOf_setThread ..
  · rw [schedule_saved]
    exact mget_mput_same ..
  · rw [agenda_schedule _ _ _ (by omega), ← hlogs.agenda, ← hlogs.now]
    rfl

theorem trapHeld_holds (hfree : threadOf s c = none) : threadOf (trapHeld s1 c sv) c = none ∧
    (coreOf (trapHeld s1 c sv) c).trapFrame = none ∧ mget sv.thread.frame (trapHeld s1 c sv).saved = some { sv with held := true } := by
  refine ⟨?_, ?_, mget_mput_same ..⟩
  · rw [threadOf, trapHeld, modCore, coreOf_setCore]
    exact hlogs.noThread hfree
  · rw [trapHeld, modCore, coreOf_setCore]

end

/-- TRAP_ENTRY: the entry is logged; the handler of TRAPVEC starts, or the thread is held. -/
theorem trapEntry_enters {c : Nat} {s : State} {sv : Saved} {f : FaultRec} (htrap : (coreOf s c).trapFrame = some sv.thread.frame)
    (hsaved : mget sv.thread.frame s.saved = some sv) (hfault : sv.thread.posFault = some f) (hfree : threadOf s c = none) :
   let t := sv.thread
   ∃ s', exec (.trapEntry c) s = .next s' ∧
    (fqRoom (dieOf s (coreDie c)) = true → (dieOf s (coreDie c)).fqHeld = [] →
      (dieOf s' (coreDie c)).fqHead = ((dieOf s (coreDie c)).fqHead + 1) % 2 ^ 32) ∧
    (t.regs.trapvec.getLsbD 0 = true → ∃ h n, threadOf s' c = some h ∧ h.handler = true ∧ h.trapped = some f ∧
      h.phase = .restoring ∧ h.frame = t.frame ∧ h.q.seg = t.regs.trapvec &&& 0x00FFFFFFFFFFFFC0 ∧ h.q.idx = 0 ∧
      h.r.s[1] = BitVec.ofNat 64 (framePa s t.frame) ∧ h.r.s[2] = entryQW0 f.cls f.cause true true f.req c f.ctx ∧
      mget t.frame s'.saved = some { sv with handling := true } ∧ s'.agenda = s.agenda ++ [⟨s.now + (8 + n), .threadStart c⟩]) ∧
    (t.regs.trapvec.getLsbD 0 = false → threadOf s' c = none ∧ (coreOf s' c).trapFrame = none ∧
      mget t.frame s'.saved = some { sv with held := true }) := by
  have heq := trapEntry_eq htrap hsaved hfault
  have hlogs := onlyLogs_writeTrapRecord s c sv.thread f
  have hhead := fun hroom hheld => fqHead_writeTrapRecord (s := s) (c := c) hroom hheld sv.thread f
  generalize writeTrapRecord s c sv.thread f = s1 at heq hlogs hhead
  dsimp only
  by_cases hen : sv.thread.regs.trapvec.getLsbD 0 = true
  · refine ⟨_, heq.trans (trapAnswer_handles hen s1 c f), fun hroom hheld => ?_, fun _ => trapHandled_starts hlogs,
      fun hoff => absurd (hen.symm.trans hoff) (by decide)⟩
    rw [dieOf_of_dies (schedule_dies ..), dieOf_of_dies (trapHandled_dies s1 c sv f)]
    exact hhead hroom hheld
  · have hoff := eq_false_of_ne_true hen
    refine ⟨_, heq.trans (trapAnswer_holds hoff s1 c f), fun hroom hheld => ?_, fun h => absurd h hen,
      fun _ => trapHeld_holds hlogs hfree⟩
    rw [dieOf_of_dies (trapHeld_dies s1 c sv)]
    exact hhead hroom hheld

/-- RESTORE_COMPLETE: the thread goes on at its position, with what its frame gave and else with what was kept. -/
theorem restoreComplete_resumes {c : Nat} {s : State} {t : Thread} (ht : threadOf s c = some t) (hphase : t.phase = .restoring)
    (hfault : t.posFault = none) (hreqs : t.reqs = []) :
   let regs := framePart s c t.frame 0 256
   let ctl := framePart regs.2 c t.frame frameCtl 256
   ∃ s' t', exec (.restoreComplete c) s = .next s' ∧ threadOf s' c = some t' ∧
    t'.phase = (if t.attn.isSome then .frozen 7 0 else .running) ∧ t'.spurious = true ∧ t'.q.pwrite = [] ∧ t'.q.buf.count = 0 ∧
    t'.q.next = none ∧ t'.q.expanding = some ⟨t'.q.seg, 0, 0, [], ⟨0, []⟩⟩ ∧ t'.frame = t.frame ∧ t'.job = t.job ∧ t'.reqs = [] ∧
    (∀ n : Fin 32, t'.r.s[n] = match regs.1 with
      | some bs => byteWord bs n.val
      | none => t.r.s[n]) ∧
    (∀ cs, ctl.1 = some cs → t'.r.p = (byteWord cs 0).setWidth 8 ∧ t'.q.seg = byteWord cs 1 ∧ t'.q.idx = (byteWord cs 2).toNat ∧
      t'.c.fmt = byteWord cs 3 ∧ t'.c.nbv = byteWord cs 5 ∧ t'.c.xmask = byteWord cs 6 ∧ t'.c.xscl = byteWord cs 7) ∧
    (ctl.1 = none → t'.r.p = t.r.p ∧ t'.q.seg = t.q.seg ∧ t'.q.idx = t.q.idx ∧ t'.c = t.c) ∧
    (coreOf s' c).trapFrame = none ∧ (∀ e ∈ (dieOf s' (coreDie c)).entries, e.resume ≠ some t.frame) := by
  obtain ⟨landings, watch, det, snap, rest, tiles, accs, s1, hload, -⟩ := loadFrame_eq s c t
  dsimp only
  generalize (framePart (framePart s c t.frame 0 256).2 c t.frame frameCtl 256).1 = ctl at hload ⊢
  generalize (framePart s c t.frame 0 256).1 = regs at hload ⊢
  obtain ⟨t1, ht1⟩ : ∃ t1, t1 = restTaken landings watch det snap rest tiles accs (takePart regs takeScalars (takePart ctl takeCtl t)) :=
    ⟨_, rfl⟩
  have hother : unframed t1 = unframed t := by rw [ht1, unframed_restTaken, unframed_taken]
  have hscalars : scalarsOf t1 = scalarsOf (takePart regs takeScalars (takePart ctl takeCtl t)) := by rw [ht1, scalarsOf_restTaken]
  have hctl : ctlOf t1 = ctlOf (takePart ctl takeCtl t) := by rw [ht1, ctlOf_restTaken, ctlOf_taken]
  rw [← ht1] at hload
  simp only [unframed, Prod.mk.injEq] at hother
  obtain ⟨hframe1, hjob1, hfault1, hattn1, hreqs1⟩ := hother
  rw [hreqs, List.isEmpty_nil, List.isEmpty_iff] at hreqs1
  obtain ⟨d, heq⟩ := restoreComplete_eq ht hphase hload (hfault1.trans hfault)
  obtain ⟨w, hthread⟩ := threadOf_restored (s := s1) (c := c) (t := restoredThread s1.now c d t1) hreqs1 t1.q.seg
  obtain ⟨htrap, hentries⟩ := restored_core (s := s1) (c := c) (t := restoredThread s1.now c d t1) hreqs1 t1.q.seg
  refine ⟨_, _, heq, hthread, ?_, rfl, rfl, rfl, rfl, rfl, hframe1, hjob1, hreqs1, fun n => ?_, fun cs hcs => ?_, fun hcs => ?_,
    htrap, fun e he => ?_⟩
  · rw [← hattn1]
    cases hattn : t1.attn with
    | none => simp [restoredThread, hattn]
    | some a => simp [restoredThread, hattn]
  · have hn := scalarsOf_taken regs ctl t n
    rw [← hscalars] at hn
    cases regs with
    | some bs => exact hn
    | none => exact hn
  · rw [hcs] at hctl
    simp only [ctlOf, Prod.mk.injEq] at hctl
    obtain ⟨hp, hseg, hidx, hc⟩ := hctl
    exact ⟨hp, hseg, hidx, congrArg CtlRegs.fmt hc, congrArg CtlRegs.nbv hc, congrArg CtlRegs.xmask hc, congrArg CtlRegs.xscl hc⟩
  · rw [hcs] at hctl
    simp only [ctlOf, Prod.mk.injEq] at hctl
    exact hctl
  · rw [hentries] at he
    have hne := (List.mem_filter.mp he).2
    rw [show (restoredThread s1.now c d t1).frame = t.frame from hframe1] at hne
    simpa using hne

/-- END_COMPLETE gives the core, the TID and the frame back. -/
theorem endComplete_gives {c : Nat} {s : State} {t : Thread} (ht : threadOf s c = some t) (hphase : t.phase = .ending)
    (hdone : endDone s c t = true) (hh : t.handler = false) (hgroups : t.groups = []) (hsampled : t.sampled = false)
    (hreplay : t.replay = false) (htide : t.tide.pending = []) (htime : t.timeouts = []) (hover : t.overruns = []) :
   ∃ s', exec (.endComplete c) s = .next s' ∧ threadOf s' c = none ∧
    mget (t.job * 2 ^ 15 + t.det.tid) s'.finals = some ((t.det.scnt + 1) % 2 ^ 32) ∧
    (t.job * 2 ^ 15 + t.det.tid) ∉ s'.liveTids ∧ (∀ x ∈ s'.liveTids, x ∈ s.liveTids) ∧
    (t.frame / 4096 < 4 → t.frame % 4096 ∉ (dieOf s' (t.frame / 4096)).usedFrames) ∧ s'.mem = s.mem := by
  have heq := endComplete_frees ht hphase hdone hh hsampled hreplay htide htime hover
  have htids := liveTids_dropTrackers s c t
  have hmem := mem_dropTrackers s c t
  generalize dropTrackers s c t = w at heq htids hmem
  obtain ⟨hfinals, -, hmem', -⟩ := retire_fields (s := w) hgroups
  obtain ⟨hgone, honly⟩ := retire_tid (s := w) hgroups
  have hframe := retire_frame (s := w) hgroups
  generalize retire w t = r at heq hfinals hmem' hgone honly hframe
  refine ⟨_, heq, threadOf_coreFreed r c, ?_, hgone, fun x hx => htids ▸ honly x hx, hframe, hmem'.trans hmem⟩
  rw [show (coreFreed r c).finals = r.finals from rfl, hfinals, mget_mput_same]

theorem fqResume_resumes {f k : Nat} {s : State} {sv : Saved} (hsaved : mget f s.saved = some sv) (hheld : sv.held = true)
    (hentry : sv.entry = some k) (hd : f / 4096 < 4) :
   ∃ s', exec (.fqResume f) s = .next s' ∧ mget f s'.saved = some { sv with held := false } ∧
    (∀ e ∈ (dieOf s (f / 4096)).entries, e.id = k → e.resume = some f →
      { e with state := 3, readyAt := sv.savedAt } ∈ (dieOf s' (f / 4096)).entries) ∧ s'.mem = s.mem ∧
    s'.agenda = s.agenda ++ [⟨s.now + 65536, .priorityAging (f / 4096) k⟩] := by
  have hkept : mget f (mput f { sv with held := false } s.saved) = some { sv with held := false } := mget_mput_same ..
  refine ⟨_, fqResume_readies hsaved hheld hentry, ?_, fun e he hid hres => ?_, mem_makeReady .., agenda_makeReady ..⟩
  · rw [makeReady, schedule_saved, modEntry_saved]
    exact hkept
  · exact makeReady_aged (s := { s with saved := mput f { sv with held := false } s.saved }) hkept hd he hid hres

theorem fqKill_kills {f k : Nat} {s : State} {sv : Saved} (hsaved : mget f s.saved = some sv) (hheld : sv.held = true)
    (hentry : sv.entry = some k) (hsampled : sv.thread.sampled = false) (hgroups : sv.thread.groups = []) (hd : f / 4096 < 4) :
   ∃ s', exec (.fqKill f) s = .next s' ∧ s'.saved = mdel f s.saved ∧
    mget (sv.thread.job * 2 ^ 15 + sv.thread.det.tid) s'.finals = some ((sv.thread.det.scnt + 1) % 2 ^ 32) ∧
    (sv.thread.job * 2 ^ 15 + sv.thread.det.tid) ∉ s'.liveTids ∧
    (∀ e ∈ (dieOf s' (f / 4096)).entries, e.id ≠ k) ∧ s'.mem = s.mem := by
  obtain ⟨hfinals, -, hmem, hsaved'⟩ := retire_fields (s := { s with saved := mdel f s.saved }) hgroups
  obtain ⟨hgone, -⟩ := retire_tid (s := { s with saved := mdel f s.saved }) hgroups
  refine ⟨_, fqKill_retires hsaved hheld hentry hsampled, ?_, ?_, ?_, fun e he => ?_, ?_⟩
  · rw [dropEntry, modDie_saved, hsaved']
  · rw [dropEntry, modDie_finals, hfinals, mget_mput_same]
  · rw [dropEntry, modDie_liveTids]
    exact hgone
  · rw [entries_dropEntry hd] at he
    simpa using (List.mem_filter.mp he).2
  · rw [dropEntry, modDie_mem, hmem]

/-- FQ RESTART of a fabric context takes its operations from their beginning. -/
theorem fqRestart_fabric {ctx : Nat} {s : State} {h : FaultRec} (hctx : ctx < 0x4000) (hno : ctx % 8 < 5)
    (hhalt : (engineOf s ctx).halted = some h) (hfab : ctx % 8 = 4) :
    ∃ s', exec (.fqRestart ctx) s = .next s' ∧ (engineOf s' ctx).halted = none ∧
      (engineOf s' ctx).ops.map (fun o => (o.no, o.dst, o.src, o.len)) = (engineOf s ctx).ops.map (fun o => (o.no, o.dst, o.src, o.len)) ∧
      (∀ o ∈ (engineOf s' ctx).ops, o.off = 0 ∧ o.waiting = [] ∧ o.ctrSent = false) := by
  have heq := fqRestart_redoes hctx hno hhalt
  simp only [if_pos hfab] at heq
  have hengine (x : State) : engineOf (again x ctx) ctx = engineOf x ctx := by
    rw [engineOf, again_keeps State.engines (fun _ _ _ => schedule_engines ..), engineOf]
  refine ⟨_, heq, ?_⟩
  rw [hengine, engineOf_modEngine]
  refine ⟨rfl, ?_, fun o ho => ?_⟩
  · exact (List.map_map ..).trans (List.map_congr_left (fun _ _ => rfl))
  · obtain ⟨o', -, rfl⟩ := List.mem_map.mp ho
    exact ⟨rfl, rfl, rfl⟩

/-- Settles O43: each event by its own equation, the save and the restore by what the frame's parts hold. -/
theorem savesAndTraps : Obligations.SavesAndTraps := by
  unfold Obligations.SavesAndTraps
  refine ⟨fun c s t => preemptionTaken_saves, fun c s t => killTaken_ends, fun d c s t ht hd hc => ?_,
    fun c s t f => saveComplete_keeps, fun c s sv f => trapEntry_enters, fun c s t => restoreComplete_resumes,
    fun c s t => endComplete_gives, fun f k s sv => fqResume_resumes, fun f k s sv => fqKill_kills,
    fun ctx s h hctx hno hhalt => ⟨fun hcopy => ?_, fun hfab => ⟨fqRestart_fabric hctx hno hhalt hfab, ?_⟩⟩,
    fun c s h hc hhalt => ?_⟩
  · exact ⟨schedPreempt_asks ht hd hc, schedKill_asks ht hd hc⟩
  · have heq := fqRestart_redoes hctx hno hhalt
    simp only [if_neg (show ¬ ctx % 8 = 4 by omega)] at heq
    exact heq
  · refine ⟨_, fqAbandon_empties hctx hno hhalt hfab, ?_⟩
    rw [engineOf_modEngine]
    exact ⟨rfl, rfl, rfl, rfl⟩
  · refine ⟨_, fqAbandon_probe hc hhalt, ?_⟩
    rw [probe_modProbe]
    exact ⟨rfl, rfl, rfl, rfl⟩

end Sys2Proof.Machine

namespace Sys2Proof.Machine

/-! Elements of a row (R179) -/

theorem bits_mod_pow {lo n m : Nat} (h : lo + n ≤ m) (v : Nat) : bits lo n (v % 2 ^ m) = bits lo n v := by
  obtain ⟨k, rfl⟩ := Nat.exists_eq_add_of_le h
  rw [bits, bits, Nat.add_assoc, pow_add, Nat.mod_mul_right_div_self, pow_add, Nat.mod_mul_right_mod]

theorem bits_toNat_ofNat {lo n m : Nat} (h : lo + n ≤ m) (v : Nat) : bits lo n (BitVec.ofNat m v).toNat = bits lo n v := by
  rw [BitVec.toNat_ofNat, bits_mod_pow h]

theorem elem_ofNat {w j : Nat} (h : w * j + w ≤ 2048) (v : Nat) : elem w j (BitVec.ofNat 2048 v) = bits (w * j) w v :=
  bits_toNat_ofNat h v

theorem elem_mod (w j : Nat) (r : Row) : elem w j r % 2 ^ w = elem w j r := Nat.mod_mod ..

theorem bits_packElems (w j : Nat) (es : List Nat) : bits (w * j) w (packElems w es) = (es[j]?).getD 0 % 2 ^ w := by
  induction es generalizing j with
  | nil => simp [packElems, bits]
  | cons e es ih =>
    have hcons : packElems w (e :: es) = e % 2 ^ w + 2 ^ w * packElems w es := rfl
    have hpos : 0 < 2 ^ w := Nat.two_pow_pos w
    cases j with
    | zero => simp [hcons, bits]
    | succ j =>
      have htail : (e % 2 ^ w + 2 ^ w * packElems w es) / 2 ^ w = packElems w es := by
        rw [Nat.add_mul_div_left _ _ hpos, Nat.div_eq_of_lt (Nat.mod_lt _ hpos), Nat.zero_add]
      rw [hcons, bits, Nat.mul_succ, Nat.add_comm (w * j), pow_add, ← Nat.div_div_eq_div_mul, htail]
      exact ih j

/-- An element of a row whose elements stand from the k-th on. -/
theorem elem_packElems_from {w k j lo : Nat} (hlo : lo = w * k) (h : w * (k + j) + w ≤ 2048) (es : List Nat) :
    elem w (k + j) (BitVec.ofNat 2048 (packElems w es * 2 ^ lo)) = (es[j]?).getD 0 % 2 ^ w := by
  rw [hlo, elem_ofNat h, bits, Nat.mul_add, pow_add, ← Nat.div_div_eq_div_mul, Nat.mul_div_cancel _ (Nat.two_pow_pos _)]
  exact bits_packElems w j es

theorem elem_packElems {w j : Nat} (h : w * j + w ≤ 2048) (es : List Nat) :
    elem w j (BitVec.ofNat 2048 (packElems w es)) = (es[j]?).getD 0 % 2 ^ w :=
  (elem_ofNat h _).trans (bits_packElems w j es)

theorem getD_map_range {α : Type} {n j : Nat} (h : j < n) (f : Nat → α) (d : α) : (((List.range n).map f)[j]?).getD d = f j := by
  simp [h]

theorem elements_mapRow (w : Nat) (f : Nat → Nat × BitVec 5) : Elements w (fun j => (f j).1 % 2 ^ w) (mapRow w f).1 := by
  intro j hj
  have hfit : w * j + w ≤ 2048 := (Nat.mul_le_mul_left w hj).trans (Nat.mul_div_le 2048 w)
  refine (elem_packElems hfit _).trans ?_
  rw [List.map_map, getD_map_range hj]
  rfl

end Sys2Proof.Machine

namespace Sys2Proof.Machine

/-! Later beats of V operations (O30) -/

/-- With nothing uncovered, a row of the tile registers reads as it stands (R44, R150). -/
theorem flatRow_covered {t : Thread} (h : t.uncov = []) (n : Nat) : flatRow t n = tileRow t n := by
  simp [flatRow, trow, uncovered, h, tileRow, Nat.div_add_mod]

section
variable {s : State} {t : Thread} {v : VOp} {i : Instr} {h : VHdr} {plan : Thread → VPlan} {f : Beat} {scal : Thread → Word}

/-! A beat (R267, R268) -/

/-- A write of an operation's beat as a result in flight. -/
def beatResult (v : VOp) (w : VWrite) : Result := ⟨w.dest, v.issue + w.off, w.val, w.mask, w.flags, 1⟩

theorem beatV_inflight (hv : t.x.vop = some v) : (beatV t f).x.inflight = t.x.inflight ++ (f t v).1.map (beatResult v) := by
  simp [beatV, hv, beatResult]

theorem beatV_vop (hv : t.x.vop = some v) : (beatV t f).x.vop =
    if v.k + 1 < v.b then some { v with k := v.k + 1, rows := (f t v).2, go := false } else none := by
  simp [beatV, hv]

theorem keepsRegisters_beatV (hv : t.x.vop = some v) : KeepsRegisters t (beatV t f) := by
  simp [beatV, hv, KeepsRegisters]

/-- R267: an operation in progress whose beat is due performs that beat. -/
theorem runV_laterBeat (ht : threadOf s s.cur = some t) (hv : t.x.vop = some v) (hgo : v.go = true) (hi : v.i = i) :
    runV s i h plan f scal = .next (setThread s s.cur (beatV t f)) := by
  have hlater : laterBeat t i = true := by simp [laterBeat, hv, hgo, hi]
  simp [runV, ht, hlater]

/-- A later beat that writes `w` alone and keeps no rows. -/
theorem laterBeat_oneWrite {w : VWrite} {P : Row → Prop} (he : exec i s = runV s i h plan f scal)
    (ht : threadOf s s.cur = some t) (hv : t.x.vop = some v) (hgo : v.go = true) (hi : v.i = i) (hf : f t v = ([w], []))
    (hP : P w.val) :
    ∃ t' r, exec i s = .next (setThread s s.cur t') ∧ t'.x.inflight = t.x.inflight ++ [r] ∧ r.dest = w.dest ∧
      r.due = v.issue + w.off ∧ P r.val ∧
      (t'.x.vop = if v.k + 1 < v.b then some { v with k := v.k + 1, rows := [], go := false } else none) ∧
      KeepsRegisters t t' := by
  refine ⟨beatV t f, beatResult v w, he.trans (runV_laterBeat ht hv hgo hi), ?_, rfl, rfl, hP, ?_, keepsRegisters_beatV hv⟩
  · rw [beatV_inflight hv, hf]
    rfl
  · rw [beatV_vop hv, hf]

end

/-! Integer sums (R180, R277) -/

theorem emod_asInt (w : Nat) (sg : Bool) (n : Nat) : asInt w sg n % (2 ^ w : Int) = (n : Int) % 2 ^ w := by
  unfold asInt
  split
  · exact Int.sub_emod_right ..
  · rfl

/-- R277: the sum wrapped to w bits is the same, whatever the signs. -/
theorem wrapI_asInt_add (w : Nat) (sg : Bool) (a b : Nat) : wrapI w (asInt w sg a + asInt w sg b) = (a + b) % 2 ^ w := by
  rw [wrapI, Int.add_emod, emod_asInt, emod_asInt, ← Int.add_emod]
  exact_mod_cast Int.toNat_natCast ((a + b) % 2 ^ w)

/-! Transposition (R283) -/

section
variable {dt ta : BitVec 4} {dq aq w : BitVec 2}

/-- Row r of the transposed matrix: column r of the rows, among the elements that AQ names, as the elements that DQ names. -/
def transposedRow (dq aq w : BitVec 2) (rows : List Row) (r : Nat) : Row :=
  let n := 8 * 2 ^ w.toNat
  BitVec.ofNat 2048 (packElems n (rows.map (elem n (64 * aq.toNat + r))) * 2 ^ (8 * (64 * dq.toNat * n / 8)))

/-- Its write, by the last beat of VTRANS. -/
def transposedWrite (dt : BitVec 4) (dq aq w : BitVec 2) (rows : List Row) (r : Nat) : VWrite :=
  let n := 8 * 2 ^ w.toNat
  let lo := 64 * dq.toNat * n / 8
  { dest := .trow (64 * dt.toNat + r), off := 66, val := transposedRow dq aq w rows r, mask := byteMask lo (lo + 8 * n) }

/-- A beat of VTRANS. -/
def beatTrans (dt ta : BitVec 4) (dq aq w : BitVec 2) : Beat := fun t v =>
  let rows := v.rows ++ [flatRow t (64 * ta.toNat + v.k)]
  if v.k < 63 then ([], rows) else ((List.range 64).map (transposedWrite dt dq aq w rows), [])

theorem exec_vtrans (h : VHdr) (s : State) : exec (.vtrans h dt dq ta aq w) s =
    runV s (.vtrans h dt dq ta aq w) h (fun _ => planTrans h dt ta) (beatTrans dt ta dq aq w) := rfl

/-- The first byte that DQ names. -/
theorem transposed_lo (q p : Nat) : 64 * q * (8 * p) / 8 = 8 * (8 * p) * q := by
  rw [show 64 * q * (8 * p) = 8 * (8 * (8 * p) * q) by ring, Nat.mul_div_cancel_left _ (by decide)]

/-- R283: element c of row r of the transposed matrix is element r of row c. -/
theorem elem_transposedRow {rows : List Row} {c : Nat} (hlen : rows.length = 64) (hc : c < 64)
    (hdq : (dq.toNat + 1) * (8 * 2 ^ w.toNat) ≤ 32) (r : Nat) :
    elem (8 * 2 ^ w.toNat) (64 * dq.toNat + c) (transposedRow dq aq w rows r) =
      elem (8 * 2 ^ w.toNat) (64 * aq.toNat + r) ((rows[c]?).getD 0) := by
  have hlo : 8 * (64 * dq.toNat * (8 * 2 ^ w.toNat) / 8) = 8 * 2 ^ w.toNat * (64 * dq.toNat) := by
    rw [transposed_lo]
    ring
  have hfit : 8 * 2 ^ w.toNat * (64 * dq.toNat + c) + 8 * 2 ^ w.toNat ≤ 2048 := by
    calc 8 * 2 ^ w.toNat * (64 * dq.toNat + c) + 8 * 2 ^ w.toNat
        = 8 * 2 ^ w.toNat * (64 * dq.toNat + c + 1) := (Nat.mul_succ ..).symm
      _ ≤ 8 * 2 ^ w.toNat * (64 * (dq.toNat + 1)) := Nat.mul_le_mul_left _ (by omega)
      _ = 64 * ((dq.toNat + 1) * (8 * 2 ^ w.toNat)) := by ring
      _ ≤ 2048 := Nat.mul_le_mul_left 64 hdq
  refine (elem_packElems_from hlo hfit _).trans ?_
  rw [List.getElem?_map, List.getElem?_eq_getElem (hlen ▸ hc)]
  exact elem_mod ..

end

/-! Packed superblocks (R188, R280) -/

section
variable {dt ta : BitVec 4} {dr ar mr : BitVec 6} {w4 : Bool} {t : Thread} {v : VOp}

/-- R188: a superblock has eight offset bytes. -/
theorem length_debPack_offsets (xs : List FVal) (w rm : Nat) (sat : Bool) : (debPack xs w rm sat).2.1.length = 8 := by
  unfold debPack
  extract_lets
  split
  · exact List.length_replicate
  · exact (List.length_map ..).trans ((List.length_map ..).trans List.length_range)

/-- The superblock of the rows kept. -/
def unitPack (fmt : Word) (w4 : Bool) (rows : List Row) : List Nat × List Nat × Nat × BitVec 5 :=
  debPack (rows.flatMap (fun r => (List.range (vfN fmt)).map (fun j => vElem fmt j r))) (if w4 then 4 else 8) (fmtRM fmt)
    (fmtSAT fmt)

/-- The elements of unit n, at its place in their row. -/
def elementsRow (w4 : Bool) (n : Nat) (els : List Nat) : Row :=
  BitVec.ofNat 2048 (packElems (if w4 then 4 else 8) els * 2 ^ (8 * (debPlace w4 n).2))

/-- Its offset bytes and E, at their place in the metadata row. -/
def metadataRow (n : Nat) (offs : List Nat) (e : Nat) : Row := BitVec.ofNat 2048 (packElems 8 (offs ++ [e]) * 2 ^ (128 * n))

/-- The writes of the last beat of unit n. -/
def unitWrites (dt : BitVec 4) (dr mr : BitVec 6) (w4 : Bool) (n off : Nat) (pk : List Nat × List Nat × Nat × BitVec 5) :
    List VWrite :=
  let lo := (debPlace w4 n).2
  [{ dest := .trow (64 * dt.toNat + dr.toNat + (debPlace w4 n).1), off := off, val := elementsRow w4 n pk.1,
     mask := byteMask lo (lo + 32 * (if w4 then 4 else 8)), flags := pk.2.2.2 },
   { dest := .trow (64 * dt.toNat + mr.toNat), off := off, val := metadataRow n pk.2.1 pk.2.2.1,
     mask := byteMask (16 * n) (16 * n + 16) }]

theorem beatPackd_inside (h : v.k % vfBytes v.fmt + 1 < vfBytes v.fmt) : beatPackd dt dr ta ar mr w4 t v =
    ([], v.rows ++ [flatRow t (64 * ta.toNat + ar.toNat + v.k)]) := if_pos h

theorem beatPackd_last (h : v.k % vfBytes v.fmt + 1 = vfBytes v.fmt) : beatPackd dt dr ta ar mr w4 t v =
    (unitWrites dt dr mr w4 (v.k / vfBytes v.fmt) (v.k + 4)
      (unitPack v.fmt w4 (v.rows ++ [flatRow t (64 * ta.toNat + ar.toNat + v.k)])), []) :=
  if_neg (Nat.not_lt.mpr h.ge)

theorem elem_elementsRow {n j : Nat} (hj : j < 256) (els : List Nat) :
    let wd := if w4 then 4 else 8
    let lo := if w4 then 128 * (n % 2) else 0
    elem wd (8 * lo / wd + j) (elementsRow w4 n els) = (els[j]?).getD 0 % 2 ^ wd := by
  intro wd lo
  have hplace : (debPlace w4 n).2 = lo := by cases w4 <;> rfl
  have hlo : 8 * lo = wd * (8 * lo / wd) ∧ wd * (8 * lo / wd + j) + wd ≤ 2048 := by
    cases w4 with
    | false =>
      have hwd : wd = 8 := rfl
      have hlo : lo = 0 := rfl
      rw [hwd, hlo]
      omega
    | true =>
      have hwd : wd = 4 := rfl
      have hlo : lo = 128 * (n % 2) := rfl
      rw [hwd, hlo]
      omega
  rw [elementsRow, hplace]
  exact elem_packElems_from hlo.1 hlo.2 els

theorem elem_metadataRow {n j : Nat} (hn : n < 16) (hj : j < 16) (offs : List Nat) (e : Nat) :
    elem 8 (16 * n + j) (metadataRow n offs e) = ((offs ++ [e])[j]?).getD 0 % 256 :=
  elem_packElems_from (by omega) (by omega) _

/-- R188, R280: the metadata of a unit are its eight offset bytes, E, and zero. -/
theorem metadataRow_bytes {n : Nat} (hn : n < 16) {offs : List Nat} (hlen : offs.length = 8) (e : Nat) :
    (∀ j, j < 8 → elem 8 (16 * n + j) (metadataRow n offs e) = (offs[j]?).getD 0 % 256) ∧
    elem 8 (16 * n + 8) (metadataRow n offs e) = e % 256 ∧
    ∀ j, 9 ≤ j → j < 16 → elem 8 (16 * n + j) (metadataRow n offs e) = 0 := by
  refine ⟨fun j hj => ?_, ?_, fun j hlo hhi => ?_⟩
  · rw [elem_metadataRow hn (by omega), List.getElem?_append_left (by omega)]
  · rw [elem_metadataRow hn (by decide), List.getElem?_append_right (by omega), hlen]
    rfl
  · rw [elem_metadataRow hn hhi, List.getElem?_eq_none (by rw [List.length_append, List.length_singleton]; omega)]
    rfl

end

/-- Settles O30: each beat by the rows that it writes and keeps. -/
theorem vectorLaterBeat : Obligations.VectorLaterBeat := by
  unfold Obligations.VectorLaterBeat
  refine ⟨?_, ?_, ?_⟩
  · intro h dt ta tb row br bfix ty s t v ht hv hgo hcov a b goes
    have ha : a = flatRow t (64 * ta.toNat + row.toNat + v.k) := (flatRow_covered hcov _).symm
    have hb : b = flatRow t ((⟨tb, br, bfix⟩ : BOp).row v.k) := (flatRow_covered hcov _).symm
    refine ⟨fun hi => ?_, fun hi => ?_, fun hi => ?_⟩
    · refine laterBeat_oneWrite rfl ht hv hgo hi rfl ?_
      rw [ha, hb]
      exact elements_mapRow _ _
    · refine laterBeat_oneWrite rfl ht hv hgo hi rfl ?_
      rw [ha, hb]
      intro j hj
      refine (elements_mapRow _ _ j hj).trans ?_
      exact (congrArg (· % 2 ^ tyBits ty) (wrapI_asInt_add ..)).trans (Nat.mod_mod ..)
    · exact laterBeat_oneWrite (P := fun r => r = a) rfl ht hv hgo hi rfl ha.symm
  · intro h dt ta dq aq w s t v ht hv hgo hcov hi _ n rows
    have hrows : v.rows ++ [flatRow t (64 * ta.toNat + v.k)] = rows := by rw [flatRow_covered hcov]
    refine ⟨beatV t (beatTrans dt ta dq aq w), (exec_vtrans h s).trans (runV_laterBeat ht hv hgo hi), keepsRegisters_beatV hv,
      fun hk => ?_, fun hk hlen hdq _ => ?_⟩
    · have hbeat : beatTrans dt ta dq aq w t v = ([], rows) := (if_pos hk).trans (by rw [hrows])
      rw [beatV_inflight hv, beatV_vop hv, hbeat]
      exact ⟨List.append_nil _, rfl⟩
    · have hbeat : beatTrans dt ta dq aq w t v = ((List.range 64).map (transposedWrite dt dq aq w rows), []) :=
        (if_neg (by omega)).trans (by rw [hrows])
      have hlen64 : rows.length = 64 := by simp [rows, hlen]
      have hlo : 64 * dq.toNat * n / 8 = 8 * n * dq.toNat := transposed_lo ..
      rw [beatV_inflight hv, hbeat]
      refine ⟨_, rfl, by simp, fun r hr => ⟨beatResult v (transposedWrite dt dq aq w rows r), by simp [hr], rfl, rfl, ?_,
        fun c hc => elem_transposedRow hlen64 hc hdq r⟩⟩
      exact congrArg (fun x => byteMask x (x + 8 * n)) hlo
  · intro h dt ta dr ar mr w s t v ht hv hgo hcov hi sw n wd lo rows xs pk at_
    have hrows : v.rows ++ [flatRow t (64 * ta.toNat + ar.toNat + v.k)] = rows := by rw [flatRow_covered hcov]
    refine ⟨beatV t (beatPackd dt dr ta ar mr w), runV_laterBeat ht hv hgo hi, keepsRegisters_beatV hv,
      fun hin => ?_, fun hlast _ hn => ?_⟩
    · rw [beatV_inflight hv, beatV_vop hv, beatPackd_inside hin, hrows]
      exact ⟨List.append_nil _, rfl⟩
    · have hbeat : beatPackd dt dr ta ar mr w t v = (unitWrites dt dr mr w n (v.k + 4) pk, []) := by
        rw [beatPackd_last hlast, hrows]
        rfl
      have hplace : debPlace w n = (if w then n / 2 else n, lo) := by cases w <;> rfl
      rw [beatV_inflight hv, beatV_vop hv, hbeat, unitWrites, hplace]
      exact ⟨_, _, rfl, rfl, rfl, rfl, rfl, fun j hj => elem_elementsRow hj _, rfl, rfl, rfl,
        metadataRow_bytes hn (length_debPack_offsets ..) _⟩

end Sys2Proof.Machine

namespace Sys2Proof.Machine

/-! The matrix engine's beats (O32) -/

/-! A beat of ZOUT (R300) -/

theorem fmtWidth_le (f : Fmt) : fmtWidth f ≤ 32 := by
  cases f <;> decide

/-- R300: the elements that a beat of ZOUT puts in flight. -/
theorem elem_packElems_map_range {w k : Nat} (hw : w ≤ 32) (hk : k < 64) (f : Nat → Nat × BitVec 5) :
    elem w k (BitVec.ofNat 2048 (packElems w (((List.range 64).map f).map (·.1)))) = (f k).1 % 2 ^ w := by
  have hfit : w * k + w ≤ 2048 := (Nat.mul_le_mul hw (Nat.succ_le_of_lt hk) : w * (k + 1) ≤ 32 * 64)
  rw [elem_packElems hfit, List.map_map, getD_map_range hk]
  rfl

theorem matrixBeat_zout {c : Nat} {s : State} {t : Thread} {x : XOp} {h : XHdr} {z : BitVec 2} {dt df : BitVec 4} {row zr : BitVec 6}
    (ht : threadOf s c = some t) (hx : t.x.xop = some x) (hfault : x.fault = none) (hi : x.i = .zout h z dt row zr df) :
    exec (.matrixBeat c) s = .next (setThread s c (zoutBeat t x z.toNat dt.toNat row.toNat zr.toNat df.toNat)) := by
  show execMatrixBeat c s = _
  simp [execMatrixBeat, ht, hx, hfault, hi]

/-! A beat of MMA and MMA.TB whose operands are read (R291, R292) -/

section
variable {c : Nat} {s s1 : State} {t t1 : Thread} {x : XOp} {tile : List Row} {rs : List (XRange × Nat)} {ps : List XPlace}

theorem matrixBeat_got (ht : threadOf s c = some t) (hx : t.x.xop = some x) (hfault : x.fault = none) (hmma : x.mma = true)
    (htile : tbTile t x = .ok tile) (hread : readBeat s c t x = .got rs ps s1) (ht1 : threadOf s1 c = some t1)
    (hdue : t1.x.dc = x.issue + x.j) :
    exec (.matrixBeat c) s = .next (setThread (takeXBanks s1 c t1 ps).1 c
      (closeBeat (takeXBanks s1 c t1 ps).2 x (beatSteps x rs tile))) := by
  show execMatrixBeat c s = _
  simp only [execMatrixBeat, ht, hx, hfault, Option.isSome_none, Bool.false_eq_true, if_false, htile, hread, ht1]
  split
  · rename_i hi
    simp [XOp.mma, hi] at hmma
  · simp [hdue]

theorem takeXBanks_mem (s : State) (c : Nat) (t : Thread) (ps : List XPlace) : (takeXBanks s c t ps).1.mem = s.mem := by
  simp only [takeXBanks, waitingWords]
  split <;> rfl

/-- Only the count of the words that wait and the sub-banks taken change of the thread. -/
theorem takeXBanks_thread (s : State) (c : Nat) (t : Thread) (ps : List XPlace) : ∃ banks used,
    (takeXBanks s c t ps).2 = { t with x := { t.x with banks := banks, used := used } } := ⟨_, _, rfl⟩

end

/-! The end of a group (R198, R199, R293) -/

/-- Whether a beat writes the accumulator: at each beat under NBV, else at the end of a group of 32 k-steps or of a pass. -/
def groupEnds (x : XOp) : Bool :=
  x.nbv.getLsbD 0 || (x.j % x.b * x.kpb + x.kpb) % 32 == 0 || x.j % x.b + 1 == x.b

theorem groupEnds_iff (x : XOp) : groupEnds x = true ↔
    x.nbv.getLsbD 0 = true ∨ (x.j % x.b * x.kpb + x.kpb) % 32 = 0 ∨ x.j % x.b + 1 = x.b := by
  simp [groupEnds, or_assoc]

/-- Whether that write clears the positions outside: the operation's first, under ZEROM (R290, R293). -/
def groupClears (x : XOp) : Bool := x.xmask.getLsbD 16 && x.pass == 0 && x.kstep == 0

theorem groupClears_iff (x : XOp) : groupClears x = true ↔ x.xmask.getLsbD 16 = true ∧ x.pass = 0 ∧ x.kstep = 0 := by
  simp [groupClears, and_assoc]

/-- The operation after a beat. -/
def nextBeat (x : XOp) (steps : List (List FVal × List FVal)) : XOp :=
  { x with j := x.j + 1, ks := if groupEnds x then [] else x.ks ++ steps, ready := 0, tried := false, got := [],
           kstep := if x.j % x.b + 1 == x.b then 0 else if groupEnds x then x.j % x.b * x.kpb + x.kpb else x.kstep }

/-- The thread with the accumulator's writes in flight, if the beat makes any. -/
def groupWritten (t : Thread) (x : XOp) (steps : List (List FVal × List FVal)) : Thread :=
  if groupEnds x then xResults t 1 (accRows t x (x.ks ++ steps) (groupClears x)) else t

/-- Whether a beat releases the head of the Tide buffer: the last of a pass of an MMA.TB that says so (R298). -/
def freesHead (x : XOp) : Bool := x.j % x.b + 1 == x.b && (match x.i with
  | .mmaTb _ _ _ _ _ _ _ _ _ _ rel => rel
  | _ => false)

/-- The thread with that head released. -/
def withHeadFreed (t : Thread) (x : XOp) : Thread :=
  if freesHead x then { t with tide := { t.tide with buf := t.tide.buf.drop 1 } } else t

theorem withHeadFreed_keeps (t : Thread) (x : XOp) : (withHeadFreed t x).r = t.r ∧ (withHeadFreed t x).c = t.c ∧
    (withHeadFreed t x).q = t.q ∧ (withHeadFreed t x).reqs = t.reqs ∧ (withHeadFreed t x).x = t.x := by
  unfold withHeadFreed
  split <;> exact ⟨rfl, rfl, rfl, rfl, rfl⟩

theorem groupWritten_keeps (t : Thread) (x : XOp) (steps : List (List FVal × List FVal)) :
    (groupWritten t x steps).r = t.r ∧ (groupWritten t x steps).c = t.c ∧ (groupWritten t x steps).q = t.q ∧
      (groupWritten t x steps).reqs = t.reqs := by
  unfold groupWritten
  split <;> exact ⟨rfl, rfl, rfl, rfl⟩

section
variable {t : Thread} {x : XOp} (steps : List (List FVal × List FVal)) (hdue : t.x.dc = x.issue + x.j)
include hdue

/-- What a beat in its cycle does once its operands are read. -/
theorem closeBeat_eq :
    closeBeat t x steps =
      (let u := withHeadFreed (groupWritten t x steps) x
       { u with x := { u.x with xop := if x.j + 1 < x.np * x.b then some (nextBeat x steps) else none } }) := by
  have hwritten : groupWritten t x steps =
      if groupEnds x then xWrite t x (accRows t x (x.ks ++ steps)
        (groupEnds x && x.xmask.getLsbD 16 && x.pass == 0 && x.kstep == 0)) else t := by
    cases hends : groupEnds x <;> simp [groupWritten, groupClears, xWrite, hdue, hends]
  rw [hwritten]
  rfl

/-- R293, R298: such a beat leaves the registers as they were. -/
theorem closeBeat_keeps :
    (closeBeat t x steps).r = t.r ∧ (closeBeat t x steps).c = t.c ∧ (closeBeat t x steps).q = t.q ∧
      (closeBeat t x steps).reqs = t.reqs := by
  obtain ⟨hr, hc, hq, hreqs, -⟩ := withHeadFreed_keeps (groupWritten t x steps) x
  obtain ⟨hr', hc', hq', hreqs'⟩ := groupWritten_keeps t x steps
  rw [closeBeat_eq steps hdue]
  exact ⟨hr.trans hr', hc.trans hc', hq.trans hq', hreqs.trans hreqs'⟩

theorem closeBeat_xop :
    (closeBeat t x steps).x.xop = if x.j + 1 < x.np * x.b then some (nextBeat x steps) else none := by
  rw [closeBeat_eq steps hdue]

theorem closeBeat_inflight :
    (closeBeat t x steps).x.inflight = (groupWritten t x steps).x.inflight := by
  obtain ⟨-, -, -, -, hx⟩ := withHeadFreed_keeps (groupWritten t x steps) x
  rw [closeBeat_eq steps hdue]
  exact congrArg (·.inflight) hx

end

/-! The sums (R198 to R200) -/

/-- The one rounding of a sum. -/
def roundedSum (l : List FVal) : Nat := (roundAcc (fsum 0 l).1).1

/-- A position after products: the one rounding of all, or, under NBV, of each in turn. -/
def positionAfter (nb : Bool) (old : Nat) (ps : List FVal) : Nat :=
  if nb then ps.foldl (fun z p => roundedSum [decodeF .fp32 z, decodeF .fp32 (roundAcc p).1]) old
  else roundedSum (decodeF .fp32 old :: ps)

theorem accumulate_fst (nb : Bool) (old : Nat) (ps : List (FVal × Bool)) :
    (accumulate nb old ps).1 = positionAfter nb old (ps.map (·.1)) := by
  cases nb with
  | false => rfl
  | true =>
    simp only [accumulate, positionAfter, if_true, List.foldl_map]
    exact (List.foldl_hom (init := (old, 0)) Prod.fst (fun _ _ => rfl)).symm

/-! The accumulator's rows (R290, R293, R297) -/

section
variable {t : Thread} {x : XOp} {ks : List (List FVal × List FVal)} {clear : Bool}

/-- The product that k-step `k` gives position (m, n). -/
def stepProduct (m n : Nat) (k : List FVal × List FVal) : FVal := (fmul ((k.1[m]?).getD .nan) ((k.2[n]?).getD .nan)).1

theorem accRows_dest {r : Dest × Row × Row × BitVec 5} (h : r ∈ accRows t x ks clear) :
    ∃ m, m < 64 ∧ r.1 = .arow (64 * x.z + m) ∧ (m < x.rows ∨ clear = true) := by
  obtain ⟨m, hm, hr⟩ := List.mem_filterMap.mp h
  have hm64 : m < 64 := List.mem_range.mp hm
  split at hr
  · rename_i hrow
    cases hr
    exact ⟨m, hm64, rfl, .inl hrow⟩
  · split at hr
    · rename_i hclear
      cases hr
      exact ⟨m, hm64, rfl, .inr hclear⟩
    · cases hr

/-- A row in use. -/
theorem accRows_used {m : Nat} (hm : m < 64) (hrow : m < x.rows) : ∃ r ∈ accRows t x ks clear, r.1 = .arow (64 * x.z + m) ∧
    r.2.2.1 = (if clear then fullMask else byteMask 0 (4 * x.cols)) ∧
    ∀ n, n < x.cols → n < 64 → elem 32 n r.2.1 =
      positionAfter (x.nbv.getLsbD 0) (elem 32 n (arow t x.z m)) (ks.map (stepProduct m n)) % 2 ^ 32 := by
  refine ⟨_, List.mem_filterMap.mpr ⟨m, List.mem_range.mpr hm, if_pos hrow⟩, rfl, rfl, fun n hn hn64 => ?_⟩
  refine (elem_packElems (by omega) _).trans ?_
  rw [List.map_map, getD_map_range hn, Function.comp_apply, accumulate_fst, List.map_map]
  rfl

/-- A row outside, cleared. -/
theorem accRows_cleared {m : Nat} (hm : m < 64) (hrow : x.rows ≤ m) (hclear : clear = true) :
    (.arow (64 * x.z + m), 0, fullMask, 0) ∈ accRows t x ks clear :=
  List.mem_filterMap.mpr ⟨m, List.mem_range.mpr hm, (if_neg (Nat.not_lt.mpr hrow)).trans (if_pos hclear)⟩

end

/-- Settles O32: a beat by what it puts in flight and the operation that it leaves. -/
theorem matrixBeats : Obligations.MatrixBeats := by
  unfold Obligations.MatrixBeats
  refine ⟨fun c h z dt df row zr s t x ht hx hfault hi _ => ?_,
    fun c s s1 t t1 x tile rs ps ht hx hfault hmma htile hread ht1 hdue => ?_⟩
  · exact ⟨_, _, matrixBeat_zout ht hx hfault hi, rfl, rfl, rfl, fun k hk => elem_packElems_map_range (fmtWidth_le _) hk _, rfl,
      ⟨rfl, rfl, rfl, rfl, rfl⟩, rfl⟩
  · intro k1 nb ks ends clear old prod sum new
    have hends : groupEnds x = true ↔ ends := groupEnds_iff x
    have hclear : groupClears x = true ↔ clear := groupClears_iff x
    have hnew (m n : Nat) : positionAfter nb (old m n) (ks.map (stepProduct m n)) = new m n := by
      show _ = ite _ _ _
      rw [positionAfter, List.foldl_map]
      rfl
    obtain ⟨banks, used, hbanks⟩ := takeXBanks_thread s1 c t1 ps
    have heq := matrixBeat_got ht hx hfault hmma htile hread ht1 hdue
    rw [hbanks] at heq
    have hdue' : ({ t1 with x := { t1.x with banks := banks, used := used } } : Thread).x.dc = x.issue + x.j := hdue
    obtain ⟨hr, hc, hq, hreqs⟩ := closeBeat_keeps (beatSteps x rs tile) hdue'
    refine ⟨_, _, heq, threadOf_setThread .., takeXBanks_mem .., hr, hc, hq, hreqs, ?_, ?_, ?_, ?_⟩
    · intro hover
      rw [closeBeat_xop _ hdue', if_neg (Nat.not_lt.mpr hover)]
    · intro hmore
      rw [closeBeat_xop _ hdue', if_pos hmore]
      exact ⟨_, rfl, rfl, rfl, rfl, rfl, rfl, rfl, fun he => if_pos (hends.mpr he), fun he => if_neg (mt hends.mp he)⟩
    · intro he
      rw [closeBeat_inflight _ hdue', groupWritten, if_neg (mt hends.mp he)]
    · intro he
      rw [closeBeat_inflight _ hdue', groupWritten, if_pos (hends.mpr he)]
      refine ⟨_, rfl, fun r hr => ?_, fun m hm hrow => ?_, fun m hm hrow => ⟨fun hcl => ?_, fun hcl r hr hdest => ?_⟩⟩
      · obtain ⟨a, ha, rfl⟩ := List.mem_map.mp hr
        obtain ⟨m, hm, hdest, -⟩ := accRows_dest ha
        exact ⟨rfl, m, hm, hdest⟩
      · obtain ⟨a, ha, hdest, hmask, helem⟩ := accRows_used hm hrow
        refine ⟨_, List.mem_map_of_mem ha, hdest, fun hcl => hmask.trans (if_pos (hclear.mpr hcl)),
          fun hcl => hmask.trans (if_neg (mt hclear.mp hcl)), fun n hn hn64 => (helem n hn hn64).trans ?_⟩
        exact congrArg (· % 2 ^ 32) (hnew m n)
      · exact ⟨_, List.mem_map_of_mem (accRows_cleared hm hrow (hclear.mpr hcl)), rfl, rfl, rfl⟩
      · obtain ⟨a, ha, rfl⟩ := List.mem_map.mp hr
        obtain ⟨m', hm', hdest', hout⟩ := accRows_dest ha
        have hsame : m' = m := by simpa using hdest'.symm.trans hdest
        rcases hout with hin | hcl'
        · omega
        · exact hcl (hclear.mp hcl')

end Sys2Proof.Machine

namespace Sys2Proof.Machine

/-! Format and control registers, the calendar, and the auditor's ranges (O36) -/

section
variable {g : Guard} {s : State} {t : Thread}

/-! Control registers (R195, R324, R325) -/

/-- R324: SETFMT's write is in the shadow. -/
theorem setfmt_shadows (hp : Performs s t g) (msk : BitVec 5) (img : BitVec 20) :
    exec (.setfmt g msk img) s = .next (putCtl s t (0x1000 + msk.toNat) (img.setWidth 64) 4) :=
  runSlot_ok g s _ t (fun t => .ok (putCtl s t (0x1000 + msk.toNat) (img.setWidth 64) 4)) hp.1 hp.2 rfl

/-- R325: CRR puts the register's value in flight. -/
theorem crr_reads {rd : BitVec 5} {cr : BitVec 12} {v : Word} (hp : Performs s t g) (hf : Fits t (.sreg rd.toNat) 1)
    (hv : crValue s t cr.toNat = v) : exec (.crr g rd cr) s = .next (withScalar s t rd 1 v) :=
  runSlot_scalar hp hf (by rw [hv])

/-- R345: a thread that is no auditor's replay reads its own ids. -/
theorem shownIds_own (h : t.replay = false) : shownIds s t = (s.cur, t.det.tid) := by
  rw [shownIds, h]

/-- The registers 0x10 to 0x14 are the thread's own. -/
theorem crJobWord_own {n : Nat} (hlo : 0x10 ≤ n) (hhi : n ≤ 0x14) : crJobWord n = none := by
  interval_cases n <;> rfl

/-- R325: a write of one of the thread's own registers but FFLAGS is in the shadow for 4 cycles. -/
theorem crw_shadows {n : Nat} (hp : Performs s t g) (rs : BitVec 5) (hlo : 0x10 ≤ n) (hhi : n ≤ 0x14) (hne : n ≠ 0x11) :
    exec (.crw g rs (BitVec.ofNat 12 n)) s = .next (putCtl s t n (sreg t rs) 4) := by
  have hn : (BitVec.ofNat 12 n).toNat = n := (BitVec.toNat_ofNat ..).trans (Nat.mod_eq_of_lt (by omega))
  refine runAlways_ok s _ t _ hp.1 ?_
  simp [hn, crJobWord_own hlo hhi, hp.2, hlo, hhi, hne]

/-- R196: one of FFLAGS for 1 cycle. -/
theorem crw_shadows_fflags (hp : Performs s t g) (rs : BitVec 5) :
    exec (.crw g rs 0x011) s = .next (putCtl s t 0x11 (sreg t rs) 1) := by
  refine runAlways_ok s _ t _ hp.1 ?_
  simp [crJobWord, hp.2]

/-! The calendar (R327) -/

theorem addScalar_fits {rd : BitVec 5} {v : Word} {l : Nat} (hf : Fits t (.sreg rd.toNat) l) :
    addScalar t rd v l = .ok (withResult t (.sreg rd.toNat) l (BitVec.ofNat 2048 v.toNat)) := by
  obtain ⟨hcol, hread, hroom⟩ := hf
  have hfull : ¬ (Dest.sreg rd.toNat ≠ .preg 0 ∧ 64 ≤ inFlight t) := fun h => absurd (hroom h.1) (Nat.not_lt.mpr h.2)
  simp only [addScalar, addResult, checkWrite, hcol, hread, Bool.false_eq_true, if_false, if_neg hfull, withResult]

theorem inFlight_withResult_le (t : Thread) (d : Dest) (l : Nat) (v : Row) : inFlight (withResult t d l v) ≤ inFlight t + 1 := by
  have hone (p : Result → Bool) (r : Result) : ((t.x.inflight ++ [r]).filter p).length ≤ (t.x.inflight.filter p).length + 1 := by
    rw [List.filter_append, List.length_append]
    exact Nat.add_le_add_left (List.length_filter_le ..) _
  refine (Nat.add_le_add_right (Nat.add_le_add_right (hone ..) _) _).trans (Nat.le_of_eq ?_)
  rw [inFlight, Nat.add_right_comm _ 1, Nat.add_right_comm _ 1]
  rfl

/-- A result put in flight to another destination adds one to the results in flight, and stands in no other's way. -/
theorem fits_withResult {d e : Dest} {k l : Nat} {v : Row} (hf : Fits t e l) (hroom : inFlight t + 2 ≤ 64) (hne : d ≠ e) :
    Fits (withResult t d k v) e l := by
  obtain ⟨hcol, hread, -⟩ := hf
  refine ⟨?_, hread, fun _ => ?_⟩
  · simpa [collides, withResult, hne] using hcol
  · have hmore := inFlight_withResult_le t d k v
    omega

/-- R327: the cycles to the next window's start and whether a window is open. -/
theorem dleft_reads {rd : BitVec 5} {pd : BitVec 3} (hp : Performs s t g) (hs : Fits t (.sreg rd.toNat) 2)
    (hpr : Fits t (.preg pd.toNat) 2) (hroom : inFlight t + 2 ≤ 64) :
    exec (.dleft g rd pd) s = .next (setThread s s.cur (withResult
      (withResult t (.sreg rd.toNat) 2 (BitVec.ofNat 2048 (nextWindow s.now - s.now)))
      (.preg pd.toNat) 2 (if s.now % 65536 < 2048 then 1 else 0))) := by
  have hleft : (BitVec.ofNat 64 (nextWindow s.now - s.now)).toNat = nextWindow s.now - s.now :=
    (BitVec.toNat_ofNat ..).trans (Nat.mod_eq_of_lt (by unfold nextWindow; omega))
  have hopen : BitVec.ofNat 2048 (b2n (inWindow s)) = if s.now % 65536 < 2048 then 1 else 0 := by
    by_cases h : s.now % 65536 < 2048 <;> simp [inWindow, b2n, h]
  obtain ⟨hcol, -, hfull⟩ := fits_withResult (d := .sreg rd.toNat) (k := 2)
    (v := BitVec.ofNat 2048 (BitVec.ofNat 64 (nextWindow s.now - s.now)).toNat) hpr hroom (by simp)
  refine runSlot_ok g s _ t _ hp.1 hp.2 ?_
  rw [addScalar_fits hs]
  refine (putPred_ok s _ pd (inWindow s) 2 hcol hfull).trans ?_
  rw [hopen, hleft]
  rfl

/-! The auditor's ranges (R330) -/

/-- R330: the test that AMARK makes of its list and its range passes. -/
theorem amark_fits {k : BitVec 2} {n len : Nat} (hk : k ≠ 2) (hlo : 1 ≤ n) (hhi : n ≤ 4294967296) (hroom : len < 8) :
    ¬ (decide (k = 2) || decide (n = 0) || decide (2 ^ 32 < n) || decide (8 ≤ len)) = true := by
  simpa [hhi, hroom, Nat.ne_of_gt hlo] using hk

/-- R330: an output range joins the list. -/
theorem amark_output {ra rl : BitVec 5} (hp : Performs s t g) (hlo : 1 ≤ (sreg t rl).toNat)
    (hhi : (sreg t rl).toNat ≤ 2 ^ 32) (hroom : t.auditOut.length < 8) :
    exec (.amark g 1 ra rl) s =
      .next (setThread s s.cur { t with auditOut := t.auditOut ++ [(sreg t ra, (sreg t rl).toNat)] }) :=
  runSlot_ok g s _ t _ hp.1 hp.2 ((if_neg (amark_fits (by decide) hlo hhi hroom)).trans (if_pos rfl))

/-- R330: an input range joins the list. -/
theorem amark_input {ra rl : BitVec 5} (hp : Performs s t g) (hlo : 1 ≤ (sreg t rl).toNat)
    (hhi : (sreg t rl).toNat ≤ 2 ^ 32) (hroom : t.auditIn.length < 8) (hsampled : t.sampled = false) :
    exec (.amark g 0 ra rl) s =
      .next (setThread s s.cur { t with auditIn := t.auditIn ++ [(sreg t ra, (sreg t rl).toNat)] }) := by
  have hkeeps : ¬ t.sampled = true := by simp [hsampled]
  exact runSlot_ok g s _ t _ hp.1 hp.2
    ((if_neg (amark_fits (by decide) hlo hhi hroom)).trans ((if_neg (by decide)).trans (if_neg hkeeps)))

/-- R330: a range that no list takes makes the task unauditable. -/
theorem amark_unauditable {k : BitVec 2} {ra rl : BitVec 5} (hp : Performs s t g)
    (h : k = 2 ∨ (sreg t rl).toNat = 0 ∨ 2 ^ 32 < (sreg t rl).toNat ∨ (k = 0 ∧ 8 ≤ t.auditIn.length) ∨
      (k = 1 ∧ 8 ≤ t.auditOut.length)) :
    exec (.amark g k ra rl) s = .next (setThread s s.cur { t with auditNone := true }) := by
  refine runSlot_ok g s _ t _ hp.1 hp.2 (if_pos ?_)
  simp only [Bool.or_eq_true, decide_eq_true_eq, or_assoc]
  rcases h with h | h | h | ⟨rfl, h⟩ | ⟨rfl, h⟩
  · exact .inl h
  · exact .inr (.inl h)
  · exact .inr (.inr (.inl h))
  · exact .inr (.inr (.inr h))
  · exact .inr (.inr (.inr h))

end

/-- Settles O36: each slot by what it does to its thread. -/
theorem registerSlots : Obligations.RegisterSlots := by
  unfold Obligations.RegisterSlots
  intro g msk rd rs ra rl kk img pd s t hp shadow win
  refine ⟨setfmt_shadows hp msk img, fun hf => ⟨crr_reads hp hf rfl, crr_reads hp hf rfl, crr_reads hp hf rfl,
    crr_reads hp hf rfl, crr_reads hp hf rfl, crr_reads hp hf rfl, crr_reads hp hf rfl, fun hown => ⟨?_, ?_⟩⟩,
    fun n hlo hhi hne => crw_shadows hp rs hlo hhi hne, crw_shadows_fflags hp rs, fun hf => runSlot_scalar hp hf rfl,
    fun hs hpr hroom => dleft_reads hp hs hpr hroom, fun hlo hhi hroom => amark_output hp hlo hhi hroom,
    fun hlo hhi hroom hns => amark_input hp hlo hhi hroom hns, fun h => amark_unauditable hp h⟩
  · exact crr_reads hp hf (congrArg (fun x : Nat × Nat => BitVec.ofNat 64 x.1) (shownIds_own hown))
  · exact crr_reads hp hf (congrArg (fun x : Nat × Nat => BitVec.ofNat 64 x.2) (shownIds_own hown))

end Sys2Proof.Machine

namespace Sys2Proof

/-! The fields of an encoded word (O58) -/

/-- The bits from bit `lo` on of the word that the fields make up. -/
def bitsFrom (lo : Nat) (l : List (Nat × Nat)) : Nat := pk l / 2 ^ lo

section
variable {n v : Nat} (r : List (Nat × Nat)) (hv : v < 2 ^ n)
include hv

theorem bitsFrom_zero_mod : bitsFrom 0 ((n, v) :: r) % 2 ^ n = v := by
  rw [bitsFrom, pow_zero, Nat.div_one, pk, Nat.add_mul_mod_self_left, Nat.mod_eq_of_lt hv]

/-- A field does not reach the bits above it. -/
theorem bitsFrom_above {lo : Nat} (hlo : n ≤ lo) : bitsFrom lo ((n, v) :: r) = bitsFrom (lo - n) r := by
  have hsplit : 2 ^ lo = 2 ^ n * 2 ^ (lo - n) := by rw [← pow_add, Nat.add_sub_cancel' hlo]
  rw [bitsFrom, hsplit, ← Nat.div_div_eq_div_mul, pk, Nat.add_mul_div_left _ _ (Nat.two_pow_pos n), Nat.div_eq_of_lt hv,
    Nat.zero_add, bitsFrom]

end

/-! An operand, a flag, or a constant below the bits that are read: passed over. -/

@[simp] theorem bitsFrom_above_bitVec {n lo : Nat} (x : BitVec n) (r : List (Nat × Nat)) (hlo : n ≤ lo) :
    bitsFrom lo ((n, x.toNat) :: r) = bitsFrom (lo - n) r := bitsFrom_above r x.isLt hlo

@[simp] theorem bitsFrom_above_bool {lo : Nat} (b : Bool) (r : List (Nat × Nat)) (hlo : 1 ≤ lo) :
    bitsFrom lo ((1, b.toNat) :: r) = bitsFrom (lo - 1) r := bitsFrom_above r b.toNat_lt hlo

@[simp] theorem bitsFrom_above_const {n v lo : Nat} (r : List (Nat × Nat)) (hlo : n ≤ lo) (hv : v < 2 ^ n) :
    bitsFrom lo ((n, v) :: r) = bitsFrom (lo - n) r := bitsFrom_above r hv hlo

/-! An operand, a flag, or a constant at the bits that are read. -/

@[simp] theorem ofNat_bitsFrom {n : Nat} (x : BitVec n) (r : List (Nat × Nat)) :
    BitVec.ofNat n (bitsFrom 0 ((n, x.toNat) :: r)) = x := by
  apply BitVec.eq_of_toNat_eq
  rw [BitVec.toNat_ofNat, bitsFrom_zero_mod r x.isLt]

@[simp] theorem bitsFrom_mod_bool (b : Bool) (r : List (Nat × Nat)) : bitsFrom 0 ((1, b.toNat) :: r) % 2 = b.toNat :=
  bitsFrom_zero_mod r b.toNat_lt

@[simp] theorem bitsFrom_mod_const {n v m : Nat} (r : List (Nat × Nat)) (hm : m = 2 ^ n) (hv : v < m) :
    bitsFrom 0 ((n, v) :: r) % m = v := by
  subst hm
  exact bitsFrom_zero_mod r hv

/-! The decoder's readers -/

@[simp] theorem bv_pk (n lo : Nat) (l : List (Nat × Nat)) : bv n lo (pk l) = BitVec.ofNat n (bitsFrom lo l) := rfl

@[simp] theorem bt_pk (lo : Nat) (l : List (Nat × Nat)) : bt lo (pk l) = (bitsFrom lo l % 2 == 1) := rfl

@[simp] theorem fld_pk (hi lo : Nat) (l : List (Nat × Nat)) : fld hi lo (pk l) = bitsFrom lo l % 2 ^ (hi + 1 - lo) := rfl

@[simp] theorem guardAt_pk (lo : Nat) (l : List (Nat × Nat)) : guardAt lo (pk l) = ⟨bt (lo + 3) (pk l), bv 3 lo (pk l)⟩ := rfl

@[simp] theorem zeros_true (i : Instr) : zeros true i = .ok i := rfl

/-! The maps of R213 to R218 -/

/-- A word as the map of its slot's kind reads it. -/
def parseSlot : Kind → Nat → Except Reject Instr
  | .s0 | .s1 => parseS
  | .m0 => parseM false
  | .m1 => parseM true
  | .v => parseV
  | .x => parseX
  | .c => parseC
  | .q => parseQ

@[simp] theorem parseSlot_mem (m1 : Bool) : parseSlot (if m1 then .m1 else .m0) = parseM m1 := by
  cases m1 <;> rfl

/-! Each map, by the instructions of its kind, which the two hypotheses leave: every field stands in the word where the map
reads it. -/

section
variable {i : Instr} {k : Kind} (h : slotKind i = some k)
include h

theorem slotKind_ne_s0 : k ≠ .s0 := by
  cases i <;> cases h
  all_goals simp [ite_eq_iff]

/-- R213. -/
theorem parseS_encode (hk : k = .s1) : parseSlot k (encode i) = .ok i := by
  cases i <;> cases h
  all_goals simp [ite_eq_iff] at hk
  all_goals unfold encode; simp (disch := decide) [parseSlot, parseS]

/-- R214. -/
theorem parseM_encode (hk : k = .m0 ∨ k = .m1) : parseSlot k (encode i) = .ok i := by
  cases i <;> cases h
  all_goals simp at hk
  all_goals unfold encode; simp (disch := decide) [parseM]

/-- R215. -/
theorem parseV_encode (hk : k = .v) : parseSlot k (encode i) = .ok i := by
  cases i <;> cases h
  all_goals simp [ite_eq_iff] at hk
  all_goals unfold encode; simp (disch := decide) [parseSlot, parseV]

/-- R216. -/
theorem parseX_encode (hk : k = .x) : parseSlot k (encode i) = .ok i := by
  cases i <;> cases h
  all_goals simp [ite_eq_iff] at hk
  all_goals unfold encode; simp (disch := decide) [parseSlot, parseX]

/-- R217. -/
theorem parseC_encode (hk : k = .c) : parseSlot k (encode i) = .ok i := by
  cases i <;> cases h
  all_goals simp [ite_eq_iff] at hk
  all_goals unfold encode; simp (disch := decide) [parseSlot, parseC]

/-- R218. -/
theorem parseQ_encode (hk : k = .q) : parseSlot k (encode i) = .ok i := by
  cases i <;> cases h
  all_goals simp [ite_eq_iff] at hk
  all_goals unfold encode; simp (disch := decide) [parseSlot, parseQ]

/-- R209 to R218: the map of its slot's kind reads an instruction back from its word. -/
theorem parseSlot_encode : parseSlot k (encode i) = .ok i := by
  cases k with
  | s0 => exact absurd rfl (slotKind_ne_s0 h)
  | s1 => exact parseS_encode h rfl
  | m0 => exact parseM_encode h (.inl rfl)
  | m1 => exact parseM_encode h (.inr rfl)
  | v => exact parseV_encode h rfl
  | x => exact parseX_encode h rfl
  | c => exact parseC_encode h rfl
  | q => exact parseQ_encode h rfl

end

/-- R212, R213: a well-formed instruction that a map reads is admitted, in S0 unless it is marked S1. -/
theorem decodeSlot_of_parseSlot {i : Instr} {k : Kind} {w : Nat} (hs : k = .s0 → s1Only i = false) (hwf : WellFormed i = true)
    (h : parseSlot k w = .ok i) : decodeSlot k w = .ok i := by
  have hok : admitted i = .ok i := if_pos hwf
  cases k with
  | s0 => simpa [decodeSlot, decodeS, show parseS w = .ok i from h, hs] using hok
  | s1 => simpa [decodeSlot, decodeS, show parseS w = .ok i from h] using hok
  | x => simpa [decodeSlot, decodeX, show parseX w = .ok i from h] using hok
  | m0 | m1 | v | c | q => exact (congrArg (Except.bind · admitted) h).trans hok

/-- R385. -/
theorem decodeQuokor_qenq (rs2 rs1 rd : BitVec 5) : decodeQuokor (encode (.qenq rs2 rs1 rd)) = some (.qenq rs2 rs1 rd) := by
  unfold encode
  rw [decodeQuokor, if_pos ⟨Nat.add_mul_mod_self_left .., by simp (disch := decide), by simp (disch := decide)⟩]
  simp (disch := decide)

/-- Settles O58: the map of each kind reads the fields back, and a well-formed instruction is admitted. -/
theorem encodeDecode : Obligations.EncodeDecode := by
  unfold Obligations.EncodeDecode
  refine ⟨fun i k hwf h => ?_, fun i hwf h hs => ?_, decodeQuokor_qenq, rfl⟩
  · exact decodeSlot_of_parseSlot (fun hk => absurd hk (slotKind_ne_s0 h)) hwf (parseSlot_encode h)
  · exact decodeSlot_of_parseSlot (k := .s0) (fun _ => hs) hwf (parseSlot_encode (k := .s1) h)

/-- Settles O57: each word is the encoding of its instruction, or is refused by the first check that it fails. -/
theorem decodeWords : Obligations.DecodeWords := by
  unfold Obligations.DecodeWords
  obtain ⟨hslot, hs0, hqenq, hqfence⟩ := encodeDecode
  exact ⟨hslot (.movi ⟨false, 0⟩ 6 0) .s1 rfl rfl, hslot (.loopReg ⟨false, 0⟩ 1 1 3) .s1 rfl rfl,
    hs0 (.add ⟨false, 0⟩ 6 6 1) rfl rfl rfl, hs0 (.addi ⟨false, 0⟩ 1 1 0xFFF) rfl rfl rfl,
    hslot (.trap ⟨true, 2⟩ 42) .s1 rfl rfl, hslot (.ldw ⟨false, ⟨false, 0⟩, false⟩ 6 1 0 0 1 40 0) .m0 rfl rfl,
    hslot (.wait ⟨true, ⟨false, 0⟩, false⟩ 0 15 15 15) .m1 rfl rfl,
    hslot (.vfma ⟨⟨false, 0⟩, false, 7⟩ 4 0 5 6 0 true) .v rfl rfl,
    hslot (.mma ⟨⟨false, 0⟩, false, 31⟩ true 2 14 15 1 10 11 12 13) .x rfl rfl,
    hslot (.binit ⟨false, 0⟩ 1 11 12) .c rfl rfl, hslot (.copy ⟨false, 0⟩ 0 2) .c rfl rfl, hslot (.enqt ⟨false, 0⟩ 1) .q rfl rfl,
    hqenq 12 11 10, hqfence, rfl, rfl, rfl⟩

end Sys2Proof

namespace Sys2Proof.Machine

/-! Traps of the transfers (O10) -/

/-- The slot takes the trap of class `cls` and cause `cause` with `qw6`: its thread's save begins, everything else of the
thread's position and registers as it was. -/
def TakesTrap (i : Instr) (s : State) (t : Thread) (cls cause qw6 : Nat) : Prop :=
  ∃ s' t', exec i s = .next s' ∧ threadOf s' s.cur = some t' ∧ t'.phase = .saving true s.now ∧
    t'.posFault = some { cls := cls, cause := cause, qw6 := BitVec.ofNat 64 qw6, cycle := s.now } ∧
    t'.q = t.q ∧ t'.r = t.r ∧ SameMemory s s'

/-- R206: an index at or above COUNT is misaligned, cause INDEX. -/
theorem checkIndex_outside {t : Thread} {j : BitVec 6} (h : t.q.buf.count ≤ j.toNat) :
    checkIndex t j = .error (.fault { cls := 4, cause := 2, qw6 := BitVec.ofNat 64 j.toNat }) := if_neg (Nat.not_lt.mpr h)

theorem checkIndex_inside {t : Thread} {j : BitVec 6} (h : j.toNat < t.q.buf.count) : checkIndex t j = .ok () := if_pos h

section
variable {s : State} {t : Thread} {n : Nat} {start exit : BitVec 6}

/-- R241: LOOP with its START at or above COUNT. -/
theorem openLoop_start (h : t.q.buf.count ≤ start.toNat) : openLoop s t n start exit =
    .error (.fault { cls := 4, cause := 2, qw6 := BitVec.ofNat 64 start.toNat }) := by
  rw [openLoop, checkIndex_outside h, Except.bind]

/-- R241: LOOP with its EXIT there. -/
theorem openLoop_exit (hstart : start.toNat < t.q.buf.count) (h : t.q.buf.count ≤ exit.toNat) : openLoop s t n start exit =
    .error (.fault { cls := 4, cause := 2, qw6 := BitVec.ofNat 64 exit.toNat }) := by
  rw [openLoop, checkIndex_inside hstart, checkIndex_outside h, Except.bind, Except.bind]

/-- R241: LOOP on a full stack. -/
theorem openLoop_full (hstart : start.toNat < t.q.buf.count) (hexit : exit.toNat < t.q.buf.count) (hfull : t.q.loops.length = 6)
    (hn : n ≠ 0) : openLoop s t n start exit = .error (.fault { cls := 5, cause := 1, qw6 := BitVec.ofNat 64 6 }) := by
  simp [openLoop, checkIndex_inside hstart, checkIndex_inside hexit, Except.bind, hn, hfull, loopFault]

end

section
variable {g : Guard} {s : State} {t : Thread} (hp : Performs s t g) (hh : t.handler = false) (hr : t.replay = false)
include hp hh hr

/-- A slot that meets a fault at issue takes it (R335 step 1). -/
theorem takesTrap_of {i : Instr} {f : Thread → Slot} {cls cause qw6 : Nat} (hi : exec i s = runSlot g s f)
    (hf : f t = .error (.fault { cls := cls, cause := cause, qw6 := BitVec.ofNat 64 qw6 })) : TakesTrap i s t cls cause qw6 := by
  have hexec := hi.trans (runSlot_error g s t f _ hp.1 hp.2 hf)
  rw [attend, takeException_eq hp.1 hh hr] at hexec
  exact ⟨_, _, hexec, threadOf_setThread .., rfl, rfl, rfl, rfl, fun _ => rfl⟩

theorem br_indexTrap {tgt : BitVec 6} (h : t.q.buf.count ≤ tgt.toNat) : TakesTrap (.br g tgt) s t 4 2 tgt.toNat :=
  takesTrap_of hp hh hr rfl (congrArg (Except.map _) (checkIndex_outside h))

theorem brk_indexTrap {tgt : BitVec 6} (h : t.q.buf.count ≤ tgt.toNat) (hloops : t.q.loops ≠ []) :
    TakesTrap (.brk g tgt) s t 4 2 tgt.toNat := by
  obtain ⟨top, rest, hstack⟩ := List.exists_cons_of_ne_nil hloops
  exact takesTrap_of hp hh hr rfl (by rw [hstack]; exact congrArg (Except.map _) (checkIndex_outside h))

/-- Both forms of LOOP take the trap that opening the loop meets, whatever its count. -/
theorem loop_trap {start exit : BitVec 6} {cls cause qw6 : Nat}
    (h : ∀ n, openLoop s t n start exit = .error (.fault { cls := cls, cause := cause, qw6 := BitVec.ofNat 64 qw6 }))
    (cnt : BitVec 9) (ra : BitVec 5) :
    TakesTrap (.loopImm g cnt start exit) s t cls cause qw6 ∧ TakesTrap (.loopReg g ra start exit) s t cls cause qw6 :=
  ⟨takesTrap_of hp hh hr rfl (h _), takesTrap_of hp hh hr rfl (h _)⟩

theorem endl_emptyTrap (hloops : t.q.loops = []) : TakesTrap (.endl g) s t 5 2 0 :=
  takesTrap_of hp hh hr rfl (by rw [hloops]; rfl)

theorem brk_emptyTrap {tgt : BitVec 6} (hloops : t.q.loops = []) : TakesTrap (.brk g tgt) s t 5 2 0 :=
  takesTrap_of hp hh hr rfl (by rw [hloops]; rfl)

end

/-- Settles O10: each slot by the fault that it meets at issue. -/
theorem transferTraps : Obligations.TransferTraps := by
  unfold Obligations.TransferTraps
  intro g ra cnt start exit tgt s t hp hh hr traps
  refine ⟨fun h => ⟨br_indexTrap hp hh hr h, brk_indexTrap hp hh hr h⟩, fun h => loop_trap hp hh hr (fun _ => openLoop_start h) cnt ra,
    fun hs h => loop_trap hp hh hr (fun _ => openLoop_exit hs h) cnt ra, fun hs he hfull => ⟨fun hn => ?_, fun hn => ?_⟩,
    fun h => ⟨endl_emptyTrap hp hh hr h, brk_emptyTrap hp hh hr h⟩⟩
  · have hcount : cnt.toNat ≠ 0 := fun h => hn (BitVec.eq_of_toNat_eq h)
    exact takesTrap_of hp hh hr rfl (openLoop_full hs he hfull hcount)
  · have hcount : (sreg t ra).toNat ≠ 0 := fun h => hn (BitVec.eq_of_toNat_eq h)
    exact takesTrap_of hp hh hr rfl (openLoop_full hs he hfull hcount)

end Sys2Proof.Machine

namespace Sys2Proof.Machine

/-! Integer arithmetic and logic (O1) -/

section
variable (x y : Word)

/-- R230: SUB's value, by the signed operands. -/
theorem sub_eq_ofInt : x - y = BitVec.ofInt 64 (x.toInt - y.toInt) := by
  rw [Int.sub_eq_add_neg, BitVec.ofInt_add, BitVec.ofInt_neg, BitVec.ofInt_toInt, BitVec.ofInt_toInt, BitVec.sub_eq_add_neg]

/-- R230: MULH.i's value, rounded down. -/
theorem mulHigh_eq_fdiv : mulHigh x y = BitVec.ofInt 64 (Int.fdiv (x.toInt * y.toInt) (2 ^ 64)) := by
  rw [mulHigh, Int.fdiv_eq_ediv_of_nonneg _ (by decide)]

/-- R230: MULH.n's value is within the word. -/
theorem mulHighU_toNat : (mulHighU x y).toNat = x.toNat * y.toNat / 2 ^ 64 := by
  have hlt : x.toNat * y.toNat / 2 ^ 64 < 2 ^ 64 := Nat.div_lt_of_lt_mul (Nat.mul_lt_mul'' x.isLt y.isLt)
  rw [mulHighU, BitVec.toNat_ofNat, Nat.mod_eq_of_lt hlt]

/-! R230: the smaller and the larger operand, signed and unsigned -/

theorem toInt_smaller : (if x.slt y then x else y).toInt = min x.toInt y.toInt := by
  simp only [BitVec.slt_iff_toInt_lt]
  split <;> omega

theorem toInt_larger : (if y.slt x then x else y).toInt = max x.toInt y.toInt := by
  simp only [BitVec.slt_iff_toInt_lt]
  split <;> omega

theorem toNat_smaller : (if x.ult y then x else y).toNat = min x.toNat y.toNat := by
  simp only [BitVec.ult_iff_lt, BitVec.lt_def]
  split <;> omega

theorem toNat_larger : (if y.ult x then x else y).toNat = max x.toNat y.toNat := by
  simp only [BitVec.ult_iff_lt, BitVec.lt_def]
  split <;> omega

end

/-- R231: a signed immediate of 12 bits repeats its top bit. -/
theorem getLsbD_imm12 (i : BitVec 12) {k : Nat} (hk : k < 64) :
    (imm i).getLsbD k = if k < 12 then i.getLsbD k else i.getLsbD 11 := by
  rw [imm, BitVec.getLsbD_signExtend, decide_eq_true hk, Bool.true_and, BitVec.msb_eq_getLsbD_last]

/-- ADDI's value, by the signed operands (R231). -/
theorem add_imm_eq_ofInt (x : Word) {n : Nat} (i : BitVec n) : x + imm i = BitVec.ofInt 64 (x.toInt + i.toInt) := by
  rw [BitVec.ofInt_add, BitVec.ofInt_toInt]
  rfl

/-- Settles O1: each slot puts its value in flight, and the value is the one that R230 or R231 gives. -/
theorem scalarArithmetic : Obligations.ScalarArithmetic := by
  unfold Obligations.ScalarArithmetic
  refine ⟨fun g rd ra rb s t hp hf1 hf3 => ?_, fun g rd ra i s t hp hf => ?_⟩
  · refine ⟨runSlot_scalar hp hf1 rfl, runSlot_scalar hp hf1 (by rw [sub_eq_ofInt]), runSlot_scalar hp hf3 rfl,
      ⟨_, runSlot_scalar hp hf3 rfl, mulHigh_eq_fdiv ..⟩, ⟨_, runSlot_scalar hp hf3 rfl, mulHighU_toNat ..⟩,
      ⟨_, runSlot_scalar hp hf1 rfl, fun _ => BitVec.getLsbD_and⟩, ⟨_, runSlot_scalar hp hf1 rfl, fun _ => BitVec.getLsbD_or⟩,
      ⟨_, runSlot_scalar hp hf1 rfl, fun _ => BitVec.getLsbD_xor⟩, ⟨_, runSlot_scalar hp hf1 rfl, fun k hk => ?_⟩,
      ⟨_, runSlot_scalar hp hf1 rfl, toInt_smaller ..⟩, ⟨_, runSlot_scalar hp hf1 rfl, toNat_smaller ..⟩,
      ⟨_, runSlot_scalar hp hf1 rfl, toInt_larger ..⟩, ⟨_, runSlot_scalar hp hf1 rfl, toNat_larger ..⟩⟩
    rw [BitVec.getLsbD_and, BitVec.getLsbD_not, decide_eq_true hk, Bool.true_and]
  · refine ⟨runSlot_scalar hp hf (by rw [add_imm_eq_ofInt]), ⟨_, runSlot_scalar hp hf rfl, fun k hk => ?_⟩,
      ⟨_, runSlot_scalar hp hf rfl, fun k hk => ?_⟩, ⟨_, runSlot_scalar hp hf rfl, fun k hk => ?_⟩⟩
    · rw [BitVec.getLsbD_and, getLsbD_imm12 i hk]
    · rw [BitVec.getLsbD_or, getLsbD_imm12 i hk]
    · rw [BitVec.getLsbD_xor, getLsbD_imm12 i hk]

end Sys2Proof.Machine

namespace Sys2Proof.Machine

/-! Shifts, rotates and bit fields (O2) -/

/-- R232: the count of a register form is the register modulo 64. -/
theorem shiftCount_eq (t : Thread) (rb : BitVec 5) : shiftCount t rb = (sreg t rb).toNat % 64 := by
  rw [shiftCount, wf, bits, pow_zero, Nat.div_one]
  rfl

section
variable (x : Word) (c : Nat)

theorem toNat_shiftLeft_mul : (x <<< c).toNat = x.toNat * 2 ^ c % 2 ^ 64 := by
  rw [BitVec.toNat_shiftLeft, Nat.shiftLeft_eq]

theorem toNat_ushiftRight_div : (x >>> c).toNat = x.toNat / 2 ^ c := by
  rw [BitVec.toNat_ushiftRight, Nat.shiftRight_eq_div_pow]

/-- R232: an arithmetic shift divides, rounding down. -/
theorem sshiftRight_eq_fdiv : x.sshiftRight c = BitVec.ofInt 64 (Int.fdiv x.toInt (2 ^ c)) := by
  rw [BitVec.sshiftRight, Int.shiftRight_eq_div_pow, Int.fdiv_eq_ediv_of_nonneg _ (by positivity)]
  push_cast
  rfl

/-- The two parts of a rotate share no bit. -/
theorem rotate_parts_disjoint : x >>> c &&& x <<< (64 - c) = 0#64 := by
  refine BitVec.eq_of_getLsbD_eq fun i hi => ?_
  rw [BitVec.getLsbD_and, BitVec.getLsbD_ushiftRight, BitVec.getLsbD_shiftLeft, BitVec.getLsbD_zero]
  by_cases hlow : i < 64 - c
  · simp [hlow]
  · rw [BitVec.getLsbD_of_ge x (c + i) (by omega), Bool.false_and]

/-- R232: a rotate is the sum of its two parts, modulo the word; a count of 0 gives x. -/
theorem rotateRight_eq_sum (hc : c < 64) :
    x.rotateRight c = BitVec.ofNat 64 (x.toNat / 2 ^ c + x.toNat * 2 ^ (64 - c)) := by
  rw [BitVec.rotateRight_eq_rotateRightAux_of_lt hc, BitVec.rotateRightAux,
    ← BitVec.add_eq_or_of_and_eq_zero _ _ (rotate_parts_disjoint x c)]
  refine BitVec.eq_of_toNat_eq ?_
  rw [BitVec.toNat_add, toNat_ushiftRight_div, toNat_shiftLeft_mul, BitVec.toNat_ofNat, Nat.add_mod_mod]

end

section
variable (pos len : BitVec 6)

/-- R180: the sign of an element is its top bit. -/
theorem asInt_signed (n v : Nat) (hv : v < 2 ^ (n + 1)) :
    asInt (n + 1) true v = if v.testBit n then (v : Int) - 2 ^ (n + 1) else v := by
  have htop : (2 ^ n ≤ v) ↔ v.testBit n = true :=
    ⟨fun h => Nat.testBit_of_two_pow_le_and_two_pow_add_one_gt h hv, Nat.ge_two_pow_of_testBit⟩
  simp only [asInt, Nat.add_sub_cancel, Bool.true_and, decide_eq_true_eq, htop]

/-- R233: BFX.i's value. -/
theorem bitFieldI_eq (v : Word) : bitFieldI v pos len = BitVec.ofInt 64
    (if (bitField v pos len).testBit len.toNat then (bitField v pos len : Int) - 2 ^ (len.toNat + 1) else bitField v pos len) := by
  have hfield : bitField v pos len < 2 ^ (len.toNat + 1) := Nat.mod_lt _ (Nat.two_pow_pos _)
  rw [bitFieldI, asInt_signed _ _ hfield]

/-- R233: BFI takes the field's bits from v and every other bit from d. -/
theorem getLsbD_bitInsert (d v : Word) {k : Nat} (hk : k < 64) : (bitInsert d v pos len).getLsbD k =
    if pos.toNat ≤ k ∧ k < pos.toNat + (len.toNat + 1) then v.getLsbD (k - pos.toNat) else d.getLsbD k := by
  rw [bitInsert, BitVec.getLsbD_or, BitVec.getLsbD_and, BitVec.getLsbD_not, BitVec.getLsbD_ofNat, BitVec.getLsbD_ofNat,
    Nat.testBit_mul_two_pow, Nat.testBit_mul_two_pow, Nat.testBit_two_pow_sub_one, Nat.testBit_mod_two_pow, BitVec.testBit_toNat]
  by_cases hlow : pos.toNat ≤ k
  · by_cases hhigh : k < pos.toNat + (len.toNat + 1)
    · have hin : k - pos.toNat < len.toNat + 1 := by omega
      simp [hlow, hhigh, hin, hk]
    · have hout : ¬ k - pos.toNat < len.toNat + 1 := by omega
      simp [hlow, hhigh, hout, hk]
  · simp [hlow, hk]

end

/-- R212, R233: a word that its map reads as an ill-formed slot is refused. -/
theorem decodeSlot_s1_illFormed {i : Instr} (h : slotKind i = some .s1) (hwf : WellFormed i = false) :
    decodeSlot .s1 (encode i) = .error .fieldValue := by
  have hparse : parseS (encode i) = .ok i := parseSlot_encode h
  simp [decodeSlot, decodeS, hparse, Sys2Proof.admitted, hwf]

/-- R233: a field that ends above bit 63. -/
theorem bitFieldOk_above {pos len : BitVec 6} (h : 64 < pos.toNat + (len.toNat + 1)) : bitFieldOk pos len = false :=
  decide_eq_false (Nat.not_le.mpr h)

/-- Settles O2: each slot puts its value in flight, by its count or its field; a field above the word is ill-formed. -/
theorem shiftsAndBitFields : Obligations.ShiftsAndBitFields := by
  unfold Obligations.ShiftsAndBitFields
  refine ⟨fun g rd ra rb c s t hp hf => ?_, fun g rd ra pos len s t hp hf => ⟨fun _ => ?_, fun h => ?_⟩⟩
  · rw [← shiftCount_eq]
    have hcount : shiftCount t rb < 64 := (shiftCount_eq t rb).trans_lt (Nat.mod_lt _ (by decide))
    exact ⟨⟨_, runSlot_scalar hp hf rfl, toNat_shiftLeft_mul ..⟩, ⟨_, runSlot_scalar hp hf rfl, toNat_ushiftRight_div ..⟩,
      ⟨_, runSlot_scalar hp hf rfl, sshiftRight_eq_fdiv ..⟩, ⟨_, runSlot_scalar hp hf rfl, rotateRight_eq_sum _ _ hcount⟩,
      ⟨_, runSlot_scalar hp hf rfl, toNat_shiftLeft_mul ..⟩, ⟨_, runSlot_scalar hp hf rfl, toNat_ushiftRight_div ..⟩,
      ⟨_, runSlot_scalar hp hf rfl, sshiftRight_eq_fdiv ..⟩, ⟨_, runSlot_scalar hp hf rfl, rotateRight_eq_sum _ _ c.isLt⟩⟩
  · exact ⟨runSlot_scalar hp hf rfl, runSlot_scalar hp hf (by rw [bitFieldI_eq]; rfl),
      ⟨_, runSlot_scalar hp hf rfl, fun k hk => getLsbD_bitInsert pos len _ _ hk⟩⟩
  · have hill := bitFieldOk_above h
    exact ⟨decodeSlot_s1_illFormed rfl hill, decodeSlot_s1_illFormed rfl hill, decodeSlot_s1_illFormed rfl hill⟩

end Sys2Proof.Machine

namespace Sys2Proof.Machine

/-! Counting, select and constants (O3) -/

section
variable (x : Word)

theorem clz_le : clz x ≤ 64 := by
  unfold clz
  split <;> omega

/-- R234: the most significant 1 of a nonzero x is bit 63 - clz x. -/
theorem clz_of_ne_zero (hx : x ≠ 0) : clz x < 64 ∧ 2 ^ (63 - clz x) ≤ x.toNat ∧ x.toNat < 2 ^ (64 - clz x) := by
  have hne : x.toNat ≠ 0 := fun h => hx (BitVec.eq_of_toNat_eq h)
  have htop : x.toNat.log2 < 64 := (Nat.log2_lt hne).mpr x.isLt
  have hlow : 63 - (63 - x.toNat.log2) = x.toNat.log2 := by omega
  have hhigh : 64 - (63 - x.toNat.log2) = x.toNat.log2 + 1 := by omega
  rw [clz, if_neg hx, hlow, hhigh]
  exact ⟨by omega, Nat.log2_self_le hne, Nat.lt_log2_self⟩

/-- R234: what CTZ counts of 0. -/
theorem ctz_zero : ctz 0 = 64 := by decide

/-- R234: the least significant 1 of a nonzero x is bit ctz x. -/
theorem ctz_of_ne_zero (hx : x ≠ 0) : ctz x < 64 ∧ x.getLsbD (ctz x) = true ∧ ∀ k, k < ctz x → x.getLsbD k = false := by
  obtain ⟨i, hi, hone⟩ : ∃ i < 64, x.getLsbD i = true := by
    by_contra! hnone
    exact hx (BitVec.eq_of_getLsbD_eq fun i hi => by simpa using hnone i hi)
  have hsome : ((List.range 64).find? (fun i => x.getLsbD i)).isSome = true :=
    List.find?_isSome.mpr ⟨i, List.mem_range.mpr hi, hone⟩
  obtain ⟨n, hn⟩ := Option.isSome_iff_exists.mp hsome
  obtain ⟨hbit, hmem, hbelow⟩ := List.find?_range_eq_some.mp hn
  rw [ctz, hn, Option.getD_some]
  exact ⟨List.mem_range.mp hmem, hbit, fun k hk => by simpa using hbelow k hk⟩

theorem ctz_le : ctz x ≤ 64 := by
  by_cases hx : x = 0
  · rw [hx, ctz_zero]
  · exact (ctz_of_ne_zero x hx).1.le

theorem ones_le : ones x ≤ 64 := (List.length_filter_le ..).trans_eq List.length_range

end

/-- A count of bits is its own value as a word. -/
theorem toNat_ofNat_count {n : Nat} (h : n ≤ 64) : (BitVec.ofNat 64 n).toNat = n := by
  rw [BitVec.toNat_ofNat, Nat.mod_eq_of_lt (by omega)]

/-- R235: MOVHI's value. -/
theorem movhi_value (x : Word) (i : BitVec 17) : (x <<< 17) + i.setWidth 64 = BitVec.ofNat 64 (x.toNat * 2 ^ 17 + i.toNat) := by
  refine BitVec.eq_of_toNat_eq ?_
  rw [BitVec.toNat_add, BitVec.toNat_shiftLeft, BitVec.toNat_setWidth, Nat.shiftLeft_eq, BitVec.toNat_ofNat, ← Nat.add_mod]

/-- Settles O3: each slot puts its value in flight, and the counts are those of R234. -/
theorem countingSelectConstants : Obligations.CountingSelectConstants := by
  unfold Obligations.CountingSelectConstants
  intro g rd ra rb pn ps i s t hp hf
  refine ⟨⟨_, runSlot_scalar hp hf rfl, fun hx => ?_, fun hx => ?_⟩, ⟨_, runSlot_scalar hp hf rfl, fun hx => ?_, fun hx => ?_⟩,
    ⟨_, runSlot_scalar hp hf rfl, toNat_ofNat_count (ones_le _)⟩, runSlot_scalar hp hf (by rw [Bool.bne_eq_xor]),
    runSlot_scalar hp hf rfl, runSlot_scalar hp hf (by rw [movhi_value])⟩
  · rw [hx]
    rfl
  · rw [toNat_ofNat_count (clz_le _)]
    exact clz_of_ne_zero _ hx
  · rw [hx, ctz_zero]
    rfl
  · rw [toNat_ofNat_count (ctz_le _)]
    exact ctz_of_ne_zero _ hx

end Sys2Proof.Machine

namespace Sys2Proof.Machine

/-! Comparisons and predicates (O4) -/

/-- R236: the test of each condition, on the operands' values. -/
def condTest (cond : Nat) (x y : Word) : Bool :=
  match cond with
  | 0 => decide (x = y)
  | 1 => decide (x ≠ y)
  | 2 => decide (x.toInt < y.toInt)
  | 3 => decide (y.toInt ≤ x.toInt)
  | 4 => decide (x.toNat < y.toNat)
  | 5 => decide (y.toNat ≤ x.toNat)
  | 6 => decide (x.toInt ≤ y.toInt)
  | 7 => decide (y.toInt < x.toInt)
  | 8 => decide (x.toNat ≤ y.toNat)
  | 9 => decide (y.toNat < x.toNat)
  | 10 => decide (x &&& y ≠ 0)
  | _ => decide (x &&& y = 0)

/-- A negated condition is the opposite one's test. -/
theorem condHolds_eq : ∀ (cond : Nat) (x y : Word), condHolds cond x y = condTest cond x y
  | 0, _, _ | 2, _, _ | 4, _, _ | 6, _, _ | 8, _, _ => rfl
  | 3, _, _ | 7, _, _ => by simp [condHolds, condTest, BitVec.slt_eq_decide, BitVec.sle_eq_decide, ← decide_not]
  | 5, _, _ | 9, _, _ => by simp [condHolds, condTest, BitVec.ult_eq_decide, BitVec.ule_eq_decide, ← decide_not]
  | 1, _, _ | 10, _, _ => decide_not.symm
  | _ + 11, x, y => beq_eq_decide (x &&& y) 0

/-- R236: CMPI's operand is unsigned for the unsigned conditions. -/
theorem cmpImm_eq (cond : BitVec 4) (i : BitVec 8) : cmpImm cond i =
    if cond = 4 ∨ cond = 5 ∨ cond = 8 ∨ cond = 9 then BitVec.ofNat 64 i.toNat else BitVec.ofInt 64 i.toInt := by
  have hcond : condUnsigned cond.toNat = true ↔ cond = 4 ∨ cond = 5 ∨ cond = 8 ∨ cond = 9 := by
    revert cond
    decide
  simp only [cmpImm, hcond, BitVec.ofNat_toNat]
  rfl

/-- R236: the three merges. -/
theorem condMerge_eq (cm : BitVec 2) (old new : Bool) :
    condMerge cm old new = if cm = 0 then new else if cm = 1 then old && new else old || new := by
  revert cm old new
  decide

/-- R237: PLOG's table index. -/
theorem plogIndex_eq (a b : Bool) : 2 * b2n a + b2n b = (if a then 2 else 0) + (if b then 1 else 0) := by
  revert a b
  decide

/-- R238: the predicates as bits 0 to 7 of a word, p0 reading 1. -/
theorem getLsbD_predWord (t : Thread) {k : Nat} (hk : k < 64) :
    ((t.r.p ||| 1).setWidth 64).getLsbD k = (decide (k < 8) && pred t (BitVec.ofNat 3 k)) := by
  rw [BitVec.getLsbD_setWidth, decide_eq_true hk, Bool.true_and, BitVec.getLsbD_or]
  by_cases h8 : k < 8
  · have hpd : (BitVec.ofNat 3 k).toNat = k := (BitVec.toNat_ofNat ..).trans (Nat.mod_eq_of_lt h8)
    have hone : (1#8).getLsbD k = (BitVec.ofNat 3 k == 0) := by
      interval_cases k <;> rfl
    rw [decide_eq_true h8, Bool.true_and, pred, hpd, Bool.or_comm]
    exact congrArg (· || _) hone
  · rw [decide_eq_false h8, Bool.false_and, BitVec.getLsbD_of_ge _ _ (by omega), BitVec.getLsbD_of_ge _ _ (by omega), Bool.or_self]

/-! PMOV.wr (R238) -/

/-- The predicate results of PMOV.wr for the predicates p1 to pn that MASK names. -/
def predResults (t : Thread) (v : Word) (mask : BitVec 8) (n : Nat) : List Result :=
  ((List.range (n + 1)).filter (fun k => decide (0 < k) && mask.getLsbD k)).map (fun k =>
    ⟨.preg k, t.x.dc + 1, BitVec.ofNat 2048 (b2n (v.getLsbD k)), fullMask, 0, 0⟩)

/-- The thread with these in flight. -/
def predsMoved (t : Thread) (v : Word) (mask : BitVec 8) (n : Nat) : Thread :=
  { t with x := { t.x with inflight := t.x.inflight ++ predResults t v mask n } }

section
variable (t : Thread) (v : Word) (mask : BitVec 8)

theorem predsMoved_zero : predsMoved t v mask 0 = t := by
  simp [predsMoved, predResults]

theorem predsMoved_succ (n : Nat) : predsMoved t v mask (n + 1) = if mask.getLsbD (n + 1) then
    withResult (predsMoved t v mask n) (.preg (n + 1)) 1 (BitVec.ofNat 2048 (b2n (v.getLsbD (n + 1)))) else predsMoved t v mask n := by
  have hone : predResults t v mask (n + 1) = predResults t v mask n ++ if mask.getLsbD (n + 1) then
      [⟨.preg (n + 1), t.x.dc + 1, BitVec.ofNat 2048 (b2n (v.getLsbD (n + 1))), fullMask, 0, 0⟩] else [] := by
    rw [predResults, List.range_succ, List.filter_append, List.map_append, predResults]
    cases h : mask.getLsbD (n + 1) <;> simp [h]
  rw [predsMoved, hone]
  split
  · simp [predsMoved, withResult]
  · rw [List.append_nil, predsMoved]

theorem inFlight_predsMoved_le (n : Nat) : inFlight (predsMoved t v mask n) ≤ inFlight t + n := by
  induction n with
  | zero => rw [predsMoved_zero]; rfl
  | succ n ih =>
    rw [predsMoved_succ]
    split
    · exact (inFlight_withResult_le ..).trans (Nat.succ_le_succ ih)
    · omega

/-- A predicate above those moved is as free as before. -/
theorem collides_predsMoved {n k : Nat} (hk : n < k) (due : Nat) :
    collides (predsMoved t v mask n) (.preg k) due = collides t (.preg k) due := by
  induction n with
  | zero => rw [predsMoved_zero]
  | succ n ih =>
    have hne : (Dest.preg (n + 1) == .preg k) = false := beq_eq_false_iff_ne.mpr (mt Dest.preg.inj (by omega))
    rw [← ih (by omega), predsMoved_succ]
    split
    · simp [collides, withResult, hne]
    · rfl

end

/-- A predicate result that fits is in flight. -/
theorem addPred_fits {t : Thread} {pd : BitVec 3} {v : Bool} {l : Nat} (hf : Fits t (.preg pd.toNat) l) :
    addPred t pd v l = .ok (withResult t (.preg pd.toNat) l (BitVec.ofNat 2048 (b2n v))) := by
  obtain ⟨hfree, hunread, hroom⟩ := hf
  rcases addResult_cases t (.preg pd.toNat) (BitVec.ofNat 2048 (b2n v)) l 0 with
    ⟨hcol, -⟩ | ⟨-, hread, -⟩ | ⟨-, -, ⟨hd, hfull⟩, -⟩ | ⟨-, hok⟩
  · exact absurd (hfree.symm.trans hcol) Bool.false_ne_true
  · exact absurd (hunread.symm.trans hread) Bool.false_ne_true
  · exact absurd (hroom hd) (Nat.not_lt.mpr hfull)
  · exact hok

/-- One result after the other: each that MASK names finds its place, for those before it are to other predicates. -/
theorem predsMoved_foldl {t : Thread} (v : Word) (mask : BitVec 8) (hroom : inFlight t + 7 ≤ 64)
    (hfree : ∀ k, 1 ≤ k → k ≤ 7 → collides t (.preg k) (t.x.dc + 1) = false) {n : Nat} (hn : n ≤ 7) :
    (List.range n).foldl (fun (r : Except Attn Thread) i => r.bind (fun u =>
      if mask.getLsbD (i + 1) then addPred u (BitVec.ofNat 3 (i + 1)) (v.getLsbD (i + 1)) 1 else .ok u)) (.ok t) =
    .ok (predsMoved t v mask n) := by
  induction n with
  | zero => rw [predsMoved_zero]; rfl
  | succ n ih =>
    have hpd : (BitVec.ofNat 3 (n + 1)).toNat = n + 1 := (BitVec.toNat_ofNat ..).trans (Nat.mod_eq_of_lt (by omega))
    have hfits : Fits (predsMoved t v mask n) (.preg (BitVec.ofNat 3 (n + 1)).toNat) 1 := by
      refine ⟨?_, rfl, fun _ => ?_⟩
      · rw [hpd, collides_predsMoved t v mask (Nat.lt_succ_self n)]
        exact hfree (n + 1) (by omega) hn
      · have hmore := inFlight_predsMoved_le t v mask n
        omega
    rw [List.range_succ, List.foldl_append, ih (by omega), predsMoved_succ]
    show ite _ _ _ = _
    rw [addPred_fits hfits, hpd]
    split <;> rfl

/-- R238: PMOV.wr. -/
theorem pmovWr_moves {g : Guard} {s : State} {t : Thread} (hp : Performs s t g) (reg : BitVec 5) (mask : BitVec 8)
    (hroom : inFlight t + 7 ≤ 64) (hfree : ∀ k, 1 ≤ k → k ≤ 7 → collides t (.preg k) (t.x.dc + 1) = false) :
    exec (.pmovWr g reg mask) s = .next (setThread s s.cur (predsMoved t (sreg t reg) mask 7)) :=
  runSlot_ok g s _ t _ hp.1 hp.2 (congrArg (Except.map _) (predsMoved_foldl (sreg t reg) mask hroom hfree (Nat.le_refl 7)))

/-- Settles O4: each slot puts its result in flight; PMOV.wr one for each predicate that it moves. -/
theorem comparisonsAndPredicates : Obligations.ComparisonsAndPredicates := by
  unfold Obligations.ComparisonsAndPredicates
  refine ⟨fun g pd pa pb cond lut ra rb reg cm i s t hp _ _ hfp hfs => ?_, fun g reg mask s t hp hroom hfree => ?_⟩
  · intro test merge small
    have hmerge (x y : Word) : condMerge cm (pred t pd) (condHolds cond.toNat x y) = merge (test x y) := by
      rw [condMerge_eq, condHolds_eq]
      rfl
    refine ⟨runSlot_pred hp hfp (by rw [hmerge]), runSlot_pred hp hfp (by rw [hmerge, cmpImm_eq]),
      runSlot_pred hp hfp (by rw [plogIndex_eq]), ⟨_, runSlot_scalar hp hfs rfl, fun k hk => getLsbD_predWord t hk⟩⟩
  · exact pmovWr_moves hp reg mask hroom hfree

end Sys2Proof.Machine

namespace Sys2Proof.Machine

/-! Branches and loops within a segment (O9) -/

section
variable {g : Guard} {s : State} {t : Thread}

/-- The thread after its loop stack has changed and it has gone to bundle i (R241). -/
def loopedTo (t : Thread) (i : Nat) (loops : List (Nat × Nat)) : Thread :=
  { t with q := { t.q with idx := i, moved := true, loops := loops } }

/-- LOOP within its segment, on a stack with room: past the loop when its count is 0, else into it (R241). -/
theorem openLoop_ok {n : Nat} {start exit : BitVec 6} (hs : start.toNat < t.q.buf.count) (he : exit.toNat < t.q.buf.count)
    (hroom : t.q.loops.length < 6) : openLoop s t n start exit = .ok (if n = 0 then setThread s s.cur (movedTo t exit.toNat)
      else setThread s s.cur (loopedTo t start.toNat ((start.toNat, n) :: t.q.loops))) := by
  rw [openLoop, checkIndex_inside hs, checkIndex_inside he]
  show ite _ _ _ = _
  rw [if_neg (Nat.not_le.mpr hroom)]
  split <;> rfl

/-- R239: BR. -/
theorem br_moves {tgt : BitVec 6} (hp : Performs s t g) (h : tgt.toNat < t.q.buf.count) :
    exec (.br g tgt) s = .next (setThread s s.cur (movedTo t tgt.toNat)) :=
  runSlot_ok g s _ t _ hp.1 hp.2 (congrArg (Except.map _) (checkIndex_inside h))

section
variable {st n : Nat} {rest : List (Nat × Nat)} (hp : Performs s t g) (hloops : t.q.loops = (st, n) :: rest)
include hp hloops

/-- R241: BREAK. -/
theorem brk_pops {tgt : BitVec 6} (h : tgt.toNat < t.q.buf.count) :
    exec (.brk g tgt) s = .next (setThread s s.cur (loopedTo t tgt.toNat rest)) :=
  runSlot_ok g s _ t _ hp.1 hp.2 (by rw [hloops, checkIndex_inside h]; rfl)

/-- R241: ENDL of the last iteration. -/
theorem endl_pops (hn : n = 1) : exec (.endl g) s = .next (setThread s s.cur (loopedTo t (t.q.idx + 1) rest)) :=
  runSlot_ok g s _ t _ hp.1 hp.2 (by rw [hloops]; exact if_pos hn)

/-- R173, R241: ENDL of an earlier one goes back, and that is a pre-emption point. -/
theorem endl_repeats (hn : 1 < n) (hst : st < t.q.buf.count) :
    exec (.endl g) s = .next (setThread s s.cur (atPoint (loopedTo t st ((st, n - 1) :: rest)))) :=
  runSlot_ok g s _ t _ hp.1 hp.2 (by
    rw [hloops]
    exact (if_neg (Nat.ne_of_gt hn)).trans (if_neg (Nat.not_le.mpr hst)))

end

end

/-- Settles O9: each transfer by where it goes and what it leaves on the loop stack. -/
theorem transfers : Obligations.Transfers := by
  unfold Obligations.Transfers
  intro g ra cnt start exit tgt s t st n rest hp hs he ht loop
  refine ⟨br_moves hp ht, fun hroom => ?_, fun hloops => ?_⟩
  · exact ⟨runSlot_ok g s _ t _ hp.1 hp.2 (openLoop_ok hs he hroom), runSlot_ok g s _ t _ hp.1 hp.2 (openLoop_ok hs he hroom)⟩
  · exact ⟨brk_pops hp hloops ht, endl_pops hp hloops, endl_repeats hp hloops⟩

end Sys2Proof.Machine

namespace Sys2Proof.Machine

/-! BRX into a segment whose hinted successor is not there (O11) -/

/-- R165, R240: where the hint names a segment that is neither expanded nor none, entering begins that segment's expansion. -/
theorem enterSegment_expands {s : State} {c : Nat} {t : Thread} {n : Segment} {j : Nat} (hnext : t.q.next = some n)
    (haddr : n.addr ≠ 0) (hfetch : n.fetch = none) (hbad : n.bad = none) (hj : j ≤ n.count) (hhint : hinted n ≠ 0)
    (hother : t.q.buf.addr ≠ hinted n) :
    ∃ u, enterSegment s c t n.addr j = .ok (startExpansion (setThread s c u) c (hinted n)) := by
  have hleft : (if t.q.buf.count = 0 ∨ t.q.fenced ∨ t.q.buf.addr = n.addr then none else some t.q.buf).any
      (fun x => x.addr == hinted n) = false := by
    split
    · rfl
    · simpa using hother
  simp only [enterSegment, if_neg haddr, hnext, hfetch, hbad, if_neg (Nat.not_lt.mpr hj), hleft, ne_eq, not_true_eq_false, if_false,
    Bool.or_false, decide_eq_true_eq, if_neg hhint]
  exact ⟨_, rfl⟩

/-- BRX asks for the hinted segment's control line in the same instant: the agenda of later instants is as it was. -/
theorem brx_keeps_agenda {g : Guard} {s : State} {t : Thread} {n : Segment} (hp : Performs s t g) (hnext : t.q.next = some n)
    (haddr : n.addr ≠ 0) (hfetch : n.fetch = none) (hbad : n.bad = none) (htaken : n.addr = t.q.buf.taken)
    (hhint : hinted n ≠ 0) (hother : t.q.buf.addr ≠ hinted n) :
    ∃ s', exec (.brx g) s = .next s' ∧ s'.agenda = s.agenda := by
  obtain ⟨u, hu⟩ := enterSegment_expands (s := s) (c := s.cur) hnext haddr hfetch hbad (Nat.zero_le _) hhint hother
  have hgoes : t.q.buf.taken ≠ 0 := htaken ▸ haddr
  refine ⟨_, runSlot_ok g s _ t _ hp.1 hp.2 ((if_neg hgoes).trans (htaken ▸ hu)), ?_⟩
  exact (agenda_startExpansion ..).trans (setThread_agenda ..)

/-- The segment at 0x80, expanded and sound; its hint names the one at 0xC0. -/
def expandedNext : Segment := { oneSlot 0x80 .s1 0 with fall := 0xC0 }

/-- A thread in the segment at 0x40, whose TAKEN is 0x80. -/
def branchesOn : Thread :=
  let t := Thread.start 0 0 [] JobRegs.reset 0 0 1 [] none 0
  { t with q := { t.q with seg := 0x40, buf := { oneSlot 0x40 .s1 0 with taken := 0x80 }, next := some expandedNext } }

/-- Refutes O11: where the hinted successor is not there, the statement has its expansion stand at the end of the agenda, due
in this instant. The model puts it in the list of what is to be done in this instant (`todo`), and the agenda is as it was. -/
theorem not_segmentTransfers : ¬ Obligations.SegmentTransfers := by
  unfold Obligations.SegmentTransfers
  intro h
  have hp : Performs (setThread State.reset 0 branchesOn) branchesOn ⟨false, 0⟩ := ⟨rfl, rfl⟩
  obtain ⟨hbrx, -⟩ := h ⟨false, 0⟩ 0 0 _ _ expandedNext hp rfl (by decide) rfl rfl ⟨rfl, rfl, by decide⟩
  obtain ⟨s', t', hnext, -, -, -, -, -, -, -, -, -, -, -, -, -, -, -, hexpands⟩ := hbrx rfl
  obtain ⟨s'', hnext', hagenda⟩ := brx_keeps_agenda hp (n := expandedNext) rfl (by decide) rfl rfl rfl (by decide) (by decide)
  rw [if_neg (by decide)] at hexpands
  obtain ⟨-, -, hlonger⟩ := hexpands
  rw [← Host.Outcome.next.inj (hnext'.symm.trans hnext), hagenda] at hlonger
  simpa using congrArg List.length hlonger

end Sys2Proof.Machine

namespace Sys2Proof.Machine

/-! END and TRAP (O12) -/

section
variable {g : Guard} {s : State} {t : Thread}

/-- R51: no counted request that has completed holds a fault. -/
theorem landingFault_none {bounded : Nat → Bool}
    (h : ∀ q ∈ t.reqs, q.due.isNone = true → q.landed = true → q.fault.isNone = true) : landingFault t bounded = none := by
  refine List.find?_eq_none.mpr fun q hq hfault => ?_
  simp only [Bool.and_eq_true] at hfault
  obtain ⟨⟨⟨hdue, hlanded⟩, hsome⟩, -⟩ := hfault
  have hnone := h q hq hdue hlanded
  rw [Option.isNone_iff_eq_none] at hnone
  simp [hnone] at hsome

/-- R243: END. -/
theorem endT_ends (hp : Performs s t g)
    (h : ∀ q ∈ t.reqs, q.due.isNone = true → q.landed = true → q.fault.isNone = true) :
    exec (.endT g) s = .next (setThread s s.cur { t with phase := .ending, q := { t.q with moved := true } }) :=
  runSlot_ok g s _ t _ hp.1 hp.2 (by rw [landingFault_none h])

/-- R244: TRAP takes its fault after its bundle. -/
theorem trap_takes (hp : Performs s t g) (code : BitVec 16) :
    exec (.trap g code) s = .next (takeException s s.cur (softTrap code.toNat) (some (t.q.idx + 1))) :=
  runSlot_error g s t (fun t => .error (.after (softTrap code.toNat) (t.q.idx + 1))) _ hp.1 hp.2 rfl

end

/-- Settles O12: END ends its thread; TRAP begins its thread's save with the index one past its bundle. -/
theorem endAndTrap : Obligations.EndAndTrap := by
  unfold Obligations.EndAndTrap
  intro g code s t hp
  refine ⟨endT_ends hp, fun hh hr => ?_⟩
  obtain ⟨t', ht', hphase, hfault, hidx, hseg, hregs, -⟩ :=
    takeException_thread s s.cur t (softTrap code.toNat) (some (t.q.idx + 1)) hp.1 hh hr
  obtain ⟨hmem, -⟩ := takeException_machine s s.cur t (softTrap code.toNat) (some (t.q.idx + 1)) hp.1 hh hr
  exact ⟨_, t', trap_takes hp code, ht', hphase, hfault, hidx, hseg, hregs, fun a => by rw [hmem]⟩

end Sys2Proof.Machine

namespace Sys2Proof.Machine

/-! What has no effect (O13) -/

section
variable {s : State} {t : Thread} (ht : threadOf s s.cur = some t)
include ht

/-- R286: VNOP in a thread whose V engine is free. -/
theorem vnop_busies (h : VHdr) (v : BitVec 30) (hfree : t.x.vEnd ≤ t.x.dc) : exec (.vnop h v) s =
    .next (setThread s s.cur { t with x := { t.x with vEnd := t.x.dc + h.beats.toNat + 1 } }) :=
  runAlways_ok s _ t _ ht (if_neg (Nat.not_lt.mpr hfree))

/-- R301: XNOP in a thread whose X engine is free, whatever its formats and its guard. -/
theorem xnop_busies (h : XHdr) (x : BitVec 22) (hfree : t.x.xEnd ≤ t.x.dc) : exec (.xnop h x) s =
    .next (setThread s s.cur { t with x := { t.x with xEnd := t.x.dc + h.beats.toNat + 1 } }) := by
  have hbusy : xBusy t h.g true true (xbeats h) = .ok { t with x := { t.x with xEnd := t.x.dc + xbeats h } } := by
    simp [xBusy, Nat.not_lt.mpr hfree]
  exact runAlways_ok s _ t _ ht (congrArg (Except.map (setThread s s.cur)) hbusy)

end

/-- Settles O13: the S, M, C and Q forms leave the state; the V and X forms their thread but for the busy span. -/
theorem noEffect : Obligations.NoEffect := by
  unfold Obligations.NoEffect
  refine ⟨fun g h hv hx x m v c s t => ⟨rfl, rfl, rfl, rfl, fun ht hfree => vnop_busies ht hv v hfree, fun ht hfree _ => ?_⟩,
    fun t v m => ⟨rfl, rfl⟩⟩
  exact ⟨_, xnop_busies ht hx x hfree, rfl, rfl, rfl, rfl⟩

end Sys2Proof.Machine

namespace Sys2Proof.Machine

/-! Addresses of scalar accesses (R245, R251) -/

theorem and_not_low_ones (x : Word) (k : Nat) :
    x &&& ~~~(BitVec.ofNat 64 (2 ^ k - 1)) = BitVec.ofNat 64 (x.toNat / 2 ^ k * 2 ^ k) := by
  refine BitVec.eq_of_getLsbD_eq fun i hi => ?_
  simp only [BitVec.getLsbD_and, BitVec.getLsbD_not, BitVec.getLsbD_ofNat, Nat.testBit_two_pow_sub_one, Nat.testBit_mul_two_pow,
    Nat.testBit_div_two_pow, hi, decide_true, Bool.true_and]
  by_cases h : i < k
  · simp [h, Nat.not_le.mpr h]
  · simp [h, Nat.not_lt.mp h, Nat.sub_add_cancel, BitVec.testBit_toNat]

/-- An access's size is a power of two, and its address is aligned to it. -/
theorem aligned_eq (x : Word) {n : Nat} (hn : n ∈ [1, 2, 4, 8]) :
    x &&& ~~~(BitVec.ofNat 64 (n - 1)) = BitVec.ofNat 64 (x.toNat / n * n) := by
  simp only [List.mem_cons, List.not_mem_nil, or_false] at hn
  obtain rfl | rfl | rfl | rfl := hn
  · exact and_not_low_ones x 0
  · exact and_not_low_ones x 1
  · exact and_not_low_ones x 2
  · exact and_not_low_ones x 3

theorem scalarAddr_eq (t : Thread) (ra : BitVec 5) (disp : BitVec 9) {w : Nat} (hw : w ∈ [1, 2, 4, 8]) :
    scalarAddr t ra disp w = accessAddress t ra disp w := by
  have hdisp : imm disp * BitVec.ofNat 64 w = BitVec.ofInt 64 (disp.toInt * w) := by
    rw [BitVec.ofInt_mul, BitVec.ofInt_natCast]
    rfl
  rw [scalarAddr, aligned_eq _ hw, hdisp, accessAddress]

end Sys2Proof.Machine

namespace Sys2Proof.Machine

/-! Issue of a request with any number of destinations (R41, R43, R44, R172, R253) -/

/-- A thread that has taken sub-banks and is to read tile rows for an access (R40, R253). -/
def withAccess (t : Thread) (used : List Nat) (reads : List (Nat × Nat)) : Thread :=
  { t with x := { t.x with used := used, reads := reads } }

theorem takeBanks_eq (c : Nat) (t : Thread) (pa n k : Nat) : ∃ used, takeBanks c t pa n k = withAccess t used t.x.reads := by
  unfold takeBanks
  split
  · exact ⟨_, rfl⟩
  · exact ⟨t.x.used, rfl⟩

theorem takeRowBanks_eq (c : Nat) (t : Thread) (ps : List Part) : ∃ used, takeRowBanks c t ps = withAccess t used t.x.reads := by
  refine foldl_keeps (fun u => ∃ used, u = withAccess t used t.x.reads) _ ?_ ps t ⟨t.x.used, rfl⟩
  rintro _ p ⟨used, rfl⟩
  obtain ⟨used', h⟩ := takeBanks_eq c (withAccess t used t.x.reads) p.pa p.len (p.row / 4)
  exact ⟨used', h⟩

section
variable {s : State} {t : Thread} {kind : ReqKind} {cls : Nat} {dest : Dest} {l : Landing} {ord scope : Nat} {parts : List Part}
  {ds : List Dest} (hlands : Lands t l cls ds)
  (hdests : l.off ≠ 0 → reqDests (requestOf t kind cls dest l ord scope parts) = ds)
  (hrows : l.off = 0 → ∀ r ∈ countedRows t s.cur kind dest parts, tileRead t (.trow r.1) r.2 = false)
include hlands hdests hrows

theorem checkLandings_lands : checkLandings t s.cur (requestOf t kind cls dest l ord scope parts) = .ok () := by
  obtain ⟨-, -, -, hwrite⟩ := hlands
  by_cases hoff : l.off = 0
  · have hnone : (countedRows t s.cur kind dest parts).any (fun r => tileRead t (.trow r.1) r.2) = false := by
      simpa using hrows hoff
    simp [checkLandings, requestOf, hoff, hnone]
  · have hdue : (requestOf t kind cls dest l ord scope parts).due = some (t.x.dc + l.off) := by simp [requestOf, hoff]
    rw [checkLandings, hdue, hdests hoff]
    have hall : ∀ d ∈ ds, checkWrite t d (t.x.dc + l.off) = .ok () := by
      intro d hd
      obtain ⟨hcol, hread⟩ := hwrite hoff d hd
      simp [checkWrite, hcol, hread]
    clear hdests hwrite
    dsimp only
    induction ds with
    | nil => rfl
    | cons d ds ih =>
      rw [List.foldl_cons, Except.bind, hall d List.mem_cons_self]
      exact ih fun d' hd' => hall d' (List.mem_cons_of_mem _ hd')

/-- R41, R43, R172: a request whose destinations can all be written is issued. -/
theorem issueReq_lands : let q := timeParts s.now (requestOf t kind cls dest l ord scope parts)
    ∃ u, issueReq s t kind cls dest l ord scope parts = .ok (launchParts (setThread s s.cur (issuedThread t q u)) s.cur q) := by
  have hcheck := checkLandings_lands (ord := ord) (scope := scope) hlands hdests hrows
  obtain ⟨hcount, hslots, hfixed, -⟩ := hlands
  have hroom : ¬ (l.off == 0 && decide (63 ≤ outstanding t cls)) = true := by
    simpa using hcount
  have htimed : ¬ ((!(l.off == 0) && !l.fixed) && decide (16 ≤ landingHeld t)) = true := by
    simpa using hslots
  have hflight : ¬ (l.fixed && decide (64 ≤ inFlight t)) = true := by
    simpa using hfixed
  rw [requestOf] at hcheck
  unfold issueReq
  dsimp only
  rw [if_neg hroom, if_neg htimed, if_neg hflight, hcheck]
  exact ⟨_, rfl⟩

end

/-- R172, R251: what an issued request changes. -/
theorem issued_launchParts (s : State) (t : Thread) (used : List Nat) (reads : List (Nat × Nat)) (q : Req) (u : List (Dest × Nat × Nat)) :
    Issued s (launchParts (setThread s s.cur (issuedThread (withAccess t used reads) q u)) s.cur q) t q := by
  obtain ⟨n, a, h⟩ := launchParts_eq (setThread s s.cur (issuedThread (withAccess t used reads) q u)) s.cur q
  rw [h]
  exact ⟨issuedThread (withAccess t used reads) q u, threadOf_setThread s s.cur _, rfl, rfl, ⟨rfl, rfl, rfl, rfl, rfl⟩, rfl, rfl,
    rfl, rfl, rfl, rfl, fun c hc => coreOf_setThread_other s s.cur c _ hc, rfl, rfl, rfl, rfl, rfl⟩

/-- A slot that issues a request (R166, R172). -/
theorem request_issues {i : Instr} {g : Guard} {s : State} {t : Thread} {f : Thread → Slot} {kind : ReqKind} {cls : Nat}
    {dest : Dest} {l : Landing} {ord scope : Nat} {ps : List Part} {ds : List Dest} {used : List Nat} {reads : List (Nat × Nat)}
    (hp : Performs s t g) (hi : exec i s = runSlot g s f)
    (hf : f t = issueReq s (withAccess t used reads) kind cls dest l ord scope ps) (hlands : Lands (withAccess t used reads) l cls ds)
    (hdests : l.off ≠ 0 → reqDests (requestOf t kind cls dest l ord scope ps) = ds)
    (hrows : l.off = 0 → ∀ r ∈ countedRows t s.cur kind dest ps, tileRead (withAccess t used reads) (.trow r.1) r.2 = false) :
    let q := timeParts s.now (requestOf t kind cls dest l ord scope ps)
    ∃ u, exec i s = .next (launchParts (setThread s s.cur (issuedThread (withAccess t used reads) q u)) s.cur q) := by
  obtain ⟨u, hissue⟩ := issueReq_lands (s := s) (t := withAccess t used reads) hlands hdests hrows
  exact ⟨u, hi.trans (runSlot_ok g s _ t f hp.1 hp.2 (hf.trans hissue))⟩

/-- R36: an access of SRAM takes the unloaded latency at least, and 5 cycles in the own slice. -/
theorem loadedLatency_sram (s : State) (c : Nat) {pa : Nat} (h : inSram pa = true) :
    latency c (pa / 0x800000) ≤ (loadedLatency s c pa).1 ∧ (pa / 0x800000 = c → (loadedLatency s c pa).1 = 5) := by
  unfold loadedLatency
  by_cases hown : pa / 0x800000 = c
  · simp [h, hown, latency]
  · simp [h, hown, takeFree, accessLatency, inCtl_of_inSram h]

/-- R36: a request of one part in SRAM is on its way to its home. -/
theorem launchParts_one {s : State} {c : Nat} {q : Req} {p : Part} (hparts : q.parts = [p]) (hdone : p.done = false) (hlen : 0 < p.len)
    (hrow : p.row = 0) (hsram : inSram p.pa = true) : ∃ d, latency c (p.pa / 0x800000) ≤ d ∧ (p.pa / 0x800000 = c → d = 5) ∧
      (launchParts s c q).agenda = s.agenda ++ [⟨s.now + d, partEvent c q 0⟩] := by
  obtain ⟨hle, hown⟩ := loadedLatency_sram s c hsram
  obtain ⟨hpos, n, hn⟩ := loadedLatency_spec s c p.pa
  refine ⟨(loadedLatency s c p.pa).1, hle, hown, ?_⟩
  have hlen' : p.len ≠ 0 := by omega
  have hpos' : (loadedLatency s c p.pa).1 ≠ 0 := by omega
  simp [launchParts, hparts, hdone, hlen', hrow, hn, schedule, hpos']

end Sys2Proof.Machine

namespace Sys2Proof.Machine

/-! Accesses of one part (R251, R252, R254) -/

theorem checkHeld_idle {s : State} {c : Nat} {t : Thread} (hx : t.x.xop = none) (ps : List Part) : checkHeld s c t ps = .ok () := by
  simp [checkHeld, hx]

theorem xOverlaps_idle {s : State} {c : Nat} {t : Thread} (hx : t.x.xop = none) (pa n : Nat) : xOverlaps s c t pa n = false := by
  simp [xOverlaps, hx]

/-- R172: a counted request lands while its counter is below 63. -/
theorem lands_counted {t : Thread} {cls : Nat} {ds : List Dest} (h : outstanding t cls < 63) : Lands t ⟨0, false⟩ cls ds :=
  ⟨fun _ => h, fun h => absurd rfl h, nofun, fun h => absurd rfl h⟩

/-- The request that an access of one part makes. -/
def accessRequest (s : State) (t : Thread) (kind : ReqKind) (cls : Nat) (dest : Dest) (l : Landing) (ord scope : Nat) (p : Part) : Req :=
  timeParts s.now (requestOf t kind cls dest l ord scope [p])

/-- A slot that issues such an access of SRAM: what it changes, and when its part is at its home (R36, R172). -/
theorem access_issues {i : Instr} {g : Guard} {s : State} {t : Thread} {f : Thread → Slot} {n : Nat} {kind : ReqKind} {cls : Nat}
    {dest : Dest} {l : Landing} {ord scope : Nat} {p : Part} (hp : Performs s t g) (hi : exec i s = runSlot g s f)
    (hf : f t = issueReq s (takeBanks s.cur t p.pa n 0) kind cls dest l ord scope [p])
    (hlands : Lands t l cls [dest]) (hdests : ∀ q : Req, q.kind = kind → q.dest = dest → reqDests q = [dest])
    (hrows : countedRows t s.cur kind dest [p] = [])
    (hdone : p.done = false) (hlen : 0 < p.len) (hrow : p.row = 0) (hsram : inSram p.pa = true) :
    ∃ s' d, exec i s = .next s' ∧ Issued s s' t (accessRequest s t kind cls dest l ord scope p) ∧
      latency s.cur (p.pa / 0x800000) ≤ d ∧ (p.pa / 0x800000 = s.cur → d = 5) ∧
      s'.agenda = s.agenda ++ [⟨s.now + d, partEvent s.cur (accessRequest s t kind cls dest l ord scope p) 0⟩] := by
  obtain ⟨used, hbanks⟩ := takeBanks_eq s.cur t p.pa n 0
  have hnone : ∀ r ∈ countedRows t s.cur kind dest [p], tileRead t (.trow r.1) r.2 = false := by simp [hrows]
  obtain ⟨u, hnext⟩ := request_issues (used := used) (reads := t.x.reads) hp hi (hbanks ▸ hf) hlands (fun _ => hdests _ rfl rfl)
    (fun _ => hnone)
  obtain ⟨d, hle, hown, hagenda⟩ := launchParts_one (c := s.cur)
    (s := setThread s s.cur (issuedThread (withAccess t used t.x.reads) (accessRequest s t kind cls dest l ord scope p) u))
    (q := accessRequest s t kind cls dest l ord scope p) (p := { p with at_ := s.now + p.row / 4 }) rfl hdone hlen hrow hsram
  exact ⟨_, d, hnext, issued_launchParts .., hle, hown, hagenda⟩

/-! Loads and stores at issue (O14, O15) -/

/-- R251: MODE 3 lands in exactly 5 cycles. -/
theorem loadLanding_fixed {t : Thread} {off : BitVec 10} {l : Landing} (h : loadLanding t 3 off = .ok l) :
    l.off = 5 ∧ l.fixed = true := by
  have hl : ⟨5, true⟩ = l := Except.ok.inj h
  rw [← hl]
  exact ⟨rfl, rfl⟩

theorem pos_of_accessSize {w : Nat} (hw : w ∈ [1, 2, 4, 8]) : 0 < w := by
  simp only [List.mem_cons, List.not_mem_nil, or_false] at hw
  omega

/-- R252: the data of a store is the register's low bytes at issue, the last value written where a load has not landed. -/
theorem storeData_eq {t : Thread} {rs : BitVec 5} {v : Word}
    (hpending : (∃ x ∈ t.reqs, x.landed = false ∧ x.dest = .sreg rs.toNat) → v = t.r.s[rs.toNat])
    (hsettled : (∀ x ∈ t.reqs, x.landed = false → x.dest ≠ .sreg rs.toNat) → v = sreg t rs) : storeData t rs = v := by
  unfold storeData
  split
  · rename_i hany
    refine (hpending ?_).symm
    simpa using hany
  · rename_i hnone
    refine (hsettled fun x hx hl hd => hnone ?_).symm
    exact List.any_eq_true.mpr ⟨x, hx, by simp [hl, hd]⟩

section
variable {i : Instr} {h : MHdr} {ra : BitVec 5} {ord scope : BitVec 3} {disp : BitVec 9} {s : State} {t : Thread} {p : Place} {w : Nat}
  (hp : Performs s t h.g) (hx : t.x.xop = none) (hw : w ∈ [1, 2, 4, 8]) (hsram : inSram p.pa = true)
include hp hx hw hsram

/-- R251: a load is issued. -/
theorem load_issues {rd : BitVec 5} {mode : BitVec 2} {off : BitVec 10} {l : Landing} {sg : Bool}
    (hi : exec i s = runSlot h.g s (loadSlot s h rd ra ord scope mode off disp w sg))
    (hplace : slotPlace s t h.m1 .read (accessAddress t ra disp w) = .ok p) (hl : loadLanding t mode off = .ok l)
    (hlands : Lands t l 1 [.sreg rd.toNat]) :
    ∃ s' q part d, exec i s = .next s' ∧ Issued s s' t q ∧ q.id = t.nextReq ∧ q.kind = .load w sg ∧ q.cls = 1 ∧
      q.dest = .sreg rd.toNat ∧ q.due = (if l.off = 0 then none else some (t.x.dc + l.off)) ∧ q.fixed = l.fixed ∧
      q.ord = ord.toNat ∧ q.scope = scope.toNat ∧ q.parts = [part] ∧ part.ga = accessAddress t ra disp w ∧
      part.pa = p.pa ∧ part.len = w ∧ part.done = false ∧ (mode = 3 → l.off = 5 ∧ l.fixed = true) ∧
      latency s.cur (p.pa / 0x800000) ≤ d ∧ (p.pa / 0x800000 = s.cur → d = 5) ∧
      s'.agenda = s.agenda ++ [⟨s.now + d, .requestDataArrival s.cur t.nextReq 0⟩] := by
  have hslot : loadSlot s h rd ra ord scope mode off disp w sg t = issueReq s (takeBanks s.cur t p.pa w 0) (.load w sg) 1
      (.sreg rd.toNat) l ord.toNat scope.toNat [partAt (accessAddress t ra disp w) p w] := by
    rw [loadSlot, scalarAddr_eq t ra disp hw, hplace]
    dsimp only [Except.bind]
    rw [checkHeld_idle hx, hl]
  obtain ⟨s', d, hnext, hissued, hle, hown, hagenda⟩ := access_issues (p := partAt (accessAddress t ra disp w) p w) hp hi hslot
    hlands (fun q hk hd => by simp only [reqDests, hk, hd]) rfl rfl (pos_of_accessSize hw) rfl hsram
  refine ⟨s', _, _, d, hnext, hissued, rfl, rfl, rfl, rfl, ?_, rfl, rfl, rfl, rfl, rfl, rfl, rfl, rfl, ?_, hle, hown, hagenda⟩
  · simp [accessRequest, timeParts, requestOf]
  · rintro rfl
    exact loadLanding_fixed hl

/-- R251, R252: a store is issued. -/
theorem store_issues {rs : BitVec 5} (hi : exec i s = runSlot h.g s (storeSlot s h rs ra ord scope disp w))
    (hplace : slotPlace s t h.m1 .write (accessAddress t ra disp w) = .ok p) (hroom : outstanding t 2 < 63) :
    ∃ s' q part d, exec i s = .next s' ∧ Issued s s' t q ∧ q.id = t.nextReq ∧ q.kind = .store w ∧ q.cls = 2 ∧ q.dest = .none ∧
      q.due = none ∧ q.ord = ord.toNat ∧ q.scope = scope.toNat ∧ q.parts = [part] ∧ part.ga = accessAddress t ra disp w ∧
      part.pa = p.pa ∧ part.len = w ∧ part.done = false ∧ part.sent = true ∧
      (∀ v : Word, ((∃ x ∈ t.reqs, x.landed = false ∧ x.dest = .sreg rs.toNat) → v = t.r.s[rs.toNat]) →
        ((∀ x ∈ t.reqs, x.landed = false → x.dest ≠ .sreg rs.toNat) → v = sreg t rs) → part.data.toNat = v.toNat % 2 ^ (8 * w)) ∧
      latency s.cur (p.pa / 0x800000) ≤ d ∧
      s'.agenda = s.agenda ++ [⟨s.now + d, .memoryWritePerformed s.cur t.nextReq 0⟩] := by
  have hslot : storeSlot s h rs ra ord scope disp w t = issueReq s (takeBanks s.cur t p.pa w 0) (.store w) 2 .none ⟨0, false⟩
      ord.toNat scope.toNat [partAt (accessAddress t ra disp w) p w (BitVec.ofNat 2048 ((storeData t rs).toNat % 2 ^ (8 * w)))] := by
    rw [storeSlot, scalarAddr_eq t ra disp hw, hplace]
    dsimp only [Except.bind]
    rw [xOverlaps_idle hx]
    rfl
  obtain ⟨s', d, hnext, hissued, hle, -, hagenda⟩ := access_issues (p := partAt (accessAddress t ra disp w) p w
      (BitVec.ofNat 2048 ((storeData t rs).toNat % 2 ^ (8 * w)))) hp hi hslot (lands_counted hroom)
    (fun q hk hd => by simp only [reqDests, hk, hd]) rfl rfl (pos_of_accessSize hw) rfl hsram
  refine ⟨s', _, _, d, hnext, hissued, rfl, rfl, rfl, rfl, rfl, rfl, rfl, rfl, rfl, rfl, rfl, rfl, rfl, fun v hpending hsettled => ?_,
    hle, hagenda⟩
  have hwide : (2 : Nat) ^ 64 < 2 ^ 2048 := Nat.pow_lt_pow_right Nat.one_lt_two (by decide)
  have hlt : v.toNat % 2 ^ (8 * w) < 2 ^ 2048 := lt_of_le_of_lt (Nat.mod_le ..) (lt_trans v.isLt hwide)
  rw [← storeData_eq hpending hsettled] at hlt ⊢
  exact (BitVec.toNat_ofNat ..).trans (Nat.mod_eq_of_lt hlt)

end

/-- Settles O14: each load is issued with its width and extension. -/
theorem loadsIssue : Obligations.LoadsIssue := by
  unfold Obligations.LoadsIssue
  intro h rd ra ord scope mode off disp s t p l i w sg hmem hp hx hplace hsram hl hlands
  have hslot : w ∈ [1, 2, 4, 8] ∧ exec i s = runSlot h.g s (loadSlot s h rd ra ord scope mode off disp w sg) := by
    simp only [List.mem_cons, Prod.mk.injEq, List.not_mem_nil, or_false] at hmem
    rcases hmem with ⟨rfl, rfl, rfl⟩ | ⟨rfl, rfl, rfl⟩ | ⟨rfl, rfl, rfl⟩ | ⟨rfl, rfl, rfl⟩ | ⟨rfl, rfl, rfl⟩ | ⟨rfl, rfl, rfl⟩ |
      ⟨rfl, rfl, rfl⟩ <;> exact ⟨by decide, rfl⟩
  exact load_issues hp hx hslot.1 hsram hslot.2 hplace hl hlands

/-- Settles O15: each store is issued with its width, its data latched. -/
theorem storesIssue : Obligations.StoresIssue := by
  unfold Obligations.StoresIssue
  intro h rs ra ord scope disp s t p i w hmem hp hx hplace hsram hroom
  have hslot : w ∈ [1, 2, 4, 8] ∧ exec i s = runSlot h.g s (storeSlot s h rs ra ord scope disp w) := by
    simp only [List.mem_cons, Prod.mk.injEq, List.not_mem_nil, or_false] at hmem
    rcases hmem with ⟨rfl, rfl⟩ | ⟨rfl, rfl⟩ | ⟨rfl, rfl⟩ | ⟨rfl, rfl⟩ <;> exact ⟨by decide, rfl⟩
  exact store_issues hp hx hslot.1 hsram hslot.2 hplace hroom

end Sys2Proof.Machine

namespace Sys2Proof.Machine

/-! LDROW and STROW at issue (O16) -/

/-- The parts of a row request as they leave, four rows a cycle (R253). -/
def leavingParts (s : State) (ps : List Part) : List Part := ps.map (fun p => { p with at_ := s.now + p.row / 4 })

/-- The tile rows that STROW is to read, and when: four a cycle (R253). -/
def strowReads (t : Thread) (tl : BitVec 4) (e nm : BitVec 6) : List (Nat × Nat) :=
  (List.range (nm.toNat + 1)).map (fun k => (64 * tl.toNat + e.toNat + k, t.x.dc + k / 4))

section
variable {h : MHdr} {tl : BitVec 4} {e nm : BitVec 6} {ra rstr : BitVec 5} {s : State} {t : Thread} {ps : List Part}
  (hp : Performs s t h.g) (hx : t.x.xop = none)
include hp hx

/-- R253: LDROW is issued. -/
theorem ldrow_issues {mode : BitVec 2} {off : BitVec 9} {l : Landing}
    (hps : allRows s t h.m1 .read ra rstr true (nm.toNat + 1) = .ok ps) (hl : rowLanding t mode off = .ok l)
    (hlands : Lands t l 3 ((List.range (nm.toNat + 1)).map (fun i => .trow (64 * tl.toNat + e.toNat + i))))
    (hreads : l.off = 0 → ∀ p ∈ ps,
      tileRead t (.trow (64 * tl.toNat + e.toNat + p.row)) (t.x.dc + p.row / 4 + accessLatency s.cur p.pa) = false) :
    ∃ s' q, exec (.ldrow h tl e nm ra rstr mode off) s = .next s' ∧ Issued s s' t q ∧ q.id = t.nextReq ∧ q.kind = .row (nm.toNat + 1) ∧
      q.cls = 3 ∧ q.dest = .trow (64 * tl.toNat + e.toNat) ∧ q.parts = leavingParts s ps ∧
      q.due = (if l.off = 0 then none else some (t.x.dc + l.off)) := by
  obtain ⟨used, hbanks⟩ := takeRowBanks_eq s.cur t ps
  obtain ⟨u, hnext⟩ := request_issues (i := .ldrow h tl e nm ra rstr mode off) (kind := .row (nm.toNat + 1)) (cls := 3)
    (dest := .trow (64 * tl.toNat + e.toNat)) (l := l) (ord := 0) (scope := 0) (ps := ps) (used := used) (reads := t.x.reads) hp rfl
    (by
      dsimp only
      rw [hps]
      dsimp only [Except.bind]
      rw [checkHeld_idle hx, hl, hbanks])
    hlands (fun _ => rfl) (fun hoff r hr => by
      obtain ⟨p, hmem, rfl⟩ := List.mem_map.mp hr
      exact hreads hoff p hmem)
  refine ⟨_, _, hnext, issued_launchParts .., rfl, rfl, rfl, rfl, rfl, ?_⟩
  simp [timeParts, requestOf]

/-- R253: STROW is issued. -/
theorem strow_issues (hps : allRows s t h.m1 .write ra rstr false (nm.toNat + 1) = .ok ps) (hroom : outstanding t 3 < 63)
    (hlands : ∀ i, i < nm.toNat + 1 → landsBefore s.cur t (64 * tl.toNat + e.toNat + i) (t.x.dc + i / 4) = false) :
    ∃ s' q, exec (.strow h tl e nm ra rstr) s = .next s' ∧ Issued s s' t q ∧ q.id = t.nextReq ∧ q.kind = .srow (nm.toNat + 1) ∧
      q.cls = 3 ∧ q.dest = .trow (64 * tl.toNat + e.toNat) ∧ q.parts = leavingParts s ps ∧ q.due = none := by
  obtain ⟨used, hbanks⟩ := takeRowBanks_eq s.cur (withAccess t t.x.used (t.x.reads ++ strowReads t tl e nm)) ps
  have hnone : (strowReads t tl e nm).any (fun r => landsBefore s.cur t r.1 r.2) = false := by
    simpa [strowReads] using hlands
  have hoverlap : ps.any (fun p => xOverlaps s s.cur t p.pa p.len) = false := by
    simp [xOverlaps_idle hx]
  obtain ⟨u, hnext⟩ := request_issues (i := .strow h tl e nm ra rstr) (kind := .srow (nm.toNat + 1)) (cls := 3)
    (dest := .trow (64 * tl.toNat + e.toNat)) (l := ⟨0, false⟩) (ord := 0) (scope := 0) (ps := ps) (ds := []) (used := used)
    (reads := t.x.reads ++ strowReads t tl e nm) hp rfl
    (by
      dsimp only
      rw [hps]
      dsimp only [Except.bind]
      rw [hoverlap]
      change (if (strowReads t tl e nm).any (fun r => landsBefore s.cur t r.1 r.2) = true then _ else _) = _
      rw [hnone]
      exact congrArg (fun x => issueReq s x _ _ _ _ _ _ _) hbanks)
    (lands_counted hroom) (fun _ => rfl) (fun _ _ hr => nomatch hr)
  exact ⟨_, _, hnext, issued_launchParts .., rfl, rfl, rfl, rfl, rfl, rfl⟩

end

/-- Settles O16: LDROW and STROW are issued with the rows as their parts. -/
theorem rowsIssue : Obligations.RowsIssue := by
  unfold Obligations.RowsIssue
  intro h tl e nm ra rstr mode off s t l ps n k leaving hp hx hsram
  exact ⟨fun hps hl hlands hreads => ldrow_issues hp hx hps hl hlands hreads,
    fun hps hroom hlands => strow_issues hp hx hps hroom hlands⟩

end Sys2Proof.Machine

namespace Sys2Proof.Machine

/-! ATOM and FENCE at issue (O17) -/

theorem sramOnly_ok {p : Place} (hdev : p.dev = none) (hsram : inSram p.pa = true) (a : Word) : sramOnly p a = .ok p := by
  simp [sramOnly, hdev, hsram]

theorem attend_freeze {s : State} {c : Nat} {t : Thread} (ht : threadOf s c = some t) (code : Nat) :
    ∃ n, attend s c (.freeze code) = setThread s c { t with attn := some (.freeze code), phase := .frozen code n } := by
  simp only [attend, modThread_some ht]
  split
  · split
    · rename_i n _ hcode
      exact ⟨_, by rw [hcode]⟩
    · exact ⟨_, rfl⟩
  · exact ⟨0, rfl⟩

theorem attend_stall {s : State} {c : Nat} {t : Thread} (ht : threadOf s c = some t) :
    attend s c .stall = setThread s c { t with attn := some .stall, phase := .stalled } := modThread_some ht _

/-- R128, R140, R143: what a FENCE does to the race detector's part of the thread alone. -/
theorem fenced_eq (s : State) (u : Thread) (ord scope : BitVec 3) : ∃ d, fenced s s.cur u ord.toNat scope.toNat = { u with det := d } ∧
    d.scnt = if releases ord.toNat then (u.det.scnt + 1) % 2 ^ 32 else u.det.scnt := by
  have hacquire (v : Thread) : ∃ d, acquireFence s s.cur v scope.toNat = { v with det := d } ∧ d.scnt = v.det.scnt := by
    unfold acquireFence
    split
    · exact ⟨v.det, rfl, rfl⟩
    · exact ⟨_, rfl, rfl⟩
  unfold fenced
  dsimp only
  split <;> split
  · obtain ⟨d, hd, hscnt⟩ := hacquire (releaseFence u scope.toNat)
    exact ⟨d, hd, hscnt⟩
  · exact hacquire u
  · exact ⟨_, rfl, rfl⟩
  · exact ⟨u.det, rfl, rfl⟩

theorem releases_iff (ord : BitVec 3) : releases ord.toNat = true ↔ ord = 2 ∨ ord = 3 ∨ ord = 4 := by
  revert ord
  decide

/-- A thread whose idle half a FENCE has emptied (R207, R255). -/
def fencedThread (t : Thread) : Thread := { t with q := { t.q with fenced := true, next := none, expanding := none } }

section
variable {h : MHdr} {ord scope : BitVec 3} {s : State} {t : Thread} (hp : Performs s t h.g) (hx : t.x.xop = none)
include hp hx

/-- R254: ATOM is issued. -/
theorem atom_issues {rd ra rb rc : BitVec 5} {aop : BitVec 4} {rv : Bool} {p : Place} (w : Bool)
    (hplace : slotPlace s t h.m1 .atomic (BitVec.ofNat 64 ((sreg t ra).toNat / (if w then 8 else 4) * (if w then 8 else 4))) = .ok p)
    (hdev : p.dev = none) (hsram : inSram p.pa = true) (hroom : outstanding t (if rv then 1 else 2) < 63) :
    ∃ s' q part, exec (.atom h rd ra rb rc aop w rv ord scope) s = .next s' ∧ Issued s s' t q ∧
      q.kind = .atom aop.toNat (if w then 8 else 4) rv (sreg t rb) (sreg t rc) ∧ q.cls = (if rv then 1 else 2) ∧
      q.dest = (if rv then .sreg rd.toNat else .none) ∧ q.due = none ∧ q.ord = ord.toNat ∧ q.parts = [part] ∧ part.pa = p.pa ∧
      part.len = (if w then 8 else 4) := by
  have hn : (if w then 8 else 4) ∈ [1, 2, 4, 8] := by cases w <;> decide
  obtain ⟨s', d, hnext, hissued, -⟩ := access_issues (i := .atom h rd ra rb rc aop w rv ord scope) (n := if w then 8 else 4)
    (kind := .atom aop.toNat (if w then 8 else 4) rv (sreg t rb) (sreg t rc)) (cls := if rv then 1 else 2)
    (dest := if rv then .sreg rd.toNat else .none) (l := ⟨0, false⟩) (ord := ord.toNat) (scope := scope.toNat)
    (p := partAt (BitVec.ofNat 64 ((sreg t ra).toNat / (if w then 8 else 4) * (if w then 8 else 4))) p (if w then 8 else 4)) hp rfl
    (by
      dsimp only
      rw [aligned_eq _ hn, hplace]
      dsimp only [Except.bind]
      rw [sramOnly_ok hdev hsram]
      dsimp only
      rw [xOverlaps_idle hx, checkHeld_idle hx]
      rfl)
    (lands_counted hroom) (fun q hk hd => by simp only [reqDests, hk, hd]) rfl rfl (pos_of_accessSize hn) rfl hsram
  exact ⟨s', _, _, hnext, hissued, rfl, rfl, rfl, rfl, rfl, rfl, rfl, rfl⟩

/-- R255: what an access of an earlier bundle still to be performed has to do with a FENCE, where the X engine is free. -/
theorem fence_freezes (hq : ∃ q ∈ t.reqs, q.issued ≠ t.x.dc ∧ performed q = false) :
    exec (.fence h ord scope) s = .next (attend s s.cur (.freeze 6)) := by
  have hawaits : fenceAwaits s s.cur t (fun q => q.issued != t.x.dc) = true := by
    simpa [fenceAwaits, hx] using hq
  exact runSlot_error h.g s t _ _ hp.1 hp.2 (if_pos hawaits)

/-- R255, R207: a FENCE of a thread with nothing outstanding takes effect at once. -/
theorem fence_completes (hreqs : t.reqs = []) (hphase : t.phase = .running) : ∃ t', exec (.fence h ord scope) s = .next (setThread s s.cur t') ∧
    t'.q.next = none ∧ t'.q.expanding = none ∧ t'.q.idx = t.q.idx ∧ t'.q.seg = t.q.seg ∧ t'.r = t.r ∧ t'.c = t.c ∧ t'.x = t.x ∧
    t'.reqs = [] ∧ t'.det.scnt = (if ord = 2 ∨ ord = 3 ∨ ord = 4 then (t.det.scnt + 1) % 2 ^ 32 else t.det.scnt) := by
  have hdiscard : discardExpansion t = fencedThread t := by
    simp only [discardExpansion, hphase, fencedThread]
  obtain ⟨d, hd, hscnt⟩ := fenced_eq s (fencedThread t) ord scope
  have hawaits : fenceAwaits s s.cur t (fun q => q.issued != t.x.dc) = false := by
    simp [fenceAwaits, hreqs]
  have hdone : ((fencedThread t).reqs.any (fun q => !performed q) ||
      (releases ord.toNat && !earlierDone (fencedThread t) (fencedThread t).nextReq)) = false := by
    simp [earlierDone, fencedThread, hreqs, hx]
  refine ⟨{ fencedThread t with det := d }, runSlot_ok h.g s _ t _ hp.1 hp.2 ?_, rfl, rfl, rfl, rfl, rfl, rfl, rfl, hreqs, ?_⟩
  · dsimp only
    rw [hawaits, hdiscard, hdone, ← hd]
    rfl
  · simp only [releases_iff] at hscnt
    exact hscnt

end

/-- Settles O17: ATOM is issued; FENCE completes with nothing outstanding and freezes else. -/
theorem atomAndFence : Obligations.AtomAndFence := by
  unfold Obligations.AtomAndFence
  intro h rd ra rb rc aop w rv ord scope s t p hp hx
  refine ⟨fun hplace hdev hsram hroom => atom_issues hp hx w hplace hdev hsram hroom, fence_completes hp hx, fun hq => ?_⟩
  obtain ⟨n, hn⟩ := attend_freeze hp.1 6
  exact ⟨_, _, (fence_freezes hp hx hq).trans (congrArg _ hn), threadOf_setThread .., ⟨n, rfl⟩, rfl, rfl, rfl⟩

/-! WAIT (O22) -/

section
variable {h : MHdr} {l st cp tl : BitVec 4} {s : State} {t : Thread} (hp : Performs s t h.g)
include hp

/-- R261: a WAIT within its bounds covers the classes it bounds. -/
theorem wait_covers (hl : l = 15 ∨ outstanding t 1 ≤ l.toNat) (hst : st = 15 ∨ outstanding t 2 ≤ st.toNat)
    (htl : tl = 15 ∨ outstanding t 3 ≤ tl.toNat) (hcp : cp = 15 ∨ copyCount s t ≤ cp.toNat) (hfault : ∀ q ∈ t.reqs, q.fault = none) :
    exec (.wait h l st cp tl) s = .next (setThread s s.cur (coverUncov t (bounds l st tl))) := by
  have hwithin {b : BitVec 4} {n : Nat} (hb : b = 15 ∨ n ≤ b.toNat) : (b.toNat == 15 || decide (n ≤ b.toNat)) = true := by
    rcases hb with rfl | hb
    · rfl
    · simp [hb]
  have hcopies : (cp == 15 || decide (copyCount s t ≤ cp.toNat)) = true := by simpa using hcp
  have hnone : landingFault t (bounds l st tl) = none := landingFault_none fun q hq _ _ => by simp [hfault q hq]
  have h1 : (waitBound l st tl 1 == 15 || decide (outstanding t 1 ≤ waitBound l st tl 1)) = true := hwithin hl
  have h2 : (waitBound l st tl 2 == 15 || decide (outstanding t 2 ≤ waitBound l st tl 2)) = true := hwithin hst
  have h3 : (waitBound l st tl 3 == 15 || decide (outstanding t 3 ≤ waitBound l st tl 3)) = true := hwithin htl
  refine runSlot_ok h.g s _ t _ hp.1 hp.2 ?_
  simp only [h1, h2, h3, hcopies, hnone, Bool.and_self, Bool.not_true, Bool.false_eq_true, if_false]

/-- R261: a WAIT stalls on a counter above its bound. -/
theorem wait_stalls (hl : l ≠ 15) (habove : l.toNat < outstanding t 1) :
    exec (.wait h l st cp tl) s = .next (setThread s s.cur { t with attn := some .stall, phase := .stalled }) := by
  have hbound : l.toNat ≠ 15 := fun h => hl (BitVec.eq_of_toNat_eq h)
  have h1 : (waitBound l st tl 1 == 15 || decide (outstanding t 1 ≤ waitBound l st tl 1)) = false := by
    simpa [waitBound, hbound] using habove
  rw [← attend_stall hp.1]
  refine runSlot_error h.g s t _ _ hp.1 hp.2 ?_
  simp [h1]

end

/-- The classes that a WAIT bounds, by their immediates (R261). -/
theorem bounds_eq (l st tl : BitVec 4) (cls : Nat) :
    bounds l st tl cls = decide ((if cls = 1 then l else if cls = 2 then st else if cls = 3 then tl else 15) ≠ 15) := by
  have hbound (b : BitVec 4) : decide (b.toNat < 15) = decide (b ≠ 15) := by
    revert b
    decide
  unfold bounds waitBound
  split
  · exact hbound l
  · exact hbound st
  · exact hbound tl
  · rename_i h1 h2 h3
    rw [if_neg h1, if_neg h2, if_neg h3]
    rfl

/-- Settles O22: WAIT covers the classes it bounds, or stalls. -/
theorem waitIssues : Obligations.WaitIssues := by
  unfold Obligations.WaitIssues
  intro h l st cp tl s t hp ok
  refine ⟨fun hl hst htl hcp hfault => ?_, fun hl habove => ⟨_, wait_stalls hp hl habove, rfl, rfl, rfl, rfl, rfl⟩⟩
  rw [wait_covers hp hl hst htl hcp hfault, coverUncov]
  simp only [bounds_eq]

end Sys2Proof.Machine

namespace Sys2Proof.Machine

/-! MON (O23) -/

theorem threadOf_modThread_other (s : State) {c x : Nat} (f : Thread → Thread) (h : x ≠ c) :
    threadOf (modThread s c f) x = threadOf s x := by
  rw [modThread_eq]
  split
  · rfl
  · exact threadOf_setThread_other s c x _ h

/-- R264: a tracker that is taken may end another watch, not the one it is for. -/
theorem threadOf_armTracker {s : State} {c : Nat} {t : Thread} (ht : threadOf s c = some t) (ent addr : Nat) :
    ∃ w, threadOf (armTracker s c ent addr) c = some { t with watch := w } ∧ w[ent]? = t.watch[ent]? := by
  unfold armTracker
  dsimp only
  split
  · rename_i old rest htrackers
    have hold : old ≠ (c, ent) := by
      have hmem : old ∈ List.filter (fun x => decide (x ≠ (c, ent))) (coreOf s (addr / 0x800000)).slice.trackers :=
        htrackers ▸ List.mem_cons_self
      simpa using (List.mem_filter.mp hmem).2
    split
    · exact ⟨t.watch, (threadOf_modSlice ..).trans ht, rfl⟩
    · by_cases hcore : old.1 = c
      · have hent : old.2 ≠ ent := fun h => hold (Prod.ext hcore h)
        rw [hcore, modThread_some ((threadOf_modSlice ..).trans ht), threadOf_setThread]
        exact ⟨_, rfl, List.getElem?_modify_ne _ _ hent⟩
      · rw [threadOf_modThread_other _ _ (Ne.symm hcore)]
        exact ⟨t.watch, (threadOf_modSlice ..).trans ht, rfl⟩
  · exact ⟨t.watch, (threadOf_modSlice ..).trans ht, rfl⟩

theorem mem_armTracker (s : State) (c ent addr : Nat) : (armTracker s c ent addr).mem = s.mem := by
  unfold armTracker
  dsimp only
  split
  · split
    · rfl
    · exact modThread_mem ..
  · rfl

/-- The entry that MON arms (R262). -/
def armedEntry (t : Thread) (pa : Nat) (rb rt : BitVec 5) (cmp : BitVec 3) (w recycled : Bool) (seen : Nat) : Watch :=
  { addr := pa, val := if cmp = 0 then BitVec.ofNat 64 seen else sreg t rb, left := wf 31 0 (sreg t rt), state := 1,
    cmp := cmp.toNat, w := w, recycled := recycled }

/-- The entry that MON sets: fired at once where its condition holds already (R263). -/
def monEntry (t : Thread) (pa : Nat) (rb rt : BitVec 5) (cmp : BitVec 3) (w recycled : Bool) (seen : Nat) : Watch :=
  let e := armedEntry t pa rb rt cmp w recycled seen
  if cmp ≠ 0 && watchFires e seen then { e with state := 2 } else e

theorem monEntry_fields (t : Thread) (pa : Nat) (rb rt : BitVec 5) (cmp : BitVec 3) (w recycled : Bool) (seen : Nat) :
    let e := monEntry t pa rb rt cmp w recycled seen
    e.addr = pa ∧ e.w = w ∧ e.cmp = cmp.toNat ∧ e.left = (sreg t rt).toNat % 2 ^ 32 ∧
      e.val = (if cmp = 0 then BitVec.ofNat 64 seen else sreg t rb) ∧
      e.state = (if cmp ≠ 0 ∧ watchFires e seen = true then 2 else 1) := by
  have hleft : wf 31 0 (sreg t rt) = (sreg t rt).toNat % 2 ^ 32 := by
    simp [wf, bits]
  unfold monEntry
  by_cases hcond : cmp ≠ 0 ∧ watchFires (armedEntry t pa rb rt cmp w recycled seen) seen = true
  · have hfires : (decide (cmp ≠ 0) && watchFires (armedEntry t pa rb rt cmp w recycled seen) seen) = true := by simpa using hcond
    dsimp only
    rw [if_pos hfires]
    exact ⟨rfl, rfl, rfl, hleft, rfl, (if_pos hcond).symm⟩
  · have hfires : ¬ (decide (cmp ≠ 0) && watchFires (armedEntry t pa rb rt cmp w recycled seen) seen) = true := by simpa using hcond
    dsimp only
    rw [if_neg hfires]
    exact ⟨rfl, rfl, rfl, hleft, rfl, (if_neg hcond).symm⟩

/-- The state in which entry `ent`, which held `old`, needs no tracker any more (R264). -/
def untracked (s : State) (ent : Nat) (old : Watch) : State := if old.state = 1 then dropTracker s s.cur ent old.addr else s

theorem untracked_keeps (s : State) (ent : Nat) (old : Watch) : (untracked s ent old).cur = s.cur ∧ (untracked s ent old).mem = s.mem := by
  unfold untracked
  split <;> exact ⟨rfl, rfl⟩

/-- The state in which a MON has set its entry (R263, R264). -/
def monTaken (s : State) (t : Thread) (ent : Nat) (e : Watch) : State :=
  let s := setThread s s.cur { t with watch := t.watch.set ent e }
  if e.state = 1 then armTracker s s.cur ent e.addr else s

theorem monTaken_spec {s : State} {t : Thread} {ent : Nat} (hent : ent < t.watch.length) (e : Watch) :
    ∃ t', threadOf (monTaken s t ent e) s.cur = some t' ∧ t'.watch[ent]? = some e ∧ t'.r = t.r ∧ t'.q = t.q ∧ t'.reqs = t.reqs ∧
      (monTaken s t ent e).mem = s.mem := by
  have hset : (t.watch.set ent e)[ent]? = some e := List.getElem?_set_self hent
  have hthread : threadOf (setThread s s.cur { t with watch := t.watch.set ent e }) s.cur = some { t with watch := t.watch.set ent e } :=
    threadOf_setThread ..
  unfold monTaken
  dsimp only
  split
  · obtain ⟨ws, hws, hkept⟩ := threadOf_armTracker hthread ent e.addr
    exact ⟨_, hws, hkept.trans hset, rfl, rfl, rfl, mem_armTracker ..⟩
  · exact ⟨_, hthread, hset, rfl, rfl, rfl, rfl⟩

/-- R262, R263: MON whose read is answered without an error sets its entry. -/
theorem mon_sets {h : MHdr} {ent : BitVec 3} {ra rb rt : BitVec 5} {cmp : BitVec 3} {s : State} {t : Thread} {p : Place} {g : Got}
    (hp : Performs s t h.g) (hlen : t.watch.length = 8) (w : Bool)
    (hplace : slotPlace s t h.m1 .read (BitVec.ofNat 64 ((sreg t ra).toNat / (if w then 8 else 4) * (if w then 8 else 4))) = .ok p)
    (hdev : p.dev = none) (hsram : inSram p.pa = true)
    (hread : readPa s (whoCore s.cur) p.pa (if w then 8 else 4)
      (BitVec.ofNat 64 ((sreg t ra).toNat / (if w then 8 else 4) * (if w then 8 else 4))) = (g, s)) (herr : g.err = none) :
    ∃ s' t' recycled, exec (.mon h ent ra rb cmp w rt) s = .next s' ∧ threadOf s' s.cur = some t' ∧
      t'.watch[ent.toNat]? = some (monEntry t p.pa rb rt cmp w recycled (leNat g.bytes)) ∧
      t'.r = t.r ∧ t'.q = t.q ∧ t'.reqs = t.reqs ∧ s'.mem = s.mem := by
  have hn : (if w then 8 else 4) ∈ [1, 2, 4, 8] := by cases w <;> decide
  have hent : ent.toNat < t.watch.length := hlen ▸ ent.isLt
  let old := (t.watch[ent.toNat]?).getD ⟨0, 0, 0, 0, 0, false, false⟩
  let e := monEntry t p.pa rb rt cmp w old.recycled (leNat g.bytes)
  have hexec : exec (.mon h ent ra rb cmp w rt) s = .next (monTaken (untracked s ent.toNat old) t ent.toNat e) := by
    refine runSlot_ok h.g s _ t _ hp.1 hp.2 ?_
    dsimp only
    rw [aligned_eq _ hn, hplace]
    dsimp only [Except.bind]
    rw [sramOnly_ok hdev hsram]
    dsimp only
    rw [hread]
    dsimp only
    rw [herr, hp.1, monTaken, show e.addr = p.pa from (monEntry_fields ..).1]
    rfl
  obtain ⟨hcur, hmem⟩ := untracked_keeps s ent.toNat old
  obtain ⟨t', ht', hwatch, hr, hq, hreqs, hmem'⟩ := monTaken_spec (s := untracked s ent.toNat old) hent e
  exact ⟨_, t', old.recycled, hexec, hcur ▸ ht', hwatch, hr, hq, hreqs, hmem'.trans hmem⟩

end Sys2Proof.Machine

namespace Sys2Proof.Machine

/-! MWAIT (O23) -/

/-- A sum of the powers of two at the marked places of a list is the map of its marks. -/
theorem sum_pow_filter {α : Type} (p : α × Nat → Bool) (l : List α) (k : Nat) :
    ∃ m, (((l.zipIdx k).filter p).map (fun x => 2 ^ x.2)).sum = 2 ^ k * m ∧ m < 2 ^ l.length ∧
      ∀ j a, l[j]? = some a → m.testBit j = p (a, k + j) := by
  induction l generalizing k with
  | nil => exact ⟨0, rfl, Nat.one_pos, fun j a h => by simp at h⟩
  | cons x l ih =>
    obtain ⟨m, hsum, hlt, hbits⟩ := ih (k + 1)
    refine ⟨(p (x, k)).toNat + 2 * m, ?_, ?_, fun j a hj => ?_⟩
    · have hpow : 2 ^ (k + 1) * m = 2 ^ k * (2 * m) := by rw [Nat.pow_succ, Nat.mul_assoc]
      rw [List.zipIdx_cons, List.filter_cons]
      cases hp : p (x, k)
      · simpa [hp, hpow] using hsum
      · simp [hsum, hpow, Nat.mul_add]
    · have hbit : (p (x, k)).toNat ≤ 1 := Bool.toNat_le _
      rw [List.length_cons, Nat.pow_succ]
      omega
    · cases j with
      | zero =>
        have hx : x = a := by simpa using hj
        subst hx
        cases p (x, k) <;> simp [Nat.testBit_zero]
      | succ j =>
        have hhalf : ((p (x, k)).toNat + 2 * m) / 2 = m := by
          have hbit : (p (x, k)).toNat ≤ 1 := Bool.toNat_le _
          omega
        rw [Nat.testBit_succ, hhalf, hbits j a (by simpa using hj)]
        congr 2
        omega

/-- The bits of a MWAIT's map that its eight entries with a property set (R265). -/
def watchMap (mask : BitVec 8) (p : Watch → Bool) (ws : List Watch) : Nat :=
  (((ws.zipIdx.filter (fun x => mask.getLsbD x.2)).filter (fun x => p x.1)).map (fun x => 2 ^ x.2)).sum

theorem watchMap_spec (mask : BitVec 8) (p : Watch → Bool) {ws : List Watch} (hlen : ws.length = 8) :
    watchMap mask p ws < 2 ^ 8 ∧ ∀ k e, ws[k]? = some e → (watchMap mask p ws).testBit k = (mask.getLsbD k && p e) := by
  obtain ⟨m, hsum, hlt, hbits⟩ := sum_pow_filter (fun x => p x.1 && mask.getLsbD x.2) ws 0
  have hmap : watchMap mask p ws = m := by
    rw [watchMap, List.filter_filter, hsum, Nat.pow_zero, Nat.one_mul]
  rw [hmap]
  refine ⟨hlen ▸ hlt, fun k e he => ?_⟩
  rw [hbits k e he, Nat.zero_add, Bool.and_comm]

/-- Whether a property holds of an entry that a MWAIT names (R265). -/
def namesAny (mask : BitVec 8) (ws : List Watch) (p : Watch → Bool) : Bool :=
  (ws.zipIdx.filter (fun x => mask.getLsbD x.2)).any (fun x => p x.1)

theorem namesAny_iff (mask : BitVec 8) (ws : List Watch) (p : Watch → Bool) :
    namesAny mask ws p = true ↔ ∃ (k : Nat) (e : Watch), mask.getLsbD k = true ∧ ws[k]? = some e ∧ p e = true := by
  rw [namesAny, List.any_eq_true]
  constructor
  · rintro ⟨⟨e, k⟩, hmem, hp⟩
    obtain ⟨hzip, hmask⟩ := List.mem_filter.mp hmem
    exact ⟨k, e, hmask, List.mem_zipIdx_iff_getElem?.mp hzip, hp⟩
  · rintro ⟨k, e, hmask, he, hp⟩
    exact ⟨(e, k), List.mem_filter.mpr ⟨List.mem_zipIdx_iff_getElem?.mpr he, hmask⟩, hp⟩

/-- The map that MWAIT reports (R265). -/
def wakeMap (t : Thread) (mask : BitVec 8) : Nat :=
  watchMap mask (fun w => w.state == 2) t.watch + watchMap mask (fun w => w.state == 3) t.watch * 2 ^ 8
    + watchMap mask (fun w => w.recycled) t.watch * 2 ^ 16 + b2n t.spurious * 2 ^ 24

theorem wakeMap_lt {t : Thread} (hlen : t.watch.length = 8) (mask : BitVec 8) : wakeMap t mask < 2 ^ 25 := by
  have h1 := (watchMap_spec mask (fun w => w.state == 2) hlen).1
  have h2 := (watchMap_spec mask (fun w => w.state == 3) hlen).1
  have h3 := (watchMap_spec mask (fun w => w.recycled) hlen).1
  have h4 : b2n t.spurious ≤ 1 := by cases t.spurious <;> decide
  unfold wakeMap
  omega

/-- R265: the places of the map's bits. -/
theorem testBit_wakeMap {t : Thread} (hlen : t.watch.length = 8) (mask : BitVec 8) :
    (∀ k e, k < 8 → t.watch[k]? = some e →
      (wakeMap t mask).testBit k = (mask.getLsbD k && e.state == 2) ∧ (wakeMap t mask).testBit (8 + k) = (mask.getLsbD k && e.state == 3) ∧
      (wakeMap t mask).testBit (16 + k) = (mask.getLsbD k && e.recycled)) ∧ (wakeMap t mask).testBit 24 = t.spurious := by
  obtain ⟨hlt1, hbits1⟩ := watchMap_spec mask (fun w => w.state == 2) hlen
  obtain ⟨hlt2, hbits2⟩ := watchMap_spec mask (fun w => w.state == 3) hlen
  obtain ⟨hlt3, hbits3⟩ := watchMap_spec mask (fun w => w.recycled) hlen
  have hnest : wakeMap t mask = 2 ^ 8 * (2 ^ 8 * (2 ^ 8 * b2n t.spurious + watchMap mask (fun w => w.recycled) t.watch)
      + watchMap mask (fun w => w.state == 3) t.watch) + watchMap mask (fun w => w.state == 2) t.watch := by
    unfold wakeMap
    omega
  rw [hnest]
  refine ⟨fun k e hk he => ⟨?_, ?_, ?_⟩, ?_⟩
  · rw [Nat.testBit_two_pow_mul_add _ hlt1, if_pos hk, hbits1 k e he]
  · rw [Nat.testBit_two_pow_mul_add _ hlt1, if_neg (by omega), Nat.testBit_two_pow_mul_add _ hlt2, if_pos (by omega),
      Nat.add_sub_cancel_left, hbits2 k e he]
  · rw [Nat.testBit_two_pow_mul_add _ hlt1, if_neg (by omega), Nat.testBit_two_pow_mul_add _ hlt2, if_neg (by omega),
      Nat.testBit_two_pow_mul_add _ hlt3, if_pos (by omega), show 16 + k - 8 - 8 = k by omega, hbits3 k e he]
  · rw [Nat.testBit_two_pow_mul_add _ hlt1, if_neg (by decide), Nat.testBit_two_pow_mul_add _ hlt2, if_neg (by decide),
      Nat.testBit_two_pow_mul_add _ hlt3, if_neg (by decide)]
    cases t.spurious <;> rfl

/-- An entry that a MWAIT has reported (R265). -/
def reported (mask : BitVec 8) (k : Nat) (w : Watch) : Watch :=
  { w with state := if mask.getLsbD k && w.state != 1 then 0 else w.state, recycled := false }

/-- A thread whose MWAIT has reported its entries (R265). -/
def awake (t : Thread) (mask : BitVec 8) : Thread := { t with spurious := false, watch := t.watch.mapIdx (reported mask) }

/-- Whether a MWAIT has something to report (R265). -/
def wakes (t : Thread) (mask : BitVec 8) : Bool :=
  let fired := namesAny mask t.watch (fun w => decide (2 ≤ w.state))
  fired || namesAny mask t.watch (fun w => w.recycled) || (!namesAny mask t.watch (fun w => w.state == 1) && !fired) || t.spurious

theorem wakes_iff (t : Thread) (mask : BitVec 8) : wakes t mask = true ↔
    (∃ (k : Nat) (e : Watch), mask.getLsbD k = true ∧ t.watch[k]? = some e ∧ 2 ≤ e.state) ∨
    (∃ (k : Nat) (e : Watch), mask.getLsbD k = true ∧ t.watch[k]? = some e ∧ e.recycled = true) ∨
    (¬ ∃ (k : Nat) (e : Watch), mask.getLsbD k = true ∧ t.watch[k]? = some e ∧ e.state = 1) ∨ t.spurious = true := by
  have hfired := namesAny_iff mask t.watch (fun w => decide (2 ≤ w.state))
  have hrecycled := namesAny_iff mask t.watch (fun w => w.recycled)
  have harmed := namesAny_iff mask t.watch (fun w => w.state == 1)
  simp only [decide_eq_true_eq, beq_iff_eq] at hfired harmed
  rw [← hfired, ← hrecycled, ← harmed, wakes]
  cases namesAny mask t.watch (fun w => decide (2 ≤ w.state)) <;> simp [or_assoc]

theorem mwait_eq (h : MHdr) (mask : BitVec 8) (rd : BitVec 5) (s : State) : exec (.mwait h mask rd) s = runSlot h.g s (fun t =>
    if !wakes t mask then .error .stall else putScalar s (awake t mask) rd (BitVec.ofNat 64 (wakeMap t mask)) 1) := rfl

section
variable {h : MHdr} {mask : BitVec 8} {rd : BitVec 5} {s : State} {t : Thread} (hp : Performs s t h.g)
include hp

/-- R265: MWAIT with something to report. -/
theorem mwait_reports (hf : Fits t (.sreg rd.toNat) 1) (hw : wakes t mask = true) : exec (.mwait h mask rd) s =
    .next (setThread s s.cur (withResult (awake t mask) (.sreg rd.toNat) 1 (BitVec.ofNat 2048 (BitVec.ofNat 64 (wakeMap t mask)).toNat))) := by
  obtain ⟨hcol, -, hroom⟩ := hf
  rw [mwait_eq]
  refine runSlot_ok h.g s _ t _ hp.1 hp.2 ?_
  rw [hw]
  exact putScalar_ok s (awake t mask) rd _ 1 hcol (hroom (by simp))

/-- R265: MWAIT without. -/
theorem mwait_stalls (hw : wakes t mask = false) : exec (.mwait h mask rd) s =
    .next (setThread s s.cur { t with attn := some .stall, phase := .stalled }) := by
  rw [mwait_eq, ← attend_stall hp.1]
  refine runSlot_error h.g s t _ _ hp.1 hp.2 ?_
  rw [hw]
  rfl

end

/-- Settles O23: MON sets its entry; MWAIT reports or stalls. -/
theorem monAndMwait : Obligations.MonAndMwait := by
  unfold Obligations.MonAndMwait
  intro h ent ra rb rt rd cmp w mask s t hp hlen
  refine ⟨?_, ?_⟩
  · intro p g n a hplace hdev hsram hread herr seen
    obtain ⟨s', t', recycled, hnext, ht', hwatch, hr, hq, hreqs, hmem⟩ :=
      mon_sets (rb := rb) (rt := rt) (cmp := cmp) (ent := ent) hp hlen w hplace hdev hsram hread herr
    obtain ⟨haddr, hw, hcmp, hleft, hval, hstate⟩ := monEntry_fields t p.pa rb rt cmp w recycled seen
    exact ⟨s', t', _, hnext, ht', hwatch, haddr, hw, hcmp, hleft, hval, hstate, hr, hq, hreqs, hmem⟩
  · intro names
    refine ⟨fun hf hwake => ?_, fun harmed hfired hrecycled hspurious => ?_⟩
    · have hlt := wakeMap_lt hlen mask
      obtain ⟨hbits, hspurious⟩ := testBit_wakeMap hlen mask
      have hval : (BitVec.ofNat 2048 (BitVec.ofNat 64 (wakeMap t mask)).toNat).toNat = wakeMap t mask := by
        rw [BitVec.toNat_ofNat, BitVec.toNat_ofNat]
        omega
      refine ⟨_, _, mwait_reports hp hf ((wakes_iff t mask).mpr hwake), rfl, fun k e hk he => ?_, ?_, ?_, rfl, rfl, rfl, rfl⟩
      · obtain ⟨h2, h3, hrecycled⟩ := hbits k e hk he
        simp only [BitVec.getLsbD, hval]
        refine ⟨h2, h3, hrecycled, reported mask k e, ?_, ?_⟩
        · show (t.watch.mapIdx (reported mask))[k]? = _
          rw [List.getElem?_mapIdx, he]
          rfl
        · simp [reported, BitVec.testBit_toNat]
      · rw [BitVec.getLsbD, hval, hspurious]
      · rw [hval]
        exact hlt
    · have hw : wakes t mask = false := by
        rw [← Bool.not_eq_true, wakes_iff, hspurious]
        rintro (h | h | h | h)
        · exact hfired h
        · exact hrecycled h
        · exact h harmed
        · exact absurd h Bool.false_ne_true
      exact ⟨_, mwait_stalls hp hw, rfl, rfl, rfl, rfl⟩

end Sys2Proof.Machine

namespace Sys2Proof.Machine

/-! The probe cache's lookups (O24) -/

/-! The victim of a miss (R56) -/

/-- Whether one of n ways from `lo` may be taken. -/
def anyWay (ok : Nat → Bool) (lo n : Nat) : Bool := (List.range n).any (fun i => ok (lo + i))

/-- The half that a node of the tree gives, of those in which a way may be taken (R56). -/
def plruSide (t : BitVec 7) (ok : Nat → Bool) (node lo n : Nat) : Nat :=
  let want := b2n (t.getLsbD node)
  if anyWay ok (lo + want * n) n then want else 1 - want

theorem anyWay_iff (ok : Nat → Bool) (lo n : Nat) : anyWay ok lo n = true ↔ ∃ w, lo ≤ w ∧ w < lo + n ∧ ok w = true := by
  simp only [anyWay, List.any_eq_true, List.mem_range]
  constructor
  · rintro ⟨i, hi, hok⟩
    exact ⟨lo + i, by omega, by omega, hok⟩
  · rintro ⟨w, hlo, hw, hok⟩
    exact ⟨w - lo, by omega, by rwa [Nat.add_sub_cancel' hlo]⟩

/-- A node leads to a half in which a way may be taken. -/
theorem plruSide_spec {t : BitVec 7} {ok : Nat → Bool} {node lo n : Nat} (h : anyWay ok lo (2 * n) = true) :
    plruSide t ok node lo n ≤ 1 ∧ anyWay ok (lo + plruSide t ok node lo n * n) n = true := by
  have hwant : b2n (t.getLsbD node) ≤ 1 := by cases t.getLsbD node <;> decide
  unfold plruSide
  dsimp only
  split
  · next htaken => exact ⟨hwant, htaken⟩
  · next hother =>
    refine ⟨Nat.sub_le .., ?_⟩
    obtain ⟨w, hlo, hw, hok⟩ := (anyWay_iff ok lo (2 * n)).mp h
    rw [anyWay_iff] at hother ⊢
    obtain hb | hb : b2n (t.getLsbD node) = 0 ∨ b2n (t.getLsbD node) = 1 := by omega
    · rw [hb] at hother ⊢
      have hupper : ¬ w < lo + n := fun hlower => hother ⟨w, by omega, by omega, hok⟩
      exact ⟨w, by omega, by omega, hok⟩
    · rw [hb] at hother ⊢
      have hlower : w < lo + n := by
        by_contra hupper
        exact hother ⟨w, by omega, by omega, hok⟩
      exact ⟨w, by omega, by omega, hok⟩

/-- R56: the victim is a way that may be one, where there is any. -/
theorem plruVictim_spec (t : BitVec 7) (ok : Nat → Bool) : (plruVictim t ok = none ∧ ∀ w, w < 8 → ok w = false) ∨
    ∃ w, plruVictim t ok = some w ∧ w < 8 ∧ ok w = true := by
  have heq : plruVictim t ok = if !anyWay ok 0 8 then none else
      some (4 * plruSide t ok 0 0 4 + 2 * plruSide t ok (1 + plruSide t ok 0 0 4) (4 * plruSide t ok 0 0 4) 2 +
        plruSide t ok (3 + 2 * plruSide t ok 0 0 4 + plruSide t ok (1 + plruSide t ok 0 0 4) (4 * plruSide t ok 0 0 4) 2)
          (4 * plruSide t ok 0 0 4 + 2 * plruSide t ok (1 + plruSide t ok 0 0 4) (4 * plruSide t ok 0 0 4) 2) 1) := rfl
  rw [heq]
  cases hany : anyWay ok 0 8
  · refine .inl ⟨rfl, fun w hw => ?_⟩
    rw [← Bool.not_eq_true] at hany ⊢
    exact fun hok => hany ((anyWay_iff ..).mpr ⟨w, by omega, by omega, hok⟩)
  · refine .inr ⟨_, rfl, ?_⟩
    obtain ⟨ha, hanya⟩ := plruSide_spec (t := t) (node := 0) (n := 4) hany
    generalize plruSide t ok 0 0 4 = a at ha hanya ⊢
    obtain ⟨hb, hanyb⟩ := plruSide_spec (t := t) (node := 1 + a) (lo := 4 * a) (n := 2) (by simpa [Nat.mul_comm] using hanya)
    generalize plruSide t ok (1 + a) (4 * a) 2 = b at hb hanyb ⊢
    obtain ⟨hc, hanyc⟩ := plruSide_spec (t := t) (node := 3 + 2 * a + b) (lo := 4 * a + 2 * b) (n := 1)
      (by simpa [Nat.mul_comm] using hanyb)
    generalize plruSide t ok (3 + 2 * a + b) (4 * a + 2 * b) 1 = c at hc hanyc ⊢
    obtain ⟨w, hlo, hw, hok⟩ := (anyWay_iff ..).mp hanyc
    have hway : w = 4 * a + 2 * b + c := by omega
    exact ⟨by omega, hway ▸ hok⟩

/-- A way that a miss may take (R56). -/
def MayTake (s : State) (c first : Nat) (way : Option Nat) (w : Nat) : Prop :=
  w < 8 ∧ (∀ x, way = some x → w = x) ∧ (slotOf s c (first + w)).state ≠ 1 ∧ (slotOf s c (first + w)).drop_ = false

/-- The way that a miss of a block takes: the one its slot names, else the tree's victim (R56). -/
def missVictim (s : State) (c : Nat) (va : Word) (way : Option Nat) : Option Nat :=
  let p := (coreOf s c).probe
  let set := probeSet p.cfg va
  let free (w : Nat) : Bool := (slotOf s c (8 * set + w)).state != 1 && !(slotOf s c (8 * set + w)).drop_
  if !p.cfg.getLsbD 0 then none
  else match way with
    | some w => if free w then some w else none
    | none => plruVictim (mgetD 0 set p.plru) free

theorem missVictim_disabled {s : State} {c : Nat} (h : (coreOf s c).probe.cfg.getLsbD 0 = false) (va : Word) (way : Option Nat) :
    missVictim s c va way = none := by
  unfold missVictim
  dsimp only
  rw [h]
  rfl

/-- R56: a miss takes a way that may be taken, where there is any. -/
theorem missVictim_enabled {s : State} {c : Nat} {va : Word} {way : Option Nat} (h : (coreOf s c).probe.cfg.getLsbD 0 = true)
    (hway : ∀ w, way = some w → w < 8) :
    (missVictim s c va way = none ∧ ∀ w, ¬ MayTake s c (8 * probeSet (coreOf s c).probe.cfg va) way w) ∨
      ∃ w, missVictim s c va way = some w ∧ MayTake s c (8 * probeSet (coreOf s c).probe.cfg va) way w := by
  have hfree (w : Nat) : ((slotOf s c (8 * probeSet (coreOf s c).probe.cfg va + w)).state != 1 &&
      !(slotOf s c (8 * probeSet (coreOf s c).probe.cfg va + w)).drop_) = true ↔
      (slotOf s c (8 * probeSet (coreOf s c).probe.cfg va + w)).state ≠ 1 ∧
        (slotOf s c (8 * probeSet (coreOf s c).probe.cfg va + w)).drop_ = false := by simp
  unfold missVictim
  dsimp only
  rw [h]
  cases way with
  | some x =>
    by_cases hx : ((slotOf s c (8 * probeSet (coreOf s c).probe.cfg va + x)).state != 1 &&
        !(slotOf s c (8 * probeSet (coreOf s c).probe.cfg va + x)).drop_) = true
    · exact .inr ⟨x, if_pos hx, hway x rfl, fun y hy => Option.some.inj hy, (hfree x).mp hx⟩
    · refine .inl ⟨if_neg hx, fun w ⟨_, hw, htake⟩ => hx ?_⟩
      rw [← hw x rfl]
      exact (hfree w).mpr htake
  | none =>
    obtain ⟨hnone, hall⟩ | ⟨w, hsome, hlt, hok⟩ := plruVictim_spec (mgetD 0 (probeSet (coreOf s c).probe.cfg va) (coreOf s c).probe.plru)
      (fun w => (slotOf s c (8 * probeSet (coreOf s c).probe.cfg va + w)).state != 1 &&
        !(slotOf s c (8 * probeSet (coreOf s c).probe.cfg va + w)).drop_)
    · refine .inl ⟨hnone, fun w ⟨hlt, _, htake⟩ => ?_⟩
      exact absurd ((hall w hlt).symm.trans ((hfree w).mpr htake)) Bool.false_ne_true
    · exact .inr ⟨w, hsome, hlt, nofun, (hfree w).mp hok⟩

end Sys2Proof.Machine

namespace Sys2Proof.Machine

/-! What a probe slot changes beside its thread (R55 to R59) -/

theorem probe_setThread (s : State) (c : Nat) (t : Thread) : (coreOf (setThread s c t) c).probe = (coreOf s c).probe := by
  simp [setThread]

/-- The two states have the same memory and current core. -/
def SamePlace (s s' : State) : Prop := s'.mem = s.mem ∧ s'.cur = s.cur

theorem SamePlace.trans {s s' s'' : State} (h : SamePlace s s') (h' : SamePlace s' s'') : SamePlace s s'' :=
  ⟨h'.1.trans h.1, h'.2.trans h.2⟩

theorem samePlace_modProbe (s : State) (c : Nat) (f : Probe → Probe) : SamePlace s (modProbe s c f) := ⟨rfl, rfl⟩

theorem startProbe_keeps (s : State) (c : Nat) (o : POp) : SamePlace s (startProbe s c o) ∧ (startProbe s c o).cores = s.cores := by
  unfold startProbe schedule
  dsimp only
  split <;> exact ⟨⟨rfl, rfl⟩, rfl⟩

/-- R57: a queued operation takes the next number. -/
theorem queueProbe_spec (s : State) (c : Nat) (o : POp) : SamePlace s (queueProbe s c o) ∧
    ∃ q, (coreOf (queueProbe s c o) c).probe = { (coreOf s c).probe with no := (coreOf s c).probe.no + 1, queue := q } := by
  obtain ⟨s0, hs0, hsame, hcores⟩ : ∃ s0, s0 = (if o.issuer.frame < 2 ^ 32 then noteCtxJob s (probeCtx c) o.issuer.regs else s) ∧
      SamePlace s s0 ∧ s0.cores = s.cores := by
    refine ⟨_, rfl, ?_⟩
    split <;> exact ⟨⟨rfl, rfl⟩, rfl⟩
  rw [queueProbe, ← hs0]
  let o' : POp := { o with no := (coreOf s c).probe.no + 1 }
  obtain ⟨hsame', hcores'⟩ := startProbe_keeps (modProbe s0 c (fun p => { p with no := o'.no, queue := p.queue ++ [o'] })) c o'
  refine ⟨hsame.trans ((samePlace_modProbe ..).trans hsame'), (coreOf s c).probe.queue ++ [o'], ?_⟩
  rw [coreOf_of_cores hcores' c, probe_modProbe, coreOf_of_cores hcores c]

theorem probe_touchPlru (s : State) (c j : Nat) : ∃ m, (coreOf (touchPlru s c j) c).probe = { (coreOf s c).probe with plru := m } :=
  ⟨_, probe_modProbe ..⟩

/-- A slot set to other than the reset value. -/
theorem probe_setSlot {s : State} {c j : Nat} {x : PSlot} (hx : x.state ≠ 0) :
    (coreOf (setSlot s c j x) c).probe = { (coreOf s c).probe with slots := mput j x (coreOf s c).probe.slots } := by
  have hne : x ≠ PSlot.invalid := fun h => hx (congrArg PSlot.state h)
  rw [setSlot, probe_modProbe, mset, if_neg hne]

theorem probe_setSlot_invalid (s : State) (c j : Nat) :
    (coreOf (setSlot s c j PSlot.invalid) c).probe = { (coreOf s c).probe with slots := mdel j (coreOf s c).probe.slots } := by
  rw [setSlot, probe_modProbe, mset, if_pos rfl]

theorem slotOf_listed {s : State} {c j : Nat} {x : PSlot} {p : Probe} {m : Map PSlot} (h : (coreOf s c).probe = p)
    (hm : p.slots = mput j x m) : slotOf s c j = x := by
  rw [slotOf, h, hm, mgetD_mput_same]

/-- R59: the tags of a queued fill are no core's. -/
theorem tagFill_keeps (s : State) (c j n : Nat) (bar : Option (Word × Nat)) (phase : Nat) :
    SamePlace s (tagFill s c j n bar phase) ∧ (tagFill s c j n bar phase).cores = s.cores := by
  unfold tagFill
  dsimp only
  refine foldl_keeps (fun x : State => SamePlace s x ∧ x.cores = s.cores) _ ?_ _ s ⟨⟨rfl, rfl⟩, rfl⟩
  exact fun _ _ h => h

/-! A miss (R56 to R59) -/

/-- The state in which a miss has queued the write-back of slot j, which held x, if it is DIRTY, and its fill (R57). -/
def missQueued (s : State) (x : PSlot) (c : Nat) (t : Thread) (va : Word) (j : Nat) (bar : Option (Word × Nat)) (phase : Nat) : State :=
  queueProbe (if x.state == 3 then queueProbe s c (newWriteBack j x (issuerOf c t)) else s) c
    (newFill j va (wf 15 0 t.regs.asid) bar phase (issuerOf c t))

/-- A slot whose fill a thread has queued under number n (R55, R59). -/
def fillingSlot (t : Thread) (va : Word) (n : Nat) : PSlot :=
  { PSlot.invalid with state := 1, va := va, asid := wf 15 0 t.regs.asid, no := n, regs := t.regs, priv := privileged t }

/-- The state in which the miss has taken the slot (R56, R59). -/
def missTaken (s : State) (x : PSlot) (c : Nat) (t : Thread) (va : Word) (j : Nat) (bar : Option (Word × Nat)) (phase : Nat) : State :=
  let s := missQueued s x c t va j bar phase
  let n := (coreOf s c).probe.no
  tagFill (touchPlru (setSlot s c j (fillingSlot t va n)) c j) c j n bar phase

/-- One for a DIRTY slot, whose write-back goes before the fill (R57). -/
def dirtyBit (x : PSlot) : Nat := if x.state = 3 then 1 else 0

theorem missQueued_spec (s : State) (x : PSlot) (c : Nat) (t : Thread) (va : Word) (j : Nat) (bar : Option (Word × Nat)) (phase : Nat) :
    SamePlace s (missQueued s x c t va j bar phase) ∧
      (coreOf (missQueued s x c t va j bar phase) c).probe.no = (coreOf s c).probe.no + 1 + dirtyBit x := by
  obtain ⟨s1, hs1, hsame1, hno1⟩ : ∃ s1, s1 = (if x.state == 3 then queueProbe s c (newWriteBack j x (issuerOf c t)) else s) ∧
      SamePlace s s1 ∧ (coreOf s1 c).probe.no = (coreOf s c).probe.no + dirtyBit x := by
    refine ⟨_, rfl, ?_⟩
    by_cases hdirty : x.state = 3
    · obtain ⟨hsame, q, hprobe⟩ := queueProbe_spec s c (newWriteBack j x (issuerOf c t))
      rw [if_pos (by simpa using hdirty)]
      exact ⟨hsame, by rw [hprobe, dirtyBit, if_pos hdirty]⟩
    · rw [if_neg (by simpa using hdirty), dirtyBit, if_neg hdirty]
      exact ⟨⟨rfl, rfl⟩, rfl⟩
  obtain ⟨hsame2, q, hprobe2⟩ := queueProbe_spec s1 c (newFill j va (wf 15 0 t.regs.asid) bar phase (issuerOf c t))
  rw [missQueued, ← hs1, hprobe2]
  exact ⟨hsame1.trans hsame2, by rw [hno1, Nat.add_right_comm]⟩

/-- R55, R57: what a miss leaves: its slot FILLING, with the number of the fill queued. -/
theorem missTaken_spec (s : State) (x : PSlot) (c : Nat) (t : Thread) (va : Word) (j : Nat) (bar : Option (Word × Nat)) (phase : Nat) :
    SamePlace s (missTaken s x c t va j bar phase) ∧
    (coreOf (missTaken s x c t va j bar phase) c).probe.no = (coreOf s c).probe.no + 1 + dirtyBit x ∧
    slotOf (missTaken s x c t va j bar phase) c j = fillingSlot t va ((coreOf s c).probe.no + 1 + dirtyBit x) := by
  obtain ⟨hsame, hno⟩ := missQueued_spec s x c t va j bar phase
  rw [missTaken]
  generalize missQueued s x c t va j bar phase = s2 at hsame hno
  rw [hno]
  generalize hy : fillingSlot t va ((coreOf s c).probe.no + 1 + dirtyBit x) = y
  have hset : (coreOf (setSlot s2 c j y) c).probe = _ := probe_setSlot (hy ▸ Nat.one_ne_zero)
  obtain ⟨m, htouch⟩ := probe_touchPlru (setSlot s2 c j y) c j
  obtain ⟨hsame', hcores⟩ := tagFill_keeps (touchPlru (setSlot s2 c j y) c j) c j ((coreOf s c).probe.no + 1 + dirtyBit x) bar phase
  have hprobe := (congrArg Core.probe (coreOf_of_cores hcores c)).trans (htouch.trans (by rw [hset]))
  exact ⟨hsame.trans hsame', (congrArg Probe.no hprobe).trans hno, slotOf_listed hprobe rfl⟩

/-- What a miss does with its victim (R56 to R59). -/
def missResult (s : State) (c : Nat) (t : Thread) (va : Word) (bar : Option (Word × Nat)) :
    Option Nat → Except Attn (State × Thread × Option (Nat × Nat))
  | none => .ok (s, t, none)
  | some w =>
    let j := 8 * probeSet (coreOf s c).probe.cfg va + w
    let x := slotOf s c j
    if 32 < probeQueued (coreOf s c).probe + 1 + b2n (x.state == 3) then .error (.freeze 5)
    else (barPhase s c bar).bind (fun b => .ok (missTaken b.2 x c (release t) va j bar b.1, release t,
      some (j, (coreOf (missQueued b.2 x c (release t) va j bar b.1) c).probe.no)))

theorem probeMiss_eq (s : State) (c : Nat) (t : Thread) (va : Word) (way : Option Nat) (bar : Option (Word × Nat)) :
    probeMiss s c t va way bar = missResult s c t va bar (missVictim s c va way) := rfl

theorem b2n_eq_dirtyBit (x : PSlot) : b2n (x.state == 3) = dirtyBit x := by
  by_cases h : x.state = 3 <;> simp [dirtyBit, h, b2n]

/-- R58, R59: the phase of a barrier that can be read. -/
theorem barPhase_ok {s : State} {c : Nat} {bar : Option (Word × Nat)}
    (h : ∀ b, bar = some b → ∃ v, readBar s (whoCore c) b.2 b.1 = (.ok v, s)) : ∃ phase, barPhase s c bar = .ok (phase, s) := by
  cases bar with
  | none => exact ⟨0, rfl⟩
  | some b =>
    obtain ⟨v, hv⟩ := h b rfl
    exact ⟨bits 0 4 v, by rw [barPhase, hv]⟩

end Sys2Proof.Machine

namespace Sys2Proof.Machine

/-! PROBE and FILL (O24) -/

/-- The value that a probe slot puts in flight for a number. -/
def numberRow (n : Nat) : Row := BitVec.ofNat 2048 (n % 2 ^ 64)

theorem row_ofNat (n : Nat) : BitVec.ofNat 2048 (BitVec.ofNat 64 n).toNat = numberRow n := by
  rw [BitVec.toNat_ofNat, numberRow]

/-- A thread with PROBE's three results in flight (R256, R257). -/
def probed (t : Thread) (pd : BitVec 3) (rdp : BitVec 4) (b : Bool) (x y : Nat) : Thread :=
  withResult (withResult (withResult t (.preg pd.toNat) 2 (BitVec.ofNat 2048 (b2n b))) (.sreg (2 * rdp.toNat)) 2 (numberRow x))
    (.sreg (2 * rdp.toNat + 1)) 2 (numberRow y)

/-- That all three of PROBE's results can be put in flight. -/
def ProbeRoom (t : Thread) (pd : BitVec 3) (rdp : BitVec 4) : Prop :=
  inFlight t + 3 ≤ 64 ∧ Fits t (.preg pd.toNat) 2 ∧ Fits t (.sreg (2 * rdp.toNat)) 2 ∧ Fits t (.sreg (2 * rdp.toNat + 1)) 2

theorem pair_lo (rdp : BitVec 4) : (BitVec.ofNat 5 (2 * rdp.toNat)).toNat = 2 * rdp.toNat := by
  rw [BitVec.toNat_ofNat]
  omega

theorem pair_hi (rdp : BitVec 4) : (BitVec.ofNat 5 (2 * rdp.toNat) ||| 1).toNat = 2 * rdp.toNat + 1 := by
  revert rdp
  decide

/-- What PROBE puts in flight, with the transfer where its predicate is false (R256). -/
def probePut (pd : BitVec 3) (rdp : BitVec 4) (mb : Bool) (tgt : BitVec 6) (s : State) (c : Nat) (t : Thread) (ok : Bool) (x y : Word) : Slot :=
  let lo : BitVec 5 := BitVec.ofNat 5 (2 * rdp.toNat)
  (addPred t pd ok 2).bind (fun t => (addScalar t lo x 2).bind (fun t => (addScalar t (lo ||| 1) y 2).map (fun t =>
    setThread s c (if mb && !ok then goTo t tgt.toNat else t))))

theorem probePut_ok {pd : BitVec 3} {rdp : BitVec 4} {t : Thread} (h : ProbeRoom t pd rdp) (mb : Bool) (tgt : BitVec 6) (s : State) (c : Nat)
    (b : Bool) (x y : Nat) : probePut pd rdp mb tgt s c t b (BitVec.ofNat 64 x) (BitVec.ofNat 64 y) =
      .ok (setThread s c (if mb && !b then goTo (probed t pd rdp b x y) tgt.toNat else probed t pd rdp b x y)) := by
  obtain ⟨hroom, hpred, hlo, hhi⟩ := h
  let v : Row := BitVec.ofNat 2048 (b2n b)
  have hmore := inFlight_withResult_le t (.preg pd.toNat) 2 v
  have hlo' : Fits (withResult t (.preg pd.toNat) 2 v) (.sreg (BitVec.ofNat 5 (2 * rdp.toNat)).toNat) 2 := by
    rw [pair_lo]
    exact fits_withResult hlo (by omega) (by simp)
  have hhi' : Fits (withResult (withResult t (.preg pd.toNat) 2 v) (.sreg (2 * rdp.toNat)) 2 (numberRow x))
      (.sreg (BitVec.ofNat 5 (2 * rdp.toNat) ||| 1).toNat) 2 := by
    rw [pair_hi]
    exact fits_withResult (fits_withResult hhi (by omega) (by simp)) (by omega) (by simp)
  rw [probePut, addPred_fits hpred]
  dsimp only [Except.bind]
  rw [addScalar_fits hlo', pair_lo, row_ofNat]
  dsimp only
  rw [addScalar_fits hhi', pair_hi, row_ofNat]
  rfl

/-- What PROBE does with its lookup (R256, R257). -/
def probeAfter (s : State) (t : Thread) (pd : BitVec 3) (rdp : BitVec 4) (mb : Bool) (tgt : BitVec 6) (va : Word) (way : Option Nat)
    (bar : Option (Word × Nat)) : Look → Slot
  | .err j => .error (.pending 5 j)
  | .hit j => probePut pd rdp mb tgt (touchPlru s s.cur j) s.cur (acquireFill s s.cur t j) true (BitVec.ofNat 64 j)
      (BitVec.ofNat 64 (slotOf s s.cur j).no)
  | .filling j => probePut pd rdp mb tgt s s.cur t false (BitVec.ofNat 64 j) (BitVec.ofNat 64 (slotOf s s.cur j).no)
  | .miss => (probeMiss s s.cur t va way bar).bind (fun r => match r.2.2 with
      | some (j, no) => probePut pd rdp mb tgt r.1 s.cur r.2.1 false (BitVec.ofNat 64 j) (BitVec.ofNat 64 no)
      | none => probePut pd rdp mb tgt r.1 s.cur r.2.1 false (BitVec.allOnes 64) 0)

/-- What FILL does with its lookup (R258). -/
def fillAfter (s : State) (t : Thread) (rd : BitVec 5) (va : Word) (way : Option Nat) (bar : Option (Word × Nat)) : Look → Slot
  | .err j => .error (.pending 5 j)
  | .hit j => putScalar (touchPlru s s.cur j) t rd (BitVec.ofNat 64 (slotOf s s.cur j).no) 1
  | .filling j => putScalar s t rd (BitVec.ofNat 64 (slotOf s s.cur j).no) 1
  | .miss => (probeMiss s s.cur t va way bar).bind (fun r => putScalar r.1 r.2.1 rd (match r.2.2 with
      | some (_, no) => BitVec.ofNat 64 no
      | none => 0) 1)

section
variable {h : MHdr} {pd way : BitVec 3} {rdp : BitVec 4} {ra rd rb : BitVec 5} {tgt : BitVec 6} {wayf mb barf : Bool} {s : State}
  {t : Thread} {va : Word} {bar : Option (Word × Nat)}
  (hp : Performs s t h.g) (hblock : probeBlock t ra = .ok va) (hbar : fillBar s t barf rb = .ok bar)
include hp hblock hbar

theorem exec_probe (htgt : mb = true → tgt.toNat < t.q.buf.count) :
    (∀ s', probeAfter s t pd rdp mb tgt va (if wayf then some way.toNat else none) bar (probeLook s s.cur t va) = .ok s' →
      exec (.probe h pd rdp ra wayf way mb tgt barf rb) s = .next s') ∧
    ∀ a, probeAfter s t pd rdp mb tgt va (if wayf then some way.toNat else none) bar (probeLook s s.cur t va) = .error a →
      exec (.probe h pd rdp ra wayf way mb tgt barf rb) s = .next (attend s s.cur a) := by
  have hcheck : (if mb then checkIndex t tgt else .ok ()) = .ok () := by
    cases mb with
    | true => exact checkIndex_inside (htgt rfl)
    | false => rfl
  refine ⟨fun s' h' => runSlot_ok h.g s s' t _ hp.1 hp.2 ?_, fun a h' => runSlot_error h.g s t _ a hp.1 hp.2 ?_⟩
  all_goals
    dsimp only
    rw [hcheck]
    dsimp only [Except.bind]
    rw [hblock]
    dsimp only
    rw [hbar, ← h']
    cases probeLook s s.cur t va <;> rfl

theorem exec_fill :
    (∀ s', fillAfter s t rd va (if wayf then some way.toNat else none) bar (probeLook s s.cur t va) = .ok s' →
      exec (.fill h rd ra wayf way barf rb) s = .next s') ∧
    ∀ a, fillAfter s t rd va (if wayf then some way.toNat else none) bar (probeLook s s.cur t va) = .error a →
      exec (.fill h rd ra wayf way barf rb) s = .next (attend s s.cur a) := by
  refine ⟨fun s' h' => runSlot_ok h.g s s' t _ hp.1 hp.2 ?_, fun a h' => runSlot_error h.g s t _ a hp.1 hp.2 ?_⟩
  all_goals
    dsimp only
    rw [hblock]
    dsimp only [Except.bind]
    rw [hbar, ← h']
    cases probeLook s s.cur t va <;> rfl

end

end Sys2Proof.Machine

namespace Sys2Proof.Machine

/-! The outcomes of a lookup (O24) -/

theorem probeLook_disabled {s : State} {c : Nat} {t : Thread} {va : Word} (h : (coreOf s c).probe.cfg.getLsbD 0 = false) :
    probeLook s c t va = .miss := by
  rw [probeLook, h]
  rfl

theorem probeLook_untagged {s : State} {c : Nat} {t : Thread} {va : Word} (h : slotFor s c (t.regs.asid.toNat % 2 ^ 16) va = none) :
    probeLook s c t va = .miss := by
  rw [probeLook, wf_15_0, h]
  exact ite_self _

/-- What an enabled cache's lookup says of the slot that has the tag (R55, R257). -/
def lookOf (j : Nat) : Nat → Look
  | 1 => .filling j
  | 4 => .err j
  | _ => .hit j

theorem probeLook_tagged {s : State} {c j : Nat} {t : Thread} {va : Word} (hon : (coreOf s c).probe.cfg.getLsbD 0 = true)
    (h : slotFor s c (t.regs.asid.toNat % 2 ^ 16) va = some j) : probeLook s c t va = lookOf j (slotOf s c j).state := by
  rw [probeLook, wf_15_0, h, hon]
  simp only [Bool.not_true, Bool.false_eq_true, if_false]
  rfl

/-- FILL's result: the thread, which may have counted a release or an acquire, with a number in flight. -/
def numbered (t : Thread) (d : Detector) (rd : BitVec 5) (n : Nat) : Thread :=
  withResult { t with det := d } (.sreg rd.toNat) 1 (numberRow n)

theorem putScalar_numbered {t : Thread} {rd : BitVec 5} (hf : Fits t (.sreg rd.toNat) 1) (s : State) (d : Detector) (n : Nat) :
    putScalar s { t with det := d } rd (BitVec.ofNat 64 n) 1 = .ok (setThread s s.cur (numbered t d rd n)) := by
  have hf' : Fits { t with det := d } (.sreg rd.toNat) 1 := hf
  rw [putScalar, addScalar_fits hf', row_ofNat]
  rfl

/-- PROBE's results in flight, with its transfer taken where it is false. -/
def probedOn (t : Thread) (d : Detector) (pd : BitVec 3) (rdp : BitVec 4) (mb : Bool) (tgt : BitVec 6) (b : Bool) (x y : Nat) : Thread :=
  if mb && !b then goTo (probed { t with det := d } pd rdp b x y) tgt.toNat else probed { t with det := d } pd rdp b x y

/-- What FILL, EVICT and WBACK leave: one number in flight, registers and memory as they were. -/
def GivesOne (s : State) (t : Thread) (rd : BitVec 5) (s' : State) (t' : Thread) (n : Nat) : Prop :=
  threadOf s' s.cur = some t' ∧ t'.r = t.r ∧ t'.q = t.q ∧ s'.mem = s.mem ∧
    t'.x.inflight = t.x.inflight ++ [⟨.sreg rd.toNat, t.x.dc + 1, BitVec.ofNat 2048 (n % 2 ^ 64), fullMask, 0, 0⟩]

/-- What PROBE leaves: its three results in flight, registers and memory as they were, and its transfer (R256). -/
def GivesThree (s : State) (t : Thread) (pd : BitVec 3) (rdp : BitVec 4) (mb : Bool) (tgt : BitVec 6) (s' : State) (t' : Thread)
    (b : Bool) (x y : Nat) : Prop :=
  threadOf s' s.cur = some t' ∧ t'.r = t.r ∧ s'.mem = s.mem ∧
    t'.q = (if mb = true ∧ b = false then { t.q with idx := tgt.toNat, moved := true } else t.q) ∧
    t'.x.inflight = t.x.inflight ++ [⟨.preg pd.toNat, t.x.dc + 2, BitVec.ofNat 2048 (b2n b), fullMask, 0, 0⟩,
      ⟨.sreg (2 * rdp.toNat), t.x.dc + 2, BitVec.ofNat 2048 (x % 2 ^ 64), fullMask, 0, 0⟩,
      ⟨.sreg (2 * rdp.toNat + 1), t.x.dc + 2, BitVec.ofNat 2048 (y % 2 ^ 64), fullMask, 0, 0⟩]

theorem numbered_gives {s s1 : State} (hsame : SamePlace s s1) (t : Thread) (d : Detector) (rd : BitVec 5) (n : Nat) :
    GivesOne s t rd (setThread s1 s.cur (numbered t d rd n)) (numbered t d rd n) n :=
  ⟨threadOf_setThread .., rfl, rfl, hsame.1, rfl⟩

theorem probed_inflight (t : Thread) (pd : BitVec 3) (rdp : BitVec 4) (b : Bool) (x y : Nat) :
    (probed t pd rdp b x y).x.inflight = t.x.inflight ++ [⟨.preg pd.toNat, t.x.dc + 2, BitVec.ofNat 2048 (b2n b), fullMask, 0, 0⟩,
      ⟨.sreg (2 * rdp.toNat), t.x.dc + 2, numberRow x, fullMask, 0, 0⟩,
      ⟨.sreg (2 * rdp.toNat + 1), t.x.dc + 2, numberRow y, fullMask, 0, 0⟩] := by
  simp [probed, withResult]

theorem probedOn_det (t : Thread) (d : Detector) (pd : BitVec 3) (rdp : BitVec 4) (mb : Bool) (tgt : BitVec 6) (b : Bool) (x y : Nat) :
    (probedOn t d pd rdp mb tgt b x y).det = d := by
  unfold probedOn
  split <;> rfl

theorem probedOn_gives {s s1 : State} (hsame : SamePlace s s1) (t : Thread) (d : Detector) (pd : BitVec 3) (rdp : BitVec 4) (mb : Bool)
    (tgt : BitVec 6) (b : Bool) (x y : Nat) : GivesThree s t pd rdp mb tgt (setThread s1 s.cur (probedOn t d pd rdp mb tgt b x y))
      (probedOn t d pd rdp mb tgt b x y) b x y := by
  have hflight := probed_inflight { t with det := d } pd rdp b x y
  refine ⟨threadOf_setThread .., ?_, hsame.1, ?_, ?_⟩
  · unfold probedOn
    split <;> rfl
  · unfold probedOn
    cases mb <;> cases b <;> rfl
  · unfold probedOn
    split <;> exact hflight

/-- What PROBE and FILL of a block do with its lookup: they put b, x and y, and y, in flight in state s1. -/
def LookGives (s : State) (t : Thread) (va : Word) (way : Option Nat) (bar : Option (Word × Nat)) (s1 : State) (dp df : Detector)
    (b : Bool) (x y : Nat) : Prop :=
  (∀ pd rdp mb tgt, probeAfter s t pd rdp mb tgt va way bar (probeLook s s.cur t va) =
      probePut pd rdp mb tgt s1 s.cur { t with det := dp } b (BitVec.ofNat 64 x) (BitVec.ofNat 64 y)) ∧
    ∀ rd, fillAfter s t rd va way bar (probeLook s s.cur t va) = putScalar s1 { t with det := df } rd (BitVec.ofNat 64 y) 1

/-- A lookup after which PROBE and FILL meet a. -/
def LookMeets (s : State) (t : Thread) (va : Word) (way : Option Nat) (bar : Option (Word × Nat)) (a : Attn) : Prop :=
  (∀ pd rdp mb tgt, probeAfter s t pd rdp mb tgt va way bar (probeLook s s.cur t va) = .error a) ∧
    ∀ rd, fillAfter s t rd va way bar (probeLook s s.cur t va) = .error a

theorem acquireFill_det (s : State) (c : Nat) (t : Thread) (j : Nat) : ∃ d, acquireFill s c t j = { t with det := d } := by
  unfold acquireFill
  split
  · exact ⟨t.det, rfl⟩
  · exact ⟨_, rfl⟩

section
variable {s : State} {t : Thread} {va : Word} {j : Nat} (way : Option Nat) (bar : Option (Word × Nat))
  (hon : (coreOf s s.cur).probe.cfg.getLsbD 0 = true) (htag : slotFor s s.cur (t.regs.asid.toNat % 2 ^ 16) va = some j)
include hon htag

/-- R256: a VALID or DIRTY slot is a hit. -/
theorem look_hit (hst : (slotOf s s.cur j).state = 2 ∨ (slotOf s s.cur j).state = 3) :
    ∃ s1 dp df, SamePlace s s1 ∧ LookGives s t va way bar s1 dp df true j (slotOf s s.cur j).no := by
  have hlook : probeLook s s.cur t va = .hit j := by
    rw [probeLook_tagged hon htag]
    obtain h | h := hst <;> rw [h] <;> rfl
  obtain ⟨d, hd⟩ := acquireFill_det s s.cur t j
  refine ⟨touchPlru s s.cur j, d, t.det, samePlace_modProbe .., fun pd rdp mb tgt => ?_, fun rd => ?_⟩
  · rw [hlook, ← hd]
    rfl
  · rw [hlook]
    rfl

/-- R257: a FILLING slot is no hit, and its fill has a number. -/
theorem look_filling (hst : (slotOf s s.cur j).state = 1) : LookGives s t va way bar s t.det t.det false j (slotOf s s.cur j).no := by
  have hlook : probeLook s s.cur t va = .filling j := by
    rw [probeLook_tagged hon htag, hst]
    rfl
  exact ⟨fun pd rdp mb tgt => by rw [hlook]; rfl, fun rd => by rw [hlook]; rfl⟩

/-- R257: an ERR slot takes its data error. -/
theorem look_err (hst : (slotOf s s.cur j).state = 4) : LookMeets s t va way bar (.pending 5 j) := by
  have hlook : probeLook s s.cur t va = .err j := by
    rw [probeLook_tagged hon htag, hst]
    rfl
  exact ⟨fun pd rdp mb tgt => by rw [hlook]; rfl, fun rd => by rw [hlook]; rfl⟩

end

section
variable {s : State} {t : Thread} {va : Word} {way : Option Nat} {bar : Option (Word × Nat)} (hlook : probeLook s s.cur t va = .miss)
include hlook

/-- R56: a miss with no slot to take answers all ones and 0. -/
theorem look_untaken (hvictim : missVictim s s.cur va way = none) : LookGives s t va way bar s t.det t.det false (2 ^ 64 - 1) 0 := by
  have hmiss : probeMiss s s.cur t va way bar = .ok (s, t, none) := by rw [probeMiss_eq, hvictim, missResult]
  exact ⟨fun pd rdp mb tgt => by rw [hlook, probeAfter, hmiss]; rfl, fun rd => by rw [hlook, fillAfter, hmiss]; rfl⟩

/-- R57: a miss whose fill finds no room in the queue freezes the core. -/
theorem look_full {w : Nat} (hvictim : missVictim s s.cur va way = some w) (hfull : 32 < probeQueued (coreOf s s.cur).probe + 1 +
      dirtyBit (slotOf s s.cur (8 * probeSet (coreOf s s.cur).probe.cfg va + w))) : LookMeets s t va way bar (.freeze 5) := by
  have hmiss : probeMiss s s.cur t va way bar = .error (.freeze 5) := by
    rw [probeMiss_eq, hvictim, missResult, b2n_eq_dirtyBit, if_pos hfull]
  exact ⟨fun pd rdp mb tgt => by rw [hlook, probeAfter, hmiss]; rfl, fun rd => by rw [hlook, fillAfter, hmiss]; rfl⟩

/-- R257: a miss with room in the queue answers with the way it takes and the number of the fill that it queues. -/
theorem look_taken {w : Nat} (hvictim : missVictim s s.cur va way = some w)
    (hbar : ∀ b, bar = some b → ∃ v, readBar s (whoCore s.cur) b.2 b.1 = (.ok v, s)) :
    let j := 8 * probeSet (coreOf s s.cur).probe.cfg va + w
    let n := (coreOf s s.cur).probe.no + 1 + dirtyBit (slotOf s s.cur j)
    probeQueued (coreOf s s.cur).probe + 1 + dirtyBit (slotOf s s.cur j) ≤ 32 →
    ∃ s1, SamePlace s s1 ∧ (coreOf s1 s.cur).probe.no = n ∧ slotOf s1 s.cur j = fillingSlot (release t) va n ∧
      LookGives s t va way bar s1 (release t).det (release t).det false j n := by
  intro j n hroom
  obtain ⟨phase, hphase⟩ := barPhase_ok (c := s.cur) hbar
  obtain ⟨hsame, hno, hslot⟩ := missTaken_spec s (slotOf s s.cur j) s.cur (release t) va j bar phase
  obtain ⟨-, hqueued⟩ := missQueued_spec s (slotOf s s.cur j) s.cur (release t) va j bar phase
  have hmiss : probeMiss s s.cur t va way bar =
      .ok (missTaken s (slotOf s s.cur j) s.cur (release t) va j bar phase, release t, some (j, n)) := by
    rw [probeMiss_eq, hvictim, missResult, b2n_eq_dirtyBit, if_neg (Nat.not_lt.mpr hroom), hphase]
    dsimp only [Except.bind]
    rw [hqueued]
  exact ⟨_, hsame, hno, hslot, fun pd rdp mb tgt => by rw [hlook, probeAfter, hmiss]; rfl,
    fun rd => by rw [hlook, fillAfter, hmiss]; rfl⟩

end

section
variable {h : MHdr} {pd way : BitVec 3} {rdp : BitVec 4} {ra rd rb : BitVec 5} {tgt : BitVec 6} {wayf mb barf : Bool} {s : State}
  {t : Thread} {va : Word} {bar : Option (Word × Nat)}
  (hp : Performs s t h.g) (hblock : probeBlock t ra = .ok va) (hbar : fillBar s t barf rb = .ok bar)
  (htgt : mb = true → tgt.toNat < t.q.buf.count)
include hp hblock hbar htgt

theorem slots_give {s1 : State} {dp df : Detector} {b : Bool} {x y : Nat} (hsame : SamePlace s s1) (hf : Fits t (.sreg rd.toNat) 1)
    (hlook : LookGives s t va (if wayf then some way.toNat else none) bar s1 dp df b x y) :
    (ProbeRoom t pd rdp → exec (.probe h pd rdp ra wayf way mb tgt barf rb) s =
      .next (setThread s1 s.cur (probedOn t dp pd rdp mb tgt b x y))) ∧
    exec (.fill h rd ra wayf way barf rb) s = .next (setThread s1 s.cur (numbered t df rd y)) := by
  refine ⟨fun hroom => (exec_probe hp hblock hbar htgt).1 _ ?_, (exec_fill hp hblock hbar).1 _ ?_⟩
  · have hroom' : ProbeRoom { t with det := dp } pd rdp := hroom
    rw [hlook.1, probePut_ok hroom', probedOn]
  · rw [hlook.2, putScalar_numbered hf, hsame.2]

theorem slots_meet {a : Attn} (hlook : LookMeets s t va (if wayf then some way.toNat else none) bar a) :
    exec (.probe h pd rdp ra wayf way mb tgt barf rb) s = .next (attend s s.cur a) ∧
      exec (.fill h rd ra wayf way barf rb) s = .next (attend s s.cur a) :=
  ⟨(exec_probe hp hblock hbar htgt).2 _ (hlook.1 ..), (exec_fill hp hblock hbar).2 _ (hlook.2 _)⟩

/-- The same with what the slots leave. -/
theorem slots_leave {s1 : State} {dp df : Detector} {b : Bool} {x y : Nat} (hsame : SamePlace s s1) (hf : Fits t (.sreg rd.toNat) 1)
    (hlook : LookGives s t va (if wayf then some way.toNat else none) bar s1 dp df b x y) :
    (ProbeRoom t pd rdp → ∃ s' t', exec (.probe h pd rdp ra wayf way mb tgt barf rb) s = .next s' ∧
      GivesThree s t pd rdp mb tgt s' t' b x y) ∧
    ∃ s' t', exec (.fill h rd ra wayf way barf rb) s = .next s' ∧ GivesOne s t rd s' t' y := by
  obtain ⟨hprobe, hfill⟩ := slots_give hp hblock hbar htgt hsame hf hlook
  exact ⟨fun hroom => ⟨_, _, hprobe hroom, probedOn_gives hsame ..⟩, ⟨_, _, hfill, numbered_gives hsame ..⟩⟩

end

end Sys2Proof.Machine

namespace Sys2Proof.Machine

/-! EVICT and WBACK (O24) -/

/-- A slot that EVICT or WBACK leaves in state st (R259). -/
def releasedSlot (x : PSlot) (st : Nat) : PSlot := if st = 0 then PSlot.invalid else { x with state := st }

/-- A slot that counts a release and puts a number in flight, after s1. -/
theorem runSlot_releases {g : Guard} {rd : BitVec 5} {s s1 : State} {t : Thread} {f : Thread → Slot} {n : Nat} (hp : Performs s t g)
    (hf : Fits t (.sreg rd.toNat) 1) (hsame : SamePlace s s1) (h : f t = putScalar s1 (release t) rd (BitVec.ofNat 64 n) 1) :
    ∃ s' t', runSlot g s f = .next s' ∧ GivesOne s t rd s' t' n ∧ t'.det.scnt = (t.det.scnt + 1) % 2 ^ 32 ∧
      (coreOf s' s.cur).probe = (coreOf s1 s.cur).probe := by
  refine ⟨setThread s1 s.cur (numbered t (release t).det rd n), _, runSlot_ok g s _ t f hp.1 hp.2 ?_, numbered_gives hsame ..,
    rfl, probe_setThread ..⟩
  rw [h, ← hsame.2]
  exact putScalar_numbered hf ..

/-- What EVICT and WBACK do with slot j, which they leave in state st (R259). -/
def releaseAs (s : State) (t : Thread) (rd : BitVec 5) (j st : Nat) (write : Bool) : Slot :=
  if write && decide (32 ≤ probeQueued (coreOf s s.cur).probe) then .error (.freeze 5)
  else
    let x := slotOf s s.cur j
    let s1 := if write then queueProbe s s.cur (newWriteBack j x (issuerOf s.cur (release t))) else s
    putScalar (setSlot s1 s.cur j (releasedSlot x st)) (release t) rd
      (BitVec.ofNat 64 (if write then (coreOf s1 s.cur).probe.no else 0)) 1

section
variable {g : Guard} {ra rd : BitVec 5} {wb : Bool} {s : State} {t : Thread} {va : Word} {next : Nat → Option Nat}
  (hp : Performs s t g) (hblock : probeBlock t ra = .ok va) (hf : Fits t (.sreg rd.toNat) 1)
include hblock

theorem releaseSlot_untagged (htag : slotFor s s.cur (t.regs.asid.toNat % 2 ^ 16) va = none) :
    releaseSlot s rd ra wb next t = putScalar s t rd 0 1 := by
  rw [releaseSlot, hblock]
  dsimp only [Except.bind]
  rw [wf_15_0, htag]

section
variable {j : Nat} (htag : slotFor s s.cur (t.regs.asid.toNat % 2 ^ 16) va = some j)
include htag

theorem releaseSlot_tagged : releaseSlot s rd ra wb next t =
    (next (slotOf s s.cur j).state).elim (putScalar s t rd 0 1)
      (fun st => releaseAs s t rd j st (wb && (slotOf s s.cur j).state == 3)) := by
  rw [releaseSlot, hblock]
  dsimp only [Except.bind]
  rw [wf_15_0, htag]
  dsimp only
  cases next (slotOf s s.cur j).state <;> rfl

theorem releaseSlot_kept (hnext : next (slotOf s s.cur j).state = none) :
    releaseSlot s rd ra wb next t = putScalar s t rd 0 1 := by
  rw [releaseSlot_tagged hblock htag, hnext]
  rfl

variable {st : Nat} (hnext : next (slotOf s s.cur j).state = some st)
include hnext

theorem releaseSlot_unwritten (hw : (wb && (slotOf s s.cur j).state == 3) = false) : releaseSlot s rd ra wb next t =
    putScalar (setSlot s s.cur j (releasedSlot (slotOf s s.cur j) st)) (release t) rd (BitVec.ofNat 64 0) 1 := by
  rw [releaseSlot_tagged hblock htag, hnext, hw]
  rfl

theorem releaseSlot_full (hw : (wb && (slotOf s s.cur j).state == 3) = true) (hfull : 32 ≤ probeQueued (coreOf s s.cur).probe) :
    releaseSlot s rd ra wb next t = .error (.freeze 5) := by
  rw [releaseSlot_tagged hblock htag, hnext, hw, Option.elim_some, releaseAs, decide_eq_true hfull]
  rfl

theorem releaseSlot_written (hw : (wb && (slotOf s s.cur j).state == 3) = true) (hroom : probeQueued (coreOf s s.cur).probe < 32) :
    releaseSlot s rd ra wb next t =
      let s1 := queueProbe s s.cur (newWriteBack j (slotOf s s.cur j) (issuerOf s.cur (release t)))
      putScalar (setSlot s1 s.cur j (releasedSlot (slotOf s s.cur j) st)) (release t) rd
        (BitVec.ofNat 64 (coreOf s1 s.cur).probe.no) 1 := by
  rw [releaseSlot_tagged hblock htag, hnext, hw, Option.elim_some, releaseAs, decide_eq_false (Nat.not_le.mpr hroom)]
  rfl

include hp hf

/-- R259: a slot that needs no write-back is released with the number 0. -/
theorem releases_unwritten (hw : (wb && (slotOf s s.cur j).state == 3) = false) :
    ∃ s' t', runSlot g s (releaseSlot s rd ra wb next) = .next s' ∧ GivesOne s t rd s' t' 0 ∧
      t'.det.scnt = (t.det.scnt + 1) % 2 ^ 32 ∧
      (coreOf s' s.cur).probe.slots = mset PSlot.invalid j (releasedSlot (slotOf s s.cur j) st) (coreOf s s.cur).probe.slots ∧
      (coreOf s' s.cur).probe.no = (coreOf s s.cur).probe.no := by
  obtain ⟨s', t', hrun, hone, hcount, hprobe⟩ :=
    runSlot_releases hp hf (samePlace_modProbe ..) (releaseSlot_unwritten (rd := rd) hblock htag hnext hw)
  rw [probe_modProbe] at hprobe
  exact ⟨s', t', hrun, hone, hcount, by rw [hprobe], by rw [hprobe]⟩

/-- R259: a DIRTY slot is released with the number of its write-back. -/
theorem releases_written (hw : (wb && (slotOf s s.cur j).state == 3) = true) (hroom : probeQueued (coreOf s s.cur).probe < 32) :
    ∃ s' t', runSlot g s (releaseSlot s rd ra wb next) = .next s' ∧ GivesOne s t rd s' t' ((coreOf s s.cur).probe.no + 1) ∧
      t'.det.scnt = (t.det.scnt + 1) % 2 ^ 32 ∧
      (coreOf s' s.cur).probe.slots = mset PSlot.invalid j (releasedSlot (slotOf s s.cur j) st) (coreOf s s.cur).probe.slots ∧
      (coreOf s' s.cur).probe.no = (coreOf s s.cur).probe.no + 1 := by
  have hwritten := releaseSlot_written (rd := rd) hblock htag hnext hw hroom
  obtain ⟨hsame, q, hqueued⟩ := queueProbe_spec s s.cur (newWriteBack j (slotOf s s.cur j) (issuerOf s.cur (release t)))
  dsimp only at hwritten
  rw [hqueued] at hwritten
  obtain ⟨s', t', hrun, hone, hcount, hprobe⟩ := runSlot_releases hp hf (hsame.trans (samePlace_modProbe ..)) hwritten
  rw [probe_modProbe, hqueued] at hprobe
  exact ⟨s', t', hrun, hone, hcount, by rw [hprobe], by rw [hprobe]⟩

end

end

/-- The state that a released slot goes to under EVICT (R259). -/
def evictNext (wb : Bool) (st : Nat) : Option Nat := if st = 2 ∨ st = 3 ∨ (st = 4 ∧ !wb) then some 0 else none

/-- The state that a released slot goes to under WBACK (R259). -/
def wbackNext (st : Nat) : Option Nat := if st = 2 ∨ st = 3 then some 2 else none

theorem exec_evict (h : MHdr) (wb : Bool) (ra rd : BitVec 5) (s : State) :
    exec (.evict h wb ra rd) s = runSlot h.g s (releaseSlot s rd ra wb (evictNext wb)) := rfl

theorem exec_wback (h : MHdr) (ra rd : BitVec 5) (s : State) :
    exec (.wback h ra rd) s = runSlot h.g s (releaseSlot s rd ra true wbackNext) := rfl

/-- A slot that WBACK has left VALID. -/
theorem slotOf_cleaned {s' : State} {c j : Nat} {x : PSlot} {m : Map PSlot}
    (h : (coreOf s' c).probe.slots = mset PSlot.invalid j (releasedSlot x 2) m) : slotOf s' c j = { x with state := 2 } := by
  have hne : releasedSlot x 2 ≠ PSlot.invalid := fun h => absurd (congrArg PSlot.state h) (by decide : ¬ (2 : Nat) = 0)
  rw [mset, if_neg hne] at h
  exact slotOf_listed rfl h

theorem slot_with_state {x : PSlot} {n : Nat} (h : x.state = n) : { x with state := n } = x := by
  subst h
  rfl

end Sys2Proof.Machine

namespace Sys2Proof.Machine

/-! The cache slots (O24) -/

section
variable {h : MHdr} {pd way : BitVec 3} {rdp : BitVec 4} {ra rd rb : BitVec 5} {tgt : BitVec 6} {wayf mb barf wb : Bool} {s : State}
  {t : Thread} {va : Word} {bar : Option (Word × Nat)}
  (hp : Performs s t h.g) (hblock : probeBlock t ra = .ok va) (hf : Fits t (.sreg rd.toNat) 1)

/-- A way that PROBE or FILL may take, by the way that it names. -/
theorem mayTake_iff (first w : Nat) : MayTake s s.cur first (if wayf then some way.toNat else none) w ↔
    w < 8 ∧ (wayf = true → w = way.toNat) ∧ (slotOf s s.cur (first + w)).state ≠ 1 ∧ (slotOf s s.cur (first + w)).drop_ = false := by
  cases wayf with
  | true => exact and_congr_right fun _ => and_congr_left fun _ => ⟨fun h _ => h _ rfl, fun h x hx => (h rfl).trans (Option.some.inj hx)⟩
  | false => exact and_congr_right fun _ => and_congr_left fun _ => ⟨fun _ => nofun, fun _ => nofun⟩

theorem namedWay_lt (w : Nat) (hw : (if wayf then some way.toNat else none) = some w) : w < 8 := by
  cases wayf with
  | true => exact Option.some.inj hw ▸ way.isLt
  | false => cases hw

/-- R56: the way that a miss takes, where one may be taken. -/
theorem missVictim_some (hon : (coreOf s s.cur).probe.cfg.getLsbD 0 = true)
    (hmay : ∃ w, MayTake s s.cur (8 * probeSet (coreOf s s.cur).probe.cfg va) (if wayf then some way.toNat else none) w) :
    ∃ w, missVictim s s.cur va (if wayf then some way.toNat else none) = some w ∧
      MayTake s s.cur (8 * probeSet (coreOf s s.cur).probe.cfg va) (if wayf then some way.toNat else none) w := by
  obtain ⟨-, hnone⟩ | hsome := missVictim_enabled hon (va := va) (namedWay_lt (wayf := wayf) (way := way))
  · obtain ⟨w, hw⟩ := hmay
    exact absurd hw (hnone w)
  · exact hsome

section
variable (hbar : fillBar s t barf rb = .ok bar) (htgt : mb = true → tgt.toNat < t.q.buf.count)
include hp hblock hbar htgt

/-- R57: the slots on a miss whose fill finds no room. -/
theorem slots_full {w : Nat} (htag : slotFor s s.cur (t.regs.asid.toNat % 2 ^ 16) va = none)
    (hvictim : missVictim s s.cur va (if wayf then some way.toNat else none) = some w) (hfull : 32 < probeQueued (coreOf s s.cur).probe +
      1 + dirtyBit (slotOf s s.cur (8 * probeSet (coreOf s s.cur).probe.cfg va + w))) :
    exec (.probe h pd rdp ra wayf way mb tgt barf rb) s = .next (attend s s.cur (.freeze 5)) ∧
      exec (.fill h rd ra wayf way barf rb) s = .next (attend s s.cur (.freeze 5)) :=
  slots_meet hp hblock hbar htgt (look_full (probeLook_untagged htag) hvictim hfull)

include hf

/-- R257: the slots on a block with a tag. -/
theorem slots_tagged {j : Nat} (hon : (coreOf s s.cur).probe.cfg.getLsbD 0 = true)
    (htag : slotFor s s.cur (t.regs.asid.toNat % 2 ^ 16) va = some j) :
    ((slotOf s s.cur j).state = 2 ∨ (slotOf s s.cur j).state = 3 →
      (ProbeRoom t pd rdp → ∃ s' t', exec (.probe h pd rdp ra wayf way mb tgt barf rb) s = .next s' ∧
        GivesThree s t pd rdp mb tgt s' t' true j (slotOf s s.cur j).no) ∧
      ∃ s' t', exec (.fill h rd ra wayf way barf rb) s = .next s' ∧ GivesOne s t rd s' t' (slotOf s s.cur j).no) ∧
    ((slotOf s s.cur j).state = 1 →
      (ProbeRoom t pd rdp → ∃ s' t', exec (.probe h pd rdp ra wayf way mb tgt barf rb) s = .next s' ∧
        GivesThree s t pd rdp mb tgt s' t' false j (slotOf s s.cur j).no) ∧
      ∃ s' t', exec (.fill h rd ra wayf way barf rb) s = .next s' ∧ GivesOne s t rd s' t' (slotOf s s.cur j).no) ∧
    ((slotOf s s.cur j).state = 4 →
      exec (.probe h pd rdp ra wayf way mb tgt barf rb) s = .next (attend s s.cur (.pending 5 j)) ∧
      exec (.fill h rd ra wayf way barf rb) s = .next (attend s s.cur (.pending 5 j))) := by
  refine ⟨fun hst => ?_, fun hst => ?_, fun hst => ?_⟩
  · obtain ⟨s1, dp, df, hsame, hlook⟩ := look_hit (if wayf then some way.toNat else none) bar hon htag hst
    exact slots_leave hp hblock hbar htgt hsame hf hlook
  · exact slots_leave hp hblock hbar htgt ⟨rfl, rfl⟩ hf (look_filling _ bar hon htag hst)
  · exact slots_meet hp hblock hbar htgt (look_err _ bar hon htag hst)

/-- R56, R257: the slots on a miss that takes no slot. -/
theorem slots_untaken (hmiss : (coreOf s s.cur).probe.cfg.getLsbD 0 = false ∨
      (slotFor s s.cur (t.regs.asid.toNat % 2 ^ 16) va = none ∧
        ∀ w, ¬ MayTake s s.cur (8 * probeSet (coreOf s s.cur).probe.cfg va) (if wayf then some way.toNat else none) w)) :
    (ProbeRoom t pd rdp → ∃ s' t', exec (.probe h pd rdp ra wayf way mb tgt barf rb) s = .next s' ∧
      GivesThree s t pd rdp mb tgt s' t' false (2 ^ 64 - 1) 0) ∧
    ∃ s' t', exec (.fill h rd ra wayf way barf rb) s = .next s' ∧ GivesOne s t rd s' t' 0 := by
  have hlook : probeLook s s.cur t va = .miss := by
    obtain hoff | ⟨htag, -⟩ := hmiss
    · exact probeLook_disabled hoff
    · exact probeLook_untagged htag
  have hvictim : missVictim s s.cur va (if wayf then some way.toNat else none) = none := by
    cases hcfg : (coreOf s s.cur).probe.cfg.getLsbD 0 with
    | false => exact missVictim_disabled hcfg ..
    | true =>
      obtain hoff | ⟨-, hnone⟩ := hmiss
      · exact absurd (hcfg.symm.trans hoff) (by decide)
      · obtain ⟨hvictim, -⟩ | ⟨w, -, hmay⟩ := missVictim_enabled hcfg (va := va) (namedWay_lt (wayf := wayf) (way := way))
        · exact hvictim
        · exact absurd hmay (hnone w)
  exact slots_leave hp hblock hbar htgt ⟨rfl, rfl⟩ hf (look_untaken hlook hvictim)

/-- R57, R257: the slots on a miss that takes a slot. -/
theorem slots_taken {w : Nat} (htag : slotFor s s.cur (t.regs.asid.toNat % 2 ^ 16) va = none)
    (hvictim : missVictim s s.cur va (if wayf then some way.toNat else none) = some w)
    (hread : ∀ b, bar = some b → ∃ v, readBar s (whoCore s.cur) b.2 b.1 = (.ok v, s)) :
    let j := 8 * probeSet (coreOf s s.cur).probe.cfg va + w
    let n := (coreOf s s.cur).probe.no + 1 + dirtyBit (slotOf s s.cur j)
    let filling (s' : State) (t' : Thread) : Prop := (slotOf s' s.cur j).state = 1 ∧ (slotOf s' s.cur j).va = va ∧
      (slotOf s' s.cur j).no = n ∧ (coreOf s' s.cur).probe.no = n ∧ t'.det.scnt = (t.det.scnt + 1) % 2 ^ 32
    probeQueued (coreOf s s.cur).probe + 1 + dirtyBit (slotOf s s.cur j) ≤ 32 →
    (ProbeRoom t pd rdp → ∃ s' t', exec (.probe h pd rdp ra wayf way mb tgt barf rb) s = .next s' ∧
      GivesThree s t pd rdp mb tgt s' t' false j n ∧ filling s' t') ∧
    ∃ s' t', exec (.fill h rd ra wayf way barf rb) s = .next s' ∧ GivesOne s t rd s' t' n ∧ filling s' t' := by
  intro j n filling hroom
  obtain ⟨s1, hsame, hno, hslot, hlook⟩ := look_taken (probeLook_untagged htag) hvictim hread hroom
  obtain ⟨hprobe, hfill⟩ := slots_give (pd := pd) (rdp := rdp) hp hblock hbar htgt hsame hf hlook
  have hfilling (t' : Thread) (hdet : t'.det = (release t).det) : filling (setThread s1 s.cur t') t' := by
    have hslot' : slotOf (setThread s1 s.cur t') s.cur j = fillingSlot (release t) va n := by
      rw [slotOf, probe_setThread]
      exact hslot
    refine ⟨by rw [hslot']; rfl, by rw [hslot']; rfl, by rw [hslot']; rfl, by rw [probe_setThread, hno], by rw [hdet]; rfl⟩
  exact ⟨fun hr => ⟨_, _, hprobe hr, probedOn_gives hsame .., hfilling _ (probedOn_det ..)⟩,
    ⟨_, _, hfill, numbered_gives hsame .., hfilling _ rfl⟩⟩

end

include hp hblock hf

/-- R259: EVICT and WBACK of a block that has no slot. -/
theorem releases_untagged (htag : slotFor s s.cur (t.regs.asid.toNat % 2 ^ 16) va = none) :
    exec (.evict h wb ra rd) s = .next (withScalar s t rd 1 0) ∧ exec (.wback h ra rd) s = .next (withScalar s t rd 1 0) :=
  ⟨runSlot_scalar hp hf (releaseSlot_untagged hblock htag), runSlot_scalar hp hf (releaseSlot_untagged hblock htag)⟩

section
variable {j : Nat} (htag : slotFor s s.cur (t.regs.asid.toNat % 2 ^ 16) va = some j)
include htag

/-- R259: EVICT. -/
theorem evict_slot :
    let x := slotOf s s.cur j
    let pr := (coreOf s s.cur).probe
    (x.state = 2 ∨ ((x.state = 3 ∨ x.state = 4) ∧ wb = false) →
      ∃ s' t', exec (.evict h wb ra rd) s = .next s' ∧ GivesOne s t rd s' t' 0 ∧ t'.det.scnt = (t.det.scnt + 1) % 2 ^ 32 ∧
        (coreOf s' s.cur).probe.slots = mdel j pr.slots ∧ (coreOf s' s.cur).probe.no = pr.no) ∧
    (x.state = 3 → wb = true → probeQueued pr < 32 →
      ∃ s' t', exec (.evict h wb ra rd) s = .next s' ∧ GivesOne s t rd s' t' (pr.no + 1) ∧ t'.det.scnt = (t.det.scnt + 1) % 2 ^ 32 ∧
        (coreOf s' s.cur).probe.slots = mdel j pr.slots ∧ (coreOf s' s.cur).probe.no = pr.no + 1) ∧
    (x.state = 3 → wb = true → 32 ≤ probeQueued pr → exec (.evict h wb ra rd) s = .next (attend s s.cur (.freeze 5))) ∧
    (x.state = 1 ∨ (x.state = 4 ∧ wb = true) → exec (.evict h wb ra rd) s = .next (withScalar s t rd 1 0)) := by
  intro x pr
  have hdirty (hst : x.state = 3) : evictNext wb x.state = some 0 := by rw [hst]; rfl
  have hwrite (hst : x.state = 3) (hwb : wb = true) : (wb && x.state == 3) = true := by rw [hst, hwb]; rfl
  refine ⟨fun hst => ?_, fun hst hwb hroom => ?_, fun hst hwb hfull => ?_, fun hst => ?_⟩
  · have hnext : evictNext wb x.state = some 0 := if_pos (by
      obtain h2 | ⟨h3 | h4, hwb⟩ := hst
      · exact .inl h2
      · exact .inr (.inl h3)
      · exact .inr (.inr ⟨h4, by rw [hwb]; rfl⟩))
    have hclean : (wb && x.state == 3) = false := by
      obtain h2 | ⟨-, hwb⟩ := hst
      · rw [h2]
        exact Bool.and_false wb
      · rw [hwb]
        rfl
    exact releases_unwritten hp hblock hf htag hnext hclean
  · exact releases_written hp hblock hf htag (hdirty hst) (hwrite hst hwb) hroom
  · exact runSlot_error _ _ _ _ _ hp.1 hp.2 (releaseSlot_full hblock htag (hdirty hst) (hwrite hst hwb) hfull)
  · refine runSlot_scalar hp hf (releaseSlot_kept hblock htag (if_neg ?_))
    obtain h1 | ⟨h4, hwb⟩ := hst
    · simp [x, h1]
    · simp [x, h4, hwb]

/-- R259: WBACK. -/
theorem wback_slot :
    let x := slotOf s s.cur j
    let pr := (coreOf s s.cur).probe
    (x.state = 2 → ∃ s' t', exec (.wback h ra rd) s = .next s' ∧ GivesOne s t rd s' t' 0 ∧
      t'.det.scnt = (t.det.scnt + 1) % 2 ^ 32 ∧ slotOf s' s.cur j = x ∧ (coreOf s' s.cur).probe.no = pr.no) ∧
    (x.state = 3 → probeQueued pr < 32 → ∃ s' t', exec (.wback h ra rd) s = .next s' ∧ GivesOne s t rd s' t' (pr.no + 1) ∧
      t'.det.scnt = (t.det.scnt + 1) % 2 ^ 32 ∧ slotOf s' s.cur j = { x with state := 2 } ∧
      (coreOf s' s.cur).probe.no = pr.no + 1) ∧
    (x.state = 3 → 32 ≤ probeQueued pr → exec (.wback h ra rd) s = .next (attend s s.cur (.freeze 5))) ∧
    (x.state = 1 ∨ x.state = 4 → exec (.wback h ra rd) s = .next (withScalar s t rd 1 0)) := by
  intro x pr
  have hnext {n : Nat} (hst : x.state = n) (hn : wbackNext n = some 2) : wbackNext x.state = some 2 := hst ▸ hn
  have hwrite {n : Nat} (hst : x.state = n) : (true && x.state == 3) = (n == 3) := by rw [hst, Bool.true_and]
  refine ⟨fun hst => ?_, fun hst hroom => ?_, fun hst hfull => ?_, fun hst => ?_⟩
  · obtain ⟨s', t', hrun, hone, hcount, hslots, hno⟩ := releases_unwritten hp hblock hf htag (hnext hst rfl) (hwrite hst)
    exact ⟨s', t', hrun, hone, hcount, (slotOf_cleaned hslots).trans (slot_with_state hst), hno⟩
  · obtain ⟨s', t', hrun, hone, hcount, hslots, hno⟩ := releases_written hp hblock hf htag (hnext hst rfl) (hwrite hst) hroom
    exact ⟨s', t', hrun, hone, hcount, slotOf_cleaned hslots, hno⟩
  · exact runSlot_error _ _ _ _ _ hp.1 hp.2 (releaseSlot_full hblock htag (hnext hst rfl) (hwrite hst) hfull)
  · refine runSlot_scalar hp hf (releaseSlot_kept hblock htag (if_neg ?_))
    obtain h1 | h4 := hst
    · simp [x, h1]
    · simp [x, h4]

end

end

/-- Settles O24: each slot is a lookup followed by what it puts in flight. A miss takes the way that its slot names or the
tree's victim, which is one that may be taken where there is any. -/
theorem probeCacheSlots : Obligations.ProbeCacheSlots := by
  intro h pd way rdp ra rd rb tgt wayf mb barf wb s t va bar hp hblock hbar htgt hf c pr at_ first d asProbe asFill room row one
    three may dirty counted
  have hmay (w : Nat) : MayTake s s.cur first (if wayf then some way.toNat else none) w ↔ may w := mayTake_iff ..
  have hvictim (hon : pr.cfg.getLsbD 0 = true) (hsome : ∃ w, may w) :
      ∃ w, missVictim s c va (if wayf then some way.toNat else none) = some w ∧ may w := by
    obtain ⟨w, hw, htake⟩ := missVictim_some hon (hsome.imp fun w => (hmay w).mpr)
    exact ⟨w, hw, (hmay w).mp htake⟩
  refine ⟨fun j hon htag => slots_tagged hp hblock hf hbar htgt hon htag, fun hmiss => ?_, fun hon htag hsome => ⟨fun hroom hread => ?_,
    fun hfull => ?_⟩, fun j htag => ?_, fun htag => releases_untagged hp hblock hf htag⟩
  · exact slots_untaken hp hblock hf hbar htgt (hmiss.imp_right fun ⟨htag, hnone⟩ => ⟨htag, fun w hw => hnone w ((hmay w).mp hw)⟩)
  · obtain ⟨w, hw, htake⟩ := hvictim hon hsome
    exact ⟨w, htake, slots_taken hp hblock hf hbar htgt htag hw hread (hroom w htake)⟩
  · obtain ⟨w, hw, htake⟩ := hvictim hon hsome
    exact slots_full hp hblock hbar htgt htag hw (hfull w htake)
  · obtain ⟨hevict, hevictWritten, hevictFull, hevictKept⟩ := evict_slot (wb := wb) hp hblock hf htag
    obtain ⟨hwback, hwbackWritten, hwbackFull, hwbackKept⟩ := wback_slot hp hblock hf htag
    exact ⟨hevict, hevictWritten, hwback, hwbackWritten, fun hst hfull => ⟨fun hwb => hevictFull hst hwb hfull, hwbackFull hst hfull⟩,
      hevictKept, hwbackKept⟩

end Sys2Proof.Machine

namespace Sys2Proof.Machine

/-! A write from the fabric to a granule whose tag is lost (O54) -/

theorem wr_performed {p : Packet} {s s1 : State} (h : performWrite s (whoArrive s p) p.addr.toNat p.data = (none, s1)) :
    exec (.wr p) s = .next (respondTo (arrivalTags s1 p p.addr.toNat p.data.length) p 0x10 0) := by
  show execWr p s = _
  rw [execWr, h]

/-- An answer that enters the router changes no byte of memory. -/
theorem mem_respondTo (s : State) (p : Packet) (kind sub : Nat) (data : List Byte) : (respondTo s p kind sub data).mem = s.mem := by
  unfold respondTo injectPacket routeAgain
  dsimp only
  split
  · rfl
  · exact schedule_mem ..

/-- A device with core 0 enabled, in which the tag of granule 64 has been found bad (R50). -/
def lostTag : State := { State.reset with todo := [], plat := { Platform.reset with yield_ := 1 }, tagErr := [64] }

/-- A write of one byte of that granule from device 1. -/
def writeFromOne : Packet := { blankPacket with src := 1, kind := 1, addr := 0x1000, data := [7] }

/-- The state in which the byte has been written. -/
def lostTagWritten : State := { lostTag with mem := [(0x1000, 7)] }

theorem performWrite_lostTag : performWrite lostTag (whoArrive lostTag writeFromOne) 0x1000 [7] = (none, lostTagWritten) := by
  decide +kernel

/-- R50, R334: the tags of the ingress write meet the lost one, whose event enters the ring of die 0 at address 0. -/
theorem event_lostTag : memByte (arrivalTags lostTagWritten writeFromOne 0x1000 1).mem 7 = 0x20 := by
  decide +kernel

theorem unwritten_lostTag : memByte lostTagWritten.mem 7 = 0 := by
  rfl

/-- Refutes O54: the clause on WR has it that memory after the write's answer is memory after the write. The write's tags
are set between them (R146); a tag found bad there logs an SRAM event (R50), and the event's entry is written to the
die's fault queue, which lies in memory. -/
theorem not_fabricTarget : ¬ Obligations.FabricTarget := by
  unfold Obligations.FabricTarget
  rintro ⟨hanswers, -⟩
  obtain ⟨hwr, -⟩ := hanswers writeFromOne lostTag lostTagWritten ⟨[], none⟩ 0 0
  obtain ⟨s', hnext, -, hmem⟩ := hwr performWrite_lostTag
  rw [wr_performed performWrite_lostTag] at hnext
  rw [← Host.Outcome.next.inj hnext, mem_respondTo] at hmem
  have hbyte := event_lostTag.symm.trans ((congrArg (memByte · 7) hmem).trans unwritten_lostTag)
  exact absurd hbyte (by decide)

end Sys2Proof.Machine
